-- ==== Sys2Proof/Word.lean ====
section
/-! DEFINITION. The word types of the model and their plainest arithmetic. -/
namespace Sys2Proof

/-- One byte. -/
abbrev Byte := BitVec 8
/-- A 64-bit register value, virtual address or PC. -/
abbrev W64 := BitVec 64
/-- A 96-bit instruction word (R359). -/
abbrev IWord := BitVec 96
/-- A queue entry or f register of 128 bits (R286, R297). -/
abbrev W128 := BitVec 128
/-- The data bits of a c register (R290). -/
abbrev W192 := BitVec 192

end Sys2Proof
end

