-- ==== Sys2Proof/Syntax.lean ====
section
/-! DEFINITION. The syntax of the machine: operand bytes, the header of a word, the operand records of the
forms, the data of the events, and `Instr`, one constructor per row of spec/opcode_table.json. -/
namespace Sys2Proof

/-- An operand byte (R364). -/
inductive Opd where
  | c (n : BitVec 6)
  | l (n : BitVec 2)
  | d (n : BitVec 1)
  | xq
  | aq
  | i (n : BitVec 3)
  | o (n : BitVec 3)
  | s (n : BitVec 4)
  | f (n : BitVec 4)
  | m (n : BitVec 3)
  /-- inline constant: the byte is 0x80 + v, the value v - 64 (R364) -/
  | imm (v : BitVec 7)
  deriving DecidableEq, Repr, Inhabited

/-- The fields every word has beside opcode and operands (R359). -/
structure Hdr where
  /-- stream bit S: true is the access half -/
  s : Bool
  /-- safe point P: a live mask word follows -/
  p : Bool
  g : BitVec 4
  gn : Bool
  hc : BitVec 2
  hi : BitVec 3
  deriving DecidableEq, Repr, Inhabited

/-- Scopes (R103); 6 and 7 name none. -/
inductive Scope where
  | core | row | cl | die | dev | sys
  deriving DecidableEq, Repr, Inhabited

/-- BR (R379): the signed word offset. -/
structure BrOps where
  off : BitVec 40
  deriving DecidableEq, Repr, Inhabited
structure BrxOps where
  a : Opd
  b : Opd
  deriving DecidableEq, Repr, Inhabited
/-- CALL and LOOP: link or counter register and offset. -/
structure CallOps where
  d : BitVec 6
  off : BitVec 40
  deriving DecidableEq, Repr, Inhabited
structure CallxOps where
  d : BitVec 6
  a : Opd
  deriving DecidableEq, Repr, Inhabited
structure RetOps where
  a : Opd
  deriving DecidableEq, Repr, Inhabited
structure TrapOps where
  imm : BitVec 48
  deriving DecidableEq, Repr, Inhabited
structure SigOps where
  crc : BitVec 32
  deriving DecidableEq, Repr, Inhabited
/-- Integer instructions of R387; `ty` is TYPE. -/
structure IntOps where
  d : Opd
  a : Opd
  b : Opd
  c : Opd
  ty : BitVec 3
  deriving DecidableEq, Repr, Inhabited
structure CmpOps where
  d : BitVec 4
  a : Opd
  b : Opd
  ty : BitVec 3
  cond : BitVec 4
  deriving DecidableEq, Repr, Inhabited
structure SelOps where
  d : BitVec 6
  p : BitVec 4
  b : Opd
  c : Opd
  deriving DecidableEq, Repr, Inhabited
structure MovOps where
  d : Opd
  a : Opd
  deriving DecidableEq, Repr, Inhabited
structure MoviOps where
  d : Opd
  imm : BitVec 48
  deriving DecidableEq, Repr, Inhabited
structure PredOps where
  d : BitVec 4
  a : BitVec 4
  b : BitVec 4
  deriving DecidableEq, Repr, Inhabited
structure RngOps where
  d : Opd
  a : Opd
  b : Opd
  deriving DecidableEq, Repr, Inhabited
/-- Capability instructions (R398). -/
structure CapOps where
  d : BitVec 6
  a : BitVec 6
  b : Opd
  deriving DecidableEq, Repr, Inhabited
/-- Majors 0x40-0x46 (R400, R401). -/
structure MemOps where
  d : Opd
  a : BitVec 6
  b : Opd
  scope : BitVec 3
  size : BitVec 3
  sx : Bool
  off : BitVec 16
  deriving DecidableEq, Repr, Inhabited
/-- SDEF (R408); `b` is c0 for a linear walk. -/
structure SdefOps where
  d : BitVec 4
  a : BitVec 6
  b : BitVec 6
  fmt : BitVec 7
  deriving DecidableEq, Repr, Inhabited
structure SdefwOps where
  d : BitVec 4
  a : BitVec 6
  b : BitVec 6
  deriving DecidableEq, Repr, Inhabited
structure SdefkOps where
  d : BitVec 4
  a : BitVec 6
  b : Opd
  layer : BitVec 9
  deriving DecidableEq, Repr, Inhabited
structure SdefsOps where
  d : BitVec 4
  a : BitVec 6
  deriving DecidableEq, Repr, Inhabited
/-- SLD and SRD. -/
structure SldOps where
  d : BitVec 2
  a : BitVec 4
  deriving DecidableEq, Repr, Inhabited
structure SstOps where
  d : BitVec 4
  a : Opd
  deriving DecidableEq, Repr, Inhabited
structure FenceOps where
  d : BitVec 4
  scope : BitVec 3
  deriving DecidableEq, Repr, Inhabited
/-- CLEAN, INVAL, FLUSH. -/
structure LineOps where
  a : BitVec 6
  scope : BitVec 3
  deriving DecidableEq, Repr, Inhabited
structure SpOps where
  d : BitVec 4
  a : BitVec 6
  deriving DecidableEq, Repr, Inhabited
/-- Atomics (R125). -/
structure AtomOps where
  d : BitVec 6
  a : BitVec 6
  b : Opd
  c : Opd
  scope : BitVec 3
  order : BitVec 2
  w64 : Bool
  off : BitVec 16
  deriving DecidableEq, Repr, Inhabited
/-- RADD and RCLR. -/
structure RedOps where
  a : BitVec 6
  b : Opd
  off : BitVec 16
  deriving DecidableEq, Repr, Inhabited
/-- Stock instructions (R143). `pd` is used by STKINIT and STKTAKE, `cd` by STKREAD. -/
structure StkOps where
  pd : BitVec 4
  cd : BitVec 6
  a : BitVec 6
  b : Opd
  c : Opd
  isLocal : Bool
  deriving DecidableEq, Repr, Inhabited
/-- Phaser instructions (R134). `mode` is PHREG's suffix; `pd` is PHEXP's predicate. -/
structure PhOps where
  cd : BitVec 6
  pd : BitVec 4
  a : BitVec 6
  b : Opd
  mode : BitVec 2
  deriving DecidableEq, Repr, Inhabited
/-- EVWAIT, EVPOP, EVPEEK (R417). -/
structure EvOps where
  d : Opd
  a : BitVec 6
  deriving DecidableEq, Repr, Inhabited
/-- Form E (R371). -/
structure EngOps where
  d : BitVec 6
  a : BitVec 6
  b : Opd
  acq : Bool
  rel : Bool
  scope : BitVec 3
  tag : BitVec 16
  cmd : BitVec 27
  deriving DecidableEq, Repr, Inhabited
/-- QPEEK and QCNT (R422). -/
structure QOps where
  d : BitVec 6
  a : Opd
  b : Opd
  deriving DecidableEq, Repr, Inhabited
/-- Scalar floating point and the wide unit (R423). -/
structure FpOps where
  d : Opd
  a : Opd
  b : Opd
  c : Opd
  rm : BitVec 3
  subn : BitVec 2
  ovf : BitVec 2
  nan : BitVec 2
  fmt : BitVec 7
  fmt2 : BitVec 7
  opt : BitVec 4
  deriving DecidableEq, Repr, Inhabited
structure MgangOps where
  n : BitVec 48
  deriving DecidableEq, Repr, Inhabited
/-- Form T (R370). -/
structure MatOps where
  d : Opd
  a : Opd
  b : Opd
  tc : Opd
  sap : Bool
  san : BitVec 4
  sbp : Bool
  sbn : BitVec 4
  fa : BitVec 7
  fb : BitVec 7
  scale : BitVec 2
  km1 : BitVec 10
  deriving DecidableEq, Repr, Inhabited
/-- MZERO, MLD, MST, MCOPY, MSTAT (R443). -/
structure TileOps where
  d : Opd
  a : Opd
  deriving DecidableEq, Repr, Inhabited
/-- WHOLD (R276). -/
structure WholdOps where
  d : BitVec 4
  a : BitVec 6
  b : Opd
  c : Opd
  layer : BitVec 9
  deriving DecidableEq, Repr, Inhabited
structure WfreeOps where
  d : BitVec 4
  a : BitVec 6
  b : Opd
  layer : BitVec 9
  deriving DecidableEq, Repr, Inhabited
structure WdoneOps where
  d : BitVec 4
  a : BitVec 6
  b : BitVec 6
  c : Opd
  deriving DecidableEq, Repr, Inhabited
structure WcellOps where
  d : BitVec 6
  a : BitVec 6
  b : Opd
  c : Opd
  deriving DecidableEq, Repr, Inhabited
structure CtlrdOps where
  d : BitVec 6
  kreg : BitVec 12
  deriving DecidableEq, Repr, Inhabited
structure CtlwrOps where
  b : Opd
  kreg : BitVec 12
  deriving DecidableEq, Repr, Inhabited
structure TlbOps where
  d : BitVec 4
  a : BitVec 6
  b : BitVec 6
  c : BitVec 6
  deriving DecidableEq, Repr, Inhabited
structure TlbinvOps where
  d : BitVec 4
  a : BitVec 6
  b : BitVec 6
  c : BitVec 6
  target : BitVec 2
  whole : Bool
  deriving DecidableEq, Repr, Inhabited
structure TlbprobeOps where
  d : BitVec 6
  a : BitVec 6
  b : BitVec 6
  cluster : Bool
  deriving DecidableEq, Repr, Inhabited
structure CflushOps where
  d : BitVec 4
  b : Opd
  c : Opd
  deriving DecidableEq, Repr, Inhabited
structure HbeatOps where
  code : BitVec 16
  deriving DecidableEq, Repr, Inhabited
structure IdleOps where
  d : BitVec 4
  timeout : BitVec 32
  deriving DecidableEq, Repr, Inhabited

/-- What the world decides during a start (R37, R15): fuse parity, channels whose training fails, ports that train, and
the route table Chrogon-F loads, peer id by port. -/
structure StartEnv where
  fuseOk : Bool
  failedChannels : List Nat
  trainedPorts : List Nat
  routes : List (Nat × Nat)
  deriving DecidableEq, Repr, Inhabited

/-- A host CXL.mem request (R120, R20). `hpa` is an offset behind HDM decoder 0. -/
structure CxlReq where
  hpa : Nat
  /-- bytes written, or none for a read of `len` bytes -/
  write : Option (List Byte)
  len : Nat
  /-- the request belongs to an unsupported feature (R20) -/
  unsupported : Bool
  /-- the host keeps a copy of the line -/
  cached : Bool
  deriving DecidableEq, Repr, Inhabited

/-- A peer's request to this device's memory (R121). -/
inductive PeerOp where
  | read (len : Nat)
  | write (data : List Byte)
  /-- an atomic of R126: minor of major 0x60, or 9 for ACAS, 10 for AFADD -/
  | atomic (op : Nat) (w64 : Bool) (b c : W64)
  deriving DecidableEq, Repr, Inhabited

structure PeerReq where
  port : Nat
  peer : Nat
  pa : Nat
  op : PeerOp
  deriving DecidableEq, Repr, Inhabited

/-- What the scrub finds in a sector of a pseudo-channel (R65, R68): its group and its place among the group's 60 data
sectors, and how many symbols of its code word are wrong. -/
structure ScrubFind where
  channel : Nat
  group : Nat
  sector : Nat
  symbols : Nat
  deriving DecidableEq, Repr, Inhabited

/-- An engine of R416, with its place. -/
inductive EngineId where
  | copy (cluster : Nat)
  | clusterSync (cluster : Nat)
  | dieSync (die : Nat)
  | bank (channel : Nat)
  | joiner (cluster : Nat)
  | kiln (die : Nat)
  | scribe (die : Nat)
  | firmware (die : Nat)
  deriving DecidableEq, Repr, Inhabited

/-- What the world, or the schedule, hands to an event: the argument of the turn that runs it (log 1). An event whose
argument is of another form changes nothing. -/
inductive Arg where
  | none
  /-- a core, cluster, die, context, slot, vector, port, counter, sequence or place in a list, as the event says -/
  | ix (n : Nat)
  | ix2 (a b : Nat)
  | ix3 (a b c : Nat)
  /-- HCTL.START (R35, R37) -/
  | start (w : W64) (env : StartEnv)
  | value (v : W64)
  /-- another register of the window (R35) -/
  | register (off : Nat) (v : W128)
  | post (slot : Nat) (image : List Byte) (seq : BitVec 32)
  | cxl (r : CxlReq)
  | peer (r : PeerReq)
  | scrub (finds : List ScrubFind)
  | record (bytes : List Byte)
  | retrain (port : Nat) (lostLock : Bool)
  | engine (e : EngineId) (ix : Nat)
  | snoop (line : Nat) (inval : Bool)
  | parity (die : Nat) (engine : Byte)
  /-- an ATTEST at a place of a firmware inbox, whose KEYIDX write-back fails (R48) -/
  | keyFail (die ix : Nat)
  deriving DecidableEq, Repr, Inhabited

/-- The instructions and the events: one constructor per row of spec/opcode_table.json. The instructions carry their
header and operands; an event takes its argument from the turn that runs it (`Arg`). -/
inductive Instr where
  -- control (R379-R386)
  | nop (h : Hdr)
  | br (h : Hdr) (o : BrOps) | brx (h : Hdr) (o : BrxOps) | call (h : Hdr) (o : CallOps)
  | callx (h : Hdr) (o : CallxOps) | ret (h : Hdr) (o : RetOps) | loop (h : Hdr) (o : CallOps)
  | finCommit (h : Hdr) | finAgain (h : Hdr) | finAbort (h : Hdr)
  | yield (h : Hdr) | trap (h : Hdr) (o : TrapOps) | sig (h : Hdr) (o : SigOps)
  -- integer and bits (R387-R397)
  | add (h : Hdr) (o : IntOps) | sub (h : Hdr) (o : IntOps) | mul (h : Hdr) (o : IntOps)
  | mulh (h : Hdr) (o : IntOps) | mulhn (h : Hdr) (o : IntOps)
  | div (h : Hdr) (o : IntOps) | divn (h : Hdr) (o : IntOps)
  | rem (h : Hdr) (o : IntOps) | remn (h : Hdr) (o : IntOps)
  | and (h : Hdr) (o : IntOps) | or (h : Hdr) (o : IntOps) | xor (h : Hdr) (o : IntOps) | andn (h : Hdr) (o : IntOps)
  | shl (h : Hdr) (o : IntOps) | shr (h : Hdr) (o : IntOps) | sra (h : Hdr) (o : IntOps) | rotr (h : Hdr) (o : IntOps)
  | min (h : Hdr) (o : IntOps) | max (h : Hdr) (o : IntOps) | minn (h : Hdr) (o : IntOps) | maxn (h : Hdr) (o : IntOps)
  | abs (h : Hdr) (o : IntOps) | neg (h : Hdr) (o : IntOps)
  | clz (h : Hdr) (o : IntOps) | ctz (h : Hdr) (o : IntOps) | popc (h : Hdr) (o : IntOps)
  | brev (h : Hdr) (o : IntOps) | bswp (h : Hdr) (o : IntOps)
  | extr (h : Hdr) (o : IntOps) | extrn (h : Hdr) (o : IntOps) | ins (h : Hdr) (o : IntOps)
  | sel (h : Hdr) (o : SelOps) | mov (h : Hdr) (o : MovOps)
  | movi (h : Hdr) (o : MoviOps) | moviHigh (h : Hdr) (o : MoviOps)
  | cmp (h : Hdr) (o : CmpOps)
  | pand (h : Hdr) (o : PredOps) | por (h : Hdr) (o : PredOps) | pxor (h : Hdr) (o : PredOps) | pnot (h : Hdr) (o : PredOps)
  | rngx (h : Hdr) (o : RngOps)
  -- capabilities (R398, R399)
  | csetb (h : Hdr) (o : CapOps) | csetp (h : Hdr) (o : CapOps) | cadd (h : Hdr) (o : CapOps)
  | cgetb (h : Hdr) (o : CapOps) | cgetl (h : Hdr) (o : CapOps) | cgetp (h : Hdr) (o : CapOps) | cgett (h : Hdr) (o : CapOps)
  | cclr (h : Hdr) (o : CapOps) | cseal (h : Hdr) (o : CapOps) | cunseal (h : Hdr) (o : CapOps)
  -- memory and streams (R400-R414)
  | ld (h : Hdr) (o : MemOps) | ldc (h : Hdr) (o : MemOps) | st (h : Hdr) (o : MemOps) | stc (h : Hdr) (o : MemOps)
  | lda (h : Hdr) (o : MemOps) | str (h : Hdr) (o : MemOps) | pref (h : Hdr) (o : MemOps)
  | sdef (h : Hdr) (o : SdefOps) | sdefw (h : Hdr) (o : SdefwOps) | sdefk (h : Hdr) (o : SdefkOps) | sdefs (h : Hdr) (o : SdefsOps)
  | sld (h : Hdr) (o : SldOps) | sst (h : Hdr) (o : SstOps) | srd (h : Hdr) (o : SldOps)
  | fence (h : Hdr) (o : FenceOps)
  | clean (h : Hdr) (o : LineOps) | inval (h : Hdr) (o : LineOps) | flush (h : Hdr) (o : LineOps)
  | spalloc (h : Hdr) (o : SpOps) | spfree (h : Hdr) (o : SpOps)
  -- atomics and reductions (R125-R131)
  | aadd (h : Hdr) (o : AtomOps) | aand (h : Hdr) (o : AtomOps) | aor (h : Hdr) (o : AtomOps) | axor (h : Hdr) (o : AtomOps)
  | amin (h : Hdr) (o : AtomOps) | amax (h : Hdr) (o : AtomOps) | aminn (h : Hdr) (o : AtomOps) | amaxn (h : Hdr) (o : AtomOps)
  | aswap (h : Hdr) (o : AtomOps) | acas (h : Hdr) (o : AtomOps) | afadd (h : Hdr) (o : AtomOps)
  | radd (h : Hdr) (o : RedOps) | rclr (h : Hdr) (o : RedOps)
  -- stock counters (R143-R150)
  | stkinit (h : Hdr) (o : StkOps) | stktake (h : Hdr) (o : StkOps) | stkgive (h : Hdr) (o : StkOps)
  | stkreadApprox (h : Hdr) (o : StkOps) | stkreadExact (h : Hdr) (o : StkOps)
  -- phasers (R134-R138)
  | phreg (h : Hdr) (o : PhOps) | phdrop (h : Hdr) (o : PhOps) | phsig (h : Hdr) (o : PhOps) | phwait (h : Hdr) (o : PhOps)
  | phsw (h : Hdr) (o : PhOps) | phexp (h : Hdr) (o : PhOps) | phgather (h : Hdr) (o : PhOps)
  -- event queues, messages, stage queues (R417-R422)
  | evwait (h : Hdr) (o : EvOps) | evpop (h : Hdr) (o : EvOps) | evpeek (h : Hdr) (o : EvOps)
  | send (h : Hdr) (o : EngOps) | withdraw (h : Hdr) (o : EngOps)
  | qpeek (h : Hdr) (o : QOps) | qcnt (h : Hdr) (o : QOps)
  -- scalar floating point (R426-R432)
  | fadd (h : Hdr) (o : FpOps) | fsub (h : Hdr) (o : FpOps) | fmul (h : Hdr) (o : FpOps)
  | fma (h : Hdr) (o : FpOps) | fms (h : Hdr) (o : FpOps) | fnma (h : Hdr) (o : FpOps) | fnms (h : Hdr) (o : FpOps)
  | fdiv (h : Hdr) (o : FpOps) | fsqrt (h : Hdr) (o : FpOps) | frsqe (h : Hdr) (o : FpOps) | frcpe (h : Hdr) (o : FpOps)
  | fmin (h : Hdr) (o : FpOps) | fmax (h : Hdr) (o : FpOps) | fabs (h : Hdr) (o : FpOps) | fneg (h : Hdr) (o : FpOps)
  | fcpsgn (h : Hdr) (o : FpOps) | fcmp (h : Hdr) (o : FpOps) | fclass (h : Hdr) (o : FpOps) | fcvt (h : Hdr) (o : FpOps)
  | fscalb (h : Hdr) (o : FpOps) | fexpo (h : Hdr) (o : FpOps)
  -- the wide unit (R433-R442)
  | vadd (h : Hdr) (o : FpOps) | vsub (h : Hdr) (o : FpOps) | vmul (h : Hdr) (o : FpOps) | vfma (h : Hdr) (o : FpOps)
  | vmax (h : Hdr) (o : FpOps) | vmin (h : Hdr) (o : FpOps) | vabs (h : Hdr) (o : FpOps) | vexp2 (h : Hdr) (o : FpOps)
  | vrsqe (h : Hdr) (o : FpOps) | vrcpe (h : Hdr) (o : FpOps) | vcmp (h : Hdr) (o : FpOps) | vsel (h : Hdr) (o : FpOps)
  | vfill (h : Hdr) (o : FpOps) | vcopy (h : Hdr) (o : FpOps) | vgather (h : Hdr) (o : FpOps) | vscatter (h : Hdr) (o : FpOps)
  | vcvt (h : Hdr) (o : FpOps) | vqnt (h : Hdr) (o : FpOps) | vamax (h : Hdr) (o : FpOps) | vsum (h : Hdr) (o : FpOps)
  | vdot (h : Hdr) (o : FpOps) | vdelta (h : Hdr) (o : FpOps) | vrope (h : Hdr) (o : FpOps) | vlse (h : Hdr) (o : FpOps)
  -- the joint matrix array (R443-R449)
  | mgang (h : Hdr) (o : MgangOps) | mmul (h : Hdr) (o : MatOps) | mgrp (h : Hdr) (o : MatOps)
  | mzero (h : Hdr) (o : TileOps) | mld (h : Hdr) (o : TileOps) | mst (h : Hdr) (o : TileOps)
  | mdrain (h : Hdr) (o : MatOps) | mdrainAdd (h : Hdr) (o : MatOps) | mdrainAddOrd (h : Hdr) (o : MatOps)
  | mcopy (h : Hdr) (o : TileOps) | mstat (h : Hdr) (o : TileOps)
  -- engine commands (R450-R462)
  | cpy (h : Hdr) (o : EngOps) | cpy2d (h : Hdr) (o : EngOps) | cprot (h : Hdr) (o : EngOps) | cpfill (h : Hdr) (o : EngOps)
  | bkadd (h : Hdr) (o : EngOps) | bkaxpy (h : Hdr) (o : EngOps) | bkgemv (h : Hdr) (o : EngOps) | bkzero (h : Hdr) (o : EngOps)
  | kvapp (h : Hdr) (o : EngOps) | kvseal (h : Hdr) (o : EngOps) | kvpatch (h : Hdr) (o : EngOps) | kvfork (h : Hdr) (o : EngOps)
  | kvtrunc (h : Hdr) (o : EngOps) | kvstat (h : Hdr) (o : EngOps)
  | kvjopen (h : Hdr) (o : EngOps) | kvjmark (h : Hdr) (o : EngOps) | kvjundo (h : Hdr) (o : EngOps) | kvjclose (h : Hdr) (o : EngOps)
  | edins (h : Hdr) (o : EngOps) | eddel (h : Hdr) (o : EngOps) | edrep (h : Hdr) (o : EngOps) | settle (h : Hdr) (o : EngOps)
  | raise (h : Hdr) (o : EngOps) | rebind (h : Hdr) (o : EngOps)
  -- validity instructions (R263, R266, R276, R283)
  | wholdWithin (h : Hdr) (o : WholdOps) | wholdBefore (h : Hdr) (o : WholdOps) | wholdAfter (h : Hdr) (o : WholdOps)
  | wfree (h : Hdr) (o : WfreeOps) | wdone (h : Hdr) (o : WdoneOps) | wcell (h : Hdr) (o : WcellOps) | wmark (h : Hdr) (o : EngOps)
  -- system (R467-R478)
  | ctlrd (h : Hdr) (o : CtlrdOps) | ctlwr (h : Hdr) (o : CtlwrOps)
  | tlbwr (h : Hdr) (o : TlbOps) | tlbwrFill (h : Hdr) (o : TlbOps) | tlbwrFault (h : Hdr) (o : TlbOps) | tlbwrPeer (h : Hdr) (o : TlbOps)
  | tlbinv (h : Hdr) (o : TlbinvOps) | tlbprobe (h : Hdr) (o : TlbprobeOps) | cflush (h : Hdr) (o : CflushOps)
  | rett (h : Hdr) | hbeat (h : Hdr) (o : HbeatOps) | idle (h : Hdr) (o : IdleOps)
  -- the events of the machine and of the world
  | powerLoss | hctlStart | imageFirstHeartbeatTimeout | hctlNegGo | hmqheadWrite | registerWrite
  | messageSlotPost | messageSlotClear | slotMessageAccept | msixRateIntervalExpiry | hostCxlMemAccess | ctxnew
  | ctxend | ctxtrap | stockalloc | shore | shoot | shootdownComplete | sched | linkcfg | slotvec | attest
  | seqopen | seqclose | verdict | thermalThrottle | thermalRecover | thermalFatal | dieBridgeLoss
  | linkReplayRequest | linkRetrainStart | linkRetrainSuccess | linkRetrainLimitExpiry | peerLost | peerReachable
  | hbmScrub | shoreStageComplete | shoreStageTimeout | handoverRecordWritten | handoverTimeout | shoreAcceptance
  | shoreGapLimitExpiry | watchdogHeartbeatMiss | shoreCommit | committedHeartbeatLoss | firstTouchServe
  | dupReadReplicate | dupWriteCollapse | stockHomeServe | stockRecallOrder | stockReturnArrival
  | stockReclaimProbe | phaserCompletionArrival | heldRecordDelivery | firingStart | firingResume
  | preemptAtSafePoint | quotaAdjust | overdueRotation | budgetPeriodStart | cycleBudgetSpent | byteBudgetSpent
  | overrunExpiry | frameEnd | drainApply | waveEnterLayer | editDeferredApply | editRotationComplete
  | afterHoldGrant | engineCommandComplete | wideUnitStep | ageingIntervalExpiry | idleTimeoutExpiry
  | msixVectorUnmask | peerRequestArrival | hostCacheSnoop | stateParityError | shoreFallbackComplete
  deriving DecidableEq, Repr, Inhabited

end Sys2Proof
end

