-- ==== Sys2Proof/WellFormed.lean ====
section
/-! DEFINITION. Which instructions are legal (R359-R377): the checks a decoded word must pass, each rejected by a
name of its own. The checks that need the issuing agent (R375, R463) stand in Machine/System.lean. -/
namespace Sys2Proof

/-- Why a word is no instruction (R376). Safe: every one is the illegal-instruction fate of the spec. -/
inductive Reject where
  /-- fewer than 12 bytes were given to the decoder -/
  | short
  /-- unlisted major opcode -/
  | major
  /-- unlisted minor opcode -/
  | minor
  /-- a reserved bit or a position fixed at 0x00 is not zero -/
  | reserved
  /-- S names the other half for a fixed major (R362) -/
  | stream
  /-- a guard the half, or the instruction, does not admit (R363) -/
  | guard
  /-- an operand byte of a class the position does not admit (R364-R366) -/
  | operand
  /-- a predicate number of the other half or above 0x0F (R367) -/
  | predicate
  /-- a format code the position does not admit (R320) -/
  | format
  /-- an illegal value of the FP control field (R326) -/
  | fpControl
  /-- a scope outside 0-5, or a scope without an order flag (R371, R125) -/
  | scope
  /-- a field mismatch of form T (R370) -/
  | formT
  /-- an immediate or field outside its admitted values -/
  | range
  deriving DecidableEq, Repr, Inhabited

namespace Wf

/-- The first check that fails. -/
def first : List (Bool × Reject) → Option Reject
  | [] => none
  | (ok, r) :: t => if ok then first t else some r

/-- R362, R363: the stream bit and the guard of a word whose half is fixed. `acc` is the fixed half. -/
def guardOf (h : Hdr) : Bool := if h.s then h.g == 0 || h.g.toNat ≥ 8 else h.g.toNat ≤ 7
def access (h : Hdr) : List (Bool × Reject) := [(h.s, .stream), (guardOf h, .guard)]
def execute (h : Hdr) : List (Bool × Reject) := [(!h.s, .stream), (guardOf h, .guard)]
def either (h : Hdr) : List (Bool × Reject) := [(guardOf h, .guard)]
/-- SIG, FIN, MGANG, MMUL, MGRP carry no guard (R363). -/
def unguarded (h : Hdr) : List (Bool × Reject) := [(h.g == 0 && !h.gn, .guard)]

/-- R367: predicates of the half. -/
def pred (s : Bool) (p : BitVec 4) : Bool := if s then p == 0 || p.toNat ≥ 8 else p.toNat ≤ 7

def isC : Opd → Bool | .c _ => true | _ => false
def isL : Opd → Bool | .l _ => true | _ => false
def isD : Opd → Bool | .d _ => true | _ => false
def isS : Opd → Bool | .s _ => true | _ => false
def isF : Opd → Bool | .f _ => true | _ => false
def isM : Opd → Bool | .m _ => true | _ => false
def isI : Opd → Bool | .i _ => true | _ => false
def isImm : Opd → Bool | .imm _ => true | _ => false
def isXq : Opd → Bool | .xq => true | _ => false
def isZero (o : Opd) : Bool := o == .c 0
def cOrImm (o : Opd) : Bool := isC o || isImm o

/-- R365: a queue the half pops. -/
def popQ (s : Bool) : Opd → Bool
  | .l _ => !s | .aq => !s | .d _ => s | .xq => s | .i _ => s | _ => false
/-- R365: a queue the half pushes. -/
def pushQ (s : Bool) : Opd → Bool
  | .l _ => s | .aq => s | .o _ => s | .d _ => !s | .xq => !s | _ => false
def src (s : Bool) (o : Opd) : Bool := isC o || popQ s o
def srcImm (s : Bool) (o : Opd) : Bool := isC o || popQ s o || isImm o
def dst (s : Bool) (o : Opd) : Bool := isC o || pushQ s o

/-- R320, R323: the codes that name a format. -/
def fmtB8 (c : BitVec 7) : Bool := c.toNat ≥ 0x40 && !c.getLsbD 3 && c.extractLsb' 0 3 != 0
def fmtInt (c : BitVec 7) : Bool := [0x08, 0x09, 0x0A, 0x10, 0x11, 0x12, 0x14, 0x15, 0x16].contains c.toNat
def fmtNamed (c : BitVec 7) : Bool := c.toNat ≤ 0x0B || fmtInt c || fmtB8 c
/-- every code of R320 but E8M0 -/
def fmtElem (c : BitVec 7) : Bool := fmtNamed c && c != 0x0B
/-- the operand formats of the matrix array (R443) -/
def fmtMat (c : BitVec 7) : Bool := c.toNat ≤ 0x0A || fmtB8 c
def fmtF32 (c : BitVec 7) : Bool := c == 0
def fmt2 (c : BitVec 7) : Bool := c.toNat ≤ 1
def fmt3 (c : BitVec 7) : Bool := c.toNat ≤ 2
/-- formats whose element is 1, 2 or 4 bytes (R437) -/
def fmt124 (c : BitVec 7) : Bool := fmtElem c && !([0x07, 0x0A, 0x12, 0x16].contains c.toNat)
def fmtQnt (c : BitVec 7) : Bool := c.toNat ≥ 3 && c.toNat ≤ 7

/-- R326: `intRes` says that the result is an integer. -/
def fpc (o : FpOps) (intRes : Bool) : List (Bool × Reject) :=
  [(o.rm.toNat ≤ 4 || (o.rm == 5 && intRes), .fpControl), (o.subn != 3, .fpControl), (o.ovf != 3, .fpControl),
   (o.nan != 3, .fpControl)]

/-- R424: a scalar source of the execute half. -/
def scalar (o : Opd) : Bool := isC o || isL o || o == .aq || isF o || isImm o
def scalarDst (o : Opd) : Bool := isC o || isD o || isXq o
def streamOrScalar (o : Opd) : Bool := isS o || scalar o

/-- a scalar floating-point word (R426) with the classes of its positions -/
def fpScalar (h : Hdr) (o : FpOps) (nsrc : Nat) (fmt : BitVec 7 → Bool) : Option Reject :=
  first (execute h ++
    [(scalarDst o.d, .operand), (scalar o.a, .operand),
     (if nsrc ≥ 2 then scalar o.b else isZero o.b, .operand),
     (if nsrc ≥ 3 then scalar o.c else isZero o.c, .operand),
     (fmt o.fmt, .format), (o.fmt2 == 0, .format), (o.opt == 0, .range)] ++ fpc o false)

/-- a wide-unit word whose D is a stream -/
def vec (h : Hdr) (o : FpOps) (a b c : Opd → Bool) (fmt : BitVec 7 → Bool) : Option Reject :=
  first (execute h ++
    [(isS o.d, .operand), (a o.a, .operand), (b o.b, .operand), (c o.c, .operand),
     (fmt o.fmt, .format), (o.fmt2 == 0, .format), (o.opt == 0, .range)] ++ fpc o false)

/-- a reduction (R440) -/
def red (h : Hdr) (o : FpOps) (b : Opd → Bool) : Option Reject :=
  first (execute h ++
    [(isF o.d, .operand), (isS o.a, .operand), (b o.b, .operand), (isZero o.c, .operand),
     (fmt2 o.fmt, .format), (o.fmt2 == 0, .format), (o.opt == 0, .range)] ++ fpc o false)

/-- three-operand integer word: D, A, B; C fixed (R387) -/
def int3 (h : Hdr) (o : IntOps) : Option Reject :=
  first (either h ++ [(dst h.s o.d, .operand), (srcImm h.s o.a, .operand), (srcImm h.s o.b, .operand),
    (isZero o.c, .reserved)])
def int2 (h : Hdr) (o : IntOps) : Option Reject :=
  first (either h ++ [(dst h.s o.d, .operand), (srcImm h.s o.a, .operand), (isZero o.b, .reserved),
    (isZero o.c, .reserved)])

def scopeOk (s : BitVec 3) : Bool := s.toNat ≤ 5

/-- form E (R371) -/
def formE (h : Hdr) (o : EngOps) (b : Opd → Bool) (cmd : Bool) : Option Reject :=
  first (access h ++ [(scopeOk o.scope, .scope), (o.scope == 0 || o.acq || o.rel, .scope),
    (b o.b, .operand), (cmd, .reserved)])

/-- R401: majors 0x40-0x46 -/
def mem (h : Hdr) (o : MemOps) (d b : Opd → Bool) (maxSize : Nat) (sx scope : Bool) : Option Reject :=
  first (access h ++ [(d o.d, .operand), (b o.b, .operand), (o.size.toNat ≤ maxSize, .range),
    (!o.sx || (sx && o.size.toNat ≤ 2), .range), (if scope then scopeOk o.scope else o.scope == 0, .scope)])

/-- R125 -/
def atom (h : Hdr) (o : AtomOps) (c : Opd → Bool) : Option Reject :=
  first (access h ++ [(scopeOk o.scope, .scope), (o.scope == 0 || o.order != 0, .scope),
    (cOrImm o.b, .operand), (c o.c, .operand)])

/-- R370 for MMUL and MGRP -/
def gang (h : Hdr) (o : MatOps) (tc : Opd → Bool) : Option Reject :=
  first (execute h ++ unguarded h ++ [(isM o.d, .operand), (isS o.a, .operand), (isS o.b, .operand), (tc o.tc, .operand),
    (fmtMat o.fa, .format), (fmtMat o.fb, .format), (o.scale != 3, .formT),
    (o.scale == 0 || (o.sap && o.sbp), .formT), (o.scale != 0 || (!o.sap && !o.sbp), .formT),
    (o.sap || o.san == 0, .formT), (o.sbp || o.sbn == 0, .formT)])

/-- R443 for MDRAIN -/
def drain (h : Hdr) (o : MatOps) (tc : Opd → Bool) (fa : Bool) (km1 : Bool) : Option Reject :=
  first (execute h ++ [(isZero o.d, .operand), (isC o.a, .operand), (isM o.b, .operand), (tc o.tc, .operand),
    (fa, .format), (o.fb == 0, .reserved), (!o.sap && !o.sbp && o.san == 0 && o.sbn == 0 && o.scale == 0, .formT),
    (km1, .range)])

def tile (h : Hdr) (o : TileOps) (d a : Opd → Bool) : Option Reject :=
  first (execute h ++ [(d o.d, .operand), (a o.a, .operand)])

end Wf

open Wf in
/-- What is wrong with an instruction as syntax, by name; none for a legal one. An event has no encoding and no
check. -/
def Instr.check : Instr → Option Reject
  | .nop h => first (either h)
  | .br h _ => first (access h)
  | .brx h o => first (access h ++ [(src true o.a, .operand), (srcImm true o.b, .operand)])
  | .call h _ => first (access h)
  | .callx h o => first (access h ++ [(src true o.a, .operand)])
  | .ret h o => first (access h ++ [(src true o.a, .operand)])
  | .loop h o => first (access h ++ [(o.d != 0, .operand)])
  | .finCommit h => first (access h ++ unguarded h)
  | .finAgain h => first (access h ++ unguarded h)
  | .finAbort h => first (access h ++ unguarded h)
  | .yield h => first (access h)
  | .trap h _ => first (access h)
  | .sig h _ => first (access h ++ unguarded h)
  | .add h o => int3 h o
  | .sub h o => int3 h o
  | .mul h o => int3 h o
  | .mulh h o => int3 h o
  | .mulhn h o => int3 h o
  | .div h o => int3 h o
  | .divn h o => int3 h o
  | .rem h o => int3 h o
  | .remn h o => int3 h o
  | .and h o => int3 h o
  | .or h o => int3 h o
  | .xor h o => int3 h o
  | .andn h o => int3 h o
  | .shl h o => int3 h o
  | .shr h o => int3 h o
  | .sra h o => int3 h o
  | .rotr h o => int3 h o
  | .min h o => int3 h o
  | .max h o => int3 h o
  | .minn h o => int3 h o
  | .maxn h o => int3 h o
  | .abs h o => int2 h o
  | .neg h o => int2 h o
  | .clz h o => int2 h o
  | .ctz h o => int2 h o
  | .popc h o => int2 h o
  | .brev h o => int2 h o
  | .bswp h o => int2 h o
  | .extr h o => first (either h ++ [(dst h.s o.d, .operand), (srcImm h.s o.a, .operand), (srcImm h.s o.b, .operand),
      (srcImm h.s o.c, .operand), (o.ty == 0, .range)])
  | .extrn h o => first (either h ++ [(dst h.s o.d, .operand), (srcImm h.s o.a, .operand), (srcImm h.s o.b, .operand),
      (srcImm h.s o.c, .operand), (o.ty == 0, .range)])
  | .ins h o => first (either h ++ [(isC o.d, .operand), (srcImm h.s o.a, .operand), (srcImm h.s o.b, .operand),
      (srcImm h.s o.c, .operand), (o.ty == 0, .range)])
  | .sel h o => first (either h ++ [(pred h.s o.p, .predicate), (srcImm h.s o.b, .operand), (srcImm h.s o.c, .operand)])
  | .mov h o => first (either h ++ [(dst h.s o.d, .operand), (srcImm h.s o.a || (isF o.a && !h.s), .operand)])
  | .movi h o => first (either h ++ [(dst h.s o.d, .operand)])
  | .moviHigh h o => first (either h ++ [(dst h.s o.d, .operand)])
  | .cmp h o => first (either h ++ [(pred h.s o.d, .predicate), (srcImm h.s o.a, .operand), (srcImm h.s o.b, .operand),
      (o.cond.toNat ≤ 11, .range)])
  | .pand h o => first (either h ++ [(pred h.s o.d, .predicate), (pred h.s o.a, .predicate), (pred h.s o.b, .predicate)])
  | .por h o => first (either h ++ [(pred h.s o.d, .predicate), (pred h.s o.a, .predicate), (pred h.s o.b, .predicate)])
  | .pxor h o => first (either h ++ [(pred h.s o.d, .predicate), (pred h.s o.a, .predicate), (pred h.s o.b, .predicate)])
  | .pnot h o => first (either h ++ [(pred h.s o.d, .predicate), (pred h.s o.a, .predicate), (o.b == 0, .reserved)])
  | .rngx h o => first (either h ++ [(isC o.d || (if h.s then isL o.d else isD o.d), .operand),
      (isC o.a || (if h.s then isD o.a else isL o.a), .operand), (srcImm h.s o.b, .operand)])
  | .csetb h o => first (either h ++ [(srcImm h.s o.b, .operand)])
  | .csetp h o => first (either h ++ [(srcImm h.s o.b, .operand)])
  | .cadd h o => first (either h ++ [(srcImm h.s o.b, .operand)])
  | .cgetb h o => first (either h ++ [(isZero o.b, .reserved)])
  | .cgetl h o => first (either h ++ [(isZero o.b, .reserved)])
  | .cgetp h o => first (either h ++ [(isZero o.b, .reserved)])
  | .cgett h o => first (either h ++ [(isZero o.b, .reserved)])
  | .cclr h o => first (either h ++ [(isZero o.b, .reserved)])
  | .cseal h o => first (either h ++ [(isC o.b, .operand)])
  | .cunseal h o => first (either h ++ [(isC o.b, .operand)])
  | .ld h o => mem h o (fun d => isC d || isL d) isZero 4 true false
  | .ldc h o => mem h o isC isZero 0 false false
  | .st h o => mem h o isZero (fun b => isC b || isD b || isXq b || isImm b) 4 false false
  | .stc h o => mem h o isZero isC 0 false false
  | .lda h o => mem h o isC isZero 3 true true
  | .str h o => mem h o isZero (fun b => isC b || isXq b || isImm b) 3 false true
  | .pref h o => mem h o isZero isZero 0 false false
  | .sdef h o => first (access h ++ [(fmtElem o.fmt, .format)])
  | .sdefw h _ => first (access h)
  | .sdefk h o => first (access h ++ [(cOrImm o.b, .operand), (o.layer.toNat ≤ 256, .range)])
  | .sdefs h _ => first (access h)
  | .sld h _ => first (access h)
  | .sst h o => first (access h ++ [(isC o.a || isD o.a, .operand)])
  | .srd h _ => first (access h)
  | .fence h o => first (access h ++ [(scopeOk o.scope, .scope), (pred true o.d, .predicate)])
  | .clean h o => first (access h ++ [(scopeOk o.scope, .scope)])
  | .inval h o => first (access h ++ [(scopeOk o.scope, .scope)])
  | .flush h o => first (access h ++ [(scopeOk o.scope, .scope)])
  | .spalloc h o => first (access h ++ [(pred true o.d, .predicate)])
  | .spfree h o => first (access h ++ [(o.d == 0, .reserved)])
  | .aadd h o => atom h o isZero
  | .aand h o => atom h o isZero
  | .aor h o => atom h o isZero
  | .axor h o => atom h o isZero
  | .amin h o => atom h o isZero
  | .amax h o => atom h o isZero
  | .aminn h o => atom h o isZero
  | .amaxn h o => atom h o isZero
  | .aswap h o => atom h o isZero
  | .acas h o => atom h o cOrImm
  | .afadd h o => (atom h o isZero).or (first [(!o.w64, .range)])
  | .radd h o => first (access h ++ [(cOrImm o.b, .operand)])
  | .rclr h o => first (access h ++ [(isZero o.b, .reserved)])
  | .stkinit h o => first (access h ++ [(pred true o.pd, .predicate), (o.cd == 0, .reserved), (cOrImm o.b, .operand),
      (cOrImm o.c, .operand), (!o.isLocal, .reserved)])
  | .stktake h o => first (access h ++ [(pred true o.pd, .predicate), (o.cd == 0, .reserved), (cOrImm o.b, .operand),
      (isZero o.c, .reserved)])
  | .stkgive h o => first (access h ++ [(o.pd == 0, .reserved), (o.cd == 0, .reserved), (cOrImm o.b, .operand),
      (isZero o.c, .reserved), (!o.isLocal, .reserved)])
  | .stkreadApprox h o => first (access h ++ [(o.pd == 0, .reserved), (isZero o.b, .reserved), (isZero o.c, .reserved),
      (!o.isLocal, .reserved)])
  | .stkreadExact h o => first (access h ++ [(o.pd == 0, .reserved), (isZero o.b, .reserved), (isZero o.c, .reserved),
      (!o.isLocal, .reserved)])
  | .phreg h o => first (access h ++ [(o.pd == 0, .reserved), (isZero o.b, .reserved), (o.mode != 3, .range)])
  | .phdrop h o => first (access h ++ [(o.pd == 0, .reserved), (o.cd == 0, .reserved), (isZero o.b, .reserved),
      (o.mode == 0, .reserved)])
  | .phsig h o => first (access h ++ [(o.pd == 0, .reserved), (o.cd == 0, .reserved), (isZero o.b, .reserved),
      (o.mode == 0, .reserved)])
  | .phwait h o => first (access h ++ [(o.pd == 0, .reserved), (cOrImm o.b, .operand), (o.mode == 0, .reserved)])
  | .phsw h o => first (access h ++ [(o.pd == 0, .reserved), (isZero o.b, .reserved), (o.mode == 0, .reserved)])
  | .phexp h o => first (access h ++ [(pred true o.pd, .predicate), (o.cd == 0, .reserved), (cOrImm o.b, .operand),
      (o.mode == 0, .reserved)])
  | .phgather h o => first (access h ++ [(o.pd == 0, .reserved), (o.cd == 0, .reserved), (isZero o.b, .reserved),
      (o.mode == 0, .reserved)])
  | .evwait h o => first (access h ++ [(isZero o.d, .reserved)])
  | .evpop h o => first (access h ++ [(isC o.d || isL o.d, .operand)])
  | .evpeek h o => first (access h ++ [(isC o.d || isL o.d, .operand)])
  | .send h o => formE h o isC (o.cmd.extractLsb' 0 14 == 0 && (!isZero o.b || o.cmd.extractLsb' 14 4 == 0))
  | .withdraw h o => (formE h o cOrImm (o.cmd == 0)).or
      (first [(o.a == 0, .reserved), (!o.acq && !o.rel && o.scope == 0, .reserved)])
  | .qpeek h o => first (access h ++ [(isI o.a, .operand), (cOrImm o.b, .operand)])
  | .qcnt h o => first (access h ++ [(isI o.a || isC o.a, .operand), (isZero o.b, .reserved)])
  | .fadd h o => fpScalar h o 2 fmt3
  | .fsub h o => fpScalar h o 2 fmt3
  | .fmul h o => fpScalar h o 2 fmt3
  | .fma h o => fpScalar h o 3 fmt3
  | .fms h o => fpScalar h o 3 fmt3
  | .fnma h o => fpScalar h o 3 fmt3
  | .fnms h o => fpScalar h o 3 fmt3
  | .fdiv h o => fpScalar h o 2 fmt3
  | .fsqrt h o => fpScalar h o 1 fmt3
  | .frsqe h o => fpScalar h o 1 fmt2
  | .frcpe h o => fpScalar h o 1 fmt2
  | .fmin h o => fpScalar h o 2 fmt3
  | .fmax h o => fpScalar h o 2 fmt3
  | .fabs h o => fpScalar h o 1 fmt3
  | .fneg h o => fpScalar h o 1 fmt3
  | .fcpsgn h o => fpScalar h o 2 fmt3
  | .fcmp h o => first (execute h ++
      [((match o.d with | .c n => n.toNat ≤ 7 | _ => false), .predicate), (scalar o.a, .operand), (scalar o.b, .operand),
       (isZero o.c, .reserved), (fmt3 o.fmt, .format), (o.fmt2 == 0, .format), (o.opt.toNat ≤ 7, .range)] ++ fpc o false)
  | .fclass h o => fpScalar h o 1 fmt3
  | .fcvt h o => first (execute h ++
      [(scalarDst o.d, .operand), (scalar o.a, .operand), (isZero o.b, .reserved), (isZero o.c, .reserved),
       (fmtElem o.fmt, .format), (fmtElem o.fmt2, .format), (o.opt == 0, .range)] ++ fpc o (fmtInt o.fmt2))
  | .fscalb h o => fpScalar h o 2 fmt3
  | .fexpo h o => fpScalar h o 1 fmt3
  | .vadd h o => vec h o streamOrScalar streamOrScalar isZero fmt2
  | .vsub h o => vec h o streamOrScalar streamOrScalar isZero fmt2
  | .vmul h o => vec h o streamOrScalar streamOrScalar isZero fmt2
  | .vfma h o => vec h o streamOrScalar streamOrScalar streamOrScalar fmt2
  | .vmax h o => vec h o streamOrScalar streamOrScalar isZero fmt2
  | .vmin h o => vec h o streamOrScalar streamOrScalar isZero fmt2
  | .vabs h o => vec h o isS isZero isZero fmt2
  | .vexp2 h o => vec h o isS isZero isZero fmt2
  | .vrsqe h o => vec h o isS isZero isZero fmt2
  | .vrcpe h o => vec h o isS isZero isZero fmt2
  | .vcmp h o => first (execute h ++
      [(isS o.d, .operand), (streamOrScalar o.a, .operand), (streamOrScalar o.b, .operand), (isZero o.c, .reserved),
       (fmt2 o.fmt, .format), (o.fmt2 == 0, .format), (o.opt.toNat ≤ 7, .range)] ++ fpc o false)
  | .vsel h o => vec h o streamOrScalar streamOrScalar streamOrScalar fmtElem
  | .vfill h o => vec h o scalar isZero isZero fmtElem
  | .vcopy h o => vec h o isS isZero isZero fmtElem
  | .vgather h o => first (execute h ++
      [(isS o.d, .operand), (isC o.a, .operand), (isS o.b, .operand), (isZero o.c, .reserved), (fmt124 o.fmt, .format),
       (o.fmt2 == 0x11 || o.fmt2 == 0x15, .format), (o.opt == 0, .range)] ++ fpc o false)
  | .vscatter h o => first (execute h ++
      [(isZero o.d, .reserved), (isC o.a, .operand), (isS o.b, .operand), (streamOrScalar o.c, .operand),
       (fmt124 o.fmt, .format), (o.fmt2 == 0x11 || o.fmt2 == 0x15, .format), (o.opt == 0, .range)] ++ fpc o false)
  | .vcvt h o => first (execute h ++
      [(isS o.d, .operand), (isS o.a, .operand), (isZero o.b, .reserved), (isZero o.c, .reserved),
       (fmtElem o.fmt, .format), (fmtElem o.fmt2, .format), (o.opt == 0, .range)] ++ fpc o (fmtInt o.fmt2))
  | .vqnt h o => first (execute h ++
      [(isS o.d, .operand), (isS o.a, .operand), (isS o.b, .operand), (isZero o.c, .reserved),
       (fmt2 o.fmt, .format), (fmtQnt o.fmt2, .format), (o.opt == 0, .range)] ++ fpc o false)
  | .vamax h o => red h o isZero
  | .vsum h o => red h o isZero
  | .vdot h o => red h o streamOrScalar
  | .vdelta h o => red h o isS
  | .vrope h o => vec h o isS scalar isC fmt2
  | .vlse h o => first (execute h ++
      [(isS o.d, .operand), (isS o.a, .operand), (isS o.b, .operand), (cOrImm o.c, .operand),
       (fmtF32 o.fmt, .format), (o.fmt2 == 0, .format), (o.opt.toNat ≤ 1, .range)] ++ fpc o false)
  | .mgang h o => first (execute h ++ unguarded h ++ [(1 ≤ o.n.toNat && o.n.toNat ≤ 64, .range)])
  | .mmul h o => gang h o (fun t => isS t || isZero t)
  | .mgrp h o => gang h o isC
  | .mzero h o => tile h o isM isZero
  | .mld h o => tile h o isM isL
  | .mst h o => tile h o isD isM
  | .mdrain h o => drain h o isZero (o.fa.toNat ≤ 4 || o.fa == 0x11) (o.km1.toNat ≤ 63)
  | .mdrainAdd h o => drain h o isZero (o.fa == 0 || o.fa == 0x11) (o.km1 == 63)
  | .mdrainAddOrd h o => drain h o isC (o.fa == 0 || o.fa == 0x11) (o.km1 == 63)
  | .mcopy h o => tile h o isM isM
  | .mstat h o => tile h o isC isM
  | .cpy h o => formE h o isC (o.cmd == 0)
  | .cpy2d h o => formE h o isZero (o.cmd == 0)
  | .cprot h o => formE h o isC true
  | .cpfill h o => formE h o cOrImm (o.cmd == 0)
  | .bkadd h o => formE h o isC (o.cmd.toNat / 2 ^ 24 ≤ 1 && o.cmd.extractLsb' 0 24 == 0)
  | .bkaxpy h o => formE h o isC (o.cmd.toNat / 2 ^ 24 ≤ 1 && o.cmd.extractLsb' 0 24 == 0)
  | .bkgemv h o => formE h o isZero (o.cmd == 0)
  | .bkzero h o => formE h o isZero (o.cmd == 0)
  | .kvapp h o => formE h o isC (o.cmd.extractLsb' 0 18 == 0)
  | .kvseal h o => formE h o cOrImm (o.cmd == 0)
  | .kvpatch h o => formE h o isC (o.cmd.extractLsb' 0 18 == 0)
  | .kvfork h o => formE h o isC (o.cmd == 0)
  | .kvtrunc h o => formE h o cOrImm (o.cmd == 0)
  | .kvstat h o => formE h o isC (o.cmd == 0)
  | .kvjopen h o => formE h o isZero (o.cmd == 0)
  | .kvjmark h o => formE h o cOrImm (o.cmd == 0)
  | .kvjundo h o => formE h o cOrImm (o.cmd == 0)
  | .kvjclose h o => formE h o isZero (o.cmd == 0)
  | .edins h o => formE h o cOrImm (o.cmd == 0)
  | .eddel h o => formE h o cOrImm (o.cmd == 0)
  | .edrep h o => formE h o cOrImm (o.cmd == 0)
  | .settle h o => formE h o cOrImm (o.cmd == 0)
  | .raise h o => formE h o isZero (o.cmd == 0)
  | .rebind h o => formE h o isC (o.cmd.extractLsb' 0 21 == 0)
  | .wholdWithin h o => first (access h ++ [(cOrImm o.b, .operand), (isZero o.c, .operand), (o.layer.toNat ≤ 256, .range)])
  | .wholdBefore h o => first (access h ++ [(cOrImm o.b, .operand), (cOrImm o.c, .operand), (o.layer.toNat ≤ 256, .range)])
  | .wholdAfter h o => first (access h ++ [(cOrImm o.b, .operand), (cOrImm o.c, .operand), (o.layer.toNat ≤ 256, .range)])
  | .wfree h o => first (access h ++ [(pred true o.d, .predicate), (cOrImm o.b, .operand), (o.layer.toNat ≤ 256, .range)])
  | .wdone h o => first (access h ++ [(pred true o.d, .predicate), (cOrImm o.c, .operand)])
  | .wcell h o => first (access h ++ [(cOrImm o.b, .operand), (cOrImm o.c, .operand)])
  | .wmark h o => formE h o cOrImm (o.cmd.extractLsb' 0 9 == 0)
  | .ctlrd h _ => first (access h)
  | .ctlwr h o => first (access h ++ [(cOrImm o.b || isXq o.b, .operand)])
  | .tlbwr h o => first (access h ++ [(pred true o.d, .predicate)])
  | .tlbwrFill h o => first (access h ++ [(pred true o.d, .predicate)])
  | .tlbwrFault h o => first (access h ++ [(pred true o.d, .predicate)])
  | .tlbwrPeer h o => first (access h ++ [(pred true o.d, .predicate)])
  | .tlbinv h o => first (access h ++ [(pred true o.d, .predicate), (o.target != 3, .range)])
  | .tlbprobe h _ => first (access h)
  | .cflush h o => first (access h ++ [(pred true o.d, .predicate), (cOrImm o.b, .operand), (cOrImm o.c, .operand)])
  | .rett h => first (access h ++ [(h.g == 0, .guard)])
  | .hbeat h _ => first (access h)
  | .idle h o => first (access h ++ [(pred true o.d, .predicate)])
  | .powerLoss | .hctlStart | .imageFirstHeartbeatTimeout | .hctlNegGo | .hmqheadWrite | .registerWrite
  | .messageSlotPost | .messageSlotClear | .slotMessageAccept | .msixRateIntervalExpiry | .hostCxlMemAccess | .ctxnew
  | .ctxend | .ctxtrap | .stockalloc | .shore | .shoot | .shootdownComplete | .sched | .linkcfg | .slotvec | .attest
  | .seqopen | .seqclose | .verdict | .thermalThrottle | .thermalRecover | .thermalFatal | .dieBridgeLoss
  | .linkReplayRequest | .linkRetrainStart | .linkRetrainSuccess | .linkRetrainLimitExpiry | .peerLost | .peerReachable
  | .hbmScrub | .shoreStageComplete | .shoreStageTimeout | .handoverRecordWritten | .handoverTimeout | .shoreAcceptance
  | .shoreGapLimitExpiry | .watchdogHeartbeatMiss | .shoreCommit | .committedHeartbeatLoss | .firstTouchServe
  | .dupReadReplicate | .dupWriteCollapse | .stockHomeServe | .stockRecallOrder | .stockReturnArrival
  | .stockReclaimProbe | .phaserCompletionArrival | .heldRecordDelivery | .firingStart | .firingResume
  | .preemptAtSafePoint | .quotaAdjust | .overdueRotation | .budgetPeriodStart | .cycleBudgetSpent | .byteBudgetSpent
  | .overrunExpiry | .frameEnd | .drainApply | .waveEnterLayer | .editDeferredApply | .editRotationComplete
  | .afterHoldGrant | .engineCommandComplete | .wideUnitStep | .ageingIntervalExpiry | .idleTimeoutExpiry
  | .msixVectorUnmask | .peerRequestArrival | .hostCacheSnoop | .stateParityError | .shoreFallbackComplete => none

/-- A legal instruction. -/
def Instr.wf (i : Instr) : Bool := i.check.isNone

end Sys2Proof
end

