-- ==== Sys2Proof/Decode.lean ====
section
/-! DEFINITION. Decoding a 96-bit word (R359-R374), total, rejecting by name; then the encoder, written from the same
tables. -/
namespace Sys2Proof

/-! ## The word and its fields -/

/-- R364: the operand a byte names. Every byte names one. -/
def opdOfByte (b : Byte) : Opd :=
  if b.getLsbD 7 then .imm (b.extractLsb' 0 7)
  else if !b.getLsbD 6 then .c (b.extractLsb' 0 6)
  else if b.toNat < 0x44 then .l (b.extractLsb' 0 2)
  else if b.toNat < 0x46 then .d (b.extractLsb' 0 1)
  else if b.toNat = 0x46 then .xq
  else if b.toNat = 0x47 then .aq
  else if b.toNat < 0x50 then .i (b.extractLsb' 0 3)
  else if b.toNat < 0x58 then .o (b.extractLsb' 0 3)
  else if b.toNat < 0x68 then .s (BitVec.ofNat 4 (b.toNat - 0x58))
  else if b.toNat < 0x78 then .f (BitVec.ofNat 4 (b.toNat - 0x68))
  else .m (b.extractLsb' 0 3)

/-- R364: the byte of an operand. -/
def byteOfOpd : Opd → Byte
  | .c n => n.setWidth 8
  | .l n => 0x40 + n.setWidth 8
  | .d n => 0x44 + n.setWidth 8
  | .xq => 0x46
  | .aq => 0x47
  | .i n => 0x48 + n.setWidth 8
  | .o n => 0x50 + n.setWidth 8
  | .s n => 0x58 + n.setWidth 8
  | .f n => 0x68 + n.setWidth 8
  | .m n => 0x78 + n.setWidth 8
  | .imm v => 0x80 + v.setWidth 8

/-- The fields of a word (R359). -/
structure Raw where
  major : BitVec 8
  minor : BitVec 4
  h : Hdr
  d : Byte
  a : Byte
  b : Byte
  x : BitVec 48
  deriving DecidableEq, Repr, Inhabited

/-- R359: the fields of the word. -/
def rawOfWord (w : IWord) : Raw :=
  { major := w.extractLsb' 88 8, minor := w.extractLsb' 84 4,
    h := { s := w.getLsbD 83, p := w.getLsbD 82, g := w.extractLsb' 78 4, gn := w.getLsbD 77,
           hc := w.extractLsb' 75 2, hi := w.extractLsb' 72 3 },
    d := w.extractLsb' 64 8, a := w.extractLsb' 56 8, b := w.extractLsb' 48 8, x := w.extractLsb' 0 48 }

/-- R359: the word of the fields. -/
def wordOfRaw (r : Raw) : IWord :=
  r.major ++ r.minor ++ BitVec.ofBool r.h.s ++ BitVec.ofBool r.h.p ++ r.h.g ++ BitVec.ofBool r.h.gn ++ r.h.hc ++ r.h.hi
    ++ r.d ++ r.a ++ r.b ++ r.x

/-- What a codec of an operand record yields: the three operand bytes and X. -/
structure Body where
  d : Byte
  a : Byte
  b : Byte
  x : BitVec 48
  deriving DecidableEq, Repr, Inhabited

def word (major : Byte) (minor : BitVec 4) (h : Hdr) (b : Body) : IWord :=
  wordOfRaw { major, minor, h, d := b.d, a := b.a, b := b.b, x := b.x }

/-! ## Fields of the operand bytes -/

/-- a field that must be zero -/
def zero {n : Nat} (v : BitVec n) : Except Reject Unit := if v = 0 then .ok () else .error .reserved
/-- a c register by its byte -/
def creg (b : Byte) : Except Reject (BitVec 6) := if b.toNat < 0x40 then .ok (b.extractLsb' 0 6) else .error .operand
/-- a predicate number (R367) -/
def preg (b : Byte) : Except Reject (BitVec 4) := if b.toNat < 0x10 then .ok (b.extractLsb' 0 4) else .error .predicate
/-- a stream register -/
def sreg (b : Byte) : Except Reject (BitVec 4) :=
  if 0x58 ≤ b.toNat ∧ b.toNat < 0x68 then .ok (BitVec.ofNat 4 (b.toNat - 0x58)) else .error .operand
/-- an f register -/
def freg (b : Byte) : Except Reject (BitVec 4) :=
  if 0x68 ≤ b.toNat ∧ b.toNat < 0x78 then .ok (BitVec.ofNat 4 (b.toNat - 0x68)) else .error .operand
/-- a load queue -/
def lreg (b : Byte) : Except Reject (BitVec 2) :=
  if 0x40 ≤ b.toNat ∧ b.toNat < 0x44 then .ok (b.extractLsb' 0 2) else .error .operand

def cByte (n : BitVec 6) : Byte := n.setWidth 8
def pByte (n : BitVec 4) : Byte := n.setWidth 8
def sByte (n : BitVec 4) : Byte := 0x58 + n.setWidth 8
def fByte (n : BitVec 4) : Byte := 0x68 + n.setWidth 8
def lByte (n : BitVec 2) : Byte := 0x40 + n.setWidth 8

/-! ## The codecs of the operand records -/

/-- a word with no operand: every field zero -/
def noneOp (r : Raw) (i : Instr) : Except Reject Instr := do zero r.d; zero r.a; zero r.b; zero r.x; pure i

/-- R368, R379 -/
def brDec (r : Raw) : Except Reject BrOps := do
  zero r.d; zero r.a; zero r.b; zero (r.x.extractLsb' 40 8); pure { off := r.x.extractLsb' 0 40 }
def brEnc (o : BrOps) : Body := ⟨0, 0, 0, 0#8 ++ o.off⟩

def brxDec (r : Raw) : Except Reject BrxOps := do
  zero r.d; zero r.x; pure { a := opdOfByte r.a, b := opdOfByte r.b }
def brxEnc (o : BrxOps) : Body := ⟨0, byteOfOpd o.a, byteOfOpd o.b, 0⟩

def callDec (r : Raw) : Except Reject CallOps := do
  let d ← creg r.d; zero r.a; zero r.b; zero (r.x.extractLsb' 40 8); pure { d, off := r.x.extractLsb' 0 40 }
def callEnc (o : CallOps) : Body := ⟨cByte o.d, 0, 0, 0#8 ++ o.off⟩

def callxDec (r : Raw) : Except Reject CallxOps := do
  let d ← creg r.d; zero r.b; zero r.x; pure { d, a := opdOfByte r.a }
def callxEnc (o : CallxOps) : Body := ⟨cByte o.d, byteOfOpd o.a, 0, 0⟩

def retDec (r : Raw) : Except Reject RetOps := do zero r.d; zero r.b; zero r.x; pure { a := opdOfByte r.a }
def retEnc (o : RetOps) : Body := ⟨0, byteOfOpd o.a, 0, 0⟩

/-- R384 -/
def trapDec (r : Raw) : Except Reject TrapOps := do zero r.d; zero r.a; zero r.b; pure { imm := r.x }
def trapEnc (o : TrapOps) : Body := ⟨0, 0, 0, o.imm⟩

/-- R386 -/
def sigDec (r : Raw) : Except Reject SigOps := do
  zero r.d; zero r.a; zero r.b; zero (r.x.extractLsb' 32 16); pure { crc := r.x.extractLsb' 0 32 }
def sigEnc (o : SigOps) : Body := ⟨0, 0, 0, 0#16 ++ o.crc⟩

/-- R387 -/
def intDec (r : Raw) : Except Reject IntOps := do
  zero (r.x.extractLsb' 3 37)
  pure { d := opdOfByte r.d, a := opdOfByte r.a, b := opdOfByte r.b, c := opdOfByte (r.x.extractLsb' 40 8),
         ty := r.x.extractLsb' 0 3 }
def intEnc (o : IntOps) : Body :=
  ⟨byteOfOpd o.d, byteOfOpd o.a, byteOfOpd o.b, byteOfOpd o.c ++ 0#37 ++ o.ty⟩

/-- R387, R391 -/
def cmpDec (r : Raw) : Except Reject CmpOps := do
  let d ← preg r.d; zero (r.x.extractLsb' 8 40); zero (r.x.extractLsb' 3 1)
  pure { d, a := opdOfByte r.a, b := opdOfByte r.b, ty := r.x.extractLsb' 0 3, cond := r.x.extractLsb' 4 4 }
def cmpEnc (o : CmpOps) : Body := ⟨pByte o.d, byteOfOpd o.a, byteOfOpd o.b, 0#40 ++ o.cond ++ 0#1 ++ o.ty⟩

/-- R393 -/
def selDec (r : Raw) : Except Reject SelOps := do
  let d ← creg r.d; let p ← preg r.a; zero (r.x.extractLsb' 0 40)
  pure { d, p, b := opdOfByte r.b, c := opdOfByte (r.x.extractLsb' 40 8) }
def selEnc (o : SelOps) : Body := ⟨cByte o.d, pByte o.p, byteOfOpd o.b, byteOfOpd o.c ++ 0#40⟩

/-- R394 -/
def movDec (r : Raw) : Except Reject MovOps := do
  zero r.b; zero r.x; pure { d := opdOfByte r.d, a := opdOfByte r.a }
def movEnc (o : MovOps) : Body := ⟨byteOfOpd o.d, byteOfOpd o.a, 0, 0⟩

/-- R395 -/
def moviDec (r : Raw) : Except Reject MoviOps := do
  zero r.a; zero r.b; pure { d := opdOfByte r.d, imm := r.x }
def moviEnc (o : MoviOps) : Body := ⟨byteOfOpd o.d, 0, 0, o.imm⟩

/-- R396 -/
def predDec (r : Raw) : Except Reject PredOps := do
  let d ← preg r.d; let a ← preg r.a; let b ← preg r.b; zero r.x; pure { d, a, b }
def predEnc (o : PredOps) : Body := ⟨pByte o.d, pByte o.a, pByte o.b, 0⟩

/-- R397 -/
def rngDec (r : Raw) : Except Reject RngOps := do
  zero r.x; pure { d := opdOfByte r.d, a := opdOfByte r.a, b := opdOfByte r.b }
def rngEnc (o : RngOps) : Body := ⟨byteOfOpd o.d, byteOfOpd o.a, byteOfOpd o.b, 0⟩

/-- R398 -/
def capDec (r : Raw) : Except Reject CapOps := do
  let d ← creg r.d; let a ← creg r.a; zero r.x; pure { d, a, b := opdOfByte r.b }
def capEnc (o : CapOps) : Body := ⟨cByte o.d, cByte o.a, byteOfOpd o.b, 0⟩

/-- R400, R401 -/
def memDec (r : Raw) : Except Reject MemOps := do
  let a ← creg r.a; zero (r.x.extractLsb' 40 8); zero (r.x.extractLsb' 16 17)
  pure { d := opdOfByte r.d, a, b := opdOfByte r.b, scope := r.x.extractLsb' 37 3, size := r.x.extractLsb' 34 3,
         sx := r.x.getLsbD 33, off := r.x.extractLsb' 0 16 }
def memEnc (o : MemOps) : Body :=
  ⟨byteOfOpd o.d, cByte o.a, byteOfOpd o.b, 0#8 ++ o.scope ++ o.size ++ BitVec.ofBool o.sx ++ 0#17 ++ o.off⟩

/-- R408 -/
def sdefDec (r : Raw) : Except Reject SdefOps := do
  let d ← sreg r.d; let a ← creg r.a; let b ← creg r.b; zero (r.x.extractLsb' 31 17); zero (r.x.extractLsb' 0 24)
  pure { d, a, b, fmt := r.x.extractLsb' 24 7 }
def sdefEnc (o : SdefOps) : Body := ⟨sByte o.d, cByte o.a, cByte o.b, 0#17 ++ o.fmt ++ 0#24⟩
def sdefwDec (r : Raw) : Except Reject SdefwOps := do
  let d ← sreg r.d; let a ← creg r.a; let b ← creg r.b; zero r.x; pure { d, a, b }
def sdefwEnc (o : SdefwOps) : Body := ⟨sByte o.d, cByte o.a, cByte o.b, 0⟩
def sdefkDec (r : Raw) : Except Reject SdefkOps := do
  let d ← sreg r.d; let a ← creg r.a; zero (r.x.extractLsb' 24 24); zero (r.x.extractLsb' 0 15)
  pure { d, a, b := opdOfByte r.b, layer := r.x.extractLsb' 15 9 }
def sdefkEnc (o : SdefkOps) : Body := ⟨sByte o.d, cByte o.a, byteOfOpd o.b, 0#24 ++ o.layer ++ 0#15⟩
def sdefsDec (r : Raw) : Except Reject SdefsOps := do
  let d ← sreg r.d; let a ← creg r.a; zero r.b; zero r.x; pure { d, a }
def sdefsEnc (o : SdefsOps) : Body := ⟨sByte o.d, cByte o.a, 0, 0⟩
def sldDec (r : Raw) : Except Reject SldOps := do
  let d ← lreg r.d; let a ← sreg r.a; zero r.b; zero r.x; pure { d, a }
def sldEnc (o : SldOps) : Body := ⟨lByte o.d, sByte o.a, 0, 0⟩
def sstDec (r : Raw) : Except Reject SstOps := do
  let d ← sreg r.d; zero r.b; zero r.x; pure { d, a := opdOfByte r.a }
def sstEnc (o : SstOps) : Body := ⟨sByte o.d, byteOfOpd o.a, 0, 0⟩

/-- R412 -/
def fenceDec (r : Raw) : Except Reject FenceOps := do
  let d ← preg r.d; zero r.a; zero r.b; zero (r.x.extractLsb' 40 8); zero (r.x.extractLsb' 0 37)
  pure { d, scope := r.x.extractLsb' 37 3 }
def fenceEnc (o : FenceOps) : Body := ⟨pByte o.d, 0, 0, 0#8 ++ o.scope ++ 0#37⟩
/-- R413 -/
def lineDec (r : Raw) : Except Reject LineOps := do
  zero r.d; let a ← creg r.a; zero r.b; zero (r.x.extractLsb' 40 8); zero (r.x.extractLsb' 0 37)
  pure { a, scope := r.x.extractLsb' 37 3 }
def lineEnc (o : LineOps) : Body := ⟨0, cByte o.a, 0, 0#8 ++ o.scope ++ 0#37⟩
/-- R414 -/
def spDec (r : Raw) : Except Reject SpOps := do
  let d ← preg r.d; let a ← creg r.a; zero r.b; zero r.x; pure { d, a }
def spEnc (o : SpOps) : Body := ⟨pByte o.d, cByte o.a, 0, 0⟩

/-- R125 -/
def atomDec (r : Raw) : Except Reject AtomOps := do
  let d ← creg r.d; let a ← creg r.a; zero (r.x.extractLsb' 16 18)
  pure { d, a, b := opdOfByte r.b, c := opdOfByte (r.x.extractLsb' 40 8), scope := r.x.extractLsb' 37 3,
         order := r.x.extractLsb' 35 2, w64 := r.x.getLsbD 34, off := r.x.extractLsb' 0 16 }
def atomEnc (o : AtomOps) : Body :=
  ⟨cByte o.d, cByte o.a, byteOfOpd o.b,
    byteOfOpd o.c ++ o.scope ++ o.order ++ BitVec.ofBool o.w64 ++ 0#18 ++ o.off⟩
/-- R129, R130 -/
def redwDec (r : Raw) : Except Reject RedOps := do
  zero r.d; let a ← creg r.a; zero (r.x.extractLsb' 16 32)
  pure { a, b := opdOfByte r.b, off := r.x.extractLsb' 0 16 }
def redwEnc (o : RedOps) : Body := ⟨0, cByte o.a, byteOfOpd o.b, 0#32 ++ o.off⟩

/-- R143: D a predicate -/
def stkPDec (r : Raw) : Except Reject StkOps := do
  let pd ← preg r.d; let a ← creg r.a; zero (r.x.extractLsb' 1 39)
  pure { pd, cd := 0, a, b := opdOfByte r.b, c := opdOfByte (r.x.extractLsb' 40 8), isLocal := r.x.getLsbD 0 }
def stkPEnc (o : StkOps) : Body :=
  ⟨pByte o.pd, cByte o.a, byteOfOpd o.b, byteOfOpd o.c ++ 0#39 ++ BitVec.ofBool o.isLocal⟩
/-- R143: D a c register -/
def stkCDec (r : Raw) : Except Reject StkOps := do
  let cd ← creg r.d; let a ← creg r.a; zero (r.x.extractLsb' 1 39)
  pure { pd := 0, cd, a, b := opdOfByte r.b, c := opdOfByte (r.x.extractLsb' 40 8), isLocal := r.x.getLsbD 0 }
def stkCEnc (o : StkOps) : Body :=
  ⟨cByte o.cd, cByte o.a, byteOfOpd o.b, byteOfOpd o.c ++ 0#39 ++ BitVec.ofBool o.isLocal⟩

/-- R134: D a c register or fixed -/
def phCDec (r : Raw) : Except Reject PhOps := do
  let cd ← creg r.d; let a ← creg r.a; zero (r.x.extractLsb' 2 46)
  pure { cd, pd := 0, a, b := opdOfByte r.b, mode := r.x.extractLsb' 0 2 }
def phCEnc (o : PhOps) : Body := ⟨cByte o.cd, cByte o.a, byteOfOpd o.b, 0#46 ++ o.mode⟩
/-- R134: PHEXP -/
def phPDec (r : Raw) : Except Reject PhOps := do
  let pd ← preg r.d; let a ← creg r.a; zero (r.x.extractLsb' 2 46)
  pure { cd := 0, pd, a, b := opdOfByte r.b, mode := r.x.extractLsb' 0 2 }
def phPEnc (o : PhOps) : Body := ⟨pByte o.pd, cByte o.a, byteOfOpd o.b, 0#46 ++ o.mode⟩

/-- R417 -/
def evDec (r : Raw) : Except Reject EvOps := do
  let a ← creg r.a; zero r.b; zero r.x; pure { d := opdOfByte r.d, a }
def evEnc (o : EvOps) : Body := ⟨byteOfOpd o.d, cByte o.a, 0, 0⟩
/-- R371 -/
def engDec (r : Raw) : Except Reject EngOps := do
  let d ← creg r.d; let a ← creg r.a
  pure { d, a, b := opdOfByte r.b, acq := r.x.getLsbD 47, rel := r.x.getLsbD 46, scope := r.x.extractLsb' 43 3,
         tag := r.x.extractLsb' 27 16, cmd := r.x.extractLsb' 0 27 }
def engEnc (o : EngOps) : Body :=
  ⟨cByte o.d, cByte o.a, byteOfOpd o.b, BitVec.ofBool o.acq ++ BitVec.ofBool o.rel ++ o.scope ++ o.tag ++ o.cmd⟩
/-- R422 -/
def qiDec (r : Raw) : Except Reject QOps := do
  let d ← creg r.d; zero r.x; pure { d, a := opdOfByte r.a, b := opdOfByte r.b }
def qiEnc (o : QOps) : Body := ⟨cByte o.d, byteOfOpd o.a, byteOfOpd o.b, 0⟩

/-- R423 -/
def fpDec (r : Raw) : Except Reject FpOps := do
  zero (r.x.extractLsb' 0 13)
  pure { d := opdOfByte r.d, a := opdOfByte r.a, b := opdOfByte r.b, c := opdOfByte (r.x.extractLsb' 40 8),
         rm := r.x.extractLsb' 37 3, subn := r.x.extractLsb' 35 2, ovf := r.x.extractLsb' 33 2, nan := r.x.extractLsb' 31 2,
         fmt := r.x.extractLsb' 24 7, fmt2 := r.x.extractLsb' 17 7, opt := r.x.extractLsb' 13 4 }
def fpEnc (o : FpOps) : Body :=
  ⟨byteOfOpd o.d, byteOfOpd o.a, byteOfOpd o.b,
    byteOfOpd o.c ++ o.rm ++ o.subn ++ o.ovf ++ o.nan ++ o.fmt ++ o.fmt2 ++ o.opt ++ 0#13⟩

/-- R443: MGANG -/
def mgangDec (r : Raw) : Except Reject MgangOps := do zero r.d; zero r.a; zero r.b; pure { n := r.x }
def mgangEnc (o : MgangOps) : Body := ⟨0, 0, 0, o.n⟩
/-- R370 -/
def matDec (r : Raw) : Except Reject MatOps := do
  zero (r.x.extractLsb' 0 4)
  pure { d := opdOfByte r.d, a := opdOfByte r.a, b := opdOfByte r.b, tc := opdOfByte (r.x.extractLsb' 40 8),
         sap := r.x.getLsbD 39, san := r.x.extractLsb' 35 4, sbp := r.x.getLsbD 34, sbn := r.x.extractLsb' 30 4,
         fa := r.x.extractLsb' 23 7, fb := r.x.extractLsb' 16 7, scale := r.x.extractLsb' 14 2,
         km1 := r.x.extractLsb' 4 10 }
def matEnc (o : MatOps) : Body :=
  ⟨byteOfOpd o.d, byteOfOpd o.a, byteOfOpd o.b,
    byteOfOpd o.tc ++ BitVec.ofBool o.sap ++ o.san ++ BitVec.ofBool o.sbp ++ o.sbn ++ o.fa ++ o.fb ++ o.scale ++ o.km1 ++ 0#4⟩
/-- R443: the tile instructions -/
def tileDec (r : Raw) : Except Reject TileOps := do
  zero r.b; zero r.x; pure { d := opdOfByte r.d, a := opdOfByte r.a }
def tileEnc (o : TileOps) : Body := ⟨byteOfOpd o.d, byteOfOpd o.a, 0, 0⟩

/-- R276 -/
def wholdDec (r : Raw) : Except Reject WholdOps := do
  let d ← freg r.d; let a ← creg r.a; zero (r.x.extractLsb' 0 29)
  pure { d, a, b := opdOfByte r.b, c := opdOfByte (r.x.extractLsb' 40 8), layer := r.x.extractLsb' 29 9 }
def wholdEnc (mode : BitVec 2) (o : WholdOps) : Body :=
  ⟨fByte o.d, cByte o.a, byteOfOpd o.b, byteOfOpd o.c ++ mode ++ o.layer ++ 0#29⟩
/-- R276: MODE chooses the form -/
def whold (r : Raw) : Except Reject Instr := do
  let o ← wholdDec r
  match (r.x.extractLsb' 38 2).toNat with
  | 0 => .ok (.wholdWithin r.h o)
  | 1 => .ok (.wholdBefore r.h o)
  | 2 => .ok (.wholdAfter r.h o)
  | _ => .error .range
/-- R283 -/
def wfreeDec (r : Raw) : Except Reject WfreeOps := do
  let d ← preg r.d; let a ← creg r.a; zero (r.x.extractLsb' 38 10); zero (r.x.extractLsb' 0 29)
  pure { d, a, b := opdOfByte r.b, layer := r.x.extractLsb' 29 9 }
def wfreeEnc (o : WfreeOps) : Body := ⟨pByte o.d, cByte o.a, byteOfOpd o.b, 0#10 ++ o.layer ++ 0#29⟩
/-- R263 -/
def wdoneDec (r : Raw) : Except Reject WdoneOps := do
  let d ← preg r.d; let a ← creg r.a; let b ← creg r.b; zero (r.x.extractLsb' 0 40)
  pure { d, a, b, c := opdOfByte (r.x.extractLsb' 40 8) }
def wdoneEnc (o : WdoneOps) : Body := ⟨pByte o.d, cByte o.a, cByte o.b, byteOfOpd o.c ++ 0#40⟩
/-- R266 -/
def wcellDec (r : Raw) : Except Reject WcellOps := do
  let d ← creg r.d; let a ← creg r.a; zero (r.x.extractLsb' 0 40)
  pure { d, a, b := opdOfByte r.b, c := opdOfByte (r.x.extractLsb' 40 8) }
def wcellEnc (o : WcellOps) : Body := ⟨cByte o.d, cByte o.a, byteOfOpd o.b, byteOfOpd o.c ++ 0#40⟩

/-- R467 -/
def ctlrdDec (r : Raw) : Except Reject CtlrdOps := do
  let d ← creg r.d; zero r.a; zero r.b; zero (r.x.extractLsb' 12 36); pure { d, kreg := r.x.extractLsb' 0 12 }
def ctlrdEnc (o : CtlrdOps) : Body := ⟨cByte o.d, 0, 0, 0#36 ++ o.kreg⟩
def ctlwrDec (r : Raw) : Except Reject CtlwrOps := do
  zero r.d; zero r.a; zero (r.x.extractLsb' 12 36); pure { b := opdOfByte r.b, kreg := r.x.extractLsb' 0 12 }
def ctlwrEnc (o : CtlwrOps) : Body := ⟨0, 0, byteOfOpd o.b, 0#36 ++ o.kreg⟩
/-- R469 -/
def tlbDec (r : Raw) : Except Reject TlbOps := do
  let d ← preg r.d; let a ← creg r.a; let b ← creg r.b; let c ← creg (r.x.extractLsb' 40 8); zero (r.x.extractLsb' 2 38)
  pure { d, a, b, c }
def tlbEnc (action : BitVec 2) (o : TlbOps) : Body :=
  ⟨pByte o.d, cByte o.a, cByte o.b, cByte o.c ++ 0#38 ++ action⟩
/-- R469: ACTION chooses the form -/
def tlbw (r : Raw) : Except Reject Instr := do
  let o ← tlbDec r
  match (r.x.extractLsb' 0 2).toNat with
  | 0 => .ok (.tlbwr r.h o)
  | 1 => .ok (.tlbwrFill r.h o)
  | 2 => .ok (.tlbwrFault r.h o)
  | _ => .ok (.tlbwrPeer r.h o)
def tlbinvDec (r : Raw) : Except Reject TlbinvOps := do
  let d ← preg r.d; let a ← creg r.a; let b ← creg r.b; let c ← creg (r.x.extractLsb' 40 8); zero (r.x.extractLsb' 3 37)
  pure { d, a, b, c, target := r.x.extractLsb' 0 2, whole := r.x.getLsbD 2 }
def tlbinvEnc (o : TlbinvOps) : Body :=
  ⟨pByte o.d, cByte o.a, cByte o.b, cByte o.c ++ 0#37 ++ BitVec.ofBool o.whole ++ o.target⟩
def tlbprobeDec (r : Raw) : Except Reject TlbprobeOps := do
  let d ← creg r.d; let a ← creg r.a; let b ← creg r.b; zero (r.x.extractLsb' 1 47)
  pure { d, a, b, cluster := r.x.getLsbD 0 }
def tlbprobeEnc (o : TlbprobeOps) : Body := ⟨cByte o.d, cByte o.a, cByte o.b, 0#47 ++ BitVec.ofBool o.cluster⟩
/-- R473 -/
def cflushDec (r : Raw) : Except Reject CflushOps := do
  let d ← preg r.d; zero r.a; zero (r.x.extractLsb' 0 40)
  pure { d, b := opdOfByte r.b, c := opdOfByte (r.x.extractLsb' 40 8) }
def cflushEnc (o : CflushOps) : Body := ⟨pByte o.d, 0, byteOfOpd o.b, byteOfOpd o.c ++ 0#40⟩
/-- R477 -/
def hbeatDec (r : Raw) : Except Reject HbeatOps := do
  zero r.d; zero r.a; zero r.b; zero (r.x.extractLsb' 16 32); pure { code := r.x.extractLsb' 0 16 }
def hbeatEnc (o : HbeatOps) : Body := ⟨0, 0, 0, 0#32 ++ o.code⟩
/-- R478 -/
def idleDec (r : Raw) : Except Reject IdleOps := do
  let d ← preg r.d; zero r.a; zero r.b; zero (r.x.extractLsb' 32 16); pure { d, timeout := r.x.extractLsb' 0 32 }
def idleEnc (o : IdleOps) : Body := ⟨pByte o.d, 0, 0, 0#16 ++ o.timeout⟩

/-! ## The opcode map (R374) -/

/-- The majors 0x00-0x0F of R374. -/
def parseControl (r : Raw) : Except Reject Instr :=
  match r.major.toNat, r.minor.toNat with
  | 0x00, 0 => noneOp r (.nop r.h)
  | 0x01, 0 => (.br r.h) <$> brDec r
  | 0x02, 0 => (.brx r.h) <$> brxDec r
  | 0x03, 0 => (.call r.h) <$> callDec r
  | 0x04, 0 => (.callx r.h) <$> callxDec r
  | 0x05, 0 => (.ret r.h) <$> retDec r
  | 0x06, 0 => (.loop r.h) <$> callDec r
  | 0x07, 0 => noneOp r (.finCommit r.h)
  | 0x07, 1 => noneOp r (.finAgain r.h)
  | 0x07, 2 => noneOp r (.finAbort r.h)
  | 0x08, 0 => noneOp r (.yield r.h)
  | 0x09, 0 => (.trap r.h) <$> trapDec r
  | 0x0A, 0 => (.sig r.h) <$> sigDec r
  | m, _ => .error (if [0x00, 0x01, 0x02, 0x03, 0x04, 0x05, 0x06, 0x07, 0x08, 0x09, 0x0A].contains m then .minor else .major)

/-- The majors 0x10-0x1F of R374. -/
def parseInteger (r : Raw) : Except Reject Instr :=
  match r.major.toNat, r.minor.toNat with
  | 0x10, 0 => (.add r.h) <$> intDec r
  | 0x11, 0 => (.sub r.h) <$> intDec r
  | 0x12, 0 => (.mul r.h) <$> intDec r
  | 0x13, 0 => (.mulh r.h) <$> intDec r
  | 0x13, 1 => (.mulhn r.h) <$> intDec r
  | 0x14, 0 => (.div r.h) <$> intDec r
  | 0x14, 1 => (.divn r.h) <$> intDec r
  | 0x15, 0 => (.rem r.h) <$> intDec r
  | 0x15, 1 => (.remn r.h) <$> intDec r
  | 0x16, 0 => (.and r.h) <$> intDec r
  | 0x17, 0 => (.or r.h) <$> intDec r
  | 0x18, 0 => (.xor r.h) <$> intDec r
  | 0x19, 0 => (.andn r.h) <$> intDec r
  | 0x1A, 0 => (.shl r.h) <$> intDec r
  | 0x1B, 0 => (.shr r.h) <$> intDec r
  | 0x1C, 0 => (.sra r.h) <$> intDec r
  | 0x1D, 0 => (.rotr r.h) <$> intDec r
  | 0x1E, 0 => (.min r.h) <$> intDec r
  | 0x1E, 1 => (.max r.h) <$> intDec r
  | 0x1E, 2 => (.minn r.h) <$> intDec r
  | 0x1E, 3 => (.maxn r.h) <$> intDec r
  | 0x1F, 0 => (.abs r.h) <$> intDec r
  | 0x1F, 1 => (.neg r.h) <$> intDec r
  | m, _ => .error (if [0x10, 0x11, 0x12, 0x13, 0x14, 0x15, 0x16, 0x17, 0x18, 0x19, 0x1A, 0x1B, 0x1C, 0x1D, 0x1E, 0x1F].contains m then .minor else .major)

/-- The majors 0x20-0x2F of R374. -/
def parseBits (r : Raw) : Except Reject Instr :=
  match r.major.toNat, r.minor.toNat with
  | 0x20, 0 => (.clz r.h) <$> intDec r
  | 0x20, 1 => (.ctz r.h) <$> intDec r
  | 0x20, 2 => (.popc r.h) <$> intDec r
  | 0x20, 3 => (.brev r.h) <$> intDec r
  | 0x20, 4 => (.bswp r.h) <$> intDec r
  | 0x21, 0 => (.extr r.h) <$> intDec r
  | 0x21, 1 => (.extrn r.h) <$> intDec r
  | 0x22, 0 => (.ins r.h) <$> intDec r
  | 0x23, 0 => (.sel r.h) <$> selDec r
  | 0x24, 0 => (.mov r.h) <$> movDec r
  | 0x25, 0 => (.movi r.h) <$> moviDec r
  | 0x25, 1 => (.moviHigh r.h) <$> moviDec r
  | 0x26, 0 => (.cmp r.h) <$> cmpDec r
  | 0x27, 0 => (.pand r.h) <$> predDec r
  | 0x27, 1 => (.por r.h) <$> predDec r
  | 0x27, 2 => (.pxor r.h) <$> predDec r
  | 0x27, 3 => (.pnot r.h) <$> predDec r
  | 0x28, 0 => (.rngx r.h) <$> rngDec r
  | m, _ => .error (if [0x20, 0x21, 0x22, 0x23, 0x24, 0x25, 0x26, 0x27, 0x28].contains m then .minor else .major)

/-- The majors 0x30-0x3F of R374. -/
def parseCapability (r : Raw) : Except Reject Instr :=
  match r.major.toNat, r.minor.toNat with
  | 0x30, 0 => (.csetb r.h) <$> capDec r
  | 0x31, 0 => (.csetp r.h) <$> capDec r
  | 0x32, 0 => (.cadd r.h) <$> capDec r
  | 0x33, 0 => (.cgetb r.h) <$> capDec r
  | 0x33, 1 => (.cgetl r.h) <$> capDec r
  | 0x33, 2 => (.cgetp r.h) <$> capDec r
  | 0x33, 3 => (.cgett r.h) <$> capDec r
  | 0x34, 0 => (.cclr r.h) <$> capDec r
  | 0x35, 0 => (.cseal r.h) <$> capDec r
  | 0x36, 0 => (.cunseal r.h) <$> capDec r
  | m, _ => .error (if [0x30, 0x31, 0x32, 0x33, 0x34, 0x35, 0x36].contains m then .minor else .major)

/-- The majors 0x40-0x4F of R374. -/
def parseMemory (r : Raw) : Except Reject Instr :=
  match r.major.toNat, r.minor.toNat with
  | 0x40, 0 => (.ld r.h) <$> memDec r
  | 0x41, 0 => (.ldc r.h) <$> memDec r
  | 0x42, 0 => (.st r.h) <$> memDec r
  | 0x43, 0 => (.stc r.h) <$> memDec r
  | 0x44, 0 => (.lda r.h) <$> memDec r
  | 0x45, 0 => (.str r.h) <$> memDec r
  | 0x46, 0 => (.pref r.h) <$> memDec r
  | m, _ => .error (if [0x40, 0x41, 0x42, 0x43, 0x44, 0x45, 0x46].contains m then .minor else .major)

/-- The majors 0x50-0x5F of R374. -/
def parseStream (r : Raw) : Except Reject Instr :=
  match r.major.toNat, r.minor.toNat with
  | 0x50, 0 => (.sdef r.h) <$> sdefDec r
  | 0x50, 1 => (.sdefw r.h) <$> sdefwDec r
  | 0x50, 2 => (.sdefk r.h) <$> sdefkDec r
  | 0x50, 3 => (.sdefs r.h) <$> sdefsDec r
  | 0x51, 0 => (.sld r.h) <$> sldDec r
  | 0x52, 0 => (.sst r.h) <$> sstDec r
  | 0x53, 0 => (.srd r.h) <$> sldDec r
  | 0x54, 0 => (.fence r.h) <$> fenceDec r
  | 0x55, 0 => (.clean r.h) <$> lineDec r
  | 0x56, 0 => (.inval r.h) <$> lineDec r
  | 0x57, 0 => (.flush r.h) <$> lineDec r
  | 0x58, 0 => (.spalloc r.h) <$> spDec r
  | 0x59, 0 => (.spfree r.h) <$> spDec r
  | m, _ => .error (if [0x50, 0x51, 0x52, 0x53, 0x54, 0x55, 0x56, 0x57, 0x58, 0x59].contains m then .minor else .major)

/-- The majors 0x60-0x6F of R374. -/
def parseAtomic (r : Raw) : Except Reject Instr :=
  match r.major.toNat, r.minor.toNat with
  | 0x60, 0 => (.aadd r.h) <$> atomDec r
  | 0x60, 1 => (.aand r.h) <$> atomDec r
  | 0x60, 2 => (.aor r.h) <$> atomDec r
  | 0x60, 3 => (.axor r.h) <$> atomDec r
  | 0x60, 4 => (.amin r.h) <$> atomDec r
  | 0x60, 5 => (.amax r.h) <$> atomDec r
  | 0x60, 6 => (.aminn r.h) <$> atomDec r
  | 0x60, 7 => (.amaxn r.h) <$> atomDec r
  | 0x60, 8 => (.aswap r.h) <$> atomDec r
  | 0x61, 0 => (.acas r.h) <$> atomDec r
  | 0x62, 0 => (.afadd r.h) <$> atomDec r
  | 0x63, 0 => (.radd r.h) <$> redwDec r
  | 0x64, 0 => (.rclr r.h) <$> redwDec r
  | 0x65, 0 => (.stkinit r.h) <$> stkPDec r
  | 0x66, 0 => (.stktake r.h) <$> stkPDec r
  | 0x67, 0 => (.stkgive r.h) <$> stkPDec r
  | 0x68, 0 => (.stkreadApprox r.h) <$> stkCDec r
  | 0x68, 1 => (.stkreadExact r.h) <$> stkCDec r
  | m, _ => .error (if [0x60, 0x61, 0x62, 0x63, 0x64, 0x65, 0x66, 0x67, 0x68].contains m then .minor else .major)

/-- The majors 0x70-0x7F of R374. -/
def parseSync (r : Raw) : Except Reject Instr :=
  match r.major.toNat, r.minor.toNat with
  | 0x70, 0 => (.phreg r.h) <$> phCDec r
  | 0x71, 0 => (.phdrop r.h) <$> phCDec r
  | 0x72, 0 => (.phsig r.h) <$> phCDec r
  | 0x73, 0 => (.phwait r.h) <$> phCDec r
  | 0x74, 0 => (.phsw r.h) <$> phCDec r
  | 0x75, 0 => (.phexp r.h) <$> phPDec r
  | 0x76, 0 => (.phgather r.h) <$> phCDec r
  | 0x77, 0 => (.evwait r.h) <$> evDec r
  | 0x78, 0 => (.evpop r.h) <$> evDec r
  | 0x78, 1 => (.evpeek r.h) <$> evDec r
  | 0x79, 0 => (.send r.h) <$> engDec r
  | 0x7A, 0 => (.withdraw r.h) <$> engDec r
  | 0x7B, 0 => (.qpeek r.h) <$> qiDec r
  | 0x7C, 0 => (.qcnt r.h) <$> qiDec r
  | m, _ => .error (if [0x70, 0x71, 0x72, 0x73, 0x74, 0x75, 0x76, 0x77, 0x78, 0x79, 0x7A, 0x7B, 0x7C].contains m then .minor else .major)

/-- The majors 0x80-0x8F of R374. -/
def parseFloat (r : Raw) : Except Reject Instr :=
  match r.major.toNat, r.minor.toNat with
  | 0x80, 0 => (.fadd r.h) <$> fpDec r
  | 0x81, 0 => (.fsub r.h) <$> fpDec r
  | 0x82, 0 => (.fmul r.h) <$> fpDec r
  | 0x83, 0 => (.fma r.h) <$> fpDec r
  | 0x83, 1 => (.fms r.h) <$> fpDec r
  | 0x83, 2 => (.fnma r.h) <$> fpDec r
  | 0x83, 3 => (.fnms r.h) <$> fpDec r
  | 0x84, 0 => (.fdiv r.h) <$> fpDec r
  | 0x85, 0 => (.fsqrt r.h) <$> fpDec r
  | 0x86, 0 => (.frsqe r.h) <$> fpDec r
  | 0x87, 0 => (.frcpe r.h) <$> fpDec r
  | 0x88, 0 => (.fmin r.h) <$> fpDec r
  | 0x88, 1 => (.fmax r.h) <$> fpDec r
  | 0x89, 0 => (.fabs r.h) <$> fpDec r
  | 0x89, 1 => (.fneg r.h) <$> fpDec r
  | 0x89, 2 => (.fcpsgn r.h) <$> fpDec r
  | 0x8A, 0 => (.fcmp r.h) <$> fpDec r
  | 0x8B, 0 => (.fclass r.h) <$> fpDec r
  | 0x8C, 0 => (.fcvt r.h) <$> fpDec r
  | 0x8D, 0 => (.fscalb r.h) <$> fpDec r
  | 0x8E, 0 => (.fexpo r.h) <$> fpDec r
  | m, _ => .error (if [0x80, 0x81, 0x82, 0x83, 0x84, 0x85, 0x86, 0x87, 0x88, 0x89, 0x8A, 0x8B, 0x8C, 0x8D, 0x8E].contains m then .minor else .major)

/-- The majors 0xA0-0xAF of R374. -/
def parseWide (r : Raw) : Except Reject Instr :=
  match r.major.toNat, r.minor.toNat with
  | 0xA0, 0 => (.vadd r.h) <$> fpDec r
  | 0xA1, 0 => (.vsub r.h) <$> fpDec r
  | 0xA2, 0 => (.vmul r.h) <$> fpDec r
  | 0xA3, 0 => (.vfma r.h) <$> fpDec r
  | 0xA4, 0 => (.vmax r.h) <$> fpDec r
  | 0xA4, 1 => (.vmin r.h) <$> fpDec r
  | 0xA5, 0 => (.vabs r.h) <$> fpDec r
  | 0xA6, 0 => (.vexp2 r.h) <$> fpDec r
  | 0xA7, 0 => (.vrsqe r.h) <$> fpDec r
  | 0xA8, 0 => (.vrcpe r.h) <$> fpDec r
  | 0xA9, 0 => (.vcmp r.h) <$> fpDec r
  | 0xAA, 0 => (.vsel r.h) <$> fpDec r
  | 0xAB, 0 => (.vfill r.h) <$> fpDec r
  | 0xAC, 0 => (.vcopy r.h) <$> fpDec r
  | 0xAD, 0 => (.vgather r.h) <$> fpDec r
  | 0xAE, 0 => (.vscatter r.h) <$> fpDec r
  | m, _ => .error (if [0xA0, 0xA1, 0xA2, 0xA3, 0xA4, 0xA5, 0xA6, 0xA7, 0xA8, 0xA9, 0xAA, 0xAB, 0xAC, 0xAD, 0xAE].contains m then .minor else .major)

/-- The majors 0xB0-0xBF of R374. -/
def parseReduce (r : Raw) : Except Reject Instr :=
  match r.major.toNat, r.minor.toNat with
  | 0xB0, 0 => (.vcvt r.h) <$> fpDec r
  | 0xB1, 0 => (.vqnt r.h) <$> fpDec r
  | 0xB2, 0 => (.vamax r.h) <$> fpDec r
  | 0xB3, 0 => (.vsum r.h) <$> fpDec r
  | 0xB4, 0 => (.vdot r.h) <$> fpDec r
  | 0xB5, 0 => (.vdelta r.h) <$> fpDec r
  | 0xB6, 0 => (.vrope r.h) <$> fpDec r
  | 0xB7, 0 => (.vlse r.h) <$> fpDec r
  | m, _ => .error (if [0xB0, 0xB1, 0xB2, 0xB3, 0xB4, 0xB5, 0xB6, 0xB7].contains m then .minor else .major)

/-- The majors 0xC0-0xCF of R374. -/
def parseMatrix (r : Raw) : Except Reject Instr :=
  match r.major.toNat, r.minor.toNat with
  | 0xC0, 0 => (.mgang r.h) <$> mgangDec r
  | 0xC1, 0 => (.mmul r.h) <$> matDec r
  | 0xC2, 0 => (.mgrp r.h) <$> matDec r
  | 0xC3, 0 => (.mzero r.h) <$> tileDec r
  | 0xC4, 0 => (.mld r.h) <$> tileDec r
  | 0xC5, 0 => (.mst r.h) <$> tileDec r
  | 0xC6, 0 => (.mdrain r.h) <$> matDec r
  | 0xC6, 1 => (.mdrainAdd r.h) <$> matDec r
  | 0xC6, 2 => (.mdrainAddOrd r.h) <$> matDec r
  | 0xC7, 0 => (.mcopy r.h) <$> tileDec r
  | 0xC8, 0 => (.mstat r.h) <$> tileDec r
  | m, _ => .error (if [0xC0, 0xC1, 0xC2, 0xC3, 0xC4, 0xC5, 0xC6, 0xC7, 0xC8].contains m then .minor else .major)

/-- The majors 0xD0-0xDF of R374. -/
def parseEngine (r : Raw) : Except Reject Instr :=
  match r.major.toNat, r.minor.toNat with
  | 0xD0, 0 => (.cpy r.h) <$> engDec r
  | 0xD1, 0 => (.cpy2d r.h) <$> engDec r
  | 0xD2, 0 => (.cprot r.h) <$> engDec r
  | 0xD3, 0 => (.cpfill r.h) <$> engDec r
  | 0xD4, 0 => (.bkadd r.h) <$> engDec r
  | 0xD5, 0 => (.bkaxpy r.h) <$> engDec r
  | 0xD6, 0 => (.bkgemv r.h) <$> engDec r
  | 0xD7, 0 => (.bkzero r.h) <$> engDec r
  | 0xD8, 0 => (.kvapp r.h) <$> engDec r
  | 0xD8, 1 => (.kvseal r.h) <$> engDec r
  | 0xD8, 2 => (.kvpatch r.h) <$> engDec r
  | 0xD8, 3 => (.kvfork r.h) <$> engDec r
  | 0xD8, 4 => (.kvtrunc r.h) <$> engDec r
  | 0xD8, 5 => (.kvstat r.h) <$> engDec r
  | 0xD9, 0 => (.kvjopen r.h) <$> engDec r
  | 0xD9, 1 => (.kvjmark r.h) <$> engDec r
  | 0xD9, 2 => (.kvjundo r.h) <$> engDec r
  | 0xD9, 3 => (.kvjclose r.h) <$> engDec r
  | 0xDA, 0 => (.edins r.h) <$> engDec r
  | 0xDA, 1 => (.eddel r.h) <$> engDec r
  | 0xDA, 2 => (.edrep r.h) <$> engDec r
  | 0xDB, 0 => (.settle r.h) <$> engDec r
  | 0xDC, 0 => (.raise r.h) <$> engDec r
  | 0xDD, 0 => (.rebind r.h) <$> engDec r
  | m, _ => .error (if [0xD0, 0xD1, 0xD2, 0xD3, 0xD4, 0xD5, 0xD6, 0xD7, 0xD8, 0xD9, 0xDA, 0xDB, 0xDC, 0xDD].contains m then .minor else .major)

/-- The majors 0xE0-0xEF of R374. -/
def parseValidity (r : Raw) : Except Reject Instr :=
  match r.major.toNat, r.minor.toNat with
  | 0xE1, 0 => (.wfree r.h) <$> wfreeDec r
  | 0xE2, 0 => (.wdone r.h) <$> wdoneDec r
  | 0xE3, 0 => (.wcell r.h) <$> wcellDec r
  | 0xE4, 0 => (.wmark r.h) <$> engDec r
  | 0xE0, 0 => whold r
  | m, _ => .error (if [0xE0, 0xE1, 0xE2, 0xE3, 0xE4].contains m then .minor else .major)

/-- The majors 0xF0-0xFF of R374. -/
def parseSystem (r : Raw) : Except Reject Instr :=
  match r.major.toNat, r.minor.toNat with
  | 0xF0, 0 => (.ctlrd r.h) <$> ctlrdDec r
  | 0xF1, 0 => (.ctlwr r.h) <$> ctlwrDec r
  | 0xF3, 0 => (.tlbinv r.h) <$> tlbinvDec r
  | 0xF4, 0 => (.tlbprobe r.h) <$> tlbprobeDec r
  | 0xF5, 0 => (.cflush r.h) <$> cflushDec r
  | 0xF6, 0 => noneOp r (.rett r.h)
  | 0xF7, 0 => (.hbeat r.h) <$> hbeatDec r
  | 0xF8, 0 => (.idle r.h) <$> idleDec r
  | 0xF2, 0 => tlbw r
  | m, _ => .error (if [0xF0, 0xF1, 0xF2, 0xF3, 0xF4, 0xF5, 0xF6, 0xF7, 0xF8].contains m then .minor else .major)

/-- R374: the instruction a word's fields name, before the checks of WellFormed.lean. -/
def parse (r : Raw) : Except Reject Instr :=
  match r.major.toNat / 16 with
  | 0 => parseControl r
  | 1 => parseInteger r
  | 2 => parseBits r
  | 3 => parseCapability r
  | 4 => parseMemory r
  | 5 => parseStream r
  | 6 => parseAtomic r
  | 7 => parseSync r
  | 8 => parseFloat r
  | 10 => parseWide r
  | 11 => parseReduce r
  | 12 => parseMatrix r
  | 13 => parseEngine r
  | 14 => parseValidity r
  | 15 => parseSystem r
  | _ => .error .major

/-! ## Decoding -/

/-- The instruction of a word: its fields under the map of R374, then the checks of R376. -/
def decode (w : IWord) : Except Reject Instr :=
  match parse (rawOfWord w) with
  | .error e => .error e
  | .ok i => match i.check with
    | none => .ok i
    | some e => .error e

/-- R360: 12 bytes, the least significant first. -/
def wordOfBytes : List Byte → IWord
  | [] => 0
  | b :: t => (wordOfBytes t <<< 8) ||| b.setWidth 96

def bytesOfWord (w : IWord) : List Byte :=
  [w.extractLsb' 0 8, w.extractLsb' 8 8, w.extractLsb' 16 8, w.extractLsb' 24 8, w.extractLsb' 32 8, w.extractLsb' 40 8,
   w.extractLsb' 48 8, w.extractLsb' 56 8, w.extractLsb' 64 8, w.extractLsb' 72 8, w.extractLsb' 80 8, w.extractLsb' 88 8]

/-- Decode the first 12 bytes of a list and give the rest back. -/
def decodeBytes (bs : List Byte) : Except Reject (Instr × List Byte) :=
  if bs.length < 12 then .error .short
  else match decode (wordOfBytes (bs.take 12)) with
    | .ok i => .ok (i, bs.drop 12)
    | .error e => .error e

/-- The instruction the decoder reads from a word numbered as the opcode table numbers it. -/
def decodeTableWord (nbits w : Nat) : Option Instr :=
  match decodeBytes (bytesOfWord (BitVec.ofNat 96 (w % 2 ^ nbits))) with
  | .ok (i, _) => some i
  | .error _ => none

/-! ## Encoding -/

/-- The 96-bit word of a legal instruction, written from the same tables (R359, R374); an event has none and
gives the zero word. -/
def encode : Instr → IWord
  | .nop h => word 0x00 0 h ⟨0, 0, 0, 0⟩
  | .br h o => word 0x01 0 h (brEnc o)
  | .brx h o => word 0x02 0 h (brxEnc o)
  | .call h o => word 0x03 0 h (callEnc o)
  | .callx h o => word 0x04 0 h (callxEnc o)
  | .ret h o => word 0x05 0 h (retEnc o)
  | .loop h o => word 0x06 0 h (callEnc o)
  | .finCommit h => word 0x07 0 h ⟨0, 0, 0, 0⟩
  | .finAgain h => word 0x07 1 h ⟨0, 0, 0, 0⟩
  | .finAbort h => word 0x07 2 h ⟨0, 0, 0, 0⟩
  | .yield h => word 0x08 0 h ⟨0, 0, 0, 0⟩
  | .trap h o => word 0x09 0 h (trapEnc o)
  | .sig h o => word 0x0A 0 h (sigEnc o)
  | .add h o => word 0x10 0 h (intEnc o)
  | .sub h o => word 0x11 0 h (intEnc o)
  | .mul h o => word 0x12 0 h (intEnc o)
  | .mulh h o => word 0x13 0 h (intEnc o)
  | .mulhn h o => word 0x13 1 h (intEnc o)
  | .div h o => word 0x14 0 h (intEnc o)
  | .divn h o => word 0x14 1 h (intEnc o)
  | .rem h o => word 0x15 0 h (intEnc o)
  | .remn h o => word 0x15 1 h (intEnc o)
  | .and h o => word 0x16 0 h (intEnc o)
  | .or h o => word 0x17 0 h (intEnc o)
  | .xor h o => word 0x18 0 h (intEnc o)
  | .andn h o => word 0x19 0 h (intEnc o)
  | .shl h o => word 0x1A 0 h (intEnc o)
  | .shr h o => word 0x1B 0 h (intEnc o)
  | .sra h o => word 0x1C 0 h (intEnc o)
  | .rotr h o => word 0x1D 0 h (intEnc o)
  | .min h o => word 0x1E 0 h (intEnc o)
  | .max h o => word 0x1E 1 h (intEnc o)
  | .minn h o => word 0x1E 2 h (intEnc o)
  | .maxn h o => word 0x1E 3 h (intEnc o)
  | .abs h o => word 0x1F 0 h (intEnc o)
  | .neg h o => word 0x1F 1 h (intEnc o)
  | .clz h o => word 0x20 0 h (intEnc o)
  | .ctz h o => word 0x20 1 h (intEnc o)
  | .popc h o => word 0x20 2 h (intEnc o)
  | .brev h o => word 0x20 3 h (intEnc o)
  | .bswp h o => word 0x20 4 h (intEnc o)
  | .extr h o => word 0x21 0 h (intEnc o)
  | .extrn h o => word 0x21 1 h (intEnc o)
  | .ins h o => word 0x22 0 h (intEnc o)
  | .sel h o => word 0x23 0 h (selEnc o)
  | .mov h o => word 0x24 0 h (movEnc o)
  | .movi h o => word 0x25 0 h (moviEnc o)
  | .moviHigh h o => word 0x25 1 h (moviEnc o)
  | .cmp h o => word 0x26 0 h (cmpEnc o)
  | .pand h o => word 0x27 0 h (predEnc o)
  | .por h o => word 0x27 1 h (predEnc o)
  | .pxor h o => word 0x27 2 h (predEnc o)
  | .pnot h o => word 0x27 3 h (predEnc o)
  | .rngx h o => word 0x28 0 h (rngEnc o)
  | .csetb h o => word 0x30 0 h (capEnc o)
  | .csetp h o => word 0x31 0 h (capEnc o)
  | .cadd h o => word 0x32 0 h (capEnc o)
  | .cgetb h o => word 0x33 0 h (capEnc o)
  | .cgetl h o => word 0x33 1 h (capEnc o)
  | .cgetp h o => word 0x33 2 h (capEnc o)
  | .cgett h o => word 0x33 3 h (capEnc o)
  | .cclr h o => word 0x34 0 h (capEnc o)
  | .cseal h o => word 0x35 0 h (capEnc o)
  | .cunseal h o => word 0x36 0 h (capEnc o)
  | .ld h o => word 0x40 0 h (memEnc o)
  | .ldc h o => word 0x41 0 h (memEnc o)
  | .st h o => word 0x42 0 h (memEnc o)
  | .stc h o => word 0x43 0 h (memEnc o)
  | .lda h o => word 0x44 0 h (memEnc o)
  | .str h o => word 0x45 0 h (memEnc o)
  | .pref h o => word 0x46 0 h (memEnc o)
  | .sdef h o => word 0x50 0 h (sdefEnc o)
  | .sdefw h o => word 0x50 1 h (sdefwEnc o)
  | .sdefk h o => word 0x50 2 h (sdefkEnc o)
  | .sdefs h o => word 0x50 3 h (sdefsEnc o)
  | .sld h o => word 0x51 0 h (sldEnc o)
  | .sst h o => word 0x52 0 h (sstEnc o)
  | .srd h o => word 0x53 0 h (sldEnc o)
  | .fence h o => word 0x54 0 h (fenceEnc o)
  | .clean h o => word 0x55 0 h (lineEnc o)
  | .inval h o => word 0x56 0 h (lineEnc o)
  | .flush h o => word 0x57 0 h (lineEnc o)
  | .spalloc h o => word 0x58 0 h (spEnc o)
  | .spfree h o => word 0x59 0 h (spEnc o)
  | .aadd h o => word 0x60 0 h (atomEnc o)
  | .aand h o => word 0x60 1 h (atomEnc o)
  | .aor h o => word 0x60 2 h (atomEnc o)
  | .axor h o => word 0x60 3 h (atomEnc o)
  | .amin h o => word 0x60 4 h (atomEnc o)
  | .amax h o => word 0x60 5 h (atomEnc o)
  | .aminn h o => word 0x60 6 h (atomEnc o)
  | .amaxn h o => word 0x60 7 h (atomEnc o)
  | .aswap h o => word 0x60 8 h (atomEnc o)
  | .acas h o => word 0x61 0 h (atomEnc o)
  | .afadd h o => word 0x62 0 h (atomEnc o)
  | .radd h o => word 0x63 0 h (redwEnc o)
  | .rclr h o => word 0x64 0 h (redwEnc o)
  | .stkinit h o => word 0x65 0 h (stkPEnc o)
  | .stktake h o => word 0x66 0 h (stkPEnc o)
  | .stkgive h o => word 0x67 0 h (stkPEnc o)
  | .stkreadApprox h o => word 0x68 0 h (stkCEnc o)
  | .stkreadExact h o => word 0x68 1 h (stkCEnc o)
  | .phreg h o => word 0x70 0 h (phCEnc o)
  | .phdrop h o => word 0x71 0 h (phCEnc o)
  | .phsig h o => word 0x72 0 h (phCEnc o)
  | .phwait h o => word 0x73 0 h (phCEnc o)
  | .phsw h o => word 0x74 0 h (phCEnc o)
  | .phexp h o => word 0x75 0 h (phPEnc o)
  | .phgather h o => word 0x76 0 h (phCEnc o)
  | .evwait h o => word 0x77 0 h (evEnc o)
  | .evpop h o => word 0x78 0 h (evEnc o)
  | .evpeek h o => word 0x78 1 h (evEnc o)
  | .send h o => word 0x79 0 h (engEnc o)
  | .withdraw h o => word 0x7A 0 h (engEnc o)
  | .qpeek h o => word 0x7B 0 h (qiEnc o)
  | .qcnt h o => word 0x7C 0 h (qiEnc o)
  | .fadd h o => word 0x80 0 h (fpEnc o)
  | .fsub h o => word 0x81 0 h (fpEnc o)
  | .fmul h o => word 0x82 0 h (fpEnc o)
  | .fma h o => word 0x83 0 h (fpEnc o)
  | .fms h o => word 0x83 1 h (fpEnc o)
  | .fnma h o => word 0x83 2 h (fpEnc o)
  | .fnms h o => word 0x83 3 h (fpEnc o)
  | .fdiv h o => word 0x84 0 h (fpEnc o)
  | .fsqrt h o => word 0x85 0 h (fpEnc o)
  | .frsqe h o => word 0x86 0 h (fpEnc o)
  | .frcpe h o => word 0x87 0 h (fpEnc o)
  | .fmin h o => word 0x88 0 h (fpEnc o)
  | .fmax h o => word 0x88 1 h (fpEnc o)
  | .fabs h o => word 0x89 0 h (fpEnc o)
  | .fneg h o => word 0x89 1 h (fpEnc o)
  | .fcpsgn h o => word 0x89 2 h (fpEnc o)
  | .fcmp h o => word 0x8A 0 h (fpEnc o)
  | .fclass h o => word 0x8B 0 h (fpEnc o)
  | .fcvt h o => word 0x8C 0 h (fpEnc o)
  | .fscalb h o => word 0x8D 0 h (fpEnc o)
  | .fexpo h o => word 0x8E 0 h (fpEnc o)
  | .vadd h o => word 0xA0 0 h (fpEnc o)
  | .vsub h o => word 0xA1 0 h (fpEnc o)
  | .vmul h o => word 0xA2 0 h (fpEnc o)
  | .vfma h o => word 0xA3 0 h (fpEnc o)
  | .vmax h o => word 0xA4 0 h (fpEnc o)
  | .vmin h o => word 0xA4 1 h (fpEnc o)
  | .vabs h o => word 0xA5 0 h (fpEnc o)
  | .vexp2 h o => word 0xA6 0 h (fpEnc o)
  | .vrsqe h o => word 0xA7 0 h (fpEnc o)
  | .vrcpe h o => word 0xA8 0 h (fpEnc o)
  | .vcmp h o => word 0xA9 0 h (fpEnc o)
  | .vsel h o => word 0xAA 0 h (fpEnc o)
  | .vfill h o => word 0xAB 0 h (fpEnc o)
  | .vcopy h o => word 0xAC 0 h (fpEnc o)
  | .vgather h o => word 0xAD 0 h (fpEnc o)
  | .vscatter h o => word 0xAE 0 h (fpEnc o)
  | .vcvt h o => word 0xB0 0 h (fpEnc o)
  | .vqnt h o => word 0xB1 0 h (fpEnc o)
  | .vamax h o => word 0xB2 0 h (fpEnc o)
  | .vsum h o => word 0xB3 0 h (fpEnc o)
  | .vdot h o => word 0xB4 0 h (fpEnc o)
  | .vdelta h o => word 0xB5 0 h (fpEnc o)
  | .vrope h o => word 0xB6 0 h (fpEnc o)
  | .vlse h o => word 0xB7 0 h (fpEnc o)
  | .mgang h o => word 0xC0 0 h (mgangEnc o)
  | .mmul h o => word 0xC1 0 h (matEnc o)
  | .mgrp h o => word 0xC2 0 h (matEnc o)
  | .mzero h o => word 0xC3 0 h (tileEnc o)
  | .mld h o => word 0xC4 0 h (tileEnc o)
  | .mst h o => word 0xC5 0 h (tileEnc o)
  | .mdrain h o => word 0xC6 0 h (matEnc o)
  | .mdrainAdd h o => word 0xC6 1 h (matEnc o)
  | .mdrainAddOrd h o => word 0xC6 2 h (matEnc o)
  | .mcopy h o => word 0xC7 0 h (tileEnc o)
  | .mstat h o => word 0xC8 0 h (tileEnc o)
  | .cpy h o => word 0xD0 0 h (engEnc o)
  | .cpy2d h o => word 0xD1 0 h (engEnc o)
  | .cprot h o => word 0xD2 0 h (engEnc o)
  | .cpfill h o => word 0xD3 0 h (engEnc o)
  | .bkadd h o => word 0xD4 0 h (engEnc o)
  | .bkaxpy h o => word 0xD5 0 h (engEnc o)
  | .bkgemv h o => word 0xD6 0 h (engEnc o)
  | .bkzero h o => word 0xD7 0 h (engEnc o)
  | .kvapp h o => word 0xD8 0 h (engEnc o)
  | .kvseal h o => word 0xD8 1 h (engEnc o)
  | .kvpatch h o => word 0xD8 2 h (engEnc o)
  | .kvfork h o => word 0xD8 3 h (engEnc o)
  | .kvtrunc h o => word 0xD8 4 h (engEnc o)
  | .kvstat h o => word 0xD8 5 h (engEnc o)
  | .kvjopen h o => word 0xD9 0 h (engEnc o)
  | .kvjmark h o => word 0xD9 1 h (engEnc o)
  | .kvjundo h o => word 0xD9 2 h (engEnc o)
  | .kvjclose h o => word 0xD9 3 h (engEnc o)
  | .edins h o => word 0xDA 0 h (engEnc o)
  | .eddel h o => word 0xDA 1 h (engEnc o)
  | .edrep h o => word 0xDA 2 h (engEnc o)
  | .settle h o => word 0xDB 0 h (engEnc o)
  | .raise h o => word 0xDC 0 h (engEnc o)
  | .rebind h o => word 0xDD 0 h (engEnc o)
  | .wfree h o => word 0xE1 0 h (wfreeEnc o)
  | .wdone h o => word 0xE2 0 h (wdoneEnc o)
  | .wcell h o => word 0xE3 0 h (wcellEnc o)
  | .wmark h o => word 0xE4 0 h (engEnc o)
  | .ctlrd h o => word 0xF0 0 h (ctlrdEnc o)
  | .ctlwr h o => word 0xF1 0 h (ctlwrEnc o)
  | .tlbinv h o => word 0xF3 0 h (tlbinvEnc o)
  | .tlbprobe h o => word 0xF4 0 h (tlbprobeEnc o)
  | .cflush h o => word 0xF5 0 h (cflushEnc o)
  | .rett h => word 0xF6 0 h ⟨0, 0, 0, 0⟩
  | .hbeat h o => word 0xF7 0 h (hbeatEnc o)
  | .idle h o => word 0xF8 0 h (idleEnc o)
  | .wholdWithin h o => word 0xE0 0 h (wholdEnc 0 o)
  | .wholdBefore h o => word 0xE0 0 h (wholdEnc 1 o)
  | .wholdAfter h o => word 0xE0 0 h (wholdEnc 2 o)
  | .tlbwr h o => word 0xF2 0 h (tlbEnc 0 o)
  | .tlbwrFill h o => word 0xF2 0 h (tlbEnc 1 o)
  | .tlbwrFault h o => word 0xF2 0 h (tlbEnc 2 o)
  | .tlbwrPeer h o => word 0xF2 0 h (tlbEnc 3 o)
  | .powerLoss | .hctlStart | .imageFirstHeartbeatTimeout | .hctlNegGo | .hmqheadWrite | .registerWrite
  | .messageSlotPost | .messageSlotClear | .slotMessageAccept | .msixRateIntervalExpiry | .hostCxlMemAccess | .ctxnew
  | .ctxend | .ctxtrap | .stockalloc | .shore | .shoot | .shootdownComplete | .sched | .linkcfg | .slotvec | .attest
  | .seqopen | .seqclose | .verdict | .thermalThrottle | .thermalRecover | .thermalFatal | .dieBridgeLoss
  | .linkReplayRequest | .linkRetrainStart | .linkRetrainSuccess | .linkRetrainLimitExpiry | .peerLost | .peerReachable
  | .hbmScrub | .shoreStageComplete | .shoreStageTimeout | .handoverRecordWritten | .handoverTimeout | .shoreAcceptance
  | .shoreGapLimitExpiry | .watchdogHeartbeatMiss | .shoreCommit | .committedHeartbeatLoss | .firstTouchServe
  | .dupReadReplicate | .dupWriteCollapse | .stockHomeServe | .stockRecallOrder | .stockReturnArrival
  | .stockReclaimProbe | .phaserCompletionArrival | .heldRecordDelivery | .firingStart | .firingResume
  | .preemptAtSafePoint | .quotaAdjust | .overdueRotation | .budgetPeriodStart | .cycleBudgetSpent | .byteBudgetSpent
  | .overrunExpiry | .frameEnd | .drainApply | .waveEnterLayer | .editDeferredApply | .editRotationComplete
  | .afterHoldGrant | .engineCommandComplete | .wideUnitStep | .ageingIntervalExpiry | .idleTimeoutExpiry
  | .msixVectorUnmask | .peerRequestArrival | .hostCacheSnoop | .stateParityError | .shoreFallbackComplete => 0

/-- The header of an instruction; an event has none. -/
def Instr.hdr : Instr → Option Hdr
  | .nop h | .br h _ | .brx h _ | .call h _ | .callx h _ | .ret h _ | .loop h _ => some h
  | .finCommit h | .finAgain h | .finAbort h | .yield h | .trap h _ | .sig h _ | .add h _ => some h
  | .sub h _ | .mul h _ | .mulh h _ | .mulhn h _ | .div h _ | .divn h _ | .rem h _ => some h
  | .remn h _ | .and h _ | .or h _ | .xor h _ | .andn h _ | .shl h _ | .shr h _ => some h
  | .sra h _ | .rotr h _ | .min h _ | .max h _ | .minn h _ | .maxn h _ | .abs h _ => some h
  | .neg h _ | .clz h _ | .ctz h _ | .popc h _ | .brev h _ | .bswp h _ | .extr h _ => some h
  | .extrn h _ | .ins h _ | .sel h _ | .mov h _ | .movi h _ | .moviHigh h _ | .cmp h _ => some h
  | .pand h _ | .por h _ | .pxor h _ | .pnot h _ | .rngx h _ | .csetb h _ | .csetp h _ => some h
  | .cadd h _ | .cgetb h _ | .cgetl h _ | .cgetp h _ | .cgett h _ | .cclr h _ | .cseal h _ => some h
  | .cunseal h _ | .ld h _ | .ldc h _ | .st h _ | .stc h _ | .lda h _ | .str h _ => some h
  | .pref h _ | .sdef h _ | .sdefw h _ | .sdefk h _ | .sdefs h _ | .sld h _ | .sst h _ => some h
  | .srd h _ | .fence h _ | .clean h _ | .inval h _ | .flush h _ | .spalloc h _ | .spfree h _ => some h
  | .aadd h _ | .aand h _ | .aor h _ | .axor h _ | .amin h _ | .amax h _ | .aminn h _ => some h
  | .amaxn h _ | .aswap h _ | .acas h _ | .afadd h _ | .radd h _ | .rclr h _ | .stkinit h _ => some h
  | .stktake h _ | .stkgive h _ | .stkreadApprox h _ | .stkreadExact h _ | .phreg h _ | .phdrop h _ | .phsig h _ => some h
  | .phwait h _ | .phsw h _ | .phexp h _ | .phgather h _ | .evwait h _ | .evpop h _ | .evpeek h _ => some h
  | .send h _ | .withdraw h _ | .qpeek h _ | .qcnt h _ | .fadd h _ | .fsub h _ | .fmul h _ => some h
  | .fma h _ | .fms h _ | .fnma h _ | .fnms h _ | .fdiv h _ | .fsqrt h _ | .frsqe h _ => some h
  | .frcpe h _ | .fmin h _ | .fmax h _ | .fabs h _ | .fneg h _ | .fcpsgn h _ | .fcmp h _ => some h
  | .fclass h _ | .fcvt h _ | .fscalb h _ | .fexpo h _ | .vadd h _ | .vsub h _ | .vmul h _ => some h
  | .vfma h _ | .vmax h _ | .vmin h _ | .vabs h _ | .vexp2 h _ | .vrsqe h _ | .vrcpe h _ => some h
  | .vcmp h _ | .vsel h _ | .vfill h _ | .vcopy h _ | .vgather h _ | .vscatter h _ | .vcvt h _ => some h
  | .vqnt h _ | .vamax h _ | .vsum h _ | .vdot h _ | .vdelta h _ | .vrope h _ | .vlse h _ => some h
  | .mgang h _ | .mmul h _ | .mgrp h _ | .mzero h _ | .mld h _ | .mst h _ | .mdrain h _ => some h
  | .mdrainAdd h _ | .mdrainAddOrd h _ | .mcopy h _ | .mstat h _ | .cpy h _ | .cpy2d h _ | .cprot h _ => some h
  | .cpfill h _ | .bkadd h _ | .bkaxpy h _ | .bkgemv h _ | .bkzero h _ | .kvapp h _ | .kvseal h _ => some h
  | .kvpatch h _ | .kvfork h _ | .kvtrunc h _ | .kvstat h _ | .kvjopen h _ | .kvjmark h _ | .kvjundo h _ => some h
  | .kvjclose h _ | .edins h _ | .eddel h _ | .edrep h _ | .settle h _ | .raise h _ | .rebind h _ => some h
  | .wfree h _ | .wdone h _ | .wcell h _ | .wmark h _ | .ctlrd h _ | .ctlwr h _ | .tlbinv h _ => some h
  | .tlbprobe h _ | .cflush h _ | .rett h | .hbeat h _ | .idle h _ | .wholdWithin h _ | .wholdBefore h _ => some h
  | .wholdAfter h _ | .tlbwr h _ | .tlbwrFill h _ | .tlbwrFault h _ | .tlbwrPeer h _ => some h
  | .powerLoss | .hctlStart | .imageFirstHeartbeatTimeout | .hctlNegGo | .hmqheadWrite | .registerWrite
  | .messageSlotPost | .messageSlotClear | .slotMessageAccept | .msixRateIntervalExpiry | .hostCxlMemAccess | .ctxnew
  | .ctxend | .ctxtrap | .stockalloc | .shore | .shoot | .shootdownComplete | .sched | .linkcfg | .slotvec | .attest
  | .seqopen | .seqclose | .verdict | .thermalThrottle | .thermalRecover | .thermalFatal | .dieBridgeLoss
  | .linkReplayRequest | .linkRetrainStart | .linkRetrainSuccess | .linkRetrainLimitExpiry | .peerLost | .peerReachable
  | .hbmScrub | .shoreStageComplete | .shoreStageTimeout | .handoverRecordWritten | .handoverTimeout | .shoreAcceptance
  | .shoreGapLimitExpiry | .watchdogHeartbeatMiss | .shoreCommit | .committedHeartbeatLoss | .firstTouchServe
  | .dupReadReplicate | .dupWriteCollapse | .stockHomeServe | .stockRecallOrder | .stockReturnArrival
  | .stockReclaimProbe | .phaserCompletionArrival | .heldRecordDelivery | .firingStart | .firingResume
  | .preemptAtSafePoint | .quotaAdjust | .overdueRotation | .budgetPeriodStart | .cycleBudgetSpent | .byteBudgetSpent
  | .overrunExpiry | .frameEnd | .drainApply | .waveEnterLayer | .editDeferredApply | .editRotationComplete
  | .afterHoldGrant | .engineCommandComplete | .wideUnitStep | .ageingIntervalExpiry | .idleTimeoutExpiry
  | .msixVectorUnmask | .peerRequestArrival | .hostCacheSnoop | .stateParityError | .shoreFallbackComplete => none

end Sys2Proof
end

