-- ==== Sys2Proof/Machine/Float.lean ====
section
/-! DEFINITION. Number formats and arithmetic (R320-R336): layouts, rounding, conversions, estimates and the events
they count. Values are exact (a sign, a natural mantissa and an integer exponent) and are rounded once. -/
namespace Sys2Proof.Machine

/-- How a floating-point format uses its special codes (R321, R323). -/
inductive FKind where
  /-- infinities and NaNs in the top exponent: FP32, BF16, FP16, E5M2 -/
  | ieee
  /-- one NaN magnitude, no infinity -/
  | e4m3
  /-- E3M2, E2M3, E2M1: neither -/
  | finite
  /-- B8, extended domain -/
  | b8ext
  /-- B8, finite domain -/
  | b8fin
  deriving DecidableEq, Repr, Inhabited

/-- A floating-point layout (R321, R323): exponent and fraction bits, bias, the code of the largest finite magnitude. -/
structure FLayout where
  ew : Nat
  fw : Nat
  bias : Nat
  kind : FKind
  max : Nat
  signed : Bool
  deriving DecidableEq, Repr, Inhabited

/-- A format (R320). -/
inductive Fmt where
  | float (p : FLayout)
  | int (w : Nat) (signed : Bool)
  | e8m0
  deriving DecidableEq, Repr, Inhabited

def fp32 : FLayout := ⟨8, 23, 127, .ieee, 0x7F7FFFFF, true⟩
def bf16 : FLayout := ⟨8, 7, 127, .ieee, 0x7F7F, true⟩
def fp16 : FLayout := ⟨5, 10, 15, .ieee, 0x7BFF, true⟩

/-- R323: the layout of a B8 code. -/
def b8Layout (c : BitVec 6) : FLayout :=
  let p := (c.extractLsb' 0 3).toNat
  let u := c.getLsbD 5
  let fin := c.getLsbD 4
  let w := if u then 9 - p else 8 - p
  { ew := w, fw := p - 1, bias := 2 ^ (w - 1), kind := if fin then .b8fin else .b8ext,
    max := if u then (if fin then 0xFE else 0xFD) else (if fin then 0x7F else 0x7E), signed := !u }

/-- R320: the format of a code. A code that names none is refused at decode; here it reads as FP32. -/
def fmtOf (c : BitVec 7) : Fmt :=
  match c.toNat with
  | 0x00 => .float fp32
  | 0x01 => .float bf16
  | 0x02 => .float fp16
  | 0x03 => .float ⟨4, 3, 7, .e4m3, 0x7E, true⟩
  | 0x04 => .float ⟨5, 2, 15, .ieee, 0x7B, true⟩
  | 0x05 => .float ⟨3, 2, 3, .finite, 0x1F, true⟩
  | 0x06 => .float ⟨2, 3, 1, .finite, 0x1F, true⟩
  | 0x07 => .float ⟨2, 1, 1, .finite, 0x7, true⟩
  | 0x08 => .int 8 true
  | 0x09 => .int 8 false
  | 0x0A => .int 4 true
  | 0x0B => .e8m0
  | 0x10 => .int 16 true
  | 0x11 => .int 32 true
  | 0x12 => .int 64 true
  | 0x14 => .int 16 false
  | 0x15 => .int 32 false
  | 0x16 => .int 64 false
  | n => if n ≥ 0x40 then .float (b8Layout (c.extractLsb' 0 6)) else .float fp32

/-- bits a register holds of the format (R320) -/
def Fmt.bits : Fmt → Nat
  | .float p => p.ew + p.fw + (if p.signed then 1 else 0)
  | .int w _ => w
  | .e8m0 => 8

/-- bits an element takes in a stream: E2M1 and I4 four, E3M2 and E2M3 a byte (R303, R409, R434) -/
def Fmt.elemBits (f : Fmt) : Nat := if f.bits = 6 then 8 else f.bits

/-- A value read from a format. A NaN keeps its fraction field and that field's width (R329). -/
inductive FVal where
  | nan (neg signalling : Bool) (frac fw : Nat)
  | inf (neg : Bool)
  /-- (-1)^neg * m * 2^e; m = 0 is a zero of that sign -/
  | num (neg : Bool) (m : Nat) (e : Int)
  deriving DecidableEq, Repr, Inhabited

/-- The events of an instruction: bit k is one count of k.evck (R331). -/
abbrev Events := BitVec 8
def evInvalid : Events := 0x01
def evDivZero : Events := 0x02
def evOverflow : Events := 0x04
def evUnderflow : Events := 0x08
def evInexact : Events := 0x10
def evSat : Events := 0x20
def evNan : Events := 0x40
def evFlush : Events := 0x80
def evNone : Events := 0

/-- The rounding modes of R324. -/
inductive Rm where
  | rne | rtz | rdn | rup | rna
  deriving DecidableEq, Repr, Inhabited

/-- The control in force for one instruction (R325, R326). -/
structure FCtl where
  rm : Rm
  ftz : Bool
  sat : Bool
  cnan : Bool
  deriving DecidableEq, Repr, Inhabited

/-- RNE, subnormals kept, infinities, propagated NaNs -/
def ctlRne : FCtl := ⟨.rne, false, false, false⟩

/-- R326 over R325: an omitted field follows k.fpmode. -/
def fctl (rm : BitVec 3) (subn ovf nan : BitVec 2) (mode : BitVec 5) : FCtl :=
  { rm := match rm.toNat with
      | 1 => .rne | 2 => .rtz | 3 => .rdn | 4 => .rup | 5 => .rna
      | _ => match (mode.extractLsb' 3 2).toNat with | 0 => .rne | 1 => .rtz | 2 => .rdn | _ => .rup
    ftz := if subn == 0 then mode.getLsbD 2 else subn == 2
    sat := if ovf == 0 then mode.getLsbD 1 else ovf == 2
    cnan := if nan == 0 then mode.getLsbD 0 else nan == 2 }

/-! ## Reading a value -/

/-- the sign bit of a raw value -/
def signOf (p : FLayout) (raw : Nat) : Bool := p.signed && (raw >>> (p.ew + p.fw)) % 2 == 1

/-- R321, R323: the value of a code. -/
def unpackF (p : FLayout) (raw : Nat) : FVal :=
  let mag := raw % 2 ^ (p.ew + p.fw)
  let neg := signOf p raw
  let ef := mag / 2 ^ p.fw
  let f := mag % 2 ^ p.fw
  let fin := if ef = 0 then FVal.num neg f (1 - (p.bias : Int) - p.fw)
    else .num neg (2 ^ p.fw + f) ((ef : Int) - p.bias - p.fw)
  match p.kind with
  | .ieee => if ef = 2 ^ p.ew - 1 then (if f = 0 then .inf neg else .nan neg (f < 2 ^ (p.fw - 1)) f p.fw) else fin
  | .e4m3 => if mag = 0x7F then .nan neg false 7 3 else fin
  | .finite => fin
  | .b8ext =>
    if raw % 256 = (if p.signed then 0x80 else 0xFF) then .nan false false 0 0
    else if mag = (if p.signed then 0x7F else 0xFE) then .inf neg else fin
  | .b8fin => if raw % 256 = (if p.signed then 0x80 else 0xFF) then .nan false false 0 0 else fin

/-- R322: the value of an integer or scale code. -/
def unpack (f : Fmt) (raw : Nat) : FVal :=
  match f with
  | .float p => unpackF p raw
  | .int w s =>
    let v := raw % 2 ^ w
    if s && v ≥ 2 ^ (w - 1) then .num true (2 ^ w - v) 0 else .num false v 0
  | .e8m0 => if raw % 256 = 0xFF then .nan false false 0 0 else .num false 1 ((raw % 256 : Nat) - 127)

/-- the least exponent of a normal value -/
def FLayout.emin (p : FLayout) : Int := 1 - (p.bias : Int)

/-- R327: a subnormal input under flushing reads as a zero of its sign and counts a flush. -/
def flushIn (p : FLayout) (c : FCtl) (v : FVal) : FVal × Events :=
  match v with
  | .num neg m e => if c.ftz && m != 0 && decide (e + Nat.log2 m < p.emin) then (.num neg 0 0, evFlush) else (v, evNone)
  | _ => (v, evNone)

/-- a floating-point input of an instruction -/
def readIn (p : FLayout) (c : FCtl) (raw : Nat) : FVal × Events := flushIn p c (unpackF p raw)

/-! ## Rounding -/

/-- R324: (m + fraction) * 2^e as a multiple of 2^q, and whether that is inexact. `st` says that the fraction is not
zero; it is used only with q at least two above e. -/
def roundAt (neg : Bool) (m : Nat) (st : Bool) (e q : Int) (rm : Rm) : Nat × Bool :=
  if q ≤ e then (m * 2 ^ (e - q).toNat, st)
  else
    let k := (q - e).toNat
    let n := m / 2 ^ k
    let r := m % 2 ^ k
    let half := 2 ^ (k - 1)
    let inexact := r != 0 || st
    let up := match rm with
      | .rne => decide (r > half) || (r == half && (st || n % 2 == 1))
      | .rtz => false
      | .rdn => neg && inexact
      | .rup => !neg && inexact
      | .rna => decide (r ≥ half)
    (if up then n + 1 else n, inexact)

/-- The raw code of a magnitude with a sign. B8 has no -0 (R323). -/
def packMag (p : FLayout) (neg : Bool) (mag : Nat) : Nat :=
  if !p.signed then mag
  else if mag = 0 && (p.kind == .b8ext || p.kind == .b8fin) then 0
  else mag + (if neg then 2 ^ (p.ew + p.fw) else 0)

def infMag (p : FLayout) : Nat :=
  match p.kind with
  | .b8ext => if p.signed then 0x7F else 0xFE
  | _ => (2 ^ p.ew - 1) * 2 ^ p.fw

/-- the canonical NaN, with a sign where the format has one (R321, R323) -/
def nanCode (p : FLayout) (neg : Bool) : Nat :=
  match p.kind with
  | .ieee => packMag p neg ((2 ^ p.ew - 1) * 2 ^ p.fw + 2 ^ (p.fw - 1))
  | .e4m3 => packMag p neg 0x7F
  | .finite => 0
  | _ => if p.signed then 0x80 else 0xFF

/-- R329: an invalid operation on operands that are no NaN. -/
def invalidOut (p : FLayout) : Nat × Events :=
  if p.kind == .finite then (0, evInvalid) else (nanCode p false, evInvalid ||| evNan)

/-- R329: the result for a NaN operand. -/
def nanOut (p : FLayout) (c : FCtl) (neg sig : Bool) (frac fw : Nat) : Nat × Events :=
  if p.kind == .finite then (0, evInvalid)
  else if sig then (nanCode p false, evInvalid)
  else if c.cnan then (nanCode p false, evNone)
  else match p.kind with
    | .ieee =>
      let f := if fw ≥ p.fw then frac / 2 ^ (fw - p.fw) else frac * 2 ^ (p.fw - fw)
      (packMag p neg ((2 ^ p.ew - 1) * 2 ^ p.fw + (f ||| 2 ^ (p.fw - 1))), evNone)
    | _ => (nanCode p neg, evNone)

/-- R328: whether the mode takes an overflow of this sign to infinity. -/
def toInf (rm : Rm) (neg : Bool) : Bool :=
  match rm with | .rne | .rna => true | .rtz => false | .rdn => neg | .rup => !neg

/-- R328: an overflowed result. -/
def overflowOut (p : FLayout) (c : FCtl) (neg : Bool) : Nat × Events :=
  if toInf c.rm neg && !c.sat && (p.kind == .ieee || p.kind == .b8ext) then (packMag p neg (infMag p), evOverflow)
  else if toInf c.rm neg && !c.sat && p.kind == .e4m3 then (nanCode p neg, evOverflow ||| evNan)
  else (packMag p neg p.max, evOverflow ||| evSat)

/-- R328: an infinite value in a destination. -/
def infOut (p : FLayout) (c : FCtl) (neg : Bool) : Nat × Events :=
  if neg && !p.signed then invalidOut p
  else if p.kind == .ieee || p.kind == .b8ext then (packMag p neg (infMag p), evNone)
  else if p.kind == .e4m3 && !c.sat then (nanCode p neg, evNan)
  else (packMag p neg p.max, evSat)

/-- R324, R327, R328: one rounding of the exact value (m + fraction) * 2^e to a format, m not zero. `narrow` counts an
inexact result (R331). -/
def roundF (p : FLayout) (c : FCtl) (narrow : Bool) (neg : Bool) (m : Nat) (st : Bool) (e : Int) : Nat × Events :=
  if neg && !p.signed then invalidOut p
  else
    let q0 : Int := e + Nat.log2 m - p.fw
    let qmin : Int := p.emin - p.fw
    let free := roundAt neg m st e q0 c.rm
    let tiny := decide (q0 + Nat.log2 free.1 < p.emin)
    if tiny && c.ftz then
      (packMag p neg 0, evFlush ||| evUnderflow ||| (if narrow then evInexact else evNone))
    else
      let q := if q0 < qmin then qmin else q0
      let r := roundAt neg m st e q c.rm
      let mag := (q - qmin).toNat * 2 ^ p.fw + r.1
      let inx := if r.2 && narrow then evInexact else evNone
      if mag > p.max then
        let o := overflowOut p c neg
        (o.1, o.2 ||| (if narrow then evInexact else evNone))
      else (packMag p neg mag, (if tiny && r.2 then evUnderflow else evNone) ||| inx)

/-- R324: the sign of an exact zero that no sum produced is the operation's; a zero sum is +0, or -0 under RDN. -/
def zeroOut (p : FLayout) (neg : Bool) : Nat × Events := (packMag p neg 0, evNone)

/-- a finite exact value, with the sign a zero takes -/
def finOut (p : FLayout) (c : FCtl) (narrow : Bool) (neg : Bool) (m : Nat) (e : Int) : Nat × Events :=
  if m = 0 then zeroOut p neg else roundF p c narrow neg m false e

/-! ## Exact sums -/

/-- A term of an exact sum: a sign, a mantissa and an exponent. -/
structure Term where
  neg : Bool
  m : Nat
  e : Int
  deriving DecidableEq, Repr, Inhabited

def Term.mul (a b : Term) : Term := ⟨a.neg != b.neg, a.m * b.m, a.e + b.e⟩
def Term.flip (a : Term) : Term := { a with neg := !a.neg }
/-- the least exponent of the terms -/
def minExp : List Term → Int
  | [] => 0
  | [t] => t.e
  | t :: u => if t.e ≤ minExp u then t.e else minExp u
/-- the exact sum at exponent e, which is at most every term's -/
def sumAt (e : Int) : List Term → Int
  | [] => 0
  | t :: u => (if t.neg then -((t.m * 2 ^ (t.e - e).toNat : Nat) : Int) else (t.m * 2 ^ (t.e - e).toNat : Nat)) + sumAt e u
/-- R324: an exact sum of terms rounded once. An exact zero is -0 when every term is a zero of negative sign, else +0
or -0 under RDN. -/
def sumOut (p : FLayout) (c : FCtl) (ts : List Term) : Nat × Events :=
  let e := minExp ts
  let s := sumAt e ts
  if s = 0 then
    zeroOut p (ts.all (fun t => t.neg && t.m == 0) && !ts.isEmpty || (c.rm == .rdn && !ts.all (fun t => !t.neg && t.m == 0)))
  else roundF p c false (decide (s < 0)) s.natAbs false e

/-- the first NaN among operands, in order (R329); a signalling one anywhere makes the operation invalid -/
def firstNan : List FVal → Option (Bool × Bool × Nat × Nat)
  | [] => none
  | .nan n s f w :: t =>
    if s then some (n, true, f, w)
    else match firstNan t with
      | some (_, true, f', w') => some (n, true, f', w')
      | _ => some (n, false, f, w)
  | _ :: t => firstNan t

def FVal.isInf : FVal → Bool | .inf _ => true | _ => false
def FVal.isNan : FVal → Bool | .nan _ _ _ _ => true | _ => false
def FVal.isZero : FVal → Bool | .num _ m _ => m == 0 | _ => false
def FVal.neg : FVal → Bool | .nan n _ _ _ => n | .inf n => n | .num n _ _ => n
/-- the exact value of a finite operand -/
def FVal.term : FVal → Term | .num n m e => ⟨n, m, e⟩ | v => ⟨v.neg, 0, 0⟩
def FVal.flip : FVal → FVal | .nan n s f w => .nan n s f w | .inf n => .inf !n | .num n m e => .num (!n) m e

/-- A product as a value: 0 times infinity is invalid (none). -/
def mulVal (a b : FVal) : Option FVal :=
  match a, b with
  | .num na ma ea, .num nb mb eb => some (.num (na != nb) (ma * mb) (ea + eb))
  | x, y => if x.isZero || y.isZero then none else some (.inf (x.neg != y.neg))

/-- 0 times infinity -/
def badProd (a b : FVal) : Bool := !a.isNan && !b.isNan && (mulVal a b).isNone

/-- infinities of both signs among the addends (R329), or the sign of the infinite ones -/
def infSum : List FVal → Option (Option Bool)
  | [] => some none
  | v :: t => match infSum t with
    | none => none
    | some r => if v.isInf then (match r with
        | none => some (some v.neg)
        | some n => if n == v.neg then some (some n) else none) else some r

/-- The sum of values none of which is a NaN, rounded once. -/
def addVals (p : FLayout) (c : FCtl) (vs : List FVal) : Nat × Events :=
  match infSum vs with
  | none => invalidOut p
  | some (some n) => infOut p c n
  | some none => sumOut p c (vs.map FVal.term)
/-- R324's rule for exact sums of products: under RDN an exact zero is -0 whatever the signs of its terms. -/
def addProds (p : FLayout) (c : FCtl) (vs : List FVal) : Nat × Events :=
  if c.rm == .rdn && vs.all FVal.isZero then zeroOut p true else addVals p c vs
/-- R324, R329: the exact sum of products of two, those marked negated, rounded once. A product 0 × ∞ is invalid before any
NaN of the operands. -/
def prodsOut (p : FLayout) (c : FCtl) (prods : List (FVal × FVal × Bool)) : Nat × Events :=
  let ins := prods.flatMap (fun x => [x.1, x.2.1])
  if prods.any (fun x => badProd x.1 x.2.1) then
    (if ins.any FVal.isNan then (nanCode p false, evInvalid) else invalidOut p)
  else match firstNan ins with
    | some (n, s, f, w) => nanOut p c n s f w
    | none => addProds p c (prods.filterMap (fun x => (mulVal x.1 x.2.1).map (fun v => if x.2.2 then v.flip else v)))

/-! ## Scalar operations (R426) -/

/-- reads up to three operands of one format -/
def readIns (p : FLayout) (c : FCtl) (raws : List Nat) : List FVal × Events :=
  raws.foldr (fun r acc => let v := readIn p c r; (v.1 :: acc.1, v.2 ||| acc.2)) ([], evNone)

/-- an operation on operands that are no NaN, under the NaN rule of R329 -/
def withNan (p : FLayout) (c : FCtl) (raws : List Nat) (op : List FVal → Nat × Events) : Nat × Events :=
  let ins := readIns p c raws
  let r := match firstNan ins.1 with
    | some (n, s, f, w) => nanOut p c n s f w
    | none => op ins.1
  (r.1, r.2 ||| ins.2)

def fpAdd (p : FLayout) (c : FCtl) (a b : Nat) : Nat × Events := withNan p c [a, b] (addVals p c)
def fpSub (p : FLayout) (c : FCtl) (a b : Nat) : Nat × Events :=
  withNan p c [a, b] (fun | [x, y] => addVals p c [x, y.flip] | _ => (0, evNone))
def fpMul (p : FLayout) (c : FCtl) (a b : Nat) : Nat × Events :=
  withNan p c [a, b] (fun
    | [x, y] => match mulVal x y with
      | none => invalidOut p
      | some (.num n m e) => finOut p c false n m e
      | some v => infOut p c v.neg
    | _ => (0, evNone))
/-- a*b and c with their signs: FMA, FMS, FNMA, FNMS. 0 times infinity is invalid before any NaN of C (R329). -/
def fpFma (p : FLayout) (c : FCtl) (negProd negC : Bool) (x y z : Nat) : Nat × Events :=
  let ins := readIns p c [x, y, z]
  let r := match ins.1 with
    | [a, b, d] =>
      if badProd a b then
        (if d.isNan then (nanCode p false, evInvalid) else invalidOut p)
      else match firstNan ins.1 with
        | some (n, s, f, w) => nanOut p c n s f w
        | none => match mulVal a b with
          | none => invalidOut p
          | some pr => addVals p c [if negProd then pr.flip else pr, if negC then d.flip else d]
    | _ => (0, evNone)
  (r.1, r.2 ||| ins.2)

/-- bits of quotient and root kept below the rounding point -/
def guardBits : Nat := 8

def fpDiv (p : FLayout) (c : FCtl) (a b : Nat) : Nat × Events :=
  withNan p c [a, b] (fun
    | [.inf _, .inf _] => invalidOut p
    | [.inf n, y] => infOut p c (n != y.neg)
    | [x, .inf n] => zeroOut p (x.neg != n)
    | [.num na ma ea, .num nb mb eb] =>
      if mb = 0 then (if ma = 0 then invalidOut p else
        let r := infOut p c (na != nb); (r.1, r.2 ||| evDivZero))
      else if ma = 0 then zeroOut p (na != nb)
      else
        let k := Nat.log2 mb + p.fw + guardBits
        let num := ma * 2 ^ k
        roundF p c false (na != nb) (num / mb) (num % mb != 0) (ea - eb - k)
    | _ => (0, evNone))

/-- the integer square root, bit by bit from 2^i -/
def isqrtAux (n : Nat) : Nat → Nat → Nat
  | 0, r => r
  | i + 1, r => let t := r + 2 ^ i; isqrtAux n i (if t * t ≤ n then t else r)
def isqrt (n : Nat) : Nat := isqrtAux n (Nat.log2 n / 2 + 1) 0

def fpSqrt (p : FLayout) (c : FCtl) (a : Nat) : Nat × Events :=
  withNan p c [a] (fun
    | [.inf n] => if n then invalidOut p else infOut p c false
    | [.num n m e] =>
      if m = 0 then zeroOut p n
      else if n then invalidOut p
      else
        -- an even exponent, and enough bits for the root
        let k := 2 * (p.fw + guardBits) + (if (e % 2 == 0) then 0 else 1)
        let s := m * 2 ^ k
        let r := isqrt s
        roundF p c false false r (r * r != s) ((e - k) / 2)
    | _ => (0, evNone))

/-- R333: the 12-bit estimate of 1/sqrt(c), c = C/256, as an integer over 4096. -/
def rsqSigma (c256 : Nat) : Nat := (isqrt (4 * 65536 * 65536 / c256) + 1) / 2
/-- R334: the 12-bit estimate of 1/c. -/
def rcpSigma (c256 : Nat) : Nat := (2 * 2 ^ 20 / c256 + 1) / 2

/-- the top seven fraction bits and the exponent of a positive value -/
def normJE (m : Nat) (e : Int) : Nat × Int :=
  let l := Nat.log2 m
  (((m * 2 ^ 7) / 2 ^ l) % 128, e + l)

/-- R333, R335, R426: 1/sqrt estimate in a format; for BF16 sigma is rounded RNE. RM is ignored. -/
def fpRsqe (p : FLayout) (c : FCtl) (a : Nat) : Nat × Events :=
  withNan p c [a] (fun
    | [.inf n] => if n then invalidOut p else zeroOut p false
    | [.num n m e] =>
      if m = 0 then (packMag p n (infMag p), evDivZero)
      else if n then invalidOut p
      else
        let (j, ex) := normJE m e
        let (cc, k) := if ex % 2 == 0 then (257 + 2 * j, ex / 2) else (2 * (257 + 2 * j), (ex - 1) / 2)
        roundF p { c with rm := .rne } false false (rsqSigma cc) false (-12 - k)
    | _ => (0, evNone))

/-- R334: 1/x estimate; rounded by RM only in the subnormal range (BF16 by RNE, R335, R426). -/
def fpRcpe (p : FLayout) (c : FCtl) (a : Nat) : Nat × Events :=
  withNan p c [a] (fun
    | [.inf n] => zeroOut p n
    | [.num n m e] =>
      if m = 0 then (packMag p n (infMag p), evDivZero)
      else
        let (j, ex) := normJE m e
        let c' := if p.fw == 23 then c else { c with rm := .rne }
        roundF p c' false n (rcpSigma (257 + 2 * j)) false (-12 - ex)
    | _ => (0, evNone))

/-- R427: -1, 0, 1 as a is below, equal or above b, with -0 below +0. -/
def cmpMag (a b : FVal) : Int :=
  match a, b with
  | .inf na, .inf nb => if na == nb then 0 else if na then -1 else 1
  | .inf n, _ => if n then -1 else 1
  | _, .inf n => if n then 1 else -1
  | .num na ma ea, .num nb mb eb =>
    let t := [Term.mk na ma ea, Term.mk (!nb) mb eb]
    let s := sumAt (minExp t) t
    if s = 0 then 0 else if s < 0 then -1 else 1
  | _, _ => 0

/-- R427 -/
def fpMinMax (p : FLayout) (c : FCtl) (max : Bool) (a b : Nat) : Nat × Events :=
  let va := readIn p c a
  let vb := readIn p c b
  let ev := va.2 ||| vb.2
  let flushed (v : FVal × Events) (raw : Nat) := if v.2 == evFlush then packMag p v.1.neg 0 else raw
  match va.1, vb.1 with
  | .nan na sa fa wa, .nan nb sb fb wb =>
    let r := if sa || sb then nanOut p c na true fa wa else nanOut p c na false fa wa
    let _ := (nb, fb, wb)
    (r.1, r.2 ||| ev)
  | .nan na sa fa wa, _ => if sa then let r := nanOut p c na true fa wa; (r.1, r.2 ||| ev) else (flushed vb b, ev)
  | _, .nan nb sb fb wb => if sb then let r := nanOut p c nb true fb wb; (r.1, r.2 ||| ev) else (flushed va a, ev)
  | x, y =>
    let s := cmpMag x y
    let aLess := s < 0 || (s == 0 && x.neg && !y.neg)
    let aMore := s > 0 || (s == 0 && !x.neg && y.neg)
    let takeB := if max then !aMore && (s != 0 || aLess) else !aLess && (s != 0 || aMore)
    (if takeB then flushed vb b else flushed va a, ev)

/-- R428: FABS, FNEG, FCPSGN act on bits. -/
def fpAbs (p : FLayout) (a : Nat) : Nat := a % 2 ^ (p.ew + p.fw)
def fpNeg (p : FLayout) (a : Nat) : Nat := fpAbs p a + (if signOf p a then 0 else 2 ^ (p.ew + p.fw))
def fpCpsgn (p : FLayout) (a b : Nat) : Nat := fpAbs p a + (if signOf p b then 2 ^ (p.ew + p.fw) else 0)

/-- R429 -/
def fpScalb (p : FLayout) (c : FCtl) (a : Nat) (n : Int) : Nat × Events :=
  withNan p c [a] (fun
    | [.inf s] => infOut p c s
    | [.num s m e] =>
      -- any n beyond the format's range acts as one just beyond it
      let n := if n > 4096 then 4096 else if n < -4096 then -4096 else n
      finOut p c false s m (e + n)
    | _ => (0, evNone))

/-- R429: FEXPO, a signed 64-bit integer -/
def fpExpo (p : FLayout) (c : FCtl) (a : Nat) : BitVec 64 × Events :=
  let v := readIn p c a
  match v.1 with
  | .nan _ _ _ _ => (BitVec.ofNat 64 (2 ^ 31 - 1), evInvalid)
  | .inf _ => (BitVec.ofNat 64 (2 ^ 31 - 1), v.2)
  | .num _ m e => if m = 0 then (BitVec.ofInt 64 (-(2 ^ 31)), v.2) else (BitVec.ofInt 64 (e + Nat.log2 m), v.2)

/-- R430: the condition OPT of FCMP -/
def fpCmp (p : FLayout) (c : FCtl) (opt : BitVec 4) (a b : Nat) : Bool × Events :=
  let va := readIn p c a
  let vb := readIn p c b
  let ev := va.2 ||| vb.2
  match firstNan [va.1, vb.1] with
  | some (_, s, _, _) =>
    let quietInvalid := [2, 3, 4, 5].contains opt.toNat
    (opt == 1 || opt == 6, ev ||| (if s || quietInvalid then evInvalid else evNone))
  | none =>
    let s := cmpMag va.1 vb.1
    ((match opt.toNat with
      | 0 => s == 0 | 1 => s != 0 | 2 => decide (s < 0) | 3 => decide (s ≤ 0) | 4 => decide (s > 0) | 5 => decide (s ≥ 0)
      | 6 => false | _ => true), ev)

/-- R431 -/
def fpClass (p : FLayout) (a : Nat) : BitVec 64 :=
  let k := match unpackF p a with
    | .nan _ s _ _ => if s then 8 else 9
    | .inf n => if n then 0 else 7
    | .num n m e =>
      if m = 0 then (if n then 3 else 4)
      else if e + Nat.log2 m < p.emin then (if n then 2 else 5)
      else (if n then 1 else 6)
  BitVec.ofNat 64 (2 ^ k)

/-! ## Conversions (R432) -/

/-- significant bits of a format, for R331's narrowing -/
def Fmt.sig : Fmt → Nat
  | .float p => p.fw + 1
  | .int w _ => w
  | .e8m0 => 1

/-- R330 -/
def toIntOut (w : Nat) (s : Bool) (c : FCtl) (v : FVal) : Nat × Events :=
  let lo : Int := if s then -(2 ^ (w - 1)) else 0
  let hi : Int := if s then 2 ^ (w - 1) - 1 else 2 ^ w - 1
  let enc (x : Int) : Nat := (x % 2 ^ w).toNat
  match v with
  | .nan _ _ _ _ => (0, evInvalid ||| evSat)
  | .inf n => (enc (if n then lo else hi), evInvalid ||| evSat)
  | .num n m e =>
    let r := roundAt n m false e 0 c.rm
    let x : Int := if n then -(r.1 : Int) else r.1
    if x < lo then (enc lo, evInvalid ||| evSat)
    else if x > hi then (enc hi, evInvalid ||| evSat)
    else (enc x, if r.2 then evInexact else evNone)

/-- R432: a value of one format as a value of another. -/
def convert (c : FCtl) (src dst : Fmt) (raw : Nat) : Nat × Events :=
  let raw := raw % 2 ^ src.bits
  match src, dst with
  | .float p, .float q =>
    let v := readIn p c raw
    if p = q then
      match v.1 with
      | .nan n s f w => nanOut q c n s f w
      | x => (if v.2 == evFlush then packMag q x.neg 0 else raw, v.2)
    else
      let r := match v.1 with
        | .nan n s f w => nanOut q c n s f w
        | .inf n => infOut q c n
        | .num n m e => finOut q c (decide (dst.sig < src.sig)) n m e
      (r.1, r.2 ||| v.2)
  | .float p, .int w s => let v := readIn p c raw; let r := toIntOut w s c v.1; (r.1, r.2 ||| v.2)
  | .int _ _, .float q =>
    match unpack src raw with
    | .num n m e => finOut q c (decide (dst.sig < src.sig)) n m e
    | _ => (0, evNone)
  | .int w s, .int w' _ =>
    let v := raw % 2 ^ w
    (if s && v ≥ 2 ^ (w - 1) then ((v : Int) - 2 ^ w) % 2 ^ w' |>.toNat else v % 2 ^ w', evNone)
  | _, _ => (raw, evNone)

/-! ## VEXP2 (R335) -/

/-- the 64th root of n, bit by bit -/
def root64Aux (n : Nat) : Nat → Nat → Nat
  | 0, r => r
  | i + 1, r => let t := r + 2 ^ i; root64Aux n i (if t ^ 64 ≤ n then t else r)

/-- R335: T[j] = rne_fp32(2^(j/64)) as an integer over 2^23; no tie arises. -/
def expT (j : Nat) : Nat := (root64Aux (2 ^ (24 * 64 + j)) 26 0 + 1) / 2

/-- R335: rne_fp32 of ln 2, (ln 2)^2/2 and (ln 2)^3/6. -/
def expC1 : Nat := 0x3F317218
def expC2 : Nat := 0x3E75FDF0
def expC3 : Nat := 0x3D635847

/-- R335: 2^x in FP32. -/
def fpExp2 (c : FCtl) (x : Nat) : Nat × Events :=
  withNan fp32 c [x] (fun
    | [.inf n] => if n then zeroOut fp32 false else infOut fp32 c false
    | [.num n m e] =>
      -- x is a multiple of 2^e; |x| >= 256 is decided by sign
      if m = 0 then (0x3F800000, evNone)
      else if !n && decide (e + Nat.log2 m ≥ 7) then overflowOut fp32 { c with rm := .rne } false
      else if n && decide (e + Nat.log2 m ≥ 8) then roundF fp32 { c with rm := .rne } false false 1 false (-200)
      else
        let sgn : Int := if n then -(m : Int) else m
        -- 2^s units below the point
        let s : Nat := (-e).toNat
        let v : Int := sgn * 2 ^ (e + s).toNat
        let i : Int := v / 2 ^ s
        let f : Nat := (v % 2 ^ s).toNat
        let j := f * 64 / 2 ^ s
        -- r = f - j/64, a multiple of 2^-(s+6)
        let r := f * 64 - j * 2 ^ s
        let rt : Term := ⟨false, r, -(s : Int) - 6⟩
        let mulAdd (q k : Nat) : Nat :=
          (sumOut fp32 ctlRne [(unpackF fp32 q).term.mul rt, (unpackF fp32 k).term]).1
        let q := mulAdd expC3 expC2
        let q := mulAdd q expC1
        let q := mulAdd q 0x3F800000
        let qt := (unpackF fp32 q).term
        roundF fp32 { c with rm := .rne } false false (expT j * qt.m) false (qt.e - 23 + i)
    | _ => (0, evNone))

/-- R335: BF16 elements are widened, and the FP32 result is rounded to BF16 by RM. -/
def fpExp2In (p : FLayout) (c : FCtl) (x : Nat) : Nat × Events :=
  if p = fp32 then fpExp2 c x
  else
    let w := convert c (.float p) (.float fp32) x
    let r := fpExp2 c w.1
    -- arithmetic that keeps its format counts no inexact result (R331)
    let o := convert c (.float fp32) (.float p) r.1
    (o.1, w.2 ||| r.2 ||| (o.2 &&& ~~~evInexact))

/-! ## Sums (R336) -/

/-- one level of the pairwise tree -/
def pairUp (add : Nat → Nat → Nat × Events) : List Nat → List Nat × Events
  | a :: b :: t => let s := add a b; let r := pairUp add t; (s.1 :: r.1, s.2 ||| r.2)
  | l => (l, evNone)
/-- the tree of a group: levels until one node is left, at most `fuel` -/
def treeSum (add : Nat → Nat → Nat × Events) : Nat → List Nat → Nat × Events
  | 0, l => (l.headD 0, evNone)
  | k + 1, l => match l with
    | [] => (0, evNone)
    | [a] => (a, evNone)
    | l => let p := pairUp add l; let r := treeSum add k p.1; (r.1, p.2 ||| r.2)
/-- groups of L elements, in ascending order, each by its tree, accumulated left to right -/
def groupSum (add : Nat → Nat → Nat × Events) (L : Nat) : Nat → Option Nat → List Nat → Nat × Events
  | 0, acc, _ => (acc.getD 0, evNone)
  | k + 1, acc, l => match l with
    | [] => (acc.getD 0, evNone)
    | l =>
      let g := treeSum add 8 (l.take L)
      let s := match acc with | none => (g.1, evNone) | some a => add a g.1
      let r := groupSum add L k (some s.1) (l.drop L)
      (r.1, g.2 ||| s.2 ||| r.2)

/-- R331: add the events of an instruction to the counters. -/
def bumpCounters (evc : Vector (BitVec 32) 8) (ev : Events) : Vector (BitVec 32) 8 :=
  evc.mapIdx (fun k c => if ev.getLsbD k && c != 0xFFFFFFFF then c + 1 else c)

end Sys2Proof.Machine
end

