-- ==== Sys2Proof/Config.lean ====
section
/-! DEFINITION. What an implementation fixes and the free values: constants without a body, of which no proof can see
a value. -/
namespace Sys2Proof.Config

/-- The code of an inline constant in a format that does not hold its integer exactly (R424 states only that it is
exact); log 18. Arguments: the format code and the integer. -/
opaque freeInline : BitVec 7 → Int → Nat

/-- A word the spec states no value for; log 10. The argument is a fresh number, `State.sched.freeCtr`. -/
opaque freeWord : Nat → BitVec 64

/-- Which of the FP32 values within 2 ulp a sine (true) or cosine is (R231); log 10. Arguments: the function, the integer
factor, the code of theta. -/
opaque freeTrig : Bool → Int → Nat → Nat

/-- The public key under which firmware images are signed, 60 bytes (R45); log 9. -/
opaque vendorKey : List (BitVec 8)

/-- The least security version a fuse admits for an image of a kind (R45); log 9. -/
opaque minSecver : Nat → Nat

/-- The versions of the engines in feature word 0: Kiln, Scribe, copy, sync, bank, Joiner (R41); log 9. -/
opaque engineVersion : Nat → BitVec 8

/-- The digests of the fuse block and of the boot ROM (R46); log 9. -/
opaque fuseDigest : BitVec 256
opaque romDigest : BitVec 256

/-- The signature the device's identity key makes with an index over a report, 2,964 bytes (R47, R48); log 9. -/
opaque identitySign : Nat → List (BitVec 8) → List (BitVec 8)

/-- A port's trained parameters, 256 bytes, as LINKTRAIN writes them back (R37); log 9. -/
opaque linkParam : Nat → List (BitVec 8)

/-- The bytes of pinned L2 that the queues of frames may take on a die (R168, R171); log 9. -/
opaque queueStorage : Nat → Nat

/-- What a sector of HBM reads as that was kept over a loss of power (R39): data and slot tags, or (none) poisoned; log 9.
Arguments: a number of the loss, the sector. -/
opaque staleSector : Nat → Nat → Option (BitVec 512 × BitVec 2)

/-- How the dump writes what R60 names and gives no layout for; log 9. Arguments: the part of the dump, what it tells, the
offset of the byte in the part. -/
opaque dumpByte : Nat → List Nat → Nat → BitVec 8

end Sys2Proof.Config
end

