-- ==== Sys2Proof/Machine/CoreTypes.lean ====
section
/-! DEFINITION. The state of one core and of the firing or firmware thread on it (R285-R299, R463-R465), as plain data:
registers, queues, streams, cache sectors and translation entries. -/
namespace Sys2Proof.Machine

/-- Sparse data by key, ascending keys without repeats. -/
abbrev Map (α : Type) := List (Nat × α)

/-- A c register: 192 data bits and a tag (R289, R290). -/
structure CReg where
  bits : W192
  tag : Bool
  deriving DecidableEq, Repr, Inhabited

/-- An f register (R297). -/
inductive FReg where
  | empty
  | pending
  | full (v : W128)
  deriving DecidableEq, Repr, Inhabited

/-- The descriptor of a window walk (R311). -/
structure WindowDesc where
  H : Nat
  W : Nat
  C : Nat
  KH : Nat
  KW : Nat
  SH : Nat
  SW : Nat
  PT : Nat
  PL : Nat
  OH : Nat
  OW : Nat
  P0 : Nat
  NP : Nat
  deriving DecidableEq, Repr, Inhabited

/-- One block of the state a hold serves (R282): its record, its page, and the marked slots with their positions. -/
structure HBlock where
  group : Nat
  recVa : Nat
  page : Nat
  seasoned : Bool
  slots : List (Nat × Nat)
  deriving DecidableEq, Repr, Inhabited

/-- The four kinds of walk (R294). -/
inductive StreamKind where
  /-- SDEF: counts and byte strides of the dimensions, dimension 0 fastest (R409) -/
  | strided (counts : List Nat) (strides : List Int)
  /-- SDEFW (R311, R312) -/
  | window (w : WindowDesc)
  /-- SDEFK: a walk of one layer of a sequence over [lo, hi), hi already cut at LENGTH: its groups in order, and what it
  shows of them where it reads through a hold (R228, R282) -/
  | kiln (seqid : BitVec 32) (layer lo hi : Nat) (groups : List Nat) (held : Option (List HBlock))
  /-- SDEFS: u16 entries in scratch; `left` is what remains of the entry being taken (R313) -/
  | skip (left : Option (BitVec 16))
  deriving DecidableEq, Repr, Inhabited

/-- A stream register's definition and position (R294, R295). -/
structure Stream where
  kind : StreamKind
  /-- the capability that addresses the elements -/
  cap : W192
  /-- bits of an element -/
  ebits : Nat
  /-- elements (or items, or entries) of the walk -/
  count : Nat
  /-- elements taken -/
  pos : Nat
  deriving DecidableEq, Repr, Inhabited

/-- A tile: the elements that are not zero, by 64*row + column. -/
abbrev Tile := Map (BitVec 32)

/-- What stands in the slice buffer (R285): an execute word, or the place of a stream definition whose earlier readers
are still to run (R295). -/
inductive SliceEntry where
  | word (pc : W64) (w : IWord)
  | sdef (n : BitVec 4) (d : Stream)
  deriving DecidableEq, Repr, Inhabited

/-- Who a thread is (R204, R463). -/
structure Ident where
  ctx : BitVec 12
  frame : BitVec 32
  stage : BitVec 6
  coord : Nat
  pos : BitVec 2
  /-- gang position of a gang firing; false for a firing of its own -/
  gang : Bool
  firmware : Bool
  /-- the firing's batch (R178) -/
  batch : Nat
  deriving DecidableEq, Repr, Inhabited

/-- A scalar the execute half captured for the wide unit (R296). -/
inductive WideArg where
  | none
  | scalar (v : W128)
  | stream (d : Stream)
  deriving DecidableEq, Repr, Inhabited

/-- A dispatched wide-unit instruction (R296, R435): captured operands and how far it has come. -/
structure WideOp where
  pc : W64
  instr : Instr
  /-- rounding mode number 0-4 and the flags FTZ, SAT, CNAN in force (R326) -/
  rm : BitVec 3
  ftz : Bool
  sat : Bool
  cnan : Bool
  a : WideArg
  b : WideArg
  c : WideArg
  d : WideArg
  table : CReg
  /-- elements in all -/
  n : Nat
  /-- elements done -/
  done : Nat
  ev : BitVec 8
  acc : Option Nat
  accIdx : Nat
  carry : List Nat
  deriving DecidableEq, Repr, Inhabited

/-- A message as a SEND made it, held until FIN when it is deferred (R418, R419): target, reply handle, form E fields and
the body with its slot tags. -/
structure Message where
  target : CReg
  reply : CReg
  acq : Bool
  rel : Bool
  scope : BitVec 3
  tag : BitVec 16
  op : BitVec 8
  body : List Byte
  bodyTags : List Bool
  deriving DecidableEq, Repr, Inhabited

/-- What a blocked instruction has already done (R287, R144, R419): nothing, or the stage it has reached. -/
inductive Blocked where
  | none
  /-- tile entries moved by MLD or MST, and the tile being filled -/
  | tile (moved : Nat) (t : Tile)
  /-- a stock request, WDONE, WCELL, WHOLD or another request is under way at an engine; `reply` when answered -/
  | request (id : Nat) (reply : Option W128)
  /-- an atomic sent to a peer whose port is not up: the write it makes there, once it lands (R14, R124) -/
  | atomic (sector : Nat) (data : BitVec 512) (mask : BitVec 64) (tagged : BitVec 2)
  /-- PHSIG, PHSW and PHGATHER: the signal has counted for this phase -/
  | signalled (phase : BitVec 32)
  /-- the position stands at the row's barrier -/
  | barrier
  /-- FIN of this minor has everything done and waits for the gang -/
  | finishing (minor : Nat)
  /-- IDLE until the deadline in ns, or none -/
  | idle (deadline : Option Nat)
  /-- an event has woken an IDLE (R478) -/
  | woken
  /-- TLBINV.dev or CFLUSH waits for an acknowledgement -/
  | ack (id : Nat)
  deriving DecidableEq, Repr, Inhabited

/-- The registers of a firmware thread (R463, R465). -/
structure FwRegs where
  tvec : W64
  tpc : W64
  tcause : BitVec 8
  tdetail : W64
  tpred : BitVec 16
  tin : Bool
  stopped : Bool
  deriving DecidableEq, Repr, Inhabited

/-- The claimed batch of an input queue (R166). -/
structure InQ where
  used : Bool
  item : Nat
  bytes : List Byte
  pos : Nat
  deriving DecidableEq, Repr, Inhabited

/-- The pushes to an output queue (R166): bytes so far and the most the firing may push; `ords` has the place of each push
among all the firing's pushes (R178). -/
structure OutQ where
  used : Bool
  item : Nat
  limit : Nat
  bytes : List Byte
  ords : List Nat
  deriving DecidableEq, Repr, Inhabited

/-- The signature checker (R209). -/
structure SigCheck where
  /-- the CRC register over the words decoded since the last SIG -/
  crc : BitVec 32
  /-- the field of the last SIG; none while unchecked -/
  expected : Option (BitVec 32)
  deriving DecidableEq, Repr, Inhabited

/-- A pre-emption the Joiner has asked for (R196, R200). -/
inductive Preempt where
  | none
  | priority
  | budget
  deriving DecidableEq, Repr, Inhabited

/-- The data registers and queues of a thread (R286, R289). -/
structure Regs where
  c : Vector CReg 64
  p : BitVec 16
  s : Vector (Option Stream) 16
  f : Vector FReg 16
  m : Vector Tile 8
  l : Vector (List W128) 4
  d : Vector (List W128) 2
  xq : List W64
  aq : List W64
  fpmode : BitVec 5
  evc : Vector (BitVec 32) 8
  deriving DecidableEq, Repr, Inhabited

/-- What a thread has open towards the rest of the machine. -/
structure Open where
  inq : Vector InQ 8
  outq : Vector OutQ 8
  /-- pushes made so far -/
  pushes : Nat
  deferred : List Message
  /-- MDRAIN.adds sent and not yet applied or discarded (R317) -/
  drains : Nat
  /-- gang instructions left in an open MGANG section (R305) -/
  section_ : Nat
  /-- scratch lines pinned, by line number (R293) -/
  scratch : List Nat
  /-- peers written to since the last FENCE.sys that had their acknowledgements (R122) -/
  peers : List Nat
  /-- a write to a peer was given up with its port or its epoch, and no FENCE.sys has said so yet (R122) -/
  lostWrite : Bool
  deriving DecidableEq, Repr, Inhabited

/-- A firing, or a firmware thread, on a core (R285, R299). -/
structure Thread where
  pc : W64
  code : CReg
  id : Ident
  regs : Regs
  slice : List SliceEntry
  wide : List WideOp
  opn : Open
  /-- progress of the access half's and of the execute half's blocked instruction -/
  blockA : Blocked
  blockE : Blocked
  sig : SigCheck
  /-- the overrun count (R200) and the cycles since the latest start or resumption (R463 k.cycles), in thousandths of a core
  cycle: ns times the die's MHz -/
  overran : Nat
  ran : Nat
  /-- ns at the latest start or resumption (R185) -/
  startTime : Nat
  preempt : Preempt
  /-- the safe point just passed, with its mask word, while the firing stands there (R195, R196) -/
  safe : Option IWord
  /-- the effective priority it started or resumed with, before any donation (R137, R183) -/
  prio : Nat
  /-- scope of the replication level that placed it (R119) -/
  scope : BitVec 3
  /-- the stage has GANG, RESTART -/
  gangStage : Bool
  fw : FwRegs
  deriving DecidableEq, Repr, Inhabited

/-- A 64-byte sector in an L1 (R110, R291). -/
structure L1Sector where
  data : BitVec 512
  /-- bytes the core wrote; zero for a clean sector -/
  mask : BitVec 64
  tags : BitVec 2
  /-- slots whose tag the core wrote -/
  tagged : BitVec 2
  poison : Bool
  /-- the contexts that brought it in or stored to it, for CFLUSH and releases (R105, R116) -/
  ctxs : List (BitVec 12)
  /-- bytes that stream stores have written since it came in or went back (R67) -/
  streamed : BitVec 64
  /-- the place of its oldest store still to be performed among the core's (R112) -/
  ord : Nat
  /-- of a UN page, whose plain accesses are unordered (R112) -/
  un : Bool
  deriving DecidableEq, Repr, Inhabited

/-- A 64-byte sector at the L2 home (R102, R291). -/
structure L2Sector where
  data : BitVec 512
  dirty : Bool
  tags : BitVec 2
  poison : Bool
  deriving DecidableEq, Repr, Inhabited

/-- A translation a TLB holds (R82, R87). -/
structure TlbEntry where
  ctx : BitVec 12
  /-- virtual address of the page -/
  va : Nat
  leaf : W64
  leafPa : Nat
  deriving DecidableEq, Repr, Inhabited

/-- The kinds of a miss (R466). -/
inductive MissKind where
  | load | store | atomic | fetch | zeroFill | engine
  deriving DecidableEq, Repr, Inhabited

/-- A record of a service core's miss queue (R88, R466). -/
structure Miss where
  ctx : BitVec 12
  va : Nat
  kind : MissKind
  /-- waiting cores; an engine stands among them as no core (`noCore`) -/
  waiters : List Nat
  merged : Nat
  deriving DecidableEq, Repr, Inhabited

/-- How a miss ended, for the accesses that waited on it (R470). -/
inductive MissEnd where
  | fault | peerLost
  deriving DecidableEq, Repr, Inhabited

/-- One allowance entry of an allowance line (R142); a core lists the most recently used first. -/
structure Allow where
  ctx : BitVec 12
  /-- counter number, die * 4096 + index -/
  ctr : Nat
  a : Nat
  pinned : Bool
  /-- the core's own record of its presence (R149) -/
  present : Bool
  idleSince : Nat
  deriving DecidableEq, Repr, Inhabited

/-- What stays on a core between firings (R87, R110, R142, R211, R292, R299). -/
structure CoreSt where
  l1 : Map L1Sector
  /-- the next place in the order of the core's stores (R112) -/
  nextOrd : Nat
  tlb : List TlbEntry
  /-- contexts held since the last CFLUSH of each (R90) -/
  held : List (BitVec 12)
  allow : List Allow
  /-- times of signature faults in the last second (R211) -/
  sigFaults : List Nat
  inPlacement : Bool
  /-- an offer has left the core out: it is back at the next start (R211, log 58) -/
  leftOut : Bool
  /-- code of the last trap taken on the core, 0 for none (R60) -/
  lastTrap : BitVec 8
  /-- scratch bytes by offset; unlisted zero (R293) -/
  scratch : Map Byte
  scratchTags : List Nat
  /-- scratch lines pinned by pre-empted firings that wait to resume here -/
  pinned : List Nat
  /-- a miss that ended badly, taken at the retried access (R470) -/
  missEnd : List (BitVec 12 × Nat × MissEnd)
  /-- started wide-unit instructions of killed firings, which complete (R202) -/
  orphans : List (BitVec 12 × WideOp)
  thread : Option Thread
  deriving DecidableEq, Repr, Inhabited

/-- The step under way: the core that executes, at which PC, the word and the mask word that follows a safe point, and
the argument of an event. -/
structure Cur where
  core : Nat
  pc : W64
  word : IWord
  mask : IWord
  arg : Arg
  deriving DecidableEq, Repr, Inhabited

end Sys2Proof.Machine
end

