-- ==== Sys2Proof/Machine/MemTypes.lean ====
section
/-! DEFINITION. The state of the memory system outside the cores (R61-R68, R81-R88, R92-R110), as plain data. -/
namespace Sys2Proof.Machine

/-- One core's part of a release record: the scope and the sectors it held dirty at the release (R105, R106). -/
structure RelCore where
  core : Nat
  scope : BitVec 3
  sectors : List Nat
  deriving DecidableEq, Repr, Inhabited

/-- A release record of a home slice, the oldest core first (R108). -/
structure Release where
  sector : Nat
  cores : List RelCore
  deriving DecidableEq, Repr, Inhabited

/-- Physical memory and the L2 homes. An address is peer * 2^52 + physical address, peer 0 this device and its host
(R80, R82). `cells` lists the bytes that are not zero, ascending; `tags` the tagged 32-byte slots; `poison` the poisoned
64-byte sectors. -/
structure Mem where
  cells : List Host.Cell
  tags : List Nat
  poison : List Nat
  l2 : Map L2Sector
  releases : List Release
  /-- device lines (256 bytes) of which the host holds a copy (R120) -/
  hostCopies : List Nat
  /-- bytes of a poisoned sector that stream stores to SO and MS pages have written at its home (R67) -/
  streamed : Map (BitVec 64)
  /-- HBM was kept over a loss of power (R39): the number of the loss, and the sectors, by ranges, that have been written since -/
  stale : Option Nat
  fresh : List (Nat × Nat)
  /-- sectors whose uncorrectable data a channel has returned to fill a home or an L1, still to be counted (R68) -/
  bad : List Nat
  deriving DecidableEq, Repr, Inhabited

/-- A first touch under way (R92). -/
structure Touch where
  core : Nat
  ctx : BitVec 12
  va : Nat
  leaf : W64
  leafPa : Nat
  deriving DecidableEq, Repr, Inhabited

/-- A replica of a DUP page (R95). -/
structure Replica where
  ctx : BitVec 12
  va : Nat
  die : Nat
  frame : Nat
  /-- the original entry and its place -/
  leaf : W64
  leafPa : Nat
  /-- a shootdown of its page has begun: no miss uses it any more, and its frame goes back at the end (R90, R97) -/
  stale : Bool
  deriving DecidableEq, Repr, Inhabited

end Sys2Proof.Machine
end

