-- ==== Sys2Proof/Machine/DevTypes.lean ====
section
/-! DEFINITION. The state of the engines, the Joiner, the contexts, the host interface and the firmware, as plain data. -/
namespace Sys2Proof.Machine

/-! ## Completion records and messages -/

/-- A completion record of 32 bytes by its fields (R416). -/
structure Record where
  tag : BitVec 16
  status : Byte
  engine : Byte
  ctx : BitVec 12
  bytes : W64
  result : W64
  deriving DecidableEq, Repr, Inhabited

/-- A record in an event queue with the scope of its posting (R417); `raw` holds the 32 bytes of a record that carries a
digest (R56). -/
structure Event where
  rcd : Record
  scope : BitVec 3
  raw : Option (BitVec 256)
  deriving DecidableEq, Repr, Inhabited

/-- Where an engine's reply goes (R451, R168): a reply handle with its owner, or a message slot. -/
inductive Reply where
  | none
  | handle (h : CReg) (ctx : BitVec 12) (cluster : Nat)
  | slot (n : Nat)
  deriving DecidableEq, Repr, Inhabited

/-- A command or message in an engine's inbox: what was sent, by whom, from where. -/
structure Cmd where
  /-- the instruction that sent it; `send` for a SEND, an event for a posted image -/
  instr : Instr
  ctx : BitVec 12
  core : Nat
  cluster : Nat
  tag : BitVec 16
  acq : Bool
  rel : Bool
  scope : BitVec 3
  a : CReg
  b : CReg
  cmd : BitVec 27
  body : List Byte
  bodyTags : List Bool
  reply : Reply
  /-- the order of arrival; for WHOLD, WDONE and WCELL the blocked request it answers -/
  req : Nat
  /-- physical address of A's cursor and size of its page in a bank command (R70) -/
  pa : Nat
  page : Nat
  deriving DecidableEq, Repr, Inhabited

/-! ## Phasers (R133-R138) -/

inductive PhMode where
  | sig | wait | sw
  deriving DecidableEq, Repr, Inhabited

/-- A member: a stage instance (frame, stage, coordinate), its mode, whether it has signalled, and what it waits for: the
position of each waiting firing with the phase to be passed. -/
structure PhMember where
  frame : BitVec 32
  stage : BitVec 6
  coord : Nat
  mode : PhMode
  signalled : Bool
  waits : List (BitVec 2 × BitVec 32)
  deriving DecidableEq, Repr, Inhabited

structure Phaser where
  /-- owning frame and context -/
  frame : BitVec 32
  ctx : BitVec 12
  phase : BitVec 32
  members : List PhMember
  pending : Int
  gather : Option W64
  sums : List Nat
  contributors : Nat
  /-- an advance waits for its gather record's write -/
  due : Bool
  deriving DecidableEq, Repr, Inhabited

/-! ## Stock counters (R140-R157) -/

/-- A request in a counter's queue (R145-R150). A take carries the core's allowance home; an uncached one carries none
(R147). -/
inductive StockOp where
  | init (bound refill : Nat)
  | take (n carried : Nat) (cached : Bool)
  | readExact
  /-- an uncached take of one by an agent that holds no allowance (R148) -/
  | agent
  deriving DecidableEq, Repr, Inhabited

structure StockReq where
  op : StockOp
  core : Nat
  ctx : BitVec 12
  req : Nat
  deriving DecidableEq, Repr, Inhabited

/-- Allowance on its way home (R150, R154). -/
structure StockReturn where
  ctr : Nat
  amount : Nat
  core : Nat
  /-- the return answers the recall under way -/
  recalling : Bool
  /-- it clears the core's presence bit -/
  clears : Bool
  /-- a give of 2^47 or more: nothing is given, and OVERFILL is set (R149) -/
  overfill : Bool
  deriving DecidableEq, Repr, Inhabited

/-- a recall under way: the cores still to answer (R152). -/
structure Recall where
  waiting : List Nat
  deriving DecidableEq, Repr, Inhabited

structure Counter where
  /-- owning context; none when the counter belongs to no context -/
  owner : Option (BitVec 12)
  b : Nat
  rf : Nat
  h : Nat
  presence : List Nat
  overfill : Bool
  queue : List StockReq
  recalling : Option Recall
  /-- agents' takes that have been served, with their results, until the agents go on -/
  grants : List (Nat × Bool)
  lastProbe : Nat
  deriving DecidableEq, Repr, Inhabited

/-! ## Frames (R159-R176, R178-R187) -/

/-- A level of a raising record; `origin` is the first instance its group uses, as the Joiner resolved it (R161, R162). -/
structure Level where
  spatial : Bool
  /-- domain: 0 DEVICE ... as R161 numbers it -/
  domain : Nat
  extent : Nat
  origin : Nat
  scope : BitVec 3
  deriving DecidableEq, Repr, Inhabited

/-- A stage descriptor (R164). -/
structure Stage where
  entry : CReg
  level : Nat
  prio : Nat
  restart : Bool
  gang : Bool
  reentrant : Bool
  coordReg : Nat
  minc : Nat
  maxc : Nat
  argMask : BitVec 16
  overrun : Nat
  carried : Byte
  ins : List Nat
  outs : List Nat
  cons : List Nat
  prod : List Nat
  args : List CReg
  suspended : Bool
  deriving DecidableEq, Repr, Inhabited

/-- An item of a queue with the mark of a failed batch and whether it came from an engine completion (R119, R203). -/
structure QItem where
  bytes : List Byte
  tags : List Bool
  failed : Bool
  completion : Bool
  /-- place in the order of arrival -/
  ord : Nat
  /-- the Scribe's recompute item that it is -/
  work : Option Nat
  /-- the descriptor of the failed firing, under which the refire runs (R175) -/
  desc : Option Stage
  deriving DecidableEq, Repr, Inhabited

/-- Where a held record goes (R56, R168): a queue of a frame with the item, or an event queue with the record. -/
inductive HeldTo where
  | queue (ctx : BitVec 12) (frame : BitVec 32) (q : Nat) (item : QItem)
  | event (ctx : BitVec 12) (cluster : Nat) (e : Event)
  deriving DecidableEq, Repr, Inhabited

/-- A queue of a frame (R167, R168). -/
structure Queue where
  depth : Nat
  item : Nat
  exported : Bool
  items : List QItem
  /-- items claimed by running firings, and free slots reserved for their pushes (R178) -/
  claimed : Nat
  reserved : Nat
  nextOrd : Nat
  deriving DecidableEq, Repr, Inhabited

/-- A drain that waits for a carried tile (R317, R318). -/
structure Drain where
  ctx : BitVec 12
  frame : BitVec 32
  stage : BitVec 6
  coord : Nat
  pos : BitVec 2
  tileNo : BitVec 3
  int32 : Bool
  seq : Option (BitVec 16)
  tile : Tile
  /-- the sender's batch and position, whose FIN waits -/
  sbatch : Nat
  spos : BitVec 2
  deriving DecidableEq, Repr, Inhabited

/-- A carried tile's drain numbers (R318, R319). -/
structure DrainState where
  next : Nat
  applied : Nat
  deriving DecidableEq, Repr, Inhabited

/-- An instance of a stage that is not in its initial state (R163, R203, R317). -/
structure Inst where
  stage : Nat
  coord : Nat
  retired : Bool
  readySince : Option Nat
  /-- since when, ready, it has had priority 7 by donation (R185) -/
  sevenSince : Option Nat
  running : Nat
  failed : Bool
  /-- the descriptor of the failed firing, under which the refire runs (R175) -/
  desc : Option Stage
  /-- its failure suspended the stage (R203, R206) -/
  suspends : Bool
  /-- carried tiles by position*8 + tile -/
  tiles : Map Tile
  drains : Map DrainState
  deriving DecidableEq, Repr, Inhabited

/-- What a started firing holds of its frame until it ends (R178): its claimed items and reserved slots by queue, and the
descriptor it runs under (R175). -/
structure Batch where
  id : Nat
  stage : Nat
  coord : Nat
  desc : Stage
  ins : List (Nat × List QItem)
  outs : List (Nat × Nat)
  /-- a refire (R203) -/
  refire : Bool
  cluster : Nat
  preempted : Bool
  /-- FIN has delivered its pushes (R202, R382) -/
  committed : Bool
  /-- quota and core since (R185) -/
  since : Nat
  deriving DecidableEq, Repr, Inhabited

/-- A frame (R159-R176). -/
structure Frame where
  number : BitVec 32
  ctx : BitVec 12
  tag : BitVec 16
  cluster : Nat
  levels : List Level
  stages : List Stage
  queues : List Queue
  /-- phasers: table index to (cluster phaser?, engine, number) -/
  phasers : List (Bool × Nat × Nat)
  trapStage : Nat
  endReply : Reply
  insts : List Inst
  withdrawn : Bool
  killed : Bool
  batches : List Batch
  /-- where its carried tiles stand in the save arena, and how much they take, in KiB (R198) -/
  tiles : Nat × Nat
  deriving DecidableEq, Repr, Inhabited

/-- A pre-empted firing (R197, R198): its saved threads (four for a gang), where it ran, since when it is ready. -/
structure Saved where
  threads : List (Nat × Thread)
  ctx : BitVec 12
  readySince : Nat
  sevenSince : Option Nat
  prio : Nat
  /-- its slots of the save arena -/
  slots : List Nat
  /-- it must resume on the core that holds its scratch -/
  bound : Bool
  deriving DecidableEq, Repr, Inhabited

/-! ## Contexts (R27, R189) -/

structure Grant where
  perms : BitVec 7
  base : Nat
  limit : Nat
  deriving DecidableEq, Repr, Inhabited

/-- A scheduling record (R189). -/
structure SchedRec where
  cycles : Nat
  period : Nat
  ageing : Nat
  hbm : Nat
  girt : Nat
  deriving DecidableEq, Repr, Inhabited

/-- What a context spends. -/
inductive Spent where
  | cycles | hbm | girt
  deriving DecidableEq, Repr, Inhabited

/-- Spending past the end of a period whose successor has not begun yet (R189): so much in each ns from a time to another. -/
structure LateSpent where
  what : Spent
  start : Nat
  stop : Nat
  each : Nat
  deriving DecidableEq, Repr, Inhabited

structure Ctx where
  layout : Byte
  grant : Grant
  arenaBase : Nat
  arenaSlots : Nat
  /-- ranges of the arena in use: first KiB and KiB (R197, R198) -/
  arenaUsed : List (Nat × Nat)
  root : Nat
  sched : SchedRec
  nextSched : Option SchedRec
  period : Nat
  periodStart : Nat
  /-- core cycles spent in this period, in thousandths of a cycle (R190) -/
  cycles : Nat
  hbmBytes : Nat
  girtBytes : Nat
  late : List LateSpent
  /-- 64 event queues, by die*32 + cluster (R417) -/
  events : Map (List Event)
  /-- the cores whose EVWAIT or (true) EVPOP stands at each event queue, in order of arrival (R417) -/
  evWaits : Map (List (Nat × Bool))
  /-- trap queue: frame and queue (R29) -/
  trapQ : Option (BitVec 32 × Nat)
  nextFrame : BitVec 32
  /-- budget spent in this period: pre-emptions pending, byte stall (R190, R191) -/
  spentCycles : Bool
  spentBytes : Bool
  ending : Bool
  deriving DecidableEq, Repr, Inhabited

/-- A shootdown under way (R90): the SHOOT message it serves, the TLBINV.dev that waits for it, or the collapse it is
part of with the page's first writer (R96). -/
structure Shootdown where
  ctx : BitVec 12
  base : Nat
  length : Nat
  whole : Bool
  cmd : Option Cmd
  core : Nat
  /-- the request of the blocked TLBINV, else 0 -/
  req : Nat
  collapse : Option Touch
  deriving DecidableEq, Repr, Inhabited

/-! ## Kiln and Scribe (R212-R284) -/

structure Seq where
  id : BitVec 32
  die : Nat
  ctx : BitVec 12
  /-- virtual address of the descriptor -/
  desc : Nat
  forkLen : Option Nat
  parent : Option (BitVec 32)
  opn : Bool
  /-- the journal is open (R243) -/
  jopen : Bool
  deriving DecidableEq, Repr, Inhabited

/-- A run of a position table, as a value kept with an offcut or a hold (R216, R273). -/
structure Run where
  lstart : Nat
  len : Nat
  group : Nat
  slot : Nat
  deriving DecidableEq, Repr, Inhabited

/-- A page that replaced data left behind (R273): a version page of a layer rank with the mask and state it had, or a
metadata page; tagged with GEN at the replacement. A released version page is remembered without its page. One that an
open journal names stays until the journal is closed (R245). -/
structure Offcut where
  seq : BitVec 32
  /-- the context and the base of the pool whose pages these are -/
  ctx : BitVec 12
  pool : Nat
  /-- its place in the order in which versions and numberings were replaced -/
  moment : Nat
  page : Nat
  group : Nat
  /-- rank among the CAUSAL layers; none for a metadata page -/
  rank : Option Nat
  gen : BitVec 32
  mask : Nat
  seasoned : Bool
  released : Bool
  journal : Bool
  /-- an undo has made the page a current version again (R245) -/
  back : Bool
  deriving DecidableEq, Repr, Inhabited

/-- How an EDINS or EDDEL moves positions (R258). -/
structure EditMap where
  ins : Bool
  p : Nat
  n : Nat
  deriving DecidableEq, Repr, Inhabited

/-- The numbering a generation, or a cut of LENGTH, found (R273, R275): the view's runs and the length at the last moment
before it; `edit` is what the generation did to it, `cut` the length it was cut to; `kept` says that the runs are not
released. -/
structure Snap where
  seq : BitVec 32
  gen : BitVec 32
  moment : Nat
  cut : Option Nat
  runs : List Run
  length : Nat
  edit : Option EditMap
  kept : Bool
  deriving DecidableEq, Repr, Inhabited

/-- A wave of a sequence (R259-R261). -/
structure Wave where
  seq : BitVec 32
  gen : BitVec 32
  layer : Nat
  entered : Bool
  merged : List (BitVec 32)
  /-- seam columns and columns with inserted positions -/
  seam : List Nat
  inserted : List Nat
  deriving DecidableEq, Repr, Inhabited

/-- A recompute item outstanding (R261, R262). -/
structure Item where
  seq : BitVec 32
  id : Nat
  layer : Nat
  gen : BitVec 32
  cols : List Nat
  deriving DecidableEq, Repr, Inhabited
/-- What the Joiner has told the Scribe of an item, its cells still to be marked (R262). -/
structure CellMark where
  item : Nat
  /-- claimed, or back in its queue -/
  running : Bool
  deriving DecidableEq, Repr, Inhabited

inductive HoldMode where
  | within | before | after
  deriving DecidableEq, Repr, Inhabited

/-- A hold (R275-R283). -/
structure Hold where
  /-- the firing's batch and position, its core and context -/
  batch : Nat
  pos : BitVec 2
  core : Nat
  seq : BitVec 32
  layer : Nat
  b : W64
  first : Nat
  count : Nat
  mode : HoldMode
  gen : BitVec 32
  granted : Bool
  /-- the columns it covers in the present numbering (R275) -/
  cols : List Nat
  /-- its number: that of the WHOLD's request -/
  req : Nat
  /-- what its walks show, once the snapshot moment has passed, and LENGTH then -/
  frozen : Bool
  length : Nat
  blocks : List HBlock
  /-- what walks through it named before that moment (R282) -/
  walked : List HBlock
  /-- WFREE has released it; the Scribe has not heard of it -/
  freed : Bool
  deriving DecidableEq, Repr, Inhabited

/-- A SETTLE that waits (R265). -/
structure SettleWait where
  seq : BitVec 32
  gen : BitVec 32
  cmd : Cmd
  deriving DecidableEq, Repr, Inhabited

/-- The commands of a sequence that an EDINS or EDDEL holds up, oldest first (R257). -/
structure EditWait where
  seq : BitVec 32
  cmds : List Cmd
  deriving DecidableEq, Repr, Inhabited

/-- A rotation an edit has issued, with the pages it took for it (R256). -/
structure Rotation where
  seq : BitVec 32
  gen : BitVec 32
  first : Nat
  count : Nat
  delta : Int
  pages : List Nat
  deriving DecidableEq, Repr, Inhabited

/-! ## Clusters and dies -/

/-- A stage's quota in a cluster (R182). -/
structure Quota where
  ctx : BitVec 12
  frame : BitVec 32
  stage : Nat
  cores : Nat
  deriving DecidableEq, Repr, Inhabited

structure Cluster where
  tlb : List TlbEntry
  misses : List Miss
  /-- how an engine's miss ended, taken at the retried access (R470) -/
  engEnd : List (BitVec 12 × Nat × MissEnd)
  touches : List Touch
  dupWrites : List Touch
  copy : List Cmd
  joiner : List Cmd
  /-- phasers by number -/
  phasers : Map Phaser
  quotas : List Quota
  quotaAt : Nat
  deriving DecidableEq, Repr, Inhabited

structure Die where
  counters : Map Counter
  returns : List StockReturn
  phasers : Map Phaser
  ring : List Nat
  kiln : List Cmd
  scribe : List Cmd
  bank : List Cmd
  firmware : List Cmd
  mhz : Nat
  deriving DecidableEq, Repr, Inhabited

/-! ## Host interface, firmware and links -/

inductive HState where
  | off | fuse | romver | hbmtrain | eccinit | linktrain | imgload | negotiate | ready | failed | fatal
  deriving DecidableEq, Repr, Inhabited

/-- The register window (R35) and what a start fixes (R36, R42). -/
structure HostRegs where
  memkeep : Bool
  warm : Bool
  hspb : W64
  mqHead : BitVec 32
  mqTail : BitVec 32
  accept1 : W128
  accept2 : W128
  offer : List W128
  failCnt : Byte
  fcode : BitVec 16
  coldForced : Bool
  state : HState
  /-- features in force: feature words 1 and 2 -/
  on1 : W128
  on2 : W128
  dumpArea : Nat
  mqBase : Nat
  mqLen : Nat
  imgLoadAt : Nat
  firstBeats : List Nat
  /-- the model's own: the bytes the last CXL.mem request was answered; none for Unsupported Request (R20) -/
  reply : Option (List Byte)
  /-- a sector of that answer is poisoned (R67) -/
  replyPoison : Bool
  /-- the start under way: what the world decides in it, and whether it is warm and keeps memory (R37, R38) -/
  env : StartEnv
  wasWarm : Bool
  wasKeep : Bool
  deriving DecidableEq, Repr, Inhabited

/-- A message slot (R22). -/
structure Slot where
  image : List Byte
  seq : BitVec 32
  err : Byte
  state : Byte
  vector : Option Nat
  deriving DecidableEq, Repr, Inhabited

structure Msix where
  mask : W64
  pending : W64
  lastRaise : Map Nat
  owed : List Nat
  sent : List Nat
  deriving DecidableEq, Repr, Inhabited

/-- A 32-byte record for the management queue (R32). -/
structure MgmtQueue where
  held : List (List Byte)
  lost : Nat
  deriving DecidableEq, Repr, Inhabited

/-- A firmware image that runs (R44, R48). -/
structure Image where
  digest : BitVec 256
  schema : Nat
  secver : Nat
  imgver : Nat
  bodyLen : Nat
  entry : W64
  staged : Bool
  deriving DecidableEq, Repr, Inhabited

inductive ShorePhase where
  | stage | handover | acceptance | proving | fallback
  /-- the old image has resumed and handles the staged requests again (R57) -/
  | rehandle
  deriving DecidableEq, Repr, Inhabited

/-- The shoring under way (R49-R57). -/
structure Shoring where
  kind : Nat
  phase : ShorePhase
  since : Nat
  tag : BitVec 16
  /-- where the image stands in host memory -/
  addr : Nat
  len : Nat
  image : Image
  record : List Byte
  status : Byte
  log : List Cmd
  heldReplies : List (Cmd × Record)
  deriving DecidableEq, Repr, Inhabited

structure Firmware where
  mr : Vector (BitVec 256) 5
  images : Map Image
  nextKey : Nat
  keyEnd : Nat
  shorings : Nat
  shoring : Option Shoring
  record : List Byte
  /-- per firmware core: ns of its last accepted heartbeat and the progress code -/
  beats : Map (Nat × BitVec 16)
  /-- when the watchdog began to watch an image that resumed after a fall-back, by kind (R57) -/
  watchFrom : Map Nat
  dumpPending : Bool
  dumpCause : Byte
  dumpDie : Nat
  dumpEngine : Byte
  deriving DecidableEq, Repr, Inhabited

inductive PortState where
  | down | up | retraining
  deriving DecidableEq, Repr, Inhabited

/-- A flit on its way through a port's replay buffer (R13): its number, the cores whose FENCE waits for it (none for an
engine's), the write it carries to a sector of the peer, and what stood there before, should the write not land (R14). -/
structure Flit where
  seq : Nat
  cores : List Nat
  sector : Nat
  data : BitVec 512
  mask : BitVec 64
  tags : BitVec 2
  tagged : BitVec 2
  was : L2Sector
  deriving DecidableEq, Repr, Inhabited

/-- A girt port (R12-R14): the times of the replays of the last millisecond and the count since the start; a retraining's
start, none while it waits for Chrogon-F (R52), the time it had run by then, and its limit in ms. -/
structure Port where
  state : PortState
  recent : List Nat
  replays : Nat
  buffer : List Flit
  nextSeq : Nat
  retrainFrom : Option Nat
  retrainUsed : Nat
  retrainLimit : Nat
  deriving DecidableEq, Repr, Inhabited

structure Peer where
  lost : Bool
  epoch : Nat
  deriving DecidableEq, Repr, Inhabited

structure Links where
  ports : Map Port
  limitMs : Nat
  routes : Map Nat
  peers : Map Peer
  /-- the model's own: what the last request of a peer was answered, and whether a sector of it is poisoned (R67) -/
  reply : List Byte
  replyPoison : Bool
  deriving DecidableEq, Repr, Inhabited

/-- HBM channels (R11, R41, R68). -/
structure Hbm where
  absent : List Nat
  removed : List Nat
  corrected : Map (List Nat)
  uncorrectable : Map (List (Nat × Nat))
  deriving DecidableEq, Repr, Inhabited

/-- What the Joiner and the engines hold for the whole device. -/
structure Work where
  frames : List Frame
  saved : List Saved
  drains : List Drain
  held : List HeldTo
  shootdowns : List Shootdown
  /-- phaser completions in flight: phaser (die-level?, engine, number), bytes, record, sender -/
  phComps : List (CReg × Cmd × Record)
  seqs : List Seq
  nextSeq : BitVec 32
  offcuts : List Offcut
  /-- the order of replacements: the next one's place -/
  moment : Nat
  snaps : List Snap
  waves : List Wave
  items : List Item
  nextItem : Nat
  holds : List Hold
  /-- sequences of which a hold has ended with its firing: what it kept is still to be released (R274) -/
  sweep : List (BitVec 32)
  /-- in the order the Joiner told them (R262) -/
  marks : List CellMark
  settles : List SettleWait
  edits : List EditWait
  rotations : List Rotation
  replicas : List Replica
  deriving DecidableEq, Repr, Inhabited

/-- What moves next (the model's own, log 1): an event with its argument, a half of a core, the passing of time, an
eviction (log 5), or Chrogon-S serving a cluster's head miss (R86). -/
inductive Turn where
  | event (i : Instr) (a : Arg)
  | access (core : Nat)
  | execute (core : Nat)
  | advance (ns : Nat)
  | evictL1 (core sector : Nat)
  | evictL2 (sector : Nat)
  | dropTlb (core : Nat)
  | dropCluster (cluster : Nat)
  | serve (cluster : Nat)
  /-- a step of the start (R37) -/
  | start
  /-- a half's next word, for which the datapath uses the register numbers of another word (R210) -/
  | misread (core : Nat) (execute : Bool) (used : IWord)
  deriving DecidableEq, Repr, Inhabited

structure Sched where
  agenda : List Turn
  rr : Nat
  freeCtr : Nat
  nextReq : Nat
  deriving DecidableEq, Repr, Inhabited

end Sys2Proof.Machine
end

