-- ==== Sys2Proof/Machine/State.lean ====
section
/-! DEFINITION. The state of the machine, the ways a step can stop, and the state at reset (power-on, R18, R35). -/
namespace Sys2Proof.Machine

/-- The machine. -/
structure State where
  /-- the model's own schedule (log 1) -/
  sched : Sched
  cur : Cur
  /-- ns since power-on; `readyAt` is when READY was last reached (R463 k.time) -/
  time : Nat
  readyAt : Nat
  host : HostRegs
  slots : Map Slot
  msix : Msix
  mgmt : MgmtQueue
  fw : Firmware
  hbm : Hbm
  links : Links
  mem : Mem
  /-- 0-1023 the cores; 1024-1087 the service cores by cluster; 1088-1095 the management cores, four a die -/
  cores : Map CoreSt
  clusters : Map Cluster
  dies : Map Die
  ctxs : Map Ctx
  work : Work
  /-- round-robin pointers of the rows' wide units (R296) -/
  wideRr : Map Nat
  deriving DecidableEq, Repr, Inhabited

/-- No step of this machine stops: whatever the spec describes is a next state, device-fatal errors included (R59), and
an address that does not exist is a page fault (R61, R83, R89). -/
inductive Fault
  deriving DecidableEq, Repr

/-- Raised by an arm of `exec` whose instruction has no meaning yet. Safe: no claim about the instruction can be proved
from it. -/
inductive Refusal where
  /-- the instruction of this mnemonic is not modelled -/
  | notModelled (mnemonic : String)
  deriving DecidableEq, Repr

/-- A core that runs nothing and caches nothing. -/
def coreReset : CoreSt :=
  { l1 := [], nextOrd := 0, tlb := [], held := [], allow := [], sigFaults := [], inPlacement := true, leftOut := false, lastTrap := 0, scratch := [], scratchTags := [],
    pinned := [], missEnd := [], orphans := [], thread := none }
def clusterReset : Cluster :=
  { tlb := [], misses := [], engEnd := [], touches := [], dupWrites := [], copy := [], joiner := [], phasers := [],
    quotas := [], quotaAt := 0 }
/-- R8: 1,500 MHz. -/
def dieReset : Die :=
  { counters := [], returns := [], phasers := [], ring := [], kiln := [], scribe := [], bank := [], firmware := [],
    mhz := 1500 }
def portReset : Port :=
  { state := .down, recent := [], replays := 0, buffer := [], nextSeq := 0, retrainFrom := none, retrainUsed := 0, retrainLimit := 10 }
def slotReset : Slot := { image := [], seq := 0, err := 0, state := 0, vector := none }
def hostReset : HostRegs :=
  { memkeep := false, warm := false, hspb := 0, mqHead := 0, mqTail := 0, accept1 := 0, accept2 := 0, offer := [],
    failCnt := 0, fcode := 0, coldForced := false, state := .off, on1 := 0, on2 := 0, dumpArea := 0, mqBase := 0, mqLen := 0,
    imgLoadAt := 0, firstBeats := [], reply := none, replyPoison := false
    env := { fuseOk := true, failedChannels := [], trainedPorts := [], routes := [] }, wasWarm := false, wasKeep := false }
def fwReset : Firmware :=
  { mr := Vector.replicate 5 0, images := [], nextKey := 0, keyEnd := 0, shorings := 0, shoring := none, record := [],
    beats := [], watchFrom := [], dumpPending := false, dumpCause := 0, dumpDie := 0, dumpEngine := 0 }
def workReset : Work :=
  { frames := [], saved := [], drains := [], held := [], shootdowns := [], phComps := [], seqs := [], nextSeq := 1,
    offcuts := [], moment := 0, snaps := [], waves := [], items := [], nextItem := 1, holds := [], sweep := [], marks := [], settles := [], edits := [], rotations := [], replicas := [] }

/-- Power-on: HSTAT.STATE is OFF and nothing survives (R18, R35); what the spec gives no value is zero or none (log 3). -/
def State.reset : State :=
  { sched := { agenda := [], rr := 0, freeCtr := 0, nextReq := 1 }
    cur := { core := 0, pc := 0, word := 0, mask := 0, arg := .none }
    time := 0
    readyAt := 0
    host := hostReset
    slots := []
    msix := { mask := BitVec.allOnes 64, pending := 0, lastRaise := [], owed := [], sent := [] }
    mgmt := { held := [], lost := 0 }
    fw := fwReset
    hbm := { absent := [], removed := [], corrected := [], uncorrectable := [] }
    links := { ports := [], limitMs := 10, routes := [], peers := [], reply := [], replyPoison := false }
    mem := { cells := [], tags := [], poison := [], l2 := [], releases := [], hostCopies := [], streamed := [], stale := none, fresh := [], bad := [] }
    cores := []
    clusters := []
    dies := []
    ctxs := []
    work := workReset
    wideRr := [] }

end Sys2Proof.Machine
end

