-- ==== Sys2Proof/Machine/Cells.lean ====
section
/-! DEFINITION. Sparse data in canonical form: maps by key, sets of numbers, and the bytes of memory. -/
namespace Sys2Proof.Machine

/-! ## Maps and sets with ascending keys -/

def mfind {α : Type} : Map α → Nat → Option α
  | [], _ => none
  | (k, v) :: t, q => if q = k then some v else mfind t q
/-- what a map holds at a key, `d` where it lists none -/
def mget {α : Type} (d : α) (m : Map α) (q : Nat) : α := (mfind m q).getD d
def mset {α : Type} : Map α → Nat → α → Map α
  | [], q, x => [(q, x)]
  | (k, v) :: t, q, x => if q < k then (q, x) :: (k, v) :: t else if q = k then (q, x) :: t else (k, v) :: mset t q x
def mdel {α : Type} : Map α → Nat → Map α
  | [], _ => []
  | (k, v) :: t, q => if q = k then t else (k, v) :: mdel t q

def sput : List Nat → Nat → List Nat
  | [], q => [q]
  | k :: t, q => if q < k then q :: k :: t else if q = k then k :: t else k :: sput t q
def sdel : List Nat → Nat → List Nat
  | [], _ => []
  | k :: t, q => if q = k then t else k :: sdel t q
def sset (s : List Nat) (q : Nat) (on : Bool) : List Nat := if on then sput s q else sdel s q

/-! ## Bytes of memory: what nothing has written reads as zero (log 4) -/

/-- what an unlisted address reads as -/
def blankByte : Byte := 0
def readCell : List Host.Cell → Nat → Byte
  | [], _ => blankByte
  | (k, v) :: t, q => if q = k then v else readCell t q
/-- Writing what an unlisted address reads as removes the entry. -/
def writeCell : List Host.Cell → Nat → Byte → List Host.Cell
  | [], q, x => if x = blankByte then [] else [(q, x)]
  | (k, v) :: t, q, x =>
    if q < k then (if x = blankByte then (k, v) :: t else (q, x) :: (k, v) :: t)
    else if q = k then (if x = blankByte then t else (q, x) :: t)
    else (k, v) :: writeCell t q x
/-- ascending addresses, every one above `lo`, none holding a blank byte -/
def cellsFrom : Option Nat → List Host.Cell → Bool
  | _, [] => true
  | lo, (k, v) :: t => (match lo with | none => true | some l => decide (l < k)) && decide (v ≠ blankByte) && cellsFrom (some k) t
/-- ascending numbers -/
def setFrom : Option Nat → List Nat → Bool
  | _, [] => true
  | lo, k :: t => (match lo with | none => true | some l => decide (l < k)) && setFrom (some k) t

/-- The canonical form of memory. -/
def memWf (m : Mem) : Bool := cellsFrom none m.cells && setFrom none m.tags && setFrom none m.poison

/-- n bytes from an address, as a number, least significant first -/
def readCells (m : List Host.Cell) (a : Nat) : Nat → Nat
  | 0 => 0
  | n + 1 => (readCell m a).toNat + 256 * readCells m (a + 1) n
def writeCells (m : List Host.Cell) (a : Nat) : List Byte → List Host.Cell
  | [] => m
  | b :: t => writeCells (writeCell m a b) (a + 1) t

/-- bytes i to i + n - 1 of a sector as a number -/
def secBytes (d : BitVec 512) (i n : Nat) : Nat := d.toNat / 256 ^ i % 256 ^ n
/-- a bit per byte i to i + n - 1 -/
def secMask (i n : Nat) : BitVec 64 := BitVec.ofNat 64 ((2 ^ n - 1) * 2 ^ i)
/-- the bits of the bytes of a mask -/
def expandMask (m : BitVec 64) : Nat → Nat
  | 0 => 0
  | k + 1 => expandMask m k + (if m.getLsbD k then 255 * 256 ^ k else 0)
/-- the masked bytes of `new` over `old` -/
def mergeBytes (old new : BitVec 512) (mask : BitVec 64) : BitVec 512 :=
  let e := BitVec.ofNat 512 (expandMask mask 64)
  (old &&& ~~~e) ||| (new &&& e)
/-- n bytes of a value placed at byte i of a sector -/
def putBytes (d : BitVec 512) (i n v : Nat) : BitVec 512 :=
  mergeBytes d (BitVec.ofNat 512 (v % 256 ^ n * 256 ^ i)) (secMask i n)

end Sys2Proof.Machine
end

