-- ==== Sys2Proof/Machine/Operands.lean ====
section
/-! DEFINITION. The registers and queues of a thread through their operands (R286-R291, R364-R367, R388, R394, R424):
every read and every write of a register goes through here. -/
namespace Sys2Proof.Machine

/-- Why an instruction does not complete now: it waits with no effect, or takes a trap of R201. -/
inductive Stop where
  | wait
  | trap (code : BitVec 8) (detail : W64)
  deriving DecidableEq, Repr, Inhabited

/-! ## Trap codes and causes (R201, R204) -/

def tIllegal : BitVec 8 := 0x01
def tCap : BitVec 8 := 0x02
def tMisaligned : BitVec 8 := 0x03
def tPage : BitVec 8 := 0x04
def tSig : BitVec 8 := 0x05
def tData : BitVec 8 := 0x06
def tGang : BitVec 8 := 0x07
def tMatrix : BitVec 8 := 0x08
def tGroup : BitVec 8 := 0x09
def tOverrun : BitVec 8 := 0x0A
def tPeer : BitVec 8 := 0x0B
def tVersion : BitVec 8 := 0x0C
def tSoft : BitVec 8 := 0x0D
def tCoreRemoved : BitVec 8 := 0x0E

/-- The capability cause of DETAIL [63:57] (R204). -/
inductive Cause where
  | tag | bounds | permission | seal | kind
  deriving DecidableEq, Repr, Inhabited
def Cause.code : Cause → Nat | .tag => 1 | .bounds => 2 | .permission => 3 | .seal => 4 | .kind => 5

/-- R204: the cause over the faulting address in [56:0]. -/
def capDetail (c : Cause) (addr : W64) : W64 := BitVec.ofNat 7 c.code ++ addr.extractLsb' 0 57
def capFault (c : Cause) (addr : W64) : Stop := .trap tCap (capDetail c addr)
/-- R204: the address of a misaligned or page fault. -/
def addrDetail (addr : W64) : W64 := (addr.extractLsb' 0 57).setWidth 64

/-! ## Fields of a capability (R290) -/

def capCursor (b : W192) : W64 := b.extractLsb' 0 64
def capBase (b : W192) : Nat := (b.extractLsb' 64 57).toNat
def capLimit (b : W192) : Nat := (b.extractLsb' 128 57).toNat
def capPerms (b : W192) : BitVec 7 := b.extractLsb' 121 7
def capSeal (b : W192) : BitVec 3 := b.extractLsb' 185 3
def capKind (b : W192) : Nat := (b.extractLsb' 188 4).toNat
def permR : BitVec 7 := 0x01
def permW : BitVec 7 := 0x02
def permX : BitVec 7 := 0x04
def permC : BitVec 7 := 0x08
def permS : BitVec 7 := 0x10
def permE : BitVec 7 := 0x20
def permG : BitVec 7 := 0x40
def hasPerm (b : W192) (p : BitVec 7) : Bool := capPerms b &&& p == p

/-- A capability from its fields. -/
def mkCap (kind : Nat) (perms : BitVec 7) (base limit : Nat) (cursor : W64) : W192 :=
  BitVec.ofNat 4 kind ++ 0#3 ++ BitVec.ofNat 57 limit ++ perms ++ BitVec.ofNat 57 base ++ cursor

def withCursor (b : W192) (c : W64) : W192 := b.extractLsb' 64 128 ++ c
def withBounds (b : W192) (base limit : BitVec 57) : W192 :=
  b.extractLsb' 185 7 ++ limit ++ b.extractLsb' 121 7 ++ base ++ b.extractLsb' 0 64
def withPerms (b : W192) (p : BitVec 7) : W192 := b.extractLsb' 128 64 ++ p ++ b.extractLsb' 0 121
def withSeal (b : W192) (s : BitVec 3) : W192 := b.extractLsb' 188 4 ++ s ++ b.extractLsb' 0 185

/-- R290: the five checks in their order: tag, kind, seal, permissions, bounds of [addr, addr + z). -/
def checkCap (r : CReg) (kinds : List Nat) (p : BitVec 7) (addr : W64) (z : Nat) : Except Stop Unit :=
  if !r.tag then .error (capFault .tag addr)
  else if !kinds.contains (capKind r.bits) then .error (capFault .kind addr)
  else if capSeal r.bits != 0 then .error (capFault .seal addr)
  else if !hasPerm r.bits p then .error (capFault .permission addr)
  else if capBase r.bits ≤ addr.toNat ∧ addr.toNat + z ≤ capLimit r.bits then .ok ()
  else .error (capFault .bounds addr)

/-- The checks without the bounds. -/
def checkHandle (r : CReg) (kinds : List Nat) (p : BitVec 7) : Except Stop Unit :=
  let addr := capCursor r.bits
  if !r.tag then .error (capFault .tag addr)
  else if !kinds.contains (capKind r.bits) then .error (capFault .kind addr)
  else if capSeal r.bits != 0 then .error (capFault .seal addr)
  else if !hasPerm r.bits p then .error (capFault .permission addr)
  else .ok ()

/-! ## Registers -/

def cZero : CReg := ⟨0, false⟩

/-- R289: c0 reads untagged zero. -/
def getC (t : Thread) (n : BitVec 6) : CReg := if n = 0 then cZero else t.regs.c[n.toNat]'n.isLt
/-- R289: a write to c0 is discarded. -/
def setC (t : Thread) (n : BitVec 6) (v : CReg) : Thread :=
  if n = 0 then t else { t with regs := { t.regs with c := t.regs.c.set n.toNat v n.isLt } }
/-- R291: a data write clears the tag and the bits above the result. -/
def setData {w : Nat} (t : Thread) (n : BitVec 6) (v : BitVec w) : Thread := setC t n ⟨v.setWidth 192, false⟩
/-- an integer read of a c register (R291) -/
def getW (t : Thread) (n : BitVec 6) : W64 := (getC t n).bits.extractLsb' 0 64

/-- R367: p0 reads true. -/
def getP (t : Thread) (n : BitVec 4) : Bool := n == 0 || t.regs.p.getLsbD n.toNat
def setBit {w : Nat} (v : BitVec w) (n : Nat) (b : Bool) : BitVec w :=
  if b then v ||| BitVec.twoPow w n else v &&& ~~~(BitVec.twoPow w n)
/-- R367: a write to p0 is discarded. -/
def setP (t : Thread) (n : BitVec 4) (b : Bool) : Thread :=
  if n = 0 then t else { t with regs := { t.regs with p := setBit t.regs.p n.toNat b } }

def getS (t : Thread) (n : BitVec 4) : Option Stream := t.regs.s[n.toNat]'n.isLt
def setS (t : Thread) (n : BitVec 4) (v : Option Stream) : Thread :=
  { t with regs := { t.regs with s := t.regs.s.set n.toNat v n.isLt } }
def getF (t : Thread) (n : BitVec 4) : FReg := t.regs.f[n.toNat]'n.isLt
def setF (t : Thread) (n : BitVec 4) (v : FReg) : Thread :=
  { t with regs := { t.regs with f := t.regs.f.set n.toNat v n.isLt } }
def getM (t : Thread) (n : BitVec 3) : Tile := t.regs.m[n.toNat]'n.isLt
def setM (t : Thread) (n : BitVec 3) (v : Tile) : Thread :=
  { t with regs := { t.regs with m := t.regs.m.set n.toNat v n.isLt } }
def getL (t : Thread) (n : BitVec 2) : List W128 := t.regs.l[n.toNat]'n.isLt
def setL (t : Thread) (n : BitVec 2) (v : List W128) : Thread :=
  { t with regs := { t.regs with l := t.regs.l.set n.toNat v n.isLt } }
def getD (t : Thread) (n : BitVec 1) : List W128 := t.regs.d[n.toNat]'n.isLt
def setD (t : Thread) (n : BitVec 1) (v : List W128) : Thread :=
  { t with regs := { t.regs with d := t.regs.d.set n.toNat v n.isLt } }
def setXq (t : Thread) (v : List W64) : Thread := { t with regs := { t.regs with xq := v } }
def setAq (t : Thread) (v : List W64) : Thread := { t with regs := { t.regs with aq := v } }
def getInQ (t : Thread) (n : BitVec 3) : InQ := t.opn.inq[n.toNat]'n.isLt
def setInQ (t : Thread) (n : BitVec 3) (v : InQ) : Thread :=
  { t with opn := { t.opn with inq := t.opn.inq.set n.toNat v n.isLt } }
def getOutQ (t : Thread) (n : BitVec 3) : OutQ := t.opn.outq[n.toNat]'n.isLt
def setOutQ (t : Thread) (n : BitVec 3) (v : OutQ) : Thread :=
  { t with opn := { t.opn with outq := t.opn.outq.set n.toNat v n.isLt } }
/-- the n low bytes of a number -/
def toBytes : Nat → Nat → List Byte
  | 0, _ => []
  | n + 1, v => BitVec.ofNat 8 v :: toBytes n (v / 256)
/-- 8 bytes appended to a push (R388), with their place among the firing's pushes (R178) -/
def appendPush (t : Thread) (n : BitVec 3) (v : W64) : Thread :=
  let q := getOutQ t n
  setOutQ { t with opn := { t.opn with pushes := t.opn.pushes + 1 } } n
    { q with bytes := q.bytes ++ toBytes 8 v.toNat, ords := q.ords ++ [t.opn.pushes] }
/-- k.evc0-k.evc7: what an instruction counted (R331, R332) -/
def countEvents (t : Thread) (ev : Events) : Thread :=
  { t with regs := { t.regs with evc := bumpCounters t.regs.evc ev } }

/-! ## Queues (R286, R287) -/

def lDepth : Nat := 32
def qDepth : Nat := 16

/-- bytes as a number, least significant first -/
def leNat : List Byte → Nat
  | [] => 0
  | b :: t => b.toNat + 256 * leNat t
/-- Pop one entry, or the next 8 bytes of a batch (R388); an empty queue blocks (R287). -/
def popQueue (t : Thread) (o : Opd) : Except Stop (W128 × Thread) :=
  match o with
  | .l n => match getL t n with | v :: r => .ok (v, setL t n r) | [] => .error .wait
  | .d n => match getD t n with | v :: r => .ok (v, setD t n r) | [] => .error .wait
  | .xq => match t.regs.xq with | v :: r => .ok (v.setWidth 128, setXq t r) | [] => .error .wait
  | .aq => match t.regs.aq with | v :: r => .ok (v.setWidth 128, setAq t r) | [] => .error .wait
  | .i n =>
    let q := getInQ t n
    if t.id.gang && t.id.pos != 0 then .error (capFault .permission 0)
    else if q.used && decide (q.pos + 8 ≤ q.bytes.length) then
      .ok (BitVec.ofNat 128 (leNat ((q.bytes.drop q.pos).take 8)), setInQ t n { q with pos := q.pos + 8 })
    else .error (capFault .bounds 0)
  | _ => .error (.trap tIllegal 0)

/-- Push one entry, or append 8 bytes to a push (R388); a full queue blocks (R287), a push beyond the produce count
is a capability fault (R166), as is one at positions 1 to 3 of a gang (R187). -/
def pushQueue (t : Thread) (o : Opd) (v : W128) : Except Stop Thread :=
  match o with
  | .l n => let q := getL t n; if q.length < lDepth then .ok (setL t n (q ++ [v])) else .error .wait
  | .d n => let q := getD t n; if q.length < lDepth then .ok (setD t n (q ++ [v])) else .error .wait
  | .xq => if t.regs.xq.length < qDepth then .ok (setXq t (t.regs.xq ++ [v.setWidth 64])) else .error .wait
  | .aq => if t.regs.aq.length < qDepth then .ok (setAq t (t.regs.aq ++ [v.setWidth 64])) else .error .wait
  | .o n =>
    let q := getOutQ t n
    if t.id.gang && t.id.pos != 0 then .error (capFault .permission 0)
    else if q.used && decide (q.bytes.length + 8 ≤ q.limit) then .ok (appendPush t n (v.setWidth 64))
    else .error (capFault .bounds 0)
  | _ => .error (.trap tIllegal 0)

/-! ## Operands -/

/-- R366: an inline constant at the width read. -/
def immOf (v : BitVec 7) : Int := (v.toNat : Int) - 64
/-- A source at 128 bits: a c register's [127:0], a popped entry, a full f register emptied, an inline constant. -/
def readOpd (t : Thread) (o : Opd) : Except Stop (W128 × Thread) :=
  match o with
  | .c n => .ok ((getC t n).bits.extractLsb' 0 128, t)
  | .imm v => .ok (BitVec.ofInt 128 (immOf v), t)
  | .f n => match getF t n with | .full v => .ok (v, setF t n .empty) | _ => .error .wait
  | o => popQueue t o

/-- R388: a source as a 64-bit word. -/
def readW (t : Thread) (o : Opd) : Except Stop (W64 × Thread) :=
  match readOpd t o with
  | .ok (v, t) => .ok (v.setWidth 64, t)
  | .error e => .error e

/-- A c register or an inline constant, read without effect. -/
def readCI (t : Thread) (o : Opd) : W64 :=
  match o with
  | .c n => getW t n
  | .imm v => BitVec.ofInt 64 (immOf v)
  | _ => 0

/-- R388, R394: a result written to a c register untagged, or pushed. -/
def writeOpd {w : Nat} (t : Thread) (o : Opd) (v : BitVec w) : Except Stop Thread :=
  match o with
  | .c n => .ok (setData t n v)
  | o => pushQueue t o (v.setWidth 128)

/-- the k.fpmode an instruction uses (R325) -/
def ctlOf (t : Thread) (o : FpOps) : FCtl := fctl o.rm o.subn o.ovf o.nan t.regs.fpmode

end Sys2Proof.Machine
end

