-- ==== Sys2Proof/Machine/Memory.lean ====
section
/-! DEFINITION. The memory system below the instructions: homes, L1 sectors, releases and acquires (R102-R121). -/
namespace Sys2Proof.Machine

/-! ## Accessors of the state -/

def core (s : State) (k : Nat) : CoreSt := mget coreReset s.cores k
def setCore (s : State) (k : Nat) (c : CoreSt) : State := { s with cores := mset s.cores k c }
def cluster (s : State) (k : Nat) : Cluster := mget clusterReset s.clusters k
def setCluster (s : State) (k : Nat) (c : Cluster) : State := { s with clusters := mset s.clusters k c }
def die (s : State) (k : Nat) : Die := mget dieReset s.dies k
def setDie (s : State) (k : Nat) (d : Die) : State := { s with dies := mset s.dies k d }
def setMem (s : State) (m : Mem) : State := { s with mem := m }

def ctxOf (s : State) (c : BitVec 12) : Option Ctx := mfind s.ctxs c.toNat
def setCtx (s : State) (c : BitVec 12) (x : Ctx) : State := { s with ctxs := mset s.ctxs c.toNat x }
/-- change a live context -/
def updCtx (s : State) (c : BitVec 12) (f : Ctx → Ctx) : State := match ctxOf s c with | some x => setCtx s c (f x) | none => s

/-- R7, R464: the cluster (die*32 + cluster) of a core; a management core counts with cluster 0 of its die (R472). -/
def clusterOf (k : Nat) : Nat := if k < 1024 then k / 16 else if k < 1088 then k - 1024 else if k < 1096 then (k - 1088) / 4 * 32 else 0
def dieOfCluster (c : Nat) : Nat := c / 32
def dieOf (k : Nat) : Nat := dieOfCluster (clusterOf k)

/-- R103: whether `b` lies within scope `sc` of core `a`. -/
def inScope (sc : BitVec 3) (a b : Nat) : Bool :=
  match sc.toNat with
  | 0 => a == b
  | 1 => a < 1024 && b < 1024 && a / 4 == b / 4
  | 2 => clusterOf a == clusterOf b
  | 3 => dieOf a == dieOf b
  | _ => true

/-! ## Homes -/

/-- peer's share of the key of memory -/
def peerOf (sec : Nat) : Nat := sec / 2 ^ 46
/-- a sector of this device's HBM; every other one has the host or a peer as its home (R102) -/
def isHbm (sec : Nat) : Bool := decide (sec < 2 ^ 45)
/-- what stands in the sector was written since power was lost last -/
def isFresh (m : Mem) (sec : Nat) : Bool := m.stale.isNone || !isHbm sec || m.fresh.any (fun r => decide (r.1 ≤ sec ∧ sec < r.2))
/-- R39: what a sector kept over a loss of power reads as: arbitrary, or poisoned -/
def staleView (m : Mem) (sec : Nat) : L2Sector :=
  match Config.staleSector (m.stale.getD 0) sec with
  | some (d, t) => { data := d, dirty := false, tags := t, poison := false }
  | none => { data := 0, dirty := false, tags := 0, poison := true }
/-- a sector as HBM, the host or the peer holds it -/
def hbmRead (m : Mem) (sec : Nat) : L2Sector :=
  if !isFresh m sec then staleView m sec else
  { data := BitVec.ofNat 512 (readCells m.cells (sec * 64) 64), dirty := false,
    tags := BitVec.ofBool (m.tags.contains (sec * 2 + 1)) ++ BitVec.ofBool (m.tags.contains (sec * 2)),
    poison := m.poison.contains sec }
def hbmWrite (m : Mem) (sec : Nat) (x : L2Sector) : Mem :=
  { m with cells := writeCells m.cells (sec * 64) (toBytes 64 x.data.toNat)
           tags := sset (sset m.tags (sec * 2) (x.tags.getLsbD 0)) (sec * 2 + 1) (x.tags.getLsbD 1)
           poison := sset m.poison sec x.poison
           fresh := if isFresh m sec then m.fresh else (sec, sec + 1) :: m.fresh }
/-- a sector kept over a loss of power stands in memory as it reads -/
def ripen (m : Mem) (sec : Nat) : Mem := if isFresh m sec then m else hbmWrite m sec (hbmRead m sec)
/-- what stands at the home: the L2 sector, or memory's -/
def homeView (m : Mem) (sec : Nat) : L2Sector := (mfind m.l2 sec).getD (hbmRead m sec)
/-- what stands where a sector is written: at a host's or a peer's, whatever L2 holds of it -/
def homeBase (m : Mem) (sec : Nat) : L2Sector := if isHbm sec then homeView m sec else hbmRead m sec
/-- a read at the home leaves the sector in L2 -/
def homeFill (m : Mem) (sec : Nat) : Mem := { m with l2 := mset m.l2 sec (homeView m sec) }
/-- bytes and slot tags merged into a sector (R110, R291): `mask` bytes, `tagged` slots; a write of the whole sector, which
no scalar store is, clears its poison (R67) -/
def mergeSector (x : L2Sector) (data : BitVec 512) (mask : BitVec 64) (tags tagged : BitVec 2) (whole : Bool) : L2Sector :=
  { data := mergeBytes x.data data mask, dirty := true, tags := (x.tags &&& ~~~tagged) ||| (tags &&& tagged),
    poison := x.poison && !whole }
/-- what fills a sector comes from HBM, and cannot be corrected: to be counted (R68) -/
def noteFill (m : Mem) (sec : Nat) : Mem :=
  if isHbm sec && (mfind m.l2 sec).isNone && (hbmRead m sec).poison then { m with bad := sput m.bad sec } else m
/-- A write performed at the home. A device sector stands in L2 then, and a host copy of its line is invalidated (R120). A
write to the host or a peer stands in its memory, and a copy that L2 holds of it is brought up to date (R102, R121). -/
def homeMergeW (m : Mem) (sec : Nat) (data : BitVec 512) (mask : BitVec 64) (tags tagged : BitVec 2) (whole : Bool) : Mem :=
  let x := mergeSector (homeBase m sec) data mask tags tagged whole
  let m := if whole then m else noteFill m sec
  if isHbm sec then { m with l2 := mset m.l2 sec x, hostCopies := sdel m.hostCopies (sec / 4) }
  else { hbmWrite m sec x with l2 := if (mfind m.l2 sec).isSome then mset m.l2 sec { x with dirty := false } else m.l2 }
def homeMerge (m : Mem) (sec : Nat) (data : BitVec 512) (mask : BitVec 64) (tags tagged : BitVec 2) : Mem :=
  homeMergeW m sec data mask tags tagged (mask == BitVec.allOnes 64)
/-- write a dirty L2 sector back to memory and keep it clean -/
def l2Clean (m : Mem) (sec : Nat) : Mem :=
  match mfind m.l2 sec with
  | some x => if x.dirty then { hbmWrite m sec x with l2 := mset m.l2 sec { x with dirty := false } } else m
  | none => m
def l2Drop (m : Mem) (sec : Nat) : Mem := { m with l2 := mdel m.l2 sec }
/-- an L2 eviction: written back if dirty, then dropped -/
def l2Evict (m : Mem) (sec : Nat) : Mem := l2Drop (l2Clean m sec) sec
/-- A write to an MS page: at the base die, never cached (R104). What the home slice still holds of the sector, from a host
write or an access under other attributes, goes back first (R120). -/
def baseMergeW (m : Mem) (sec : Nat) (data : BitVec 512) (mask : BitVec 64) (tags tagged : BitVec 2) (whole : Bool) : Mem :=
  let m := l2Evict m sec
  let m := if whole then m else noteFill m sec
  let m := hbmWrite m sec (mergeSector (hbmRead m sec) data mask tags tagged whole)
  { m with hostCopies := sdel m.hostCopies (sec / 4) }
def baseMerge (m : Mem) (sec : Nat) (data : BitVec 512) (mask : BitVec 64) (tags tagged : BitVec 2) : Mem :=
  baseMergeW m sec data mask tags tagged (mask == BitVec.allOnes 64)

/-- A qword read at the home without effect: table entries, descriptors (R86, R118). -/
def homeQword (m : Mem) (pa : Nat) : W64 := BitVec.ofNat 64 (secBytes (homeView m (pa / 64)).data (pa % 64) 8)
def homeByte (m : Mem) (pa : Nat) : Byte := BitVec.ofNat 8 (secBytes (homeView m (pa / 64)).data (pa % 64) 1)

/-! ## Bytes that cross an interface (R12, R191), and flits to a peer (R13) -/

/-- a period's end (R189) -/
def periodEnd (c : Ctx) : Nat := c.periodStart + c.sched.period * 1000
def addSpent (k : Spent) (n : Nat) (c : Ctx) : Ctx :=
  match k with
  | .cycles => { c with cycles := c.cycles + n }
  | .hbm => { c with hbmBytes := c.hbmBytes + n }
  | .girt => { c with girtBytes := c.girtBytes + n }
/-- `each` spent in every ns from a time to another: what falls past the period's end is the next one's -/
def spend (k : Spent) (start stop each : Nat) (c : Ctx) : Ctx :=
  let e := periodEnd c
  let c := addSpent k ((min stop e - start) * each) c
  if stop ≤ e then c else { c with late := c.late ++ [⟨k, max start e, stop, each⟩] }
/-- change a context's account -/
def spendNow (s : State) (ctx : BitVec 12) (k : Spent) (n : Nat) : State := updCtx s ctx (spend k s.time (s.time + 1) n)
def chargeHbm (s : State) (ctx : BitVec 12) : State := spendNow s ctx .hbm 64
def chargeGirt (s : State) (ctx : BitVec 12) : State := spendNow s ctx .girt 64
/-- a request for a sector crosses an HBM interface or a girt link: 64 bytes for the context. R191 counts 64-byte sectors for HBM and the
payload bytes of R12 for the girt, without saying how many bytes a peer's sector or a write to one carries; the model counts 64 for each,
a write of a tag alone too: its choice (log 61) -/
def chargeSec (s : State) (ctx : BitVec 12) (sec : Nat) : State :=
  if isHbm sec then chargeHbm s ctx else if peerOf sec != 0 then chargeGirt s ctx else s
/-- a request that misses the home's L2 -/
def missesL2 (s : State) (sec : Nat) : Bool := (mfind s.mem.l2 sec).isNone
def chargeMiss (s : State) (ctx : BitVec 12) (sec : Nat) : State := if missesL2 s sec then chargeSec s ctx sec else s
/-- a write at an HBM home reads what L2 lacks of the sector; one to a peer is charged as its flit leaves -/
def chargeWrite (s : State) (ctx : BitVec 12) (sec : Nat) : State := if isHbm sec then chargeMiss s ctx sec else s

/-- R13: places in a port's replay buffer -/
def replayCap : Nat := 512
/-- the port to a peer by the route table (R15) -/
def portTo (s : State) (peer : Nat) : Option Nat := mfind s.links.routes peer
/-- A write leaves for a peer: its payload is charged, and its flit enters the replay buffer of the peer's port. The oldest leaves
a full one, acknowledged, while the port is up; while it is not, what leaves for it waits there, or in front of a full one (R14). -/
def sendFlit (s : State) (ctx : BitVec 12) (f : Nat → Flit) (peer : Nat) : State :=
  let s := chargeGirt s ctx
  match portTo s peer with
  | none => s
  | some n =>
    let p := mget portReset s.links.ports n
    let l := p.buffer ++ [f p.nextSeq]
    { s with links := { s.links with ports := mset s.links.ports n { p with buffer := if p.state == .up then l.drop (l.length - replayCap) else l, nextSeq := p.nextSeq + 1 } } }
/-- A write performed at the home of a sector for a context, by a core or (none) an engine. -/
def performAt (s : State) (k : Option Nat) (ctx : BitVec 12) (sec : Nat) (data : BitVec 512) (mask : BitVec 64) (tags tagged : BitVec 2)
    (whole : Bool) : State :=
  let was := homeBase s.mem sec
  let s := setMem s (homeMergeW s.mem sec data mask tags tagged whole)
  if peerOf sec = 0 then s
  else sendFlit s ctx (fun n => { seq := n, cores := k.toList, sector := sec, data := data, mask := mask, tags := tags, tagged := tagged, was := was }) (peerOf sec)
/-- R191: a spent byte budget of a context -/
def hbmSpent (c : Ctx) : Bool := c.sched.hbm != 0 && decide (c.hbmBytes ≥ c.sched.hbm)
def girtSpent (c : Ctx) : Bool := c.sched.girt != 0 && decide (c.girtBytes ≥ c.sched.girt)
/-- R191: the context's budget is spent for a request to a sector that crosses an interface: HBM's when L2 lacks the sector or
never holds it, a link whenever it goes to the peer (`atHome`) or L2 lacks it -/
def budgetHolds (s : State) (ctx : BitVec 12) (sec : Nat) (never atHome : Bool) : Bool :=
  match ctxOf s ctx with
  | some c => (isHbm sec && hbmSpent c && (never || missesL2 s sec)) || (peerOf sec != 0 && girtSpent c && (atHome || missesL2 s sec))
  | none => false
/-- R14: the port to the peer of a sector is not up, so what goes there waits -/
def secWaits (s : State) (sec : Nat) : Bool :=
  peerOf sec != 0 && (match portTo s (peerOf sec) with | some p => (mget portReset s.links.ports p).state != .up | none => false)

/-! ## L1 sectors (R110) -/

def l1Fill (x : L2Sector) (ctx : BitVec 12) (un : Bool) : L1Sector :=
  { data := x.data, mask := 0, tags := x.tags, tagged := 0, poison := x.poison, ctxs := [ctx], streamed := 0, ord := 0, un := un }
def isDirty (x : L1Sector) : Bool := x.mask != 0 || x.tagged != 0
def l1Drop (s : State) (k sec : Nat) : State := setCore s k { core s k with l1 := mdel (core s k).l1 sec }

/-- the home slice of a device sector: die and physical address bits [12:8] (R62) -/
def sliceOf (sec : Nat) : Nat := (sec / 4) % 32 + 32 * (sec / 2 ^ 33 % 2)
/-- the home of any sector: a slice, the host, or a peer -/
def homePlace (sec : Nat) : Nat := if isHbm sec then sliceOf sec else 64 + peerOf sec

/-- write one L1 sector's masked bytes and tags back to its home and keep it clean -/
def writeOne (s : State) (k sec : Nat) : State :=
  match mfind (core s k).l1 sec with
  | some x =>
    if isDirty x then
      let s := performAt (chargeWrite s (x.ctxs.headD 0) sec) (some k) (x.ctxs.headD 0) sec x.data x.mask x.tags x.tagged (x.streamed == BitVec.allOnes 64)
      setCore s k { core s k with l1 := mset (core s k).l1 sec { x with mask := 0, tagged := 0, streamed := 0 } }
    else s
  | none => s
/-- sectors with their places in the order of the core's stores, the oldest first -/
def insertByOrd (x : Nat × Nat) : List (Nat × Nat) → List (Nat × Nat)
  | [] => [x]
  | y :: t => if x.1 ≤ y.1 then x :: y :: t else y :: insertByOrd x t
def byOrd (l : List (Nat × Nat)) : List Nat := (l.foldr insertByOrd []).map (·.2)
/-- the dirty RC sectors of a home that a core stored to before place n, the oldest first (R112) -/
def olderAt (c : CoreSt) (home n : Nat) : List Nat :=
  byOrd ((c.l1.filter (fun x => isDirty x.2 && !x.2.un && decide (x.2.ord < n) && homePlace x.1 == home)).map (fun x => (x.2.ord, x.1)))
def writeAll (s : State) (k : Nat) : List Nat → State
  | [] => s
  | sec :: t => writeAll (writeOne s k sec) k t
/-- a write-back: those of the same home that are older in program order reach it first (R112) -/
def writeBack (s : State) (k sec : Nat) : State :=
  match mfind (core s k).l1 sec with
  | some x => if isDirty x && !x.un then writeOne (writeAll s k (olderAt (core s k) (homePlace sec) x.ord)) k sec else writeOne s k sec
  | none => s
def writeBacks (s : State) (k : Nat) : List Nat → State
  | [] => s
  | sec :: t => writeBacks (writeBack s k sec) k t
/-- R112: before a request of the core reaches a home, its earlier RC stores to that home have reached it -/
def drainHome (s : State) (k home : Nat) : State := writeAll s k (olderAt (core s k) home (core s k).nextOrd)
/-- the sectors a core holds dirty for a context -/
def dirtySectors (c : CoreSt) (ctx : BitVec 12) : List Nat :=
  (c.l1.filter (fun x => isDirty x.2 && x.2.ctxs.contains ctx)).map (·.1)
/-- an eager release: every dirty sector of the context (R105, R119) -/
def drainCtx (s : State) (k : Nat) (ctx : BitVec 12) : State := writeBacks s k (dirtySectors (core s k) ctx)
/-- what holds back the write-back of a core's sector: its peer's port is not up (R14), or the budget is spent (R191) -/
def backHeld (s : State) (k sec : Nat) : Bool :=
  match mfind (core s k).l1 sec with
  | some x => isDirty x && (secWaits s sec || budgetHolds s (x.ctxs.headD 0) sec false true)
  | none => false
/-- such a release waits for the write-backs that are held back -/
def drainWaits (s : State) (k : Nat) (ctx : BitVec 12) : Bool := (dirtySectors (core s k) ctx).any (backHeld s k)
/-- R106: clean sectors discarded; a dirty one's unmasked bytes refilled from its home, and poisoned with it unless stream stores
have written the whole of it (R67) -/
def discardClean (m : Mem) : Map L1Sector → Map L1Sector
  | [] => []
  | (sec, x) :: t =>
    if isDirty x then
      let h := homeView m sec
      (sec, { x with data := mergeBytes h.data x.data x.mask, tags := (h.tags &&& ~~~x.tagged) ||| (x.tags &&& x.tagged),
                     poison := h.poison && x.streamed != BitVec.allOnes 64 }) :: discardClean m t
    else discardClean m t

/-! ## The ways of a set (R292, R142, R293) -/

def wayCount : Nat := 16
/-- PA [13:8] of a line -/
def l1SetOf (line : Nat) : Nat := line % 64
/-- the lines of a set of which L1 holds a sector -/
def linesIn (c : CoreSt) (set : Nat) : List Nat := ((c.l1.map (fun x => x.1 / 4)).filter (fun l => l1SetOf l == set)).eraseDups
/-- ways of a set that are pinned: scratch lines of the firing on the core (`lines`) and of those that wait to resume there, and
an allowance line -/
def pinnedWays (c : CoreSt) (set : Nat) (lines : List Nat) : Nat :=
  ((lines ++ c.pinned).filter (· % 64 == set)).length + (if c.allow.any (fun e => e.ctx.toNat % 64 == set) then 1 else 0)
/-- the scratch lines the firing on a core holds -/
def heldLines (c : CoreSt) : List Nat := match c.thread with | some t => t.opn.scratch | none => []
def lineSectors (line : Nat) : List Nat := [4 * line, 4 * line + 1, 4 * line + 2, 4 * line + 3]
/-- a line leaves L1: its dirty sectors go back first -/
def evictLine (s : State) (k line : Nat) : State :=
  (lineSectors line).foldl (fun s sec => l1Drop s k sec) (writeBacks s k (lineSectors line))
/-- the next free value as a number below n: the spec names no replacement policy (log 10) -/
def freeBelow (s : State) (n : Nat) : Nat × State :=
  ((Config.freeWord s.sched.freeCtr).toNat % n, { s with sched := { s.sched with freeCtr := s.sched.freeCtr + 1 } })
/-- lines leave a set until it has `room` ways free; `n` lines at most -/
def makeWays (s : State) (k set room : Nat) (lines : List Nat) : Nat → State
  | 0 => s
  | n + 1 =>
    let l := linesIn (core s k) set
    if l.isEmpty || decide (l.length + pinnedWays (core s k) set lines + room ≤ wayCount) then s
    else
      let (i, s) := freeBelow s l.length
      makeWays (evictLine s k (l.getD i 0)) k set room lines n
/-- a way for the line of a sector, unless L1 holds one -/
def wayFor (s : State) (k sec : Nat) : State :=
  if (linesIn (core s k) (l1SetOf (sec / 4))).contains (sec / 4) then s
  else makeWays s k (l1SetOf (sec / 4)) 1 (heldLines (core s k)) wayCount

/-! ## Releases and acquires (R105-R108) -/

def releaseCap : Nat := 2048

def drainRel (s : State) (r : RelCore) : State := writeBacks s r.core r.sectors
/-- R108: room for one more core on a record, and one more record in the slice -/
def makeRoom (s : State) (sec : Nat) : State :=
  match s.mem.releases.find? (·.sector == sec) with
  | some r =>
    if r.cores.length < 4 then s
    else match r.cores with
      | c :: t =>
        let s := drainRel s c
        setMem s { s.mem with releases := s.mem.releases.map (fun q => if q.sector == sec then { q with cores := t } else q) }
      | [] => s
  | none =>
    if (s.mem.releases.filter (fun r => sliceOf r.sector == sliceOf sec)).length < releaseCap then s
    else match s.mem.releases.find? (fun r => sliceOf r.sector == sliceOf sec) with
      | some r =>
        let s := r.cores.foldl drainRel s
        setMem s { s.mem with releases := s.mem.releases.filter (fun q => q.sector != r.sector) }
      | none => s
/-- attach a core to the record of a sector; what an earlier release of the core at that scope named stays with it -/
def addRelease (rs : List Release) (sec : Nat) (r : RelCore) : List Release :=
  if rs.any (·.sector == sec) then
    rs.map (fun q => if q.sector == sec then
      let same := q.cores.filter (fun c => c.core == r.core && c.scope == r.scope)
      { q with cores := q.cores.filter (fun c => c.core != r.core || c.scope != r.scope) ++
                 [{ r with sectors := (same.flatMap (·.sectors) ++ r.sectors).eraseDups }] }
    else q)
  else rs ++ [{ sector := sec, cores := [r] }]
/-- R105: a lazy release below .sys leaves a record on the stored sector; one at .sys writes everything back first -/
def releaseAt (s : State) (k : Nat) (ctx : BitVec 12) (scope : BitVec 3) (sec : Nat) : State :=
  if scope.toNat ≥ 5 then drainCtx s k ctx
  else
    let s := makeRoom s sec
    setMem s { s.mem with releases := addRelease s.mem.releases sec ⟨k, scope, dirtySectors (core s k) ctx⟩ }
/-- R106: the recorded cores within whose release scope the acquirer lies write back, and leave the record -/
def drainRecords (s : State) (k sec : Nat) : State :=
  match s.mem.releases.find? (·.sector == sec) with
  | none => s
  | some r =>
    let hit := r.cores.filter (fun c => inScope c.scope c.core k)
    let keep := r.cores.filter (fun c => !inScope c.scope c.core k)
    let s := hit.foldl drainRel s
    let rs := if keep.isEmpty then s.mem.releases.filter (fun q => q.sector != sec)
      else s.mem.releases.map (fun q => if q.sector == sec then { q with cores := keep } else q)
    setMem s { s.mem with releases := rs }
/-- R121: an acquire at .sys discards what L2 holds of the host's and the peers' memory, which is clean -/
def dropForeign (scope : BitVec 3) (m : Mem) : Mem := if scope.toNat ≥ 5 then { m with l2 := m.l2.filter (fun x => isHbm x.1) } else m
/-- the dirty sectors whose other bytes come from HBM again -/
def refills (m : Mem) (l : Map L1Sector) : Mem := ((l.filter (fun x => isDirty x.2)).map (·.1)).foldl noteFill m
/-- R106: nothing is discarded at .core -/
def acquireLocal (s : State) (k : Nat) (scope : BitVec 3) : State :=
  if scope == 0 then s
  else
    let m := dropForeign scope s.mem
    setMem (setCore s k { core s k with l1 := discardClean m (core s k).l1 }) (refills m (core s k).l1)
def acquireAt (s : State) (k : Nat) (scope : BitVec 3) (sec : Nat) : State := acquireLocal (drainRecords s k sec) k scope
/-- an acquire on a sector would have a recorded core write back what is held back -/
def recordsWait (s : State) (k sec : Nat) : Bool :=
  (s.mem.releases.filter (·.sector == sec)).any (fun r => r.cores.any (fun c => inScope c.scope c.core k && c.sectors.any (backHeld s c.core)))
/-- R113, R102: a FENCE is an eager release, which performs every earlier store, and an acquire; at .core it discards nothing -/
def fenceOp (s : State) (k : Nat) (ctx : BitVec 12) (scope : BitVec 3) : State := acquireLocal (drainCtx s k ctx) k scope

/-! ## Accesses of a core by translated address -/

/-- A translated address: the key of memory and the page's kind (R82, R104). -/
structure Xlat where
  pa : Nat
  ms : Bool
  so : Bool
  un : Bool
  rd : Bool
  ct : Bool
  peer : Nat
  deriving DecidableEq, Repr, Inhabited

/-- R191: the context's byte budget holds a request back; one served at its home (`atHome`) does not stop at L2 -/
def byteHeld (s : State) (ctx : BitVec 12) (x : Xlat) (atHome : Bool) : Bool := budgetHolds s ctx (x.pa / 64) x.ms (atHome || x.so)
/-- the slots of a sector that n bytes from byte i touch -/
def slotsOf (i n : Nat) : BitVec 2 :=
  BitVec.ofBool (decide (n ≠ 0 ∧ i + n > 32)) ++ BitVec.ofBool (decide (n ≠ 0 ∧ i < 32))

end Sys2Proof.Machine
end

