-- ==== Sys2Proof/Machine/Translate.lean ====
section
/-! DEFINITION. Translation (R61-R64, R80-R101): the physical map, leaf entries, TLBs, misses, walks. -/
namespace Sys2Proof.Machine

/-! ## The physical map (R61-R64) -/

def stripeBase (d : Nat) : Nat := d * 0x8000000000
def presentOn (s : State) (d : Nat) : Nat := 512 - (s.hbm.absent.filter (fun q => q / 512 == d)).length
def stripeSize (s : State) (d : Nat) : Nat := presentOn s d * 240 * 2 ^ 20
def linearBase (q : Nat) : Nat := 0x1000000000000 + q * 0x40000000
def linearSize : Nat := 480 * 2 ^ 20
def hostBase : Nat := 0x8000000000000
def paSpace : Nat := 2 ^ 52
/-- [pa, pa + n) lies in populated space -/
def populated (s : State) (pa n : Nat) : Bool :=
  (decide (pa ≥ hostBase ∧ pa + n ≤ paSpace)) ||
  (List.range 2).any (fun d => decide (stripeBase d ≤ pa ∧ pa + n ≤ stripeBase d + stripeSize s d)) ||
  (let q := (pa - 0x1000000000000) / 0x40000000
   decide (0x1000000000000 ≤ pa ∧ q < 1024 ∧ linearBase q ≤ pa ∧ pa + n ≤ linearBase q + linearSize) && !s.hbm.absent.contains q)
/-- populated device memory -/
def deviceMem (s : State) (pa n : Nat) : Bool := decide (pa < hostBase) && populated s pa n
/-- R64: the top 2 GiB of each die's striped aperture -/
def inReserve (s : State) (pa n : Nat) : Bool :=
  (List.range 2).any (fun d =>
    let top := stripeBase d + stripeSize s d
    decide (pa < top ∧ pa + n > top - 2 ^ 31 ∧ pa + n > stripeBase d))
/-- the die that owns an address; host lines go through die 0's links in this model -/
def dieOfPa (pa : Nat) : Nat :=
  let p := pa % paSpace
  if p < 0x8000000000 then 0 else if p < 0x10000000000 then 1 else if p < hostBase then (p - 0x1000000000000) / 0x40000000 / 512 else 0
/-- the pseudo-channel of an address in a linear window -/
def channelOfPa (pa : Nat) : Nat := (pa - 0x1000000000000) / 0x40000000
/-- the window of one pseudo-channel holds the range (R63) -/
def inWindow (pa n : Nat) : Bool :=
  decide (0x1000000000000 ≤ pa ∧ pa < hostBase ∧ pa + n ≤ linearBase (channelOfPa pa) + linearSize)

/-! ## Leaf entries (R82) -/

def leafV (e : W64) : Bool := e.getLsbD 63
def leafT (e : W64) : Nat := (e.extractLsb' 61 2).toNat
def leafR (e : W64) : Bool := e.getLsbD 60
def leafW (e : W64) : Bool := e.getLsbD 59
def leafX (e : W64) : Bool := e.getLsbD 58
def leafCT (e : W64) : Bool := e.getLsbD 57
def leafOrd (e : W64) : Nat := (e.extractLsb' 55 2).toNat
def leafMS (e : W64) : Bool := e.getLsbD 54
def leafBL (e : W64) : Bool := e.getLsbD 53
def leafRD (e : W64) : Bool := e.getLsbD 52
def leafFrame (e : W64) : Nat := (e.extractLsb' 16 36).toNat * 65536
def leafDup (e : W64) : Bool := e.getLsbD 15
def leafAnon (e : W64) : Bool := e.getLsbD 14
def leafPeer (e : W64) : Nat := (e.extractLsb' 6 8).toNat
def leafRep (e : W64) : Bool := e.getLsbD 5
/-- R81: the page's size by T -/
def pageSize (e : W64) : Nat := match leafT e with | 1 => 2 ^ 16 | 2 => 2 ^ 21 | _ => 2 ^ 30
/-- R82: fields set or cleared by the hardware paths -/
def leafSetFrame (e : W64) (frame : Nat) : W64 := e.extractLsb' 52 12 ++ BitVec.ofNat 36 (frame / 65536) ++ e.extractLsb' 0 16

/-- R83 (with R61, R63): the entries TLBWR refuses for a context. -/
def leafRefused (s : State) (ctx : BitVec 12) (e : W64) : Bool :=
  let z := pageSize e
  let f := leafFrame e
  let peer := leafPeer e
  let anon := leafAnon e
  decide (f % z ≠ 0) || leafOrd e == 3 || (e.extractLsb' 0 5 != 0) ||
  ((leafMS e || leafBL e || leafRD e) && (peer != 0 || decide (f ≥ hostBase))) ||
  (leafRD e && (leafT e != 1 || leafOrd e != 0)) ||
  (leafDup e && !leafRep e && peer == 0 && decide (f < hostBase)) ||
  (leafRep e && (!leafDup e || leafW e || !deviceMem s f z)) ||
  (anon && (leafT e != 1 || f != 0 || peer != 0)) ||
  (peer != 0 && (mfind s.links.routes peer).isNone) ||
  (ctx != 0 && (peer == 0 || leafRep e) && !anon && inReserve s f z) ||
  (peer == 0 && !anon && !populated s f z) ||
  (leafBL e && (leafT e == 3 || !inWindow f z))

/-! ## Walks (R85, R86) -/

inductive WalkEnd where
  | leaf (e : W64) (pa : Nat)
  /-- V = 0, or a malformed table -/
  | bad
  deriving DecidableEq, Repr, Inhabited

/-- shift and width of the index at a level, and the leaf types permitted -/
def walkShift (level : Nat) : Nat := match level with | 3 => 55 | 2 => 42 | 1 => 29 | _ => 16
def walkMask (level : Nat) : Nat := if level = 3 then 4 else 8192
def leafOk (level t : Nat) : Bool := match level with | 1 => t == 3 | 0 => t == 1 || t == 2 | _ => false
/-- R85: one level; `level + 1` levels are left. R82 gives a table pointer's other fields as zero and its FRAME as a page of this device; of
one that breaks this the spec says nothing, and the model follows FRAME all the same: its choice (log 61) -/
def walkFrom (m : Mem) (va : Nat) : Nat → Nat → WalkEnd
  | 0, _ => .bad
  | l + 1, table =>
    let pa := table + va / 2 ^ walkShift l % walkMask l * 8
    let e := homeQword m pa
    if !leafV e then .bad
    else if leafT e = 0 then (if l = 0 then .bad else walkFrom m va l (leafFrame e))
    else if leafOk l (leafT e) then .leaf e pa else .bad
/-- the walk of the default layout from a root frame -/
def walk (m : Mem) (root va : Nat) : WalkEnd := walkFrom m va 4 root

/-! ## TLBs (R87) -/

def tlbCap : Nat := 128
def clusterTlbCap : Nat := 4096
def covers (e : TlbEntry) (ctx : BitVec 12) (va : Nat) : Bool :=
  e.ctx == ctx && decide (e.va ≤ va ∧ va < e.va + pageSize e.leaf)
def tlbFind (t : List TlbEntry) (ctx : BitVec 12) (va : Nat) : Option TlbEntry := t.find? (covers · ctx va)
/-- the newest entry stands first; the oldest leaves a full TLB. An entry with V = 0 translates nothing, and none is held (R82, R87) -/
def tlbPut (cap : Nat) (t : List TlbEntry) (e : TlbEntry) : List TlbEntry :=
  let rest := t.filter (fun q => !(q.ctx == e.ctx && q.va == e.va))
  if leafV e.leaf then (e :: rest).take cap else rest
/-- entries of a context that overlap a range, or all of it, are dropped (R471) -/
def tlbDrop (t : List TlbEntry) (ctx : BitVec 12) (a n : Nat) (whole : Bool) : List TlbEntry :=
  t.filter (fun e => !(e.ctx == ctx && (whole || decide (e.va < a + n ∧ a < e.va + pageSize e.leaf))))

def installCore (s : State) (k : Nat) (e : TlbEntry) : State :=
  let c := core s k
  setCore s k { c with tlb := tlbPut tlbCap c.tlb e, held := if c.held.contains e.ctx then c.held else e.ctx :: c.held }
/-- a new mapping ends what an engine's miss of its pages came to before (R470) -/
def installCluster (s : State) (cl : Nat) (e : TlbEntry) : State :=
  let c := cluster s cl
  setCluster s cl { c with tlb := tlbPut clusterTlbCap c.tlb e, engEnd := c.engEnd.filter (fun m => !covers e m.1 m.2.1) }

/-! ## Misses (R88) -/

def missCap : Nat := 256
/-- the page a miss names: 64 KiB -/
def pageOf (va : Nat) : Nat := va / 65536 * 65536
/-- The number under which an engine waits: no agent's. -/
def noCore : Nat := 0x1000
/-- a core waits, or (none) an engine of the cluster -/
def addWaiter (ws : List Nat) (k : Option Nat) : List Nat := if ws.contains (k.getD noCore) then ws else ws ++ [k.getD noCore]
/-- an event wakes a core that idles (R478) -/
def wakeThread (t : Thread) : Thread := match t.blockA with | .idle _ => { t with blockA := .woken } | _ => t
def wakeCore (s : State) (k : Nat) : State :=
  match mfind s.cores k with | some c => setCore s k { c with thread := c.thread.map wakeThread } | none => s
/-- a message has reached the firmware inbox of a die, which its management-complex cores share -/
def wakeFirmware (s : State) (d : Nat) : State := (List.range 4).foldl (fun s i => wakeCore s (1088 + 4 * d + i)) s
/-- a miss record, merged with one of the same page and context; a full queue leaves the access waiting (R51) -/
def sendMiss (s : State) (cl : Nat) (k : Option Nat) (ctx : BitVec 12) (va : Nat) (kind : MissKind) : State :=
  let c := cluster s cl
  if c.misses.any (fun m => m.ctx == ctx && m.va == pageOf va) then
    setCluster s cl { c with misses := c.misses.map (fun m =>
      if m.ctx == ctx && m.va == pageOf va then
        { m with waiters := addWaiter m.waiters k,
                 merged := if m.waiters.contains (k.getD noCore) then m.merged else m.merged + 1 }
      else m) }
  else if c.misses.length < missCap then
    wakeCore (setCluster s cl { c with misses := c.misses ++ [{ ctx := ctx, va := pageOf va, kind := kind, waiters := addWaiter [] k, merged := 0 }] }) (1024 + cl)
  else s

def peerLost (s : State) (p : Nat) : Bool := match mfind s.links.peers p with | some q => q.lost | none => false

/-- How a translation ends: an address, a wait (a miss, a first touch, a replica), or a fault. -/
inductive TrEnd where
  | hit (x : Xlat) (s : State)
  | wait (s : State)
  | fault (code : BitVec 8) (s : State)

inductive Need where
  | load | store | atomic | fetch
  deriving DecidableEq, Repr, Inhabited
def Need.kind : Need → MissKind | .load => .load | .store => .store | .atomic => .atomic | .fetch => .fetch
/-- R84 -/
def permits (e : W64) : Need → Bool
  | .load => leafR e | .store => leafW e | .atomic => leafR e && leafW e | .fetch => leafX e
def isWrite : Need → Bool | .store => true | .atomic => true | _ => false

def xlatOf (e : TlbEntry) (va : Nat) : Xlat :=
  { pa := leafPeer e.leaf * paSpace + leafFrame e.leaf + va % pageSize e.leaf,
    ms := leafMS e.leaf, so := leafOrd e.leaf == 1, un := leafOrd e.leaf == 2, rd := leafRD e.leaf, ct := leafCT e.leaf,
    peer := if leafRep e.leaf then 0 else leafPeer e.leaf }
/-- a replica entry keeps the peer it stands for, and its frame is local (R95) -/
def xlatLocal (e : TlbEntry) (va : Nat) : Xlat :=
  if leafRep e.leaf then { xlatOf e va with pa := leafFrame e.leaf + va % pageSize e.leaf } else xlatOf e va

/-- R14: the port to the peer of an address is not up, so what goes there waits -/
def portWaits (s : State) (x : Xlat) : Bool :=
  x.peer != 0 && (match mfind s.links.routes x.peer with | some p => (mget portReset s.links.ports p).state != .up | none => false)
def addTouch (l : List Touch) (t : Touch) : List Touch := if l.contains t then l else l ++ [t]

/-- R42: the device reaches host pages only where CXL.cache is accepted (log 52) -/
def hostOff (s : State) (e : W64) : Bool :=
  !s.host.on1.getLsbD 3 && !leafAnon e && leafPeer e == 0 && !leafRep e && decide (leafFrame e ≥ hostBase)
/-- An access under an entry a TLB holds. `k` is the core, or none for an engine. -/
def useEntry (s : State) (cl : Nat) (k : Nat) (e : TlbEntry) (va : Nat) (need : Need) : TrEnd :=
  if leafPeer e.leaf != 0 && peerLost s (leafPeer e.leaf) then .fault tPeer s
  else if leafRefused s e.ctx e.leaf || hostOff s e.leaf then .fault tPage s
  else if isWrite need && (leafDup e.leaf || leafRep e.leaf) then
    .wait (setCluster s cl { cluster s cl with dupWrites := addTouch (cluster s cl).dupWrites ⟨k, e.ctx, pageOf va, e.leaf, e.leafPa⟩ })
  else if !permits e.leaf need then .fault tPage s
  else if leafAnon e.leaf then
    .wait (setCluster s cl { cluster s cl with touches := addTouch (cluster s cl).touches ⟨k, e.ctx, pageOf va, e.leaf, e.leafPa⟩ })
  else .hit (xlatLocal e va) s

/-- R87-R89: the translation of an access by a core. -/
def translate (s : State) (k : Nat) (ctx : BitVec 12) (va : Nat) (need : Need) : TrEnd :=
  let cl := clusterOf k
  let c := core s k
  match c.missEnd.find? (fun m => m.1 == ctx && m.2.1 == pageOf va) with
  | some m =>
    let s := setCore s k { c with missEnd := c.missEnd.filter (· != m) }
    .fault (match m.2.2 with | .fault => tPage | .peerLost => tPeer) s
  | none =>
    match tlbFind c.tlb ctx va with
    | some e => useEntry s cl k e va need
    | none =>
      match tlbFind (cluster s cl).tlb ctx va with
      | some e => useEntry (installCore s k e) cl k e va need
      | none => .wait (sendMiss s cl (some k) ctx va need.kind)

/-- context 0, the firmware's: each device page stands at its own address (log 23) -/
def firmwareLeaf (va : Nat) : W64 := 0xBE00000000000000 ||| BitVec.ofNat 64 (va / 65536 * 65536)
/-- The leaf a walk of the context's tables gives (R85, R86). -/
def walkCtx (s : State) (ctx : BitVec 12) (va : Nat) : WalkEnd :=
  if ctx = 0 then (if va < hostBase then .leaf (firmwareLeaf va) 0 else .bad)
  else match mfind s.ctxs ctx.toNat with | some c => walk s.mem c.root va | none => .bad

/-! ## Who serves (R37, R50), and what is under way -/

/-- Chrogon-M runs -/
def running (s : State) : Bool := s.host.state == .imgload || s.host.state == .negotiate || s.host.state == .ready
/-- R50: requests to an image wait from its hand-over point to the acceptance, and through a fall-back -/
def inGap (s : State) (kind : Nat) : Bool :=
  match s.fw.shoring with
  | some r => r.kind == kind && (r.phase == .handover || r.phase == .acceptance || r.phase == .fallback)
  | none => false
def isProving (s : State) (kind : Nat) : Bool := match s.fw.shoring with | some r => r.kind == kind && r.phase == .proving | none => false
/-- a page of a context is being shot down -/
def shooting (s : State) (ctx : BitVec 12) (va : Nat) : Bool :=
  s.work.shootdowns.any (fun d => d.ctx == ctx && (d.whole || decide (d.base < pageOf va + 65536 ∧ pageOf va < d.base + d.length)))
/-- a page of a context is being collapsed (R96) -/
def collapsing (s : State) (ctx : BitVec 12) (va : Nat) : Bool :=
  s.work.shootdowns.any (fun d => d.collapse.isSome && d.ctx == ctx && decide (d.base ≤ va ∧ va < d.base + d.length))
/-- the leaf that translates an address for a core now, without effect -/
def peekLeaf (s : State) (k : Nat) (ctx : BitVec 12) (va : Nat) : Option TlbEntry :=
  match tlbFind (core s k).tlb ctx va with
  | some e => some e
  | none => match tlbFind (cluster s (clusterOf k)).tlb ctx va with
    | some e => some e
    | none => match walkCtx s ctx va with
      | .leaf l pa => some { ctx := ctx, va := va / pageSize l * pageSize l, leaf := l, leafPa := pa }
      | .bad => none

/-! ## Engines (R88, R453) -/

/-- An engine's translation: the cluster TLB, or a miss that waits for the walker as a core's does. A first touch takes
its frame as R92 lays down; see EngMem. -/
inductive EngTr where
  | hit (x : Xlat) (leaf : W64) (s : State)
  | anon (e : TlbEntry) (s : State)
  | dup (e : TlbEntry) (s : State)
  | wait (s : State)
  | fault (code : BitVec 8)

def translateEng (s : State) (cl : Nat) (ctx : BitVec 12) (va : Nat) (need : Need) : EngTr :=
  match (cluster s cl).engEnd.find? (fun m => m.1 == ctx && m.2.1 == pageOf va) with
  | some m => .fault (match m.2.2 with | .fault => tPage | .peerLost => tPeer)
  | none => match tlbFind (cluster s cl).tlb ctx va with
    | some e =>
      if leafPeer e.leaf != 0 && peerLost s (leafPeer e.leaf) then .fault tPeer
      else if leafRefused s ctx e.leaf || hostOff s e.leaf then .fault tPage
      else if isWrite need && (leafDup e.leaf || leafRep e.leaf) then .dup e s
      else if !permits e.leaf need then .fault tPage
      else if leafAnon e.leaf then .anon e s
      else .hit (xlatLocal e va) e.leaf s
    | none => .wait (sendMiss s cl none ctx va .engine)

end Sys2Proof.Machine
end

