-- ==== Sys2Proof/Machine/HostMem.lean ====
section
/-! DEFINITION. Memory by physical address, as the firmware and the host interface reach it (R32, R36). -/
namespace Sys2Proof.Machine

/-- device-side read of host or device memory by physical address -/
def paRead (s : State) (pa : Nat) : Nat → List Byte
  | 0 => []
  | n + 1 => homeByte s.mem pa :: paRead s (pa + 1) n
/-- bytes written at their homes, sector by sector: one written whole loses its poison (R67) -/
def paWriteF : Nat → Mem → Nat → List Byte → Mem
  | 0, m, _, _ => m
  | fuel + 1, m, pa, bs =>
    if bs.isEmpty then m
    else
      let n := min bs.length (64 - pa % 64)
      paWriteF fuel (homeMerge m (pa / 64) (putBytes 0 (pa % 64) n (leNat (bs.take n))) (secMask (pa % 64) n) 0 (slotsOf (pa % 64) n))
        (pa + n) (bs.drop n)
def paWriteMem (m : Mem) (pa : Nat) (bs : List Byte) : Mem := paWriteF (bs.length / 64 + 2) m pa bs
/-- a capability with its tag written to a 32-byte slot -/
def paPutCap (m : Mem) (pa : Nat) (c : CReg) : Mem :=
  let slots := slotsOf (pa % 64) 32
  homeMerge m (pa / 64) (putBytes 0 (pa % 64) 32 c.bits.toNat) (secMask (pa % 64) 32) (if c.tag then slots else 0) slots
/-- a write through CXL.cache as a release at .sys: it stands in host memory (R32) -/
def hostWrite (s : State) (pa : Nat) (bs : List Byte) : State := setMem s (paWriteMem s.mem (hostBase + pa) bs)
def hostRead (s : State) (pa n : Nat) : List Byte := paRead s (hostBase + pa) n

end Sys2Proof.Machine
end

