-- ==== Sys2Proof/Machine/HostOut.lean ====
section
/-! DEFINITION. What the device tells the host: MSI-X vectors and the management queue (R32-R34). -/
namespace Sys2Proof.Machine

/-! ## MSI-X (R34) -/

/-- the least ns between two raises of a vector -/
def vectorGap (v : Nat) : Nat := if v = 0 then 10000 else if v = 63 then 0 else 2000
/-- deliver a vector, or set its pending bit while it is masked -/
def deliverVector (s : State) (v : Nat) : State :=
  let x := s.msix
  { s with msix := if x.mask.getLsbD v then { x with pending := setBit x.pending v true }
                   else { x with sent := x.sent ++ [v] } }
/-- raise a vector; within its interval it is owed until the interval ends -/
def raiseVector (s : State) (v : Nat) : State :=
  let ok := match mfind s.msix.lastRaise v with | some t => decide (t + vectorGap v ≤ s.time) | none => true
  if ok then deliverVector { s with msix := { s.msix with lastRaise := mset s.msix.lastRaise v s.time } } v
  else { s with msix := { s.msix with owed := sput s.msix.owed v } }
def raiseState (s : State) : State := raiseVector s 63

/-! ## Records (R416) -/

def engCopy : Byte := 0x01
def engClusterSync : Byte := 0x02
def engDieSync : Byte := 0x03
def engBank : Byte := 0x04
def engJoiner : Byte := 0x06
def engKiln : Byte := 0x08
def engScribe : Byte := 0x09
def engFirmware : Byte := 0x3F
def recordBytes (r : Record) : List Byte :=
  toBytes 2 r.tag.toNat ++ [r.status, r.engine] ++ toBytes 2 r.ctx.toNat ++ [0, 0] ++
  toBytes 8 r.bytes.toNat ++ toBytes 8 r.result.toNat ++ List.replicate 8 0
def recordOf (tag : BitVec 16) (status engine : Byte) (ctx : BitVec 12) (bytes result : Nat) : Record :=
  { tag := tag, status := status, engine := engine, ctx := ctx, bytes := BitVec.ofNat 64 bytes, result := BitVec.ofNat 64 result }
def eventRecord (status : Byte) (bytes result : Nat) : List Byte := recordBytes (recordOf 0 status engFirmware 0 bytes result)

/-! ## The management queue (R32) -/

def ringLen (s : State) : Nat := (s.host.mqTail - s.host.mqHead).toNat
def ringFull (s : State) : Bool := s.host.mqLen == 0 || decide (ringLen s ≥ s.host.mqLen)
def mqHoldCap : Nat := 262144
/-- write one record and advance HMQTAIL past it -/
def mqWrite (s : State) (r : List Byte) : State :=
  let s := hostWrite s (s.host.mqBase + 32 * (s.host.mqTail.toNat % s.host.mqLen)) r
  raiseVector { s with host := { s.host with mqTail := s.host.mqTail + 1 } } 0
/-- held records written in order as room appears, then the count of lost events -/
def mqFlush : Nat → State → State
  | 0, s => s
  | n + 1, s =>
    if ringFull s then s
    else match s.mgmt.held with
      | r :: t => mqFlush n { mqWrite s r with mgmt := { s.mgmt with held := t } }
      | [] =>
        if s.mgmt.lost = 0 then s
        else { mqWrite s (eventRecord 0xEF 0 s.mgmt.lost) with mgmt := { s.mgmt with lost := 0 } }
def mqDrain (s : State) : State := mqFlush (s.mgmt.held.length + 1) s
/-- a reply: never dropped -/
def mqReply (s : State) (r : List Byte) : State :=
  mqDrain { s with mgmt := { s.mgmt with held := s.mgmt.held ++ [r] } }
/-- an event with the records that follow it: counted and not written while too many are held -/
def mqEvent (s : State) (rs : List (List Byte)) : State :=
  if s.mgmt.held.length + rs.length ≤ mqHoldCap then mqDrain { s with mgmt := { s.mgmt with held := s.mgmt.held ++ rs } }
  else { s with mgmt := { s.mgmt with lost := s.mgmt.lost + 1 } }
/-- ns since READY -/
def sinceReady (s : State) : Nat := s.time - s.readyAt

end Sys2Proof.Machine
end

