-- ==== Sys2Proof/Machine/Fatal.lean ====
section
/-! DEFINITION. Abandoning all work, and the device-fatal error with its dump (R39, R58-R60). -/
namespace Sys2Proof.Machine

/-- a free byte, by its number (log 10) -/
def freeByte (n : Nat) : Byte := (Config.freeWord n).setWidth 8
def freeBytes (s : State) (n : Nat) : List Byte × State :=
  ((List.range n).map (fun i => freeByte (s.sched.freeCtr + i)), { s with sched := { s.sched with freeCtr := s.sched.freeCtr + n } })

/-- R211: a core out of placement stays so until an offer has left it out -/
def keepPlacement (cores : Map CoreSt) : Map CoreSt :=
  (cores.filter (fun x => !x.2.inPlacement && !x.2.leftOut)).map (fun x => (x.1, { coreReset with inPlacement := false }))
/-- R39: every firing and engine command is abandoned and every context ends; what caches hold is lost. HBM stays. -/
def abandon (s : State) : State :=
  { s with
    cores := keepPlacement s.cores
    clusters := []
    dies := s.dies.map (fun x => (x.1, { dieReset with mhz := x.2.mhz }))
    ctxs := []
    work := workReset
    wideRr := []
    mem := { s.mem with l2 := [], releases := [], hostCopies := [] }
    fw := { s.fw with shoring := none, beats := [], watchFrom := [], dumpPending := false } }

/-! ## HSTAT (R35) -/

/-- STATE -/
def stateCode : HState → Nat
  | .off => 0 | .fuse => 1 | .romver => 2 | .hbmtrain => 3 | .eccinit => 4 | .linktrain => 5 | .imgload => 6 | .negotiate => 7 | .ready => 8
  | .failed => 9 | .fatal => 10
def hstatWord (h : HostRegs) : Nat :=
  stateCode h.state + (if h.coldForced then 16 else 0) + h.fcode.toNat * 2 ^ 24 + h.failCnt.toNat * 2 ^ 40
def setState (s : State) (st : HState) : State := { s with host := { s.host with state := st } }

/-- R60: a device that has stopped accepts nothing but START -/
def stopped (s : State) : Bool := s.host.state == .fatal

/-! ## The dump (R60) -/

def dumpMagic : Nat := 0x44554D50
def dumpComplete : Nat := 0x00000001D0DE0001
def dumpBytes : Nat := 0x4000000
/-- n bytes that tell some numbers, in a layout the spec does not give -/
def dumpPart (part n : Nat) (content : List Nat) : List Byte := (List.range n).map (Config.dumpByte part content)
def phaseCode : ShorePhase → Nat | .stage => 0 | .handover => 1 | .acceptance => 2 | .proving => 3 | .fallback => 4 | .rehandle => 5
/-- the shoring's phase and kind, with none while no shoring runs -/
def shoreFacts (s : State) : List Nat := match s.fw.shoring with | some r => [phaseCode r.phase, r.kind] | none => []
/-- the header up to COMPLETE; the layout of phase and kind within 0x0C0 is not stated, and bytes that R60 names no content of, which are
0x007, 0x018 to 0x01F and 0x0C8 to 0xFF7, are 0: the model's choice (log 61) -/
def dumpHeader (s : State) (cause die : Nat) (engine : Byte) : List Byte :=
  toBytes 4 dumpMagic ++ [BitVec.ofNat 8 cause, BitVec.ofNat 8 die, engine, 0] ++ toBytes 8 (sinceReady s) ++ toBytes 8 (hstatWord s.host) ++
  toBytes 8 0 ++ s.fw.mr.toList.flatMap (fun m => toBytes 32 m.toNat) ++
  dumpPart 0 8 (shoreFacts s) ++ toBytes (0xFF8 - 0xC8) 0
/-- what a core record tells: PC, context tag, last trap, firing identity -/
def coreFacts (c : CoreSt) : List Nat :=
  c.lastTrap.toNat :: (match c.thread with
    | some t => [t.pc.toNat, t.id.ctx.toNat, t.id.frame.toNat, t.id.stage.toNat, t.id.coord, t.id.pos.toNat, if t.id.gang then 1 else 0]
    | none => [])
/-- what the head of an inbox tells -/
def headFacts (l : List Cmd) : List Nat :=
  match l with
  | [] => []
  | c :: _ => [c.ctx.toNat, c.core, c.cluster, c.tag.toNat, c.a.bits.toNat, c.b.bits.toNat, c.cmd.toNat] ++ c.body.map (·.toNat)
/-- the head of each bank channel's inbox: the first of a die's bank commands that names it -/
def bankHeads : List Cmd → List Cmd
  | [] => []
  | c :: t => c :: (bankHeads t).filter (fun x => channelOfPa x.pa != channelOfPa c.pa)
/-- what stands at the sync engines: completions for phasers, and at the counters' homes returns and the head of each queue -/
def syncFacts (s : State) : List Nat :=
  s.work.phComps.flatMap (fun p => p.1.bits.toNat :: headFacts [p.2.1]) ++
  s.dies.flatMap (fun x => x.2.returns.flatMap (fun r => [r.ctr, r.core, r.amount]) ++
    x.2.counters.flatMap (fun c => [x.1, c.1, c.2.h] ++ (match c.2.queue with | r :: _ => [r.core, r.ctx.toNat, r.req] | [] => [])))
/-- inbox heads of the engines, queue pointers of the Joiner, error logs of the HBM controllers -/
def engineFacts (s : State) : List Nat :=
  s.clusters.flatMap (fun x => [x.1] ++ headFacts x.2.copy ++ headFacts x.2.joiner) ++
  s.dies.flatMap (fun x => [x.1] ++ headFacts x.2.kiln ++ headFacts x.2.scribe ++
    (bankHeads x.2.bank).flatMap (fun c => channelOfPa c.pa :: headFacts [c]) ++ headFacts x.2.firmware) ++ syncFacts s ++
  s.work.frames.flatMap (fun f => f.queues.flatMap (fun q => [f.ctx.toNat, f.number.toNat, q.items.length, q.claimed, q.reserved, q.nextOrd])) ++
  s.hbm.corrected.flatMap (fun x => x.1 :: x.2) ++ s.hbm.uncorrectable.flatMap (fun x => x.1 :: x.2.flatMap (fun y => [y.1, y.2]))
/-- the dump: header, core records, engines and error logs, firmware logs, then COMPLETE -/
def writeDump (s : State) (cause die : Nat) (engine : Byte) : State :=
  let (logs, s) := freeBytes s (dumpBytes - 0x141000)
  let put (s : State) (o : Nat) (b : List Byte) : State := hostWrite s (s.host.dumpArea + o) b
  let s := put s 0 (dumpHeader s cause die engine)
  let s := put s 0x1000 ((List.range 1024).flatMap (fun k => dumpPart 1 256 (k :: coreFacts (core s k))))
  let s := put s 0x41000 (dumpPart 2 0x100000 (engineFacts s))
  let s := put s 0x141000 logs
  put s 0xFF8 (toBytes 8 dumpComplete)
/-- R59, R60: a device-fatal error: everything stops, the dump is written, and only START is accepted from then on. -/
def fatalError (s : State) (cause die : Nat) (engine : Byte) : State :=
  raiseState (setState (abandon (writeDump s cause die engine)) .fatal)

end Sys2Proof.Machine
end

