-- ==== Sys2Proof/Machine/Hbm.lean ====
section
/-! DEFINITION. A pseudo-channel's groups and check lines (R65), what the HBM controllers count, the marking of a
pseudo-channel (R11, R68), reads that return its data, and the feature words the device offers (R41). -/
namespace Sys2Proof.Machine

/-! ## Pseudo-channels (R62) -/

def channelCount : Nat := 1024
/-- the present pseudo-channels of a die, ascending -/
def presentChannels (s : State) (d : Nat) : List Nat := ((List.range 512).map (· + d * 512)).filter (fun q => !s.hbm.absent.contains q)
/-- the pseudo-channel that holds an address of device memory -/
def channelAt (s : State) (pa : Nat) : Nat :=
  if pa ≥ linearBase 0 then channelOfPa pa
  else
    let d := dieOfPa pa
    (presentChannels s d).getD ((pa - stripeBase d) / 256 % max 1 (presentOn s d)) 0

/-! ## Groups and check lines (R65) -/

def groupRaw : Nat := 4096
def groupData : Nat := 3840
def groupSectors : Nat := 60
/-- bytes of a channel in all that software reaches, and of them its linear window's (R62) -/
def usableSize : Nat := 720 * 2 ^ 20
def windowSize : Nat := 480 * 2 ^ 20
/-- where usable byte o stands among the channel's raw bytes -/
def rawOf (o : Nat) : Nat := o / groupData * groupRaw + o % groupData
/-- the four check bytes of a sector of a group, the byte with the tag bit of a slot (two slots a sector), and the reserved byte -/
def checkAt (group sector : Nat) : Nat := group * groupRaw + groupData + 4 * sector
def tagByteAt (group slot : Nat) : Nat := group * groupRaw + groupData + 4 * groupSectors + slot / 8
def spareAt (group : Nat) : Nat := group * groupRaw + groupRaw - 1
/-- the usable byte at which a data sector of a group begins -/
def usableAt (group sector : Nat) : Nat := group * groupData + 64 * sector
/-- the physical address of a usable byte of a channel: its linear window, or its share of the striped memory (R62) -/
def paOfUsable (s : State) (q o : Nat) : Nat :=
  if o < windowSize then linearBase q + o
  else
    let d := q / 512
    let i := ((presentChannels s d).findIdx? (· == q)).getD 0
    stripeBase d + ((o - windowSize) / 256 * presentOn s d + i) * 256 + (o - windowSize) % 256

/-- What the code makes of a sector with wrong symbols: one is corrected, two are detected; three or more are not promised
to be, and a free value says what comes (log 10). -/
inductive EccEnd where
  | clean | corrected | detected | wrong
  deriving DecidableEq, Repr, Inhabited
def eccOf (symbols free : Nat) : EccEnd :=
  match symbols with
  | 0 => .clean
  | 1 => .corrected
  | 2 => .detected
  | _ => match free % 3 with | 0 => .corrected | 1 => .detected | _ => .wrong

/-! ## Errors counted (R68) -/

def hourNs : Nat := 3600000000000
def correctedLimit : Nat := 1024
/-- the times of the corrections of the last hour, and the uncorrectable addresses with their times -/
def recentTimes (now : Nat) (l : List Nat) : List Nat := l.filter (fun t => decide (now < t + hourNs))
def recentBad (now : Nat) (l : List (Nat × Nat)) : List (Nat × Nat) := l.filter (fun x => decide (now < x.1 + hourNs))
/-- R68: a channel past its limits is marked, once, and the host told (R33) -/
def markChannel (s : State) (c : Nat) : State :=
  let n := (recentTimes s.time (mget [] s.hbm.corrected c)).length
  let u := (recentBad s.time (mget [] s.hbm.uncorrectable c)).length
  if s.hbm.removed.contains c || !(decide (n > correctedLimit) || decide (u ≥ 2)) then s
  else mqEvent { s with hbm := { s.hbm with removed := sput s.hbm.removed c } } [eventRecord 0xE5 c (n + u * 2 ^ 32)]
/-- a channel returns uncorrectable data for a sector -/
def noteBad (s : State) (sec : Nat) : State :=
  let c := channelAt s (sec * 64)
  let l := (s.time, sec) :: (recentBad s.time (mget [] s.hbm.uncorrectable c)).filter (fun x => x.2 != sec)
  markChannel { s with hbm := { s.hbm with uncorrectable := mset s.hbm.uncorrectable c l } } c
/-- a channel corrects n errors -/
def noteCorrected (s : State) (c n : Nat) : State :=
  let l := List.replicate n s.time ++ recentTimes s.time (mget [] s.hbm.corrected c)
  markChannel { s with hbm := { s.hbm with corrected := mset s.hbm.corrected c l } } c

/-! ## Reads at the homes -/

/-- what is due to be dumped (R59, R60) -/
def dumpDue (cause : Byte) (d : Nat) (engine : Byte) (s : State) : State :=
  { s with fw := { s.fw with dumpPending := true, dumpCause := cause, dumpDie := d, dumpEngine := engine } }
/-- HBM has returned a sector that cannot be corrected: counted, and device-fatal in the firmware reserve (R59, R68) -/
def noteReturned (s : State) (sec : Nat) : State :=
  let s := noteBad s sec
  if inReserve s (sec * 64) 64 && !s.fw.dumpPending then dumpDue 3 (dieOfPa (sec * 64)) 0 s else s
def noteRead (s : State) (sec : Nat) : State := if isHbm sec && (hbmRead s.mem sec).poison then noteReturned s sec else s
/-- the fills noted on the way are counted -/
def countBad (s : State) : State :=
  if s.mem.bad.isEmpty then s else s.mem.bad.foldl noteReturned (setMem s { s.mem with bad := [] })
/-- one of the sectors is poisoned at its home (R67) -/
def secsPoisoned (s : State) (secs : List Nat) : Bool := secs.any (fun sec => (homeView s.mem sec).poison)
/-- sectors read for an agent outside the device: those that come from HBM are looked at -/
def noteReads (s : State) (secs : List Nat) : State := secs.foldl (fun s sec => if missesL2 s sec then noteRead s sec else s) s
/-- a sector read at its home, in L2 from then on; one fetched for it is charged and counted (R68, R191) -/
def readHome (s : State) (ctx : BitVec 12) (sec : Nat) : State :=
  if missesL2 s sec then setMem (chargeSec s ctx sec) (homeFill (noteFill s.mem sec) sec) else s
/-- A sector read at its home itself: one of the host's or of a peer's is read there, whatever L2 holds of it (R102, R121). -/
def serveHome (s : State) (ctx : BitVec 12) (sec : Nat) : State :=
  if isHbm sec then readHome s ctx sec else setMem (chargeSec s ctx sec) (l2Drop s.mem sec)
/-- a sector of an MS page read at the base die; the home slice may hold it from an access under other attributes -/
def readBase (s : State) (ctx : BitVec 12) (sec : Nat) : State :=
  setMem (chargeSec s ctx sec) (noteFill s.mem sec)

/-! ## The offer (R41) -/

def coresInPlacement (s : State) : List Nat := (List.range 1024).filter (fun k => (core s k).inPlacement)
def portsUp (s : State) : List Nat := (List.range 8).filter (fun p => (mget portReset s.links.ports p).state == .up)
def bitmapWord (l : List Nat) (k : Nat) : W128 := BitVec.ofNat 128 ((l.filter (fun q => q / 128 == k)).foldl (fun n q => n ||| 2 ^ (q % 128)) 0)
/-- word 0: the versions -/
def identityWord : W128 :=
  BitVec.ofNat 128 (1 + (List.range 6).foldl (fun n i => n + (Config.engineVersion i).toNat * 2 ^ (16 + 8 * i)) 0)
def optionalWord : W128 := 0x3FFF
def formatWord : W128 := 0xF
def offerWords (s : State) : List W128 :=
  let ch := presentChannels s 0 ++ presentChannels s 1
  let cores := coresInPlacement s
  [identityWord, optionalWord, formatWord,
   BitVec.ofNat 128 ((portsUp s).length + 8 * 2 ^ 8 + ch.length * 2 ^ 16 + cores.length * 2 ^ 32)] ++
  (List.range 8).map (bitmapWord ch) ++ (List.range 8).map (bitmapWord cores)
/-- R37: the start has reached NEGOTIATE; what the offer leaves out is back at the next start (R211) -/
def enterNegotiate (s : State) : State :=
  raiseState (setState { s with host := { s.host with offer := offerWords s }
                                cores := s.cores.map (fun x => (x.1, { x.2 with leftOut := !x.2.inPlacement })) } .negotiate)

end Sys2Proof.Machine
end

