-- ==== Sys2Proof/Machine/CoreMem.lean ====
section
/-! DEFINITION. Loads, stores and atomics of a core by translated address: L1, the homes and the base dies (R67, R102-R115,
R123). -/
namespace Sys2Proof.Machine

def l1View (y : L1Sector) : L2Sector := { data := y.data, dirty := false, tags := y.tags, poison := y.poison }
/-- the access needs no home: its sector stands in L1 -/
def inL1 (s : State) (k : Nat) (x : Xlat) : Bool := !x.ms && !x.so && (mfind (core s k).l1 (x.pa / 64)).isSome
/-- what a request of the core waits for at a home: its earlier RC stores to that home, unless the page is UN (R112) -/
def orderHome (s : State) (k : Nat) (x : Xlat) : State := if x.un || x.so || x.ms then s else drainHome s k (homePlace (x.pa / 64))
/-- the sector that holds an address, as a load of this core sees it; RC and UN lines enter L1 -/
def loadSector (s : State) (k : Nat) (ctx : BitVec 12) (x : Xlat) : L2Sector × State :=
  let sec := x.pa / 64
  if x.ms then (homeView s.mem sec, readBase s ctx sec)
  else if x.so then (let s := serveHome s ctx sec; (homeView s.mem sec, s))
  else match mfind (core s k).l1 sec with
    | some y => (l1View y, setCore s k { core s k with l1 := mset (core s k).l1 sec { y with ctxs := if y.ctxs.contains ctx then y.ctxs else ctx :: y.ctxs } })
    | none =>
      let s := wayFor (orderHome s k x) k sec
      let h := homeView s.mem sec
      let s := readHome s ctx sec
      (h, setCore s k { core s k with l1 := mset (core s k).l1 sec (l1Fill h ctx x.un) })

/-- n bytes stored within one sector. -/
structure SecStore where
  n : Nat
  v : Nat
  /-- the tag that the slots touched take (R291) -/
  tag : Bool
  /-- a stream store, which clears the poison of a sector it writes whole (R67) -/
  strm : Bool
  deriving DecidableEq, Repr, Inhabited
/-- the bytes of a sector at its home that stream stores have written, this one included -/
def homeStreamed (m : Mem) (x : Xlat) (o : SecStore) : BitVec 64 :=
  if o.strm then mget 0 m.streamed (x.pa / 64) ||| secMask (x.pa % 64) o.n else 0
/-- what stream stores have written of a poisoned sector is kept until they have written all of it -/
def keepStreamed (x : Xlat) (o : SecStore) (m : Mem) : Mem :=
  let sec := x.pa / 64
  let w := homeStreamed m x o
  { m with streamed := if (homeView m sec).poison && w != 0 && w != BitVec.allOnes 64 then mset m.streamed sec w else
      if o.strm then mdel m.streamed sec else m.streamed }
/-- a store that is performed at once: at the base die, or at the home -/
def storeThrough (s : State) (k : Nat) (ctx : BitVec 12) (x : Xlat) (o : SecStore) : State :=
  let sec := x.pa / 64
  let i := x.pa % 64
  let data := putBytes 0 i o.n o.v
  let slots := slotsOf i o.n
  let tags := if o.tag then slots else 0
  let whole := homeStreamed s.mem x o == BitVec.allOnes 64
  let s := setMem s (keepStreamed x o s.mem)
  if x.ms then setMem (chargeSec s ctx sec) (baseMergeW s.mem sec data (secMask i o.n) tags slots whole)
  else performAt (chargeWrite s ctx sec) (some k) ctx sec data (secMask i o.n) tags slots whole
/-- a store into a sector of L1 -/
def storeL1 (y : L1Sector) (x : Xlat) (o : SecStore) (ord : Nat) : L1Sector :=
  let i := x.pa % 64
  let slots := slotsOf i o.n
  let str := y.streamed ||| (if o.strm then secMask i o.n else 0)
  { y with data := mergeBytes y.data (putBytes 0 i o.n o.v) (secMask i o.n), mask := y.mask ||| secMask i o.n
           tags := (y.tags &&& ~~~slots) ||| (if o.tag then slots else 0), tagged := y.tagged ||| slots
           streamed := str, poison := y.poison && str != BitVec.allOnes 64
           ord := if isDirty y then y.ord else ord, un := y.un && x.un }
/-- n bytes stored within one sector -/
def storeSector (s : State) (k : Nat) (ctx : BitVec 12) (x : Xlat) (o : SecStore) : State :=
  if x.ms || x.so then storeThrough s k ctx x o
  else
    let s := (loadSector s k ctx x).2
    let sec := x.pa / 64
    match mfind (core s k).l1 sec with
    | some y =>
      let c := core s k
      setCore s k { c with l1 := mset c.l1 sec (storeL1 y x o c.nextOrd), nextOrd := c.nextOrd + 1 }
    | none => s

/-- the core's own copy after a write of its own at the home: brought up to date, its masks lost for those bytes -/
def ownCopy (s : State) (k : Nat) (x : Xlat) (n v : Nat) : State :=
  let sec := x.pa / 64
  let i := x.pa % 64
  let slots := slotsOf i n
  match mfind (core s k).l1 sec with
  | some y =>
    let mask := y.mask &&& ~~~secMask i n
    -- a slot that keeps bytes to be written keeps its mark: they clear its tag
    let kept := BitVec.ofBool (mask.extractLsb' 32 32 != 0) ++ BitVec.ofBool (mask.extractLsb' 0 32 != 0)
    let y' := { y with data := mergeBytes y.data (putBytes 0 i n v) (secMask i n), mask := mask
                       tags := y.tags &&& ~~~slots, tagged := y.tagged &&& ~~~(slots &&& ~~~kept), streamed := y.streamed &&& ~~~secMask i n }
    setCore s k { core s k with l1 := mset (core s k).l1 sec y' }
  | none => s
/-- n bytes written at the place of R123 or R105, behind the core's earlier stores to that home (R112) -/
def mergeHome (s : State) (k : Nat) (ctx : BitVec 12) (x : Xlat) (n v : Nat) : State :=
  storeThrough (orderHome s k x) k ctx x { n := n, v := v, tag := false, strm := false }
/-- a store performed at the home at once (STR, R105) -/
def storeHome (s : State) (k : Nat) (ctx : BitVec 12) (x : Xlat) (n v : Nat) : State := ownCopy (mergeHome s k ctx x n v) k x n v

/-- R115: before an atomic the core's dirty sectors of the line are written back; its copy of the sector is dropped, so
that it reads the atomic's result -/
def beforeAtomic (s : State) (k : Nat) (sec : Nat) : State :=
  l1Drop (writeBacks s k (lineSectors (sec / 4))) k sec
def atHome (s : State) (x : Xlat) : L2Sector := homeView s.mem (x.pa / 64)
/-- a read at the place of an atomic or an LDA, behind the core's earlier stores to that home (R112) -/
def reachHome (s : State) (k : Nat) (ctx : BitVec 12) (x : Xlat) : State :=
  let s := orderHome s k x
  if x.ms then readBase s ctx (x.pa / 64) else serveHome s ctx (x.pa / 64)

end Sys2Proof.Machine
end

