-- ==== Sys2Proof/Machine/StockHome.lean ====
section
/-! DEFINITION. Stock counters at their homes (R140, R151, R152): returns that arrive, and the takes and gives of the agents
that hold no allowance (R147, R148). A counter is named die * 4096 + index. -/
namespace Sys2Proof.Machine

def counterReset : Counter :=
  { owner := none, b := 0, rf := 0, h := 0, presence := [], overfill := false, queue := [], recalling := none, grants := [], lastProbe := 0 }
def counterOf (s : State) (d k : Nat) : Counter := mget counterReset (die s d).counters k
def setCounter (s : State) (d k : Nat) (c : Counter) : State := setDie s d { die s d with counters := mset (die s d).counters k c }
def ctrOf (s : State) (k : Nat) : Counter := counterOf s (k / 4096) (k % 4096)
def setCtr (s : State) (k : Nat) (c : Counter) : State := setCounter s (k / 4096) (k % 4096) c
def updCtr (s : State) (k : Nat) (f : Counter → Counter) : State := setCtr s k (f (ctrOf s k))

/-! ## Returns (R151) -/

/-- a return is added to H as it arrives -/
def applyReturn (s : State) (r : StockReturn) : State :=
  updCtr s r.ctr (fun c =>
    { c with h := c.h + r.amount
             overfill := c.overfill || r.overfill
             presence := if r.clears then sdel c.presence r.core else c.presence
             recalling := if r.recalling then c.recalling.map (fun q => { q with waiting := sdel q.waiting r.core }) else c.recalling })
def setReturns (s : State) (d : Nat) (l : List StockReturn) : State := setDie s d { die s d with returns := l }
def postReturn (s : State) (r : StockReturn) : State :=
  let d := r.ctr / 4096
  setReturns s d ((die s d).returns ++ [r])
/-- the returns the test picks arrive, in order -/
def arrive (s : State) (d : Nat) (p : StockReturn → Bool) : State :=
  let l := (die s d).returns
  (l.filter p).foldl applyReturn (setReturns s d (l.filter (fun r => !p r)))
/-- the allowances of a counter on a core go home, and the core is present no more (R152) -/
def emptyAllow (n : Nat) (c : CoreSt) : CoreSt :=
  { c with allow := c.allow.map (fun e => if e.ctr == n then { e with a := 0, present := false } else e) }
def allowSum (n : Nat) (c : CoreSt) : Nat := (c.allow.filter (·.ctr == n)).foldl (fun x e => x + e.a) 0

/-! ## Agents without an allowance (R148) -/

/-- the names of the agents: a Kiln, a die's first-touch unit, and a service core's walker (its core number) -/
def kilnAgent (d : Nat) : Nat := 0x2000 + d
def touchAgent (d : Nat) : Nat := 0x2010 + d
def walkAgent (cl : Nat) : Nat := 1024 + cl
/-- How an agent's uncached take of one unit goes. -/
inductive AgentEnd where
  | got (s : State)
  | empty (s : State)
  | wait (s : State)
/-- every unit that is on its way home or in an allowance stands at the home: a recall with nothing ahead of it (R152) -/
def recallNow (s : State) (n : Nat) : State :=
  let s := arrive s (n / 4096) (fun r => r.ctr == n)
  (ctrOf s n).presence.foldl (fun s i =>
    let a := allowSum n (core s i)
    let s := setCore s i (emptyAllow n (core s i))
    updCtr s n (fun c => { c with h := c.h + a, presence := sdel c.presence i })) s
/-- The take: one granted at its turn in the queue before; at once when nothing is ahead of it; else it queues (R151). -/
def agentTake (s : State) (a n : Nat) : AgentEnd :=
  let c := ctrOf s n
  match c.grants.find? (·.1 == a) with
  | some g =>
    let s := setCtr s n { c with grants := c.grants.erase g }
    if g.2 then .got s else .empty s
  | none =>
    if !c.queue.isEmpty || c.recalling.isSome then
      .wait (if c.queue.any (fun r => r.op == .agent && r.core == a) then s
        else setCtr s n { c with queue := c.queue ++ [{ op := .agent, core := a, ctx := 0, req := 0 }] })
    else
      let s := arrive s (n / 4096) (fun r => r.ctr == n)
      let s := if (ctrOf s n).h = 0 then recallNow s n else s
      let c := ctrOf s n
      if c.h = 0 then .empty s else .got (setCtr s n { c with h := c.h - 1 })
def agentGive (s : State) (n : Nat) : State := updCtr s n (fun c => { c with h := c.h + 1 })
/-- units an agent was granted and has no use for go back -/
def dropGrants (a : Nat) (s : State) : State :=
  let give (c : Counter) : Counter :=
    { c with h := c.h + (c.grants.filter (fun g => g.1 == a && g.2)).length, grants := c.grants.filter (fun g => g.1 != a) }
  { s with dies := s.dies.map (fun d => (d.1, { d.2 with counters := d.2.counters.map (fun c => (c.1, give c.2)) })) }
/-- a counter of s with the agents' requests that w has queued, and without the refusals that w has heard -/
def keepRequest (c w : Counter) : Counter :=
  { c with queue := c.queue ++ w.queue.filter (fun r => r.op == .agent && !c.queue.contains r)
           grants := c.grants.filter (fun g => g.2 || w.grants.contains g) }
/-- the requests of agents that stand in the queues of w are put in those of s -/
def keepRequests (s w : State) : State :=
  w.dies.foldl (fun s d => d.2.counters.foldl (fun s c =>
    let x := counterOf s d.1 c.1
    if keepRequest x c.2 = x then s else setCounter s d.1 c.1 (keepRequest x c.2)) s) s

end Sys2Proof.Machine
end

