-- ==== Sys2Proof/Machine/EngMem.lean ====
section
/-! DEFINITION. Memory as the engines above the homes reach it (R118), the first-touch pools (R92-R94), and the frames of
memory that are zeroed. -/
namespace Sys2Proof.Machine

/-! ## The first-touch pools (R92, R93) -/

/-- the pool's counter: the last of the die's (log 19) -/
def poolCounter : Nat := 4095
def poolOf (d : Nat) : Nat := d * 4096 + poolCounter
/-- How a frame of a pool is had: one of its ring with a unit of its counter, or not, or the counter's turn is awaited. -/
inductive FrameEnd where
  | got (frame : Nat) (s : State)
  | empty (s : State)
  | wait (s : State)
def poolTake (s : State) (a d : Nat) : FrameEnd :=
  match agentTake s a (poolOf d) with
  | .wait s => .wait s
  | .empty s => .empty s
  | .got s => match (die s d).ring with
    | f :: r => .got f (setDie s d { die s d with ring := r })
    | [] => .empty (agentGive s (poolOf d))
/-- push a frame and give one unit -/
def poolGive (s : State) (d f : Nat) : State := agentGive (setDie s d { die s d with ring := (die s d).ring ++ [f] }) (poolOf d)

/-- drop every cached sector with lo ≤ sector < hi, dirty ones included (INVAL) -/
def dropSectors (s : State) (lo hi : Nat) : State :=
  let out (n : Nat) : Bool := decide (n < lo ∨ hi ≤ n)
  let s := setMem s { s.mem with l2 := s.mem.l2.filter (fun x => out x.1) }
  { s with cores := s.cores.map (fun x => (x.1, { x.2 with l1 := x.2.l1.filter (fun y => out y.1) })) }
/-- zero [pa, pa + n) in memory itself -/
def zeroMem (m : Mem) (pa n : Nat) : Mem :=
  { m with cells := m.cells.filter (fun x => decide (x.1 < pa ∨ pa + n ≤ x.1))
           tags := m.tags.filter (fun x => decide (x < pa / 32 ∨ (pa + n) / 32 ≤ x))
           poison := m.poison.filter (fun x => decide (x < pa / 64 ∨ (pa + n) / 64 ≤ x))
           fresh := if m.stale.isSome then (pa / 64, (pa + n) / 64) :: m.fresh else m.fresh }
/-- R93: every cached line of a frame dropped, and the frame zeroed -/
def zeroFrame (s : State) (f : Nat) : State :=
  let s := dropSectors s (f / 64) (f / 64 + 1024)
  setMem s { zeroMem s.mem f 65536 with hostCopies := s.mem.hostCopies.filter (fun l => decide (l < f / 256 ∨ f / 256 + 256 ≤ l)) }
/-- R93: a frame readied by Chrogon-S: zeroed, then given to the pool of its die -/
def poolRefill (s : State) (f : Nat) : State := poolGive (zeroFrame s f) (dieOfPa f) f

/-- an 8-byte write at the home -/
def homeWriteQword (m : Mem) (pa : Nat) (v : W64) : Mem :=
  homeMerge m (pa / 64) (putBytes 0 (pa % 64) 8 v.toNat) (secMask (pa % 64) 8) 0 (slotsOf (pa % 64) 8)
def hasFirstTouch (s : State) : Bool := s.host.on1.getLsbD 8
/-- How a first touch goes: the entry to install, or none where the page is mapped no more; an empty pool; or the pool's counter is
awaited. -/
inductive TouchEnd where
  | got (e : Option TlbEntry) (s : State)
  | empty (s : State)
  | wait (s : State)
/-- the entry of a leaf that a first touch finds in the place of the old one; none where it maps nothing (R87) -/
def seenEntry (e : TlbEntry) (seen : W64) : Option TlbEntry :=
  if leafV seen && leafOk 0 (leafT seen) then some { e with va := e.va / pageSize seen * pageSize seen, leaf := seen } else none
/-- R92: the compare-and-swap that puts a frame into the leaf; another unit's frame stands, and this one goes to the pool -/
def fillLeaf (s : State) (d : Nat) (e : TlbEntry) (f : Nat) : Option TlbEntry × State :=
  let new := leafSetFrame (e.leaf &&& ~~~(1#64 <<< 14)) f
  let seen := homeQword s.mem e.leafPa
  if seen = e.leaf then (some { e with leaf := new }, setMem s (homeWriteQword s.mem e.leafPa new))
  else (seenEntry e seen, poolGive s d f)
/-- R92: the first-touch unit's service of a zero-fill fault -/
def firstTouch (s : State) (cl : Nat) (e : TlbEntry) : TouchEnd :=
  let d := dieOfCluster cl
  match poolTake s (touchAgent d) d with
  | .empty s => .empty s
  | .wait s => .wait s
  | .got f s => let r := fillLeaf s d e f; .got r.1 r.2
/-- the entry a first touch came to, in the cluster's TLB -/
def installTouch (s : State) (cl : Nat) : Option TlbEntry → State
  | some e => installCluster s cl e
  | none => s

/-! ## Engine accesses by virtual address -/

/-- Why an engine's access does not go through now. -/
inductive EngStop where
  | wait (s : State)
  /-- no translation, or not permitted -/
  | bad
  | rd
  | peer

/-- what an engine's translation comes to; a page without a frame waits -/
def engUse (cl : Nat) (ctx : BitVec 12) (va : Nat) : EngTr → Except EngStop (Xlat × State)
  | .hit x _ s => if x.rd then .error .rd else if portWaits s x then .error (.wait s) else .ok (x, s)
  | .anon _ s => .error (.wait s)
  | .wait s => .error (.wait s)
  | .dup e s =>
    .error (.wait (setCluster s cl { cluster s cl with dupWrites := addTouch (cluster s cl).dupWrites ⟨noCore, ctx, pageOf va, e.leaf, e.leafPa⟩ }))
  | .fault c => .error (if c == tPeer then .peer else .bad)
/-- the page that holds an address, for an engine of a cluster; after a first touch the access is retried (R92) -/
def engPage (s : State) (cl : Nat) (ctx : BitVec 12) (va : Nat) (need : Need) : Except EngStop (Xlat × State) :=
  let miss (s : State) : Except EngStop (Xlat × State) := .error (.wait (sendMiss s cl none ctx va .zeroFill))
  match translateEng s cl ctx va need with
  | .anon e s =>
    if !hasFirstTouch s then miss s
    else match firstTouch s cl e with
      | .got e' s => engUse cl ctx va (translateEng (installTouch s cl e') cl ctx va need)
      | .wait s => .error (.wait s)
      | .empty s => miss s
  | r => engUse cl ctx va r

/-- a sector as an engine reads it -/
def engSector (s : State) (cl : Nat) (ctx : BitVec 12) (va : Nat) : Except EngStop (L2Sector × Xlat × State) := do
  let (x, s) ← engPage s cl ctx va .load
  if byteHeld s ctx x false then .error (.wait s)
  else
    let sec := x.pa / 64
    let s := if x.ms then readBase s ctx sec else if x.so then serveHome s ctx sec else readHome s ctx sec
    .ok (homeView s.mem sec, x, s)
/-- Bytes read, and which of them stand in a poisoned sector. -/
structure EngData where
  bytes : List Byte
  poison : List Bool
  deriving DecidableEq, Repr, Inhabited

/-- read n bytes; `fuel` sectors at most -/
def engReadF (s : State) (cl : Nat) (ctx : BitVec 12) : Nat → Nat → Nat → Except EngStop (EngData × State)
  | 0, _, _ => .ok (⟨[], []⟩, s)
  | fuel + 1, va, n =>
    if n = 0 then .ok (⟨[], []⟩, s)
    else do
      let k := min n (64 - va % 64)
      let (x, _, s) ← engSector s cl ctx va
      let (r, s) ← engReadF s cl ctx fuel (va + k) (n - k)
      .ok (⟨toBytes k (secBytes x.data (va % 64) k) ++ r.bytes, List.replicate k x.poison ++ r.poison⟩, s)
def sectorsIn (n : Nat) : Nat := n / 64 + 2
def engRead (s : State) (cl : Nat) (ctx : BitVec 12) (va n : Nat) : Except EngStop (EngData × State) :=
  engReadF s cl ctx (sectorsIn n) va n
/-- a capability slot as an engine reads it -/
def engCap (s : State) (cl : Nat) (ctx : BitVec 12) (va : Nat) : Except EngStop (CReg × State) := do
  let (x, y, s) ← engSector s cl ctx va
  .ok (⟨BitVec.ofNat 192 (secBytes x.data (va % 64 / 32 * 32) 24), y.ct && x.tags.getLsbD (va % 64 / 32)⟩, s)
/-- n bytes as a number -/
def engNum (s : State) (cl : Nat) (ctx : BitVec 12) (va n : Nat) : Except EngStop (Nat × State) := do
  let (r, s) ← engRead s cl ctx va n
  .ok (leNat r.bytes, s)

/-- masked bytes written at the home of a sector; `tags` for the slots touched; a whole sector clears its poison (R67) -/
def engPut (s : State) (ctx : BitVec 12) (x : Xlat) (data : BitVec 512) (mask : BitVec 64) (tags slots : BitVec 2) : State :=
  let sec := x.pa / 64
  if x.ms then setMem (chargeSec s ctx sec) (baseMerge s.mem sec data mask tags slots)
  else performAt (chargeWrite s ctx sec) none ctx sec data mask tags slots (mask == BitVec.allOnes 64)
/-- a sector poisoned, or not, at its home; a host copy of its line is invalidated (R120) -/
def engPoison (s : State) (x : Xlat) (on : Bool) : State :=
  let sec := x.pa / 64
  let m := { s.mem with hostCopies := sdel s.mem.hostCopies (sec / 4), streamed := mdel s.mem.streamed sec }
  if x.ms || !isHbm sec then
    let m := ripen (l2Evict m sec) sec
    setMem s { m with poison := sset m.poison sec on }
  else setMem s { m with l2 := mset m.l2 sec { homeView m sec with poison := on, dirty := true } }
/-- the page an engine's write goes to; held back by a spent byte budget (R191) -/
def engStorePage (s : State) (cl : Nat) (ctx : BitVec 12) (va : Nat) : Except EngStop (Xlat × State) := do
  let (x, s) ← engPage s cl ctx va .store
  if byteHeld s ctx x true then .error (.wait s) else .ok (x, s)
def engWriteF (s : State) (cl : Nat) (ctx : BitVec 12) : Nat → Nat → List Byte → Except EngStop State
  | 0, _, _ => .ok s
  | fuel + 1, va, bs =>
    if bs.isEmpty then .ok s
    else do
      let k := min bs.length (64 - va % 64)
      let (x, s) ← engStorePage s cl ctx va
      let s := engPut s ctx x (putBytes 0 (va % 64) k (leNat (bs.take k))) (secMask (va % 64) k) 0 (slotsOf (va % 64) k)
      engWriteF s cl ctx fuel (va + k) (bs.drop k)
/-- write bytes at their homes; the slots touched lose their tags -/
def engWrite (s : State) (cl : Nat) (ctx : BitVec 12) (va : Nat) (bs : List Byte) : Except EngStop State :=
  engWriteF s cl ctx (sectorsIn bs.length) va bs
def engPutNum (s : State) (cl : Nat) (ctx : BitVec 12) (va n v : Nat) : Except EngStop State :=
  engWrite s cl ctx va (toBytes n v)
/-- write a capability slot with its tag; a page without CT cannot take a tagged one -/
def engPutCap (s : State) (cl : Nat) (ctx : BitVec 12) (va : Nat) (c : CReg) : Except EngStop State := do
  let (x, s) ← engStorePage s cl ctx va
  let slots := slotsOf (va % 64) 32
  if c.tag && !x.ct then .error .bad
  else .ok (engPut s ctx x (putBytes 0 (va % 64) 32 c.bits.toNat) (secMask (va % 64) 32) (if c.tag then slots else 0) slots)
/-- poison the sectors that hold the marked bytes of [va, …) -/
def engPoisonF (s : State) (cl : Nat) (ctx : BitVec 12) : Nat → Nat → List Bool → Except EngStop State
  | 0, _, _ => .ok s
  | fuel + 1, va, bs =>
    if bs.isEmpty then .ok s
    else do
      let k := min bs.length (64 - va % 64)
      let (x, s) ← engPage s cl ctx va .store
      engPoisonF (if (bs.take k).any id then engPoison s x true else s) cl ctx fuel (va + k) (bs.drop k)
def engPoisonBytes (s : State) (cl : Nat) (ctx : BitVec 12) (va : Nat) (bs : List Bool) : Except EngStop State :=
  engPoisonF s cl ctx (sectorsIn bs.length) va bs

end Sys2Proof.Machine
end

