-- ==== Sys2Proof/Machine/KilnMem.lean ====
section
/-! DEFINITION. What the Kiln and the Scribe keep in memory (R212-R226, R248, R249): descriptors, position tables, pools,
groups, version pages and validity cells, read and written at their homes. -/
namespace Sys2Proof.Machine

/-! ## Commands of engines as steps that change nothing when they are refused -/

/-- Why an engine command does not end done: a status, a wait, or a device-fatal error (R59). -/
inductive KStop where
  | status (n : Nat)
  | wait (s : State)
  | fatal

/-- One engine command: it reads and changes the state, or ends with a status and has changed nothing (R240). -/
abbrev KM (α : Type) := StateT State (Except KStop) α

def kEnd {α : Type} (n : Nat) : KM α := fun _ => .error (.status n)
def kWait {α : Type} : KM α := fun s => .error (.wait s)
def kCheck (ok : Bool) (n : Nat) : KM Unit := if ok then pure () else kEnd n
/-- an engine access; one that cannot be translated ends with `bad`, an RD page with `rd`, a lost peer with `peer` -/
def kTry {α : Type} (bad rd peer : Nat) (f : State → Except EngStop (α × State)) : KM α := fun s =>
  match f s with
  | .ok r => .ok r
  | .error (.wait s) => .error (.wait s)
  | .error .bad => .error (.status bad)
  | .error .rd => .error (.status rd)
  | .error .peer => .error (.status peer)
/-- What a command that waits leaves behind: the misses, touches and collapses its accesses ask for, and its requests at stock
counters (R88, R92, R96, R151). -/
def keepAsked (s w : State) : State :=
  let s := w.clusters.foldl (fun s x =>
    let c := cluster s x.1
    if x.2.misses == c.misses && x.2.touches == c.touches && x.2.dupWrites == c.dupWrites then s
    else setCluster s x.1 { c with misses := x.2.misses, touches := x.2.touches, dupWrites := x.2.dupWrites }) s
  keepRequests s w
/-- the list of results of a step for each element -/
def kEach {α β : Type} (f : α → KM β) : List α → KM (List β)
  | [] => pure []
  | a :: t => do let b ← f a; let r ← kEach f t; pure (b :: r)
def kFor {α : Type} (f : α → KM Unit) : List α → KM Unit
  | [] => pure ()
  | a :: t => do f a; kFor f t

/-! ## Accesses for a sequence: its home die's cluster 0 and its context -/

def sBad : Nat := 0x5C
/-- why an access fails, until the command's end says it in its engine's statuses -/
def sNoPage : Nat := 0x101
def sRdPage : Nat := 0x102
def sLostPeer : Nat := 0x103
/-- the Kiln's status for a failed access is one (R240); a copy engine's are the ones of R458, and R240's for poisoned
control data (log 62) -/
def accessStatus (copy : Bool) (n : Nat) : Nat :=
  if n = sNoPage then (if copy then 0x12 else sBad)
  else if n = sRdPage then (if copy then 0x10 else sBad)
  else if n = sLostPeer then (if copy then 0x13 else sBad)
  else n
def seqCl (q : Seq) : Nat := q.die * 32
def kLift {α : Type} (f : State → Except EngStop (α × State)) : KM α := kTry sNoPage sRdPage sLostPeer f
/-- operand or element data, with its poison -/
def kData (q : Seq) (va n : Nat) : KM EngData := kLift (fun s => engRead s (seqCl q) q.ctx va n)
/-- control data: poison ends the command (R240) -/
def kBytes (q : Seq) (va n : Nat) : KM (List Byte) := do
  let r ← kData q va n
  kCheck (!r.poison.any id) sBad
  pure r.bytes
def kNum (q : Seq) (va n : Nat) : KM Nat := do pure (leNat (← kBytes q va n))
/-- a capability slot of control data -/
def kCap (q : Seq) (va : Nat) : KM CReg := do
  let (x, ct) ← kLift (fun s => match engSector s (seqCl q) q.ctx va with | .ok (x, y, s) => .ok ((x, y.ct), s) | .error e => .error e)
  kCheck (!x.poison) sBad
  pure ⟨BitVec.ofNat 192 (secBytes x.data (va % 64 / 32 * 32) 24), ct && x.tags.getLsbD (va % 64 / 32)⟩
def kUnit (f : State → Except EngStop State) : KM Unit :=
  kLift (fun s => match f s with | .ok s => .ok ((), s) | .error e => .error e)
/-- element data written -/
def kRaw (q : Seq) (va : Nat) (bs : List Byte) : KM Unit := kUnit (fun s => engWrite s (seqCl q) q.ctx va bs)
/-- a sector of control data that is poisoned ends the command, though it is only written (R240) -/
def kClean (q : Seq) (va : Nat) : KM Unit := do
  let x ← kLift (fun s => engPage s (seqCl q) q.ctx va .store)
  let s ← get
  kCheck (!(homeView s.mem (x.pa / 64)).poison) sBad
/-- control data written -/
def kWrite (q : Seq) (va : Nat) (bs : List Byte) : KM Unit := do
  kFor (fun i => kClean q ((va / 64 + i) * 64)) (List.range (if bs.isEmpty then 0 else (va + bs.length - 1) / 64 + 1 - va / 64))
  kRaw q va bs
def kPut (q : Seq) (va n v : Nat) : KM Unit := kWrite q va (toBytes n v)
def kPutCap (q : Seq) (va : Nat) (c : CReg) : KM Unit := kUnit (fun s => engPutCap s (seqCl q) q.ctx va c)
def kPoison (q : Seq) (va : Nat) (bs : List Bool) : KM Unit := kUnit (fun s => engPoisonBytes s (seqCl q) q.ctx va bs)

/-! ## The descriptor (R212) and the model (R213) -/

structure Desc where
  depth : Nat
  nlayer : Nat
  nhead : Nat
  logdh : Nat
  logbt : Nat
  logst : Nat
  rope : Nat
  length : Nat
  gen : BitVec 32
  settled : BitVec 32
  model : CReg
  posroot : CReg
  pool : CReg
  dirty : CReg
  journal : CReg
  rng : CReg
  parent : CReg
  deriving DecidableEq, Repr, Inhabited

def Desc.dh (d : Desc) : Nat := 2 ^ d.logdh
def Desc.bt (d : Desc) : Nat := 2 ^ d.logbt
def Desc.st (d : Desc) : Nat := 2 ^ d.logst
def curOf (c : CReg) : Nat := (capCursor c.bits).toNat
def byteAt (bs : List Byte) (i : Nat) : Nat := ((bs.drop i).headD 0).toNat
def numAt (bs : List Byte) (i n : Nat) : Nat := leNat ((bs.drop i).take n)

/-- the fields of a descriptor in range (R212) -/
def descOk (magic version : Nat) (d : Desc) : Bool :=
  magic == 0x5345514B && version == 1 && decide (d.depth ≤ 4) && decide (1 ≤ d.nlayer ∧ d.nlayer ≤ 256) &&
  decide (1 ≤ d.nhead ∧ d.nhead ≤ 64) && decide (6 ≤ d.logdh ∧ d.logdh ≤ 8) && decide (4 ≤ d.logbt ∧ d.logbt ≤ 7) &&
  decide (d.logst ≤ 6) &&
  (match unpackF fp32 d.rope with
   | .num n m e => !n && decide (m ≠ 0) && decide (sumAt (if e ≤ 0 then e else 0) [⟨false, m, e⟩, ⟨true, 1, 0⟩] > 0)
   | _ => false) &&
  decide (d.bt * d.nhead * d.dh * 4 ≤ 65536)
/-- a capability of a descriptor: tagged, unsealed, of kind 0, with its permissions (R212, R215) -/
def descCap (c : CReg) (p : BitVec 7) : Bool := c.tag && capKind c.bits == 0 && capSeal c.bits == 0 && hasPerm c.bits p
/-- RNGCTR spans its 16 bytes; JOURNAL is there, or an untagged zero where no journal is open -/
def descCaps (jopen : Bool) (d : Desc) : Bool :=
  descCap d.model permR && [d.posroot, d.pool, d.dirty, d.rng].all (fun c => descCap c (permR ||| permW)) &&
  decide (capBase d.rng.bits ≤ curOf d.rng ∧ curOf d.rng + 16 ≤ capLimit d.rng.bits) &&
  (descCap d.journal (permR ||| permW) || (!jopen && !d.journal.tag && d.journal.bits == 0))
/-- A descriptor read at its home; a field out of range ends the command with 0x50 (R215). -/
def readDesc (q : Seq) : KM Desc := do
  let b ← kBytes q q.desc 32
  let model ← kCap q (q.desc + 0x20)
  let posroot ← kCap q (q.desc + 0x40)
  let pool ← kCap q (q.desc + 0x60)
  let dirty ← kCap q (q.desc + 0x80)
  let journal ← kCap q (q.desc + 0xA0)
  let rng ← kCap q (q.desc + 0xC0)
  let parent ← kCap q (q.desc + 0xE0)
  let d : Desc :=
    { depth := byteAt b 5, nlayer := numAt b 6 2, nhead := byteAt b 8, logdh := byteAt b 9, logbt := byteAt b 10,
      logst := byteAt b 11, rope := numAt b 12 4, length := numAt b 16 4, gen := BitVec.ofNat 32 (numAt b 24 4),
      settled := BitVec.ofNat 32 (numAt b 28 4), model := model, posroot := posroot, pool := pool, dirty := dirty,
      journal := journal, rng := rng, parent := parent }
  kCheck (descOk (numAt b 0 4) (byteAt b 4) d && descCaps q.jopen d) 0x50
  pure d
def setLength (q : Seq) (n : Nat) : KM Unit := kPut q (q.desc + 0x10) 4 n
def setGen (q : Seq) (g : BitVec 32) : KM Unit := kPut q (q.desc + 0x18) 4 g.toNat
def setSettled (q : Seq) (g : BitVec 32) : KM Unit := kPut q (q.desc + 0x1C) 4 g.toNat

/-- A layer entry of the model (R213). -/
structure LayerEntry where
  kind : Nat
  tau : Nat
  lam : Nat
  rqueue : CReg
  deriving DecidableEq, Repr, Inhabited
def layerEntry (q : Seq) (d : Desc) (l : Nat) : KM LayerEntry := do
  let va := curOf d.model + 0x40 + 64 * l
  let b ← kBytes q va 32
  let c ← kCap q (va + 0x20)
  pure { kind := byteAt b 0, tau := numAt b 2 2, lam := numAt b 4 2, rqueue := c }
/-- the CAUSAL layers in order: a layer's rank is its place -/
def causalLayers (q : Seq) (d : Desc) : KM (List Nat) := do
  let ks ← kEach (fun l => do pure (l, (← kNum q (curOf d.model + 0x40 + 64 * l) 1))) (List.range (d.nlayer + 1))
  pure ((ks.filter (fun x => x.2 == 0)).map (·.1))
def rankOf (cs : List Nat) (l : Nat) : Option Nat := match cs.findIdx? (· == l) with | some i => some i | none => none

/-! ## The page pool (R216) -/

def poolBase (d : Desc) : Nat := capBase d.pool.bits
def pageVa (d : Desc) (i : Nat) : Nat := poolBase d + 65536 * i
def pageIndex (d : Desc) (va : Nat) : Nat := (va - poolBase d) / 65536
/-- R147, R148: an uncached take of one by the Kiln, which may act on counters of its die alone -/
def kTake (q : Seq) (ctr : Nat) : KM Unit := fun s =>
  if ctr / 4096 != q.die then .error (.status 0x5A)
  else match agentTake s (kilnAgent q.die) ctr with
    | .got s => .ok ((), s)
    | .empty _ => .error (.status 0x5A)      -- what the queue answered is dropped at the command's end
    | .wait s => .error (.wait s)
def kGive (q : Seq) (ctr : Nat) : KM Unit := fun s => .ok ((), if ctr / 4096 != q.die then s else agentGive s ctr)
def poolCtr (q : Seq) (d : Desc) : KM Nat := do
  let h ← kCap q (poolBase d)
  kCheck (h.tag && capKind h.bits == 5) 0x50
  pure (curOf h % 8192)
/-- take a page: STKTAKE, then pop the ring -/
def poolPop (q : Seq) (d : Desc) : KM Nat := do
  kTake q (← poolCtr q d)
  let np ← kNum q (poolBase d + 0x20) 4
  let hd ← kNum q (poolBase d + 0x24) 4
  kCheck (decide (np ≠ 0)) 0x50
  let i ← kNum q (poolBase d + 0x40 + 4 * (hd % np)) 4
  kCheck (decide ((64 + 4 * np + 65535) / 65536 ≤ i ∧ pageVa d i + 65536 ≤ capLimit d.pool.bits)) 0x50
  kPut q (poolBase d + 0x24) 4 ((hd + 1) % 2 ^ 32)
  pure i
/-- return a page: push the ring, then STKGIVE -/
def poolPush (q : Seq) (d : Desc) (i : Nat) : KM Unit := do
  let np ← kNum q (poolBase d + 0x20) 4
  let tl ← kNum q (poolBase d + 0x28) 4
  kCheck (decide (np ≠ 0)) 0x50
  kPut q (poolBase d + 0x40 + 4 * (tl % np)) 4 i
  kPut q (poolBase d + 0x28) 4 ((tl + 1) % 2 ^ 32)
  kGive q (← poolCtr q d)
def zeroPage (q : Seq) (d : Desc) (i : Nat) : KM Unit := kRaw q (pageVa d i) (List.replicate 65536 0)

/-! ## Groups and blocks (R218, R219) -/

structure Layer where
  addr : Nat
  seasoned : Bool
  mask : Nat
  amax : List Nat
  deriving DecidableEq, Repr, Inhabited
structure Group where
  ref : Nat
  owner : Nat
  nalloc : Nat
  closed : Bool
  pos : List Nat
  deriving DecidableEq, Repr, Inhabited

def numsOf (bs : List Byte) (w : Nat) : Nat → List Nat
  | 0 => []
  | n + 1 => leNat (bs.take w) :: numsOf (bs.drop w) w n
def readGroup (q : Seq) (d : Desc) (g : Nat) : KM Group := do
  let b ← kBytes q (pageVa d g) 16
  kCheck (decide (byteAt b 8 ≤ d.bt ∧ byteAt b 9 ≤ 1)) 0x50
  let p ← kBytes q (pageVa d g + 0x200) (4 * d.bt)
  pure { ref := numAt b 0 4, owner := numAt b 4 4, nalloc := byteAt b 8, closed := byteAt b 9 == 1, pos := numsOf p 4 d.bt }
def writeGroup (q : Seq) (d : Desc) (g : Nat) (x : Group) : KM Unit := do
  kWrite q (pageVa d g) (toBytes 4 x.ref ++ toBytes 4 x.owner ++ toBytes 1 x.nalloc ++ toBytes 1 (if x.closed then 1 else 0))
  kWrite q (pageVa d g + 0x200) (x.pos.flatMap (toBytes 4))
def recordVa (d : Desc) (g j : Nat) : Nat := pageVa d g + 0x400 + 512 * j
/-- AMAX words in a poisoned sector read as they stand (R480) -/
def readLayer (q : Seq) (d : Desc) (g j : Nat) : KM Layer := do
  let b ← kBytes q (recordVa d g j) 32
  kCheck (decide (byteAt b 8 ≤ 1)) 0x50
  let a ← kData q (recordVa d g j + 0x100) (4 * d.nhead)
  pure { addr := numAt b 0 8, seasoned := byteAt b 8 == 1, mask := numAt b 16 16, amax := numsOf a.bytes 4 d.nhead }
def writeLayer (q : Seq) (d : Desc) (g j : Nat) (x : Layer) : KM Unit := do
  kWrite q (recordVa d g j) (toBytes 8 x.addr ++ toBytes 1 (if x.seasoned then 1 else 0) ++ List.replicate 7 0 ++ toBytes 16 x.mask)
  kRaw q (recordVa d g j + 0x100) (x.amax.flatMap (toBytes 4))

/-! ## Position tables and views (R225, R232) -/

def runBytes (r : Run) : List Byte := toBytes 4 r.lstart ++ toBytes 4 r.len ++ toBytes 4 r.group ++ toBytes 1 r.slot ++ [0, 0, 0]
def runOf (bs : List Byte) : Run := { lstart := numAt bs 0 4, len := numAt bs 4 4, group := numAt bs 8 4, slot := byteAt bs 12 }
/-- a run's fields in range (R225) -/
def runOk (d : Desc) (r : Run) : Bool :=
  decide (1 ≤ r.len ∧ r.len ≤ d.bt ∧ r.slot + r.len ≤ d.bt ∧ pageVa d r.group + 65536 ≤ capLimit d.pool.bits)
/-- CAP, within its range and POSROOT's bounds (R225, R215) -/
def tableCap (q : Seq) (d : Desc) : KM Nat := do
  let cap ← kNum q (curOf d.posroot + 4) 4
  kCheck (decide (1 ≤ cap ∧ cap ≤ 2 ^ 20 ∧ capBase d.posroot.bits ≤ curOf d.posroot ∧
    curOf d.posroot + 64 + 16 * cap ≤ capLimit d.posroot.bits)) 0x50
  pure cap
def readRun (q : Seq) (d : Desc) (i : Nat) : KM Run := do
  let r := runOf (← kBytes q (curOf d.posroot + 0x40 + 16 * i) 16)
  kCheck (runOk d r) 0x50
  pure r
def readRuns (q : Seq) (d : Desc) : KM (List Run) := do
  let cap ← tableCap q d
  let n ← kNum q (curOf d.posroot) 4
  kCheck (decide (n ≤ cap)) 0x50
  kEach (readRun q d) (List.range n)
/-- a table that would pass CAP ends the command with 0x5B -/
def writeRuns (q : Seq) (d : Desc) (rs : List Run) : KM Unit := do
  let cap ← tableCap q d
  kCheck (decide (rs.length ≤ cap)) 0x5B
  kPut q (curOf d.posroot) 4 rs.length
  kFor (fun x => kWrite q (curOf d.posroot + 0x40 + 16 * x.2) (runBytes x.1)) rs.zipIdx

/-- A run of a view, and whether it stands in the sequence's own table. -/
structure VRun where
  run : Run
  own : Bool
  deriving DecidableEq, Repr, Inhabited
def clipRun (r : Run) (lo hi : Nat) : Option Run :=
  let a := max r.lstart lo
  let b := min (r.lstart + r.len) hi
  if a < b then some { lstart := a, len := b - a, group := r.group, slot := r.slot + (a - r.lstart) } else none
def clipView (v : List VRun) (lo hi : Nat) : List VRun := v.filterMap (fun x => (clipRun x.run lo hi).map (fun r => { x with run := r }))
/-- the parent's runs in the gaps of the own table -/
def fillGaps (par : List VRun) : List Run → Nat → Nat → List VRun
  | [], lo, hi => (clipView par lo hi).map (fun x => { x with own := false })
  | r :: t, lo, hi => (clipView par lo r.lstart).map (fun x => { x with own := false }) ++ [⟨r, true⟩] ++ fillGaps par t (r.lstart + r.len) hi
def seqOf (s : State) (id : BitVec 32) : Option Seq := s.work.seqs.find? (fun q => q.id == id && q.opn)
def viewF : Nat → Seq → Desc → KM (List VRun)
  | 0, _, _ => pure []
  | n + 1, q, d => do
    let own ← readRuns q d
    match q.parent, q.forkLen with
    | some p, some fl => do
      let s ← get
      match seqOf s p with
      | some pq => do
        let pd ← readDesc pq
        let pv ← viewF n pq pd
        pure (fillGaps (clipView pv 0 fl) own 0 fl)
      | none => pure (own.map (⟨·, true⟩))
    | _, _ => pure (own.map (⟨·, true⟩))
/-- the view of a sequence in order -/
def view (q : Seq) (d : Desc) : KM (List VRun) := viewF 5 q d
def viewAt (v : List VRun) (p : Nat) : Option VRun := v.find? (fun x => decide (x.run.lstart ≤ p ∧ p < x.run.lstart + x.run.len))
def slotAt (r : Run) (p : Nat) : Nat := r.slot + (p - r.lstart)
def groupsOf (v : List VRun) : List Nat := (v.map (·.run.group)).eraseDups

/-! ## Seasoning (R220-R223) -/

def e4m3Layout : FLayout := ⟨4, 3, 7, .e4m3, 0x7E, true⟩
def ctlSat : FCtl := ⟨.rne, false, true, false⟩
def bf16To32 (x : Nat) : Nat := x * 65536
/-- one element of a page as FP32 -/
def decodeElem (seasoned : Bool) (scale x : Nat) : Nat :=
  if seasoned then
    match unpackF e4m3Layout x with
    | .nan n _ _ _ => if n then 0xFFC00000 else 0x7FC00000
    | _ => (fpMul fp32 ctlRne (convert ctlRne (.float e4m3Layout) (.float fp32) x).1 scale).1
  else bf16To32 x
def isFin32 (x : Nat) : Bool := decide (x / 2 ^ 23 % 256 ≠ 255)
def abs32 (x : Nat) : Nat := x % 2 ^ 31
/-- magnitudes of FP32 compare as their codes -/
def maxAbs (m x : Nat) : Nat := if isFin32 x && decide (m < abs32 x) then abs32 x else m
/-- R222: scale and reciprocal of a head -/
def headScale (amax : Nat) : Nat × Nat :=
  let k448 := 0x43E00000
  let r := (fpDiv fp32 ctlRne k448 amax).1
  ((fpDiv fp32 ctlRne amax k448).1, if isFin32 r then r else 0x7F7FFFFF)
/-- R222, R223: the code of an element and the flags it raises: [0] a NaN, [1] an infinity saturated, [2] a finite value
saturated, [3] a nonzero element that a zero scale discards -/
def seasonElem (amax scale r x : Nat) : Nat × Nat :=
  let neg := decide (x ≥ 2 ^ 31)
  let lost := if scale = 0 then 8 else 0
  match unpackF fp32 x with
  | .nan _ _ _ _ => if amax = 0 then (0, 1 + 8) else (if neg then 0xFF else 0x7F, 1)
  | .inf _ => if amax = 0 then (0, 8) else (if neg then 0xFE else 0x7E, 2 + lost)
  | .num n m e =>
    if amax = 0 then (0, if m = 0 then 0 else 8)
    else match unpackF fp32 r with
      | .num _ m' e' =>
        let o := finOut e4m3Layout ctlSat false n (m * m') (e + e')
        (o.1, (if o.2.getLsbD 5 then 4 else 0) + (if m = 0 then 0 else lost))
      | _ => (0, 0)

/-- A block's elements decoded, in page order, with their poison. -/
structure Block where
  vals : List Nat
  poison : List Bool
  scales : List Nat
  codes : List Nat
  deriving DecidableEq, Repr, Inhabited
def perSlot (d : Desc) : Nat := d.nhead * 2 * d.dh
/-- head of an element by its place -/
def headOf (d : Desc) (i : Nat) : Nat := i / (2 * d.dh) % d.nhead
def slotOf (d : Desc) (i : Nat) : Nat := i / perSlot d
/-- the elements of w bytes of which a byte is marked -/
def anyN (w : Nat) : Nat → List Bool → List Bool
  | 0, _ => []
  | n + 1, l => (l.take w).any id :: anyN w n (l.drop w)
def readBlock (q : Seq) (d : Desc) (x : Layer) : KM Block := do
  let n := d.bt * perSlot d
  let e := if x.seasoned then 1 else 2
  let r ← kData q x.addr (n * e)
  let sc ← if x.seasoned then do pure (numsOf (← kData q (x.addr + 0x8000) (4 * d.nhead)).bytes 4 d.nhead) else pure []
  let cs := numsOf r.bytes e n
  pure { vals := cs.zipIdx.map (fun c => decodeElem x.seasoned ((sc.drop (headOf d c.2)).headD 0) c.1)
         poison := anyN e n r.poison, scales := sc, codes := cs }
/-- R220: AMAX of each head over the marked slots, poisoned elements left out -/
def amaxOf (d : Desc) (mask : Nat) (vals : List Nat) (poison : List Bool) : List Nat :=
  (List.range d.nhead).map (fun h =>
    (vals.zip poison).zipIdx.foldl (fun m x =>
      if headOf d x.2 = h && mask.testBit (slotOf d x.2) && !x.1.2 then maxAbs m x.1.1 else m) 0)
/-- the bytes of a green page from BF16 codes -/
def greenBytes (codes : List Nat) : List Byte :=
  let b := codes.flatMap (toBytes 2)
  b ++ List.replicate (65536 - b.length) 0
def padTo (n : Nat) (b : List Byte) : List Byte := b ++ List.replicate (n - b.length) 0
def seasonedBytes (codes scales : List Nat) : List Byte :=
  padTo 65536 (padTo 0x8000 (codes.flatMap (toBytes 1)) ++ scales.flatMap (toBytes 4))
/-- R222: a whole block seasoned: page bytes, scales and flags -/
def seasonBlock (d : Desc) (mask : Nat) (amax : List Nat) (vals : List Nat) : List Nat × List Nat × Nat :=
  let sr := amax.map (fun a => if a = 0 then (0, 0) else headScale a)
  let out := vals.zipIdx.map (fun x =>
    let h := headOf d x.2
    let k := (sr.drop h).headD (0, 0)
    if mask.testBit (slotOf d x.2) then seasonElem ((amax.drop h).headD 0) k.1 k.2 x.1 else (0, 0))
  (out.map (·.1), sr.map (·.1), out.foldl (fun f x => f ||| x.2) 0)
/-- write a version page whole, poisoned where its elements are (R480) -/
def writePage (q : Seq) (d : Desc) (page : Nat) (bytes : List Byte) (e : Nat) (poison : List Bool) : KM Unit := do
  kRaw q (pageVa d page) bytes
  if poison.any id then kPoison q (pageVa d page) (poison.flatMap (fun p => List.replicate e p)) else pure ()

/-! ## Validity cells (R248, R249) -/

structure Cell where
  state : Nat
  gen : Nat
  play : Nat
  deriving DecidableEq, Repr, Inhabited
def cellOf (v : Nat) : Cell := { state := v / 2 ^ 30 % 4, gen := v / 65536 % 16384, play := v % 65536 }
def cellBits (c : Cell) : Nat := c.state * 2 ^ 30 + c.gen % 16384 * 65536 + c.play % 65536
def cValid : Nat := 0
def cDirty : Nat := 1
def cQueued : Nat := 2
def cRunning : Nat := 3
/-- the map's header: NCOLCAP; a malformed one ends with 0x50 -/
def mapCap (q : Seq) (d : Desc) : KM Nat := do
  let b ← kBytes q (curOf d.dirty) 16
  let n := numAt b 4 4
  kCheck (numAt b 0 4 == 0x56414C4D && decide (1 ≤ n ∧ n ≤ 2 ^ 24) && numAt b 8 2 == d.nlayer &&
    decide (capBase d.dirty.bits ≤ curOf d.dirty ∧ curOf d.dirty + 64 + 4 * (d.nlayer + 1) * n ≤ capLimit d.dirty.bits)) 0x50
  pure n
def cellVa (d : Desc) (cap l c : Nat) : Nat := curOf d.dirty + 0x40 + 4 * (l * cap + c)
def getCell (q : Seq) (d : Desc) (cap l c : Nat) : KM Cell := do pure (cellOf (← kNum q (cellVa d cap l c) 4))
def putCell (q : Seq) (d : Desc) (cap l c : Nat) (x : Cell) : KM Unit := kPut q (cellVa d cap l c) 4 (cellBits x)
/-- columns in use -/
def ncol (d : Desc) (length : Nat) : Nat := (length + d.st - 1) / d.st
/-- the full generation of a cell -/
def fullGen (d : Desc) (x : Cell) : BitVec 32 := d.gen - BitVec.ofNat 32 ((d.gen.toNat + 2 ^ 32 - x.gen) % 16384)
/-- R265: a ≥ b modulo 2^32 -/
def genGe (a b : BitVec 32) : Bool := decide ((a - b).toNat < 2 ^ 31)

/-- R262: the QUEUED cells of an item become RUNNING, or back -/
def markItem (running : Bool) (it : Item) : KM Unit := do
  let s ← get
  match seqOf s it.seq with
  | none => pure ()
  | some q => do
    let d ← readDesc q
    let cap ← mapCap q d
    kFor (fun c => do
      let x ← getCell q d cap it.layer c
      if x.state = (if running then cQueued else cRunning) then
        putCell q d cap it.layer c { x with state := if running then cRunning else cQueued }
      else pure ()) it.cols
def setMarks (s : State) (l : List CellMark) : State := { s with work := { s.work with marks := l } }
/-- the cells of items marked in the order the Joiner told of them; a page that is not there yet makes the rest wait -/
def doMarks : List CellMark → State → State
  | [], s => setMarks s []
  | m :: t, s => match s.work.items.find? (·.id == m.item) with
    | none => doMarks t s
    | some it => match markItem m.running it s with
      | .ok (_, s) => doMarks t s
      | .error (.wait w) => setMarks (keepAsked s w) (m :: t)
      | .error _ => doMarks t s
/-- the marks that wait, tried again -/
def retryMarks (s : State) : State := doMarks s.work.marks s
/-- the Joiner tells the Scribe of an item, by the number its queue item carries -/
def itemClaimed (running : Bool) (s : State) (w : Option Nat) : State :=
  match w with
  | none => s
  | some n => doMarks (s.work.marks ++ [⟨n, running⟩]) s
/-- an item of the sequence has cells still to be marked -/
def marksWait (s : State) (q : Seq) : Bool := s.work.marks.any (fun m => s.work.items.any (fun i => i.id == m.item && i.seq == q.id))

end Sys2Proof.Machine
end

