-- ==== Sys2Proof/Machine/Frames.lean ====
section
/-! DEFINITION. Frames and their queues, completion records on their way, the end of a firing and its kill (R166-R188,
R201-R206, R416, R451). -/
namespace Sys2Proof.Machine

/-! ## Frames and queues -/

def setWork (s : State) (w : Work) : State := { s with work := w }
def isFrame (ctx : BitVec 12) (n : BitVec 32) (f : Frame) : Bool := f.ctx == ctx && f.number == n
def findFrame (s : State) (ctx : BitVec 12) (n : BitVec 32) : Option Frame := s.work.frames.find? (isFrame ctx n)
def updFrame (s : State) (ctx : BitVec 12) (n : BitVec 32) (g : Frame → Frame) : State :=
  setWork s { s.work with frames := s.work.frames.map (fun f => if isFrame ctx n f then g f else f) }
def queueAt (f : Frame) (i : Nat) : Option Queue := f.queues[i]?
def updQueue (i : Nat) (g : Queue → Queue) (f : Frame) : Frame :=
  { f with queues := f.queues.zipIdx.map (fun x => if x.2 = i then g x.1 else x.1) }
/-- free slots that no started firing has reserved -/
def queueRoom (q : Queue) : Nat := q.depth - q.items.length - q.claimed - q.reserved
def appendItem (it : QItem) (q : Queue) : Queue :=
  { q with items := q.items ++ [{ it with ord := q.nextOrd }], nextOrd := q.nextOrd + 1 }
/-- an item at its place in the order of arrival -/
def insertItem (it : QItem) : List QItem → List QItem
  | [] => [it]
  | x :: t => if it.ord < x.ord then it :: x :: t else x :: insertItem it t
/-- items of exactly the queue's size, zero-filled or cut (R188) -/
def fitItem (n : Nat) (it : QItem) : QItem :=
  { it with bytes := (it.bytes ++ List.replicate (n - it.bytes.length) 0).take n
            tags := (it.tags ++ List.replicate (n / 32 + 1 - it.tags.length) false).take ((n + 31) / 32) }
/-- Append an item: none while the queue is full; a frame ended or withdrawn discards it (R173, R176). -/
def putItem (s : State) (ctx : BitVec 12) (n : BitVec 32) (i : Nat) (it : QItem) : Option State :=
  match findFrame s ctx n with
  | none => some s
  | some f =>
    if f.withdrawn then some s
    else match queueAt f i with
      | none => some s
      | some q => if queueRoom q = 0 then none else some (updFrame s ctx n (updQueue i (appendItem (fitItem q.item it))))

/-! ## Handles (log 20) -/

def permsAll : BitVec 7 := permR ||| permW ||| permE ||| permG
def handleOf (kind n : Nat) : CReg := ⟨mkCap kind permsAll n (n + 1) (BitVec.ofNat 64 n), true⟩
/-- a queue handle: context, frame number and queue index -/
def queueHandle (ctx : BitVec 12) (n : BitVec 32) (q : Nat) : CReg := handleOf 3 (ctx.toNat * 2 ^ 40 + n.toNat * 256 + q)
def handleCtx (c : CReg) : BitVec 12 := BitVec.ofNat 12 (curOf c / 2 ^ 40)
def handleFrame (c : CReg) : BitVec 32 := BitVec.ofNat 32 (curOf c / 256)
def handleQueue (c : CReg) : Nat := curOf c % 256
/-- a phaser handle: die phaser or not, engine, number -/
def phaserHandle (dieLevel : Bool) (eng n : Nat) : CReg := handleOf 4 ((if dieLevel then 2 ^ 18 else 0) + eng * 4096 + n)
def phIsDie (c : CReg) : Bool := (curOf c).testBit 18
def phEngine (c : CReg) : Nat := curOf c / 4096 % 64
def phNumber (c : CReg) : Nat := curOf c % 4096
/-- the event queue a kind-7 handle names (R417) -/
def handleCluster (c : CReg) : Nat := curOf c % 64

/-! ## Completion records (R416, R417, R451) -/

def eventCap : Nat := 256
/-- append to an event queue: none while it is full; a context not live drops it -/
def putEvent (s : State) (ctx : BitVec 12) (cl : Nat) (e : Event) : Option State :=
  match ctxOf s ctx with
  | none => some s
  | some c =>
    let l := mget [] c.events cl
    if l.length < eventCap then some (setCtx s ctx { c with events := mset c.events cl (l ++ [e]) }) else none
def sameTarget : HeldTo → HeldTo → Bool
  | .queue c n i _, .queue c' n' i' _ => c == c' && n == n' && i == i'
  | .event c k _, .event c' k' _ => c == c' && k == k'
  | _, _ => false
def tryHeld (s : State) : HeldTo → Option State
  | .queue c n i it => putItem s c n i it
  | .event c k e => putEvent s c k e
/-- Deliver, or hold behind what is already held for the same queue (R168). -/
def deliver (s : State) (h : HeldTo) : State :=
  let hold := setWork s { s.work with held := s.work.held ++ [h] }
  if s.work.held.any (sameTarget h) then hold
  else match tryHeld s h with | some s => s | none => hold
/-- the first held record whose queue has room, delivered -/
def deliverHeld (s : State) : List HeldTo → List HeldTo → Option State
  | _, [] => none
  | seen, h :: t =>
    if seen.any (sameTarget h) then deliverHeld s (h :: seen) t
    else match tryHeld s h with
      | some s => some (setWork s { s.work with held := s.work.held.eraseP (· == h) })
      | none => deliverHeld s (h :: seen) t
def plainItem (bytes : List Byte) (tags : List Bool) : QItem :=
  { bytes := bytes, tags := tags, failed := false, completion := false, ord := 0, work := none, desc := none }
/-- R417: the scope kept with a record -/
def keptScope (acq : Bool) (scope : BitVec 3) : BitVec 3 := if acq then scope else 0
/-- A record sent to a reply handle: `ctx` and `cl` are the sender's. -/
def postReply (s : State) (c : Cmd) (r : Record) : State :=
  match c.reply with
  | .none => s
  | .slot _ => mqReply s (recordBytes r)
  | .handle h ctx cl =>
    match capKind h.bits with
    | 7 => deliver s (.event ctx (handleCluster h) { rcd := r, scope := keptScope c.acq c.scope, raw := none })
    | 3 => deliver s (.queue (handleCtx h) (handleFrame h) (handleQueue h)
        { plainItem (recordBytes r) [] with completion := true })
    | 4 => setWork s { s.work with phComps := s.work.phComps ++ [(h, { c with cluster := cl }, r)] }
    | _ => s
/-- how an engine's misses of a context ended concerns the accesses that waited for them alone: once a command ends, accesses walk
afresh (R87, R470) -/
def forgetEngEnds (s : State) (ctx : BitVec 12) : State :=
  { s with clusters := s.clusters.map (fun x => (x.1, { x.2 with engEnd := x.2.engEnd.filter (fun m => m.1 != ctx) })) }
/-- R118: with ACQ the engine's writes to peers have been acknowledged before the completion is posted -/
def ackEngine (s : State) : State :=
  { s with links := { s.links with ports := s.links.ports.map (fun p => (p.1, { p.2 with buffer := p.2.buffer.filter (fun f => !f.cores.isEmpty) })) } }
/-- a command's completion -/
def complete (s : State) (c : Cmd) (engine : Byte) (status bytes result : Nat) : State :=
  let s := if c.acq then ackEngine s else s
  postReply (forgetEngEnds s c.ctx) c (recordOf c.tag (BitVec.ofNat 8 status) engine c.ctx bytes result)
/-- a record firmware or a sync engine posts of its own: kept at .sys -/
def postOwn (s : State) (ctx : BitVec 12) (cl : Nat) (r : Record) : State := deliver s (.event ctx cl { rcd := r, scope := 5, raw := none })

/-! ## Instances -/

def instReset (stage coord : Nat) : Inst :=
  { stage := stage, coord := coord, retired := false, readySince := none, sevenSince := none, running := 0, failed := false,
    desc := none, suspends := false, tiles := [], drains := [] }
def findInst (f : Frame) (stage coord : Nat) : Inst :=
  (f.insts.find? (fun i => i.stage == stage && i.coord == coord)).getD (instReset stage coord)
def setInst (f : Frame) (i : Inst) : Frame :=
  { f with insts := i :: f.insts.filter (fun x => !(x.stage == i.stage && x.coord == i.coord)) }
def stageAt (f : Frame) (n : Nat) : Option Stage := f.stages[n]?
def updStage (n : Nat) (g : Stage → Stage) (f : Frame) : Frame :=
  { f with stages := f.stages.zipIdx.map (fun x => if x.2 = n then g x.1 else x.1) }
def noQueue : Nat := 255
def hasInputs (st : Stage) : Bool := st.ins.any (· != noQueue)

/-! ## Taking a firing off its cores -/

def lineBytes : Nat := 256
/-- scratch lines freed: their bytes are lost (R293) -/
def freeLines (c : CoreSt) (lines : List Nat) : CoreSt :=
  { c with scratch := c.scratch.filter (fun x => !lines.contains (x.1 / lineBytes))
           scratchTags := c.scratchTags.filter (fun x => !lines.contains (x / 8))
           pinned := c.pinned.filter (fun x => !lines.contains x) }
/-- the member of a phaser that an instance is (R133) -/
def isMember (id : Ident) (m : PhMember) : Bool := m.frame == id.frame && m.stage == id.stage && m.coord == id.coord
def updMember (id : Ident) (f : PhMember → PhMember) (p : Phaser) : Phaser :=
  { p with members := p.members.map (fun m => if isMember id m then f m else m) }
/-- a firing of a member waits no more -/
def clearWait (id : Ident) (m : PhMember) : PhMember := { m with waits := m.waits.filter (·.1 != id.pos) }
def clearWaits (s : State) (id : Ident) : State :=
  let g (m : Map Phaser) : Map Phaser := m.map (fun x => (x.1, if x.2.ctx == id.ctx then updMember id (clearWait id) x.2 else x.2))
  { s with clusters := s.clusters.map (fun x => (x.1, { x.2 with phasers := g x.2.phasers }))
           dies := s.dies.map (fun x => (x.1, { x.2 with phasers := g x.2.phasers })) }
/-- the cores that run a batch -/
def batchCores (s : State) (b : Nat) : List Nat :=
  (s.cores.filter (fun x => match x.2.thread with | some t => t.id.batch == b && !t.id.firmware | none => false)).map (·.1)
/-- a core's EVWAIT or EVPOP gives up its place (R417) -/
def leaveEvents (s : State) (k : Nat) (ctx : BitVec 12) : State :=
  updCtx s ctx (fun c => { c with evWaits := c.evWaits.map (fun x => (x.1, x.2.filter (·.1 != k))) })
/-- a thread leaves a core: the misses it waited on are no more its concern (R87), nor is its place at an event queue -/
def forgetMisses (s : State) (k : Nat) (ctx : BitVec 12) : State :=
  let s := leaveEvents s k ctx
  let s := setCore s k { core s k with missEnd := (core s k).missEnd.filter (fun x => x.1 != ctx) }
  let c := cluster s (clusterOf k)
  setCluster s (clusterOf k) { c with misses := c.misses.map (fun m => if m.ctx == ctx then { m with waiters := m.waiters.filter (· != k) } else m) }
/-- the sequences of a hold's context: it may serve offcuts of each that shares a pool with its own (R232, R274) -/
def seqsBeside (s : State) (h : Hold) : List (BitVec 32) :=
  match seqOf s h.seq with | some q => (s.work.seqs.filter (fun x => x.ctx == q.ctx)).map (·.id) | none => []
/-- holds end with their firing; the Scribe has still to release what they kept (R274, R284) -/
def endHolds (s : State) (p : Hold → Bool) : State :=
  setWork s { s.work with holds := s.work.holds.filter (fun h => !p h)
                          sweep := (s.work.sweep ++ (s.work.holds.filter p).flatMap (seqsBeside s)).eraseDups }
/-- an atomic that its peer's port still holds stands (R202): its write goes with the others (R124) -/
def leaveAtomic (s : State) (k : Nat) (t : Thread) : State :=
  match t.blockA with | .atomic sec data mask tagged => performAt s (some k) t.id.ctx sec data mask 0 tagged false | _ => s
/-- what a thread leaves behind when it goes: scratch freed, holds released, started wide-unit work completing (R202, R299) -/
def dropThread (s : State) (k : Nat) : State :=
  match (core s k).thread with
  | none => s
  | some t =>
    let started := (t.wide.take 1).filter (fun w => decide (w.done ≠ 0))
    let c := freeLines { core s k with thread := none, orphans := (core s k).orphans ++ started.map (fun w => (t.id.ctx, w)) } t.opn.scratch
    let s := leaveAtomic (setCore s k c) k t
    let s := endHolds s (fun h => h.batch == t.id.batch && h.pos == t.id.pos)
    forgetMisses (clearWaits s t.id) k t.id.ctx
def dropBatch (s : State) (b : Nat) : State := (batchCores s b).foldl dropThread s

def findBatch (f : Frame) (b : Nat) : Option Batch := f.batches.find? (·.id == b)
def endBatchOf (b : Batch) (f : Frame) : Frame :=
  let i := findInst f b.stage b.coord
  setInst { f with batches := f.batches.filter (·.id != b.id) } { i with running := i.running - 1 }
/-- reservations and claims of a batch given up -/
def unreserve (b : Batch) (f : Frame) : Frame :=
  let f := b.outs.foldl (fun f x => updQueue x.1 (fun q => { q with reserved := q.reserved - x.2 }) f) f
  b.ins.foldl (fun f x => updQueue x.1 (fun q => { q with claimed := q.claimed - x.2.length }) f) f
/-- the mark of a failed batch, with the descriptor its refire runs under; one that has had its refire keeps the mark alone
(R175, R203) -/
def failItem (b : Batch) (failed : Bool) (it : QItem) : QItem :=
  if failed then { it with failed := true, desc := some b.desc } else { it with desc := none }
/-- a batch, or a source instance, that has failed before (R203) -/
def failedBefore (f : Frame) (b : Batch) : Bool :=
  if hasInputs b.desc then b.ins.any (fun x => x.2.any (·.failed)) else (findInst f b.stage b.coord).failed
/-- claimed items back at the head of their queues in their order (R178); a withdrawn frame discards them -/
def returnItems (b : Batch) (failed : Bool) (f : Frame) : Frame :=
  if f.withdrawn then f
  else b.ins.foldl (fun f x => updQueue x.1 (fun q =>
    { q with items := x.2.foldl (fun l it => insertItem (failItem b failed it) l) q.items }) f) f
/-- R262: the items' cells go back to QUEUED -/
def unclaimCells (s : State) (b : Batch) : State :=
  b.ins.foldl (fun s x => x.2.foldl (fun s it => itemClaimed false s it.work) s) s

/-! ## Withdrawal, faults and verdicts (R176, R203-R206) -/

/-- the sender's FIN waits for one drain less -/
def noteDrained (s : State) (d : Drain) : State :=
  let dec (t : Thread) : Thread :=
    if t.id.batch == d.sbatch && t.id.pos == d.spos && !t.id.firmware then { t with opn := { t.opn with drains := t.opn.drains - 1 } } else t
  let s := { s with cores := s.cores.map (fun x => (x.1, { x.2 with thread := x.2.thread.map dec })) }
  setWork s { s.work with saved := s.work.saved.map (fun v => { v with threads := v.threads.map (fun x => (x.1, dec x.2)) }) }
/-- every frame the test picks is withdrawn: its queued items are discarded, drains to it too (R176, R317) -/
def withdrawFrames (p : Frame → Bool) (s : State) : State :=
  let s := setWork s { s.work with frames := s.work.frames.map (fun f =>
    if p f then { f with withdrawn := true, queues := f.queues.map (fun q => { q with items := [] }) } else f) }
  let lost (d : Drain) : Bool := s.work.frames.any (fun f => p f && f.number == d.frame && f.ctx == d.ctx)
  (s.work.drains.filter lost).foldl noteDrained
    (setWork s { s.work with drains := s.work.drains.filter (fun d => !lost d) })
/-- R206: kill a frame: withdrawn, to end with status 0x44 -/
def killFrame (s : State) (ctx : BitVec 12) (n : BitVec 32) : State :=
  withdrawFrames (isFrame ctx n) (updFrame s ctx n (fun f => { f with killed := true }))
/-- R204 -/
def faultRecord (s : State) (f : Frame) (b : Batch) (code : BitVec 8) (detail pc : W64) (pos : BitVec 2) (k : Nat) : List Byte :=
  let flags := (if b.refire then 1 else 0) + (if b.desc.restart then 0 else 2) + (if b.desc.gang then 4 else 0)
  toBytes 1 code.toNat ++ toBytes 1 flags ++ toBytes 2 f.ctx.toNat ++ toBytes 1 b.stage ++ toBytes 1 pos.toNat ++
  toBytes 2 k ++ toBytes 4 f.number.toNat ++ toBytes 2 f.tag.toNat ++ [0, 0] ++ toBytes 8 b.coord ++ toBytes 8 pc.toNat ++
  toBytes 8 detail.toNat ++ toBytes 8 (sinceReady s) ++ List.replicate 16 0
/-- R33: a fault record forwarded to the management queue -/
def forwardFault (s : State) (r : List Byte) : State := mqEvent s [eventRecord 0xE7 64 (sinceReady s), r.take 32, r.drop 32]
/-- R205: the record to the trap stage, to the trap queue, or the frame killed and the host told -/
def dispatchFault (s : State) (f : Frame) (b : Batch) (r : List Byte) : State :=
  let item := plainItem r []
  let gone (s : State) : State := forwardFault (killFrame s f.ctx f.number) r
  if f.trapStage != 255 && f.trapStage != b.stage then
    match stageAt f f.trapStage with
    | some t => deliver s (.queue f.ctx f.number (t.ins.headD noQueue) item)
    | none => gone s
  else match ctxOf s f.ctx with
    | some c => (match c.trapQ with
      | some (n, q) => if n = f.number then gone s else deliver s (.queue f.ctx n q item)
      | none => gone s)
    | none => gone s
/-- R201: the kinds that are refired -/
def refireKind (code : BitVec 8) : Bool := code == tSig || code == tData || code == tOverrun || code == tCoreRemoved
/-- R202, R203: end a killed firing: its claims return, its pushes are dropped, and its failure marks or suspends. -/
def failBatch (s : State) (f : Frame) (b : Batch) (code : BitVec 8) (detail pc : W64) (pos : BitVec 2) (k : Nat) : State :=
  let s := unclaimCells s b
  let mark := refireKind code && b.desc.restart && !failedBefore f b
  let source := !hasInputs b.desc
  let s := updFrame s f.ctx f.number (fun f =>
    let f := endBatchOf b (unreserve b f)
    let f := returnItems b mark f
    let i := findInst f b.stage b.coord
    let f := setInst f { i with failed := i.failed || (mark && source), desc := if mark && source then some b.desc else none
                                suspends := i.suspends || !mark }
    if mark then f else updStage b.stage (fun st => { st with suspended := true }) f)
  if mark then s else dispatchFault s f b (faultRecord s f b code detail pc pos k)
/-- Kill the firing on a core, a gang as a whole (R202). -/
def killFiring (s : State) (k : Nat) (code : BitVec 8) (detail pc : W64) : State :=
  match (core s k).thread with
  | none => s
  | some t =>
    let s := dropBatch s t.id.batch
    match findFrame s t.id.ctx t.id.frame with
    | none => s
    | some f => match findBatch f t.id.batch with
      | none => s
      | some b => failBatch s f b code detail pc (if t.id.gang then t.id.pos else 0) k
/-! ## The save arena (R197, R198) -/

def slotKib : Nat := 136
def tileKib : Nat := 16
/-- the slots a range of the arena touches -/
def slotsHit (r : Nat × Nat) : List Nat :=
  if r.2 = 0 then [] else (List.range ((r.1 + r.2 - 1) / slotKib + 1 - r.1 / slotKib)).map (· + r.1 / slotKib)
def slotsTaken (c : Ctx) : List Nat := (c.arenaUsed.flatMap slotsHit).eraseDups
/-- free slots in a context's save arena -/
def freeSlots (s : State) (ctx : BitVec 12) : Nat :=
  match mfind s.ctxs ctx.toNat with | some c => c.arenaSlots - (slotsTaken c).length | none => 0
/-- the lowest number that does not stand in a list -/
def lowestFree (l : List Nat) : Nat := (((0 :: l.map (· + 1)).filter (fun n => !l.contains n)).min?).getD 0
def slotRange (n : Nat) : Nat × Nat := (n * slotKib, slotKib)
/-- n slots, the lowest free ones (log 54) -/
def takeSlots : Nat → Ctx → List Nat × Ctx
  | 0, c => ([], c)
  | n + 1, c =>
    let i := lowestFree (slotsTaken c)
    let r := takeSlots n { c with arenaUsed := c.arenaUsed ++ [slotRange i] }
    (i :: r.1, r.2)
/-- ranges of the arena given back -/
def freeRanges (s : State) (ctx : BitVec 12) (l : List (Nat × Nat)) : State :=
  updCtx s ctx (fun c => { c with arenaUsed := c.arenaUsed.filter (fun r => !l.contains r) })
def freeArena (s : State) (ctx : BitVec 12) (slots : List Nat) : State := freeRanges s ctx (slots.map slotRange)
/-- a place for n KiB of carried tiles, the highest free one; none when there is none -/
def placeTiles (c : Ctx) (n : Nat) : Option Nat :=
  let total := c.arenaSlots * slotKib
  let fits (a : Nat) : Bool := decide (a + n ≤ total) && c.arenaUsed.all (fun r => decide (a + n ≤ r.1 ∨ r.1 + r.2 ≤ a))
  if total < n then none
  else ((((total - n) :: (c.arenaUsed.filter (fun r => decide (n ≤ r.1))).map (fun r => r.1 - n)).filter fits).max?)
/-- the physical address of a KiB of the arena -/
def arenaAt (c : Ctx) (kib : Nat) : Nat := c.arenaBase + 1024 * kib
/-- a tile's 16 KiB, row by row -/
def tileBytes (m : Tile) : List Byte := (List.range 4096).flatMap (fun i => toBytes 4 (mget 0 m i).toNat)
def instCount (ls : List Level) (L : Nat) : Nat := (ls.take (L + 1)).foldl (fun n l => n * l.extent) 1
/-- positions of a stage's instances that hold copies of its carried tiles -/
def positionsOf (st : Stage) : Nat := if st.gang then 4 else 1
def carriedList (st : Stage) : List Nat := (List.range 8).filter (fun k => st.carried.getLsbD k)
def carriedTiles (levels : List Level) (st : Stage) : Nat := (carriedList st).length * instCount levels st.level * positionsOf st
/-- the KiB that the carried tiles of a frame's stages take -/
def frameTiles (levels : List Level) (stages : List Stage) : Nat := tileKib * ((stages.map (carriedTiles levels)).foldl (· + ·) 0)
/-- where a carried tile stands in the arena, in KiB -/
def tilePlace (f : Frame) (stage coord pos k : Nat) : Nat :=
  let before := ((f.stages.take stage).map (carriedTiles f.levels)).foldl (· + ·) 0
  match stageAt f stage with
  | none => f.tiles.1
  | some st =>
    let l := carriedList st
    f.tiles.1 + tileKib * (before + (coord * positionsOf st + pos) * l.length + (l.findIdx? (· == k)).getD 0)
/-- the arena's copy of a carried tile is written (R198) -/
def writeTile (s : State) (f : Frame) (stage coord pos k : Nat) (m : Tile) : State :=
  match ctxOf s f.ctx with
  | some c => setMem s (paWriteMem s.mem (arenaAt c (tilePlace f stage coord pos k)) (tileBytes m))
  | none => s
/-- Kill a pre-empted firing whose scratch is on core k (R211). -/
def killSaved (s : State) (v : Saved) (code : BitVec 8) (k : Nat) : State :=
  match v.threads.find? (·.1 == k) with
  | none => s
  | some (_, t) =>
    let s := v.threads.foldl (fun s x => setCore s x.1 (freeLines (core s x.1) x.2.opn.scratch)) s
    let s := endHolds (setWork s { s.work with saved := s.work.saved.filter (· != v) }) (fun h => h.batch == t.id.batch)
    let s := v.threads.foldl (fun s x => clearWaits s x.2.id) (freeArena s v.ctx v.slots)
    match findFrame s t.id.ctx t.id.frame with
    | none => s
    | some f => match findBatch f t.id.batch with
      | none => s
      | some b => failBatch s f b code 0 t.pc (if t.id.gang then t.id.pos else 0) k

end Sys2Proof.Machine
end

