-- ==== Sys2Proof/Machine/Ops.lean ====
section
/-! DEFINITION. The operations every instruction shares: the thread of the current core, guards, retiring, safe points,
and taking a trap (R194-R205, R360, R363, R474). -/
namespace Sys2Proof.Machine

/-! ## The current thread -/

def threadOf (s : State) (k : Nat) : Option Thread := (core s k).thread
def setThreadOf (s : State) (k : Nat) (t : Thread) : State := setCore s k { core s k with thread := some t }
def curThread (s : State) : Option Thread := threadOf s s.cur.core
def setCur (s : State) (t : Thread) : State := setThreadOf s s.cur.core t

/-- R363: p[G] XOR GN. -/
def guardTrue (h : Hdr) (t : Thread) : Bool := getP t h.g != h.gn
/-- R360: the successor of a word. -/
def succPc (h : Hdr) (pc : W64) : W64 := if h.p then pc + 24 else pc + 12

/-! ## Retiring a word -/

/-- Definitions that no earlier reader waits for take effect (R295). -/
def applyDefs (t : Thread) : List SliceEntry → Thread
  | .sdef n d :: r => applyDefs (setS t n (some d)) r
  | l => { t with slice := l }
/-- the execute half has performed the head word -/
def popSlice (t : Thread) : Thread := applyDefs t t.slice.tail

def slotsNeeded (t : Thread) : Nat := if t.id.gang then 4 else 1
/-- gang instructions left in the open section once the words of the slice buffer have run (R305) -/
def sectionAfter : Nat → List SliceEntry → Nat
  | n, [] => n
  | n, .word _ w :: t => sectionAfter (match decode w with
    | .ok (.mgang _ o) => o.n.toNat
    | .ok (.mmul _ _) | .ok (.mgrp _ _) => n - 1
    | _ => n) t
  | n, .sdef _ _ :: t => sectionAfter n t
/-- R196, R305: a safe point with a gang operation outstanding, or a section open when its earlier words have run, is not taken -/
def gangOutstanding (t : Thread) : Bool := sectionAfter t.opn.section_ t.slice != 0 || t.blockE == .barrier
/-- R372, R447: a gang instruction is a safe point only in name -/
def isGangWord (w : IWord) : Bool :=
  match decode w with | .ok (.mgang _ _) | .ok (.mmul _ _) | .ok (.mgrp _ _) => true | _ => false
/-- slots that firings of a context stopping at a safe point will take, those of one batch left out -/
def promised (s : State) (ctx : BitVec 12) (batch : Nat) : Nat :=
  let stops := s.cores.filterMap (fun x => match x.2.thread with
    | some t => if t.id.ctx == ctx && !t.id.firmware && t.id.batch != batch && t.safe.isSome then some (t.id.batch, slotsNeeded t) else none
    | none => none)
  (stops.eraseDups.map (·.2)).foldl (· + ·) 0
/-- a firing finds slots to be saved in: free ones that none has been promised, or those that its gang has already (R197, R199) -/
def maySave (s : State) (t : Thread) : Bool :=
  (t.id.gang && s.cores.any (fun x => match x.2.thread with | some u => u.id.gang && u.id.batch == t.id.batch && u.safe.isSome | none => false)) ||
  decide (slotsNeeded t + promised s t.id.ctx t.id.batch ≤ freeSlots s t.id.ctx)
/-- R196, R200: the thread passes a safe point whose mask word is `mask`: the overrun count restarts, unless a
spent-budget pre-emption waits for a slot, and the firing stops here when a pre-emption is asked for. -/
def passSafe (s : State) (t : Thread) (mask : IWord) : Thread :=
  let may := maySave s t
  let t := if t.preempt == .budget && !may then t else { t with overran := 0 }
  if t.preempt != .none && !gangOutstanding t && may then { t with safe := some mask } else t

/-! ## The signature checker (R208, R209) -/

/-- CRC-32C over one byte and over the 12 bytes of a word, reflected, without the final inversion -/
def crcBit (c : BitVec 32) : BitVec 32 := if c.getLsbD 0 then (c >>> 1) ^^^ 0x82F63B78 else c >>> 1
def crcByte (c : BitVec 32) (b : Byte) : BitVec 32 :=
  crcBit (crcBit (crcBit (crcBit (crcBit (crcBit (crcBit (crcBit (c ^^^ b.setWidth 32))))))))
def crcBytes (c : BitVec 32) : List Byte → BitVec 32
  | [] => c
  | b :: t => crcBytes (crcByte c b) t
/-- R208: hints read as 0, and so does the CRC field of a SIG word -/
def crcView (w : IWord) : IWord :=
  let w := w &&& ~~~(0x1F#96 <<< 72)
  if w.extractLsb' 88 8 == 0x0A then w &&& ~~~(0xFFFFFFFF#96) else w
def crcWord (c : BitVec 32) (w : IWord) : BitVec 32 := crcBytes c (toBytes 12 (crcView w).toNat)
/-- the CRC of a block so far -/
def crcValue (c : BitVec 32) : BitVec 32 := ~~~c
def sigStep (t : Thread) (w : IWord) : Thread := { t with sig := { t.sig with crc := crcWord t.sig.crc w } }

/-- The word is done: the access half moves to `pc`, the execute half drops its head word. -/
def retireTo (h : Hdr) (pc : W64) (s : State) (t : Thread) : Thread :=
  if h.s then
    let t := sigStep { t with pc := pc, blockA := .none } s.cur.word
    if h.p then passSafe s t s.cur.mask else t
  else popSlice { t with blockE := .none }
def retire (h : Hdr) (s : State) (t : Thread) : Thread := retireTo h (succPc h s.cur.pc) s t

/-! ## Taking a trap -/

def emptyF : Vector FReg 16 := Vector.replicate 16 .empty
/-- R474: a firmware thread enters its handler. The words before the faulting one are complete; every later word is
discarded, queues and f registers are emptied. A trap while IN = 1 is a double trap and stops the core (R475). -/
def enterHandler (t : Thread) (pc : W64) (code : BitVec 8) (detail : W64) : Thread :=
  if t.fw.tin then { t with fw := { t.fw with stopped := true } }
  else
    { t with pc := t.fw.tvec, slice := [], wide := [], blockA := .none, blockE := .none, safe := none
             regs := { t.regs with f := emptyF, l := Vector.replicate 4 [], d := Vector.replicate 2 [], xq := [], aq := [] }
             fw := { t.fw with tpc := pc, tcause := code, tdetail := detail, tpred := t.regs.p &&& 0xFFFE, tin := true } }

/-- cores of a cluster in placement -/
def placedCores (s : State) (cl : Nat) : List Nat :=
  ((List.range 16).map (fun i => cl * 16 + i)).filter (fun k => (core s k).inPlacement)
def quotaMin (s : State) (q : Quota) : Nat :=
  match findFrame s q.ctx q.frame with | some f => (match stageAt f q.stage with | some t => t.minc | none => 0) | none => 0
def quotaSum (l : List Quota) : Nat := l.foldl (fun n q => n + q.cores) 0
/-- the largest quota above its MINC gives up one core (R211) -/
def lowerOne (s : State) (l : List Quota) : List Quota :=
  let up := l.filter (fun q => decide (q.cores > quotaMin s q))
  match up.find? (fun q => up.all (fun r => decide (r.cores ≤ q.cores))) with
  | some q => l.map (fun r => if r == q then { r with cores := r.cores - (if (match findFrame s q.ctx q.frame with
      | some f => (match stageAt f q.stage with | some t => t.gang | none => false) | none => false) then 4 else 1) } else r)
  | none => l
def lowerQuotas (s : State) (n : Nat) : Nat → List Quota → List Quota
  | 0, l => l
  | k + 1, l => if quotaSum l ≤ n then l else lowerQuotas s n k (lowerOne s l)
/-- R211: a core leaves placement: pre-empted firings with scratch on it are killed, quotas fall, the host is told -/
def leavePlacement (s : State) (k : Nat) : State :=
  let s := setCore s k { core s k with inPlacement := false }
  let s := (s.work.saved.filter (fun v => v.bound && v.threads.any (fun x => x.1 == k))).foldl (fun s v => killSaved s v tCoreRemoved k) s
  if k < 1024 then
    let cl := clusterOf k
    let n := (placedCores s cl).length
    let l := lowerQuotas s n 16 (cluster s cl).quotas
    let s := setCluster s cl { cluster s cl with quotas := l }
    mqEvent s [eventRecord 0xE6 k (if decide (quotaSum l > n) then 1 else 0)]
  else s
/-- R211: signature faults within one second; the third takes the core out of placement. -/
def noteSigFault (s : State) (k : Nat) (code : BitVec 8) : State :=
  if code == tSig then
    let c := core s k
    let l := s.time :: c.sigFaults.filter (fun t => decide (s.time - t < 1000000000))
    let s := setCore s k { c with sigFaults := l }
    if c.inPlacement && decide (l.length ≥ 3) then leavePlacement s k else s
  else s

/-- the core's last trap (R60) -/
def noteTrap (s : State) (k : Nat) (code : BitVec 8) : State := setCore s k { core s k with lastTrap := code }

/-- THE ONE WAY TO TAKE A TRAP of R201. The faulting instruction has no effect. A firmware thread enters its handler
(R207, R474), once the execute words before the faulting one are complete and so is their wide-unit work; a firing is killed
(R202). `exe` says that the execute half took it. -/
def takeTrap (exe : Bool) (s : State) (code : BitVec 8) (detail : W64) : State :=
  match curThread s with
  | none => s
  | some t =>
    if t.id.firmware && ((!exe && !t.slice.isEmpty) || !t.wide.isEmpty) then s
    else
      let s := noteTrap s s.cur.core code
      if t.id.firmware then setCur s (enterHandler t s.cur.pc code detail)
      else noteSigFault (killFiring s s.cur.core code detail s.cur.pc) s.cur.core code

/-! ## Running an instruction -/

/-- How an instruction's effect ends: done, done with a transfer, waiting, the thread gone, or a trap. -/
inductive Res where
  | done (s : State)
  | jump (s : State) (pc : W64)
  | wait (s : State)
  | gone (s : State)
  | trap (s : State) (code : BitVec 8) (detail : W64)

/-- retire the current thread of a state -/
def retireCur (h : Hdr) (pc : W64) (s : State) : State :=
  match curThread s with | some t => setCur s (retireTo h pc s t) | none => s
/-- Complete an instruction by how its effect ended. -/
def finish (h : Hdr) : Res → State
  | .done s => retireCur h (succPc h s.cur.pc) s
  | .jump s pc => retireCur h pc s
  | .wait s => s
  | .gone s => s
  | .trap s c d => takeTrap (!h.s) s c d

/-- Run an instruction on the current core: nothing without a thread; a false guard only retires (R363). -/
def runState (h : Hdr) (f : Thread → State → Res) (s : State) : Host.Outcome State Fault Refusal :=
  match curThread s with
  | none => .next s
  | some t => .next (finish h (if guardTrue h t then f t s else .done s))
/-- An effect on the thread alone. -/
def onThread (f : Thread → Except Stop Thread) (t : Thread) (s : State) : Res :=
  match f t with
  | .ok t' => .done (setCur s t')
  | .error .wait => .wait s
  | .error (.trap c d) => .trap s c d
def runThread (h : Hdr) (f : Thread → Except Stop Thread) (s : State) : Host.Outcome State Fault Refusal :=
  runState h (onThread f) s
/-- A check that stops the instruction. -/
def orStop (s : State) (c : Except Stop Unit) (k : Res) : Res :=
  match c with | .ok () => k | .error .wait => .wait s | .error (.trap c d) => .trap s c d

end Sys2Proof.Machine
end

