-- ==== Sys2Proof/Machine/Hazard.lean ====
section
/-! DEFINITION. What a word reads and writes of the registers the halves share, and of memory: the program-order rules
of R288, R295, R296, R332, R435 and R444. -/
namespace Sys2Proof.Machine

/-- Shared state a word uses: c registers read and written, streams named, whether it is one of those that meet at k.fpmode
(execute words read it, only CTLWR writes it), and whether it counts events or touches their counters. -/
structure Uses where
  rd : BitVec 64
  wr : BitVec 64
  st : BitVec 16
  mode : Bool
  evc : Bool
  deriving DecidableEq, Repr, Inhabited

def cBit (n : BitVec 6) : BitVec 64 := if n = 0 then 0 else BitVec.twoPow 64 n.toNat
def cMask : Opd → BitVec 64 | .c n => cBit n | _ => 0
def sMask : Opd → BitVec 16 | .s n => BitVec.twoPow 16 n.toNat | _ => 0
def useRW (rd wr : BitVec 64) : Uses := ⟨rd, wr, 0, false, false⟩
def useInt (o : IntOps) : Uses := useRW (cMask o.a ||| cMask o.b ||| cMask o.c) (cMask o.d)
def useFp (o : FpOps) : Uses :=
  ⟨cMask o.a ||| cMask o.b ||| cMask o.c, cMask o.d, sMask o.d ||| sMask o.a ||| sMask o.b ||| sMask o.c, true, true⟩
/-- FCMP's D is a predicate -/
def useFcmp (o : FpOps) : Uses := ⟨cMask o.a ||| cMask o.b, 0, 0, true, true⟩
def useMat (o : MatOps) : Uses :=
  ⟨cMask o.a ||| cMask o.tc, 0,
   sMask o.a ||| sMask o.b ||| sMask o.tc ||| (if o.sap then BitVec.twoPow 16 o.san.toNat else 0) |||
     (if o.sbp then BitVec.twoPow 16 o.sbn.toNat else 0), false, true⟩
def useMem (o : MemOps) : Uses := useRW (cBit o.a ||| cMask o.b) (cMask o.d)
def useAtom (o : AtomOps) : Uses := useRW (cBit o.a ||| cMask o.b ||| cMask o.c) (cBit o.d)
def useStk (o : StkOps) : Uses := useRW (cBit o.a ||| cMask o.b ||| cMask o.c) (cBit o.cd)
def usePh (o : PhOps) : Uses := useRW (cBit o.a ||| cMask o.b) (cBit o.cd)
def useEng (o : EngOps) : Uses := useRW (cBit o.a ||| cMask o.b ||| cBit o.d) 0
def useWhold (o : WholdOps) : Uses := useRW (cBit o.a ||| cMask o.b ||| cMask o.c) 0
def useTlb (o : TlbOps) : Uses := useRW (cBit o.a ||| cBit o.b ||| cBit o.c) 0
def useNone : Uses := useRW 0 0

/-- k.fpmode and k.evc0-k.evc7 by number (R463) -/
def isEvReg (k : BitVec 12) : Bool := 0x018 ≤ k.toNat && k.toNat ≤ 0x01F
def isFpReg (k : BitVec 12) : Bool := k == 0x010 || isEvReg k

def usesOf : Instr → Uses
  | .brx _ o => useRW (cMask o.a ||| cMask o.b) 0
  | .call _ o => useRW 0 (cBit o.d)
  | .callx _ o => useRW (cMask o.a) (cBit o.d)
  | .ret _ o => useRW (cMask o.a) 0
  | .loop _ o => useRW (cBit o.d) (cBit o.d)
  | .add _ o | .sub _ o | .mul _ o | .mulh _ o | .mulhn _ o | .div _ o | .divn _ o | .rem _ o | .remn _ o
  | .and _ o | .or _ o | .xor _ o | .andn _ o | .shl _ o | .shr _ o | .sra _ o | .rotr _ o
  | .min _ o | .max _ o | .minn _ o | .maxn _ o | .abs _ o | .neg _ o
  | .clz _ o | .ctz _ o | .popc _ o | .brev _ o | .bswp _ o | .extr _ o | .extrn _ o => useInt o
  | .ins _ o => useRW (cMask o.a ||| cMask o.b ||| cMask o.c ||| cMask o.d) (cMask o.d)
  | .sel _ o => useRW (cMask o.b ||| cMask o.c) (cBit o.d)
  | .mov _ o => useRW (cMask o.a) (cMask o.d)
  | .movi _ o | .moviHigh _ o => useRW 0 (cMask o.d)
  | .cmp _ o => useRW (cMask o.a ||| cMask o.b) 0
  | .rngx _ o => useRW (cMask o.a ||| cMask o.b) (cMask o.d)
  | .csetb _ o | .csetp _ o | .cadd _ o | .cgetb _ o | .cgetl _ o | .cgetp _ o | .cgett _ o | .cclr _ o
  | .cseal _ o | .cunseal _ o => useRW (cBit o.a ||| cMask o.b) (cBit o.d)
  | .ld _ o | .ldc _ o | .st _ o | .stc _ o | .lda _ o | .str _ o | .pref _ o => useMem o
  | .sdef _ o => useRW (cBit o.a ||| cBit o.b) 0
  | .sdefw _ o => useRW (cBit o.a ||| cBit o.b) 0
  | .sdefk _ o => useRW (cBit o.a ||| cMask o.b) 0
  | .sdefs _ o => useRW (cBit o.a) 0
  | .sld _ o | .srd _ o => ⟨0, 0, BitVec.twoPow 16 o.a.toNat, false, false⟩
  | .sst _ o => ⟨cMask o.a, 0, BitVec.twoPow 16 o.d.toNat, false, false⟩
  | .clean _ o | .inval _ o | .flush _ o => useRW (cBit o.a) 0
  | .spalloc _ o | .spfree _ o => useRW (cBit o.a) 0
  | .aadd _ o | .aand _ o | .aor _ o | .axor _ o | .amin _ o | .amax _ o | .aminn _ o | .amaxn _ o | .aswap _ o
  | .acas _ o | .afadd _ o => useAtom o
  | .radd _ o | .rclr _ o => useRW (cBit o.a ||| cMask o.b) 0
  | .stkinit _ o | .stktake _ o | .stkgive _ o | .stkreadApprox _ o | .stkreadExact _ o => useStk o
  | .phreg _ o | .phdrop _ o | .phsig _ o | .phwait _ o | .phsw _ o | .phexp _ o => usePh o
  | .phgather _ o => { usePh o with evc := true }
  | .evwait _ o | .evpop _ o | .evpeek _ o => useRW (cBit o.a) (cMask o.d)
  | .send _ o | .withdraw _ o => useEng o
  | .qpeek _ o | .qcnt _ o => useRW (cMask o.a ||| cMask o.b) (cBit o.d)
  | .fadd _ o | .fsub _ o | .fmul _ o | .fma _ o | .fms _ o | .fnma _ o | .fnms _ o | .fdiv _ o | .fsqrt _ o
  | .frsqe _ o | .frcpe _ o | .fmin _ o | .fmax _ o | .fabs _ o | .fneg _ o | .fcpsgn _ o | .fclass _ o | .fcvt _ o
  | .fscalb _ o | .fexpo _ o
  | .vadd _ o | .vsub _ o | .vmul _ o | .vfma _ o | .vmax _ o | .vmin _ o | .vabs _ o | .vexp2 _ o | .vrsqe _ o
  | .vrcpe _ o | .vcmp _ o | .vsel _ o | .vfill _ o | .vcopy _ o | .vgather _ o | .vscatter _ o | .vcvt _ o | .vqnt _ o
  | .vamax _ o | .vsum _ o | .vdot _ o | .vdelta _ o | .vrope _ o | .vlse _ o => useFp o
  | .fcmp _ o => useFcmp o
  | .mmul _ o | .mgrp _ o | .mdrain _ o | .mdrainAdd _ o | .mdrainAddOrd _ o => useMat o
  | .mstat _ o => useRW 0 (cMask o.d)
  | .cpy _ o | .cpy2d _ o | .cprot _ o | .cpfill _ o | .bkadd _ o | .bkaxpy _ o | .bkgemv _ o | .bkzero _ o
  | .kvapp _ o | .kvseal _ o | .kvpatch _ o | .kvfork _ o | .kvtrunc _ o | .kvstat _ o
  | .kvjopen _ o | .kvjmark _ o | .kvjundo _ o | .kvjclose _ o | .edins _ o | .eddel _ o | .edrep _ o | .settle _ o
  | .raise _ o | .rebind _ o | .wmark _ o => useEng o
  | .wholdWithin _ o | .wholdBefore _ o | .wholdAfter _ o => useWhold o
  | .wfree _ o => useRW (cBit o.a ||| cMask o.b) 0
  | .wdone _ o => useRW (cBit o.a ||| cBit o.b ||| cMask o.c) 0
  | .wcell _ o => useRW (cBit o.a ||| cMask o.b ||| cMask o.c) (cBit o.d)
  | .ctlrd _ o => ⟨0, cBit o.d, 0, false, isEvReg o.kreg⟩
  | .ctlwr _ o => ⟨cMask o.b, 0, 0, o.kreg == 0x010, isEvReg o.kreg⟩
  | .tlbwr _ o | .tlbwrFill _ o | .tlbwrFault _ o | .tlbwrPeer _ o => useTlb o
  | .tlbinv _ o => useRW (cBit o.a ||| cBit o.b ||| cBit o.c) 0
  | .tlbprobe _ o => useRW (cBit o.a ||| cBit o.b) (cBit o.d)
  | .cflush _ o => useRW (cMask o.b ||| cMask o.c) 0
  | _ => useNone

/-- the uses of an execute word; an illegal one uses nothing -/
def usesOfWord (w : IWord) : Uses := match decode w with | .ok i => usesOf i | .error _ => useNone

/-- R288: an access word conflicts with an earlier execute word still to run. -/
def conflicts (a e : Uses) : Bool :=
  a.rd &&& e.wr != 0 || a.wr &&& (e.rd ||| e.wr) != 0 || a.mode && e.mode || a.evc && e.evc

/-- R295: the execute words that still use the definition of the streams `st` an access word names: those behind the
last pending definition of each. -/
def streamWait (st : BitVec 16) : List SliceEntry → Bool
  | [] => false
  | .word _ w :: t => (usesOfWord w).st &&& st &&& ~~~(laterDefs t) != 0 || streamWait st t
  | .sdef _ _ :: t => streamWait st t
where
  /-- streams defined again further on -/
  laterDefs : List SliceEntry → BitVec 16
    | [] => 0
    | .sdef n _ :: t => BitVec.twoPow 16 n.toNat ||| laterDefs t
    | .word _ _ :: t => laterDefs t

/-- the definition an access word sees: the last pending one, or the register (R288, R295) -/
def pendingDef (n : BitVec 4) : List SliceEntry → Option Stream
  | [] => none
  | .sdef m d :: t => (pendingDef n t).or (if m = n then some d else none)
  | .word _ _ :: t => pendingDef n t
def accessStream (t : Thread) (n : BitVec 4) : Option Stream := (pendingDef n t.slice).or (getS t n)
def replaceDef (n : BitVec 4) (d : Stream) : List SliceEntry → List SliceEntry
  | [] => []
  | .sdef m e :: t => if m = n ∧ (pendingDef n t).isNone then .sdef m d :: t else .sdef m e :: replaceDef n d t
  | .word p w :: t => .word p w :: replaceDef n d t
/-- the access half advances a stream -/
def setAccessStream (t : Thread) (n : BitVec 4) (d : Stream) : Thread :=
  if (pendingDef n t.slice).isSome then { t with slice := replaceDef n d t.slice } else setS t n (some d)
/-- the definitions of a stream that execute words in the buffer still use: the register's, and each pending one's -/
def defsInUse (n : BitVec 4) : Bool → List SliceEntry → Nat
  | used, [] => if used then 1 else 0
  | used, .word _ w :: t => defsInUse n (used || (usesOfWord w).st.getLsbD n.toNat) t
  | used, .sdef m _ :: t => if m = n then (if used then 1 else 0) + defsInUse n false t else defsInUse n used t
/-- R295: a definition takes effect behind the execute words still to run; one that would make a third in use waits. -/
def defineStream (t : Thread) (n : BitVec 4) (d : Stream) : Except Stop Thread :=
  if t.slice.isEmpty then .ok (setS t n (some d))
  else if defsInUse n false t.slice ≥ 2 then .error .wait
  else .ok { t with slice := t.slice ++ [.sdef n d] }

/-! ## Memory between the access half and the wide unit and array (R296, R315, R435, R444) -/

/-- A range of bytes: scratch or memory, [lo, hi), written or read. -/
structure MRange where
  scratch : Bool
  lo : Nat
  hi : Nat
  write : Bool
  deriving DecidableEq, Repr, Inhabited

def overlaps (a b : MRange) : Bool := a.scratch == b.scratch && decide (a.lo < b.hi ∧ b.lo < a.hi) && (a.write || b.write)

/-- bytes of physical memory: a 64 KiB frame, and [lo, hi) in it -/
structure PRange where
  frame : Nat
  lo : Nat
  hi : Nat
  /-- of an SO page -/
  so : Bool
  deriving DecidableEq, Repr, Inhabited
/-- the part of a range in its i-th 64 KiB page, as the core would translate it now -/
def physPiece (s : State) (k : Nat) (ctx : BitVec 12) (r : MRange) (i : Nat) : Option PRange :=
  let lo := max r.lo (pageOf r.lo + 65536 * i)
  let hi := min r.hi (pageOf r.lo + 65536 * (i + 1))
  if hi ≤ lo then none
  else match peekLeaf s k ctx lo with
    | some e =>
      -- a page without a frame shares bytes with no other, and may be an SO page all the same
      if leafAnon e.leaf then (if leafOrd e.leaf == 1 then some ⟨0, 0, 0, true⟩ else none)
      else some ⟨(xlatLocal e lo).pa / 65536, lo % 65536, lo % 65536 + (hi - lo), leafOrd e.leaf == 1⟩
    | none => none
def physRanges (s : State) (k : Nat) (ctx : BitVec 12) (r : MRange) : List PRange :=
  if r.scratch || decide (r.hi ≤ r.lo) then [] else (List.range ((r.hi - r.lo) / 65536 + 2)).filterMap (physPiece s k ctx r)
def meets (a b : PRange) : Bool := a.frame == b.frame && decide (a.lo < b.hi ∧ b.lo < a.hi)
/-- Two accesses of one core that keep their program order: they share bytes, by one address or through two pages of one
frame (R110), and one of them writes; or both are SO accesses (R111). -/
def clash (s : State) (k : Nat) (ctx : BitVec 12) (a b : MRange) : Bool :=
  overlaps a b ||
  (let p := physRanges s k ctx a
   let q := physRanges s k ctx b
   p.any (fun x => q.any (fun y => (x.so && y.so) || ((a.write || b.write) && meets x y))))

/-- the least and greatest offset of a strided walk -/
def strideSpan : List Nat → List Int → Int × Int
  | c :: cs, d :: ds =>
    let (lo, hi) := strideSpan cs ds
    let e : Int := (c - 1 : Nat) * d
    (if e < 0 then lo + e else lo, if e < 0 then hi else hi + e)
  | _, _ => (0, 0)
/-! ### The elements of streams -/

/-- the offset of element i of a strided walk, dimension 0 fastest (R409) -/
def strideOff : List Nat → List Int → Nat → Int
  | c :: cs, d :: ds, i => ((i % c : Nat) : Int) * d + strideOff cs ds (i / c)
  | _, _, _ => 0
/-- R312: the place of element i of a window walk in the image, none in the padding -/
def windowPlace (w : WindowDesc) (i : Nat) : Option Nat :=
  let k := w.KH * w.KW * w.C
  let p := w.P0 + i / k
  let r := i % k
  let y : Int := ((p / w.OW * w.SH + r / (w.KW * w.C) : Nat) : Int) - w.PT
  let x : Int := ((p % w.OW * w.SW + r / w.C % w.KW : Nat) : Int) - w.PL
  if p < w.OH * w.OW ∧ 0 ≤ y ∧ y < w.H ∧ 0 ≤ x ∧ x < w.W then some ((y.toNat * w.W + x.toNat) * w.C + r % w.C) else none
/-- bytes an element of a stream takes; the 4-bit formats share one -/
def elemBytes (d : Stream) : Nat := (d.ebits + 7) / 8
/-- the byte address of element i; none is a zero of R303 or R312 -/
def elemAddr (d : Stream) (i : Nat) : Option Nat :=
  if d.count ≤ i then none
  else
    let cur := (capCursor d.cap).toNat
    match d.kind with
    | .strided [] _ => some (cur + i * d.ebits / 8)
    | .strided cs ds => some (((cur : Int) + strideOff cs ds i).toNat)
    | .window w => (windowPlace w i).map (fun j => cur + j * elemBytes d)
    | _ => none
/-- the bytes of n items of a stream from item i on -/
def itemRanges (d : Stream) (i n : Nat) (write : Bool) : List MRange :=
  let sc := capKind d.cap == 1
  let cur := (capCursor d.cap).toNat
  let m := min n (d.count - i)
  match d.kind with
  | .strided [] _ => [⟨sc, cur + i * d.ebits / 8, cur + ((i + m) * d.ebits + 7) / 8, write⟩]
  | .skip _ => [⟨true, cur + 2 * i, cur + 2 * (i + m), write⟩]
  | .kiln _ _ _ _ _ _ => []
  | _ => (List.range m).filterMap (fun j => (elemAddr d (i + j)).map (fun a => ⟨sc, a, a + elemBytes d, write⟩))

/-! ### The operands of the vector instructions (R433-R442) -/

def elemBitsOf (f : BitVec 7) : Nat := (fmtOf f).elemBits
/-- The operands of a vector instruction: the format each source position is read in (none where it is no source), the
format of D, and whether B stores as VQNT's does. -/
structure WForm where
  o : FpOps
  fa : Option (BitVec 7)
  fb : Option (BitVec 7)
  fc : Option (BitVec 7)
  fd : BitVec 7
  bStore : Bool
  deriving DecidableEq, Repr, Inhabited
def fI64 : BitVec 7 := 0x12
def fN8 : BitVec 7 := 0x09
def form1 (o : FpOps) : WForm := ⟨o, some o.fmt, none, none, o.fmt, false⟩
def form2 (o : FpOps) : WForm := ⟨o, some o.fmt, some o.fmt, none, o.fmt, false⟩
def form3 (o : FpOps) : WForm := ⟨o, some o.fmt, some o.fmt, some o.fmt, o.fmt, false⟩
def wForm : Instr → Option WForm
  | .vadd _ o | .vsub _ o | .vmul _ o | .vmax _ o | .vmin _ o | .vcmp _ o | .vdot _ o | .vdelta _ o => some (form2 o)
  | .vfma _ o | .vsel _ o => some (form3 o)
  | .vabs _ o | .vexp2 _ o | .vrsqe _ o | .vrcpe _ o | .vfill _ o | .vcopy _ o | .vamax _ o | .vsum _ o => some (form1 o)
  | .vgather _ o => some ⟨o, none, some o.fmt2, none, o.fmt, false⟩
  | .vscatter _ o => some ⟨o, none, some o.fmt2, some o.fmt, o.fmt, false⟩
  | .vcvt _ o => some ⟨o, some o.fmt, none, none, o.fmt2, false⟩
  | .vqnt _ o => some ⟨o, some o.fmt, some fN8, none, o.fmt2, true⟩
  | .vrope _ o => some ⟨o, some o.fmt, some fI64, some fI64, o.fmt, false⟩
  | .vlse _ o => some ⟨o, some o.fmt, some o.fmt, some fI64, o.fmt, false⟩
  | _ => none
/-- elements left of a stream -/
def remaining (d : Option Stream) : Nat := match d with | some d => d.count - d.pos | none => 0
/-- R433: N, by what a stream register holds -/
def elemCountBy (defs : BitVec 4 → Option Stream) (i : Instr) (o : FpOps) : Nat :=
  let look (o : Opd) : Option Stream := match o with | .s n => defs n | _ => none
  match i with
  | .vscatter _ _ => remaining (look o.b)
  | _ => match o.d with | .s _ => remaining (look o.d) | _ => remaining (look o.a)
def elemCount (i : Instr) (o : FpOps) (t : Thread) : Nat := elemCountBy (getS t) i o

/-! ### What pending words access -/

/-- the bytes from a capability's cursor to its limit -/
def cursorRange (c : CReg) (write : Bool) : MRange := ⟨capKind c.bits == 1, curOf c, capLimit c.bits, write⟩
def capRange (c : CReg) (write : Bool) : MRange := ⟨capKind c.bits == 1, capBase c.bits, capLimit c.bits, write⟩
def argRange (a : WideArg) (i n : Nat) (write : Bool) : List MRange :=
  match a with | .stream d => itemRanges d (d.pos + i) n write | _ => []
/-- What a dispatched instruction has still to access. VQNT stores through B as well; VGATHER reads and VSCATTER writes its
table. -/
def wideRanges (o : WideOp) : List MRange :=
  let left := o.n - o.done
  argRange o.a o.done left false ++
  (match o.instr with
   | .vqnt _ _ => argRange o.b (o.done / 32) ((left + 31) / 32) true
   | _ => argRange o.b o.done left false) ++
  argRange o.c o.done left false ++ argRange o.d o.done left true ++
  (match o.instr with
   | .vgather _ _ => [capRange o.table false]
   | .vscatter _ _ => [capRange o.table true]
   | _ => [])

/-- A word's taking of items from a stream: n elements of `fb` bits, or (fb 0) as many entries as the list has. -/
structure Take where
  stream : BitVec 4
  n : Nat
  fb : Nat
  write : Bool
  deriving DecidableEq, Repr, Inhabited
def takeOpd (o : Opd) (n fb : Nat) (write : Bool) : List Take := match o with | .s m => [⟨m, n, fb, write⟩] | _ => []
def takeSource (o : Opd) (f : Option (BitVec 7)) (n : Nat) (write : Bool) : List Take :=
  match f with | some c => takeOpd o n (elemBitsOf c) write | none => []
/-- scale groups of an instruction: one E8M0 code for each 32 k -/
def scaleGroups (o : MatOps) : Nat := (o.km1.toNat + 32) / 32
/-- R445: the scales of n lines -/
def takeScales (present : Bool) (m : BitVec 4) (scale : BitVec 2) (n groups : Nat) : List Take :=
  if !present then [] else if scale == 1 then [⟨m, n * groups, 8, false⟩] else [⟨m, n, 32, false⟩]
/-- What a word takes of its streams, in the order of R295, the most it can take; `certain` says that it takes all of that. -/
def takesOf (defs : BitVec 4 → Option Stream) (i : Instr) : List Take × Bool :=
  match wForm i with
  | some f =>
    let n := elemCountBy defs i f.o
    (takeSource f.o.a f.fa n false ++ takeSource f.o.b f.fb (if f.bStore then (n + 31) / 32 else n) f.bStore ++
     takeSource f.o.c f.fc n false ++ takeOpd f.o.d n (elemBitsOf f.fd) true, true)
  | none => match i with
    | .mmul _ o =>
      let k := o.km1.toNat + 1
      (takeOpd o.a (16 * k) (elemBitsOf o.fa) false ++ takeOpd o.b (64 * k) (elemBitsOf o.fb) false ++
       takeScales o.sap o.san o.scale 16 (scaleGroups o) ++ takeScales o.sbp o.sbn o.scale 64 (scaleGroups o) ++ takeOpd o.tc 0 0 false,
       match o.tc with | .s _ => false | _ => true)
    | .mgrp _ o =>
      let k := o.km1.toNat + 1
      (takeOpd o.a (16 * k) (elemBitsOf o.fa) false ++ takeOpd o.b (8 * 64 * k) (elemBitsOf o.fb) false ++
       takeScales o.sap o.san o.scale 16 (scaleGroups o) ++ takeScales o.sbp o.sbn o.scale (8 * 64) (scaleGroups o), false)
    | _ => ([], true)
/-- the capability register through which an execute word reaches memory, streams apart -/
def tableReg : Instr → BitVec 64
  | .vgather _ o | .vscatter _ o => cMask o.a
  | .mdrain _ o => cMask o.a
  | _ => 0
def tableRanges (t : Thread) (i : Instr) : List MRange :=
  let reg (o : Opd) : CReg := match o with | .c n => getC t n | _ => cZero
  match i with
  | .vgather _ o => [capRange (reg o.a) false]
  | .vscatter _ o => [capRange (reg o.a) true]
  | .mdrain _ o =>
    let c := reg o.a
    [⟨capKind c.bits == 1, curOf c, curOf c + (o.km1.toNat + 1) * 64 * (elemBitsOf o.fa / 8), true⟩]
  | _ => []
/-- A stream as the words still to run leave it: its position at least, and how many items further it may stand. -/
abbrev Ahead := BitVec 4 → Option (Stream × Nat)
def aheadOf (t : Thread) : Ahead := fun n => (getS t n).map (·, 0)
/-- one taking: the bytes it may touch, and the stream past it -/
def takeItems (certain : Bool) (r : List MRange × Ahead) (x : Take) : List MRange × Ahead :=
  match r.2 x.stream with
  | none => r
  | some (d, slack) =>
    let m := if x.fb = 0 then d.count - d.pos else (x.n * x.fb + d.ebits - 1) / d.ebits
    (r.1 ++ itemRanges d d.pos (slack + m) x.write,
     fun n => if n = x.stream then some (if certain then ({ d with pos := d.pos + m }, slack) else (d, slack + m)) else r.2 n)
/-- the bytes a word may touch, and the streams past it; a word whose guard is still to be written may not run -/
def wordAhead (t : Thread) (a : Ahead) (i : Instr) : List MRange × Ahead :=
  let always := match i.hdr with | some h => h.g == 0 && !h.gn | none => true
  let x := takesOf (fun n => (a n).map (·.1)) i
  let r := x.1.foldl (takeItems (x.2 && always && x.1.all (fun y => (a y.stream).all (·.2 == 0)))) ([], a)
  (r.1 ++ tableRanges t i, r.2)
def wordRanges (t : Thread) (i : Instr) : List MRange := (wordAhead t (aheadOf t) i).1
def sliceRanges (t : Thread) (a : Ahead) : List SliceEntry → List MRange
  | [] => []
  | .word _ w :: r =>
    match decode w with
    | .ok i => let x := wordAhead t a i; x.1 ++ sliceRanges t x.2 r
    | .error _ => sliceRanges t a r
  | .sdef n d :: r => sliceRanges t (fun m => if m = n then some (d, 0) else a m) r
/-- an execute word reaches memory through a register that an execute word before it has still to write: where, is not known
yet, and every access waits. `wr` holds the registers still to be written. -/
def tableUnknown (wr : BitVec 64) : List SliceEntry → Bool
  | [] => false
  | .word _ w :: r =>
    match decode w with
    | .ok i => tableReg i &&& wr != 0 || tableUnknown (wr ||| (usesOf i).wr) r
    | .error _ => tableUnknown wr r
  | .sdef _ _ :: r => tableUnknown wr r
/-- R296: an execute word's own accesses meet those that dispatched wide-unit work has still to make -/
def wideClash (s : State) (k : Nat) (t : Thread) (i : Instr) : Bool :=
  (wordRanges t i).any (fun a => (t.wide.flatMap wideRanges).any (clash s k t.id.ctx a))
/-- every byte range the wide unit and the array have still to read or write -/
def pendingRanges (t : Thread) : List MRange := t.wide.flatMap wideRanges ++ sliceRanges t (aheadOf t) t.slice

def memRange (t : Thread) (a : BitVec 6) (off : BitVec 16) (z : Nat) (write : Bool) : MRange :=
  let c := getC t a
  let lo := (capCursor c.bits + off.signExtend 64).toNat
  ⟨capKind c.bits == 1, lo, lo + z, write⟩
/-- the next 16 bytes of a stream, or the next entry of a skip list -/
def accessRange (t : Thread) (n : BitVec 4) (write : Bool) : List MRange :=
  match accessStream t n with
  | some d => itemRanges d d.pos (match d.kind with | .skip _ => 1 | _ => 128 / d.ebits) write
  | none => []
/-- the bytes an access word accesses -/
def accessRanges (t : Thread) : Instr → List MRange
  | .ld _ o | .lda _ o | .pref _ o => [memRange t o.a o.off (2 ^ o.size.toNat) false]
  | .ldc _ o => [memRange t o.a o.off 32 false]
  | .st _ o | .str _ o => [memRange t o.a o.off (2 ^ o.size.toNat) true]
  | .stc _ o => [memRange t o.a o.off 32 true]
  | .aadd _ o | .aand _ o | .aor _ o | .axor _ o | .amin _ o | .amax _ o | .aminn _ o | .amaxn _ o | .aswap _ o
  | .acas _ o | .afadd _ o => [memRange t o.a o.off 8 true]
  | .sld _ o | .srd _ o => accessRange t o.a false
  | .sst _ o => accessRange t o.d true
  | .sdef _ o => if o.b = 0 then [] else [memRange t o.b 0 64 false]
  | .sdefw _ o => [memRange t o.b 0 64 false]
  | .spfree _ o => [cursorRange (getC t o.a) true]
  | .send _ o => [memRange t (match o.b with | .c n => n | _ => 0) 0 256 false]
  | _ => []
/-- words that order every earlier access, those of the wide unit and the array included (R113, R299, R414, R435) -/
def ordersAll : Instr → Bool
  | .fence _ _ | .clean _ _ | .inval _ _ | .flush _ _ | .str _ _ | .phsig _ _ | .phsw _ _ | .phgather _ _ => true
  | .aadd _ o | .aand _ o | .aor _ o | .axor _ o | .amin _ o | .amax _ o | .aminn _ o | .amaxn _ o | .aswap _ o
  | .acas _ o | .afadd _ o => o.order.getLsbD 1
  | .send _ o | .cpy _ o | .cpy2d _ o | .cprot _ o | .cpfill _ o | .bkadd _ o | .bkaxpy _ o | .bkgemv _ o | .bkzero _ o
  | .kvapp _ o | .kvseal _ o | .kvpatch _ o | .kvfork _ o | .kvtrunc _ o | .kvstat _ o
  | .kvjopen _ o | .kvjmark _ o | .kvjundo _ o | .kvjclose _ o | .edins _ o | .eddel _ o | .edrep _ o | .settle _ o
  | .raise _ o | .rebind _ o | .wmark _ o => o.rel
  | _ => false

/-- a word whose guard is false reads and writes nothing (R363) -/
def guardedOff (t : Thread) (i : Instr) : Bool := match i.hdr with | some h => !guardTrue h t | none => false
/-- Whether an access word has to wait for execute words or wide-unit work before it in program order. RETT writes p1-p7,
which the execute half reads, and waits until it is empty (R476). -/
def mustWait (s : State) (k : Nat) (t : Thread) (i : Instr) : Bool :=
  let u := usesOf i
  !guardedOff t i &&
  (t.slice.any (fun e => match e with | .word _ w => conflicts u (usesOfWord w) | _ => false) ||
  streamWait u.st t.slice ||
  (u.evc && !t.wide.isEmpty) ||
  (if ordersAll i then !(pendingRanges t).isEmpty
   else (accessRanges t i).any (fun a => tableUnknown 0 t.slice || (pendingRanges t).any (clash s k t.id.ctx a))) ||
  (match i with | .rett _ => !t.slice.isEmpty | _ => false))

end Sys2Proof.Machine
end

