-- ==== Sys2Proof/Machine/Fetch.lean ====
section
/-! DEFINITION. Fetching words (R285, R360, R361, R372), the mask-word test (R373), and which agent may run what (R375,
R463). -/
namespace Sys2Proof.Machine

/-- What a fetch of bytes gives. -/
inductive Fetched where
  | got (bytes : List Byte) (s : State)
  | wait (s : State)
  | trap (s : State) (code : BitVec 8) (detail : W64)

/-- n bytes of code from va, sector by sector, through L1 (R361) -/
def fetchF (k : Nat) (ctx : BitVec 12) : Nat → Nat → Nat → State → Fetched
  | 0, _, _, s => .got [] s
  | fuel + 1, va, n, s =>
    if n = 0 then .got [] s
    else match translate s k ctx va .fetch with
      | .wait s => .wait s
      | .fault c s => .trap s c (addrDetail (BitVec.ofNat 64 va))
      | .hit x s =>
        if x.rd then .trap s tPage (addrDetail (BitVec.ofNat 64 va))
        else if !inL1 s k x && (byteHeld s ctx x false || portWaits s x) then .wait s
        else
          let m := min n (64 - va % 64)
          let (d, s) := loadSector s k ctx x
          if d.poison then .trap s tData (addrDetail (BitVec.ofNat 64 va))
          else match fetchF k ctx fuel (va + m) (n - m) s with
            | .got bs s => .got (toBytes m (secBytes d.data (va % 64) m) ++ bs) s
            | r => r
/-- one word of 12 bytes -/
def fetchWord (s : State) (k : Nat) (t : Thread) (pc : W64) : Fetched := fetchF k t.id.ctx 2 pc.toNat 12 s

/-! ## The mask-word test (R373) -/

/-- a code byte as the core would see it; none where it cannot be read -/
def peekByte (s : State) (k : Nat) (ctx : BitVec 12) (va : Nat) : Option Byte :=
  match peekLeaf s k ctx va with
  | none => none
  | some e =>
    if leafAnon e.leaf || !leafX e.leaf then none
    else
      let x := xlatLocal e va
      let d := if x.ms then (homeView s.mem (x.pa / 64)).data
        else match mfind (core s k).l1 (x.pa / 64) with | some y => y.data | none => (homeView s.mem (x.pa / 64)).data
      some (BitVec.ofNat 8 (secBytes d (x.pa % 64) 1))
/-- bit [82] of the word at an address; below the code capability's base, and where nothing can be read, 0 (log 21) -/
def wordHasP (s : State) (k : Nat) (t : Thread) (va : W64) : Bool :=
  if va.toNat < capBase t.code.bits then false
  else match peekByte s k t.id.ctx (va.toNat + 10) with | some b => b.getLsbD 2 | none => false
/-- the run of words with bit [82] = 1 that ends at `va`, at most `n` long -/
def runBack (s : State) (k : Nat) (t : Thread) (va : W64) : Nat → Nat
  | 0 => 0
  | n + 1 => if va.toNat < 2 ^ 57 && wordHasP s k t va then 1 + runBack s k t (va - 12) n else 0
def isMaskWord (s : State) (k : Nat) (t : Thread) (target : W64) : Bool :=
  let n := runBack s k t (target - 12) 32
  n == 32 || n % 2 == 1

/-! ## Which agent may run an instruction (R375, R463, R476) -/

/-- registers a firing reads -/
def firingKreg (k : BitVec 12) : Bool := decide (k.toNat ≤ 6) || isFpReg k
/-- registers firmware reads -/
def firmwareKreg (k : BitVec 12) : Bool :=
  [0x000, 0x001, 0x004, 0x005, 0x100, 0x101, 0x102, 0x103, 0x104, 0x105, 0x110, 0x111, 0x118, 0x119].contains k.toNat || isFpReg k
/-- registers an agent writes -/
def writableKreg (firmware : Bool) (k : BitVec 12) : Bool :=
  isFpReg k || (firmware && [0x100, 0x101, 0x104, 0x105].contains k.toNat)
def agentMay (t : Thread) : Instr → Bool
  | .ctlrd _ o => if t.id.firmware then firmwareKreg o.kreg else firingKreg o.kreg
  | .ctlwr _ o => writableKreg t.id.firmware o.kreg
  | .tlbwr _ _ | .tlbwrFill _ _ | .tlbwrFault _ _ | .tlbwrPeer _ _ | .tlbinv _ _ | .tlbprobe _ _ | .cflush _ _
  | .hbeat _ _ | .idle _ _ => t.id.firmware || t.id.ctx == 0
  | .rett _ => t.id.firmware
  | _ => true

/-- An instruction some agents may not run: an illegal instruction for them, whatever its guard (R377). -/
def runAgent (h : Hdr) (i : Instr) (f : Thread → State → Res) (s : State) : Host.Outcome State Fault Refusal :=
  match curThread s with
  | none => .next s
  | some t => if agentMay t i then runState h f s else .next (takeTrap (!h.s) s tIllegal 0)

/-! ## The two halves -/

/-- What a turn comes to: an instruction or event to run at a state, or a state reached without one. -/
inductive Ready where
  | run (i : Instr) (s : State)
  | stay (s : State)

/-- the access half traps at a word -/
def trapAt (s : State) (k : Nat) (pc : W64) (exe : Bool) (code : BitVec 8) (detail : W64) : State :=
  takeTrap exe { s with cur := { core := k, pc := pc, word := 0, mask := 0, arg := .none } } code detail
/-- R285: an execute word goes to the slice buffer -/
def pushSlice (s : State) (t : Thread) (pc : W64) (w mask : IWord) : Thread :=
  let p := w.getLsbD 82
  let t := sigStep { t with pc := if p then pc + 24 else pc + 12, slice := t.slice ++ [.word pc w] } w
  if p && !isGangWord w then passSafe s t mask else t
def sliceCap : Nat := 256
/-- words in the slice buffer; the pending stream definitions take no place in it -/
def sliceWords (l : List SliceEntry) : Nat := (l.filter (fun e => match e with | .word _ _ => true | .sdef _ _ => false)).length
/-- route a fetched word (R285, R377) -/
def routeWord (s : State) (k : Nat) (t : Thread) (pc : W64) (w mask : IWord) : Ready :=
  if w.getLsbD 83 then
    match decode w with
    | .error _ => .stay (trapAt s k pc false tIllegal 0)
    | .ok i =>
      -- an instruction the agent may not run waits for nothing (R375, R377)
      if agentMay t i && mustWait s k t i then .stay s
      else .run i { s with cur := { core := k, pc := pc, word := w, mask := mask, arg := .none } }
  else if sliceWords t.slice ≥ sliceCap then .stay s
  else .stay (setThreadOf s k (pushSlice s t pc w mask))
/-- R361, R372: the word at the PC, with its mask word -/
def accessTurn (s : State) (k : Nat) : Ready :=
  match threadOf s k with
  | none => .stay s
  | some t =>
    if t.fw.stopped || t.safe.isSome then .stay s
    else
      let pc := t.pc
      match checkCap t.code [0] permX pc 12 with
      | .error (.trap c d) => .stay (trapAt s k pc false c d)
      | .error .wait => .stay s
      | .ok () =>
        match fetchWord s k t pc with
        | .wait s => .stay s
        | .trap s c d => .stay (trapAt s k pc false c d)
        | .got bs s =>
          let w := wordOfBytes bs
          if w.getLsbD 82 then
            match checkCap t.code [0] permX (pc + 12) 12 with
            | .error (.trap c d) => .stay (trapAt s k pc false c d)
            | .error .wait => .stay s
            | .ok () =>
              match fetchWord s k t (pc + 12) with
              | .wait s => .stay s
              | .trap s c d => .stay (trapAt s k pc false c d)
              | .got ms s => routeWord s k t pc w (wordOfBytes ms)
          else routeWord s k t pc w 0
/-- the head of the slice buffer -/
def executeTurn (s : State) (k : Nat) : Ready :=
  match threadOf s k with
  | none => .stay s
  | some t =>
    if t.fw.stopped then .stay s
    else match t.slice with
      | [] => .stay s
      | .sdef _ _ :: _ => .stay (setThreadOf s k (applyDefs t t.slice))
      | .word pc w :: _ =>
        match decode w with
        | .error _ => .stay (trapAt s k pc true tIllegal 0)
        | .ok i => .run i { s with cur := { core := k, pc := pc, word := w, mask := 0, arg := .none } }

end Sys2Proof.Machine
end

