-- ==== Sys2Proof/Machine/Scalar.lean ====
section
/-! DEFINITION. The scalar floating-point operations of a thread (R423-R432). -/
namespace Sys2Proof.Machine

/-- the layout FMT names; the entries admit FP32, BF16 and FP16 -/
def layoutOf (f : BitVec 7) : FLayout := match fmtOf f with | .float p => p | _ => fp32

/-- An inline constant stands for its integer in the format (R424); where the format does not hold the integer the
code is a free value (log 18). -/
def immIn (code : BitVec 7) (v : Int) : Nat :=
  match fmtOf code with
  | .float p =>
    let r := (finOut p ctlRne false (decide (v < 0)) v.natAbs 0).1
    match unpackF p r with
    | .num n m e =>
      if sumAt (if e ≤ 0 then e else 0) [⟨n, m, e⟩, ⟨decide (v > 0), v.natAbs, 0⟩] = 0 then r
      else Config.freeInline code v % 2 ^ (fmtOf code).bits
    | _ => Config.freeInline code v % 2 ^ (fmtOf code).bits
  | .int w s =>
    if (if s then decide (-(2 ^ (w - 1)) ≤ v ∧ v < 2 ^ (w - 1)) else decide (0 ≤ v ∧ v < 2 ^ w)) then (v % 2 ^ w).toNat
    else Config.freeInline code v % 2 ^ w
  | .e8m0 => 0
/-- R424: a scalar source read as a value of a format. -/
def readFp (t : Thread) (code : BitVec 7) (o : Opd) : Except Stop (Nat × Thread) :=
  match o with
  | .imm v => .ok (immIn code (immOf v), t)
  | o => match readOpd t o with
    | .ok (v, t) => .ok (v.toNat % 2 ^ (fmtOf code).bits, t)
    | .error e => .error e

/-- one source, one result of the same format -/
def fp1Thread (f : FLayout → FCtl → Nat → Nat × Events) (o : FpOps) (t : Thread) : Except Stop Thread := do
  let p := layoutOf o.fmt
  let c := ctlOf t o
  let (a, t) ← readFp t o.fmt o.a
  let r := f p c a
  let t ← writeOpd t o.d (BitVec.ofNat 64 r.1)
  .ok (countEvents t r.2)
def fp2Thread (f : FLayout → FCtl → Nat → Nat → Nat × Events) (o : FpOps) (t : Thread) : Except Stop Thread := do
  let p := layoutOf o.fmt
  let c := ctlOf t o
  let (a, t) ← readFp t o.fmt o.a
  let (b, t) ← readFp t o.fmt o.b
  let r := f p c a b
  let t ← writeOpd t o.d (BitVec.ofNat 64 r.1)
  .ok (countEvents t r.2)
def fp3Thread (f : FLayout → FCtl → Nat → Nat → Nat → Nat × Events) (o : FpOps) (t : Thread) : Except Stop Thread := do
  let p := layoutOf o.fmt
  let c := ctlOf t o
  let (a, t) ← readFp t o.fmt o.a
  let (b, t) ← readFp t o.fmt o.b
  let (d, t) ← readFp t o.fmt o.c
  let r := f p c a b d
  let t ← writeOpd t o.d (BitVec.ofNat 64 r.1)
  .ok (countEvents t r.2)
/-- R429: FSCALB reads B as a signed 64-bit integer. -/
def fscalbThread (o : FpOps) (t : Thread) : Except Stop Thread := do
  let p := layoutOf o.fmt
  let c := ctlOf t o
  let (a, t) ← readFp t o.fmt o.a
  let (n, t) ← readW t o.b
  let r := fpScalb p c a n.toInt
  let t ← writeOpd t o.d (BitVec.ofNat 64 r.1)
  .ok (countEvents t r.2)
def fexpoThread (o : FpOps) (t : Thread) : Except Stop Thread := do
  let p := layoutOf o.fmt
  let c := ctlOf t o
  let (a, t) ← readFp t o.fmt o.a
  let r := fpExpo p c a
  let t ← writeOpd t o.d r.1
  .ok (countEvents t r.2)
/-- R430: D is the predicate number. -/
def fcmpThread (o : FpOps) (t : Thread) : Except Stop Thread := do
  let p := layoutOf o.fmt
  let c := ctlOf t o
  let (a, t) ← readFp t o.fmt o.a
  let (b, t) ← readFp t o.fmt o.b
  let r := fpCmp p c o.opt a b
  let n : BitVec 4 := match o.d with | .c n => n.setWidth 4 | _ => 0
  .ok (countEvents (setP t n r.1) r.2)
def fclassThread (o : FpOps) (t : Thread) : Except Stop Thread := do
  let p := layoutOf o.fmt
  let (a, t) ← readFp t o.fmt o.a
  writeOpd t o.d (fpClass p a)
/-- R432 with an inline source: the constant stands for the integer itself (R424). -/
def convertImm (c : FCtl) (src dst : Fmt) (v : Int) : Nat × Events :=
  match dst, src with
  | .float q, _ => finOut q c (decide (dst.sig < src.sig)) (decide (v < 0)) v.natAbs 0
  | .int w s, .float _ => toIntOut w s c (.num (decide (v < 0)) v.natAbs 0)
  | .int w _, _ => ((v % 2 ^ w).toNat, evNone)
  | .e8m0, _ => (0, evNone)
/-- R432 -/
def fcvtThread (o : FpOps) (t : Thread) : Except Stop Thread := do
  let c := ctlOf t o
  let (r, t) ← match o.a with
    | .imm v => .ok (convertImm c (fmtOf o.fmt) (fmtOf o.fmt2) (immOf v), t)
    | a => match readFp t o.fmt a with
      | .ok (x, t) => .ok (convert c (fmtOf o.fmt) (fmtOf o.fmt2) x, t)
      | .error e => .error e
  let t ← writeOpd t o.d (BitVec.ofNat 64 r.1)
  .ok (countEvents t r.2)

end Sys2Proof.Machine
end

