-- ==== Sys2Proof/Machine/Access.lean ====
section
/-! DEFINITION. Accesses of a core to memory and scratch (R110-R116, R123, R293, R402), one by one and through streams
(R294, R295, R303, R311-R313, R409): what the memory instructions, the wide unit and the matrix array share. -/
namespace Sys2Proof.Machine

/-! ## Effects that may wait or trap on their way -/

/-- Why an effect stops, with the state reached: a wait, or a trap of R201. -/
inductive AStop where
  | wait (s : State)
  | trap (s : State) (code : BitVec 8) (detail : W64)
abbrev AM (α : Type) := StateT State (Except AStop) α
def aWait {α : Type} : AM α := fun s => .error (.wait s)
def aTrap {α : Type} (code : BitVec 8) (detail : W64) : AM α := fun s => .error (.trap s code detail)
def aStop {α : Type} (e : Stop) : AM α := match e with | .wait => aWait | .trap c d => aTrap c d
def aLift {α : Type} (r : Except Stop α) : AM α := match r with | .ok a => pure a | .error e => aStop e
def aUnless (ok : Bool) (e : Stop) : AM Unit := if ok then pure () else aStop e
def aState : AM State := fun s => .ok (s, s)
def aMod (f : State → State) : AM Unit := fun s => .ok ((), f s)
/-- a result for each number below a count -/
def aEach {α β : Type} (f : α → AM β) : List α → AM (List β)
  | [] => pure []
  | a :: t => do let b ← f a; let r ← aEach f t; pure (b :: r)
def aFor {α : Type} (f : α → AM Unit) : List α → AM Unit
  | [] => pure ()
  | a :: t => do f a; aFor f t

/-- the peers noted on the way are kept -/
def keepPeers (s : State) (t : Thread) : Thread :=
  match curThread s with | some u => { t with opn := { t.opn with peers := u.opn.peers } } | none => t
/-- An instruction from its effect on the thread of the current core: a wait or a trap leaves the registers as they were. -/
def runA (f : Thread → AM Thread) (t : Thread) (s : State) : Res :=
  match f t s with
  | .ok (t', s) => .done (setCur s (keepPeers s t'))
  | .error (.wait s) => .wait s
  | .error (.trap s c d) => .trap s c d

/-- R42: an instruction of a feature that is not accepted is illegal (log 52); `n` is the feature's bit of word 1 -/
def aFeature (n : Nat) : AM Unit := do aUnless ((← aState).host.on1.getLsbD n) (.trap tIllegal 0)

/-! ## Who accesses -/

/-- The core, the context, and the scratch lines the firing holds. -/
structure Who where
  k : Nat
  ctx : BitVec 12
  lines : List Nat
  deriving DecidableEq, Repr, Inhabited
def whoOf (k : Nat) (t : Thread) : Who := { k := k, ctx := t.id.ctx, lines := t.opn.scratch }

/-! ## Memory -/

/-- R191, R14: the access is held back. One that is served at its home (`home`) does not stop at L1. -/
def accessHeld (s : State) (w : Who) (x : Xlat) (home : Bool) : Bool :=
  (home || !inL1 s w.k x) && (byteHeld s w.ctx x home || portWaits s x)

/-- R402: the translation of an access; an RD page admits none of these accesses (R131). -/
def aXlat (w : Who) (va : Nat) (need : Need) : AM Xlat := fun s =>
  match translate s w.k w.ctx va need with
  | .hit x s => .ok (x, s)
  | .wait s => .error (.wait s)
  | .fault c s => .error (.trap s c (addrDetail (BitVec.ofNat 64 va)))
def pageFault (va : Nat) : Stop := .trap tPage (addrDetail (BitVec.ofNat 64 va))
def aGo (w : Who) (va : Nat) (need : Need) (home : Bool) : AM Xlat := do
  let x ← aXlat w va need
  aUnless (!x.rd) (pageFault va)
  if accessHeld (← aState) w x home then aWait else pure x
def aPlain (w : Who) (va : Nat) (need : Need) : AM Xlat := aGo w va need false
/-- an access served at its home: LDA, STR, an atomic -/
def aHome (w : Who) (va : Nat) (need : Need) : AM Xlat := aGo w va need true
def dataFault (va : Nat) : Stop := .trap tData (addrDetail (BitVec.ofNat 64 va))
/-- the sector at an address as the core's plain load sees it -/
def aSector (w : Who) (va : Nat) : AM (L2Sector × Xlat) := do
  let x ← aPlain w va .load
  let d ← fun s => .ok (loadSector s w.k w.ctx x)
  aUnless (!d.poison) (dataFault va)
  pure (d, x)

/-- n bytes of memory at most 64 wide, sector by sector (`fuel` of them) -/
def aLoadF (w : Who) : Nat → Nat → Nat → AM Nat
  | 0, _, _ => pure 0
  | fuel + 1, va, n =>
    if n = 0 then pure 0
    else do
      let m := min n (64 - va % 64)
      let (d, _) ← aSector w va
      let r ← aLoadF w fuel (va + m) (n - m)
      pure (secBytes d.data (va % 64) m + 256 ^ m * r)
/-- the translations of a store's pieces, and whether it may go -/
def aReadyF (w : Who) : Nat → Nat → Nat → AM Unit
  | 0, _, _ => pure ()
  | fuel + 1, va, n =>
    if n = 0 then pure ()
    else do
      let m := min n (64 - va % 64)
      let _ ← aPlain w va .store
      aReadyF w fuel (va + m) (n - m)
/-- the firing on the core has written to a peer -/
def notePeer (s : State) (k : Nat) (x : Xlat) : State :=
  if x.peer = 0 then s
  else match threadOf s k with
    | some t => setThreadOf s k { t with opn := { t.opn with peers := sput t.opn.peers x.peer } }
    | none => s
def aStoreF (w : Who) (tag strm : Bool) : Nat → Nat → Nat → Nat → AM Unit
  | 0, _, _, _ => pure ()
  | fuel + 1, va, n, v =>
    if n = 0 then pure ()
    else do
      let m := min n (64 - va % 64)
      let x ← aXlat w va .store
      aMod (fun s => notePeer (storeSector s w.k w.ctx x { n := m, v := v % 256 ^ m, tag := tag, strm := strm }) w.k x)
      aStoreF w tag strm fuel (va + m) (n - m) (v / 256 ^ m)

/-! ## Scratch (R293) -/

def readScratch (c : CoreSt) (off : Nat) : Nat → Nat
  | 0 => 0
  | n + 1 => (mget 0 c.scratch off).toNat + 256 * readScratch c (off + 1) n
def writeScratch (m : Map Byte) (off : Nat) : List Byte → Map Byte
  | [] => m
  | b :: t => writeScratch (if b = 0 then mdel m off else mset m off b) (off + 1) t
/-- every line of n bytes from an offset is pinned by the firing -/
def linesHeld (w : Who) (off n : Nat) : Bool :=
  (List.range (n / lineBytes + 2)).all (fun i => let l := off / lineBytes + i; decide (off + n ≤ l * lineBytes) || w.lines.contains l)
def slotsTouched (off n : Nat) : List Nat := (List.range ((off + n + 31) / 32 - off / 32)).map (· + off / 32)
def storeScratch (c : CoreSt) (off n v : Nat) (tag : Bool) : CoreSt :=
  { c with scratch := writeScratch c.scratch off (toBytes n v)
           scratchTags := (slotsTouched off n).foldl (fun l i => sset l i tag) c.scratchTags }

/-! ## Either kind -/

def isScratch (cap : W192) : Bool := capKind cap == 1
/-- fuel for n bytes from an address -/
def pieces (va n : Nat) : Nat := (va % 64 + n + 63) / 64
/-- n bytes at an address of a capability -/
def aLoad (w : Who) (cap : W192) (va n : Nat) : AM Nat := do
  if isScratch cap then
    aUnless (linesHeld w va n) (capFault .bounds (BitVec.ofNat 64 va))
    pure (readScratch (core (← aState) w.k) va n)
  else aLoadF w (pieces va n) va n
/-- every check of a store, before anything is written -/
def aReady (w : Who) (cap : W192) (va n : Nat) : AM Unit :=
  if isScratch cap then aUnless (linesHeld w va n) (capFault .bounds (BitVec.ofNat 64 va))
  else aReadyF w (pieces va n) va n
/-- `strm`: a stream store (R67) -/
def aStore (w : Who) (cap : W192) (va n v : Nat) (tag strm : Bool) : AM Unit :=
  if isScratch cap then aMod (fun s => setCore s w.k (storeScratch (core s w.k) va n v tag))
  else aStoreF w tag strm (pieces va n) va n v

/-! ## Elements of streams -/

/-- the code in a byte of two 4-bit elements -/
def nibbleOf (d : Stream) (i v : Nat) : Nat := if d.ebits = 4 then v / 16 ^ (i % 2) % 16 else v
/-- element i of a stream, with the capability check of its piece (R411) -/
def aElem (w : Who) (d : Stream) (i : Nat) : AM Nat :=
  match elemAddr d i with
  | none => pure 0
  | some va => do
    aLift (checkCap ⟨d.cap, true⟩ [0, 1] permR (BitVec.ofNat 64 va) (elemBytes d))
    pure (nibbleOf d i (← aLoad w d.cap va (elemBytes d)))
/-- n elements from position i -/
def aElems (w : Who) (d : Stream) (i n : Nat) : AM (List Nat) := aEach (fun j => aElem w d (i + j)) (List.range n)
/-- the checks of element i of a destination -/
def aElemReady (w : Who) (d : Stream) (i : Nat) : AM Unit :=
  match elemAddr d i with
  | none => pure ()
  | some va => do
    aLift (checkCap ⟨d.cap, true⟩ [0, 1] permW (BitVec.ofNat 64 va) (elemBytes d))
    aReady w d.cap va (elemBytes d)
/-- the byte under a 4-bit element, as the core holds it -/
def aOldByte (w : Who) (d : Stream) (va : Nat) : AM Nat := do
  if isScratch d.cap then pure (readScratch (core (← aState) w.k) va 1)
  else do
    let x ← aXlat w va .store
    let y ← fun s => .ok (loadSector s w.k w.ctx x)
    pure (secBytes y.data (va % 64) 1)
def aElemStore (w : Who) (d : Stream) (i v : Nat) : AM Unit :=
  match elemAddr d i with
  | none => pure ()
  | some va => do
    if d.ebits = 4 then do
      let o ← aOldByte w d va
      aStore w d.cap va 1 (if i % 2 = 0 then o / 16 * 16 + v % 16 else v % 16 * 16 + o % 16) false true
    else aStore w d.cap va (elemBytes d) (v % 2 ^ d.ebits) false true
/-- write elements from position i on; the ones beyond the count are discarded -/
def aElemsStore (w : Who) (d : Stream) (i : Nat) (vs : List Nat) : AM Unit := do
  aFor (fun j => aElemReady w d (i + j)) (List.range vs.length)
  aFor (fun x => aElemStore w d (i + x.2) x.1) vs.zipIdx
/-- elements packed from bit 0 -/
def packElems (b : Nat) : List Nat → Nat
  | [] => 0
  | v :: t => v % 2 ^ b + 2 ^ b * packElems b t
def splitElems (b v : Nat) : Nat → List Nat
  | 0 => []
  | n + 1 => v % 2 ^ b :: splitElems b (v / 2 ^ b) n

/-! ## Skip lists (R313) -/

/-- the next entry of a skip stream, an LEN of 0 included; none once the list is exhausted -/
def aSkipEntry (w : Who) (d : Stream) : AM (Option (BitVec 16) × Stream) :=
  match d.kind with
  | .skip (some e) => pure (some e, { d with kind := .skip none })
  | _ =>
    if d.count ≤ d.pos then pure (none, d)
    else do
      let va := (capCursor d.cap).toNat + 2 * d.pos
      aLift (checkCap ⟨d.cap, true⟩ [1] permR (BitVec.ofNat 64 va) 2)
      let v ← aLoad w d.cap va 2
      pure (some (BitVec.ofNat 16 v), { d with pos := d.pos + 1 })
/-- an entry of a skip list, or the part of one, that an instruction takes -/
structure SkipRun where
  dense : Bool
  len : Nat
  /-- taken from an entry; the k past the list's end come from none -/
  listed : Bool
  deriving DecidableEq, Repr, Inhabited
/-- the entries that cover K positions, the last one split; an entry of LEN 0 covers none and is passed over, and the k past
the list's end are dense; `fuel` entries at most -/
def aSkipF (w : Who) : Nat → Stream → Nat → AM (List SkipRun × Stream)
  | 0, d, kk => pure ([⟨true, kk, false⟩], d)
  | _, d, 0 => pure ([], d)
  | fuel + 1, d, kk => do
    let (e, d) ← aSkipEntry w d
    match e with
    | none => pure ([⟨true, kk, false⟩], d)
    | some e =>
      let len := (e.extractLsb' 0 15).toNat
      let dense := e.getLsbD 15
      if kk < len then
        pure ([⟨dense, kk, true⟩], { d with kind := .skip (some (BitVec.ofBool dense ++ BitVec.ofNat 15 (len - kk))) })
      else do
        let (r, d) ← aSkipF w fuel d (kk - len)
        pure (if len = 0 then r else ⟨dense, len, true⟩ :: r, d)
def aSkip (w : Who) (d : Stream) (kk : Nat) : AM (List SkipRun × Stream) := aSkipF w (d.count - d.pos + 2) d kk
/-- the dense k of the positions covered, in order -/
def denseOf (rs : List SkipRun) : List Bool := rs.flatMap (fun r => List.replicate r.len r.dense)

/-! ## Atomics at their place (R115, R123, R127) -/

/-- afadd of R127 and RADD's sum (R129): RNE, subnormals kept, one NaN -/
def sum32 (a b : Nat) : Nat :=
  let r := (fpAdd fp32 ctlRne a b).1
  match unpackF fp32 r with | .nan _ _ _ _ => 0x7FC00000 | _ => r
/-- R122: a peer written to whose acknowledgement is still to come: its port is not up -/
def peerWaiting (s : State) (p : Nat) : Bool :=
  !peerLost s p && (match portTo s p with | some q => (mget portReset s.links.ports q).state != .up | none => false)
/-- the peers the firing on a core has written to -/
def peersOf (s : State) (k : Nat) : List Nat := match threadOf s k with | some t => t.opn.peers | none => []
/-- an earlier write of the firing, to a peer or still to be written back, that cannot be performed yet (R14, R105) -/
def writesWait (s : State) (k : Nat) (ctx : BitVec 12) : Bool := drainWaits s k ctx || (peersOf s k).any (peerWaiting s)
def sysWaits (s : State) (k : Nat) (ctx : BitVec 12) (scope : BitVec 3) : Bool := decide (scope.toNat ≥ 5) && writesWait s k ctx
/-- an acquire or a release that would wait for a port (R14) -/
def orderWaits (s : State) (w : Who) (sec : Nat) (acq rel : Bool) (scope : BitVec 3) : Bool :=
  (acq && recordsWait s w.k sec) || (rel && sysWaits s w.k w.ctx scope)
/-- R124: an atomic leaves for a peer whose port is not up, and waits there; the peer may have performed it should it be lost -/
def sendAtomic (w : Who) (x : Xlat) (n : Nat) (f : Nat → Nat) (s : State) : State :=
  let s := notePeer (beforeAtomic s w.k (x.pa / 64)) w.k x
  let i := x.pa % 64
  let v := f (secBytes (homeBase s.mem (x.pa / 64)).data i n)
  match threadOf s w.k with
  | some t => setThreadOf s w.k { t with blockA := .atomic (x.pa / 64) (putBytes 0 i n v) (secMask i n) (slotsOf i n) }
  | none => s
/-- the page of an atomic, held back by a spent budget, or by a port that is not up with the atomic sent -/
def aAtomicPage (w : Who) (va n : Nat) (f : Nat → Nat) : AM Xlat := do
  let x ← aXlat w va .atomic
  aUnless (!x.rd) (pageFault va)
  let s ← aState
  if byteHeld s w.ctx x true then aWait
  else if portWaits s x then do aMod (sendAtomic w x n f); aWait
  else pure x
/-- One atomic: the core's line is written back first; `acq` and `rel` order it (R105, R106). The old value returns. -/
def aAtomic (w : Who) (va n : Nat) (acq rel : Bool) (scope : BitVec 3) (f : Nat → Nat) : AM Nat := do
  let x ← aAtomicPage w va n f
  let acq := acq && !x.un
  let rel := rel && !x.un
  let sec := x.pa / 64
  if orderWaits (← aState) w sec acq rel scope then aWait else pure ()
  aMod (fun s => beforeAtomic s w.k sec)
  if acq then aMod (fun s => drainRecords s w.k sec) else pure ()
  aMod (fun s => reachHome s w.k w.ctx x)
  let d := atHome (← aState) x
  aUnless (!d.poison) (dataFault va)
  let old := secBytes d.data (x.pa % 64) n
  if rel then aMod (fun s => releaseAt s w.k w.ctx scope sec) else pure ()
  aMod (fun s => notePeer (mergeHome s w.k w.ctx x n (f old)) w.k x)
  if acq then aMod (fun s => acquireLocal s w.k scope) else pure ()
  pure old

end Sys2Proof.Machine
end

