-- ==== Sys2Proof/Machine/Flags.lean ====
section
/-! DEFINITION. The conditions that set predicates (R391, R396): integer comparison and predicate logic. -/
namespace Sys2Proof.Machine

/-- R388: the widths of TYPE. -/
def typeWidth (ty : BitVec 3) : Nat := match (ty.extractLsb' 0 2).toNat with | 0 => 64 | 1 => 32 | 2 => 16 | _ => 8
/-- a W-bit value as two's complement -/
def toS (w a : Nat) : Int := if a < 2 ^ (w - 1) then a else (a : Int) - 2 ^ w

/-- R391: the condition COND on the W-bit values a and b. -/
def cmpCond (cond : BitVec 4) (w a b : Nat) : Bool :=
  match cond.toNat with
  | 0 => a == b
  | 1 => a != b
  | 2 => decide (toS w a < toS w b)
  | 3 => decide (toS w a ≤ toS w b)
  | 4 => decide (toS w a > toS w b)
  | 5 => decide (toS w a ≥ toS w b)
  | 6 => decide (a < b)
  | 7 => decide (a ≤ b)
  | 8 => decide (a > b)
  | 9 => decide (a ≥ b)
  | 10 => a &&& b != 0
  | _ => a &&& b == 0

/-- R391: CMP reads A and B and writes the predicate. -/
def cmpThread (o : CmpOps) (t : Thread) : Except Stop Thread := do
  let w := typeWidth o.ty
  let (a, t) ← readW t o.a
  let (b, t) ← readW t o.b
  .ok (setP t o.d (cmpCond o.cond w (a.toNat % 2 ^ w) (b.toNat % 2 ^ w)))

/-- R396: a predicate operation. -/
def predThread (f : Bool → Bool → Bool) (o : PredOps) (t : Thread) : Except Stop Thread :=
  .ok (setP t o.d (f (getP t o.a) (getP t o.b)))

end Sys2Proof.Machine
end

