-- ==== Sys2Proof/Machine/Alu.lean ====
section
/-! DEFINITION. Integer, bit-field, move, random-number and capability arithmetic of a thread (R387-R399). -/
namespace Sys2Proof.Machine

/-- R388: an exact result narrowed to W bits and widened by SX. -/
def narrow (ty : BitVec 3) (v : Int) : W64 :=
  let w := typeWidth ty
  let m := (v % 2 ^ w).toNat
  if ty.getLsbD 2 then BitVec.ofInt 64 (toS w m) else BitVec.ofNat 64 m

/-- R388: the operands at width W, the exact operation, the narrowed result. -/
def intThread (f : Nat → Nat → Nat → Int) (o : IntOps) (t : Thread) : Except Stop Thread := do
  let w := typeWidth o.ty
  let (a, t) ← readW t o.a
  let (b, t) ← readW t o.b
  writeOpd t o.d (narrow o.ty (f w (a.toNat % 2 ^ w) (b.toNat % 2 ^ w)))
def intThread1 (f : Nat → Nat → Int) (o : IntOps) (t : Thread) : Except Stop Thread := do
  let w := typeWidth o.ty
  let (a, t) ← readW t o.a
  writeOpd t o.d (narrow o.ty (f w (a.toNat % 2 ^ w)))

/-! The operations of R389 and R390 on W-bit values. -/
def aluAdd (_ a b : Nat) : Int := a + b
def aluSub (_ a b : Nat) : Int := (a : Int) - b
def aluMul (_ a b : Nat) : Int := a * b
def aluMulh (w a b : Nat) : Int := (toS w a * toS w b) / 2 ^ w
def aluMulhn (w a b : Nat) : Int := (a * b / 2 ^ w : Nat)
/-- R390: division does not fault. -/
def aluDiv (w a b : Nat) : Int := if b = 0 then 2 ^ w - 1 else (toS w a).tdiv (toS w b)
def aluDivn (w a b : Nat) : Int := if b = 0 then 2 ^ w - 1 else (a / b : Nat)
def aluRem (w a b : Nat) : Int := if b = 0 then a else (toS w a).tmod (toS w b)
def aluRemn (_ a b : Nat) : Int := if b = 0 then a else (a % b : Nat)
def aluAnd (_ a b : Nat) : Int := (a &&& b : Nat)
def aluOr (_ a b : Nat) : Int := (a ||| b : Nat)
def aluXor (_ a b : Nat) : Int := (a ^^^ b : Nat)
def aluAndn (w a b : Nat) : Int := (a &&& (2 ^ w - 1 - b) : Nat)
def aluShl (w a b : Nat) : Int := (a * 2 ^ (b % w) : Nat)
def aluShr (w a b : Nat) : Int := (a / 2 ^ (b % w) : Nat)
def aluSra (w a b : Nat) : Int := toS w a / 2 ^ (b % w)
def aluRotr (w a b : Nat) : Int := (a / 2 ^ (b % w) + a % 2 ^ (b % w) * 2 ^ (w - b % w) : Nat)
def aluMin (w a b : Nat) : Int := if toS w a ≤ toS w b then toS w a else toS w b
def aluMax (w a b : Nat) : Int := if toS w a ≤ toS w b then toS w b else toS w a
def aluMinn (_ a b : Nat) : Int := if a ≤ b then a else b
def aluMaxn (_ a b : Nat) : Int := if a ≤ b then b else a
def aluAbs (w a : Nat) : Int := (toS w a).natAbs
def aluNeg (w a : Nat) : Int := -toS w a
def aluClz (w a : Nat) : Int := if a = 0 then w else (w - 1 - Nat.log2 a : Nat)
/-- trailing zero bits among the first k -/
def ctzAux (a : Nat) : Nat → Nat
  | 0 => 0
  | k + 1 => if a % 2 = 1 then 0 else 1 + ctzAux (a / 2) k
def aluCtz (w a : Nat) : Int := ctzAux a w
def popAux (a : Nat) : Nat → Nat
  | 0 => 0
  | k + 1 => a % 2 + popAux (a / 2) k
def aluPopc (w a : Nat) : Int := popAux a w
def revAux (a : Nat) : Nat → Nat
  | 0 => 0
  | k + 1 => a % 2 * 2 ^ k + revAux (a / 2) k
def aluBrev (w a : Nat) : Int := revAux a w
def bytesRev (a : Nat) : Nat → Nat
  | 0 => 0
  | k + 1 => a % 256 * 256 ^ k + bytesRev (a / 256) k
def aluBswp (w a : Nat) : Int := bytesRev a (w / 8)

/-- R392: the field [pos + len - 1 : pos] of a, none outside the word. -/
def fieldOf (a : W64) (pos len : Nat) : Option Nat :=
  if len = 0 || len > 64 || pos + len > 64 then none else some (a.toNat / 2 ^ pos % 2 ^ len)
/-- EXTR and EXTRN -/
def extrThread (signed : Bool) (o : IntOps) (t : Thread) : Except Stop Thread := do
  let (a, t) ← readW t o.a
  let (b, t) ← readW t o.b
  let (c, t) ← readW t o.c
  let len := c.toNat % 128
  let v : W64 := match fieldOf a (b.toNat % 64) len with
    | none => 0
    | some f => if signed then BitVec.ofInt 64 (toS len f) else BitVec.ofNat 64 f
  writeOpd t o.d v
/-- INS reads D as well; D is a c register. -/
def insThread (o : IntOps) (t : Thread) : Except Stop Thread := do
  let (a, t) ← readW t o.a
  let (b, t) ← readW t o.b
  let (c, t) ← readW t o.c
  let d := match o.d with | .c n => getW t n | _ => 0
  let pos := b.toNat % 64
  let len := c.toNat % 128
  let v : W64 := match fieldOf d pos len with
    | none => d
    | some f => BitVec.ofNat 64 (d.toNat - f * 2 ^ pos + a.toNat % 2 ^ len * 2 ^ pos)
  writeOpd t o.d v

/-- R394: the value MOV takes from a source: a whole c register, or a popped entry untagged. -/
def movValue (t : Thread) (o : Opd) : Except Stop (CReg × Thread) :=
  match o with
  | .c n => .ok (getC t n, t)
  | .imm v => .ok (⟨(BitVec.ofInt 64 (immOf v)).setWidth 192, false⟩, t)
  | o => match readOpd t o with
    | .ok (v, t) => .ok (⟨v.setWidth 192, false⟩, t)
    | .error e => .error e
/-- R394 -/
def movThread (o : MovOps) (t : Thread) : Except Stop Thread := do
  let (v, t) ← movValue t o.a
  match o.d with
  | .c n => .ok (setC t n v)
  | d => pushQueue t d (v.bits.setWidth 128)
/-- R393: both sources are read whatever the predicate holds. -/
def selThread (o : SelOps) (t : Thread) : Except Stop Thread := do
  let p := getP t o.p
  let (b, t) ← movValue t o.b
  let (c, t) ← movValue t o.c
  .ok (setC t o.d (if p then b else c))
/-- R395 -/
def moviThread (high : Bool) (o : MoviOps) (t : Thread) : Except Stop Thread :=
  writeOpd t o.d (if high then o.imm ++ 0#16 else o.imm.signExtend 64)

/-- R397: one round of Philox4x32 and the key bump before the next. -/
def philoxRound (x : Nat × Nat × Nat × Nat) (k0 k1 : Nat) : Nat × Nat × Nat × Nat :=
  let p := 0xD2511F53 * x.1
  let q := 0xCD9E8D57 * x.2.2.1
  (q / 2 ^ 32 ^^^ x.2.1 ^^^ k0, q % 2 ^ 32, p / 2 ^ 32 ^^^ x.2.2.2 ^^^ k1, p % 2 ^ 32)
def philoxAux (k0 k1 : Nat) (x : Nat × Nat × Nat × Nat) : Nat → Nat × Nat × Nat × Nat
  | 0 => x
  | n + 1 => philoxAux ((k0 + 0x9E3779B9) % 2 ^ 32) ((k1 + 0xBB67AE85) % 2 ^ 32) (philoxRound x k0 k1) n
def philox (ctr : W128) (key : W64) : W128 :=
  let x := philoxAux (key.extractLsb' 0 32).toNat (key.extractLsb' 32 32).toNat
    ((ctr.extractLsb' 0 32).toNat, (ctr.extractLsb' 32 32).toNat, (ctr.extractLsb' 64 32).toNat,
     (ctr.extractLsb' 96 32).toNat) 10
  BitVec.ofNat 32 x.2.2.2 ++ BitVec.ofNat 32 x.2.2.1 ++ BitVec.ofNat 32 x.2.1 ++ BitVec.ofNat 32 x.1
def rngThread (o : RngOps) (t : Thread) : Except Stop Thread := do
  let (a, t) ← readOpd t o.a
  let (b, t) ← readW t o.b
  writeOpd t o.d (philox a b)

/-! ## Capabilities (R398, R399) -/

/-- A derivation: the checks apply to a tagged A; the result keeps A's tag. `cursor` is the derived cursor. -/
def derive (o : CapOps) (t : Thread) (a : CReg) (check : Option Cause) (v : W192) : Except Stop Thread :=
  match a.tag, check with
  | true, some c => .error (capFault c (capCursor v))
  | _, _ => .ok (setC t o.d ⟨v, a.tag⟩)

def csetbThread (o : CapOps) (t : Thread) : Except Stop Thread := do
  let a := getC t o.a
  let (len, t) ← readW t o.b
  let cur := capCursor a.bits
  let top := cur.toNat + len.toNat
  let check := if capSeal a.bits != 0 then some Cause.seal
    else if capBase a.bits ≤ cur.toNat ∧ top ≤ capLimit a.bits then none else some .bounds
  derive o t a check (withBounds a.bits (cur.setWidth 57) (BitVec.ofNat 57 top))
def csetpThread (o : CapOps) (t : Thread) : Except Stop Thread := do
  let a := getC t o.a
  let (m, t) ← readW t o.b
  derive o t a (if capSeal a.bits != 0 then some .seal else none) (withPerms a.bits (capPerms a.bits &&& m.setWidth 7))
def caddThread (o : CapOps) (t : Thread) : Except Stop Thread := do
  let a := getC t o.a
  let (d, t) ← readW t o.b
  derive o t a (if capSeal a.bits != 0 then some .seal else none) (withCursor a.bits (capCursor a.bits + d))
def cgetThread (f : CReg → W64) (o : CapOps) (t : Thread) : Except Stop Thread := .ok (setData t o.d (f (getC t o.a)))
def capBaseW (r : CReg) : W64 := BitVec.ofNat 64 (capBase r.bits)
def capLimitW (r : CReg) : W64 := BitVec.ofNat 64 (capLimit r.bits)
def capPermsW (r : CReg) : W64 := (capPerms r.bits).setWidth 64
def capTagW (r : CReg) : W64 := (BitVec.ofNat 4 (capKind r.bits) ++ capSeal r.bits ++ BitVec.ofBool r.tag).setWidth 64
def cclrThread (o : CapOps) (t : Thread) : Except Stop Thread := .ok (setC t o.d ⟨(getC t o.a).bits, false⟩)
/-- the sealing authority B of CSEAL and CUNSEAL: tagged, unsealed, with S, its cursor within its bounds -/
def sealCheck (b : CReg) : Option Cause :=
  if !b.tag then some .tag
  else if capSeal b.bits != 0 then some .seal
  else if !hasPerm b.bits permS then some .permission
  else if capBase b.bits ≤ (capCursor b.bits).toNat ∧ (capCursor b.bits).toNat < capLimit b.bits then none
  else some .bounds
def capOpd (t : Thread) (o : Opd) : CReg := match o with | .c n => getC t n | _ => cZero
def csealThread (o : CapOps) (t : Thread) : Except Stop Thread :=
  let a := getC t o.a
  let b := capOpd t o.b
  let k := (capCursor b.bits).toNat
  let check := if capSeal a.bits != 0 then some Cause.seal
    else match sealCheck b with
      | some c => some c
      | none => if 1 ≤ k ∧ k ≤ 7 then none else some .bounds
  derive o t a check (withSeal a.bits ((capCursor b.bits).setWidth 3))
def cunsealThread (o : CapOps) (t : Thread) : Except Stop Thread :=
  let a := getC t o.a
  let b := capOpd t o.b
  let check := if capSeal a.bits == 0 then some Cause.seal
    else match sealCheck b with
      | some c => some c
      | none => if (capCursor b.bits).toNat = (capSeal a.bits).toNat then none else some .bounds
  derive o t a check (withSeal a.bits 0)

end Sys2Proof.Machine
end

