-- ==== Sys2Proof/Machine/LoadStore.lean ====
section
/-! DEFINITION. Loads, stores, streams, fences, line maintenance, scratch, atomics and reduction words (R400-R414,
R113, R125-R131). -/
namespace Sys2Proof.Machine

/-- what an instruction on memory does, from the accessing core and its thread -/
def runM (h : Hdr) (f : Who → Thread → AM Thread) (s : State) : Host.Outcome State Fault Refusal :=
  runState h (fun t s => runA (f (whoOf s.cur.core t)) t s) s

/-! ## Addresses (R402) -/

def memAddr (cap : CReg) (off : BitVec 16) : W64 := capCursor cap.bits + off.signExtend 64
/-- capability, then alignment -/
def aAddr (cap : CReg) (off : BitVec 16) (kinds : List Nat) (p : BitVec 7) (z : Nat) : AM Nat := do
  let a := memAddr cap off
  aLift (checkCap cap kinds p a z)
  aUnless (a.toNat % z == 0) (.trap tMisaligned (addrDetail a))
  pure a.toNat
/-- LDA, STR: the check for kind 0 or 1 first, and kind 1 is a fault then -/
def aAddrMem (cap : CReg) (off : BitVec 16) (p : BitVec 7) (z : Nat) : AM Nat := do
  aLift (checkCap cap [0, 1] p (memAddr cap off) z)
  aAddr cap off [0] p z
/-- R402: a stream of bytes as a signed or unsigned value -/
def widen (z : Nat) (sx : Bool) (v : Nat) : W128 := if sx then (BitVec.ofInt 64 (toS (8 * z) v)).setWidth 128 else BitVec.ofNat 128 v

/-! ## Loads (R403, R405, R131) -/

/-- a slot of a reduction word at its home (R128) -/
def slotValue (m : Mem) (base k : Nat) : Nat := secBytes (homeView m ((base + 4 * k) / 64)).data ((base + 4 * k) % 64) 4
/-- the sum of the slots below n, in ascending order (R131) -/
def wordSum (m : Mem) (base : Nat) : Nat → Nat
  | 0 => 0
  | n + 1 => sum32 (wordSum m base n) (slotValue m base n)
def wordPoison (m : Mem) (base : Nat) : Bool := (List.range 64).any (fun i => (homeView m (base / 64 + i)).poison)
/-- the 64 sectors of a word read at their homes -/
def wordFill (w : Who) (base : Nat) (s : State) : State :=
  (List.range 64).foldl (fun s i => readHome s w.ctx (base / 64 + i)) s
/-- a load from an RD page: a 4-byte load at a word's base, whose bounds check covers the word -/
def aWord (w : Who) (cap : CReg) (o : MemOps) (va : Nat) (x : Xlat) : AM Nat := do
  aFeature 11
  aUnless (o.size == 2 && !o.sx && va % 4096 == 0) (pageFault va)
  aLift (checkCap cap [0] permR (BitVec.ofNat 64 va) 4096)
  aMod (wordFill w x.pa)
  aUnless (!wordPoison (← aState).mem x.pa) (dataFault va)
  pure (wordSum (← aState).mem x.pa 1024)
def ldAM (o : MemOps) (w : Who) (t : Thread) : AM Thread := do
  let cap := getC t o.a
  let z := 2 ^ o.size.toNat
  let va ← aAddr cap o.off [0, 1] permR z
  let v ← if isScratch cap.bits then aLoad w cap.bits va z
    else do
      let x ← aXlat w va .load
      if x.rd then (if accessHeld (← aState) w x true then aWait else aWord w cap o va x) else aLoad w cap.bits va z
  aLift (writeOpd t o.d (widen z o.sx v))
/-- R405 -/
def ldcAM (o : MemOps) (w : Who) (t : Thread) : AM Thread := do
  let cap := getC t o.a
  let va ← aAddr cap o.off [0, 1] permR 32
  let v ← aLoad w cap.bits va 24
  let tag ← if isScratch cap.bits then do pure ((core (← aState) w.k).scratchTags.contains (va / 32))
    else do let (d, x) ← aSector w va; pure (x.ct && d.tags.getLsbD (va % 64 / 32))
  pure (match o.d with | .c n => setC t n ⟨BitVec.ofNat 192 v, tag && hasPerm cap.bits permC⟩ | _ => t)
/-- R403, R106 -/
def ldaAM (o : MemOps) (w : Who) (t : Thread) : AM Thread := do
  let cap := getC t o.a
  let z := 2 ^ o.size.toNat
  let va ← aAddrMem cap o.off permR z
  let x ← aHome w va .load
  if x.un then do
    let v ← aLoad w cap.bits va z
    aLift (writeOpd t o.d (widen z o.sx v))
  else do
    let sec := x.pa / 64
    if orderWaits (← aState) w sec true false o.scope then aWait else pure ()
    aMod (fun s => acquireAt (beforeAtomic s w.k sec) w.k o.scope sec)
    aMod (fun s => reachHome s w.k w.ctx x)
    let d := atHome (← aState) x
    aUnless (!d.poison) (dataFault va)
    aLift (writeOpd t o.d (widen z o.sx (secBytes d.data (x.pa % 64) z)))

/-! ## Stores (R404, R405) -/

def stAM (o : MemOps) (w : Who) (t : Thread) : AM Thread := do
  let cap := getC t o.a
  let z := 2 ^ o.size.toNat
  let va ← aAddr cap o.off [0, 1] permW z
  aReady w cap.bits va z
  let (v, t) ← aLift (readOpd t o.b)
  aStore w cap.bits va z (v.toNat % 256 ^ z) false false
  pure t
def stcAM (o : MemOps) (w : Who) (t : Thread) : AM Thread := do
  let cap := getC t o.a
  let va ← aAddr cap o.off [0, 1] permW 32
  let b := capOpd t o.b
  aReady w cap.bits va 32
  if b.tag then do
    aUnless (hasPerm cap.bits permC) (capFault .permission (BitVec.ofNat 64 va))
    if isScratch cap.bits then pure ()
    else do
      aUnless (hasPerm b.bits permG) (capFault .permission (BitVec.ofNat 64 va))
      let x ← aXlat w va .store
      aUnless x.ct (pageFault va)
  else pure ()
  aStore w cap.bits va 32 b.bits.toNat b.tag false
  pure t
/-- R404, R105 -/
def strAM (o : MemOps) (w : Who) (t : Thread) : AM Thread := do
  let cap := getC t o.a
  let z := 2 ^ o.size.toNat
  let va ← aAddrMem cap o.off permW z
  let x ← aHome w va .store
  if !x.un && orderWaits (← aState) w (x.pa / 64) false true o.scope then aWait else pure ()
  let (v, t) ← aLift (readOpd t o.b)
  let v := v.toNat % 256 ^ z
  if x.un then aStore w cap.bits va z v false false
  else aMod (fun s => notePeer (storeHome (releaseAt s w.k w.ctx o.scope (x.pa / 64)) w.k w.ctx x z v) w.k x)
  pure t
/-- R407: the translation of a prefetch, from the TLBs as they stand; none where it does nothing -/
def prefXlat (s : State) (w : Who) (va : Nat) : Option Xlat :=
  match (tlbFind (core s w.k).tlb w.ctx va).or (tlbFind (cluster s (clusterOf w.k)).tlb w.ctx va) with
  | none => none
  | some e =>
    let x := xlatLocal e va
    if leafRefused s w.ctx e.leaf || hostOff s e.leaf || !leafR e.leaf || leafAnon e.leaf || x.so || x.ms || x.rd ||
       (leafPeer e.leaf != 0 && peerLost s (leafPeer e.leaf)) || portWaits s x then none else some x
/-- one sector of the line -/
def prefSector (w : Who) (none_ : Bool) (x : Xlat) (s : State) : State :=
  if inL1 s w.k x then s
  else if none_ then readHome s w.ctx (x.pa / 64)
  else (loadSector s w.k w.ctx x).2
def prefAM (h : Hdr) (o : MemOps) (w : Who) (t : Thread) : AM Thread := do
  let cap := getC t o.a
  let a := memAddr cap o.off
  match checkCap cap [0] permR a 1 with
  | .error _ => pure t
  | .ok () => do
    let s ← aState
    match prefXlat s w a.toNat with
    | none => pure t
    | some x =>
      if accessHeld s w x false then aWait
      else do
        let l := x.pa / 256 * 256
        aFor (fun i => aMod (prefSector w (h.hc == 3) { x with pa := l + 64 * i })) (List.range 4)
        pure t

/-! ## Streams (R408-R411) -/

/-- a definition takes its place (R295) -/
def aDefine (t : Thread) (n : BitVec 4) (d : Stream) : AM Thread := aLift (defineStream t n d)
def boundsOf (a : CReg) : Stop := capFault .bounds (capCursor a.bits)
/-- R409: a linear walk -/
def sdefLinear (a : CReg) (eb : Nat) : AM Stream := do
  let cur := curOf a
  let lim := capLimit a.bits
  if lim ≤ cur then pure { kind := .strided [] [], cap := a.bits, ebits := eb, count := 0, pos := 0 }
  else do
    aUnless (cur % ((eb + 7) / 8) == 0) (.trap tMisaligned (addrDetail (capCursor a.bits)))
    aUnless (decide (capBase a.bits ≤ cur)) (boundsOf a)
    pure { kind := .strided [] [], cap := a.bits, ebits := eb, count := (lim - cur) * 8 / eb, pos := 0 }
def zeroBytes (bs : List Byte) (i n : Nat) : Bool := ((bs.drop i).take n).all (· == 0)
/-- the 64 bytes of a descriptor, through a kind-0 capability with R -/
def aDesc (w : Who) (b : CReg) : AM (List Byte) := do
  aLift (checkCap b [0] permR (capCursor b.bits) 64)
  pure (toBytes 64 (← aLoad w b.bits (curOf b) 64))
def sdefStrided (w : Who) (a b : CReg) (eb : Nat) : AM Stream := do
  let bs ← aDesc w b
  let nd := byteAt bs 0
  let e := eb / 8
  let cs := numsOf (bs.drop 8) 4 4
  let ds := (numsOf (bs.drop 0x20) 8 4).map (toS 64)
  let n := (cs.take nd).foldl (· * ·) 1
  aUnless (decide (1 ≤ nd ∧ nd ≤ 4) && zeroBytes bs 1 7 && zeroBytes bs 0x18 8 && eb != 4 &&
    (cs.take nd).all (· ≠ 0) && (cs.drop nd).all (· == 0) &&
    (ds.take nd).all (fun d => d % e == 0) && (ds.drop nd).all (· == 0) && decide (n < 2 ^ 32)) (boundsOf a)
  aUnless (curOf a % e == 0) (.trap tMisaligned (addrDetail (capCursor a.bits)))
  let (lo, hi) := strideSpan (cs.take nd) (ds.take nd)
  aUnless (decide ((capBase a.bits : Int) ≤ curOf a + lo ∧ (curOf a : Int) + hi + e ≤ capLimit a.bits)) (boundsOf a)
  pure { kind := .strided (cs.take nd) (ds.take nd), cap := a.bits, ebits := eb, count := n, pos := 0 }
def sdefAM (o : SdefOps) (w : Who) (t : Thread) : AM Thread := do
  let a := getC t o.a
  aLift (checkHandle a [0, 1] 0)
  let d ← if o.b = 0 then sdefLinear a (elemBitsOf o.fmt) else sdefStrided w a (getC t o.b) (elemBitsOf o.fmt)
  aDefine t o.d d
/-- R311 -/
def windowOf (bs : List Byte) : WindowDesc :=
  { H := numAt bs 0 2, W := numAt bs 2 2, C := numAt bs 4 2, KH := byteAt bs 6, KW := byteAt bs 7, SH := byteAt bs 8,
    SW := byteAt bs 9, PT := byteAt bs 10, PL := byteAt bs 11, OH := numAt bs 12 2, OW := numAt bs 14 2, P0 := numAt bs 16 4,
    NP := numAt bs 20 2 }
def windowOk (d : WindowDesc) (fmt : Nat) : Bool :=
  decide (1 ≤ d.H ∧ 1 ≤ d.W ∧ 1 ≤ d.C ∧ 1 ≤ d.OH ∧ 1 ≤ d.OW) &&
  [d.KH, d.KW, d.SH, d.SW].all (fun v => decide (1 ≤ v ∧ v ≤ 16)) && decide (d.PT ≤ 15 ∧ d.PL ≤ 15) &&
  decide (1 ≤ d.NP ∧ d.NP ≤ 1024) && decide (fmt ≤ 3) && decide (d.KH * d.KW * d.C ≤ 65536)
def sdefwAM (o : SdefwOps) (w : Who) (t : Thread) : AM Thread := do
  let a := getC t o.a
  aLift (checkHandle a [0, 1] 0)
  let bs ← aDesc w (getC t o.b)
  let d := windowOf bs
  let e := match byteAt bs 22 with | 2 => 4 | 3 => 1 | _ => 2
  aUnless (windowOk d (byteAt bs 22) && zeroBytes bs 23 41 &&
    decide (capBase a.bits ≤ curOf a ∧ curOf a + d.H * d.W * d.C * e ≤ capLimit a.bits)) (boundsOf a)
  aDefine t o.d { kind := .window d, cap := a.bits, ebits := 8 * e, count := d.NP * (d.KH * d.KW * d.C), pos := 0 }
def sdefsAM (o : SdefsOps) (_ : Who) (t : Thread) : AM Thread := do
  aFeature 13
  let a := getC t o.a
  aLift (checkHandle a [1] permR)
  aUnless (curOf a % 2 == 0 && capLimit a.bits % 2 == 0) (.trap tMisaligned (addrDetail (capCursor a.bits)))
  aDefine t o.d { kind := .skip none, cap := a.bits, ebits := 16, count := (capLimit a.bits - curOf a) / 2, pos := 0 }

/-- a definition an access word uses, of an admitted kind (R411) -/
def aStream (t : Thread) (n : BitVec 4) (ok : StreamKind → Bool) : AM Stream :=
  match accessStream t n with
  | none => aTrap tCap (capDetail .kind 0)
  | some d => if ok d.kind then pure d else aTrap tCap (capDetail .kind (capCursor d.cap))
def isStrided : StreamKind → Bool | .strided _ _ => true | _ => false
def isElems : StreamKind → Bool | .strided _ _ => true | .window _ => true | _ => false
/-- elements in 16 bytes -/
def perEntry (d : Stream) : Nat := 128 / d.ebits
def roomL (t : Thread) (n : BitVec 2) (k : Nat) : AM Unit := if (getL t n).length + k ≤ lDepth then pure () else aWait
def sldAM (o : SldOps) (w : Who) (t : Thread) : AM Thread := do
  let d ← aStream t o.a isElems
  roomL t o.d 1
  let vs ← aElems w d d.pos (perEntry d)
  let t := setAccessStream t o.a { d with pos := d.pos + perEntry d }
  aLift (pushQueue t (.l o.d) (BitVec.ofNat 128 (packElems d.ebits vs)))
def sstAM (o : SstOps) (w : Who) (t : Thread) : AM Thread := do
  let d ← aStream t o.d isStrided
  let (v, t) ← aLift (readOpd t o.a)
  aElemsStore w d d.pos (splitElems d.ebits v.toNat (perEntry d))
  pure (setAccessStream t o.d { d with pos := d.pos + perEntry d })

/-! ## Fences and line maintenance (R113, R122, R412, R413) -/

/-- R122: every flit up to the last that the core's fence waits for is acknowledged -/
def ackFlits (k : Nat) (l : List Flit) : List Flit :=
  let upTo := (l.filter (·.cores.contains k)).foldl (fun m f => max m (f.seq + 1)) 0
  l.filter (fun f => decide (f.seq ≥ upTo))
def ackPorts (s : State) (k : Nat) : State :=
  { s with links := { s.links with ports := s.links.ports.map (fun p =>
    (p.1, if p.2.state == .up then { p.2 with buffer := ackFlits k p.2.buffer } else p.2)) } }
/-- R122, R124: FENCE.sys is false when a write of the firing to a peer was given up, or its peer is lost, since the last one -/
def fenceHolds (s : State) (t : Thread) : Bool := !t.opn.lostWrite && t.opn.peers.all (fun p => !peerLost s p)
def afterFence (s : State) (t : Thread) : Thread :=
  { t with opn := { t.opn with peers := t.opn.peers.filter (fun p => peerLost s p), lostWrite := false } }
/-- A FENCE waits until every earlier write can be performed, at a peer too, and has it acknowledged (R113, R122). -/
def fenceAM (o : FenceOps) (w : Who) (t : Thread) : AM Thread := do
  let s ← aState
  if writesWait s w.k w.ctx then aWait
  else do
    aMod (fun s => ackPorts (fenceOp s w.k w.ctx o.scope) w.k)
    if o.scope == 5 then do
      let u := afterFence s t
      aMod (fun s => setCur s u)
      pure (setP u o.d (fenceHolds s t))
    else pure (setP t o.d true)

/-- what line maintenance does with the sectors of a physical range -/
structure Maint where
  writes : Bool
  drops : Bool
  deriving DecidableEq, Repr, Inhabited
def secRange (m : Nat × Nat) (k : Nat) : Bool := decide (m.1 ≤ k ∧ k < m.2)
/-- one core's L1 -/
def maintCore (op : Maint) (r : Nat × Nat) (s : State) (j : Nat) : State :=
  let s := if op.writes then writeBacks s j (((core s j).l1.filter (fun x => secRange r x.1)).map (·.1)) else s
  if op.drops then setCore s j { core s j with l1 := (core s j).l1.filter (fun x => !secRange r x.1) } else s
/-- the sectors of [lo, hi), whole lines, in the home slices and the L1s within scope -/
def maintRange (op : Maint) (k : Nat) (scope : BitVec 3) (r : Nat × Nat) (s : State) : State :=
  let s := ((s.cores.map (·.1)).filter (inScope scope k)).foldl (maintCore op r) s
  let keys := (s.mem.l2.filter (fun x => secRange r x.1)).map (·.1)
  let s := if op.writes then setMem s (keys.foldl l2Clean s.mem) else s
  if op.drops then setMem s (keys.foldl l2Drop s.mem) else s
/-- what line maintenance has written to peers waits in their ports like the core's own writes: its next FENCE waits for it (R77,
R113) -/
def claimFlits (k : Nat) (before s : State) : State :=
  let new (p : Nat) (f : Flit) : Bool := decide (f.seq ≥ (mget portReset before.links.ports p).nextSeq)
  let peers := s.links.ports.flatMap (fun p => (p.2.buffer.filter (new p.1)).map (fun f => peerOf f.sector))
  let s := { s with links := { s.links with ports := s.links.ports.map (fun p =>
    (p.1, { p.2 with buffer := p.2.buffer.map (fun f => if new p.1 f then { f with cores := sput f.cores k } else f) })) } }
  match threadOf s k with
  | some t => setThreadOf s k { t with opn := { t.opn with peers := peers.foldl sput t.opn.peers } }
  | none => s
/-- the entry of a page that has no frame yet, if a TLB holds it -/
def anonEntry (s : State) (w : Who) (va : Nat) (p : W64 → Bool) : Option TlbEntry :=
  match (tlbFind (core s w.k).tlb w.ctx va).or (tlbFind (cluster s (clusterOf w.k)).tlb w.ctx va) with
  | some e => if leafAnon e.leaf && p e.leaf && !leafRefused s w.ctx e.leaf then some e else none
  | none => none
/-- the sector ranges of [lo, hi), page by page; `fuel` pages at most -/
def aSpans (w : Who) (need : Need) (ok : W64 → Bool) : Nat → Nat → Nat → AM (List (Nat × Nat))
  | 0, _, _ => pure []
  | fuel + 1, lo, hi =>
    if hi ≤ lo then pure []
    else do
      match anonEntry (← aState) w lo ok with
      | some e => aSpans w need ok fuel (e.va + pageSize e.leaf) hi
      | none => do
        let x ← aXlat w lo need
        aUnless (!x.rd) (pageFault lo)
        let s ← aState
        let top := match tlbFind (core s w.k).tlb w.ctx lo with | some e => e.va + pageSize e.leaf | none => lo + 1
        let n := min hi top - lo
        let r ← aSpans w need ok fuel top hi
        pure ((x.pa / 256 * 4, (x.pa + n + 255) / 256 * 4) :: r)
def maintAM (op : Maint) (need : Need) (p : BitVec 7) (aligned : Bool) (o : LineOps) (w : Who) (t : Thread) : AM Thread := do
  let a := getC t o.a
  aLift (checkHandle a [0] p)
  let lo := curOf a
  let hi := capLimit a.bits
  aUnless (decide (capBase a.bits ≤ lo)) (boundsOf a)
  aUnless (!aligned || (lo % 256 == 0 && hi % 256 == 0)) (.trap tMisaligned (addrDetail (capCursor a.bits)))
  let rs ← aSpans w need (fun e => permits e need) ((hi - lo) / 65536 + 2) lo hi
  aMod (fun s => claimFlits w.k s (rs.foldl (fun s r => maintRange op w.k o.scope r s) s))
  pure t

/-! ## Scratch lines (R293, R414) -/

def scratchEnd : Nat := 245760
def aLines (a : CReg) : AM (List Nat) := do
  aLift (checkHandle a [1] permW)
  let lo := curOf a
  let hi := capLimit a.bits
  aUnless (lo % 256 == 0 && hi % 256 == 0) (.trap tMisaligned (addrDetail (capCursor a.bits)))
  aUnless (decide (capBase a.bits ≤ lo ∧ hi ≤ scratchEnd)) (boundsOf a)
  pure ((List.range ((hi - lo) / 256)).map (· + lo / 256))
/-- ways for newly pinned scratch lines: cached lines leave the sets they stand in -/
def pinLines (s : State) (k : Nat) (all new : List Nat) : State :=
  new.foldl (fun s l => makeWays s k (l % 64) 0 all wayCount) s
def spallocAM (o : SpOps) (w : Who) (t : Thread) : AM Thread := do
  let ls ← aLines (getC t o.a)
  let s ← aState
  let new := ls.filter (fun l => !t.opn.scratch.contains l)
  let all := t.opn.scratch ++ new
  if new.any (fun l => (core s w.k).pinned.contains l) || new.any (fun l => decide (pinnedWays (core s w.k) (l % 64) all > 15)) then
    pure (setP t o.d false)
  else do
    aMod (fun s => pinLines s w.k all new)
    pure (setP { t with opn := { t.opn with scratch := all } } o.d true)
def spfreeAM (o : SpOps) (w : Who) (t : Thread) : AM Thread := do
  let ls ← aLines (getC t o.a)
  let mine := ls.filter (fun l => t.opn.scratch.contains l)
  aMod (fun s => setCore s w.k (freeLines (core s w.k) mine))
  pure { t with opn := { t.opn with scratch := t.opn.scratch.filter (fun l => !mine.contains l) } }

/-! ## Atomics (R125-R127) -/

def wordBytes (o : AtomOps) : Nat := if o.w64 then 8 else 4
/-- An atomic whose new value comes from the old one, b and c; D takes the old value, sign-extended if `signed`. -/
def atomAM (f : Nat → Nat → Nat → Nat → Nat) (signed : Bool) (o : AtomOps) (w : Who) (t : Thread) : AM Thread := do
  aFeature 10
  let z := wordBytes o
  let va ← aAddr (getC t o.a) o.off [0] (permR ||| permW) z
  let b := (readCI t o.b).toNat % 256 ^ z
  let c := (readCI t o.c).toNat % 256 ^ z
  let old ← aAtomic w va z (o.order.getLsbD 0) (o.order.getLsbD 1) o.scope (fun v => f (8 * z) v b c % 256 ^ z)
  pure (setData t o.d (if signed then BitVec.ofInt 64 (toS (8 * z) old) else BitVec.ofNat 64 old))

/-! ## Reduction words (R129, R130) -/

/-- the word at a base, with its bounds checked from `at` -/
def aRedWord (w : Who) (o : RedOps) (t : Thread) (off n : Nat) : AM Xlat := do
  let cap := getC t o.a
  let a := memAddr cap o.off
  aLift (checkCap cap [0] permW (a + BitVec.ofNat 64 off) n)
  aUnless (a.toNat % 4096 == 0) (.trap tMisaligned (addrDetail a))
  let x ← aXlat w a.toNat .store
  aUnless x.rd (pageFault a.toNat)
  if accessHeld (← aState) w x true then aWait else pure x
def raddAM (o : RedOps) (w : Who) (t : Thread) : AM Thread := do
  aFeature 11
  aUnless (decide (w.k < 1024)) (capFault .bounds (memAddr (getC t o.a) o.off))
  let x ← aRedWord w o t (4 * w.k) 4
  let b := (readCI t o.b).toNat % 2 ^ 32
  aMod (fun s => mergeHome s w.k w.ctx { x with pa := x.pa + 4 * w.k } 4 (sum32 (slotValue s.mem x.pa w.k) b))
  pure t
def rclrAM (o : RedOps) (w : Who) (t : Thread) : AM Thread := do
  aFeature 11
  let x ← aRedWord w o t 0 4096
  aMod (fun s => (List.range 64).foldl (fun s i =>
    performAt (chargeWrite s w.ctx (x.pa / 64 + i)) (some w.k) w.ctx (x.pa / 64 + i) 0 (BitVec.allOnes 64) 0 3 true) (orderHome s w.k x))
  pure t

/-! ## The meanings -/

def execLd (h : Hdr) (o : MemOps) (s : State) : Host.Outcome State Fault Refusal := runM h (ldAM o) s
def execLdc (h : Hdr) (o : MemOps) (s : State) : Host.Outcome State Fault Refusal := runM h (ldcAM o) s
def execSt (h : Hdr) (o : MemOps) (s : State) : Host.Outcome State Fault Refusal := runM h (stAM o) s
def execStc (h : Hdr) (o : MemOps) (s : State) : Host.Outcome State Fault Refusal := runM h (stcAM o) s
def execLda (h : Hdr) (o : MemOps) (s : State) : Host.Outcome State Fault Refusal := runM h (ldaAM o) s
def execStr (h : Hdr) (o : MemOps) (s : State) : Host.Outcome State Fault Refusal := runM h (strAM o) s
def execPref (h : Hdr) (o : MemOps) (s : State) : Host.Outcome State Fault Refusal := runM h (prefAM h o) s
def execSdef (h : Hdr) (o : SdefOps) (s : State) : Host.Outcome State Fault Refusal := runM h (sdefAM o) s
def execSdefw (h : Hdr) (o : SdefwOps) (s : State) : Host.Outcome State Fault Refusal := runM h (sdefwAM o) s
def execSdefs (h : Hdr) (o : SdefsOps) (s : State) : Host.Outcome State Fault Refusal := runM h (sdefsAM o) s
def execSld (h : Hdr) (o : SldOps) (s : State) : Host.Outcome State Fault Refusal := runM h (sldAM o) s
def execSst (h : Hdr) (o : SstOps) (s : State) : Host.Outcome State Fault Refusal := runM h (sstAM o) s
def execFence (h : Hdr) (o : FenceOps) (s : State) : Host.Outcome State Fault Refusal := runM h (fenceAM o) s
def execClean (h : Hdr) (o : LineOps) (s : State) : Host.Outcome State Fault Refusal :=
  runM h (maintAM ⟨true, false⟩ .load permR false o) s
def execInval (h : Hdr) (o : LineOps) (s : State) : Host.Outcome State Fault Refusal :=
  runM h (maintAM ⟨false, true⟩ .store permW true o) s
def execFlush (h : Hdr) (o : LineOps) (s : State) : Host.Outcome State Fault Refusal :=
  runM h (maintAM ⟨true, true⟩ .atomic (permR ||| permW) false o) s
def execSpalloc (h : Hdr) (o : SpOps) (s : State) : Host.Outcome State Fault Refusal := runM h (spallocAM o) s
def execSpfree (h : Hdr) (o : SpOps) (s : State) : Host.Outcome State Fault Refusal := runM h (spfreeAM o) s
def execAadd (h : Hdr) (o : AtomOps) (s : State) : Host.Outcome State Fault Refusal := runM h (atomAM (fun _ a b _ => a + b) false o) s
def execAand (h : Hdr) (o : AtomOps) (s : State) : Host.Outcome State Fault Refusal := runM h (atomAM (fun _ a b _ => a &&& b) false o) s
def execAor (h : Hdr) (o : AtomOps) (s : State) : Host.Outcome State Fault Refusal := runM h (atomAM (fun _ a b _ => a ||| b) false o) s
def execAxor (h : Hdr) (o : AtomOps) (s : State) : Host.Outcome State Fault Refusal := runM h (atomAM (fun _ a b _ => a ^^^ b) false o) s
def execAmin (h : Hdr) (o : AtomOps) (s : State) : Host.Outcome State Fault Refusal :=
  runM h (atomAM (fun n a b _ => if toS n a ≤ toS n b then a else b) true o) s
def execAmax (h : Hdr) (o : AtomOps) (s : State) : Host.Outcome State Fault Refusal :=
  runM h (atomAM (fun n a b _ => if toS n a ≤ toS n b then b else a) true o) s
def execAminn (h : Hdr) (o : AtomOps) (s : State) : Host.Outcome State Fault Refusal :=
  runM h (atomAM (fun _ a b _ => if a ≤ b then a else b) false o) s
def execAmaxn (h : Hdr) (o : AtomOps) (s : State) : Host.Outcome State Fault Refusal :=
  runM h (atomAM (fun _ a b _ => if a ≤ b then b else a) false o) s
def execAswap (h : Hdr) (o : AtomOps) (s : State) : Host.Outcome State Fault Refusal := runM h (atomAM (fun _ _ b _ => b) false o) s
def execAcas (h : Hdr) (o : AtomOps) (s : State) : Host.Outcome State Fault Refusal :=
  runM h (atomAM (fun _ a b c => if a = b then c else a) false o) s
def execAfadd (h : Hdr) (o : AtomOps) (s : State) : Host.Outcome State Fault Refusal := runM h (atomAM (fun _ a b _ => sum32 a b) false o) s
def execRadd (h : Hdr) (o : RedOps) (s : State) : Host.Outcome State Fault Refusal := runM h (raddAM o) s
def execRclr (h : Hdr) (o : RedOps) (s : State) : Host.Outcome State Fault Refusal := runM h (rclrAM o) s

end Sys2Proof.Machine
end

