-- ==== Sys2Proof/Machine/Joiner.lean ====
section
/-! DEFINITION. What the Joiner decides by (R161-R163, R178-R187): where an instance may run, when it is ready, its
priority and its quota. -/
namespace Sys2Proof.Machine

/-! ## Places (R161-R163) -/

/-- cores in an instance of a domain -/
def domainSize (d : Nat) : Nat := match d with | 0 => 1024 | 1 => 512 | 2 => 16 | 3 => 4 | _ => 1
/-- coordinates of levels from a linear coordinate, the innermost extent first -/
def digitsRev : List Nat → Nat → List Nat
  | [], _ => []
  | e :: t, c => c % e :: digitsRev t (c / e)
def digits (extents : List Nat) (c : Nat) : List Nat := (digitsRev extents.reverse c).reverse
/-- the levels a stage at level L is replicated over -/
def levelsTo (ls : List Level) (L : Nat) : List Level := ls.take (L + 1)
/-- the mixed-radix number of the group of a domain; a level deeper than the stage's counts with coordinate 0 -/
def groupIndex (d : Nat) : List Level → List Nat → Nat → Nat
  | [], _, m => m
  | l :: t, ds, m => groupIndex d t ds.tail (if l.spatial && l.domain == d then m * l.extent + ds.headD 0 else m)
/-- the place within the instances of one domain, if the stage's levels name it -/
def refine (ls : List Level) (L : Nat) (ds : List Nat) (p : Nat × Nat) (d : Nat) : Nat × Nat :=
  match (levelsTo ls L).find? (fun l => l.domain == d) with
  | some l => (p.1 + (l.origin + groupIndex d ls ds 0) * domainSize d, domainSize d)
  | none => p
/-- the domain instance of an instance: its first core and how many -/
def placeOf (ls : List Level) (L c : Nat) : Nat × Nat :=
  [1, 2, 3, 4].foldl (refine ls L (digits ((levelsTo ls L).map (·.extent)) c)) (0, 1024)
/-- the clusters a place touches -/
def placeClusters (p : Nat × Nat) : List Nat := if p.2 ≤ 16 then [p.1 / 16] else (List.range (p.2 / 16)).map (· + p.1 / 16)
/-- the clusters where a stage has instances -/
def stageClusters (ls : List Level) (L : Nat) : List Nat :=
  ((List.range (instCount ls L)).flatMap (fun c => placeClusters (placeOf ls L c))).eraseDups
/-- the temporal predecessors of a coordinate: the members before it at each temporal level (R163) -/
def precedes (ls : List Level) (es a b : List Nat) : Bool :=
  match ls, es, a, b with
  | l :: t, _ :: u, x :: v, y :: w => if !l.spatial && x + 1 == y then true else x == y && precedes t u v w
  | _, _, _, _ => false
def predecessors (ls : List Level) (L c : Nat) : List Nat :=
  let es := (levelsTo ls L).map (·.extent)
  (List.range (instCount ls L)).filter (fun x => precedes (levelsTo ls L) es (digits es x) (digits es c))

/-! ## Ready instances (R178) -/

def usedIns (st : Stage) : List (Nat × Nat) := (st.ins.zip st.cons).filter (fun x => x.1 != noQueue)
/-- the output queues with the slots their pushes may take; a queue that two outputs name counts once, with both -/
def usedOuts (st : Stage) : List (Nat × Nat) :=
  let l := (st.outs.zip st.prod).filter (fun x => x.1 != noQueue)
  ((l.map (·.1)).eraseDups).map (fun q => (q, ((l.filter (·.1 == q)).map (·.2)).foldl (· + ·) 0))
def queueLen (f : Frame) (q : Nat) : Nat := match queueAt f q with | some x => x.items.length | none => 0
def queueFree (f : Frame) (q : Nat) : Nat := match queueAt f q with | some x => queueRoom x | none => 0
def isBound (st : Stage) : Bool := st.entry.tag
def instReady (f : Frame) (n : Nat) (st : Stage) (c : Nat) : Bool :=
  let i := findInst f n c
  !f.withdrawn && isBound st && !st.suspended &&
  (predecessors f.levels st.level c).all (fun x => (findInst f n x).retired) &&
  (hasInputs st || !i.retired) &&
  (usedIns st).all (fun x => decide (x.2 ≤ queueLen f x.1)) && (usedOuts st).all (fun x => decide (x.2 ≤ queueFree f x.1)) &&
  (st.reentrant || i.running == 0)
/-- the time an instance became ready is noted, and forgotten when it is ready no more -/
def refreshInst (now n : Nat) (st : Stage) (f : Frame) (c : Nat) : Frame :=
  let i := findInst f n c
  let ready := instReady f n st c
  if ready && i.readySince.isNone then setInst f { i with readySince := some now }
  else if !ready && i.readySince.isSome then setInst f { i with readySince := none }
  else f
def refreshFrame (now : Nat) (f : Frame) : Frame :=
  f.stages.zipIdx.foldl (fun f x => (List.range (instCount f.levels x.1.level)).foldl (refreshInst now x.2 x.1) f) f
/-! ## Quotas (R182) -/

def stageWeight (st : Stage) : Nat := positionsOf st
def quotaOf (s : State) (cl : Nat) (ctx : BitVec 12) (frame : BitVec 32) (stage : Nat) : Nat :=
  match (cluster s cl).quotas.find? (fun q => q.ctx == ctx && q.frame == frame && q.stage == stage) with | some q => q.cores | none => 0
/-- cores a stage's firings hold in a cluster, the pre-empted ones counted when asked -/
def quotaUsed (f : Frame) (cl stage : Nat) (preempted : Bool) : Nat :=
  ((f.batches.filter (fun b => b.stage == stage && b.cluster == cl && (preempted || !b.preempted))).map (fun b => stageWeight b.desc)).foldl (· + ·) 0
/-- R181: the cluster that serves an instance now -/
def servingCluster (s : State) (f : Frame) (n : Nat) (p : Nat × Nat) : Nat :=
  let unused (cl : Nat) : Nat := quotaOf s cl f.ctx f.number n - quotaUsed f cl n true
  let cls := placeClusters p
  (cls.find? (fun c => cls.all (fun d => decide (unused d ≤ unused c)))).getD (p.1 / 16)

/-! ## Priority (R137, R183) -/

/-- PRIO raised by ageing -/
def agedPrio (s : State) (ctx : BitVec 12) (prio since : Nat) : Nat :=
  match ctxOf s ctx with
  | some c => min 7 (prio + (s.time - since) / (c.sched.ageing * 1000))
  | none => prio
def allPhasers (s : State) : List Phaser :=
  s.clusters.flatMap (fun c => c.2.phasers.map (·.2)) ++ s.dies.flatMap (fun d => d.2.phasers.map (·.2))
def allThreads (s : State) : List (Nat × Thread) := s.cores.filterMap (fun x => x.2.thread.map (fun t => (x.1, t)))
def savedPrio (s : State) (v : Saved) : Nat := agedPrio s v.ctx v.prio v.readySince
/-- the priority of a member's firing before donation -/
def memberPrio (s : State) (ctx : BitVec 12) (m : PhMember) : Nat :=
  match (allThreads s).find? (fun x => x.2.id.ctx == ctx && !x.2.id.firmware && isMemberOf m x.2.id) with
  | some x => x.2.prio
  | none => match s.work.saved.find? (fun v => v.ctx == ctx && v.threads.any (fun x => isMemberOf m x.2.id)) with
    | some v => savedPrio s v
    | none => 0
where
  isMemberOf (m : PhMember) (id : Ident) : Bool := isMember id m
def sameInst (frame : BitVec 32) (stage coord : Nat) (m : PhMember) : Bool :=
  m.frame == frame && m.stage.toNat == stage && m.coord == coord
/-- the highest priority among the waiters of the phasers where an instance is a signaller that has not signalled; a waiter's
own donated priority counts (a chain passes each phaser once, so their number bounds it) -/
def donated (s : State) (ctx : BitVec 12) : Nat → BitVec 32 → Nat → Nat → Nat
  | 0, _, _, _ => 0
  | n + 1, frame, stage, coord =>
    (allPhasers s).foldl (fun best p =>
      if p.ctx == ctx && p.members.any (fun m => sameInst frame stage coord m && m.mode != .wait && !m.signalled) then
        (p.members.filter (fun m => !m.waits.isEmpty)).foldl (fun b m =>
          max b (max (memberPrio s ctx m) (donated s ctx n m.frame m.stage.toNat m.coord))) best
      else best) 0
def donatedTo (s : State) (ctx : BitVec 12) (frame : BitVec 32) (stage coord : Nat) : Nat :=
  donated s ctx (allPhasers s).length frame stage coord
def runningPrio (s : State) (t : Thread) : Nat := max t.prio (donatedTo s t.id.ctx t.id.frame t.id.stage.toNat t.id.coord)
/-- since when a firing that waits has had priority 7 by donation -/
def seven (s : State) (ctx : BitVec 12) (frame : BitVec 32) (stage coord : Nat) (was : Option Nat) : Option Nat :=
  if donatedTo s ctx frame stage coord ≥ 7 then some (was.getD s.time) else none
def sevenInst (s : State) (f : Frame) (i : Inst) : Inst :=
  { i with sevenSince := if i.readySince.isSome then seven s f.ctx f.number i.stage i.coord i.sevenSince else none }
def sevenSaved (s : State) (v : Saved) : Saved :=
  match v.threads with
  | (_, t) :: _ => { v with sevenSince := seven s v.ctx t.id.frame t.id.stage.toNat t.id.coord v.sevenSince }
  | [] => v
/-- what waits is noted: since when it is ready, and since when at priority 7 by donation -/
def refreshReady (s : State) : State :=
  let s := setWork s { s.work with frames := s.work.frames.map (refreshFrame s.time) }
  setWork s { s.work with frames := s.work.frames.map (fun f => { f with insts := f.insts.map (sevenInst s f) })
                          saved := s.work.saved.map (sevenSaved s) }

/-! ## Waiting firings (R184) -/

/-- the items the next firing of a stage would claim -/
def nextItems (f : Frame) (st : Stage) : List QItem :=
  (usedIns st).flatMap (fun x => match queueAt f x.1 with | some q => q.items.take x.2 | none => [])
/-- the descriptor that the failed firing ran under, when the next one is its refire (R175, R203) -/
def refireDesc (f : Frame) (st : Stage) (i : Inst) : Option Stage :=
  if hasInputs st then (nextItems f st).findSome? (·.desc) else i.desc

/-- A firing that waits: a ready instance, or a pre-empted one with its saved state. -/
structure Cand where
  saved : Option Saved
  ctx : BitVec 12
  frame : BitVec 32
  stage : Nat
  coord : Nat
  gang : Bool
  place : Nat × Nat
  prio : Nat
  since : Nat
  /-- the cores that hold its scratch, when it must resume there -/
  bound : Option (List Nat)
  /-- since when it has had priority 7 by donation -/
  seven : Option Nat
  /-- its priority by ageing, and with what is donated -/
  own : Nat
  eff : Nat
  /-- a firing of a source instance that has not started -/
  source : Bool
  deriving DecidableEq, Repr, Inhabited

/-- the core-cycle budget of the period is spent (R190) -/
def overBudget (c : Ctx) : Bool := c.sched.cycles != 0 && decide (c.cycles ≥ c.sched.cycles * 1000)
def ctxSpent (s : State) (ctx : BitVec 12) : Bool := match ctxOf s ctx with | some c => overBudget c | none => false
def readyCands (s : State) (cl : Nat) : List Cand :=
  s.work.frames.flatMap (fun f => f.stages.zipIdx.flatMap (fun x =>
    ((List.range (instCount f.levels x.1.level)).filter (fun c => instReady f x.2 x.1 c)).filterMap (fun c =>
      let p := placeOf f.levels x.1.level c
      if servingCluster s f x.2 p == cl && decide (quotaUsed f cl x.2 true + stageWeight x.1 ≤ quotaOf s cl f.ctx f.number x.2) && !ctxSpent s f.ctx then
        let since := (findInst f x.2 c).readySince.getD s.time
        let prio := ((refireDesc f x.1 (findInst f x.2 c)).getD x.1).prio
        some { saved := none, ctx := f.ctx, frame := f.number, stage := x.2, coord := c, gang := x.1.gang, place := p,
               prio := prio, since := since, bound := none, seven := (findInst f x.2 c).sevenSince,
               own := agedPrio s f.ctx prio since,
               eff := max (agedPrio s f.ctx prio since) (donatedTo s f.ctx f.number x.2 c), source := !hasInputs x.1 }
      else none)))
def savedCand (s : State) (cl : Nat) (v : Saved) : Option Cand :=
  match v.threads with
  | [] => none
  | (_, t) :: _ => match findFrame s v.ctx t.id.frame with
    | none => none
    | some f => match findBatch f t.id.batch with
      | none => none
      | some b =>
        if b.cluster == cl && !ctxSpent s v.ctx && decide (quotaUsed f cl b.stage false + stageWeight b.desc ≤ quotaOf s cl f.ctx f.number b.stage) then
          some { saved := some v, ctx := v.ctx, frame := f.number, stage := b.stage, coord := b.coord, gang := b.desc.gang,
                 place := placeOf f.levels b.desc.level b.coord, prio := v.prio, since := v.readySince,
                 bound := if v.bound then some (v.threads.map (·.1)) else none, seven := v.sevenSince,
                 own := savedPrio s v, eff := max (savedPrio s v) (donatedTo s v.ctx f.number b.stage b.coord),
                 source := false }
        else none
def waiting (s : State) (cl : Nat) : List Cand := readyCands s cl ++ s.work.saved.filterMap (savedCand s cl)
/-- R184: a before b -/
def candBefore (a b : Cand) : Bool :=
  decide (a.eff > b.eff) || (a.eff == b.eff && (decide (a.since < b.since) || (a.since == b.since &&
    (decide (a.stage < b.stage) || (a.stage == b.stage && (decide (a.frame.toNat < b.frame.toNat) ||
      (a.frame == b.frame && (decide (a.coord < b.coord) || (a.coord == b.coord && decide (a.ctx.toNat < b.ctx.toNat))))))))))
def bestCand : List Cand → Option Cand
  | [] => none
  | a :: t => match bestCand t with | some b => if candBefore b a then some b else some a | none => some a

/-! ## Cores (R163, R185, R198) -/

/-- the cores of a cluster a firing may run on -/
def allowedCores (s : State) (cl : Nat) (c : Cand) : List Nat :=
  ((List.range 16).map (· + cl * 16)).filter (fun k =>
    decide (c.place.1 ≤ k ∧ k < c.place.1 + c.place.2) && (match c.bound with | some ks => ks.contains k | none => true) && (core s k).inPlacement)
def isFree (s : State) (k : Nat) : Bool := (core s k).thread.isNone
def rowsOf (ks : List Nat) : List (List Nat) :=
  (((ks.map (· / 4)).eraseDups).map (fun r => [0, 1, 2, 3].map (r * 4 + ·))).filter (fun r => r.all ks.contains)
def threadsOn (s : State) (ks : List Nat) : List (Nat × Thread) := ks.filterMap (fun k => (threadOf s k).map (fun t => (k, t)))
/-- the lowest free core, or four free cores of a row, among those that `ok` leaves to a firing -/
def freeCores (s : State) (cl : Nat) (ok : Nat → Bool) (c : Cand) : Option (List Nat) :=
  let ks := allowedCores s cl c
  let free (k : Nat) : Bool := isFree s k && ok k
  if c.gang then (rowsOf ks).find? (fun r => r.all free) else (ks.find? free).map ([·])
/-- every firing on a row has been asked to stop -/
def vacating (s : State) (r : List Nat) : Bool := (threadsOn s r).all (fun x => x.2.preempt != .none)
/-- R185: the rows that come free for gangs which find none -/
def keptRows (s : State) (cl : Nat) (ws : List Cand) : List (Cand × List Nat) :=
  (ws.filter (fun c => c.gang && (freeCores s cl (fun _ => true) c).isNone)).flatMap (fun c =>
    ((rowsOf (allowedCores s cl c)).filter (vacating s)).map (c, ·))
/-- a core of a row that comes free for a gang goes to no firing that R184 puts behind it -/
def leftFor (kept : List (Cand × List Nat)) (c : Cand) (k : Nat) : Bool :=
  kept.all (fun x => !x.2.contains k || x.1 == c || candBefore c x.1)
/-- R180: a source instance of a lower coordinate, at the same priority, starts first -/
def behindSource (s : State) (cl : Nat) (ws : List Cand) (c : Cand) : Bool :=
  c.source && ws.any (fun d => d.source && d.ctx == c.ctx && d.frame == c.frame && d.stage == c.stage && d.eff == c.eff &&
    decide (d.coord < c.coord) && !(allowedCores s cl d).isEmpty)
/-- what waits in a cluster, with the cores each finds free -/
def withCores (s : State) (cl : Nat) : List (Cand × Option (List Nat)) :=
  let ws := waiting s cl
  let kept := keptRows s cl ws
  (ws.filter (fun c => !behindSource s cl ws c)).map (fun c => (c, freeCores s cl (leftFor kept c) c))
/-- the choice of R184 among the firings that find a free core -/
def pickStart (s : State) (cl : Nat) : Option (Cand × List Nat) :=
  let l := (withCores s cl).filterMap (fun x => x.2.map (x.1, ·))
  (bestCand (l.map (·.1))).bind (fun c => l.find? (·.1 == c))
/-- the firings that find none -/
def coreless (s : State) (cl : Nat) : List Cand := ((withCores s cl).filter (·.2.isNone)).map (·.1)
def pickBlocked (s : State) (cl : Nat) : Option Cand := bestCand (coreless s cl)

/-! ## Asking for a pre-emption (R185, R197) -/

def askPreempt (why : Preempt) (s : State) (k : Nat) : State :=
  match threadOf s k with
  | some t => if t.preempt == .none then setThreadOf s k { t with preempt := why } else s
  | none => s
def mayPreempt (s : State) (t : Thread) : Bool := !t.id.firmware && maySave s t
/-- lower priority first, then the latest start -/
def victimBefore (s : State) (a b : Nat × Thread) : Bool :=
  let x := runningPrio s a.2
  let y := runningPrio s b.2
  decide (x < y) || (x == y && decide (a.2.startTime > b.2.startTime))
def bestVictim (before : Nat × Thread → Nat × Thread → Bool) : List (Nat × Thread) → Option (Nat × Thread)
  | [] => none
  | a :: t => match bestVictim before t with | some b => if before b a then some b else some a | none => some a
/-- R185: the pre-emption for a firing that finds no free core; none while one is under way there -/
def preemptFor (s : State) (cl : Nat) (c : Cand) : State :=
  let ks := allowedCores s cl c
  if c.gang then
    let rows := (rowsOf ks).filter (fun r => (threadsOn s r).all (fun x => mayPreempt s x.2 && decide (runningPrio s x.2 < c.eff)))
    if rows.any (fun r => (threadsOn s r).any (fun x => x.2.preempt != .none)) then s
    else match bestVictim (victimBefore s) (threadsOn s rows.flatten) with
      | some x => (rowCoresOf x.1).foldl (askPreempt .priority) s
      | none => s
  else
    let ts := (threadsOn s ks).filter (fun x => !x.2.id.gang && mayPreempt s x.2 && decide (runningPrio s x.2 < c.eff))
    if ts.any (fun x => x.2.preempt != .none) then s
    else match bestVictim (victimBefore s) ts with | some x => askPreempt .priority s x.1 | none => s
where
  rowCoresOf (k : Nat) : List Nat := [0, 1, 2, 3].map (k / 4 * 4 + ·)
/-- R185: waited at effective priority 7, by ageing or by donation, for a whole period of its context -/
def isOverdue (s : State) (c : Cand) : Bool :=
  match ctxOf s c.ctx with
  | some x =>
    let aged := c.since + (7 - c.prio) * x.sched.ageing * 1000
    decide (s.time ≥ (match c.seven with | some t => min t aged | none => aged) + x.sched.period * 1000)
  | none => false
def longestHeld (a b : Nat × Thread) : Bool := decide (a.2.startTime < b.2.startTime)
/-- R185: the rotation for an overdue firing: the longest-held firing of its kind, else of the other -/
def rotateFor (s : State) (cl : Nat) (c : Cand) : State :=
  let ks := allowedCores s cl c
  let ts := (threadsOn s (if c.gang then (rowsOf ks).flatten else ks)).filter (fun x => mayPreempt s x.2)
  let same := ts.filter (fun x => x.2.id.gang == c.gang)
  let pool := if same.isEmpty then ts else same
  match bestVictim longestHeld pool with
  | none => s
  | some x =>
    if x.2.id.gang || c.gang then ([0, 1, 2, 3].map (x.1 / 4 * 4 + ·)).foldl (askPreempt .priority) s
    else askPreempt .priority s x.1

end Sys2Proof.Machine
end

