-- ==== Sys2Proof/Machine/Control.lean ====
section
/-! DEFINITION. Control flow: NOP, branches, calls, returns, LOOP, TRAP and SIG (R379-R381, R384-R386, R208, R209). -/
namespace Sys2Proof.Machine

/-- R380: transfer to a target. `t0` is the thread before, `t` after its sources are read; the link register, if any,
takes the successor. -/
def branchTo (h : Hdr) (s : State) (t0 t : Thread) (target : W64) (link : Option (BitVec 6)) : Res :=
  if target.toNat % 4 ≠ 0 then .trap s tMisaligned (addrDetail target)
  else if isMaskWord s s.cur.core t0 target then .trap s tIllegal 0
  else .jump (setCur s (match link with | some d => setData t d (succPc h s.cur.pc) | none => t)) target
/-- R379: the target of an offset in words from the branch word -/
def wordTarget (pc : W64) (off : BitVec 40) : W64 := pc + 12 * off.signExtend 64
def branchReg (h : Hdr) (a b : Opd) (link : Option (BitVec 6)) (t : Thread) (s : State) : Res :=
  match readW t a with
  | .error .wait => .wait s
  | .error (.trap c d) => .trap s c d
  | .ok (x, t1) => match readW t1 b with
    | .error .wait => .wait s
    | .error (.trap c d) => .trap s c d
    | .ok (y, t2) => branchTo h s t t2 (x + 12 * y) link

/-- R385 -/
def execNop (h : Hdr) (s : State) : Host.Outcome State Fault Refusal := runState h (fun _ s => .done s) s
def execBr (h : Hdr) (o : BrOps) (s : State) : Host.Outcome State Fault Refusal :=
  runState h (fun t s => branchTo h s t t (wordTarget s.cur.pc o.off) none) s
def execBrx (h : Hdr) (o : BrxOps) (s : State) : Host.Outcome State Fault Refusal := runState h (branchReg h o.a o.b none) s
def execCall (h : Hdr) (o : CallOps) (s : State) : Host.Outcome State Fault Refusal :=
  runState h (fun t s => branchTo h s t t (wordTarget s.cur.pc o.off) (some o.d)) s
def execCallx (h : Hdr) (o : CallxOps) (s : State) : Host.Outcome State Fault Refusal :=
  runState h (branchReg h o.a (.imm 64) (some o.d)) s
/-- R380: RET is BRX with B = 0. -/
def execRet (h : Hdr) (o : RetOps) (s : State) : Host.Outcome State Fault Refusal := runState h (branchReg h o.a (.imm 64) none) s
/-- R380: the counter is written unless the transfer faults. -/
def execLoop (h : Hdr) (o : CallOps) (s : State) : Host.Outcome State Fault Refusal :=
  runState h (fun t s =>
    let n := getW t o.d - 1
    let t' := setData t o.d n
    if n = 0 then .done (setCur s t') else branchTo h s t t' (wordTarget s.cur.pc o.off) none) s
/-- R384 -/
def execTrap (h : Hdr) (o : TrapOps) (s : State) : Host.Outcome State Fault Refusal :=
  runState h (fun _ s => .trap s tSoft (o.imm.setWidth 64)) s
/-- R204: DETAIL of a signature fault -/
def sigDetail (expected computed : BitVec 32) : W64 := expected ++ computed
/-- R209: the checker's comparison, against a CRC -/
def sigOk (t : Thread) (crc : BitVec 32) : Bool := match t.sig.expected with | some e => e == crcValue crc | none => true
def sigFault (s : State) (t : Thread) (crc : BitVec 32) : Res := .trap s tSig (sigDetail (t.sig.expected.getD 0) (crcValue crc))
/-- R386, R209: compare the block that ends, and start the next; the word itself is counted as it retires. -/
def execSig (h : Hdr) (o : SigOps) (s : State) : Host.Outcome State Fault Refusal :=
  runState h (fun t s =>
    if sigOk t t.sig.crc then .done (setCur s { t with sig := { crc := BitVec.allOnes 32, expected := some o.crc } })
    else sigFault s t t.sig.crc) s

end Sys2Proof.Machine
end

