-- ==== Sys2Proof/Machine/Matrix.lean ====
section
/-! DEFINITION. The joint matrix array (R298, R300-R319, R443-R449): gang issue at the row's barrier, the sums, the tile
instructions and drains. -/
namespace Sys2Proof.Machine

/-! ## The barrier (R298, R304) -/

def rowCores (k : Nat) : List Nat := [0, 1, 2, 3].map (k / 4 * 4 + ·)
/-- the four threads of the gang on a row, by position -/
def gangThreads (s : State) (k : Nat) (b : Nat) : List (Nat × Thread) :=
  (rowCores k).filterMap (fun j => match threadOf s j with
    | some t => if t.id.batch == b && t.id.gang then some (j, t) else none
    | none => none)
def isFinishing : Blocked → Bool | .finishing _ => true | _ => false
def arrived (t : Thread) : Bool := t.blockE == .barrier || isFinishing t.blockA
/-- the word at the head of a thread's slice buffer -/
def headWord (t : Thread) : W64 × IWord := match t.slice with | .word pc w :: _ => (pc, w) | _ => (t.pc, 0)
def headInstr (t : Thread) : Option Instr := match decode (headWord t).2 with | .ok i => some i | .error _ => none

/-- What R304 compares of a gang instruction: major, formats, scale, K, tile, presence of sa, sb and skip, counts, n. -/
structure GangKey where
  major : Nat
  fa : BitVec 7
  fb : BitVec 7
  scale : BitVec 2
  km1 : BitVec 10
  tile : Opd
  sap : Bool
  sbp : Bool
  skip : Bool
  counts : W64
  n : BitVec 48
  deriving DecidableEq, Repr, Inhabited
def isStreamOpd : Opd → Bool | .s _ => true | _ => false
def gangKey (t : Thread) : Instr → Option GangKey
  | .mgang _ o => some ⟨0, 0, 0, 0, 0, .c 0, false, false, false, 0, o.n⟩
  | .mmul _ o => some ⟨1, o.fa, o.fb, o.scale, o.km1, o.d, o.sap, o.sbp, isStreamOpd o.tc, 0, 0⟩
  | .mgrp _ o => some ⟨2, o.fa, o.fb, o.scale, o.km1, o.d, o.sap, o.sbp, false, readCI t o.tc, 0⟩
  | _ => none
/-- R444: a stream operand of a matrix instruction -/
def checkStream (t : Thread) (n : BitVec 4) (ok : StreamKind → Bool) : Except Stop Unit :=
  match getS t n with
  | none => .error (capFault .kind 0)
  | some d =>
    if !ok d.kind then .error (capFault .kind (capCursor d.cap))
    else if !hasPerm d.cap permR then .error (capFault .permission (capCursor d.cap))
    else .ok ()
def isSkipKind : StreamKind → Bool | .skip _ => true | _ => false
def checkOpdStream (t : Thread) (o : Opd) (ok : StreamKind → Bool) : Except Stop Unit :=
  match o with | .s n => checkStream t n ok | _ => .ok ()
def checkMat (t : Thread) (o : MatOps) : Except Stop Unit := do
  checkOpdStream t o.a isElems
  checkOpdStream t o.b isStrided
  if o.sap then checkStream t o.san isStrided else .ok ()
  if o.sbp then checkStream t o.sbn isStrided else .ok ()
  checkOpdStream t o.tc isSkipKind
/-- R296: an instruction of the array waits for wide-unit work on the bytes it accesses -/
def behindWide (s : State) (t : Thread) (i : Instr) (check : Except Stop Unit) : Except Stop Unit :=
  if wideClash s s.cur.core t i then .error .wait else check
/-- a fault at a position's own word -/
def aAt {α : Type} (k : Nat) (pc : W64) (f : AM α) : AM α := fun s =>
  match f s with
  | .error (.trap s c d) => .error (.trap { s with cur := { s.cur with core := k, pc := pc } } c d)
  | r => r
/-- an effect that has to wait, or traps, leaves the positions' registers and streams as they were -/
def backRegs (ts : List (Nat × Thread)) (s : State) : State :=
  ts.foldl (fun s x => match threadOf s x.1 with | some t => setThreadOf s x.1 { t with regs := x.2.regs } | none => s) s
/-- Issue of a gang instruction: the position's own checks, the barrier, and the joint effect once all four stand there. -/
def gangIssue (check : Except Stop Unit) (eff : Nat → Nat → AM Unit) (t : Thread) (s : State) : Res :=
  let go (s : State) : Res :=
    let ts := gangThreads s s.cur.core t.id.batch
    if ts.length == 4 && ts.all (fun x => arrived x.2) then
      if ts.all (fun x => x.2.blockE == .barrier) then
        match eff s.cur.core t.id.batch s with
        | .ok (_, s) => .gone s
        | .error (.wait w) => .wait (backRegs ts w)
        | .error (.trap w c d) => .trap (backRegs ts w) c d
      else .trap s tGang 0
    else .wait s
  if t.blockE == .barrier then go s
  else orStop s check (if t.id.gang then go (setCur s { t with blockE := .barrier }) else .trap s tGang 0)
/-- the four instructions match -/
def keysMatch (ts : List (Nat × Thread)) : Bool :=
  match ts.map (fun x => (headInstr x.2).bind (gangKey x.2)) with
  | some k :: r => r.all (· == some k)
  | _ => false
/-- a position's gang instruction is done -/
def gangDone (section_ : Nat) (t : Thread) : Thread := popSlice { t with blockE := .none, opn := { t.opn with section_ := section_ } }
def setThreads (s : State) (ts : List (Nat × Thread)) : State := ts.foldl (fun s x => setThreadOf s x.1 x.2) s

/-- R305, R446: the section opens -/
def mgangEff (n : Nat) (k b : Nat) : AM Unit := do
  let ts := gangThreads (← aState) k b
  aUnless (keysMatch ts && ts.all (fun x => x.2.opn.section_ == 0)) (.trap tGang 0)
  aMod (fun s => setThreads s (ts.map (fun x => (x.1, gangDone n x.2))))
def execMgang (h : Hdr) (o : MgangOps) (s : State) : Host.Outcome State Fault Refusal :=
  runState h (gangIssue (.ok ()) (mgangEff o.n.toNat)) s

/-! ## Format pairs (R307) -/

/-- A pair the array implements: its group size (none: fused), the scales permitted, integer or not. -/
structure Pair where
  group : Option Nat
  e8m0 : Bool
  row : Bool
  int : Bool
  deriving DecidableEq, Repr, Inhabited
def isB8 (c : Nat) : Bool := decide (c ≥ 0x40)
def pairOf (a b : BitVec 7) : Option Pair :=
  let x := a.toNat
  let y := b.toNat
  if x = 0 ∧ y = 0 then some ⟨none, false, true, false⟩
  else if x = y ∧ (x = 1 ∨ x = 2) then some ⟨some 8, false, true, false⟩
  else if (x = 3 ∨ x = 4) ∧ (y = 3 ∨ y = 4) then some ⟨some 32, true, true, false⟩
  else if isB8 x && isB8 y then some ⟨some 32, true, true, false⟩
  else if x = y ∧ (x = 5 ∨ x = 6 ∨ x = 7) then some ⟨some 32, true, true, false⟩
  else if ((x = 8 ∨ x = 9) ∧ (y = 8 ∨ y = 9)) ∨ (x = 8 ∧ y = 10) ∨ (x = 10 ∧ y = 8) ∨ (x = 10 ∧ y = 10) then
    some ⟨some 32, false, false, true⟩
  else none
def scaleOk (p : Pair) (scale : BitVec 2) : Bool := match scale.toNat with | 1 => p.e8m0 | 2 => p.row | _ => true

/-! ## Sums (R308, R309) -/

def evArray : Events := evInvalid ||| evOverflow ||| evNan
def nan32 : Nat := 0x7FC00000
def oneVal : FVal := .num false 1 0
/-- the array's result of an FP32 operation: one NaN, and the events it counts -/
def arrayOut (r : Nat × Events) : Nat × Events :=
  match unpackF fp32 r.1 with | .nan _ _ _ _ => (nan32, r.2 &&& evArray) | _ => (r.1, r.2 &&& evArray)
def anySignalling (vs : List FVal) : Bool := vs.any (fun v => match v with | .nan _ s _ _ => s | _ => false)
/-- a product of factors: none is invalid -/
def prodVals : List FVal → Option FVal
  | [] => some (.num false 1 0)
  | [v] => some v
  | v :: t => match prodVals t with | some w => mulVal v w | none => none
/-- factors with a zero and an infinity among those that are no NaN (R329) -/
def badFactors (vs : List FVal) : Bool := (prodVals (vs.filter (!·.isNan))).isNone
def sumSign (ts : List Term) : Bool := !ts.isEmpty && ts.all (fun t => t.neg && t.m == 0)
/-- the exact sum of a group's products times its scales, as a value; none is invalid -/
def groupValue (ps : List (FVal × FVal)) (sa sb : FVal) : Option FVal :=
  let prods := ps.map (fun x => mulVal x.1 x.2)
  if prods.any Option.isNone then none
  else
    let vs := prods.filterMap id
    match infSum vs with
    | none => none
    | some (some n) => prodVals [.inf n, sa, sb]
    | some none =>
      let ts := vs.map FVal.term
      let e := minExp ts
      let x := sumAt e ts
      if x = 0 then
        -- the sign of an exact zero: that of the products, scales included, when all agree in being negative
        (match prodVals [sa, sb] with
         | none => none
         | some k => if k.isInf then none else some (.num (sumSign (ts.map (fun t => { t with neg := t.neg != k.neg }))) 0 0))
      else prodVals [.num (decide (x < 0)) x.natAbs e, sa, sb]
/-- The invalid operations of a group with a NaN among its inputs (R329): a signalling NaN, 0 × ∞ in a product or with the
scales, and infinities of both signs among the products that are no NaN. -/
def groupInvalid (acc : FVal) (ps : List (FVal × FVal)) (sa sb : FVal) : Bool :=
  let ins := sa :: sb :: ps.flatMap (fun x => [x.1, x.2])
  let prods := (ps.filter (fun x => !x.1.isNan && !x.2.isNan)).filterMap (fun x => mulVal x.1 x.2)
  anySignalling (acc :: ins) || ps.any (fun x => badProd x.1 x.2) || (infSum prods).isNone ||
    badFactors (if ps.any (fun x => x.1.isNan || x.2.isNan) then [sa, sb]
      else [match groupValue ps oneVal oneVal with | some v => v | none => oneVal, sa, sb])
/-- acc := rne(acc + rne(t)) for one group -/
def groupStep (acc : Nat) (ps : List (FVal × FVal)) (sa sb : FVal) : Nat × Events :=
  let ins := sa :: sb :: ps.flatMap (fun x => [x.1, x.2])
  if ins.any FVal.isNan then
    (nan32, if groupInvalid (unpackF fp32 acc) ps sa sb then evInvalid else evNone)
  else match groupValue ps sa sb with
    | none => (nan32, evInvalid ||| evNan)
    | some v =>
      let t := match v with | .num n m e => finOut fp32 ctlRne false n m e | v => infOut fp32 ctlRne v.neg
      let r := fpAdd fp32 ctlRne acc t.1
      arrayOut (r.1, r.2 ||| t.2)
/-- acc := rne(a*b*sa*sb + acc) -/
def fusedStep (acc : Nat) (a b sa sb : FVal) : Nat × Events :=
  let z := unpackF fp32 acc
  let ins := [a, b, sa, sb, z]
  if ins.any FVal.isNan then
    (nan32, if anySignalling ins || badFactors [a, b, sa, sb] then evInvalid else evNone)
  else match prodVals [a, b, sa, sb] with
    | none => (nan32, evInvalid ||| evNan)
    | some p => arrayOut (addVals fp32 ctlRne [p, z])
def intOf (code : BitVec 7) (v : Nat) : Int :=
  match unpack (fmtOf code) (v % 2 ^ (fmtOf code).bits) with | .num n m _ => if n then -(m : Int) else m | _ => 0
def addInt (acc : Nat) (x : Int) : Nat := (((acc : Int) + x) % 2 ^ 32).toNat

/-- One row of A or column of B: the elements by k, and the scales by group (one for .rowf32 and for none). -/
structure Line where
  elems : List Nat
  scales : List FVal
  deriving DecidableEq, Repr, Inhabited
def scaleAt (l : Line) (g : Nat) : FVal := match l.scales with | [v] => v | vs => (vs.drop g).headD (.num false 1 0)
def fvalOf (code : BitVec 7) (v : Nat) : FVal := unpack (fmtOf code) (v % 2 ^ (fmtOf code).bits)
/-- the groups of a line: elements k in [g*G, g*G + G) that are dense -/
def groupSteps (fa fb : BitVec 7) (G : Nat) (dense : List Bool) (a b : Line) : Nat → Nat → Nat × Events → Nat × Events
  | 0, _, r => r
  | n + 1, g, r =>
    let cut {α : Type} (l : List α) : List α := (l.drop (g * G)).take G
    let ps := ((cut dense).zip ((cut a.elems).zip (cut b.elems))).filter (·.1)
    let s := groupStep r.1 (ps.map (fun x => (fvalOf fa x.2.1, fvalOf fb x.2.2))) (scaleAt a g) (scaleAt b g)
    groupSteps fa fb G dense a b n (g + 1) (s.1, r.2 ||| s.2)
/-- one accumulator of R308 -/
def accumulate (p : Pair) (fa fb : BitVec 7) (dense : List Bool) (a b : Line) (acc : Nat) : Nat × Events :=
  match p.group with
  | none =>
    (dense.zip (a.elems.zip b.elems)).foldl (fun r x =>
      let s := if x.1 then fusedStep r.1 (fvalOf fa x.2.1) (fvalOf fb x.2.2) (scaleAt a 0) (scaleAt b 0)
        else fusedStep r.1 (.num false 0 0) (.num false 0 0) (.num false 1 0) (.num false 1 0)
      (s.1, r.2 ||| s.2)) (acc, evNone)
  | some G =>
    if p.int then
      ((dense.zip (a.elems.zip b.elems)).foldl (fun r x => if x.1 then addInt r (intOf fa x.2.1 * intOf fb x.2.2) else r) acc, evNone)
    else groupSteps fa fb G dense a b ((dense.length + G - 1) / G) 0 (acc, evNone)

/-! ## Tiles -/

def tileAt (t : Tile) (i : Nat) : Nat := (mget 0 t i).toNat
def tileOf (vs : List (Nat × Nat)) : Tile := (vs.filter (fun x => x.2 % 2 ^ 32 ≠ 0)).map (fun x => (x.1, BitVec.ofNat 32 x.2))
/-- the rows of a tile that `f` gives lines for, updated; the others stand -/
def updateTile (p : Pair) (fa fb : BitVec 7) (dense : List Bool) (rows : Nat → Option (Line × List Line)) (t : Tile) : Tile × Events :=
  let out := (List.range 4096).map (fun i =>
    match rows (i / 64) with
    | none => (tileAt t i, evNone)
    | some (a, cols) => accumulate p fa fb dense a ((cols.drop (i % 64)).headD ⟨[], []⟩) (tileAt t i))
  (tileOf (out.zipIdx.map (fun x => (x.2, x.1.1))), out.foldl (fun e x => e ||| x.2) evNone)

/-! ## Reading the operands (R302, R303, R445) -/

/-- n elements of fb bits from a stream's bytes, and the stream past them; items of another size are taken as bytes -/
def aFormat (w : Who) (d : Stream) (fb n : Nat) : AM (List Nat × Stream) := do
  let items := (n * fb + d.ebits - 1) / d.ebits
  let vs ← aElems w d d.pos items
  pure (if d.ebits = fb then vs else splitElems fb (packElems d.ebits vs) n, { d with pos := d.pos + items })
/-- pass over n elements without reading -/
def passOver (d : Stream) (fb n : Nat) : Stream := { d with pos := d.pos + (n * fb + d.ebits - 1) / d.ebits }
def chunks (w : Nat) : Nat → List Nat → List (List Nat)
  | 0, _ => []
  | n + 1, l => l.take w :: chunks w n (l.drop w)
/-- spread the elements of the dense k over all k -/
def spread : List Bool → List Nat → List Nat
  | [], _ => []
  | true :: t, l => l.headD 0 :: spread t l.tail
  | false :: t, l => 0 :: spread t l
/-- what one position has read, with its streams advanced -/
def useStream {α : Type} [Inhabited α] (k : Nat) (n : BitVec 4) (f : Stream → AM (α × Stream)) : AM α := do
  match threadOf (← aState) k with
  | none => pure default
  | some t => match getS t n with
    | none => pure default
    | some d => do
      let (v, d') ← f d
      aMod (fun s => match threadOf s k with | some t => setThreadOf s k (setS t n (some d')) | none => s)
      pure v
/-- 16 rows of A, the zero-run k as zeros -/
def readRows (w : Who) (fb : Nat) (dense : List Bool) (d : Stream) : AM (List (List Nat) × Stream) := do
  let kd := (dense.filter id).length
  let (vs, d) ← aFormat w d fb (16 * kd)
  pure ((chunks kd 16 vs).map (spread dense), d)
/-- 64 columns of B: K rows of 64 elements, those of a zero-run k passed over -/
def readColsF (w : Who) (fb : Nat) : List Bool → Stream → AM (List (List Nat) × Stream)
  | [], d => pure ([], d)
  | b :: t, d => do
    let (r, d) ← if b then aFormat w d fb 64 else pure (List.replicate 64 0, passOver d fb 64)
    let (rs, d) ← readColsF w fb t d
    pure (r :: rs, d)
def column (rows : List (List Nat)) (j : Nat) : List Nat := rows.map (fun r => (r.drop j).headD 0)
def readCols (w : Who) (fb : Nat) (dense : List Bool) (d : Stream) : AM (List (List Nat) × Stream) := do
  let (rows, d) ← readColsF w fb dense d
  pure ((List.range 64).map (column rows), d)
def e8m0Val (v : Nat) : FVal := unpack .e8m0 v
/-- scales of n lines; E8M0 codes come per group, row-major for A and group-major for B -/
def readScales (w : Who) (scale : BitVec 2) (n groups : Nat) (byRow : Bool) (d : Stream) : AM (List (List FVal) × Stream) := do
  match scale.toNat with
  | 1 => do
    let (vs, d) ← aFormat w d 8 (n * groups)
    let at_ (i g : Nat) : Nat := if byRow then i * groups + g else g * n + i
    pure ((List.range n).map (fun i => (List.range groups).map (fun g => e8m0Val ((vs.drop (at_ i g)).headD 0))), d)
  | _ => do
    let (vs, d) ← aFormat w d 32 n
    pure (vs.map (fun v => [unpackF fp32 v]), d)
def opdStream (o : Opd) : BitVec 4 := match o with | .s n => n | _ => 0
def zipLines (es : List (List Nat)) (ss : List (List FVal)) : List Line := (es.zip ss).map (fun x => ⟨x.1, x.2⟩)
/-- the scales of an instruction's A or B, ones without -/
def scalesOr (k : Nat) (w : Who) (o : MatOps) (present : Bool) (n : BitVec 4) (lines groups : Nat) (byRow : Bool) : AM (List (List FVal)) :=
  if present then useStream k n (readScales w o.scale lines groups byRow) else pure (List.replicate lines [oneVal])
/-- one position's rows of A -/
def readA (o : MatOps) (dense : List Bool) (x : Nat × Thread) : AM (List (List Nat)) := aAt x.1 (headWord x.2).1
  (useStream x.1 (opdStream o.a) (readRows (whoOf x.1 x.2) (elemBitsOf o.fa) dense))
/-- one K × 64 slice of a position's B -/
def readB (o : MatOps) (dense : List Bool) (x : Nat × Thread) : AM (List (List Nat)) := aAt x.1 (headWord x.2).1
  (useStream x.1 (opdStream o.b) (readCols (whoOf x.1 x.2) (elemBitsOf o.fb) dense))
/-- the scales of a position's rows of A, and of one slice of its B -/
def readSa (o : MatOps) (x : Nat × Thread) : AM (List (List FVal)) := aAt x.1 (headWord x.2).1
  (scalesOr x.1 (whoOf x.1 x.2) o o.sap o.san 16 (scaleGroups o) true)
def readSb (o : MatOps) (x : Nat × Thread) : AM (List (List FVal)) := aAt x.1 (headWord x.2).1
  (scalesOr x.1 (whoOf x.1 x.2) o o.sbp o.sbn 64 (scaleGroups o) false)
/-- a position's own operands, read from its own word -/
def matOf (t : Thread) : MatOps :=
  match headInstr t with | some (.mmul _ o) => o | some (.mgrp _ o) => o | _ => default
/-- the dense k of an instruction, from the position's skip list -/
def readSkip (kk : Nat) (x : Nat × Thread) : AM (List SkipRun) := aAt x.1 (headWord x.2).1 (
  match (matOf x.2).tc with
  | .s n => useStream x.1 n (fun d => aSkip (whoOf x.1 x.2) d kk)
  | _ => pure [⟨true, kk, false⟩])
/-- the array's effect at a position: its tile and its counters -/
def finishMat (o : MatOps) (p : Pair) (dense : List Bool) (rows : Nat → Option (Line × List Line)) (k : Nat) (s : State) : State :=
  match threadOf s k with
  | none => s
  | some t =>
    let m : BitVec 3 := match o.d with | .m n => n | _ => 0
    let r := updateTile p o.fa o.fb dense rows (getM t m)
    setThreadOf s k (gangDone (t.opn.section_ - 1) (countEvents (setM t m r.1) r.2))
/-- the checks of R304 in their order, up to the counts -/
def gangChecks (ts : List (Nat × Thread)) (o : MatOps) (skips : List (List SkipRun)) : AM Pair := do
  aUnless (skips.all (· == skips.headD [])) (.trap tGang 0)
  match pairOf o.fa o.fb with
  | none => aTrap tMatrix 0
  | some p => do
    aUnless (scaleOk p o.scale && !ts.isEmpty) (.trap tMatrix 0)
    pure p
/-- R302 -/
def mmulEff (o : MatOps) (k b : Nat) : AM Unit := do
  let ts := gangThreads (← aState) k b
  aUnless (keysMatch ts) (.trap tGang 0)
  let skips ← aEach (readSkip (o.km1.toNat + 1)) ts
  let p ← gangChecks ts o skips
  let dense := denseOf (skips.headD [])
  -- the source positions' items before those of the scales (R295)
  let a ← aEach (fun x => readA (matOf x.2) dense x) ts
  let b ← aEach (fun x => readB (matOf x.2) dense x) ts
  let sa ← aEach (fun x => readSa (matOf x.2) x) ts
  let sb ← aEach (fun x => readSb (matOf x.2) x) ts
  let rows := zipLines a.flatten sa.flatten
  aFor (fun x => aMod (finishMat o p dense (fun i => some ((rows.drop i).headD ⟨[], []⟩, zipLines x.2.1 x.2.2)) x.1.1))
    (ts.zip (b.zip sb))
/-- the row counts of MGRP -/
def groupCounts (v : W64) : List Nat := (List.range 8).map (fun g => (v.extractLsb' (8 * g) 8).toNat)
/-- the group of a row, from the counts -/
def groupOfRow : List Nat → Nat → Nat → Option Nat
  | [], _, _ => none
  | c :: t, g, i => if i < c then some g else groupOfRow t (g + 1) (i - c)
/-- a stream passes over n elements of fb bits -/
def passStream (t : Thread) (n : BitVec 4) (fb k : Nat) : Thread :=
  match getS t n with | some d => setS t n (some (passOver d fb k)) | none => t
/-- R445: an MGRP whose groups are all empty takes A and A's scales only, and reads nothing -/
def passRows (o : MatOps) (t : Thread) : Thread :=
  let m := matOf t
  let u := passStream t (opdStream m.a) (elemBitsOf o.fa) (16 * (o.km1.toNat + 1))
  if !m.sap then u else if o.scale == 1 then passStream u m.san 8 (16 * scaleGroups o) else passStream u m.san 32 16
/-- R310 -/
def mgrpEff (o : MatOps) (k b : Nat) : AM Unit := do
  let ts := gangThreads (← aState) k b
  aUnless (keysMatch ts) (.trap tGang 0)
  let dense := List.replicate (o.km1.toNat + 1) true
  let p ← gangChecks ts o []
  let cs := groupCounts (match ts with | x :: _ => readCI x.2 (matOf x.2).tc | [] => 0)
  let total := cs.foldl (· + ·) 0
  aUnless (decide (total ≤ 64)) (.trap tGroup 0)
  if total = 0 then
    aFor (fun x => aMod (fun s => match threadOf s x.1 with
      | some t => setThreadOf s x.1 (gangDone (t.opn.section_ - 1) (passRows o t))
      | none => s)) ts
  else do
    let a ← aEach (fun x => readA (matOf x.2) dense x) ts
    let b ← aEach (fun x => aEach (fun c => if c = 0 then pure [] else readB (matOf x.2) dense x) cs) ts
    let sa ← aEach (fun x => readSa (matOf x.2) x) ts
    let sb ← aEach (fun x => aEach (fun c => if c = 0 then pure [] else readSb (matOf x.2) x) cs) ts
    let rows := zipLines a.flatten sa.flatten
    aFor (fun x => aMod (finishMat o p dense (fun i => (groupOfRow cs 0 i).map (fun g =>
      ((rows.drop i).headD ⟨[], []⟩, zipLines ((x.2.1.drop g).headD []) ((x.2.2.drop g).headD [])))) x.1.1))
      (ts.zip (b.zip sb))
def execMmul (h : Hdr) (o : MatOps) (s : State) : Host.Outcome State Fault Refusal :=
  runState h (fun t s => gangIssue (behindWide s t (.mmul h o) (checkMat t o)) (mmulEff o) t s) s
def execMgrp (h : Hdr) (o : MatOps) (s : State) : Host.Outcome State Fault Refusal :=
  runState h (fun t s => gangIssue (behindWide s t (.mgrp h o) (checkMat t o)) (mgrpEff o) t s) s

/-! ## Tile instructions (R319, R449) -/

def mOf (o : Opd) : BitVec 3 := match o with | .m n => n | _ => 0
def mzeroThread (o : TileOps) (t : Thread) : Except Stop Thread := .ok (setM t (mOf o.d) [])
def mcopyThread (o : TileOps) (t : Thread) : Except Stop Thread := .ok (setM t (mOf o.d) (getM t (mOf o.a)))
def tileEntries : Nat := 1024
/-- the four elements of entry i -/
def entryElems (i : Nat) (v : W128) : List (Nat × Nat) := (splitElems 32 v.toNat 4).zipIdx.map (fun x => (4 * i + x.2, x.1))
/-- entries popped into a tile: how many were there, up to the tile's end -/
def fillTile : List W128 → Nat → Tile → List W128 × Nat × Tile
  | [], i, m => ([], i, m)
  | v :: t, i, m => if i ≥ tileEntries then (v :: t, i, m) else fillTile t (i + 1) (m ++ tileOf (entryElems i v))
def mldRes (o : TileOps) (t : Thread) (s : State) : Res :=
  let n : BitVec 2 := match o.a with | .l n => n | _ => 0
  let start : Nat × Tile := match t.blockE with | .tile i m => (i, m) | _ => (0, [])
  let (q, i, m) := fillTile (getL t n) start.1 start.2
  let t := setL t n q
  if i ≥ tileEntries then .done (setCur s (setM t (mOf o.d) m)) else .wait (setCur s { t with blockE := .tile i m })
def tileEntry (m : Tile) (i : Nat) : W128 := BitVec.ofNat 128 (packElems 32 ((List.range 4).map (fun j => tileAt m (4 * i + j))))
def mstRes (o : TileOps) (t : Thread) (s : State) : Res :=
  let n : BitVec 1 := match o.d with | .d n => n | _ => 0
  let m := getM t (mOf o.a)
  let i := match t.blockE with | .tile i _ => i | _ => 0
  let q := getD t n
  let k := min (lDepth - q.length) (tileEntries - i)
  let t := setD t n (q ++ (List.range k).map (fun j => tileEntry m (i + j)))
  if i + k ≥ tileEntries then .done (setCur s t) else .wait (setCur s { t with blockE := .tile (i + k) [] })
/-- the drain numbers of a carried tile of an instance -/
def drainStateOf (i : Inst) (pos tile : Nat) : DrainState := mget { next := 0, applied := 0 } i.drains (pos * 8 + tile)
def mstatRes (o : TileOps) (t : Thread) (s : State) : Res :=
  let d := match findFrame s t.id.ctx t.id.frame with
    | some f => drainStateOf (findInst f t.id.stage.toNat t.id.coord) t.id.pos.toNat (mOf o.a).toNat
    | none => { next := 0, applied := 0 }
  let v : W64 := 0#32 ++ BitVec.ofNat 16 d.next ++ BitVec.ofNat 16 (min d.applied 0xFFFF)
  match o.d with | .c n => .done (setCur s (setData t n v)) | _ => .done s
def execMzero (h : Hdr) (o : TileOps) (s : State) : Host.Outcome State Fault Refusal := runThread h (mzeroThread o) s
def execMcopy (h : Hdr) (o : TileOps) (s : State) : Host.Outcome State Fault Refusal := runThread h (mcopyThread o) s
def execMld (h : Hdr) (o : TileOps) (s : State) : Host.Outcome State Fault Refusal := runState h (mldRes o) s
def execMst (h : Hdr) (o : TileOps) (s : State) : Host.Outcome State Fault Refusal := runState h (mstRes o) s
def execMstat (h : Hdr) (o : TileOps) (s : State) : Host.Outcome State Fault Refusal := runState h (mstatRes o) s

/-! ## Drains (R314-R318, R448) -/

def evDrain : Events := evOverflow ||| evUnderflow ||| evInexact ||| evSat
/-- R314: an element converted -/
def drainElem (fa : BitVec 7) (v : Nat) : Nat × Events :=
  match fmtOf fa with
  | .float p =>
    let c : FCtl := { rm := .rne, ftz := false, sat := p.kind == .e4m3, cnan := true }
    let r := convert c (.float fp32) (.float p) v
    (r.1, r.2 &&& evDrain)
  | _ => (v, evNone)
def mdrainAM (o : MatOps) (w : Who) (t : Thread) : AM Thread := do
  let a := match o.a with | .c n => getC t n | _ => cZero
  let n := o.km1.toNat + 1
  let z := elemBitsOf o.fa / 8
  aLift (checkCap a [1] permW (capCursor a.bits) (n * 64 * z))
  aUnless (linesHeld w (curOf a) (n * 64 * z)) (capFault .bounds (capCursor a.bits))
  let out := (List.range (64 * n)).map (fun i => drainElem o.fa (tileAt (getM t (mOf o.b)) i))
  aStore w a.bits (curOf a) (n * 64 * z) (packElems (8 * z) (out.map (·.1))) false true
  pure (countEvents t (out.foldl (fun e r => e ||| r.2) evNone))
/-- an accumulator handle (R316, log 20): its frame stands in the base -/
def drainHandle (frame : BitVec 32) (cursor : W64) : CReg := ⟨mkCap 2 permsAll frame.toNat (frame.toNat + 1) cursor, true⟩
def drainCap : Nat := 8
def drainTo (a : CReg) (int32 : Bool) (seq : Option (BitVec 16)) (m : Tile) (t : Thread) : Drain :=
  let c := capCursor a.bits
  { ctx := t.id.ctx, frame := BitVec.ofNat 32 (capBase a.bits), stage := c.extractLsb' 5 6, coord := (c >>> 11).toNat,
    pos := c.extractLsb' 3 2, tileNo := c.extractLsb' 0 3, int32 := int32, seq := seq, tile := m,
    sbatch := t.id.batch, spos := t.id.pos }
def sameTile (d e : Drain) : Bool :=
  d.ctx == e.ctx && d.frame == e.frame && d.stage == e.stage && d.coord == e.coord && d.pos == e.pos && d.tileNo == e.tileNo
def ownInst (d : Drain) (id : Ident) : Bool := d.ctx == id.ctx && d.frame == id.frame && d.stage == id.stage && d.coord == id.coord
/-- the target's frame still takes drains (R317) -/
def drainLive (s : State) (d : Drain) : Bool := match findFrame s d.ctx d.frame with | some f => !f.withdrawn | none => false
def drainAddRes (o : MatOps) (seq : Option (BitVec 16)) (t : Thread) (s : State) : Res :=
  let a := match o.a with | .c n => getC t n | _ => cZero
  let d := drainTo a (o.fa == 0x11) seq (getM t (mOf o.b)) t
  orStop s (checkHandle a [2] permW)
    (if ownInst d t.id then .trap s tCap (capDetail .kind (capCursor a.bits))
     else if !drainLive s d then .done s
     else if (s.work.drains.filter (sameTile d)).length ≥ drainCap then .wait s
     else .done (setWork (setCur s { t with opn := { t.opn with drains := t.opn.drains + 1 } })
       { s.work with drains := s.work.drains ++ [d] }))
def execMdrain (h : Hdr) (o : MatOps) (s : State) : Host.Outcome State Fault Refusal :=
  runState h (fun t s => orStop s (behindWide s t (.mdrain h o) (.ok ())) (runA (mdrainAM o (whoOf s.cur.core t)) t s)) s
def execMdrainAdd (h : Hdr) (o : MatOps) (s : State) : Host.Outcome State Fault Refusal := runState h (drainAddRes o none) s
def execMdrainAddOrd (h : Hdr) (o : MatOps) (s : State) : Host.Outcome State Fault Refusal :=
  runState h (fun t s => drainAddRes o (some ((readCI t o.tc).setWidth 16)) t s) s

def addTiles (int32 : Bool) (a b : Tile) : Tile :=
  tileOf ((List.range 4096).map (fun i => (i, if int32 then tileAt a i + tileAt b i else sum32 (tileAt a i) (tileAt b i))))
/-- what becomes of a drain now: none while it waits; true to apply it, false to discard it -/
def drainFate (s : State) (earlier : List Drain) (d : Drain) : Option Bool :=
  match findFrame s d.ctx d.frame with
  | none => some false
  | some f =>
    let i := findInst f d.stage.toNat d.coord
    if f.withdrawn then some false
    else if i.running ≠ 0 then none
    else match d.seq with
      | none => if earlier.any (fun e => sameTile e d && e.seq.isNone) then none else some true
      | some n =>
        let next := (drainStateOf i d.pos.toNat d.tileNo.toNat).next
        if n.toNat = next then some true else if n.toNat < next then some false else none
def applyDrain (s : State) (d : Drain) : State :=
  match findFrame s d.ctx d.frame with
  | none => s
  | some f =>
    let i := findInst f d.stage.toNat d.coord
    let key := d.pos.toNat * 8 + d.tileNo.toNat
    let n := drainStateOf i d.pos.toNat d.tileNo.toNat
    let m := addTiles d.int32 (mget [] i.tiles key) d.tile
    let i := { i with tiles := mset i.tiles key m
                      drains := mset i.drains key { next := if d.seq.isSome then (n.next + 1) % 65536 else n.next, applied := n.applied + 1 } }
    updFrame (writeTile s f d.stage.toNat d.coord d.pos.toNat d.tileNo.toNat m) d.ctx d.frame (fun f => setInst f i)
/-- the first drain that can be applied or discarded, with its fate -/
def nextDrain (s : State) : List Drain → List Drain → Option (Drain × Bool)
  | _, [] => none
  | seen, d :: t => match drainFate s seen d with | some b => some (d, b) | none => nextDrain s (d :: seen) t
def serveDrain (s : State) : State :=
  match nextDrain s [] s.work.drains with
  | none => s
  | some (d, ok) =>
    let s := setWork s { s.work with drains := s.work.drains.eraseP (· == d) }
    noteDrained (if ok then applyDrain s d else s) d
def execDrainApply (s : State) : Host.Outcome State Fault Refusal := .next (serveDrain s)

end Sys2Proof.Machine
end

