-- ==== Sys2Proof/Machine/Phaser.lean ====
section
/-! DEFINITION. Phasers (R133-R139): membership, signals, waits, expectations, completions and the gather record. -/
namespace Sys2Proof.Machine

/-! ## The phasers of the sync engines -/

/-- Where a phaser stands: die-level or not, engine, number. -/
structure PhId where
  dieLevel : Bool
  eng : Nat
  num : Nat
  deriving DecidableEq, Repr, Inhabited
def phIdOf (h : CReg) : PhId := ⟨phIsDie h, phEngine h, phNumber h⟩
def phGet (s : State) (i : PhId) : Option Phaser :=
  if i.dieLevel then mfind (die s i.eng).phasers i.num else mfind (cluster s i.eng).phasers i.num
def phSet (s : State) (i : PhId) (p : Phaser) : State :=
  if i.dieLevel then setDie s i.eng { die s i.eng with phasers := mset (die s i.eng).phasers i.num p }
  else setCluster s i.eng { cluster s i.eng with phasers := mset (cluster s i.eng).phasers i.num p }
/-- the cluster whose TLB and event queue the sync engine uses -/
def phCluster (i : PhId) : Nat := if i.dieLevel then i.eng * 32 else i.eng
/-- R119 -/
def phScope (i : PhId) : BitVec 3 := if i.dieLevel then 4 else 2

/-! ## Members -/

def memberOf (p : Phaser) (id : Ident) : Option PhMember := p.members.find? (isMember id)
def isSignaller (m : PhMember) : Bool := m.mode != .wait
def maySignal (o : Option PhMember) : Bool := match o with | some m => isSignaller m | none => false
def mayWait (o : Option PhMember) : Bool := match o with | some m => m.mode != .sig | none => false

/-! ## Arrivals (R135, R138) -/

/-- the pending count is a signed number of 48 bits -/
def wrap48 (n : Int) : Int := toS 48 (n % 2 ^ 48).toNat
/-- every signaller has signalled and nothing is pending -/
def phFull (p : Phaser) : Bool := p.pending == 0 && p.members.all (fun m => !isSignaller m || m.signalled)
/-- R137: the phase has passed q -/
def phasePast (phase q : BitVec 32) : Bool := let d := (phase - q).toNat; decide (1 ≤ d ∧ d < 2 ^ 31)
/-- the advance clears every signal, and what it ends is waited for no more -/
def phNext (p : Phaser) : Phaser :=
  { p with phase := p.phase + 1
           members := p.members.map (fun m => { m with signalled := false, waits := m.waits.filter (fun w => !phasePast (p.phase + 1) w.2) })
           sums := List.replicate 8 0, contributors := 0, due := false }
def gatherBytes (p : Phaser) : List Byte :=
  p.sums.flatMap (toBytes 8) ++ toBytes 4 p.phase.toNat ++ toBytes 4 p.contributors ++ List.replicate 56 0
/-- the advance: the gather record stands before it is visible, and until it can be written the engine applies nothing more to the
phaser; a record that cannot be written at all is reported -/
def phAdvance (s : State) (i : PhId) (p : Phaser) : State :=
  match p.gather with
  | some va =>
    if p.contributors = 0 then phSet s i (phNext p)
    else match engWrite s (phCluster i) p.ctx va.toNat (gatherBytes p) with
      | .ok s => phSet s i (phNext p)
      | .error (.wait s) => phSet s i { p with due := true }
      | .error _ =>
        postOwn (phSet (forgetEngEnds s p.ctx) i (phNext p)) p.ctx (phCluster i)
          (recordOf 0 0x12 (if i.dieLevel then engDieSync else engClusterSync) p.ctx 0 p.phase.toNat)
  | none => phSet s i (phNext p)
/-- an arrival has left the phaser as `p` -/
def phArrive (s : State) (i : PhId) (p : Phaser) : State := if phFull p then phAdvance s i p else phSet s i p

/-! ## The instructions (R134-R138) -/

/-- the checks of R133 and R134 before the mode's -/
def phCheck (a : CReg) (t : Thread) (s : State) : Except Stop (PhId × Phaser) :=
  match checkHandle a [4] 0 with
  | .error e => .error e
  | .ok () =>
    let i := phIdOf a
    match phGet s i with
    | none => .error (capFault .kind (capCursor a.bits))
    | some p =>
      if p.ctx != t.id.ctx then .error (capFault .kind (capCursor a.bits))
      else if !i.dieLevel && i.eng != clusterOf s.cur.core then .error (capFault .bounds (capCursor a.bits))
      else if p.due then .error .wait
      else .ok (i, p)
/-- `blocked`: what happens while the instruction waits -/
def phRunB (blocked : State → Thread → Res) (o : PhOps) (f : PhId → Phaser → Thread → State → Res) (t : Thread) (s : State) : Res :=
  match phCheck (getC t o.a) t s with
  | .error .wait => blocked s t
  | .error e => orStop s (.error e) (.wait s)
  | .ok (i, p) => f i p t s
def phRun (o : PhOps) (f : PhId → Phaser → Thread → State → Res) (t : Thread) (s : State) : Res := phRunB (fun s _ => .wait s) o f t s
def phDenied (o : PhOps) (t : Thread) (s : State) : Res :=
  .trap s tCap (capDetail .permission (capCursor (getC t o.a).bits))
/-- A blocking word that carries P is a safe point while it blocks (R196, R415). -/
def blockSafe (h : Hdr) (s : State) (t : Thread) : Res :=
  .wait (setCur s (if h.p then passSafe s t s.cur.mask else t))
def modeOf (m : BitVec 2) : PhMode := match m.toNat with | 0 => .sig | 1 => .wait | _ => .sw
def phregRes (o : PhOps) (i : PhId) (p : Phaser) (t : Thread) (s : State) : Res :=
  let done (s : State) : Res := .done (setCur s (setData t o.cd ((match phGet s i with | some q => q.phase | none => 0).setWidth 64 : W64)))
  match memberOf p t.id with
  | some m =>
    let mode := modeOf o.mode
    if m.mode = mode then done s
    else done (phArrive s i (updMember t.id (fun m => { m with mode := mode, signalled := m.signalled && mode != .wait }) p))
  | none =>
    if p.members.length ≥ 256 then .done (setCur s (setData t o.cd (BitVec.allOnes 64)))
    else
      let m : PhMember := { frame := t.id.frame, stage := t.id.stage, coord := t.id.coord, mode := modeOf o.mode, signalled := false, waits := [] }
      done (phSet s i { p with members := p.members ++ [m] })
def phdropRes (o : PhOps) (i : PhId) (p : Phaser) (t : Thread) (s : State) : Res :=
  match memberOf p t.id with
  | some _ => .done (phArrive s i { p with members := p.members.filter (fun m => !isMember t.id m) })
  | none => phDenied o t s
/-- the counters a signal adds to the gather sums -/
def addSums (t : Thread) (p : Phaser) : Phaser :=
  if p.gather.isNone then p
  else { p with sums := (p.sums.zip (t.regs.evc.toList.map (·.toNat))).map (fun x => min (x.1 + x.2) (2 ^ 64 - 1))
                contributors := p.contributors + 1 }
/-- R119, R135: the release, and the signal counting -/
def phSignal (gather : Bool) (i : PhId) (p : Phaser) (t : Thread) (s : State) : State :=
  let s := drainCtx s s.cur.core t.id.ctx
  let p := updMember t.id (fun m => { m with signalled := true }) p
  phArrive s i (if gather then addSums t p else p)
def signalled (p : Phaser) (id : Ident) : Bool := match memberOf p id with | some m => m.signalled | none => false
def phsigRes (gather : Bool) (o : PhOps) (i : PhId) (p : Phaser) (t : Thread) (s : State) : Res :=
  if !maySignal (memberOf p t.id) then phDenied o t s
  else if signalled p t.id || drainWaits s s.cur.core t.id.ctx then .wait s
  else .done (phSignal gather i p t s)
def passed (p : Phaser) (q : BitVec 32) : Bool := phasePast p.phase q
/-- a firing of a member waits for q to be passed, or (none) waits no more -/
def setWaiting (q : Option (BitVec 32)) (s : State) (i : PhId) (id : Ident) : State :=
  match phGet s i with
  | some p => phSet s i (updMember id (fun m => { clearWait id m with waits := (q.map (id.pos, ·)).toList ++ (clearWait id m).waits }) p)
  | none => s
/-- the wait of PHWAIT and PHSW: returning is an acquire, and D takes P -/
def phWaitFor (h : Hdr) (o : PhOps) (i : PhId) (p : Phaser) (q : BitVec 32) (t : Thread) (s : State) : Res :=
  if passed p q then
    let s := acquireLocal (setWaiting none s i t.id) s.cur.core (phScope i)
    .done (setCur s (setData t o.cd (p.phase.setWidth 64 : W64)))
  else blockSafe h (setWaiting (some q) s i t.id) t
def phwaitRes (h : Hdr) (o : PhOps) (i : PhId) (p : Phaser) (t : Thread) (s : State) : Res :=
  if !mayWait (memberOf p t.id) then phDenied o t s
  else phWaitFor h o i p ((readCI t o.b).setWidth 32) t s
def phswRes (h : Hdr) (o : PhOps) (i : PhId) (p : Phaser) (t : Thread) (s : State) : Res :=
  match t.blockA with
  | .signalled q => if !mayWait (memberOf p t.id) then phDenied o t s else phWaitFor h o i p q t s
  | _ =>
    if !(maySignal (memberOf p t.id) && mayWait (memberOf p t.id)) then phDenied o t s
    else if signalled p t.id || drainWaits s s.cur.core t.id.ctx then blockSafe h s t
    else
      let s := phSignal false i p t s
      let t := { t with blockA := .signalled p.phase }
      match phGet s i with
      | some p' => phWaitFor h o i p' p.phase t (setCur s t)
      | none => .wait (setCur s t)
def phexpRes (o : PhOps) (i : PhId) (p : Phaser) (t : Thread) (s : State) : Res :=
  match memberOf p t.id with
  | none => phDenied o t s
  | some _ =>
    let n := (readCI t o.b).toNat
    if n < 2 ^ 47 ∧ p.pending + n < 2 ^ 47 then .done (setCur (phSet s i { p with pending := p.pending + n }) (setP t o.pd true))
    else .done (setCur s (setP t o.pd false))

def execPhreg (h : Hdr) (o : PhOps) (s : State) : Host.Outcome State Fault Refusal := runState h (phRun o (phregRes o)) s
def execPhdrop (h : Hdr) (o : PhOps) (s : State) : Host.Outcome State Fault Refusal := runState h (phRun o (phdropRes o)) s
def execPhsig (h : Hdr) (o : PhOps) (s : State) : Host.Outcome State Fault Refusal := runState h (phRun o (phsigRes false o)) s
def execPhwait (h : Hdr) (o : PhOps) (s : State) : Host.Outcome State Fault Refusal := runState h (phRunB (blockSafe h) o (phwaitRes h o)) s
def execPhsw (h : Hdr) (o : PhOps) (s : State) : Host.Outcome State Fault Refusal := runState h (phRunB (blockSafe h) o (phswRes h o)) s
def execPhexp (h : Hdr) (o : PhOps) (s : State) : Host.Outcome State Fault Refusal := runState h (phRun o (phexpRes o)) s
def execPhgather (h : Hdr) (o : PhOps) (s : State) : Host.Outcome State Fault Refusal := runState h (phRun o (phsigRes true o)) s

/-! ## Completions (R133, R136, R451) -/

def completionArrives (s : State) (h : CReg) (c : Cmd) (r : Record) : State :=
  let toQueue (s : State) : State := deliver s (.event c.ctx c.cluster { rcd := r, scope := keptScope c.acq c.scope, raw := none })
  let i := phIdOf h
  match phGet s i with
  | some p =>
    if p.ctx != c.ctx then toQueue s
    else
      let s := phArrive s i { p with pending := wrap48 (p.pending - r.bytes.toNat) }
      if r.status = 0 then s else toQueue s
  | none => toQueue s
/-- the phaser an advance waits in, retried -/
def retryDue (s : State) (i : PhId) : State :=
  match phGet s i with | some p => if p.due then phAdvance s i p else s | none => s
/-- The oldest completion arrives at its phaser. An argument names a phaser whose gather record has still to be written. -/
def execPhaserCompletionArrival (s : State) : Host.Outcome State Fault Refusal :=
  .next (match s.cur.arg with
    | .ix2 e n => retryDue s ⟨decide (e ≥ 64), e % 64, n⟩
    | _ => match s.work.phComps with
      | (h, c, r) :: t =>
        if (match phGet s (phIdOf h) with | some p => p.due | none => false) then s
        else completionArrives (setWork s { s.work with phComps := t }) h c r
      | [] => s)

end Sys2Proof.Machine
end

