-- ==== Sys2Proof/Machine/Messages.lean ====
section
/-! DEFINITION. Event queues, messages to engines and queues, and the inspection of queues (R417-R422, R450). -/
namespace Sys2Proof.Machine

/-! ## Inboxes -/

/-- places in an inbox (log 22) -/
def inboxCap : Nat := 64
def inboxRoom (l : List Cmd) : Bool := decide (l.length < inboxCap)
/-- commands and requests take their number in the order of arrival (R176, R238) -/
def stampCmd (s : State) (c : Cmd) : Cmd × State :=
  if c.req = 0 then ({ c with req := s.sched.nextReq }, { s with sched := { s.sched with nextReq := s.sched.nextReq + 1 } }) else (c, s)
/-- A command accepted by an engine; none while its inbox is full. -/
def pushInbox (s : State) (e : EngineId) (c : Cmd) : Option State :=
  let (c, s) := stampCmd s c
  match e with
  | .copy k => let x := cluster s k; if inboxRoom x.copy then some (setCluster s k { x with copy := x.copy ++ [c] }) else none
  | .joiner k => let x := cluster s k; if inboxRoom x.joiner then some (setCluster s k { x with joiner := x.joiner ++ [c] }) else none
  | .kiln d => let x := die s d; if inboxRoom x.kiln then some (setDie s d { x with kiln := x.kiln ++ [c] }) else none
  | .scribe d => let x := die s d; if inboxRoom x.scribe then some (setDie s d { x with scribe := x.scribe ++ [c] }) else none
  | .bank q =>
    let x := die s (q / 512)
    if inboxRoom (x.bank.filter (fun b => channelOfPa b.pa == q)) then some (setDie s (q / 512) { x with bank := x.bank ++ [c] }) else none
  | .firmware d => let x := die s d; if inboxRoom x.firmware then some (wakeFirmware (setDie s d { x with firmware := x.firmware ++ [c] }) d) else none
  | _ => some s

/-! ## Commands -/

/-- R418, R450: D is c0 or a handle of an admitted kind -/
def replyCheck (t : Thread) (d : BitVec 6) (kinds : List Nat) : Except Stop Unit :=
  if d = 0 then .ok () else checkHandle (getC t d) kinds 0
def replyOf (d : CReg) (ctx : BitVec 12) (cl : Nat) : Reply := if d.tag then .handle d ctx cl else .none
/-- the value of B as a register -/
def regOf (t : Thread) (o : Opd) : CReg :=
  match o with | .c n => getC t n | .imm v => ⟨(BitVec.ofInt 64 (immOf v)).setWidth 192, false⟩ | _ => cZero
/-- an engine command as its message -/
def cmdOf (i : Instr) (o : EngOps) (t : Thread) (s : State) : Cmd :=
  { instr := i, ctx := t.id.ctx, core := s.cur.core, cluster := clusterOf s.cur.core, tag := o.tag, acq := o.acq, rel := o.rel,
    scope := o.scope, a := getC t o.a, b := regOf t o.b, cmd := o.cmd, body := [], bodyTags := [],
    reply := replyOf (getC t o.d) t.id.ctx (clusterOf s.cur.core), req := 0, pa := 0, page := 0 }
/-- R118: REL writes the sender's dirty sectors back before the engine reads -/
def releaseFor (rel : Bool) (k : Nat) (ctx : BitVec 12) (s : State) : State := if rel then drainCtx s k ctx else s
/-- such a release has to wait for a port (R14) -/
def releaseWaits (rel : Bool) (k : Nat) (ctx : BitVec 12) (s : State) : Bool := rel && drainWaits s k ctx
/-- Send a command, or wait while the inbox is full or its release for a port. -/
def sendCmd (e : EngineId) (c : Cmd) (s : State) : Res :=
  if releaseWaits c.rel c.core c.ctx s then .wait s
  else match pushInbox (releaseFor c.rel c.core c.ctx s) e c with
  | some s => .done s
  | none => .wait s
/-- An engine command: the checks of D, A and B in order, then the message. -/
def engRun (i : Instr) (o : EngOps) (kinds : List Nat) (checkA checkB : Thread → Except Stop Unit) (dest : Thread → State → EngineId)
    (t : Thread) (s : State) : Res :=
  orStop s (replyCheck t o.d kinds) (orStop s (checkA t) (orStop s (checkB t) (sendCmd (dest t s) (cmdOf i o t s) s)))

/-! ## SEND (R418-R420) -/

/-- the message a SEND to an inbox stands for, when its length is right -/
def messageInstr (code op len : Nat) : Option Instr :=
  match code, op, len with
  | 0x08, 0x01, 64 => some .seqopen
  | 0x08, 0x02, 32 => some .seqclose
  | 0x06, 0x20, 32 => some .verdict
  | 0x3F, 0x10, 64 => some .attest
  | _, _, _ => none
def messageEngine (code place : Nat) : EngineId :=
  match code with | 0x08 => .kiln (place / 32) | 0x06 => .joiner place | _ => .firmware (place / 32)
def msgCmd (k : Nat) (ctx : BitVec 12) (m : Message) (i : Instr) : Cmd :=
  { instr := i, ctx := ctx, core := k, cluster := clusterOf k, tag := m.tag, acq := m.acq, rel := m.rel, scope := m.scope,
    a := m.target, b := cZero, cmd := 0, body := m.body, bodyTags := m.bodyTags,
    reply := replyOf m.reply ctx (clusterOf k), req := 0, pa := 0, page := 0 }
/-- A message delivered; none while its target is full, or its release waits for a port. -/
def sendMessage (s : State) (k : Nat) (ctx : BitVec 12) (m : Message) : Option State :=
  if releaseWaits m.rel k ctx s then none
  else
  let s := releaseFor m.rel k ctx s
  if capKind m.target.bits == 3 then
    putItem s (handleCtx m.target) (handleFrame m.target) (handleQueue m.target) { plainItem m.body m.bodyTags with completion := m.rel }
  else
    let code := curOf m.target % 256
    let place := curOf m.target / 256 % 64
    match messageInstr code m.op.toNat m.body.length with
    | some i => pushInbox s (messageEngine code place) (msgCmd k ctx m i)
    | none => some (complete s (msgCmd k ctx m .verdict) (BitVec.ofNat 8 code) 0x0E 0 0)
/-- SEND's checks of A -/
def sendTarget (a : CReg) (op len : Nat) : Except Stop Unit := do
  checkHandle a [3, 8] permW
  if capKind a.bits == 3 && (op != 0 || len != 0) then .error (capFault .bounds (capCursor a.bits)) else .ok ()
/-- a queue target's reply must be c0 -/
def sendReply (t : Thread) (o : EngOps) : Except Stop Unit :=
  if capKind (getC t o.a).bits == 3 then
    (if o.d = 0 then .ok () else .error (capFault .kind (capCursor (getC t o.d).bits)))
  else replyCheck t o.d [3, 7]
/-- bytes of the body: none for a queue that is no more -/
def sendLen (s : State) (a : CReg) (len : Nat) : Nat :=
  if capKind a.bits == 3 then
    match (findFrame s (handleCtx a) (handleFrame a)).bind (queueAt · (handleQueue a)) with | some q => q.item | none => 0
  else len
/-- the tag of the slot at an address, as LDC would read it; a tagged slot without E is a capability fault -/
def aSlotTag (w : Who) (b : CReg) (va : Nat) : AM Bool := do
  if hasPerm b.bits permC then do
    let (d, x) ← aSector w va
    let tag := x.ct && d.tags.getLsbD (va % 64 / 32)
    let v := BitVec.ofNat 192 (secBytes d.data (va % 64) 24)
    aUnless (!tag || hasPerm v permE) (capFault .permission (BitVec.ofNat 64 va))
    pure tag
  else pure false
/-- R418: the body read at issue with the tags of its slots -/
def aBody (w : Who) (b : CReg) (n : Nat) : AM (List Byte × List Bool) := do
  aLift (checkCap b [0] permR (capCursor b.bits) n)
  let va := curOf b
  let bytes := toBytes n (← aLoad w b.bits va n)
  let tags ← if va % 32 = 0 then aEach (fun i => aSlotTag w b (va + 32 * i)) (List.range (n / 32)) else pure []
  pure (bytes, tags)
def deferCap : Nat := 16
def sendAM (o : EngOps) (w : Who) (t : Thread) : AM Thread := do
  let a := getC t o.a
  let op := (o.cmd.extractLsb' 18 8)
  let len := 16 * (o.cmd.extractLsb' 14 4).toNat
  aLift (sendTarget a op.toNat len)
  aLift (sendReply t o)
  let n := sendLen (← aState) a len
  let noBody := match o.b with | .c r => r == 0 && n == 0 | _ => true
  let (body, tags) ← if noBody then pure ([], []) else aBody w (regOf t o.b) n
  let m : Message := { target := a, reply := getC t o.d, acq := o.acq, rel := o.rel, scope := o.scope, tag := o.tag, op := op,
                       body := body, bodyTags := tags }
  if o.cmd.getLsbD 26 then do
    aUnless (decide (t.opn.deferred.length < deferCap)) (boundsCap a)
    if releaseWaits o.rel w.k w.ctx (← aState) then aWait
    aMod (releaseFor o.rel w.k w.ctx)
    pure { t with opn := { t.opn with deferred := t.opn.deferred ++ [m] } }
  else fun s => match sendMessage s w.k w.ctx m with
    | some s => .ok (t, s)
    | none => .error (.wait s)
where
  boundsCap (a : CReg) : Stop := capFault .bounds (capCursor a.bits)
def execSend (h : Hdr) (o : EngOps) (s : State) : Host.Outcome State Fault Refusal :=
  runState h (fun t s => runA (sendAM o (whoOf s.cur.core t)) t s) s
/-- R421 -/
def execWithdraw (h : Hdr) (o : EngOps) (s : State) : Host.Outcome State Fault Refusal :=
  runState h (fun t s => engRun (.withdraw h o) o [3, 7] (fun _ => .ok ()) (fun _ => .ok ()) (fun _ s => .joiner (clusterOf s.cur.core)) t s) s

/-! ## Event queues (R417) -/

def evHandle (a : CReg) : Except Stop Nat :=
  match checkCap a [7] permR (capCursor a.bits) 1 with
  | .error e => .error e
  | .ok () => if curOf a < 64 then .ok (curOf a) else .error (capFault .bounds (capCursor a.bits))
def eventsOf (s : State) (ctx : BitVec 12) (cl : Nat) : List Event := match ctxOf s ctx with | some c => mget [] c.events cl | none => []
def setEvents (s : State) (ctx : BitVec 12) (cl : Nat) (l : List Event) : State :=
  updCtx s ctx (fun c => { c with events := mset c.events cl l })
/-- a record as a c register holds it -/
def recordReg (r : Record) : BitVec 192 := (r.ctx ++ r.engine ++ r.status ++ r.tag ++ r.bytes ++ r.result).setWidth 192
/-- the 32 bytes of a record in an event queue, and the same as a c register -/
def eventBytes (e : Event) : List Byte := match e.raw with | some v => toBytes 32 v.toNat | none => recordBytes e.rcd
def eventReg (e : Event) : BitVec 192 :=
  match e.raw with
  | some v => (v.extractLsb' 32 12 ++ v.extractLsb' 24 8 ++ v.extractLsb' 16 8 ++ v.extractLsb' 0 16 ++ v.extractLsb' 64 64 ++
      v.extractLsb' 128 64).setWidth 192
  | none => recordReg e.rcd
/-- D takes a record: a c register, or two entries of an l-queue -/
def putRecord (t : Thread) (d : Opd) (r : List Byte) (v : BitVec 192) : Except Stop Thread :=
  match d with
  | .l n =>
    if (getL t n).length + 2 ≤ lDepth then
      .ok (setL t n (getL t n ++ [BitVec.ofNat 128 (leNat (r.take 16)), BitVec.ofNat 128 (leNat (r.drop 16))]))
    else .error .wait
  | .c n => .ok (setC t n ⟨v, false⟩)
  | _ => .ok t
def evRun (o : EvOps) (f : Nat → Thread → State → Res) (t : Thread) (s : State) : Res :=
  match evHandle (getC t o.a) with
  | .error e => orStop s (.error e) (.wait s)
  | .ok cl => f cl t s
def evWaitsOf (s : State) (ctx : BitVec 12) (cl : Nat) : List (Nat × Bool) := match ctxOf s ctx with | some c => mget [] c.evWaits cl | none => []
def setEvWaits (s : State) (ctx : BitVec 12) (cl : Nat) (l : List (Nat × Bool)) : State :=
  updCtx s ctx (fun c => { c with evWaits := mset c.evWaits cl l })
/-- the records that the EVPOPs standing at a queue before an instruction's place will take: its own record is the one behind
them (R417) -/
def evAhead (k : Nat) (l : List (Nat × Bool)) : Nat := ((l.takeWhile (·.1 != k)).filter (·.2)).length
/-- the instruction keeps, or takes, its place at the queue, and blocks; one that stops at its safe
point gives its place up: the model's choice (log 63) -/
def evBlock (h : Hdr) (pop : Bool) (cl : Nat) (t : Thread) (s : State) : Res :=
  let l := evWaitsOf s t.id.ctx cl
  match blockSafe h s t with
  | .wait s => .wait (match curThread s with
    | some u => if u.safe.isSome then leaveEvents s s.cur.core t.id.ctx
      else if l.any (·.1 == s.cur.core) then s else setEvWaits s t.id.ctx cl (l ++ [(s.cur.core, pop)])
    | none => s)
  | r => r
def evwaitRes (h : Hdr) (cl : Nat) (t : Thread) (s : State) : Res :=
  match (eventsOf s t.id.ctx cl).drop (evAhead s.cur.core (evWaitsOf s t.id.ctx cl)) with
  | [] => evBlock h false cl t s
  | e :: _ => .done (acquireLocal (leaveEvents s s.cur.core t.id.ctx) s.cur.core e.scope)
def evpopRes (h : Hdr) (o : EvOps) (cl : Nat) (t : Thread) (s : State) : Res :=
  let l := eventsOf s t.id.ctx cl
  let n := evAhead s.cur.core (evWaitsOf s t.id.ctx cl)
  match l.drop n with
  | [] => evBlock h true cl t s
  | e :: r => match putRecord t o.d (eventBytes e) (eventReg e) with
    | .ok t' =>
      let s := leaveEvents (setEvents s t.id.ctx cl (l.take n ++ r)) s.cur.core t.id.ctx
      .done (setCur (acquireLocal s s.cur.core e.scope) t')
    | .error _ => .wait s
def evpeekRes (o : EvOps) (cl : Nat) (t : Thread) (s : State) : Res :=
  let (b, v) := match (eventsOf s t.id.ctx cl).drop (evAhead s.cur.core (evWaitsOf s t.id.ctx cl)) with
    | [] => (List.replicate 32 0, 0)
    | e :: _ => (eventBytes e, eventReg e)
  match putRecord t o.d b v with
  | .ok t' => .done (setCur s t')
  | .error _ => .wait s
def execEvwait (h : Hdr) (o : EvOps) (s : State) : Host.Outcome State Fault Refusal := runState h (evRun o (evwaitRes h)) s
def execEvpop (h : Hdr) (o : EvOps) (s : State) : Host.Outcome State Fault Refusal := runState h (evRun o (evpopRes h o)) s
def execEvpeek (h : Hdr) (o : EvOps) (s : State) : Host.Outcome State Fault Refusal := runState h (evRun o (evpeekRes o)) s

/-! ## Queue inspection (R422) -/

def inputOf (o : Opd) : Option (BitVec 3) := match o with | .i n => some n | _ => none
def qpeekRes (o : QOps) (t : Thread) (s : State) : Res :=
  match inputOf o.a with
  | none => .trap s tIllegal 0
  | some n =>
    let q := getInQ t n
    let off := (readCI t o.b).toNat
    if q.used && off % 8 == 0 && decide (off + 8 ≤ q.bytes.length) then
      .done (setCur s (setData t o.d (BitVec.ofNat 64 (leNat ((q.bytes.drop off).take 8)))))
    else .trap s tCap (capDetail .bounds 0)
/-- the batch of a gang is popped by position 0 alone -/
def popPos (s : State) (t : Thread) (n : BitVec 3) : Nat :=
  if t.id.gang && t.id.pos != 0 then
    match threadOf s (s.cur.core / 4 * 4) with | some u => (getInQ u n).pos | none => (getInQ t n).pos
  else (getInQ t n).pos
def queueOfInput (s : State) (t : Thread) (n : BitVec 3) : Option Queue :=
  match findFrame s t.id.ctx t.id.frame with
  | none => none
  | some f => (findBatch f t.id.batch).bind (fun b => queueAt f ((b.desc.ins.drop n.toNat).headD noQueue))
def pairWord (lo hi : Nat) : W64 := BitVec.ofNat 32 hi ++ BitVec.ofNat 32 lo
/-- a value the spec does not state, fresh each time (log 10) -/
def freeValue (s : State) : W64 × State := (Config.freeWord s.sched.freeCtr, { s with sched := { s.sched with freeCtr := s.sched.freeCtr + 1 } })
def qcntRes (o : QOps) (t : Thread) (s : State) : Res :=
  match inputOf o.a with
  | some n =>
    let q := getInQ t n
    if q.used then
      let behind := match queueOfInput s t n with | some q => q.items.length | none => 0
      .done (setCur s (setData t o.d (pairWord (q.bytes.length - popPos s t n) behind)))
    else .trap s tCap (capDetail .bounds 0)
  | none =>
    let a := regOf t o.a
    orStop s (checkHandle a [3] permW)
      (match (findFrame s (handleCtx a) (handleFrame a)).bind (queueAt · (handleQueue a)) with
        | some q => .done (setCur s (setData t o.d (pairWord q.items.length (queueRoom q))))
        | none => let (v, s) := freeValue s; .done (setCur s (setData t o.d v)))
def execQpeek (h : Hdr) (o : QOps) (s : State) : Host.Outcome State Fault Refusal := runState h (qpeekRes o) s
def execQcnt (h : Hdr) (o : QOps) (s : State) : Host.Outcome State Fault Refusal := runState h (qcntRes o) s

end Sys2Proof.Machine
end

