-- ==== Sys2Proof/Machine/Stock.lean ====
section
/-! DEFINITION. Stock counters (R140-R158): allowance lines, the home, recalls, and the five instructions. -/
namespace Sys2Proof.Machine

/-! ## Who may use a counter (R144, R148) -/

/-- R148: an agent that holds no allowance -/
def isAgent (k : Nat) : Bool := decide (k ≥ 1024)
/-- R144: the counter is allocated to the context; the agent may act on any counter of its die -/
def mayUse (s : State) (k : Nat) (ctx : BitVec 12) (n : Nat) : Bool :=
  (isAgent k && dieOf k == n / 4096) || (mfind (die s (n / 4096)).counters (n % 4096)).bind (·.owner) == some ctx

/-! ## Allowance lines (R142) -/

def allowOf (s : State) (k : Nat) (ctx : BitVec 12) (n : Nat) : Option Allow :=
  (core s k).allow.find? (fun e => e.ctx == ctx && e.ctr == n)
/-- an entry used: it stands first, touched now -/
def putAllow (s : State) (k : Nat) (e : Allow) : State :=
  setCore s k { core s k with allow := { e with idleSince := s.time } :: (core s k).allow.filter (fun x => !(x.ctx == e.ctx && x.ctr == e.ctr)) }
/-- an entry's value goes home and the entry is gone -/
def evictAllow (k : Nat) (s : State) (e : Allow) : State :=
  let s := setCore s k { core s k with allow := (core s k).allow.filter (fun x => !(x.ctx == e.ctx && x.ctr == e.ctr)) }
  postReturn s { ctr := e.ctr, amount := e.a, core := k, recalling := false, clears := true, overfill := false }
/-- ways that scratch lines pin in a set -/
def setWays (s : State) (k set : Nat) : Nat := ((heldLines (core s k) ++ (core s k).pinned).filter (· % 64 == set)).length
def lineEntries : Nat := 15
/-- a new entry for a counter, or none where no line or entry can be had -/
def newAllow (s : State) (k : Nat) (ctx : BitVec 12) (n : Nat) : Option State :=
  let set := ctx.toNat % 64
  let others := (core s k).allow.filter (fun e => e.ctx != ctx && e.ctx.toNat % 64 == set)
  let mine := (core s k).allow.filter (fun e => e.ctx == ctx)
  let e : Allow := { ctx := ctx, ctr := n, a := 0, pinned := false, present := false, idleSince := s.time }
  if mine.isEmpty then
    if others.isEmpty && decide (setWays s k set ≥ 15) then none
    else if others.isEmpty then some (putAllow (makeWays s k set 1 (heldLines (core s k)) wayCount) k e)
    else some (putAllow (others.foldl (evictAllow k) s) k e)
  else if mine.length < lineEntries then some (putAllow s k e)
  else match mine.reverse.find? (fun e => !e.pinned) with
    | some v => some (putAllow (evictAllow k s v) k e)
    | none => none
/-- R156: every allowance of a context returns home and the line is deleted -/
def flushAllow (s : State) (k : Nat) (ctx : BitVec 12) : State :=
  let l := (core s k).allow.filter (fun e => e.ctx == ctx)
  let s := setCore s k { core s k with allow := (core s k).allow.filter (fun e => e.ctx != ctx) }
  let s := (List.range 2).foldl (fun s d => arrive s d (fun r => r.core == k)) s
  l.foldl (fun s e => applyReturn s { ctr := e.ctr, amount := e.a, core := k, recalling := false, clears := true, overfill := false }) s

/-! ## Requests and their turn (R145-R152) -/

/-- the blocked instruction that sent a request takes its result -/
def answer (s : State) (k req : Nat) (v : W128) : State :=
  match threadOf s k with
  | some t => if t.blockA == .request req none then setThreadOf s k { t with blockA := .request req (some v) } else s
  | none => s
/-- a fresh number for a request -/
def freshReq (s : State) : Nat × State := (s.sched.nextReq, { s with sched := { s.sched with nextReq := s.sched.nextReq + 1 } })
/-- R151: a request arrives behind the core's earlier returns, with the units it carries -/
def sendStock (s : State) (n carried : Nat) (r : StockReq) : State :=
  let s := arrive s (n / 4096) (fun x => x.core == r.core && x.ctr == n)
  updCtr s n (fun c => { c with h := c.h + carried, queue := c.queue ++ [r] })
/-- the word a read writes; VALUE is at most 2^47 - 1 (R150) -/
def overfillWord (c : Counter) : W64 := BitVec.ofBool c.overfill ++ 0#16 ++ BitVec.ofNat 47 (min c.h (2 ^ 47 - 1))
def boolWord (b : Bool) : W128 := if b then 1 else 0
/-- R145: the parameters of an STKINIT -/
def initOk (b rf : Nat) : Bool := decide (1 ≤ b ∧ b < 2 ^ 47 ∧ 1 ≤ rf ∧ rf ≤ 2 ^ 20)
/-- the cores a request's recall orders to return; none where it needs no recall -/
def recallTargets (c : Counter) (r : StockReq) : List Nat :=
  match r.op with
  | .init b rf => if initOk b rf then c.presence else []
  | .readExact => c.presence
  | .take n _ _ => if c.h < n then c.presence.filter (· != r.core) else []
  | .agent => if c.h = 0 then c.presence else []
/-- the head request served, its recall done -/
def serveRequest (s : State) (n : Nat) (r : StockReq) : State :=
  let c := ctrOf s n
  match r.op with
  | .init b rf =>
    if initOk b rf then
      let q := c.queue.map (fun x => match x.op with | .take m _ z => { x with op := .take m 0 z } | _ => x)
      let s := setReturns s (n / 4096) ((die s (n / 4096)).returns.filter (fun x => x.ctr != n))
      answer (setCtr s n { c with h := b, b := b, rf := rf, overfill := false, queue := q }) r.core r.req (boolWord true)
    else answer s r.core r.req (boolWord false)
  | .readExact =>
    let c := if c.h > c.b then { c with h := c.b, overfill := true } else c
    answer (setCtr s n c) r.core r.req ((overfillWord c).setWidth 128)
  | .agent => setCtr s n { c with h := c.h - 1, grants := c.grants ++ [(r.core, decide (c.h ≠ 0))] }
  | .take m carried cached =>
    let cached := cached && (allowOf s r.core r.ctx n).isSome
    if c.h ≥ m then
      if cached then
        let g := min c.h (max m (carried + c.rf))
        let s := setCtr s n { c with h := c.h - g, presence := sput c.presence r.core }
        let s := match allowOf s r.core r.ctx n with
          | some e => putAllow s r.core { e with a := e.a + (g - m), present := true, pinned := false }
          | none => s
        answer s r.core r.req (boolWord true)
      else answer (setCtr s n { c with h := c.h - m }) r.core r.req (boolWord true)
    else if cached then
      let x := min carried c.h
      let s := setCtr s n { c with h := c.h - x, presence := if x = 0 then c.presence else sput c.presence r.core }
      let s := match allowOf s r.core r.ctx n with
        | some e => putAllow s r.core { e with a := e.a + x, present := e.present || x != 0, pinned := false }
        | none => s
      answer s r.core r.req (boolWord false)
    else answer s r.core r.req (boolWord false)
/-- R151: the home serves the head of a counter's queue; it recalls allowances first where the request needs them -/
def serveCounter (s : State) (n : Nat) : State :=
  let s := arrive s (n / 4096) (fun r => r.ctr == n)
  let c := ctrOf s n
  match c.queue with
  | [] => s
  | r :: rest =>
    let serve (s : State) : State := serveRequest (updCtr s n (fun c => { c with queue := rest, recalling := none })) n r
    match c.recalling with
    | some q => if q.waiting.isEmpty then serve s else s
    | none =>
      let ts := recallTargets c r
      if ts.isEmpty then serve s else setCtr s n { c with recalling := some { waiting := ts } }
/-- R152: a return order reaches a core -/
def recallCore (s : State) (n k : Nat) : State :=
  match (ctrOf s n).recalling with
  | none => s
  | some q =>
    if !q.waiting.contains k || (die s (n / 4096)).returns.any (fun r => r.ctr == n && r.core == k && r.recalling) then s
    else
      let a := allowSum n (core s k)
      postReturn (setCore s k (emptyAllow n (core s k))) { ctr := n, amount := a, core := k, recalling := true, clears := true, overfill := false }
/-- R153 -/
def probeCore (n rf now : Nat) (s : State) (k : Nat) : State :=
  ((core s k).allow.filter (fun e => e.ctr == n && !e.pinned && decide (e.a ≥ 2 * rf) && decide (now ≥ e.idleSince + 50000))).foldl
    (fun s e =>
      let s := setCore s k { core s k with allow := (core s k).allow.map (fun x => if x == e then { e with a := e.a - e.a / 2 } else x) }
      postReturn s { ctr := n, amount := e.a / 2, core := k, recalling := false, clears := false, overfill := false }) s
def probeDue (s : State) (n : Nat) : Bool :=
  let c := ctrOf s n
  c.h == 0 && !c.presence.isEmpty && decide (s.time ≥ c.lastProbe + 50000)

/-! ## The instructions (R143-R150) -/

/-- R144: the counter a handle names, checked -/
def stockHandle (a : CReg) (p : BitVec 7) : Except Stop Nat :=
  match checkCap a [5] p (capCursor a.bits) 1 with
  | .error e => .error e
  | .ok () => if curOf a < 8192 then .ok (curOf a) else .error (capFault .bounds (capCursor a.bits))
/-- how a stock instruction goes on: its result, or a wait for one -/
inductive StockEnd where
  | result (v : W128) (s : State)
  /-- the home is in the middle of a recall -/
  | later (s : State)
  | send (n carried : Nat) (op : StockOp) (s : State)
/-- send a request and block (R144) -/
def blockOn (t : Thread) (n carried : Nat) (op : StockOp) (s : State) : Res :=
  let (id, s) := freshReq s
  let s := setCur s { t with blockA := .request id none }
  .wait (sendStock s n carried { op := op, core := s.cur.core, ctx := t.id.ctx, req := id })
/-- A stock instruction that waits for a result: `start` when it is issued, `put` when the result is there. -/
def stockRun (a : CReg) (p : BitVec 7) (denied : W128) (start : Nat → State → StockEnd) (put : W128 → Thread → Thread)
    (t : Thread) (s : State) : Res :=
  match t.blockA with
  | .request _ (some v) => .done (setCur s (put v t))
  | .request _ none => .wait s
  | _ =>
    match stockHandle a p with
    | .error e => orStop s (.error e) (.wait s)
    | .ok n =>
      match start n s with
      | .result v s => .done (setCur s (put v t))
      | .later s => .wait s
      | .send n carried op s' => if mayUse s s.cur.core t.id.ctx n then blockOn t n carried op s' else .done (setCur s (put denied t))
def putFlag (d : BitVec 4) (v : W128) (t : Thread) : Thread := setP t d (v != 0)
def stkinitRes (o : StkOps) (t : Thread) (s : State) : Res :=
  stockRun (getC t o.a) permX 0 (fun n s => .send n 0 (.init (readCI t o.b).toNat (readCI t o.c).toNat) s) (putFlag o.pd) t s
/-- R146, R147 -/
def takeStart (k : Nat) (ctx : BitVec 12) (m : Nat) (isLocal : Bool) (n : Nat) (s : State) : StockEnd :=
  if m = 0 then .result (boolWord true) s
  else if m ≥ 2 ^ 47 then .result (boolWord false) s
  else
    let uncached : StockEnd := if isLocal then .result (boolWord false) s else .send n 0 (.take m 0 false) s
    if isAgent k then uncached
    else
      let found : Option State := match allowOf s k ctx n with | some _ => some s | none => newAllow s k ctx n
      match found with
      | none => uncached
      | some s => match allowOf s k ctx n with
        | none => uncached
        | some e =>
          if e.a ≥ m then .result (boolWord true) (putAllow s k { e with a := e.a - m })
          else if isLocal then .result (boolWord false) s
          else .send n e.a (.take m e.a true) (putAllow s k { e with a := 0, pinned := true })
def stktakeRes (o : StkOps) (t : Thread) (s : State) : Res :=
  stockRun (getC t o.a) permW 0 (takeStart s.cur.core t.id.ctx (readCI t o.b).toNat o.isLocal) (putFlag o.pd) t s
/-- R149 -/
def giveTo (s : State) (k : Nat) (ctx : BitVec 12) (n m : Nat) : State :=
  if m = 0 || !mayUse s k ctx n then s
  else
    let home (x : Nat) (s : State) : State :=
      postReturn s { ctr := n, amount := x, core := k, recalling := false, clears := false, overfill := false }
    if m ≥ 2 ^ 47 then postReturn s { ctr := n, amount := 0, core := k, recalling := false, clears := false, overfill := true }
    else
      match (if isAgent k then none else allowOf s k ctx n) with
      | none => home m s
      | some e =>
        if e.pinned || !e.present then home m s
        else
          let top := 2 * (ctrOf s n).rf
          if e.a + m > top then home (e.a + m - top) (putAllow s k { e with a := top })
          else putAllow s k { e with a := e.a + m }
def stkgiveRes (o : StkOps) (t : Thread) (s : State) : Res :=
  match stockHandle (getC t o.a) permW with
  | .error e => orStop s (.error e) (.wait s)
  | .ok n => .done (giveTo s s.cur.core t.id.ctx n (readCI t o.b).toNat)
/-- R150, R151: H between two services of the queue, behind the core's own earlier gives -/
def approxRead (k : Nat) (ctx : BitVec 12) (n : Nat) (s : State) : StockEnd :=
  if !mayUse s k ctx n then .result 0 s
  else if (ctrOf s n).recalling.isSome then .later s
  else
    let s := arrive s (n / 4096) (fun r => r.core == k && r.ctr == n)
    .result ((overfillWord (ctrOf s n)).setWidth 128) s
def stkreadRes (exact : Bool) (o : StkOps) (t : Thread) (s : State) : Res :=
  stockRun (getC t o.a) permR 0
    (fun n s => if exact then .send n 0 .readExact s else approxRead s.cur.core t.id.ctx n s)
    (fun v t => setData t o.cd (v.setWidth 64)) t s

def execStkinit (h : Hdr) (o : StkOps) (s : State) : Host.Outcome State Fault Refusal := runState h (stkinitRes o) s
def execStktake (h : Hdr) (o : StkOps) (s : State) : Host.Outcome State Fault Refusal := runState h (stktakeRes o) s
def execStkgive (h : Hdr) (o : StkOps) (s : State) : Host.Outcome State Fault Refusal := runState h (stkgiveRes o) s
def execStkreadApprox (h : Hdr) (o : StkOps) (s : State) : Host.Outcome State Fault Refusal := runState h (stkreadRes false o) s
def execStkreadExact (h : Hdr) (o : StkOps) (s : State) : Host.Outcome State Fault Refusal := runState h (stkreadRes true o) s

/-! ## The events -/

/-- the counter an event's argument names -/
def argIx (s : State) : Option Nat := match s.cur.arg with | .ix n => some n | _ => none
def execStockHomeServe (s : State) : Host.Outcome State Fault Refusal :=
  .next (match argIx s with | some n => serveCounter s n | none => s)
def execStockRecallOrder (s : State) : Host.Outcome State Fault Refusal :=
  .next (match s.cur.arg with | .ix2 n k => recallCore s n k | _ => s)
/-- the oldest return on its way to a die arrives -/
def execStockReturnArrival (s : State) : Host.Outcome State Fault Refusal :=
  .next (match argIx s with
    | some d => (match (die s d).returns with | r :: t => applyReturn (setReturns s d t) r | [] => s)
    | none => s)
def execStockReclaimProbe (s : State) : Host.Outcome State Fault Refusal :=
  .next (match argIx s with
    | some n =>
      if probeDue s n then
        let c := ctrOf s n
        c.presence.foldl (probeCore n c.rf s.time) (setCtr s n { c with lastProbe := s.time })
      else s
    | none => s)

end Sys2Proof.Machine
end

