-- ==== Sys2Proof/Machine/System.lean ====
section
/-! DEFINITION. Control registers, the translation instructions, CFLUSH, RETT, HBEAT and IDLE (R463-R479), and the
shootdown (R90, R91). -/
namespace Sys2Proof.Machine

/-! ## Control registers (R463-R466) -/

/-- R464 -/
def coreWord (k : Nat) : Nat :=
  if k < 1024 then k
  else if k < 1088 then 1024 + (k - 1024) * 16
  else 2048 + (k - 1088) / 4 * 512 + (k - 1088) % 4
def isService (k : Nat) : Bool := decide (1024 ≤ k ∧ k < 1088)
def MissKind.code : MissKind → Nat | .load => 0 | .store => 1 | .atomic => 2 | .fetch => 3 | .zeroFill => 4 | .engine => 5
/-- the core of the first waiter; 0x3FF for an engine (R466) -/
def firstWaiter (m : Miss) : Nat := match m.waiters with | k :: _ => if k = noCore then 0x3FF else k | [] => 0x3FF
/-- R466 -/
def missWord (m : Miss) : W64 :=
  1#1 ++ BitVec.ofNat 3 m.kind.code ++ m.ctx ++ 0#6 ++ BitVec.ofNat 10 (firstWaiter m) ++ 0#16 ++
  BitVec.ofNat 16 (min m.merged 0xFFFF)
def headMiss (s : State) (k : Nat) : Option Miss := if isService k then (cluster s (clusterOf k)).misses.head? else none
/-- the image that runs on a firmware core (R43) -/
def imageKind (k : Nat) : Nat := if isService k then 1 else match (k - 1088) % 4 with | 2 => 1 | 3 => 2 | _ => 0
/-- R463 k.budget -/
def budgetWord (s : State) (c : BitVec 12) : W64 :=
  match ctxOf s c with
  | some x => pairWord (if x.sched.cycles = 0 then 0xFFFFFFFF else x.sched.cycles - x.cycles / 1000) x.period
  | none => pairWord 0xFFFFFFFF 0
/-- the slot that the committed image of a kind runs from is the staging slot -/
def committedStaged (s : State) (kind : Nat) : Bool := match mfind s.fw.images kind with | some i => i.staged | none => false
/-- k.image: of the new image from its start, of the committed one else -/
def imageWord (s : State) (k : Nat) : W64 :=
  let kind := imageKind k
  let staged : Bool :=
    match s.fw.shoring with
    | some r => if r.kind == kind && (r.phase == .acceptance || r.phase == .proving) then r.image.staged else committedStaged s kind
    | none => committedStaged s kind
  let proving : Bool := match s.fw.shoring with | some r => r.kind == kind && r.phase == .proving | none => false
  BitVec.ofNat 64 (kind + (if staged then 4 else 0) + (if proving then 8 else 0))
/-- the value of a register that exists, as R463 lists them -/
def kregValue (s : State) (k : Nat) (t : Thread) (r : BitVec 12) : W64 :=
  match r.toNat with
  | 0x000 => BitVec.ofNat 64 (coreWord k)
  | 0x001 => if t.id.firmware then 0 else t.id.ctx.setWidth 64
  | 0x002 => (t.id.stage ++ t.id.frame).setWidth 64
  | 0x003 => BitVec.ofNat 64 t.id.coord
  | 0x004 => BitVec.ofNat 64 (sinceReady s)
  | 0x005 => BitVec.ofNat 64 (t.ran / 1000)
  | 0x006 => budgetWord s t.id.ctx
  | 0x010 => t.regs.fpmode.setWidth 64
  | 0x100 => t.fw.tvec
  | 0x101 => t.fw.tpc
  | 0x102 => t.fw.tcause.setWidth 64
  | 0x103 => t.fw.tdetail
  | 0x104 => t.fw.tpred.setWidth 64
  | 0x105 => (BitVec.ofBool t.fw.tin).setWidth 64
  | 0x110 => match headMiss s k with | some m => missWord m | none => 0
  | 0x111 => match headMiss s k with | some m => BitVec.ofNat 64 m.va | none => 0
  | 0x118 => imageWord s k
  | 0x119 => match mfind s.fw.beats k with | some b => BitVec.ofNat 64 (min (s.time - b.1) (2 ^ 64 - 1)) | none => 0
  | n => if 0x018 ≤ n ∧ n ≤ 0x01F then (t.regs.evc.toList.getD (n - 0x018) 0).setWidth 64 else 0
/-- R468: k.wdog of a core of which no heartbeat has been accepted has no stated value -/
def ctlrdRes (o : CtlrdOps) (t : Thread) (s : State) : Res :=
  if o.kreg == 0x119 && (mfind s.fw.beats s.cur.core).isNone then
    let (v, s) := freeValue s
    .done (setCur s (setData t o.d v))
  else .done (setCur s (setData t o.d (kregValue s s.cur.core t o.kreg)))
def setEvc (t : Thread) (n : Nat) (v : BitVec 32) : Thread :=
  { t with regs := { t.regs with evc := t.regs.evc.setIfInBounds n v } }
/-- the writable fields of a register -/
def writeKreg (t : Thread) (r : BitVec 12) (v : W64) : Thread :=
  match r.toNat with
  | 0x010 => { t with regs := { t.regs with fpmode := v.setWidth 5 } }
  | 0x100 => { t with fw := { t.fw with tvec := v &&& ~~~3 } }
  | 0x101 => { t with fw := { t.fw with tpc := v } }
  | 0x104 => { t with fw := { t.fw with tpred := v.setWidth 16 &&& 0xFFFE } }
  | 0x105 => { t with fw := { t.fw with tin := v.getLsbD 0 } }
  | n => if 0x018 ≤ n ∧ n ≤ 0x01F then setEvc t (n - 0x018) (v.setWidth 32) else t
def ctlwrThread (o : CtlwrOps) (t : Thread) : Except Stop Thread := do
  let (v, t) ← readW t o.b
  .ok (writeKreg t o.kreg v)
def execCtlrd (h : Hdr) (o : CtlrdOps) (s : State) : Host.Outcome State Fault Refusal := runAgent h (.ctlrd h o) (ctlrdRes o) s
def execCtlwr (h : Hdr) (o : CtlwrOps) (s : State) : Host.Outcome State Fault Refusal := runAgent h (.ctlwr h o) (onThread (ctlwrThread o)) s

/-! ## TLBWR (R470) -/

def vaOf (v : W64) : Nat := (v.extractLsb' 0 57).toNat
/-- R470: whether an entry may be installed; a virtual address is taken by its 64 KiB page -/
def entryOk (s : State) (e : TlbEntry) : Bool :=
  !leafRefused s e.ctx e.leaf && leafT e.leaf != 0 && e.va % pageSize e.leaf == 0 &&
  (!leafAnon e.leaf || (e.leafPa % 8 == 0 && deviceMem s e.leafPa 8))
def tlbwrEntry (t : Thread) (o : TlbOps) : TlbEntry :=
  { ctx := (getW t o.c).setWidth 12, va := pageOf (vaOf (getW t o.b)), leaf := getW t o.a, leafPa := (getW t o.c >>> 12).toNat }
/-- the accesses that wait on a cluster's miss take its end, an engine's too -/
def endMiss (cl : Nat) (how : MissEnd) (m : Miss) (s : State) : State :=
  m.waiters.foldl (fun s k =>
    if k = noCore then setCluster s cl { cluster s cl with engEnd := (m.ctx, m.va, how) :: (cluster s cl).engEnd }
    else setCore s k { core s k with missEnd := (m.ctx, m.va, how) :: (core s k).missEnd }) s
def dropHeadMiss (s : State) (cl : Nat) : State := setCluster s cl { cluster s cl with misses := (cluster s cl).misses.tail }
def installWaiters (e : TlbEntry) (m : Miss) (s : State) : State :=
  m.waiters.foldl (fun s k => if k = noCore then s else installCore s k e) s
inductive TlbAct where
  | plain | fill | fault | peer
  deriving DecidableEq, Repr, Inhabited
/-- whether a miss stands in the page of an entry -/
def sameMiss (m : Miss) (e : TlbEntry) : Bool :=
  m.ctx == e.ctx && (if leafT e.leaf = 0 then m.va == e.va else decide (e.va ≤ m.va ∧ m.va < e.va + pageSize e.leaf))
def tlbwr (act : TlbAct) (s : State) (k : Nat) (e : TlbEntry) : Bool × State :=
  let cl := clusterOf k
  let ok := entryOk s e
  match act with
  | .plain => (ok, if ok then installCluster s cl e else s)
  | act =>
    match headMiss s k with
    | none => (false, s)
    | some m =>
      match act with
      | .peer => (true, dropHeadMiss (endMiss cl .peerLost m s) cl)
      | .fill =>
        if !sameMiss m e then (false, s)
        else if ok then (true, dropHeadMiss (installWaiters e m (installCluster s cl e)) cl)
        else (false, dropHeadMiss (endMiss cl .fault m s) cl)
      | _ => (true, dropHeadMiss (endMiss cl .fault m s) cl)
def tlbwrRes (act : TlbAct) (o : TlbOps) (t : Thread) (s : State) : Res :=
  let (ok, s) := tlbwr act s s.cur.core (tlbwrEntry t o)
  .done (setCur s (setP t o.d ok))
def execTlbwr (h : Hdr) (o : TlbOps) (s : State) : Host.Outcome State Fault Refusal := runAgent h (.tlbwr h o) (tlbwrRes .plain o) s
def execTlbwrFill (h : Hdr) (o : TlbOps) (s : State) : Host.Outcome State Fault Refusal := runAgent h (.tlbwrFill h o) (tlbwrRes .fill o) s
def execTlbwrFault (h : Hdr) (o : TlbOps) (s : State) : Host.Outcome State Fault Refusal := runAgent h (.tlbwrFault h o) (tlbwrRes .fault o) s
def execTlbwrPeer (h : Hdr) (o : TlbOps) (s : State) : Host.Outcome State Fault Refusal := runAgent h (.tlbwrPeer h o) (tlbwrRes .peer o) s

/-! ## Shootdowns and TLBINV (R90, R91, R471) -/

def dropCoreTlb (k : Nat) (ctx : BitVec 12) (a n : Nat) (whole : Bool) (s : State) : State :=
  setCore s k { core s k with tlb := tlbDrop (core s k).tlb ctx a n whole }
def dropClusterTlb (cl : Nat) (ctx : BitVec 12) (a n : Nat) (whole : Bool) (s : State) : State :=
  setCluster s cl { cluster s cl with tlb := tlbDrop (cluster s cl).tlb ctx a n whole }
def dropClusters (ctx : BitVec 12) (a n : Nat) (whole : Bool) (s : State) : State :=
  (s.clusters.map (·.1)).foldl (fun s cl => dropClusterTlb cl ctx a n whole s) s
/-- the cores that have held the context since they last flushed it -/
def holders (s : State) (ctx : BitVec 12) : List Nat := (s.cores.filter (fun x => x.2.held.contains ctx)).map (·.1)
/-- those cores, and every cluster TLB, drop their entries -/
def dropEverywhere (ctx : BitVec 12) (a n : Nat) (whole : Bool) (s : State) : State :=
  dropClusters ctx a n whole ((holders s ctx).foldl (fun s k => dropCoreTlb k ctx a n whole s) s)
/-- R90, R91, R97: a shootdown begins: the cluster TLBs drop its range, so that engines and misses from now on take the new
tables, and no miss maps a replica of its pages again -/
def beginShoot (d : Shootdown) (s : State) : State :=
  let s := dropClusters d.ctx d.base d.length d.whole s
  let hit (r : Replica) : Bool := r.ctx == d.ctx && (d.whole || decide (d.base < r.va + 65536 ∧ r.va < d.base + d.length))
  setWork s { s.work with shootdowns := s.work.shootdowns ++ [d]
                          replicas := s.work.replicas.map (fun r => if hit r then { r with stale := true } else r) }
/-- frames of replicas that are no longer mapped go back to their pools, zeroed (R93, R96) -/
def freeReplicas (gone : Replica → Bool) (s : State) : State :=
  (s.work.replicas.filter gone).foldl (fun s r => poolGive (zeroFrame s r.frame) r.die r.frame)
    (setWork s { s.work with replicas := s.work.replicas.filter (fun r => !gone r) })
/-- the replicas a shootdown has made unmapped -/
def shotReplica (d : Shootdown) (r : Replica) : Bool :=
  r.stale && r.ctx == d.ctx && (d.whole || decide (d.base < r.va + 65536 ∧ r.va < d.base + d.length))
/-- R79, R91: a bank command of the context that is not complete and names a page of the range: the page of A's cursor, or any
slice of a BKGEMV -/
def bankBusy (d : Shootdown) (c : Cmd) : Bool :=
  let page := curOf c.a / max c.page 1 * max c.page 1
  c.ctx == d.ctx && (d.whole || (match c.instr with | .bkgemv _ _ => true | _ => false) ||
    decide (page < d.base + d.length ∧ d.base < page + max c.page 1))
/-- the cores can acknowledge: nothing holds back their stores of the context (log 59), and no bank command is in the range -/
def shootReady (s : State) (d : Shootdown) : Bool :=
  !(s.dies.any (fun x => x.2.bank.any (bankBusy d))) && !(holders s d.ctx).any (fun k => writesWait s k d.ctx)
/-- a core acknowledges: what it stored has been performed, and its entries of the range are gone (R90, R102) -/
def ackCore (d : Shootdown) (s : State) (k : Nat) : State := dropCoreTlb k d.ctx d.base d.length d.whole (ackPorts (drainCtx s k d.ctx) k)
/-- every core that has held the context acknowledges; the cluster TLBs dropped the range when the shootdown began, and what was
installed in them since stands (R471) -/
def ackShoot (d : Shootdown) (s : State) : State := (holders s d.ctx).foldl (ackCore d) s
def tlbinvRes (o : TlbinvOps) (t : Thread) (s : State) : Res :=
  let a := vaOf (getW t o.a)
  let n := (getW t o.b).toNat
  let ctx : BitVec 12 := (getW t o.c).setWidth 12
  let k := s.cur.core
  let done (s : State) : Res := .done (setCur s (setP t o.d true))
  match t.blockA with
  | .request _ (some _) => done s
  | .request _ none => .wait s
  | _ =>
    if !o.whole && n == 0 then done s
    else if !o.whole && (a % 65536 != 0 || n % 65536 != 0) then .trap s tMisaligned (addrDetail (getW t o.a))
    else match o.target.toNat with
      | 0 => .done (dropCoreTlb k ctx a n o.whole (setCur s (setP t o.d true)))
      | 1 => .done (dropClusterTlb (clusterOf k) ctx a n o.whole (dropCoreTlb k ctx a n o.whole (setCur s (setP t o.d true))))
      | _ =>
        let (id, s) := freshReq s
        let d : Shootdown := { ctx := ctx, base := a, length := n, whole := o.whole, cmd := none, core := k, req := id, collapse := none }
        .wait (beginShoot d (setCur s { t with blockA := .request id none }))
def execTlbinv (h : Hdr) (o : TlbinvOps) (s : State) : Host.Outcome State Fault Refusal := runAgent h (.tlbinv h o) (tlbinvRes o) s
/-- R472 -/
def tlbprobeRes (o : TlbprobeOps) (t : Thread) (s : State) : Res :=
  let k := s.cur.core
  let tlb := if o.cluster then (cluster s (clusterOf k)).tlb else (core s k).tlb
  let v := match tlbFind tlb ((getW t o.b).setWidth 12) (vaOf (getW t o.a)) with | some e => e.leaf | none => 0
  .done (setCur s (setData t o.d v))
def execTlbprobe (h : Hdr) (o : TlbprobeOps) (s : State) : Host.Outcome State Fault Refusal := runAgent h (.tlbprobe h o) (tlbprobeRes o) s

/-! ## CFLUSH (R116, R156, R473) -/

/-- The context's dirty sectors go home, its clean ones and its translations go, and its allowances return. -/
def cflush (s : State) (k : Nat) (ctx : BitVec 12) : State :=
  let s := drainCtx s k ctx
  let c := core s k
  let s := setCore s k { c with l1 := c.l1.filter (fun x => !x.2.ctxs.contains ctx), tlb := tlbDrop c.tlb ctx 0 0 true,
                                held := c.held.filter (· != ctx) }
  flushAllow s k ctx
def cflushRes (o : CflushOps) (t : Thread) (s : State) : Res :=
  let k := (readCI t o.b).toNat
  if k > 1023 then .done (setCur s (setP t o.d false))
  else if drainWaits s k ((readCI t o.c).setWidth 12) then .wait s
  else .done (cflush (setCur s (setP t o.d true)) k ((readCI t o.c).setWidth 12))
def execCflush (h : Hdr) (o : CflushOps) (s : State) : Host.Outcome State Fault Refusal := runAgent h (.cflush h o) (cflushRes o) s

/-! ## RETT, HBEAT, IDLE (R476-R478) -/

def rettRes (h : Hdr) (t : Thread) (s : State) : Res :=
  if t.fw.tin then
    branchTo h s t { t with regs := { t.regs with p := t.fw.tpred &&& 0xFFFE }, fw := { t.fw with tin := false } } t.fw.tpc none
  else .trap s tIllegal 0
def execRett (h : Hdr) (s : State) : Host.Outcome State Fault Refusal := runAgent h (.rett h) (rettRes h) s
/-! ### The watch over heartbeats, in ns (R37, R54) -/

def startLimit : Nat := 50000000
def firstBeatLimit : Nat := 50000000
def beatLimit : Nat := 10000000
def lossLimit : Nat := 100000000
def provingTime : Nat := 1000000000
/-- when the next heartbeat of a core of the new image is due: its first since the acceptance, or the next after one -/
def beatDue (s : State) (r : Shoring) (k : Nat) : Nat :=
  match mfind s.fw.beats k with
  | some b => if b.1 ≥ r.since then b.1 + beatLimit else r.since + firstBeatLimit
  | none => r.since + firstBeatLimit
/-- a core of the new image is late, within the proving window -/
def coreLate (s : State) (r : Shoring) (k : Nat) : Bool := decide (beatDue s r k < s.time ∧ beatDue s r k < r.since + provingTime)
/-- the image of a kind serves, or is about to hand over -/
def watched (s : State) (kind : Nat) : Bool :=
  match s.fw.shoring with
  | some r => r.kind != kind || r.phase == .stage || r.phase == .handover || r.phase == .rehandle
  | none => true
def lostCore (s : State) (k : Nat) : Bool :=
  watched s (imageKind k) &&
    (match mfind s.fw.beats k with | some b => decide (s.time > max b.1 (mget 0 s.fw.watchFrom (imageKind k)) + lossLimit) | none => false)
/-- a limit has passed without a heartbeat of the core: one that comes now is too late -/
def tooLate (s : State) (k : Nat) : Bool :=
  (s.host.state == .imgload && s.host.firstBeats.contains k && decide (s.time > s.host.imgLoadAt + startLimit)) ||
  (match s.fw.shoring with | some r => r.phase == .proving && r.kind == imageKind k && coreLate s r k | none => false) || lostCore s k
/-- R37: the last first heartbeat ends IMGLOAD -/
def noteBeat (s : State) (k : Nat) (code : BitVec 16) : State :=
  if tooLate s k then s else
  let s := { s with fw := { s.fw with beats := mset s.fw.beats k (s.time, code) }
                    host := { s.host with firstBeats := sdel s.host.firstBeats k } }
  if s.host.state == .imgload && s.host.firstBeats.isEmpty then enterNegotiate s else s
def hbeatRes (o : HbeatOps) (t : Thread) (s : State) : Res :=
  if t.id.firmware then .done (noteBeat s s.cur.core o.code) else .done s
def execHbeat (h : Hdr) (o : HbeatOps) (s : State) : Host.Outcome State Fault Refusal := runAgent h (.hbeat h o) (hbeatRes o) s
/-- what wakes an idle core: a record in its miss queue, or a message in the firmware inbox of its die -/
def wakes (s : State) (k : Nat) : Bool :=
  (headMiss s k).isSome || (!isService k && !(die s (dieOf k)).firmware.isEmpty)
def idleRes (o : IdleOps) (t : Thread) (s : State) : Res :=
  let done (b : Bool) : Res := .done (setCur s (setP t o.d b))
  if !t.id.firmware then done false
  else if wakes s s.cur.core then done true
  else match t.blockA with
    | .woken => done true
    | .ack _ => done false
    | .idle _ => .wait s
    | _ => .wait (setCur s { t with blockA := .idle (if o.timeout = 0 then none else some (s.time + o.timeout.toNat * 1000)) })
def execIdle (h : Hdr) (o : IdleOps) (s : State) : Host.Outcome State Fault Refusal := runAgent h (.idle h o) (idleRes o) s
/-- the core idles, and its timeout has passed -/
def idleDue (s : State) (k : Nat) : Bool :=
  match threadOf s k with
  | some t => (match t.blockA with | .idle (some d) => decide (s.time ≥ d) | _ => false)
  | none => false
def execIdleTimeoutExpiry (s : State) : Host.Outcome State Fault Refusal :=
  .next (match argIx s with
    | some k => if idleDue s k then (match threadOf s k with | some t => setThreadOf s k { t with blockA := .ack 0 } | none => s) else s
    | none => s)

end Sys2Proof.Machine
end

