-- ==== Sys2Proof/Machine/Firing.lean ====
section
/-! DEFINITION. The life of a firing (R165, R178-R200, R298, R299, R382, R383): start, FIN, YIELD, pre-emption and
resumption; budgets, quotas and the end of frames. -/
namespace Sys2Proof.Machine

/-! ## The state a firing begins in (R165) -/

def fwRegsReset : FwRegs := { tvec := 0, tpc := 0, tcause := 0, tdetail := 0, tpred := 0, tin := false, stopped := false }
def regsReset : Regs :=
  { c := Vector.replicate 64 cZero, p := 0, s := Vector.replicate 16 none, f := emptyF, m := Vector.replicate 8 [],
    l := Vector.replicate 4 [], d := Vector.replicate 2 [], xq := [], aq := [], fpmode := 0, evc := Vector.replicate 8 0 }
def inqReset : InQ := { used := false, item := 8, bytes := [], pos := 0 }
def outqReset : OutQ := { used := false, item := 8, limit := 0, bytes := [], ords := [] }
def openReset : Open :=
  { inq := Vector.replicate 8 inqReset, outq := Vector.replicate 8 outqReset, pushes := 0, deferred := [], drains := 0, section_ := 0,
    scratch := [], peers := [], lostWrite := false }
def sigReset : SigCheck := { crc := BitVec.allOnes 32, expected := none }
/-- a thread at a PC under a code capability, with everything else as at a start -/
def threadReset (id : Ident) (code : CReg) (pc : W64) (now : Nat) : Thread :=
  { pc := pc, code := code, id := id, regs := regsReset, slice := [], wide := [], opn := openReset, blockA := .none,
    blockE := .none, sig := sigReset, overran := 0, ran := 0, startTime := now, preempt := .none, safe := none, prio := 0,
    scope := 0, gangStage := false, fw := fwRegsReset }

/-- the value registers of a stage: arguments and the coordinate -/
def loadArgs (st : Stage) (coord : Nat) (t : Thread) : Thread :=
  let t := st.args.zipIdx.foldl (fun t x => if st.argMask.getLsbD (x.2 + 1) then setC t (BitVec.ofNat 6 (x.2 + 1)) x.1 else t) t
  if st.coordReg = 0 then t else setC t (BitVec.ofNat 6 st.coordReg) ⟨BitVec.ofNat 192 coord, false⟩
def loadTiles (st : Stage) (i : Inst) (pos : Nat) (t : Thread) : Thread :=
  (List.range 8).foldl (fun t k => if st.carried.getLsbD k then setM t (BitVec.ofNat 3 k) (mget [] i.tiles (pos * 8 + k)) else t) t
def loadIns (f : Frame) (b : Batch) (t : Thread) : Thread :=
  b.desc.ins.zipIdx.foldl (fun t x =>
    if x.1 = noQueue then t
    else
      let items := ((b.ins.find? (fun y => y.1 == x.1)).map (·.2)).getD []
      let size := match queueAt f x.1 with | some q => q.item | none => 8
      setInQ t (BitVec.ofNat 3 x.2) { used := true, item := size, bytes := items.flatMap (·.bytes), pos := 0 }) t
def loadOuts (f : Frame) (b : Batch) (t : Thread) : Thread :=
  (b.desc.outs.zip b.desc.prod).zipIdx.foldl (fun t x =>
    if x.1.1 = noQueue then t
    else
      let size := match queueAt f x.1.1 with | some q => q.item | none => 8
      setOutQ t (BitVec.ofNat 3 x.2) { used := true, item := size, limit := x.1.2 * size, bytes := [], ords := [] }) t

/-! ## Starting (R178, R184, R299, R361) -/

/-- claim a batch of a queue: its items and the queue without them -/
def claimItems (f : Frame) (x : Nat × Nat) : List QItem × Frame :=
  match queueAt f x.1 with
  | none => ([], f)
  | some q => (q.items.take x.2, updQueue x.1 (fun q => { q with items := q.items.drop x.2, claimed := q.claimed + x.2 }) f)
def claimAll : Frame → List (Nat × Nat) → List (Nat × List QItem) × Frame
  | f, [] => ([], f)
  | f, x :: t => let r := claimItems f x; let u := claimAll r.2 t; ((x.1, r.1) :: u.1, u.2)
def reserveAll (f : Frame) (xs : List (Nat × Nat)) : Frame :=
  xs.foldl (fun f x => updQueue x.1 (fun q => { q with reserved := q.reserved + x.2 }) f) f
/-- the sectors [first, last) of the physical pages that hold a virtual range, as the core would translate it now -/
def rangeSectors (s : State) (k : Nat) (ctx : BitVec 12) (lo hi : Nat) : List (Nat × Nat) :=
  (List.range ((hi - pageOf lo + 65535) / 65536)).filterMap (fun i =>
    let a := max lo (pageOf lo + 65536 * i)
    let b := min hi (pageOf lo + 65536 * (i + 1))
    (peekLeaf s k ctx a).map (fun e => let pa := (xlatLocal e a).pa; (pa / 64, (pa + (b - a) + 63) / 64)))
/-- R361: the clean L1 copies of the sectors in the code capability's range are discarded, whatever brought them in -/
def dropCode (s : State) (k : Nat) (ctx : BitVec 12) (code : CReg) : State :=
  let rs := rangeSectors s k ctx (capBase code.bits) (capLimit code.bits)
  setCore s k { core s k with l1 := (core s k).l1.filter (fun x => isDirty x.2 || !rs.any (fun r => decide (r.1 ≤ x.1 ∧ x.1 < r.2))) }
def levelScope (f : Frame) (st : Stage) : BitVec 3 := match f.levels[st.level]? with | some l => l.scope | none => 0
/-- one position of a started firing on its core -/
def placeThread (f : Frame) (b : Batch) (i : Inst) (prio : Nat) (acq : Bool) (s : State) (x : Nat × Nat) : State :=
  let st := b.desc
  let id : Ident := { ctx := f.ctx, frame := f.number, stage := BitVec.ofNat 6 b.stage, coord := b.coord, pos := BitVec.ofNat 2 x.2,
                      gang := st.gang, firmware := false, batch := b.id }
  let t := threadReset id st.entry (capCursor st.entry.bits) s.time
  let t := loadOuts f b (loadIns f b (loadTiles st i x.2 (loadArgs st b.coord t)))
  let t := { t with prio := prio, scope := levelScope f st, gangStage := st.gang }
  let s := dropCode (setThreadOf s x.1 t) x.1 f.ctx st.entry
  if acq then acquireLocal s x.1 (levelScope f st) else s
/-- R373: an ENTRY that names a mask word faults at the start, one not a multiple of 4 too (R360) -/
def entryCheck (s : State) (k : Nat) : State :=
  match threadOf s k with
  | none => s
  | some t =>
    if t.pc.toNat % 4 ≠ 0 then trapAt s k t.pc false tMisaligned (addrDetail t.pc)
    else if isMaskWord s k t t.pc then trapAt s k t.pc false tIllegal 0
    else s
/-- R317: a drain that can be applied to the instance goes before its next firing -/
def drainsFirst (s : State) (ctx : BitVec 12) (frame : BitVec 32) (stage coord : Nat) : Bool :=
  s.work.drains.any (fun d => d.ctx == ctx && d.frame == frame && d.stage.toNat == stage && d.coord == coord && (drainFate s [] d).isSome)
def startFiring (s : State) (cl : Nat) (c : Cand) (ks : List Nat) : State :=
  match findFrame s c.ctx c.frame with
  | none => s
  | some f => match stageAt f c.stage with
    | none => s
    | some st =>
      let (id, s) := freshReq s
      let i := findInst f c.stage c.coord
      let old := refireDesc f st i
      let (ins, f) := claimAll f (usedIns st)
      let f := reserveAll f (usedOuts st)
      let b : Batch := { id := id, stage := c.stage, coord := c.coord, desc := old.getD st, ins := ins, outs := usedOuts st, refire := old.isSome,
                         cluster := cl, preempted := false, committed := false, since := s.time }
      let f := setInst { f with batches := f.batches ++ [b] } { i with running := i.running + 1, readySince := none }
      let s := updFrame s c.ctx c.frame (fun _ => f)
      let s := ins.foldl (fun s x => x.2.foldl (fun s it => itemClaimed true s it.work) s) s
      let acq := ins.any (fun x => x.2.any (·.completion))
      let s := ks.zipIdx.foldl (placeThread f b i c.own acq) s
      ks.foldl entryCheck s

/-! ## Resuming (R116, R197, R198) -/

/-- the core cycles of a save or a restore, 2,200 at most and otherwise free (log 10), charged to the context (R197) -/
def chargeMove (s : State) (ctx : BitVec 12) : State :=
  let (n, s) := freeBelow s 2201
  spendNow s ctx .cycles (n * 1000)
/-- R122: a firing's FENCE on its new core waits for what it wrote to peers from its old one -/
def shareFlits (s : State) (old k : Nat) : State :=
  { s with links := { s.links with ports := s.links.ports.map (fun p =>
    (p.1, { p.2 with buffer := p.2.buffer.map (fun f => if f.cores.contains old then { f with cores := sput f.cores k } else f) })) } }
/-- One position resumes. On another core, the old one is flushed, and what the new one holds clean is discarded: it may be
older than what the firing has seen (R107, R116). -/
def resumeThread (own : Nat) (s : State) (x : (Nat × Thread) × Nat) : State :=
  let old := x.1.1
  let k := x.2
  let t := x.1.2
  let s := if old = k then s else shareFlits (acquireLocal (cflush s old t.id.ctx) k 5) old k
  let s := chargeMove s t.id.ctx
  let s := setCore s k { core s k with pinned := (core s k).pinned.filter (fun l => !t.opn.scratch.contains l) }
  let s := setWork s { s.work with holds := s.work.holds.map (fun h => if h.batch == t.id.batch && h.pos == t.id.pos then { h with core := k } else h) }
  setThreadOf s k { t with ran := 0, startTime := s.time, preempt := .none, safe := none, prio := own }
def resumeFiring (s : State) (c : Cand) (v : Saved) (ks : List Nat) : State :=
  let s := freeArena (setWork s { s.work with saved := s.work.saved.filter (· != v) }) v.ctx v.slots
  let s := updFrame s c.ctx c.frame (fun f => { f with batches := f.batches.map (fun b =>
    if v.threads.any (fun x => x.2.id.batch == b.id) then { b with preempted := false, since := s.time } else b) })
  (v.threads.zip ks).foldl (resumeThread c.own) s

/-- the cluster an event's argument names -/
def argCluster (s : State) : Option Nat := match s.cur.arg with | .ix n => if n < 64 then some n else none | _ => none
/-- R184: start the ready firing the slice chooses; ask for a pre-emption when the choice finds no core (R185) -/
def fireAt (s : State) (cl : Nat) : State :=
  let s := refreshReady s
  match pickStart s cl with
  | some (c, ks) =>
    if c.saved.isSome || drainsFirst s c.ctx c.frame c.stage c.coord then s else startFiring s cl c ks
  | none => match pickBlocked s cl with | some c => preemptFor s cl c | none => s
def resumeAt (s : State) (cl : Nat) : State :=
  let s := refreshReady s
  match pickStart s cl with
  | some (c, ks) => (match c.saved with
    | some v => if v.threads.any (fun x => drainWaits s x.1 v.ctx) then s else resumeFiring s c v ks
    | none => s)
  | none => s
def execFiringStart (s : State) : Host.Outcome State Fault Refusal :=
  .next (match argCluster s with | some cl => fireAt s cl | none => s)
def execFiringResume (s : State) : Host.Outcome State Fault Refusal :=
  .next (match argCluster s with | some cl => resumeAt s cl | none => s)

/-! ## Pre-emption (R195-R199) -/

/-- R195: what the mask does not name is lost -/
def applyMask (w : IWord) (t : Thread) : Thread :=
  let r := t.regs
  { t with
    regs := { r with
      c := r.c.mapIdx (fun i v => if w.getLsbD i && i != 0 then v else cZero)
      s := r.s.mapIdx (fun i v => if w.getLsbD (72 + i) then v else none)
      m := r.m.mapIdx (fun i v => if w.getLsbD (88 + i) then v else [])
      l := r.l.mapIdx (fun i v => if w.getLsbD (64 + i) then v else [])
      d := r.d.mapIdx (fun i v => if w.getLsbD (68 + i) then v else [])
      xq := if w.getLsbD 71 then r.xq else []
      aq := if w.getLsbD 70 then r.aq else [] } }
/-- R196: stopped at a safe point with both halves drained and every f register empty -/
def drained (t : Thread) : Bool :=
  t.safe.isSome && t.slice.isEmpty && t.wide.isEmpty && t.regs.f.toList.all (· == .empty)
/-- the threads that stop as one: a gang's four, or the one (R199) -/
def unitThreads (s : State) (k : Nat) (t : Thread) : List (Nat × Thread) := if t.id.gang then gangThreads s k t.id.batch else [(k, t)]
/-- a core gives up its thread; the scratch lines stay pinned for it -/
def vacate (s : State) (x : Nat × Thread) : State :=
  forgetMisses (setCore s x.1 { core s x.1 with thread := none, pinned := (core s x.1).pinned ++ x.2.opn.scratch }) x.1 x.2.id.ctx
/-- a request under way is withdrawn; the word is issued again when the firing resumes (R277) -/
def cancelRequest (t : Thread) : Thread := match t.blockA with | .request _ _ => { t with blockA := .none } | _ => t
def asked (t : Thread) (req : Nat) : Bool := match t.blockA with | .request n _ => n == req | _ => false
/-- What a pre-empted position leaves in its slot, at the offsets of R197: what is live, the places within the first 256 bytes
and within a stream's 64 not being stated. The registers themselves wait in `Saved`, and nothing but the device writes the slot
before they are restored (log 54). -/
def saveImage (t : Thread) (m : IWord) (head : List Byte) (streams : List Byte) : List (Nat × List Byte) :=
  [(0, head)] ++
  ((List.range 4).filter (fun i => m.getLsbD (64 + i))).map (fun i => (0x900 + 512 * i, (t.regs.l.toList.getD i []).flatMap (fun v => toBytes 16 v.toNat))) ++
  ((List.range 2).filter (fun i => m.getLsbD (68 + i))).map (fun i => (0x1100 + 512 * i, (t.regs.d.toList.getD i []).flatMap (fun v => toBytes 16 v.toNat))) ++
  (if m.getLsbD 70 then [(0x1500, t.regs.aq.flatMap (fun v => toBytes 8 v.toNat))] else []) ++
  (if m.getLsbD 71 then [(0x1580, t.regs.xq.flatMap (fun v => toBytes 8 v.toNat))] else []) ++
  ((List.range 16).filter (fun i => m.getLsbD (72 + i))).map (fun i => (0x1600 + 64 * i, (streams.drop (64 * i)).take 64)) ++
  ((List.range 8).filter (fun i => m.getLsbD (88 + i))).map (fun i => (0x2000 + 1024 * tileKib * i, tileBytes (t.regs.m.toList.getD i [])))
/-- a slot written: the live c registers with their tags, and the rest -/
def writeSave (s : State) (base : Nat) (t : Thread) (m : IWord) : State :=
  let (head, s) := freeBytes s 256
  let (streams, s) := freeBytes s 1024
  let mem := ((List.range 64).filter (fun i => m.getLsbD i && i != 0)).foldl (fun q i => paPutCap q (base + 0x100 + 32 * i) (t.regs.c.toList.getD i cZero)) s.mem
  setMem s ((saveImage t m head streams).foldl (fun q x => paWriteMem q (base + x.1) x.2) mem)
/-- the positions of a firing saved, each to a slot of the context's arena -/
def writeSaves (s : State) (ctx : BitVec 12) (xs : List (Thread × Nat)) : State :=
  match ctxOf s ctx with
  | some c => xs.foldl (fun s x => writeSave (chargeMove s ctx) (arenaAt c (slotKib * x.2)) x.1 (x.1.safe.getD 0)) s
  | none => s
def saveUnit (s : State) (ts : List (Nat × Thread)) (t : Thread) : State :=
  let bound := ts.any (fun x => !x.2.opn.scratch.isEmpty)
  let prio := match (findFrame s t.id.ctx t.id.frame).bind (fun f => findBatch f t.id.batch) with | some b => b.desc.prio | none => 0
  let (slots, c) := match ctxOf s t.id.ctx with | some c => ((takeSlots (slotsNeeded t) c).1, some (takeSlots (slotsNeeded t) c).2) | none => ([], none)
  let v : Saved := { threads := ts.map (fun x => (x.1, { cancelRequest (applyMask (x.2.safe.getD 0) x.2) with safe := none, preempt := .none })),
                     ctx := t.id.ctx, readySince := s.time, sevenSince := none, prio := prio, slots := slots, bound := bound }
  let s := ts.foldl vacate s
  let s := match c with | some c => setCtx s t.id.ctx c | none => s
  let s := writeSaves s t.id.ctx ((ts.map (·.2)).zip slots)
  let s := updFrame s t.id.ctx t.id.frame (fun f => { f with batches := f.batches.map (fun b => if b.id == t.id.batch then { b with preempted := true } else b) })
  let s := setWork s { s.work with saved := s.work.saved ++ [v]
                                   holds := s.work.holds.filter (fun h => !ts.any (fun x => asked x.2 h.req)) }
  -- R211: scratch on a core out of placement cannot move
  match ts.find? (fun x => bound && !(core s x.1).inPlacement) with | some x => killSaved s v tCoreRemoved x.1 | none => s
def preemptCore (s : State) (k : Nat) : State :=
  match threadOf s k with
  | none => s
  | some t =>
    let ts := unitThreads s k t
    if !t.id.firmware && t.preempt != .none && ts.length == slotsNeeded t && ts.all (fun x => drained x.2) && decide (slotsNeeded t ≤ freeSlots s t.id.ctx) then
      saveUnit s ts t
    else s
def execPreemptAtSafePoint (s : State) : Host.Outcome State Fault Refusal :=
  .next (match s.cur.arg with | .ix k => preemptCore s k | _ => s)

/-- R186, R383: with P, a firing that others wait for in its cluster stops at this safe point. -/
def yieldRes (h : Hdr) (t : Thread) (s : State) : Res :=
  if h.p && !t.id.firmware && !(waiting (refreshReady s) (clusterOf s.cur.core)).isEmpty then
    .done ((unitThreads s s.cur.core t).foldl (fun s x => askPreempt .priority s x.1) s)
  else .done s
def execYield (h : Hdr) (s : State) : Host.Outcome State Fault Refusal := runState h (yieldRes h) s

/-! ## FIN (R187, R202, R299, R382) -/

/-- R286, R382: what a firing pushed to an output: whole items, the last completed with zero bytes, each with the place of its
last push among the firing's (R178) -/
def pushedItems (q : OutQ) : List (Nat × QItem) :=
  let n := (q.bytes.length + q.item - 1) / q.item
  let bytes := q.bytes ++ List.replicate (n * q.item - q.bytes.length) 0
  (List.range n).map (fun i =>
    (((q.ords.take ((i + 1) * q.item / 8)).getLast?).getD 0, plainItem ((bytes.drop (i * q.item)).take q.item) []))
def insertPush (x : Nat × QItem) : List (Nat × QItem) → List (Nat × QItem)
  | [] => [x]
  | y :: t => if x.1 ≤ y.1 then x :: y :: t else y :: insertPush x t
/-- the items of the outputs that name a queue, in push order -/
def pushesTo (b : Batch) (t : Thread) (q : Nat) : List QItem :=
  let l := b.desc.outs.zipIdx.flatMap (fun y => if y.1 = q then pushedItems (getOutQ t (BitVec.ofNat 3 y.2)) else [])
  (l.foldr insertPush []).map (·.2)
/-- deliver the pushes to one queue: the reservation ends, and the items follow; a withdrawn frame discards them -/
def deliverPushes (reserved : Nat) (q : Nat) (items : List QItem) (f : Frame) : Frame :=
  let f := updQueue q (fun x => { x with reserved := x.reserved - reserved }) f
  if f.withdrawn then f else updQueue q (fun x => items.foldl (fun x it => appendItem (fitItem x.item it) x) x) f
/-- step 1 of a commit: the pushes, once -/
def deliverAll (b : Batch) (t : Thread) (f : Frame) : Frame :=
  let f := b.outs.foldl (fun f x => deliverPushes x.2 x.1 (pushesTo b t x.1) f) f
  { f with batches := f.batches.map (fun y => if y.id == b.id then { y with outs := [], committed := true } else y) }
def clearOuts (t : Thread) : Thread := { t with opn := { t.opn with outq := t.opn.outq.map (fun q => { q with bytes := [], ords := [], used := false }) } }
/-- deferred messages of a position in issue order: those left when a target is full -/
def sendDeferred (k : Nat) (ctx : BitVec 12) : List Message → State → List Message × State
  | [], s => ([], s)
  | m :: t, s => match sendMessage s k ctx m with | some s => sendDeferred k ctx t s | none => (m :: t, s)
def sendAllDeferred (s : State) (ts : List (Nat × Thread)) : State × Bool :=
  ts.foldl (fun r x =>
    if r.2 then
      let (rest, s) := sendDeferred x.1 x.2.id.ctx x.2.opn.deferred r.1
      ((match threadOf s x.1 with | some t => setThreadOf s x.1 { t with opn := { t.opn with deferred := rest } } | none => s), rest.isEmpty)
    else r) (s, true)
def keepTiles (st : Stage) (ts : List (Nat × Thread)) (m : Map Tile) : Map Tile :=
  ts.foldl (fun m x => (List.range 8).foldl (fun m k =>
    if st.carried.getLsbD k then mset m (x.2.id.pos.toNat * 8 + k) (getM x.2 (BitVec.ofNat 3 k)) else m) m) m
/-- commit and again, once every push and message is out -/
def commitInst (minor : Nat) (b : Batch) (ts : List (Nat × Thread)) (f : Frame) : Frame :=
  let f := endBatchOf b (unreserve b f)
  let i := findInst f b.stage b.coord
  let source := !hasInputs b.desc
  setInst f { i with retired := i.retired || (minor == 0 && source), failed := if source then false else i.failed,
                     desc := if source then none else i.desc, tiles := keepTiles b.desc ts i.tiles, drains := [] }
/-- abort: the next firing of what it claimed is no refire (R203) -/
def abortInst (b : Batch) (f : Frame) : Frame :=
  let f := returnItems b false (endBatchOf b (unreserve b f))
  if hasInputs b.desc then f else setInst f { findInst f b.stage b.coord with desc := none }
/-- the carried tiles as their copies in the arena have them (R198) -/
def writeTiles (s : State) (f : Frame) (b : Batch) (ts : List (Nat × Thread)) : State :=
  ts.foldl (fun s x => (carriedList b.desc).foldl (fun s k =>
    writeTile s f b.stage b.coord x.2.id.pos.toNat k (getM x.2 (BitVec.ofNat 3 k))) s) s
def findBatchOf (s : State) (t : Thread) : Option (Frame × Batch) :=
  match findFrame s t.id.ctx t.id.frame with
  | some f => (findBatch f t.id.batch).map (fun b => (f, b))
  | none => none
/-- R202: a firing whose FIN has delivered its pushes has ended, but for its messages -/
def hasCommitted (s : State) (t : Thread) : Bool := match findBatchOf s t with | some (_, b) => b.committed | none => false
/-- The end of a firing whose positions all stand at FIN of one minor. -/
def finishFiring (minor : Nat) (s : State) (ts : List (Nat × Thread)) (t0 : Thread) : State :=
  let s := ts.foldl (fun s x => drainCtx s x.1 x.2.id.ctx) s
  match findBatchOf s t0 with
  | none => dropBatch s t0.id.batch
  | some (f, b) =>
    if minor = 2 then
      let s := unclaimCells s b
      dropBatch (updFrame s f.ctx f.number (abortInst b)) b.id
    else
      let head := match ts with | x :: _ => x.2 | [] => t0
      let s := updFrame s f.ctx f.number (deliverAll b head)
      let s := ts.foldl (fun s x => match threadOf s x.1 with | some t => setThreadOf s x.1 (clearOuts t) | none => s) s
      match sendAllDeferred s ts with
      | (s, false) => s
      | (s, true) =>
        match findBatchOf s t0 with
        | none => dropBatch s b.id
        | some (f, b) => dropBatch (updFrame (writeTiles s f b ts) f.ctx f.number (commitInst minor b ts)) b.id
/-- R202, R382: a firing whose pushes are out goes on with its messages; its FIN is not fetched again -/
def resumeFin (s : State) (k : Nat) (t : Thread) : State :=
  finishFiring (match t.blockA with | .finishing m => m | _ => 0) s (if t.id.gang then gangThreads s k t.id.batch else [(k, t)]) t
/-- every earlier word of both halves is performed, and every drain applied -/
def finReady (t : Thread) : Bool := t.slice.isEmpty && t.wide.isEmpty && t.opn.drains == 0
def minorOf : Blocked → Option Nat | .finishing m => some m | _ => none
/-- a gang's positions meet at FIN -/
def gangFin (minor : Nat) (s : State) (t : Thread) : Res :=
  let ts := gangThreads s s.cur.core t.id.batch
  if ts.length == 4 && ts.all (fun x => arrived x.2) then
    if ts.any (fun x => drainWaits s x.1 t.id.ctx) then .wait s
    else if ts.all (fun x => minorOf x.2.blockA == some minor) then .gone (finishFiring minor s ts t) else .trap s tGang 0
  else .wait s
def finRes (minor : Nat) (t : Thread) (s : State) : Res :=
  let crc := crcWord t.sig.crc s.cur.word
  if !sigOk t crc then sigFault s t crc
  else if !finReady t || drainWaits s s.cur.core t.id.ctx then .wait s
  else if t.opn.section_ != 0 then .trap s tGang 0
  else if t.id.firmware then .gone (dropThread s s.cur.core)
  else
    let t := { t with blockA := .finishing minor }
    let s := setCur s t
    if t.id.gang then gangFin minor s t else .gone (finishFiring minor s [(s.cur.core, t)] t)
def execFinCommit (h : Hdr) (s : State) : Host.Outcome State Fault Refusal := runState h (finRes 0) s
def execFinAgain (h : Hdr) (s : State) : Host.Outcome State Fault Refusal := runState h (finRes 1) s
def execFinAbort (h : Hdr) (s : State) : Host.Outcome State Fault Refusal := runState h (finRes 2) s

/-! ## Ageing, rotation, quotas (R182-R185) -/

def execAgeingIntervalExpiry (s : State) : Host.Outcome State Fault Refusal :=
  .next (match argCluster s with
    | some cl => let s := refreshReady s; (match pickBlocked s cl with | some c => preemptFor s cl c | none => s)
    | none => s)
def execOverdueRotation (s : State) : Host.Outcome State Fault Refusal :=
  .next (match argCluster s with
    | some cl =>
      let s := refreshReady s
      (match bestCand ((coreless s cl).filter (isOverdue s)) with
       | some c => rotateFor s cl c
       | none => s)
    | none => s)

/-- A stage with a quota in a cluster, and its occupancy as a fraction (R182). -/
structure Occ where
  q : Quota
  st : Stage
  num : Nat
  den : Nat
  pressed : Bool
  deriving DecidableEq, Repr, Inhabited
def fracLt (a b : Occ) : Bool := decide (a.num * b.den < b.num * a.den)
def fracEq (a b : Occ) : Bool := decide (a.num * b.den = b.num * a.den)
def minFrac : List (Nat × Nat) → Nat × Nat
  | [] => (0, 1)
  | [x] => x
  | x :: t => let m := minFrac t; if x.1 * m.2 < m.1 * x.2 then x else m
def occOf (s : State) (cl : Nat) (q : Quota) : Option Occ :=
  match findFrame s q.ctx q.frame with
  | none => none
  | some f => match stageAt f q.stage with
    | none => none
    | some st =>
      let o := if hasInputs st then
          minFrac ((usedIns st).map (fun x => match queueAt f x.1 with | some y => (y.items.length, y.depth) | none => (0, 1)))
        else
          let here (c : Nat) : Bool := instReady f q.stage st c && (placeClusters (placeOf f.levels st.level c)).contains cl
          (if (List.range (instCount f.levels st.level)).any here then 1 else 0, 1)
      some { q := q, st := st, num := o.1, den := max 1 o.2, pressed := (usedOuts st).any (fun x => decide (queueFree f x.1 < x.2)) }
/-- the winner is the highest occupancy; ties to the higher PRIO, the lower stage, the lower frame -/
def winsOver (a b : Occ) : Bool :=
  fracLt b a || (fracEq a b && (decide (a.st.prio > b.st.prio) || (a.st.prio == b.st.prio &&
    (decide (a.q.stage < b.q.stage) || (a.q.stage == b.q.stage && decide (a.q.frame.toNat < b.q.frame.toNat))))))
/-- the loser is the lowest; ties to the lower PRIO, the higher stage, the higher frame -/
def losesTo (a b : Occ) : Bool :=
  fracLt a b || (fracEq a b && (decide (a.st.prio < b.st.prio) || (a.st.prio == b.st.prio &&
    (decide (a.q.stage > b.q.stage) || (a.q.stage == b.q.stage && decide (a.q.frame.toNat > b.q.frame.toNat))))))
def bestOcc (before : Occ → Occ → Bool) : List Occ → Option Occ
  | [] => none
  | a :: t => match bestOcc before t with | some b => if before b a then some b else some a | none => some a
def changeQuota (q : Quota) (d : Int) (l : List Quota) : List Quota :=
  l.map (fun x => if x == q then { x with cores := (x.cores + d).toNat } else x)
/-- one change of R182 in a cluster -/
def adjustQuotas (s : State) (cl : Nat) (l : List Quota) : List Quota :=
  let occ := l.filterMap (occOf s cl)
  let free := (placedCores s cl).length - quotaSum l
  match bestOcc winsOver (occ.filter (fun o => !o.pressed && decide (o.q.cores + stageWeight o.st ≤ o.st.maxc))) with
  | none => l
  | some w =>
    let need := stageWeight w.st
    if need ≤ free then changeQuota w.q need l
    else
      let loser := bestOcc losesTo (occ.filter (fun o => o.q != w.q && decide (o.q.cores > o.st.minc)))
      match loser with
      | none => l
      | some x =>
        if !fracLt x w then l
        else
          let give := if x.st.gang then 4 else need - free
          if x.q.cores < give + x.st.minc then l
          else changeQuota w.q need (changeQuota x.q (-(give : Int)) l)
def quotaDue (s : State) (cl : Nat) : Bool := decide (s.time ≥ (cluster s cl).quotaAt + 10000)
def execQuotaAdjust (s : State) : Host.Outcome State Fault Refusal :=
  .next (match argCluster s with
    | some cl =>
      if quotaDue s cl then
        let c := cluster s cl
        setCluster s cl { c with quotas := adjustQuotas s cl c.quotas, quotaAt := s.time }
      else s
    | none => s)

/-! ## Budgets (R189-R191, R200) -/

def argCtx (s : State) : Option (BitVec 12) := match s.cur.arg with | .ix n => if n < 4096 then some (BitVec.ofNat 12 n) else none | _ => none
/-- the running firings of a context asked, or no more asked, to stop for the budget -/
def markBudget (on : Bool) (ctx : BitVec 12) (s : State) : State :=
  let g (t : Thread) : Thread :=
    if t.id.ctx != ctx || t.id.firmware then t
    else if on then { t with preempt := .budget } else if t.preempt == .budget && t.safe.isNone then { t with preempt := .none } else t
  { s with cores := s.cores.map (fun x => (x.1, { x.2 with thread := x.2.thread.map g })) }
def periodDue (s : State) (c : Ctx) : Bool := decide (s.time ≥ periodEnd c)
/-- the next period: what was spent past the end of the last one is charged to it -/
def nextPeriod (c : Ctx) : Ctx :=
  c.late.foldl (fun c l => spend l.what l.start l.stop l.each c)
    { c with periodStart := periodEnd c, period := c.period + 1, cycles := 0, hbmBytes := 0, girtBytes := 0, late := [],
             spentCycles := false, spentBytes := false, sched := c.nextSched.getD c.sched, nextSched := none }
def execBudgetPeriodStart (s : State) : Host.Outcome State Fault Refusal :=
  .next (match argCtx s with
    | none => s
    | some n => match ctxOf s n with
      | none => s
      | some c =>
        if periodDue s c then
          markBudget false n (setCtx s n (nextPeriod c))
        else s)
def cyclesDue (c : Ctx) : Bool := overBudget c && !c.spentCycles
def execCycleBudgetSpent (s : State) : Host.Outcome State Fault Refusal :=
  .next (match argCtx s with
    | none => s
    | some n => match ctxOf s n with
      | none => s
      | some c => if cyclesDue c then markBudget true n (setCtx s n { c with spentCycles := true }) else s)
def bytesDue (c : Ctx) : Bool :=
  !c.spentBytes && ((c.sched.hbm != 0 && decide (c.hbmBytes ≥ c.sched.hbm)) || (c.sched.girt != 0 && decide (c.girtBytes ≥ c.sched.girt)))
def execByteBudgetSpent (s : State) : Host.Outcome State Fault Refusal :=
  .next (match argCtx s with
    | none => s
    | some n => match ctxOf s n with
      | none => s
      | some c => if bytesDue c then setCtx s n { c with spentBytes := true } else s)
/-- the overrun count in cycles -/
def overrunCycles (t : Thread) : Nat := t.overran / 1000
def overrunLimit (s : State) (t : Thread) : Nat :=
  match findBatchOf s t with | some (_, b) => if b.desc.overrun = 0 then 2 ^ 32 - 1 else b.desc.overrun | none => 2 ^ 32 - 1
def overrunDue (s : State) (k : Nat) : Bool :=
  match threadOf s k with
  | some t => !t.id.firmware && t.preempt == .budget && !hasCommitted s t && decide (overrunCycles t > overrunLimit s t)
  | none => false
def execOverrunExpiry (s : State) : Host.Outcome State Fault Refusal :=
  .next (match s.cur.arg with
    | .ix k =>
      if overrunDue s k then
        (match threadOf s k with
         | some t => killFiring s k tOverrun (BitVec.ofNat 64 (overrunCycles t)) t.pc
         | none => s)
      else s
    | _ => s)

/-! ## The end of a frame (R173) -/

def replyNames (ctx : BitVec 12) (n : BitVec 32) : Reply → Bool
  | .handle h _ _ => capKind h.bits == 3 && handleCtx h == ctx && handleFrame h == n
  | _ => false
/-- every command an engine holds -/
def allCmds (s : State) : List Cmd :=
  s.clusters.flatMap (fun c => c.2.copy ++ c.2.joiner) ++ s.dies.flatMap (fun d => d.2.kiln ++ d.2.scribe ++ d.2.bank ++ d.2.firmware) ++
  s.work.settles.map (·.cmd) ++ s.work.edits.flatMap (·.cmds) ++ s.work.shootdowns.filterMap (·.cmd)
def commandsOut (s : State) (f : Frame) : Bool :=
  (allCmds s).any (fun c => replyNames f.ctx f.number c.reply) ||
  s.work.held.any (fun h => match h with | .queue c n _ _ => c == f.ctx && n == f.number | _ => false)
def persistent (f : Frame) : Bool := f.queues.any (·.exported) || f.stages.any (fun st => !isBound st)
def sourcesRetired (f : Frame) : Bool :=
  f.stages.zipIdx.all (fun x => hasInputs x.1 || (List.range (instCount f.levels x.1.level)).all (fun c => (findInst f x.2 c).retired))
def frameDone (s : State) (f : Frame) : Bool :=
  f.batches.isEmpty && (f.withdrawn || (!persistent f && sourcesRetired f && f.queues.all (fun q => q.items.isEmpty) && !commandsOut s f))
def freePhaser (s : State) (p : Bool × Nat × Nat) : State :=
  if p.1 then setDie s p.2.1 { die s p.2.1 with phasers := mdel (die s p.2.1).phasers p.2.2 }
  else setCluster s p.2.1 { cluster s p.2.1 with phasers := mdel (cluster s p.2.1).phasers p.2.2 }
/-- The frame's instances leave the other phasers of the context (R133). R135 lists a drop among the arrivals and not the end of a frame; the
model counts a registration that ends so as a drop, which can advance the phaser: its choice (log 61). -/
def leavePhaser (f : Frame) (s : State) (i : PhId) : State :=
  match phGet s i with
  | some p =>
    if p.ctx == f.ctx && p.members.any (fun m => m.frame == f.number) then
      let q := { p with members := p.members.filter (fun m => m.frame != f.number) }
      if p.due then phSet s i q else phArrive s i q
    else s
  | none => s
def phaserIds (s : State) : List PhId :=
  s.clusters.flatMap (fun c => c.2.phasers.map (fun p => ⟨false, c.1, p.1⟩)) ++ s.dies.flatMap (fun d => d.2.phasers.map (fun p => ⟨true, d.1, p.1⟩))
def joinerCmd (f : Frame) : Cmd :=
  { instr := .raise default default, ctx := f.ctx, core := 0, cluster := f.cluster, tag := f.tag, acq := false, rel := false, scope := 0,
    a := cZero, b := cZero, cmd := 0, body := [], bodyTags := [], reply := f.endReply, req := 0, pa := 0, page := 0 }
def endFrame (s : State) (f : Frame) : State :=
  let s := f.phasers.foldl freePhaser s
  let s := (phaserIds s).foldl (leavePhaser f) s
  let s := freeRanges s f.ctx [f.tiles]
  let s := { s with clusters := s.clusters.map (fun c => (c.1, { c.2 with quotas := c.2.quotas.filter (fun q => !(q.ctx == f.ctx && q.frame == f.number)) })) }
  let s := setWork s { s.work with frames := s.work.frames.filter (fun g => !isFrame f.ctx f.number g) }
  complete s (joinerCmd f) engJoiner (if f.killed then 0x44 else if f.withdrawn then 0x43 else 0) 0 f.number.toNat
def execFrameEnd (s : State) : Host.Outcome State Fault Refusal :=
  .next (match s.work.frames.find? (frameDone s) with | some f => endFrame s f | none => s)

/-! ## Held records (R168) -/

def execHeldRecordDelivery (s : State) : Host.Outcome State Fault Refusal :=
  .next (match deliverHeld s [] s.work.held with | some s => s | none => s)

end Sys2Proof.Machine
end

