-- ==== Sys2Proof/Machine/Raise.lean ====
section
/-! DEFINITION. Raising records (R159-R169), RAISE, REBIND, WITHDRAW (R170-R177, R462) and the VERDICT (R206). -/
namespace Sys2Proof.Machine

/-! ## Reading a record at its homes (R170, R171) -/

/-- Bytes read with the tags of their 32-byte slots. -/
structure Image32 where
  bytes : List Byte
  tags : List Bool
  deriving DecidableEq, Repr, Inhabited

def sMalformed : Nat := 0x40
def sUnread : Nat := 0x49
/-- one 32-byte slot; a page without R or CT, or a poisoned sector, cannot be read; an RD page makes the command malformed (R131) -/
def readSlot (cl : Nat) (ctx : BitVec 12) (bad va : Nat) : KM (List Byte × Bool) := do
  let (x, y) ← kTry sUnread bad sUnread (fun s => match engSector s cl ctx va with | .ok (x, y, s) => .ok ((x, y), s) | .error e => .error e)
  kCheck (y.ct && !x.poison) sUnread
  pure (toBytes 32 (secBytes x.data (va % 64 / 32 * 32) 32), x.tags.getLsbD (va % 64 / 32))
/-- n bytes from a 32-byte aligned address, and the slots' tags -/
def readImage (cl : Nat) (ctx : BitVec 12) (bad va n : Nat) : KM Image32 := do
  let l ← kEach (fun i => readSlot cl ctx bad (va + 32 * i)) (List.range ((n + 31) / 32))
  pure { bytes := (l.flatMap (·.1)).take n, tags := l.map (·.2) }
def imgCap (m : Image32) (o : Nat) : CReg := ⟨BitVec.ofNat 192 (numAt m.bytes o 24), (m.tags.drop (o / 32)).headD false⟩
def imgSlotBytes (m : Image32) (o : Nat) : List Byte := (m.bytes.drop o).take 32
def zeroAt (m : Image32) (o n : Nat) : Bool := ((m.bytes.drop o).take n).all (· == 0)
/-- an untagged slot of zeros -/
def slotEmpty (m : Image32) (o : Nat) : Bool := !(imgCap m o).tag && zeroAt m o 32
/-- a tagged, unsealed capability of a kind with permissions -/
def capGood (c : CReg) (kinds : List Nat) (p : BitVec 7) : Bool := c.tag && kinds.contains (capKind c.bits) && capSeal c.bits == 0 && hasPerm c.bits p

/-! ## The parts of a record (R159-R169) -/

structure RHeader where
  nlevel : Nat
  nstage : Nat
  nqueue : Nat
  nphaser : Nat
  trapStg : Nat
  endReply : CReg
  qout : CReg
  deriving DecidableEq, Repr, Inhabited
def RHeader.queuesAt (h : RHeader) : Nat := 256 + 576 * h.nstage
def RHeader.phasersAt (h : RHeader) : Nat := (h.queuesAt + 16 * h.nqueue + 63) / 64 * 64
def RHeader.len (h : RHeader) : Nat := if h.nphaser = 0 then h.queuesAt + 16 * h.nqueue else h.phasersAt + 64 * h.nphaser
def replyGood (m : Image32) (o : Nat) : Bool := slotEmpty m o || capGood (imgCap m o) [3, 7] 0
/-- R159 -/
def parseHeader (m : Image32) : Option RHeader :=
  let h : RHeader :=
    { nlevel := byteAt m.bytes 6, nstage := byteAt m.bytes 7, nqueue := numAt m.bytes 8 2, nphaser := byteAt m.bytes 10,
      trapStg := byteAt m.bytes 11, endReply := imgCap m 0x60, qout := imgCap m 0x80 }
  if numAt m.bytes 0 4 == 0x4652414D && numAt m.bytes 4 2 == 1 && decide (1 ≤ h.nlevel ∧ h.nlevel ≤ 8 ∧ 1 ≤ h.nstage ∧ h.nstage ≤ 64 ∧
      h.nqueue ≤ 255 ∧ h.nphaser ≤ 64 ∧ (h.trapStg < h.nstage ∨ h.trapStg = 255)) &&
     zeroAt m 12 4 && zeroAt m (0x10 + 8 * h.nlevel) (64 - 8 * h.nlevel) && zeroAt m 0x50 16 && zeroAt m 0xA0 96 &&
     replyGood m 0x60 && (slotEmpty m 0x80 || capGood (imgCap m 0x80) [0] (permW ||| permC)) then some h else none

/-- R161: one level word; `origin` as it stands, 0xFFFF for the Joiner's choice -/
def parseLevel (w : Nat) : Option Level :=
  let l : Level := { spatial := !w.testBit 4, domain := w % 8, extent := w / 2 ^ 48, origin := w / 2 ^ 32 % 65536,
                     scope := BitVec.ofNat 3 (w / 32) }
  if decide (1 ≤ l.extent ∧ l.domain ≤ 4 ∧ l.scope.toNat ≤ 5) && decide (w / 256 % 2 ^ 24 = 0) && !w.testBit 3 &&
     (l.spatial || l.origin == 0xFFFF) then some l else none
/-- R162: the nearest coarser domain of an outer level, or DEVICE -/
def enclosing (outer : List Level) (d : Nat) : Nat := outer.foldl (fun m l => if l.domain < d then max m l.domain else m) 0
def scopeOfDomain (d : Nat) : Nat := 4 - d
/-- R162: a level's rules given the levels outside it, outermost first -/
def levelOk (outer : List Level) (l : Level) : Bool :=
  outer.all (fun o => decide (o.domain ≤ l.domain)) &&
  decide (scopeOfDomain (if l.spatial then enclosing outer l.domain else l.domain) ≤ l.scope.toNat) &&
  (!(l.spatial && outer.any (fun o => o.spatial && o.domain == l.domain)) || l.origin == 0xFFFF)
def levelsOk (outer : List Level) : List Level → Bool
  | [] => true
  | l :: t => levelOk outer l && levelsOk (outer ++ [l]) t
/-- instances of a domain in its enclosing domain, and the members the spatial levels of it place -/
def domainCount (ls : List Level) (d : Nat) : Nat := domainSize (enclosing ls d) / domainSize d
def groupSize (ls : List Level) (d : Nat) : Nat := (ls.filter (fun l => l.spatial && l.domain == d)).foldl (fun n l => n * l.extent) 1
/-- ORIGIN of the outermost spatial level of a domain; none when the Joiner chooses -/
def givenOrigin (ls : List Level) (d : Nat) : Option Nat :=
  match ls.find? (fun l => l.spatial && l.domain == d) with
  | some l => if l.origin = 0xFFFF then none else some l.origin
  | none => none
def groupsFit (ls : List Level) : Bool :=
  (List.range 5).all (fun d => decide ((givenOrigin ls d).getD 0 + groupSize ls d ≤ domainCount ls d))

/-- R167 -/
def parseQueue (m : Image32) (o : Nat) : Option Queue :=
  let logDepth := byteAt m.bytes o
  let flags := byteAt m.bytes (o + 1)
  let item := numAt m.bytes (o + 2) 2
  if decide (1 ≤ logDepth ∧ logDepth ≤ 12 ∧ flags ≤ 1 ∧ 8 ≤ item ∧ item ≤ 256 ∧ item % 8 = 0) && zeroAt m (o + 4) 12 then
    some { depth := 2 ^ logDepth, item := item, exported := flags == 1, items := [], claimed := 0, reserved := 0, nextOrd := 0 }
  else none
/-- R169: place, where, gather address -/
def parsePhaser (m : Image32) (o : Nat) : Option (Bool × Nat × Option W64) :=
  let place := byteAt m.bytes o
  let wh := numAt m.bytes (o + 2) 2
  let g := imgCap m (o + 0x20)
  let gOk := slotEmpty m (o + 0x20) || (capGood g [0] permW && decide (capBase g.bits ≤ curOf g ∧ curOf g + 128 ≤ capLimit g.bits))
  if decide (place ≤ 1) && decide (wh < if place = 0 then 64 else 2) && zeroAt m (o + 1) 1 && zeroAt m (o + 4) 28 && gOk then
    some (place == 1, wh, if g.tag then some (capCursor g.bits) else none)
  else none

def listAt (m : Image32) (o n : Nat) : List Nat := (List.range n).map (fun i => byteAt m.bytes (o + i))
/-- the counts of a used queue are in range, and 0 elsewhere -/
def countsOk (qs : List Queue) (lo : Nat) (l : List (Nat × Nat)) : Bool :=
  l.all (fun x => if x.1 = noQueue then x.2 == 0
    else match qs[x.1]? with | some q => decide (lo ≤ x.2 ∧ x.2 ≤ q.depth) | none => false)
def noRepeat (l : List Nat) : Bool := let u := l.filter (· != noQueue); u.eraseDups.length == u.length
/-- bytes a firing may push -/
def pushBytes (qs : List Queue) (l : List (Nat × Nat)) : Nat :=
  l.foldl (fun n x => match qs[x.1]? with | some q => n + x.2 * q.item | none => n) 0
/-- R164: one stage descriptor at an offset of an image, by the frame's levels and queues -/
def parseStage (ls : List Level) (qs : List Queue) (m : Image32) (o : Nat) : Option Stage :=
  let b := m.bytes
  let entry := imgCap m o
  let flags := byteAt b (o + 0x22)
  let argMask := BitVec.ofNat 16 (numAt b (o + 0x26) 2)
  let st : Stage :=
    { entry := entry, level := byteAt b (o + 0x20), prio := byteAt b (o + 0x21), restart := flags.testBit 0, gang := flags.testBit 1,
      reentrant := flags.testBit 2, coordReg := byteAt b (o + 0x23), minc := byteAt b (o + 0x24), maxc := byteAt b (o + 0x25),
      argMask := argMask, overrun := numAt b (o + 0x28) 4, carried := BitVec.ofNat 8 (byteAt b (o + 0x2C)),
      ins := listAt m (o + 0x30) 8, outs := listAt m (o + 0x38) 8, cons := listAt m (o + 0x40) 8, prod := listAt m (o + 0x48) 8,
      args := (List.range 15).map (fun i => imgCap m (o + 0x60 + 32 * i)), suspended := false }
  let mine := levelsTo ls st.level
  if (slotEmpty m o || capGood entry [0] permX) && decide (st.level < ls.length ∧ st.prio ≤ 7 ∧ flags < 8 ∧ st.coordReg ≤ 63 ∧
      st.minc ≤ 16 ∧ st.minc ≤ st.maxc ∧ 1 ≤ st.maxc ∧ st.maxc ≤ 16) && !argMask.getLsbD 0 && zeroAt m (o + 0x2D) 3 && zeroAt m (o + 0x50) 16 &&
     countsOk qs 1 (st.ins.zip st.cons) && countsOk qs 0 (st.outs.zip st.prod) && decide (pushBytes qs (st.outs.zip st.prod) ≤ 4096) &&
     !(decide (1 ≤ st.coordReg ∧ st.coordReg ≤ 15) && argMask.getLsbD st.coordReg) && noRepeat st.ins &&
     (!st.gang || (mine.all (fun l => l.domain != 4) && st.minc % 4 == 0 && st.maxc % 4 == 0)) &&
     -- R163: a stage with inputs at or below a temporal level never retires
     (!hasInputs st || mine.all (·.spatial))
  then some st else none

/-- A whole record (R160). -/
structure Raising where
  hdr : RHeader
  levels : List Level
  stages : List Stage
  queues : List Queue
  phasers : List (Bool × Nat × Option W64)
  deriving DecidableEq, Repr, Inhabited
def optEach {α β : Type} (f : α → Option β) : List α → Option (List β)
  | [] => some []
  | a :: t => match f a, optEach f t with | some b, some r => some (b :: r) | _, _ => none
/-- R165, R316: an ARG image that stands for a handle names a phaser of the table, or a carried tile of a gang stage -/
def argStands (c : CReg) (kind : Nat) : Bool := capKind c.bits == kind && capBase c.bits == 0 && capLimit c.bits == 0
def argOk (ls : List Level) (stages : List Stage) (np : Nat) (c : CReg) : Bool :=
  if argStands c 4 then decide (curOf c < np)
  else if argStands c 2 then
    match stages[curOf c / 32 % 64]? with
    | some st => st.gang && st.carried.getLsbD (curOf c % 8) && decide (curOf c / 2 ^ 11 < instCount ls st.level)
    | none => false
  else true
/-- R205: the trap stage has a used i0 that holds a fault record -/
def trapOk (n : Nat) (stages : List Stage) (qs : List Queue) : Bool :=
  n == 255 || (match stages[n]? with
    | some st => (match qs[st.ins.headD noQueue]? with | some q => decide (64 ≤ q.item) | none => false)
    | none => false)
/-- R167: exported handles find slots at QOUT's cursor -/
def qoutOk (q : CReg) (n : Nat) : Bool :=
  n == 0 || (q.tag && curOf q % 32 == 0 && decide (capBase q.bits ≤ curOf q ∧ curOf q + 32 * n ≤ capLimit q.bits))
def parseRecord (h : RHeader) (m : Image32) : Option Raising := do
  let levels ← optEach (fun i => parseLevel (numAt m.bytes (0x10 + 8 * i) 8)) (List.range h.nlevel)
  let queues ← optEach (fun i => parseQueue m (h.queuesAt + 16 * i)) (List.range h.nqueue)
  let stages ← optEach (fun i => parseStage levels queues m (256 + 576 * i)) (List.range h.nstage)
  let phasers ← optEach (fun i => parsePhaser m (h.phasersAt + 64 * i)) (List.range h.nphaser)
  let fed (i : Nat) : Bool := stages.any (fun st => st.ins.contains i)
  if levelsOk [] levels && groupsFit levels && trapOk h.trapStg stages queues &&
     queues.zipIdx.all (fun x => x.1.exported || fed x.2) &&
     stages.all (fun st => st.args.all (argOk levels stages h.nphaser)) &&
     qoutOk h.qout (queues.filter (·.exported)).length
  then some { hdr := h, levels := levels, stages := stages, queues := queues, phasers := phasers } else none

/-! ## Resources (R162, R171, R182, R198) -/

/-- origins a domain may take: the given one, or every one that fits (log 16) -/
def originsFor (ls : List Level) (d : Nat) : List Nat :=
  if !ls.any (fun l => l.domain == d) then [0]
  else match givenOrigin ls d with | some o => [o] | none => List.range (domainCount ls d + 1 - groupSize ls d)
def resolve (ls : List Level) (os : List Nat) : List Level := ls.map (fun l => { l with origin := (os.drop l.domain).headD 0 })
/-- the MINC a cluster must hold for the stages -/
def mincIn (ls : List Level) (stages : List Stage) (cl : Nat) : Nat :=
  (stages.filter (fun st => (stageClusters ls st.level).contains cl)).foldl (fun n st => n + st.minc) 0
def clustersOf (ls : List Level) (stages : List Stage) : List Nat := (stages.flatMap (fun st => stageClusters ls st.level)).eraseDups
def mincFits (s : State) (ls : List Level) (stages : List Stage) : Bool :=
  (clustersOf ls stages).all (fun cl => decide (quotaSum (cluster s cl).quotas + mincIn ls stages cl ≤ (placedCores s cl).length))
/-- the first choice of origins whose MINCs fit -/
def chooseOrigins (s : State) (ls : List Level) (stages : List Stage) : List Nat → List Nat → Option (List Level)
  | [], os => let r := resolve ls os; if mincFits s r stages then some r else none
  | d :: t, os => (originsFor ls d).findSome? (fun o => chooseOrigins s ls stages t (os ++ [o]))
/-- the die whose pinned L2 stores a queue: that of its consuming stage's lowest instance (R168); of the raiser where no stage
consumes it (log 37) -/
def queueDie (ls : List Level) (stages : List Stage) (cl q : Nat) : Nat :=
  match stages.find? (fun st => st.ins.contains q) with | some st => (placeOf ls st.level 0).1 / 512 | none => dieOfCluster cl
def queueBytes (ls : List Level) (stages : List Stage) (cl : Nat) (qs : List Queue) (d : Nat) : Nat :=
  ((qs.zipIdx.filter (fun x => queueDie ls stages cl x.2 == d)).map (fun x => x.1.depth * x.1.item)).foldl (· + ·) 0
/-- R171: the dies have storage for the queues -/
def queuesFit (s : State) (ls : List Level) (stages : List Stage) (cl : Nat) (qs : List Queue) : Bool :=
  [0, 1].all (fun d =>
    let n := queueBytes ls stages cl qs d
    n == 0 || decide (n + (s.work.frames.map (fun f => queueBytes f.levels f.stages f.cluster f.queues d)).foldl (· + ·) 0 ≤ Config.queueStorage d))
/-- the context's arena with n KiB of carried tiles placed, and none of the slots that stopping firings were promised taken
(R197, R198) -/
def withTiles (s : State) (ctx : BitVec 12) (c : Ctx) (n : Nat) : Option ((Nat × Nat) × Ctx) :=
  if n = 0 then some ((0, 0), c)
  else match placeTiles c n with
    | none => none
    | some a =>
      let c := { c with arenaUsed := c.arenaUsed ++ [(a, n)] }
      if (slotsTaken c).length + promised s ctx 0 ≤ c.arenaSlots then some ((a, n), c) else none
def phaserCap (dieLevel : Bool) : Nat := if dieLevel then 4096 else 1024
def newPhaser (frame : BitVec 32) (ctx : BitVec 12) (g : Option W64) : Phaser :=
  { frame := frame, ctx := ctx, phase := 0, members := [], pending := 0, gather := g, sums := List.replicate 8 0, contributors := 0, due := false }
/-- one phaser more at its engine; none when all are taken -/
def allocPhaser (frame : BitVec 32) (ctx : BitVec 12) (s : State) (x : Bool × Nat × Option W64) : Option ((Bool × Nat × Nat) × State) :=
  let taken := if x.1 then (die s x.2.1).phasers else (cluster s x.2.1).phasers
  match (List.range (phaserCap x.1)).find? (fun n => (mfind taken n).isNone) with
  | none => none
  | some n => some ((x.1, x.2.1, n), phSet s ⟨x.1, x.2.1, n⟩ (newPhaser frame ctx x.2.2))
def allocPhasers (frame : BitVec 32) (ctx : BitVec 12) : List (Bool × Nat × Option W64) → State → Option (List (Bool × Nat × Nat) × State)
  | [], s => some ([], s)
  | x :: t, s => match allocPhaser frame ctx s x with
    | none => none
    | some (p, s) => match allocPhasers frame ctx t s with | none => none | some (r, s) => some (p :: r, s)
/-- the handle a stand-in ARG image becomes (R165, R316) -/
def argValue (frame : BitVec 32) (phs : List (Bool × Nat × Nat)) (c : CReg) : CReg :=
  if argStands c 4 then (match phs[curOf c]? with | some p => phaserHandle p.1 p.2.1 p.2.2 | none => c)
  else if argStands c 2 then drainHandle frame (capCursor c.bits) else c
def bindArgs (frame : BitVec 32) (phs : List (Bool × Nat × Nat)) (st : Stage) : Stage := { st with args := st.args.map (argValue frame phs) }
/-- every stage's MINC as its quota in each of its clusters -/
def giveQuotas (ctx : BitVec 12) (frame : BitVec 32) (ls : List Level) (s : State) (x : Stage × Nat) : State :=
  (stageClusters ls x.1.level).foldl (fun s cl =>
    setCluster s cl { cluster s cl with quotas := (cluster s cl).quotas ++ [{ ctx := ctx, frame := frame, stage := x.2, cores := x.1.minc }] }) s

/-! ## RAISE applied (R170-R173) -/

/-- the header, once its bytes lie in the capability and can be read -/
def raiseHeader (c : Cmd) : KM RHeader := do
  let va := curOf c.a
  kCheck (decide (va % 64 = 0 ∧ capBase c.a.bits ≤ va ∧ va + 256 ≤ capLimit c.a.bits)) sMalformed
  match parseHeader (← readImage c.cluster c.ctx sMalformed va 256) with
  | some h => pure h
  | none => kEnd sMalformed
def raiseRecord (c : Cmd) : KM Raising := do
  let h ← raiseHeader c
  kCheck (decide (curOf c.a + h.len ≤ capLimit c.a.bits)) sMalformed
  match parseRecord h (← readImage c.cluster c.ctx sMalformed (curOf c.a) h.len) with
  | some r => pure r
  | none => kEnd sMalformed
def exportHandles (c : Cmd) (n : BitVec 32) (qout : CReg) (qs : List Queue) : KM Unit :=
  let ix := (qs.zipIdx.filter (fun x => x.1.exported)).map (·.2)
  kFor (fun x => kTry sMalformed sMalformed sMalformed (fun s =>
    match engPutCap s c.cluster c.ctx (curOf qout + 32 * x.2) (queueHandle c.ctx n x.1) with | .ok s => .ok ((), s) | .error e => .error e)) ix.zipIdx
/-- the frame of a record: its number -/
def raiseFrame (c : Cmd) : KM (BitVec 32) := do
  let r ← raiseRecord c
  let s ← get
  match ctxOf s c.ctx with
  | none => kEnd sMalformed
  | some x => do
    let n := x.nextFrame
    let levels ← (match chooseOrigins s r.levels r.stages [0, 1, 2, 3, 4] [] with | some l => pure l | none => kEnd 0x41)
    kCheck (queuesFit s levels r.stages c.cluster r.queues) 0x41
    let (tiles, x) ← (match withTiles s c.ctx x (frameTiles levels r.stages) with | some t => pure t | none => kEnd 0x41)
    match allocPhasers n c.ctx r.phasers s with
    | none => kEnd 0x41
    | some (phs, s) => do
      let f : Frame :=
        { number := n, ctx := c.ctx, tag := c.tag, cluster := c.cluster, levels := levels, stages := r.stages.map (bindArgs n phs),
          queues := r.queues, phasers := phs, trapStage := r.hdr.trapStg, endReply := replyOf r.hdr.endReply c.ctx c.cluster,
          insts := [], withdrawn := false, killed := false, batches := [], tiles := tiles }
      let s := setCtx s c.ctx { x with nextFrame := n + 1 }
      let s := r.stages.zipIdx.foldl (giveQuotas c.ctx n levels) s
      set (setWork s { s.work with frames := s.work.frames ++ [f] })
      exportHandles c n r.hdr.qout r.queues
      pure n
/-- the length of the record read -/
def raiseLen (c : Cmd) (s : State) : Nat := match raiseHeader c s with | .ok (h, _) => h.len | .error _ => 0
/-- How an engine command ends: with its reply sent, or it waits and `held`, the state that still has it, goes on. -/
def endK {α : Type} (held s : State) (c : Cmd) (engine : Byte) (bytes : Nat) (res : α → Nat) (bad : Nat → Nat) (f : KM α) : State :=
  match f s with
  | .ok (r, s) => complete s c engine 0 bytes (res r)
  | .error (.status n) => complete s c engine n (bad n) 0
  | .error (.wait w) => keepAsked held w
  | .error .fatal => s
def applyRaise (c : Cmd) (held s : State) : State :=
  let n := raiseLen c s
  endK held s c engJoiner n (·.toNat) (fun _ => n) (raiseFrame c)

/-! ## REBIND applied (R174, R175) -/

def sameShape (a b : Stage) : Bool :=
  a.level == b.level && a.ins == b.ins && a.outs == b.outs && a.cons == b.cons && a.prod == b.prod && a.gang == b.gang
/-- R182: the quota obeys the new bounds, as far as the cluster's cores go -/
def clampQuota (s : State) (ctx : BitVec 12) (frame : BitVec 32) (n : Nat) (st : Stage) (cl : Nat) : State :=
  let free := (placedCores s cl).length - quotaSum (cluster s cl).quotas
  setCluster s cl { cluster s cl with quotas := (cluster s cl).quotas.map (fun q =>
    if q.ctx == ctx && q.frame == frame && q.stage == n then { q with cores := min st.maxc (max q.cores (min st.minc (q.cores + free))) } else q) }
/-- a new CARRIED may need another place in the arena; without one the tiles stay where they are (log 37) -/
def moveTiles (s : State) (f : Frame) (stages : List Stage) : State :=
  let n := frameTiles f.levels stages
  if n = f.tiles.2 then s
  else
    let s' := freeRanges s f.ctx [f.tiles]
    match (ctxOf s' f.ctx).bind (fun c => withTiles s' f.ctx c n) with
    | some (t, c) => updFrame (setCtx s' f.ctx c) f.ctx f.number (fun g => { g with tiles := t })
    | none => s
def rebindStage (c : Cmd) : KM Unit := do
  let s ← get
  let n := (c.cmd.extractLsb' 21 6).toNat
  kCheck (decide (handleCtx c.a = c.ctx)) 0x45
  match findFrame s (handleCtx c.a) (handleFrame c.a) with
  | none => kEnd 0x45
  | some f => match stageAt f n with
    | none => kEnd 0x45
    | some old => do
      let va := curOf c.b
      kCheck (decide (va % 32 = 0 ∧ capBase c.b.bits ≤ va ∧ va + 576 ≤ capLimit c.b.bits)) 0x45
      match parseStage f.levels f.queues (← readImage c.cluster c.ctx 0x45 va 576) 0 with
      | none => kEnd 0x45
      | some st => do
        kCheck (sameShape old st && st.args.all (argOk f.levels (f.stages.set n st) f.phasers.length)) 0x45
        modify (fun s =>
          let st := { bindArgs f.number f.phasers st with suspended := old.suspended }
          let s := updFrame (moveTiles s f (f.stages.set n st)) f.ctx f.number (updStage n (fun _ => st))
          (stageClusters f.levels st.level).foldl (fun s cl => clampQuota s f.ctx f.number n st cl) s)
def applyRebind (c : Cmd) (held s : State) : State := endK held s c engJoiner 0 (fun _ => 0) (fun _ => 0) (rebindStage c)

/-! ## WITHDRAW applied (R176) -/

def withdrawTag (c : Cmd) : Nat := (c.b.bits.extractLsb' 0 64).toNat
def isRaise (i : Instr) : Bool := match i with | .raise _ _ => true | _ => false
/-- raisings of the tag that arrived before it and are not accepted yet -/
def refuses (c x : Cmd) : Bool := isRaise x.instr && x.ctx == c.ctx && x.tag.toNat == withdrawTag c && decide (x.req < c.req)
def refuseIn (c : Cmd) (s : State) (cl : Nat) : State :=
  let l := (cluster s cl).joiner
  let s := setCluster s cl { cluster s cl with joiner := l.filter (fun x => !refuses c x) }
  (l.filter (refuses c)).foldl (fun s x => complete s x engJoiner 0x42 0 0) s
def applyWithdraw (c : Cmd) (s : State) : State :=
  let n := withdrawTag c
  if n = 0 ∨ n > 65535 then complete s c engJoiner 0x46 0 0
  else
    let mine (f : Frame) : Bool := f.ctx == c.ctx && f.tag.toNat == n && !f.withdrawn
    let refused := (s.clusters.map (fun x => (x.2.joiner.filter (refuses c)).length)).foldl (· + ·) 0
    let marked := (s.work.frames.filter mine).length
    let s := (s.clusters.map (·.1)).foldl (refuseIn c) s
    complete (withdrawFrames mine s) c engJoiner 0 0 (marked * 2 ^ 32 + refused)

/-! ## The slice takes its inbox (R177) -/

/-- one sender: a core, or a slot of the message window -/
def sameSender (a b : Cmd) : Bool :=
  a.core == b.core && (match a.reply, b.reply with | .slot m, .slot n => m == n | .slot _, _ => false | _, .slot _ => false | _, _ => true)
/-- the command at a place of an inbox, when no earlier one of its sender waits there -/
def pickCmd (l : List Cmd) (ix : Nat) : Option Cmd :=
  match l[ix]? with
  | some c => if (l.take ix).any (sameSender c) then none else some c
  | none => none
def dropAt {α : Type} (l : List α) (ix : Nat) : List α := l.take ix ++ l.drop (ix + 1)
def joinerApply (c : Cmd) (held s : State) : State :=
  match c.instr with
  | .raise _ _ => applyRaise c held s
  | .rebind _ _ => applyRebind c held s
  | .withdraw _ _ => applyWithdraw c s
  | _ => held
def joinerTurn (s : State) (cl ix : Nat) : State :=
  match pickCmd (cluster s cl).joiner ix with
  | none => s
  | some c =>
    let s' := setCluster s cl { cluster s cl with joiner := dropAt (cluster s cl).joiner ix }
    joinerApply c s s'

/-! ## VERDICT (R206) -/

/-- an item, and a batch that runs or stands pre-empted, without the mark of a failure -/
def clearItem (it : QItem) : QItem := { it with failed := false, desc := none }
def clearBatch (n : Nat) (b : Batch) : Batch :=
  if b.stage == n then { b with refire := false, ins := b.ins.map (fun x => (x.1, x.2.map clearItem)) } else b
/-- resumed: no suspension, no marks -/
def resumeStage (n : Nat) (f : Frame) : Frame :=
  let ins := match stageAt f n with | some st => st.ins | none => []
  let f := updStage n (fun st => { st with suspended := false }) f
  let f := { f with insts := f.insts.map (fun i => if i.stage == n then { i with failed := false, desc := none, suspends := false } else i)
                    batches := f.batches.map (clearBatch n) }
  ins.foldl (fun f q => updQueue q (fun x => { x with items := x.items.map clearItem }) f) f
def dropBatchItems (n : Nat) (f : Frame) : Frame :=
  match stageAt f n with
  | none => f
  | some st =>
    if hasInputs st then (usedIns st).foldl (fun f x => updQueue x.1 (fun q => { q with items := q.items.drop x.2 }) f) f
    else { f with insts := f.insts.map (fun i => if i.stage == n && i.suspends then { i with retired := true } else i) }
def verdictOf (c : Cmd) : KM Unit := do
  let s ← get
  let act := byteAt c.body 0
  let n := byteAt c.body 1
  let num := BitVec.ofNat 32 (numAt c.body 4 4)
  kCheck (decide (act < 3 ∧ numAt c.body 2 2 = 0 ∧ numAt c.body 8 24 = 0)) 0x0E
  match (findFrame s c.ctx num).bind (stageAt · n) with
  | none => kEnd 0x48
  | some st => do
    kCheck st.suspended 0x48
    modify (fun s => match act with
      | 0 => updFrame s c.ctx num (resumeStage n)
      | 1 => updFrame s c.ctx num (fun f => resumeStage n (dropBatchItems n f))
      | _ => killFrame s c.ctx num)
def verdictTurn (s : State) (cl ix : Nat) : State :=
  match pickCmd (cluster s cl).joiner ix with
  | none => s
  | some c => match c.instr with
    | .verdict =>
      let s' := setCluster s cl { cluster s cl with joiner := dropAt (cluster s cl).joiner ix }
      endK s s' c engJoiner 0 (fun _ => 0) (fun _ => 0) (verdictOf c)
    | _ => s
def execVerdict (s : State) : Host.Outcome State Fault Refusal :=
  .next (match s.cur.arg with | .engine (.joiner cl) ix => verdictTurn s cl ix | _ => s)

/-! ## The commands as they are issued (R450, R462) -/

/-- R450: A's checks: a kind-0 capability with E and permissions, its cursor within its bounds -/
def plainCap (r : CReg) (p : BitVec 7) : Except Stop Unit := checkCap r [0] (p ||| permE) (capCursor r.bits) 0
/-- the capability of a record: its range is the Joiner's to judge (R160, R462) -/
def recordCap (r : CReg) : Except Stop Unit := checkHandle r [0] (permR ||| permC ||| permE)
def aCap (o : EngOps) (p : BitVec 7) (t : Thread) : Except Stop Unit := plainCap (getC t o.a) p
def bCap (o : EngOps) (p : BitVec 7) (t : Thread) : Except Stop Unit := plainCap (regOf t o.b) p
def noCheck (_ : Thread) : Except Stop Unit := .ok ()
def toJoiner (_ : Thread) (s : State) : EngineId := .joiner (clusterOf s.cur.core)
def execRaise (h : Hdr) (o : EngOps) (s : State) : Host.Outcome State Fault Refusal :=
  runState h (fun t s => engRun (.raise h o) o [3, 7] (fun t => recordCap (getC t o.a)) noCheck toJoiner t s) s
def execRebind (h : Hdr) (o : EngOps) (s : State) : Host.Outcome State Fault Refusal :=
  runState h (fun t s => engRun (.rebind h o) o [3, 7] (fun t => checkHandle (getC t o.a) [3] permE) (fun t => recordCap (regOf t o.b)) toJoiner t s) s

end Sys2Proof.Machine
end

