-- ==== Sys2Proof/Machine/Engines.lean ====
section
/-! DEFINITION. The copy engines (R453-R458) and the bank engines (R69-R79). -/
namespace Sys2Proof.Machine

/-! ## Features (R41, R42) -/

def sNotAccepted : Nat := 0x34
def hasBank (s : State) : Bool := s.host.on1.getLsbD 0
def hasKiln (s : State) : Bool := s.host.on1.getLsbD 1
def hasScribe (s : State) : Bool := s.host.on1.getLsbD 2

/-! ## Copy: ranges (R453, R454) -/

def cBad : Nat := 0x10
def copyTry {α : Type} (f : State → Except EngStop (α × State)) : KM α := kTry 0x12 cBad 0x13 f
/-- the 64 KiB pages a range touches -/
def pagesOf (va n : Nat) : List Nat := (List.range ((va % 65536 + n + 65535) / 65536)).map (fun i => (va / 65536 + i) * 65536)
/-- R453: every page of a range translates before anything is written -/
def checkPages (cl : Nat) (ctx : BitVec 12) (va n : Nat) (need : Need) : KM Unit :=
  if n = 0 then pure () else kFor (fun p => do let _ ← copyTry (fun s => engPage s cl ctx p need); pure ()) (pagesOf va n)
/-- overlap of [a, a+n) and [b, b+m) -/
def overlap (a n b m : Nat) : Bool := decide (a < b + m ∧ b < a + n)

/-- A source slot with its tag and whether it may move (R454). -/
structure SrcSlot where
  va : Nat
  tag : Bool
  moves : Bool
  deriving DecidableEq, Repr, Inhabited
def slotsIn (va n : Nat) : List Nat := (List.range ((va + n + 31) / 32 - va / 32)).map (fun i => (va / 32 + i) * 32)
def readSrcSlot (cl : Nat) (ctx : BitVec 12) (va : Nat) : KM SrcSlot := do
  let y ← copyTry (fun s => engPage s cl ctx va .load)
  let x := homeView (← get).mem (y.pa / 64)
  let v := BitVec.ofNat 192 (secBytes x.data (va % 64 / 32 * 32) 24)
  let tag := x.tags.getLsbD (va % 64 / 32)
  pure { va := va, tag := tag, moves := tag && y.ct && hasPerm v permG }
/-- set the tag of a slot at its home -/
def tagSlot (cl : Nat) (ctx : BitVec 12) (va : Nat) : KM Bool := do
  let x ← copyTry (fun s => engStorePage s cl ctx va)
  if x.ct then do
    let slot := slotsOf (va % 64) 32
    modify (fun s => engPut s ctx x 0 0 slot slot)
    pure true
  else pure false
/-- What a copied range leaves: tags lost, and the first poisoned destination byte. -/
structure CopyEnd where
  lost : Bool
  poison : Option Nat
  deriving DecidableEq, Repr, Inhabited
/-- the first byte of a range that lies in a poisoned destination sector -/
def firstPoison (dst : Nat) (l : List Bool) : Option Nat := (l.findIdx? id).map (fun i => i - (dst + i) % 64)
/-- one range copied: data, poison, tags -/
def copyRange (cl : Nat) (ctx : BitVec 12) (dst src n : Nat) (capTags : Bool) : KM CopyEnd := do
  let r ← copyTry (fun s => engRead s cl ctx src n)
  let slots ← kEach (readSrcSlot cl ctx) (slotsIn src n)
  copyTry (fun s => match engWrite s cl ctx dst r.bytes with | .ok s => .ok ((), s) | .error e => .error e)
  if r.poison.any id then
    copyTry (fun s => match engPoisonBytes s cl ctx dst r.poison with | .ok s => .ok ((), s) | .error e => .error e)
  else pure ()
  let moved ← kEach (fun x =>
    if x.moves && capTags && src % 32 == dst % 32 && decide (src ≤ x.va ∧ x.va + 32 ≤ src + n) then tagSlot cl ctx (dst + (x.va - src)) else pure false) slots
  pure { lost := (slots.zip moved).any (fun x => x.1.tag && !x.2), poison := firstPoison dst r.poison }

/-! ## CPY, CPY2D, CPFILL (R455, R456) -/

/-- How a copy command ends without a refusal: STATUS, BYTES, RESULT. -/
structure CmdEnd where
  status : Nat
  bytes : Nat
  result : Nat
  deriving DecidableEq, Repr, Inhabited
def copyEnd (n : Nat) (e : CopyEnd) : CmdEnd :=
  { status := if e.poison.isSome then 0x11 else 0, bytes := n, result := (if e.lost then 1 else 0) + (e.poison.getD 0 / 64) * 2 ^ 32 }
def cpyRun (c : Cmd) : KM CmdEnd := do
  let src := curOf c.b
  let n := capLimit c.b.bits - src
  let dst := curOf c.a
  if n = 0 then pure { status := 0, bytes := 0, result := 0 }
  else do
    kCheck (decide (n < 2 ^ 40 ∧ dst + n ≤ capLimit c.a.bits) && !overlap dst n src n) cBad
    checkPages c.cluster c.ctx src n .load
    checkPages c.cluster c.ctx dst n .store
    pure (copyEnd n (← copyRange c.cluster c.ctx dst src n (hasPerm c.a.bits permC && hasPerm c.b.bits permC)))
/-- byte k of a fill -/
def fillBytes (v : W64) (n : Nat) : List Byte := (List.range n).map (fun k => (toBytes 8 v.toNat).getD (k % 8) 0)
def cpfillRun (c : Cmd) : KM CmdEnd := do
  let dst := curOf c.a
  let n := capLimit c.a.bits - dst
  checkPages c.cluster c.ctx dst n .store
  copyTry (fun s => match engWrite s c.cluster c.ctx dst (fillBytes (c.b.bits.extractLsb' 0 64) n) with | .ok s => .ok ((), s) | .error e => .error e)
  pure { status := 0, bytes := n, result := 0 }
/-- R456 -/
structure Copy2D where
  dst : CReg
  src : CReg
  rows : Nat
  rowBytes : Nat
  dstride : Int
  sstride : Int
  deriving DecidableEq, Repr, Inhabited
def copyDesc (c : Cmd) : KM Copy2D := do
  let va := curOf c.a
  kCheck (decide (va % 64 = 0 ∧ va + 128 ≤ capLimit c.a.bits)) cBad
  let sec (i : Nat) : KM (List Byte × Bool) := do
    let (x, y) ← copyTry (fun s => match engSector s c.cluster c.ctx (va + 32 * i) with | .ok (x, y, s) => .ok ((x, y), s) | .error e => .error e)
    kCheck (!x.poison) cBad
    pure (toBytes 32 (secBytes x.data (32 * (i % 2)) 32), y.ct && x.tags.getLsbD (i % 2))
  let l ← kEach sec (List.range 4)
  let m : Image32 := { bytes := l.flatMap (·.1), tags := l.map (·.2) }
  let d : Copy2D :=
    { dst := imgCap m 0, src := imgCap m 32, rows := numAt m.bytes 0x40 4, rowBytes := numAt m.bytes 0x44 4,
      dstride := (BitVec.ofNat 64 (numAt m.bytes 0x48 8)).toInt, sstride := (BitVec.ofNat 64 (numAt m.bytes 0x50 8)).toInt }
  kCheck (decide (1 ≤ d.rows ∧ d.rows ≤ 65535 ∧ 1 ≤ d.rowBytes ∧ d.rowBytes ≤ 2 ^ 24) && zeroAt m 0x58 40 &&
    capGood d.dst [0] (permW ||| permE) && capGood d.src [0] (permR ||| permE)) cBad
  pure d
/-- the address of row r, when the row lies in the capability's bounds -/
def rowAt (c : CReg) (stride : Int) (n r : Nat) : Option Nat :=
  let a := (curOf c : Int) + r * stride
  if (capBase c.bits : Int) ≤ a ∧ a + n ≤ (capLimit c.bits : Int) then some a.toNat else none
def rowsClash (n : Nat) : List Nat → Bool
  | [] => false
  | a :: t => t.any (fun b => overlap a n b n) || rowsClash n t
def cpy2dRun (c : Cmd) : KM CmdEnd := do
  let d ← copyDesc c
  let n := d.rowBytes
  match optEach (rowAt d.dst d.dstride n) (List.range d.rows), optEach (rowAt d.src d.sstride n) (List.range d.rows) with
  | some ds, some ss => do
    kCheck (!rowsClash n ds && !ds.any (fun a => ss.any (fun b => overlap a n b n))) cBad
    kFor (fun b => checkPages c.cluster c.ctx b n .load) ss
    kFor (fun a => checkPages c.cluster c.ctx a n .store) ds
    let agree := curOf d.dst % 32 == curOf d.src % 32
    let es ← kEach (fun x => copyRange c.cluster c.ctx x.1 x.2 n (agree && hasPerm d.dst.bits permC && hasPerm d.src.bits permC)) (ds.zip ss)
    -- the offset counts the bytes in the order of the rows
    let first := (es.zipIdx.filterMap (fun x => x.1.poison.map (fun p => x.2 * n + p))).head?
    pure (copyEnd (d.rows * n) { lost := es.any (·.lost), poison := first })
  | _, _ => kEnd cBad
/-- a command's end posted by its engine; `held` goes on while it waits -/
def endCmd (held s : State) (c : Cmd) (engine : Byte) (f : KM CmdEnd) : State :=
  match f s with
  | .ok (r, s) => complete s c engine r.status r.bytes r.result
  | .error (.status n) => complete s c engine n 0 0
  | .error (.wait w) => keepAsked held w
  | .error .fatal => s

/-! ## Bank engines: HBM below the caches (R69) -/

/-- n bytes of HBM with the poison of their sectors -/
def bankRead (m : Mem) (pa n : Nat) : EngData :=
  { bytes := toBytes n (readCells m.cells pa n), poison := (List.range n).map (fun i => m.poison.contains ((pa + i) / 64)) }
/-- Sectors written: poisoned where a byte is marked; else one covered whole is clean, and one covered in part stays as it was
(R67). The slots touched lose their tags. -/
def bankWrite (m : Mem) (pa : Nat) (bs : List Byte) (ps : List Bool) : Mem :=
  if bs.isEmpty then m
  else
    let secs := (List.range ((pa + bs.length - 1) / 64 + 1 - pa / 64)).map (· + pa / 64)
    let bad (sec : Nat) : Bool := ps.zipIdx.any (fun x => x.1 && (pa + x.2) / 64 == sec)
    let whole (sec : Nat) : Bool := decide (pa ≤ sec * 64 ∧ sec * 64 + 64 ≤ pa + bs.length)
    { m with cells := writeCells m.cells pa bs
             tags := m.tags.filter (fun x => decide (x * 32 + 32 ≤ pa ∨ pa + bs.length ≤ x * 32))
             poison := secs.foldl (fun l sec => sset l sec (bad sec || (l.contains sec && !whole sec))) m.poison
             streamed := secs.foldl (fun l sec => mdel l sec) m.streamed }
/-- a range of HBM: physical address and bytes -/
abbrev HRange := Nat × Nat
def sectorsOf (r : HRange) : List Nat := if r.2 = 0 then [] else (List.range ((r.1 + r.2 - 1) / 64 + 1 - r.1 / 64)).map (· + r.1 / 64)
/-- what a bank engine reads and writes counts for the context's HBM bytes (R191), and uncorrectable data it reads is counted
(R68) -/
def bankCharge (s : State) (ctx : BitVec 12) (reads writes : List HRange) : State :=
  let s := spendNow s ctx .hbm (64 * ((reads ++ writes).flatMap sectorsOf).length)
  (reads.flatMap sectorsOf).foldl noteRead s
/-- R191: the context's HBM budget is spent, and its requests wait -/
def hbmHeld (s : State) (ctx : BitVec 12) : Bool :=
  match ctxOf s ctx with | some c => hbmSpent c | none => false

/-! ## Bank arithmetic (R72, R75, R76) -/

def ctlBank : FCtl := ⟨.rne, false, false, true⟩
/-- an exact sum rounded once, inexactness told: the inexact flag of R76 is that of every inexact rounding (log 53) -/
def bankSum (p : FLayout) (vs : List FVal) : Nat × Events :=
  match infSum vs with
  | none => invalidOut p
  | some (some n) => infOut p ctlBank n
  | some none =>
    let ts := vs.map FVal.term
    let s := sumAt (minExp ts) ts
    if s = 0 then sumOut p ctlBank ts else roundF p ctlBank true (decide (s < 0)) s.natAbs false (minExp ts)
/-- a sum of products that may hold NaNs: the canonical NaN of sign 0; `bad` says that a product is 0 times infinity, which is
invalid beside a NaN too (R329) -/
def bankTerms (p : FLayout) (ins : List FVal) (bad : Bool) (terms : List (Option FVal)) : Nat × Events :=
  match firstNan ins with
  | some (_, sig, _, _) => (nanCode p false, if sig || bad then evInvalid else evNone)
  | none => match optEach id terms with | some vs => bankSum p vs | none => invalidOut p
def bankElem (p : FLayout) (alpha : Option Nat) (x y : Nat) : Nat × Events :=
  let a := unpackF p x
  let b := unpackF p y
  match alpha with
  | none => bankTerms p [a, b] false [some a, some b]
  | some k => let kv := unpackF fp32 k; bankTerms p [kv, a, b] (badProd kv a) [mulVal kv a, some b]
/-- [4:0]: invalid, overflow, underflow, inexact, NaN produced -/
def bankFlags (e : Events) : Nat :=
  (if e &&& evInvalid != 0 then 1 else 0) + (if e &&& evOverflow != 0 then 2 else 0) + (if e &&& evUnderflow != 0 then 4 else 0) +
  (if e &&& evInexact != 0 then 8 else 0) + (if e &&& evNan != 0 then 16 else 0)
def noPoison : Nat := 0xFFFFFFFF
def bankResult (e : Events) (first : Option Nat) : Nat := bankFlags e + first.getD noPoison * 2 ^ 32

/-! ## BKADD, BKAXPY, BKZERO (R70-R73) -/

def bBad : Nat := 0x30
def bankRefused : CmdEnd := { status := bBad, bytes := 0, result := noPoison * 2 ^ 32 }
/-- the bounds that ranges from A's cursor obey: the capability's and the page's -/
def bankFits (c : Cmd) (va n : Nat) : Bool :=
  let page := curOf c.a / c.page * c.page
  decide (capBase c.a.bits ≤ va ∧ va + n ≤ capLimit c.a.bits ∧ page ≤ va ∧ va + n ≤ page + c.page)
/-- physical address of an address in the command's page -/
def bankPa (c : Cmd) (va : Nat) : Nat := c.pa - curOf c.a + va
def distinctClash (n : Nat) (l : List Nat) : Bool := l.any (fun a => l.any (fun b => a != b && overlap a n b n))
/-- Output elements: code, whether its sources were poisoned, and the events. -/
structure BankOut where
  vals : List Nat
  poison : List Bool
  ev : Events
  deriving DecidableEq, Repr, Inhabited
/-- the elements computed; those of poisoned sources raise flags too (log 53) -/
def bankElems (p : FLayout) (e : Nat) (alpha : Option Nat) (xs ys : EngData) (n : Nat) : BankOut :=
  let rs := ((numsOf xs.bytes e n).zip (numsOf ys.bytes e n)).map (fun x => bankElem p alpha x.1 x.2)
  { vals := rs.map (·.1), poison := (anyN e n xs.poison).zipWith (fun a b => a || b) (anyN e n ys.poison)
    ev := rs.foldl (fun f r => f ||| r.2) evNone }
/-- store elements at physical addresses: whole sectors -/
def bankStore (s : State) (pa e : Nat) (o : BankOut) : State :=
  setMem s (bankWrite s.mem pa (o.vals.flatMap (toBytes e)) (o.poison.flatMap (List.replicate e ·)))
/-- BKADD and BKAXPY. One sentence of R71 gives 0x30 for a tagged B, a nonzero reserved field or a misaligned cursor, and the next 0x00 for
N = 0; where both hold the model gives 0x30: its choice (log 61). -/
def bankPair (axpy : Bool) (c : Cmd) (s : State) : CmdEnd × State :=
  let w := c.b.bits
  let fmt := (c.cmd.extractLsb' 24 3).toNat
  let p := if fmt = 0 then bf16 else fp32
  let e := if fmt = 0 then 2 else 4
  let n := (w.extractLsb' 43 21).toNat
  let at_ (f : BitVec 13) : Nat := curOf c.a + f.toNat * 256
  let s1 := at_ (w.extractLsb' 26 13)
  let s0 := at_ (w.extractLsb' 13 13)
  let d := at_ (w.extractLsb' 0 13)
  if c.b.tag || w.extractLsb' 64 32 != 0 || w.extractLsb' 39 4 != 0 || curOf c.a % 256 != 0 then (bankRefused, s)
  else if n = 0 then ({ status := 0, bytes := 0, result := noPoison * 2 ^ 32 }, s)
  else if !([s0, s1, d].all (fun a => bankFits c a (n * e))) || distinctClash (n * e) [s0, s1, d] then (bankRefused, s)
  else
    let ps (l : List Nat) : List HRange := l.map (fun a => (bankPa c a, n * e))
    let o := bankElems p e (if axpy then some (w.extractLsb' 96 32).toNat else none)
      (bankRead s.mem (bankPa c s0) (n * e)) (bankRead s.mem (bankPa c s1) (n * e)) n
    let first := o.poison.findIdx? id
    ({ status := if first.isSome then 0x31 else 0, bytes := n * e, result := bankResult o.ev first },
     bankStore (bankCharge s c.ctx (ps [s0, s1]) (ps [d])) (bankPa c d) e o)
def bankZero (c : Cmd) (s : State) : CmdEnd × State :=
  let n := capLimit c.a.bits - curOf c.a
  if curOf c.a % 256 != 0 || capLimit c.a.bits % 256 != 0 || decide (capLimit c.a.bits < curOf c.a) || !bankFits c (curOf c.a) n then (bankRefused, s)
  else ({ status := 0, bytes := n, result := noPoison * 2 ^ 32 },
        setMem (bankCharge s c.ctx [] [(c.pa, n)]) (bankWrite s.mem c.pa (List.replicate n 0) []))

/-! ## BKGEMV (R74, R75) -/

structure GDesc where
  n : Nat
  k : Nat
  v : Nat
  wfmt : Nat
  sl : Nat
  yBf16 : Bool
  xoff : Nat
  xstride : Nat
  yoff : Nat
  ystride : Nat
  caps : List CReg
  deriving DecidableEq, Repr, Inhabited
def GDesc.ysize (d : GDesc) : Nat := if d.yBf16 then 2 else 4
/-- bits of a weight; scales follow all formats but BF16 -/
def wBits (f : Nat) : Nat := match f with | 0 => 16 | 2 => 4 | _ => 8
def wLayout (f : Nat) : Fmt := match f with | 0 => .float bf16 | 1 => fmtOf 0x03 | 2 => fmtOf 0x07 | _ => .int 8 true
def gOffOk (c : Cmd) (off stride n v : Nat) : Bool :=
  off % 256 == 0 && stride % 256 == 0 &&
  (List.range v).all (fun i => let va := curOf c.a + off + i * stride; let page := curOf c.a / c.page * c.page; decide (page ≤ va ∧ va + n ≤ page + c.page))
/-- The descriptor of a BKGEMV. R74 places the descriptor, X, Y and the slices in their pages and says nothing of the bounds of A or of a
slice's capability; the model checks the pages alone: its choice (log 61). -/
def gemvDesc (c : Cmd) (s : State) : Option GDesc :=
  let va := curOf c.a
  let r := bankRead s.mem c.pa 64
  let b := r.bytes
  let page := va / c.page * c.page
  let sl := byteAt b 10
  let caps := bankRead s.mem (c.pa + 64) (32 * sl)
  let d : GDesc :=
    { n := numAt b 0 4, k := numAt b 4 4, v := byteAt b 8, wfmt := byteAt b 9, sl := sl, yBf16 := byteAt b 11 == 1,
      xoff := numAt b 12 4, xstride := numAt b 16 4, yoff := numAt b 20 4, ystride := numAt b 24 4,
      caps := (List.range sl).map (fun j => ⟨BitVec.ofNat 192 (numAt caps.bytes (32 * j) 24), s.mem.tags.contains ((c.pa + 64) / 32 + j)⟩) }
  if decide (va % 64 = 0 ∧ va + 64 + 32 * sl ≤ page + c.page ∧ 1 ≤ d.n ∧ d.n ≤ 8192 ∧ 32 ≤ d.k ∧ d.k ≤ 262144 ∧ d.k % 32 = 0 ∧
      1 ≤ d.v ∧ d.v ≤ 8 ∧ d.wfmt ≤ 3 ∧ 1 ≤ sl ∧ sl ≤ 64 ∧ byteAt b 11 ≤ 1) &&
     !r.poison.any id && !caps.poison.any id && ((b.drop 28).take 36).all (· == 0) &&
     gOffOk c d.xoff d.xstride (2 * d.k) d.v && gOffOk c d.yoff d.ystride (d.ysize * d.n) d.v &&
     d.caps.all (fun x => capGood x [0] (permR ||| permE))
  then some d else none

/-- A slice: its first k, its length, and where its weights stand. -/
structure GSlice where
  k0 : Nat
  kn : Nat
  pa : Nat
  deriving DecidableEq, Repr, Inhabited
def sliceBytes (d : GDesc) (kn : Nat) : Nat := 64 + d.n * (kn * wBits d.wfmt / 8) + (if d.wfmt = 0 then 0 else d.n * (kn / 32))
/-- a slice's header read, its page checked (R63, R74) -/
def gemvSlice (c : Cmd) (d : GDesc) (cap : CReg) : KM GSlice := do
  let va := curOf cap
  let x ← kTry bBad bBad bBad (fun s => engPage s c.cluster c.ctx va .load)
  let s ← get
  let l := match tlbFind (cluster s c.cluster).tlb c.ctx va with | some e => e.leaf | none => 0
  kCheck (leafBL l) bBad
  let z := pageSize l
  let page := va / z * z
  kCheck (decide (va + 64 ≤ page + z)) bBad
  let r := bankRead s.mem x.pa 64
  let k0 := numAt r.bytes 0 4
  let kn := numAt r.bytes 4 4
  kCheck (!r.poison.any id && (r.bytes.drop 8).all (· == 0) && decide (k0 % 32 = 0 ∧ kn % 32 = 0 ∧ va + sliceBytes d kn ≤ page + z)) bBad
  pure { k0 := k0, kn := kn, pa := x.pa + 64 }
/-- the slices cover [0, K) in order -/
def covers32 (k : Nat) : Nat → List GSlice → Bool
  | q, [] => q == k
  | q, x :: t => x.k0 == q && covers32 k (q + x.kn) t
def bankBits (m : Mem) (pa w i : Nat) : Nat := readCells m.cells (pa + i * w / 8) ((w + 7) / 8) / 2 ^ (i * w % 8) % 2 ^ w
def bankBad (m : Mem) (pa : Nat) : Bool := m.poison.contains (pa / 64)
/-- weight i stands in a poisoned sector; one of two bytes may straddle two -/
def weightBad (m : Mem) (pa w i : Nat) : Bool := bankBad m (pa + i * w / 8) || bankBad m (pa + (i * w + w - 1) / 8)
/-- one group's contribution: an exact sum scaled, rounded; with the poison it meets. A scale that is the NaN code of E8M0 raises the
NaN-produced flag, though an operand is a NaN code then (R331): the model's choice (log 61) -/
def gemvGroup (m : Mem) (d : GDesc) (g : GSlice) (x : EngData) (row q : Nat) : (Nat × Events) × Bool :=
  let ks := (List.range 32).map (· + 32 * q)
  let wAt (k : Nat) : Nat := row * g.kn + k
  let ws := ks.map (fun k => unpack (wLayout d.wfmt) (bankBits m g.pa (wBits d.wfmt) (wAt k)))
  let xs := ks.map (fun k => unpackF bf16 (numAt x.bytes (2 * (g.k0 + k)) 2))
  let scPa := g.pa + d.n * (g.kn * wBits d.wfmt / 8) + row * (g.kn / 32) + q
  let sc := if d.wfmt = 0 then FVal.num false 1 0 else unpack .e8m0 (readCells m.cells scPa 1)
  let prods := (ws.zip xs).map (fun y => (mulVal y.1 y.2).bind (fun v => mulVal v sc))
  let zeroInf := (ws.zip xs).any (fun y => badProd y.1 y.2)
  let r := match sc with
    | .nan _ _ _ _ => (nanCode fp32 false, evNan ||| (bankTerms fp32 (sc :: ws ++ xs) zeroInf prods).2)
    | _ => bankTerms fp32 (ws ++ xs) zeroInf prods
  let bad := ks.any (fun k => weightBad m g.pa (wBits d.wfmt) (wAt k) || (x.poison.drop (2 * (g.k0 + k))).headD false) ||
             (d.wfmt != 0 && bankBad m scPa)
  (r, bad)
def add32 (a b : Nat) : Nat × Events := bankTerms fp32 [unpackF fp32 a, unpackF fp32 b] false [some (unpackF fp32 a), some (unpackF fp32 b)]
/-- the partial product of a slice for a row -/
def gemvPart (m : Mem) (d : GDesc) (x : EngData) (row : Nat) (g : GSlice) : (Nat × Events) × Bool :=
  (List.range (g.kn / 32)).foldl (fun a q =>
    let r := gemvGroup m d g x row q
    let t := add32 a.1.1 r.1.1
    ((t.1, a.1.2 ||| r.1.2 ||| t.2), a.2 || r.2)) ((0, evNone), false)
def gemvRow (m : Mem) (d : GDesc) (gs : List GSlice) (x : EngData) (row : Nat) : (Nat × Events) × Bool :=
  let ps := gs.map (gemvPart m d x row)
  let sum := match ps with
    | [] => ((0, evNone), false)
    | p :: t => t.foldl (fun a r => let u := add32 a.1.1 r.1.1; ((u.1, a.1.2 ||| r.1.2 ||| u.2), a.2 || r.2)) p
  if d.yBf16 then
    let u := bankTerms bf16 [unpackF fp32 sum.1.1] false [some (unpackF fp32 sum.1.1)]
    ((u.1, sum.1.2 ||| u.2), sum.2)
  else sum
/-- what a BKGEMV reads, each weight once (R75), and writes -/
def gemvReads (c : Cmd) (d : GDesc) (gs : List GSlice) : List HRange :=
  [(c.pa, 64 + 32 * d.sl)] ++ (List.range d.v).map (fun v => (bankPa c (curOf c.a + d.xoff + v * d.xstride), 2 * d.k)) ++
  gs.map (fun g => (g.pa - 64, sliceBytes d g.kn))
def gemvWrites (c : Cmd) (d : GDesc) : List HRange :=
  (List.range d.v).map (fun v => (bankPa c (curOf c.a + d.yoff + v * d.ystride), d.ysize * d.n))
/-- A malformed descriptor is told before a format that is not accepted, and that before a malformed slice (log 53). -/
def gemvRun (c : Cmd) : KM CmdEnd := do
  let s ← get
  match gemvDesc c s with
  | none => kEnd bBad
  | some d => do
    kCheck (s.host.on2.getLsbD d.wfmt) sNotAccepted
    let gs ← kEach (gemvSlice c d) d.caps
    kCheck (covers32 d.k 0 gs) bBad
    let outs := (List.range d.v).map (fun v =>
      let x := bankRead s.mem (bankPa c (curOf c.a + d.xoff + v * d.xstride)) (2 * d.k)
      let rs := (List.range d.n).map (gemvRow s.mem d gs x)
      (v, ({ vals := rs.map (·.1.1), poison := rs.map (·.2), ev := rs.foldl (fun f r => f ||| r.1.2) evNone } : BankOut)))
    modify (fun s => outs.foldl (fun s x => bankStore s (bankPa c (curOf c.a + d.yoff + x.1 * d.ystride)) d.ysize x.2) (bankCharge s c.ctx (gemvReads c d gs) (gemvWrites c d)))
    let first := (outs.flatMap (·.2.poison)).findIdx? id
    let ev := outs.foldl (fun f x => f ||| x.2.ev) evNone
    pure { status := if first.isSome then 0x31 else 0, bytes := d.v * d.n * d.ysize, result := bankResult ev first }

/-! ## The bank engine takes its inbox (R69) -/

def engEnd (s : State) (c : Cmd) (engine : Byte) (r : CmdEnd) : State := complete s c engine r.status r.bytes r.result
/-- the sectors of a channel's window stand in memory as they read (R39) -/
def ripenWindow (m : Mem) (q : Nat) : Mem :=
  if m.stale.isNone then m else ((List.range (linearSize / 64)).map (· + linearBase q / 64)).foldl ripen m
def bankApply (c : Cmd) (held s : State) : State :=
  let s := setMem s (ripenWindow s.mem (channelOfPa c.pa))
  let pure_ (f : Cmd → State → CmdEnd × State) : State := let r := f c s; engEnd r.2 c engBank r.1
  if hbmHeld s c.ctx then held
  else if !hasBank s then engEnd s c engBank { status := sNotAccepted, bytes := 0, result := noPoison * 2 ^ 32 }
  else match c.instr with
    | .bkadd _ _ => pure_ (bankPair false)
    | .bkaxpy _ _ => pure_ (bankPair true)
    | .bkzero _ _ => pure_ bankZero
    | .bkgemv _ _ =>
      (match gemvRun c s with
       | .ok (r, s) => engEnd s c engBank r
       | .error (.status n) => engEnd s c engBank { status := n, bytes := 0, result := noPoison * 2 ^ 32 }
       | .error (.wait w) => keepAsked held w
       | .error .fatal => s)
    | _ => held
/-- the first command of a channel's engine -/
def bankTurn (s : State) (q : Nat) : State :=
  let d := die s (q / 512)
  match d.bank.find? (fun c => channelOfPa c.pa == q) with
  | none => s
  | some c => bankApply c s (setDie s (q / 512) { d with bank := d.bank.eraseP (fun x => channelOfPa x.pa == q) })

/-! ## The copy engine takes its inbox (R453) -/

def copyApply (c : Cmd) (held s : State) : State :=
  match c.instr with
  | .cpy _ _ => endCmd held s c engCopy (cpyRun c)
  | .cpy2d _ _ => endCmd held s c engCopy (cpy2dRun c)
  | .cpfill _ _ => endCmd held s c engCopy (cpfillRun c)
  | _ => held

/-! ## The commands as they are issued (R450, R455, R70) -/

def toCopy (_ : Thread) (s : State) : EngineId := .copy (clusterOf s.cur.core)
def copyKinds : List Nat := [3, 4, 7]
def execCpy (h : Hdr) (o : EngOps) (s : State) : Host.Outcome State Fault Refusal :=
  runState h (fun t s => engRun (.cpy h o) o copyKinds (aCap o permW) (bCap o permR) toCopy t s) s
def execCpy2d (h : Hdr) (o : EngOps) (s : State) : Host.Outcome State Fault Refusal :=
  runState h (fun t s => engRun (.cpy2d h o) o copyKinds (aCap o (permR ||| permC)) noCheck toCopy t s) s
def execCpfill (h : Hdr) (o : EngOps) (s : State) : Host.Outcome State Fault Refusal :=
  runState h (fun t s => engRun (.cpfill h o) o copyKinds (aCap o permW) noCheck toCopy t s) s
/-- R70: the page of A's cursor, with every permission the command needs -/
def bankPage (o : EngOps) (needs : List Need) (w : Who) (t : Thread) : AM (Nat × Nat) := do
  let va := curOf (getC t o.a)
  aFor (fun n => do let _ ← aXlat w va n; pure ()) needs
  let x ← aXlat w va (needs.headD .load)
  match tlbFind (core (← aState) w.k).tlb w.ctx va with
  | some e => do
    aUnless (leafBL e.leaf) (pageFault va)
    -- no range fits an RD page: the command is malformed at its engine (R131)
    pure (x.pa, if x.rd then 0 else pageSize e.leaf)
  | none => aWait
/-- a bank command sent to the engine of the page's channel -/
def bankAM (i : Instr) (o : EngOps) (p : BitVec 7) (needs : List Need) (w : Who) (t : Thread) : AM Thread := do
  aLift (replyCheck t o.d [3, 7])
  aLift (checkHandle (getC t o.a) [0] (p ||| permE))
  let (pa, z) ← bankPage o needs w t
  fun s =>
    match pushInbox s (.bank (channelOfPa pa)) { cmdOf i o t s with acq := false, pa := pa, page := z } with
    | some s => .ok (t, s)
    | none => .error (.wait s)
def bankRun (h : Hdr) (i : Instr) (o : EngOps) (p : BitVec 7) (needs : List Need) (s : State) : Host.Outcome State Fault Refusal :=
  runState h (fun t s => runA (bankAM i o p needs (whoOf s.cur.core t)) t s) s
def execBkadd (h : Hdr) (o : EngOps) (s : State) : Host.Outcome State Fault Refusal :=
  bankRun h (.bkadd h o) o (permR ||| permW) [.load, .store] s
def execBkaxpy (h : Hdr) (o : EngOps) (s : State) : Host.Outcome State Fault Refusal :=
  bankRun h (.bkaxpy h o) o (permR ||| permW) [.load, .store] s
def execBkgemv (h : Hdr) (o : EngOps) (s : State) : Host.Outcome State Fault Refusal :=
  bankRun h (.bkgemv h o) o (permR ||| permW ||| permC) [.load, .store] s
def execBkzero (h : Hdr) (o : EngOps) (s : State) : Host.Outcome State Fault Refusal :=
  bankRun h (.bkzero h o) o permW [.store] s

end Sys2Proof.Machine
end

