-- ==== Sys2Proof/Machine/Trig.lean ====
section
/-! DEFINITION. The angles, sines and cosines of rotations (R231, R441): theta correctly rounded, and a sine or cosine
within 2 ulp of its exact value. -/
namespace Sys2Proof.Machine

/-! ## Roots -/

/-- the largest r below 2^fuel above `r` with r^h * k ≤ n, bit by bit -/
def rootAux (n k h : Nat) : Nat → Nat → Nat
  | 0, r => r
  | i + 1, r => let t := r + 2 ^ i; rootAux n k h i (if t ^ h * k ≤ n then t else r)
/-- bits below the point kept of theta -/
def thetaBits : Nat := 170
/-- R231: theta = rne_fp32(base^(-2i/dh)), for a finite base above 1 -/
def thetaOf (base dh i : Nat) : Nat :=
  match unpackF fp32 base with
  | .num _ m e =>
    if i = 0 then 0x3F800000
    else
      let h := dh / 2
      let n : Nat := 2 ^ ((thetaBits * h : Nat) - e * i : Int).toNat
      let r := rootAux n (m ^ i) h (thetaBits + 1) 0
      (roundF fp32 ctlRne false false r (r ^ h * m ^ i != n) (-(thetaBits : Int))).1
  | _ => 0x3F800000

/-! ## Sine and cosine in fixed point -/

/-- bits below the point -/
def trigBits : Nat := 400
/-- the series of atan(1/q): `p` is 1/q^(2k+1) -/
def atanSeries (q : Nat) : Nat → Nat → Nat → Int
  | 0, _, _ => 0
  | fuel + 1, k, p => ((p / (2 * k + 1) : Nat) : Int) - atanSeries q fuel (k + 1) (p / (q * q))
def twoPi : Int := 2 * (16 * atanSeries 5 100 0 (2 ^ trigBits / 5) - 4 * atanSeries 239 100 0 (2 ^ trigBits / 239))
/-- cosine and sine by their series: `t` is x^n/n! -/
def trigSeries (x : Int) : Nat → Nat → Int → Int × Int
  | 0, _, _ => (0, 0)
  | fuel + 1, n, t =>
    let r := trigSeries x fuel (n + 1) (t * x / 2 ^ trigBits / (n + 1))
    match n % 4 with
    | 0 => (r.1 + t, r.2)
    | 1 => (r.1, r.2 + t)
    | 2 => (r.1 - t, r.2)
    | _ => (r.1, r.2 - t)
/-- the FP32 values within 2 ulp of v * 2^-trigBits, as multiples of the spacing 2^q there -/
def nearFp32 (v : Int) : List Int × Int :=
  let l : Int := (Nat.log2 v.natAbs : Int) - trigBits
  let q : Int := (if v = 0 ∨ l < -126 then -126 else l) - 23
  let u : Int := 2 ^ (q + trigBits).toNat
  (([-2, -1, 0, 1, 2, 3].map (fun d => v / u + d)).filter (fun n => decide ((n * u - v).natAbs ≤ (2 * u).natAbs)), q)
/-- R231: the sine or cosine of p * theta -/
def trigOf (isSin : Bool) (p : Int) (theta : Nat) : Nat :=
  match unpackF fp32 theta with
  | .num n m e =>
    let arg := (if n then -p else p) * m * 2 ^ (e + trigBits).toNat
    let cs := trigSeries (arg % twoPi) 200 0 (2 ^ trigBits)
    let near := nearFp32 (if isSin then cs.2 else cs.1)
    let x := (near.1.drop (Config.freeTrig isSin p theta % near.1.length)).headD 0
    (finOut fp32 ctlRne false (decide (x < 0)) x.natAbs near.2).1
  | _ => 0
/-- R231, R441: a pair rotated: (a*c - b*s, a*s + b*c), each exact and rounded once, from values of a layout -/
def rotatePair (p : FLayout) (ctl : FCtl) (c s : Nat) (a b : FVal) : (Nat × Events) × (Nat × Events) :=
  let k (x : Nat) : FVal := unpackF fp32 x
  (prodsOut p ctl [(a, k c, false), (b, k s, true)], prodsOut p ctl [(a, k s, false), (b, k c, false)])

end Sys2Proof.Machine
end

