-- ==== Sys2Proof/Machine/Kiln.lean ====
section
/-! DEFINITION. The Kiln: groups and their copies, versions, offcuts and the journal (R212-R247, R273, R274, R457-R461,
R480). -/
namespace Sys2Proof.Machine

/-! ## Sequences by their handles (R214) -/

def findSeq (s : State) (ctx : BitVec 12) (va : Nat) : Option Seq := s.work.seqs.find? (fun q => q.ctx == ctx && q.desc == va && q.opn)
/-- the sequence a handle names: its base is the descriptor -/
def seqOfHandle (s : State) (ctx : BitVec 12) (h : CReg) : Option Seq := findSeq s ctx (capBase h.bits)
def kSeq (c : Cmd) : KM Seq := do
  match seqOfHandle (← get) c.ctx c.a with
  | some q => pure q
  | none => kEnd 0x53
def updSeq (s : State) (id : BitVec 32) (f : Seq → Seq) : State :=
  setWork s { s.work with seqs := s.work.seqs.map (fun q => if q.id == id then f q else q) }
def children (s : State) (q : Seq) : List Seq := s.work.seqs.filter (fun x => x.parent == some q.id && x.opn)
/-- R234: the largest FORKLEN of the open children -/
def freezeLen (s : State) (q : Seq) : Nat := (children s q).foldl (fun n x => max n (x.forkLen.getD 0)) 0
def kUnfrozen (q : Seq) (p : Nat) : KM Unit := do kCheck (decide (freezeLen (← get) q ≤ p)) 0x54
/-- nor may a group change that the view names below it -/
def kGroupUnfrozen (q : Seq) (v : List VRun) (g : Nat) : KM Unit := do
  let fl := freezeLen (← get) q
  kCheck (!v.any (fun r => r.run.group == g && decide (r.run.lstart < fl))) 0x54
/-- The descriptor, as a command on the sequence finds it; with the Scribe, the validity map's header is checked too (R248). -/
def kDesc (q : Seq) : KM Desc := do
  let d ← readDesc q
  if hasScribe (← get) then do let _ ← mapCap q d; pure d else pure d
/-- B as a number (R239): bits [63:0] -/
def bNum (c : Cmd) : Nat := (c.b.bits.extractLsb' 0 64).toNat
def bLo (c : Cmd) : Nat := (c.b.bits.extractLsb' 0 32).toNat
def bHi (c : Cmd) : Nat := (c.b.bits.extractLsb' 32 32).toNat
/-- the bytes of an operand range in B's bounds, with poison -/
def kOperand (q : Seq) (c : Cmd) (off n : Nat) : KM EngData := do
  kCheck (decide (curOf c.b + off + n ≤ capLimit c.b.bits ∧ capBase c.b.bits ≤ curOf c.b)) 0x50
  kData q (curOf c.b + off) n

/-! ## The journal (R241-R243) -/

def journalEntry (kind b1 b2 b3 group : Nat) (w1 w2 : Nat) (tail : List Byte) : List Byte :=
  [BitVec.ofNat 8 kind, BitVec.ofNat 8 b1, BitVec.ofNat 8 b2, BitVec.ofNat 8 b3] ++ toBytes 4 group ++ toBytes 4 w1 ++ toBytes 4 w2 ++
  (tail ++ List.replicate (16 - tail.length) 0)
def jMark (n length : Nat) : List Byte := journalEntry 1 0 0 0 0 n length []
def jSlot (rank slot : Nat) (fresh : Bool) (group : Nat) : List Byte := journalEntry 2 rank slot (if fresh then 1 else 0) group 0 0 []
def jGroup (group : Nat) : List Byte := journalEntry 3 0 0 0 group 0 0 []
def jCopy (group old : Nat) : List Byte := journalEntry 4 0 0 0 group old 0 []
def jVersion (rank : Nat) (seasoned closed : Bool) (group addr : Nat) : List Byte :=
  journalEntry 5 rank 0 ((if seasoned then 1 else 0) + (if closed then 2 else 0)) group (addr % 2 ^ 32) (addr / 2 ^ 32) []
def jRun (ix nrun : Nat) (old : List Byte) : List Byte := journalEntry 6 0 0 0 0 ix nrun old
def jLength (n : Nat) : List Byte := journalEntry 7 0 0 0 0 n 0 []
def jRng (old : List Byte) : List Byte := journalEntry 8 0 0 0 0 0 0 old
def journalCap (d : Desc) : Nat := min 65536 ((capLimit d.journal.bits - curOf d.journal - 64) / 32)
/-- entries appended; past CAP the command ends with 0x59 -/
def jWrite (q : Seq) (d : Desc) (es : List (List Byte)) : KM Unit :=
  if !q.jopen || es.isEmpty then pure ()
  else do
    let n ← kNum q (curOf d.journal + 8) 4
    kCheck (decide (n + es.length ≤ journalCap d)) 0x59
    kWrite q (curOf d.journal + 0x40 + 32 * n) es.flatten
    kPut q (curOf d.journal + 8) 4 (n + es.length)
/-- RUN entries for the change from one table to another -/
def runEntries (old new : List Run) : List (List Byte) :=
  let n := old.length
  let changed := (List.range (max n new.length)).filter (fun i => old[i]? != new[i]?)
  changed.map (fun i => jRun i n (match old[i]? with | some r => runBytes r | none => []))

/-! ## Offcuts (R273, R274) -/

def addOffcut (o : Offcut) : KM Unit := modify (fun s => setWork s { s.work with
  moment := s.work.moment + 1, offcuts := s.work.offcuts ++ [{ o with moment := s.work.moment }] })
/-- a page that leaves use now -/
def offcutOf (q : Seq) (d : Desc) (page group : Nat) (rank : Option Nat) (mask : Nat) (seasoned : Bool) : Offcut :=
  { seq := q.id, ctx := q.ctx, pool := pageVa d 0, moment := 0, page := page, group := group, rank := rank, gen := d.gen, mask := mask,
    seasoned := seasoned, released := false, journal := false, back := false }
/-- the version of a block that is replaced -/
def versionCut (q : Seq) (d : Desc) (group rank : Nat) (x : Layer) : Offcut :=
  offcutOf q d (pageIndex d x.addr) group (some rank) x.mask x.seasoned
/-- the page of a version that was replaced: an offcut, held by the journal while one is open (R245) -/
def dropVersion (q : Seq) (d : Desc) (group rank : Nat) (x : Layer) : KM Unit :=
  addOffcut { versionCut q d group rank x with journal := q.jopen }
/-- the sequence's open journal names no page any more -/
def freeJournal (q : Seq) (p : Offcut → Bool) : KM Unit :=
  modify (fun s => setWork s { s.work with offcuts := s.work.offcuts.map (fun o => if o.seq == q.id && p o then { o with journal := false } else o) })
/-- a hold that uses the page, of the sequence or of one that shares its pool through a fork (R232, R274) -/
def holdServes (s : State) (q : Seq) (d : Desc) (o : Offcut) (h : Hold) : Bool :=
  h.granted && (match seqOf s h.seq with | some p => p.ctx == q.ctx | none => false) && (h.blocks ++ h.walked).any (fun b =>
    match o.rank with | some _ => b.page == pageVa d o.page | none => pageVa d b.group == pageVa d o.page)
def servedByHold (s : State) (q : Seq) (d : Desc) (o : Offcut) : Bool := s.work.holds.any (holdServes s q d o)
/-- a hold of another sequence that uses the page -/
def otherHolder (s : State) (q : Seq) (d : Desc) (o : Offcut) : Option Seq :=
  (s.work.holds.find? (fun h => h.seq != q.id && holdServes s q d o h)).bind (fun h => seqOf s h.seq)
def snapServed (s : State) (x : Snap) : Bool :=
  s.work.holds.any (fun h => h.granted && h.seq == x.seq && h.mode == .before && genGe x.gen h.gen)
def updHolds (q : Seq) (p : Hold → Bool) (f : Hold → Hold) (s : State) : State :=
  setWork s { s.work with holds := s.work.holds.map (fun h => if h.seq == q.id && p h then f h else h) }
/-- LENGTH falls to `n`: the numbering there was, and columns that no held position is in any more (R273, R275) -/
def cutNumbering (q : Seq) (d : Desc) (runs : List Run) (n : Nat) : KM Unit := modify (fun s =>
  updHolds q (·.granted) (fun h => { h with cols := h.cols.filter (fun c => decide (c < ncol d n)) })
    (setWork s { s.work with moment := s.work.moment + 1
                             snaps := s.work.snaps ++ [{ seq := q.id, gen := d.gen, moment := s.work.moment, cut := some n, runs := runs,
                                                         length := d.length, edit := none, kept := true }] }))
/-- R274: what is settled and serves no hold returns to the pool -/
def releaseOffcuts (q : Seq) : KM Unit := do
  let d ← readDesc q
  let s ← get
  let due (o : Offcut) : Bool := o.seq == q.id && !o.released && !o.journal && !o.back && genGe d.settled o.gen && !servedByHold s q d o
  kFor (fun o => poolPush q d o.page) (s.work.offcuts.filter due)
  modify (fun s => setWork s { s.work with
    offcuts := (s.work.offcuts.filter (fun o => !(due o && o.rank.isNone))).map (fun o => if due o then { o with released := true } else o)
    snaps := s.work.snaps.map (fun x => if x.seq == q.id && x.kept && genGe d.settled x.gen && !snapServed s x then { x with runs := [], kept := false } else x) })

/-! ## Groups (R217, R218, R235) -/

def ranks (q : Seq) (d : Desc) : KM (List Nat) := do pure (List.range (← causalLayers q d).length)
def emptyLayer (d : Desc) (page : Nat) : Layer := { addr := pageVa d page, seasoned := false, mask := 0, amax := List.replicate d.nhead 0 }
/-- a new group with its pages, zeroed -/
def newGroup (q : Seq) (d : Desc) (closed : Bool) (nalloc : Nat) : KM Nat := do
  let g ← poolPop q d
  zeroPage q d g
  writeGroup q d g { ref := 1, owner := q.id.toNat, nalloc := nalloc, closed := closed, pos := List.replicate d.bt 0 }
  kFor (fun j => do
    let p ← poolPop q d
    zeroPage q d p
    writeLayer q d g j (emptyLayer d p)) (← ranks q d)
  pure g
def setRef (q : Seq) (d : Desc) (g n : Nat) : KM Unit := kPut q (pageVa d g) 4 n
/-- one reference dropped; at 0 the pages leave use: offcuts, or back to the pool at once -/
def dropRef (q : Seq) (d : Desc) (offcut : Bool) (g : Nat) : KM Unit := do
  let x ← readGroup q d g
  setRef q d g (x.ref - 1)
  if x.ref ≤ 1 then
    kFor (fun j => do
      let l ← readLayer q d g j
      addOffcut { versionCut q d g j l with released := !offcut }
      if offcut then pure () else poolPush q d (pageIndex d l.addr)) (← ranks q d)
    if offcut then addOffcut (offcutOf q d g g none 0 false) else poolPush q d g
  else pure ()
/-- What writing a version reports: the flags of R223, and whether a sector was written poisoned. -/
structure Report where
  flags : Nat
  poisoned : Bool
  deriving DecidableEq, Repr, Inhabited
def noReport : Report := { flags := 0, poisoned := false }
def Report.or (a b : Report) : Report := { flags := a.flags ||| b.flags, poisoned := a.poisoned || b.poisoned }
def Report.result (r : Report) (n : Nat) : Nat := n + r.flags + (if r.poisoned then 2 ^ 63 else 0)
/-- a result that is a number: only bit 63 tells of poison (R237, R252, R457, R480) -/
def Report.count (r : Report) (n : Nat) : Nat := n + (if r.poisoned then 2 ^ 63 else 0)
/-- a version page copied whole, with its poison; whether there was any (R480) -/
def copyPage (q : Seq) (d : Desc) (src dst : Nat) : KM Bool := do
  let r ← kData q src 65536
  kRaw q (pageVa d dst) r.bytes
  if r.poison.any id then kPoison q (pageVa d dst) r.poison else pure ()
  pure (r.poison.any id)
def insertRun (r : Run) : List Run → List Run
  | [] => [r]
  | x :: t => if r.lstart ≤ x.lstart then r :: x :: t else x :: insertRun r t
def sortRuns (l : List Run) : List Run := l.foldl (fun t r => insertRun r t) []
/-- R232, R235: the ancestors' runs at or above m stand in the own table, and FORKLEN falls to m; `f` renames groups -/
def lowerFork (q : Seq) (d : Desc) (m : Nat) (f : Run → Run) : KM Unit := do
  let v ← view q d
  let own ← readRuns q d
  let more := (clipView (v.filter (fun x => !x.own)) m (2 ^ 32)).map (·.run)
  writeRuns q d ((sortRuns (own ++ more)).map f)
  modify (fun s => updSeq s q.id (fun q => { q with forkLen := q.forkLen.map (min m) }))
/-- the sequence as the Kiln knows it now -/
def curSeq (q : Seq) : KM Seq := do pure ((seqOf (← get) q.id).getD q)
/-- a walk that reads the groups as they stand names a group by its copy (R230) -/
def renameWalk (id : BitVec 32) (g g' : Nat) (d : Stream) : Stream :=
  match d.kind with
  | .kiln q l lo hi gs none => if q = id then { d with kind := .kiln q l lo hi (gs.map (fun x => if x = g then g' else x)) none } else d
  | _ => d
def renameEntry (id : BitVec 32) (g g' : Nat) : SliceEntry → SliceEntry
  | .sdef n d => .sdef n (renameWalk id g g' d)
  | e => e
def renameWalks (id : BitVec 32) (g g' : Nat) (t : Thread) : Thread :=
  { t with regs := { t.regs with s := t.regs.s.map (·.map (renameWalk id g g')) }, slice := t.slice.map (renameEntry id g g') }
def mapThreads (f : Thread → Thread) (s : State) : State :=
  { s with cores := s.cores.map (fun x => (x.1, { x.2 with thread := x.2.thread.map f }))
           work := { s.work with saved := s.work.saved.map (fun v => { v with threads := v.threads.map (fun x => (x.1, f x.2)) }) } }
/-- what is kept of the sequence's past, and its walks, name a group by the copy that stands for it now -/
def renameKept (q : Seq) (g g' : Nat) (s : State) : State :=
  let s := mapThreads (renameWalks q.id g g') s
  setWork s { s.work with
    snaps := s.work.snaps.map (fun n => if n.seq == q.id then { n with runs := n.runs.map (fun r => if r.group = g then { r with group := g' } else r) } else n)
    offcuts := s.work.offcuts.map (fun o => if o.seq == q.id && o.group == g && o.rank.isSome then { o with group := g' } else o) }
/-- R235: a group with REFCNT > 1 is copied before it is written; its number then, the journal entries, and whether
a page was copied with poison -/
def ownGroup (q : Seq) (d : Desc) (g : Nat) : KM (Nat × List (List Byte) × Report) := do
  let x ← readGroup q d g
  if x.ref ≤ 1 then pure (g, [], noReport)
  else do
    let g' ← newGroup q d x.closed x.nalloc
    writeGroup q d g' { x with ref := 1, owner := q.id.toNat }
    let bad ← kEach (fun j => do
      let l ← readLayer q d g j
      let l' ← readLayer q d g' j
      let b ← copyPage q d l.addr (pageIndex d l'.addr)
      writeLayer q d g' j { l with addr := l'.addr }
      pure b) (← ranks q d)
    let v ← view q d
    let own ← readRuns q d
    let starts := (v.filter (fun r => !r.own && r.run.group == g)).map (·.run.lstart)
    let rename (r : Run) : Run := if r.group = g then { r with group := g' } else r
    match starts with
    | [] => writeRuns q d (own.map rename)
    | a :: t => lowerFork q d (t.foldl min a) rename
    setRef q d g (x.ref - 1)
    modify (renameKept q g g')
    pure (g', jCopy g' g :: runEntries own (← readRuns q d), ⟨0, bad.any id⟩)

/-! ## Versions (R220-R224, R480) -/

def toBf16 (x : Nat) : Nat := (convert ctlRne (.float fp32) (.float bf16) x).1
/-- a green page of BF16 codes -/
def writeGreen (q : Seq) (d : Desc) (mask : Nat) (codes vals : List Nat) (poison : List Bool) (page : Nat) : KM (Layer × Report) := do
  let cs := codes.zipIdx.map (fun c => if mask.testBit (slotOf d c.2) then c.1 else 0)
  writePage q d page (greenBytes cs) 2 poison
  pure ({ addr := pageVa d page, seasoned := false, mask := mask, amax := amaxOf d mask vals poison }, ⟨0, poison.any id⟩)
/-- a seasoned page of FP32 values -/
def writeSeasoned (q : Seq) (d : Desc) (mask : Nat) (vals : List Nat) (poison : List Bool) (page : Nat) : KM (Layer × Report) := do
  let (codes, scales, flags) := seasonBlock d mask (amaxOf d mask vals poison) vals
  writePage q d page (seasonedBytes codes scales) 1 poison
  pure ({ addr := pageVa d page, seasoned := true, mask := mask, amax := List.replicate d.nhead 0 }, ⟨flags, poison.any id⟩)
/-- publish a version of a block (R224 step 6); the journal entry it needs -/
def publish (q : Seq) (d : Desc) (g j : Nat) (closed : Bool) (old new : Layer) : KM (List (List Byte)) := do
  writeLayer q d g j new
  dropVersion q d g j old
  pure [jVersion j old.seasoned closed g old.addr]
/-- R221: a green block seasoned -/
def seasonLayer (q : Seq) (d : Desc) (g j : Nat) (closed : Bool) : KM (List (List Byte) × Report) := do
  let x ← readLayer q d g j
  let b ← readBlock q d x
  let page ← poolPop q d
  let (y, r) ← writeSeasoned q d x.mask b.vals b.poison page
  pure (← publish q d g j closed x y, r)
def fullMask (d : Desc) : Nat := 2 ^ d.bt - 1
/-- codes of a version as BF16: the page's own when it is green -/
def greenCodes (x : Layer) (b : Block) : List Nat := if x.seasoned then b.vals.map toBf16 else b.codes
/-- R224: the elements of some slots replaced; `news` gives code and poison of an element that is -/
def patchLayer (q : Seq) (d : Desc) (g j : Nat) (nalloc : Nat) (closed : Bool) (bits : Nat) (news : Nat → Option (Nat × Bool)) :
    KM (List (List Byte) × Report) := do
  let x ← readLayer q d g j
  let b ← readBlock q d x
  let mask := x.mask ||| bits
  let codes := (greenCodes x b).zipIdx.map (fun c => match news c.2 with | some n => n.1 | none => c.1)
  let vals := b.vals.zipIdx.map (fun c => match news c.2 with | some n => bf16To32 n.1 | none => c.1)
  let poison := b.poison.zipIdx.map (fun c => match news c.2 with | some n => n.2 | none => c.1)
  let page ← poolPop q d
  let (y, r) ← (if x.seasoned || (mask == fullMask d && nalloc == d.bt) then writeSeasoned q d mask vals poison page
    else writeGreen q d mask codes vals poison page)
  pure (← publish q d g j closed x y, r)
/-- R237: some slots of a block lose their marks and their elements; a seasoned block keeps its scales -/
def clearSlots (q : Seq) (d : Desc) (g j bits : Nat) : KM Report := do
  let x ← readLayer q d g j
  if x.mask &&& bits = 0 then pure noReport
  else do
    let b ← readBlock q d x
    let gone (i : Nat) : Bool := bits.testBit (slotOf d i)
    let mask := x.mask &&& (fullMask d - (bits &&& fullMask d))
    let codes := b.codes.zipIdx.map (fun c => if gone c.2 then 0 else c.1)
    let poison := b.poison.zipIdx.map (fun c => c.1 && !gone c.2)
    let page ← poolPop q d
    let y ← (if x.seasoned then do
        writePage q d page (seasonedBytes codes b.scales) 1 poison
        pure { x with addr := pageVa d page, mask := mask }
      else do
        let (y, _) ← writeGreen q d mask codes b.vals poison page
        pure y)
    let _ ← publish q d g j false x y
    pure ⟨0, poison.any id⟩

/-! ## KVAPP (R227, R236, R239) -/

/-- the open group that takes the next slot -/
def tailGroup (q : Seq) (d : Desc) (v : List VRun) : KM (Option Nat) := do
  match (if d.length = 0 then none else viewAt v (d.length - 1)) with
  | none => pure none
  | some x => do
    let g ← readGroup q d x.run.group
    pure (if !g.closed && g.nalloc < d.bt then some x.run.group else none)
/-- R249: a column's cells begin VALID -/
def beginColumn (q : Seq) (d : Desc) (gen : BitVec 32) (c : Nat) : KM Unit := do
  let cap ← mapCap q d
  kCheck (decide (c < cap)) 0x50
  kFor (fun l => putCell q d cap l c { state := cValid, gen := gen.toNat, play := 0 }) (List.range (d.nlayer + 1))
def endColumns (q : Seq) (d : Desc) (lo hi : Nat) : KM Unit := do
  let cap ← mapCap q d
  kFor (fun l => kFor (fun i => kPut q (cellVa d cap l (lo + i)) 4 0) (List.range (hi - lo))) (List.range (d.nlayer + 1))
def withScribe (f : KM Unit) : KM Unit := do if hasScribe (← get) then f else pure ()
/-- the run that a new slot joins, or a new run at the end of the own table -/
def appendRun (own : List Run) (p g s : Nat) : List Run :=
  match own.getLast? with
  | some r => if r.group = g ∧ r.lstart + r.len = p ∧ r.slot + r.len = s then own.dropLast ++ [{ r with len := r.len + 1 }]
              else own ++ [{ lstart := p, len := 1, group := g, slot := s }]
  | none => [{ lstart := p, len := 1, group := g, slot := s }]
/-- a slot for position p = LENGTH: group, slot, journal entries, and the report of a copy -/
def allocSlot (q : Seq) (d : Desc) : KM (Nat × Nat × List (List Byte) × Report) := do
  let v ← view q d
  let (g, e1, rep) ← (match (← tailGroup q d v) with
    | some g => ownGroup q d g
    | none => do let g ← newGroup q d false 0; pure (g, [jGroup g], noReport))
  let x ← readGroup q d g
  let own ← readRuns q d
  let own' := appendRun own d.length g x.nalloc
  writeRuns q d own'
  writeGroup q d g { x with nalloc := x.nalloc + 1, pos := x.pos.set x.nalloc d.length }
  setLength q (d.length + 1)
  withScribe (if d.length % d.st = 0 then beginColumn q d d.gen (d.length / d.st) else pure ())
  pure (g, x.nalloc, e1 ++ runEntries own own' ++ [jLength d.length], rep)
/-- the elements of a slot written green in place, or through a new version when the block is seasoned -/
def writeSlot (q : Seq) (d : Desc) (g j s : Nat) (r : EngData) : KM (List (List Byte) × Report) := do
  let x ← readLayer q d g j
  let gr ← readGroup q d g
  let n := perSlot d
  let codes := numsOf r.bytes 2 n
  let bad := anyN 2 n r.poison
  if x.seasoned then
    patchLayer q d g j gr.nalloc gr.closed (2 ^ s) (fun i => if slotOf d i = s then some ((codes.drop (i % n)).headD 0, (bad.drop (i % n)).headD false) else none)
  else do
    let va := x.addr + s * n * 2
    kRaw q va r.bytes
    if r.poison.any id then kPoison q va r.poison else pure ()
    let amax := x.amax.zipIdx.map (fun a => ((codes.zip bad).zipIdx.foldl (fun m y =>
      if headOf d y.2 = a.2 && !y.1.2 then maxAbs m (bf16To32 y.1.1) else m) a.1))
    let x' := { x with mask := x.mask ||| 2 ^ s, amax := amax }
    writeLayer q d g j x'
    let rep : Report := ⟨0, r.poison.any id⟩
    if x'.mask = fullMask d then do
      let (e, r2) ← seasonLayer q d g j gr.closed
      pure (e, rep.or r2)
    else pure ([], rep)
def layerRank (q : Seq) (d : Desc) (l : Nat) : KM Nat := do
  match rankOf (← causalLayers q d) l with
  | some j => pure j
  | none => kEnd 0x50
def cmdLayer (c : Cmd) : Nat := (c.cmd.extractLsb' 18 9).toNat
def kvapp (c : Cmd) : KM CmdEnd := do
  let q ← kSeq c
  let d ← kDesc q
  kCheck (decide (1 ≤ cmdLayer c ∧ cmdLayer c ≤ d.nlayer)) 0x50
  let j ← layerRank q d (cmdLayer c)
  let r ← kOperand q c 0 (2 * perSlot d)
  let v ← view q d
  -- the last position's slot lacks the layer
  let lacks ← (match (if d.length = 0 then none else viewAt v (d.length - 1)) with
    | none => pure none
    | some x => do
      let s := slotAt x.run (d.length - 1)
      let l ← readLayer q d x.run.group j
      pure (if l.mask.testBit s then none else some (x.run.group, s)))
  let (g, s, e, rep1) ← (match lacks with
    | some (g, s) => do
      kUnfrozen q (d.length - 1)
      let (g, e, rep) ← ownGroup q d g
      pure (g, s, e, rep)
    | none => allocSlot q d)
  let q ← curSeq q
  let (e2, rep2) ← writeSlot q d g j s r
  let rep := rep1.or rep2
  let (pre, post) := splitEntries lacks.isSome e
  jWrite q d (pre ++ [jSlot j s lacks.isNone g] ++ post ++ e2)
  releaseOffcuts q
  pure { status := 0, bytes := 0, result := rep.result 0 }
where
  /-- R243: the copy or the group stand before SLOT, the run and the length after it -/
  splitEntries (found : Bool) (e : List (List Byte)) : List (List Byte) × List (List Byte) :=
    if found then (e, []) else (e.take (e.length - 2), e.drop (e.length - 2))

/-! ## KVSEAL, KVPATCH, KVSTAT (R459-R461) -/

def kvseal (c : Cmd) : KM CmdEnd := do
  let q ← kSeq c
  let d ← kDesc q
  let p := bNum c
  kCheck (decide (p < d.length)) 0x50
  let v ← view q d
  match viewAt v p with
  | none => kEnd 0x50
  | some x => do
    let g := x.run.group
    kGroupUnfrozen q v g
    let gr ← readGroup q d g
    let js ← ranks q d
    let green ← kEach (fun j => do pure (j, (← readLayer q d g j).seasoned)) js
    let todo := (green.filter (fun y => !y.2)).map (·.1)
    if gr.closed && todo.isEmpty then pure { status := 0, bytes := 0, result := 0 }
    else do
      let (g, e, rep) ← ownGroup q d g
      let q ← curSeq q
      let rs ← kEach (fun j => seasonLayer q d g j gr.closed) todo
      let gr ← readGroup q d g
      writeGroup q d g { gr with closed := true }
      jWrite q d (e ++ rs.flatMap (·.1))
      releaseOffcuts q
      pure { status := 0, bytes := 0, result := (rs.foldl (fun a x => a.or x.2) rep).result 0 }
def kvpatch (c : Cmd) : KM CmdEnd := do
  let q ← kSeq c
  let d ← kDesc q
  let l := cmdLayer c
  kCheck (decide (1 ≤ l ∧ l ≤ d.nlayer)) 0x50
  let j ← layerRank q d l
  let h ← kOperand q c 0 16
  kCheck (!h.poison.any id) sBad
  let first := numAt h.bytes 0 4
  let count := numAt h.bytes 4 4
  kCheck (decide (1 ≤ count ∧ count ≤ d.bt ∧ first + count ≤ d.length) && numAt h.bytes 8 8 == 0) 0x50
  let v ← view q d
  let at_ := (List.range count).map (fun i => (viewAt v (first + i)).map (fun x => (x.run.group, slotAt x.run (first + i))))
  match optEach id at_ with
  | none => kEnd 0x50
  | some places => do
    let g := (places.headD (0, 0)).1
    kCheck (places.all (fun x => x.1 == g)) 0x50
    let data ← kOperand q c 16 (count * 2 * perSlot d)
    kGroupUnfrozen q v g
    let (g, e, rep1) ← ownGroup q d g
    let q ← curSeq q
    let gr ← readGroup q d g
    let n := perSlot d
    let codes := numsOf data.bytes 2 (count * n)
    let bad := anyN 2 (count * n) data.poison
    let slots := places.map (·.2)
    let news (i : Nat) : Option (Nat × Bool) :=
      (slots.findIdx? (· == slotOf d i)).map (fun k => ((codes.drop (k * n + i % n)).headD 0, (bad.drop (k * n + i % n)).headD false))
    let (e2, rep) ← patchLayer q d g j gr.nalloc gr.closed (slots.foldl (fun m s => m ||| 2 ^ s) 0) news
    jWrite q d (e ++ e2)
    releaseOffcuts q
    pure { status := 0, bytes := 0, result := (rep1.or rep).result 0 }
/-- an EDINS or EDDEL waits (R257) -/
def isMoving (i : Instr) : Bool := match i with | .edins _ _ => true | .eddel _ _ => true | _ => false
def editWaits (s : State) (q : Seq) : Bool := s.work.edits.any (fun e => e.seq == q.id && e.cmds.any (fun c => isMoving c.instr))
def kvstat (c : Cmd) : KM CmdEnd := do
  let q ← kSeq c
  let d ← kDesc q
  kCheck (decide (capBase c.b.bits ≤ curOf c.b ∧ curOf c.b + 64 ≤ capLimit c.b.bits)) 0x50
  let s ← get
  let nrun ← kNum q (curOf d.posroot) 4
  let nent ← (if q.jopen then kNum q (curOf d.journal + 8) 4 else pure 0)
  let nmark ← (if q.jopen then kNum q (curOf d.journal + 16) 4 else pure 0)
  let flags := (if q.jopen then 1 else 0) + (if editWaits s q then 2 else 0)
  let items := (s.work.items.filter (fun x => x.seq == q.id)).length
  let w (n : Nat) : List Byte := toBytes 4 n
  kRaw q (curOf c.b) (w d.length ++ w (q.forkLen.getD 0xFFFFFFFF) ++ w d.gen.toNat ++ w d.settled.toNat ++ w nrun ++ w (children s q).length ++
    w (freezeLen s q) ++ w nent ++ w nmark ++ w flags ++ w items ++ w q.id.toNat ++ List.replicate 16 0)
  pure { status := 0, bytes := 0, result := d.length }

/-! ## KVTRUNC (R237) -/

/-- marked slots of a group among runs, as bits -/
def slotBits (v : List VRun) (g : Nat) : Nat :=
  (v.filter (fun x => x.run.group == g)).foldl (fun m x => m ||| ((2 ^ x.run.len - 1) * 2 ^ x.run.slot)) 0
/-- positions taken out of the view: groups that leave it drop a reference, the others lose the slots (R237, R255).
`gone` and `kept` are the runs before and after. -/
def removeSlots (q : Seq) (d : Desc) (gone kept : List VRun) : KM Report := do
  let live := groupsOf kept
  kFor (dropRef q d true) ((groupsOf gone).filter (fun g => !live.contains g))
  let rs ← kEach (fun g => do
    let bits := slotBits gone g
    let q ← curSeq q
    let (g, _, rep) ← ownGroup q d g
    let js ← ranks q d
    let rs ← kEach (fun j => clearSlots q d g j bits) js
    pure (rs.foldl Report.or rep)) ((groupsOf gone).filter live.contains)
  pure (rs.foldl Report.or noReport)
def kvtrunc (c : Cmd) : KM CmdEnd := do
  let q ← kSeq c
  let d ← kDesc q
  let n := bNum c
  kCheck (!q.jopen) 0x58
  kCheck (decide (n ≤ d.length)) 0x50
  if n = d.length then pure { status := 0, bytes := 0, result := 0 }
  else do
    kUnfrozen q n
    let v ← view q d
    kFor (kGroupUnfrozen q v) (groupsOf (clipView v n d.length))
    cutNumbering q d (v.map (·.run)) n
    let own ← readRuns q d
    writeRuns q d (own.filterMap (fun r => clipRun r 0 n))
    modify (fun s => updSeq s q.id (fun q => { q with forkLen := q.forkLen.map (min n) }))
    setLength q n
    let q ← curSeq q
    let rep ← removeSlots q d (clipView v n d.length) (clipView v 0 n)
    withScribe (endColumns q d (ncol d n) (ncol d d.length))
    releaseOffcuts q
    pure { status := 0, bytes := 0, result := rep.count (d.length - n) }

/-! ## Opening, forking and closing (R214, R233) -/

def seqCap : Nat := 65536
def capFor (c : CReg) (p : BitVec 7) : Bool := capGood c [0] p
/-- FP16, finite, not negative -/
def fp16Ok (x : Nat) : Bool := decide (x % 32768 / 1024 ≠ 31) && (decide (x < 32768) || x == 32768)
/-- R213; what the reserved bytes of a layer entry hold is ignored (R5) -/
def modelOk (q : Seq) (d : Desc) : KM Bool := do
  let va := curOf d.model
  let h ← kBytes q va 64
  let es ← kEach (fun l => kBytes q (va + 0x40 + 64 * l) 32) (List.range (d.nlayer + 1))
  let good (b : List Byte) : Bool :=
    decide (byteAt b 0 ≤ 2) && fp16Ok (numAt b 2 2) && fp16Ok (numAt b 4 2)
  let nc := (es.filter (fun b => byteAt b 0 == 0)).length
  pure (numAt h 0 4 == 0x4D4F444C && numAt h 4 2 == d.nlayer && (h.drop 6).all (· == 0) && es.all good &&
    byteAt (es.headD []) 0 == 2 && decide (nc ≤ 126))
/-- the checks of SEQOPEN on a descriptor; q is its candidate -/
def openCheck (q : Seq) : KM Desc := do
  kCheck (decide (q.desc % 256 = 0)) 0x50
  let x ← kLift (fun s => engPage s (seqCl q) q.ctx q.desc .load)
  kCheck (x.ct && !x.ms && !x.so && !x.un && !x.rd && x.peer == 0 && decide (x.pa < hostBase) &&
    decide (dieOfPa x.pa = q.die)) 0x50
  let d ← readDesc q
  let zero ← kBytes q (q.desc + 0xE0) 32
  kCheck (d.length == 0 && d.gen == 0 && d.settled == 0 && d.depth == 0 && !d.parent.tag && zero.all (· == 0)) 0x50
  let jz ← kBytes q (q.desc + 0xA0) 32
  kCheck (capFor d.model permR && capFor d.posroot (permR ||| permW) && capFor d.pool (permR ||| permW) && capFor d.dirty (permR ||| permW) &&
    capFor d.rng (permR ||| permW) && decide (capBase d.rng.bits ≤ curOf d.rng ∧ curOf d.rng + 16 ≤ capLimit d.rng.bits) &&
    (capFor d.journal (permR ||| permW) || (!d.journal.tag && jz.all (· == 0)))) 0x50
  kCheck (← modelOk q d) 0x50
  let _ ← tableCap q d
  pure d
def homeFull (s : State) (dn : Nat) : Bool := decide ((s.work.seqs.filter (fun q => q.opn && q.die == dn)).length ≥ seqCap)
/-- the sequence handle: the descriptor capability's permissions without C -/
def seqHandle (c : CReg) (va : Nat) : CReg :=
  ⟨mkCap 6 (capPerms c.bits &&& ~~~permC) va (va + 256) (BitVec.ofNat 64 va), true⟩
def newSeq (ctx : BitVec 12) (dn va : Nat) : Seq :=
  { id := 0, die := dn, ctx := ctx, desc := va, forkLen := none, parent := none, opn := true, jopen := false }
/-- number and register a sequence; SEQID stands in its descriptor -/
def register (q : Seq) : KM Seq := do
  let s ← get
  let q := { q with id := s.work.nextSeq }
  set (setWork s { s.work with seqs := q :: s.work.seqs, nextSeq := s.work.nextSeq + 1 })
  kPut q (q.desc + 0x14) 4 q.id.toNat
  pure q
def bodyCap (c : Cmd) (o : Nat) : CReg := ⟨BitVec.ofNat 192 (numAt c.body o 24), (c.bodyTags.drop (o / 32)).headD false⟩
def seqopen (dn : Nat) (c : Cmd) : KM CmdEnd := do
  kCheck (hasKiln (← get)) sNotAccepted
  let dc := bodyCap c 0
  let oc := bodyCap c 32
  kCheck (capGood dc [0] (permR ||| permW ||| permC ||| permE) && decide (capBase dc.bits ≤ curOf dc ∧ curOf dc + 256 ≤ capLimit dc.bits) &&
    capGood oc [0] (permW ||| permC) && decide (curOf oc % 32 = 0 ∧ capBase oc.bits ≤ curOf oc ∧ curOf oc + 32 ≤ capLimit oc.bits)) 0x50
  let q0 := newSeq c.ctx dn (curOf dc)
  let d ← openCheck q0
  kCheck (!homeFull (← get) dn) 0x51
  let q ← register q0
  kPut q (curOf d.posroot) 4 0
  kPutCap q (curOf oc) (seqHandle dc q.desc)
  pure { status := 0, bytes := 0, result := q.id.toNat }
/-- R233: two capabilities of one base -/
def sameBase (a b : CReg) : Bool := capBase a.bits == capBase b.bits
def kvfork (c : Cmd) : KM CmdEnd := do
  let p ← kSeq c
  let d ← kDesc p
  kCheck (d.settled == d.gen) 0x55
  kCheck (!p.jopen) 0x58
  kCheck (decide (d.depth < 4)) 0x56
  let va := curOf c.b
  kCheck (decide (capBase c.b.bits ≤ va ∧ va + 0x120 ≤ capLimit c.b.bits)) 0x50
  let q0 : Seq := { newSeq c.ctx p.die va with forkLen := some d.length, parent := some p.id }
  let e ← openCheck q0
  kCheck (decide (e.nlayer = d.nlayer ∧ e.nhead = d.nhead ∧ e.logdh = d.logdh ∧ e.logbt = d.logbt ∧ e.logst = d.logst ∧ e.rope = d.rope) &&
    sameBase e.model d.model && sameBase e.pool d.pool) 0x50
  let v ← view p d
  let tail ← tailGroup p d v
  let copies := (v.filter (fun x => some x.run.group == tail)).map (·.run)
  let cap ← kNum q0 (curOf e.posroot + 4) 4
  kCheck (decide (1 + copies.length ≤ cap)) 0x50
  kCheck (!homeFull (← get) p.die) 0x51
  kFor (fun g => do let x ← readGroup p d g; setRef p d g (x.ref + 1)) (groupsOf v)
  let q ← register q0
  writeRuns q e (sortRuns copies)
  setLength q d.length
  kPut q (va + 5) 1 (d.depth + 1)
  kPutCap q (va + 0xE0) c.a
  setGen q d.gen
  setSettled q d.settled
  kWrite q (curOf e.rng) (← kBytes p (curOf d.rng) 16)
  withScribe (do
    let pc ← mapCap p d
    let qc ← mapCap q e
    kCheck (decide (pc ≤ qc)) 0x50
    kFor (fun l => kFor (fun k => do putCell q e qc l k (← getCell p d pc l k)) (List.range (ncol d d.length))) (List.range (d.nlayer + 1)))
  kPutCap q (va + 0x100) (seqHandle c.b va)
  pure { status := 0, bytes := 0, result := q.id.toNat }
/-- the entries of an open journal, by their bytes -/
def journalEntries (q : Seq) (d : Desc) : KM (List (List Byte)) := do
  let n ← kNum q (curOf d.journal + 8) 4
  kEach (fun i => kBytes q (curOf d.journal + 0x40 + 32 * i) 32) (List.range n)
def isVersion (b : List Byte) : Bool := b.head? == some 5
def versionPages (d : Desc) (es : List (List Byte)) : List Nat := (es.filter isVersion).map (fun b => pageIndex d (numAt b 8 8))
/-- an offcut of a sequence that ends returns to the pool; one that another sequence's hold serves is that sequence's from now on, and
released after the hold (R274) -/
def closeOffcut (q : Seq) (d : Desc) (o : Offcut) : KM Unit := do
  let s ← get
  match otherHolder s q d o with
  | some p => do
    let pd ← readDesc p
    modify (fun s => setWork s { s.work with offcuts := s.work.offcuts.map (fun x => if x == o then { o with seq := p.id, gen := pd.settled, journal := false } else x) })
  | none => poolPush q d o.page
/-- the end of a sequence: references, offcuts and held pages go to the pool, and what the Scribe holds of it is gone -/
def endSeq (q : Seq) : KM Unit := do
  let d ← readDesc q
  let v ← view q d
  kFor (dropRef q d false) (groupsOf v)
  let s ← get
  kFor (closeOffcut q d) (s.work.offcuts.filter (fun o => o.seq == q.id && !o.released && !o.back))
  kFor (fun r => if r.seq == q.id then kFor (poolPush q d) r.pages else pure ()) s.work.rotations
  -- that a version is gone is remembered while another sequence of the context may ask for it
  let family (s : State) : Bool := s.work.seqs.any (fun x => x.ctx == q.ctx && x.id != q.id)
  modify (fun s => setWork s { s.work with
    seqs := s.work.seqs.filter (fun x => x.id != q.id)
    offcuts := if family s then s.work.offcuts.map (fun o => if o.seq == q.id then { o with released := true } else o)
               else s.work.offcuts.filter (fun o => o.seq != q.id)
    snaps := s.work.snaps.filter (fun o => o.seq != q.id), waves := s.work.waves.filter (fun o => o.seq != q.id),
    items := s.work.items.filter (fun o => o.seq != q.id), holds := s.work.holds.filter (fun o => o.seq != q.id),
    rotations := s.work.rotations.filter (fun o => o.seq != q.id) })
/-- R278: a result word with an error alone -/
def errWord (n : Nat) : W128 := BitVec.ofNat 128 (n * 2 ^ 24)
/-- what waits at the Scribe for the sequence ends: a SETTLE with 0x53, an after hold with ERR 3 -/
def endWaits (q : Seq) : KM Unit := modify (fun s =>
  let (a, b) := s.work.settles.partition (fun x => x.seq == q.id)
  let s := a.foldl (fun s x => complete s x.cmd engScribe 0x53 0 0) (setWork s { s.work with settles := b })
  (s.work.holds.filter (fun h => h.seq == q.id && !h.granted)).foldl (fun s h => answer s h.core h.req (errWord 3)) s)
/-- what arrived before a command and waits at the Scribe: a SETTLE, an after hold -/
def earlierWaits (s : State) (q : Seq) (req : Nat) : Bool :=
  s.work.settles.any (fun x => x.seq == q.id && decide (x.cmd.req < req)) ||
  s.work.holds.any (fun h => h.seq == q.id && !h.granted && decide (h.req < req))
def seqclose (c : Cmd) : KM CmdEnd := do
  kCheck (hasKiln (← get)) sNotAccepted
  let h := bodyCap c 0
  kCheck (capGood h [6] 0) 0x50
  match seqOfHandle (← get) c.ctx h with
  | none => kEnd 0x53
  | some q => do
    let _ ← kDesc q
    kCheck ((children (← get) q).isEmpty) 0x52
    if earlierWaits (← get) q c.req then kWait else pure ()
    endSeq q
    pure { status := 0, bytes := 0, result := 0 }

/-! ## The journal's commands (R242, R244, R245) -/

def rngValue (q : Seq) (d : Desc) : KM (List Byte) := kBytes q (curOf d.rng) 16
def setJournal (q : Seq) (on : Bool) : KM Unit := modify (fun s => updSeq s q.id (fun q => { q with jopen := on }))
def kvjopen (c : Cmd) : KM CmdEnd := do
  let q ← kSeq c
  let d ← kDesc q
  kCheck (!q.jopen) 0x57
  kCheck (d.settled == d.gen) 0x55
  kCheck (capFor d.journal (permR ||| permW) && decide (1 ≤ journalCap d ∧ curOf d.journal % 64 = 0)) 0x50
  let va := curOf d.journal
  kWrite q va (toBytes 4 0x4A524E4C ++ [1, 0, 0, 0] ++ toBytes 4 0 ++ toBytes 4 (journalCap d) ++ toBytes 4 0)
  setJournal q true
  pure { status := 0, bytes := 0, result := 0 }
def kvjmark (c : Cmd) : KM CmdEnd := do
  let q ← kSeq c
  let d ← kDesc q
  kCheck q.jopen 0x57
  kCheck (decide (bNum c < 2 ^ 32)) 0x50
  let old ← rngValue q d
  let n ← kNum q (curOf d.journal + 16) 4
  jWrite q d [jRng old, jMark (n + 1) d.length]
  kWrite q (curOf d.rng) (toBytes 16 ((leNat old + bNum c) % 2 ^ 128))
  kPut q (curOf d.journal + 16) 4 (n + 1)
  pure { status := 0, bytes := 0, result := 0 }
/-- bytes a kind leaves 0 -/
def entryRest (kind : Nat) : List Nat :=
  let used := match kind with
    | 1 => [0, 8, 9, 10, 11, 12, 13, 14, 15]
    | 2 => [0, 1, 2, 3, 4, 5, 6, 7]
    | 3 => [0, 4, 5, 6, 7]
    | 4 => [0, 4, 5, 6, 7, 8, 9, 10, 11]
    | 5 => [0, 1, 3, 4, 5, 6, 7, 8, 9, 10, 11, 12, 13, 14, 15]
    | 6 => 0 :: (List.range 24).map (· + 8)
    | 7 => [0, 8, 9, 10, 11]
    | _ => 0 :: (List.range 16).map (· + 16)
  (List.range 32).filter (fun i => !used.contains i)
def jEntryOk (d : Desc) (nc : Nat) (b : List Byte) : Bool :=
  let k := byteAt b 0
  decide (1 ≤ k ∧ k ≤ 8) && (entryRest k).all (fun i => byteAt b i == 0) &&
  (if k = 2 then decide (byteAt b 1 < nc ∧ byteAt b 2 < d.bt ∧ byteAt b 3 ≤ 1) else if k = 5 then decide (byteAt b 1 < nc ∧ byteAt b 3 ≤ 3) else true)
def kFatal {α : Type} : KM α := fun _ => .error .fatal
/-- a hold that has not been freed shows a slot of a page (R282) -/
def slotHeld (s : State) (ctx : BitVec 12) (page slot : Nat) : Bool :=
  s.work.holds.any (fun h => h.granted && !h.freed && (match seqOf s h.seq with | some p => p.ctx == ctx | none => false) &&
    (h.blocks ++ h.walked).any (fun b => b.page == page && b.slots.any (·.1 == slot)))
/-- a slot's mark and elements taken out of the current version in place; the command waits while a hold shows the slot (log 60) -/
def undoSlot (q : Seq) (d : Desc) (g j s : Nat) (fresh : Bool) : KM Unit := do
  let x ← readLayer q d g j
  if slotHeld (← get) q.ctx x.addr s then kWait else pure ()
  let e := if x.seasoned then 1 else 2
  kRaw q (x.addr + s * perSlot d * e) (List.replicate (perSlot d * e) 0)
  let mask := x.mask &&& (fullMask d - 2 ^ s)
  let b ← readBlock q d x
  writeLayer q d g j { x with mask := mask, amax := if x.seasoned then x.amax else amaxOf d mask b.vals b.poison }
  if fresh then do
    let gr ← readGroup q d g
    writeGroup q d g { gr with nalloc := gr.nalloc - 1, pos := gr.pos.set s 0 }
  else pure ()
def undoVersion (q : Seq) (d : Desc) (g j : Nat) (seasoned closed : Bool) (addr : Nat) : KM Unit := do
  let x ← readLayer q d g j
  addOffcut (versionCut q d g j x)
  modify (fun s => setWork s { s.work with offcuts := s.work.offcuts.map (fun o =>
    if o.seq == q.id && o.journal && o.page == pageIndex d addr && o.group == g && o.rank == some j
    then { o with journal := false, back := true } else o) })
  let y : Layer := { x with addr := addr, seasoned := seasoned }
  let b ← readBlock q d y
  writeLayer q d g j { y with amax := if seasoned then List.replicate d.nhead 0 else amaxOf d x.mask b.vals b.poison }
  let gr ← readGroup q d g
  writeGroup q d g { gr with closed := closed }
/-- R242: the undo of one entry -/
def undoEntry (q : Seq) (d : Desc) (b : List Byte) : KM Unit := do
  let g := numAt b 4 4
  match byteAt b 0 with
  | 2 => undoSlot q d g (byteAt b 1) (byteAt b 2) (byteAt b 3 == 1)
  | 3 => dropRef q d true g
  | 4 => do
    let old := numAt b 8 4
    let x ← readGroup q d old
    setRef q d old (x.ref + 1)
    modify (renameKept q g old)
    dropRef q d true g
  | 5 => undoVersion q d g (byteAt b 1) ((byteAt b 3).testBit 0) ((byteAt b 3).testBit 1) (numAt b 8 8)
  | 6 => do
    kWrite q (curOf d.posroot + 0x40 + 16 * numAt b 8 4) (b.drop 16)
    kPut q (curOf d.posroot) 4 (numAt b 12 4)
  | 7 => setLength q (numAt b 8 4)
  | 8 => kWrite q (curOf d.rng) (b.drop 16)
  | _ => pure ()
/-- the first position from which the own runs cover all up to a length -/
def coverFrom (n : Nat) (own : List Run) : Nat := own.foldr (fun r m => if r.lstart + r.len = m then r.lstart else m) n
def kvjundo (c : Cmd) : KM CmdEnd := do
  let q ← kSeq c
  let d ← kDesc q
  kCheck q.jopen 0x57
  let k := bNum c
  let nmark ← kNum q (curOf d.journal + 16) 4
  kCheck (decide (k ≤ nmark)) 0x50
  let es ← journalEntries q d
  let nc := (← causalLayers q d).length
  let stop := if k = 0 then 0 else match es.findIdx? (fun b => byteAt b 0 == 1 && numAt b 8 4 == k) with | some i => i + 1 | none => es.length
  let undone := es.drop stop
  if !undone.all (jEntryOk d nc) then kFatal
  else do
    -- R234: no length below the freeze
    kFor (fun b => if byteAt b 0 = 7 then kUnfrozen q (numAt b 8 4) else pure ()) undone
    let v ← view q d
    kFor (undoEntry q d) undone.reverse
    kPut q (curOf d.journal + 8) 4 stop
    kPut q (curOf d.journal + 16) 4 k
    let d2 ← readDesc q
    let own ← readRuns q d2
    if d2.length < d.length then cutNumbering q d (v.map (·.run)) d2.length else pure ()
    modify (fun s => updSeq s q.id (fun q => { q with forkLen := q.forkLen.map (max (coverFrom d2.length own)) }))
    releaseOffcuts q
    pure { status := 0, bytes := 0, result := undone.length }
def kvjclose (c : Cmd) : KM CmdEnd := do
  let q ← kSeq c
  let d ← kDesc q
  kCheck q.jopen 0x57
  let es ← journalEntries q d
  let nc := (← causalLayers q d).length
  if !es.all (jEntryOk d nc) then kFatal
  else do
    let pages := versionPages d es
    freeJournal q (fun _ => true)
    let va := curOf d.journal
    kPut q (va + 4) 1 0
    kPut q (va + 8) 4 0
    kPut q (va + 16) 4 0
    setJournal q false
    releaseOffcuts q
    pure { status := 0, bytes := 0, result := pages.length }

/-! ## CPROT (R231, R457) -/

/-- the keys of some slots of a block rotated -/
def rotateVals (d : Desc) (delta : Int) (bits : Nat) (vals : List Nat) : List Nat :=
  let cs := (List.range (d.dh / 2)).map (fun i => let th := thetaOf d.rope d.dh i; (trigOf false delta th, trigOf true delta th))
  vals.zipIdx.map (fun x =>
    let i := x.2 % (2 * d.dh)
    if i < d.dh && bits.testBit (slotOf d x.2) then
      let k := cs.getD (i / 2) (0, 0)
      let base := x.2 - i % 2
      let a := unpackF fp32 (vals.getD base 0)
      let b := unpackF fp32 (vals.getD (base + 1) 0)
      let r := rotatePair fp32 ctlRne k.1 k.2 a b
      if i % 2 = 0 then r.1.1 else r.2.1
    else x.1)
/-- R231: a block with its marked slots among `bits` rotated into a fresh page; none where no such slot is marked -/
def rotateLayer (pop : KM Nat) (q : Seq) (d : Desc) (g j : Nat) (closed : Bool) (delta : Int) (bits : Nat) : KM Report := do
  let x ← readLayer q d g j
  let bits := bits &&& x.mask
  if bits = 0 then pure noReport
  else do
    let b ← readBlock q d x
    let vals := rotateVals d delta bits b.vals
    let page ← pop
    let (y, r) ← (if x.seasoned then writeSeasoned q d x.mask vals b.poison page
      else
        let codes := vals.zipIdx.map (fun v => if b.vals.getD v.2 0 = v.1 then b.codes.getD v.2 0 else toBf16 v.1)
        writeGreen q d x.mask codes (codes.map bf16To32) b.poison page)
    let _ ← publish q d g j closed x y
    pure { flags := 0, poisoned := r.poisoned }
/-- every slot of the view in [first, first + count) rotated, into pages from `pop` -/
def rotateView (pop : KM Nat) (q : Seq) (d : Desc) (first count : Nat) (delta : Int) : KM Report := do
  let v ← view q d
  let moved := clipView v first (first + count)
  let rs ← kEach (fun g0 => do
    let bits := slotBits moved g0
    let q ← curSeq q
    let (g, _, rep) ← ownGroup q d g0
    let gr ← readGroup q d g
    let js ← ranks q d
    let rs ← kEach (fun j => rotateLayer pop q d g j gr.closed delta bits) js
    pure (rs.foldl Report.or rep)) (groupsOf moved)
  pure (rs.foldl Report.or noReport)
def cprot (c : Cmd) : KM CmdEnd := do
  kCheck (hasKiln (← get)) sNotAccepted
  let q ← kSeq c
  let d ← kDesc q
  kCheck (decide (1 ≤ bHi c ∧ bLo c + bHi c ≤ d.length)) 0x50
  kUnfrozen q (bLo c)
  let v ← view q d
  kFor (kGroupUnfrozen q v) (groupsOf (clipView v (bLo c) (bLo c + bHi c)))
  kCheck (!q.jopen) 0x58
  let delta := c.cmd.toInt
  if delta = 0 then pure { status := 0, bytes := 0, result := 0 }
  else do
    let rep ← rotateView (poolPop q d) q d (bLo c) (bHi c) delta
    releaseOffcuts (← curSeq q)
    pure { status := 0, bytes := 0, result := rep.count (bHi c) }

/-! ## Dispatch of a Kiln command -/

def kilnRun (dn : Nat) (c : Cmd) : KM CmdEnd :=
  match c.instr with
  | .seqopen => seqopen dn c
  | .seqclose => seqclose c
  | i => do
    kCheck (hasKiln (← get)) sNotAccepted
    match i with
    | .kvapp _ _ => kvapp c
    | .kvseal _ _ => kvseal c
    | .kvpatch _ _ => kvpatch c
    | .kvfork _ _ => kvfork c
    | .kvtrunc _ _ => kvtrunc c
    | .kvstat _ _ => kvstat c
    | .kvjopen _ _ => kvjopen c
    | .kvjmark _ _ => kvjmark c
    | .kvjundo _ _ => kvjundo c
    | .kvjclose _ _ => kvjclose c
    | _ => kWait

end Sys2Proof.Machine
end

