-- ==== Sys2Proof/Machine/Waves.lean ====
section
/-! DEFINITION. The validity map, generations, waves, recompute items and holds (R248-R266, R273-R284). -/
namespace Sys2Proof.Machine

/-! ## The validity map (R249, R258) -/

def layersOf (d : Desc) : List Nat := List.range (d.nlayer + 1)
/-- the columns that cover [lo, hi) -/
def colsOf (d : Desc) (lo hi : Nat) : List Nat :=
  if hi ≤ lo then [] else (List.range ((hi - 1) / d.st + 1 - lo / d.st)).map (· + lo / d.st)
/-- R253, R266: a cell marked at g -/
def markCell (g : BitVec 32) (x : Cell) : Cell :=
  { x with state := if x.state = cQueued ∨ x.state = cRunning then x.state else cDirty, gen := g.toNat % 16384 }
def markCells (q : Seq) (d : Desc) (cap : Nat) (g : BitVec 32) (layers cols : List Nat) : KM Unit :=
  kFor (fun l => kFor (fun c => do putCell q d cap l c (markCell g (← getCell q d cap l c))) cols) layers
/-- the cells of a layer in use -/
def layerCells (q : Seq) (d : Desc) (cap l : Nat) : KM (List Cell) := kEach (getCell q d cap l) (List.range (ncol d d.length))
/-- how far a cell's generation lies behind GEN -/
def ageOf (d : Desc) (x : Cell) : Nat := (d.gen - fullGen d x).toNat

def EditMap.newLength (m : EditMap) (n : Nat) : Nat := if m.ins then n + m.n else n - m.n
/-- R258: where a new position was; an inserted one was nowhere -/
def EditMap.origin (m : EditMap) (x : Nat) : Option Nat :=
  if x < m.p then some x else if m.ins then (if x < m.p + m.n then none else some (x - m.n)) else some (x + m.n)
/-- the old columns of a new column's origins -/
def originCols (d : Desc) (m : EditMap) (len c : Nat) : List Nat :=
  ((List.range (min (d.st * c + d.st) len - d.st * c)).filterMap (fun i => (m.origin (d.st * c + i)).map (· / d.st))).eraseDups
/-- R261, R275: flags and holds go with their columns; `len` is the new length -/
def carryCols (d : Desc) (m : EditMap) (len : Nat) (cols : List Nat) : List Nat :=
  (List.range (ncol d len)).filter (fun c => (originCols d m len c).any cols.contains)
/-- the cell that origin cells form -/
def joinCells (d : Desc) (xs : List Cell) : Cell :=
  match xs with
  | [] => { state := cValid, gen := d.gen.toNat % 16384, play := 0 }
  | x :: t => { state := if xs.any (fun y => y.state == cDirty) then cDirty else cValid
                gen := (t.foldl (fun m y => if ageOf d y < ageOf d m then y else m) x).gen
                play := xs.foldl (fun n y => max n y.play) 0 }
/-- R258: every layer's cells on the new numbering; d.length is still the old length -/
def rebucket (q : Seq) (d : Desc) (cap : Nat) (m : EditMap) : KM Unit := do
  let len := m.newLength d.length
  kFor (fun l => do
    let old ← layerCells q d cap l
    kFor (fun c => putCell q d cap l c (joinCells d ((originCols d m len c).filterMap (old[·]?)))) (List.range (ncol d len))
    kFor (fun i => kPut q (cellVa d cap l (ncol d len + i)) 4 0) (List.range (ncol d d.length - ncol d len))) (layersOf d)

/-! ## The state a hold serves (R275, R279, R282) -/

/-- slots of a group among runs, with their positions -/
def slotsAt (rs : List Run) (g : Nat) : List (Nat × Nat) :=
  (rs.filter (fun r => r.group == g)).flatMap (fun r => (List.range r.len).map (fun i => (r.slot + i, r.lstart + i)))
def runGroups (rs : List Run) : List Nat := (rs.map (·.group)).eraseDups
/-- a block of rank j as it stands -/
def blockNow (q : Seq) (d : Desc) (j : Nat) (rs : List Run) (g : Nat) : KM HBlock := do
  let x ← readLayer q d g j
  pure { group := g, recVa := recordVa d g j, page := x.addr, seasoned := x.seasoned, slots := (slotsAt rs g).filter (fun s => x.mask.testBit s.1) }
def blocksNow (q : Seq) (d : Desc) (j lo hi : Nat) : KM (List HBlock) := do
  let rs := (clipView (← view q d) lo hi).map (·.run)
  kEach (blockNow q d j rs) (runGroups rs)
/-- the version is gone, a trap of WHOLD and no status -/
def sGone : Nat := 0x100
/-- R279: a block as it stood at a moment: the first of its versions that was replaced since, or the current one -/
def blockBefore (q : Seq) (d : Desc) (j m : Nat) (rs : List Run) (g : Nat) : KM HBlock := do
  let s ← get
  let past := s.work.offcuts.filter (fun o => o.ctx == q.ctx && o.pool == pageVa d 0 && decide (m ≤ o.moment))
  match past.find? (fun o => o.group == g && o.rank == some j) with
  | none => blockNow q d j rs g
  | some o => do
    kCheck (!past.any (fun x => x.page == o.page && x.rank.isSome && decide (o.moment ≤ x.moment) && x.released)) sGone
    pure { group := g, recVa := recordVa d g j, page := pageVa d o.page, seasoned := o.seasoned, slots := (slotsAt rs g).filter (fun s => o.mask.testBit s.1) }
/-- the snapshots from generation g on, in order -/
def snapsFrom (s : State) (q : Seq) (gen : BitVec 32) : List Snap := s.work.snaps.filter (fun x => x.seq == q.id && genGe x.gen gen)
/-- The runs of the numbering before the first of some snapshots, kept there or still in the table, and the position below
which they are known: an edit whose runs are released tells nothing from its place on, nor does a cut. -/
def numberingRuns (now : List Run) : List Snap → List Run × Option Nat
  | [] => (now, none)
  | x :: t =>
    if x.kept then (x.runs, none)
    else
      let (rs, b) := numberingRuns now t
      let lower (p : Nat) : Option Nat := some (match b with | some n => min n p | none => p)
      match x.edit, x.cut with
      | some m, _ => (rs, lower m.p)
      | none, some n => (rs, lower n)
      | none, none => (rs, b)
def genBelow (d : Desc) (gen : BitVec 32) : Bool := !genGe d.gen gen
/-- the snapshot of the moment GEN came to g; none where the sequence has had no lower GEN (a child of a fork, log 55) -/
def snapAt (s : State) (q : Seq) (gen : BitVec 32) : Option Snap :=
  match snapsFrom s q gen with | x :: _ => if x.cut.isNone then some x else none | [] => none
/-- LENGTH at the snapshot moment of before(g) -/
def lengthBefore (s : State) (q : Seq) (d : Desc) (gen : BitVec 32) : Nat :=
  if genBelow d gen then d.length else match snapAt s q gen with | some x => x.length | none => d.length
def blocksBefore (q : Seq) (d : Desc) (j : Nat) (gen : BitVec 32) (lo hi : Nat) : KM (List HBlock) := do
  let s ← get
  match snapAt s q gen with
  | none => kEnd sGone
  | some x => do
    let (rs, known) := numberingRuns ((← view q d).map (·.run)) (snapsFrom s q gen)
    let hi := min hi x.length
    kCheck (decide (hi ≤ lo) || (match known with | some n => decide (hi ≤ n) | none => true)) sGone
    let rs := rs.filterMap (clipRun · lo hi)
    kEach (blockBefore q d j x.moment rs) (runGroups rs)
/-- the columns of before(g) in the present numbering -/
def colsBefore (s : State) (q : Seq) (d : Desc) (gen : BitVec 32) (cols : List Nat) : List Nat :=
  if genBelow d gen then cols
  else (snapsFrom s q gen).foldl (fun l x => match x.edit, x.cut with
    | some m, _ => carryCols d m (m.newLength x.length) l
    | none, some n => l.filter (fun c => decide (c < ncol d n))
    | none, none => l) cols
/-- the positions of some columns below a length -/
def holdLo (d : Desc) (first : Nat) : Nat := first * d.st
def holdHi (d : Desc) (first n len : Nat) : Nat := min ((first + n) * d.st) len

/-! ## Generations (R250) -/

def genRoom (d : Desc) : Bool := decide ((d.gen + 1 - d.settled).toNat < 8192)
/-- before holds whose moment the new generation ends keep what they show -/
def freezeHolds (q : Seq) (d : Desc) (g : BitVec 32) : KM Unit := do
  let cs ← causalLayers q d
  let s ← get
  kFor (fun h => do
    let bs ← (match rankOf cs h.layer with | some j => blocksNow q d j (holdLo d h.first) (holdHi d h.first h.count d.length) | none => pure [])
    modify (updHolds q (fun x => x.req == h.req) (fun x => { x with frozen := true, length := d.length, blocks := bs })))
    (s.work.holds.filter (fun h => h.seq == q.id && h.granted && h.mode == .before && !h.frozen && h.gen == g))
/-- take the next generation: what it replaces is kept -/
def takeGen (q : Seq) (d : Desc) (edit : Option EditMap) : KM (BitVec 32) := do
  let g := d.gen + 1
  freezeHolds q d g
  let rs := (← view q d).map (·.run)
  modify (fun s => setWork s { s.work with
    moment := s.work.moment + 1
    snaps := s.work.snaps ++ [{ seq := q.id, gen := g, moment := s.work.moment, cut := none, runs := rs, length := d.length, edit := edit, kept := true }] })
  setGen q g
  pure g

/-! ## Items (R261, R262, R280, R281) -/

def isEarlyHold (i : Instr) : Bool := match i with | .wholdWithin _ _ => true | .wholdBefore _ _ => true | _ => false
/-- the command names the sequence by its handle -/
def names (q : Seq) (c : Cmd) : Bool := c.ctx == q.ctx && capBase c.a.bits == q.desc
/-- a within or before WHOLD has arrived -/
def holdArrived (s : State) (q : Seq) : Bool :=
  (die s q.die).scribe.any (fun c => isEarlyHold c.instr && names q c) ||
  s.work.edits.any (fun e => e.seq == q.id && e.cmds.any (fun c => isEarlyHold c.instr))
/-- what a WHOLD asks for -/
structure Ask where
  mode : HoldMode
  layer : Nat
  gen : BitVec 32
  deriving DecidableEq, Repr, Inhabited
def askOf (c : Cmd) : Option Ask :=
  let g := BitVec.ofNat 32 (numAt c.body 0 4)
  match c.instr with
  | .wholdWithin _ o => some ⟨.within, o.layer.toNat, 0⟩
  | .wholdBefore _ o => some ⟨.before, o.layer.toNat, g⟩
  | .wholdAfter _ o => some ⟨.after, o.layer.toNat, g⟩
  | _ => none
/-- an after WHOLD that has arrived, its generation settled, would cover the column (R280, R281) -/
def askHolds (d : Desc) (l c : Nat) (m : Cmd) : Bool :=
  match askOf m with
  | some a => a.mode == .after && a.layer == l && genGe d.settled a.gen && decide (bLo m ≤ c ∧ c < bLo m + bHi m)
  | none => false
/-- a column of a layer that a hold keeps, or an after hold that has arrived and whose generation is settled -/
def colHeld (s : State) (q : Seq) (d : Desc) (l c : Nat) : Bool :=
  s.work.holds.any (fun h => h.seq == q.id && h.layer == l &&
    (if h.granted then h.cols.contains c else genGe d.settled h.gen && decide (h.first ≤ c ∧ c < h.first + h.count))) ||
  (die s q.die).scribe.any (fun m => names q m && askHolds d l c m) ||
  s.work.edits.any (fun e => e.seq == q.id && e.cmds.any (askHolds d l c))
def wavesOf (s : State) (q : Seq) : List Wave := s.work.waves.filter (fun w => w.seq == q.id)
def rotationOpen (s : State) (q : Seq) : Bool := s.work.rotations.any (fun r => r.seq == q.id)
def mayForm (s : State) (q : Seq) (w : Wave) : Bool :=
  !editWaits s q && !holdArrived s q &&
  (w.layer == 0 || !s.work.rotations.any (fun r => r.seq == q.id && genGe w.gen r.gen))
/-- maximal runs of ascending columns in pieces of at most 16 -/
def pieces16 (cols : List Nat) : List (List Nat) :=
  ((cols.foldl (fun acc c => match acc with
    | (h :: p) :: r => if h + 1 = c ∧ p.length < 15 then (c :: h :: p) :: r else [c] :: (h :: p) :: r
    | _ => [[c]]) []).map List.reverse).reverse
def itemHandle (q : Seq) : CReg := ⟨mkCap 6 (permR ||| permW ||| permE) q.desc (q.desc + 256) (BitVec.ofNat 64 q.desc), true⟩
def itemBytes (q : Seq) (w : Wave) (cols : List Nat) (id : Nat) : List Byte :=
  let flags := (if cols.any w.seam.contains then 1 else 0) + (if cols.any w.inserted.contains then 2 else 0)
  toBytes 32 (itemHandle q).bits.toNat ++ toBytes 2 w.layer ++ toBytes 1 flags ++ [0] ++ toBytes 4 w.gen.toNat ++
  toBytes 4 (cols.headD 0) ++ toBytes 4 cols.length ++ toBytes 4 id ++ List.replicate 12 0
/-- a number that no outstanding item has, from the next one on; numbers are 32 bits -/
def freshItem (items : List Item) (n : Nat) : Nat :=
  (((List.range (items.length + 1)).map (fun i => (n + i) % 2 ^ 32)).find? (fun id => !items.any (·.id == id))).getD n
/-- one item: its cells QUEUED, its record on the way to RQUEUE as an engine's completion is (R168) -/
def pushItem (q : Seq) (d : Desc) (cap : Nat) (w : Wave) (cols : List Nat) : KM Unit := do
  let e ← layerEntry q d w.layer
  kFor (fun c => putCell q d cap w.layer c { state := cQueued, gen := w.gen.toNat, play := 0 }) cols
  modify (fun s =>
    let id := freshItem s.work.items s.work.nextItem
    let s := setWork s { s.work with nextItem := (id + 1) % 2 ^ 32
                                     items := s.work.items ++ [{ seq := q.id, id := id, layer := w.layer, gen := w.gen, cols := cols }] }
    deliver s (.queue (handleCtx e.rqueue) (handleFrame e.rqueue) (handleQueue e.rqueue)
      { plainItem (itemBytes q w cols id) [true, false] with completion := true, work := some id }))
def dirtyFor (d : Desc) (g : BitVec 32) (x : Cell) : Bool := x.state == cDirty && genGe g (fullGen d x)
def formItems (q : Seq) (d : Desc) (cap : Nat) (w : Wave) : KM Unit := do
  let s ← get
  if w.entered && mayForm s q w then do
    let cells ← layerCells q d cap w.layer
    let cols := (cells.zipIdx.filter (fun x => dirtyFor d w.gen x.1 && !colHeld s q d w.layer x.2)).map (·.2)
    kFor (pushItem q d cap w) (pieces16 cols)
  else pure ()

/-! ## Waves (R259, R260, R265) -/

def updWave (q : Seq) (g : BitVec 32) (f : Wave → Wave) : KM Unit :=
  modify (fun s => setWork s { s.work with waves := s.work.waves.map (fun w => if w.seq == q.id && w.gen == g then f w else w) })
def waveDone (q : Seq) (d : Desc) (cap : Nat) (w : Wave) : KM Bool := do
  let s ← get
  if s.work.items.any (fun i => i.seq == q.id && i.layer == w.layer && genGe w.gen i.gen) then pure false
  else do pure (!(← layerCells q d cap w.layer).any (dirtyFor d w.gen))
/-- the wave's layer is finished by every earlier one -/
def mayEnter (ws : List Wave) (w : Wave) : Bool :=
  !w.entered && ws.all (fun x => x.gen == w.gen || genGe x.gen w.gen || decide (w.layer < x.layer))
/-- two waves wait to enter one layer -/
def mergePair (ws : List Wave) : Option (Wave × Wave) :=
  ws.findSome? (fun a => (ws.find? (fun b => !a.entered && !b.entered && a.layer == b.layer && a.gen != b.gen && genGe b.gen a.gen)).map (fun b => (a, b)))
/-- R265: SETTLEs that have been waiting for it -/
def endSettles (q : Seq) (settled : BitVec 32) : KM Unit := modify (fun s =>
  let (a, b) := s.work.settles.partition (fun x => x.seq == q.id && genGe settled x.gen)
  a.foldl (fun s x => complete s x.cmd engScribe 0 0 settled.toNat) (setWork s { s.work with settles := b }))
def completeWave (q : Seq) (w : Wave) : KM Unit := do
  modify (fun s => setWork s { s.work with waves := s.work.waves.filter (fun x => !(x.seq == q.id && x.gen == w.gen)) })
  setSettled q w.gen
  endSettles q w.gen
  releaseOffcuts q
/-- R260 -/
def mergeWaves (q : Seq) (d : Desc) (cap : Nat) (a b : Wave) : KM Unit := do
  kFor (fun l => do
    let cells ← layerCells q d cap l
    kFor (fun x => if x.1.state == cDirty && fullGen d x.1 == a.gen then putCell q d cap l x.2 { x.1 with gen := b.gen.toNat } else pure ()) cells.zipIdx)
    ((layersOf d).drop a.layer)
  modify (fun s => setWork s { s.work with waves := s.work.waves.filter (fun x => !(x.seq == q.id && x.gen == a.gen)) })
  updWave q b.gen (fun w => { w with merged := a.merged ++ [a.gen] ++ w.merged, seam := (a.seam ++ w.seam).eraseDups, inserted := (a.inserted ++ w.inserted).eraseDups })
/-- one move of a wave, the first that can be made: false when none can -/
def waveStep (q : Seq) : KM Bool := do
  let d ← readDesc q
  let cap ← mapCap q d
  let s ← get
  let ws := wavesOf s q
  let fin ← kEach (fun w => do pure (w, w.entered && (← waveDone q d cap w))) ws
  match fin.find? (·.2), ws.find? (mayEnter ws), mergePair ws with
  | some (w, _), _, _ => do
    if d.nlayer ≤ w.layer then completeWave q w else updWave q w.gen (fun w => { w with layer := w.layer + 1, entered := false })
    pure true
  | none, some w, _ => do
    updWave q w.gen (fun w => { w with entered := true })
    formItems q d cap { w with entered := true }
    pure true
  | none, none, some (a, b) => do mergeWaves q d cap a b; pure true
  | none, none, none => pure false
def waveSteps (q : Seq) : Nat → KM Unit
  | 0 => pure ()
  | n + 1 => do if ← waveStep q then waveSteps q n else pure ()
/-- everything the sequence's waves can do now: items formed, layers finished and entered, waves merged and completed -/
def advance (q : Seq) : KM Unit := do
  let d ← readDesc q
  let cap ← mapCap q d
  let s ← get
  kFor (formItems q d cap) (wavesOf s q)
  waveSteps q ((wavesOf s q).length * (2 * d.nlayer + 6))
  releaseOffcuts q
/-- the Scribe's own work on a sequence; what waits for a page, or fails, is taken up again later -/
def runScribe (f : Seq → KM Unit) (id : BitVec 32) (s : State) : State :=
  match seqOf s id with
  | none => s
  | some q => match f q s with
    | .ok (_, s) => s
    | .error (.wait w) => let s := keepAsked s w; setWork s { s.work with sweep := (s.work.sweep ++ [id]).eraseDups }
    | .error _ => forgetEngEnds s q.ctx
def advanceSeq (id : BitVec 32) (s : State) : State := runScribe advance id s
/-- what holds that ended with their firings had kept is released (R274) -/
def sweepHolds (s : State) : State :=
  s.work.sweep.foldl (fun s id => runScribe releaseOffcuts id s) (setWork s { s.work with sweep := [] })

/-! ## The word a WHOLD returns (R278) -/

def holdWord (q : Seq) (d : Desc) (l : Nat) (cols : List Nat) (err : Nat) : KM W128 := do
  let cap ← mapCap q d
  let cells ← kEach (getCell q d cap l) (cols.filter (fun c => decide (c < ncol d d.length ∧ l ≤ d.nlayer)))
  match cells with
  | [] => pure (errWord err)
  | x :: t =>
    let top := t.foldl (fun m y => if ageOf d y < ageOf d m then y else m) x
    let low := t.foldl (fun m y => if ageOf d m < ageOf d y then y else m) x
    let pmax := cells.foldl (fun n y => max n y.play) 0
    let nnv := (cells.filter (fun y => y.state != cValid)).length
    let worst := cells.foldl (fun n y => max n y.state) 0
    pure (fullGen d top ++ fullGen d low ++ BitVec.ofNat 16 pmax ++ BitVec.ofNat 16 (min nnv 65535) ++ BitVec.ofNat 8 err ++ 0#22 ++ BitVec.ofNat 2 worst)

end Sys2Proof.Machine
end

