-- ==== Sys2Proof/Machine/Scribe.lean ====
section
/-! DEFINITION. The Scribe's commands (R250-R258, R263, R265-R267, R276-R284). -/
namespace Sys2Proof.Machine

/-! ## What an edit does to the table and the map (R252-R258) -/

/-- R261: every layer's RQUEUE names a live queue with room for an item -/
def queueLive (s : State) (e : LayerEntry) : Bool :=
  e.rqueue.tag && capKind e.rqueue.bits == 3 &&
  (match findFrame s (handleCtx e.rqueue) (handleFrame e.rqueue) with
   | some f => !f.withdrawn && (match queueAt f (handleQueue e.rqueue) with | some x => decide (64 ≤ x.item) | none => false)
   | none => false)
def checkQueues (q : Seq) (d : Desc) : KM Unit :=
  kFor (fun l => do kCheck (queueLive (← get) (← layerEntry q d l)) 0x50) (layersOf d)
def newWave (q : Seq) (g : BitVec 32) (seam inserted : List Nat) : KM Unit := modify (fun s => setWork s { s.work with
  waves := s.work.waves ++ [{ seq := q.id, gen := g, layer := 0, entered := false, merged := [], seam := seam, inserted := inserted }] })
/-- a run where the edit puts it, cut where the edit cuts it -/
def shiftRun (m : EditMap) (r : Run) : List Run :=
  let above := (clipRun r (if m.ins then m.p else m.p + m.n) (r.lstart + r.len)).toList
  (clipRun r 0 m.p).toList ++ above.map (fun x => { x with lstart := if m.ins then x.lstart + m.n else x.lstart - m.n })
/-- R254: closed groups for the inserted positions -/
def insertGroups (q : Seq) (d : Desc) (p n : Nat) : KM (List Run) :=
  kEach (fun i => do
    let k := min d.bt (n - i * d.bt)
    let g ← newGroup q d true k
    pure { lstart := p + i * d.bt, len := k, group := g, slot := 0 }) (List.range ((n + d.bt - 1) / d.bt))
/-- POS of every slot in [lo, hi) of the view, in groups of the sequence's own -/
def rewritePos (q : Seq) (d : Desc) (lo hi : Nat) : KM Report := do
  let rs := (clipView (← view q d) lo hi).map (·.run)
  let reps ← kEach (fun g0 => do
    let q ← curSeq q
    let (g, _, rep) ← ownGroup q d g0
    let x ← readGroup q d g
    writeGroup q d g { x with pos := (slotsAt rs g0).foldl (fun l y => l.set y.1 y.2) x.pos }
    pure rep) (runGroups rs)
  pure (reps.foldl Report.or noReport)
/-- R256: a page for each block the rotation of [lo, hi) touches -/
def rotationPages (q : Seq) (d : Desc) (lo hi : Nat) : KM (List Nat) := do
  let moved := clipView (← view q d) lo hi
  let js ← ranks q d
  let ps ← kEach (fun g => kEach (fun j => do
    let x ← readLayer q d g j
    if x.mask &&& slotBits moved g = 0 then pure [] else do pure [← poolPop q d]) js) (groupsOf moved)
  pure (ps.flatMap (·.flatMap id))
/-- holds and flags follow the new numbering -/
def carryAll (q : Seq) (d : Desc) (m : EditMap) : KM Unit := modify (fun s =>
  let len := m.newLength d.length
  let s := updHolds q (·.granted) (fun h => { h with cols := carryCols d m len h.cols }) s
  setWork s { s.work with waves := s.work.waves.map (fun w => if w.seq == q.id then
    { w with seam := carryCols d m len w.seam, inserted := carryCols d m len w.inserted } else w) })
/-- the checks EDINS, EDDEL, EDREP and WMARK share, from position p on -/
def editAllowed (q : Seq) (p : Nat) : KM Unit := do
  kCheck (!q.jopen) 0x58
  kUnfrozen q p
def doneGen (g : BitVec 32) : CmdEnd := { status := 0, bytes := 0, result := g.toNat }
/-- EDINS and EDDEL applied in one step -/
def moveEdit (ins : Bool) (c : Cmd) : KM CmdEnd := do
  let q ← kSeq c
  let d ← readDesc q
  let cap ← mapCap q d
  let p := bLo c
  let n := bHi c
  kCheck (decide (1 ≤ n ∧ if ins then p ≤ d.length ∧ n ≤ 4096 else p + n ≤ d.length)) 0x50
  editAllowed q p
  let v0 ← view q d
  kFor (kGroupUnfrozen q v0) (groupsOf (clipView v0 p d.length))
  let m : EditMap := { ins := ins, p := p, n := n }
  let len := m.newLength d.length
  kCheck (decide (ncol d len ≤ cap)) 0x62
  kCheck (genRoom d) 0x61
  checkQueues q d
  let g ← takeGen q d (some m)
  let d := { d with gen := g }
  let v ← view q d
  let own ← readRuns q d
  let above := (clipView (v.filter (fun x => !x.own)) p d.length).map (·.run)
  let new ← if ins then insertGroups q d p n else pure []
  writeRuns q d (sortRuns ((own ++ above).flatMap (shiftRun m) ++ new))
  modify (fun s => updSeq s q.id (fun q => { q with forkLen := q.forkLen.map (min p) }))
  let q ← curSeq q
  let rep ← if ins then pure noReport else removeSlots q d (clipView v p (p + n)) (clipView v 0 p ++ clipView v (p + n) d.length)
  let q ← curSeq q
  let rep2 ← rewritePos q d p len
  let q ← curSeq q
  rebucket q d cap m
  let cols := if ins then colsOf d p (p + n) else if p < len then [p / d.st] else []
  markCells q d cap g (layersOf d) cols
  setLength q len
  carryAll q d m
  let first := if ins then p + n else p
  let pages ← rotationPages q d first len
  if first < len then
    modify (fun s => setWork s { s.work with
      rotations := s.work.rotations ++ [{ seq := q.id, gen := g, first := first, count := len - first, delta := if ins then (n : Int) else -(n : Int), pages := pages }] })
  else pure ()
  newWave q g (if ins then [] else cols) (if ins then cols else [])
  pure { doneGen g with result := (rep.or rep2).count g.toNat }
/-- EDREP (R253) -/
def edrep (c : Cmd) : KM CmdEnd := do
  let q ← kSeq c
  let d ← readDesc q
  let cap ← mapCap q d
  kCheck (decide (1 ≤ bHi c ∧ bLo c + bHi c ≤ d.length)) 0x50
  editAllowed q (bLo c)
  kCheck (genRoom d) 0x61
  checkQueues q d
  let g ← takeGen q d none
  markCells q { d with gen := g } cap g [0] (colsOf d (bLo c) (bLo c + bHi c))
  newWave q g [] []
  pure (doneGen g)
/-- WMARK (R266) -/
def wmark (c : Cmd) : KM CmdEnd := do
  let q ← kSeq c
  let d ← readDesc q
  let cap ← mapCap q d
  let a := (c.cmd.extractLsb' 18 9).toNat
  let b := (c.cmd.extractLsb' 9 9).toNat
  kCheck (decide (1 ≤ bHi c ∧ bLo c + bHi c ≤ ncol d d.length ∧ a ≤ b ∧ b ≤ d.nlayer)) 0x50
  editAllowed q (bLo c * d.st)
  kCheck (genRoom d) 0x61
  checkQueues q d
  let g ← takeGen q d none
  markCells q { d with gen := g } cap g ((List.range (b + 1 - a)).map (· + a)) ((List.range (bHi c)).map (· + bLo c))
  newWave q g [] []
  pure (doneGen g)
def settleCap : Nat := 4096
/-- SETTLE (R265): done, or one more that waits -/
def settle (c : Cmd) : KM (Option CmdEnd) := do
  let q ← kSeq c
  let d ← readDesc q
  let _ ← mapCap q d
  kCheck (bHi c == 0) 0x50
  let g := BitVec.ofNat 32 (bLo c)
  if genGe d.settled g then pure (some (doneGen d.settled))
  else do
    let s ← get
    let mine := s.work.settles.filter (fun x => match seqOf s x.seq with | some y => y.die == q.die | none => false)
    kCheck (decide (mine.length < settleCap)) 0x66
    set (setWork s { s.work with settles := s.work.settles ++ [{ seq := q.id, gen := g, cmd := c }] })
    pure none

/-! ## WDONE and WCELL (R263, R266) -/

/-- the drift a firing reports, as FP32 -/
def driftOf (x : Nat) : Nat :=
  match unpackF fp32 x with
  | .num n m _ => if m = 0 then 0 else if n then 0x7F800000 else x
  | _ => 0x7F800000
def ctlRup : FCtl := ⟨.rup, false, false, false⟩
/-- PLAY plus a drift, rounded toward +∞ -/
def addPlay (play delta : Nat) : Nat := (addVals fp16 ctlRup [unpackF fp16 play, unpackF fp32 delta]).1
/-- τ as a code that compares with PLAY -/
def tauOf (e : LayerEntry) : Nat := if e.tau = 32768 then 0 else e.tau
def doneCell (d : Desc) (tau : Nat) (g : BitVec 32) (x : Cell) : Cell :=
  if x.state = cRunning ∧ fullGen d x = g ∧ x.play ≤ tau then { x with state := cValid }
  else if x.state = cQueued ∨ x.state = cRunning then { x with state := cDirty }
  else x
def driftCell (d : Desc) (tau : Nat) (g : BitVec 32) (delta : Nat) (y : Cell) : Cell :=
  let y := { y with play := addPlay y.play delta }
  if y.play > tau then
    { y with state := if y.state = cValid then cDirty else y.state
             gen := if genGe (fullGen d y) g then y.gen else g.toNat % 16384 }
  else y
def changeCell (q : Seq) (d : Desc) (cap l c : Nat) (f : Cell → Cell) : KM Unit := do putCell q d cap l c (f (← getCell q d cap l c))
def wdone (q : Seq) (delta id : Nat) : KM Bool := do
  let d ← readDesc q
  let cap ← mapCap q d
  let s ← get
  match s.work.items.find? (fun i => i.seq == q.id && i.id == id) with
  | none => pure false
  | some it => do
    let dl := driftOf delta
    let e ← layerEntry q d it.layer
    kFor (fun c => changeCell q d cap it.layer c (doneCell d (tauOf e) it.gen)) it.cols
    if it.layer < d.nlayer then do
      let y ← layerEntry q d (it.layer + 1)
      let n := ncol d d.length
      let first := it.cols.headD 0
      let targets := if e.kind = 2 then it.cols.filter (fun c => decide (c < n)) else (List.range (n - first)).map (· + first)
      kFor (fun c => changeCell q d cap (it.layer + 1) c (driftCell d (tauOf y) it.gen dl)) targets
    else pure ()
    modify (fun s => setWork s { s.work with items := s.work.items.filter (fun i => !(i.seq == q.id && i.id == id)) })
    pure true
def allOnes64 : W128 := BitVec.ofNat 128 (2 ^ 64 - 1)
def wcell (q : Seq) (l c : Nat) : KM W128 := do
  let d ← readDesc q
  let cap ← mapCap q d
  if d.nlayer < l ∨ ncol d d.length ≤ c then pure allOnes64
  else do
    let x ← getCell q d cap l c
    pure ((fullGen d x ++ BitVec.ofNat 32 (cellBits x)).setWidth 128)

/-! ## WHOLD and WFREE (R276-R284) -/

/-- the identity of the firing that waits for a request -/
def askerOf (s : State) (c : Cmd) : Option Thread :=
  match threadOf s c.core with | some t => if t.blockA == .request c.req none then some t else none | none => none
def holdLimit (s : State) (q : Seq) (t : Thread) : Bool :=
  let granted := s.work.holds.filter (·.granted)
  let mine := granted.filter (fun h => h.batch == t.id.batch && h.pos == t.id.pos)
  let here := granted.filter (fun h => match seqOf s h.seq with | some y => y.die == q.die | none => false)
  decide (8 ≤ mine.length ∨ 4096 ≤ here.length)
/-- ERR 2 of R277 -/
def outOfRange (s : State) (q : Seq) (d : Desc) (a : Ask) (first n : Nat) : Bool :=
  let len := if a.mode == .before then lengthBefore s q d a.gen else d.length
  decide (d.nlayer < a.layer ∨ n = 0 ∨ ncol d len < first + n) ||
  a.mode == .before && (a.gen == 0 || genGe (d.gen + 1) a.gen == false) ||
  a.mode == .after && !genGe d.gen a.gen
def newHold (q : Seq) (c : Cmd) (t : Thread) (a : Ask) : Hold :=
  { batch := t.id.batch, pos := t.id.pos, core := c.core, seq := q.id, layer := a.layer, b := c.b.bits.setWidth 64, first := bLo c, count := bHi c,
    mode := a.mode, gen := a.gen, granted := false, cols := [], req := c.req, frozen := false, length := 0, blocks := [], walked := [], freed := false }
def addHold (h : Hold) : KM Unit := modify (fun s => setWork s { s.work with holds := s.work.holds ++ [h] })
def holdCols (h : Hold) : List Nat := (List.range h.count).map (· + h.first)
/-- the columns a hold asks for that are there at its grant (R275) -/
def colsNow (d : Desc) (h : Hold) : List Nat := (holdCols h).filter (fun c => decide (c < ncol d d.length))
/-- a hold granted now: what it covers and, unless it stands before a generation to come, what it shows -/
def grantHold (q : Seq) (d : Desc) (h : Hold) : KM Hold := do
  let s ← get
  let j := rankOf (← causalLayers q d) h.layer
  let lo := holdLo d h.first
  match h.mode, j with
  | .before, j =>
    if genBelow d h.gen then pure { h with granted := true, cols := holdCols h }
    else do
      let len := lengthBefore s q d h.gen
      kCheck j.isSome sGone
      let bs ← blocksBefore q d (j.getD 0) h.gen lo (holdHi d h.first h.count len)
      pure { h with granted := true, cols := colsBefore s q d h.gen (holdCols h), frozen := true, length := len, blocks := bs }
  | _, some j => do
    let bs ← blocksNow q d j lo (holdHi d h.first h.count d.length)
    pure { h with granted := true, cols := colsNow d h, frozen := true, length := d.length, blocks := bs }
  | _, none => pure { h with granted := true, cols := colsNow d h, frozen := true, length := d.length }
/-- R277: the answer, or none while an after hold waits -/
def whold (c : Cmd) (t : Thread) (a : Ask) : KM (Option W128) := do
  let s ← get
  if !hasScribe s then pure (some (errWord 4))
  else match seqOfHandle s c.ctx c.a with
    | none => pure (some (errWord 3))
    | some q => do
      let d ← readDesc q
      let _ ← mapCap q d
      let cols := (List.range (min (bHi c) (ncol d (lengthBefore s q d a.gen + d.length) - bLo c))).map (· + bLo c)
      if holdLimit s q t then do
        pure (some (← holdWord q d a.layer (if a.mode == .before then colsBefore s q d a.gen cols else cols) 1))
      else if outOfRange s q d a (bLo c) (bHi c) then pure (some (errWord 2))
      else if a.mode == .after then do addHold (newHold q c t a); pure none
      else do
        let h ← grantHold q d (newHold q c t a)
        addHold h
        pure (some (← holdWord q d h.layer h.cols 0))
/-- R280: the wait of an after hold is over -/
def afterReady (q : Seq) (d : Desc) (h : Hold) : KM Bool := do
  if genGe d.settled h.gen then do
    let cap ← mapCap q d
    let xs ← kEach (getCell q d cap h.layer) ((holdCols h).filter (fun c => decide (c < ncol d d.length)))
    pure (!xs.any (fun x => x.state == cQueued || x.state == cRunning))
  else pure false
/-- the grant of a waiting after hold, by its request -/
def grantAfter (req : Nat) : KM Unit := do
  let s ← get
  match s.work.holds.find? (fun h => h.req == req && !h.granted) with
  | none => pure ()
  | some h => match seqOf s h.seq with
    | none => pure ()
    | some q => do
      let d ← readDesc q
      if ← afterReady q d h then do
        let h' ← grantHold q d h
        modify (updHolds q (fun x => x.req == req) (fun _ => h'))
        let w ← holdWord q d h.layer h'.cols 0
        modify (fun s => answer s h.core req w)
      else pure ()
/-- R283: the hold is gone, and what it kept from its generation's release -/
def freeHold (req : Nat) (s : State) : State :=
  let gone := s.work.holds.filter (fun h => h.req == req && h.freed)
  (gone.flatMap (seqsBeside s)).eraseDups.foldl (fun s id => runScribe releaseOffcuts id s)
    (setWork s { s.work with holds := s.work.holds.filter (fun h => !(h.req == req && h.freed)) })

/-! ## The rotation an edit has issued (R256) -/

/-- a page of the reservation, or of the pool once it is spent -/
def takeReserved (q : Seq) (d : Desc) (g : BitVec 32) : KM Nat := do
  let s ← get
  match s.work.rotations.find? (fun r => r.seq == q.id && r.gen == g) with
  | some r => match r.pages with
    | p :: t => do
      set (setWork s { s.work with rotations := s.work.rotations.map (fun x => if x == r then { r with pages := t } else x) })
      pure p
    | [] => poolPop q d
  | none => poolPop q d
/-- the CPROT of an edit: rotated, the rest of its pages given back, the host told of poison -/
def rotateEdit (r : Rotation) : KM Unit := do
  let s ← get
  match seqOf s r.seq with
  | none => pure ()
  | some q => do
    let d ← readDesc q
    let rep ← rotateView (takeReserved q d r.gen) q d r.first r.count r.delta
    let s ← get
    match s.work.rotations.find? (fun x => x.seq == r.seq && x.gen == r.gen) with
    | some x => kFor (poolPush q d) x.pages
    | none => pure ()
    modify (fun s => setWork s { s.work with rotations := s.work.rotations.filter (fun x => !(x.seq == r.seq && x.gen == r.gen)) })
    if rep.poisoned then modify (fun s => mqEvent s [eventRecord 0xE8 r.gen.toNat r.seq.toNat]) else pure ()
    releaseOffcuts (← curSeq q)
    modify (advanceSeq r.seq)
/-- a rotation that fails for now: what it asked for is given up -/
def rotateFailed (r : Rotation) (s : State) : State :=
  match seqOf s r.seq with | some q => dropGrants (kilnAgent q.die) (forgetEngEnds s q.ctx) | none => s

/-! ## The sequence's command order (R238, R257) -/

/-- what a command names: the context and the descriptor -/
def seqKey (c : Cmd) : BitVec 12 × Nat :=
  (c.ctx, match c.instr with | .seqopen => curOf (bodyCap c 0) | .seqclose => capBase (bodyCap c 0).bits | _ => capBase c.a.bits)
def isCprot (i : Instr) : Bool := match i with | .cprot _ _ => true | _ => false
/-- every command of a sequence that waits at an engine -/
def pendingCmds (s : State) : List Cmd :=
  s.dies.flatMap (fun x => x.2.kiln ++ x.2.scribe) ++ s.clusters.flatMap (fun x => x.2.copy.filter (fun c => isCprot c.instr))
def firstOfSeq (s : State) (c : Cmd) : Bool := !(pendingCmds s).any (fun x => seqKey x == seqKey c && decide (x.req < c.req))
def seqNamed (s : State) (c : Cmd) : Option Seq := findSeq s (seqKey c).1 (seqKey c).2
/-- R257: commands that wait behind a waiting edit -/
def waitsBehind (i : Instr) : Bool :=
  match i with
  | .edins _ _ | .eddel _ _ | .edrep _ _ | .kvtrunc _ _ | .kvfork _ _ | .kvjopen _ _ | .kvjmark _ _ | .kvjundo _ _ | .kvjclose _ _
  | .seqclose | .wholdWithin _ _ | .wholdBefore _ _ | .wholdAfter _ _ => true
  | _ => false
def itemsOut (s : State) (q : Seq) : Bool := s.work.items.any (fun i => i.seq == q.id)
/-- the command waits for the sequence's items -/
def mustSettle (s : State) (c : Cmd) : Bool := isMoving c.instr && (match seqNamed s c with | some q => itemsOut s q | none => false)

/-- a command that ends with a record, or none yet -/
def endSeqCmd (dn : Nat) (held s : State) (c : Cmd) (engine : Byte) (f : KM (Option CmdEnd)) : State :=
  let die := match seqNamed s c with | some q => q.die | none => dn
  -- units of a pool that the command has asked for and does not use go back
  match f s with
  | .ok (some r, s) => complete (dropGrants (kilnAgent die) s) c engine r.status r.bytes r.result
  | .ok (none, s) => dropGrants (kilnAgent die) s
  | .error (.status n) => complete (dropGrants (kilnAgent die) s) c engine (accessStatus (isCprot c.instr) n) 0 0
  | .error (.wait w) => keepAsked held w
  | .error .fatal => fatalError s 5 dn engine
/-- a request that is answered: `bad` where its structures cannot be read -/
def endRequest (held s : State) (c : Cmd) (bad : W128) (f : KM (Option W128)) : State :=
  match f s with
  | .ok (some v, s) => answer s c.core c.req v
  | .ok (none, s) => s
  | .error (.status n) => answer (forgetEngEnds s c.ctx) c.core c.req (if n = sGone then BitVec.allOnes 128 else bad)
  | .error (.wait w) => keepAsked held w
  | .error .fatal => s
def noAnswer (n : Nat) : W128 := BitVec.ofNat 128 n
def optEnd (f : KM CmdEnd) : KM (Option CmdEnd) := do pure (some (← f))
/-- a Scribe command whose completion carries a record -/
def scribeCmd (f : KM (Option CmdEnd)) : KM (Option CmdEnd) := do
  kCheck (hasScribe (← get)) sNotAccepted
  f
/-- WDONE and WCELL of a sequence that is open and whose Scribe was accepted -/
def seqRequest (c : Cmd) (bad : W128) (f : Seq → KM W128) : KM (Option W128) := do
  let s ← get
  match seqOfHandle s c.ctx c.a with
  | some q => if hasScribe s then do pure (some (← f q)) else pure (some bad)
  | none => pure (some bad)
def applyHold (held s : State) (c : Cmd) : State :=
  match askerOf s c, askOf c with
  | some t, some a => endRequest held s c (errWord 2) (whold c t a)
  | _, _ => s
/-- one command of a sequence applied at its turn; `held` has it still -/
def applyCmd (dn : Nat) (held s : State) (c : Cmd) : State :=
  match c.instr with
  | .edins _ _ => endSeqCmd dn held s c engScribe (scribeCmd (optEnd (moveEdit true c)))
  | .eddel _ _ => endSeqCmd dn held s c engScribe (scribeCmd (optEnd (moveEdit false c)))
  | .edrep _ _ => endSeqCmd dn held s c engScribe (scribeCmd (optEnd (edrep c)))
  | .wmark _ _ => endSeqCmd dn held s c engScribe (scribeCmd (optEnd (wmark c)))
  | .settle _ _ => endSeqCmd dn held s c engScribe (scribeCmd (settle c))
  | .wdone _ _ => endRequest held s c 0 (seqRequest c 0 (fun q => do
      let ok ← wdone q (numAt c.body 0 4) (numAt c.body 8 4)
      pure (if ok then 1 else 0)))
  | .wcell _ _ => endRequest held s c allOnes64 (seqRequest c allOnes64 (fun q => wcell q (numAt c.body 0 8) (numAt c.body 8 8)))
  | .wholdWithin _ _ => applyHold held s c
  | .wholdBefore _ _ => applyHold held s c
  | .wholdAfter _ _ => applyHold held s c
  | .wfree _ _ => freeHold (numAt c.body 0 8) s
  | .cprot _ _ => endSeqCmd dn held s c engCopy (optEnd (cprot c))
  | _ => endSeqCmd dn held s c engKiln (optEnd (kilnRun dn c))
/-- the command applied and the waves moved on, or the command laid aside behind an edit (R257) -/
def takeCmd (dn : Nat) (held s : State) (c : Cmd) : State :=
  let held := sweepHolds (retryMarks held)
  let s := sweepHolds (retryMarks s)
  match seqNamed s c with
  | none => applyCmd dn held s c
  | some q =>
    if rotationOpen s q || marksWait s q then held
    else match s.work.edits.find? (fun e => e.seq == q.id) with
      | some e =>
        if waitsBehind c.instr then
          setWork s { s.work with edits := s.work.edits.map (fun x => if x.seq == q.id then { x with cmds := x.cmds ++ [c] } else x) }
        else if (e.cmds.take 1).any (fun x => mustSettle s x) then advanceSeq q.id (applyCmd dn held s c)
        else held
      | none =>
        if mustSettle s c then setWork s { s.work with edits := s.work.edits ++ [{ seq := q.id, cmds := [c] }] }
        else advanceSeq q.id (applyCmd dn held s c)
def kilnTurn (s : State) (dn ix : Nat) : State :=
  match (die s dn).kiln[ix]? with
  | some c => if firstOfSeq s c then takeCmd dn s (setDie s dn { die s dn with kiln := dropAt (die s dn).kiln ix }) c else s
  | none => s
def scribeTurn (s : State) (dn ix : Nat) : State :=
  match (die s dn).scribe[ix]? with
  | some c => if firstOfSeq s c then takeCmd dn s (setDie s dn { die s dn with scribe := dropAt (die s dn).scribe ix }) c else s
  | none => s
/-- R453: the commands a copy engine runs at once -/
def copyRuns : Nat := 16
/-- R453: a copy engine ends one of the commands it has started, which are the first of its inbox; a CPROT at its turn in the sequence's
order -/
def copyTurn (s : State) (cl ix : Nat) : State :=
  match ((cluster s cl).copy.take copyRuns)[ix]? with
  | none => s
  | some c =>
    let s' := setCluster s cl { cluster s cl with copy := dropAt (cluster s cl).copy ix }
    if isCprot c.instr then (if firstOfSeq s c then takeCmd (cl / 32) s s' c else s) else copyApply c s s'
/-- the oldest command held up by an edit, once it need not wait -/
def deferredTurn (s : State) (i : Nat) : State :=
  match s.work.edits[i]? with
  | none => s
  | some e => match e.cmds with
    | [] => setWork s { s.work with edits := dropAt s.work.edits i }
    | c :: t =>
      let open_ := match seqNamed s c with | some q => rotationOpen s q | none => false
      if mustSettle s c || open_ || (match seqNamed s c with | some q => marksWait s q | none => false) then s
      else
        let s' := setWork s { s.work with edits := if t.isEmpty then dropAt s.work.edits i else s.work.edits.set i { e with cmds := t } }
        let dn := match seqOf s e.seq with | some q => q.die | none => 0
        advanceSeq e.seq (applyCmd dn s s' c)

end Sys2Proof.Machine
end

