-- ==== Sys2Proof/Machine/SeqCmds.lean ====
section
/-! DEFINITION. The instructions that act on sequences, as a core issues them, their walks, and the Kiln's and the Scribe's
events (R228-R230, R239, R251, R263, R266, R276-R284, R410, R411, R457-R461). -/
namespace Sys2Proof.Machine

/-! ## Engine commands (R239, R251, R266, R457) -/

/-- the home die of the sequence a handle names -/
def homeOf (s : State) (ctx : BitVec 12) (a : CReg) : Nat := match seqOfHandle s ctx a with | some q => q.die | none => 0
def toKiln (o : EngOps) (t : Thread) (s : State) : EngineId := .kiln (homeOf s t.id.ctx (getC t o.a))
def toScribe (o : EngOps) (t : Thread) (s : State) : EngineId := .scribe (homeOf s t.id.ctx (getC t o.a))
def seqA (o : EngOps) (p : BitVec 7) (t : Thread) : Except Stop Unit := checkHandle (getC t o.a) [6] (p ||| permE)
def kilnIssue (h : Hdr) (i : Instr) (o : EngOps) (p : BitVec 7) (checkB : Thread → Except Stop Unit) (s : State) :
    Host.Outcome State Fault Refusal := runState h (fun t s => engRun i o [3, 7] (seqA o p) checkB (toKiln o) t s) s
def scribeIssue (h : Hdr) (i : Instr) (o : EngOps) (p : BitVec 7) (s : State) : Host.Outcome State Fault Refusal :=
  runState h (fun t s => engRun i o [3, 7] (seqA o p) noCheck (toScribe o) t s) s
def bHandle (o : EngOps) (p : BitVec 7) (t : Thread) : Except Stop Unit := checkHandle (regOf t o.b) [0] (p ||| permE)
def execKvapp (h : Hdr) (o : EngOps) (s : State) : Host.Outcome State Fault Refusal := kilnIssue h (.kvapp h o) o permW (bHandle o permR) s
def execKvseal (h : Hdr) (o : EngOps) (s : State) : Host.Outcome State Fault Refusal := kilnIssue h (.kvseal h o) o permW noCheck s
def execKvpatch (h : Hdr) (o : EngOps) (s : State) : Host.Outcome State Fault Refusal := kilnIssue h (.kvpatch h o) o permW (bHandle o permR) s
def execKvfork (h : Hdr) (o : EngOps) (s : State) : Host.Outcome State Fault Refusal :=
  kilnIssue h (.kvfork h o) o (permR ||| permW) (bHandle o (permR ||| permW ||| permC)) s
def execKvtrunc (h : Hdr) (o : EngOps) (s : State) : Host.Outcome State Fault Refusal := kilnIssue h (.kvtrunc h o) o permW noCheck s
def execKvstat (h : Hdr) (o : EngOps) (s : State) : Host.Outcome State Fault Refusal := kilnIssue h (.kvstat h o) o permR (bHandle o permW) s
def execKvjopen (h : Hdr) (o : EngOps) (s : State) : Host.Outcome State Fault Refusal := kilnIssue h (.kvjopen h o) o (permR ||| permW) noCheck s
def execKvjmark (h : Hdr) (o : EngOps) (s : State) : Host.Outcome State Fault Refusal := kilnIssue h (.kvjmark h o) o permW noCheck s
def execKvjundo (h : Hdr) (o : EngOps) (s : State) : Host.Outcome State Fault Refusal := kilnIssue h (.kvjundo h o) o permW noCheck s
def execKvjclose (h : Hdr) (o : EngOps) (s : State) : Host.Outcome State Fault Refusal := kilnIssue h (.kvjclose h o) o permW noCheck s
def execEdins (h : Hdr) (o : EngOps) (s : State) : Host.Outcome State Fault Refusal := scribeIssue h (.edins h o) o permW s
def execEddel (h : Hdr) (o : EngOps) (s : State) : Host.Outcome State Fault Refusal := scribeIssue h (.eddel h o) o permW s
def execEdrep (h : Hdr) (o : EngOps) (s : State) : Host.Outcome State Fault Refusal := scribeIssue h (.edrep h o) o permW s
def execSettle (h : Hdr) (o : EngOps) (s : State) : Host.Outcome State Fault Refusal := scribeIssue h (.settle h o) o permR s
def execWmark (h : Hdr) (o : EngOps) (s : State) : Host.Outcome State Fault Refusal := scribeIssue h (.wmark h o) o permW s
/-- R455: the cursor of A is checked too -/
def cprotA (o : EngOps) (t : Thread) : Except Stop Unit := checkCap (getC t o.a) [6] (permW ||| permE) (capCursor (getC t o.a).bits) 0
def execCprot (h : Hdr) (o : EngOps) (s : State) : Host.Outcome State Fault Refusal :=
  runState h (fun t s => engRun (.cprot h o) o copyKinds (cprotA o) noCheck toCopy t s) s

/-! ## Requests that the access half waits for (R263, R266, R277) -/

/-- the request of an instruction as a message to the Scribe -/
def askCmd (i : Instr) (a b : CReg) (body : List Byte) (t : Thread) (s : State) : Cmd :=
  { instr := i, ctx := t.id.ctx, core := s.cur.core, cluster := clusterOf s.cur.core, tag := 0, acq := false, rel := false, scope := 0,
    a := a, b := b, cmd := 0, body := body, bodyTags := [], reply := .none, req := 0, pa := 0, page := 0 }
/-- Send a request once the thread is `ready` for it, and block until it is answered: `sent` is the thread that waits, `blocked`
what happens while it does. -/
def askRun (c : Cmd) (p : BitVec 7) (ready : Bool) (sent : Thread) (blocked : Res) (put : W128 → Res) (t : Thread) (s : State) : Res :=
  match t.blockA with
  | .request _ (some v) => put v
  | .request _ none => blocked
  | _ =>
    orStop s (checkHandle c.a [6] p)
      (let (id, s') := freshReq s
       if !ready then .wait s
       else match pushInbox s' (.scribe (homeOf s c.ctx c.a)) { c with req := id } with
         | some s' => .wait (setCur s' { sent with blockA := .request id none })
         | none => .wait s)
def wdoneRes (h : Hdr) (o : WdoneOps) (t : Thread) (s : State) : Res :=
  let c := askCmd (.wdone h o) (getC t o.a) cZero (toBytes 8 (getW t o.b).toNat ++ toBytes 8 (readCI t o.c).toNat) t s
  askRun c permW true t (.wait s) (fun v => .done (setCur s (setP t o.d (v != 0)))) t s
def wcellRes (h : Hdr) (o : WcellOps) (t : Thread) (s : State) : Res :=
  let c := askCmd (.wcell h o) (getC t o.a) cZero (toBytes 8 (readCI t o.b).toNat ++ toBytes 8 (readCI t o.c).toNat) t s
  askRun c permR true t (.wait s) (fun v => .done (setCur s (setData t o.d (v.setWidth 64 : W64)))) t s
/-- R277, R278: the word makes fD full; with ERR = 0 the return is an acquire at .dev -/
def wholdPut (o : WholdOps) (t : Thread) (s : State) (v : W128) : Res :=
  if v == BitVec.allOnes 128 then .trap s tVersion 0
  else
    let s := if v.extractLsb' 24 8 == 0 then acquireLocal s s.cur.core 4 else s
    .done (setCur s (setF t o.d (.full v)))
/-- A WHOLD that waits: one that stops at its safe point withdraws its request, and fD is empty again (R196, R297). -/
def wholdBlocked (h : Hdr) (o : WholdOps) (t : Thread) (s : State) : Res :=
  match blockSafe h s t with
  | .wait s => .wait (match curThread s with | some u => if u.safe.isSome then setCur s (setF u o.d .empty) else s | none => s)
  | r => r
/-- The request goes once fD is empty, and makes it pending (R297). `safe`: the word is a safe point while it waits -/
def wholdRes (i : Instr) (safe : Bool) (h : Hdr) (o : WholdOps) (t : Thread) (s : State) : Res :=
  let c := askCmd i (getC t o.a) (regOf t o.b) (toBytes 8 (readCI t o.c).toNat) t s
  askRun c permR (getF t o.d == .empty) (setF t o.d .pending) (if safe then wholdBlocked h o t s else .wait s) (wholdPut o t s) t s
def execWdone (h : Hdr) (o : WdoneOps) (s : State) : Host.Outcome State Fault Refusal := runState h (wdoneRes h o) s
def execWcell (h : Hdr) (o : WcellOps) (s : State) : Host.Outcome State Fault Refusal := runState h (wcellRes h o) s
def execWholdWithin (h : Hdr) (o : WholdOps) (s : State) : Host.Outcome State Fault Refusal := runState h (wholdRes (.wholdWithin h o) false h o) s
def execWholdBefore (h : Hdr) (o : WholdOps) (s : State) : Host.Outcome State Fault Refusal := runState h (wholdRes (.wholdBefore h o) false h o) s
def execWholdAfter (h : Hdr) (o : WholdOps) (s : State) : Host.Outcome State Fault Refusal := runState h (wholdRes (.wholdAfter h o) true h o) s

/-- the firing's holds on a layer of a sequence, latest first -/
def myHolds (s : State) (t : Thread) (q : Seq) (l : Nat) : List Hold :=
  (s.work.holds.filter (fun h => h.granted && !h.freed && h.seq == q.id && h.layer == l && h.batch == t.id.batch && h.pos == t.id.pos)).reverse
/-- R283 -/
def wfreeRes (i : Instr) (o : WfreeOps) (t : Thread) (s : State) : Res :=
  let a := getC t o.a
  orStop s (checkHandle a [6] 0)
    (match seqOfHandle s t.id.ctx a with
     | none => .done (setCur s (setP t o.d false))
     | some q => match (myHolds s t q o.layer.toNat).find? (fun h => h.b == readCI t o.b) with
       | none => .done (setCur s (setP t o.d false))
       | some h =>
         let c := askCmd i a cZero (toBytes 8 h.req) t s
         match pushInbox s (.scribe q.die) c with
         | none => .wait s
         | some s =>
           let s := updHolds q (fun x => x.req == h.req) (fun x => { x with freed := true }) s
           .done (setCur s (setP t o.d true)))
def execWfree (h : Hdr) (o : WfreeOps) (s : State) : Host.Outcome State Fault Refusal := runState h (wfreeRes (.wfree h o) o) s

/-! ## Walks (R228-R230, R282, R410, R411) -/

/-- a Kiln access of a core's instruction: what it cannot read is `bad` -/
def aKiln {α : Type} (bad : AM α) (f : KM α) : AM α := fun s =>
  match f s with
  | .ok r => .ok r
  | .error (.wait s) => .error (.wait s)
  | .error _ => bad (match curThread s with | some t => forgetEngEnds s t.id.ctx | none => s)
/-- the marked slots of a group's block whose POS lies in a range -/
def markedIn (x : Layer) (g : Group) (lo hi : Nat) : List (Nat × Nat) :=
  (g.pos.zipIdx.filter (fun p => x.mask.testBit p.2 && decide (lo ≤ p.1 ∧ p.1 < hi))).map (fun p => (p.2, p.1))
def lowest (l : List (Nat × Nat)) : Nat := match l with | [] => 0 | x :: t => t.foldl (fun m y => min m y.2) x.2
def insertByPos (x : Nat × Nat) : List (Nat × Nat) → List (Nat × Nat)
  | [] => [x]
  | y :: t => if x.2 < y.2 then x :: y :: t else y :: insertByPos x t
/-- groups with their lowest positions, in ascending order of these -/
def orderGroups (l : List (Nat × List (Nat × Nat))) : List Nat :=
  (((l.filter (fun x => !x.2.isEmpty)).map (fun x => (x.1, lowest x.2))).foldl (fun t x => insertByPos x t) []).map (·.1)
/-- the groups of a walk as the layer stands -/
def walkGroups (q : Seq) (d : Desc) (j lo hi : Nat) : KM (List Nat) := do
  let ms ← kEach (fun g => do
    let x ← readLayer q d g j
    let gr ← readGroup q d g
    pure (g, markedIn x gr lo hi)) (groupsOf (← view q d))
  pure (orderGroups ms)
def inRange (lo hi : Nat) (l : List (Nat × Nat)) : List (Nat × Nat) := l.filter (fun x => decide (lo ≤ x.2 ∧ x.2 < hi))
/-- the hold a walk reads through: the latest whose positions hold its range -/
def walkHold (s : State) (t : Thread) (q : Seq) (d : Desc) (l lo hi : Nat) : Option Hold :=
  (myHolds s t q l).find? (fun h =>
    decide (holdLo d h.first ≤ lo ∧ min hi (if h.frozen then h.length else d.length) ≤ (h.first + h.count) * d.st))
def kilnStream (a : CReg) (q : BitVec 32) (l lo hi : Nat) (groups : List Nat) (held : Option (List HBlock)) : Stream :=
  { kind := .kiln q l lo hi groups held, cap := a.bits, ebits := 256, count := groups.length, pos := 0 }
/-- the part of a block whose positions lie in a range -/
def HBlock.inside (lo hi : Nat) (b : HBlock) : HBlock := { b with slots := inRange lo hi b.slots }
/-- a walk of blocks that do not change: those of a hold's snapshot moment (R282) -/
def heldWalk (a : CReg) (id : BitVec 32) (l lo hi : Nat) (bs : List HBlock) : Stream :=
  let bs := bs.map (HBlock.inside lo hi)
  kilnStream a id l lo hi (orderGroups (bs.map (fun b => (b.group, b.slots)))) (some bs)
/-- none: the layer is not one to walk. Through a hold whose moment is still to come, a walk shows the present moment, and
its pages are kept till WFREE. -/
def sdefkWalk (a : CReg) (t : Thread) (l lo hi : Nat) (q : Seq) : KM (Option Stream) := do
  let d ← readDesc q
  if d.nlayer < l then pure none
  else match rankOf (← causalLayers q d) l with
    | none => pure none
    | some j => do
      let s ← get
      match walkHold s t q d l lo hi with
      | some h =>
        if h.frozen then pure (some (heldWalk a q.id l lo (min hi h.length) h.blocks))
        else do
          let hi := min hi d.length
          let bs ← blocksNow q d j lo hi
          modify (updHolds q (fun x => x.req == h.req) (fun x => { x with walked := (x.walked ++ bs).eraseDups }))
          pure (some (heldWalk a q.id l lo hi bs))
      | none => do
        let hi := min hi d.length
        pure (some (kilnStream a q.id l lo hi (← walkGroups q d j lo hi) none))
def sdefkAM (o : SdefkOps) (_ : Who) (t : Thread) : AM Thread := do
  let a := getC t o.a
  aLift (checkHandle a [6] permR)
  let b := readCI t o.b
  let lo := (b.extractLsb' 0 32).toNat
  let hi := (b.extractLsb' 32 32).toNat
  let empty := kilnStream a 0 o.layer.toNat lo lo [] none
  match seqOfHandle (← aState) t.id.ctx a with
  | none => aDefine t o.d empty
  | some q => do
    let d ← aKiln (pure (some empty)) (sdefkWalk a t o.layer.toNat lo hi q)
    match d with
    | none => aStop (boundsOf a)
    | some d => aDefine t o.d (if hi ≤ lo then empty else d)
def itemEntries (recVa page : Nat) (seasoned : Bool) (slots : List (Nat × Nat)) : W128 × W128 :=
  (BitVec.ofNat 128 (recVa * 2 ^ 64 + page / 65536 * 65536 % 2 ^ 64 + (if seasoned then 1 else 0)),
   BitVec.ofNat 128 (slots.foldl (fun m x => m ||| 2 ^ x.1) 0))
/-- R228: the item of a group, from its hold or at its homes -/
def walkItem (q : Seq) (l lo hi : Nat) (held : Option (List HBlock)) (g : Nat) : KM (W128 × W128) := do
  let d ← readDesc q
  match held.bind (fun bs => bs.find? (·.group == g)) with
  | some b => pure (itemEntries b.recVa b.page b.seasoned b.slots)
  | none => match rankOf (← causalLayers q d) l with
    | none => kEnd 0x50
    | some j => do
      let x ← readLayer q d g j
      let gr ← readGroup q d g
      pure (itemEntries (recordVa d g j) x.addr x.seasoned (markedIn x gr lo hi))
/-- a group that an item can still show: the view names it, or its pages have left use and are not released -/
def groupStands (s : State) (q : Seq) (v : List VRun) (g : Nat) : Bool :=
  (groupsOf v).contains g || s.work.offcuts.any (fun o => o.seq == q.id && o.page == g && o.rank.isNone && !o.released)
/-- R230: the next item of a walk and the place after it; a group that is gone for good has none, as after its removal -/
def walkNext (q : Seq) (l lo hi : Nat) (gs : List Nat) (held : Option (List HBlock)) (pos : Nat) : KM (Option ((W128 × W128) × Nat)) := do
  let s ← get
  let v ← if held.isSome then pure [] else do view q (← readDesc q)
  match (gs.zipIdx.drop pos).find? (fun x => held.isSome || groupStands s q v x.1) with
  | some (g, i) => do pure (some (← walkItem q l lo hi held g, i + 1))
  | none => pure none
def allOnesEntry : W128 := BitVec.allOnes 128
def isWalk : StreamKind → Bool | .kiln _ _ _ _ _ _ => true | .skip _ => true | _ => false
def pushL (t : Thread) (n : BitVec 2) (vs : List W128) : Thread := setL t n (getL t n ++ vs)
def srdAM (o : SldOps) (w : Who) (t : Thread) : AM Thread := do
  let d ← aStream t o.a isWalk
  match d.kind with
  | .kiln id l lo hi groups held => do
    roomL t o.d 2
    let s ← aState
    match (if groups.length ≤ d.pos then none else seqOf s id) with
    | some q => do
      match ← aKiln (aStop (.trap tData (addrDetail (capCursor d.cap)))) (walkNext q l lo hi groups held d.pos) with
      | some ((x, y), p) => pure (pushL (setAccessStream t o.a { d with pos := p }) o.d [x, y])
      | none => pure (pushL (setAccessStream t o.a { d with pos := groups.length }) o.d [allOnesEntry, allOnesEntry])
    | none => pure (pushL t o.d [allOnesEntry, allOnesEntry])
  | _ => do
    roomL t o.d 1
    let (e, d') ← aSkipEntry w d
    match e with
    | some e => pure (pushL (setAccessStream t o.a d') o.d [e.setWidth 128])
    | none => pure (pushL t o.d [allOnesEntry])
def execSdefk (h : Hdr) (o : SdefkOps) (s : State) : Host.Outcome State Fault Refusal := runM h (sdefkAM o) s
def execSrd (h : Hdr) (o : SldOps) (s : State) : Host.Outcome State Fault Refusal := runM h (srdAM o) s

/-! ## The events -/

def kilnInstrAt (s : State) (dn ix : Nat) : Option Instr := ((die s dn).kiln[ix]?).map (·.instr)
def execSeqopen (s : State) : Host.Outcome State Fault Refusal :=
  .next (match s.cur.arg with
    | .engine (.kiln dn) ix => (match kilnInstrAt s dn ix with | some .seqopen => kilnTurn s dn ix | _ => s)
    | _ => s)
def execSeqclose (s : State) : Host.Outcome State Fault Refusal :=
  .next (match s.cur.arg with
    | .engine (.kiln dn) ix => (match kilnInstrAt s dn ix with | some .seqclose => kilnTurn s dn ix | _ => s)
    | _ => s)
/-- R451: the engine an argument names takes the command at a place of its inbox -/
def engineTurn (s : State) (e : EngineId) (ix : Nat) : State :=
  match e with
  | .copy cl => copyTurn s cl ix
  | .bank q => bankTurn s q
  | .joiner cl => joinerTurn s cl ix
  | .kiln dn => (match kilnInstrAt s dn ix with | some .seqopen => s | some .seqclose => s | _ => kilnTurn s dn ix)
  | .scribe dn => scribeTurn s dn ix
  | _ => s
def execEngineCommandComplete (s : State) : Host.Outcome State Fault Refusal :=
  .next (match s.cur.arg with | .engine e ix => engineTurn s e ix | _ => s)
def execWaveEnterLayer (s : State) : Host.Outcome State Fault Refusal :=
  .next (match argIx s with | some n => advanceSeq (BitVec.ofNat 32 n) (sweepHolds (retryMarks s)) | none => s)
def execEditDeferredApply (s : State) : Host.Outcome State Fault Refusal :=
  .next (match argIx s with | some n => deferredTurn s n | none => s)
def execEditRotationComplete (s : State) : Host.Outcome State Fault Refusal :=
  .next (match argIx s with
    | some n => (match s.work.rotations[n]? with
      | some r => (match rotateEdit r s with | .ok (_, s) => s | .error (.wait w) => keepAsked s w | .error _ => rotateFailed r s)
      | none => s)
    | none => s)
def execAfterHoldGrant (s : State) : Host.Outcome State Fault Refusal :=
  .next (match argIx s with
    | some n => (match s.work.holds.find? (fun h => h.req == n && !h.granted) with
      | some h => runScribe (fun _ => grantAfter n) h.seq s
      | none => s)
    | none => s)

end Sys2Proof.Machine
end

