-- ==== Sys2Proof/Machine/Contexts.lean ====
section
/-! DEFINITION. The message slots, and the management messages that make, schedule and end contexts (R22, R25-R34, R189). -/
namespace Sys2Proof.Machine

/-! ## The staging log (R55) -/

/-- R55: places in the staging log -/
def logCap : Nat := 4096
def logRoom (s : State) : Bool := match s.fw.shoring with | some r => decide (r.log.length < logCap) | none => true
def updShoring (f : Shoring → Shoring) (s : State) : State := { s with fw := { s.fw with shoring := s.fw.shoring.map f } }

/-! ## Slots (R22, R23, R34) -/

def slotCount : Nat := 4096
def slotOfHost (s : State) (n : Nat) : Slot := mget slotReset s.slots n
def setSlot (s : State) (n : Nat) (x : Slot) : State := { s with slots := mset s.slots n x }
/-- STATE leaves 0x01: empty for ERR 0, else refused; a bound vector is raised -/
def leaveSlot (s : State) (n : Nat) (err : Byte) : State :=
  let x := slotOfHost s n
  let s := setSlot s n { x with err := err, state := if err = 0 then 0 else 0x80 }
  match x.vector with | some v => raiseVector s v | none => s

/-! ## Images of management messages (R25-R31) -/

def imageBytes : Nat := 240
def mgmtInstr : Nat → Option Instr
  | 0x01 => some .ctxnew | 0x02 => some .ctxend | 0x03 => some .ctxtrap | 0x04 => some .stockalloc | 0x10 => some .shore
  | 0x11 => some .shoot | 0x12 => some .sched | 0x13 => some .linkcfg | 0x14 => some .slotvec | _ => none
def isMgmt (i : Instr) : Bool :=
  match i with | .ctxnew | .ctxend | .ctxtrap | .stockalloc | .shore | .shoot | .sched | .linkcfg | .slotvec => true | _ => false
/-- offsets and sizes of the fields a message uses beyond OP and TAG -/
def mgmtFields : Nat → List (Nat × Nat)
  | 0x01 => [(0x08, 0x48)]
  | 0x02 => [(0x08, 2)]
  | 0x03 => [(0x08, 2), (0x0C, 5)]
  | 0x04 => [(0x08, 3), (0x0C, 2), (0x10, 8)]
  | 0x10 => [(0x08, 1), (0x10, 12)]
  | 0x11 => [(0x08, 2), (0x10, 16)]
  | 0x12 => [(0x08, 2), (0x10, 32)]
  | 0x13 => [(0x08, 2)]
  | _ => [(0x08, 3)]
/-- R25: the OP is listed, and every reserved or unused byte is 0 -/
def mgmtShapeOk (img : List Byte) : Bool :=
  let op := byteAt img 0
  (mgmtInstr op).isSome && (List.range imageBytes).all (fun i =>
    i == 0 || i == 2 || i == 3 || (mgmtFields op).any (fun f => decide (f.1 ≤ i ∧ i < f.1 + f.2)) || byteAt img i == 0)
def mgmtCmd (img : List Byte) (i : Instr) : Cmd :=
  { instr := i, ctx := 0, core := noCore, cluster := 0, tag := BitVec.ofNat 16 (numAt img 2 2), acq := false, rel := false, scope := 0,
    a := cZero, b := cZero, cmd := 0, body := img, bodyTags := [], reply := .slot 0, req := 0, pa := 0, page := 0 }
/-- the request was staged by the image that is being proved -/
def isStaged (s : State) (c : Cmd) : Bool :=
  match s.fw.shoring with | some r => r.phase == .proving && r.log.any (fun x => x.req == c.req) | none => false
/-- a request that is staged stands in the log -/
def stage (c : Cmd) (s : State) : State := updShoring (fun r => { r with log := r.log ++ [c] }) s
/-- a firmware's reply, held while the request is staged (R55) -/
def fwReply (s : State) (c : Cmd) (r : Record) : State :=
  if isStaged s c then updShoring (fun q => { q with heldReplies := q.heldReplies ++ [(c, r)] }) s else postReply s c r
/-- the reply to a management message; RESULT is 0 with a STATUS that is not (log 56) -/
def mgmtReply (s : State) (c : Cmd) (status result : Nat) : State :=
  fwReply s c (recordOf c.tag (BitVec.ofNat 8 status) engFirmware c.ctx 0 result)

/-! ## Taking a message (R25, R32, R50, R55) -/

def dropFirmware (s : State) (dn : Nat) (c : Cmd) : State :=
  setDie s dn { die s dn with firmware := (die s dn).firmware.eraseP (· == c) }
def pushFirmware (s : State) (dn : Nat) (c : Cmd) : State :=
  setDie s dn { die s dn with firmware := (die s dn).firmware ++ [c] }
/-- the message in hand, or the next of those a shoring staged -/
def mgmtHead (s : State) : Option Cmd := (die s 0).firmware.find? (fun c => isMgmt c.instr)
/-- R50: no Chrogon-M serves: the old one has handed over, and the new one has not accepted -/
def stopsServing (s : State) : Bool :=
  match s.fw.shoring with | some r => r.kind == 0 && (r.phase == .acceptance || r.phase == .fallback || r.phase == .rehandle) | none => false
/-- R25: Chrogon-M acts on messages one at a time; `act c held s` is its act: `held` has the message still, `s` no more. The
request in hand is finished before a hand-over (R50); one that is taken while Chrogon-M is proved is staged (R55). A message taken has
reached the inbox of its die, and wakes what idles there (R478). -/
def mgmtTurn (i : Instr) (act : Cmd → State → State → State) (s : State) : State :=
  if s.host.state != .ready || stopsServing s then s
  else match mgmtHead s with
    | some c => if c.instr == i then act c s (dropFirmware s 0 c) else s
    | none =>
      let x := slotOfHost s 0
      if x.state = 1 ∧ mgmtInstr (byteAt x.image 0) = some i ∧ s.mgmt.held.length < mqHoldCap ∧ !inGap s 0 ∧ (!isProving s 0 || logRoom s) then
        let (id, s) := freshReq s
        let c := { mgmtCmd x.image i with req := id }
        let s := wakeFirmware (leaveSlot s 0 0) 0
        let s := if isProving s 0 then stage c s else s
        act c (pushFirmware s 0 c) s
      else s
/-- a message that ends at once: its status and result, and what it does when the status is 0 -/
def mgmtDone (c : Cmd) (s : State) (r : Except Nat (Nat × State)) : State :=
  match r with | .ok (v, s) => mgmtReply s c 0 v | .error st => mgmtReply s c st 0
def tagOfBody (c : Cmd) : Nat := numAt c.body 0x08 2
/-- the live context a message names -/
def ctxNamed (c : Cmd) (s : State) : Option (BitVec 12 × Ctx) :=
  let n := tagOfBody c
  if n < 4096 then (ctxOf s (BitVec.ofNat 12 n)).map (fun x => (BitVec.ofNat 12 n, x)) else none
def needCtx (c : Cmd) (s : State) (f : BitVec 12 → Ctx → Except Nat (Nat × State)) : Except Nat (Nat × State) :=
  match ctxNamed c s with | some (n, x) => f n x | none => .error 0x4C

/-! ## CTXNEW (R27, R189) -/

def schedReset : SchedRec := { cycles := 0, period := 100, ageing := 100, hbm := 0, girt := 0 }
/-- the scheduling record at an offset; none where a field is out of range or a reserved byte is not 0 -/
def schedAt (img : List Byte) (o : Nat) : Option SchedRec :=
  let r : SchedRec := { cycles := numAt img o 4, period := numAt img (o + 4) 2, ageing := numAt img (o + 6) 2, hbm := numAt img (o + 8) 8,
                        girt := numAt img (o + 16) 8 }
  if 10 ≤ r.period ∧ r.period ≤ 1000 ∧ 1 ≤ r.ageing ∧ numAt img (o + 24) 8 = 0 then some r else none
def arenaSlotBytes : Nat := 136 * 1024
def ctxMax : Nat := 1024
def arenaOverlaps (base n : Nat) (x : Ctx) : Bool := overlap base n x.arenaBase (x.arenaSlots * arenaSlotBytes)
/-- R27: the arena and the root lie in device memory, the arena outside the reserve and every live arena -/
def placesOk (s : State) (arena base root : Nat) : Bool :=
  let n := arena * arenaSlotBytes
  decide (base % 65536 = 0 ∧ root % 65536 = 0) && deviceMem s base n && !inReserve s base n && deviceMem s root 65536 &&
  !s.ctxs.any (fun x => arenaOverlaps base n x.2)
def newCtx (s : State) (img : List Byte) (r : SchedRec) : Ctx :=
  { layout := 0, grant := { perms := BitVec.ofNat 7 (byteAt img 0x0B), base := numAt img 0x20 8, limit := numAt img 0x28 8 }
    arenaBase := numAt img 0x10 8, arenaSlots := numAt img 0x0C 4, arenaUsed := [], root := numAt img 0x18 8
    sched := r, nextSched := none, period := 0, periodStart := s.time, cycles := 0, hbmBytes := 0, girtBytes := 0
    late := [], events := [], evWaits := [], trapQ := none, nextFrame := 1, spentCycles := false, spentBytes := false, ending := false }
/-- R27: of the layouts the running Chrogon-S carries 0 alone (log 56) -/
def ctxnewBody (c : Cmd) (s : State) : Except Nat (Nat × State) :=
  let img := c.body
  let n := tagOfBody c
  let arena := numAt img 0x0C 4
  let lo := numAt img 0x20 8
  let hi := numAt img 0x28 8
  let r := if (img.drop 0x30).take 32 == List.replicate 32 0 then some schedReset else schedAt img 0x30
  match r with
  | none => .error 0x47
  | some r =>
    if n = 0 ∨ n > 4095 ∨ byteAt img 0x0A ≠ 0 ∨ byteAt img 0x0B ≥ 128 ∨ arena < 16 ∨ arena > 65536 ∨ lo ≥ hi ∨ hi > 2 ^ 57 then .error 0x47
    else if (ctxOf s (BitVec.ofNat 12 n)).isSome then .error 0x4D
    else if !placesOk s arena (numAt img 0x10 8) (numAt img 0x18 8) then .error 0x47
    else if s.ctxs.length ≥ ctxMax then .error 0x4E
    else .ok (n, setCtx s (BitVec.ofNat 12 n) (newCtx s img r))
def execCtxnew (s : State) : Host.Outcome State Fault Refusal :=
  .next (mgmtTurn .ctxnew (fun c _ s => mgmtDone c s (ctxnewBody c s)) s)

/-! ## CTXEND (R28) -/

/-- a command that stands behind an edit which waits for items that nothing recomputes any more -/
def isStuck (s : State) (c : Cmd) : Bool := s.work.edits.any (fun e => e.cmds.any (fun x => seqKey x == seqKey c))
def engineLists (s : State) : List Cmd :=
  s.clusters.flatMap (fun c => c.2.copy ++ c.2.joiner) ++ s.dies.flatMap (fun d => d.2.kiln ++ d.2.scribe ++ d.2.bank ++ d.2.firmware)
/-- no firing of the context runs or is pre-empted, and no engine command of it is outstanding -/
def ctxQuiet (s : State) (n : BitVec 12) : Bool :=
  !s.work.frames.any (fun f => f.ctx == n) && !s.work.saved.any (fun v => v.ctx == n) &&
  !(allThreads s).any (fun x => x.2.id.ctx == n && !x.2.id.firmware) &&
  !(engineLists s).any (fun c => c.ctx == n && !isStuck s c)
/-- one sequence closed as SEQCLOSE does; what its structures do not admit is left out -/
def closeSeq (q : Seq) (s : State) : Option State :=
  match (do endWaits q; endSeq q : KM Unit) s with
  | .ok (_, s) => some s
  | .error (.wait _) => none
  | .error _ => some (setWork s { s.work with seqs := s.work.seqs.filter (fun x => x.id != q.id) })
/-- the context's sequences, children before parents; none while one must wait -/
def closeSeqs (n : BitVec 12) : Nat → State → Option State
  | 0, s => some s
  | k + 1, s => match s.work.seqs.find? (fun q => q.ctx == n && (children s q).isEmpty) with
    | none => some s
    | some q => (closeSeq q s).bind (closeSeqs n k)
def notOf (n : BitVec 12) (l : List Cmd) : List Cmd := l.filter (fun c => c.ctx != n)
/-- what engines, clusters and cores hold of a context that is no more -/
def forgetCtx (n : BitVec 12) (s : State) : State :=
  let owned (c : Counter) : Bool := c.owner == some n
  { s with
    clusters := s.clusters.map (fun x => (x.1, { x.2 with
      copy := notOf n x.2.copy, joiner := notOf n x.2.joiner, misses := x.2.misses.map (fun m => if m.ctx == n then { m with waiters := [] } else m),
      touches := x.2.touches.filter (fun t => t.ctx != n),
      dupWrites := x.2.dupWrites.filter (fun t => t.ctx != n), engEnd := x.2.engEnd.filter (fun m => m.1 != n) }))
    dies := s.dies.map (fun x => (x.1, { x.2 with
      kiln := notOf n x.2.kiln, scribe := notOf n x.2.scribe, bank := notOf n x.2.bank, firmware := notOf n x.2.firmware,
      returns := x.2.returns.filter (fun r => !(r.ctr / 4096 == x.1 && owned (mget counterReset x.2.counters (r.ctr % 4096)))),
      counters := x.2.counters.filter (fun c => !owned c.2) }))
    cores := s.cores.map (fun x => (x.1, { x.2 with allow := x.2.allow.filter (fun a => a.ctx != n), missEnd := x.2.missEnd.filter (fun m => m.1 != n) }))
    work := { s.work with
      held := s.work.held.filter (fun h => match h with | .queue c _ _ _ => c != n | .event c _ _ => c != n)
      phComps := s.work.phComps.filter (fun p => p.2.1.ctx != n), edits := s.work.edits.filter (fun e => !e.cmds.any (fun c => c.ctx == n))
      settles := s.work.settles.filter (fun x => x.cmd.ctx != n) }
    ctxs := mdel s.ctxs n.toNat
    slots := s.slots.map (fun x => if x.1 = n.toNat then (x.1, { x.2 with vector := none }) else x) }
def finishCtx (n : BitVec 12) (s : State) : Option State :=
  (closeSeqs n s.work.seqs.length s).map (fun s =>
    freeReplicas (fun r => r.ctx == n) (dropEverywhere n 0 0 true (forgetCtx n s)))
/-- the frames of the context not withdrawn yet, all withdrawn -/
def withdrawCtx (n : BitVec 12) (c : Cmd) (s : State) : Cmd × State :=
  let mine (f : Frame) : Bool := f.ctx == n && !f.withdrawn
  ({ c with page := 1, pa := c.pa + (s.work.frames.filter mine).length }, withdrawFrames mine s)
def ctxendAct (c : Cmd) (held s : State) : State :=
  let n := BitVec.ofNat 12 (tagOfBody c)
  if c.page = 0 then
    if tagOfBody c = 0 then mgmtReply s c 0x47 0
    else match ctxNamed c s with
      | none => mgmtReply s c 0x4C 0
      | some _ =>
        let before := (s.work.frames.filter (fun f => f.ctx == n && f.withdrawn)).length
        let (c', s) := withdrawCtx n { c with pa := before } (updCtx s n (fun x => { x with ending := true }))
        pushFirmware s 0 c'
  else if ctxQuiet held n then
    match finishCtx n s with | some s => mgmtReply s c 0 c.pa | none => held
  else
    let (c', s) := withdrawCtx n c s
    pushFirmware s 0 c'
def execCtxend (s : State) : Host.Outcome State Fault Refusal := .next (mgmtTurn .ctxend ctxendAct s)

/-! ## CTXTRAP, STOCKALLOC, SCHED (R29-R31) -/

/-- R29: a frame that is withdrawn and has not ended does not count as live (log 56) -/
def ctxtrapBody (c : Cmd) (s : State) : Except Nat (Nat × State) :=
  needCtx c s (fun n x =>
    let frame := BitVec.ofNat 32 (numAt c.body 0x0C 4)
    let q := byteAt c.body 0x10
    if q = 0xFF then .ok (0, setCtx s n { x with trapQ := none })
    else match findFrame s n frame with
      | none => .error 0x47
      | some f => match queueAt f q with
        | none => .error 0x47
        | some r =>
          if f.withdrawn || !persistent f || decide (r.item < 64) then .error 0x47
          else .ok (0, setCtx s n { x with trapQ := some (frame, q) }))
def execCtxtrap (s : State) : Host.Outcome State Fault Refusal :=
  .next (mgmtTurn .ctxtrap (fun c _ s => mgmtDone c s (ctxtrapBody c s)) s)

def counterCount : Nat := 4096
/-- the first of n consecutive free counters of a die -/
def freeRun (s : State) (d n : Nat) : Option Nat :=
  let used (k : Nat) : Bool := k == poolCounter || match mfind (die s d).counters k with | some c => c.owner.isSome | none => false
  (List.range (counterCount + 1 - n)).find? (fun k => (List.range n).all (fun i => !used (k + i)))
def allocRun (s : State) (n : BitVec 12) (d first count : Nat) : State :=
  (List.range count).foldl (fun s i => setCounter s d (first + i) { counterReset with owner := some n }) s
def stockHandleOf (d first count : Nat) : CReg :=
  let lo := d * counterCount + first
  ⟨mkCap 5 (permR ||| permW ||| permX ||| permE ||| permG) lo (lo + count) (BitVec.ofNat 64 lo), true⟩
/-- the handle written at OUT; a page that is not there yet makes the message wait -/
def stockallocAct (c : Cmd) (held s : State) : State :=
  let d := byteAt c.body 0x0A
  let count := numAt c.body 0x0C 2
  let out := numAt c.body 0x10 8
  match ctxNamed c s with
  | none => mgmtReply s c 0x4C 0
  | some (n, _) =>
    if d > 1 ∨ count = 0 ∨ count > counterCount ∨ out % 32 ≠ 0 ∨ out ≥ 2 ^ 57 then mgmtReply s c 0x47 0
    else match engPage s 0 n out .store with
      | .error (.wait w) => keepAsked held w
      | .error _ => mgmtReply (forgetEngEnds s n) c 0x47 0
      | .ok (x, w) =>
        -- a message that is refused changes nothing (R25)
        if !x.ct then mgmtReply s c 0x47 0
        else match freeRun s d count with
          | none => mgmtReply s c 0x4E 0
          | some first => match engPutCap w 0 n out (stockHandleOf d first count) with
            | .ok s => mgmtReply (allocRun s n d first count) c 0 first
            | .error (.wait w) => keepAsked held w
            | .error _ => mgmtReply s c 0x47 0
def execStockalloc (s : State) : Host.Outcome State Fault Refusal := .next (mgmtTurn .stockalloc stockallocAct s)

def schedBody (c : Cmd) (s : State) : Except Nat (Nat × State) :=
  needCtx c s (fun n x => match schedAt c.body 0x10 with
    | none => .error 0x47
    | some r => .ok (0, setCtx s n { x with nextSched := some r }))
def execSched (s : State) : Host.Outcome State Fault Refusal :=
  .next (mgmtTurn .sched (fun c _ s => mgmtDone c s (schedBody c s)) s)

/-! ## SHOOT, LINKCFG, SLOTVEC (R31) -/

/-- SHOOT begins the shootdown, which answers it (R90); while Chrogon-S is in its gap the message waits (R50), and while
it is proved the message is staged (R55) -/
def shootAct (c : Cmd) (held s : State) : State :=
  let va := numAt c.body 0x10 8
  let len := numAt c.body 0x18 8
  match ctxNamed c s with
  | none => mgmtReply s c 0x4C 0
  | some (n, _) =>
    if va % 65536 ≠ 0 ∨ len % 65536 ≠ 0 then mgmtReply s c 0x47 0
    else if inGap s 1 || isProving s 1 && !logRoom s then held
    else
      let s := if isProving s 1 then stage c s else s
      beginShoot { ctx := n, base := va, length := len, whole := len == 0, cmd := some c, core := noCore, req := 0, collapse := none } s
def execShoot (s : State) : Host.Outcome State Fault Refusal := .next (mgmtTurn .shoot shootAct s)
def linkcfgBody (c : Cmd) (s : State) : Except Nat (Nat × State) :=
  let n := numAt c.body 0x08 2
  if 1 ≤ n ∧ n ≤ 100 then .ok (s.links.limitMs, { s with links := { s.links with limitMs := n } }) else .error 0x47
def execLinkcfg (s : State) : Host.Outcome State Fault Refusal :=
  .next (mgmtTurn .linkcfg (fun c _ s => mgmtDone c s (linkcfgBody c s)) s)
def slotvecBody (c : Cmd) (s : State) : Except Nat (Nat × State) :=
  let n := numAt c.body 0x08 2
  let v := byteAt c.body 0x0A
  if 1 ≤ n ∧ n ≤ 4095 ∧ v ≤ 62 then
    .ok (0, setSlot s n { slotOfHost s n with vector := if v = 0 then none else some v })
  else .error 0x47
def execSlotvec (s : State) : Host.Outcome State Fault Refusal :=
  .next (mgmtTurn .slotvec (fun c _ s => mgmtDone c s (slotvecBody c s)) s)

end Sys2Proof.Machine
end

