-- ==== Sys2Proof/Machine/Sha.lean ====
section
/-! DEFINITION. SHA-256 (FIPS 180-4) and the verification of HSS signatures with two levels of LMS_SHA256_M32_H10 and
LMOTS_SHA256_N32_W8 (RFC 8554), which R44-R47 name. -/
namespace Sys2Proof.Machine

abbrev W32 := BitVec 32

/-! ## SHA-256 -/

/-- word i of a numeral of n words, the first the most significant -/
def numeralWord (n v i : Nat) : W32 := BitVec.ofNat 32 (v >>> (32 * (n - 1 - i)))
/-- the constants of the 64 rounds, sixteen rounds to a numeral -/
def roundWord (i : Nat) : W32 :=
  numeralWord 16
    (if i < 16 then 0x428A2F9871374491B5C0FBCFE9B5DBA53956C25B59F111F1923F82A4AB1C5ED5D807AA9812835B01243185BE550C7DC372BE5D7480DEB1FE9BDC06A7C19BF174
     else if i < 32 then 0xE49B69C1EFBE47860FC19DC6240CA1CC2DE92C6F4A7484AA5CB0A9DC76F988DA983E5152A831C66DB00327C8BF597FC7C6E00BF3D5A7914706CA635114292967
     else if i < 48 then 0x27B70A852E1B21384D2C6DFC53380D13650A7354766A0ABB81C2C92E92722C85A2BFE8A1A81A664BC24B8B70C76C51A3D192E819D6990624F40E3585106AA070
     else 0x19A4C1161E376C082748774C34B0BCB5391C0CB34ED8AA4A5B9CCA4F682E6FF3748F82EE78A5636F84C878148CC7020890BEFFFAA4506CEBBEF9A3F7C67178F2) (i % 16)
/-- the chaining value before the first block -/
def shaStart : Nat := 0x6A09E667BB67AE853C6EF372A54FF53A510E527F9B05688C1F83D9AB5BE0CD19
/-- n bytes of a number, most significant first -/
def beBytes (n v : Nat) : List Byte := (toBytes n v).reverse
def beNat (bs : List Byte) : Nat := leNat bs.reverse
/-- the message padded to whole blocks -/
def shaPad (m : List Byte) : List Byte := m ++ [0x80] ++ List.replicate ((119 - m.length % 64) % 64) 0 ++ beBytes 8 (8 * m.length)
/-- the sum of three turned copies of x, the last of which drops the bits it turns out when `cut` -/
def mix (x : W32) (p q r : Nat) (cut : Bool) : W32 :=
  x.rotateRight p ^^^ (x.rotateRight q ^^^ (if cut then x >>> r else x.rotateRight r))
/-- the word n + 16 of the schedule, of which `w` holds the latest sixteen, the newest first -/
def nextWord (w : List W32) : W32 :=
  w.getD 15 0 + w.getD 6 0 + mix (w.getD 14 0) 7 18 3 true + mix (w.getD 1 0) 17 19 10 true
/-- a round on the eight working words, with the sum of its constant and its word of the schedule -/
def stepWords (v : List W32) (kw : W32) : List W32 :=
  let x (i : Nat) : W32 := v.getD i 0
  let up := kw + x 7 + mix (x 4) 6 11 25 false + (x 6 ^^^ (x 4 &&& (x 5 ^^^ x 6)))
  (up + mix (x 0) 2 13 22 false + ((x 0 &&& (x 1 ||| x 2)) ||| (x 1 &&& x 2))) ::
    ((v.take 3) ++ ((x 3 + up) :: (v.drop 4).take 3))
/-- the rounds from the i-th on: `w` is the window of the schedule, whose oldest word the round uses -/
def roundsFrom : Nat → Nat → List W32 → List W32 → List W32
  | 0, _, _, v => v
  | n + 1, i, w, v => roundsFrom n (i + 1) (nextWord w :: w.take 15) (stepWords v (roundWord i + w.getD 15 0))
/-- a block's sixteen words in the order of the window -/
def blockWords (block : List Byte) : List W32 :=
  (List.range 16).map (fun i => BitVec.ofNat 32 (beNat ((block.drop (60 - 4 * i)).take 4)))
def absorb : Nat → List W32 → List Byte → List W32
  | 0, v, _ => v
  | n + 1, v, m => absorb n (v.zipWith (· + ·) (roundsFrom 64 0 (blockWords m) v)) (m.drop 64)
/-- SHA-256 of a string of bytes: 32 bytes -/
def sha256 (m : List Byte) : List Byte :=
  let p := shaPad m
  (absorb (p.length / 64) ((List.range 8).map (numeralWord 8 shaStart)) p).flatMap (fun w => beBytes 4 w.toNat)
/-- a string of 32 bytes as a word, byte 0 lowest -/
def digestWord (b : List Byte) : BitVec 256 := BitVec.ofNat 256 (leNat b)
def digestBytes (d : BitVec 256) : List Byte := toBytes 32 d.toNat
def shaWord (m : List Byte) : BitVec 256 := digestWord (sha256 m)
/-- R46: MR := SHA-256(MR ‖ value) -/
def extendMr (mr v : BitVec 256) : BitVec 256 := shaWord (digestBytes mr ++ digestBytes v)

/-! ## LM-OTS, LMS, HSS -/

def lmsType : Nat := 6
def otsType : Nat := 4
def lmsHeight : Nat := 10
def otsCount : Nat := 34
/-- the chain from step a to the end -/
def otsChain (ident : List Byte) (q i : Nat) : Nat → Nat → List Byte → List Byte
  | 0, _, t => t
  | n + 1, j, t => otsChain ident q i n (j + 1) (sha256 (ident ++ beBytes 4 q ++ beBytes 2 i ++ beBytes 1 j ++ t))
/-- the digest with its checksum, digit by digit -/
def otsDigits (qd : List Byte) : List Byte := qd ++ beBytes 2 (qd.foldl (fun n b => n + (255 - b.toNat)) 0)
/-- the candidate of a one-time public key -/
def otsKey (ident : List Byte) (q : Nat) (sig msg : List Byte) : Option (List Byte) :=
  if beNat (sig.take 4) ≠ otsType ∨ sig.length ≠ 36 + 32 * otsCount then none
  else
    let c := (sig.drop 4).take 32
    let qd := sha256 (ident ++ beBytes 4 q ++ beBytes 2 0x8181 ++ c ++ msg)
    let z := (otsDigits qd).zipIdx.map (fun a => otsChain ident q a.2 (255 - a.1.toNat) a.1.toNat ((sig.drop (36 + 32 * a.2)).take 32))
    some (sha256 (ident ++ beBytes 4 q ++ beBytes 2 0x8080 ++ z.flatMap id))
/-- up the tree to the root -/
def lmsClimb (ident : List Byte) : Nat → List (List Byte) → List Byte → List Byte
  | _, [], t => t
  | node, p :: ps, t =>
    let h := ident ++ beBytes 4 (node / 2) ++ beBytes 2 0x8383
    lmsClimb ident (node / 2) ps (if node % 2 = 1 then sha256 (h ++ p ++ t) else sha256 (h ++ t ++ p))
def lmsSigLen : Nat := 4 + (36 + 32 * otsCount) + 4 + 32 * lmsHeight
def lmsKeyLen : Nat := 56
def lmsVerify (key sig msg : List Byte) : Bool :=
  let ident := (key.drop 8).take 16
  let q := beNat (sig.take 4)
  let o := 4 + 36 + 32 * otsCount
  decide (key.length = lmsKeyLen ∧ sig.length = lmsSigLen ∧ beNat (key.take 4) = lmsType ∧ beNat ((key.drop 4).take 4) = otsType ∧
    beNat ((sig.drop o).take 4) = lmsType ∧ q < 2 ^ lmsHeight) &&
  (match otsKey ident q ((sig.drop 4).take (36 + 32 * otsCount)) msg with
   | none => false
   | some k =>
     let leaf := sha256 (ident ++ beBytes 4 (2 ^ lmsHeight + q) ++ beBytes 2 0x8282 ++ k)
     let path := (List.range lmsHeight).map (fun i => (sig.drop (o + 4 + 32 * i)).take 32)
     lmsClimb ident (2 ^ lmsHeight + q) path leaf == key.drop 24)
/-- an HSS signature of two levels -/
def hssVerify (key sig msg : List Byte) : Bool :=
  let pub := (sig.drop (4 + lmsSigLen)).take lmsKeyLen
  decide (beNat (key.take 4) = 2 ∧ beNat (sig.take 4) = 1 ∧ sig.length = 4 + 2 * lmsSigLen + lmsKeyLen) &&
  lmsVerify (key.drop 4) ((sig.drop 4).take lmsSigLen) pub &&
  lmsVerify pub (sig.drop (4 + lmsSigLen + lmsKeyLen)) msg

end Sys2Proof.Machine
end

