-- ==== Sys2Proof/Machine/Images.lean ====
section
/-! DEFINITION. Firmware images: their form and verification, their slots in the reserve, the cores that run them, and the
attestation report (R43-R48). -/
namespace Sys2Proof.Machine

/-! ## The form and the verification of an image (R44, R45) -/

def imageMagic : Nat := 0x43485247
def imageHeader : Nat := 256
def sigBytes : Nat := 2964
def bodyMax : Nat := 512 * 2 ^ 20 - 4096
def headerOk (b : List Byte) : Bool :=
  decide (b.length ≥ imageHeader ∧ numAt b 0 4 = imageMagic ∧ byteAt b 4 ≤ 2 ∧ byteAt b 5 = 0 ∧ numAt b 0x0E 2 = 0 ∧
    numAt b 0x10 4 ≤ bodyMax ∧ numAt b 0x14 4 = sigBytes ∧ numAt b 0x18 8 % 4 = 0) && ((b.drop 0x20).take 224).all (· == 0)
/-- header and body, which the digest covers -/
def signedPart (b : List Byte) : List Byte := b.take (imageHeader + numAt b 0x10 4)
def imageDigest (b : List Byte) : BitVec 256 := shaWord (signedPart b)
def imageTotal (b : List Byte) : Nat := imageHeader + numAt b 0x10 4 + sigBytes
/-- R45: the verifier; the signature covers the digest -/
def imageGood (kind : Nat) (b : List Byte) : Bool :=
  headerOk b && decide (byteAt b 4 = kind ∧ numAt b 6 2 ≥ Config.minSecver kind ∧ b.length ≥ imageTotal b) &&
  hssVerify Config.vendorKey ((b.drop (signedPart b).length).take sigBytes) (digestBytes (imageDigest b))
def imageOf (staged : Bool) (b : List Byte) : Image :=
  { digest := imageDigest b, schema := numAt b 0x0C 2, secver := numAt b 6 2, imgver := numAt b 8 4, bodyLen := numAt b 0x10 4,
    entry := BitVec.ofNat 64 (numAt b 0x18 8), staged := staged }
def noImage : Image := { digest := 0, schema := 0, secver := 0, imgver := 0, bodyLen := 0, entry := 0, staged := false }

/-! ## Slots (R43, log 23) -/

def slotBytes : Nat := 512 * 2 ^ 20
def reserveBase (s : State) (d : Nat) : Nat := stripeBase d + stripeSize s d - 2 ^ 31
/-- the slot of a kind: the active or the staging one -/
def imageSlot (s : State) (kind : Nat) (staged : Bool) : Nat :=
  let i := 2 * kind + (if staged then 1 else 0)
  reserveBase s (i / 3) + i % 3 * slotBytes
/-- where hand-over records stand -/
def recordBase (s : State) : Nat := reserveBase s 0 + 3 * slotBytes
/-- firmware bytes written in the reserve, at their homes -/
def reserveWrite (s : State) (pa : Nat) (b : List Byte) : State := setMem s (paWriteMem s.mem pa b)

/-! ## The cores that run an image (R43) -/

def firmwareCores : List Nat := (List.range 72).map (· + 1024)
def coresOfKind (kind : Nat) : List Nat := firmwareCores.filter (fun k => imageKind k == kind)
/-- R44, log 23: a thread at ENTRY, its code the body in the slot; its registers are as at a start of a firing -/
def firmwareThread (s : State) (kind : Nat) (x : Image) : Thread :=
  let base := imageSlot s kind x.staged + imageHeader
  let code : CReg := ⟨mkCap 0 (permR ||| permX) base (base + x.bodyLen) (BitVec.ofNat 64 base), true⟩
  let id : Ident := { ctx := 0, frame := 0, stage := 0, coord := 0, pos := 0, gang := false, firmware := true, batch := 0 }
  threadReset id code (BitVec.ofNat 64 base + x.entry) s.time
def stopImage (s : State) (kind : Nat) : State :=
  (coresOfKind kind).foldl (fun s k => setCore s k { core s k with thread := none }) s
/-- every core of the kind starts at ENTRY, with no instruction of an earlier image cached -/
def startImage (s : State) (kind : Nat) (x : Image) : State :=
  (coresOfKind kind).foldl (fun s k =>
    setCore s k { core s k with thread := some (firmwareThread s kind x), l1 := (core s k).l1.filter (fun y => isDirty y.2) }) s

/-! ## Measurement (R46) -/

def extendAt (s : State) (i : Nat) (v : BitVec 256) : State :=
  let mr := s.fw.mr
  { s with fw := { s.fw with mr := mr.setIfInBounds i (extendMr (mr.toList.getD i 0) v) } }
/-- the three records of a firmware event (R56, R57) -/
def firmwareEvent (status : Byte) (kind now : Nat) (a b : BitVec 256) : List (List Byte) :=
  [eventRecord status kind now, digestBytes a, digestBytes b]
/-- the event to every event queue of every live context, and to the management queue (R33); its body, which MR4 measures, is
all three records (log 56) -/
def postFirmwareEvent (s : State) (status : Byte) (kind : Nat) (a b : BitVec 256) : State :=
  let now := sinceReady s
  let rs := firmwareEvent status kind now a b
  let r0 := recordOf 0 status engFirmware 0 kind now
  let one (n : BitVec 12) (s : State) (cl : Nat) : State :=
    let s := postOwn s n cl r0
    let s := deliver s (.event n cl { rcd := r0, scope := 5, raw := some a })
    deliver s (.event n cl { rcd := r0, scope := 5, raw := some b })
  let s := s.ctxs.foldl (fun s x => (List.range 64).foldl (one (BitVec.ofNat 12 x.1)) s) s
  mqEvent (extendAt s 4 (shaWord (rs.flatMap id))) rs

/-! ## Attestation (R47, R48) -/

def keyMax : Nat := 1048576
def keyBlock : Nat := 256
/-- A new block of indices is reserved in KEYIDX before its first is used; none when the value does not read back, as where
the world lets the write fail. The index goes on where it is, through a shoring and a fall-back too (log 56). -/
def reserveKeys (fails : Bool) (s : State) : Option State :=
  if s.fw.nextKey < s.fw.keyEnd then some s
  else
    let e := min (s.fw.nextKey + keyBlock) keyMax
    let pa := s.host.hspb.toNat + 8
    let s := hostWrite s pa (toBytes 8 e)
    if !fails && leNat (hostRead s pa 8) = e then some { s with fw := { s.fw with keyEnd := e } } else none
/-- the digest of the committed image of a kind -/
def committedDigest (s : State) (kind : Nat) : BitVec 256 := match mfind s.fw.images kind with | some i => i.digest | none => 0
/-- the digest of the image that runs: a new one from its start at the hand-over on -/
def runningDigest (s : State) (kind : Nat) : BitVec 256 :=
  match s.fw.shoring with
  | some r => if r.kind == kind && (r.phase == .acceptance || r.phase == .proving) then r.image.digest else committedDigest s kind
  | none => committedDigest s kind
/-- the signed part of the report, 512 bytes; 'signatures left' does not count this report's own: the model's choice (log 61) -/
def reportBody (s : State) (n : BitVec 12) (nonce : List Byte) (key : Nat) : List Byte :=
  toBytes 4 0x41545354 ++ toBytes 2 1 ++ toBytes 2 n.toNat ++ toBytes 8 (sinceReady s) ++ nonce ++
  s.fw.mr.toList.flatMap digestBytes ++ (List.range 3).flatMap (fun k => digestBytes (runningDigest s k)) ++
  toBytes 8 s.fw.shorings ++ toBytes 8 (keyMax - (key + 1)) ++ toBytes 8 key ++ toBytes 4 (if s.fw.shoring.isSome then 1 else 0) ++
  List.replicate 180 0
def reportBytes : Nat := 4096
/-- R48: the buffer is a capability with W over at least 4 KiB. That the 4 KiB are counted from its cursor, and the report written there, is
the model's choice (log 61) -/
def reportBuffer (c : Cmd) : Option Nat :=
  let b := bodyCap c 0x20
  if capGood b [0] permW ∧ capBase b.bits ≤ curOf b ∧ curOf b + reportBytes ≤ capLimit b.bits then some (curOf b) else none
/-- a page of the buffer that is not there, or not writable, is answered as a buffer that lacks W (log 56) -/
def attest (fails : Bool) (c : Cmd) : KM Unit := do
  let cl := c.cluster / 32 * 32
  match reportBuffer c with
  | none => kEnd 0x21
  | some va => do
    kFor (fun p => do let _ ← kTry 0x21 0x21 0x21 (fun s => engPage s cl c.ctx p .store); pure ()) (pagesOf va reportBytes)
    let s ← get
    kCheck (decide (s.fw.nextKey < keyMax)) 0x22
    match reserveKeys fails s with
    | none => kEnd 0x23
    | some s => do
      let key := s.fw.nextKey
      let s := { s with fw := { s.fw with nextKey := key + 1 } }
      let body := reportBody s c.ctx (c.body.take 32) key
      let sig := Config.identitySign key body
      set s
      kTry 0x21 0x21 0x21 (fun s => match engWrite s cl c.ctx va (body ++ (sig ++ List.replicate sigBytes 0).take sigBytes) with
        | .ok s => .ok ((), s) | .error e => .error e)
/-- the record an ATTEST ends with; R48 gives its status alone, and the model puts 0 into BYTES and RESULT (its choice, log 61); sent, or held while Chrogon-M is being proved (R55) -/
def attestReply (c : Cmd) (status : Nat) (s : State) : State :=
  let s := if isProving s 0 then stage c s else s
  fwReply s c (recordOf c.tag (BitVec.ofNat 8 status) engFirmware c.ctx 0 0)
def attestAct (fails : Bool) (c : Cmd) (held s : State) : State :=
  match attest fails c s with
  | .ok (_, s) => attestReply c 0 s
  | .error (.status n) => attestReply c n (forgetEngEnds s c.ctx)
  | .error (.wait w) => keepAsked held w
  | .error .fatal => s
def isAttest (i : Instr) : Bool := match i with | .attest => true | _ => false
/-- R48: the die's Chrogon-M takes the first request of its inbox -/
def attestTurn (fails : Bool) (s : State) (dn ix : Nat) : State :=
  let l := (die s dn).firmware
  if s.host.state != .ready || stopsServing s || inGap s 0 || (isProving s 0 && !logRoom s) || (l.take ix).any (fun c => isAttest c.instr) then s
  else match l[ix]? with
    | some c =>
      if isAttest c.instr then
        let (id, s) := freshReq s
        let s' := setDie s dn { die s dn with firmware := dropAt l ix }
        attestAct fails (if isProving s 0 then { c with req := id } else c) s s'
      else s
    | none => s
def execAttest (s : State) : Host.Outcome State Fault Refusal :=
  .next (match s.cur.arg with | .engine (.firmware dn) ix => attestTurn false s dn ix | .keyFail dn ix => attestTurn true s dn ix | _ => s)

end Sys2Proof.Machine
end

