-- ==== Sys2Proof/Machine/Paging.lean ====
section
/-! DEFINITION. Chrogon-S at work: walks, first touch, replicas, collapses and shootdowns (R86-R97). -/
namespace Sys2Proof.Machine

/-! ## The first-touch unit (R92-R94) -/

def coreOf (k : Nat) : Option Nat := if k = noCore then none else some k
def dropTouch (s : State) (cl : Nat) (t : Touch) : State := setCluster s cl { cluster s cl with touches := (cluster s cl).touches.erase t }
def installBoth (s : State) (cl k : Nat) (e : TlbEntry) : State :=
  let s := installCluster s cl e
  if k = noCore then s else installCore s k e
/-- a zero-fill fault served, or sent on as a miss while the pool is empty; it stays while the pool's counter is busy -/
def serveTouch (s : State) (cl : Nat) (t : Touch) : State :=
  let miss (s : State) : State := sendMiss s cl (coreOf t.core) t.ctx t.va .zeroFill
  if !hasFirstTouch s then miss (dropTouch s cl t)
  else match firstTouch s cl { ctx := t.ctx, va := t.va, leaf := t.leaf, leafPa := t.leafPa } with
    | .got (some e) s => installBoth (dropTouch s cl t) cl t.core e
    | .got none s => dropTouch s cl t
    | .empty s => miss (dropTouch s cl t)
    | .wait s => s
/-- a frame that Chrogon-S may use: a whole one of device memory that no pool and no replica has -/
def spareFrame (s : State) (f : Nat) : Bool :=
  f % 65536 == 0 && deviceMem s f 65536 && !inReserve s f 65536 && !(die s (dieOfPa f)).ring.contains f &&
  !s.work.replicas.any (fun r => r.frame == f)
/-- R93: a frame Chrogon-S has readied for a pool that is below its bound -/
def refillPool (s : State) (f : Nat) : State :=
  let d := dieOfPa f
  if running s && !inGap s 1 && spareFrame s f &&
    decide ((die s d).ring.length < (counterOf s d poolCounter).b) then poolRefill s f else s
/-! ## Entries of the tables -/

/-- the table's entry for a page, with its place -/
def tableLeaf (s : State) (ctx : BitVec 12) (va : Nat) : Option (W64 × Nat) := match walkCtx s ctx va with | .leaf e pa => some (e, pa) | .bad => none
def dupBit : W64 := 1#64 <<< 15
def repBit : W64 := 1#64 <<< 5
def wBit : W64 := 1#64 <<< 59

/-! ## Walks (R86, R88, R89, R99) -/

def entryFor (ctx : BitVec 12) (va : Nat) (leaf : W64) (pa : Nat) : TlbEntry :=
  { ctx := ctx, va := va / pageSize leaf * pageSize leaf, leaf := leaf, leafPa := pa }
/-- the head miss ends with an entry, in the cluster's TLB and the waiting cores' -/
def fillHead (s : State) (cl : Nat) (m : Miss) (e : TlbEntry) : State :=
  dropHeadMiss (installWaiters e m (installCluster s cl e)) cl
def failHead (s : State) (cl : Nat) (m : Miss) (how : MissEnd) : State := dropHeadMiss (endMiss cl how m s) cl
def isLoadKind : MissKind → Bool | .store => false | .atomic => false | _ => true
/-- a read of a DUP page that has no entry of its own, which replication serves (R95) -/
def wantsReplica (m : Miss) (e : W64) : Bool := leafDup e && isLoadKind m.kind
/-- Chrogon-S serves the head miss of a cluster; a zero-fill miss takes a frame of the pool when it has one -/
def serveMiss (s : State) (cl : Nat) : State :=
  if inGap s 1 then s
  else match (cluster s cl).misses with
    | [] => s
    | m :: _ =>
      match tableLeaf s m.ctx m.va with
      | none => failHead s cl m .fault
      | some (e, pa) =>
        if collapsing s m.ctx m.va then s
        else if leafPeer e != 0 && peerLost s (leafPeer e) then failHead s cl m .peerLost
        else if leafRefused s m.ctx e then failHead s cl m .fault
        else if wantsReplica m e then s
        else if m.kind == .zeroFill && leafAnon e then
          match firstTouch s cl (entryFor m.ctx m.va e pa) with
          | .got (some e') s => fillHead s cl m e'
          | .got none s => failHead s cl m .fault
          | .empty s => s
          | .wait s => s
        else fillHead s cl m (entryFor m.ctx m.va e pa)

/-- R94: the pool is empty: the walker zeroes a frame itself for the zero-fill miss at the head -/
def walkerFill (s : State) (cl f : Nat) : State :=
  if !running s || inGap s 1 || dieOfPa f != dieOfCluster cl || !spareFrame s f || !(die s (dieOfCluster cl)).ring.isEmpty then s
  else match (cluster s cl).misses with
    | [] => s
    | m :: _ => match tableLeaf s m.ctx m.va with
      | none => s
      | some (e, pa) =>
        if m.kind == .zeroFill && leafAnon e && !collapsing s m.ctx m.va && !leafRefused s m.ctx e then
          match fillLeaf (zeroFrame s f) (dieOfCluster cl) (entryFor m.ctx m.va e pa) f with
          | (some e', s) => fillHead s cl m e'
          | (none, s) => failHead s cl m .fault
        else s
def execFirstTouchServe (s : State) : Host.Outcome State Fault Refusal :=
  .next (match s.cur.arg with
    | .ix2 cl i => (match (cluster s cl).touches[i]? with | some t => serveTouch s cl t | none => s)
    | .value f => refillPool s f.toNat
    | .ix3 cl f _ => walkerFill s cl f
    | _ => s)

/-! ## Read duplication (R95) -/

/-- the die's replica of a page, unless a shootdown of the page has begun (R97) -/
def replicaOf (s : State) (ctx : BitVec 12) (va d : Nat) : Option Replica :=
  s.work.replicas.find? (fun r => !r.stale && r.ctx == ctx && r.die == d && decide (r.va ≤ va ∧ va < r.va + pageSize r.leaf))
/-- R82: the entry of a local replica -/
def replicaLeaf (e : W64) (frame : Nat) : W64 := leafSetFrame ((e &&& ~~~wBit) ||| repBit) frame
/-- the page copied to a frame, sector by sector, at the homes -/
def copyFrame (m : Mem) (src dst : Nat) : Nat → Mem
  | 0 => m
  | n + 1 => copyFrame { m with l2 := mset m.l2 dst { homeView m src with dirty := true }, hostCopies := sdel m.hostCopies (dst / 4) } (src + 1) (dst + 1) n
/-- where the page's data is: the host's memory or the peer's -/
def originSector (e : W64) : Nat := (leafPeer e * paSpace + leafFrame e) / 64
def takeFrame (s : State) (cl : Nat) (e : W64) : FrameEnd :=
  if s.host.on1.getLsbD 9 && leafT e == 1 then poolTake s (walkAgent cl) (dieOfCluster cl) else .empty s
/-- A read of a DUP page served. Whether the copy of a peer's page that makes a replica counts for the context's girt bytes is not said; the
model counts none: its choice (log 61). -/
def replicate (s : State) (cl : Nat) : State :=
  if inGap s 1 then s
  else match (cluster s cl).misses with
    | [] => s
    | m :: _ =>
      match tableLeaf s m.ctx m.va with
      | none => s
      | some (e, pa) =>
        let d := dieOfCluster cl
        if !wantsReplica m e || collapsing s m.ctx m.va || leafRefused s m.ctx e || (leafPeer e != 0 && peerLost s (leafPeer e)) ||
          portWaits s (xlatOf (entryFor m.ctx m.va e pa) m.va) then s
        else match replicaOf s m.ctx m.va d with
          | some r => fillHead s cl m (entryFor m.ctx m.va (replicaLeaf e r.frame) pa)
          | none => match takeFrame s cl e with
            | .wait s => s
            | .empty s => fillHead s cl m (entryFor m.ctx m.va (e &&& ~~~wBit) pa)
            | .got f s =>
              let s := setMem s (copyFrame s.mem (originSector e) (f / 64) 1024)
              let r : Replica := { ctx := m.ctx, va := pageOf m.va, die := d, frame := f, leaf := e, leafPa := pa, stale := false }
              fillHead (setWork s { s.work with replicas := s.work.replicas ++ [r] }) cl m (entryFor m.ctx m.va (replicaLeaf e f) pa)
def execDupReadReplicate (s : State) : Host.Outcome State Fault Refusal :=
  .next (match argIx s with | some cl => replicate s cl | none => s)

/-! ## Collapse (R96) -/

def dropDupWrite (s : State) (cl : Nat) : State := setCluster s cl { cluster s cl with dupWrites := (cluster s cl).dupWrites.tail }
/-- the oldest write of a cluster to a DUP page: DUP is cleared in the table, and the page is shot down -/
def collapse (s : State) (cl : Nat) : State :=
  if inGap s 1 then s
  else match (cluster s cl).dupWrites with
    | [] => s
    | t :: _ =>
      let s := dropDupWrite s cl
      if collapsing s t.ctx t.va then s
      else
        let s := match tableLeaf s t.ctx t.va with
          | some (e, pa) => if leafDup e then setMem s (homeWriteQword s.mem pa (e &&& ~~~dupBit)) else s
          | none => s
        let size := pageSize t.leaf
        beginShoot { ctx := t.ctx, base := t.va / size * size, length := size, whole := false, cmd := none, core := cl, req := 0, collapse := some t } s
def execDupWriteCollapse (s : State) : Host.Outcome State Fault Refusal :=
  .next (match argIx s with | some cl => collapse s cl | none => s)
/-- the original entry is installed for the writer, unless it names a lost peer (R99) -/
def finishCollapse (d : Shootdown) (t : Touch) (s : State) : State :=
  match tableLeaf s t.ctx t.va with
  | some (e, pa) =>
    if leafRefused s t.ctx e || (leafPeer e != 0 && peerLost s (leafPeer e)) then s else installBoth s d.core t.core (entryFor t.ctx t.va e pa)
  | none => s

/-! ## Shootdowns (R90, R91) -/

/-- what waits for a shootdown goes on: SHOOT's reply, a TLBINV, a collapse -/
def endShoot (d : Shootdown) (s : State) : State :=
  match d.cmd, d.collapse with
  | some c, _ => mgmtReply s c 0 0
  | none, some t => finishCollapse d t s
  | none, none => answer s d.core d.req 1
def shootdownAt (s : State) (i : Nat) : State :=
  match s.work.shootdowns[i]? with
  | none => s
  | some d =>
    if !shootReady s d then s
    else
      let s := setWork s { s.work with shootdowns := dropAt s.work.shootdowns i }
      endShoot d (freeReplicas (shotReplica d) (ackShoot d s))
def execShootdownComplete (s : State) : Host.Outcome State Fault Refusal :=
  .next (match argIx s with | some i => shootdownAt s i | none => s)

end Sys2Proof.Machine
end

