-- ==== Sys2Proof/Machine/Shoring.lean ====
section
/-! DEFINITION. Shoring: the phases of R50, their limits, the watchdog, commit and fall-back (R49-R58). -/
namespace Sys2Proof.Machine

/-! ## Limits, in ns from the start of a phase (R50) -/

def stageLimit : Nat := 200000000
def handoverLimit : Nat := 10000000
def gapLimit (kind : Nat) : Nat := if kind = 1 then 200000 else 5000000

/-- the shoring in a phase -/
def shoringIn (s : State) (p : ShorePhase) : Option Shoring := match s.fw.shoring with | some r => if r.phase == p then some r else none | none => none
def setShoring (s : State) (r : Option Shoring) : State := { s with fw := { s.fw with shoring := r } }
def toPhase (s : State) (r : Shoring) (p : ShorePhase) : State := setShoring s (some { r with phase := p, since := s.time })
def past (s : State) (r : Shoring) (limit : Nat) : Bool := decide (s.time ≥ r.since + limit)
/-- the reply to SHORE -/
def shoreReply (s : State) (r : Shoring) (status : Nat) : State :=
  mqReply s (recordBytes (recordOf r.tag (BitVec.ofNat 8 status) engFirmware 0 0 r.kind))
/-- R52: a port's retraining stops to count while no Chrogon-F serves -/
def pausePort (now : Nat) (x : Port) : Port :=
  match x.retrainFrom with | some t => { x with retrainFrom := none, retrainUsed := x.retrainUsed + (now - t) } | none => x
def resumePort (now : Nat) (x : Port) : Port := if x.state == .retraining && x.retrainFrom.isNone then { x with retrainFrom := some now } else x
def mapPorts (f : Port → Port) (s : State) : State := { s with links := { s.links with ports := s.links.ports.map (fun x => (x.1, f x.2)) } }
/-- the gap of a kind begins: retraining waits while Chrogon-F is shored -/
def pauseRetraining (kind : Nat) (s : State) : State := if kind = 2 then mapPorts (pausePort s.time) s else s
/-- the gap of a kind ends: what waited goes on -/
def resumeRetraining (kind : Nat) (s : State) : State := if kind = 2 then mapPorts (resumePort s.time) s else s
/-- the shoring ends before the new image has started: the staging slot is cleared, the old image serves on -/
def endShoring (s : State) (r : Shoring) (status : Nat) : State :=
  let old := match mfind s.fw.images r.kind with | some i => i.staged | none => false
  let s := setMem s (zeroMem s.mem (imageSlot s r.kind (!old)) slotBytes)
  let s := dropSectors s (imageSlot s r.kind (!old) / 64) ((imageSlot s r.kind (!old) + slotBytes) / 64)
  shoreReply (resumeRetraining r.kind (setShoring s none)) r status

/-! ## SHORE (R31, R42, R49) -/

def shoreAct (c : Cmd) (_ s : State) : State :=
  let kind := byteAt c.body 0x08
  let addr := numAt c.body 0x10 8
  let len := numAt c.body 0x18 4
  let reply (n : Nat) : State := mgmtReply s c n kind
  if kind > 2 ∨ addr % 4096 ≠ 0 ∨ len < 256 ∨ len > slotBytes ∨ hostBase + addr + len > paSpace then reply 0x03
  else if !s.host.on1.getLsbD (5 + kind) then reply 0x01
  else if s.fw.shoring.isSome then reply 0x02
  else setShoring s (some { kind := kind, phase := .stage, since := s.time, tag := c.tag, addr := addr, len := len, image := noImage,
                            record := [], status := 0, log := [], heldReplies := [] })
def execShore (s : State) : Host.Outcome State Fault Refusal := .next (mgmtTurn .shore shoreAct s)

/-! ## Stage and hand-over (R50, R53) -/

/-- the image copied into the staging slot and verified -/
def stageComplete (s : State) : State :=
  match shoringIn s .stage with
  | none => s
  | some r =>
    if past s r stageLimit then s
    else
      let b := hostRead s r.addr r.len
      let old := match mfind s.fw.images r.kind with | some i => i.staged | none => false
      if imageGood r.kind b then pauseRetraining r.kind (toPhase (reserveWrite s (imageSlot s r.kind (!old)) b) { r with image := imageOf (!old) b } .handover)
      else endShoring s r 0x03
def execShoreStageComplete (s : State) : Host.Outcome State Fault Refusal := .next (stageComplete s)
def execShoreStageTimeout (s : State) : Host.Outcome State Fault Refusal :=
  .next (match shoringIn s .stage with | some r => if past s r stageLimit then endShoring s r 0x03 else s | none => s)
/-- a request of the image in hand -/
def inHand (s : State) (kind : Nat) : Bool := kind == 0 && (mgmtHead s).isSome
/-- R50, R53: the old image has written its record; the new one starts at ENTRY, and the gap limit runs -/
def handover (s : State) (record : List Byte) : State :=
  match shoringIn s .handover with
  | none => s
  | some r =>
    if past s r handoverLimit || inHand s r.kind then s
    else
      let s := reserveWrite s (recordBase s) record
      toPhase (startImage s r.kind r.image) { r with record := record } .acceptance
def execHandoverRecordWritten (s : State) : Host.Outcome State Fault Refusal :=
  .next (match s.cur.arg with | .record b => handover s b | _ => s)
def execHandoverTimeout (s : State) : Host.Outcome State Fault Refusal :=
  .next (match shoringIn s .handover with | some r => if past s r handoverLimit then endShoring s r 0x04 else s | none => s)

/-! ## Acceptance (R50, R52, R53) -/

def recordMax : Nat := 64 * 2 ^ 20
/-- R53: the new image accepts the record -/
def recordGood (kind schema : Nat) (b : List Byte) : Bool :=
  let n := numAt b 4 4
  decide (b.length ≥ 32 + n ∧ numAt b 0 2 = kind + 1 ∧ (numAt b 2 2 = schema ∨ numAt b 2 2 + 1 = schema) ∧ n ≤ recordMax) &&
  ((b.drop 0x0C).take 20).all (· == 0) &&
  (crcValue (crcBytes (BitVec.allOnes 32) ((b.drop 32).take n))).toNat == numAt b 8 4
/-- the watchdog stops the new image's cores (R57) -/
def startFallback (s : State) (r : Shoring) (status : Byte) : State :=
  pauseRetraining r.kind (toPhase (stopImage s r.kind) { r with status := status } .fallback)
def acceptance (s : State) : State :=
  match shoringIn s .acceptance with
  | none => s
  | some r =>
    if past s r (gapLimit r.kind) then s
    else if recordGood r.kind r.image.schema r.record then
      resumeRetraining r.kind (toPhase s r .proving)
    else startFallback s r 0x05
def execShoreAcceptance (s : State) : Host.Outcome State Fault Refusal := .next (acceptance s)
def execShoreGapLimitExpiry (s : State) : Host.Outcome State Fault Refusal :=
  .next (match shoringIn s .acceptance with | some r => if past s r (gapLimit r.kind) then startFallback s r 0x06 else s | none => s)

/-! ## Proving (R54) -/

def coreStopped (s : State) (k : Nat) : Bool := match threadOf s k with | some t => t.fw.stopped | none => false
/-- R54: the status with which the watchdog starts a fall-back -/
def watchdogStatus (s : State) (r : Shoring) : Option Byte :=
  if (coresOfKind r.kind).any (coreStopped s) then some 0x08
  else if (coresOfKind r.kind).any (coreLate s r) then some 0x07
  else none
def execWatchdogHeartbeatMiss (s : State) : Host.Outcome State Fault Refusal :=
  .next (match shoringIn s .proving with
    | some r => (match watchdogStatus s r with | some st => startFallback s r st | none => s)
    | none => s)

/-! ## Commit (R55, R56) -/

/-- the replies that are held, in log order, each once (R55, R57) -/
def releaseReplies (r : Shoring) (s : State) : State :=
  r.log.foldl (fun s c => match r.heldReplies.find? (fun x => x.1.req == c.req) with | some x => postReply s x.1 x.2 | none => s) s
def commit (s : State) : State :=
  match shoringIn s .proving with
  | none => s
  | some r =>
    if !past s r provingTime || (watchdogStatus s r).isSome then s
    else
      let old := committedDigest s r.kind
      let s := extendAt s (r.kind + 1) r.image.digest
      let s := setShoring { s with fw := { s.fw with images := mset s.fw.images r.kind r.image, shorings := s.fw.shorings + 1 } } none
      let s := shoreReply s r 0x00
      let s := postFirmwareEvent s 0xE1 r.kind old r.image.digest
      releaseReplies r s
def execShoreCommit (s : State) : Host.Outcome State Fault Refusal := .next (commit s)

/-! ## Fall-back (R57) -/

/-- the watchdog watches the image of a kind from now on; when heartbeats came is not changed -/
def rewatch (s : State) (kind : Nat) : State := { s with fw := { s.fw with watchFrom := mset s.fw.watchFrom kind s.time } }
/-- A staged request handled again by the old image: an ATTEST writes its report anew; a management request, whose effect stands
and is the same under either image, sends the reply that was held (log 57). -/
def rehandleOne (r : Shoring) (c : Cmd) (s : State) : Except State State :=
  if isAttest c.instr then
    match attest false c s with
    | .error (.wait w) => .error (keepAsked s w)
    | _ => .ok (attestAct false c s s)
  else match r.heldReplies.find? (fun x => x.1.req == c.req) with
    | some x => .ok (postReply s x.1 x.2)
    | none => .ok s
/-- the staged requests handled again in log order; one that must wait keeps those behind it -/
def rehandle (r : Shoring) : List Cmd → State → State
  | [], s => setShoring s none
  | c :: t, s => match rehandleOne r c s with
    | .ok s => rehandle r t s
    | .error w => setShoring w (some { r with log := c :: t })
/-- the misses that stand in a cluster's queue served, as far as they can be now -/
def serveQueued (s : State) (cl : Nat) : State := (cluster s cl).misses.foldl (fun s _ => serveMiss s cl) s
/-- the old image resumes from its slot, serves the misses that are queued, and handles every staged request again; the key index goes
on (log 56) -/
def resumeOld (s : State) (r : Shoring) : State :=
  let old := match mfind s.fw.images r.kind with | some i => i | none => noImage
  let s := resumeRetraining r.kind (rewatch (startImage s r.kind old) r.kind)
  let r := { r with phase := .rehandle }
  let s := postFirmwareEvent (setShoring s (some r)) 0xE2 r.kind r.image.digest old.digest
  let s := shoreReply s r r.status.toNat
  rehandle r r.log (if r.kind = 1 then (s.clusters.map (·.1)).foldl serveQueued s else s)
def fallbackComplete (s : State) : State :=
  match s.fw.shoring with
  | none => s
  | some r => match r.phase with
    | .fallback => resumeOld s r
    | .rehandle => rehandle r r.log s
    | _ => s
def execShoreFallbackComplete (s : State) : Host.Outcome State Fault Refusal := .next (fallbackComplete s)

/-! ## A committed image is lost (R54, R59) -/

def execCommittedHeartbeatLoss (s : State) : Host.Outcome State Fault Refusal :=
  .next (if s.host.state == .negotiate || s.host.state == .ready then
      (match firmwareCores.find? (lostCore s) with | some k => fatalError s 2 (dieOf k) 0 | none => s)
    else s)

end Sys2Proof.Machine
end

