-- ==== Sys2Proof/Machine/Start.lean ====
section
/-! DEFINITION. Power loss, the start sequence, and the acceptance of features (R18, R32, R35-R42). -/
namespace Sys2Proof.Machine

/-! ## The start parameter block (R36) -/

def blockNum (s : State) (o n : Nat) : Nat := leNat (hostRead s (s.host.hspb.toNat + o) n)
def blockPut (s : State) (o : Nat) (b : List Byte) : State := hostWrite s (s.host.hspb.toNat + o) b
/-- a code the spec does not list (log 10) -/
def freeCode (s : State) : BitVec 16 × State := let (v, s) := freeValue s; (v.setWidth 16, s)
/-- a failing step: FAILED, a code, and nothing more until the next START (R37) -/
def failStart (s : State) : State :=
  let (c, s) := freeCode s
  raiseState (setState (abandon { s with host := { s.host with fcode := c } }) .failed)

/-! ## HCTL (R35) -/

def hctlWarm (w : W64) (h : HostRegs) : HostRegs := { h with warm := w.getLsbD 1, memkeep := w.getLsbD 2 }
/-- a change of FCODE raises vector 63 (R34) -/
def setFcode (s : State) (c : BitVec 16) : State :=
  if s.host.fcode = c then s else raiseState { s with host := { s.host with fcode := c } }
/-- bindings end (R34), and what is posted is refused (R40) -/
def endSlots (s : State) : State :=
  let s : State := { s with slots := s.slots.map (fun x => (x.1, { x.2 with vector := none })) }
  (s.slots.filter (fun x => x.2.state == 1)).foldl (fun s x => leaveSlot s x.1 0x81) s
/-- R39: everything under way is abandoned; FCODE is 0 from the new start on (log 56) -/
def clearWork (s : State) : State :=
  let s := setFcode (endSlots (abandon s)) 0
  { s with fw := fwReset
           mgmt := { held := [], lost := 0 }
           host := { s.host with mqHead := 0, mqTail := 0, coldForced := false, state := .fuse, on1 := 0, on2 := 0,
                                 offer := [], firstBeats := [] } }

/-! ## The steps (R37, R38) -/

/-- FUSE: the block is read, FAILCNT + 1 written; MR0 measures fuses and ROM (R46) -/
def stepFuse (s : State) : State :=
  let f := blockNum s 0 8
  let key := blockNum s 8 8
  let cold := s.host.wasWarm && decide (f ≥ 3)
  let n := min 255 (f + 1)
  let s := { s with host := { s.host with coldForced := cold, dumpArea := blockNum s 0x10 8, mqBase := blockNum s 0x830 8, mqLen := blockNum s 0x838 4,
                                          failCnt := BitVec.ofNat 8 n }
                    fw := { s.fw with nextKey := key, keyEnd := key } }
  extendAt (extendAt (blockPut s 0 (toBytes 8 n)) 0 Config.fuseDigest) 0 Config.romDigest
/-- the start is warm, and keeps memory -/
def warmNow (s : State) : Bool := s.host.wasWarm && !s.host.coldForced
def keepsMemory (s : State) : Bool := warmNow s && s.host.wasKeep
/-- the image of a kind, as the host holds it -/
def hostImage (s : State) (kind : Nat) : List Byte :=
  let a := blockNum s (0x18 + 8 * kind) 8
  let n := leNat (hostRead s (a + 0x10) 4)
  hostRead s a (imageHeader + min n bodyMax + sigBytes)
/-- HBMTRAIN: failing and marked channels leave the map (R38, R68) -/
def isDeviceByte (a : Nat) : Bool := decide (a < hostBase)
def trainChannels (failed : List Nat) (s : State) : State :=
  { s with hbm := { s.hbm with absent := (List.range channelCount).filter (fun q => failed.contains q || s.hbm.removed.contains q) } }
/-- what memory holds beside the device's own -/
def outsideMem (m : Mem) : Mem :=
  { m with cells := m.cells.filter (fun x => !isDeviceByte x.1), tags := m.tags.filter (fun x => !isDeviceByte (x * 32))
           poison := m.poison.filter (fun x => !isDeviceByte (x * 64)), streamed := m.streamed.filter (fun x => !isDeviceByte (x.1 * 64)) }
/-- ECCINIT: all usable memory is zero -/
def zeroDevice (s : State) : State := setMem s { outsideMem s.mem with stale := none, fresh := [] }
/-- marks do not survive a start (R38) -/
def dropMarks (s : State) : State := { s with hbm := { s.hbm with removed := [], corrected := [], uncorrectable := [] } }
/-- LINKTRAIN: the ports that are not up are trained, all of them at a cold start (R37, R38); peers behind a port that is
down are lost -/
def trainPort (trained : List Nat) (s : State) (p : Nat) : State :=
  let x := mget portReset s.links.ports p
  if warmNow s && x.state == .up then s
  else if trained.contains p then
    blockPut { s with links := { s.links with ports := mset s.links.ports p { portReset with state := .up } } } (0x30 + 256 * p)
      ((Config.linkParam p ++ List.replicate 256 0).take 256)
  else { s with links := { s.links with ports := mset s.links.ports p portReset } }
def stepLinks (env : StartEnv) (s : State) : State :=
  let s := (List.range 8).foldl (trainPort env.trainedPorts) s
  let routes := (env.routes.filter (fun x => decide (1 ≤ x.1 ∧ x.1 ≤ 255 ∧ x.2 < 8))).foldl (fun m x => mset m x.1 x.2) []
  let down (p : Nat) : Bool := (mget portReset s.links.ports p).state != .up
  let peers : Map Peer := routes.map (fun x => (x.1, { lost := down x.2, epoch := (mget ⟨false, 0⟩ s.links.peers x.1).epoch }))
  { s with links := { s.links with routes := routes, limitMs := 10, peers := peers } }
/-- R93: the pool's bound, as Chrogon-S sets it -/
def poolBound : Nat := 16384
def stepPools (s : State) : State :=
  (List.range 2).foldl (fun s d => setCounter s d poolCounter { counterReset with owner := some 0, b := poolBound }) s
/-- IMGLOAD: an image stands in its active slot, measured; its cores start -/
def loadImage (s : State) (kind : Nat) : State :=
  let b := hostImage s kind
  let x := imageOf false b
  let s := reserveWrite s (imageSlot s kind false) b
  startImage (extendAt { s with fw := { s.fw with images := mset s.fw.images kind x } } (kind + 1) x.digest) kind x
def stepImages (s : State) : State :=
  let s := (List.range 3).foldl loadImage s
  { s with host := { s.host with state := .imgload, imgLoadAt := s.time, firstBeats := firmwareCores } }
/-- START: what is under way is abandoned, and the start begins (R37, R39) -/
def startSequence (w : W64) (env : StartEnv) (s : State) : State :=
  let s := clearWork { s with host := hctlWarm w s.host }
  { s with host := { s.host with env := env, wasWarm := s.host.warm, wasKeep := s.host.memkeep } }
/-- the step that STATE names is done, up to IMGLOAD, which waits for first heartbeats (R37, R38) -/
def startStep (s : State) : State :=
  match s.host.state with
  | .fuse => let s := stepFuse s; if s.host.env.fuseOk then setState s .romver else failStart s
  | .romver =>
    if (List.range 3).any (fun k => !imageGood k (hostImage s k)) then failStart s
    else setState s (if keepsMemory s then .linktrain else .hbmtrain)
  | .hbmtrain =>
    let s := trainChannels s.host.env.failedChannels s
    if s.hbm.absent.length > channelCount - 960 then failStart s else setState s .eccinit
  | .eccinit => setState (zeroDevice s) .linktrain
  | .linktrain => stepImages (stepPools (stepLinks s.host.env (dropMarks s)))
  | _ => s
/-- a step of the start is under way -/
def isStarting (s : State) : Bool :=
  match s.host.state with | .fuse => true | .romver => true | .hbmtrain => true | .eccinit => true | .linktrain => true | _ => false
def execHctlStart (s : State) : Host.Outcome State Fault Refusal :=
  .next (match s.cur.arg with | .start w env => if w.getLsbD 0 then startSequence w env s else s | _ => s)
/-- R37: an image has missed its first heartbeat -/
def execImageFirstHeartbeatTimeout (s : State) : Host.Outcome State Fault Refusal :=
  .next (if s.host.state == .imgload && !s.host.firstBeats.isEmpty && decide (s.time ≥ s.host.imgLoadAt + startLimit) then failStart s else s)

/-! ## NEG_GO (R42) -/

def notOffered (h : HostRegs) : Bool :=
  (h.accept1 &&& ~~~(h.offer.getD 1 0)) != 0 || (h.accept2 &&& ~~~(h.offer.getD 2 0)) != 0
/-- the Scribe without the Kiln, or a format without the bank engines -/
def brokenDependency (h : HostRegs) : Bool :=
  (h.accept1.getLsbD 2 && !h.accept1.getLsbD 1) || (h.accept2 != 0 && !h.accept1.getLsbD 0)
def enterReady (s : State) : State :=
  let s := blockPut { s with host := { s.host with on1 := s.host.accept1, on2 := s.host.accept2, failCnt := 0 }, readyAt := s.time } 0 (toBytes 8 0)
  raiseState (setState s .ready)
def negGo (s : State) : State :=
  if s.host.state != .negotiate then s
  else if notOffered s.host then setFcode s 1
  else if brokenDependency s.host then setFcode s 2
  else enterReady s
def execHctlNegGo (s : State) : Host.Outcome State Fault Refusal :=
  .next (match s.cur.arg with
    | .value w => if stopped s then s else let s := { s with host := hctlWarm w s.host }; if w.getLsbD 3 then negGo s else s
    | _ => s)

/-! ## Power (R18) -/

/-- Nothing of the device survives; the host's and the peers' memory is theirs, and what drives the model is kept. What HBM
reads as, should the next start keep it, is open (R39). -/
def powerLoss (s : State) : State :=
  { State.reset with
    sched := { s.sched with freeCtr := s.sched.freeCtr + 1 }
    mem := { outsideMem s.mem with l2 := [], releases := [], hostCopies := [], stale := some s.sched.freeCtr, fresh := [] } }
def execPowerLoss (s : State) : Host.Outcome State Fault Refusal := .next (powerLoss s)

end Sys2Proof.Machine
end

