-- ==== Sys2Proof/Machine/HostWin.lean ====
section
/-! DEFINITION. What the host does through its windows: message slots, registers, interrupts, device memory and snoops (R19-R24,
R32-R35, R40, R120, R121). -/
namespace Sys2Proof.Machine

/-! ## The image of a message in a context's slot (R23, R24, log 24) -/

/-- the sender a slot stands for, beyond every core -/
def hostCore (n : Nat) : Nat := 4096 + n
def placeAt : Nat := 0x0C
def imageD : Nat := 0x20
def imageA : Nat := 0x40
def imageB : Nat := 0x60
def imageBody : Nat := 0x80
def imgWord (img : List Byte) : IWord := BitVec.ofNat 96 (numAt img 0 12)
def imgReg (img : List Byte) (o : Nat) : W192 := BitVec.ofNat 192 (numAt img o 24)
/-- an operand that is there is tagged -/
def asCap (v : W192) : CReg := ⟨v, v != 0⟩
/-- R24: the queue, phaser, counters or event queue a handle names belong to the context -/
def ownsQueue (s : State) (n : BitVec 12) (c : CReg) : Bool :=
  handleCtx c == n && ((findFrame s n (handleFrame c)).bind (queueAt · (handleQueue c))).isSome
def ownsPhaser (s : State) (n : BitVec 12) (c : CReg) : Bool :=
  let m := if phIsDie c then (die s (phEngine c)).phasers else (cluster s (phEngine c)).phasers
  match mfind m (phNumber c) with | some p => p.ctx == n | none => false
def ownsCounters (s : State) (n : BitVec 12) (c : CReg) : Bool :=
  let lo := capBase c.bits
  let hi := capLimit c.bits
  decide (lo < hi ∧ hi ≤ 8192) && (List.range (hi - lo)).all (fun i =>
    match mfind (die s ((lo + i) / 4096)).counters ((lo + i) % 4096) with | some x => x.owner == some n | none => false)
/-- R24: a capability image is tagged only if its permissions are the grant's and its kind passes its test -/
def imageOk (s : State) (n : BitVec 12) (g : Grant) (v : W192) : Bool :=
  let c : CReg := ⟨v, true⟩
  capPerms v &&& ~~~g.perms == 0 &&
  (match capKind v with
   | 0 | 6 => decide (g.base ≤ capBase v ∧ capBase v ≤ g.limit ∧ g.base ≤ capLimit v ∧ capLimit v ≤ g.limit)
   | 3 => ownsQueue s n c
   | 4 => ownsPhaser s n c
   | 5 => ownsCounters s n c
   | 7 => decide (curOf c < 64)
   | _ => false)
def absentOrOk (s : State) (n : BitVec 12) (g : Grant) (v : W192) : Bool := v == 0 || imageOk s n g v

/-! ## Which instructions a slot carries (R42) -/

/-- a form E command with its operands in the image: D in c1, A in c2, B in c3 -/
def hostOps (img : List Byte) (o : EngOps) : EngOps :=
  { o with d := if imgReg img imageD = 0 then 0 else 1, a := 2, b := match o.b with | .imm v => .imm v | _ => .c 3 }
def hostRun (img : List Byte) : Instr → Option (State → Host.Outcome State Fault Refusal)
  | .cpy h o => some (execCpy h (hostOps img o))
  | .cpy2d h o => some (execCpy2d h (hostOps img o))
  | .cpfill h o => some (execCpfill h (hostOps img o))
  | .cprot h o => some (execCprot h (hostOps img o))
  | .kvapp h o => some (execKvapp h (hostOps img o))
  | .kvseal h o => some (execKvseal h (hostOps img o))
  | .kvpatch h o => some (execKvpatch h (hostOps img o))
  | .kvfork h o => some (execKvfork h (hostOps img o))
  | .kvtrunc h o => some (execKvtrunc h (hostOps img o))
  | .kvstat h o => some (execKvstat h (hostOps img o))
  | .kvjopen h o => some (execKvjopen h (hostOps img o))
  | .kvjmark h o => some (execKvjmark h (hostOps img o))
  | .kvjundo h o => some (execKvjundo h (hostOps img o))
  | .kvjclose h o => some (execKvjclose h (hostOps img o))
  | .edins h o => some (execEdins h (hostOps img o))
  | .eddel h o => some (execEddel h (hostOps img o))
  | .edrep h o => some (execEdrep h (hostOps img o))
  | .settle h o => some (execSettle h (hostOps img o))
  | .wmark h o => some (execWmark h (hostOps img o))
  | .raise h o => some (execRaise h (hostOps img o))
  | .rebind h o => some (execRebind h (hostOps img o))
  | .withdraw h o => some (execWithdraw h (hostOps img o))
  | _ => none
/-- A bank command: its permissions and its accesses (R70). -/
structure BankNeed where
  ops : EngOps
  perms : BitVec 7
  needs : List Need
  deriving DecidableEq, Repr, Inhabited
def bankNeed : Instr → Option BankNeed
  | .bkadd _ o => some ⟨o, permR ||| permW, [.load, .store]⟩
  | .bkaxpy _ o => some ⟨o, permR ||| permW, [.load, .store]⟩
  | .bkgemv _ o => some ⟨o, permR ||| permW ||| permC, [.load, .store]⟩
  | .bkzero _ o => some ⟨o, permW, [.store]⟩
  | _ => none
def bIsCap (i : Instr) : Bool :=
  match i with | .cpy _ _ | .rebind _ _ | .kvapp _ _ | .kvpatch _ _ | .kvfork _ _ | .kvstat _ _ => true | _ => false
/-- the feature bit of word 1 an instruction or message needs -/
def featureOf (i : Instr) : Option Nat :=
  match i with
  | .kvapp _ _ | .kvseal _ _ | .kvpatch _ _ | .kvfork _ _ | .kvtrunc _ _ | .kvstat _ _ | .kvjopen _ _ | .kvjmark _ _ | .kvjundo _ _
  | .kvjclose _ _ | .cprot _ _ | .seqopen | .seqclose => some 1
  | .edins _ _ | .eddel _ _ | .edrep _ _ | .settle _ _ | .wmark _ _ => some 2
  | .bkadd _ _ | .bkaxpy _ _ | .bkgemv _ _ | .bkzero _ _ => some 0
  | _ => none
def accepted (s : State) (i : Instr) : Bool := match featureOf i with | some b => s.host.on1.getLsbD b | none => true

/-! ## What becomes of a posted message -/

inductive Posted where
  | refused (err : Byte)
  | taken (s : State)
  /-- the target is full, or the message must wait: the slot stays posted -/
  | full (s : State)

/-- the registers of the sender that a slot stands for -/
def hostThread (s : State) (n : BitVec 12) (i : Instr) (img : List Byte) : Thread :=
  let id : Ident := { ctx := n, frame := BitVec.allOnes 32, stage := 0, coord := 0, pos := 0, gang := false, firmware := false, batch := 0 }
  let t := threadReset id cZero 0 s.time
  let b := imgReg img imageB
  setC (setC (setC t 1 (asCap (imgReg img imageD))) 2 (asCap (imgReg img imageA))) 3 (if bIsCap i then asCap b else ⟨b, false⟩)
/-- the instruction issued by that sender: its checks, and its message -/
def hostIssue (s : State) (n : BitVec 12) (i : Instr) (img : List Byte) (run : State → Host.Outcome State Fault Refusal) : Posted :=
  let k := hostCore n.toNat
  let cur := s.cur
  let s0 := setThreadOf { s with cur := { core := k, pc := 0, word := imgWord img, mask := 0, arg := .none } } k (hostThread s n i img)
  let back (s : State) : State := { s with cores := mdel s.cores k, cur := cur }
  match run s0 with
  | .next s' => (match threadOf s' k with
    | none => .refused 0x83
    | some t => if t.pc = 0 then .full (back s') else .taken (back s'))
  | _ => .refused 0x82
/-- R76, log 24: a bank command; a page that is not mapped, or has no BL, ends it with 0x30 -/
def bankFor (s : State) (n : BitVec 12) (i : Instr) (img : List Byte) (w : BankNeed) : Posted :=
  let t := hostThread s n i img
  let o := hostOps img w.ops
  let a := getC t 2
  let va := curOf a
  let c := { cmdOf i o t { s with cur := { s.cur with core := hostCore n.toNat } } with acq := false }
  match replyCheck t o.d [3, 7], checkHandle a [0] (w.perms ||| permE) with
  | .ok _, .ok _ =>
    let page := w.needs.foldl (fun r need => match r with | .ok (_, s) => engPage s 0 n va need | e => e) (engPage s 0 n va (w.needs.headD .load))
    (match page with
     | .error (.wait w) => .full w
     | .error _ => .taken (engEnd s c engBank bankRefused)
     | .ok (x, s) => (match tlbFind (cluster s 0).tlb n va with
       | some e =>
         if leafBL e.leaf then
           (match pushInbox s (.bank (channelOfPa x.pa)) { c with pa := x.pa, page := pageSize e.leaf } with
            | some s => .taken s
            | none => .full s)
         else .taken (engEnd s c engBank bankRefused)
       | none => .taken (engEnd s c engBank bankRefused)))
  | _, _ => .refused 0x83
/-- the engine code that takes a message opcode (R420) -/
def codeOfOp (op : Nat) : Nat := match op with | 0x20 => 0x06 | 0x10 => 0x3F | _ => 0x08
/-- the slots of a message's body that hold capabilities -/
def bodySlots (i : Instr) : List Nat := match i with | .seqopen => [0, 32] | .seqclose => [0] | .attest => [32] | _ => []
def hostMessage (o : EngOps) (img : List Byte) : Message :=
  let len := 16 * (o.cmd.extractLsb' 14 4).toNat
  { target := asCap (imgReg img imageA), reply := asCap (imgReg img imageD), acq := o.acq, rel := o.rel, scope := o.scope, tag := o.tag,
    op := o.cmd.extractLsb' 18 8, body := (img.drop imageBody).take len, bodyTags := [] }
/-- a message to an inbox (R420) -/
def inboxFor (s : State) (n : BitVec 12) (g : Grant) (m : Message) (i : Instr) (place : Nat) : Posted :=
  if !accepted s i then .refused 0x85
  else
    let caps := (bodySlots i).map (fun o => BitVec.ofNat 192 (numAt m.body o 24))
    if !(caps.all (absentOrOk s n g) && absentOrOk s n g m.reply.bits && caps.all (fun v => v == 0 || hasPerm v permE)) ||
        (m.reply.tag && !([3, 7].contains (capKind m.reply.bits))) then .refused 0x83
    else
      let tags := (List.range (m.body.length / 32)).map (fun j => (bodySlots i).contains (32 * j) && numAt m.body (32 * j) 24 != 0)
      let c := { msgCmd (hostCore n.toNat) n { m with bodyTags := tags } i with cluster := place, reply := replyOf m.reply n place }
      match pushInbox s (messageEngine (codeOfOp m.op.toNat) place) c with
      | some s => .taken s
      | none => .full s
/-- an item for a queue of the context (R418); it comes from outside the cores, as a completion does (R120) -/
def queueFor (s : State) (n : BitVec 12) (g : Grant) (m : Message) (img : List Byte) : Posted :=
  let size := sendLen s m.target 0
  if m.op != 0 || !m.body.isEmpty || m.reply.tag || !imageOk s n g m.target.bits || !hasPerm m.target.bits permW || capSeal m.target.bits != 0 then .refused 0x83
  else if size > imageBytes - imageBody then .refused 0x82
  else match putItem s (handleCtx m.target) (handleFrame m.target) (handleQueue m.target)
      { plainItem ((img.drop imageBody).take size) [] with completion := true } with
    | some s => .taken s
    | none => .full s
/-- A SEND from a slot. R22 gives ERR 0x82 for a malformed message without saying which are, and R420 gives a SEND of a program status
0x0E for an OP the inbox does not know or a LEN that is not the message's; from a slot the model refuses such a message with ERR 0x82, and
no record is sent: its choice (log 61). -/
def sendFor (s : State) (n : BitVec 12) (g : Grant) (o : EngOps) (img : List Byte) : Posted :=
  let m := hostMessage o img
  if o.cmd.getLsbD 26 then .refused 0x82
  else if m.target.tag then (if capKind m.target.bits == 3 then queueFor s n g m img else .refused 0x83)
  else match messageInstr (codeOfOp m.op.toNat) m.op.toNat m.body.length with
    | some i => if byteAt img placeAt < 64 then inboxFor s n g m i (byteAt img placeAt) else .refused 0x82
    | none => .refused 0x82
/-- no guard, no safe point: what a sender without predicates may carry -/
def plainHdr (i : IWord) : Bool := i.extractLsb' 77 6 == 0 && i.getLsbD 83
def deliverHost (s : State) (n : BitVec 12) (g : Grant) (img : List Byte) : Posted :=
  if !plainHdr (imgWord img) then .refused 0x82
  else match decode (imgWord img) with
    | .error _ => .refused 0x82
    | .ok (.send _ o) => sendFor s n g o img
    | .ok i =>
      let caps := [imgReg img imageD, imgReg img imageA] ++ (if bIsCap i then [imgReg img imageB] else [])
      if (hostRun img i).isNone && (bankNeed i).isNone then .refused 0x82
      else if !accepted s i then .refused 0x85
      else if !caps.all (absentOrOk s n g) then .refused 0x83
      else match hostRun img i, bankNeed i with
        | some run, _ => hostIssue s n i img run
        | none, some w => bankFor s n i img w
        | none, none => .refused 0x82
/-- a posted slot looked at: refused, accepted, or left posted (R22-R25, R28, R40, R42) -/
def tryAccept (s : State) (n : Nat) : State :=
  let img := (slotOfHost s n).image
  if s.host.state != .ready then leaveSlot s n 0x81
  else if n = 0 then
    if !mgmtShapeOk img then leaveSlot s 0 0x82
    else if byteAt img 0 == 0x04 && !s.host.on1.getLsbD 12 then leaveSlot s 0 0x85
    else s
  else match ctxOf s (BitVec.ofNat 12 n) with
    | none => leaveSlot s n 0x84
    | some x =>
      if x.ending then leaveSlot s n 0x84
      else match deliverHost s (BitVec.ofNat 12 n) x.grant img with
        | .refused e => leaveSlot s n e
        | .taken s => leaveSlot s n 0
        | .full s => s
/-- The host writes the image and STATE = 0x01. A write while the slot is posted is ignored whole: the message that is delivered
holds the old bytes (log 56). -/
def postSlot (s : State) (n : Nat) (img : List Byte) (seq : BitVec 32) : State :=
  let x := slotOfHost s n
  if n ≥ slotCount ∨ x.state = 1 then s
  else tryAccept (setSlot s n { x with image := (img ++ List.replicate imageBytes 0).take imageBytes, seq := seq, err := 0, state := 1 }) n
def execMessageSlotPost (s : State) : Host.Outcome State Fault Refusal :=
  .next (match s.cur.arg with | .post n img seq => postSlot s n img seq | _ => s)
/-- the host writes the status word: SEQ is its own, and STATE 0x00 clears a refusal (R22, R23) -/
def writeStatus (s : State) (n : Nat) (w : W64) : State :=
  let x := { slotOfHost s n with seq := w.extractLsb' 32 32 }
  if n ≥ slotCount ∨ stopped s then s
  else if w.extractLsb' 0 8 == 0 && x.state == 0x80 then setSlot s n { x with err := 0, state := 0 } else setSlot s n x
def execMessageSlotClear (s : State) : Host.Outcome State Fault Refusal :=
  .next (match s.cur.arg with
    | .ix n => writeStatus s n ((slotOfHost s n).seq ++ 0#32)
    | .ix2 n w => writeStatus s n (BitVec.ofNat 64 w)
    | _ => s)
def execSlotMessageAccept (s : State) : Host.Outcome State Fault Refusal :=
  .next (match argIx s with
    | some n => if n ≠ 0 ∧ (slotOfHost s n).state = 1 then tryAccept s n else s
    | none => s)

/-! ## Registers (R32, R35) -/

/-- R32: a read index that would leave more than MQLEN records, or fewer than none, is ignored -/
def writeHead (s : State) (v : BitVec 32) : State :=
  if stopped s then s
  else if (s.host.mqTail - v).toNat ≤ s.host.mqLen then mqDrain { s with host := { s.host with mqHead := v } } else s
def execHmqheadWrite (s : State) : Host.Outcome State Fault Refusal :=
  .next (match s.cur.arg with | .value v => writeHead s (v.setWidth 32) | _ => s)
/-- The fields of the window that the host writes; START and NEG_GO have steps of their own. HFEAT_ACCEPT keeps every bit that is
written, so that a reserved one counts as a bit that was not offered (R42, log 56). -/
def writeRegister (s : State) (off : Nat) (v : W128) : State :=
  if stopped s then s
  else match off with
  | 0x0000 => { s with host := hctlWarm (v.setWidth 64) s.host }
  | 0x0010 => { s with host := { s.host with hspb := v.setWidth 64 &&& ~~~0xFFF } }
  | 0x0018 => writeHead s (v.setWidth 32)
  | 0x0300 => { s with host := { s.host with accept1 := v } }
  | 0x0310 => { s with host := { s.host with accept2 := v } }
  | _ => s
def execRegisterWrite (s : State) : Host.Outcome State Fault Refusal :=
  .next (match s.cur.arg with | .register off v => writeRegister s off v | _ => s)
/-- the window as the host reads it -/
def readRegister (s : State) (off : Nat) : W128 :=
  match off with
  | 0x0000 => (if s.host.warm then 2 else 0) + (if s.host.memkeep then 4 else 0)
  | 0x0008 => BitVec.ofNat 128 (hstatWord s.host)
  | 0x0010 => s.host.hspb.setWidth 128
  | 0x0018 => s.host.mqHead.setWidth 128
  | 0x0020 => s.host.mqTail.setWidth 128
  | 0x0300 => s.host.accept1
  | 0x0310 => s.host.accept2
  | n => if 0x100 ≤ n ∧ n < 0x240 ∧ n % 16 = 0 then s.host.offer.getD ((n - 0x100) / 16) 0 else 0

/-! ## Interrupts (R34) -/

/-- A vector's interval has passed, and a raise is due: one that is owed, or, for vector 0, while records wait to be read. -/
def vectorDue (s : State) (v : Nat) : Bool :=
  (if v = 0 then s.host.mqTail != s.host.mqHead else s.msix.owed.contains v) &&
  (match mfind s.msix.lastRaise v with | some t => decide (t + vectorGap v ≤ s.time) | none => true)
def execMsixRateIntervalExpiry (s : State) : Host.Outcome State Fault Refusal :=
  .next (match argIx s with
    | some v =>
      if vectorDue s v then raiseVector { s with msix := { s.msix with owed := sdel s.msix.owed v } } v else s
    | none => s)
/-- an unmasked vector with its pending bit set is delivered -/
def unmask (s : State) (v : Nat) : State :=
  let s : State := { s with msix := { s.msix with mask := setBit s.msix.mask v false } }
  if s.msix.pending.getLsbD v then deliverVector { s with msix := { s.msix with pending := setBit s.msix.pending v false } } v else s
/-- the host writes the mask bit of a vector -/
def writeMask (s : State) (v : Nat) (on : Bool) : State :=
  if v ≥ 64 then s else if on then { s with msix := { s.msix with mask := setBit s.msix.mask v true } } else unmask s v
def execMsixVectorUnmask (s : State) : Host.Outcome State Fault Refusal :=
  .next (match s.cur.arg with | .ix v => writeMask s v false | .ix2 v b => writeMask s v (b % 2 == 1) | _ => s)

/-! ## Device memory through CXL.mem (R21, R43, R64, R120) -/

def stripedOpen (s : State) (d : Nat) : Nat := stripeSize s d - 2 ^ 31
/-- the device address behind an offset of HDM decoder 0; none past its end -/
def hdmAddr (s : State) (a : Nat) : Option Nat :=
  let n0 := stripedOpen s 0
  let n1 := stripedOpen s 1
  if a < n0 then some (stripeBase 0 + a)
  else if a < n0 + n1 then some (stripeBase 1 + (a - n0))
  else
    let w := a - n0 - n1
    ((presentChannels s 0 ++ presentChannels s 1)[w / linearSize]?).map (fun q => linearBase q + w % linearSize)
def hdmRange (s : State) (a n : Nat) : Option (List Nat) := optEach (fun i => hdmAddr s (a + i)) (List.range n)
/-- bytes written by an agent outside the device at their homes, untagged; a sector written whole is one write (R67) -/
def outsideWriteF : Nat → Mem → List (Nat × Byte) → Mem
  | 0, m, _ => m
  | fuel + 1, m, l =>
    match l with
    | [] => m
    | (pa, _) :: _ =>
      let n := 64 - pa % 64
      outsideWriteF fuel (paWriteMem m pa ((l.take n).map (·.2))) (l.drop n)
def outsideWrite (m : Mem) (l : List (Nat × Byte)) : Mem := outsideWriteF l.length m l
def setReply (s : State) (r : Option (List Byte)) (poison : Bool) : State := { s with host := { s.host with reply := r, replyPoison := poison } }
/-- the host holds, or holds no more, copies of the lines -/
def hostLines (on : Bool) (l : List Nat) (m : Mem) : Mem := { m with hostCopies := l.foldl (fun c pa => sset c (pa / 256) on) m.hostCopies }
/-- a request through decoder 0; Unsupported Request without HDM-DB (R20, R42, log 52) -/
def cxlAccess (s : State) (r : CxlReq) : State :=
  let n := match r.write with | some b => b.length | none => r.len
  if r.unsupported || !running s || !s.host.on1.getLsbD 4 then setReply s none false
  else match hdmRange s r.hpa n with
    | none => setReply s none false
    | some pas => match r.write with
      | some b => setReply (setMem s (hostLines r.cached pas (outsideWrite s.mem (pas.zip b)))) (some []) false
      | none =>
        let secs := (pas.map (· / 64)).eraseDups
        let s := setReply (noteReads s secs) (some (pas.map (homeByte s.mem))) (secsPoisoned s secs)
        if r.cached then setMem s (hostLines true pas s.mem) else s
def execHostCxlMemAccess (s : State) : Host.Outcome State Fault Refusal :=
  .next (match s.cur.arg with | .cxl r => cxlAccess s r | _ => s)
/-- The host snoops a line of its own memory: what the device holds dirty at its home goes back, and with `inval` the copy
goes too (R121). -/
def snoop (s : State) (line : Nat) (inval : Bool) : State :=
  let sec := hostBase / 64 + line
  setMem s (if inval then l2Evict s.mem sec else l2Clean s.mem sec)
def execHostCacheSnoop (s : State) : Host.Outcome State Fault Refusal :=
  .next (match s.cur.arg with | .snoop line inval => snoop s line inval | _ => s)

end Sys2Proof.Machine
end

