-- ==== Sys2Proof/Machine/Integer.lean ====
section
/-! DEFINITION. Integer, bit-field, move, predicate, random-number and capability instructions (R387-R399). -/
namespace Sys2Proof.Machine

def execAdd (h : Hdr) (o : IntOps) (s : State) : Host.Outcome State Fault Refusal := runThread h (intThread aluAdd o) s
def execSub (h : Hdr) (o : IntOps) (s : State) : Host.Outcome State Fault Refusal := runThread h (intThread aluSub o) s
def execMul (h : Hdr) (o : IntOps) (s : State) : Host.Outcome State Fault Refusal := runThread h (intThread aluMul o) s
def execMulh (h : Hdr) (o : IntOps) (s : State) : Host.Outcome State Fault Refusal := runThread h (intThread aluMulh o) s
def execMulhn (h : Hdr) (o : IntOps) (s : State) : Host.Outcome State Fault Refusal := runThread h (intThread aluMulhn o) s
def execDiv (h : Hdr) (o : IntOps) (s : State) : Host.Outcome State Fault Refusal := runThread h (intThread aluDiv o) s
def execDivn (h : Hdr) (o : IntOps) (s : State) : Host.Outcome State Fault Refusal := runThread h (intThread aluDivn o) s
def execRem (h : Hdr) (o : IntOps) (s : State) : Host.Outcome State Fault Refusal := runThread h (intThread aluRem o) s
def execRemn (h : Hdr) (o : IntOps) (s : State) : Host.Outcome State Fault Refusal := runThread h (intThread aluRemn o) s
def execAnd (h : Hdr) (o : IntOps) (s : State) : Host.Outcome State Fault Refusal := runThread h (intThread aluAnd o) s
def execOr (h : Hdr) (o : IntOps) (s : State) : Host.Outcome State Fault Refusal := runThread h (intThread aluOr o) s
def execXor (h : Hdr) (o : IntOps) (s : State) : Host.Outcome State Fault Refusal := runThread h (intThread aluXor o) s
def execAndn (h : Hdr) (o : IntOps) (s : State) : Host.Outcome State Fault Refusal := runThread h (intThread aluAndn o) s
def execShl (h : Hdr) (o : IntOps) (s : State) : Host.Outcome State Fault Refusal := runThread h (intThread aluShl o) s
def execShr (h : Hdr) (o : IntOps) (s : State) : Host.Outcome State Fault Refusal := runThread h (intThread aluShr o) s
def execSra (h : Hdr) (o : IntOps) (s : State) : Host.Outcome State Fault Refusal := runThread h (intThread aluSra o) s
def execRotr (h : Hdr) (o : IntOps) (s : State) : Host.Outcome State Fault Refusal := runThread h (intThread aluRotr o) s
def execMin (h : Hdr) (o : IntOps) (s : State) : Host.Outcome State Fault Refusal := runThread h (intThread aluMin o) s
def execMax (h : Hdr) (o : IntOps) (s : State) : Host.Outcome State Fault Refusal := runThread h (intThread aluMax o) s
def execMinn (h : Hdr) (o : IntOps) (s : State) : Host.Outcome State Fault Refusal := runThread h (intThread aluMinn o) s
def execMaxn (h : Hdr) (o : IntOps) (s : State) : Host.Outcome State Fault Refusal := runThread h (intThread aluMaxn o) s
def execAbs (h : Hdr) (o : IntOps) (s : State) : Host.Outcome State Fault Refusal := runThread h (intThread1 aluAbs o) s
def execNeg (h : Hdr) (o : IntOps) (s : State) : Host.Outcome State Fault Refusal := runThread h (intThread1 aluNeg o) s
def execClz (h : Hdr) (o : IntOps) (s : State) : Host.Outcome State Fault Refusal := runThread h (intThread1 aluClz o) s
def execCtz (h : Hdr) (o : IntOps) (s : State) : Host.Outcome State Fault Refusal := runThread h (intThread1 aluCtz o) s
def execPopc (h : Hdr) (o : IntOps) (s : State) : Host.Outcome State Fault Refusal := runThread h (intThread1 aluPopc o) s
def execBrev (h : Hdr) (o : IntOps) (s : State) : Host.Outcome State Fault Refusal := runThread h (intThread1 aluBrev o) s
def execBswp (h : Hdr) (o : IntOps) (s : State) : Host.Outcome State Fault Refusal := runThread h (intThread1 aluBswp o) s
def execExtr (h : Hdr) (o : IntOps) (s : State) : Host.Outcome State Fault Refusal := runThread h (extrThread true o) s
def execExtrn (h : Hdr) (o : IntOps) (s : State) : Host.Outcome State Fault Refusal := runThread h (extrThread false o) s
def execIns (h : Hdr) (o : IntOps) (s : State) : Host.Outcome State Fault Refusal := runThread h (insThread o) s
def execSel (h : Hdr) (o : SelOps) (s : State) : Host.Outcome State Fault Refusal := runThread h (selThread o) s
def execMov (h : Hdr) (o : MovOps) (s : State) : Host.Outcome State Fault Refusal := runThread h (movThread o) s
def execMovi (h : Hdr) (o : MoviOps) (s : State) : Host.Outcome State Fault Refusal := runThread h (moviThread false o) s
def execMoviHigh (h : Hdr) (o : MoviOps) (s : State) : Host.Outcome State Fault Refusal := runThread h (moviThread true o) s
def execCmp (h : Hdr) (o : CmpOps) (s : State) : Host.Outcome State Fault Refusal := runThread h (cmpThread o) s
def execPand (h : Hdr) (o : PredOps) (s : State) : Host.Outcome State Fault Refusal := runThread h (predThread (fun a b => a && b) o) s
def execPor (h : Hdr) (o : PredOps) (s : State) : Host.Outcome State Fault Refusal := runThread h (predThread (fun a b => a || b) o) s
def execPxor (h : Hdr) (o : PredOps) (s : State) : Host.Outcome State Fault Refusal := runThread h (predThread (fun a b => a != b) o) s
def execPnot (h : Hdr) (o : PredOps) (s : State) : Host.Outcome State Fault Refusal := runThread h (predThread (fun a _ => !a) o) s
def execRngx (h : Hdr) (o : RngOps) (s : State) : Host.Outcome State Fault Refusal := runThread h (rngThread o) s
def execCsetb (h : Hdr) (o : CapOps) (s : State) : Host.Outcome State Fault Refusal := runThread h (csetbThread o) s
def execCsetp (h : Hdr) (o : CapOps) (s : State) : Host.Outcome State Fault Refusal := runThread h (csetpThread o) s
def execCadd (h : Hdr) (o : CapOps) (s : State) : Host.Outcome State Fault Refusal := runThread h (caddThread o) s
def execCgetb (h : Hdr) (o : CapOps) (s : State) : Host.Outcome State Fault Refusal := runThread h (cgetThread capBaseW o) s
def execCgetl (h : Hdr) (o : CapOps) (s : State) : Host.Outcome State Fault Refusal := runThread h (cgetThread capLimitW o) s
def execCgetp (h : Hdr) (o : CapOps) (s : State) : Host.Outcome State Fault Refusal := runThread h (cgetThread capPermsW o) s
def execCgett (h : Hdr) (o : CapOps) (s : State) : Host.Outcome State Fault Refusal := runThread h (cgetThread capTagW o) s
def execCclr (h : Hdr) (o : CapOps) (s : State) : Host.Outcome State Fault Refusal := runThread h (cclrThread o) s
def execCseal (h : Hdr) (o : CapOps) (s : State) : Host.Outcome State Fault Refusal := runThread h (csealThread o) s
def execCunseal (h : Hdr) (o : CapOps) (s : State) : Host.Outcome State Fault Refusal := runThread h (cunsealThread o) s

end Sys2Proof.Machine
end

