-- ==== Sys2Proof/Machine/Links.lean ====
section
/-! DEFINITION. Clocks and fatal errors, girt ports, peers, and the scrub (R9, R13-R17, R59, R67, R68, R98-R101, R121). -/
namespace Sys2Proof.Machine

/-! ## The clock of a die (R9, R17) -/

def clockMin : Nat := 900
def clockMax : Nat := 1500
/-- Chrogon-M sets a die's clock and tells the host -/
def setClock (s : State) (d mhz : Nat) : State := mqEvent (setDie s d { die s d with mhz := mhz }) [eventRecord 0xE4 d mhz]
def mayClock (s : State) (d : Nat) : Bool := running s && !inGap s 0 && decide (d < 2)
def execThermalThrottle (s : State) : Host.Outcome State Fault Refusal :=
  .next (match argIx s with
    | some d => if mayClock s d && decide ((die s d).mhz ≥ clockMin + 100) then setClock s d ((die s d).mhz - 100) else s
    | none => s)
def execThermalRecover (s : State) : Host.Outcome State Fault Refusal :=
  .next (match argIx s with
    | some d => if mayClock s d && decide ((die s d).mhz + 100 ≤ clockMax) then setClock s d ((die s d).mhz + 100) else s
    | none => s)

/-! ## Device-fatal errors (R59) -/

def fatalIf (s : State) (ok : Bool) (cause d : Nat) (engine : Byte) : State := if running s && ok && decide (d < 2) then fatalError s cause d engine else s
def execThermalFatal (s : State) : Host.Outcome State Fault Refusal :=
  .next (match argIx s with | some d => fatalIf s true 1 d 0 | none => s)
def execDieBridgeLoss (s : State) : Host.Outcome State Fault Refusal :=
  .next (match argIx s with | some d => fatalIf s true 4 d 0 | none => s)
/-- the engines whose state carries parity: the sync engines, the Joiner and the Kiln -/
def parityEngine (e : Byte) : Bool := e == engClusterSync || e == engDieSync || e == engJoiner || e == engKiln
def execStateParityError (s : State) : Host.Outcome State Fault Refusal :=
  .next (match s.cur.arg with | .parity d e => fatalIf s (parityEngine e) 5 d e | _ => s)

/-! ## Ports (R13, R14, R52) -/

def portOf (s : State) (p : Nat) : Port := mget portReset s.links.ports p
def setPort (s : State) (p : Nat) (x : Port) : State := { s with links := { s.links with ports := mset s.links.ports p x } }
def msNs : Nat := 1000000
/-- R13: a receiver asks for replay from flit n: those before it have arrived; the replay is counted -/
def replay (s : State) (p n : Nat) : State :=
  let x := portOf s p
  if x.state != .up then s
  else
    setPort s p { x with buffer := x.buffer.filter (fun f => decide (f.seq ≥ n)), replays := x.replays + 1,
                         recent := s.time :: x.recent.filter (fun t => decide (s.time < t + msNs)) }
def execLinkReplayRequest (s : State) : Host.Outcome State Fault Refusal :=
  .next (match s.cur.arg with | .ix2 p n => replay s p n | _ => s)
def replayLimit : Nat := 64
/-- R14, R52: lost lock or too many replays; while Chrogon-F is shored the retraining waits -/
def startRetrain (s : State) (p : Nat) (lostLock : Bool) : State :=
  let x := portOf s p
  if x.state == .up && (lostLock || decide ((x.recent.filter (fun t => decide (s.time < t + msNs))).length > replayLimit)) then
    setPort s p { x with state := .retraining, retrainUsed := 0, retrainFrom := if inGap s 2 then none else some s.time, retrainLimit := s.links.limitMs }
  else s
def execLinkRetrainStart (s : State) : Host.Outcome State Fault Refusal :=
  .next (match s.cur.arg with | .retrain p l => startRetrain s p l | _ => s)
def retrainDue (s : State) (x : Port) : Bool :=
  match x.retrainFrom with | some t => x.state == .retraining && decide (s.time + x.retrainUsed ≥ t + x.retrainLimit * msNs) | none => false
/-- the waiting flits are resent in order, and nothing is lost -/
def retrained (s : State) (p : Nat) : State :=
  let x := portOf s p
  if x.state == .retraining && x.retrainFrom.isSome && !inGap s 2 && !retrainDue s x then
    setPort s p { x with state := .up, buffer := [], recent := [], retrainFrom := none }
  else s
def execLinkRetrainSuccess (s : State) : Host.Outcome State Fault Refusal :=
  .next (match argIx s with | some p => retrained s p | none => s)
/-- a sector of a peer as it stands there; this device keeps no copy -/
def peerPut (m : Mem) (sec : Nat) (x : L2Sector) : Mem := { hbmWrite m sec x with l2 := mdel m.l2 sec }
/-- a flit's write taken back -/
def unsend (s : State) (f : Flit) : State := setMem s (peerPut s.mem f.sector f.was)
/-- a discarded flit's write has landed, or not: a free value says which (R14, R122, log 10) -/
def landOrNot (s : State) (f : Flit) : State :=
  let (b, s) := freeBelow s 2
  if b = 1 then setMem s (homeMergeW s.mem f.sector f.data f.mask f.tags f.tagged false) else s
/-- R14: flits that are discarded: the outcome of each one's write is unknown -/
def discardFlits (s : State) (l : List Flit) : State := l.foldl landOrNot (l.reverse.foldl unsend s)
/-- R124: an atomic of a core that has not returned from a lost peer may have been performed there -/
def loseAtomic (p : Nat) (s : State) (k : Nat) : State :=
  match threadOf s k with
  | some t => (match t.blockA with
    | .atomic sec data mask tagged =>
      if peerOf sec = p then
        landOrNot (setThreadOf s k { t with blockA := .none })
          { seq := 0, cores := [k], sector := sec, data := data, mask := mask, tags := 0, tagged := tagged, was := homeBase s.mem sec }
      else s
    | _ => s)
  | none => s
def portDown (s : State) (p : Nat) : State :=
  let x := portOf s p
  setPort (discardFlits s x.buffer) p { x with state := .down, buffer := [], retrainFrom := none }
def execLinkRetrainLimitExpiry (s : State) : Host.Outcome State Fault Refusal :=
  .next (match argIx s with
    | some p => if retrainDue s (portOf s p) && !inGap s 2 then portDown s p else s
    | none => s)

/-! ## Peers (R98-R101) -/

def peerState (s : State) (p : Nat) : Peer := mget ⟨false, 0⟩ s.links.peers p
def setPeer (s : State) (p : Nat) (x : Peer) : State := { s with links := { s.links with peers := mset s.links.peers p x } }
def namesPeer (p : Nat) (e : TlbEntry) : Bool := leafPeer e.leaf == p
/-- R122: a firing's writes to a peer that is lost have an unknown outcome, which its next FENCE.sys tells -/
def markLost (p : Nat) (t : Thread) : Thread := if t.opn.peers.contains p then { t with opn := { t.opn with lostWrite := true } } else t
/-- the flits to a peer that it has not acknowledged -/
def flitsTo (s : State) (p : Nat) : List Flit := match portTo s p with | some n => (portOf s n).buffer.filter (fun f => peerOf f.sector == p) | none => []
def dropFlits (s : State) (p : Nat) : State :=
  match portTo s p with
  | some n => let x := portOf s n; setPort (discardFlits s (flitsTo s p)) n { x with buffer := x.buffer.filter (fun f => peerOf f.sector != p) }
  | none => s
/-- R99: translations, cached lines and replicas that name the peer are gone, what was on its way to it has an unknown outcome;
waits that name it end by walking again -/
def dropPeer (s : State) (p : Nat) : State :=
  let s := (s.cores.map (·.1)).foldl (loseAtomic p) (dropFlits s p)
  let s := { s with
    cores := s.cores.map (fun x => (x.1, { x.2 with tlb := x.2.tlb.filter (fun e => !namesPeer p e), l1 := x.2.l1.filter (fun y => peerOf y.1 != p)
                                                    thread := x.2.thread.map (markLost p) }))
    clusters := s.clusters.map (fun x => (x.1, { x.2 with
      tlb := x.2.tlb.filter (fun e => !namesPeer p e),
      dupWrites := x.2.dupWrites.filter (fun t => leafPeer t.leaf != p) }))
    mem := { s.mem with l2 := s.mem.l2.filter (fun y => peerOf y.1 != p) }
    work := { s.work with saved := s.work.saved.map (fun v => { v with threads := v.threads.map (fun x => (x.1, markLost p x.2)) }) } }
  freeReplicas (fun r => leafPeer r.leaf == p) s
/-- R100: the link-loss event to every event queue of every live context, and to the host -/
def postLoss (s : State) (p : Nat) : State :=
  let r := recordOf 0 0xE3 engFirmware 0 p (sinceReady s)
  let s := s.ctxs.foldl (fun s x => (List.range 64).foldl (fun s cl => postOwn s (BitVec.ofNat 12 x.1) cl r) s) s
  mqEvent s [recordBytes r]
def losePeer (s : State) (p epoch : Nat) : State := postLoss (dropPeer (setPeer s p { lost := true, epoch := epoch }) p) p
/-- R98: the peer's port is down, or its start epoch has changed -/
def execPeerLost (s : State) : Host.Outcome State Fault Refusal :=
  .next (match s.cur.arg with
    | .ix p => (match mfind s.links.routes p with
      | some n => if !(peerState s p).lost && (portOf s n).state == .down then losePeer s p (peerState s p).epoch else s
      | none => s)
    | .ix2 p e => (match mfind s.links.routes p with
      | some _ => if !(peerState s p).lost && (peerState s p).epoch != e then losePeer s p e else s
      | none => s)
    | _ => s)
/-- what ended because a peer was lost does not end the accesses that come after -/
def forgetLost (s : State) : State :=
  { s with clusters := s.clusters.map (fun x => (x.1, { x.2 with engEnd := x.2.engEnd.filter (fun m => m.2.2 != .peerLost) })) }
/-- R101: Chrogon-F has retrained the port and exchanged epochs -/
def execPeerReachable (s : State) : Host.Outcome State Fault Refusal :=
  .next (match s.cur.arg with
    | .ix2 p e => (match mfind s.links.routes p with
      | some n =>
        if (peerState s p).lost && running s && !inGap s 2 && (portOf s n).state != .retraining then
          let x := portOf s n
          setPeer (setPort (forgetLost s) n (if x.state == .up then x else { portReset with state := .up, replays := x.replays, nextSeq := x.nextSeq })) p
            { lost := false, epoch := e }
        else s
      | none => s)
    | _ => s)

/-! ## Requests of peers (R121, R123) -/

def setPeerReply (s : State) (b : List Byte) (poison : Bool) : State := { s with links := { s.links with reply := b, replyPoison := poison } }
/-- R126 by its minor of major 0x60, 9 for ACAS, 10 for AFADD -/
def peerAtomic (op w old b c : Nat) : Nat :=
  match op with
  | 0 => old + b | 1 => old &&& b | 2 => old ||| b | 3 => old ^^^ b
  | 4 => (if toS w old ≤ toS w b then old else b) | 5 => (if toS w old ≤ toS w b then b else old)
  | 6 => min old b | 7 => max old b
  | 8 => b | 9 => (if old = b then c else old) | _ => sum32 old b
/-- a peer's access, at the home; what it reads of HBM is counted, and a poisoned sector told (R67, R68) -/
def peerAccess (s : State) (r : PeerReq) : State :=
  let n := match r.op with | .read n => n | .write b => b.length | .atomic _ w _ _ => if w then 8 else 4
  let ok := deviceMem s r.pa n && !inReserve s r.pa n && mfind s.links.routes r.peer == some r.port && (portOf s r.port).state == .up &&
    !(peerState s r.peer).lost
  if !ok then s
  else match r.op with
    | .read n => setPeerReply (noteReads s (sectorsOf (r.pa, n))) (paRead s r.pa n) (secsPoisoned s (sectorsOf (r.pa, n)))
    | .write b => setPeerReply (setMem s (paWriteMem s.mem r.pa b)) [] false
    | .atomic op _ b c =>
      let bad := secsPoisoned s (sectorsOf (r.pa, n))
      let s := noteReads s (sectorsOf (r.pa, n))
      let old := paRead s r.pa n
      let m := 256 ^ n
      let v := peerAtomic op (8 * n) (leNat old) (b.toNat % m) (c.toNat % m) % m
      setPeerReply (setMem s (paWriteMem s.mem r.pa (toBytes n v))) old bad
def execPeerRequestArrival (s : State) : Host.Outcome State Fault Refusal :=
  .next (match s.cur.arg with | .peer r => if running s then peerAccess s r else s | _ => s)

/-! ## The scrub (R67, R68) -/

/-- a sector of HBM as wrong symbols leave it: bytes and tags that no code has caught (R65) -/
def corrupt (s : State) (sec : Nat) : State :=
  let (b, s) := freeBytes s 65
  setMem s (hbmWrite s.mem sec { data := BitVec.ofNat 512 (leNat (b.take 64)), dirty := false, tags := (b.getD 64 0).setWidth 2, poison := false })
/-- What a pass finds in a sector: a correction, data that cannot be corrected, which is device-fatal in the firmware reserve
(R59), or what the code takes for good, or corrects, and is wrong. -/
def scrubOne (s : State) (f : ScrubFind) : State :=
  let o := usableAt f.group f.sector
  let pa := paOfUsable s f.channel o
  let sec := pa / 64
  if !running s || s.fw.dumpPending || s.hbm.absent.contains f.channel || f.channel ≥ channelCount || f.sector ≥ groupSectors || o + 64 > usableSize then s
  else
    let (v, s) := freeBelow s 3
    match eccOf f.symbols v with
    | .clean => s
    | .corrected => noteCorrected (if f.symbols ≥ 3 then corrupt s sec else s) f.channel 1
    | .detected =>
      let s := setMem s (let m := ripen s.mem sec; { m with poison := sput m.poison sec, streamed := mdel m.streamed sec })
      noteRead s sec
    | .wrong => corrupt s sec
def execHbmScrub (s : State) : Host.Outcome State Fault Refusal :=
  .next (match s.cur.arg with | .scrub l => l.foldl scrubOne s | _ => s)

end Sys2Proof.Machine
end

