-- ==== Sys2Proof/Machine/ScalarFp.lean ====
section
/-! DEFINITION. Scalar floating-point instructions (R423-R432). -/
namespace Sys2Proof.Machine

def execFadd (h : Hdr) (o : FpOps) (s : State) : Host.Outcome State Fault Refusal := runThread h (fp2Thread fpAdd o) s
def execFsub (h : Hdr) (o : FpOps) (s : State) : Host.Outcome State Fault Refusal := runThread h (fp2Thread fpSub o) s
def execFmul (h : Hdr) (o : FpOps) (s : State) : Host.Outcome State Fault Refusal := runThread h (fp2Thread fpMul o) s
def execFma (h : Hdr) (o : FpOps) (s : State) : Host.Outcome State Fault Refusal := runThread h (fp3Thread (fun p c => fpFma p c false false) o) s
def execFms (h : Hdr) (o : FpOps) (s : State) : Host.Outcome State Fault Refusal := runThread h (fp3Thread (fun p c => fpFma p c false true) o) s
def execFnma (h : Hdr) (o : FpOps) (s : State) : Host.Outcome State Fault Refusal := runThread h (fp3Thread (fun p c => fpFma p c true false) o) s
def execFnms (h : Hdr) (o : FpOps) (s : State) : Host.Outcome State Fault Refusal := runThread h (fp3Thread (fun p c => fpFma p c true true) o) s
def execFdiv (h : Hdr) (o : FpOps) (s : State) : Host.Outcome State Fault Refusal := runThread h (fp2Thread fpDiv o) s
def execFsqrt (h : Hdr) (o : FpOps) (s : State) : Host.Outcome State Fault Refusal := runThread h (fp1Thread fpSqrt o) s
def execFrsqe (h : Hdr) (o : FpOps) (s : State) : Host.Outcome State Fault Refusal := runThread h (fp1Thread fpRsqe o) s
def execFrcpe (h : Hdr) (o : FpOps) (s : State) : Host.Outcome State Fault Refusal := runThread h (fp1Thread fpRcpe o) s
def execFmin (h : Hdr) (o : FpOps) (s : State) : Host.Outcome State Fault Refusal := runThread h (fp2Thread (fun p c => fpMinMax p c false) o) s
def execFmax (h : Hdr) (o : FpOps) (s : State) : Host.Outcome State Fault Refusal := runThread h (fp2Thread (fun p c => fpMinMax p c true) o) s
def execFabs (h : Hdr) (o : FpOps) (s : State) : Host.Outcome State Fault Refusal := runThread h (fp1Thread (fun p _ a => (fpAbs p a, evNone)) o) s
def execFneg (h : Hdr) (o : FpOps) (s : State) : Host.Outcome State Fault Refusal := runThread h (fp1Thread (fun p _ a => (fpNeg p a, evNone)) o) s
def execFcpsgn (h : Hdr) (o : FpOps) (s : State) : Host.Outcome State Fault Refusal := runThread h (fp2Thread (fun p _ a b => (fpCpsgn p a b, evNone)) o) s
def execFcmp (h : Hdr) (o : FpOps) (s : State) : Host.Outcome State Fault Refusal := runThread h (fcmpThread o) s
def execFclass (h : Hdr) (o : FpOps) (s : State) : Host.Outcome State Fault Refusal := runThread h (fclassThread o) s
def execFcvt (h : Hdr) (o : FpOps) (s : State) : Host.Outcome State Fault Refusal := runThread h (fcvtThread o) s
def execFscalb (h : Hdr) (o : FpOps) (s : State) : Host.Outcome State Fault Refusal := runThread h (fscalbThread o) s
def execFexpo (h : Hdr) (o : FpOps) (s : State) : Host.Outcome State Fault Refusal := runThread h (fexpoThread o) s

end Sys2Proof.Machine
end

