-- ==== Sys2Proof/Machine/Wide.lean ====
section
/-! DEFINITION. The wide unit (R296, R297, R433-R442): issue to a dispatch queue, and the steps of 64 or 128 lanes. -/
namespace Sys2Proof.Machine

/-! ## Issue (R296, R433, R434) -/

/-- R434: a stream operand's definition, element size and permission -/
def checkElems (t : Thread) (o : Opd) (code : BitVec 7) (write : Bool) : Except Stop Unit :=
  match o with
  | .s n => match getS t n with
    | none => .error (capFault .kind 0)
    | some d =>
      if !(if write then isStrided d.kind else isElems d.kind) || d.ebits != elemBitsOf code then .error (capFault .kind (capCursor d.cap))
      else if !hasPerm d.cap (if write then permW else permR) then .error (capFault .permission (capCursor d.cap))
      else .ok ()
  | _ => .ok ()
def checkSource (t : Thread) (o : Opd) (f : Option (BitVec 7)) (write : Bool) : Except Stop Unit :=
  match f with | some code => checkElems t o code write | none => .ok ()
/-- the table of VGATHER and VSCATTER, which each element's access checks -/
def tableOf (t : Thread) (i : Instr) (o : FpOps) : CReg :=
  match i, o.a with
  | .vgather _ _, .c n => getC t n
  | .vscatter _ _, .c n => getC t n
  | _, _ => cZero
/-- R442: V of VLSE -/
def lseV (t : Thread) (o : FpOps) : Nat := (readCI t o.c).toNat % 65536
def checkLse (t : Thread) (i : Instr) (o : FpOps) (n : Nat) : Except Stop Unit :=
  match i with
  | .vlse _ _ => if lseV t o == 0 || n % (lseV t o + 2) != 0 then .error (capFault .bounds 0) else .ok ()
  | _ => .ok ()
/-- R436: VSEL and VFILL copy bits: of a 4-bit format they take bits [3:0] of an inline constant too -/
def copiesBits : Instr → Bool | .vsel _ _ => true | .vfill _ _ => true | _ => false
def readScalar (i : Instr) (t : Thread) (code : BitVec 7) (o : Opd) : Except Stop (Nat × Thread) :=
  match o with
  | .imm v => if copiesBits i && (fmtOf code).bits == 4 then .ok ((immOf v % 16).toNat, t) else readFp t code o
  | o => readFp t code o
/-- a captured source: the stream with its position, which advances, or the scalar -/
def capture (i : Instr) (t : Thread) (o : Opd) (f : Option (BitVec 7)) (n : Nat) : Except Stop (WideArg × Thread) :=
  match f with
  | none => .ok (.none, t)
  | some code => match o with
    | .s m => match getS t m with
      | some d => .ok (.stream d, setS t m (some { d with pos := d.pos + n }))
      | none => .error (capFault .kind 0)
    | o => match readScalar i t code o with
      | .ok (v, t) => .ok (.scalar (BitVec.ofNat 128 v), t)
      | .error e => .error e
def rmCode : Rm → BitVec 3 | .rne => 0 | .rtz => 1 | .rdn => 2 | .rup => 3 | .rna => 4
def rmOfCode (m : BitVec 3) : Rm := match m.toNat with | 1 => .rtz | 2 => .rdn | 3 => .rup | 4 => .rna | _ => .rne
def wideCap : Nat := 8
/-- D: a stream that advances, or an f register that must be empty -/
def captureD (t : Thread) (o : Opd) (n : Nat) : Except Stop (WideArg × Thread) :=
  match o with
  | .s m => match getS t m with
    | some d => .ok (.stream d, setS t m (some { d with pos := d.pos + n }))
    | none => .error (capFault .kind 0)
  | .f m => if getF t m == .empty then .ok (.none, setF t m .pending) else .error .wait
  | _ => .ok (.none, t)
def ropeOk (c : Nat) : Bool :=
  (match unpackF fp32 (c % 2 ^ 32) with
   | .num n m e => !n && decide (m ≠ 0) && decide (sumAt (if e ≤ 0 then e else 0) [⟨false, m, e⟩, ⟨true, 1, 0⟩] > 0)
   | _ => false) && decide (6 ≤ c / 2 ^ 32 % 256 ∧ c / 2 ^ 32 % 256 ≤ 8)
def scalarOf : WideArg → Nat | .scalar v => v.toNat | _ => 0
/-- events counted whatever the elements (R441) -/
def issueEvents (i : Instr) (c : WideArg) : Events :=
  match i with | .vrope _ _ => if ropeOk (scalarOf c) then evNone else evInvalid | _ => evNone
def issueWide (i : Instr) (f : WForm) (pc : W64) (t : Thread) : Except Stop Thread := do
  let o := f.o
  checkSource t o.a f.fa false
  checkSource t o.b f.fb f.bStore
  checkSource t o.c f.fc false
  checkElems t o.d f.fd true
  let n := elemCount i o t
  let table := tableOf t i o
  checkLse t i o n
  if t.wide.length ≥ wideCap then .error .wait
  else
    let ctl := ctlOf t o
    let (a, t) ← capture i t o.a f.fa n
    let (b, t) ← capture i t o.b f.fb (if f.bStore then (n + 31) / 32 else n)
    let (c, t) ← capture i t o.c f.fc n
    let (d, t) ← captureD t o.d n
    let w : WideOp :=
      { pc := pc, instr := i, rm := rmCode ctl.rm, ftz := ctl.ftz, sat := ctl.sat, cnan := ctl.cnan, a := a, b := b, c := c,
        d := d, table := table, n := n, done := 0, ev := issueEvents i c, acc := none, accIdx := 0, carry := [] }
    .ok { t with wide := t.wide ++ [w] }
/-- Issue a vector instruction to the dispatch queue. -/
def wideIssue (h : Hdr) (i : Instr) (s : State) : Host.Outcome State Fault Refusal :=
  match wForm i with
  | some f => runState h (fun t s => onThread (issueWide i f s.cur.pc) t s) s
  | none => .next s

/-! ## Elements (R436, R438) -/

def one (p : FLayout) : Nat := p.bias * 2 ^ p.fw
def isZeroOf (code : BitVec 7) (v : Nat) : Bool := (unpack (fmtOf code) (v % 2 ^ (fmtOf code).bits)).isZero
/-- the result of an element-wise instruction -/
def wideElem (i : Instr) (f : FpOps) (c : FCtl) (x y z : Nat) : Nat × Events :=
  let p := layoutOf f.fmt
  match i with
  | .vadd _ _ => fpAdd p c x y
  | .vsub _ _ => fpSub p c x y
  | .vmul _ _ => fpMul p c x y
  | .vfma _ _ => fpFma p c false false x y z
  | .vmax _ _ => fpMinMax p c true x y
  | .vmin _ _ => fpMinMax p c false x y
  | .vabs _ _ => (fpAbs p x, evNone)
  | .vexp2 _ _ => fpExp2In p c x
  | .vrsqe _ _ => fpRsqe p c x
  | .vrcpe _ _ => fpRcpe p c x
  | .vcmp _ _ => let r := fpCmp p c f.opt x y; (if r.1 then one p else 0, r.2)
  | .vsel _ _ => (if isZeroOf f.fmt z then y else x, evNone)
  | .vcvt _ _ => convert c (fmtOf f.fmt) (fmtOf f.fmt2) x
  | _ => (x, evNone)

/-! ## Steps (R435) -/

def wideCtl (w : WideOp) : FCtl := ⟨rmOfCode w.rm, w.ftz, w.sat, w.cnan⟩
/-- elements n from element i on of a captured source -/
def wideVals (w : Who) (a : WideArg) (i n : Nat) : AM (List Nat) :=
  match a with
  | .none => pure (List.replicate n 0)
  | .scalar v => pure (List.replicate n v.toNat)
  | .stream d => aElems w d (d.pos + i) n
/-- R435: lanes of a step -/
def stepLanes (f : WForm) : Nat :=
  let four (c : Option (BitVec 7)) : Bool := match c with | some c => elemBitsOf c == 32 | none => false
  if four f.fa || (four f.fb && !f.bStore) || (four f.fc) || four (some f.fd) then 64 else 128
def storeD (w : Who) (o : WideOp) (vs : List Nat) : AM Unit :=
  match o.d with | .stream d => aElemsStore w d (d.pos + o.done) vs | _ => pure ()
/-- the indices of a step done one by one: the results before the first trap, and that trap -/
def aUntilTrap {α : Type} (f : Nat → AM α) : List Nat → AM (List α × Option (BitVec 8 × W64))
  | [] => pure ([], none)
  | i :: t => fun s => match f i s with
    | .ok (a, s) => (do let r ← aUntilTrap f t; pure (a :: r.1, r.2) : AM _) s
    | .error (.trap s c d) => .ok (([], some (c, d)), s)
    | .error (.wait s) => .error (.wait s)
def trapAfter (e : Option (BitVec 8 × W64)) : AM Unit := match e with | some (c, d) => aTrap c d | none => pure ()
/-- R437: the address of an element of the table, checked as an LD or ST -/
def tableAddr (table : CReg) (f : FpOps) (p : BitVec 7) (idx : Nat) : Except Stop Nat := do
  let z := elemBitsOf f.fmt / 8
  let off : Int := if f.fmt2 == 0x11 then toS 32 idx else idx
  let a := capCursor table.bits + BitVec.ofInt 64 (off * z)
  checkCap table [0, 1] p a z
  if a.toNat % z = 0 then .ok a.toNat else .error (.trap tMisaligned (addrDetail a))
def gatherStep (w : Who) (o : WideOp) (f : FpOps) (k : Nat) : AM WideOp := do
  let z := elemBitsOf f.fmt / 8
  let (vs, e) ← aUntilTrap (fun j => do
    let idx ← wideVals w o.b (o.done + j) 1
    let va ← aLift (tableAddr o.table f permR (idx.headD 0))
    let v ← aLoad w o.table.bits va z
    match o.d with | .stream d => aElemReady w d (d.pos + o.done + j) | _ => pure ()
    pure v) (List.range k)
  storeD w o vs
  trapAfter e
  pure { o with done := o.done + k }
def scatterStep (w : Who) (o : WideOp) (f : FpOps) (k : Nat) : AM WideOp := do
  let z := elemBitsOf f.fmt / 8
  let (vs, e) ← aUntilTrap (fun j => do
    let idx ← wideVals w o.b (o.done + j) 1
    let va ← aLift (tableAddr o.table f permW (idx.headD 0))
    let v ← wideVals w o.c (o.done + j) 1
    aReady w o.table.bits va z
    pure (va, v.headD 0)) (List.range k)
  aFor (fun x => aStore w o.table.bits x.1 z x.2 false false) vs
  trapAfter e
  pure { o with done := o.done + k }

/-! ### Quantisation (R439) -/

def emaxOf (code : BitVec 7) : Int := match code.toNat with | 3 => 8 | 4 => 15 | 5 => 4 | _ => 2
/-- floor(log2) of the largest finite magnitude of a block, none for all zero -/
def blockExp (vs : List FVal) : Option Int :=
  vs.foldl (fun a v => match v with
    | .num _ m e => if m = 0 then a else (match a with
      | none => some (e + Nat.log2 m)
      | some x => if e + Nat.log2 m > x then some (e + Nat.log2 m) else some x)
    | _ => a) none
def blockScale (emax : Int) (vs : List FVal) : Int :=
  match blockExp vs with | none => 0 | some x => max (-127) (min 127 (x - emax))
/-- an element scaled by 2^-X and rounded -/
def quantElem (q : FLayout) (c : FCtl) (x : Int) (v : FVal) : Nat × Events :=
  match v with
  | .nan n s f w => nanOut q c n s f w
  | .inf n => (packMag q n q.max, evSat)
  | .num n m e => finOut q { c with sat := true } true n m (e - x)
/-- one block: its scale code, the element codes and the events -/
def quantBlock (p q : FLayout) (emax : Int) (c : FCtl) (xs : List Nat) : Nat × List Nat × Events :=
  let ins := xs.map (readIn p c)
  let x := blockScale emax (ins.map (·.1))
  let out := ins.map (fun v => let r := quantElem q c x v.1; (r.1, r.2 ||| v.2))
  ((x + 127).toNat, out.map (·.1), out.foldl (fun e r => e ||| r.2) evNone)
def blocksOf : Nat → List Nat → List (List Nat)
  | 0, _ => []
  | n + 1, l => if l.isEmpty then [] else l.take 32 :: blocksOf n (l.drop 32)
def quantStep (w : Who) (o : WideOp) (f : FpOps) (k : Nat) : AM WideOp := do
  let xs ← wideVals w o.a o.done k
  let bs := (blocksOf 4 xs).map (quantBlock (layoutOf f.fmt) (layoutOf f.fmt2) (emaxOf f.fmt2) (wideCtl o))
  match o.b, o.d with
  | .stream b, .stream d => do
    let bi := b.pos + o.done / 32
    let di := d.pos + o.done
    aFor (fun j => aElemReady w b (bi + j)) (List.range bs.length)
    aFor (fun j => aElemReady w d (di + j)) (List.range k)
    aFor (fun x => do
      aElemsStore w b (bi + x.2) [x.1.1]
      aElemsStore w d (di + 32 * x.2) x.1.2.1) bs.zipIdx
  | _, _ => pure ()
  pure { o with done := o.done + k, ev := bs.foldl (fun e b => e ||| b.2.2) o.ev }

/-! ### Reductions (R336, R440) -/

def widenElem (code : BitVec 7) (x : Nat) : Nat := if code == 0x01 then bf16To32 (x % 65536) else x
/-- the sum of a group added to what went before -/
def addGroup (add : Nat → Nat → Nat × Events) (o : WideOp) (vs : List Nat) : WideOp :=
  let g := treeSum add 8 vs
  match o.acc with
  | none => { o with acc := some g.1, ev := o.ev ||| g.2 }
  | some a => let r := add a g.1; { o with acc := some r.1, ev := o.ev ||| g.2 ||| r.2 }
/-- a VSUM of one element, which no addition reads: its NaN and flush rules all the same (R327, R329) -/
def sumAlone (c : FCtl) (x : Nat) : Nat × Events := withNan fp32 c [x] (addVals fp32 c)
/-- VDOT's addition: its zeros are those of a sum of products (R324) -/
def dotAdd (c : FCtl) (a b : Nat) : Nat × Events := withNan fp32 c [a, b] (addProds fp32 c)
/-- R440: the exact difference rounded up; anything not finite gives infinity -/
def deltaTerm (x y : Nat) : Nat :=
  match unpackF fp32 x, unpackF fp32 y with
  | .num n m e, .num n' m' e' =>
    let t := [Term.mk n m e, Term.mk (!n') m' e']
    let d := sumAt (minExp t) t
    if d = 0 then 0 else (roundF fp32 { ctlRne with rm := .rup } false false d.natAbs false (minExp t)).1
  | _, _ => 0x7F800000
def deltaMax (o : WideOp) : List (Nat × Nat) → WideOp
  | [] => o
  | (v, i) :: t =>
    deltaMax (match o.acc with
      | some a => if v > a then { o with acc := some v, accIdx := i } else o
      | none => { o with acc := some v, accIdx := i }) t
/-- one step's elements taken into a reduction -/
def reduceElems (o : WideOp) (xs ys : List Nat) : WideOp :=
  let c := wideCtl o
  match o.instr with
  | .vsum _ _ =>
    if o.n = 1 then (let r := sumAlone c (xs.headD 0); { o with acc := some r.1, ev := o.ev ||| r.2 })
    else addGroup (fpAdd fp32 c) o xs
  | .vdot _ _ =>
    let ps := (xs.zip ys).map (fun x => fpMul fp32 c x.1 x.2)
    addGroup (dotAdd c) { o with ev := ps.foldl (fun e p => e ||| p.2) o.ev } (ps.map (·.1))
  | .vdelta _ _ => deltaMax o ((xs.zip ys).zipIdx.map (fun x => (deltaTerm x.1.1 x.1.2, o.done + x.2)))
  | _ => { o with acc := some (xs.foldl maxAbs (o.acc.getD 0)) }
def reduceStep (w : Who) (o : WideOp) (f : FpOps) (k : Nat) : AM WideOp := do
  let xs ← wideVals w o.a o.done k
  let ys ← wideVals w o.b o.done k
  pure { reduceElems o (xs.map (widenElem f.fmt)) (ys.map (widenElem f.fmt)) with done := o.done + k }
/-- the f register's value: VAL and IDX -/
def reduceResult (o : WideOp) : W128 :=
  let idx := match o.instr with | .vdelta _ _ => (if o.acc.isNone then 0xFFFFFFFF else o.accIdx) | _ => 0
  BitVec.ofNat 128 (o.acc.getD 0 + idx * 2 ^ 32)

/-! ### Rotation and softmax merge (R441, R442) -/

/-- pairs of a step; the first stands at element `i` of its instruction -/
def ropePairs (p : FLayout) (c : FCtl) (pos : Int) (base dh : Nat) : Nat → List Nat → List (Nat × Events)
  | i, x :: y :: t =>
    let th := thetaOf base dh (i % dh / 2)
    let a := readIn p c x
    let b := readIn p c y
    let r := rotatePair p c (trigOf false pos th) (trigOf true pos th) a.1 b.1
    (r.1.1, r.1.2 ||| a.2 ||| b.2) :: (r.2.1, r.2.2 ||| a.2 ||| b.2) :: ropePairs p c pos base dh (i + 2) t
  | _, l => l.map (·, evNone)
def ropeStep (w : Who) (o : WideOp) (f : FpOps) (k : Nat) : AM WideOp := do
  let p := layoutOf f.fmt
  let xs ← wideVals w o.a o.done k
  let c := scalarOf o.c
  let out := if ropeOk c then
      ropePairs p (wideCtl o) (BitVec.ofNat 64 (scalarOf o.b)).toInt (c % 2 ^ 32) (2 ^ (c / 2 ^ 32 % 256)) o.done xs
    else xs.map (fun x => (nanCode p false, if (unpackF p x).isNan then evNone else evNan))
  storeD w o (out.map (·.1))
  pure { o with done := o.done + k, ev := out.foldl (fun e r => e ||| r.2) o.ev }

def negCode (x : Nat) : Nat := if (unpackF fp32 x).isNan then x else fpNeg fp32 x
/-- x0*a + x1*b, exact and rounded once -/
def lseSum (c : FCtl) (x0 a x1 b : Nat) : Nat × Events :=
  let k (x : Nat) : FVal := unpackF fp32 x
  prodsOut fp32 c [(k x0, k a, false), (k x1, k b, false)]
/-- the factor of a state against the merged maximum -/
def lseFactor (c : FCtl) (m mn : Nat) : Nat × Events :=
  if (fpCmp fp32 c 0 m mn).1 then (0x3F800000, evNone)
  else
    let d := fpSub fp32 c m mn
    let r := fpExp2 c d.1
    (r.1, d.2 ||| r.2)
/-- the elements of a step: `carry` holds the record's factors a and b -/
def lseElems (c : FCtl) (sub : Bool) (v : Nat) : Nat → List Nat → List (Nat × Nat) → List (Nat × Events) × List Nat
  | _, carry, [] => ([], carry)
  | i, carry, (x0, x1) :: t =>
    if i % (v + 2) = 0 then
      let mn := if sub then (x0, evNone) else fpMinMax fp32 c true x0 x1
      let a := lseFactor c x0 mn.1
      let b := lseFactor c x1 mn.1
      let r := lseElems c sub v (i + 1) [a.1, b.1] t
      ((mn.1, mn.2 ||| a.2 ||| b.2) :: r.1, r.2)
    else
      let e := lseSum c x0 (carry.headD 0) (if sub then negCode x1 else x1) ((carry.drop 1).headD 0)
      let r := lseElems c sub v (i + 1) carry t
      (e :: r.1, r.2)
def lseStep (w : Who) (o : WideOp) (f : FpOps) (k : Nat) : AM WideOp := do
  let xs ← wideVals w o.a o.done k
  let ys ← wideVals w o.b o.done k
  let c : FCtl := { ctlRne with cnan := o.cnan }
  let r := lseElems c (f.opt == 1) (scalarOf o.c % 65536) o.done o.carry (xs.zip ys)
  storeD w o (r.1.map (·.1))
  pure { o with done := o.done + k, carry := r.2, ev := r.1.foldl (fun e x => e ||| x.2) o.ev }

def elemStep (w : Who) (o : WideOp) (f : FpOps) (k : Nat) : AM WideOp := do
  let xs ← wideVals w o.a o.done k
  let ys ← wideVals w o.b o.done k
  let zs ← wideVals w o.c o.done k
  let out := (xs.zip (ys.zip zs)).map (fun x => wideElem o.instr f (wideCtl o) x.1 x.2.1 x.2.2)
  storeD w o (out.map (·.1))
  pure { o with done := o.done + k, ev := out.foldl (fun e r => e ||| r.2) o.ev }

/-- One step of a dispatched instruction. -/
def wideStep (w : Who) (o : WideOp) : AM WideOp :=
  match wForm o.instr with
  | none => pure { o with done := o.n }
  | some f =>
    let k := min (stepLanes f) (o.n - o.done)
    match o.instr with
    | .vgather _ _ => gatherStep w o f.o k
    | .vscatter _ _ => scatterStep w o f.o k
    | .vqnt _ _ => quantStep w o f.o k
    | .vamax _ _ | .vsum _ _ | .vdot _ _ | .vdelta _ _ => if k = 0 then pure o else reduceStep w o f.o k
    | .vrope _ _ => ropeStep w o f.o k
    | .vlse _ _ => lseStep w o f.o k
    | _ => elemStep w o f.o k

/-! ## The event -/

/-- the f register a finished reduction fills -/
def deliverF (t : Thread) (o : WideOp) : Thread :=
  match wForm o.instr with
  | some f => (match f.o.d with | .f n => setF t n (.full (reduceResult o)) | _ => t)
  | none => t
/-- the faulting head of a dispatch queue goes, and the later ones with it -/
def dropWide (s : State) (k : Nat) : State :=
  match threadOf s k with | some t => setThreadOf s k { t with wide := [] } | none => s
/-- a step of a core's own head instruction -/
def stepThread (s : State) (k : Nat) (t : Thread) (o : WideOp) : State :=
  match wideStep (whoOf k t) o s with
  | .error (.wait s) => s
  | .error (.trap s c d) => takeTrap true { dropWide s k with cur := { core := k, pc := o.pc, word := 0, mask := 0, arg := .none } } c d
  | .ok (o', s) => match threadOf s k with
    | none => s
    | some t =>
      if o'.done ≥ o'.n then setThreadOf s k (countEvents (deliverF { t with wide := t.wide.tail } o') o'.ev)
      else setThreadOf s k { t with wide := o' :: t.wide.tail }
/-- a step of a started instruction whose firing was killed: it completes for nobody -/
def stepOrphan (s : State) (k : Nat) (ctx : BitVec 12) (o : WideOp) : State :=
  let drop (s : State) : State := setCore s k { core s k with orphans := (core s k).orphans.tail }
  match wideStep { k := k, ctx := ctx, lines := [] } o s with
  | .error (.wait s) => s
  | .error (.trap s _ _) => drop s
  | .ok (o', s) => if o'.done ≥ o'.n then drop s else setCore s k { core s k with orphans := (ctx, o') :: (core s k).orphans.tail }
/-- a core has a wide-unit instruction dispatched -/
def wideBusy (s : State) (k : Nat) : Bool :=
  !(core s k).orphans.isEmpty || (match threadOf s k with | some t => !t.fw.stopped && !t.wide.isEmpty | none => false)
def stepCoreWide (s : State) (k : Nat) : State :=
  match (core s k).orphans with
  | (ctx, o) :: _ => stepOrphan s k ctx o
  | [] => match threadOf s k with
    | some t => (match t.wide with | o :: _ => stepThread s k t o | [] => s)
    | none => s
/-- R296: the next non-empty dispatch queue of a row, round-robin -/
def stepRow (s : State) (row : Nat) : State :=
  let p := mget 0 s.wideRr row
  match ([0, 1, 2, 3].map (fun i => (p + i) % 4)).find? (fun i => wideBusy s (row * 4 + i)) with
  | some i => stepCoreWide { s with wideRr := mset s.wideRr row ((i + 1) % 4) } (row * 4 + i)
  | none => s
def execWideUnitStep (s : State) : Host.Outcome State Fault Refusal :=
  .next (match s.cur.arg with | .ix row => stepRow s row | _ => s)

/-! ## The instructions -/

def execVadd (h : Hdr) (o : FpOps) (s : State) : Host.Outcome State Fault Refusal := wideIssue h (.vadd h o) s
def execVsub (h : Hdr) (o : FpOps) (s : State) : Host.Outcome State Fault Refusal := wideIssue h (.vsub h o) s
def execVmul (h : Hdr) (o : FpOps) (s : State) : Host.Outcome State Fault Refusal := wideIssue h (.vmul h o) s
def execVfma (h : Hdr) (o : FpOps) (s : State) : Host.Outcome State Fault Refusal := wideIssue h (.vfma h o) s
def execVmax (h : Hdr) (o : FpOps) (s : State) : Host.Outcome State Fault Refusal := wideIssue h (.vmax h o) s
def execVmin (h : Hdr) (o : FpOps) (s : State) : Host.Outcome State Fault Refusal := wideIssue h (.vmin h o) s
def execVabs (h : Hdr) (o : FpOps) (s : State) : Host.Outcome State Fault Refusal := wideIssue h (.vabs h o) s
def execVexp2 (h : Hdr) (o : FpOps) (s : State) : Host.Outcome State Fault Refusal := wideIssue h (.vexp2 h o) s
def execVrsqe (h : Hdr) (o : FpOps) (s : State) : Host.Outcome State Fault Refusal := wideIssue h (.vrsqe h o) s
def execVrcpe (h : Hdr) (o : FpOps) (s : State) : Host.Outcome State Fault Refusal := wideIssue h (.vrcpe h o) s
def execVcmp (h : Hdr) (o : FpOps) (s : State) : Host.Outcome State Fault Refusal := wideIssue h (.vcmp h o) s
def execVsel (h : Hdr) (o : FpOps) (s : State) : Host.Outcome State Fault Refusal := wideIssue h (.vsel h o) s
def execVfill (h : Hdr) (o : FpOps) (s : State) : Host.Outcome State Fault Refusal := wideIssue h (.vfill h o) s
def execVcopy (h : Hdr) (o : FpOps) (s : State) : Host.Outcome State Fault Refusal := wideIssue h (.vcopy h o) s
def execVgather (h : Hdr) (o : FpOps) (s : State) : Host.Outcome State Fault Refusal := wideIssue h (.vgather h o) s
def execVscatter (h : Hdr) (o : FpOps) (s : State) : Host.Outcome State Fault Refusal := wideIssue h (.vscatter h o) s
def execVcvt (h : Hdr) (o : FpOps) (s : State) : Host.Outcome State Fault Refusal := wideIssue h (.vcvt h o) s
def execVqnt (h : Hdr) (o : FpOps) (s : State) : Host.Outcome State Fault Refusal := wideIssue h (.vqnt h o) s
def execVamax (h : Hdr) (o : FpOps) (s : State) : Host.Outcome State Fault Refusal := wideIssue h (.vamax h o) s
def execVsum (h : Hdr) (o : FpOps) (s : State) : Host.Outcome State Fault Refusal := wideIssue h (.vsum h o) s
def execVdot (h : Hdr) (o : FpOps) (s : State) : Host.Outcome State Fault Refusal := wideIssue h (.vdot h o) s
def execVdelta (h : Hdr) (o : FpOps) (s : State) : Host.Outcome State Fault Refusal := wideIssue h (.vdelta h o) s
def execVrope (h : Hdr) (o : FpOps) (s : State) : Host.Outcome State Fault Refusal := wideIssue h (.vrope h o) s
def execVlse (h : Hdr) (o : FpOps) (s : State) : Host.Outcome State Fault Refusal := wideIssue h (.vlse h o) s

end Sys2Proof.Machine
end

