-- ==== Sys2Proof/Machine/Dispatch.lean ====
section
/-! DEFINITION. The meaning of every instruction and event: one arm per constructor of Instr. -/
namespace Sys2Proof.Machine

/-- What an instruction, or an event, does to the machine. -/
def exec (i : Instr) (s : State) : Host.Outcome State Fault Refusal :=
  match i with
  | .nop h => Sys2Proof.Machine.execNop h s
  | .br h o => Sys2Proof.Machine.execBr h o s
  | .brx h o => Sys2Proof.Machine.execBrx h o s
  | .call h o => Sys2Proof.Machine.execCall h o s
  | .callx h o => Sys2Proof.Machine.execCallx h o s
  | .ret h o => Sys2Proof.Machine.execRet h o s
  | .loop h o => Sys2Proof.Machine.execLoop h o s
  | .finCommit h => Sys2Proof.Machine.execFinCommit h s
  | .finAgain h => Sys2Proof.Machine.execFinAgain h s
  | .finAbort h => Sys2Proof.Machine.execFinAbort h s
  | .yield h => Sys2Proof.Machine.execYield h s
  | .trap h o => Sys2Proof.Machine.execTrap h o s
  | .sig h o => Sys2Proof.Machine.execSig h o s
  | .add h o => Sys2Proof.Machine.execAdd h o s
  | .sub h o => Sys2Proof.Machine.execSub h o s
  | .mul h o => Sys2Proof.Machine.execMul h o s
  | .mulh h o => Sys2Proof.Machine.execMulh h o s
  | .mulhn h o => Sys2Proof.Machine.execMulhn h o s
  | .div h o => Sys2Proof.Machine.execDiv h o s
  | .divn h o => Sys2Proof.Machine.execDivn h o s
  | .rem h o => Sys2Proof.Machine.execRem h o s
  | .remn h o => Sys2Proof.Machine.execRemn h o s
  | .and h o => Sys2Proof.Machine.execAnd h o s
  | .or h o => Sys2Proof.Machine.execOr h o s
  | .xor h o => Sys2Proof.Machine.execXor h o s
  | .andn h o => Sys2Proof.Machine.execAndn h o s
  | .shl h o => Sys2Proof.Machine.execShl h o s
  | .shr h o => Sys2Proof.Machine.execShr h o s
  | .sra h o => Sys2Proof.Machine.execSra h o s
  | .rotr h o => Sys2Proof.Machine.execRotr h o s
  | .min h o => Sys2Proof.Machine.execMin h o s
  | .max h o => Sys2Proof.Machine.execMax h o s
  | .minn h o => Sys2Proof.Machine.execMinn h o s
  | .maxn h o => Sys2Proof.Machine.execMaxn h o s
  | .abs h o => Sys2Proof.Machine.execAbs h o s
  | .neg h o => Sys2Proof.Machine.execNeg h o s
  | .clz h o => Sys2Proof.Machine.execClz h o s
  | .ctz h o => Sys2Proof.Machine.execCtz h o s
  | .popc h o => Sys2Proof.Machine.execPopc h o s
  | .brev h o => Sys2Proof.Machine.execBrev h o s
  | .bswp h o => Sys2Proof.Machine.execBswp h o s
  | .extr h o => Sys2Proof.Machine.execExtr h o s
  | .extrn h o => Sys2Proof.Machine.execExtrn h o s
  | .ins h o => Sys2Proof.Machine.execIns h o s
  | .sel h o => Sys2Proof.Machine.execSel h o s
  | .mov h o => Sys2Proof.Machine.execMov h o s
  | .movi h o => Sys2Proof.Machine.execMovi h o s
  | .moviHigh h o => Sys2Proof.Machine.execMoviHigh h o s
  | .cmp h o => Sys2Proof.Machine.execCmp h o s
  | .pand h o => Sys2Proof.Machine.execPand h o s
  | .por h o => Sys2Proof.Machine.execPor h o s
  | .pxor h o => Sys2Proof.Machine.execPxor h o s
  | .pnot h o => Sys2Proof.Machine.execPnot h o s
  | .rngx h o => Sys2Proof.Machine.execRngx h o s
  | .csetb h o => Sys2Proof.Machine.execCsetb h o s
  | .csetp h o => Sys2Proof.Machine.execCsetp h o s
  | .cadd h o => Sys2Proof.Machine.execCadd h o s
  | .cgetb h o => Sys2Proof.Machine.execCgetb h o s
  | .cgetl h o => Sys2Proof.Machine.execCgetl h o s
  | .cgetp h o => Sys2Proof.Machine.execCgetp h o s
  | .cgett h o => Sys2Proof.Machine.execCgett h o s
  | .cclr h o => Sys2Proof.Machine.execCclr h o s
  | .cseal h o => Sys2Proof.Machine.execCseal h o s
  | .cunseal h o => Sys2Proof.Machine.execCunseal h o s
  | .ld h o => Sys2Proof.Machine.execLd h o s
  | .ldc h o => Sys2Proof.Machine.execLdc h o s
  | .st h o => Sys2Proof.Machine.execSt h o s
  | .stc h o => Sys2Proof.Machine.execStc h o s
  | .lda h o => Sys2Proof.Machine.execLda h o s
  | .str h o => Sys2Proof.Machine.execStr h o s
  | .pref h o => Sys2Proof.Machine.execPref h o s
  | .sdef h o => Sys2Proof.Machine.execSdef h o s
  | .sdefw h o => Sys2Proof.Machine.execSdefw h o s
  | .sdefk h o => Sys2Proof.Machine.execSdefk h o s
  | .sdefs h o => Sys2Proof.Machine.execSdefs h o s
  | .sld h o => Sys2Proof.Machine.execSld h o s
  | .sst h o => Sys2Proof.Machine.execSst h o s
  | .srd h o => Sys2Proof.Machine.execSrd h o s
  | .fence h o => Sys2Proof.Machine.execFence h o s
  | .clean h o => Sys2Proof.Machine.execClean h o s
  | .inval h o => Sys2Proof.Machine.execInval h o s
  | .flush h o => Sys2Proof.Machine.execFlush h o s
  | .spalloc h o => Sys2Proof.Machine.execSpalloc h o s
  | .spfree h o => Sys2Proof.Machine.execSpfree h o s
  | .aadd h o => Sys2Proof.Machine.execAadd h o s
  | .aand h o => Sys2Proof.Machine.execAand h o s
  | .aor h o => Sys2Proof.Machine.execAor h o s
  | .axor h o => Sys2Proof.Machine.execAxor h o s
  | .amin h o => Sys2Proof.Machine.execAmin h o s
  | .amax h o => Sys2Proof.Machine.execAmax h o s
  | .aminn h o => Sys2Proof.Machine.execAminn h o s
  | .amaxn h o => Sys2Proof.Machine.execAmaxn h o s
  | .aswap h o => Sys2Proof.Machine.execAswap h o s
  | .acas h o => Sys2Proof.Machine.execAcas h o s
  | .afadd h o => Sys2Proof.Machine.execAfadd h o s
  | .radd h o => Sys2Proof.Machine.execRadd h o s
  | .rclr h o => Sys2Proof.Machine.execRclr h o s
  | .stkinit h o => Sys2Proof.Machine.execStkinit h o s
  | .stktake h o => Sys2Proof.Machine.execStktake h o s
  | .stkgive h o => Sys2Proof.Machine.execStkgive h o s
  | .stkreadApprox h o => Sys2Proof.Machine.execStkreadApprox h o s
  | .stkreadExact h o => Sys2Proof.Machine.execStkreadExact h o s
  | .phreg h o => Sys2Proof.Machine.execPhreg h o s
  | .phdrop h o => Sys2Proof.Machine.execPhdrop h o s
  | .phsig h o => Sys2Proof.Machine.execPhsig h o s
  | .phwait h o => Sys2Proof.Machine.execPhwait h o s
  | .phsw h o => Sys2Proof.Machine.execPhsw h o s
  | .phexp h o => Sys2Proof.Machine.execPhexp h o s
  | .phgather h o => Sys2Proof.Machine.execPhgather h o s
  | .evwait h o => Sys2Proof.Machine.execEvwait h o s
  | .evpop h o => Sys2Proof.Machine.execEvpop h o s
  | .evpeek h o => Sys2Proof.Machine.execEvpeek h o s
  | .send h o => Sys2Proof.Machine.execSend h o s
  | .withdraw h o => Sys2Proof.Machine.execWithdraw h o s
  | .qpeek h o => Sys2Proof.Machine.execQpeek h o s
  | .qcnt h o => Sys2Proof.Machine.execQcnt h o s
  | .fadd h o => Sys2Proof.Machine.execFadd h o s
  | .fsub h o => Sys2Proof.Machine.execFsub h o s
  | .fmul h o => Sys2Proof.Machine.execFmul h o s
  | .fma h o => Sys2Proof.Machine.execFma h o s
  | .fms h o => Sys2Proof.Machine.execFms h o s
  | .fnma h o => Sys2Proof.Machine.execFnma h o s
  | .fnms h o => Sys2Proof.Machine.execFnms h o s
  | .fdiv h o => Sys2Proof.Machine.execFdiv h o s
  | .fsqrt h o => Sys2Proof.Machine.execFsqrt h o s
  | .frsqe h o => Sys2Proof.Machine.execFrsqe h o s
  | .frcpe h o => Sys2Proof.Machine.execFrcpe h o s
  | .fmin h o => Sys2Proof.Machine.execFmin h o s
  | .fmax h o => Sys2Proof.Machine.execFmax h o s
  | .fabs h o => Sys2Proof.Machine.execFabs h o s
  | .fneg h o => Sys2Proof.Machine.execFneg h o s
  | .fcpsgn h o => Sys2Proof.Machine.execFcpsgn h o s
  | .fcmp h o => Sys2Proof.Machine.execFcmp h o s
  | .fclass h o => Sys2Proof.Machine.execFclass h o s
  | .fcvt h o => Sys2Proof.Machine.execFcvt h o s
  | .fscalb h o => Sys2Proof.Machine.execFscalb h o s
  | .fexpo h o => Sys2Proof.Machine.execFexpo h o s
  | .vadd h o => Sys2Proof.Machine.execVadd h o s
  | .vsub h o => Sys2Proof.Machine.execVsub h o s
  | .vmul h o => Sys2Proof.Machine.execVmul h o s
  | .vfma h o => Sys2Proof.Machine.execVfma h o s
  | .vmax h o => Sys2Proof.Machine.execVmax h o s
  | .vmin h o => Sys2Proof.Machine.execVmin h o s
  | .vabs h o => Sys2Proof.Machine.execVabs h o s
  | .vexp2 h o => Sys2Proof.Machine.execVexp2 h o s
  | .vrsqe h o => Sys2Proof.Machine.execVrsqe h o s
  | .vrcpe h o => Sys2Proof.Machine.execVrcpe h o s
  | .vcmp h o => Sys2Proof.Machine.execVcmp h o s
  | .vsel h o => Sys2Proof.Machine.execVsel h o s
  | .vfill h o => Sys2Proof.Machine.execVfill h o s
  | .vcopy h o => Sys2Proof.Machine.execVcopy h o s
  | .vgather h o => Sys2Proof.Machine.execVgather h o s
  | .vscatter h o => Sys2Proof.Machine.execVscatter h o s
  | .vcvt h o => Sys2Proof.Machine.execVcvt h o s
  | .vqnt h o => Sys2Proof.Machine.execVqnt h o s
  | .vamax h o => Sys2Proof.Machine.execVamax h o s
  | .vsum h o => Sys2Proof.Machine.execVsum h o s
  | .vdot h o => Sys2Proof.Machine.execVdot h o s
  | .vdelta h o => Sys2Proof.Machine.execVdelta h o s
  | .vrope h o => Sys2Proof.Machine.execVrope h o s
  | .vlse h o => Sys2Proof.Machine.execVlse h o s
  | .mgang h o => Sys2Proof.Machine.execMgang h o s
  | .mmul h o => Sys2Proof.Machine.execMmul h o s
  | .mgrp h o => Sys2Proof.Machine.execMgrp h o s
  | .mzero h o => Sys2Proof.Machine.execMzero h o s
  | .mld h o => Sys2Proof.Machine.execMld h o s
  | .mst h o => Sys2Proof.Machine.execMst h o s
  | .mdrain h o => Sys2Proof.Machine.execMdrain h o s
  | .mdrainAdd h o => Sys2Proof.Machine.execMdrainAdd h o s
  | .mdrainAddOrd h o => Sys2Proof.Machine.execMdrainAddOrd h o s
  | .mcopy h o => Sys2Proof.Machine.execMcopy h o s
  | .mstat h o => Sys2Proof.Machine.execMstat h o s
  | .cpy h o => Sys2Proof.Machine.execCpy h o s
  | .cpy2d h o => Sys2Proof.Machine.execCpy2d h o s
  | .cprot h o => Sys2Proof.Machine.execCprot h o s
  | .cpfill h o => Sys2Proof.Machine.execCpfill h o s
  | .bkadd h o => Sys2Proof.Machine.execBkadd h o s
  | .bkaxpy h o => Sys2Proof.Machine.execBkaxpy h o s
  | .bkgemv h o => Sys2Proof.Machine.execBkgemv h o s
  | .bkzero h o => Sys2Proof.Machine.execBkzero h o s
  | .kvapp h o => Sys2Proof.Machine.execKvapp h o s
  | .kvseal h o => Sys2Proof.Machine.execKvseal h o s
  | .kvpatch h o => Sys2Proof.Machine.execKvpatch h o s
  | .kvfork h o => Sys2Proof.Machine.execKvfork h o s
  | .kvtrunc h o => Sys2Proof.Machine.execKvtrunc h o s
  | .kvstat h o => Sys2Proof.Machine.execKvstat h o s
  | .kvjopen h o => Sys2Proof.Machine.execKvjopen h o s
  | .kvjmark h o => Sys2Proof.Machine.execKvjmark h o s
  | .kvjundo h o => Sys2Proof.Machine.execKvjundo h o s
  | .kvjclose h o => Sys2Proof.Machine.execKvjclose h o s
  | .edins h o => Sys2Proof.Machine.execEdins h o s
  | .eddel h o => Sys2Proof.Machine.execEddel h o s
  | .edrep h o => Sys2Proof.Machine.execEdrep h o s
  | .settle h o => Sys2Proof.Machine.execSettle h o s
  | .raise h o => Sys2Proof.Machine.execRaise h o s
  | .rebind h o => Sys2Proof.Machine.execRebind h o s
  | .wholdWithin h o => Sys2Proof.Machine.execWholdWithin h o s
  | .wholdBefore h o => Sys2Proof.Machine.execWholdBefore h o s
  | .wholdAfter h o => Sys2Proof.Machine.execWholdAfter h o s
  | .wfree h o => Sys2Proof.Machine.execWfree h o s
  | .wdone h o => Sys2Proof.Machine.execWdone h o s
  | .wcell h o => Sys2Proof.Machine.execWcell h o s
  | .wmark h o => Sys2Proof.Machine.execWmark h o s
  | .ctlrd h o => Sys2Proof.Machine.execCtlrd h o s
  | .ctlwr h o => Sys2Proof.Machine.execCtlwr h o s
  | .tlbwr h o => Sys2Proof.Machine.execTlbwr h o s
  | .tlbwrFill h o => Sys2Proof.Machine.execTlbwrFill h o s
  | .tlbwrFault h o => Sys2Proof.Machine.execTlbwrFault h o s
  | .tlbwrPeer h o => Sys2Proof.Machine.execTlbwrPeer h o s
  | .tlbinv h o => Sys2Proof.Machine.execTlbinv h o s
  | .tlbprobe h o => Sys2Proof.Machine.execTlbprobe h o s
  | .cflush h o => Sys2Proof.Machine.execCflush h o s
  | .rett h => Sys2Proof.Machine.execRett h s
  | .hbeat h o => Sys2Proof.Machine.execHbeat h o s
  | .idle h o => Sys2Proof.Machine.execIdle h o s
  | .powerLoss => Sys2Proof.Machine.execPowerLoss s
  | .hctlStart => Sys2Proof.Machine.execHctlStart s
  | .imageFirstHeartbeatTimeout => Sys2Proof.Machine.execImageFirstHeartbeatTimeout s
  | .hctlNegGo => Sys2Proof.Machine.execHctlNegGo s
  | .hmqheadWrite => Sys2Proof.Machine.execHmqheadWrite s
  | .registerWrite => Sys2Proof.Machine.execRegisterWrite s
  | .messageSlotPost => Sys2Proof.Machine.execMessageSlotPost s
  | .messageSlotClear => Sys2Proof.Machine.execMessageSlotClear s
  | .slotMessageAccept => Sys2Proof.Machine.execSlotMessageAccept s
  | .msixRateIntervalExpiry => Sys2Proof.Machine.execMsixRateIntervalExpiry s
  | .hostCxlMemAccess => Sys2Proof.Machine.execHostCxlMemAccess s
  | .ctxnew => Sys2Proof.Machine.execCtxnew s
  | .ctxend => Sys2Proof.Machine.execCtxend s
  | .ctxtrap => Sys2Proof.Machine.execCtxtrap s
  | .stockalloc => Sys2Proof.Machine.execStockalloc s
  | .shore => Sys2Proof.Machine.execShore s
  | .shoot => Sys2Proof.Machine.execShoot s
  | .shootdownComplete => Sys2Proof.Machine.execShootdownComplete s
  | .sched => Sys2Proof.Machine.execSched s
  | .linkcfg => Sys2Proof.Machine.execLinkcfg s
  | .slotvec => Sys2Proof.Machine.execSlotvec s
  | .attest => Sys2Proof.Machine.execAttest s
  | .seqopen => Sys2Proof.Machine.execSeqopen s
  | .seqclose => Sys2Proof.Machine.execSeqclose s
  | .verdict => Sys2Proof.Machine.execVerdict s
  | .thermalThrottle => Sys2Proof.Machine.execThermalThrottle s
  | .thermalRecover => Sys2Proof.Machine.execThermalRecover s
  | .thermalFatal => Sys2Proof.Machine.execThermalFatal s
  | .dieBridgeLoss => Sys2Proof.Machine.execDieBridgeLoss s
  | .linkReplayRequest => Sys2Proof.Machine.execLinkReplayRequest s
  | .linkRetrainStart => Sys2Proof.Machine.execLinkRetrainStart s
  | .linkRetrainSuccess => Sys2Proof.Machine.execLinkRetrainSuccess s
  | .linkRetrainLimitExpiry => Sys2Proof.Machine.execLinkRetrainLimitExpiry s
  | .peerLost => Sys2Proof.Machine.execPeerLost s
  | .peerReachable => Sys2Proof.Machine.execPeerReachable s
  | .hbmScrub => Sys2Proof.Machine.execHbmScrub s
  | .shoreStageComplete => Sys2Proof.Machine.execShoreStageComplete s
  | .shoreStageTimeout => Sys2Proof.Machine.execShoreStageTimeout s
  | .handoverRecordWritten => Sys2Proof.Machine.execHandoverRecordWritten s
  | .handoverTimeout => Sys2Proof.Machine.execHandoverTimeout s
  | .shoreAcceptance => Sys2Proof.Machine.execShoreAcceptance s
  | .shoreGapLimitExpiry => Sys2Proof.Machine.execShoreGapLimitExpiry s
  | .watchdogHeartbeatMiss => Sys2Proof.Machine.execWatchdogHeartbeatMiss s
  | .shoreCommit => Sys2Proof.Machine.execShoreCommit s
  | .committedHeartbeatLoss => Sys2Proof.Machine.execCommittedHeartbeatLoss s
  | .firstTouchServe => Sys2Proof.Machine.execFirstTouchServe s
  | .dupReadReplicate => Sys2Proof.Machine.execDupReadReplicate s
  | .dupWriteCollapse => Sys2Proof.Machine.execDupWriteCollapse s
  | .stockHomeServe => Sys2Proof.Machine.execStockHomeServe s
  | .stockRecallOrder => Sys2Proof.Machine.execStockRecallOrder s
  | .stockReturnArrival => Sys2Proof.Machine.execStockReturnArrival s
  | .stockReclaimProbe => Sys2Proof.Machine.execStockReclaimProbe s
  | .phaserCompletionArrival => Sys2Proof.Machine.execPhaserCompletionArrival s
  | .heldRecordDelivery => Sys2Proof.Machine.execHeldRecordDelivery s
  | .firingStart => Sys2Proof.Machine.execFiringStart s
  | .firingResume => Sys2Proof.Machine.execFiringResume s
  | .preemptAtSafePoint => Sys2Proof.Machine.execPreemptAtSafePoint s
  | .quotaAdjust => Sys2Proof.Machine.execQuotaAdjust s
  | .overdueRotation => Sys2Proof.Machine.execOverdueRotation s
  | .budgetPeriodStart => Sys2Proof.Machine.execBudgetPeriodStart s
  | .cycleBudgetSpent => Sys2Proof.Machine.execCycleBudgetSpent s
  | .byteBudgetSpent => Sys2Proof.Machine.execByteBudgetSpent s
  | .overrunExpiry => Sys2Proof.Machine.execOverrunExpiry s
  | .frameEnd => Sys2Proof.Machine.execFrameEnd s
  | .drainApply => Sys2Proof.Machine.execDrainApply s
  | .waveEnterLayer => Sys2Proof.Machine.execWaveEnterLayer s
  | .editDeferredApply => Sys2Proof.Machine.execEditDeferredApply s
  | .editRotationComplete => Sys2Proof.Machine.execEditRotationComplete s
  | .afterHoldGrant => Sys2Proof.Machine.execAfterHoldGrant s
  | .engineCommandComplete => Sys2Proof.Machine.execEngineCommandComplete s
  | .wideUnitStep => Sys2Proof.Machine.execWideUnitStep s
  | .ageingIntervalExpiry => Sys2Proof.Machine.execAgeingIntervalExpiry s
  | .idleTimeoutExpiry => Sys2Proof.Machine.execIdleTimeoutExpiry s
  | .msixVectorUnmask => Sys2Proof.Machine.execMsixVectorUnmask s
  | .peerRequestArrival => Sys2Proof.Machine.execPeerRequestArrival s
  | .hostCacheSnoop => Sys2Proof.Machine.execHostCacheSnoop s
  | .stateParityError => Sys2Proof.Machine.execStateParityError s
  | .shoreFallbackComplete => Sys2Proof.Machine.execShoreFallbackComplete s

end Sys2Proof.Machine
end

