-- ==== Sys2Proof/Machine/Sched.lean ====
section
/-! DEFINITION. What moves next (log 1): the agenda, or by default, in turn, what the machine has under way. Time, the
world's events and evictions come from the agenda alone (log 5, 6). -/
namespace Sys2Proof.Machine

/-! ## The turns the machine offers of itself -/

def offer (c : Bool) (t : Turn) : List Turn := if c then [t] else []
def places (n : Nat) (f : Nat → Turn) : List Turn := (List.range n).map f
/-- a core: its two halves, a stop at the safe point it stands at, limits that have passed, its wide-unit work -/
def coreTurns (s : State) (x : Nat × CoreSt) : List Turn :=
  let k := x.1
  (match x.2.thread with
   | none => []
   | some t => [.access k, .execute k] ++ offer t.safe.isSome (.event .preemptAtSafePoint (.ix k)) ++
       offer (overrunDue s k) (.event .overrunExpiry (.ix k)) ++ offer (idleDue s k) (.event .idleTimeoutExpiry (.ix k))) ++
  offer (wideBusy s k) (.event .wideUnitStep (.ix (k / 4)))
/-- the event that takes a command in the inbox of the Joiner or the Kiln -/
def cmdEvent (i : Instr) : Instr := match i with | .verdict => .verdict | .seqopen => .seqopen | .seqclose => .seqclose | _ => .engineCommandComplete
def inbox (l : List Cmd) (e : EngineId) : List Turn := l.zipIdx.map (fun x => .event (cmdEvent x.1.instr) (.engine e x.2))
/-- phasers whose gather record is still to be written; engines 64 and above are the dies' -/
def dueTurns (e : Nat) (m : Map Phaser) : List Turn := (m.filter (·.2.due)).map (fun p => .event .phaserCompletionArrival (.ix2 e p.1))
def clusterTurns (x : Nat × Cluster) : List Turn :=
  let cl := x.1
  let c := x.2
  offer (!c.misses.isEmpty) (.serve cl) ++ offer (!c.misses.isEmpty) (.event .dupReadReplicate (.ix cl)) ++
  places c.touches.length (fun i => .event .firstTouchServe (.ix2 cl i)) ++
  offer (!c.dupWrites.isEmpty) (.event .dupWriteCollapse (.ix cl)) ++
  inbox c.copy (.copy cl) ++ inbox c.joiner (.joiner cl) ++ dueTurns cl c.phasers
def counterTurns (s : State) (d : Nat) (x : Nat × Counter) : List Turn :=
  let n := d * 4096 + x.1
  (match x.2.recalling with | some r => r.waiting.map (fun k => .event .stockRecallOrder (.ix2 n k)) | none => []) ++
  offer (!x.2.queue.isEmpty) (.event .stockHomeServe (.ix n)) ++ offer (probeDue s n) (.event .stockReclaimProbe (.ix n))
def dieTurns (s : State) (x : Nat × Die) : List Turn :=
  let d := x.1
  x.2.counters.flatMap (counterTurns s d) ++ offer (!x.2.returns.isEmpty) (.event .stockReturnArrival (.ix d)) ++
  dueTurns (64 + d) x.2.phasers ++ inbox x.2.kiln (.kiln d) ++ inbox x.2.scribe (.scribe d) ++
  x.2.bank.map (fun c => .event .engineCommandComplete (.engine (.bank (channelOfPa c.pa)) 0)) ++
  x.2.firmware.zipIdx.map (fun c => if isMgmt c.1.instr then .event c.1.instr .none else .event .attest (.engine (.firmware d) c.2))
/-- the Joiner's choices in a cluster (R184, R185) -/
def joinerTurns (s : State) (cl : Nat) : List Turn :=
  offer (pickStart s cl).isSome (.event .firingStart (.ix cl)) ++ offer (pickStart s cl).isSome (.event .firingResume (.ix cl)) ++
  offer (pickBlocked s cl).isSome (.event .ageingIntervalExpiry (.ix cl)) ++
  offer ((waiting s cl).any (isOverdue s)) (.event .overdueRotation (.ix cl)) ++ offer (quotaDue s cl) (.event .quotaAdjust (.ix cl))
def frameTurns (s : State) : List Turn :=
  if s.work.frames.isEmpty then []
  else
    let r := refreshReady s
    (List.range 64).flatMap (joinerTurns r) ++ offer (s.work.frames.any (frameDone s)) (.event .frameEnd .none)
def ctxTurns (s : State) (x : Nat × Ctx) : List Turn :=
  offer (periodDue s x.2) (.event .budgetPeriodStart (.ix x.1)) ++ offer (cyclesDue x.2) (.event .cycleBudgetSpent (.ix x.1)) ++
  offer (bytesDue x.2) (.event .byteBudgetSpent (.ix x.1))
def workTurns (w : Work) : List Turn :=
  offer (!w.phComps.isEmpty) (.event .phaserCompletionArrival .none) ++ offer (!w.held.isEmpty) (.event .heldRecordDelivery .none) ++
  places w.shootdowns.length (fun i => .event .shootdownComplete (.ix i)) ++ offer (!w.drains.isEmpty) (.event .drainApply .none) ++
  places w.edits.length (fun i => .event .editDeferredApply (.ix i)) ++
  places w.rotations.length (fun i => .event .editRotationComplete (.ix i)) ++
  (w.waves.map (·.seq) ++ w.sweep).map (fun q => .event .waveEnterLayer (.ix q.toNat)) ++
  (w.holds.filter (fun h => !h.granted)).map (fun h => .event .afterHoldGrant (.ix h.req))
/-- posted slots: a place in an inbox for them, or the management message of slot 0 -/
def slotTurns (x : Nat × Slot) : List Turn :=
  if x.2.state = 1 then
    (if x.1 = 0 then (match mgmtInstr (byteAt x.2.image 0) with | some i => [.event i .none] | none => [])
     else [.event .slotMessageAccept (.ix x.1)])
  else []
def shoringTurns (s : State) (r : Shoring) : List Turn :=
  match r.phase with
  | .stage => [.event .shoreStageComplete .none] ++ offer (past s r stageLimit) (.event .shoreStageTimeout .none)
  | .handover => offer (past s r handoverLimit) (.event .handoverTimeout .none)
  | .acceptance => [.event .shoreAcceptance .none] ++ offer (past s r (gapLimit r.kind)) (.event .shoreGapLimitExpiry .none)
  | .proving => [.event .shoreCommit .none] ++ offer (watchdogStatus s r).isSome (.event .watchdogHeartbeatMiss .none)
  | .fallback => [.event .shoreFallbackComplete .none]
  | .rehandle => [.event .shoreFallbackComplete .none]
def firmwareTurns (s : State) : List Turn :=
  (match s.fw.shoring with | some r => shoringTurns s r | none => []) ++
  offer (firmwareCores.any (lostCore s)) (.event .committedHeartbeatLoss .none) ++
  offer (s.host.state == .imgload && !s.host.firstBeats.isEmpty && decide (s.time ≥ s.host.imgLoadAt + startLimit))
    (.event .imageFirstHeartbeatTimeout .none)
def hostTurns (s : State) : List Turn :=
  s.slots.flatMap slotTurns ++ ((sput s.msix.owed 0).filter (vectorDue s)).map (fun v => .event .msixRateIntervalExpiry (.ix v))
def linkTurns (s : State) : List Turn :=
  (s.links.ports.filter (fun p => retrainDue s p.2)).map (fun p => .event .linkRetrainLimitExpiry (.ix p.1)) ++
  (s.links.routes.filter (fun r => !(peerState s r.1).lost && (portOf s r.2).state == .down)).map (fun r => .event .peerLost (.ix r.1))
/-- everything the machine has under way -/
def offeredTurns (s : State) : List Turn :=
  if isStarting s then [.start]
  else if !running s then []
  else s.cores.flatMap (coreTurns s) ++ s.clusters.flatMap clusterTurns ++ s.dies.flatMap (dieTurns s) ++ frameTurns s ++
    s.ctxs.flatMap (ctxTurns s) ++ workTurns s.work ++ firmwareTurns s ++ hostTurns s ++ linkTurns s

/-! ## Time and evictions (log 5, 6) -/

/-- a core's thread over an interval: its counts in thousandths of a core cycle (R8, R200, R463) -/
def countCore (s : State) (ns : Nat) (x : Nat × CoreSt) : Nat × CoreSt :=
  let n := ns * (die s (dieOf x.1)).mhz
  (x.1, { x.2 with thread := x.2.thread.map (fun t => { t with overran := t.overran + n, ran := t.ran + n }) })
/-- a running firing's cycles, charged to its context's budget (R189, R190) -/
def chargeCore (ns : Nat) (s : State) (x : Nat × CoreSt) : State :=
  match x.2.thread with
  | some t => if t.id.firmware then s else updCtx s t.id.ctx (spend .cycles s.time (s.time + ns) (die s (dieOf x.1)).mhz)
  | none => s
/-- time passes: what waits is noted first -/
def advanceTime (ns : Nat) (s : State) : State :=
  let s := refreshReady s
  let s := s.cores.foldl (chargeCore ns) s
  { s with cores := s.cores.map (countCore s ns), time := s.time + ns }
def oldestCore (s : State) (k : Nat) : State := setCore s k { core s k with tlb := (core s k).tlb.dropLast }
def oldestCluster (s : State) (cl : Nat) : State := setCluster s cl { cluster s cl with tlb := (cluster s cl).tlb.dropLast }

/-- an L1 gives up a sector, written back if dirty (R110) -/
def evictL1 (s : State) (k sec : Nat) : State := l1Drop (writeBack s k sec) k sec

/-! ## The next turn -/

/-- the operand byte that ends at bit `i`, unless it is an inline constant (R364) -/
def byteField (w : IWord) (i : Nat) : IWord := if w.getLsbD (i + 7) then 0 else 0xFF#96 <<< i
/-- an instruction whose X holds no operand byte: form K or E (R368, R371) -/
def hasNoC : Instr → Bool
  | .br _ _ | .call _ _ | .loop _ _ | .movi _ _ | .moviHigh _ _ | .trap _ _ | .sig _ _ | .mgang _ _ | .hbeat _ _ | .idle _ _
  | .send _ _ | .withdraw _ _ | .cpy _ _ | .cpy2d _ _ | .cprot _ _ | .cpfill _ _ | .bkadd _ _ | .bkaxpy _ _ | .bkgemv _ _ | .bkzero _ _
  | .kvapp _ _ | .kvseal _ _ | .kvpatch _ _ | .kvfork _ _ | .kvtrunc _ _ | .kvstat _ _ | .kvjopen _ _ | .kvjmark _ _ | .kvjundo _ _
  | .kvjclose _ _ | .edins _ _ | .eddel _ _ | .edrep _ _ | .settle _ _ | .raise _ _ | .rebind _ _ | .wmark _ _ => true
  | _ => false
/-- the streams of a form T word's scales (R370) -/
def scaleFields : Instr → IWord
  | .mmul _ o | .mgrp _ o => (if o.sap then 0xF#96 <<< 35 else 0) ||| (if o.sbp then 0xF#96 <<< 30 else 0)
  | _ => 0
/-- R210: the bits of a word that are register numbers: the guard's, D, A, B, C and those of form T's scale streams -/
def regFields (i : Instr) (w : IWord) : IWord :=
  (0xF#96 <<< 78) ||| byteField w 64 ||| byteField w 56 ||| byteField w 48 ||| (if hasNoC i then 0 else byteField w 40) ||| scaleFields i
/-- the access half's turn: a firing whose pushes are out goes on with its FIN (R382) -/
def accessReady (s : State) (k : Nat) : Ready :=
  match threadOf s k with
  | some t => if hasCommitted s t then .stay (resumeFin s k t) else accessTurn s k
  | none => .stay s
/-- R210: a half's next word, and the word whose register numbers the datapath uses for it: where they differ, and the guard does
not make the word take no fault (R363), a signature fault -/
def misreadTurn (s : State) (k : Nat) (exe : Bool) (used : IWord) : Ready :=
  match if exe then executeTurn s k else accessReady s k with
  | .run i s' => match curThread s' with
    | some t =>
      if guardedOff t i || (used ^^^ s'.cur.word) &&& regFields i s'.cur.word == 0 then .run i s'
      else .stay (takeTrap exe s' tSig (sigDetail (t.sig.expected.getD 0) (crcValue t.sig.crc)))
    | none => .run i s'
  | .stay s' => .stay s'
def eventCur (a : Arg) : Cur := { core := 0, pc := 0, word := 0, mask := 0, arg := a }
/-- What a turn comes to. -/
def turnReady (t : Turn) (s : State) : Ready :=
  match t with
  | .event i a => .run i { s with cur := eventCur a }
  | .access k => accessReady s k
  | .execute k => executeTurn s k
  | .advance ns => .stay (advanceTime ns s)
  | .evictL1 k sec => .stay (evictL1 s k sec)
  | .evictL2 sec => .stay (setMem s (l2Evict s.mem sec))
  | .dropTlb k => .stay (oldestCore s k)
  | .dropCluster cl => .stay (oldestCluster s cl)
  | .serve cl => .stay (serveMiss s cl)
  | .start => .stay (startStep s)
  | .misread k exe used => misreadTurn s k exe used
def setSched (s : State) (x : Sched) : State := { s with sched := x }
/-- What uncorrectable reads of the last step came to is counted (R68); then a dump that is due; else the agenda's head, or the next
of the offered turns. -/
def nextReady (s : State) : Ready :=
  let s := countBad s
  if s.fw.dumpPending then .stay (fatalError s s.fw.dumpCause.toNat s.fw.dumpDie s.fw.dumpEngine)
  else match s.sched.agenda with
  | t :: rest => turnReady t (setSched s { s.sched with agenda := rest })
  | [] =>
    let l := offeredTurns s
    match l[s.sched.rr % l.length]? with
    | some t => turnReady t (setSched s { s.sched with rr := s.sched.rr + 1 })
    | none => .stay s

/-! ## One word to run next (log 2) -/

/-- a capability over the address space, up to the largest limit of R290 -/
def allCode : CReg := ⟨mkCap 0 0x7F 0 (2 ^ 57 - 1) 0, true⟩
def bootIdent : Ident :=
  { ctx := 0, frame := 0, stage := 0, coord := 0, pos := 0, gang := false, firmware := true, batch := 0 }
def bootThread (s : State) : Thread := threadReset bootIdent allCode 0 s.time
def bootEntry : TlbEntry := { ctx := 0, va := 0, leaf := firmwareLeaf 0, leafPa := 0 }
/-- A firmware thread on core 0 at address 0, the word in memory there, no cached copy of its sector, no dump due; an execute word is
in the slice buffer, and the half that runs the word is next on the agenda. -/
def placeWord (s : State) (w : IWord) : State :=
  let acc := w.getLsbD 83
  let t := bootThread s
  let t := if acc then t else { t with pc := 12, slice := [.word 0 w] }
  let m := ripen s.mem 0
  let s := setMem s { m with cells := writeCells m.cells 0 (bytesOfWord w), l2 := mdel m.l2 0, poison := sdel m.poison 0, bad := [] }
  let s : State := { s with fw := { s.fw with dumpPending := false } }
  let c := core s 0
  let s := setCore s 0 { c with l1 := mdel c.l1 0, tlb := tlbPut tlbCap c.tlb bootEntry, missEnd := [], thread := some t }
  setSched s { s.sched with agenda := [if acc then .access 0 else .execute 0] }

end Sys2Proof.Machine
end

