-- ==== Sys2Proof/Machine/Step.lean ====
section
/-! DEFINITION. One step of the machine, and how one word is put where the next step fetches it. -/
namespace Sys2Proof.Machine

/-- One step: the turn that is next, run by `exec` when it is an instruction or an event. -/
def step (s : State) : Host.Outcome State Fault Refusal :=
  match nextReady s with
  | .run i s => exec i s
  | .stay s => .next s

/-- `s` with the word of `nbits` bits of `w` as the next one to run (log 2): a firmware thread on core 0 whose
code capability reaches everything, at address 0 of device page 0, with the word there; an execute word stands in the
slice buffer already, and the half that runs it is next. -/
def State.withFetchWord (s : State) (nbits w : Nat) : State :=
  placeWord s (BitVec.ofNat 96 (w % 2 ^ nbits))

end Sys2Proof.Machine
end

