-- ==== Sys2Proof/Safety.lean ====
section
/-! DEFINITION. The terms claims are stated in: completion, what a step keeps, and a run that stays safe. -/
namespace Sys2Proof.Safety
open Sys2Proof.Machine

/-- The instruction completes: it answers a next state. -/
def Completes (i : Instr) (s : State) : Prop := ∃ t, exec i s = .next t
/-- Every step from a state that has P ends in a state that has P. -/
def StepKeeps (P : State → Prop) : Prop := ∀ s s', P s → step s = .next s' → P s'
/-- A run is safe when none of its steps stops and memory keeps its canonical form throughout. -/
def SafeRun (n : Nat) (s : State) : Prop := ∃ t, Sys2Proof.core.run n s = .next t ∧ memWf t.mem = true

end Sys2Proof.Safety
end

