-- ==== Sys2Proof/Certificates/Slice0/Obligations.lean ====
section
/-! DEFINITION. The statements about the model, and the vocabulary they are written in. -/
namespace Sys2Proof.Claims
open Sys2Proof.Machine

/-! ## The vocabulary -/

/-- Thread `t` stands at an instruction with header `h` on the current core, and the guard holds (R363). -/
def Runs (h : Hdr) (s : State) (t : Thread) : Prop := curThread s = some t ∧ guardTrue h t = true
/-- `s` once the word is done: the current core's thread is `t`, retired to the successor; nothing else is touched. -/
def doneWith (h : Hdr) (s : State) (t : Thread) : State := setCur s (retireTo h (succPc h s.cur.pc) (setCur s t) t)
/-- The same with a transfer to `pc`. -/
def jumpWith (h : Hdr) (s : State) (t : Thread) (pc : W64) : State := setCur s (retireTo h pc (setCur s t) t)
/-- Nothing of the machine changed but the current core's thread. -/
def onlyThread (s s' : State) : Prop :=
  (∀ k, k ≠ s.cur.core → Machine.core s' k = Machine.core s k) ∧
  (∃ x, Machine.core s' s.cur.core = { Machine.core s s.cur.core with thread := x }) ∧
  { s' with cores := s.cores } = s
/-- A W-bit value as two's complement. -/
def signed (w a : Nat) : Int := (BitVec.ofNat w a).toInt
/-- write(D, v) of R388: v modulo 2^W, extended to 64 bits as SX says. -/
def extended (ty : BitVec 3) (v : Int) : W64 :=
  if ty.getLsbD 2 then (BitVec.ofInt (typeWidth ty) v).signExtend 64 else (BitVec.ofInt (typeWidth ty) v).setWidth 64
/-- An operand's W low bits. -/
def low (ty : BitVec 3) (a : W64) : Nat := a.toNat % 2 ^ typeWidth ty

/-- The turn that is next: the agenda's head, or the one the machine offers (log 1), with the state it runs at; what uncorrectable
reads of the last step came to is counted before (R68), and there is none while a device-fatal error is due, whose dump comes first
(R59). -/
def nextTurn (s : State) : Option (Turn × State) :=
  let s := countBad s
  if s.fw.dumpPending then none else
  match s.sched.agenda with
  | t :: rest => some (t, setSched s { s.sched with agenda := rest })
  | [] => match (offeredTurns s)[s.sched.rr % (offeredTurns s).length]? with
    | some t => some (t, setSched s { s.sched with rr := s.sched.rr + 1 })
    | none => none
/-- The step under way when core `k` runs the word `w` at `pc`, before the mask word `m`. -/
def atWord (k : Nat) (pc : W64) (w m : IWord) : Cur := { core := k, pc := pc, word := w, mask := m, arg := .none }
end Sys2Proof.Claims

open Sys2Proof Sys2Proof.Machine Sys2Proof.Claims

/-! ## A step -/

/-- R361, R372: an access word at the PC, fetched under the code capability, legal and free of hazards, is what the step
runs; with P = 1 the mask word behind it is fetched as well. A word that the thread's kind of agent may not run waits for nothing
(R375). A firing whose FIN has delivered its pushes fetches no more (R382). -/
def Sys2Proof.Claims.StepRunsAccessWord : Prop :=
  ∀ s k s0 t bs s1 i, nextTurn s = some (.access k, s0) → threadOf s0 k = some t → t.fw.stopped = false → t.safe = none →
    hasCommitted s0 t = false → checkCap t.code [0] permX t.pc 12 = .ok () → fetchWord s0 k t t.pc = .got bs s1 →
    (wordOfBytes bs).getLsbD 83 = true → decode (wordOfBytes bs) = .ok i →
    ((wordOfBytes bs).getLsbD 82 = false → (agentMay t i && mustWait s1 k t i) = false → step s = exec i { s1 with cur := atWord k t.pc (wordOfBytes bs) 0 }) ∧
    (∀ ms s2, (wordOfBytes bs).getLsbD 82 = true → checkCap t.code [0] permX (t.pc + 12) 12 = .ok () →
      fetchWord s1 k t (t.pc + 12) = .got ms s2 → (agentMay t i && mustWait s2 k t i) = false →
      step s = exec i { s2 with cur := atWord k t.pc (wordOfBytes bs) (wordOfBytes ms) })

/-- R285: an execute word met by the access half goes to the slice buffer while it holds fewer than 256 words; the access
half moves on to the successor and the word is counted by the signature checker. -/
def Sys2Proof.Claims.StepBuffersExecuteWord : Prop :=
  ∀ s k s0 t bs s1, nextTurn s = some (.access k, s0) → threadOf s0 k = some t → t.fw.stopped = false → t.safe = none →
    hasCommitted s0 t = false → checkCap t.code [0] permX t.pc 12 = .ok () → fetchWord s0 k t t.pc = .got bs s1 →
    (wordOfBytes bs).getLsbD 83 = false → (wordOfBytes bs).getLsbD 82 = false → sliceWords t.slice < 256 →
    step s = .next (setThreadOf s1 k (sigStep { t with pc := t.pc + 12, slice := t.slice ++ [.word t.pc (wordOfBytes bs)] }
      (wordOfBytes bs)))

/-- R285, R288: the execute half runs the word at the head of the slice buffer. -/
def Sys2Proof.Claims.StepRunsExecuteWord : Prop :=
  ∀ s k s0 t pc w r i, nextTurn s = some (.execute k, s0) → threadOf s0 k = some t → t.fw.stopped = false →
    t.slice = .word pc w :: r → decode w = .ok i → step s = exec i { s0 with cur := atWord k pc w 0 }

/-- A turn that is an event runs it, with its argument (the model's own schedule, log 1). -/
def Sys2Proof.Claims.StepRunsEvent : Prop :=
  ∀ s i a s0, nextTurn s = some (.event i a, s0) → step s = exec i { s0 with cur := eventCur a }
/-- R361, R372, R285, R288: a step runs the instruction the word at the PC decodes to, at the state after its fetch: an access
word where the access half stands, the execute word at the head of the slice buffer, and an event with its argument; an execute word
that the access half meets is buffered. -/
def Obligations.StepRunsTheWord : Prop := Claims.StepRunsAccessWord ∧ Claims.StepBuffersExecuteWord ∧ Claims.StepRunsExecuteWord ∧ Claims.StepRunsEvent
/-! ## Encoding -/

/-- R359, R360, R364, R379, R384, R395, R399: words of the spec, and what they decode to. -/
def Obligations.SpecWordsDecode : Prop :=
  decode 0x0608000B000000FFFFFFFFF9 = .ok (.loop ⟨true, false, 0, false, 0, 0⟩ ⟨11, 0xFFFFFFFFF9⟩) ∧
  decode 0x0308003E000000000000000A = .ok (.call ⟨true, false, 0, false, 0, 0⟩ ⟨62, 10⟩) ∧
  decode 0x072800000000000000000000 = .ok (.finAbort ⟨true, false, 0, false, 0, 0⟩) ∧
  decode 0x09080000000000000000002A = .ok (.trap ⟨true, false, 0, false, 0, 0⟩ ⟨42⟩) ∧
  decode 0x2608000809C0000000000010 = .ok (.cmp ⟨true, false, 0, false, 0, 0⟩ ⟨8, .c 9, .imm 64, 0, 1⟩) ∧
  decode 0x1A08001003C1000000000000 = .ok (.shl ⟨true, false, 0, false, 0, 0⟩ ⟨.c 16, .c 3, .imm 65, .c 0, 0⟩) ∧
  decode 0x110000170017000000000000 = .ok (.sub ⟨false, false, 0, false, 0, 0⟩ ⟨.c 23, .c 0, .c 23, .c 0, 0⟩) ∧
  decode 0x251800050000408040804080 = .ok (.moviHigh ⟨true, false, 0, false, 0, 0⟩ ⟨.c 5, 0x408040804080⟩) ∧
  decode 0x320800070110000000000000 = .ok (.cadd ⟨true, false, 0, false, 0, 0⟩ ⟨7, 1, .c 16⟩)

/-- Every legal instruction of the 210 kinds decodes back from its word, whatever its header and operands. -/
def Obligations.DecodeOfEncode : Prop := ∀ i h, Instr.hdr i = some h → i.wf = true → decode (encode i) = .ok i
/-- No bit of a legal word is ignored: the instruction it decodes to has that word alone. -/
def Obligations.EncodeOfDecode : Prop := ∀ w i, decode w = .ok i → encode i = w

/-! ## Reset and invariants -/

/-- Memory in its canonical form: ascending addresses without repeats, no entry equal to what an unlisted address reads as,
ascending tags and poison marks; and no sector cached twice at its home. -/
def Sys2Proof.Claims.memInv (m : Mem) : Prop := memWf m = true ∧ setFrom none (m.l2.map (·.1)) = true
/-- R18, R35, R8: at power-on HSTAT.STATE is OFF, no core runs a thread, every core is in placement, a die's clock is 1,500
MHz, no sector is cached, and the memory is in its canonical form. -/
def Obligations.ResetState : Prop :=
  State.reset.host.state = .off ∧ (∀ k, threadOf State.reset k = none) ∧ (∀ k, (Machine.core State.reset k).inPlacement = true) ∧
  (∀ d, (die State.reset d).mhz = 1500) ∧ State.reset.mem.l2 = [] ∧ (∀ k, (Machine.core State.reset k).l1 = []) ∧
  memInv State.reset.mem
/-- Every step keeps the memory in its canonical form. -/
def Obligations.StepKeepsMemory : Prop := Sys2Proof.Safety.StepKeeps (fun s => memInv s.mem)

/-! ## What every instruction shares -/

/-- A word that is done changes only its own thread: no byte, no cache, no other core, no special state of the machine; its
registers are those of the thread it is done with, an access word leaves the slice buffer as it is, and the PC is the
successor's. -/
def Obligations.DoneWordFrame : Prop :=
  ∀ h s t, onlyThread s (doneWith h s t) ∧ (doneWith h s t).mem = s.mem ∧
    (∀ a, homeByte (doneWith h s t).mem a = homeByte s.mem a) ∧
    ∃ u, curThread (doneWith h s t) = some u ∧ u.regs.c = t.regs.c ∧ u.regs.p = t.regs.p ∧ u.regs.f = t.regs.f ∧
      u.regs.m = t.regs.m ∧ u.regs.l = t.regs.l ∧ u.regs.d = t.regs.d ∧ u.regs.xq = t.regs.xq ∧ u.regs.aq = t.regs.aq ∧
      u.regs.fpmode = t.regs.fpmode ∧ u.regs.evc = t.regs.evc ∧ u.fw = t.fw ∧ u.opn = t.opn ∧ u.id = t.id ∧
      (h.s = true → u.pc = succPc h s.cur.pc ∧ u.slice = t.slice ∧ u.regs.s = t.regs.s) ∧ (h.s = false → u.pc = t.pc)

/-- R363: an instruction whose guard is false only retires: it reads, writes, pushes, pops, sends and stores nothing. -/
def Obligations.FalseGuardRetires : Prop :=
  ∀ i h s t, Instr.hdr i = some h → i.wf = true → curThread s = some t → agentMay t i = true → guardTrue h t = false →
    exec i s = .next (doneWith h s t)

/-- R366, R387, R388, R289, R286, R287, R166: what a source reads, and how the queues change; the inputs and outputs of positions
1 to 3 of a gang are no operands (R187). -/
def Sys2Proof.Claims.SourceReads : Prop :=
  (∀ t n, readW t (.c n) = .ok (if n = 0 then 0 else (t.regs.c[n.toNat]'n.isLt).bits.setWidth 64, t)) ∧
  (∀ t v, readW t (.imm v) = .ok (BitVec.ofInt 64 ((v.toNat : Int) - 64), t)) ∧
  (∀ t n v r, t.regs.l[n.toNat]'n.isLt = v :: r → readW t (.l n) = .ok (v.setWidth 64, setL t n r)) ∧
  (∀ t n v r, t.regs.d[n.toNat]'n.isLt = v :: r → readW t (.d n) = .ok (v.setWidth 64, setD t n r)) ∧
  (∀ t v r, t.regs.xq = v :: r → readW t .xq = .ok (v, setXq t r)) ∧
  (∀ t v r, t.regs.aq = v :: r → readW t .aq = .ok (v, setAq t r)) ∧
  (∀ t n v, getF t n = .full v → readW t (.f n) = .ok (v.setWidth 64, setF t n .empty)) ∧
  (∀ t n q, q = getInQ t n → (t.id.gang = false ∨ t.id.pos = 0) →
    (q.used = true → q.pos + 8 ≤ q.bytes.length →
      readW t (.i n) = .ok (BitVec.ofNat 64 (leNat ((q.bytes.drop q.pos).take 8)), setInQ t n { q with pos := q.pos + 8 })) ∧
    (¬(q.used = true ∧ q.pos + 8 ≤ q.bytes.length) → readW t (.i n) = .error (capFault .bounds 0))) ∧
  (∀ t n, t.regs.l[n.toNat]'n.isLt = [] → readW t (.l n) = .error .wait) ∧
  (∀ t n, t.regs.d[n.toNat]'n.isLt = [] → readW t (.d n) = .error .wait) ∧
  (∀ t, t.regs.xq = [] → readW t .xq = .error .wait) ∧ (∀ t, t.regs.aq = [] → readW t .aq = .error .wait)

/-- R289, R291, R367, R287: a result in a c register is untagged with zero above it; writes to c0 and p0 are discarded; a
queue takes the result behind its entries, and a full one makes the instruction wait. -/
def Sys2Proof.Claims.ResultWrites : Prop :=
  (∀ t (v : W64), writeOpd t (.c 0) v = .ok t) ∧
  (∀ t n (v : W64), n ≠ 0 → ∃ u, writeOpd t (.c n) v = .ok u ∧ getC u n = ⟨v.setWidth 192, false⟩ ∧
    (∀ m, m ≠ n → getC u m = getC t m) ∧ { u with regs := { u.regs with c := t.regs.c } } = t) ∧
  (∀ t b, setP t 0 b = t) ∧ (∀ t, getP t 0 = true) ∧
  (∀ t n b, n ≠ 0 → getP (setP t n b) n = b ∧ ∀ m, m ≠ n → getP (setP t n b) m = getP t m) ∧
  (∀ t n (v : W64), (getL t n).length < 32 → writeOpd t (.l n) v = .ok (setL t n (getL t n ++ [v.setWidth 128]))) ∧
  (∀ t n (v : W64), (getD t n).length < 32 → writeOpd t (.d n) v = .ok (setD t n (getD t n ++ [v.setWidth 128]))) ∧
  (∀ t (v : W64), t.regs.xq.length < 16 → writeOpd t .xq v = .ok (setXq t (t.regs.xq ++ [v]))) ∧
  (∀ t (v : W64), t.regs.aq.length < 16 → writeOpd t .aq v = .ok (setAq t (t.regs.aq ++ [v]))) ∧
  (∀ t n (v : W64) q, q = getOutQ t n → (t.id.gang = false ∨ t.id.pos = 0) →
    (q.used = true → q.bytes.length + 8 ≤ q.limit → writeOpd t (.o n) v = .ok (appendPush t n v)) ∧
    (¬(q.used = true ∧ q.bytes.length + 8 ≤ q.limit) → writeOpd t (.o n) v = .error (capFault .bounds 0))) ∧
  (∀ t n (v : W64), 32 ≤ (getL t n).length → writeOpd t (.l n) v = .error .wait) ∧
  (∀ t n (v : W64), 32 ≤ (getD t n).length → writeOpd t (.d n) v = .error .wait) ∧
  (∀ t (v : W64), 16 ≤ t.regs.xq.length → writeOpd t .xq v = .error .wait) ∧
  (∀ t (v : W64), 16 ≤ t.regs.aq.length → writeOpd t .aq v = .error .wait) ∧
  (∀ t n (v : W64) u, u = getOutQ (appendPush t n v) n → u.bytes = (getOutQ t n).bytes ++ toBytes 8 v.toNat ∧
    u.ords = (getOutQ t n).ords ++ [t.opn.pushes] ∧ (appendPush t n v).regs = t.regs ∧ ∀ m, m ≠ n → getOutQ (appendPush t n v) m = getOutQ t m)
/-- R366, R387, R388, R289, R291, R367, R286, R287: what every form of source reads, and where every form of destination puts a
result, the registers that discard it included. -/
def Obligations.OperandsAndResults : Prop := Claims.SourceReads ∧ Claims.ResultWrites
/-! ## Integer, bits, moves, predicates, random numbers -/

/-- The operations of R389 and R390 on the W-bit readings of A and B. -/
def Sys2Proof.Claims.intOps : List ((Hdr → IntOps → Instr) × (Nat → Nat → Nat → Int)) :=
  [(.add, fun _ a b => a + b), (.sub, fun _ a b => (a : Int) - b), (.mul, fun _ a b => a * b),
   (.mulh, fun w a b => (signed w a * signed w b) / 2 ^ w), (.mulhn, fun w a b => ((a * b / 2 ^ w : Nat) : Int)),
   (.div, fun w a b => if b = 0 then 2 ^ w - 1 else (signed w a).tdiv (signed w b)),
   (.divn, fun w a b => if b = 0 then 2 ^ w - 1 else ((a / b : Nat) : Int)),
   (.rem, fun w a b => if b = 0 then a else (signed w a).tmod (signed w b)),
   (.remn, fun _ a b => if b = 0 then a else ((a % b : Nat) : Int)),
   (.and, fun _ a b => ((a &&& b : Nat) : Int)), (.or, fun _ a b => ((a ||| b : Nat) : Int)),
   (.xor, fun _ a b => ((a ^^^ b : Nat) : Int)),
   (.andn, fun w a b => ((BitVec.ofNat w a &&& ~~~BitVec.ofNat w b).toNat : Int)),
   (.shl, fun w a b => ((a * 2 ^ (b % w) : Nat) : Int)), (.shr, fun w a b => ((a / 2 ^ (b % w) : Nat) : Int)),
   (.sra, fun w a b => signed w a / 2 ^ (b % w)), (.rotr, fun w a b => (((BitVec.ofNat w a).rotateRight (b % w)).toNat : Int)),
   (.min, fun w a b => if signed w a ≤ signed w b then signed w a else signed w b),
   (.max, fun w a b => if signed w a ≤ signed w b then signed w b else signed w a),
   (.minn, fun _ a b => if a ≤ b then a else b), (.maxn, fun _ a b => if a ≤ b then b else a)]
/-- R388-R390: with readable sources and a destination that takes the result, a two-source integer instruction completes
with D := write(A op B), and changes nothing else than its sources' queues. -/
def Obligations.IntegerBinary : Prop :=
  ∀ p ∈ intOps, ∀ h o s t a t1 b t2 u, Runs h s t → readW t o.a = .ok (a, t1) → readW t1 o.b = .ok (b, t2) →
    writeOpd t2 o.d (extended o.ty (p.2 (typeWidth o.ty) (low o.ty a) (low o.ty b))) = .ok u →
    exec (p.1 h o) s = .next (doneWith h s u)

/-- The one-source operations of R389. -/
def Sys2Proof.Claims.intOps1 : List ((Hdr → IntOps → Instr) × (Nat → Nat → Int)) :=
  [(.abs, fun w a => (signed w a).natAbs), (.neg, fun w a => -signed w a),
   (.clz, fun w a => ((((List.range w).find? (fun i => a.testBit (w - 1 - i))).getD w : Nat) : Int)),
   (.ctz, fun w a => ((((List.range w).find? (fun i => a.testBit i)).getD w : Nat) : Int)),
   (.popc, fun w a => (((List.range w).countP (fun i => a.testBit i) : Nat) : Int)),
   (.brev, fun w a => ((BitVec.ofNat w a).reverse.toNat : Int)),
   (.bswp, fun w a => ((leNat (toBytes (w / 8) a).reverse : Nat) : Int))]
/-- R388, R389: the one-source integer instructions. -/
def Obligations.IntegerUnary : Prop :=
  ∀ p ∈ intOps1, ∀ h o s t a t1 u, Runs h s t → readW t o.a = .ok (a, t1) →
    writeOpd t1 o.d (extended o.ty (p.2 (typeWidth o.ty) (low o.ty a))) = .ok u → exec (p.1 h o) s = .next (doneWith h s u)

/-- Whether [pos + len - 1 : pos] is a field of a 64-bit word (R392). -/
def Sys2Proof.Claims.isField (pos len : Nat) : Prop := len ≠ 0 ∧ len ≤ 64 ∧ pos + len ≤ 64
/-- R392: EXTR, EXTRN and INS, inside the word and outside it. -/
def Obligations.BitFields : Prop :=
  ∀ h o s t a t1 b t2 c t3, Runs h s t → readW t o.a = .ok (a, t1) → readW t1 o.b = .ok (b, t2) → readW t2 o.c = .ok (c, t3) →
    (∀ u, isField (b.toNat % 64) (c.toNat % 128) →
      writeOpd t3 o.d ((a.extractLsb' (b.toNat % 64) (c.toNat % 128)).signExtend 64) = .ok u → exec (.extr h o) s = .next (doneWith h s u)) ∧
    (∀ u, isField (b.toNat % 64) (c.toNat % 128) →
      writeOpd t3 o.d ((a.extractLsb' (b.toNat % 64) (c.toNat % 128)).setWidth 64) = .ok u → exec (.extrn h o) s = .next (doneWith h s u)) ∧
    (∀ u, ¬isField (b.toNat % 64) (c.toNat % 128) → writeOpd t3 o.d (0 : W64) = .ok u →
      exec (.extr h o) s = .next (doneWith h s u) ∧ exec (.extrn h o) s = .next (doneWith h s u)) ∧
    (∀ n (v : W64), o.d = .c n → isField (b.toNat % 64) (c.toNat % 128) →
      (∀ i, i < 64 → v.getLsbD i = if b.toNat % 64 ≤ i ∧ i < b.toNat % 64 + c.toNat % 128 then a.getLsbD (i - b.toNat % 64)
        else (getW t3 n).getLsbD i) → exec (.ins h o) s = .next (doneWith h s (setData t3 n v))) ∧
    (∀ n, o.d = .c n → ¬isField (b.toNat % 64) (c.toNat % 128) → exec (.ins h o) s = .next (doneWith h s (setData t3 n (getW t3 n))))

/-- R393-R395: MOV of a whole c register with its tag, of a queue entry and of an inline constant, to a c register and to a queue;
MOVI in both minors; SEL, which reads both sources. -/
def Obligations.Moves : Prop :=
  (∀ h s t m n, Runs h s t → exec (.mov h ⟨.c m, .c n⟩) s = .next (doneWith h s (setC t m (getC t n)))) ∧
  (∀ h s t m v, Runs h s t → exec (.mov h ⟨.c m, .imm v⟩) s = .next (doneWith h s (setData t m (BitVec.ofInt 64 ((v.toNat : Int) - 64))))) ∧
  (∀ h s t m a v u, Runs h s t → (∀ n, a ≠ .c n) → (∀ x, a ≠ .imm x) → readOpd t a = .ok (v, u) →
    exec (.mov h ⟨.c m, a⟩) s = .next (doneWith h s (setData u m v))) ∧
  (∀ h s t d n u, Runs h s t → (∀ m, d ≠ .c m) → pushQueue t d ((getC t n).bits.setWidth 128) = .ok u →
    exec (.mov h ⟨d, .c n⟩) s = .next (doneWith h s u)) ∧
  (∀ h s t d a v t1 u, Runs h s t → (∀ m, d ≠ .c m) → (∀ n, a ≠ .c n) → (∀ x, a ≠ .imm x) → readOpd t a = .ok (v, t1) →
    pushQueue t1 d v = .ok u → exec (.mov h ⟨d, a⟩) s = .next (doneWith h s u)) ∧
  (∀ h s t d x u, Runs h s t → (∀ m, d ≠ .c m) → pushQueue t d ((BitVec.ofInt 64 ((x.toNat : Int) - 64)).setWidth 128) = .ok u →
    exec (.mov h ⟨d, .imm x⟩) s = .next (doneWith h s u)) ∧
  (∀ h o s t u, Runs h s t → writeOpd t o.d (o.imm.signExtend 64) = .ok u → exec (.movi h o) s = .next (doneWith h s u)) ∧
  (∀ h o s t u, Runs h s t → writeOpd t o.d (o.imm ++ 0#16) = .ok u → exec (.moviHigh h o) s = .next (doneWith h s u)) ∧
  (∀ h o s t b t1 c t2, Runs h s t → movValue t o.b = .ok (b, t1) → movValue t1 o.c = .ok (c, t2) →
    exec (.sel h o) s = .next (doneWith h s (setC t2 o.d (if getP t o.p then b else c))))

/-- The conditions of R391. -/
def Sys2Proof.Claims.conds : List (Nat → Nat → Nat → Bool) :=
  [fun _ a b => decide (a = b), fun _ a b => decide (a ≠ b), fun w a b => decide (signed w a < signed w b),
   fun w a b => decide (signed w a ≤ signed w b), fun w a b => decide (signed w b < signed w a),
   fun w a b => decide (signed w b ≤ signed w a), fun _ a b => decide (a < b), fun _ a b => decide (a ≤ b),
   fun _ a b => decide (b < a), fun _ a b => decide (b ≤ a), fun _ a b => decide (a &&& b ≠ 0), fun _ a b => decide (a &&& b = 0)]
/-- R391, R396, R367: CMP and the predicate instructions write the one predicate they name, and p0 discards. -/
def Obligations.Predicates : Prop :=
  (∀ h o s t a t1 b t2 f, Runs h s t → readW t o.a = .ok (a, t1) → readW t1 o.b = .ok (b, t2) →
    conds[o.cond.toNat]? = some f →
    exec (.cmp h o) s = .next (doneWith h s (setP t2 o.d (f (typeWidth o.ty) (low o.ty a) (low o.ty b))))) ∧
  (∀ h o s t, Runs h s t →
    exec (.pand h o) s = .next (doneWith h s (setP t o.d (getP t o.a && getP t o.b))) ∧
    exec (.por h o) s = .next (doneWith h s (setP t o.d (getP t o.a || getP t o.b))) ∧
    exec (.pxor h o) s = .next (doneWith h s (setP t o.d (xor (getP t o.a) (getP t o.b)))) ∧
    exec (.pnot h o) s = .next (doneWith h s (setP t o.d (!getP t o.a))))

/-- The examples of R390: the instruction, its type, A, B, and what D receives. -/
def Sys2Proof.Claims.divExamples : List ((Hdr → IntOps → Instr) × List (BitVec 3) × W64 × W64 × W64) :=
  [(.div, [0, 4], -7, 2, -3), (.rem, [0, 4], -7, 2, -1), (.divn, [3], 0xF9, 2, 0x7C), (.div, [7], 0x80, 0xFF, 0xFFFFFFFFFFFFFF80),
   (.remn, [0, 4], 9, 0, 9)]
/-- R390: no division faults; by zero DIV and DIVN give 2^W - 1 and REM and REMN give a; DIV of -2^(W-1) by -1 gives -2^(W-1)
and REM 0; and the rule's examples. -/
def Obligations.Division : Prop :=
  (∀ h o s t a t1 b t2, Runs h s t → readW t o.a = .ok (a, t1) → readW t1 o.b = .ok (b, t2) →
    ∀ c ∈ [Instr.div, Instr.divn, Instr.rem, Instr.remn], ∃ v : W64, ∀ u, writeOpd t2 o.d v = .ok u → exec (c h o) s = .next (doneWith h s u)) ∧
  (∀ h o s t a t1 b t2 u, Runs h s t → readW t o.a = .ok (a, t1) → readW t1 o.b = .ok (b, t2) →
    let W := typeWidth o.ty
    (low o.ty b = 0 →
      (writeOpd t2 o.d (extended o.ty (2 ^ W - 1)) = .ok u →
        exec (.div h o) s = .next (doneWith h s u) ∧ exec (.divn h o) s = .next (doneWith h s u)) ∧
      (writeOpd t2 o.d (extended o.ty (low o.ty a)) = .ok u →
        exec (.rem h o) s = .next (doneWith h s u) ∧ exec (.remn h o) s = .next (doneWith h s u))) ∧
    (signed W (low o.ty a) = -(2 ^ (W - 1)) → signed W (low o.ty b) = -1 →
      (writeOpd t2 o.d (extended o.ty (-(2 ^ (W - 1)))) = .ok u → exec (.div h o) s = .next (doneWith h s u)) ∧
      (writeOpd t2 o.d (extended o.ty 0) = .ok u → exec (.rem h o) s = .next (doneWith h s u)))) ∧
  (∀ p ∈ divExamples, ∀ h o s t t1 t2 u, Runs h s t → o.ty ∈ p.2.1 → readW t o.a = .ok (p.2.2.1, t1) →
    readW t1 o.b = .ok (p.2.2.2.1, t2) → writeOpd t2 o.d p.2.2.2.2 = .ok u → exec (p.1 h o) s = .next (doneWith h s u))

/-- One round of R397 on the counter and the key, and the key of the next round. -/
def Sys2Proof.Claims.philoxStep (x : BitVec 32 × BitVec 32 × BitVec 32 × BitVec 32) (k : BitVec 32 × BitVec 32) :
    BitVec 32 × BitVec 32 × BitVec 32 × BitVec 32 :=
  let p : BitVec 64 := 0xD2511F53 * x.1.setWidth 64
  let q : BitVec 64 := 0xCD9E8D57 * x.2.2.1.setWidth 64
  (q.extractLsb' 32 32 ^^^ x.2.1 ^^^ k.1, q.extractLsb' 0 32, p.extractLsb' 32 32 ^^^ x.2.2.2 ^^^ k.2, p.extractLsb' 0 32)
/-- R397: Philox4x32-10. -/
def Sys2Proof.Claims.philox10 (a : W128) (b : W64) : W128 :=
  let x := (List.range 10).foldl (fun x (i : Nat) => philoxStep x (b.extractLsb' 0 32 + BitVec.ofNat 32 i * 0x9E3779B9,
      b.extractLsb' 32 32 + BitVec.ofNat 32 i * 0xBB67AE85))
    (a.extractLsb' 0 32, a.extractLsb' 32 32, a.extractLsb' 64 32, a.extractLsb' 96 32)
  x.2.2.2 ++ x.2.2.1 ++ x.2.1 ++ x.1
/-- R397: RNGX writes Philox4x32-10 of its 128-bit counter and 64-bit key; the spec's value for zero is met. -/
def Obligations.RandomNumber : Prop :=
  philox10 0 0 = 0x9B00DBD8BC57AC4CE169C58D6627E8D5 ∧
  ∀ h o s t a t1 b t2 u, Runs h s t → readOpd t o.a = .ok (a, t1) → readW t1 o.b = .ok (b, t2) →
    writeOpd t2 o.d (philox10 a b) = .ok u → exec (.rngx h o) s = .next (doneWith h s u)

/-! ## Capabilities -/

/-- The fields of a capability image (R290), in one piece. -/
def Sys2Proof.Claims.capFields (b : W192) : W64 × Nat × Nat × BitVec 7 × BitVec 3 × Nat :=
  (capCursor b, capBase b, capLimit b, capPerms b, capSeal b, capKind b)
/-- R290, R399: a change of one field of a capability leaves every other field. -/
def Sys2Proof.Claims.CapabilityFieldUpdates : Prop :=
  ∀ b : W192, (∀ c, capFields (withCursor b c) = (c, capBase b, capLimit b, capPerms b, capSeal b, capKind b)) ∧
    (∀ x y, capFields (withBounds b x y) = (capCursor b, x.toNat, y.toNat, capPerms b, capSeal b, capKind b)) ∧
    (∀ p, capFields (withPerms b p) = (capCursor b, capBase b, capLimit b, p, capSeal b, capKind b)) ∧
    (∀ k, capFields (withSeal b k) = (capCursor b, capBase b, capLimit b, capPerms b, k, capKind b))
/-- A sealing authority (R399): tagged, unsealed, with S, its cursor within its bounds. -/
def Sys2Proof.Claims.sealer (r : CReg) : Prop :=
  r.tag = true ∧ capSeal r.bits = 0 ∧ hasPerm r.bits permS = true ∧ capBase r.bits ≤ (capCursor r.bits).toNat ∧
    (capCursor r.bits).toNat < capLimit r.bits
/-- R398, R399: the derivations give D the changed fields with A's tag, and no instruction sets a tag; an untagged A is not
checked. -/
def Sys2Proof.Claims.CapabilityDerives : Prop :=
  (∀ h o s t v t1, Runs h s t → readW t o.b = .ok (v, t1) →
    let a := getC t o.a
    ((a.tag = true → capSeal a.bits = 0 ∧ capBase a.bits ≤ (capCursor a.bits).toNat ∧
        (capCursor a.bits).toNat + v.toNat ≤ capLimit a.bits) →
      exec (.csetb h o) s = .next (doneWith h s (setC t1 o.d ⟨withBounds a.bits ((capCursor a.bits).setWidth 57)
        (BitVec.ofNat 57 ((capCursor a.bits).toNat + v.toNat)), a.tag⟩))) ∧
    ((a.tag = true → capSeal a.bits = 0) →
      exec (.csetp h o) s = .next (doneWith h s (setC t1 o.d ⟨withPerms a.bits (capPerms a.bits &&& v.setWidth 7), a.tag⟩)) ∧
      exec (.cadd h o) s = .next (doneWith h s (setC t1 o.d ⟨withCursor a.bits (capCursor a.bits + v), a.tag⟩)))) ∧
  (∀ h o s t, Runs h s t → exec (.cclr h o) s = .next (doneWith h s (setC t o.d ⟨(getC t o.a).bits, false⟩))) ∧
  (∀ h o s t n, Runs h s t → o.b = .c n →
    let a := getC t o.a
    let b := getC t n
    ((a.tag = true → capSeal a.bits = 0 ∧ sealer b ∧ 1 ≤ (capCursor b.bits).toNat ∧ (capCursor b.bits).toNat ≤ 7) →
      exec (.cseal h o) s = .next (doneWith h s (setC t o.d ⟨withSeal a.bits ((capCursor b.bits).setWidth 3), a.tag⟩))) ∧
    ((a.tag = true → capSeal a.bits ≠ 0 ∧ sealer b ∧ (capCursor b.bits).toNat = (capSeal a.bits).toNat) →
      exec (.cunseal h o) s = .next (doneWith h s (setC t o.d ⟨withSeal a.bits 0, a.tag⟩))))
/-- B does not serve as a sealing authority (R399), with the cause of the first check that fails. -/
def Sys2Proof.Claims.sealFault (b : CReg) (c : Cause) : Prop :=
  (b.tag = false ∧ c = .tag) ∨ (b.tag = true ∧ capSeal b.bits ≠ 0 ∧ c = .seal) ∨
  (b.tag = true ∧ capSeal b.bits = 0 ∧ hasPerm b.bits permS = false ∧ c = .permission) ∨
  (b.tag = true ∧ capSeal b.bits = 0 ∧ hasPerm b.bits permS = true ∧
    ¬(capBase b.bits ≤ (capCursor b.bits).toNat ∧ (capCursor b.bits).toNat < capLimit b.bits) ∧ c = .bounds)
/-- R398, R399, R204: a derivation of a tagged capability that fails a check is a capability fault with the cause of the first
check that fails, and writes nothing. -/
def Sys2Proof.Claims.CapabilityDerivationFaults : Prop :=
  ∀ h o s t v t1, Runs h s t → readW t o.b = .ok (v, t1) → (getC t o.a).tag = true →
    let a := getC t o.a
    (capSeal a.bits ≠ 0 → exec (.cadd h o) s = .next (takeTrap (!h.s) s tCap (capDetail .seal (capCursor a.bits + v))) ∧
      exec (.csetp h o) s = .next (takeTrap (!h.s) s tCap (capDetail .seal (capCursor a.bits))) ∧
      exec (.csetb h o) s = .next (takeTrap (!h.s) s tCap (capDetail .seal (capCursor a.bits)))) ∧
    (capSeal a.bits = 0 → ¬(capBase a.bits ≤ (capCursor a.bits).toNat ∧ (capCursor a.bits).toNat + v.toNat ≤ capLimit a.bits) →
      exec (.csetb h o) s = .next (takeTrap (!h.s) s tCap (capDetail .bounds (capCursor a.bits)))) ∧
    (∀ n, o.b = .c n →
      let b := getC t n
      (capSeal a.bits ≠ 0 → exec (.cseal h o) s = .next (takeTrap (!h.s) s tCap (capDetail .seal (capCursor a.bits)))) ∧
      (capSeal a.bits = 0 → exec (.cunseal h o) s = .next (takeTrap (!h.s) s tCap (capDetail .seal (capCursor a.bits)))) ∧
      (∀ c, sealFault b c →
        (capSeal a.bits = 0 → exec (.cseal h o) s = .next (takeTrap (!h.s) s tCap (capDetail c (capCursor a.bits)))) ∧
        (capSeal a.bits ≠ 0 → exec (.cunseal h o) s = .next (takeTrap (!h.s) s tCap (capDetail c (capCursor a.bits))))) ∧
      (sealer b →
        (capSeal a.bits = 0 → ¬(1 ≤ (capCursor b.bits).toNat ∧ (capCursor b.bits).toNat ≤ 7) →
          exec (.cseal h o) s = .next (takeTrap (!h.s) s tCap (capDetail .bounds (capCursor a.bits)))) ∧
        (capSeal a.bits ≠ 0 → (capCursor b.bits).toNat ≠ (capSeal a.bits).toNat →
          exec (.cunseal h o) s = .next (takeTrap (!h.s) s tCap (capDetail .bounds (capCursor a.bits))))))
/-- R398, R399, R204: the derivations of a capability, and the causes of those that fail a check, those of CSEAL and CUNSEAL in their
order among them. -/
def Obligations.CapabilityDerivations : Prop := Claims.CapabilityDerives ∧ Claims.CapabilityDerivationFaults
/-- R399: CGETB, CGETL, CGETP and CGETT write the field untagged, without any check. -/
def Sys2Proof.Claims.CapabilityReads : Prop :=
  ∀ h o s t, Runs h s t →
    exec (.cgetb h o) s = .next (doneWith h s (setData t o.d (((getC t o.a).bits.extractLsb' 64 57).setWidth 64))) ∧
    exec (.cgetl h o) s = .next (doneWith h s (setData t o.d (((getC t o.a).bits.extractLsb' 128 57).setWidth 64))) ∧
    exec (.cgetp h o) s = .next (doneWith h s (setData t o.d (((getC t o.a).bits.extractLsb' 121 7).setWidth 64))) ∧
    exec (.cgett h o) s = .next (doneWith h s (setData t o.d
      (((getC t o.a).bits.extractLsb' 185 7 ++ BitVec.ofBool (getC t o.a).tag).setWidth 64)))
/-- R290, R399: a change of one field of a capability leaves the others, and CGETB, CGETL, CGETP, CGETT show them. -/
def Obligations.CapabilityFields : Prop := Claims.CapabilityFieldUpdates ∧ Claims.CapabilityReads
/-! ## Control flow -/

/-- A transfer to `T` may go: it is aligned, and no mask word stands there (R380, R373). -/
def Sys2Proof.Claims.okTarget (s : State) (t : Thread) (T : W64) : Prop := T.toNat % 4 = 0 ∧ isMaskWord s s.cur.core t T = false
/-- R379, R380, R385: NOP; the branches to their targets; CALL and CALLX write the link; LOOP counts down and falls through
at zero; 0 wraps to 2^64 - 1. -/
def Sys2Proof.Claims.Branches : Prop :=
  (∀ h s t, Runs h s t → exec (.nop h) s = .next (doneWith h s t)) ∧
  (∀ h o s t, Runs h s t → okTarget s t (s.cur.pc + 12 * o.off.signExtend 64) →
    exec (.br h o) s = .next (jumpWith h s t (s.cur.pc + 12 * o.off.signExtend 64))) ∧
  (∀ h o s t a t1 b t2, Runs h s t → readW t o.a = .ok (a, t1) → readW t1 o.b = .ok (b, t2) → okTarget s t (a + 12 * b) →
    exec (.brx h o) s = .next (jumpWith h s t2 (a + 12 * b))) ∧
  (∀ h (o : CallOps) s t, Runs h s t → okTarget s t (s.cur.pc + 12 * o.off.signExtend 64) →
    exec (.call h o) s = .next (jumpWith h s (setData t o.d (succPc h s.cur.pc)) (s.cur.pc + 12 * o.off.signExtend 64))) ∧
  (∀ h (o : CallxOps) s t a t1, Runs h s t → readW t o.a = .ok (a, t1) → okTarget s t a →
    exec (.callx h o) s = .next (jumpWith h s (setData t1 o.d (succPc h s.cur.pc)) a)) ∧
  (∀ h (o : RetOps) s t a t1, Runs h s t → readW t o.a = .ok (a, t1) → okTarget s t a → exec (.ret h o) s = .next (jumpWith h s t1 a)) ∧
  (∀ h (o : CallOps) s t, Runs h s t → getW t o.d = 1 → exec (.loop h o) s = .next (doneWith h s (setData t o.d (0 : W64)))) ∧
  (∀ h (o : CallOps) s t, Runs h s t → getW t o.d ≠ 1 → okTarget s t (s.cur.pc + 12 * o.off.signExtend 64) →
    exec (.loop h o) s = .next (jumpWith h s (setData t o.d (getW t o.d - 1)) (s.cur.pc + 12 * o.off.signExtend 64)))
/-- A transfer to `T` faults and changes nothing else, neither a link nor a counter (R380, R373, R361). -/
def Sys2Proof.Claims.badTarget (i : Instr) (h : Hdr) (s : State) (t : Thread) (T : W64) : Prop :=
  (T.toNat % 4 ≠ 0 → exec i s = .next (takeTrap (!h.s) s tMisaligned ((T.extractLsb' 0 57).setWidth 64))) ∧
  (T.toNat % 4 = 0 → isMaskWord s s.cur.core t T = true → exec i s = .next (takeTrap (!h.s) s tIllegal 0))
/-- R380, R361: a branch to a target that is no multiple of 4 takes a misaligned fault with the target in DETAIL, and one to
a mask word an illegal-instruction fault; nothing is written, the link of CALL and CALLX and the counter of LOOP included. -/
def Sys2Proof.Claims.BranchFaults : Prop :=
  ∀ h s t, Runs h s t →
    (∀ o : BrOps, badTarget (.br h o) h s t (s.cur.pc + 12 * o.off.signExtend 64)) ∧
    (∀ o a t1 b t2, readW t o.a = .ok (a, t1) → readW t1 o.b = .ok (b, t2) → badTarget (.brx h o) h s t (a + 12 * b)) ∧
    (∀ o : CallOps, badTarget (.call h o) h s t (s.cur.pc + 12 * o.off.signExtend 64)) ∧
    (∀ (o : CallxOps) a t1, readW t o.a = .ok (a, t1) → badTarget (.callx h o) h s t a) ∧
    (∀ (o : RetOps) a t1, readW t o.a = .ok (a, t1) → badTarget (.ret h o) h s t a) ∧
    (∀ o : CallOps, getW t o.d ≠ 1 → badTarget (.loop h o) h s t (s.cur.pc + 12 * o.off.signExtend 64))
/-- R379, R380, R385, R361: the branches, calls, returns and LOOP go to their targets; a target that may not be taken faults, for each of
BR, BRX, CALL, CALLX, RET and LOOP, with nothing written. -/
def Obligations.ControlFlow : Prop := Claims.Branches ∧ Claims.BranchFaults
/-! ## Traps, signatures, the firmware's registers -/

/-- R474: a firmware thread that takes a trap, once the execute words and the wide-unit work before the faulting one are complete: the saved
registers, IN, the PC at the vector, every later word discarded, queues and f registers empty; the c, s and m registers keep
their values. -/
def Sys2Proof.Claims.handler (t : Thread) (pc : W64) (code : BitVec 8) (detail : W64) (u : Thread) : Prop :=
  u.pc = t.fw.tvec ∧ u.fw.tpc = pc ∧ u.fw.tcause = code ∧ u.fw.tdetail = detail ∧ u.fw.tpred = t.regs.p &&& 0xFFFE ∧
  u.fw.tin = true ∧ u.fw.tvec = t.fw.tvec ∧ u.fw.stopped = t.fw.stopped ∧ u.slice = [] ∧ u.wide = [] ∧ u.regs.c = t.regs.c ∧
  u.regs.s = t.regs.s ∧ u.regs.m = t.regs.m ∧ u.regs.p = t.regs.p ∧ u.regs.xq = [] ∧ u.regs.aq = [] ∧
  (∀ n, getL u n = []) ∧ (∀ n, getD u n = []) ∧ (∀ n, getF u n = .empty)
/-- R384, R474, R475, R202: TRAP enters the handler of a firmware thread with code 0x0D and its immediate, stops the core
that takes it inside its handler, and kills a firing. -/
def Sys2Proof.Claims.SoftTrap : Prop :=
  (∀ h (o : TrapOps) s t, h.s = true → Runs h s t → t.id.firmware = true → t.slice = [] → t.wide = [] → t.fw.tin = false →
    ∃ u, exec (.trap h o) s = .next (setCur (noteTrap s s.cur.core 0x0D) u) ∧ handler t s.cur.pc 0x0D (o.imm.setWidth 64) u) ∧
  (∀ h (o : TrapOps) s t, h.s = true → Runs h s t → t.id.firmware = true → t.slice = [] → t.wide = [] → t.fw.tin = true →
    exec (.trap h o) s = .next (setCur (noteTrap s s.cur.core 0x0D) { t with fw := { t.fw with stopped := true } })) ∧
  (∀ h (o : TrapOps) s t, h.s = true → Runs h s t → t.id.firmware = false →
    exec (.trap h o) s = .next (killFiring (noteTrap s s.cur.core 0x0D) s.cur.core 0x0D (o.imm.setWidth 64) s.cur.pc))
/-- R476, R475: RETT with IN = 1 restores p1-p15, clears IN and transfers to k.tpc; with IN = 0 it enters the handler as an
illegal instruction; for a firing it is illegal. -/
def Sys2Proof.Claims.ReturnFromTrap : Prop :=
  (∀ h s t, Runs h s t → t.id.firmware = true → t.fw.tin = true → okTarget s t t.fw.tpc →
    exec (.rett h) s = .next (jumpWith h s
      { t with regs := { t.regs with p := t.fw.tpred &&& 0xFFFE }, fw := { t.fw with tin := false } } t.fw.tpc)) ∧
  (∀ h s t, h.s = true → Runs h s t → t.id.firmware = true → t.slice = [] → t.wide = [] → t.fw.tin = false →
    ∃ u, exec (.rett h) s = .next (setCur (noteTrap s s.cur.core 0x01) u) ∧ handler t s.cur.pc 0x01 0 u) ∧
  (∀ h s t, h.s = true → Runs h s t → t.id.firmware = false → exec (.rett h) s =
    .next (killFiring (noteTrap s s.cur.core 0x01) s.cur.core 0x01 0 s.cur.pc))
/-- R209, R386: a SIG whose block has the CRC its predecessor announced starts the next block; the first SIG compares with
nothing. -/
def Sys2Proof.Claims.SignatureBlock : Prop :=
  (∀ h (o : SigOps) s t, Runs h s t → (∀ e, t.sig.expected = some e → e = ~~~t.sig.crc) →
    exec (.sig h o) s = .next (doneWith h s { t with sig := { crc := BitVec.allOnes 32, expected := some o.crc } })) ∧
  (∀ h (o : SigOps) s t e, Runs h s t → t.sig.expected = some e → e ≠ ~~~t.sig.crc →
    exec (.sig h o) s = .next (takeTrap (!h.s) s tSig (e ++ ~~~t.sig.crc)))
/-- R384, R474, R475, R476, R202, R209, R386: TRAP and its three destinies, RETT, and SIG. -/
def Obligations.TrapsReturnsSignatures : Prop := Claims.SoftTrap ∧ Claims.ReturnFromTrap ∧ Claims.SignatureBlock
/-- What k.image reads (R463): the kind of the core's image, whether it runs from the staging slot, whether it is being proved. -/
def Sys2Proof.Claims.imageReads (s : State) (v : W64) : Prop :=
  v.extractLsb' 0 2 = BitVec.ofNat 2 (imageKind s.cur.core) ∧ v.extractLsb' 4 60 = 0 ∧
  (s.fw.shoring = none → v.getLsbD 2 = committedStaged s (imageKind s.cur.core)) ∧
  (v.getLsbD 3 = true ↔ ∃ r, s.fw.shoring = some r ∧ r.kind = imageKind s.cur.core ∧ r.phase = .proving)
/-- R463-R467: CTLRD reads k.core, k.ctx, k.firing, k.coord, k.time, k.cycles, k.budget, k.fpmode, the event counters and the
firmware's registers, untagged; CTLWR writes the fields that are writable and no other register. That a write of k.tvec clears bits 1
and 0, where R463 says only that it is a multiple of 4, is the model's choice (log 46); k.wdog of a core of which no heartbeat has
been accepted is a free value (R468 states none). -/
def Obligations.ControlRegisters : Prop :=
  (∀ h d s t, Runs h s t → t.id.firmware = true →
    exec (.ctlrd h ⟨d, 0x100⟩) s = .next (doneWith h s (setData t d t.fw.tvec)) ∧
    exec (.ctlrd h ⟨d, 0x101⟩) s = .next (doneWith h s (setData t d t.fw.tpc)) ∧
    exec (.ctlrd h ⟨d, 0x102⟩) s = .next (doneWith h s (setData t d (t.fw.tcause.setWidth 64))) ∧
    exec (.ctlrd h ⟨d, 0x103⟩) s = .next (doneWith h s (setData t d t.fw.tdetail)) ∧
    exec (.ctlrd h ⟨d, 0x104⟩) s = .next (doneWith h s (setData t d (t.fw.tpred.setWidth 64))) ∧
    exec (.ctlrd h ⟨d, 0x105⟩) s = .next (doneWith h s (setData t d (if t.fw.tin then (1 : W64) else 0))) ∧
    exec (.ctlrd h ⟨d, 0x001⟩) s = .next (doneWith h s (setData t d (0 : W64))) ∧
    (∀ m r, isService s.cur.core = true → (cluster s (clusterOf s.cur.core)).misses = m :: r →
      exec (.ctlrd h ⟨d, 0x110⟩) s = .next (doneWith h s (setData t d (1#1 ++ BitVec.ofNat 3 m.kind.code ++ m.ctx ++ 0#6 ++
        BitVec.ofNat 10 (firstWaiter m) ++ 0#16 ++ BitVec.ofNat 16 (min m.merged 0xFFFF)))) ∧
      exec (.ctlrd h ⟨d, 0x111⟩) s = .next (doneWith h s (setData t d (BitVec.ofNat 64 m.va)))) ∧
    (isService s.cur.core = false ∨ (cluster s (clusterOf s.cur.core)).misses = [] →
      exec (.ctlrd h ⟨d, 0x110⟩) s = .next (doneWith h s (setData t d (0 : W64))) ∧
      exec (.ctlrd h ⟨d, 0x111⟩) s = .next (doneWith h s (setData t d (0 : W64)))) ∧
    (∃ v, exec (.ctlrd h ⟨d, 0x118⟩) s = .next (doneWith h s (setData t d v)) ∧ imageReads s v) ∧
    (∀ b, mfind s.fw.beats s.cur.core = some b → exec (.ctlrd h ⟨d, 0x119⟩) s =
      .next (doneWith h s (setData t d (BitVec.ofNat 64 (min (s.time - b.1) (2 ^ 64 - 1)))))) ∧
    (mfind s.fw.beats s.cur.core = none → exec (.ctlrd h ⟨d, 0x119⟩) s =
      .next (doneWith h (freeValue s).2 (setData t d (freeValue s).1)))) ∧
  (∀ h d s t, Runs h s t → t.id.firmware = false →
    exec (.ctlrd h ⟨d, 0x001⟩) s = .next (doneWith h s (setData t d (t.id.ctx.setWidth 64))) ∧
    exec (.ctlrd h ⟨d, 0x002⟩) s = .next (doneWith h s (setData t d ((t.id.stage ++ t.id.frame).setWidth 64))) ∧
    exec (.ctlrd h ⟨d, 0x003⟩) s = .next (doneWith h s (setData t d (BitVec.ofNat 64 t.id.coord)))) ∧
  (∀ h d s t, Runs h s t →
    exec (.ctlrd h ⟨d, 0x000⟩) s = .next (doneWith h s (setData t d (BitVec.ofNat 64 (coreWord s.cur.core)))) ∧
    exec (.ctlrd h ⟨d, 0x004⟩) s = .next (doneWith h s (setData t d (BitVec.ofNat 64 (s.time - s.readyAt)))) ∧
    exec (.ctlrd h ⟨d, 0x005⟩) s = .next (doneWith h s (setData t d (BitVec.ofNat 64 (t.ran / 1000))))) ∧
  (∀ h d s t x, Runs h s t → t.id.firmware = false → ctxOf s t.id.ctx = some x → x.sched.cycles ≠ 0 →
    exec (.ctlrd h ⟨d, 0x006⟩) s = .next (doneWith h s (setData t d (BitVec.ofNat 32 x.period ++ BitVec.ofNat 32 (x.sched.cycles - x.cycles / 1000))))) ∧
  (∀ h d s t x, Runs h s t → t.id.firmware = false → ctxOf s t.id.ctx = some x → x.sched.cycles = 0 →
    exec (.ctlrd h ⟨d, 0x006⟩) s = .next (doneWith h s (setData t d (BitVec.ofNat 32 x.period ++ 0xFFFFFFFF#32)))) ∧
  (∀ h d s t, Runs h s t → exec (.ctlrd h ⟨d, 0x010⟩) s = .next (doneWith h s (setData t d (t.regs.fpmode.setWidth 64))) ∧
    ∀ i : Fin 8, exec (.ctlrd h ⟨d, 0x018 + BitVec.ofNat 12 i.val⟩) s = .next (doneWith h s (setData t d ((t.regs.evc[i]).setWidth 64)))) ∧
  (∀ h b s t v u, Runs h s t → readW t b = .ok (v, u) →
    exec (.ctlwr h ⟨b, 0x010⟩) s = .next (doneWith h s { u with regs := { u.regs with fpmode := v.setWidth 5 } }) ∧
    ∀ i : Fin 8, exec (.ctlwr h ⟨b, 0x018 + BitVec.ofNat 12 i.val⟩) s =
      .next (doneWith h s { u with regs := { u.regs with evc := u.regs.evc.set i.val (v.setWidth 32) i.isLt } })) ∧
  (∀ h b s t v u, Runs h s t → t.id.firmware = true → readW t b = .ok (v, u) →
    exec (.ctlwr h ⟨b, 0x100⟩) s = .next (doneWith h s { u with fw := { u.fw with tvec := v &&& ~~~3 } }) ∧
    exec (.ctlwr h ⟨b, 0x101⟩) s = .next (doneWith h s { u with fw := { u.fw with tpc := v } }) ∧
    exec (.ctlwr h ⟨b, 0x104⟩) s = .next (doneWith h s { u with fw := { u.fw with tpred := v.setWidth 16 &&& 0xFFFE } }) ∧
    exec (.ctlwr h ⟨b, 0x105⟩) s = .next (doneWith h s { u with fw := { u.fw with tin := v.getLsbD 0 } }))

/-! ## Ends of firings -/

/-- The firing on the current core stands at a FIN it may take: the signature agrees, every earlier word of both halves is
done, no drain is outstanding, no port that is not up holds a write back, and no gang section is open (R382, R209, R317, R14). -/
def Sys2Proof.Claims.finOk (s : State) (t : Thread) : Prop :=
  (∀ e, t.sig.expected = some e → e = ~~~crcWord t.sig.crc s.cur.word) ∧ t.slice = [] ∧ t.wide = [] ∧ t.opn.drains = 0 ∧
    t.opn.section_ = 0 ∧ t.id.firmware = false ∧ t.id.gang = false ∧ drainWaits s s.cur.core t.id.ctx = false
/-- `t` as it waits at a FIN of a minor. -/
def Sys2Proof.Claims.atFin (n : Nat) (t : Thread) : Thread := { t with blockA := .finishing n }
/-- R382, R299: FIN, FIN.again and FIN.abort of a firing of its own release what it wrote in the caches, then end it as their
minor says; the core holds no thread where its frame has no batch of it any more, and after an abort. -/
def Sys2Proof.Claims.FinEndsFiring : Prop :=
  ∀ h s t, Runs h s t → finOk s t →
    exec (.finCommit h) s = .next (finishFiring 0 (setCur s (atFin 0 t)) [(s.cur.core, atFin 0 t)] (atFin 0 t)) ∧
    exec (.finAgain h) s = .next (finishFiring 1 (setCur s (atFin 1 t)) [(s.cur.core, atFin 1 t)] (atFin 1 t)) ∧
    ∃ s', exec (.finAbort h) s = .next s' ∧ (s.cur.core < 1024 → threadOf s' s.cur.core = none)
/-- R383, R186: YIELD without P has no effect beyond retiring, and so has it for firmware, and when nothing that is ready waits
for a core of the cluster. -/
def Sys2Proof.Claims.YieldGoesOn : Prop :=
  ∀ h s t, Runs h s t → (h.p = false ∨ t.id.firmware = true ∨ waiting (refreshReady s) (clusterOf s.cur.core) = []) →
    exec (.yield h) s = .next (doneWith h s t)
/-- R382, R383, R299, R186: the three ways a firing ends itself, and a YIELD that has nothing to give way to. -/
def Obligations.FiringEndsAndYields : Prop := Claims.FinEndsFiring ∧ Claims.YieldGoesOn
/-! ## Scalar floating point -/

/-- The operations of R426-R429 with one, two and three sources of one format: results and events. -/
def Sys2Proof.Claims.fp1Ops : List ((Hdr → FpOps → Instr) × (FLayout → FCtl → Nat → Nat × Events)) :=
  [(.fsqrt, fpSqrt), (.frsqe, fpRsqe), (.frcpe, fpRcpe), (.fabs, fun p _ a => (fpAbs p a, evNone)),
   (.fneg, fun p _ a => (fpNeg p a, evNone))]
def Sys2Proof.Claims.fp2Ops : List ((Hdr → FpOps → Instr) × (FLayout → FCtl → Nat → Nat → Nat × Events)) :=
  [(.fadd, fpAdd), (.fsub, fpSub), (.fmul, fpMul), (.fdiv, fpDiv), (.fmin, fun p c => fpMinMax p c false),
   (.fmax, fun p c => fpMinMax p c true), (.fcpsgn, fun p _ a b => (fpCpsgn p a b, evNone))]
def Sys2Proof.Claims.fp3Ops : List ((Hdr → FpOps → Instr) × (FLayout → FCtl → Nat → Nat → Nat → Nat × Events)) :=
  [(.fma, fun p c => fpFma p c false false), (.fms, fun p c => fpFma p c false true),
   (.fnma, fun p c => fpFma p c true false), (.fnms, fun p c => fpFma p c true true)]
/-- R423-R432: with readable sources and a destination that takes the result, a scalar floating-point instruction completes
with the code its operation gives under the control bits in force, and counts its events; nothing else changes. -/
def Obligations.ScalarFloat : Prop :=
  ∀ h o s t, Runs h s t →
    (∀ p ∈ fp1Ops, ∀ a t1 u, readFp t o.fmt o.a = .ok (a, t1) →
      writeOpd t1 o.d (BitVec.ofNat 64 (p.2 (layoutOf o.fmt) (ctlOf t o) a).1) = .ok u →
      exec (p.1 h o) s = .next (doneWith h s (countEvents u (p.2 (layoutOf o.fmt) (ctlOf t o) a).2))) ∧
    (∀ p ∈ fp2Ops, ∀ a t1 b t2 u, readFp t o.fmt o.a = .ok (a, t1) → readFp t1 o.fmt o.b = .ok (b, t2) →
      writeOpd t2 o.d (BitVec.ofNat 64 (p.2 (layoutOf o.fmt) (ctlOf t o) a b).1) = .ok u →
      exec (p.1 h o) s = .next (doneWith h s (countEvents u (p.2 (layoutOf o.fmt) (ctlOf t o) a b).2))) ∧
    (∀ p ∈ fp3Ops, ∀ a t1 b t2 c t3 u, readFp t o.fmt o.a = .ok (a, t1) → readFp t1 o.fmt o.b = .ok (b, t2) →
      readFp t2 o.fmt o.c = .ok (c, t3) →
      writeOpd t3 o.d (BitVec.ofNat 64 (p.2 (layoutOf o.fmt) (ctlOf t o) a b c).1) = .ok u →
      exec (p.1 h o) s = .next (doneWith h s (countEvents u (p.2 (layoutOf o.fmt) (ctlOf t o) a b c).2))) ∧
    (∀ a t1 n t2 u, readFp t o.fmt o.a = .ok (a, t1) → readW t1 o.b = .ok (n, t2) →
      writeOpd t2 o.d (BitVec.ofNat 64 (fpScalb (layoutOf o.fmt) (ctlOf t o) a n.toInt).1) = .ok u →
      exec (.fscalb h o) s = .next (doneWith h s (countEvents u (fpScalb (layoutOf o.fmt) (ctlOf t o) a n.toInt).2))) ∧
    (∀ a t1 u, readFp t o.fmt o.a = .ok (a, t1) → writeOpd t1 o.d (fpExpo (layoutOf o.fmt) (ctlOf t o) a).1 = .ok u →
      exec (.fexpo h o) s = .next (doneWith h s (countEvents u (fpExpo (layoutOf o.fmt) (ctlOf t o) a).2))) ∧
    (∀ a t1 u, readFp t o.fmt o.a = .ok (a, t1) → writeOpd t1 o.d (fpClass (layoutOf o.fmt) a) = .ok u →
      exec (.fclass h o) s = .next (doneWith h s u)) ∧
    (∀ n a t1 b t2, o.d = .c n → readFp t o.fmt o.a = .ok (a, t1) → readFp t1 o.fmt o.b = .ok (b, t2) →
      exec (.fcmp h o) s = .next (doneWith h s (countEvents (setP t2 (n.setWidth 4) (fpCmp (layoutOf o.fmt) (ctlOf t o) o.opt a b).1)
        (fpCmp (layoutOf o.fmt) (ctlOf t o) o.opt a b).2))) ∧
    (∀ a t1 u, (∀ v, o.a ≠ .imm v) → readFp t o.fmt o.a = .ok (a, t1) →
      writeOpd t1 o.d (BitVec.ofNat 64 (convert (ctlOf t o) (fmtOf o.fmt) (fmtOf o.fmt2) a).1) = .ok u →
      exec (.fcvt h o) s = .next (doneWith h s (countEvents u (convert (ctlOf t o) (fmtOf o.fmt) (fmtOf o.fmt2) a).2))) ∧
    (∀ v u, o.a = .imm v →
      writeOpd t o.d (BitVec.ofNat 64 (convertImm (ctlOf t o) (fmtOf o.fmt) (fmtOf o.fmt2) ((v.toNat : Int) - 64)).1) = .ok u →
      exec (.fcvt h o) s = .next (doneWith h s (countEvents u (convertImm (ctlOf t o) (fmtOf o.fmt) (fmtOf o.fmt2) ((v.toNat : Int) - 64)).2)))

/-! ## Loads and stores -/

/-- The state where an effect on memory is done with thread `t`; the peers it noted stay noted. -/
def Sys2Proof.Claims.doneAt (h : Hdr) (s : State) (t : Thread) : State := doneWith h s (keepPeers s t)
/-- An access of `z` bytes by the current core at cA + OFF: capability checked, aligned, translated by the core's TLB (so no
state changes), on no RD page, and not held back by a budget or a port (R402, R290, R191, R14); with `home` one served there. -/
def Sys2Proof.Claims.reaches (s : State) (t : Thread) (cap : CReg) (off : BitVec 16) (kinds : List Nat) (p : BitVec 7) (z : Nat)
    (need : Need) (home : Bool) (va : W64) (x : Xlat) : Prop :=
  va = capCursor cap.bits + off.signExtend 64 ∧ checkCap cap kinds p va z = .ok () ∧ va.toNat % z = 0 ∧ capKind cap.bits ≠ 1 ∧
  translate s s.cur.core t.id.ctx va.toNat need = .hit x s ∧ x.rd = false ∧ x.pa % 64 = va.toNat % 64 ∧
  accessHeld s (whoOf s.cur.core t) x home = false
/-- An access of `z` bytes to scratch at cA + OFF: checked, aligned, and to lines the firing holds (R293). -/
def Sys2Proof.Claims.inScratch (t : Thread) (k : Nat) (cap : CReg) (off : BitVec 16) (p : BitVec 7) (z : Nat) (va : W64) : Prop :=
  va = capCursor cap.bits + off.signExtend 64 ∧ checkCap cap [1] p va z = .ok () ∧ va.toNat % z = 0 ∧
  linesHeld (whoOf k t) va.toNat z = true
/-- R402, R403, R405, R407, R112, R293, R67: a load completes with the bytes the core sees, in memory or in scratch, extended as SX
says, and LD.n128 with all 16; LDC reads 24 bytes and the slot's tag; LDA acquires first, and on a UN page is a plain load; poisoned
data is an uncorrectable-data fault and no result; PREF on an address it may not fetch changes nothing. -/
def Obligations.Loads : Prop :=
  (∀ h o s t va x d s1 u, Runs h s t → reaches s t (getC t o.a) o.off [0, 1] permR (2 ^ o.size.toNat) .load false va x → o.size.toNat ≤ 3 →
    loadSector s s.cur.core t.id.ctx x = (d, s1) → d.poison = false →
    writeOpd t o.d (widen (2 ^ o.size.toNat) o.sx (secBytes d.data (va.toNat % 64) (2 ^ o.size.toNat))) = .ok u →
    exec (.ld h o) s = .next (doneAt h s1 u)) ∧
  (∀ h o s t va u, Runs h s t → inScratch t s.cur.core (getC t o.a) o.off permR (2 ^ o.size.toNat) va → o.size.toNat ≤ 3 →
    writeOpd t o.d (widen (2 ^ o.size.toNat) o.sx (readScratch (Machine.core s s.cur.core) va.toNat (2 ^ o.size.toNat))) = .ok u →
    exec (.ld h o) s = .next (doneAt h s u)) ∧
  (∀ h o s t va, Runs h s t → o.size = 4 → o.sx = false →
    (∀ x d s1 u, reaches s t (getC t o.a) o.off [0, 1] permR 16 .load false va x → loadSector s s.cur.core t.id.ctx x = (d, s1) →
      d.poison = false → writeOpd t o.d (BitVec.ofNat 128 (secBytes d.data (va.toNat % 64) 16)) = .ok u →
      exec (.ld h o) s = .next (doneAt h s1 u)) ∧
    (∀ u, inScratch t s.cur.core (getC t o.a) o.off permR 16 va →
      writeOpd t o.d (BitVec.ofNat 128 (readScratch (Machine.core s s.cur.core) va.toNat 16)) = .ok u →
      exec (.ld h o) s = .next (doneAt h s u))) ∧
  (∀ h o s t va x d s1, Runs h s t → loadSector s s.cur.core t.id.ctx x = (d, s1) → d.poison = true →
    (reaches s t (getC t o.a) o.off [0, 1] permR (2 ^ o.size.toNat) .load false va x → o.size.toNat ≤ 4 →
      exec (.ld h o) s = .next (takeTrap (!h.s) s1 tData ((va.extractLsb' 0 57).setWidth 64))) ∧
    (reaches s t (getC t o.a) o.off [0, 1] permR 32 .load false va x →
      exec (.ldc h o) s = .next (takeTrap (!h.s) s1 tData ((va.extractLsb' 0 57).setWidth 64)))) ∧
  (∀ h o s t va x s1 s2, Runs h s t → reaches s t (getC t o.a) o.off [0] permR (2 ^ o.size.toNat) .load true va x → x.un = false →
    orderWaits s (whoOf s.cur.core t) (x.pa / 64) true false o.scope = false →
    s1 = acquireAt (beforeAtomic s s.cur.core (x.pa / 64)) s.cur.core o.scope (x.pa / 64) →
    s2 = reachHome s1 s.cur.core t.id.ctx x → (atHome s2 x).poison = true →
    exec (.lda h o) s = .next (takeTrap (!h.s) s2 tData ((va.extractLsb' 0 57).setWidth 64))) ∧
  (∀ h o s t va x d s1 d2 s2 n, Runs h s t → reaches s t (getC t o.a) o.off [0, 1] permR 32 .load false va x →
    loadSector s s.cur.core t.id.ctx x = (d, s1) → d.poison = false → translate s1 s.cur.core t.id.ctx va.toNat .load = .hit x s1 →
    accessHeld s1 (whoOf s.cur.core t) x false = false → loadSector s1 s.cur.core t.id.ctx x = (d2, s2) → d2.poison = false → o.d = .c n →
    exec (.ldc h o) s = .next (doneAt h s2 (setC t n ⟨BitVec.ofNat 192 (secBytes d.data (va.toNat % 64) 24),
      (x.ct && d2.tags.getLsbD (va.toNat % 64 / 32)) && hasPerm (getC t o.a).bits permC⟩))) ∧
  (∀ h o s t va n, Runs h s t → inScratch t s.cur.core (getC t o.a) o.off permR 32 va → o.d = .c n →
    exec (.ldc h o) s = .next (doneAt h s (setC t n ⟨BitVec.ofNat 192 (readScratch (Machine.core s s.cur.core) va.toNat 24),
      (Machine.core s s.cur.core).scratchTags.contains (va.toNat / 32) && hasPerm (getC t o.a).bits permC⟩))) ∧
  (∀ h o s t va x s1 s2 u, Runs h s t → reaches s t (getC t o.a) o.off [0] permR (2 ^ o.size.toNat) .load true va x → x.un = false →
    orderWaits s (whoOf s.cur.core t) (x.pa / 64) true false o.scope = false →
    s1 = acquireAt (beforeAtomic s s.cur.core (x.pa / 64)) s.cur.core o.scope (x.pa / 64) →
    s2 = reachHome s1 s.cur.core t.id.ctx x → (atHome s2 x).poison = false →
    writeOpd t o.d (widen (2 ^ o.size.toNat) o.sx (secBytes (atHome s2 x).data (x.pa % 64) (2 ^ o.size.toNat))) = .ok u →
    exec (.lda h o) s = .next (doneAt h s2 u)) ∧
  (∀ h o s t va x d s1 u, Runs h s t → reaches s t (getC t o.a) o.off [0] permR (2 ^ o.size.toNat) .load true va x → x.un = true →
    o.size.toNat ≤ 3 → loadSector s s.cur.core t.id.ctx x = (d, s1) → d.poison = false →
    writeOpd t o.d (widen (2 ^ o.size.toNat) o.sx (secBytes d.data (va.toNat % 64) (2 ^ o.size.toNat))) = .ok u →
    exec (.lda h o) s = .next (doneAt h s1 u)) ∧
  (∀ h o s t, Runs h s t → (checkCap (getC t o.a) [0] permR (memAddr (getC t o.a) o.off) 1 ≠ .ok () ∨
      prefXlat s (whoOf s.cur.core t) (memAddr (getC t o.a) o.off).toNat = none) → exec (.pref h o) s = .next (doneWith h s t)) ∧
  (∀ h o s t x, Runs h s t → checkCap (getC t o.a) [0] permR (memAddr (getC t o.a) o.off) 1 = .ok () →
    prefXlat s (whoOf s.cur.core t) (memAddr (getC t o.a) o.off).toNat = some x → accessHeld s (whoOf s.cur.core t) x false = false →
    exec (.pref h o) s = .next (doneAt h ((List.range 4).foldl (fun s i => prefSector (whoOf s.cur.core t) (h.hc == 3)
      { x with pa := x.pa / 256 * 256 + 64 * i } s) s) t))
/-- R404, R405, R291, R105, R293: ST stores the low bytes of its source untagged, STC 32 bytes of a c register with its tag, to
memory or to scratch; STR releases and stores at the home, and on a UN page is a plain store. -/
def Obligations.Stores : Prop :=
  (∀ h o s t va x v u, Runs h s t → reaches s t (getC t o.a) o.off [0, 1] permW (2 ^ o.size.toNat) .store false va x → o.size.toNat ≤ 4 →
    readOpd t o.b = .ok (v, u) →
    exec (.st h o) s = .next (doneAt h (notePeer (storeSector s s.cur.core t.id.ctx x
      ⟨2 ^ o.size.toNat, v.toNat % 256 ^ 2 ^ o.size.toNat, false, false⟩) s.cur.core x) u)) ∧
  (∀ h o s t va v u, Runs h s t → inScratch t s.cur.core (getC t o.a) o.off permW (2 ^ o.size.toNat) va → o.size.toNat ≤ 4 →
    readOpd t o.b = .ok (v, u) →
    exec (.st h o) s = .next (doneAt h (setCore s s.cur.core (storeScratch (Machine.core s s.cur.core) va.toNat (2 ^ o.size.toNat)
      (v.toNat % 256 ^ 2 ^ o.size.toNat) false)) u)) ∧
  (∀ h o s t va x n, Runs h s t → reaches s t (getC t o.a) o.off [0, 1] permW 32 .store false va x → o.b = .c n →
    ((getC t n).tag = true → hasPerm (getC t o.a).bits permC = true ∧ hasPerm (getC t n).bits permG = true ∧ x.ct = true) →
    exec (.stc h o) s = .next (doneAt h (notePeer (storeSector s s.cur.core t.id.ctx x
      ⟨32, (getC t n).bits.toNat, (getC t n).tag, false⟩) s.cur.core x) t)) ∧
  (∀ h o s t va n, Runs h s t → inScratch t s.cur.core (getC t o.a) o.off permW 32 va → o.b = .c n →
    ((getC t n).tag = true → hasPerm (getC t o.a).bits permC = true) →
    exec (.stc h o) s = .next (doneAt h (setCore s s.cur.core (storeScratch (Machine.core s s.cur.core) va.toNat 32
      (getC t n).bits.toNat (getC t n).tag)) t)) ∧
  (∀ h o s t va x v u, Runs h s t → reaches s t (getC t o.a) o.off [0] permW (2 ^ o.size.toNat) .store true va x → x.un = false →
    orderWaits s (whoOf s.cur.core t) (x.pa / 64) false true o.scope = false → readOpd t o.b = .ok (v, u) →
    exec (.str h o) s = .next (doneAt h (notePeer (storeHome (releaseAt s s.cur.core t.id.ctx o.scope (x.pa / 64)) s.cur.core t.id.ctx x
      (2 ^ o.size.toNat) (v.toNat % 256 ^ 2 ^ o.size.toNat)) s.cur.core x) u)) ∧
  (∀ h o s t va x v u, Runs h s t → reaches s t (getC t o.a) o.off [0] permW (2 ^ o.size.toNat) .store true va x → x.un = true →
    o.size.toNat ≤ 4 → readOpd t o.b = .ok (v, u) →
    exec (.str h o) s = .next (doneAt h (notePeer (storeSector s s.cur.core t.id.ctx x
      ⟨2 ^ o.size.toNat, v.toNat % 256 ^ 2 ^ o.size.toNat, false, false⟩) s.cur.core x) u))
/-- The byte at an address as core `k` sees it: in its L1, or else at the home. -/
def Sys2Proof.Claims.coreByte (s : State) (k pa : Nat) : Byte :=
  match mfind (Machine.core s k).l1 (pa / 64) with
  | some y => BitVec.ofNat 8 (secBytes y.data (pa % 64) 1)
  | none => homeByte s.mem pa
/-- The access leaves every other sector where it is: its own stands in L1, or never does, or there is a way for it. -/
def Sys2Proof.Claims.noEviction (s : State) (k : Nat) (x : Xlat) : Prop :=
  x.ms = true ∨ x.so = true ∨ (∃ y, mfind (Machine.core s k).l1 (x.pa / 64) = some y) ∨
    wayFor (orderHome s k x) k (x.pa / 64) = orderHome s k x
/-- An SO sector of the host or a peer that L2 holds a copy of is read at its home and not in that copy (R102, R121); a sector of HBM,
and one that L2 does not hold, reads at its home as L2 gives it. -/
def Sys2Proof.Claims.readsAsHeld (m : Mem) (x : Xlat) : Prop :=
  x.ms = false → x.so = true → isHbm (x.pa / 64) = true ∨ mfind m.l2 (x.pa / 64) = none
/-- L2's copy of a sector that lies elsewhere shows what is there. -/
def Sys2Proof.Claims.copyAgrees (m : Mem) (sec : Nat) : Prop :=
  isHbm sec = true ∨ ∀ y, mfind m.l2 sec = some y → y.data = (hbmRead m sec).data
/-- R110, R112, R67, R102, R104, R121: a load of unpoisoned data changes no byte of a home, and none its core sees, but for what its
core's own write-backs perform and evictions show; an SO load of the host's or a peer's memory gives what stands there; a store of `n` bytes within a sector gives the storing core those bytes and is
otherwise as the load; one performed at the home (SO, MS, STR, what an atomic writes) changes there just those bytes, behind the
core's earlier stores. -/
def Obligations.StoredBytes : Prop :=
  ∀ s k ctx (x : Xlat) n v tag strm, x.pa % 64 + n ≤ 64 → memInv s.mem → (hbmRead s.mem (x.pa / 64)).poison = false →
    (isHbm (x.pa / 64) = false → x.ms = false → x.so = true → (loadSector s k ctx x).1 = hbmRead s.mem (x.pa / 64)) ∧
    (readsAsHeld s.mem x → ∀ a, mfind (Machine.core s k).l1 (a / 64) = none →
      homeByte (loadSector s k ctx x).2.mem a = homeByte s.mem a ∧ coreByte (loadSector s k ctx x).2 k a = coreByte s k a) ∧
    (readsAsHeld s.mem x → x.ms = true ∨ x.so = true ∨ (∃ y, mfind (Machine.core s k).l1 (x.pa / 64) = some y) →
      ∀ a, homeByte (loadSector s k ctx x).2.mem a = homeByte s.mem a) ∧
    (readsAsHeld s.mem x → ∀ a, noEviction s k x ∨ l1SetOf (a / 256) ≠ l1SetOf (x.pa / 256) → coreByte (loadSector s k ctx x).2 k a = coreByte s k a) ∧
    (x.ms = false → x.so = false →
      (∀ i, i < n → coreByte (storeSector s k ctx x ⟨n, v, tag, strm⟩) k (x.pa + i) = BitVec.ofNat 8 (v / 256 ^ i)) ∧
      (∀ a, ¬(x.pa ≤ a ∧ a < x.pa + n) →
        coreByte (storeSector s k ctx x ⟨n, v, tag, strm⟩) k a = coreByte (loadSector s k ctx x).2 k a) ∧
      (∀ a, homeByte (storeSector s k ctx x ⟨n, v, tag, strm⟩).mem a = homeByte (loadSector s k ctx x).2.mem a)) ∧
    ((x.ms = true → ∀ y, mfind s.mem.l2 (x.pa / 64) = some y → y.dirty = true) → copyAgrees s.mem (x.pa / 64) →
      (x.ms = true ∨ x.so = true →
        (∀ i, i < n → homeByte (storeSector s k ctx x ⟨n, v, tag, strm⟩).mem (x.pa + i) = BitVec.ofNat 8 (v / 256 ^ i)) ∧
        (∀ a, ¬(x.pa ≤ a ∧ a < x.pa + n) → homeByte (storeSector s k ctx x ⟨n, v, tag, strm⟩).mem a = homeByte s.mem a)) ∧
      (∀ i, i < n → homeByte (mergeHome s k ctx x n v).mem (x.pa + i) = BitVec.ofNat 8 (v / 256 ^ i) ∧
        coreByte (storeHome s k ctx x n v) k (x.pa + i) = BitVec.ofNat 8 (v / 256 ^ i)) ∧
      (∀ a, ¬(x.pa ≤ a ∧ a < x.pa + n) → mfind (Machine.core s k).l1 (a / 64) = none →
        homeByte (mergeHome s k ctx x n v).mem a = homeByte s.mem a))
/-- R102, R110: writing a sector back from L2 to memory changes no byte of any home and keeps memory's form; giving it up there
changes none either, but that a clean sector reads as memory holds it from then on. -/
def Obligations.EvictionIsInvisible : Prop :=
  ∀ m sec a, memInv m → homeByte (l2Clean m sec) a = homeByte m a ∧ memInv (l2Clean m sec) ∧ memInv (l2Evict m sec) ∧
    ((a / 64 = sec → ∀ y, mfind m.l2 sec = some y → y.dirty = true) → homeByte (l2Evict m sec) a = homeByte m a) ∧
    (∀ y, mfind m.l2 (a / 64) = some y → y.dirty = false →
      homeByte (l2Evict m (a / 64)) a = BitVec.ofNat 8 (secBytes (hbmRead m (a / 64)).data (a % 64) 1))
/-- The trap at an address (R204). -/
def Sys2Proof.Claims.trapsAt (i : Instr) (h : Hdr) (s : State) (code : BitVec 8) (va : W64) : Prop :=
  exec i s = .next (takeTrap (!h.s) s code ((va.extractLsb' 0 57).setWidth 64))
/-- Where an access of `z` bytes at `va` stops before it goes: at a check of its capability, misaligned (R402), at a page it has no
translation for or may not use so (R88, R470), or held back by a spent budget or by a port (R191, R14). Nothing else is done. -/
def Sys2Proof.Claims.stops (i : Instr) (h : Hdr) (s : State) (t : Thread) (cap : CReg) (kinds : List Nat) (p : BitVec 7) (z : Nat)
    (need : Need) (home : Bool) (va : W64) : Prop :=
  (∀ c d, checkCap cap [0, 1] p va z = .error (.trap c d) → exec i s = .next (takeTrap (!h.s) s c d)) ∧
  (checkCap cap [0, 1] p va z = .ok () → capKind cap.bits ∉ kinds → exec i s = .next (takeTrap (!h.s) s tCap (capDetail .kind va))) ∧
  (checkCap cap kinds p va z = .ok () →
    (va.toNat % z ≠ 0 → trapsAt i h s tMisaligned va) ∧
    (va.toNat % z = 0 → capKind cap.bits ≠ 1 →
      (∀ s1, translate s s.cur.core t.id.ctx va.toNat need = .wait s1 → exec i s = .next s1) ∧
      (∀ c s1, translate s s.cur.core t.id.ctx va.toNat need = .fault c s1 →
        exec i s = .next (takeTrap (!h.s) s1 c ((va.extractLsb' 0 57).setWidth 64))) ∧
      (∀ x, translate s s.cur.core t.id.ctx va.toNat need = .hit x s → x.rd = false →
        accessHeld s (whoOf s.cur.core t) x home = true → exec i s = .next s)))
/-- The capability that STC may not store under `cap` (R405): the store needs C there and G in it, and a page that takes tags. -/
def Sys2Proof.Claims.tagStops (h : Hdr) (o : MemOps) (s : State) (t : Thread) (va : W64) (x : Xlat) (b : CReg) : Prop :=
  (hasPerm (getC t o.a).bits permC = false ∨ hasPerm b.bits permG = false →
    exec (.stc h o) s = .next (takeTrap (!h.s) s tCap (capDetail .permission va))) ∧
  (hasPerm (getC t o.a).bits permC = true → hasPerm b.bits permG = true → x.ct = false → trapsAt (.stc h o) h s tPage va)
/-- R290, R402, R405, R201, R204, R88, R14, R191: LD, ST, LDC, STC, LDA and STR stop where a check of their capability fails, with the
cause of the first that does, misaligned with the address, and where their page is not translated yet, may not be used so, or is held
back; so do the atomics, on kind 0 alone. Nothing is stored, and no register is written. -/
def Obligations.AccessFaults : Prop :=
  (∀ h (o : MemOps) s t va, Runs h s t → va = capCursor (getC t o.a).bits + o.off.signExtend 64 →
    let a := getC t o.a
    (o.size.toNat ≤ 4 → stops (.ld h o) h s t a [0, 1] permR (2 ^ o.size.toNat) .load false va ∧
      stops (.st h o) h s t a [0, 1] permW (2 ^ o.size.toNat) .store false va) ∧
    stops (.ldc h o) h s t a [0, 1] permR 32 .load false va ∧ stops (.stc h o) h s t a [0, 1] permW 32 .store false va ∧
    stops (.lda h o) h s t a [0] permR (2 ^ o.size.toNat) .load true va ∧ stops (.str h o) h s t a [0] permW (2 ^ o.size.toNat) .store true va ∧
    (∀ n x, o.b = .c n → (getC t n).tag = true → reaches s t a o.off [0, 1] permW 32 .store false va x → tagStops h o s t va x (getC t n))) ∧
  (∀ p ∈ [Instr.aadd, .aand, .aor, .axor, .amin, .amax, .aminn, .amaxn, .aswap, .acas, .afadd], ∀ h (o : AtomOps) s t va z,
    Runs h s t → s.host.on1.getLsbD 10 = true → z = (if o.w64 then 8 else 4) → va = capCursor (getC t o.a).bits + o.off.signExtend 64 →
    (∀ c d, checkCap (getC t o.a) [0] (permR ||| permW) va z = .error (.trap c d) → exec (p h o) s = .next (takeTrap (!h.s) s c d)) ∧
    (checkCap (getC t o.a) [0] (permR ||| permW) va z = .ok () →
      (va.toNat % z ≠ 0 → trapsAt (p h o) h s tMisaligned va) ∧
      (va.toNat % z = 0 →
        (∀ s1, translate s s.cur.core t.id.ctx va.toNat .atomic = .wait s1 → exec (p h o) s = .next s1) ∧
        (∀ c s1, translate s s.cur.core t.id.ctx va.toNat .atomic = .fault c s1 →
          exec (p h o) s = .next (takeTrap (!h.s) s1 c ((va.extractLsb' 0 57).setWidth 64))) ∧
        (∀ x, translate s s.cur.core t.id.ctx va.toNat .atomic = .hit x s → x.rd = false → byteHeld s t.id.ctx x true = true →
          exec (p h o) s = .next s))))
/-- R290: the five checks of a capability, in their order, and their causes. -/
def Obligations.CapabilityChecks : Prop :=
  ∀ (r : CReg) kinds p (a : W64) z,
    let fails (c : Cause) := checkCap r kinds p a z = .error (.trap tCap (BitVec.ofNat 7 c.code ++ a.extractLsb' 0 57))
    (r.tag = false → fails .tag) ∧
    (r.tag = true → capKind r.bits ∉ kinds → fails .kind) ∧
    (r.tag = true → capKind r.bits ∈ kinds → capSeal r.bits ≠ 0 → fails .seal) ∧
    (r.tag = true → capKind r.bits ∈ kinds → capSeal r.bits = 0 → capPerms r.bits &&& p ≠ p → fails .permission) ∧
    (r.tag = true → capKind r.bits ∈ kinds → capSeal r.bits = 0 → capPerms r.bits &&& p = p →
      (capBase r.bits ≤ a.toNat ∧ a.toNat + z ≤ capLimit r.bits → checkCap r kinds p a z = .ok ()) ∧
      (¬(capBase r.bits ≤ a.toNat ∧ a.toNat + z ≤ capLimit r.bits) → fails .bounds))
/-- R87, R88: the core's TLB translates before the cluster's, whose entry it then takes over; without an entry the access
waits, its miss recorded for the service core. -/
def Obligations.TranslationByTlbs : Prop :=
  ∀ s k ctx va need, (Machine.core s k).missEnd = [] →
    (∀ e, tlbFind (Machine.core s k).tlb ctx va = some e → translate s k ctx va need = useEntry s (clusterOf k) k e va need) ∧
    (∀ e, tlbFind (Machine.core s k).tlb ctx va = none → tlbFind (cluster s (clusterOf k)).tlb ctx va = some e →
      translate s k ctx va need = useEntry (installCore s k e) (clusterOf k) k e va need) ∧
    (tlbFind (Machine.core s k).tlb ctx va = none → tlbFind (cluster s (clusterOf k)).tlb ctx va = none →
      translate s k ctx va need = .wait (sendMiss s (clusterOf k) (some k) ctx va need.kind))

/-! ## Streams -/

/-- R408, R409, R411, R311, R313: a linear SDEF, one of no bytes too, a SDEF, SDEFW and SDEFS through a legal descriptor, SLD and SST
of one entry, SRD of a skip list, and of a stream it does not read: the definitions take effect behind the execute words still to run, the walks advance by what they moved. -/
def Sys2Proof.Claims.StreamWords : Prop :=
  (∀ h (o : SdefOps) s t u, Runs h s t → o.b = 0 → checkHandle (getC t o.a) [0, 1] 0 = .ok () →
    capBase (getC t o.a).bits ≤ curOf (getC t o.a) → curOf (getC t o.a) < capLimit (getC t o.a).bits →
    curOf (getC t o.a) % ((elemBitsOf o.fmt + 7) / 8) = 0 →
    defineStream t o.d { kind := .strided [] [], cap := (getC t o.a).bits, ebits := elemBitsOf o.fmt, count :=
      (capLimit (getC t o.a).bits - curOf (getC t o.a)) * 8 / elemBitsOf o.fmt, pos := 0 } = .ok u →
    exec (.sdef h o) s = .next (doneWith h s u)) ∧
  (∀ h (o : SdefOps) s t u, Runs h s t → o.b = 0 → checkHandle (getC t o.a) [0, 1] 0 = .ok () →
    capLimit (getC t o.a).bits ≤ curOf (getC t o.a) →
    defineStream t o.d { kind := .strided [] [], cap := (getC t o.a).bits, ebits := elemBitsOf o.fmt, count := 0, pos := 0 } = .ok u →
    exec (.sdef h o) s = .next (doneWith h s u)) ∧
  (∀ h (o : SldOps) s t d, Runs h s t → accessStream t o.a = some d →
    (isElems d.kind = true → exec (.srd h o) s = .next (takeTrap (!h.s) s tCap (capDetail .kind (capCursor d.cap)))) ∧
    (∀ e, d.kind = .skip (some e) → (getL t o.d).length + 1 ≤ 32 → exec (.srd h o) s =
      .next (doneWith h s (setL (setAccessStream t o.a { d with kind := .skip none }) o.d (getL t o.d ++ [e.setWidth 128])))) ∧
    (d.kind = .skip none → d.count ≤ d.pos → (getL t o.d).length + 1 ≤ 32 → exec (.srd h o) s =
      .next (doneWith h s (setL t o.d (getL t o.d ++ [BitVec.allOnes 128])))) ∧
    (∀ v s1, d.kind = .skip none → d.pos < d.count → (getL t o.d).length + 1 ≤ 32 →
      checkCap ⟨d.cap, true⟩ [1] permR (BitVec.ofNat 64 ((capCursor d.cap).toNat + 2 * d.pos)) 2 = .ok () →
      aLoad (whoOf s.cur.core t) d.cap ((capCursor d.cap).toNat + 2 * d.pos) 2 s = .ok (v, s1) → exec (.srd h o) s =
      .next (doneAt h s1 (setL (setAccessStream t o.a { d with pos := d.pos + 1 }) o.d (getL t o.d ++ [(BitVec.ofNat 16 v).setWidth 128]))))) ∧
  (∀ h (o : SdefOps) s t d s1 u, Runs h s t → o.b ≠ 0 → checkHandle (getC t o.a) [0, 1] 0 = .ok () →
    sdefStrided (whoOf s.cur.core t) (getC t o.a) (getC t o.b) (elemBitsOf o.fmt) s = .ok (d, s1) → defineStream t o.d d = .ok u →
    exec (.sdef h o) s = .next (doneAt h s1 u)) ∧
  (∀ h (o : SdefwOps) s t bs s1 e u, Runs h s t → checkHandle (getC t o.a) [0, 1] 0 = .ok () →
    aDesc (whoOf s.cur.core t) (getC t o.b) s = .ok (bs, s1) → windowOk (windowOf bs) (byteAt bs 22) = true → zeroBytes bs 23 41 = true →
    e = (match byteAt bs 22 with | 2 => 4 | 3 => 1 | _ => 2) → capBase (getC t o.a).bits ≤ curOf (getC t o.a) →
    curOf (getC t o.a) + (windowOf bs).H * (windowOf bs).W * (windowOf bs).C * e ≤ capLimit (getC t o.a).bits →
    defineStream t o.d { kind := .window (windowOf bs), cap := (getC t o.a).bits, ebits := 8 * e, count :=
      (windowOf bs).NP * ((windowOf bs).KH * (windowOf bs).KW * (windowOf bs).C), pos := 0 } = .ok u →
    exec (.sdefw h o) s = .next (doneAt h s1 u)) ∧
  (∀ h (o : SdefsOps) s t u, Runs h s t → s.host.on1.getLsbD 13 = true → checkHandle (getC t o.a) [1] permR = .ok () → curOf (getC t o.a) % 2 = 0 →
    capLimit (getC t o.a).bits % 2 = 0 →
    defineStream t o.d { kind := .skip none, cap := (getC t o.a).bits, ebits := 16, count :=
      (capLimit (getC t o.a).bits - curOf (getC t o.a)) / 2, pos := 0 } = .ok u →
    exec (.sdefs h o) s = .next (doneWith h s u)) ∧
  (∀ h (o : SldOps) s t d vs s1, Runs h s t → accessStream t o.a = some d → isElems d.kind = true →
    (getL t o.d).length < 32 →
    aElems (whoOf s.cur.core t) d d.pos (128 / d.ebits) s = .ok (vs, s1) →
    exec (.sld h o) s = .next (doneAt h s1 (setL (setAccessStream t o.a { d with pos := d.pos + 128 / d.ebits }) o.d
      (getL t o.d ++ [BitVec.ofNat 128 (packElems d.ebits vs)])))) ∧
  (∀ h (o : SstOps) s t d v u s1, Runs h s t → accessStream t o.d = some d → isStrided d.kind = true →
    readOpd t o.a = .ok (v, u) →
    aElemsStore (whoOf s.cur.core t) d d.pos (splitElems d.ebits v.toNat (128 / d.ebits)) s = .ok ((), s1) →
    exec (.sst h o) s = .next (doneAt h s1 (setAccessStream u o.d { d with pos := d.pos + 128 / d.ebits })))
/-- R295: a definition made while execute words wait takes its place behind them, at most two definitions of a stream are in use by
words still to run, so a third waits, and with nothing waiting it is the register at once. -/
def Sys2Proof.Claims.StreamDefinitionOrder : Prop :=
  ∀ t n d, (t.slice = [] → defineStream t n d = .ok (setS t n (some d))) ∧
    (pendingDef n t.slice = none → defsInUse n false t.slice ≤ 1) ∧
    (t.slice ≠ [] → defsInUse n false t.slice < 2 → ∃ u, defineStream t n d = .ok u ∧ u.slice = t.slice ++ [.sdef n d] ∧
      getS u n = getS t n ∧ accessStream u n = some d ∧ ∀ m, m ≠ n → accessStream u m = accessStream t m) ∧
    (t.slice ≠ [] → 2 ≤ defsInUse n false t.slice → defineStream t n d = .error .wait)
/-- R408, R409, R411, R295, R311, R313: the definitions of streams, one of no elements too, and their single-entry moves, SRD on every
kind of stream among them, and the order of definitions with the execute words before them. -/
def Obligations.StreamInstructions : Prop := Claims.StreamWords ∧ Claims.StreamDefinitionOrder
/-! ## Fences, caches, scratch, atomics -/

/-- R113, R122, R412-R414, R14: a FENCE completes once the ports to the peers written to can acknowledge, and waits till then: below
.sys with its predicate true, at .sys with whether no such write was given up and no such peer is lost; line maintenance does what its name says to every range of its capability; SPALLOC pins the lines of its capability, or answers
false and pins none; SPFREE frees them. -/
def Obligations.FencesAndLines : Prop :=
  (∀ h (o : FenceOps) s t, Runs h s t → o.scope ≠ 5 → writesWait s s.cur.core t.id.ctx = false →
    exec (.fence h o) s = .next (doneAt h (ackPorts (fenceOp s s.cur.core t.id.ctx o.scope) s.cur.core) (setP t o.d true))) ∧
  (∀ h (o : FenceOps) s t, Runs h s t → writesWait s s.cur.core t.id.ctx = true → exec (.fence h o) s = .next s) ∧
  (∀ h (o : FenceOps) s t, Runs h s t → o.scope = 5 → writesWait s s.cur.core t.id.ctx = false →
    exec (.fence h o) s = .next (doneAt h (setCur (ackPorts (fenceOp s s.cur.core t.id.ctx 5) s.cur.core) (afterFence s t))
      (setP (afterFence s t) o.d (decide (t.opn.lostWrite = false ∧ ∀ p ∈ t.opn.peers, peerLost s p = false))))) ∧
  (∀ h (o : LineOps) s t lo hi, Runs h s t → lo = curOf (getC t o.a) → hi = capLimit (getC t o.a).bits →
    capBase (getC t o.a).bits ≤ lo →
    (∀ rs s1, checkHandle (getC t o.a) [0] permR = .ok () →
      aSpans (whoOf s.cur.core t) .load (fun e => permits e .load) ((hi - lo) / 65536 + 2) lo hi s = .ok (rs, s1) →
      exec (.clean h o) s = .next (doneAt h (claimFlits s.cur.core s1 (rs.foldl (fun s r => maintRange ⟨true, false⟩ s.cur.core o.scope r s) s1)) t)) ∧
    (∀ rs s1, checkHandle (getC t o.a) [0] permW = .ok () → lo % 256 = 0 → hi % 256 = 0 →
      aSpans (whoOf s.cur.core t) .store (fun e => permits e .store) ((hi - lo) / 65536 + 2) lo hi s = .ok (rs, s1) →
      exec (.inval h o) s = .next (doneAt h (claimFlits s.cur.core s1 (rs.foldl (fun s r => maintRange ⟨false, true⟩ s.cur.core o.scope r s) s1)) t)) ∧
    (∀ rs s1, checkHandle (getC t o.a) [0] (permR ||| permW) = .ok () →
      aSpans (whoOf s.cur.core t) .atomic (fun e => permits e .atomic) ((hi - lo) / 65536 + 2) lo hi s = .ok (rs, s1) →
      exec (.flush h o) s = .next (doneAt h (claimFlits s.cur.core s1 (rs.foldl (fun s r => maintRange ⟨true, true⟩ s.cur.core o.scope r s) s1)) t))) ∧
  (∀ h (o : SpOps) s t ls new, Runs h s t → aLines (getC t o.a) s = .ok (ls, s) → new = ls.filter (fun l => !t.opn.scratch.contains l) →
    (new.any (fun l => (Machine.core s s.cur.core).pinned.contains l) = false →
      (∀ l ∈ new, pinnedWays (Machine.core s s.cur.core) (l % 64) (t.opn.scratch ++ new) ≤ 15) →
      exec (.spalloc h o) s = .next (doneAt h (pinLines s s.cur.core (t.opn.scratch ++ new) new)
        (setP { t with opn := { t.opn with scratch := t.opn.scratch ++ new } } o.d true))) ∧
    ((∃ l ∈ new, 15 < pinnedWays (Machine.core s s.cur.core) (l % 64) (t.opn.scratch ++ new)) ∨
        new.any (fun l => (Machine.core s s.cur.core).pinned.contains l) = true →
      exec (.spalloc h o) s = .next (doneWith h s (setP t o.d false)))) ∧
  (∀ h (o : SpOps) s t ls mine, Runs h s t → aLines (getC t o.a) s = .ok (ls, s) → mine = ls.filter (fun l => t.opn.scratch.contains l) →
    exec (.spfree h o) s = .next (doneAt h (setCore s s.cur.core (freeLines (Machine.core s s.cur.core) mine))
      { t with opn := { t.opn with scratch := t.opn.scratch.filter (fun l => !mine.contains l) } }))

/-- The new value of an atomic (R125, R127) from the width in bits, the old value, B and C. -/
def Sys2Proof.Claims.atomics : List ((Hdr → AtomOps → Instr) × Bool × (Nat → Nat → Nat → Nat → Nat)) :=
  [(.aadd, false, fun _ a b _ => a + b), (.aand, false, fun _ a b _ => a &&& b), (.aor, false, fun _ a b _ => a ||| b),
   (.axor, false, fun _ a b _ => a ^^^ b), (.amin, true, fun n a b _ => if signed n a ≤ signed n b then a else b),
   (.amax, true, fun n a b _ => if signed n a ≤ signed n b then b else a), (.aminn, false, fun _ a b _ => if a ≤ b then a else b),
   (.amaxn, false, fun _ a b _ => if a ≤ b then b else a), (.aswap, false, fun _ _ b _ => b),
   (.acas, false, fun _ a b c => if a = b then c else a), (.afadd, false, fun _ a b _ => sum32 a b)]
/-- The state before an atomic's read: the core's line written back, its copy dropped; with .acq the sector's releases seen; the
core's earlier stores to the home performed, and the sector fetched. -/
def Sys2Proof.Claims.beforeRead (s : State) (k : Nat) (ctx : BitVec 12) (acq : Bool) (x : Xlat) : State :=
  let s1 := beforeAtomic s k (x.pa / 64)
  reachHome (if acq then drainRecords s1 k (x.pa / 64) else s1) k ctx x
/-- The state after an atomic's release, its write of `v`, and its acquire. -/
def Sys2Proof.Claims.afterWrite (s : State) (k : Nat) (ctx : BitVec 12) (acq rel : Bool) (scope : BitVec 3) (x : Xlat) (z v : Nat) : State :=
  let s1 := if rel then releaseAt s k ctx scope (x.pa / 64) else s
  let s2 := notePeer (mergeHome s1 k ctx x z v) k x
  if acq then acquireLocal s2 k scope else s2
/-- R125-R127, R115, R105, R106, R112: an atomic reads the old value at the home, writes the new one there, orders what its flags
say (on a UN page nothing), and gives D the old value, sign-extended for AMIN and AMAX. -/
def Sys2Proof.Claims.Atomics : Prop :=
  ∀ p ∈ atomics, ∀ h (o : AtomOps) s t va x z acq rel s1 old, Runs h s t → s.host.on1.getLsbD 10 = true → z = (if o.w64 then 8 else 4) →
    reaches s t (getC t o.a) o.off [0] (permR ||| permW) z .atomic true va x →
    acq = (o.order.getLsbD 0 && !x.un) → rel = (o.order.getLsbD 1 && !x.un) →
    orderWaits s (whoOf s.cur.core t) (x.pa / 64) acq rel o.scope = false →
    s1 = beforeRead s s.cur.core t.id.ctx acq x → (atHome s1 x).poison = false → old = secBytes (atHome s1 x).data (x.pa % 64) z →
    exec (p.1 h o) s = .next (doneAt h (afterWrite s1 s.cur.core t.id.ctx acq rel o.scope x z
        (p.2.2 (8 * z) old ((readCI t o.b).toNat % 256 ^ z) ((readCI t o.c).toNat % 256 ^ z) % 256 ^ z))
      (setData t o.d (if p.2.1 then BitVec.ofInt 64 (signed (8 * z) old) else BitVec.ofNat 64 old)))
/-- R128-R131: RADD adds to the core's slot of a reduction word at its home; RCLR clears the 4,096 bytes of one; a 4-byte load at a
word's base gives the sum of its slots. -/
def Sys2Proof.Claims.ReductionWords : Prop :=
  (∀ h (o : RedOps) s t x s1, Runs h s t → s.host.on1.getLsbD 11 = true → s.cur.core < 1024 →
    aRedWord (whoOf s.cur.core t) o t (4 * s.cur.core) 4 s = .ok (x, s1) →
    exec (.radd h o) s = .next (doneAt h (mergeHome s1 s.cur.core t.id.ctx { x with pa := x.pa + 4 * s.cur.core } 4
      (sum32 (slotValue s1.mem x.pa s.cur.core) ((readCI t o.b).toNat % 2 ^ 32))) t)) ∧
  (∀ h (o : RedOps) s t x s1, Runs h s t → s.host.on1.getLsbD 11 = true → aRedWord (whoOf s.cur.core t) o t 0 4096 s = .ok (x, s1) →
    exec (.rclr h o) s = .next (doneAt h ((List.range 64).foldl (fun s i =>
      performAt (chargeWrite s t.id.ctx (x.pa / 64 + i)) (some s.cur.core) t.id.ctx (x.pa / 64 + i) 0 (BitVec.allOnes 64) 0 3 true)
      (orderHome s1 s.cur.core x)) t)) ∧
  (∀ h (o : MemOps) s t va x s1 u, Runs h s t → va = memAddr (getC t o.a) o.off → o.size = 2 → o.sx = false → va.toNat % 4096 = 0 →
    s.host.on1.getLsbD 11 = true →
    checkCap (getC t o.a) [0] permR va 4096 = .ok () → translate s s.cur.core t.id.ctx va.toNat .load = .hit x s → x.rd = true →
    accessHeld s (whoOf s.cur.core t) x true = false → s1 = wordFill (whoOf s.cur.core t) x.pa s → wordPoison s1.mem x.pa = false →
    writeOpd t o.d (widen 4 false (wordSum s1.mem x.pa 1024)) = .ok u → exec (.ld h o) s = .next (doneAt h s1 u))
/-- R125-R130, R115, R105, R106: the atomics, and the reduction words. -/
def Obligations.AtomicsAndReductions : Prop := Claims.Atomics ∧ Claims.ReductionWords
/-! ## Stock counters, phasers, event queues, messages -/

/-- R143-R151: a stock instruction whose request has been answered completes with the answer; a take the allowance covers, a
take of 0, a give and, outside a recall, an approximate read behind the core's own gives complete at once. -/
def Sys2Proof.Claims.StockWords : Prop :=
  (∀ h (o : StkOps) s t id v, Runs h s t → t.blockA = .request id (some v) →
    exec (.stkinit h o) s = .next (doneWith h s (setP t o.pd (v != 0))) ∧
    exec (.stktake h o) s = .next (doneWith h s (setP t o.pd (v != 0))) ∧
    exec (.stkreadExact h o) s = .next (doneWith h s (setData t o.cd (v.setWidth 64)))) ∧
  (∀ h (o : StkOps) s t n e, Runs h s t → t.blockA = .none → stockHandle (getC t o.a) permW = .ok n →
    s.cur.core < 1024 → allowOf s s.cur.core t.id.ctx n = some e →
    0 < (readCI t o.b).toNat → (readCI t o.b).toNat < 2 ^ 47 → (readCI t o.b).toNat ≤ e.a →
    exec (.stktake h o) s = .next (doneWith h (putAllow s s.cur.core { e with a := e.a - (readCI t o.b).toNat }) (setP t o.pd true))) ∧
  (∀ h (o : StkOps) s t n, Runs h s t → t.blockA = .none → stockHandle (getC t o.a) permW = .ok n →
    readCI t o.b = 0 → exec (.stktake h o) s = .next (doneWith h s (setP t o.pd true))) ∧
  (∀ h (o : StkOps) s t n, Runs h s t → stockHandle (getC t o.a) permW = .ok n →
    exec (.stkgive h o) s = .next (doneWith h (giveTo s s.cur.core t.id.ctx n (readCI t o.b).toNat) t)) ∧
  (∀ h (o : StkOps) s t n s1, Runs h s t → t.blockA = .none → stockHandle (getC t o.a) permR = .ok n →
    mayUse s s.cur.core t.id.ctx n = true → (ctrOf s n).recalling = none →
    s1 = arrive s (n / 4096) (fun r => r.core == s.cur.core && r.ctr == n) →
    exec (.stkreadApprox h o) s = .next (doneWith h s1 (setData t o.cd
      (BitVec.ofBool (ctrOf s1 n).overfill ++ 0#16 ++ BitVec.ofNat 47 (min (ctrOf s1 n).h (2 ^ 47 - 1)))))) ∧
  (∀ h (o : StkOps) s t n, Runs h s t → t.blockA = .none → mayUse s s.cur.core t.id.ctx n = false →
    (stockHandle (getC t o.a) permX = .ok n → exec (.stkinit h o) s = .next (doneWith h s (setP t o.pd false))) ∧
    (stockHandle (getC t o.a) permR = .ok n → exec (.stkreadExact h o) s = .next (doneWith h s (setData t o.cd (0 : W64))) ∧
      exec (.stkreadApprox h o) s = .next (doneWith h s (setData t o.cd (0 : W64)))))
/-- R145-R147, R152: a stock instruction that needs its home is a request in the counter's queue, and the thread waits for it; a
take hands the units of its allowance over and pins it; a local take that the allowance does not cover is false at once. -/
def Sys2Proof.Claims.StockRequests : Prop :=
  ∀ h (o : StkOps) s t n, Runs h s t → t.blockA = .none → mayUse s s.cur.core t.id.ctx n = true →
    let r (op : StockOp) : StockReq := { op := op, core := s.cur.core, ctx := t.id.ctx, req := s.sched.nextReq }
    let asked (s : State) := setCur { s with sched := { s.sched with nextReq := s.sched.nextReq + 1 } } { t with blockA := .request s.sched.nextReq none }
    (stockHandle (getC t o.a) permX = .ok n →
      exec (.stkinit h o) s = .next (sendStock (asked s) n 0 (r (.init (readCI t o.b).toNat (readCI t o.c).toNat)))) ∧
    (stockHandle (getC t o.a) permR = .ok n → exec (.stkreadExact h o) s = .next (sendStock (asked s) n 0 (r .readExact))) ∧
    (∀ e, stockHandle (getC t o.a) permW = .ok n → s.cur.core < 1024 → allowOf s s.cur.core t.id.ctx n = some e →
      e.a < (readCI t o.b).toNat → (readCI t o.b).toNat < 2 ^ 47 →
      (o.isLocal = true → exec (.stktake h o) s = .next (doneWith h s (setP t o.pd false))) ∧
      (o.isLocal = false → exec (.stktake h o) s = .next (sendStock (asked (putAllow s s.cur.core { e with a := 0, pinned := true }))
        n e.a (r (.take (readCI t o.b).toNat e.a true)))))
/-- R143-R152: the stock instructions, answered at once or by a request to the home. -/
def Obligations.StockInstructions : Prop := Claims.StockWords ∧ Claims.StockRequests
/-- R133-R138, R14: a phaser instruction on a phaser of the context it may use: registering, dropping, signalling (once the
release can be performed), waiting for a phase that has passed, expecting. -/
def Sys2Proof.Claims.PhaserWords : Prop :=
  ∀ h (o : PhOps) s t i p, Runs h s t → phCheck (getC t o.a) t s = .ok (i, p) →
    (memberOf p t.id = none → p.members.length < 256 → phGet s i = some p →
      exec (.phreg h o) s = .next (doneWith h (phSet s i { p with members := p.members ++
        [⟨t.id.frame, t.id.stage, t.id.coord, modeOf o.mode, false, []⟩] }) (setData t o.cd (p.phase.setWidth 64)))) ∧
    (memberOf p t.id ≠ none →
      exec (.phdrop h o) s = .next (doneAt h (phArrive s i { p with members := p.members.filter (fun m => !isMember t.id m) }) t)) ∧
    (maySignal (memberOf p t.id) = true → signalled p t.id = false → drainWaits s s.cur.core t.id.ctx = false →
      exec (.phsig h o) s = .next (doneAt h (phSignal false i p t s) t) ∧
      exec (.phgather h o) s = .next (doneAt h (phSignal true i p t s) t)) ∧
    (mayWait (memberOf p t.id) = true → passed p ((readCI t o.b).setWidth 32) = true →
      exec (.phwait h o) s = .next (doneWith h (acquireLocal (setWaiting none s i t.id) s.cur.core (phScope i))
        (setData t o.cd (p.phase.setWidth 64)))) ∧
    (∀ q, mayWait (memberOf p t.id) = true → t.blockA = .signalled q → passed p q = true →
      exec (.phsw h o) s = .next (doneWith h (acquireLocal (setWaiting none s i t.id) s.cur.core (phScope i))
        (setData t o.cd (p.phase.setWidth 64)))) ∧
    (memberOf p t.id ≠ none → (readCI t o.b).toNat < 2 ^ 47 → p.pending + (readCI t o.b).toNat < 2 ^ 47 →
      exec (.phexp h o) s = .next (doneWith h (phSet s i { p with pending := p.pending + (readCI t o.b).toNat }) (setP t o.pd true)))
/-- R137, R287: an arrival that leaves a phaser not full stays in it; one that makes it full advances the phase by one, and
every member starts the new phase without a signal. -/
def Sys2Proof.Claims.PhaserAdvance : Prop :=
  (∀ s i p, phFull p = false → phArrive s i p = phSet s i p) ∧
  (∀ s i p, phFull p = true → p.gather = none →
    ∃ q, phArrive s i p = phSet s i q ∧ q.phase = p.phase + 1 ∧ q.pending = p.pending ∧ q.frame = p.frame ∧ q.ctx = p.ctx ∧
      q.sums = List.replicate 8 0 ∧ q.contributors = 0 ∧ q.members.length = p.members.length ∧ ∀ m ∈ q.members, m.signalled = false)
/-- R133-R138, R287: the phaser instructions, and when a phase advances. -/
def Obligations.PhaserInstructions : Prop := Claims.PhaserWords ∧ Claims.PhaserAdvance
/-- A record as the entries of a load queue: its 32 bytes, 16 an entry. -/
def Sys2Proof.Claims.recordEntries (r : List Byte) : List W128 := [BitVec.ofNat 128 (leNat (r.take 16)), BitVec.ofNat 128 (leNat (r.drop 16))]
/-- R417: EVPOP and EVWAIT take or await the record of the context's event queue that is theirs, the head or, behind EVPOPs that came
first, the one that is left for them, and are an acquire at the record's scope; EVPEEK shows it, or zero, and takes nothing. An
instruction that finds none takes its place behind those that wait, and keeps it. -/
def Sys2Proof.Claims.EventQueues : Prop :=
  ∀ h (o : EvOps) s t cl k c l n, Runs h s t → evHandle (getC t o.a) = .ok cl → k = s.cur.core → c = t.id.ctx → l = evWaitsOf s c cl →
    n = evAhead k l →
    (l = [] → n = 0) ∧
    (∀ e r, (eventsOf s c cl).drop n = e :: r →
      exec (.evwait h o) s = .next (doneWith h (acquireLocal (leaveEvents s k c) k e.scope) t) ∧
      (∀ u, ((∃ m, o.d = .c m ∧ u = setC t m ⟨eventReg e, false⟩) ∨
          (∃ m, o.d = .l m ∧ (getL t m).length + 2 ≤ 32 ∧ u = setL t m (getL t m ++ recordEntries (eventBytes e)))) →
        exec (.evpop h o) s =
          .next (doneWith h (acquireLocal (leaveEvents (setEvents s c cl ((eventsOf s c cl).take n ++ r)) k c) k e.scope) u) ∧
        exec (.evpeek h o) s = .next (doneWith h s u))) ∧
    ((eventsOf s c cl).drop n = [] →
      (∀ m, o.d = .c m → exec (.evpeek h o) s = .next (doneWith h s (setC t m ⟨0, false⟩))) ∧
      (h.p = false → t.safe = none → l.any (·.1 == k) = true → exec (.evwait h o) s = .next (setCur s t) ∧ exec (.evpop h o) s = .next (setCur s t)) ∧
      (h.p = false → t.safe = none → l.any (·.1 == k) = false →
        exec (.evwait h o) s = .next (setEvWaits (setCur s t) c cl (l ++ [(k, false)])) ∧
        exec (.evpop h o) s = .next (setEvWaits (setCur s t) c cl (l ++ [(k, true)]))))

/-- The engine commands (R450, R457, R169, R174, R421): the kinds of their reply handle, their checks of A and B, and the
engine that takes them. -/
def Sys2Proof.Claims.commands : List ((Hdr → EngOps → Instr) × List Nat × (EngOps → Thread → Except Stop Unit) ×
    (EngOps → Thread → Except Stop Unit) × (EngOps → Thread → State → EngineId)) :=
  let copyTo (_ : EngOps) (_ : Thread) (s : State) : EngineId := .copy (clusterOf s.cur.core)
  let joiner (_ : EngOps) (_ : Thread) (s : State) : EngineId := .joiner (clusterOf s.cur.core)
  let seq (p : BitVec 7) (o : EngOps) (t : Thread) : Except Stop Unit := checkHandle (getC t o.a) [6] (p ||| permE)
  let ok (_ : EngOps) (_ : Thread) : Except Stop Unit := .ok ()
  let mem (p : BitVec 7) (o : EngOps) (t : Thread) : Except Stop Unit := checkHandle (regOf t o.b) [0] (p ||| permE)
  let record (r : CReg) : Except Stop Unit := checkHandle r [0] (permR ||| permC ||| permE)
  [(.cpy, [3, 4, 7], (fun o => aCap o permW), (fun o => bCap o permR), copyTo),
   (.cpy2d, [3, 4, 7], (fun o => aCap o (permR ||| permC)), ok, copyTo), (.cprot, [3, 4, 7], (fun o t => checkCap (getC t o.a) [6] (permW ||| permE) (capCursor (getC t o.a).bits) 0), ok, copyTo),
   (.cpfill, [3, 4, 7], (fun o => aCap o permW), ok, copyTo),
   (.kvapp, [3, 7], seq permW, mem permR, toKiln), (.kvseal, [3, 7], seq permW, ok, toKiln), (.kvpatch, [3, 7], seq permW, mem permR, toKiln),
   (.kvfork, [3, 7], seq (permR ||| permW), mem (permR ||| permW ||| permC), toKiln), (.kvtrunc, [3, 7], seq permW, ok, toKiln),
   (.kvstat, [3, 7], seq permR, mem permW, toKiln), (.kvjopen, [3, 7], seq (permR ||| permW), ok, toKiln), (.kvjmark, [3, 7], seq permW, ok, toKiln),
   (.kvjundo, [3, 7], seq permW, ok, toKiln), (.kvjclose, [3, 7], seq permW, ok, toKiln), (.edins, [3, 7], seq permW, ok, toScribe),
   (.eddel, [3, 7], seq permW, ok, toScribe), (.edrep, [3, 7], seq permW, ok, toScribe), (.settle, [3, 7], seq permR, ok, toScribe),
   (.wmark, [3, 7], seq permW, ok, toScribe), (.raise, [3, 7], (fun o t => record (getC t o.a)), ok, joiner),
   (.rebind, [3, 7], (fun o t => checkHandle (getC t o.a) [3] permE), (fun o t => record (regOf t o.b)), joiner),
   (.withdraw, [3, 7], ok, ok, joiner)]
/-- R450, R451, R118, R14: a command whose checks of D, A and B pass goes to its engine's inbox, after the release its REL asks
for, and the word is done; with a full inbox, or while the release waits for a port, it changes nothing. -/
def Sys2Proof.Claims.CommandsPost : Prop :=
  ∀ p ∈ commands, ∀ h (o : EngOps) s t, Runs h s t → replyCheck t o.d p.2.1 = .ok () → p.2.2.1 o t = .ok () → p.2.2.2.1 o t = .ok () →
    (∀ s', releaseWaits o.rel s.cur.core t.id.ctx s = false →
      pushInbox (releaseFor o.rel s.cur.core t.id.ctx s) (p.2.2.2.2 o t s) (cmdOf (p.1 h o) o t s) = some s' →
      exec (p.1 h o) s = .next (doneAt h s' t)) ∧
    (releaseWaits o.rel s.cur.core t.id.ctx s = true ∨
        pushInbox (releaseFor o.rel s.cur.core t.id.ctx s) (p.2.2.2.2 o t s) (cmdOf (p.1 h o) o t s) = none →
      exec (p.1 h o) s = .next s)
/-- R418: the body of a SEND, with the tags of its slots: none with B = c0 and no length, else what B's capability of kind 0 shows. -/
def Sys2Proof.Claims.bodyOf (o : EngOps) (s : State) (t : Thread) (n : Nat) (body : List Byte) (tags : List Bool) (s1 : State) : Prop :=
  (o.b = .c 0 ∧ n = 0 ∧ body = [] ∧ tags = [] ∧ s1 = s) ∨
  ((∃ r, o.b = .c r ∧ (r ≠ 0 ∨ n ≠ 0)) ∧ aBody (whoOf s.cur.core t) (regOf t o.b) n s = .ok ((body, tags), s1))
/-- R418, R290, R291: the 32 bytes at an aligned cursor, with the tag that LDC would give; a tagged slot needs E. -/
def Sys2Proof.Claims.BodyReads : Prop :=
  ∀ s t (b : CReg) va x d s1, va = curOf b → checkCap b [0] permR (capCursor b.bits) 32 = .ok () → va % 32 = 0 →
    translate s s.cur.core t.id.ctx va .load = .hit x s → x.rd = false → accessHeld s (whoOf s.cur.core t) x false = false →
    loadSector s s.cur.core t.id.ctx x = (d, s1) → d.poison = false →
    let read (d : L2Sector) := secBytes d.data (va % 64)
    (hasPerm b.bits permC = false → aBody (whoOf s.cur.core t) b 32 s = .ok ((toBytes 32 (read d 32), [false]), s1)) ∧
    (∀ d2 s2 tag, hasPerm b.bits permC = true → translate s1 s.cur.core t.id.ctx va .load = .hit x s1 →
      accessHeld s1 (whoOf s.cur.core t) x false = false → loadSector s1 s.cur.core t.id.ctx x = (d2, s2) → d2.poison = false →
      tag = (x.ct && d2.tags.getLsbD (va % 64 / 32)) →
      ((tag = true → hasPerm (BitVec.ofNat 192 (read d2 24)) permE = true) →
        aBody (whoOf s.cur.core t) b 32 s = .ok ((toBytes 32 (read d 32), [tag]), s2)) ∧
      (tag = true → hasPerm (BitVec.ofNat 192 (read d2 24)) permE = false →
        aBody (whoOf s.cur.core t) b 32 s = .error (.trap s2 tCap (capDetail .permission (BitVec.ofNat 64 va)))))
/-- R418-R420: a SEND reads its body, then holds the message with the firing (a deferred one, up to 16, the 17th a capability fault),
or delivers it: an item to a queue, a message of R420 to its engine's inbox; while the queue or the inbox is full, or its release
waits for a port, it waits; a message that R420 does not list completes with 0x0E. -/
def Sys2Proof.Claims.Sends : Prop :=
  BodyReads ∧ ∀ h (o : EngOps) s t body tags s1, Runs h s t →
    let a := getC t o.a
    let op := o.cmd.extractLsb' 18 8
    let len := 16 * (o.cmd.extractLsb' 14 4).toNat
    let k := s.cur.core
    let c := t.id.ctx
    sendTarget a op.toNat len = .ok () → sendReply t o = .ok () → bodyOf o s t (sendLen s a len) body tags s1 →
    let m : Message := { target := a, reply := getC t o.d, acq := o.acq, rel := o.rel, scope := o.scope, tag := o.tag, op := op,
                         body := body, bodyTags := tags }
    let s2 := releaseFor o.rel k c s1
    (releaseWaits o.rel k c s1 = true → (o.cmd.getLsbD 26 = true → t.opn.deferred.length < 16) → exec (.send h o) s = .next s1) ∧
    (o.cmd.getLsbD 26 = true →
      (t.opn.deferred.length < 16 → releaseWaits o.rel k c s1 = false →
        exec (.send h o) s = .next (doneAt h s2 { t with opn := { t.opn with deferred := t.opn.deferred ++ [m] } })) ∧
      (16 ≤ t.opn.deferred.length → exec (.send h o) s = .next (takeTrap (!h.s) s1 tCap (capDetail .bounds (capCursor a.bits))))) ∧
    (o.cmd.getLsbD 26 = false → releaseWaits o.rel k c s1 = false →
      (capKind a.bits = 3 →
        let put := putItem s2 (handleCtx a) (handleFrame a) (handleQueue a) { plainItem body tags with completion := o.rel }
        (∀ s', put = some s' → exec (.send h o) s = .next (doneAt h s' t)) ∧ (put = none → exec (.send h o) s = .next s1)) ∧
      (capKind a.bits = 8 →
        (∀ i, messageInstr (curOf a % 256) op.toNat body.length = some i →
          let put := pushInbox s2 (messageEngine (curOf a % 256) (curOf a / 256 % 64)) (msgCmd k c m i)
          (∀ s', put = some s' → exec (.send h o) s = .next (doneAt h s' t)) ∧ (put = none → exec (.send h o) s = .next s1)) ∧
        (messageInstr (curOf a % 256) op.toNat body.length = none → exec (.send h o) s =
          .next (doneAt h (complete s2 (msgCmd k c m .verdict) (BitVec.ofNat 8 (curOf a % 256)) 0x0E 0 0) t))))
/-- R70, R450: a bank command goes to the inbox of the channel that holds the page of A's cursor. -/
def Sys2Proof.Claims.BankCommandsPost : Prop :=
  ∀ h (o : EngOps) s t pa z s1 s', Runs h s t → replyCheck t o.d [3, 7] = .ok () →
    let w := whoOf s.cur.core t
    let put (i : Instr) := pushInbox s1 (.bank (channelOfPa pa)) { cmdOf i o t s1 with acq := false, pa := pa, page := z } = some s'
    (checkHandle (getC t o.a) [0] (permR ||| permW ||| permE) = .ok () → bankPage o [.load, .store] w t s = .ok ((pa, z), s1) →
      (put (.bkadd h o) → exec (.bkadd h o) s = .next (doneAt h s' t)) ∧ (put (.bkaxpy h o) → exec (.bkaxpy h o) s = .next (doneAt h s' t))) ∧
    (checkHandle (getC t o.a) [0] (permR ||| permW ||| permC ||| permE) = .ok () → bankPage o [.load, .store] w t s = .ok ((pa, z), s1) →
      put (.bkgemv h o) → exec (.bkgemv h o) s = .next (doneAt h s' t)) ∧
    (checkHandle (getC t o.a) [0] (permW ||| permE) = .ok () → bankPage o [.store] w t s = .ok ((pa, z), s1) →
      put (.bkzero h o) → exec (.bkzero h o) s = .next (doneAt h s' t))
/-- R450, R451, R118, R70, R418, R419, R420: every engine command is posted to its engine, a bank command to the channel of its page, and
SEND reads its body and sends or defers its message, to a queue or an inbox, or waits while that is full. -/
def Obligations.EngineCommandsPost : Prop := Claims.CommandsPost ∧ Claims.BankCommandsPost ∧ Claims.Sends
/-- R422: QPEEK shows 8 bytes of the claimed batch without popping them, QCNT counts what is left of it and what stands behind
it, or a queue's items and its room. -/
def Sys2Proof.Claims.QueueReads : Prop :=
  (∀ h d n b s t, Runs h s t → (getInQ t n).used = true → (readCI t b).toNat % 8 = 0 →
    (readCI t b).toNat + 8 ≤ (getInQ t n).bytes.length →
    exec (.qpeek h ⟨d, .i n, b⟩) s = .next (doneWith h s (setData t d
      (BitVec.ofNat 64 (leNat (((getInQ t n).bytes.drop (readCI t b).toNat).take 8)))))) ∧
  (∀ h d n b s t q, Runs h s t → (getInQ t n).used = true → t.id.gang = false → queueOfInput s t n = some q →
    exec (.qcnt h ⟨d, .i n, b⟩) s = .next (doneWith h s (setData t d
      (BitVec.ofNat 32 q.items.length ++ BitVec.ofNat 32 ((getInQ t n).bytes.length - (getInQ t n).pos))))) ∧
  (∀ h d n b s t f q, Runs h s t → checkHandle (getC t n) [3] permW = .ok () →
    findFrame s (handleCtx (getC t n)) (handleFrame (getC t n)) = some f → queueAt f (handleQueue (getC t n)) = some q →
    exec (.qcnt h ⟨d, .c n, b⟩) s = .next (doneWith h s (setData t d (BitVec.ofNat 32 (queueRoom q) ++ BitVec.ofNat 32 q.items.length))))
/-- R417, R422: the instructions that look at and take from event queues, in the order they came to wait, and the queues of a frame. -/
def Obligations.QueuesOfEventsAndFrames : Prop := Claims.EventQueues ∧ Claims.QueueReads
/-! ## Validity, walks of sequences -/

/-- R263, R266, R276-R278, R283: a validity instruction whose request is answered completes with the answer; WHOLD takes its
word into fD, which is pending till then (R297), acquires when ERR is 0, and a lost version traps; WFREE releases the firing's hold. -/
def Obligations.ValidityInstructions : Prop :=
  (∀ h (o : WholdOps) s t id (v : W128), Runs h s t → t.blockA = .request id (some v) → v ≠ BitVec.allOnes 128 →
    ∀ s', s' = (if v.extractLsb' 24 8 = 0 then acquireLocal s s.cur.core 4 else s) →
      exec (.wholdWithin h o) s = .next (doneWith h s' (setF t o.d (.full v))) ∧
      exec (.wholdBefore h o) s = .next (doneWith h s' (setF t o.d (.full v))) ∧
      exec (.wholdAfter h o) s = .next (doneWith h s' (setF t o.d (.full v)))) ∧
  (∀ h (o : WholdOps) s t id, Runs h s t → t.blockA = .request id (some (BitVec.allOnes 128)) →
    exec (.wholdBefore h o) s = .next (takeTrap (!h.s) s tVersion 0)) ∧
  (∀ h (o : WholdOps) s t s', Runs h s t → t.blockA = .none → checkHandle (getC t o.a) [6] permR = .ok () → getF t o.d = .empty →
    let asks (i : Instr) := pushInbox (freshReq s).2 (.scribe (homeOf s t.id.ctx (getC t o.a)))
      { askCmd i (getC t o.a) (regOf t o.b) (toBytes 8 (readCI t o.c).toNat) t s with req := (freshReq s).1 } = some s' →
      exec i s = .next (setCur s' { setF t o.d .pending with blockA := .request (freshReq s).1 none })
    asks (.wholdWithin h o) ∧ asks (.wholdBefore h o) ∧ asks (.wholdAfter h o)) ∧
  (∀ h (o : WdoneOps) s t id (v : W128), Runs h s t → t.blockA = .request id (some v) →
    exec (.wdone h o) s = .next (doneWith h s (setP t o.d (v != 0)))) ∧
  (∀ h (o : WcellOps) s t id (v : W128), Runs h s t → t.blockA = .request id (some v) →
    exec (.wcell h o) s = .next (doneWith h s (setData t o.d ((v.setWidth 64 : W64))))) ∧
  (∀ h (o : WfreeOps) s t, Runs h s t → checkHandle (getC t o.a) [6] 0 = .ok () →
    (seqOfHandle s t.id.ctx (getC t o.a) = none → exec (.wfree h o) s = .next (doneWith h s (setP t o.d false))) ∧
    (∀ q x s', seqOfHandle s t.id.ctx (getC t o.a) = some q →
      (myHolds s t q o.layer.toNat).find? (fun h => h.b == readCI t o.b) = some x →
      pushInbox s (.scribe q.die) (askCmd (.wfree h o) (getC t o.a) cZero (toBytes 8 x.req) t s) = some s' →
      exec (.wfree h o) s = .next (doneAt h (updHolds q (fun y => y.req == x.req) (fun y => { y with freed := true }) s') (setP t o.d true))))
/-- R228, R410, R411: SDEFK defines the walk of a layer, an empty one for a handle of a closed sequence; SRD takes the walk's
next item into a load queue, passing over groups that are gone for good (R230), and all ones behind its end. -/
def Obligations.KilnWalks : Prop :=
  (∀ h (o : SdefkOps) s t lo u, Runs h s t → checkHandle (getC t o.a) [6] permR = .ok () → seqOfHandle s t.id.ctx (getC t o.a) = none →
    lo = ((readCI t o.b).extractLsb' 0 32).toNat → defineStream t o.d (kilnStream (getC t o.a) 0 o.layer.toNat lo lo [] none) = .ok u →
    exec (.sdefk h o) s = .next (doneWith h s u)) ∧
  (∀ h (o : SdefkOps) s t lo hi q d s1 u, Runs h s t → checkHandle (getC t o.a) [6] permR = .ok () → seqOfHandle s t.id.ctx (getC t o.a) = some q →
    lo = ((readCI t o.b).extractLsb' 0 32).toNat → hi = ((readCI t o.b).extractLsb' 32 32).toNat → lo < hi →
    sdefkWalk (getC t o.a) t o.layer.toNat lo hi q s = .ok (some d, s1) → defineStream t o.d d = .ok u →
    exec (.sdefk h o) s = .next (doneAt h s1 u)) ∧
  (∀ h (o : SldOps) s t d id l lo hi gs hold, Runs h s t → accessStream t o.a = some d → d.kind = .kiln id l lo hi gs hold →
    (getL t o.d).length + 2 ≤ 32 →
    (∀ q x y p s1, d.pos < gs.length → seqOf s id = some q → walkNext q l lo hi gs hold d.pos s = .ok (some ((x, y), p), s1) →
      exec (.srd h o) s = .next (doneAt h s1 (pushL (setAccessStream t o.a { d with pos := p }) o.d [x, y]))) ∧
    (∀ q s1, d.pos < gs.length → seqOf s id = some q → walkNext q l lo hi gs hold d.pos s = .ok (none, s1) →
      exec (.srd h o) s = .next (doneAt h s1 (pushL (setAccessStream t o.a { d with pos := gs.length }) o.d
        [BitVec.allOnes 128, BitVec.allOnes 128]))) ∧
    (gs.length ≤ d.pos ∨ seqOf s id = none →
      exec (.srd h o) s = .next (doneWith h s (pushL t o.d [BitVec.allOnes 128, BitVec.allOnes 128]))))

/-! ## The wide unit and the matrix array -/

/-- The wide-unit instructions (R433-R442). -/
def Sys2Proof.Claims.wideOps : List (Hdr → FpOps → Instr) :=
  [.vadd, .vsub, .vmul, .vfma, .vmax, .vmin, .vabs, .vexp2, .vrsqe, .vrcpe, .vcmp, .vsel, .vfill, .vcopy, .vgather, .vscatter, .vcvt,
   .vqnt, .vamax, .vsum, .vdot, .vdelta, .vrope, .vlse]
/-- R296, R435: a wide-unit instruction whose sources and destination pass their checks is dispatched: its scalars captured,
its streams advanced, the instruction with its control bits behind those dispatched before; the execute half goes on. -/
def Obligations.WideDispatch : Prop :=
  ∀ c ∈ wideOps, ∀ h o s t f u, Runs h s t → wForm (c h o) = some f → issueWide (c h o) f s.cur.pc t = .ok u →
    exec (c h o) s = .next (doneWith h s u) ∧ t.wide.length < wideCap ∧ u.regs.c = t.regs.c ∧ u.regs.m = t.regs.m ∧ u.opn.peers = t.opn.peers ∧
    ∃ w, u.wide = t.wide ++ [w] ∧ w.instr = c h o ∧ w.pc = s.cur.pc ∧ w.done = 0 ∧ w.ftz = (ctlOf t f.o).ftz ∧ w.sat = (ctlOf t f.o).sat ∧
      w.cnan = (ctlOf t f.o).cnan ∧ w.rm = rmCode (ctlOf t f.o).rm
/-- R296: the wide unit of a row steps the next non-empty dispatch queue round-robin: the instruction goes on, or is done, its
result delivered and its events counted. -/
def Sys2Proof.Claims.WideUnitStep : Prop :=
  ∀ s row i k t w r o' s1, s.cur.arg = .ix row → k = row * 4 + i →
    ([0, 1, 2, 3].map (fun i => (mget 0 s.wideRr row + i) % 4)).find? (fun i => wideBusy s (row * 4 + i)) = some i →
    (Machine.core s k).orphans = [] → threadOf s k = some t → t.wide = w :: r →
    wideStep (whoOf k t) w { s with wideRr := mset s.wideRr row ((i + 1) % 4) } = .ok (o', s1) → threadOf s1 k = some t →
    (o'.n ≤ o'.done → exec .wideUnitStep s = .next (setThreadOf s1 k (countEvents (deliverF { t with wide := r } o') o'.ev))) ∧
    (o'.done < o'.n → exec .wideUnitStep s = .next (setThreadOf s1 k { t with wide := o' :: r }))
/-- R436, R438: the element-wise operations give the wide unit's elements as the scalar operations do. -/
def Sys2Proof.Claims.WideElements : Prop :=
  ∀ h o (f : FpOps) c x y z, f.fmt.toNat ≤ 2 →
    wideElem (.vadd h o) f c x y z = fpAdd (layoutOf f.fmt) c x y ∧ wideElem (.vsub h o) f c x y z = fpSub (layoutOf f.fmt) c x y ∧
    wideElem (.vmul h o) f c x y z = fpMul (layoutOf f.fmt) c x y ∧
    wideElem (.vfma h o) f c x y z = fpFma (layoutOf f.fmt) c false false x y z ∧
    wideElem (.vmax h o) f c x y z = fpMinMax (layoutOf f.fmt) c true x y ∧ wideElem (.vmin h o) f c x y z = fpMinMax (layoutOf f.fmt) c false x y
/-- R296, R436, R438: the wide unit of a row of cores takes the next dispatched instruction on, and its elements are those of the
scalar operations. -/
def Obligations.WideUnitSteps : Prop := Claims.WideUnitStep ∧ Claims.WideElements
/-- R319, R449: MZERO, MCOPY, MLD and MST of a whole tile, 4 elements an entry, and MSTAT. -/
def Obligations.TileInstructions : Prop :=
  (∀ h m n s t, Runs h s t → exec (.mzero h ⟨.m m, .c 0⟩) s = .next (doneWith h s (setM t m [])) ∧
    exec (.mcopy h ⟨.m m, .m n⟩) s = .next (doneWith h s (setM t m (getM t n)))) ∧
  (∀ h m n s t i x, Runs h s t → t.blockE = .tile i x → i ≤ 1024 → 1024 ≤ i + (getL t n).length →
    exec (.mld h ⟨.m m, .l n⟩) s = .next (doneWith h s (setM (setL t n ((getL t n).drop (1024 - i))) m
      (x ++ (((getL t n).take (1024 - i)).zipIdx.flatMap (fun e => tileOf (entryElems (i + e.2) e.1))))))) ∧
  (∀ h m n s t i x, Runs h s t → t.blockE = .tile i x → i ≤ 1024 → (getL t n).length < 1024 - i → ∃ u, exec (.mld h ⟨.m m, .l n⟩) s = .next (setCur s u) ∧
    getL u n = [] ∧ ∃ y, u.blockE = .tile (i + (getL t n).length) y) ∧
  (∀ h m n s t i x, Runs h s t → t.blockE = .tile i x → i ≤ 1024 → 1024 - i ≤ 32 - (getD t n).length →
    exec (.mst h ⟨.d n, .m m⟩) s = .next (doneWith h s (setD t n (getD t n ++
      (List.range (1024 - i)).map (fun j => tileEntry (getM t m) (i + j)))))) ∧
  (∀ h d m s t f, Runs h s t → findFrame s t.id.ctx t.id.frame = some f →
    exec (.mstat h ⟨.c d, .m m⟩) s = .next (doneWith h s (setData t d (BitVec.ofNat 64
      ((drainStateOf (findInst f t.id.stage.toNat t.id.coord) t.id.pos.toNat m.toNat).next % 65536 * 65536 +
        min (drainStateOf (findInst f t.id.stage.toNat t.id.coord) t.id.pos.toNat m.toNat).applied 0xFFFF)))))
/-- R300-R310, R305, R444-R447: a gang instruction takes effect when all four positions stand at it; MGANG opens a section of N
instructions on every position. -/
def Obligations.GangInstructions : Prop :=
  ∀ h s t ts, Runs h s t → t.blockE = .barrier → ts = gangThreads s s.cur.core t.id.batch → ts.length = 4 →
    (∀ x ∈ ts, arrived x.2 = true ∧ x.2.blockE = .barrier) →
    (∀ o, keysMatch ts = true → (∀ x ∈ ts, x.2.opn.section_ = 0) →
      exec (.mgang h o) s = .next (setThreads s (ts.map (fun x => (x.1, gangDone o.n.toNat x.2))))) ∧
    (∀ o s', mmulEff o s.cur.core t.id.batch s = .ok ((), s') → exec (.mmul h o) s = .next s') ∧
    (∀ o s', mgrpEff o s.cur.core t.id.batch s = .ok ((), s') → exec (.mgrp h o) s = .next s')
/-- R314-R317, R448: MDRAIN converts and stores a tile's rows; MDRAIN.adds to a carried tile of another live instance sends the
tile, at most 8 to one place, and to a frame that is gone does nothing. -/
def Obligations.Drains : Prop :=
  (∀ h o s t u s1, Runs h s t → wideClash s s.cur.core t (.mdrain h o) = false → mdrainAM o (whoOf s.cur.core t) t s = .ok (u, s1) →
    exec (.mdrain h o) s = .next (doneAt h s1 u)) ∧
  (∀ h (o : MatOps) s t n d d', Runs h s t → o.a = .c n → checkHandle (getC t n) [2] permW = .ok () →
    d = drainTo (getC t n) (o.fa == 0x11) none (getM t (mOf o.b)) t →
    d' = drainTo (getC t n) (o.fa == 0x11) (some ((readCI t o.tc).setWidth 16)) (getM t (mOf o.b)) t → ownInst d t.id = false →
    (drainLive s d = true → (s.work.drains.filter (sameTile d)).length < 8 →
      exec (.mdrainAdd h o) s = .next (doneWith h (setWork s { s.work with drains := s.work.drains ++ [d] })
        { t with opn := { t.opn with drains := t.opn.drains + 1 } }) ∧
      exec (.mdrainAddOrd h o) s = .next (doneWith h (setWork s { s.work with drains := s.work.drains ++ [d'] })
        { t with opn := { t.opn with drains := t.opn.drains + 1 } })) ∧
    (drainLive s d = false → exec (.mdrainAdd h o) s = .next (doneWith h s t) ∧ exec (.mdrainAddOrd h o) s = .next (doneWith h s t)))

/-! ## Translation and system instructions -/

/-- R469-R473: the four TLBWR, with and without a head miss that the entry answers, and in a firing of context 0, which has no miss
queue; TLBINV of the core's, the cluster's and every TLB, of an empty range and of one that is not 64 KiB aligned; TLBPROBE; CFLUSH. -/
def Obligations.TranslationInstructions : Prop :=
  (∀ h (o : TlbOps) s t e, Runs h s t → t.id.firmware = true → e = tlbwrEntry t o →
    (entryOk s e = true → exec (.tlbwr h o) s = .next (doneWith h (installCluster s (clusterOf s.cur.core) e) (setP t o.d true))) ∧
    (entryOk s e = false → exec (.tlbwr h o) s = .next (doneWith h s (setP t o.d false))) ∧
    (∀ m, headMiss s s.cur.core = some m →
      (sameMiss m e = true → entryOk s e = true →
        exec (.tlbwrFill h o) s = .next (doneWith h (dropHeadMiss (installWaiters e m (installCluster s (clusterOf s.cur.core) e))
          (clusterOf s.cur.core)) (setP t o.d true))) ∧
      (sameMiss m e = true → entryOk s e = false →
        exec (.tlbwrFill h o) s = .next (doneAt h (dropHeadMiss (endMiss (clusterOf s.cur.core) .fault m s) (clusterOf s.cur.core)) (setP t o.d false))) ∧
      (sameMiss m e = false → exec (.tlbwrFill h o) s = .next (doneWith h s (setP t o.d false))) ∧
      exec (.tlbwrFault h o) s = .next (doneAt h (dropHeadMiss (endMiss (clusterOf s.cur.core) .fault m s) (clusterOf s.cur.core)) (setP t o.d true)) ∧
      exec (.tlbwrPeer h o) s = .next (doneAt h (dropHeadMiss (endMiss (clusterOf s.cur.core) .peerLost m s) (clusterOf s.cur.core)) (setP t o.d true))) ∧
    (headMiss s s.cur.core = none → exec (.tlbwrFill h o) s = .next (doneWith h s (setP t o.d false)) ∧
      exec (.tlbwrFault h o) s = .next (doneWith h s (setP t o.d false)) ∧ exec (.tlbwrPeer h o) s = .next (doneWith h s (setP t o.d false)))) ∧
  (∀ h (o : TlbOps) s t e, Runs h s t → t.id.firmware = false → t.id.ctx = 0 → s.cur.core < 1024 → e = tlbwrEntry t o →
    (entryOk s e = true → exec (.tlbwr h o) s = .next (doneWith h (installCluster s (clusterOf s.cur.core) e) (setP t o.d true))) ∧
    (entryOk s e = false → exec (.tlbwr h o) s = .next (doneWith h s (setP t o.d false))) ∧
    exec (.tlbwrFill h o) s = .next (doneWith h s (setP t o.d false)) ∧ exec (.tlbwrFault h o) s = .next (doneWith h s (setP t o.d false)) ∧
    exec (.tlbwrPeer h o) s = .next (doneWith h s (setP t o.d false))) ∧
  (∀ h (o : TlbinvOps) s t a n (c : BitVec 12), Runs h s t → t.id.firmware = true → t.blockA = .none → a = vaOf (getW t o.a) → n = (getW t o.b).toNat →
    c = (getW t o.c).setWidth 12 → n ≠ 0 → a % 65536 = 0 → n % 65536 = 0 →
    (o.target = 0 → exec (.tlbinv h o) s = .next (doneWith h (dropCoreTlb s.cur.core c a n o.whole s) (setP t o.d true))) ∧
    (o.target = 1 → exec (.tlbinv h o) s = .next (doneWith h (dropClusterTlb (clusterOf s.cur.core) c a n o.whole
      (dropCoreTlb s.cur.core c a n o.whole s)) (setP t o.d true))) ∧
    (o.target = 2 → exec (.tlbinv h o) s = .next (beginShoot ⟨c, a, n, o.whole, none, s.cur.core, s.sched.nextReq, none⟩
      (setCur { s with sched := { s.sched with nextReq := s.sched.nextReq + 1 } } { t with blockA := .request s.sched.nextReq none })))) ∧
  (∀ h (o : TlbinvOps) s t, Runs h s t → t.id.firmware = true → t.blockA = .none → o.whole = false →
    ((getW t o.b).toNat = 0 → exec (.tlbinv h o) s = .next (doneWith h s (setP t o.d true))) ∧
    ((getW t o.b).toNat ≠ 0 → (vaOf (getW t o.a) % 65536 ≠ 0 ∨ (getW t o.b).toNat % 65536 ≠ 0) →
      exec (.tlbinv h o) s = .next (takeTrap (!h.s) s tMisaligned (addrDetail (getW t o.a))))) ∧
  (∀ h (o : TlbinvOps) s t id v, Runs h s t → t.id.firmware = true → t.blockA = .request id (some v) →
    exec (.tlbinv h o) s = .next (doneWith h s (setP t o.d true))) ∧
  (∀ h (o : TlbprobeOps) s t, Runs h s t → t.id.firmware = true →
    exec (.tlbprobe h o) s = .next (doneWith h s (setData t o.d (match tlbFind (if o.cluster then (cluster s (clusterOf s.cur.core)).tlb
      else (Machine.core s s.cur.core).tlb) ((getW t o.b).setWidth 12) (vaOf (getW t o.a)) with | some e => e.leaf | none => 0)))) ∧
  (∀ h (o : CflushOps) s t, Runs h s t → t.id.firmware = true →
    (1023 < (readCI t o.b).toNat → exec (.cflush h o) s = .next (doneWith h s (setP t o.d false))) ∧
    ((readCI t o.b).toNat ≤ 1023 → drainWaits s (readCI t o.b).toNat ((readCI t o.c).setWidth 12) = false → exec (.cflush h o) s =
      .next (doneAt h (cflush (setCur s (setP t o.d true)) (readCI t o.b).toNat ((readCI t o.c).setWidth 12)) (setP t o.d true))))
/-- R477, R478, R479, R54: HBEAT of a firmware core whose limit has not passed notes the beat with its code; IDLE returns with true when
there is work, or was while it stopped fetch, and with false once its timeout is over; in a firing of context 0 HBEAT has no effect
and IDLE returns at once with false. -/
def Obligations.HeartbeatAndIdle : Prop :=
  (∀ h (o : HbeatOps) s t, Runs h s t → t.id.firmware = true → tooLate s s.cur.core = false → ∃ s', exec (.hbeat h o) s = .next s' ∧
    mfind s'.fw.beats s.cur.core = some (s.time, o.code) ∧ s'.mem = s.mem ∧
    (∃ u, threadOf s' s.cur.core = some u ∧ u.regs = t.regs)) ∧
  (∀ h (o : HbeatOps) s t, Runs h s t → t.id.firmware = false → t.id.ctx = 0 → exec (.hbeat h o) s = .next (doneWith h s t)) ∧
  (∀ h (o : IdleOps) s t, Runs h s t → t.id.firmware = false → t.id.ctx = 0 → exec (.idle h o) s = .next (doneWith h s (setP t o.d false))) ∧
  (∀ h (o : IdleOps) s t, Runs h s t → t.id.firmware = true → wakes s s.cur.core = true ∨ t.blockA = .woken →
    exec (.idle h o) s = .next (doneWith h s (setP t o.d true))) ∧
  (∀ h (o : IdleOps) s t n, Runs h s t → t.id.firmware = true → wakes s s.cur.core = false → t.blockA = .ack n →
    exec (.idle h o) s = .next (doneWith h s (setP t o.d false))) ∧
  (∀ h (o : IdleOps) s t, Runs h s t → t.id.firmware = true → wakes s s.cur.core = false → t.blockA = .none → o.timeout ≠ 0 →
    exec (.idle h o) s = .next (setCur s { t with blockA := .idle (some (s.time + o.timeout.toNat * 1000)) })) ∧
  (∀ s k t d, s.cur.arg = .ix k → threadOf s k = some t → t.blockA = .idle (some d) → d ≤ s.time →
    exec .idleTimeoutExpiry s = .next (setThreadOf s k { t with blockA := .ack 0 }))

/-! ## Events: starts, the host's windows, contexts -/

/-- R18, R35, R37, R38, R39, R42: a loss of power, after which device memory is open; a START, which abandons all work; the
steps that STATE names, each ending in the next or in FAILED; late heartbeats; NEG_GO with features that were not offered, with a
broken dependency, and else to READY. That a write of HCTL with START = 0 is a step of its own that changes nothing here is the
model's choice (log 11), and so is what memory holds after a loss of power (log 9, log 27). -/
def Obligations.StartAndPower : Prop :=
  (∀ s, ∃ s', exec .powerLoss s = .next s' ∧ s'.host.state = .off ∧ (∀ k, threadOf s' k = none) ∧ s'.ctxs = [] ∧
    s'.mem.stale = some s.sched.freeCtr ∧ (∀ sec, isHbm sec = true → homeView s'.mem sec = staleView s'.mem sec) ∧
    (∀ a, hostBase ≤ a → homeByte s'.mem a = BitVec.ofNat 8 (secBytes (hbmRead s.mem (a / 64)).data (a % 64) 1))) ∧
  (∀ s w env, s.cur.arg = .start w env → w.getLsbD 0 = true → ∃ s', exec .hctlStart s = .next s' ∧ s'.host.state = .fuse ∧
    s'.host.env = env ∧ s'.host.wasWarm = w.getLsbD 1 ∧ s'.host.wasKeep = w.getLsbD 2 ∧ (∀ k, threadOf s' k = none) ∧ s'.ctxs = [] ∧
    s'.work = workReset ∧ s'.fw = fwReset ∧ s'.host.mqHead = 0 ∧ s'.host.mqTail = 0 ∧ s'.mem.l2 = []) ∧
  (∀ s w env, s.cur.arg = .start w env → w.getLsbD 0 = false → exec .hctlStart s = .next s) ∧
  (∀ s s0, nextTurn s = some (.start, s0) → step s = .next (startStep s0)) ∧
  (∀ s, s.host.state = .fuse → (startStep s).host.state = if s.host.env.fuseOk then .romver else .failed) ∧
  (∀ s, s.host.state = .romver →
    ((∀ k, k < 3 → imageGood k (hostImage s k) = true) → (startStep s).host.state = if keepsMemory s then .linktrain else .hbmtrain) ∧
    ((∃ k, k < 3 ∧ imageGood k (hostImage s k) = false) → (startStep s).host.state = .failed)) ∧
  (∀ s, s.host.state = .hbmtrain → ∀ bad, bad = (List.range 1024).filter (fun q => s.host.env.failedChannels.contains q || s.hbm.removed.contains q) →
    (960 ≤ 1024 - bad.length → (startStep s).host.state = .eccinit ∧ (startStep s).hbm.absent = bad) ∧
    (1024 - bad.length < 960 → (startStep s).host.state = .failed)) ∧
  (∀ s, s.host.state = .eccinit → (startStep s).host.state = .linktrain ∧
    (s.mem.l2 = [] → ∀ a, a < hostBase → homeByte (startStep s).mem a = 0)) ∧
  (∀ s, s.host.state = .linktrain → (startStep s).host.state = .imgload ∧ (startStep s).host.firstBeats = firmwareCores ∧
    (startStep s).host.imgLoadAt = s.time) ∧
  (∀ s, s.host.state = .imgload → s.host.firstBeats ≠ [] → s.host.imgLoadAt + 50000000 ≤ s.time →
    ∃ s', exec .imageFirstHeartbeatTimeout s = .next s' ∧ s'.host.state = .failed) ∧
  (∀ s w, s.cur.arg = .value w → w.getLsbD 3 = true → s.host.state = .negotiate →
    let off (i : Nat) := s.host.offer.getD i 0
    let no := s.host.accept1 &&& ~~~off 1 ≠ 0 ∨ s.host.accept2 &&& ~~~off 2 ≠ 0
    let dep := (s.host.accept1.getLsbD 2 = true ∧ s.host.accept1.getLsbD 1 = false) ∨ (s.host.accept2 ≠ 0 ∧ s.host.accept1.getLsbD 0 = false)
    (no → ∃ s', exec .hctlNegGo s = .next s' ∧ s'.host.state = .negotiate ∧ s'.host.fcode = 1) ∧
    (¬no → dep → ∃ s', exec .hctlNegGo s = .next s' ∧ s'.host.state = .negotiate ∧ s'.host.fcode = 2) ∧
    (¬no → ¬dep → ∃ s', exec .hctlNegGo s = .next s' ∧ s'.host.state = .ready ∧ s'.host.on1 = s.host.accept1 ∧
      s'.host.on2 = s.host.accept2 ∧ s'.host.failCnt = 0 ∧ s'.readyAt = s.time))

/-- R40: until HSTAT.STATE is READY, a message that the host posts in a slot is refused with ERR = 0x81: the
STATE of its slot reads 0x80. -/
def Obligations.SlotsRefusedUntilReady : Prop :=
  ∀ s n img seq, s.host.state ≠ .ready → s.cur.arg = .post n img seq → n < 4096 → (slotOfHost s n).state ≠ 1 →
    ∃ s' x, exec .messageSlotPost s = .next s' ∧ slotOfHost s' n = x ∧ x.err = 0x81 ∧ x.state = 0x80 ∧ x.seq = seq

/-- R22, R23, R24, R32, R34, R35, R40, R42, R60: a message posted in a slot is refused outside READY, from a context that does not
exist, and in slot 0 with a bad shape or an OP whose feature is not accepted; a slot is not overwritten while its message waits; the
status word is the host's to write; what is delivered empties its slot; the host's register writes, none once the device has
stopped; a read index that would leave too many records is ignored. That a write to a posted slot is ignored whole and that reserved bits
of HFEAT_ACCEPT are kept are the model's choices (log 56), and so are what a status write changes and the order of the checks (log 24). -/
def Obligations.HostWindow : Prop :=
  (∀ s n img seq s0, s.cur.arg = .post n img seq → n < 4096 → (slotOfHost s n).state ≠ 1 →
    s0 = setSlot s n { slotOfHost s n with image := (img ++ List.replicate 240 0).take 240, seq := seq, err := 0, state := 1 } →
    (s.host.state ≠ .ready → exec .messageSlotPost s = .next (leaveSlot s0 n 0x81)) ∧
    (s.host.state = .ready → n ≠ 0 → ctxOf s (BitVec.ofNat 12 n) = none → exec .messageSlotPost s = .next (leaveSlot s0 n 0x84)) ∧
    (s.host.state = .ready → n = 0 → mgmtShapeOk (slotOfHost s0 0).image = false → exec .messageSlotPost s = .next (leaveSlot s0 0 0x82)) ∧
    (s.host.state = .ready → n = 0 → mgmtShapeOk (slotOfHost s0 0).image = true → byteAt (slotOfHost s0 0).image 0 = 4 →
      s.host.on1.getLsbD 12 = false → exec .messageSlotPost s = .next (leaveSlot s0 0 0x85)) ∧
    (∀ x s1, s.host.state = .ready → n ≠ 0 → ctxOf s (BitVec.ofNat 12 n) = some x → x.ending = false →
      deliverHost s0 (BitVec.ofNat 12 n) x.grant (slotOfHost s0 n).image = .taken s1 → exec .messageSlotPost s = .next (leaveSlot s1 n 0))) ∧
  (∀ s n img seq, s.cur.arg = .post n img seq → (slotOfHost s n).state = 1 → exec .messageSlotPost s = .next s) ∧
  (∀ s n w, (s.cur.arg = .ix n ∨ s.cur.arg = .ix2 n w) → s.host.state = .fatal → exec .messageSlotClear s = .next s) ∧
  (∀ s n, s.cur.arg = .ix n → n < 4096 → s.host.state ≠ .fatal → (slotOfHost s n).state = 0x80 →
    exec .messageSlotClear s = .next (setSlot s n { slotOfHost s n with err := 0, state := 0 })) ∧
  (∀ s n w, s.cur.arg = .ix2 n w → n < 4096 → s.host.state ≠ .fatal → ∀ x, x = { slotOfHost s n with seq := BitVec.ofNat 32 (w / 2 ^ 32) } →
    (w % 256 = 0 → x.state = 0x80 → exec .messageSlotClear s = .next (setSlot s n { x with err := 0, state := 0 })) ∧
    (w % 256 ≠ 0 ∨ x.state ≠ 0x80 → exec .messageSlotClear s = .next (setSlot s n x))) ∧
  (∀ s n x s1, s.cur.arg = .ix n → n ≠ 0 → (slotOfHost s n).state = 1 → s.host.state = .ready → ctxOf s (BitVec.ofNat 12 n) = some x →
    x.ending = false → deliverHost s (BitVec.ofNat 12 n) x.grant (slotOfHost s n).image = .taken s1 →
    exec .slotMessageAccept s = .next (leaveSlot s1 n 0)) ∧
  (∀ s n err, slotOfHost (leaveSlot s n err) n = { slotOfHost s n with err := err, state := if err = 0 then 0 else 0x80 }) ∧
  (∀ s v, s.cur.arg = .value v → s.host.state ≠ .fatal →
    ((s.host.mqTail - v.setWidth 32).toNat ≤ s.host.mqLen →
      exec .hmqheadWrite s = .next (mqDrain { s with host := { s.host with mqHead := v.setWidth 32 } })) ∧
    (s.host.mqLen < (s.host.mqTail - v.setWidth 32).toNat → exec .hmqheadWrite s = .next s)) ∧
  (∀ s v, s.cur.arg = .value v → s.host.state = .fatal → exec .hmqheadWrite s = .next s) ∧
  (∀ s off v, s.cur.arg = .register off v → s.host.state ≠ .fatal →
    (off = 0x0000 → exec .registerWrite s = .next { s with host := { s.host with warm := v.getLsbD 1, memkeep := v.getLsbD 2 } }) ∧
    (off = 0x0010 → exec .registerWrite s = .next { s with host := { s.host with hspb := v.setWidth 64 &&& 0xFFFFFFFFFFFFF000 } }) ∧
    (off = 0x0300 → exec .registerWrite s = .next { s with host := { s.host with accept1 := v } }) ∧
    (off = 0x0310 → exec .registerWrite s = .next { s with host := { s.host with accept2 := v } }) ∧
    (off ∉ [0x0000, 0x0010, 0x0018, 0x0300, 0x0310] → exec .registerWrite s = .next s)) ∧
  (∀ s off v, s.cur.arg = .register off v → s.host.state = .fatal → exec .registerWrite s = .next s)

/-- R34, R20, R21, R42, R64, R67, R120, R121: a vector whose interval has passed is raised if a raise of it is owed, vector 0 as long
as records wait; the host masks a vector, and unmasks it, which delivers its pending bit; with HDM-DB accepted the host reads and
writes the device's memory at its homes, an uncorrectable sector told, and any other request is unsupported; a snoop writes a line
back, and takes it when it invalidates; a peer's request is served where it arrives. That the second argument of an unmask event masks
the vector is the model's presumption (log 12), the form of the answers its choice (log 28), and that without HDM-DB a request has
the empty answer of an unsupported one its reading (log 52). -/
def Obligations.InterruptsAndOutsideAccesses : Prop :=
  (∀ s v, s.cur.arg = .ix v → (∀ t, mfind s.msix.lastRaise v = some t → t + vectorGap v ≤ s.time) →
    let due := (v = 0 ∧ s.host.mqTail ≠ s.host.mqHead) ∨ (v ≠ 0 ∧ s.msix.owed.contains v = true)
    let s1 := { s with msix := { s.msix with owed := sdel s.msix.owed v } }
    (¬due → exec .msixRateIntervalExpiry s = .next s) ∧
    (due → s.msix.mask.getLsbD v = false →
      exec .msixRateIntervalExpiry s = .next { s1 with msix :=
        { s1.msix with lastRaise := mset s.msix.lastRaise v s.time, sent := s.msix.sent ++ [v] } }) ∧
    (due → s.msix.mask.getLsbD v = true →
      exec .msixRateIntervalExpiry s = .next { s1 with msix :=
        { s1.msix with lastRaise := mset s.msix.lastRaise v s.time, pending := setBit s.msix.pending v true } })) ∧
  (∀ s v, s.cur.arg = .ix v → v < 64 →
    (s.msix.pending.getLsbD v = true → exec .msixVectorUnmask s = .next { s with msix :=
      { s.msix with mask := setBit s.msix.mask v false, pending := setBit s.msix.pending v false, sent := s.msix.sent ++ [v] } }) ∧
    (s.msix.pending.getLsbD v = false → exec .msixVectorUnmask s = .next { s with msix := { s.msix with mask := setBit s.msix.mask v false } })) ∧
  (∀ s v b, s.cur.arg = .ix2 v b → v < 64 → b % 2 = 1 →
    exec .msixVectorUnmask s = .next { s with msix := { s.msix with mask := setBit s.msix.mask v true } }) ∧
  (∀ s r, s.cur.arg = .cxl r → r.unsupported = true ∨ running s = false ∨ s.host.on1.getLsbD 4 = false →
    exec .hostCxlMemAccess s = .next (setReply s none false)) ∧
  (∀ s r pas, s.cur.arg = .cxl r → running s = true → s.host.on1.getLsbD 4 = true → r.unsupported = false → r.cached = false →
    (∀ bs, r.write = some bs → hdmRange s r.hpa bs.length = some pas →
      exec .hostCxlMemAccess s = .next (setReply (setMem s (hostLines false pas (outsideWrite s.mem (pas.zip bs)))) (some []) false)) ∧
    (∀ secs, r.write = none → hdmRange s r.hpa r.len = some pas → secs = (pas.map (· / 64)).eraseDups →
      exec .hostCxlMemAccess s = .next (setReply (noteReads s secs) (some (pas.map (homeByte s.mem))) (secsPoisoned s secs)))) ∧
  (∀ s line, (s.cur.arg = .snoop line false → exec .hostCacheSnoop s = .next (setMem s (l2Clean s.mem (hostBase / 64 + line)))) ∧
    (s.cur.arg = .snoop line true → exec .hostCacheSnoop s = .next (setMem s (l2Evict s.mem (hostBase / 64 + line))))) ∧
  (∀ s (r : PeerReq), s.cur.arg = .peer r → running s = true → mfind s.links.routes r.peer = some r.port → (portOf s r.port).state = .up →
    (peerState s r.peer).lost = false →
    (∀ n, r.op = .read n → deviceMem s r.pa n = true → inReserve s r.pa n = false →
      exec .peerRequestArrival s = .next (setPeerReply (noteReads s (sectorsOf (r.pa, n))) (paRead s r.pa n) (secsPoisoned s (sectorsOf (r.pa, n))))) ∧
    (∀ b, r.op = .write b → deviceMem s r.pa b.length = true → inReserve s r.pa b.length = false →
      exec .peerRequestArrival s = .next (setPeerReply (setMem s (paWriteMem s.mem r.pa b)) [] false)) ∧
    (∀ op b c, r.op = .atomic op true b c → deviceMem s r.pa 8 = true → inReserve s r.pa 8 = false →
      let s1 := noteReads s (sectorsOf (r.pa, 8))
      exec .peerRequestArrival s = .next (setPeerReply (setMem s1 (paWriteMem s1.mem r.pa (toBytes 8
        (peerAtomic op 64 (leNat (paRead s1 r.pa 8)) (b.toNat % 2 ^ 64) (c.toNat % 2 ^ 64) % 2 ^ 64)))) (paRead s1 r.pa 8)
        (secsPoisoned s (sectorsOf (r.pa, 8))))) ∧
    (∀ op b c, r.op = .atomic op false b c → deviceMem s r.pa 4 = true → inReserve s r.pa 4 = false →
      let s1 := noteReads s (sectorsOf (r.pa, 4))
      exec .peerRequestArrival s = .next (setPeerReply (setMem s1 (paWriteMem s1.mem r.pa (toBytes 4
        (peerAtomic op 32 (leNat (paRead s1 r.pa 4)) (b.toNat % 2 ^ 32) (c.toNat % 2 ^ 32) % 2 ^ 32)))) (paRead s1 r.pa 4)
        (secsPoisoned s (sectorsOf (r.pa, 4))))))

/-- A management message in slot 0 that Chrogon-M takes now; while it is being proved, one its log has room for (R25, R32, R50, R55). -/
def Sys2Proof.Claims.taken (i : Instr) (s : State) (img : List Byte) : Prop :=
  s.host.state = .ready ∧ inGap s 0 = false ∧ (isProving s 0 = true → logRoom s = true) ∧ mgmtHead s = none ∧ (slotOfHost s 0).state = 1 ∧
  (slotOfHost s 0).image = img ∧ mgmtInstr (byteAt img 0) = some i ∧ s.mgmt.held.length < mqHoldCap
/-- The message, with the number it takes in the order of arrival. -/
def Sys2Proof.Claims.msg (i : Instr) (s : State) (img : List Byte) : Cmd := { mgmtCmd img i with req := s.sched.nextReq }
/-- The state once it is taken: its slot is empty, what idled for its inbox is awake (R478), and while Chrogon-M is being proved the message stands in the log (R55). -/
def Sys2Proof.Claims.tookAt (i : Instr) (s : State) (img : List Byte) : State :=
  let s1 := wakeFirmware (leaveSlot { s with sched := { s.sched with nextReq := s.sched.nextReq + 1 } } 0 0) 0
  if isProving s 0 then stage (msg i s img) s1 else s1
/-- R25-R31, R55, R189: CTXNEW makes the context its image describes; CTXTRAP, SCHED and SLOTVEC set what they name; STOCKALLOC
gives the context free counters and stores their handle; LINKCFG answers with the old limit; CTXEND withdraws the context's
frames and ends it once it is quiet; a context that does not exist is 0x4C. -/
def Obligations.ContextMessages : Prop :=
  (∀ s img n r s0, taken .ctxnew s img → s0 = tookAt .ctxnew s img → n = numAt img 0x08 2 →
    ((img.drop 0x30).take 32 = List.replicate 32 0 ∧ r = schedReset ∨ (img.drop 0x30).take 32 ≠ List.replicate 32 0 ∧ schedAt img 0x30 = some r) →
    1 ≤ n → n ≤ 4095 → byteAt img 0x0A = 0 → byteAt img 0x0B < 128 → 16 ≤ numAt img 0x0C 4 → numAt img 0x0C 4 ≤ 65536 →
    numAt img 0x20 8 < numAt img 0x28 8 → numAt img 0x28 8 ≤ 2 ^ 57 → ctxOf s (BitVec.ofNat 12 n) = none →
    placesOk s (numAt img 0x0C 4) (numAt img 0x10 8) (numAt img 0x18 8) = true → s.ctxs.length < 1024 →
    exec .ctxnew s = .next (mgmtReply (setCtx s0 (BitVec.ofNat 12 n) (newCtx s0 img r)) (msg .ctxnew s img) 0 n)) ∧
  (∀ s img n x, n = BitVec.ofNat 12 (numAt img 0x08 2) → numAt img 0x08 2 < 4096 →
    (ctxOf s n = none →
      (taken .ctxtrap s img → exec .ctxtrap s = .next (mgmtReply (tookAt .ctxtrap s img) (msg .ctxtrap s img) 0x4C 0)) ∧
      (taken .sched s img → exec .sched s = .next (mgmtReply (tookAt .sched s img) (msg .sched s img) 0x4C 0)) ∧
      (taken .stockalloc s img → exec .stockalloc s = .next (mgmtReply (tookAt .stockalloc s img) (msg .stockalloc s img) 0x4C 0))) ∧
    (ctxOf s n = some x →
      (taken .ctxtrap s img → byteAt img 0x10 = 0xFF →
        exec .ctxtrap s = .next (mgmtReply (setCtx (tookAt .ctxtrap s img) n { x with trapQ := none }) (msg .ctxtrap s img) 0 0)) ∧
      (∀ f q, taken .ctxtrap s img → byteAt img 0x10 ≠ 0xFF → findFrame s n (BitVec.ofNat 32 (numAt img 0x0C 4)) = some f →
        queueAt f (byteAt img 0x10) = some q → f.withdrawn = false → persistent f = true → 64 ≤ q.item →
        exec .ctxtrap s = .next (mgmtReply (setCtx (tookAt .ctxtrap s img) n { x with trapQ := some (BitVec.ofNat 32 (numAt img 0x0C 4), byteAt img 0x10) })
          (msg .ctxtrap s img) 0 0)) ∧
      (∀ r, taken .sched s img → schedAt img 0x10 = some r →
        exec .sched s = .next (mgmtReply (setCtx (tookAt .sched s img) n { x with nextSched := some r }) (msg .sched s img) 0 0)) ∧
      (∀ y s1 s2 k, taken .stockalloc s img → byteAt img 0x0A ≤ 1 → 1 ≤ numAt img 0x0C 2 → numAt img 0x0C 2 ≤ 4096 →
        numAt img 0x10 8 % 32 = 0 → numAt img 0x10 8 < 2 ^ 57 → engPage (tookAt .stockalloc s img) 0 n (numAt img 0x10 8) .store = .ok (y, s1) → y.ct = true →
        freeRun s (byteAt img 0x0A) (numAt img 0x0C 2) = some k →
        engPutCap s1 0 n (numAt img 0x10 8) (stockHandleOf (byteAt img 0x0A) k (numAt img 0x0C 2)) = .ok s2 →
        exec .stockalloc s = .next (mgmtReply (allocRun s2 n (byteAt img 0x0A) k (numAt img 0x0C 2)) (msg .stockalloc s img) 0 k)))) ∧
  (∀ s img s0, taken .linkcfg s img → s0 = tookAt .linkcfg s img →
    (1 ≤ numAt img 0x08 2 → numAt img 0x08 2 ≤ 100 → exec .linkcfg s =
      .next (mgmtReply { s0 with links := { s0.links with limitMs := numAt img 0x08 2 } } (msg .linkcfg s img) 0 s.links.limitMs)) ∧
    (numAt img 0x08 2 = 0 ∨ 100 < numAt img 0x08 2 → exec .linkcfg s = .next (mgmtReply s0 (msg .linkcfg s img) 0x47 0))) ∧
  (∀ s img s0, taken .slotvec s img → s0 = tookAt .slotvec s img → 1 ≤ numAt img 0x08 2 → numAt img 0x08 2 ≤ 4095 → byteAt img 0x0A ≤ 62 →
    exec .slotvec s = .next (mgmtReply (setSlot s0 (numAt img 0x08 2) { slotOfHost s0 (numAt img 0x08 2) with
      vector := if byteAt img 0x0A = 0 then none else some (byteAt img 0x0A) }) (msg .slotvec s img) 0 0)) ∧
  (∀ s img n x, taken .ctxend s img → n = BitVec.ofNat 12 (numAt img 0x08 2) → 1 ≤ numAt img 0x08 2 → numAt img 0x08 2 ≤ 4095 →
    ctxOf s n = some x → ∃ s' c, exec .ctxend s = .next s' ∧ mgmtHead s' = some c ∧ c.instr = .ctxend ∧ c.page = 1 ∧
      ctxOf s' n = some { x with ending := true } ∧ ∀ f ∈ s'.work.frames, f.ctx = n → f.withdrawn = true) ∧
  (∀ s c n s1, s.host.state = .ready → stopsServing s = false → mgmtHead s = some c → c.instr = .ctxend → c.page = 1 →
    n = BitVec.ofNat 12 (numAt c.body 0x08 2) → ctxQuiet s n = true → finishCtx n (dropFirmware s 0 c) = some s1 →
    exec .ctxend s = .next (mgmtReply s1 c 0 c.pa))

/-! ## Events: shootdowns, sequence messages, shoring -/

/-- A command at the head of its sequence's order in a die's Kiln inbox, and the state without it, in which marks that waited are made
(R262) and what holds that ended had kept is released (R238, R274). -/
def Sys2Proof.Claims.kilnHead (s : State) (d ix : Nat) (c : Cmd) (s1 : State) : Prop :=
  s.cur.arg = .engine (.kiln d) ix ∧ (die s d).kiln[ix]? = some c ∧ firstOfSeq s c = true ∧
  s1 = sweepHolds (retryMarks (setDie s d { die s d with kiln := dropAt (die s d).kiln ix }))
/-- R31, R90, R91, R97, R48, R55, R206, R231, R232: SHOOT begins a shootdown, staged while Chrogon-S is being proved; a shootdown
no bank command holds back drops the translations, gives its replicas back and answers whoever waits; ATTEST, SEQOPEN, SEQCLOSE and
VERDICT end with the record of what they did or failed. -/
def Obligations.ShootdownsAndSequenceMessages : Prop :=
  (∀ s img n s0 va len, taken .shoot s img → s0 = tookAt .shoot s img → n = BitVec.ofNat 12 (numAt img 0x08 2) → numAt img 0x08 2 < 4096 →
    va = numAt img 0x10 8 → len = numAt img 0x18 8 → ctxOf s n ≠ none →
    (va % 65536 = 0 → len % 65536 = 0 → inGap s 1 = false → (isProving s 1 = true → logRoom s = true) → exec .shoot s =
      .next (beginShoot ⟨n, va, len, len == 0, some (msg .shoot s img), noCore, 0, none⟩
        (if isProving s 1 then stage (msg .shoot s img) s0 else s0))) ∧
    (va % 65536 ≠ 0 ∨ len % 65536 ≠ 0 → exec .shoot s = .next (mgmtReply s0 (msg .shoot s img) 0x47 0))) ∧
  (∀ s (d : Shootdown), ∃ s', beginShoot d s = s' ∧ s'.work.shootdowns = s.work.shootdowns ++ [d] ∧ s'.mem = s.mem ∧
    ∀ cl va, tlbFind (cluster s cl).tlb d.ctx va = none → tlbFind (cluster s' cl).tlb d.ctx va = none) ∧
  (∀ s i (d : Shootdown) s1, s.cur.arg = .ix i → s.work.shootdowns[i]? = some d → shootReady s d = true →
    s1 = freeReplicas (shotReplica d) (ackShoot d (setWork s { s.work with shootdowns := dropAt s.work.shootdowns i })) →
    (∀ c, d.cmd = some c → exec .shootdownComplete s = .next (mgmtReply s1 c 0 0)) ∧
    (∀ t, d.cmd = none → d.collapse = some t → exec .shootdownComplete s = .next (finishCollapse d t s1)) ∧
    (d.cmd = none → d.collapse = none → exec .shootdownComplete s = .next (answer s1 d.core d.req 1))) ∧
  (∀ s d ix c s0 s' fails, s.cur.arg = (if fails then .keyFail d ix else .engine (.firmware d) ix) → s.host.state = .ready → stopsServing s = false → inGap s 0 = false →
    (isProving s 0 = true → logRoom s = true) → (die s d).firmware[ix]? = some c → isAttest c.instr = true →
    (∀ x ∈ (die s d).firmware.take ix, isAttest x.instr = false) →
    s0 = { s with sched := { s.sched with nextReq := s.sched.nextReq + 1 } } →
    s' = setDie s0 d { die s0 d with firmware := dropAt (die s d).firmware ix } →
    ∀ c', c' = (if isProving s 0 then { c with req := s.sched.nextReq } else c) →
    (∀ s1, attest fails c' s' = .ok ((), s1) → exec .attest s = .next (attestReply c' 0 s1)) ∧
    (∀ n, attest fails c' s' = .error (.status n) → exec .attest s = .next (attestReply c' n (forgetEngEnds s' c.ctx)))) ∧
  (∀ s d ix c s0, kilnHead s d ix c s0 → c.instr = .seqopen → seqNamed s0 c = none →
    (hasKiln s0 = false → exec .seqopen s = .next (complete (dropGrants (kilnAgent d) s0) c engKiln sNotAccepted 0 0)) ∧
    (∀ r s1, seqopen d c s0 = .ok (r, s1) → exec .seqopen s = .next (complete (dropGrants (kilnAgent d) s1) c engKiln r.status r.bytes r.result)) ∧
    (∀ n, seqopen d c s0 = .error (.status n) →
      exec .seqopen s = .next (complete (dropGrants (kilnAgent d) s0) c engKiln (accessStatus false n) 0 0))) ∧
  (∀ s d ix c s0, kilnHead s d ix c s0 → c.instr = .seqclose →
    (seqNamed s0 c = none → hasKiln s0 = true → capGood (bodyCap c 0) [6] 0 = true → seqOfHandle s0 c.ctx (bodyCap c 0) = none →
      exec .seqclose s = .next (complete (dropGrants (kilnAgent d) s0) c engKiln 0x53 0 0)) ∧
    (∀ q r s1, seqNamed s0 c = some q → rotationOpen s0 q = false → marksWait s0 q = false → (s0.work.edits.find? (fun e => e.seq == q.id)) = none →
      mustSettle s0 c = false → seqclose c s0 = .ok (r, s1) →
      exec .seqclose s = .next (advanceSeq q.id (complete (dropGrants (kilnAgent q.die) s1) c engKiln r.status r.bytes r.result)))) ∧
  (∀ s cl ix c s0 f st, s.cur.arg = .engine (.joiner cl) ix → pickCmd (cluster s cl).joiner ix = some c → c.instr = .verdict →
    s0 = setCluster s cl { cluster s cl with joiner := dropAt (cluster s cl).joiner ix } →
    let num := BitVec.ofNat 32 (numAt c.body 4 4)
    let n := byteAt c.body 1
    numAt c.body 2 2 = 0 → numAt c.body 8 24 = 0 → findFrame s c.ctx num = some f → stageAt f n = some st →
    (st.suspended = false → byteAt c.body 0 < 3 → exec .verdict s = .next (complete s0 c engJoiner 0x48 0 0)) ∧
    (st.suspended = true → byteAt c.body 0 = 0 →
      exec .verdict s = .next (complete (updFrame s0 c.ctx num (resumeStage n)) c engJoiner 0 0 0)) ∧
    (st.suspended = true → byteAt c.body 0 = 1 →
      exec .verdict s = .next (complete (updFrame s0 c.ctx num (fun f => resumeStage n (dropBatchItems n f))) c engJoiner 0 0 0)) ∧
    (st.suspended = true → byteAt c.body 0 = 2 → exec .verdict s = .next (complete (killFrame s0 c.ctx num) c engJoiner 0 0 0)))

/-- The staging slot of a kind is the second or the first, as the image that serves stands in the other (R49). -/
def Sys2Proof.Claims.oldSlot (s : State) (kind : Nat) : Bool := match mfind s.fw.images kind with | some i => i.staged | none => false
/-- R49-R57: a SHORE is taken up, is busy, or is refused; each phase ends within its limit in the next one, and past it, or
with a bad image or record, with its status; a proved image is committed, a failed one falls back: the old image serves on and handles
the staged requests again in the order of their log, and one that must wait keeps those behind it. -/
def Obligations.ShoringPhases : Prop :=
  (∀ s img s0 kind, taken .shore s img → s0 = tookAt .shore s img → kind = byteAt img 0x08 →
    let ok := kind ≤ 2 ∧ numAt img 0x10 8 % 4096 = 0 ∧ 256 ≤ numAt img 0x18 4 ∧ numAt img 0x18 4 ≤ slotBytes ∧
      hostBase + numAt img 0x10 8 + numAt img 0x18 4 ≤ paSpace
    (¬ok → exec .shore s = .next (mgmtReply s0 (msg .shore s img) 0x03 kind)) ∧
    (ok → s.host.on1.getLsbD (5 + kind) = false → exec .shore s = .next (mgmtReply s0 (msg .shore s img) 0x01 kind)) ∧
    (ok → s.host.on1.getLsbD (5 + kind) = true → s.fw.shoring ≠ none → exec .shore s = .next (mgmtReply s0 (msg .shore s img) 0x02 kind)) ∧
    (ok → s.host.on1.getLsbD (5 + kind) = true → s.fw.shoring = none → exec .shore s = .next (setShoring s0 (some
      { kind := kind, phase := .stage, since := s.time, tag := (msg .shore s img).tag, addr := numAt img 0x10 8, len := numAt img 0x18 4,
        image := noImage, record := [], status := 0, log := [], heldReplies := [] })))) ∧
  (∀ s r, s.fw.shoring = some r → r.phase = .stage →
    (r.since + 200000000 ≤ s.time → exec .shoreStageTimeout s = .next (endShoring s r 0x03)) ∧
    (s.time < r.since + 200000000 →
      (imageGood r.kind (hostRead s r.addr r.len) = true → exec .shoreStageComplete s =
        .next (pauseRetraining r.kind (toPhase (reserveWrite s (imageSlot s r.kind (!oldSlot s r.kind)) (hostRead s r.addr r.len))
          { r with image := imageOf (!oldSlot s r.kind) (hostRead s r.addr r.len) } .handover))) ∧
      (imageGood r.kind (hostRead s r.addr r.len) = false → exec .shoreStageComplete s = .next (endShoring s r 0x03)))) ∧
  (∀ s r, s.fw.shoring = some r → r.phase = .handover →
    (r.since + 10000000 ≤ s.time → exec .handoverTimeout s = .next (endShoring s r 0x04)) ∧
    (∀ b, s.time < r.since + 10000000 → s.cur.arg = .record b → inHand s r.kind = false → exec .handoverRecordWritten s =
      .next (toPhase (startImage (reserveWrite s (recordBase s) b) r.kind r.image) { r with record := b } .acceptance))) ∧
  (∀ s r, s.fw.shoring = some r → r.phase = .acceptance →
    (r.since + gapLimit r.kind ≤ s.time → exec .shoreGapLimitExpiry s = .next (startFallback s r 0x06)) ∧
    (s.time < r.since + gapLimit r.kind →
      (recordGood r.kind r.image.schema r.record = false → exec .shoreAcceptance s = .next (startFallback s r 0x05)) ∧
      (recordGood r.kind r.image.schema r.record = true → exec .shoreAcceptance s =
        .next (resumeRetraining r.kind (toPhase s r .proving))))) ∧
  (∀ s r, s.fw.shoring = some r → r.phase = .proving →
    ((coresOfKind r.kind).any (coreStopped s) = true → exec .watchdogHeartbeatMiss s = .next (startFallback s r 0x08)) ∧
    ((coresOfKind r.kind).any (coreStopped s) = false → (coresOfKind r.kind).any (coreLate s r) = true →
      exec .watchdogHeartbeatMiss s = .next (startFallback s r 0x07)) ∧
    (r.since + 1000000000 ≤ s.time → watchdogStatus s r = none → ∃ s', exec .shoreCommit s = .next s' ∧ s'.fw.shoring = none ∧
      mfind s'.fw.images r.kind = some r.image ∧ s'.fw.shorings = s.fw.shorings + 1)) ∧
  (∀ s r, s.fw.shoring = some r → r.phase = .fallback →
    ((∀ c ∈ r.log, isAttest c.instr = false) → ∃ s', exec .shoreFallbackComplete s = .next s' ∧ s'.fw.shoring = none ∧
      s'.fw.images = s.fw.images) ∧
    (∃ s', exec .shoreFallbackComplete s = .next s' ∧ (s'.fw.shoring = none ∨ ∃ q c t, s'.fw.shoring = some q ∧ q.phase = .rehandle ∧
      q.kind = r.kind ∧ q.log = c :: t ∧ isAttest c.instr = true ∧ q.log <:+ r.log))) ∧
  (∀ s r, s.fw.shoring = some r → r.phase = .rehandle →
    (r.log = [] → exec .shoreFallbackComplete s = .next (setShoring s none)) ∧
    (∀ c t, r.log = c :: t → (∀ s1, rehandleOne r c s = .ok s1 → exec .shoreFallbackComplete s = .next (rehandle r t s1)) ∧
      (∀ w, rehandleOne r c s = .error w → exec .shoreFallbackComplete s = .next (setShoring w (some { r with log := c :: t }))))) ∧
  (∀ s r st, ∃ r', (startFallback s r st).fw.shoring = some r' ∧ r'.phase = .fallback ∧ r'.status = st ∧ r'.since = s.time)

/-! ## Events: clocks, errors, links, paging -/

/-- R9, R17, R54, R59, R60: a die's clock is lowered and raised by 100 MHz within 900 to 1,500, and the host told; a device-
fatal error writes its dump and leaves the machine FATAL with everything abandoned. -/
def Obligations.ClocksAndFatalErrors : Prop :=
  (∀ s d, s.cur.arg = .ix d → running s = true → inGap s 0 = false → d < 2 →
    (1000 ≤ (die s d).mhz → exec .thermalThrottle s = .next (mqEvent (setDie s d { die s d with mhz := (die s d).mhz - 100 })
      [eventRecord 0xE4 d ((die s d).mhz - 100)])) ∧
    ((die s d).mhz ≤ 1400 → exec .thermalRecover s = .next (mqEvent (setDie s d { die s d with mhz := (die s d).mhz + 100 })
      [eventRecord 0xE4 d ((die s d).mhz + 100)]))) ∧
  (∀ s d, s.cur.arg = .ix d → running s = true → d < 2 →
    exec .thermalFatal s = .next (fatalError s 1 d 0) ∧ exec .dieBridgeLoss s = .next (fatalError s 4 d 0)) ∧
  (∀ s d (e : Byte), s.cur.arg = .parity d e → running s = true → d < 2 → e ∈ [0x02, 0x03, 0x06, 0x08] →
    exec .stateParityError s = .next (fatalError s 5 d e)) ∧
  (∀ s k, s.host.state = .ready → firmwareCores.find? (lostCore s) = some k → exec .committedHeartbeatLoss s = .next (fatalError s 2 (dieOf k) 0)) ∧
  (∀ s c d e, (fatalError s c d e).host.state = .fatal ∧ (∀ k, threadOf (fatalError s c d e) k = none) ∧ (fatalError s c d e).ctxs = [] ∧
    (fatalError s c d e).work = workReset)

/-- R13, R14, R52, R65, R67, R68, R98-R101: replays, the retraining of a port and its end, the unknown outcome of a discarded
write, a peer lost with its port or by its epoch, and reachable again; what a scrub finds in a sector with up to two wrong symbols. -/
def Obligations.LinksPeersAndScrub : Prop :=
  (∀ s p n x, s.cur.arg = .ix2 p n → x = portOf s p → x.state = .up → ∃ y, exec .linkReplayRequest s = .next (setPort s p y) ∧
    y.buffer = x.buffer.filter (fun f => decide (n ≤ f.seq)) ∧ y.replays = x.replays + 1 ∧ y.state = .up ∧ y.nextSeq = x.nextSeq ∧
    y.recent = s.time :: x.recent.filter (fun t => decide (s.time < t + 1000000))) ∧
  (∀ s p l x, s.cur.arg = .retrain p l → x = portOf s p → x.state = .up →
    l = true ∨ 64 < (x.recent.filter (fun t => decide (s.time < t + 1000000))).length →
    exec .linkRetrainStart s = .next (setPort s p { x with state := .retraining, retrainUsed := 0
                                                           retrainFrom := if inGap s 2 then none else some s.time
                                                           retrainLimit := s.links.limitMs })) ∧
  (∀ s p x t, s.cur.arg = .ix p → x = portOf s p → x.state = .retraining → x.retrainFrom = some t → inGap s 2 = false →
    (s.time + x.retrainUsed < t + x.retrainLimit * 1000000 → exec .linkRetrainSuccess s =
      .next (setPort s p { x with state := .up, buffer := [], recent := [], retrainFrom := none })) ∧
    (t + x.retrainLimit * 1000000 ≤ s.time + x.retrainUsed → exec .linkRetrainLimitExpiry s =
      .next (setPort (discardFlits s x.buffer) p { x with state := .down, buffer := [], retrainFrom := none }))) ∧
  (∀ s f, (discardFlits s [f]).mem = peerPut s.mem f.sector f.was ∨
    (discardFlits s [f]).mem = homeMergeW (peerPut s.mem f.sector f.was) f.sector f.data f.mask f.tags f.tagged false) ∧
  (∀ s p n, mfind s.links.routes p = some n → (peerState s p).lost = false →
    (s.cur.arg = .ix p → (portOf s n).state = .down → exec .peerLost s = .next (losePeer s p (peerState s p).epoch)) ∧
    (∀ e, s.cur.arg = .ix2 p e → (peerState s p).epoch ≠ e → exec .peerLost s = .next (losePeer s p e))) ∧
  (∀ s p e n, s.cur.arg = .ix2 p e → mfind s.links.routes p = some n → (peerState s p).lost = true → running s = true →
    inGap s 2 = false → (portOf s n).state ≠ .retraining → ∃ s', exec .peerReachable s = .next s' ∧ peerState s' p = ⟨false, e⟩ ∧
      (portOf s' n).state = .up) ∧
  (∀ s f o sec s1, s.cur.arg = .scrub [f] → running s = true → s.fw.dumpPending = false → s.hbm.absent.contains f.channel = false →
    f.channel < 1024 → f.sector < 60 → o = f.group * 3840 + 64 * f.sector → o + 64 ≤ 720 * 2 ^ 20 → sec = paOfUsable s f.channel o / 64 →
    s1 = { s with sched := { s.sched with freeCtr := s.sched.freeCtr + 1 } } →
    (f.symbols = 0 → exec .hbmScrub s = .next s1) ∧
    (f.symbols = 1 → exec .hbmScrub s = .next (noteCorrected s1 f.channel 1)) ∧
    (f.symbols = 2 → exec .hbmScrub s = .next (noteRead (setMem s1 { ripen s.mem sec with
      poison := sput (ripen s.mem sec).poison sec, streamed := mdel (ripen s.mem sec).streamed sec }) sec)))

/-- R92-R97: the first-touch unit serves a zero-fill fault from its die's pool, unless the page maps nothing by then, or sends it on as
a miss; a pool below its bound
takes a frame; the oldest read of a DUP page is replicated or mapped without W; the oldest write to one begins its collapse. -/
def Obligations.Paging : Prop :=
  (∀ s cl i t, s.cur.arg = .ix2 cl i → (cluster s cl).touches[i]? = some t →
    (∀ e s1, hasFirstTouch s = true → firstTouch s cl ⟨t.ctx, t.va, t.leaf, t.leafPa⟩ = .got (some e) s1 →
      exec .firstTouchServe s = .next (installBoth (dropTouch s1 cl t) cl t.core e)) ∧
    (∀ s1, hasFirstTouch s = true → firstTouch s cl ⟨t.ctx, t.va, t.leaf, t.leafPa⟩ = .got none s1 →
      exec .firstTouchServe s = .next (dropTouch s1 cl t)) ∧
    (∀ s1, hasFirstTouch s = false ∧ s1 = s ∨ hasFirstTouch s = true ∧ firstTouch s cl ⟨t.ctx, t.va, t.leaf, t.leafPa⟩ = .empty s1 →
      exec .firstTouchServe s = .next (sendMiss (dropTouch s1 cl t) cl (coreOf t.core) t.ctx t.va .zeroFill))) ∧
  (∀ s (v : W64) f, s.cur.arg = .value v → f = v.toNat → running s = true → inGap s 1 = false → spareFrame s f = true →
    (die s (dieOfPa f)).ring.length < (counterOf s (dieOfPa f) poolCounter).b → exec .firstTouchServe s = .next (poolRefill s f)) ∧
  (∀ s cl m r e pa, s.cur.arg = .ix cl → inGap s 1 = false → (cluster s cl).misses = m :: r → tableLeaf s m.ctx m.va = some (e, pa) →
    wantsReplica m e = true → collapsing s m.ctx m.va = false → leafRefused s m.ctx e = false →
    (leafPeer e ≠ 0 → peerLost s (leafPeer e) = false) → portWaits s (xlatOf (entryFor m.ctx m.va e pa) m.va) = false →
    (∀ x, replicaOf s m.ctx m.va (dieOfCluster cl) = some x → exec .dupReadReplicate s =
      .next (fillHead s cl m (entryFor m.ctx m.va (replicaLeaf e x.frame) pa))) ∧
    (∀ s1, replicaOf s m.ctx m.va (dieOfCluster cl) = none → takeFrame s cl e = .empty s1 → exec .dupReadReplicate s =
      .next (fillHead s1 cl m (entryFor m.ctx m.va (e &&& ~~~wBit) pa))) ∧
    (∀ f s1, replicaOf s m.ctx m.va (dieOfCluster cl) = none → takeFrame s cl e = .got f s1 →
      ∃ s', exec .dupReadReplicate s = .next s' ∧ (∃ x ∈ s'.work.replicas, x.ctx = m.ctx ∧ x.frame = f ∧ x.die = dieOfCluster cl ∧
        x.leaf = e ∧ x.stale = false) ∧ (cluster s' cl).misses = (cluster s1 cl).misses.tail)) ∧
  (∀ s cl t r e pa, s.cur.arg = .ix cl → inGap s 1 = false → (cluster s cl).dupWrites = t :: r → collapsing s t.ctx t.va = false →
    tableLeaf (dropDupWrite s cl) t.ctx t.va = some (e, pa) → leafDup e = true →
    exec .dupWriteCollapse s = .next (beginShoot ⟨t.ctx, t.va / pageSize t.leaf * pageSize t.leaf, pageSize t.leaf, false, none, cl, 0, some t⟩
      (setMem (dropDupWrite s cl) (homeWriteQword s.mem pa (e &&& ~~~dupBit)))))

/-! ## Events: counters, phasers, the Joiner, sequences, engines -/

/-- R136, R145-R153, R168: the home of a counter serves the head of its queue once no core has to return an allowance, and
recalls first where one has; a return order sends a core's allowance home; a return adds its units; a probe takes half of what
lies idle; a completion arrives at its phaser, or at the event queue where the phaser is gone, and waits while an advance of the
phaser has its gather record to write, which is tried again; a held record is delivered when its queue has room. -/
def Obligations.StockAndPhaserEvents : Prop :=
  (∀ s n c r q s1, s.cur.arg = .ix n → s1 = arrive s (n / 4096) (fun r => r.ctr == n) → c = ctrOf s1 n → c.queue = r :: q →
    (c.recalling = none → recallTargets c r = [] → exec .stockHomeServe s =
      .next (serveRequest (updCtr s1 n (fun c => { c with queue := q, recalling := none })) n r)) ∧
    (c.recalling = none → recallTargets c r ≠ [] → exec .stockHomeServe s =
      .next (setCtr s1 n { c with recalling := some { waiting := recallTargets c r } })) ∧
    (∀ w, c.recalling = some w → w.waiting = [] → exec .stockHomeServe s =
      .next (serveRequest (updCtr s1 n (fun c => { c with queue := q, recalling := none })) n r)) ∧
    (∀ w, c.recalling = some w → w.waiting ≠ [] → exec .stockHomeServe s = .next s1)) ∧
  (∀ s n k w, s.cur.arg = .ix2 n k → (ctrOf s n).recalling = some w → w.waiting.contains k = true →
    (die s (n / 4096)).returns.any (fun r => r.ctr == n && r.core == k && r.recalling) = false →
    let mine := (Machine.core s k).allow.filter (fun e => e.ctr == n)
    ∃ s', exec .stockRecallOrder s = .next s' ∧ (∀ e ∈ (Machine.core s' k).allow, e.ctr = n → e.a = 0 ∧ e.present = false) ∧
      (die s' (n / 4096)).returns = (die s (n / 4096)).returns ++ [{ ctr := n, amount := mine.foldl (fun x e => x + e.a) 0, core := k, recalling := true, clears := true, overfill := false }]) ∧
  (∀ s d r l, s.cur.arg = .ix d → (die s d).returns = r :: l → r.ctr / 4096 = d → ∃ s', exec .stockReturnArrival s = .next s' ∧
    (die s' d).returns = l ∧ (ctrOf s' r.ctr).h = (ctrOf s r.ctr).h + r.amount ∧
    (ctrOf s' r.ctr).overfill = ((ctrOf s r.ctr).overfill || r.overfill)) ∧
  (∀ s n, s.cur.arg = .ix n → probeDue s n = true → exec .stockReclaimProbe s =
    .next ((ctrOf s n).presence.foldl (probeCore n (ctrOf s n).rf s.time) (setCtr s n { ctrOf s n with lastProbe := s.time }))) ∧
  (∀ s h c r l s1, s.cur.arg = .none → s.work.phComps = (h, c, r) :: l → s1 = setWork s { s.work with phComps := l } →
    (∀ p, phGet s (phIdOf h) = some p → p.due = false → p.ctx = c.ctx → r.status = 0 →
      exec .phaserCompletionArrival s = .next (phArrive s1 (phIdOf h) { p with pending := wrap48 (p.pending - r.bytes.toNat) })) ∧
    (∀ p, phGet s (phIdOf h) = some p → p.due = true → exec .phaserCompletionArrival s = .next s) ∧
    (phGet s (phIdOf h) = none → exec .phaserCompletionArrival s =
      .next (deliver s1 (.event c.ctx c.cluster { rcd := r, scope := keptScope c.acq c.scope, raw := none })))) ∧
  (∀ s e n i p, s.cur.arg = .ix2 e n → i = ⟨decide (64 ≤ e), e % 64, n⟩ → phGet s i = some p → p.due = true →
    exec .phaserCompletionArrival s = .next (phAdvance s i p)) ∧
  (∀ s h l s1, s.work.held = h :: l → tryHeld s h = some s1 →
    exec .heldRecordDelivery s = .next (setWork s1 { s1.work with held := s1.work.held.eraseP (· == h) }))

/-- R178-R200, R173, R182-R185: a slice starts the ready firing it chooses, asks for a pre-emption when the choice finds no
core, and resumes a pre-empted one; a firing asked to stop is saved at its safe point; quotas move at most every 10 us; an
overdue firing rotates one out; budgets start anew with their period, which what was spent past the last one's end is charged to, and
a spent one stops its context; a firing past its
overrun limit is killed; a frame that is done ends. -/
def Obligations.JoinerEvents : Prop :=
  (∀ s cl r, s.cur.arg = .ix cl → cl < 64 → r = refreshReady s →
    (∀ c ks, pickStart r cl = some (c, ks) → c.saved = none → drainsFirst r c.ctx c.frame c.stage c.coord = false →
      exec .firingStart s = .next (startFiring r cl c ks)) ∧
    (∀ c ks v, pickStart r cl = some (c, ks) → c.saved = some v → (∀ x ∈ v.threads, drainWaits r x.1 v.ctx = false) → exec .firingResume s = .next (resumeFiring r c v ks)) ∧
    (∀ c, pickStart r cl = none → pickBlocked r cl = some c → exec .firingStart s = .next (preemptFor r cl c)) ∧
    (∀ c, pickBlocked r cl = some c → exec .ageingIntervalExpiry s = .next (preemptFor r cl c)) ∧
    (∀ c, bestCand ((coreless r cl).filter (isOverdue r)) = some c →
      exec .overdueRotation s = .next (rotateFor r cl c)) ∧
    (quotaDue s cl = true → exec .quotaAdjust s = .next (setCluster s cl
      { cluster s cl with quotas := adjustQuotas s cl (cluster s cl).quotas, quotaAt := s.time }))) ∧
  (∀ s k t ts, s.cur.arg = .ix k → threadOf s k = some t → t.id.firmware = false → t.preempt ≠ .none → ts = unitThreads s k t →
    ts.length = slotsNeeded t → (∀ x ∈ ts, drained x.2 = true) → slotsNeeded t ≤ freeSlots s t.id.ctx →
    exec .preemptAtSafePoint s = .next (saveUnit s ts t)) ∧
  (∀ s n x, s.cur.arg = .ix n → n < 4096 → ctxOf s (BitVec.ofNat 12 n) = some x →
    (x.periodStart + x.sched.period * 1000 ≤ s.time →
      exec .budgetPeriodStart s = .next (markBudget false (BitVec.ofNat 12 n) (setCtx s (BitVec.ofNat 12 n) (nextPeriod x))) ∧
      (nextPeriod x).periodStart = x.periodStart + x.sched.period * 1000 ∧ (nextPeriod x).period = x.period + 1 ∧
      (nextPeriod x).sched = x.nextSched.getD x.sched ∧ (nextPeriod x).nextSched = none ∧ (nextPeriod x).spentCycles = false ∧
      (nextPeriod x).spentBytes = false ∧
      (x.late = [] → (nextPeriod x).cycles = 0 ∧ (nextPeriod x).hbmBytes = 0 ∧ (nextPeriod x).girtBytes = 0 ∧ (nextPeriod x).late = []) ∧
      (∀ l, x.late = [l] → l.start = x.periodStart + x.sched.period * 1000 → l.stop ≤ l.start + (x.nextSched.getD x.sched).period * 1000 →
        l.what = .cycles → (nextPeriod x).cycles = (l.stop - l.start) * l.each ∧ (nextPeriod x).hbmBytes = 0 ∧ (nextPeriod x).late = [])) ∧
    (x.sched.cycles ≠ 0 → x.sched.cycles * 1000 ≤ x.cycles → x.spentCycles = false →
      exec .cycleBudgetSpent s = .next (markBudget true (BitVec.ofNat 12 n) (setCtx s (BitVec.ofNat 12 n) { x with spentCycles := true }))) ∧
    (x.spentBytes = false → (x.sched.hbm ≠ 0 ∧ x.sched.hbm ≤ x.hbmBytes ∨ x.sched.girt ≠ 0 ∧ x.sched.girt ≤ x.girtBytes) →
      exec .byteBudgetSpent s = .next (setCtx s (BitVec.ofNat 12 n) { x with spentBytes := true }))) ∧
  (∀ s k t, s.cur.arg = .ix k → threadOf s k = some t → t.id.firmware = false → t.preempt = .budget →
    hasCommitted s t = false → overrunLimit s t < overrunCycles t →
    exec .overrunExpiry s = .next (killFiring s k tOverrun (BitVec.ofNat 64 (overrunCycles t)) t.pc)) ∧
  (∀ s f, s.work.frames.find? (frameDone s) = some f → exec .frameEnd s = .next (endFrame s f)) ∧
  (∀ s f, ∀ g ∈ (endFrame s f).work.frames, isFrame f.ctx f.number g = false)

/-- R262, R265, R282, R317, R451, R453, R457: the first drain that can be applied adds its tile or is discarded, and its sender
waits for one less; a sequence's waves go on; what an edit has held back runs once it need not wait; a rotation completes; an
after hold that is ready is granted; an engine takes the command at a place of its inbox, a copy engine one of the first 16. -/
def Obligations.SequenceAndEngineEvents : Prop :=
  (∀ s d ok s1, nextDrain s [] s.work.drains = some (d, ok) → s1 = setWork s { s.work with drains := s.work.drains.eraseP (· == d) } →
    exec .drainApply s = .next (noteDrained (if ok then applyDrain s1 d else s1) d)) ∧
  (∀ s n q s0 s1, s.cur.arg = .ix n → s0 = sweepHolds (retryMarks s) → seqOf s0 (BitVec.ofNat 32 n) = some q → advance q s0 = .ok ((), s1) →
    exec .waveEnterLayer s = .next s1) ∧
  (∀ s i e c l s1, s.cur.arg = .ix i → s.work.edits[i]? = some e → e.cmds = c :: l → mustSettle s c = false →
    (∀ q, seqNamed s c = some q → rotationOpen s q = false ∧ marksWait s q = false) →
    s1 = setWork s { s.work with edits := if l.isEmpty then dropAt s.work.edits i else s.work.edits.set i { e with cmds := l } } →
    exec .editDeferredApply s = .next (advanceSeq e.seq (applyCmd (match seqOf s1 e.seq with | some q => q.die | none => 0) s s1 c))) ∧
  (∀ s i r s1, s.cur.arg = .ix i → s.work.rotations[i]? = some r → rotateEdit r s = .ok ((), s1) →
    exec .editRotationComplete s = .next s1) ∧
  (∀ s n h q s1, s.cur.arg = .ix n → s.work.holds.find? (fun h => h.req == n && !h.granted) = some h → seqOf s h.seq = some q →
    grantAfter n s = .ok ((), s1) → exec .afterHoldGrant s = .next s1) ∧
  (∀ s cl ix c s1, s.cur.arg = .engine (.copy cl) ix → ((cluster s cl).copy.take 16)[ix]? = some c → isCprot c.instr = false →
    s1 = setCluster s cl { cluster s cl with copy := dropAt (cluster s cl).copy ix } →
    exec .engineCommandComplete s = .next (copyApply c s s1)) ∧
  (∀ s ch c d, s.cur.arg = .engine (.bank ch) 0 → d = die s (ch / 512) → d.bank.find? (fun c => channelOfPa c.pa == ch) = some c →
    exec .engineCommandComplete s =
      .next (bankApply c s (setDie s (ch / 512) { d with bank := d.bank.eraseP (fun x => channelOfPa x.pa == ch) }))) ∧
  (∀ s cl ix c, s.cur.arg = .engine (.joiner cl) ix → pickCmd (cluster s cl).joiner ix = some c →
    exec .engineCommandComplete s =
      .next (joinerApply c s (setCluster s cl { cluster s cl with joiner := dropAt (cluster s cl).joiner ix }))) ∧
  (∀ s d ix c s1, s.cur.arg = .engine (.kiln d) ix → (die s d).kiln[ix]? = some c → firstOfSeq s c = true →
    s1 = setDie s d { die s d with kiln := dropAt (die s d).kiln ix } → c.instr ≠ .seqopen → c.instr ≠ .seqclose →
    exec .engineCommandComplete s = .next (takeCmd d s s1 c)) ∧
  (∀ s d ix c s1, s.cur.arg = .engine (.scribe d) ix → (die s d).scribe[ix]? = some c → firstOfSeq s c = true →
    s1 = setDie s d { die s d with scribe := dropAt (die s d).scribe ix } →
    exec .engineCommandComplete s = .next (takeCmd d s s1 c))

/-! ## Completion, from conditions on the state and the operands alone -/

/-- The gang of the current thread stands at the barrier, all four positions (R298, R300). -/
def Sys2Proof.Claims.gangStands (s : State) (t : Thread) (ts : List (Nat × Thread)) : Prop :=
  t.blockE = .barrier ∧ ts = gangThreads s s.cur.core t.id.batch ∧ ts.length = 4 ∧ (∀ x ∈ ts, x.2.blockE = .barrier) ∧ keysMatch ts = true
/-- A position of an MGRP without rows: it takes its rows of A and their scales without reading them, and is done (R310, R445). -/
def Sys2Proof.Claims.passGroup (o : MatOps) (s : State) (x : Nat × Thread) : State :=
  match threadOf s x.1 with
  | some t => setThreadOf s x.1 (gangDone (t.opn.section_ - 1) (passRows o t))
  | none => s
/-- The waves of a sequence make `n` moves and then none (R259, R260). -/
def Sys2Proof.Claims.waveMoves (q : Seq) : Nat → State → State → Prop
  | 0, s, s' => waveStep q s = .ok (false, s')
  | n + 1, s, s' => ∃ s1, waveStep q s = .ok (true, s1) ∧ waveMoves q n s1 s'
/-- TRAP, RETT and SIG (R384, R474, R476, R209, R386): for each, the state it leaves, from the mode, IN and the checker alone. -/
def Sys2Proof.Claims.TrapRettSigComplete : Prop :=
  (∀ h (o : TrapOps) s t, Runs h s t → t.id.firmware = true → (h.s = true → t.slice = []) → t.wide = [] → exec (.trap h o) s =
    .next (setCur (noteTrap s s.cur.core 0x0D) (enterHandler t s.cur.pc 0x0D (o.imm.setWidth 64)))) ∧
  (∀ h (o : TrapOps) s t, Runs h s t → t.id.firmware = false → exec (.trap h o) s =
    .next (killFiring (noteTrap s s.cur.core 0x0D) s.cur.core 0x0D (o.imm.setWidth 64) s.cur.pc)) ∧
  (∀ h s t, Runs h s t → t.id.firmware = true → t.fw.tin = true → t.fw.tpc.toNat % 4 = 0 → isMaskWord s s.cur.core t t.fw.tpc = false →
    exec (.rett h) s = .next (jumpWith h s
      { t with regs := { t.regs with p := t.fw.tpred &&& 0xFFFE }, fw := { t.fw with tin := false } } t.fw.tpc)) ∧
  (∀ h (o : SigOps) s t, Runs h s t → (t.sig.expected = none ∨ t.sig.expected = some (~~~t.sig.crc)) →
    exec (.sig h o) s = .next (doneWith h s { t with sig := { crc := BitVec.allOnes 32, expected := some o.crc } }))
/-- MMUL, MGRP and MDRAIN (R295, R302-R310, R314, R448): once the gang stands at its barrier and the operands are readable, the items of A
and B before those of the scales, every
position's tile takes the products of the rows of A and its columns of B; the last position to come makes them stand there; an
MGRP of no rows passes over them; MDRAIN stores its rows converted, its events counted. -/
def Sys2Proof.Claims.MatrixComplete : Prop :=
  (∀ h (o : MatOps) s t i, Runs h s t → t.blockE ≠ .barrier → t.id.gang = true → i = Instr.mmul h o ∨ i = Instr.mgrp h o → wideClash s s.cur.core t i = false →
    checkMat t o = .ok () → exec i s = exec i (setCur s { t with blockE := .barrier })) ∧
  (∀ h (o : MatOps) s t ts skips skip dense p s1 a s2 b s3 sa s4 sb s5, Runs h s t → gangStands s t ts →
    aEach (readSkip (o.km1.toNat + 1)) ts s = .ok (skips, s1) → (∀ x ∈ skips, x = skip) → dense = denseOf skip → pairOf o.fa o.fb = some p → scaleOk p o.scale = true →
    aEach (fun x => readA (matOf x.2) dense x) ts s1 = .ok (a, s2) → aEach (fun x => readB (matOf x.2) dense x) ts s2 = .ok (b, s3) →
    aEach (fun x => readSa (matOf x.2) x) ts s3 = .ok (sa, s4) → aEach (fun x => readSb (matOf x.2) x) ts s4 = .ok (sb, s5) →
    let rows := zipLines a.flatten sa.flatten
    exec (.mmul h o) s = .next ((ts.zip (b.zip sb)).foldl (fun s x =>
      finishMat o p dense (fun i => some ((rows.drop i).headD ⟨[], []⟩, zipLines x.2.1 x.2.2)) x.1.1 s) s5)) ∧
  (∀ h (o : MatOps) s t ts x0 cs dense p s1 a s2 b s3 sa s4 sb, Runs h s t → gangStands s t ts → ts.head? = some x0 →
    cs = groupCounts (readCI x0.2 (matOf x0.2).tc) →
    dense = List.replicate (o.km1.toNat + 1) true → pairOf o.fa o.fb = some p → scaleOk p o.scale = true →
    (cs.foldl (· + ·) 0 = 0 → exec (.mgrp h o) s = .next (ts.foldl (passGroup o) s)) ∧
    (1 ≤ cs.foldl (· + ·) 0 → cs.foldl (· + ·) 0 ≤ 64 → aEach (fun x => readA (matOf x.2) dense x) ts s = .ok (a, s1) →
      aEach (fun x => aEach (fun c => if c = 0 then pure [] else readB (matOf x.2) dense x) cs) ts s1 = .ok (b, s2) →
      aEach (fun x => readSa (matOf x.2) x) ts s2 = .ok (sa, s3) →
      aEach (fun x => aEach (fun c => if c = 0 then pure [] else readSb (matOf x.2) x) cs) ts s3 = .ok (sb, s4) →
      let rows := zipLines a.flatten sa.flatten
      exec (.mgrp h o) s = .next ((ts.zip (b.zip sb)).foldl (fun s x => finishMat o p dense (fun i => (groupOfRow cs 0 i).map (fun g =>
        ((rows.drop i).headD ⟨[], []⟩, zipLines ((x.2.1.drop g).headD []) ((x.2.2.drop g).headD [])))) x.1.1 s) s4))) ∧
  (∀ h (o : MatOps) s t n N out s1, Runs h s t → o.a = .c n → N = (o.km1.toNat + 1) * 64 * (elemBitsOf o.fa / 8) → wideClash s s.cur.core t (.mdrain h o) = false →
    checkCap (getC t n) [1] permW (capCursor (getC t n).bits) N = .ok () → linesHeld (whoOf s.cur.core t) (curOf (getC t n)) N = true →
    out = (List.range (64 * (o.km1.toNat + 1))).map (fun i => drainElem o.fa (tileAt (getM t (mOf o.b)) i)) →
    s1 = setCore s s.cur.core (storeScratch (Machine.core s s.cur.core) (curOf (getC t n)) N
      (packElems (8 * (elemBitsOf o.fa / 8)) (out.map (·.1))) false) →
    exec (.mdrain h o) s = .next (doneAt h s1 (countEvents t (out.foldl (fun e r => e ||| r.2) evNone))))
/-- DRAIN_APPLY (R317): the oldest drain, of an instance with no firing running, in its order where it has one, adds its tile; to a
frame that is gone or withdrawn it is discarded; its sender waits for one less. -/
def Sys2Proof.Claims.DrainApplyCompletes : Prop :=
  ∀ s d l s1, s.work.drains = d :: l → s1 = setWork s { s.work with drains := l } →
    (findFrame s d.ctx d.frame = none → exec .drainApply s = .next (noteDrained s1 d)) ∧
    (∀ f, findFrame s d.ctx d.frame = some f → f.withdrawn = true → exec .drainApply s = .next (noteDrained s1 d)) ∧
    (∀ f i k n m, findFrame s d.ctx d.frame = some f → f.withdrawn = false → i = findInst f d.stage.toNat d.coord → i.running = 0 →
      k = d.pos.toNat * 8 + d.tileNo.toNat → n = drainStateOf i d.pos.toNat d.tileNo.toNat → (∀ q, d.seq = some q → q.toNat = n.next) →
      m = addTiles d.int32 (mget [] i.tiles k) d.tile → exec .drainApply s = .next (noteDrained (updFrame
        (writeTile s1 f d.stage.toNat d.coord d.pos.toNat d.tileNo.toNat m) d.ctx d.frame (fun f => setInst f { i with
          tiles := mset i.tiles k m
          drains := mset i.drains k { next := if d.seq.isSome then (n.next + 1) % 65536 else n.next, applied := n.applied + 1 } })) d))
/-- WAVE_ENTER_LAYER, EDIT_DEFERRED_APPLY, EDIT_ROTATION_COMPLETE and AFTER_HOLD_GRANT (R257, R259, R260, R256, R280, R278), the
sequence's structures readable: the waves form their items and move until none can; an edit laid aside makes its edit once its
items are out; a rotation gives what is left of its pages back and is over; an after hold whose generation is settled, with no
column queued or running, is granted and answered. -/
def Sys2Proof.Claims.SequenceEventsComplete : Prop :=
  (∀ s n q s0 d s1 cap s2 s3 k s4 s5, s.cur.arg = .ix n → s0 = sweepHolds (retryMarks s) → seqOf s0 (BitVec.ofNat 32 n) = some q →
    readDesc q s0 = .ok (d, s1) → mapCap q d s1 = .ok (cap, s2) → kFor (formItems q d cap) (wavesOf s2 q) s2 = .ok ((), s3) →
    (wavesOf s2 q = [] ∧ s4 = s3 ∨ k < (wavesOf s2 q).length * (2 * d.nlayer + 6) ∧ waveMoves q k s3 s4) →
    releaseOffcuts q s4 = .ok ((), s5) → exec .waveEnterLayer s = .next s5) ∧
  (∀ s n, s.cur.arg = .ix n → seqOf (sweepHolds (retryMarks s)) (BitVec.ofNat 32 n) = none →
    exec .waveEnterLayer s = .next (sweepHolds (retryMarks s))) ∧
  (∀ s n e, s.cur.arg = .ix n → s.work.edits[n]? = some e →
    (e.cmds = [] → exec .editDeferredApply s = .next (setWork s { s.work with edits := dropAt s.work.edits n })) ∧
    (∀ c q s1 ins h o r s2, e.cmds = [c] → c.instr = (if ins then Instr.edins h o else Instr.eddel h o) → seqNamed s c = some q → itemsOut s q = false → rotationOpen s q = false → marksWait s q = false →
      s1 = setWork s { s.work with edits := dropAt s.work.edits n } → hasScribe s1 = true → moveEdit ins c s1 = .ok (r, s2) →
      exec .editDeferredApply s = .next (advanceSeq e.seq (complete (dropGrants (kilnAgent q.die) s2) c engScribe r.status r.bytes r.result)))) ∧
  (∀ s n (r : Rotation) q d s1 rep s2 s3 q' s4 s5, s.cur.arg = .ix n → s.work.rotations[n]? = some r → seqOf s r.seq = some q → readDesc q s = .ok (d, s1) →
    rotateView (takeReserved q d r.gen) q d r.first r.count r.delta s1 = .ok (rep, s2) →
    kFor (poolPush q d) (((s2.work.rotations.find? (fun x => x.seq == r.seq && x.gen == r.gen)).map (·.pages)).getD []) s2 = .ok ((), s3) →
    s4 = (let x := setWork s3 { s3.work with rotations := s3.work.rotations.filter (fun x => !(x.seq == r.seq && x.gen == r.gen)) }
      if rep.poisoned then mqEvent x [eventRecord 0xE8 r.gen.toNat r.seq.toNat] else x) →
    q' = (seqOf s4 q.id).getD q → releaseOffcuts q' s4 = .ok ((), s5) → exec .editRotationComplete s = .next (advanceSeq r.seq s5)) ∧
  (∀ s n h q d s1 cap s2 xs s3 h' s4 w s5, s.cur.arg = .ix n → s.work.holds.find? (fun h => h.req == n && !h.granted) = some h → seqOf s h.seq = some q →
    readDesc q s = .ok (d, s1) →
    (genGe d.settled h.gen = false → exec .afterHoldGrant s = .next s1) ∧
    (genGe d.settled h.gen = true → mapCap q d s1 = .ok (cap, s2) →
      kEach (getCell q d cap h.layer) ((holdCols h).filter (fun c => decide (c < ncol d d.length))) s2 = .ok (xs, s3) →
      (∀ x ∈ xs, x.state ≠ cQueued ∧ x.state ≠ cRunning) → grantHold q d h s3 = .ok (h', s4) →
      holdWord q d h.layer h'.cols 0 (updHolds q (fun x => x.req == n) (fun _ => h') s4) = .ok (w, s5) →
      exec .afterHoldGrant s = .next (answer s5 h.core n w)))
/-- WIDE_UNIT_STEP (R296, R435, R436): of an instruction that works on its elements one by one, at most as many as there are lanes,
with readable sources and a destination that can be written: it goes on behind them, or is done and delivered. -/
def Sys2Proof.Claims.WideStepCompletes : Prop :=
  ∀ s row i k t (w : WideOp) r f n s0 xs s1 ys s2 zs s3 out s4 u o', s.cur.arg = .ix row → k = row * 4 + i →
    ([0, 1, 2, 3].map (fun i => (mget 0 s.wideRr row + i) % 4)).find? (fun i => wideBusy s (row * 4 + i)) = some i →
    (Machine.core s k).orphans = [] → threadOf s k = some t → t.wide = w :: r → wForm w.instr = some f → n = min (stepLanes f) (w.n - w.done) →
    (∃ h o, w.instr = .vadd h o ∨ w.instr = .vsub h o ∨ w.instr = .vmul h o ∨ w.instr = .vfma h o ∨ w.instr = .vmax h o ∨ w.instr = .vmin h o ∨
      w.instr = .vabs h o ∨ w.instr = .vexp2 h o ∨ w.instr = .vrsqe h o ∨ w.instr = .vrcpe h o ∨ w.instr = .vcmp h o ∨ w.instr = .vsel h o ∨
      w.instr = .vfill h o ∨ w.instr = .vcopy h o ∨ w.instr = .vcvt h o) →
    s0 = { s with wideRr := mset s.wideRr row ((i + 1) % 4) } → wideVals (whoOf k t) w.a w.done n s0 = .ok (xs, s1) → wideVals (whoOf k t) w.b w.done n s1 = .ok (ys, s2) →
    wideVals (whoOf k t) w.c w.done n s2 = .ok (zs, s3) →
    out = (xs.zip (ys.zip zs)).map (fun x => wideElem w.instr f.o (wideCtl w) x.1 x.2.1 x.2.2) →
    storeD (whoOf k t) w (out.map (·.1)) s3 = .ok ((), s4) → threadOf s4 k = some u → u.wide = w :: r →
    o' = { w with done := w.done + n, ev := out.foldl (fun e r => e ||| r.2) w.ev } →
    (w.n ≤ w.done + n → exec .wideUnitStep s = .next (setThreadOf s4 k (countEvents (deliverF { u with wide := r } o') o'.ev))) ∧
    (w.done + n < w.n → exec .wideUnitStep s = .next (setThreadOf s4 k { u with wide := o' :: r }))
/-- TRAP, RETT, SIG, MMUL, MGRP and MDRAIN, and the events DRAIN_APPLY, WAVE_ENTER_LAYER, EDIT_DEFERRED_APPLY,
EDIT_ROTATION_COMPLETE, AFTER_HOLD_GRANT and WIDE_UNIT_STEP, each answer the next state written out, from conditions on the state and
the operands alone (R384, R474, R476, R386, R302, R310, R314, R317, R257, R259, R256, R280, R296). -/
def Obligations.RemainingFormsComplete : Prop :=
  Claims.TrapRettSigComplete ∧ Claims.MatrixComplete ∧ Claims.DrainApplyCompletes ∧ Claims.SequenceEventsComplete ∧ Claims.WideStepCompletes
end

