-- ==== Sys2Proof/Laws/Encoding.lean ====
section
/-! SUPPORT. The laws of the encoding: fields of a word, operand bytes, and one lemma per codec, each reading back what
it wrote. -/
namespace Sys2Proof

/-! ## Words and fields -/

theorem rawOfWord_wordOfRaw (r : Raw) : rawOfWord (wordOfRaw r) = r := by
  obtain ⟨mj, mn, ⟨s, p, g, gn, hc, hi⟩, d, a, b, x⟩ := r
  simp only [rawOfWord, wordOfRaw, Raw.mk.injEq, Hdr.mk.injEq]
  refine ⟨?_, ?_, ⟨?_, ?_, ?_, ?_, ?_, ?_⟩, ?_, ?_, ?_, ?_⟩
  all_goals first
    | (ext i hi
       simp only [BitVec.getElem_extractLsb']
       repeat rw [BitVec.getLsbD_append]
       simp
       try grind)
    | (repeat rw [BitVec.getLsbD_append]
       simp)

theorem wordOfRaw_rawOfWord (w : IWord) : wordOfRaw (rawOfWord w) = w := by
  apply BitVec.eq_of_getLsbD_eq
  intro i hi
  simp only [rawOfWord, wordOfRaw]
  repeat rw [BitVec.getLsbD_append]
  simp only [BitVec.getLsbD_extractLsb', BitVec.getLsbD_ofBool]
  grind (splits := 20)

/-! ## Operand bytes (R364) -/

@[simp] theorem opdOfByte_byteOfOpd (o : Opd) : opdOfByte (byteOfOpd o) = o := by
  cases o with
  | xq => decide
  | aq => decide
  | c n => revert n; decide
  | l n => revert n; decide
  | d n => revert n; decide
  | i n => revert n; decide
  | o n => revert n; decide
  | s n => revert n; decide
  | f n => revert n; decide
  | m n => revert n; decide
  | imm n => revert n; decide +kernel
theorem byteOfOpd_opdOfByte (b : Byte) : byteOfOpd (opdOfByte b) = b := by revert b; decide +kernel

@[simp] theorem zero_zero (n : Nat) : zero 0#n = .ok () := by simp [zero]
@[simp] theorem creg_cByte (n : BitVec 6) : creg (cByte n) = .ok n := by
  have p : (cByte n).toNat < 0x40 := by revert n; decide
  have q : (cByte n).extractLsb' 0 6 = n := by revert n; decide
  simp only [creg, p, q, ite_true]
@[simp] theorem preg_pByte (n : BitVec 4) : preg (pByte n) = .ok n := by
  have p : (pByte n).toNat < 0x10 := by revert n; decide
  have q : (pByte n).extractLsb' 0 4 = n := by revert n; decide
  simp only [preg, p, q, ite_true]
@[simp] theorem sreg_sByte (n : BitVec 4) : sreg (sByte n) = .ok n := by
  have p : 0x58 ≤ (sByte n).toNat ∧ (sByte n).toNat < 0x68 := by revert n; decide
  have q : BitVec.ofNat 4 ((sByte n).toNat - 0x58) = n := by revert n; decide
  simp only [sreg, p, q, and_self, ite_true]
@[simp] theorem freg_fByte (n : BitVec 4) : freg (fByte n) = .ok n := by
  have p : 0x68 ≤ (fByte n).toNat ∧ (fByte n).toNat < 0x78 := by revert n; decide
  have q : BitVec.ofNat 4 ((fByte n).toNat - 0x68) = n := by revert n; decide
  simp only [freg, p, q, and_self, ite_true]
@[simp] theorem lreg_lByte (n : BitVec 2) : lreg (lByte n) = .ok n := by
  have p : 0x40 ≤ (lByte n).toNat ∧ (lByte n).toNat < 0x44 := by revert n; decide
  have q : (lByte n).extractLsb' 0 2 = n := by revert n; decide
  simp only [lreg, p, q, and_self, ite_true]

/-! ## The codecs -/

/-- the fields a codec sees of the word it wrote -/
def rawOf (major : Byte) (minor : BitVec 4) (h : Hdr) (b : Body) : Raw := { major, minor, h, d := b.d, a := b.a, b := b.b, x := b.x }
theorem rawOfWord_word (major : Byte) (minor : BitVec 4) (h : Hdr) (b : Body) :
    rawOfWord (word major minor h b) = rawOf major minor h b := rawOfWord_wordOfRaw _

theorem brDec_brEnc (major : Byte) (minor : BitVec 4) (h : Hdr) (o : BrOps) :
    brDec (rawOf major minor h (brEnc o)) = .ok o := by
  obtain ⟨off⟩ := o
  have f1 : (0#8 ++ off : BitVec 48).extractLsb' 0 40 = off := by
    ext i hi
    simp only [BitVec.getElem_extractLsb']
    repeat rw [BitVec.getLsbD_append]
    simp
    try grind
  have f2 : (0#8 ++ off : BitVec 48).extractLsb' 40 8 = 0 := by
    ext i hi
    simp only [BitVec.getElem_extractLsb']
    repeat rw [BitVec.getLsbD_append]
    simp
    try grind
  simp [brDec, brEnc, rawOf, bind, Except.bind, pure, Except.pure, f1, f2]

theorem brxDec_brxEnc (major : Byte) (minor : BitVec 4) (h : Hdr) (o : BrxOps) :
    brxDec (rawOf major minor h (brxEnc o)) = .ok o := by
  obtain ⟨a, b⟩ := o
  simp [brxDec, brxEnc, rawOf, bind, Except.bind, pure, Except.pure]

theorem callDec_callEnc (major : Byte) (minor : BitVec 4) (h : Hdr) (o : CallOps) :
    callDec (rawOf major minor h (callEnc o)) = .ok o := by
  obtain ⟨d, off⟩ := o
  have f1 : (0#8 ++ off : BitVec 48).extractLsb' 0 40 = off := by
    ext i hi
    simp only [BitVec.getElem_extractLsb']
    repeat rw [BitVec.getLsbD_append]
    simp
    try grind
  have f2 : (0#8 ++ off : BitVec 48).extractLsb' 40 8 = 0 := by
    ext i hi
    simp only [BitVec.getElem_extractLsb']
    repeat rw [BitVec.getLsbD_append]
    simp
    try grind
  simp [callDec, callEnc, rawOf, bind, Except.bind, pure, Except.pure, f1, f2]

theorem callxDec_callxEnc (major : Byte) (minor : BitVec 4) (h : Hdr) (o : CallxOps) :
    callxDec (rawOf major minor h (callxEnc o)) = .ok o := by
  obtain ⟨d, a⟩ := o
  simp [callxDec, callxEnc, rawOf, bind, Except.bind, pure, Except.pure]

theorem retDec_retEnc (major : Byte) (minor : BitVec 4) (h : Hdr) (o : RetOps) :
    retDec (rawOf major minor h (retEnc o)) = .ok o := by
  obtain ⟨a⟩ := o
  simp [retDec, retEnc, rawOf, bind, Except.bind, pure, Except.pure]

theorem trapDec_trapEnc (major : Byte) (minor : BitVec 4) (h : Hdr) (o : TrapOps) :
    trapDec (rawOf major minor h (trapEnc o)) = .ok o := by
  obtain ⟨imm⟩ := o
  simp [trapDec, trapEnc, rawOf, bind, Except.bind, pure, Except.pure]

theorem sigDec_sigEnc (major : Byte) (minor : BitVec 4) (h : Hdr) (o : SigOps) :
    sigDec (rawOf major minor h (sigEnc o)) = .ok o := by
  obtain ⟨crc⟩ := o
  have f1 : (0#16 ++ crc : BitVec 48).extractLsb' 0 32 = crc := by
    ext i hi
    simp only [BitVec.getElem_extractLsb']
    repeat rw [BitVec.getLsbD_append]
    simp
    try grind
  have f2 : (0#16 ++ crc : BitVec 48).extractLsb' 32 16 = 0 := by
    ext i hi
    simp only [BitVec.getElem_extractLsb']
    repeat rw [BitVec.getLsbD_append]
    simp
    try grind
  simp [sigDec, sigEnc, rawOf, bind, Except.bind, pure, Except.pure, f1, f2]

theorem intDec_intEnc (major : Byte) (minor : BitVec 4) (h : Hdr) (o : IntOps) :
    intDec (rawOf major minor h (intEnc o)) = .ok o := by
  obtain ⟨d, a, b, c, ty⟩ := o
  have f1 : (byteOfOpd c ++ 0#37 ++ ty : BitVec 48).extractLsb' 0 3 = ty := by
    ext i hi
    simp only [BitVec.getElem_extractLsb']
    repeat rw [BitVec.getLsbD_append]
    simp
    try grind
  have f2 : (byteOfOpd c ++ 0#37 ++ ty : BitVec 48).extractLsb' 3 37 = 0 := by
    ext i hi
    simp only [BitVec.getElem_extractLsb']
    repeat rw [BitVec.getLsbD_append]
    simp
    try grind
  have f3 : (byteOfOpd c ++ 0#37 ++ ty : BitVec 48).extractLsb' 40 8 = byteOfOpd c := by
    ext i hi
    simp only [BitVec.getElem_extractLsb']
    repeat rw [BitVec.getLsbD_append]
    simp
    try grind
  simp [intDec, intEnc, rawOf, bind, Except.bind, pure, Except.pure, f1, f2, f3]

theorem cmpDec_cmpEnc (major : Byte) (minor : BitVec 4) (h : Hdr) (o : CmpOps) :
    cmpDec (rawOf major minor h (cmpEnc o)) = .ok o := by
  obtain ⟨d, a, b, ty, cond⟩ := o
  have f1 : (0#40 ++ cond ++ 0#1 ++ ty : BitVec 48).extractLsb' 0 3 = ty := by
    ext i hi
    simp only [BitVec.getElem_extractLsb']
    repeat rw [BitVec.getLsbD_append]
    simp
    try grind
  have f2 : (0#40 ++ cond ++ 0#1 ++ ty : BitVec 48).extractLsb' 3 1 = 0 := by
    ext i hi
    simp only [BitVec.getElem_extractLsb']
    repeat rw [BitVec.getLsbD_append]
    simp
    try grind
  have f3 : (0#40 ++ cond ++ 0#1 ++ ty : BitVec 48).extractLsb' 4 4 = cond := by
    ext i hi
    simp only [BitVec.getElem_extractLsb']
    repeat rw [BitVec.getLsbD_append]
    simp
    try grind
  have f4 : (0#40 ++ cond ++ 0#1 ++ ty : BitVec 48).extractLsb' 8 40 = 0 := by
    ext i hi
    simp only [BitVec.getElem_extractLsb']
    repeat rw [BitVec.getLsbD_append]
    simp
    try grind
  simp [cmpDec, cmpEnc, rawOf, bind, Except.bind, pure, Except.pure, f1, f2, f3, f4]

theorem selDec_selEnc (major : Byte) (minor : BitVec 4) (h : Hdr) (o : SelOps) :
    selDec (rawOf major minor h (selEnc o)) = .ok o := by
  obtain ⟨d, p, b, c⟩ := o
  have f1 : (byteOfOpd c ++ 0#40 : BitVec 48).extractLsb' 0 40 = 0 := by
    ext i hi
    simp only [BitVec.getElem_extractLsb']
    repeat rw [BitVec.getLsbD_append]
    simp
    try grind
  have f2 : (byteOfOpd c ++ 0#40 : BitVec 48).extractLsb' 40 8 = byteOfOpd c := by
    ext i hi
    simp only [BitVec.getElem_extractLsb']
    repeat rw [BitVec.getLsbD_append]
    simp
    try grind
  simp [selDec, selEnc, rawOf, bind, Except.bind, pure, Except.pure, f1, f2]

theorem movDec_movEnc (major : Byte) (minor : BitVec 4) (h : Hdr) (o : MovOps) :
    movDec (rawOf major minor h (movEnc o)) = .ok o := by
  obtain ⟨d, a⟩ := o
  simp [movDec, movEnc, rawOf, bind, Except.bind, pure, Except.pure]

theorem moviDec_moviEnc (major : Byte) (minor : BitVec 4) (h : Hdr) (o : MoviOps) :
    moviDec (rawOf major minor h (moviEnc o)) = .ok o := by
  obtain ⟨d, imm⟩ := o
  simp [moviDec, moviEnc, rawOf, bind, Except.bind, pure, Except.pure]

theorem predDec_predEnc (major : Byte) (minor : BitVec 4) (h : Hdr) (o : PredOps) :
    predDec (rawOf major minor h (predEnc o)) = .ok o := by
  obtain ⟨d, a, b⟩ := o
  simp [predDec, predEnc, rawOf, bind, Except.bind, pure, Except.pure]

theorem rngDec_rngEnc (major : Byte) (minor : BitVec 4) (h : Hdr) (o : RngOps) :
    rngDec (rawOf major minor h (rngEnc o)) = .ok o := by
  obtain ⟨d, a, b⟩ := o
  simp [rngDec, rngEnc, rawOf, bind, Except.bind, pure, Except.pure]

theorem capDec_capEnc (major : Byte) (minor : BitVec 4) (h : Hdr) (o : CapOps) :
    capDec (rawOf major minor h (capEnc o)) = .ok o := by
  obtain ⟨d, a, b⟩ := o
  simp [capDec, capEnc, rawOf, bind, Except.bind, pure, Except.pure]

theorem memDec_memEnc (major : Byte) (minor : BitVec 4) (h : Hdr) (o : MemOps) :
    memDec (rawOf major minor h (memEnc o)) = .ok o := by
  obtain ⟨d, a, b, scope, size, sx, off⟩ := o
  have f1 : (0#8 ++ scope ++ size ++ BitVec.ofBool sx ++ 0#17 ++ off : BitVec 48).extractLsb' 0 16 = off := by
    ext i hi
    simp only [BitVec.getElem_extractLsb']
    repeat rw [BitVec.getLsbD_append]
    simp
    try grind
  have f2 : (0#8 ++ scope ++ size ++ BitVec.ofBool sx ++ 0#17 ++ off : BitVec 48).extractLsb' 16 17 = 0 := by
    ext i hi
    simp only [BitVec.getElem_extractLsb']
    repeat rw [BitVec.getLsbD_append]
    simp
    try grind
  have f3 : (0#8 ++ scope ++ size ++ BitVec.ofBool sx ++ 0#17 ++ off : BitVec 48)[33] = sx := by
    show (0#8 ++ scope ++ size ++ BitVec.ofBool sx ++ 0#17 ++ off : BitVec 48).getLsbD 33 = sx
    repeat rw [BitVec.getLsbD_append]
    simp
  have f4 : (0#8 ++ scope ++ size ++ BitVec.ofBool sx ++ 0#17 ++ off : BitVec 48).extractLsb' 34 3 = size := by
    ext i hi
    simp only [BitVec.getElem_extractLsb']
    repeat rw [BitVec.getLsbD_append]
    simp
    try grind
  have f5 : (0#8 ++ scope ++ size ++ BitVec.ofBool sx ++ 0#17 ++ off : BitVec 48).extractLsb' 37 3 = scope := by
    ext i hi
    simp only [BitVec.getElem_extractLsb']
    repeat rw [BitVec.getLsbD_append]
    simp
    try grind
  have f6 : (0#8 ++ scope ++ size ++ BitVec.ofBool sx ++ 0#17 ++ off : BitVec 48).extractLsb' 40 8 = 0 := by
    ext i hi
    simp only [BitVec.getElem_extractLsb']
    repeat rw [BitVec.getLsbD_append]
    simp
    try grind
  simp [memDec, memEnc, rawOf, bind, Except.bind, pure, Except.pure, f1, f2, f3, f4, f5, f6]

theorem sdefDec_sdefEnc (major : Byte) (minor : BitVec 4) (h : Hdr) (o : SdefOps) :
    sdefDec (rawOf major minor h (sdefEnc o)) = .ok o := by
  obtain ⟨d, a, b, fmt⟩ := o
  have f1 : (0#17 ++ fmt ++ 0#24 : BitVec 48).extractLsb' 0 24 = 0 := by
    ext i hi
    simp only [BitVec.getElem_extractLsb']
    repeat rw [BitVec.getLsbD_append]
    simp
    try grind
  have f2 : (0#17 ++ fmt ++ 0#24 : BitVec 48).extractLsb' 24 7 = fmt := by
    ext i hi
    simp only [BitVec.getElem_extractLsb']
    repeat rw [BitVec.getLsbD_append]
    simp
    try grind
  have f3 : (0#17 ++ fmt ++ 0#24 : BitVec 48).extractLsb' 31 17 = 0 := by
    ext i hi
    simp only [BitVec.getElem_extractLsb']
    repeat rw [BitVec.getLsbD_append]
    simp
    try grind
  simp [sdefDec, sdefEnc, rawOf, bind, Except.bind, pure, Except.pure, f1, f2, f3]

theorem sdefwDec_sdefwEnc (major : Byte) (minor : BitVec 4) (h : Hdr) (o : SdefwOps) :
    sdefwDec (rawOf major minor h (sdefwEnc o)) = .ok o := by
  obtain ⟨d, a, b⟩ := o
  simp [sdefwDec, sdefwEnc, rawOf, bind, Except.bind, pure, Except.pure]

theorem sdefkDec_sdefkEnc (major : Byte) (minor : BitVec 4) (h : Hdr) (o : SdefkOps) :
    sdefkDec (rawOf major minor h (sdefkEnc o)) = .ok o := by
  obtain ⟨d, a, b, layer⟩ := o
  have f1 : (0#24 ++ layer ++ 0#15 : BitVec 48).extractLsb' 0 15 = 0 := by
    ext i hi
    simp only [BitVec.getElem_extractLsb']
    repeat rw [BitVec.getLsbD_append]
    simp
    try grind
  have f2 : (0#24 ++ layer ++ 0#15 : BitVec 48).extractLsb' 15 9 = layer := by
    ext i hi
    simp only [BitVec.getElem_extractLsb']
    repeat rw [BitVec.getLsbD_append]
    simp
    try grind
  have f3 : (0#24 ++ layer ++ 0#15 : BitVec 48).extractLsb' 24 24 = 0 := by
    ext i hi
    simp only [BitVec.getElem_extractLsb']
    repeat rw [BitVec.getLsbD_append]
    simp
    try grind
  simp [sdefkDec, sdefkEnc, rawOf, bind, Except.bind, pure, Except.pure, f1, f2, f3]

theorem sdefsDec_sdefsEnc (major : Byte) (minor : BitVec 4) (h : Hdr) (o : SdefsOps) :
    sdefsDec (rawOf major minor h (sdefsEnc o)) = .ok o := by
  obtain ⟨d, a⟩ := o
  simp [sdefsDec, sdefsEnc, rawOf, bind, Except.bind, pure, Except.pure]

theorem sldDec_sldEnc (major : Byte) (minor : BitVec 4) (h : Hdr) (o : SldOps) :
    sldDec (rawOf major minor h (sldEnc o)) = .ok o := by
  obtain ⟨d, a⟩ := o
  simp [sldDec, sldEnc, rawOf, bind, Except.bind, pure, Except.pure]

theorem sstDec_sstEnc (major : Byte) (minor : BitVec 4) (h : Hdr) (o : SstOps) :
    sstDec (rawOf major minor h (sstEnc o)) = .ok o := by
  obtain ⟨d, a⟩ := o
  simp [sstDec, sstEnc, rawOf, bind, Except.bind, pure, Except.pure]

theorem fenceDec_fenceEnc (major : Byte) (minor : BitVec 4) (h : Hdr) (o : FenceOps) :
    fenceDec (rawOf major minor h (fenceEnc o)) = .ok o := by
  obtain ⟨d, scope⟩ := o
  have f1 : (0#8 ++ scope ++ 0#37 : BitVec 48).extractLsb' 0 37 = 0 := by
    ext i hi
    simp only [BitVec.getElem_extractLsb']
    repeat rw [BitVec.getLsbD_append]
    simp
    try grind
  have f2 : (0#8 ++ scope ++ 0#37 : BitVec 48).extractLsb' 37 3 = scope := by
    ext i hi
    simp only [BitVec.getElem_extractLsb']
    repeat rw [BitVec.getLsbD_append]
    simp
    try grind
  have f3 : (0#8 ++ scope ++ 0#37 : BitVec 48).extractLsb' 40 8 = 0 := by
    ext i hi
    simp only [BitVec.getElem_extractLsb']
    repeat rw [BitVec.getLsbD_append]
    simp
    try grind
  simp [fenceDec, fenceEnc, rawOf, bind, Except.bind, pure, Except.pure, f1, f2, f3]

theorem lineDec_lineEnc (major : Byte) (minor : BitVec 4) (h : Hdr) (o : LineOps) :
    lineDec (rawOf major minor h (lineEnc o)) = .ok o := by
  obtain ⟨a, scope⟩ := o
  have f1 : (0#8 ++ scope ++ 0#37 : BitVec 48).extractLsb' 0 37 = 0 := by
    ext i hi
    simp only [BitVec.getElem_extractLsb']
    repeat rw [BitVec.getLsbD_append]
    simp
    try grind
  have f2 : (0#8 ++ scope ++ 0#37 : BitVec 48).extractLsb' 37 3 = scope := by
    ext i hi
    simp only [BitVec.getElem_extractLsb']
    repeat rw [BitVec.getLsbD_append]
    simp
    try grind
  have f3 : (0#8 ++ scope ++ 0#37 : BitVec 48).extractLsb' 40 8 = 0 := by
    ext i hi
    simp only [BitVec.getElem_extractLsb']
    repeat rw [BitVec.getLsbD_append]
    simp
    try grind
  simp [lineDec, lineEnc, rawOf, bind, Except.bind, pure, Except.pure, f1, f2, f3]

theorem spDec_spEnc (major : Byte) (minor : BitVec 4) (h : Hdr) (o : SpOps) :
    spDec (rawOf major minor h (spEnc o)) = .ok o := by
  obtain ⟨d, a⟩ := o
  simp [spDec, spEnc, rawOf, bind, Except.bind, pure, Except.pure]

theorem atomDec_atomEnc (major : Byte) (minor : BitVec 4) (h : Hdr) (o : AtomOps) :
    atomDec (rawOf major minor h (atomEnc o)) = .ok o := by
  obtain ⟨d, a, b, c, scope, order, w64, off⟩ := o
  have f1 : (byteOfOpd c ++ scope ++ order ++ BitVec.ofBool w64 ++ 0#18 ++ off : BitVec 48).extractLsb' 0 16 = off := by
    ext i hi
    simp only [BitVec.getElem_extractLsb']
    repeat rw [BitVec.getLsbD_append]
    simp
    try grind
  have f2 : (byteOfOpd c ++ scope ++ order ++ BitVec.ofBool w64 ++ 0#18 ++ off : BitVec 48).extractLsb' 16 18 = 0 := by
    ext i hi
    simp only [BitVec.getElem_extractLsb']
    repeat rw [BitVec.getLsbD_append]
    simp
    try grind
  have f3 : (byteOfOpd c ++ scope ++ order ++ BitVec.ofBool w64 ++ 0#18 ++ off : BitVec 48)[34] = w64 := by
    show (byteOfOpd c ++ scope ++ order ++ BitVec.ofBool w64 ++ 0#18 ++ off : BitVec 48).getLsbD 34 = w64
    repeat rw [BitVec.getLsbD_append]
    simp
  have f4 : (byteOfOpd c ++ scope ++ order ++ BitVec.ofBool w64 ++ 0#18 ++ off : BitVec 48).extractLsb' 35 2 = order := by
    ext i hi
    simp only [BitVec.getElem_extractLsb']
    repeat rw [BitVec.getLsbD_append]
    simp
    try grind
  have f5 : (byteOfOpd c ++ scope ++ order ++ BitVec.ofBool w64 ++ 0#18 ++ off : BitVec 48).extractLsb' 37 3 = scope := by
    ext i hi
    simp only [BitVec.getElem_extractLsb']
    repeat rw [BitVec.getLsbD_append]
    simp
    try grind
  have f6 : (byteOfOpd c ++ scope ++ order ++ BitVec.ofBool w64 ++ 0#18 ++ off : BitVec 48).extractLsb' 40 8 = byteOfOpd c := by
    ext i hi
    simp only [BitVec.getElem_extractLsb']
    repeat rw [BitVec.getLsbD_append]
    simp
    try grind
  simp [atomDec, atomEnc, rawOf, bind, Except.bind, pure, Except.pure, f1, f2, f3, f4, f5, f6]

theorem redwDec_redwEnc (major : Byte) (minor : BitVec 4) (h : Hdr) (o : RedOps) :
    redwDec (rawOf major minor h (redwEnc o)) = .ok o := by
  obtain ⟨a, b, off⟩ := o
  have f1 : (0#32 ++ off : BitVec 48).extractLsb' 0 16 = off := by
    ext i hi
    simp only [BitVec.getElem_extractLsb']
    repeat rw [BitVec.getLsbD_append]
    simp
    try grind
  have f2 : (0#32 ++ off : BitVec 48).extractLsb' 16 32 = 0 := by
    ext i hi
    simp only [BitVec.getElem_extractLsb']
    repeat rw [BitVec.getLsbD_append]
    simp
    try grind
  simp [redwDec, redwEnc, rawOf, bind, Except.bind, pure, Except.pure, f1, f2]

theorem stkPDec_stkPEnc (major : Byte) (minor : BitVec 4) (h : Hdr) (o : StkOps) (z : o.cd = 0) :
    stkPDec (rawOf major minor h (stkPEnc o)) = .ok o := by
  obtain ⟨pd, cd, a, b, c, isLocal⟩ := o
  cases z
  have f1 : (byteOfOpd c ++ 0#39 ++ BitVec.ofBool isLocal : BitVec 48)[0] = isLocal := by
    show (byteOfOpd c ++ 0#39 ++ BitVec.ofBool isLocal : BitVec 48).getLsbD 0 = isLocal
    repeat rw [BitVec.getLsbD_append]
    simp
  have f2 : (byteOfOpd c ++ 0#39 ++ BitVec.ofBool isLocal : BitVec 48).extractLsb' 1 39 = 0 := by
    ext i hi
    simp only [BitVec.getElem_extractLsb']
    repeat rw [BitVec.getLsbD_append]
    simp
    try grind
  have f3 : (byteOfOpd c ++ 0#39 ++ BitVec.ofBool isLocal : BitVec 48).extractLsb' 40 8 = byteOfOpd c := by
    ext i hi
    simp only [BitVec.getElem_extractLsb']
    repeat rw [BitVec.getLsbD_append]
    simp
    try grind
  simp [stkPDec, stkPEnc, rawOf, bind, Except.bind, pure, Except.pure, f1, f2, f3]

theorem stkCDec_stkCEnc (major : Byte) (minor : BitVec 4) (h : Hdr) (o : StkOps) (z : o.pd = 0) :
    stkCDec (rawOf major minor h (stkCEnc o)) = .ok o := by
  obtain ⟨pd, cd, a, b, c, isLocal⟩ := o
  cases z
  have f1 : (byteOfOpd c ++ 0#39 ++ BitVec.ofBool isLocal : BitVec 48)[0] = isLocal := by
    show (byteOfOpd c ++ 0#39 ++ BitVec.ofBool isLocal : BitVec 48).getLsbD 0 = isLocal
    repeat rw [BitVec.getLsbD_append]
    simp
  have f2 : (byteOfOpd c ++ 0#39 ++ BitVec.ofBool isLocal : BitVec 48).extractLsb' 1 39 = 0 := by
    ext i hi
    simp only [BitVec.getElem_extractLsb']
    repeat rw [BitVec.getLsbD_append]
    simp
    try grind
  have f3 : (byteOfOpd c ++ 0#39 ++ BitVec.ofBool isLocal : BitVec 48).extractLsb' 40 8 = byteOfOpd c := by
    ext i hi
    simp only [BitVec.getElem_extractLsb']
    repeat rw [BitVec.getLsbD_append]
    simp
    try grind
  simp [stkCDec, stkCEnc, rawOf, bind, Except.bind, pure, Except.pure, f1, f2, f3]

theorem phCDec_phCEnc (major : Byte) (minor : BitVec 4) (h : Hdr) (o : PhOps) (z : o.pd = 0) :
    phCDec (rawOf major minor h (phCEnc o)) = .ok o := by
  obtain ⟨cd, pd, a, b, mode⟩ := o
  cases z
  have f1 : (0#46 ++ mode : BitVec 48).extractLsb' 0 2 = mode := by
    ext i hi
    simp only [BitVec.getElem_extractLsb']
    repeat rw [BitVec.getLsbD_append]
    simp
    try grind
  have f2 : (0#46 ++ mode : BitVec 48).extractLsb' 2 46 = 0 := by
    ext i hi
    simp only [BitVec.getElem_extractLsb']
    repeat rw [BitVec.getLsbD_append]
    simp
    try grind
  simp [phCDec, phCEnc, rawOf, bind, Except.bind, pure, Except.pure, f1, f2]

theorem phPDec_phPEnc (major : Byte) (minor : BitVec 4) (h : Hdr) (o : PhOps) (z : o.cd = 0) :
    phPDec (rawOf major minor h (phPEnc o)) = .ok o := by
  obtain ⟨cd, pd, a, b, mode⟩ := o
  cases z
  have f1 : (0#46 ++ mode : BitVec 48).extractLsb' 0 2 = mode := by
    ext i hi
    simp only [BitVec.getElem_extractLsb']
    repeat rw [BitVec.getLsbD_append]
    simp
    try grind
  have f2 : (0#46 ++ mode : BitVec 48).extractLsb' 2 46 = 0 := by
    ext i hi
    simp only [BitVec.getElem_extractLsb']
    repeat rw [BitVec.getLsbD_append]
    simp
    try grind
  simp [phPDec, phPEnc, rawOf, bind, Except.bind, pure, Except.pure, f1, f2]

theorem evDec_evEnc (major : Byte) (minor : BitVec 4) (h : Hdr) (o : EvOps) :
    evDec (rawOf major minor h (evEnc o)) = .ok o := by
  obtain ⟨d, a⟩ := o
  simp [evDec, evEnc, rawOf, bind, Except.bind, pure, Except.pure]

theorem engDec_engEnc (major : Byte) (minor : BitVec 4) (h : Hdr) (o : EngOps) :
    engDec (rawOf major minor h (engEnc o)) = .ok o := by
  obtain ⟨d, a, b, acq, rel, scope, tag, cmd⟩ := o
  have f1 : (BitVec.ofBool acq ++ BitVec.ofBool rel ++ scope ++ tag ++ cmd : BitVec 48).extractLsb' 0 27 = cmd := by
    ext i hi
    simp only [BitVec.getElem_extractLsb']
    repeat rw [BitVec.getLsbD_append]
    simp
    try grind
  have f2 : (BitVec.ofBool acq ++ BitVec.ofBool rel ++ scope ++ tag ++ cmd : BitVec 48).extractLsb' 27 16 = tag := by
    ext i hi
    simp only [BitVec.getElem_extractLsb']
    repeat rw [BitVec.getLsbD_append]
    simp
    try grind
  have f3 : (BitVec.ofBool acq ++ BitVec.ofBool rel ++ scope ++ tag ++ cmd : BitVec 48).extractLsb' 43 3 = scope := by
    ext i hi
    simp only [BitVec.getElem_extractLsb']
    repeat rw [BitVec.getLsbD_append]
    simp
    try grind
  have f4 : (BitVec.ofBool acq ++ BitVec.ofBool rel ++ scope ++ tag ++ cmd : BitVec 48)[46] = rel := by
    show (BitVec.ofBool acq ++ BitVec.ofBool rel ++ scope ++ tag ++ cmd : BitVec 48).getLsbD 46 = rel
    repeat rw [BitVec.getLsbD_append]
    simp
  have f5 : (BitVec.ofBool acq ++ BitVec.ofBool rel ++ scope ++ tag ++ cmd : BitVec 48)[47] = acq := by
    show (BitVec.ofBool acq ++ BitVec.ofBool rel ++ scope ++ tag ++ cmd : BitVec 48).getLsbD 47 = acq
    repeat rw [BitVec.getLsbD_append]
    simp
  simp [engDec, engEnc, rawOf, bind, Except.bind, pure, Except.pure, f1, f2, f3, f4, f5]

theorem qiDec_qiEnc (major : Byte) (minor : BitVec 4) (h : Hdr) (o : QOps) :
    qiDec (rawOf major minor h (qiEnc o)) = .ok o := by
  obtain ⟨d, a, b⟩ := o
  simp [qiDec, qiEnc, rawOf, bind, Except.bind, pure, Except.pure]

theorem fpDec_fpEnc (major : Byte) (minor : BitVec 4) (h : Hdr) (o : FpOps) :
    fpDec (rawOf major minor h (fpEnc o)) = .ok o := by
  obtain ⟨d, a, b, c, rm, subn, ovf, nan, fmt, fmt2, opt⟩ := o
  have f1 : (byteOfOpd c ++ rm ++ subn ++ ovf ++ nan ++ fmt ++ fmt2 ++ opt ++ 0#13 : BitVec 48).extractLsb' 0 13 = 0 := by
    ext i hi
    simp only [BitVec.getElem_extractLsb']
    repeat rw [BitVec.getLsbD_append]
    simp
    try grind
  have f2 : (byteOfOpd c ++ rm ++ subn ++ ovf ++ nan ++ fmt ++ fmt2 ++ opt ++ 0#13 : BitVec 48).extractLsb' 13 4 = opt := by
    ext i hi
    simp only [BitVec.getElem_extractLsb']
    repeat rw [BitVec.getLsbD_append]
    simp
    try grind
  have f3 : (byteOfOpd c ++ rm ++ subn ++ ovf ++ nan ++ fmt ++ fmt2 ++ opt ++ 0#13 : BitVec 48).extractLsb' 17 7 = fmt2 := by
    ext i hi
    simp only [BitVec.getElem_extractLsb']
    repeat rw [BitVec.getLsbD_append]
    simp
    try grind
  have f4 : (byteOfOpd c ++ rm ++ subn ++ ovf ++ nan ++ fmt ++ fmt2 ++ opt ++ 0#13 : BitVec 48).extractLsb' 24 7 = fmt := by
    ext i hi
    simp only [BitVec.getElem_extractLsb']
    repeat rw [BitVec.getLsbD_append]
    simp
    try grind
  have f5 : (byteOfOpd c ++ rm ++ subn ++ ovf ++ nan ++ fmt ++ fmt2 ++ opt ++ 0#13 : BitVec 48).extractLsb' 31 2 = nan := by
    ext i hi
    simp only [BitVec.getElem_extractLsb']
    repeat rw [BitVec.getLsbD_append]
    simp
    try grind
  have f6 : (byteOfOpd c ++ rm ++ subn ++ ovf ++ nan ++ fmt ++ fmt2 ++ opt ++ 0#13 : BitVec 48).extractLsb' 33 2 = ovf := by
    ext i hi
    simp only [BitVec.getElem_extractLsb']
    repeat rw [BitVec.getLsbD_append]
    simp
    try grind
  have f7 : (byteOfOpd c ++ rm ++ subn ++ ovf ++ nan ++ fmt ++ fmt2 ++ opt ++ 0#13 : BitVec 48).extractLsb' 35 2 = subn := by
    ext i hi
    simp only [BitVec.getElem_extractLsb']
    repeat rw [BitVec.getLsbD_append]
    simp
    try grind
  have f8 : (byteOfOpd c ++ rm ++ subn ++ ovf ++ nan ++ fmt ++ fmt2 ++ opt ++ 0#13 : BitVec 48).extractLsb' 37 3 = rm := by
    ext i hi
    simp only [BitVec.getElem_extractLsb']
    repeat rw [BitVec.getLsbD_append]
    simp
    try grind
  have f9 : (byteOfOpd c ++ rm ++ subn ++ ovf ++ nan ++ fmt ++ fmt2 ++ opt ++ 0#13 : BitVec 48).extractLsb' 40 8 = byteOfOpd c := by
    ext i hi
    simp only [BitVec.getElem_extractLsb']
    repeat rw [BitVec.getLsbD_append]
    simp
    try grind
  simp [fpDec, fpEnc, rawOf, bind, Except.bind, pure, Except.pure, f1, f2, f3, f4, f5, f6, f7, f8, f9]

theorem mgangDec_mgangEnc (major : Byte) (minor : BitVec 4) (h : Hdr) (o : MgangOps) :
    mgangDec (rawOf major minor h (mgangEnc o)) = .ok o := by
  obtain ⟨n⟩ := o
  simp [mgangDec, mgangEnc, rawOf, bind, Except.bind, pure, Except.pure]

theorem matDec_matEnc (major : Byte) (minor : BitVec 4) (h : Hdr) (o : MatOps) :
    matDec (rawOf major minor h (matEnc o)) = .ok o := by
  obtain ⟨d, a, b, tc, sap, san, sbp, sbn, fa, fb, scale, km1⟩ := o
  have f1 : (byteOfOpd tc ++ BitVec.ofBool sap ++ san ++ BitVec.ofBool sbp ++ sbn ++ fa ++ fb ++ scale ++ km1 ++ 0#4 : BitVec 48).extractLsb' 0 4 = 0 := by
    ext i hi
    simp only [BitVec.getElem_extractLsb']
    repeat rw [BitVec.getLsbD_append]
    simp
    try grind
  have f2 : (byteOfOpd tc ++ BitVec.ofBool sap ++ san ++ BitVec.ofBool sbp ++ sbn ++ fa ++ fb ++ scale ++ km1 ++ 0#4 : BitVec 48).extractLsb' 4 10 = km1 := by
    ext i hi
    simp only [BitVec.getElem_extractLsb']
    repeat rw [BitVec.getLsbD_append]
    simp
    try grind
  have f3 : (byteOfOpd tc ++ BitVec.ofBool sap ++ san ++ BitVec.ofBool sbp ++ sbn ++ fa ++ fb ++ scale ++ km1 ++ 0#4 : BitVec 48).extractLsb' 14 2 = scale := by
    ext i hi
    simp only [BitVec.getElem_extractLsb']
    repeat rw [BitVec.getLsbD_append]
    simp
    try grind
  have f4 : (byteOfOpd tc ++ BitVec.ofBool sap ++ san ++ BitVec.ofBool sbp ++ sbn ++ fa ++ fb ++ scale ++ km1 ++ 0#4 : BitVec 48).extractLsb' 16 7 = fb := by
    ext i hi
    simp only [BitVec.getElem_extractLsb']
    repeat rw [BitVec.getLsbD_append]
    simp
    try grind
  have f5 : (byteOfOpd tc ++ BitVec.ofBool sap ++ san ++ BitVec.ofBool sbp ++ sbn ++ fa ++ fb ++ scale ++ km1 ++ 0#4 : BitVec 48).extractLsb' 23 7 = fa := by
    ext i hi
    simp only [BitVec.getElem_extractLsb']
    repeat rw [BitVec.getLsbD_append]
    simp
    try grind
  have f6 : (byteOfOpd tc ++ BitVec.ofBool sap ++ san ++ BitVec.ofBool sbp ++ sbn ++ fa ++ fb ++ scale ++ km1 ++ 0#4 : BitVec 48).extractLsb' 30 4 = sbn := by
    ext i hi
    simp only [BitVec.getElem_extractLsb']
    repeat rw [BitVec.getLsbD_append]
    simp
    try grind
  have f7 : (byteOfOpd tc ++ BitVec.ofBool sap ++ san ++ BitVec.ofBool sbp ++ sbn ++ fa ++ fb ++ scale ++ km1 ++ 0#4 : BitVec 48)[34] = sbp := by
    show (byteOfOpd tc ++ BitVec.ofBool sap ++ san ++ BitVec.ofBool sbp ++ sbn ++ fa ++ fb ++ scale ++ km1 ++ 0#4 : BitVec 48).getLsbD 34 = sbp
    repeat rw [BitVec.getLsbD_append]
    simp
  have f8 : (byteOfOpd tc ++ BitVec.ofBool sap ++ san ++ BitVec.ofBool sbp ++ sbn ++ fa ++ fb ++ scale ++ km1 ++ 0#4 : BitVec 48).extractLsb' 35 4 = san := by
    ext i hi
    simp only [BitVec.getElem_extractLsb']
    repeat rw [BitVec.getLsbD_append]
    simp
    try grind
  have f9 : (byteOfOpd tc ++ BitVec.ofBool sap ++ san ++ BitVec.ofBool sbp ++ sbn ++ fa ++ fb ++ scale ++ km1 ++ 0#4 : BitVec 48)[39] = sap := by
    show (byteOfOpd tc ++ BitVec.ofBool sap ++ san ++ BitVec.ofBool sbp ++ sbn ++ fa ++ fb ++ scale ++ km1 ++ 0#4 : BitVec 48).getLsbD 39 = sap
    repeat rw [BitVec.getLsbD_append]
    simp
  have f10 : (byteOfOpd tc ++ BitVec.ofBool sap ++ san ++ BitVec.ofBool sbp ++ sbn ++ fa ++ fb ++ scale ++ km1 ++ 0#4 : BitVec 48).extractLsb' 40 8 = byteOfOpd tc := by
    ext i hi
    simp only [BitVec.getElem_extractLsb']
    repeat rw [BitVec.getLsbD_append]
    simp
    try grind
  simp [matDec, matEnc, rawOf, bind, Except.bind, pure, Except.pure, f1, f2, f3, f4, f5, f6, f7, f8, f9, f10]

theorem tileDec_tileEnc (major : Byte) (minor : BitVec 4) (h : Hdr) (o : TileOps) :
    tileDec (rawOf major minor h (tileEnc o)) = .ok o := by
  obtain ⟨d, a⟩ := o
  simp [tileDec, tileEnc, rawOf, bind, Except.bind, pure, Except.pure]

theorem wholdDec_wholdEnc (major : Byte) (minor : BitVec 4) (h : Hdr) (m : BitVec 2) (o : WholdOps) :
    wholdDec (rawOf major minor h (wholdEnc m o)) = .ok o := by
  obtain ⟨d, a, b, c, layer⟩ := o
  have f1 : (byteOfOpd c ++ m ++ layer ++ 0#29 : BitVec 48).extractLsb' 0 29 = 0 := by
    ext i hi
    simp only [BitVec.getElem_extractLsb']
    repeat rw [BitVec.getLsbD_append]
    simp
    try grind
  have f2 : (byteOfOpd c ++ m ++ layer ++ 0#29 : BitVec 48).extractLsb' 29 9 = layer := by
    ext i hi
    simp only [BitVec.getElem_extractLsb']
    repeat rw [BitVec.getLsbD_append]
    simp
    try grind
  have f3 : (byteOfOpd c ++ m ++ layer ++ 0#29 : BitVec 48).extractLsb' 40 8 = byteOfOpd c := by
    ext i hi
    simp only [BitVec.getElem_extractLsb']
    repeat rw [BitVec.getLsbD_append]
    simp
    try grind
  simp [wholdDec, wholdEnc, rawOf, bind, Except.bind, pure, Except.pure, f1, f2, f3]

theorem wfreeDec_wfreeEnc (major : Byte) (minor : BitVec 4) (h : Hdr) (o : WfreeOps) :
    wfreeDec (rawOf major minor h (wfreeEnc o)) = .ok o := by
  obtain ⟨d, a, b, layer⟩ := o
  have f1 : (0#10 ++ layer ++ 0#29 : BitVec 48).extractLsb' 0 29 = 0 := by
    ext i hi
    simp only [BitVec.getElem_extractLsb']
    repeat rw [BitVec.getLsbD_append]
    simp
    try grind
  have f2 : (0#10 ++ layer ++ 0#29 : BitVec 48).extractLsb' 29 9 = layer := by
    ext i hi
    simp only [BitVec.getElem_extractLsb']
    repeat rw [BitVec.getLsbD_append]
    simp
    try grind
  have f3 : (0#10 ++ layer ++ 0#29 : BitVec 48).extractLsb' 38 10 = 0 := by
    ext i hi
    simp only [BitVec.getElem_extractLsb']
    repeat rw [BitVec.getLsbD_append]
    simp
    try grind
  simp [wfreeDec, wfreeEnc, rawOf, bind, Except.bind, pure, Except.pure, f1, f2, f3]

theorem wdoneDec_wdoneEnc (major : Byte) (minor : BitVec 4) (h : Hdr) (o : WdoneOps) :
    wdoneDec (rawOf major minor h (wdoneEnc o)) = .ok o := by
  obtain ⟨d, a, b, c⟩ := o
  have f1 : (byteOfOpd c ++ 0#40 : BitVec 48).extractLsb' 0 40 = 0 := by
    ext i hi
    simp only [BitVec.getElem_extractLsb']
    repeat rw [BitVec.getLsbD_append]
    simp
    try grind
  have f2 : (byteOfOpd c ++ 0#40 : BitVec 48).extractLsb' 40 8 = byteOfOpd c := by
    ext i hi
    simp only [BitVec.getElem_extractLsb']
    repeat rw [BitVec.getLsbD_append]
    simp
    try grind
  simp [wdoneDec, wdoneEnc, rawOf, bind, Except.bind, pure, Except.pure, f1, f2]

theorem wcellDec_wcellEnc (major : Byte) (minor : BitVec 4) (h : Hdr) (o : WcellOps) :
    wcellDec (rawOf major minor h (wcellEnc o)) = .ok o := by
  obtain ⟨d, a, b, c⟩ := o
  have f1 : (byteOfOpd c ++ 0#40 : BitVec 48).extractLsb' 0 40 = 0 := by
    ext i hi
    simp only [BitVec.getElem_extractLsb']
    repeat rw [BitVec.getLsbD_append]
    simp
    try grind
  have f2 : (byteOfOpd c ++ 0#40 : BitVec 48).extractLsb' 40 8 = byteOfOpd c := by
    ext i hi
    simp only [BitVec.getElem_extractLsb']
    repeat rw [BitVec.getLsbD_append]
    simp
    try grind
  simp [wcellDec, wcellEnc, rawOf, bind, Except.bind, pure, Except.pure, f1, f2]

theorem ctlrdDec_ctlrdEnc (major : Byte) (minor : BitVec 4) (h : Hdr) (o : CtlrdOps) :
    ctlrdDec (rawOf major minor h (ctlrdEnc o)) = .ok o := by
  obtain ⟨d, kreg⟩ := o
  have f1 : (0#36 ++ kreg : BitVec 48).extractLsb' 0 12 = kreg := by
    ext i hi
    simp only [BitVec.getElem_extractLsb']
    repeat rw [BitVec.getLsbD_append]
    simp
    try grind
  have f2 : (0#36 ++ kreg : BitVec 48).extractLsb' 12 36 = 0 := by
    ext i hi
    simp only [BitVec.getElem_extractLsb']
    repeat rw [BitVec.getLsbD_append]
    simp
    try grind
  simp [ctlrdDec, ctlrdEnc, rawOf, bind, Except.bind, pure, Except.pure, f1, f2]

theorem ctlwrDec_ctlwrEnc (major : Byte) (minor : BitVec 4) (h : Hdr) (o : CtlwrOps) :
    ctlwrDec (rawOf major minor h (ctlwrEnc o)) = .ok o := by
  obtain ⟨b, kreg⟩ := o
  have f1 : (0#36 ++ kreg : BitVec 48).extractLsb' 0 12 = kreg := by
    ext i hi
    simp only [BitVec.getElem_extractLsb']
    repeat rw [BitVec.getLsbD_append]
    simp
    try grind
  have f2 : (0#36 ++ kreg : BitVec 48).extractLsb' 12 36 = 0 := by
    ext i hi
    simp only [BitVec.getElem_extractLsb']
    repeat rw [BitVec.getLsbD_append]
    simp
    try grind
  simp [ctlwrDec, ctlwrEnc, rawOf, bind, Except.bind, pure, Except.pure, f1, f2]

theorem tlbDec_tlbEnc (major : Byte) (minor : BitVec 4) (h : Hdr) (m : BitVec 2) (o : TlbOps) :
    tlbDec (rawOf major minor h (tlbEnc m o)) = .ok o := by
  obtain ⟨d, a, b, c⟩ := o
  have f1 : (cByte c ++ 0#38 ++ m : BitVec 48).extractLsb' 2 38 = 0 := by
    ext i hi
    simp only [BitVec.getElem_extractLsb']
    repeat rw [BitVec.getLsbD_append]
    simp
    try grind
  have f2 : (cByte c ++ 0#38 ++ m : BitVec 48).extractLsb' 40 8 = cByte c := by
    ext i hi
    simp only [BitVec.getElem_extractLsb']
    repeat rw [BitVec.getLsbD_append]
    simp
    try grind
  simp [tlbDec, tlbEnc, rawOf, bind, Except.bind, pure, Except.pure, f1, f2]

theorem tlbinvDec_tlbinvEnc (major : Byte) (minor : BitVec 4) (h : Hdr) (o : TlbinvOps) :
    tlbinvDec (rawOf major minor h (tlbinvEnc o)) = .ok o := by
  obtain ⟨d, a, b, c, target, whole⟩ := o
  have f1 : (cByte c ++ 0#37 ++ BitVec.ofBool whole ++ target : BitVec 48).extractLsb' 0 2 = target := by
    ext i hi
    simp only [BitVec.getElem_extractLsb']
    repeat rw [BitVec.getLsbD_append]
    simp
    try grind
  have f2 : (cByte c ++ 0#37 ++ BitVec.ofBool whole ++ target : BitVec 48)[2] = whole := by
    show (cByte c ++ 0#37 ++ BitVec.ofBool whole ++ target : BitVec 48).getLsbD 2 = whole
    repeat rw [BitVec.getLsbD_append]
    simp
  have f3 : (cByte c ++ 0#37 ++ BitVec.ofBool whole ++ target : BitVec 48).extractLsb' 3 37 = 0 := by
    ext i hi
    simp only [BitVec.getElem_extractLsb']
    repeat rw [BitVec.getLsbD_append]
    simp
    try grind
  have f4 : (cByte c ++ 0#37 ++ BitVec.ofBool whole ++ target : BitVec 48).extractLsb' 40 8 = cByte c := by
    ext i hi
    simp only [BitVec.getElem_extractLsb']
    repeat rw [BitVec.getLsbD_append]
    simp
    try grind
  simp [tlbinvDec, tlbinvEnc, rawOf, bind, Except.bind, pure, Except.pure, f1, f2, f3, f4]

theorem tlbprobeDec_tlbprobeEnc (major : Byte) (minor : BitVec 4) (h : Hdr) (o : TlbprobeOps) :
    tlbprobeDec (rawOf major minor h (tlbprobeEnc o)) = .ok o := by
  obtain ⟨d, a, b, cluster⟩ := o
  have f1 : (0#47 ++ BitVec.ofBool cluster : BitVec 48)[0] = cluster := by
    show (0#47 ++ BitVec.ofBool cluster : BitVec 48).getLsbD 0 = cluster
    repeat rw [BitVec.getLsbD_append]
    simp
  have f2 : (0#47 ++ BitVec.ofBool cluster : BitVec 48).extractLsb' 1 47 = 0 := by
    ext i hi
    simp only [BitVec.getElem_extractLsb']
    repeat rw [BitVec.getLsbD_append]
    simp
    try grind
  simp [tlbprobeDec, tlbprobeEnc, rawOf, bind, Except.bind, pure, Except.pure, f1, f2]

theorem cflushDec_cflushEnc (major : Byte) (minor : BitVec 4) (h : Hdr) (o : CflushOps) :
    cflushDec (rawOf major minor h (cflushEnc o)) = .ok o := by
  obtain ⟨d, b, c⟩ := o
  have f1 : (byteOfOpd c ++ 0#40 : BitVec 48).extractLsb' 0 40 = 0 := by
    ext i hi
    simp only [BitVec.getElem_extractLsb']
    repeat rw [BitVec.getLsbD_append]
    simp
    try grind
  have f2 : (byteOfOpd c ++ 0#40 : BitVec 48).extractLsb' 40 8 = byteOfOpd c := by
    ext i hi
    simp only [BitVec.getElem_extractLsb']
    repeat rw [BitVec.getLsbD_append]
    simp
    try grind
  simp [cflushDec, cflushEnc, rawOf, bind, Except.bind, pure, Except.pure, f1, f2]

theorem hbeatDec_hbeatEnc (major : Byte) (minor : BitVec 4) (h : Hdr) (o : HbeatOps) :
    hbeatDec (rawOf major minor h (hbeatEnc o)) = .ok o := by
  obtain ⟨code⟩ := o
  have f1 : (0#32 ++ code : BitVec 48).extractLsb' 0 16 = code := by
    ext i hi
    simp only [BitVec.getElem_extractLsb']
    repeat rw [BitVec.getLsbD_append]
    simp
    try grind
  have f2 : (0#32 ++ code : BitVec 48).extractLsb' 16 32 = 0 := by
    ext i hi
    simp only [BitVec.getElem_extractLsb']
    repeat rw [BitVec.getLsbD_append]
    simp
    try grind
  simp [hbeatDec, hbeatEnc, rawOf, bind, Except.bind, pure, Except.pure, f1, f2]

theorem idleDec_idleEnc (major : Byte) (minor : BitVec 4) (h : Hdr) (o : IdleOps) :
    idleDec (rawOf major minor h (idleEnc o)) = .ok o := by
  obtain ⟨d, timeout⟩ := o
  have f1 : (0#16 ++ timeout : BitVec 48).extractLsb' 0 32 = timeout := by
    ext i hi
    simp only [BitVec.getElem_extractLsb']
    repeat rw [BitVec.getLsbD_append]
    simp
    try grind
  have f2 : (0#16 ++ timeout : BitVec 48).extractLsb' 32 16 = 0 := by
    ext i hi
    simp only [BitVec.getElem_extractLsb']
    repeat rw [BitVec.getLsbD_append]
    simp
    try grind
  simp [idleDec, idleEnc, rawOf, bind, Except.bind, pure, Except.pure, f1, f2]

/-! ## From codecs to instructions -/

@[simp] theorem rawOf_major (mj : Byte) (mn : BitVec 4) (h : Hdr) (b : Body) : (rawOf mj mn h b).major = mj := rfl
@[simp] theorem rawOf_minor (mj : Byte) (mn : BitVec 4) (h : Hdr) (b : Body) : (rawOf mj mn h b).minor = mn := rfl
@[simp] theorem rawOf_h (mj : Byte) (mn : BitVec 4) (h : Hdr) (b : Body) : (rawOf mj mn h b).h = h := rfl
@[simp] theorem map_ok_reject {α β : Type} (f : α → β) (a : α) : (f <$> (Except.ok a : Except Reject α)) = .ok (f a) := rfl
theorem noneOp_zero (mj : Byte) (mn : BitVec 4) (h : Hdr) (i : Instr) :
    noneOp (rawOf mj mn h ⟨0#8, 0#8, 0#8, 0#48⟩) i = .ok i := by
  simp [noneOp, rawOf, bind, Except.bind, pure, Except.pure]
theorem whold_mode (mj : Byte) (mn : BitVec 4) (h : Hdr) (m : BitVec 2) (o : WholdOps) :
    (rawOf mj mn h (wholdEnc m o)).x.extractLsb' 38 2 = m := by
  obtain ⟨d, a, b, c, layer⟩ := o
  show (byteOfOpd c ++ m ++ layer ++ 0#29 : BitVec 48).extractLsb' 38 2 = m
  ext i hi
  simp only [BitVec.getElem_extractLsb']
  repeat rw [BitVec.getLsbD_append]
  simp
  try grind
theorem tlb_action (mj : Byte) (mn : BitVec 4) (h : Hdr) (m : BitVec 2) (o : TlbOps) :
    (rawOf mj mn h (tlbEnc m o)).x.extractLsb' 0 2 = m := by
  obtain ⟨d, a, b, c⟩ := o
  show (cByte c ++ 0#38 ++ m : BitVec 48).extractLsb' 0 2 = m
  ext i hi
  simp only [BitVec.getElem_extractLsb']
  repeat rw [BitVec.getLsbD_append]
  simp
  try grind
/-- no check of a list fails when every check holds, and only then -/
theorem first_eq_none (l : List (Bool × Reject)) : Wf.first l = none ↔ ∀ x ∈ l, x.1 = true := by
  induction l with
  | nil => simp [Wf.first]
  | cons a t ih => obtain ⟨k, r⟩ := a; cases k <;> simp [Wf.first, ih]
/-- a word whose fields parse to a legal instruction decodes to it -/
theorem decode_word {mj : Byte} {mn : BitVec 4} {h : Hdr} {b : Body} {i : Instr} (hp : parse (rawOf mj mn h b) = .ok i)
    (hw : i.wf = true) : decode (word mj mn h b) = .ok i := by
  have hc : i.check = none := by simpa [Instr.wf] using hw
  simp only [decode, rawOfWord_word, hp, hc]
/-- what decodes is legal -/
theorem wf_of_decode {w : IWord} {i : Instr} (e : decode w = .ok i) : i.wf = true := by
  unfold decode at e
  split at e
  · cases e
  · split at e
    · cases e; simp_all [Instr.wf]
    · cases e

end Sys2Proof
end

