-- ==== Sys2Proof/Laws/State.lean ====
section
/-! SUPPORT. Small laws of the state: maps, memory's canonical form, and one lemma per field per update. -/
namespace Sys2Proof.Laws.State
open Sys2Proof.Machine

/-! ## Maps -/

@[simp] theorem mfind_mset_self {α : Type} (m : Map α) (q : Nat) (x : α) : mfind (mset m q x) q = some x := by
  induction m with
  | nil => simp [mset, mfind]
  | cons h t ih => obtain ⟨k, v⟩ := h; grind [mset, mfind]
theorem mfind_mset_ne {α : Type} (m : Map α) {q r : Nat} (x : α) (h : r ≠ q) : mfind (mset m q x) r = mfind m r := by
  induction m with
  | nil => simp [mset, mfind, h]
  | cons p t ih => obtain ⟨k, v⟩ := p; grind [mset, mfind]
theorem mfind_mdel_ne {α : Type} (m : Map α) {q r : Nat} (h : r ≠ q) : mfind (mdel m q) r = mfind m r := by
  induction m with
  | nil => simp [mdel, mfind]
  | cons p t ih => obtain ⟨k, v⟩ := p; grind [mdel, mfind]
@[simp] theorem mget_mset_self {α : Type} (d : α) (m : Map α) (q : Nat) (x : α) : mget d (mset m q x) q = x := by simp [mget]
theorem mget_mset_ne {α : Type} (d : α) (m : Map α) {q r : Nat} (x : α) (h : r ≠ q) : mget d (mset m q x) r = mget d m r := by
  simp [mget, mfind_mset_ne m x h]
@[simp] theorem mset_mset {α : Type} (m : Map α) (q : Nat) (x y : α) : mset (mset m q x) q y = mset m q y := by
  induction m with
  | nil => simp [mset]
  | cons p t ih => obtain ⟨k, v⟩ := p; grind [mset]

/-! ## Canonical forms -/

/-- every entry above a bound may be asked of a lower bound -/
def above (lo : Option Nat) (q : Nat) : Prop := ∀ l, lo = some l → l < q
theorem setFrom_sput (lo : Option Nat) (s : List Nat) (q : Nat) (h : setFrom lo s = true) (b : above lo q) : setFrom lo (sput s q) = true := by
  induction s generalizing lo with
  | nil => cases lo <;> simp_all [sput, setFrom, above]
  | cons k t ih => cases lo <;> grind [sput, setFrom, above]
theorem setFrom_weaken (s : List Nat) (a : Nat) (lo : Option Nat) (h : setFrom (some a) s = true) (b : above lo a) : setFrom lo s = true := by
  cases s with
  | nil => simp [setFrom]
  | cons k t => cases lo <;> grind [setFrom, above]
theorem setFrom_sdel (lo : Option Nat) (s : List Nat) (q : Nat) (h : setFrom lo s = true) : setFrom lo (sdel s q) = true := by
  induction s generalizing lo with
  | nil => simp [sdel, setFrom]
  | cons k t ih =>
    simp only [setFrom, Bool.and_eq_true] at h
    by_cases e : q = k
    · simp only [sdel, e, if_true]
      refine setFrom_weaken t k lo h.2 ?_
      intro l hl; subst hl; simpa using h.1
    · simp only [sdel, e, if_false, setFrom, Bool.and_eq_true]
      exact ⟨h.1, ih _ h.2⟩
theorem setFrom_sset (s : List Nat) (q : Nat) (on : Bool) (h : setFrom none s = true) : setFrom none (sset s q on) = true := by
  cases on
  · exact setFrom_sdel _ _ _ h
  · exact setFrom_sput _ _ _ h (by simp [above])
theorem keys_mset {α : Type} (m : Map α) (q : Nat) (x : α) : (mset m q x).map (·.1) = sput (m.map (·.1)) q := by
  induction m with
  | nil => rfl
  | cons p t ih => obtain ⟨k, v⟩ := p; grind [mset, sput]
theorem keys_mdel {α : Type} (m : Map α) (q : Nat) : (mdel m q).map (·.1) = sdel (m.map (·.1)) q := by
  induction m with
  | nil => rfl
  | cons p t ih => obtain ⟨k, v⟩ := p; grind [mdel, sdel]
theorem setFrom_filter (lo : Option Nat) (s : List Nat) (p : Nat → Bool) (h : setFrom lo s = true) : setFrom lo (s.filter p) = true := by
  induction s generalizing lo with
  | nil => simp [setFrom]
  | cons k t ih =>
    simp only [setFrom, Bool.and_eq_true] at h
    by_cases e : p k = true
    · simp only [List.filter_cons, e, if_true, setFrom, Bool.and_eq_true]; exact ⟨h.1, ih _ h.2⟩
    · simp only [List.filter_cons, e]
      refine setFrom_weaken _ k lo (ih _ h.2) ?_
      intro l hl; subst hl; simpa using h.1
theorem cellsFrom_weaken (s : List Host.Cell) (a : Nat) (lo : Option Nat) (h : cellsFrom (some a) s = true) (b : above lo a) :
    cellsFrom lo s = true := by
  cases s with
  | nil => simp [cellsFrom]
  | cons k t => obtain ⟨k, v⟩ := k; cases lo <;> grind [cellsFrom, above]
theorem cellsFrom_writeCell (lo : Option Nat) (m : List Host.Cell) (q : Nat) (x : Byte) (h : cellsFrom lo m = true) (b : above lo q) :
    cellsFrom lo (writeCell m q x) = true := by
  induction m generalizing lo with
  | nil => by_cases e : x = blankByte <;> cases lo <;> simp_all [writeCell, cellsFrom, above]
  | cons p t ih =>
    obtain ⟨k, v⟩ := p
    simp only [cellsFrom, Bool.and_eq_true] at h
    obtain ⟨⟨h1, h2⟩, h3⟩ := h
    have hk : above lo k := by intro l hl; subst hl; simpa using h1
    have i := ih (some k) h3
    by_cases a : q < k
    · by_cases e : x = blankByte <;> cases lo <;> simp_all [writeCell, cellsFrom, above]
    · by_cases c : q = k
      · subst c
        by_cases e : x = blankByte
        · simp only [writeCell, Nat.lt_irrefl, if_false, if_true, e]; exact cellsFrom_weaken t _ lo h3 hk
        · cases lo <;> simp_all [writeCell, cellsFrom, above]
      · have j := i (by intro l hl; cases hl; omega)
        simp only [writeCell, a, c, if_false, cellsFrom, Bool.and_eq_true]; exact ⟨⟨h1, h2⟩, j⟩
theorem cellsFrom_writeCells (m : List Host.Cell) (a : Nat) (bs : List Byte) (h : cellsFrom none m = true) :
    cellsFrom none (writeCells m a bs) = true := by
  induction bs generalizing m a with
  | nil => exact h
  | cons b t ih => exact ih _ _ (cellsFrom_writeCell none m a b h (by simp [above]))
theorem readCell_above (lo : Nat) (m : List Host.Cell) (q : Nat) (h : cellsFrom (some lo) m = true) (b : q ≤ lo) : readCell m q = blankByte := by
  induction m generalizing lo with
  | nil => rfl
  | cons p t ih =>
    obtain ⟨k, v⟩ := p
    simp only [cellsFrom, Bool.and_eq_true, decide_eq_true_eq] at h
    have : q ≠ k := by omega
    simp only [readCell, this, if_false]; exact ih k h.2 (by omega)
/-- a byte written reads back -/
theorem readCell_writeCell_self (lo : Option Nat) (m : List Host.Cell) (q : Nat) (x : Byte) (h : cellsFrom lo m = true) :
    readCell (writeCell m q x) q = x := by
  induction m generalizing lo with
  | nil => by_cases e : x = blankByte <;> simp [writeCell, readCell, e]
  | cons p t ih =>
    obtain ⟨k, v⟩ := p
    simp only [cellsFrom, Bool.and_eq_true] at h
    by_cases a : q < k
    · have r : readCell ((k, v) :: t) q = blankByte := by
        simp only [readCell, show q ≠ k by omega, if_false]; exact readCell_above k t q h.2 (by omega)
      by_cases e : x = blankByte
      · simp only [writeCell, a, if_true, e]; exact r
      · simp [writeCell, a, e, readCell]
    · by_cases c : q = k
      · subst c
        by_cases e : x = blankByte
        · simp only [writeCell, Nat.lt_irrefl, if_false, if_true, e]; exact readCell_above _ t _ h.2 (Nat.le_refl _)
        · simp [writeCell, e, readCell]
      · simp only [writeCell, a, c, if_false, readCell]; exact ih _ h.2
/-- no other byte changes -/
theorem readCell_writeCell_ne (m : List Host.Cell) {q r : Nat} (x : Byte) (h : r ≠ q) : readCell (writeCell m q x) r = readCell m r := by
  induction m with
  | nil => by_cases e : x = blankByte <;> simp [writeCell, readCell, e, h]
  | cons p t ih => obtain ⟨k, v⟩ := p; grind [writeCell, readCell]

/-! ## The operations on memory keep its form -/

/-- memory's canonical form, and no sector twice at its home -/
def Good (m : Mem) : Prop := memWf m = true ∧ setFrom none (m.l2.map (·.1)) = true
theorem good_iff (m : Mem) : Good m ↔ (cellsFrom none m.cells = true ∧ setFrom none m.tags = true ∧ setFrom none m.poison = true) ∧
    setFrom none (m.l2.map (·.1)) = true := by simp [Good, memWf, Bool.and_eq_true, and_assoc]
theorem good_of_eq {m n : Mem} (h : Good m) (c : n.cells = m.cells) (t : n.tags = m.tags) (p : n.poison = m.poison) (l : n.l2 = m.l2) : Good n := by
  rw [good_iff] at *; rw [c, t, p, l]; exact h
theorem hbmWrite_cells (m : Mem) (sec : Nat) (x : L2Sector) :
    (hbmWrite m sec x).cells = writeCells m.cells (sec * 64) (toBytes 64 x.data.toNat) := by simp only [hbmWrite]
theorem hbmWrite_tags (m : Mem) (sec : Nat) (x : L2Sector) :
    (hbmWrite m sec x).tags = sset (sset m.tags (sec * 2) (x.tags.getLsbD 0)) (sec * 2 + 1) (x.tags.getLsbD 1) := by simp only [hbmWrite]
theorem hbmWrite_poison (m : Mem) (sec : Nat) (x : L2Sector) : (hbmWrite m sec x).poison = sset m.poison sec x.poison := by simp only [hbmWrite]
@[simp] theorem hbmWrite_l2 (m : Mem) (sec : Nat) (x : L2Sector) : (hbmWrite m sec x).l2 = m.l2 := by simp only [hbmWrite]
theorem good_hbmWrite {m : Mem} (sec : Nat) (x : L2Sector) (h : Good m) : Good (hbmWrite m sec x) := by
  rw [good_iff] at *
  rw [hbmWrite_cells, hbmWrite_tags, hbmWrite_poison, hbmWrite_l2]
  exact ⟨⟨cellsFrom_writeCells _ _ _ h.1.1, setFrom_sset _ _ _ (setFrom_sset _ _ _ h.1.2.1), setFrom_sset _ _ _ h.1.2.2⟩, h.2⟩
theorem good_mset {m : Mem} (sec : Nat) (x : L2Sector) (h : Good m) : Good { m with l2 := mset m.l2 sec x } := by
  rw [good_iff] at *
  exact ⟨h.1, by simpa only [keys_mset] using setFrom_sput _ _ _ h.2 (by simp [above])⟩
theorem good_l2Drop {m : Mem} (sec : Nat) (h : Good m) : Good (l2Drop m sec) := by
  rw [good_iff] at *
  exact ⟨h.1, by simpa only [l2Drop, keys_mdel] using setFrom_sdel _ _ _ h.2⟩
theorem good_l2Clean {m : Mem} (sec : Nat) (h : Good m) : Good (l2Clean m sec) := by
  unfold l2Clean
  split
  · split
    · rename_i x _ _
      have g := good_hbmWrite sec x h
      have e := hbmWrite_l2 m sec x
      generalize hbmWrite m sec x = n at g e ⊢
      exact good_of_eq (good_mset sec { x with dirty := false } g) rfl rfl rfl (by simp only [e])
    · exact h
  · exact h
theorem good_l2Evict {m : Mem} (sec : Nat) (h : Good m) : Good (l2Evict m sec) := good_l2Drop sec (good_l2Clean sec h)
theorem good_homeFill {m : Mem} (sec : Nat) (h : Good m) : Good (homeFill m sec) := good_mset sec _ h
theorem good_ripen {m : Mem} (sec : Nat) (h : Good m) : Good (ripen m sec) := by
  unfold ripen
  split
  · exact h
  · exact good_hbmWrite sec _ h
/-- noting a fill changes nothing but the note -/
theorem noteFill_eq (m : Mem) (sec : Nat) : noteFill m sec = { m with bad := (noteFill m sec).bad } := by
  simp only [noteFill]; split <;> rfl
@[simp] theorem noteFill_l2 (m : Mem) (sec : Nat) : (noteFill m sec).l2 = m.l2 := by simp only [noteFill]; split <;> rfl
@[simp] theorem noteFill_cells (m : Mem) (sec : Nat) : (noteFill m sec).cells = m.cells := by simp only [noteFill]; split <;> rfl
theorem good_noteFill {m : Mem} (sec : Nat) (h : Good m) : Good (noteFill m sec) := by
  rw [noteFill_eq]; exact good_of_eq h rfl rfl rfl rfl
/-- the same where the write fills nothing -/
theorem good_filled {m : Mem} (sec : Nat) (w : Bool) (h : Good m) : Good (if w then m else noteFill m sec) := by
  cases w
  · exact good_noteFill sec h
  · exact h
theorem good_homeMergeW {m : Mem} (sec : Nat) (d : BitVec 512) (k : BitVec 64) (a b : BitVec 2) (w : Bool) (h : Good m) :
    Good (homeMergeW m sec d k a b w) := by
  simp only [homeMergeW]
  generalize mergeSector (homeBase m sec) d k a b w = x
  replace h := good_filled sec w h
  generalize (if w then m else noteFill m sec) = m at h ⊢
  split
  · exact good_of_eq (good_mset sec x h) rfl rfl rfl rfl
  · have g := good_hbmWrite sec x h
    have e := hbmWrite_l2 m sec x
    generalize hbmWrite m sec x = n at g e ⊢
    split
    · exact good_of_eq (good_mset sec { x with dirty := false } g) rfl rfl rfl (by simp only [e])
    · exact good_of_eq g rfl rfl rfl e.symm
theorem good_homeMerge {m : Mem} (sec : Nat) (d : BitVec 512) (k : BitVec 64) (a b : BitVec 2) (h : Good m) : Good (homeMerge m sec d k a b) :=
  good_homeMergeW sec d k a b _ h
theorem good_baseMergeW {m : Mem} (sec : Nat) (d : BitVec 512) (k : BitVec 64) (a b : BitVec 2) (w : Bool) (h : Good m) :
    Good (baseMergeW m sec d k a b w) := by
  simp only [baseMergeW]
  replace h := good_filled sec w (good_l2Evict sec h)
  generalize (if w then l2Evict m sec else noteFill (l2Evict m sec) sec) = m at h ⊢
  generalize mergeSector (hbmRead m sec) d k a b w = x
  have g := good_hbmWrite sec x h
  generalize hbmWrite m sec x = n at g ⊢
  exact good_of_eq g rfl rfl rfl rfl
theorem good_baseMerge {m : Mem} (sec : Nat) (d : BitVec 512) (k : BitVec 64) (a b : BitVec 2) (h : Good m) : Good (baseMerge m sec d k a b) :=
  good_baseMergeW sec d k a b _ h
theorem sortedFrom_filter (l : List Nat) (p : Nat → Bool) (lo : Option Nat) (h : setFrom lo l = true) : setFrom lo (l.filter p) = true := by
  induction l generalizing lo with
  | nil => exact h
  | cons k t ih =>
    simp only [setFrom, Bool.and_eq_true] at h
    by_cases e : p k
    · simp only [List.filter_cons, e, if_true, setFrom, Bool.and_eq_true]; exact ⟨h.1, ih _ h.2⟩
    · simp only [List.filter_cons, e]
      refine ih lo (setFrom_weaken t k lo h.2 ?_)
      intro l hl; subst hl; simpa using h.1
/-- L2 gives up what is another's memory -/
theorem good_dropForeign {m : Mem} (scope : BitVec 3) (h : Good m) : Good (dropForeign scope m) := by
  unfold dropForeign
  split
  · rw [good_iff] at *
    refine ⟨h.1, ?_⟩
    have e : (m.l2.filter (fun x => isHbm x.1)).map (·.1) = (m.l2.map (·.1)).filter isHbm := by
      simp only [List.filter_map]; rfl
    rw [e]; exact sortedFrom_filter _ _ _ h.2
  · exact h
theorem good_noteFills {m : Mem} (l : List Nat) (h : Good m) : Good (l.foldl noteFill m) := by
  induction l generalizing m with
  | nil => exact h
  | cons a t ih => exact ih (good_noteFill a h)
theorem good_refills {m : Mem} (l : Map L1Sector) (h : Good m) : Good (refills m l) := good_noteFills _ h
theorem good_reset : Good State.reset.mem := by rw [good_iff]; exact ⟨⟨rfl, rfl, rfl⟩, rfl⟩

/-! ## One lemma per field per update -/

@[simp] theorem setCore_sched (s : State) (k : Nat) (x : CoreSt) : (setCore s k x).sched = s.sched := rfl
@[simp] theorem setCore_cur (s : State) (k : Nat) (x : CoreSt) : (setCore s k x).cur = s.cur := rfl
@[simp] theorem setCore_time (s : State) (k : Nat) (x : CoreSt) : (setCore s k x).time = s.time := rfl
@[simp] theorem setCore_readyAt (s : State) (k : Nat) (x : CoreSt) : (setCore s k x).readyAt = s.readyAt := rfl
@[simp] theorem setCore_host (s : State) (k : Nat) (x : CoreSt) : (setCore s k x).host = s.host := rfl
@[simp] theorem setCore_slots (s : State) (k : Nat) (x : CoreSt) : (setCore s k x).slots = s.slots := rfl
@[simp] theorem setCore_msix (s : State) (k : Nat) (x : CoreSt) : (setCore s k x).msix = s.msix := rfl
@[simp] theorem setCore_mgmt (s : State) (k : Nat) (x : CoreSt) : (setCore s k x).mgmt = s.mgmt := rfl
@[simp] theorem setCore_fw (s : State) (k : Nat) (x : CoreSt) : (setCore s k x).fw = s.fw := rfl
@[simp] theorem setCore_hbm (s : State) (k : Nat) (x : CoreSt) : (setCore s k x).hbm = s.hbm := rfl
@[simp] theorem setCore_links (s : State) (k : Nat) (x : CoreSt) : (setCore s k x).links = s.links := rfl
@[simp] theorem setCore_mem (s : State) (k : Nat) (x : CoreSt) : (setCore s k x).mem = s.mem := rfl
@[simp] theorem setCore_clusters (s : State) (k : Nat) (x : CoreSt) : (setCore s k x).clusters = s.clusters := rfl
@[simp] theorem setCore_dies (s : State) (k : Nat) (x : CoreSt) : (setCore s k x).dies = s.dies := rfl
@[simp] theorem setCore_ctxs (s : State) (k : Nat) (x : CoreSt) : (setCore s k x).ctxs = s.ctxs := rfl
@[simp] theorem setCore_work (s : State) (k : Nat) (x : CoreSt) : (setCore s k x).work = s.work := rfl
@[simp] theorem setCore_wideRr (s : State) (k : Nat) (x : CoreSt) : (setCore s k x).wideRr = s.wideRr := rfl
@[simp] theorem setCluster_sched (s : State) (k : Nat) (x : Cluster) : (setCluster s k x).sched = s.sched := rfl
@[simp] theorem setCluster_cur (s : State) (k : Nat) (x : Cluster) : (setCluster s k x).cur = s.cur := rfl
@[simp] theorem setCluster_time (s : State) (k : Nat) (x : Cluster) : (setCluster s k x).time = s.time := rfl
@[simp] theorem setCluster_readyAt (s : State) (k : Nat) (x : Cluster) : (setCluster s k x).readyAt = s.readyAt := rfl
@[simp] theorem setCluster_host (s : State) (k : Nat) (x : Cluster) : (setCluster s k x).host = s.host := rfl
@[simp] theorem setCluster_slots (s : State) (k : Nat) (x : Cluster) : (setCluster s k x).slots = s.slots := rfl
@[simp] theorem setCluster_msix (s : State) (k : Nat) (x : Cluster) : (setCluster s k x).msix = s.msix := rfl
@[simp] theorem setCluster_mgmt (s : State) (k : Nat) (x : Cluster) : (setCluster s k x).mgmt = s.mgmt := rfl
@[simp] theorem setCluster_fw (s : State) (k : Nat) (x : Cluster) : (setCluster s k x).fw = s.fw := rfl
@[simp] theorem setCluster_hbm (s : State) (k : Nat) (x : Cluster) : (setCluster s k x).hbm = s.hbm := rfl
@[simp] theorem setCluster_links (s : State) (k : Nat) (x : Cluster) : (setCluster s k x).links = s.links := rfl
@[simp] theorem setCluster_mem (s : State) (k : Nat) (x : Cluster) : (setCluster s k x).mem = s.mem := rfl
@[simp] theorem setCluster_cores (s : State) (k : Nat) (x : Cluster) : (setCluster s k x).cores = s.cores := rfl
@[simp] theorem setCluster_dies (s : State) (k : Nat) (x : Cluster) : (setCluster s k x).dies = s.dies := rfl
@[simp] theorem setCluster_ctxs (s : State) (k : Nat) (x : Cluster) : (setCluster s k x).ctxs = s.ctxs := rfl
@[simp] theorem setCluster_work (s : State) (k : Nat) (x : Cluster) : (setCluster s k x).work = s.work := rfl
@[simp] theorem setCluster_wideRr (s : State) (k : Nat) (x : Cluster) : (setCluster s k x).wideRr = s.wideRr := rfl
@[simp] theorem setDie_sched (s : State) (k : Nat) (x : Die) : (setDie s k x).sched = s.sched := rfl
@[simp] theorem setDie_cur (s : State) (k : Nat) (x : Die) : (setDie s k x).cur = s.cur := rfl
@[simp] theorem setDie_time (s : State) (k : Nat) (x : Die) : (setDie s k x).time = s.time := rfl
@[simp] theorem setDie_readyAt (s : State) (k : Nat) (x : Die) : (setDie s k x).readyAt = s.readyAt := rfl
@[simp] theorem setDie_host (s : State) (k : Nat) (x : Die) : (setDie s k x).host = s.host := rfl
@[simp] theorem setDie_slots (s : State) (k : Nat) (x : Die) : (setDie s k x).slots = s.slots := rfl
@[simp] theorem setDie_msix (s : State) (k : Nat) (x : Die) : (setDie s k x).msix = s.msix := rfl
@[simp] theorem setDie_mgmt (s : State) (k : Nat) (x : Die) : (setDie s k x).mgmt = s.mgmt := rfl
@[simp] theorem setDie_fw (s : State) (k : Nat) (x : Die) : (setDie s k x).fw = s.fw := rfl
@[simp] theorem setDie_hbm (s : State) (k : Nat) (x : Die) : (setDie s k x).hbm = s.hbm := rfl
@[simp] theorem setDie_links (s : State) (k : Nat) (x : Die) : (setDie s k x).links = s.links := rfl
@[simp] theorem setDie_mem (s : State) (k : Nat) (x : Die) : (setDie s k x).mem = s.mem := rfl
@[simp] theorem setDie_cores (s : State) (k : Nat) (x : Die) : (setDie s k x).cores = s.cores := rfl
@[simp] theorem setDie_clusters (s : State) (k : Nat) (x : Die) : (setDie s k x).clusters = s.clusters := rfl
@[simp] theorem setDie_ctxs (s : State) (k : Nat) (x : Die) : (setDie s k x).ctxs = s.ctxs := rfl
@[simp] theorem setDie_work (s : State) (k : Nat) (x : Die) : (setDie s k x).work = s.work := rfl
@[simp] theorem setDie_wideRr (s : State) (k : Nat) (x : Die) : (setDie s k x).wideRr = s.wideRr := rfl
@[simp] theorem setMem_sched (s : State) (x : Mem) : (setMem s x).sched = s.sched := rfl
@[simp] theorem setMem_cur (s : State) (x : Mem) : (setMem s x).cur = s.cur := rfl
@[simp] theorem setMem_time (s : State) (x : Mem) : (setMem s x).time = s.time := rfl
@[simp] theorem setMem_readyAt (s : State) (x : Mem) : (setMem s x).readyAt = s.readyAt := rfl
@[simp] theorem setMem_host (s : State) (x : Mem) : (setMem s x).host = s.host := rfl
@[simp] theorem setMem_slots (s : State) (x : Mem) : (setMem s x).slots = s.slots := rfl
@[simp] theorem setMem_msix (s : State) (x : Mem) : (setMem s x).msix = s.msix := rfl
@[simp] theorem setMem_mgmt (s : State) (x : Mem) : (setMem s x).mgmt = s.mgmt := rfl
@[simp] theorem setMem_fw (s : State) (x : Mem) : (setMem s x).fw = s.fw := rfl
@[simp] theorem setMem_hbm (s : State) (x : Mem) : (setMem s x).hbm = s.hbm := rfl
@[simp] theorem setMem_links (s : State) (x : Mem) : (setMem s x).links = s.links := rfl
@[simp] theorem setMem_cores (s : State) (x : Mem) : (setMem s x).cores = s.cores := rfl
@[simp] theorem setMem_clusters (s : State) (x : Mem) : (setMem s x).clusters = s.clusters := rfl
@[simp] theorem setMem_dies (s : State) (x : Mem) : (setMem s x).dies = s.dies := rfl
@[simp] theorem setMem_ctxs (s : State) (x : Mem) : (setMem s x).ctxs = s.ctxs := rfl
@[simp] theorem setMem_work (s : State) (x : Mem) : (setMem s x).work = s.work := rfl
@[simp] theorem setMem_wideRr (s : State) (x : Mem) : (setMem s x).wideRr = s.wideRr := rfl
@[simp] theorem setWork_sched (s : State) (x : Work) : (setWork s x).sched = s.sched := rfl
@[simp] theorem setWork_cur (s : State) (x : Work) : (setWork s x).cur = s.cur := rfl
@[simp] theorem setWork_time (s : State) (x : Work) : (setWork s x).time = s.time := rfl
@[simp] theorem setWork_readyAt (s : State) (x : Work) : (setWork s x).readyAt = s.readyAt := rfl
@[simp] theorem setWork_host (s : State) (x : Work) : (setWork s x).host = s.host := rfl
@[simp] theorem setWork_slots (s : State) (x : Work) : (setWork s x).slots = s.slots := rfl
@[simp] theorem setWork_msix (s : State) (x : Work) : (setWork s x).msix = s.msix := rfl
@[simp] theorem setWork_mgmt (s : State) (x : Work) : (setWork s x).mgmt = s.mgmt := rfl
@[simp] theorem setWork_fw (s : State) (x : Work) : (setWork s x).fw = s.fw := rfl
@[simp] theorem setWork_hbm (s : State) (x : Work) : (setWork s x).hbm = s.hbm := rfl
@[simp] theorem setWork_links (s : State) (x : Work) : (setWork s x).links = s.links := rfl
@[simp] theorem setWork_mem (s : State) (x : Work) : (setWork s x).mem = s.mem := rfl
@[simp] theorem setWork_cores (s : State) (x : Work) : (setWork s x).cores = s.cores := rfl
@[simp] theorem setWork_clusters (s : State) (x : Work) : (setWork s x).clusters = s.clusters := rfl
@[simp] theorem setWork_dies (s : State) (x : Work) : (setWork s x).dies = s.dies := rfl
@[simp] theorem setWork_ctxs (s : State) (x : Work) : (setWork s x).ctxs = s.ctxs := rfl
@[simp] theorem setWork_wideRr (s : State) (x : Work) : (setWork s x).wideRr = s.wideRr := rfl
@[simp] theorem setSched_cur (s : State) (x : Sched) : (setSched s x).cur = s.cur := rfl
@[simp] theorem setSched_time (s : State) (x : Sched) : (setSched s x).time = s.time := rfl
@[simp] theorem setSched_readyAt (s : State) (x : Sched) : (setSched s x).readyAt = s.readyAt := rfl
@[simp] theorem setSched_host (s : State) (x : Sched) : (setSched s x).host = s.host := rfl
@[simp] theorem setSched_slots (s : State) (x : Sched) : (setSched s x).slots = s.slots := rfl
@[simp] theorem setSched_msix (s : State) (x : Sched) : (setSched s x).msix = s.msix := rfl
@[simp] theorem setSched_mgmt (s : State) (x : Sched) : (setSched s x).mgmt = s.mgmt := rfl
@[simp] theorem setSched_fw (s : State) (x : Sched) : (setSched s x).fw = s.fw := rfl
@[simp] theorem setSched_hbm (s : State) (x : Sched) : (setSched s x).hbm = s.hbm := rfl
@[simp] theorem setSched_links (s : State) (x : Sched) : (setSched s x).links = s.links := rfl
@[simp] theorem setSched_mem (s : State) (x : Sched) : (setSched s x).mem = s.mem := rfl
@[simp] theorem setSched_cores (s : State) (x : Sched) : (setSched s x).cores = s.cores := rfl
@[simp] theorem setSched_clusters (s : State) (x : Sched) : (setSched s x).clusters = s.clusters := rfl
@[simp] theorem setSched_dies (s : State) (x : Sched) : (setSched s x).dies = s.dies := rfl
@[simp] theorem setSched_ctxs (s : State) (x : Sched) : (setSched s x).ctxs = s.ctxs := rfl
@[simp] theorem setSched_work (s : State) (x : Sched) : (setSched s x).work = s.work := rfl
@[simp] theorem setSched_wideRr (s : State) (x : Sched) : (setSched s x).wideRr = s.wideRr := rfl
@[simp] theorem setCtx_sched (s : State) (k : BitVec 12) (x : Ctx) : (setCtx s k x).sched = s.sched := rfl
@[simp] theorem setCtx_cur (s : State) (k : BitVec 12) (x : Ctx) : (setCtx s k x).cur = s.cur := rfl
@[simp] theorem setCtx_time (s : State) (k : BitVec 12) (x : Ctx) : (setCtx s k x).time = s.time := rfl
@[simp] theorem setCtx_readyAt (s : State) (k : BitVec 12) (x : Ctx) : (setCtx s k x).readyAt = s.readyAt := rfl
@[simp] theorem setCtx_host (s : State) (k : BitVec 12) (x : Ctx) : (setCtx s k x).host = s.host := rfl
@[simp] theorem setCtx_slots (s : State) (k : BitVec 12) (x : Ctx) : (setCtx s k x).slots = s.slots := rfl
@[simp] theorem setCtx_msix (s : State) (k : BitVec 12) (x : Ctx) : (setCtx s k x).msix = s.msix := rfl
@[simp] theorem setCtx_mgmt (s : State) (k : BitVec 12) (x : Ctx) : (setCtx s k x).mgmt = s.mgmt := rfl
@[simp] theorem setCtx_fw (s : State) (k : BitVec 12) (x : Ctx) : (setCtx s k x).fw = s.fw := rfl
@[simp] theorem setCtx_hbm (s : State) (k : BitVec 12) (x : Ctx) : (setCtx s k x).hbm = s.hbm := rfl
@[simp] theorem setCtx_links (s : State) (k : BitVec 12) (x : Ctx) : (setCtx s k x).links = s.links := rfl
@[simp] theorem setCtx_mem (s : State) (k : BitVec 12) (x : Ctx) : (setCtx s k x).mem = s.mem := rfl
@[simp] theorem setCtx_cores (s : State) (k : BitVec 12) (x : Ctx) : (setCtx s k x).cores = s.cores := rfl
@[simp] theorem setCtx_clusters (s : State) (k : BitVec 12) (x : Ctx) : (setCtx s k x).clusters = s.clusters := rfl
@[simp] theorem setCtx_dies (s : State) (k : BitVec 12) (x : Ctx) : (setCtx s k x).dies = s.dies := rfl
@[simp] theorem setCtx_work (s : State) (k : BitVec 12) (x : Ctx) : (setCtx s k x).work = s.work := rfl
@[simp] theorem setCtx_wideRr (s : State) (k : BitVec 12) (x : Ctx) : (setCtx s k x).wideRr = s.wideRr := rfl
@[simp] theorem setThreadOf_sched (s : State) (k : Nat) (x : Thread) : (setThreadOf s k x).sched = s.sched := rfl
@[simp] theorem setThreadOf_cur (s : State) (k : Nat) (x : Thread) : (setThreadOf s k x).cur = s.cur := rfl
@[simp] theorem setThreadOf_time (s : State) (k : Nat) (x : Thread) : (setThreadOf s k x).time = s.time := rfl
@[simp] theorem setThreadOf_readyAt (s : State) (k : Nat) (x : Thread) : (setThreadOf s k x).readyAt = s.readyAt := rfl
@[simp] theorem setThreadOf_host (s : State) (k : Nat) (x : Thread) : (setThreadOf s k x).host = s.host := rfl
@[simp] theorem setThreadOf_slots (s : State) (k : Nat) (x : Thread) : (setThreadOf s k x).slots = s.slots := rfl
@[simp] theorem setThreadOf_msix (s : State) (k : Nat) (x : Thread) : (setThreadOf s k x).msix = s.msix := rfl
@[simp] theorem setThreadOf_mgmt (s : State) (k : Nat) (x : Thread) : (setThreadOf s k x).mgmt = s.mgmt := rfl
@[simp] theorem setThreadOf_fw (s : State) (k : Nat) (x : Thread) : (setThreadOf s k x).fw = s.fw := rfl
@[simp] theorem setThreadOf_hbm (s : State) (k : Nat) (x : Thread) : (setThreadOf s k x).hbm = s.hbm := rfl
@[simp] theorem setThreadOf_links (s : State) (k : Nat) (x : Thread) : (setThreadOf s k x).links = s.links := rfl
@[simp] theorem setThreadOf_mem (s : State) (k : Nat) (x : Thread) : (setThreadOf s k x).mem = s.mem := rfl
@[simp] theorem setThreadOf_clusters (s : State) (k : Nat) (x : Thread) : (setThreadOf s k x).clusters = s.clusters := rfl
@[simp] theorem setThreadOf_dies (s : State) (k : Nat) (x : Thread) : (setThreadOf s k x).dies = s.dies := rfl
@[simp] theorem setThreadOf_ctxs (s : State) (k : Nat) (x : Thread) : (setThreadOf s k x).ctxs = s.ctxs := rfl
@[simp] theorem setThreadOf_work (s : State) (k : Nat) (x : Thread) : (setThreadOf s k x).work = s.work := rfl
@[simp] theorem setThreadOf_wideRr (s : State) (k : Nat) (x : Thread) : (setThreadOf s k x).wideRr = s.wideRr := rfl
@[simp] theorem setCur_sched (s : State) (x : Thread) : (setCur s x).sched = s.sched := rfl
@[simp] theorem setCur_cur (s : State) (x : Thread) : (setCur s x).cur = s.cur := rfl
@[simp] theorem setCur_time (s : State) (x : Thread) : (setCur s x).time = s.time := rfl
@[simp] theorem setCur_readyAt (s : State) (x : Thread) : (setCur s x).readyAt = s.readyAt := rfl
@[simp] theorem setCur_host (s : State) (x : Thread) : (setCur s x).host = s.host := rfl
@[simp] theorem setCur_slots (s : State) (x : Thread) : (setCur s x).slots = s.slots := rfl
@[simp] theorem setCur_msix (s : State) (x : Thread) : (setCur s x).msix = s.msix := rfl
@[simp] theorem setCur_mgmt (s : State) (x : Thread) : (setCur s x).mgmt = s.mgmt := rfl
@[simp] theorem setCur_fw (s : State) (x : Thread) : (setCur s x).fw = s.fw := rfl
@[simp] theorem setCur_hbm (s : State) (x : Thread) : (setCur s x).hbm = s.hbm := rfl
@[simp] theorem setCur_links (s : State) (x : Thread) : (setCur s x).links = s.links := rfl
@[simp] theorem setCur_mem (s : State) (x : Thread) : (setCur s x).mem = s.mem := rfl
@[simp] theorem setCur_clusters (s : State) (x : Thread) : (setCur s x).clusters = s.clusters := rfl
@[simp] theorem setCur_dies (s : State) (x : Thread) : (setCur s x).dies = s.dies := rfl
@[simp] theorem setCur_ctxs (s : State) (x : Thread) : (setCur s x).ctxs = s.ctxs := rfl
@[simp] theorem setCur_work (s : State) (x : Thread) : (setCur s x).work = s.work := rfl
@[simp] theorem setCur_wideRr (s : State) (x : Thread) : (setCur s x).wideRr = s.wideRr := rfl
@[simp] theorem setSlot_sched (s : State) (k : Nat) (x : Slot) : (setSlot s k x).sched = s.sched := rfl
@[simp] theorem setSlot_cur (s : State) (k : Nat) (x : Slot) : (setSlot s k x).cur = s.cur := rfl
@[simp] theorem setSlot_time (s : State) (k : Nat) (x : Slot) : (setSlot s k x).time = s.time := rfl
@[simp] theorem setSlot_readyAt (s : State) (k : Nat) (x : Slot) : (setSlot s k x).readyAt = s.readyAt := rfl
@[simp] theorem setSlot_host (s : State) (k : Nat) (x : Slot) : (setSlot s k x).host = s.host := rfl
@[simp] theorem setSlot_msix (s : State) (k : Nat) (x : Slot) : (setSlot s k x).msix = s.msix := rfl
@[simp] theorem setSlot_mgmt (s : State) (k : Nat) (x : Slot) : (setSlot s k x).mgmt = s.mgmt := rfl
@[simp] theorem setSlot_fw (s : State) (k : Nat) (x : Slot) : (setSlot s k x).fw = s.fw := rfl
@[simp] theorem setSlot_hbm (s : State) (k : Nat) (x : Slot) : (setSlot s k x).hbm = s.hbm := rfl
@[simp] theorem setSlot_links (s : State) (k : Nat) (x : Slot) : (setSlot s k x).links = s.links := rfl
@[simp] theorem setSlot_mem (s : State) (k : Nat) (x : Slot) : (setSlot s k x).mem = s.mem := rfl
@[simp] theorem setSlot_cores (s : State) (k : Nat) (x : Slot) : (setSlot s k x).cores = s.cores := rfl
@[simp] theorem setSlot_clusters (s : State) (k : Nat) (x : Slot) : (setSlot s k x).clusters = s.clusters := rfl
@[simp] theorem setSlot_dies (s : State) (k : Nat) (x : Slot) : (setSlot s k x).dies = s.dies := rfl
@[simp] theorem setSlot_ctxs (s : State) (k : Nat) (x : Slot) : (setSlot s k x).ctxs = s.ctxs := rfl
@[simp] theorem setSlot_work (s : State) (k : Nat) (x : Slot) : (setSlot s k x).work = s.work := rfl
@[simp] theorem setSlot_wideRr (s : State) (k : Nat) (x : Slot) : (setSlot s k x).wideRr = s.wideRr := rfl
@[simp] theorem setMem_mem (s : State) (x : Mem) : (setMem s x).mem = x := rfl
@[simp] theorem setWork_work (s : State) (x : Work) : (setWork s x).work = x := rfl
@[simp] theorem setSched_sched (s : State) (x : Sched) : (setSched s x).sched = x := rfl
@[simp] theorem core_setCore_self (s : State) (k : Nat) (x : CoreSt) : Machine.core (setCore s k x) k = x := by simp [Machine.core, setCore]
theorem core_setCore_ne (s : State) {k j : Nat} (x : CoreSt) (h : j ≠ k) : Machine.core (setCore s k x) j = Machine.core s j := by simp [Machine.core, setCore, mget_mset_ne _ _ _ h]
@[simp] theorem core_setMem (s : State) (k : Nat) (x : Mem) : Machine.core (setMem s x) k = Machine.core s k := rfl
@[simp] theorem core_setWork (s : State) (k : Nat) (x : Work) : Machine.core (setWork s x) k = Machine.core s k := rfl
@[simp] theorem core_setCluster (s : State) (k : Nat) (j : Nat) (x : Cluster) : Machine.core (setCluster s j x) k = Machine.core s k := rfl
@[simp] theorem core_setDie (s : State) (k : Nat) (j : Nat) (x : Die) : Machine.core (setDie s j x) k = Machine.core s k := rfl
@[simp] theorem core_setSched (s : State) (k : Nat) (x : Sched) : Machine.core (setSched s x) k = Machine.core s k := rfl
@[simp] theorem cluster_setCluster_self (s : State) (k : Nat) (x : Cluster) : cluster (setCluster s k x) k = x := by simp [cluster, setCluster]
theorem cluster_setCluster_ne (s : State) {k j : Nat} (x : Cluster) (h : j ≠ k) : cluster (setCluster s k x) j = cluster s j := by simp [cluster, setCluster, mget_mset_ne _ _ _ h]
@[simp] theorem cluster_setMem (s : State) (k : Nat) (x : Mem) : cluster (setMem s x) k = cluster s k := rfl
@[simp] theorem cluster_setWork (s : State) (k : Nat) (x : Work) : cluster (setWork s x) k = cluster s k := rfl
@[simp] theorem cluster_setCore (s : State) (k : Nat) (j : Nat) (x : CoreSt) : cluster (setCore s j x) k = cluster s k := rfl
@[simp] theorem cluster_setDie (s : State) (k : Nat) (j : Nat) (x : Die) : cluster (setDie s j x) k = cluster s k := rfl
@[simp] theorem cluster_setSched (s : State) (k : Nat) (x : Sched) : cluster (setSched s x) k = cluster s k := rfl
@[simp] theorem die_setDie_self (s : State) (k : Nat) (x : Die) : die (setDie s k x) k = x := by simp [die, setDie]
theorem die_setDie_ne (s : State) {k j : Nat} (x : Die) (h : j ≠ k) : die (setDie s k x) j = die s j := by simp [die, setDie, mget_mset_ne _ _ _ h]
@[simp] theorem die_setMem (s : State) (k : Nat) (x : Mem) : die (setMem s x) k = die s k := rfl
@[simp] theorem die_setWork (s : State) (k : Nat) (x : Work) : die (setWork s x) k = die s k := rfl
@[simp] theorem die_setCore (s : State) (k : Nat) (j : Nat) (x : CoreSt) : die (setCore s j x) k = die s k := rfl
@[simp] theorem die_setCluster (s : State) (k : Nat) (j : Nat) (x : Cluster) : die (setCluster s j x) k = die s k := rfl
@[simp] theorem die_setSched (s : State) (k : Nat) (x : Sched) : die (setSched s x) k = die s k := rfl
@[simp] theorem threadOf_setThreadOf_self (s : State) (k : Nat) (t : Thread) : threadOf (setThreadOf s k t) k = some t := by
  simp [threadOf, setThreadOf]
theorem threadOf_setThreadOf_ne (s : State) {k j : Nat} (t : Thread) (h : j ≠ k) : threadOf (setThreadOf s k t) j = threadOf s j := by
  simp [threadOf, setThreadOf, core_setCore_ne s _ h]
@[simp] theorem curThread_setCur (s : State) (t : Thread) : curThread (setCur s t) = some t := by
  simp [curThread, setCur, threadOf, setThreadOf]
@[simp] theorem setCur_setCur (s : State) (t u : Thread) : setCur (setCur s t) u = setCur s u := by
  simp [setCur, setThreadOf, setCore, Machine.core]
@[simp] theorem ctxOf_setCtx_self (s : State) (c : BitVec 12) (x : Ctx) : ctxOf (setCtx s c x) c = some x := by simp [ctxOf, setCtx]

/-! ## A thread's updates -/

@[simp] theorem setC_pc (t : Thread) (n : BitVec 6) (v : CReg) : (setC t n v).pc = t.pc := by unfold setC; split <;> rfl
@[simp] theorem setC_code (t : Thread) (n : BitVec 6) (v : CReg) : (setC t n v).code = t.code := by unfold setC; split <;> rfl
@[simp] theorem setC_id (t : Thread) (n : BitVec 6) (v : CReg) : (setC t n v).id = t.id := by unfold setC; split <;> rfl
@[simp] theorem setC_slice (t : Thread) (n : BitVec 6) (v : CReg) : (setC t n v).slice = t.slice := by unfold setC; split <;> rfl
@[simp] theorem setC_wide (t : Thread) (n : BitVec 6) (v : CReg) : (setC t n v).wide = t.wide := by unfold setC; split <;> rfl
@[simp] theorem setC_opn (t : Thread) (n : BitVec 6) (v : CReg) : (setC t n v).opn = t.opn := by unfold setC; split <;> rfl
@[simp] theorem setC_blockA (t : Thread) (n : BitVec 6) (v : CReg) : (setC t n v).blockA = t.blockA := by unfold setC; split <;> rfl
@[simp] theorem setC_blockE (t : Thread) (n : BitVec 6) (v : CReg) : (setC t n v).blockE = t.blockE := by unfold setC; split <;> rfl
@[simp] theorem setC_sig (t : Thread) (n : BitVec 6) (v : CReg) : (setC t n v).sig = t.sig := by unfold setC; split <;> rfl
@[simp] theorem setC_overran (t : Thread) (n : BitVec 6) (v : CReg) : (setC t n v).overran = t.overran := by unfold setC; split <;> rfl
@[simp] theorem setC_ran (t : Thread) (n : BitVec 6) (v : CReg) : (setC t n v).ran = t.ran := by unfold setC; split <;> rfl
@[simp] theorem setC_startTime (t : Thread) (n : BitVec 6) (v : CReg) : (setC t n v).startTime = t.startTime := by unfold setC; split <;> rfl
@[simp] theorem setC_preempt (t : Thread) (n : BitVec 6) (v : CReg) : (setC t n v).preempt = t.preempt := by unfold setC; split <;> rfl
@[simp] theorem setC_safe (t : Thread) (n : BitVec 6) (v : CReg) : (setC t n v).safe = t.safe := by unfold setC; split <;> rfl
@[simp] theorem setC_prio (t : Thread) (n : BitVec 6) (v : CReg) : (setC t n v).prio = t.prio := by unfold setC; split <;> rfl
@[simp] theorem setC_scope (t : Thread) (n : BitVec 6) (v : CReg) : (setC t n v).scope = t.scope := by unfold setC; split <;> rfl
@[simp] theorem setC_gangStage (t : Thread) (n : BitVec 6) (v : CReg) : (setC t n v).gangStage = t.gangStage := by unfold setC; split <;> rfl
@[simp] theorem setC_fw (t : Thread) (n : BitVec 6) (v : CReg) : (setC t n v).fw = t.fw := by unfold setC; split <;> rfl
@[simp] theorem setC_regs_p (t : Thread) (n : BitVec 6) (v : CReg) : (setC t n v).regs.p = t.regs.p := by unfold setC; split <;> rfl
@[simp] theorem setC_regs_s (t : Thread) (n : BitVec 6) (v : CReg) : (setC t n v).regs.s = t.regs.s := by unfold setC; split <;> rfl
@[simp] theorem setC_regs_f (t : Thread) (n : BitVec 6) (v : CReg) : (setC t n v).regs.f = t.regs.f := by unfold setC; split <;> rfl
@[simp] theorem setC_regs_m (t : Thread) (n : BitVec 6) (v : CReg) : (setC t n v).regs.m = t.regs.m := by unfold setC; split <;> rfl
@[simp] theorem setC_regs_l (t : Thread) (n : BitVec 6) (v : CReg) : (setC t n v).regs.l = t.regs.l := by unfold setC; split <;> rfl
@[simp] theorem setC_regs_d (t : Thread) (n : BitVec 6) (v : CReg) : (setC t n v).regs.d = t.regs.d := by unfold setC; split <;> rfl
@[simp] theorem setC_regs_xq (t : Thread) (n : BitVec 6) (v : CReg) : (setC t n v).regs.xq = t.regs.xq := by unfold setC; split <;> rfl
@[simp] theorem setC_regs_aq (t : Thread) (n : BitVec 6) (v : CReg) : (setC t n v).regs.aq = t.regs.aq := by unfold setC; split <;> rfl
@[simp] theorem setC_regs_fpmode (t : Thread) (n : BitVec 6) (v : CReg) : (setC t n v).regs.fpmode = t.regs.fpmode := by unfold setC; split <;> rfl
@[simp] theorem setC_regs_evc (t : Thread) (n : BitVec 6) (v : CReg) : (setC t n v).regs.evc = t.regs.evc := by unfold setC; split <;> rfl
@[simp] theorem setS_pc (t : Thread) (n : BitVec 4) (v : Option Stream) : (setS t n v).pc = t.pc := rfl
@[simp] theorem setS_code (t : Thread) (n : BitVec 4) (v : Option Stream) : (setS t n v).code = t.code := rfl
@[simp] theorem setS_id (t : Thread) (n : BitVec 4) (v : Option Stream) : (setS t n v).id = t.id := rfl
@[simp] theorem setS_slice (t : Thread) (n : BitVec 4) (v : Option Stream) : (setS t n v).slice = t.slice := rfl
@[simp] theorem setS_wide (t : Thread) (n : BitVec 4) (v : Option Stream) : (setS t n v).wide = t.wide := rfl
@[simp] theorem setS_opn (t : Thread) (n : BitVec 4) (v : Option Stream) : (setS t n v).opn = t.opn := rfl
@[simp] theorem setS_blockA (t : Thread) (n : BitVec 4) (v : Option Stream) : (setS t n v).blockA = t.blockA := rfl
@[simp] theorem setS_blockE (t : Thread) (n : BitVec 4) (v : Option Stream) : (setS t n v).blockE = t.blockE := rfl
@[simp] theorem setS_sig (t : Thread) (n : BitVec 4) (v : Option Stream) : (setS t n v).sig = t.sig := rfl
@[simp] theorem setS_overran (t : Thread) (n : BitVec 4) (v : Option Stream) : (setS t n v).overran = t.overran := rfl
@[simp] theorem setS_ran (t : Thread) (n : BitVec 4) (v : Option Stream) : (setS t n v).ran = t.ran := rfl
@[simp] theorem setS_startTime (t : Thread) (n : BitVec 4) (v : Option Stream) : (setS t n v).startTime = t.startTime := rfl
@[simp] theorem setS_preempt (t : Thread) (n : BitVec 4) (v : Option Stream) : (setS t n v).preempt = t.preempt := rfl
@[simp] theorem setS_safe (t : Thread) (n : BitVec 4) (v : Option Stream) : (setS t n v).safe = t.safe := rfl
@[simp] theorem setS_prio (t : Thread) (n : BitVec 4) (v : Option Stream) : (setS t n v).prio = t.prio := rfl
@[simp] theorem setS_scope (t : Thread) (n : BitVec 4) (v : Option Stream) : (setS t n v).scope = t.scope := rfl
@[simp] theorem setS_gangStage (t : Thread) (n : BitVec 4) (v : Option Stream) : (setS t n v).gangStage = t.gangStage := rfl
@[simp] theorem setS_fw (t : Thread) (n : BitVec 4) (v : Option Stream) : (setS t n v).fw = t.fw := rfl
@[simp] theorem setS_regs_c (t : Thread) (n : BitVec 4) (v : Option Stream) : (setS t n v).regs.c = t.regs.c := rfl
@[simp] theorem setS_regs_p (t : Thread) (n : BitVec 4) (v : Option Stream) : (setS t n v).regs.p = t.regs.p := rfl
@[simp] theorem setS_regs_f (t : Thread) (n : BitVec 4) (v : Option Stream) : (setS t n v).regs.f = t.regs.f := rfl
@[simp] theorem setS_regs_m (t : Thread) (n : BitVec 4) (v : Option Stream) : (setS t n v).regs.m = t.regs.m := rfl
@[simp] theorem setS_regs_l (t : Thread) (n : BitVec 4) (v : Option Stream) : (setS t n v).regs.l = t.regs.l := rfl
@[simp] theorem setS_regs_d (t : Thread) (n : BitVec 4) (v : Option Stream) : (setS t n v).regs.d = t.regs.d := rfl
@[simp] theorem setS_regs_xq (t : Thread) (n : BitVec 4) (v : Option Stream) : (setS t n v).regs.xq = t.regs.xq := rfl
@[simp] theorem setS_regs_aq (t : Thread) (n : BitVec 4) (v : Option Stream) : (setS t n v).regs.aq = t.regs.aq := rfl
@[simp] theorem setS_regs_fpmode (t : Thread) (n : BitVec 4) (v : Option Stream) : (setS t n v).regs.fpmode = t.regs.fpmode := rfl
@[simp] theorem setS_regs_evc (t : Thread) (n : BitVec 4) (v : Option Stream) : (setS t n v).regs.evc = t.regs.evc := rfl
@[simp] theorem setF_pc (t : Thread) (n : BitVec 4) (v : FReg) : (setF t n v).pc = t.pc := rfl
@[simp] theorem setF_code (t : Thread) (n : BitVec 4) (v : FReg) : (setF t n v).code = t.code := rfl
@[simp] theorem setF_id (t : Thread) (n : BitVec 4) (v : FReg) : (setF t n v).id = t.id := rfl
@[simp] theorem setF_slice (t : Thread) (n : BitVec 4) (v : FReg) : (setF t n v).slice = t.slice := rfl
@[simp] theorem setF_wide (t : Thread) (n : BitVec 4) (v : FReg) : (setF t n v).wide = t.wide := rfl
@[simp] theorem setF_opn (t : Thread) (n : BitVec 4) (v : FReg) : (setF t n v).opn = t.opn := rfl
@[simp] theorem setF_blockA (t : Thread) (n : BitVec 4) (v : FReg) : (setF t n v).blockA = t.blockA := rfl
@[simp] theorem setF_blockE (t : Thread) (n : BitVec 4) (v : FReg) : (setF t n v).blockE = t.blockE := rfl
@[simp] theorem setF_sig (t : Thread) (n : BitVec 4) (v : FReg) : (setF t n v).sig = t.sig := rfl
@[simp] theorem setF_overran (t : Thread) (n : BitVec 4) (v : FReg) : (setF t n v).overran = t.overran := rfl
@[simp] theorem setF_ran (t : Thread) (n : BitVec 4) (v : FReg) : (setF t n v).ran = t.ran := rfl
@[simp] theorem setF_startTime (t : Thread) (n : BitVec 4) (v : FReg) : (setF t n v).startTime = t.startTime := rfl
@[simp] theorem setF_preempt (t : Thread) (n : BitVec 4) (v : FReg) : (setF t n v).preempt = t.preempt := rfl
@[simp] theorem setF_safe (t : Thread) (n : BitVec 4) (v : FReg) : (setF t n v).safe = t.safe := rfl
@[simp] theorem setF_prio (t : Thread) (n : BitVec 4) (v : FReg) : (setF t n v).prio = t.prio := rfl
@[simp] theorem setF_scope (t : Thread) (n : BitVec 4) (v : FReg) : (setF t n v).scope = t.scope := rfl
@[simp] theorem setF_gangStage (t : Thread) (n : BitVec 4) (v : FReg) : (setF t n v).gangStage = t.gangStage := rfl
@[simp] theorem setF_fw (t : Thread) (n : BitVec 4) (v : FReg) : (setF t n v).fw = t.fw := rfl
@[simp] theorem setF_regs_c (t : Thread) (n : BitVec 4) (v : FReg) : (setF t n v).regs.c = t.regs.c := rfl
@[simp] theorem setF_regs_p (t : Thread) (n : BitVec 4) (v : FReg) : (setF t n v).regs.p = t.regs.p := rfl
@[simp] theorem setF_regs_s (t : Thread) (n : BitVec 4) (v : FReg) : (setF t n v).regs.s = t.regs.s := rfl
@[simp] theorem setF_regs_m (t : Thread) (n : BitVec 4) (v : FReg) : (setF t n v).regs.m = t.regs.m := rfl
@[simp] theorem setF_regs_l (t : Thread) (n : BitVec 4) (v : FReg) : (setF t n v).regs.l = t.regs.l := rfl
@[simp] theorem setF_regs_d (t : Thread) (n : BitVec 4) (v : FReg) : (setF t n v).regs.d = t.regs.d := rfl
@[simp] theorem setF_regs_xq (t : Thread) (n : BitVec 4) (v : FReg) : (setF t n v).regs.xq = t.regs.xq := rfl
@[simp] theorem setF_regs_aq (t : Thread) (n : BitVec 4) (v : FReg) : (setF t n v).regs.aq = t.regs.aq := rfl
@[simp] theorem setF_regs_fpmode (t : Thread) (n : BitVec 4) (v : FReg) : (setF t n v).regs.fpmode = t.regs.fpmode := rfl
@[simp] theorem setF_regs_evc (t : Thread) (n : BitVec 4) (v : FReg) : (setF t n v).regs.evc = t.regs.evc := rfl
@[simp] theorem setM_pc (t : Thread) (n : BitVec 3) (v : Tile) : (setM t n v).pc = t.pc := rfl
@[simp] theorem setM_code (t : Thread) (n : BitVec 3) (v : Tile) : (setM t n v).code = t.code := rfl
@[simp] theorem setM_id (t : Thread) (n : BitVec 3) (v : Tile) : (setM t n v).id = t.id := rfl
@[simp] theorem setM_slice (t : Thread) (n : BitVec 3) (v : Tile) : (setM t n v).slice = t.slice := rfl
@[simp] theorem setM_wide (t : Thread) (n : BitVec 3) (v : Tile) : (setM t n v).wide = t.wide := rfl
@[simp] theorem setM_opn (t : Thread) (n : BitVec 3) (v : Tile) : (setM t n v).opn = t.opn := rfl
@[simp] theorem setM_blockA (t : Thread) (n : BitVec 3) (v : Tile) : (setM t n v).blockA = t.blockA := rfl
@[simp] theorem setM_blockE (t : Thread) (n : BitVec 3) (v : Tile) : (setM t n v).blockE = t.blockE := rfl
@[simp] theorem setM_sig (t : Thread) (n : BitVec 3) (v : Tile) : (setM t n v).sig = t.sig := rfl
@[simp] theorem setM_overran (t : Thread) (n : BitVec 3) (v : Tile) : (setM t n v).overran = t.overran := rfl
@[simp] theorem setM_ran (t : Thread) (n : BitVec 3) (v : Tile) : (setM t n v).ran = t.ran := rfl
@[simp] theorem setM_startTime (t : Thread) (n : BitVec 3) (v : Tile) : (setM t n v).startTime = t.startTime := rfl
@[simp] theorem setM_preempt (t : Thread) (n : BitVec 3) (v : Tile) : (setM t n v).preempt = t.preempt := rfl
@[simp] theorem setM_safe (t : Thread) (n : BitVec 3) (v : Tile) : (setM t n v).safe = t.safe := rfl
@[simp] theorem setM_prio (t : Thread) (n : BitVec 3) (v : Tile) : (setM t n v).prio = t.prio := rfl
@[simp] theorem setM_scope (t : Thread) (n : BitVec 3) (v : Tile) : (setM t n v).scope = t.scope := rfl
@[simp] theorem setM_gangStage (t : Thread) (n : BitVec 3) (v : Tile) : (setM t n v).gangStage = t.gangStage := rfl
@[simp] theorem setM_fw (t : Thread) (n : BitVec 3) (v : Tile) : (setM t n v).fw = t.fw := rfl
@[simp] theorem setM_regs_c (t : Thread) (n : BitVec 3) (v : Tile) : (setM t n v).regs.c = t.regs.c := rfl
@[simp] theorem setM_regs_p (t : Thread) (n : BitVec 3) (v : Tile) : (setM t n v).regs.p = t.regs.p := rfl
@[simp] theorem setM_regs_s (t : Thread) (n : BitVec 3) (v : Tile) : (setM t n v).regs.s = t.regs.s := rfl
@[simp] theorem setM_regs_f (t : Thread) (n : BitVec 3) (v : Tile) : (setM t n v).regs.f = t.regs.f := rfl
@[simp] theorem setM_regs_l (t : Thread) (n : BitVec 3) (v : Tile) : (setM t n v).regs.l = t.regs.l := rfl
@[simp] theorem setM_regs_d (t : Thread) (n : BitVec 3) (v : Tile) : (setM t n v).regs.d = t.regs.d := rfl
@[simp] theorem setM_regs_xq (t : Thread) (n : BitVec 3) (v : Tile) : (setM t n v).regs.xq = t.regs.xq := rfl
@[simp] theorem setM_regs_aq (t : Thread) (n : BitVec 3) (v : Tile) : (setM t n v).regs.aq = t.regs.aq := rfl
@[simp] theorem setM_regs_fpmode (t : Thread) (n : BitVec 3) (v : Tile) : (setM t n v).regs.fpmode = t.regs.fpmode := rfl
@[simp] theorem setM_regs_evc (t : Thread) (n : BitVec 3) (v : Tile) : (setM t n v).regs.evc = t.regs.evc := rfl
@[simp] theorem setL_pc (t : Thread) (n : BitVec 2) (v : List W128) : (setL t n v).pc = t.pc := rfl
@[simp] theorem setL_code (t : Thread) (n : BitVec 2) (v : List W128) : (setL t n v).code = t.code := rfl
@[simp] theorem setL_id (t : Thread) (n : BitVec 2) (v : List W128) : (setL t n v).id = t.id := rfl
@[simp] theorem setL_slice (t : Thread) (n : BitVec 2) (v : List W128) : (setL t n v).slice = t.slice := rfl
@[simp] theorem setL_wide (t : Thread) (n : BitVec 2) (v : List W128) : (setL t n v).wide = t.wide := rfl
@[simp] theorem setL_opn (t : Thread) (n : BitVec 2) (v : List W128) : (setL t n v).opn = t.opn := rfl
@[simp] theorem setL_blockA (t : Thread) (n : BitVec 2) (v : List W128) : (setL t n v).blockA = t.blockA := rfl
@[simp] theorem setL_blockE (t : Thread) (n : BitVec 2) (v : List W128) : (setL t n v).blockE = t.blockE := rfl
@[simp] theorem setL_sig (t : Thread) (n : BitVec 2) (v : List W128) : (setL t n v).sig = t.sig := rfl
@[simp] theorem setL_overran (t : Thread) (n : BitVec 2) (v : List W128) : (setL t n v).overran = t.overran := rfl
@[simp] theorem setL_ran (t : Thread) (n : BitVec 2) (v : List W128) : (setL t n v).ran = t.ran := rfl
@[simp] theorem setL_startTime (t : Thread) (n : BitVec 2) (v : List W128) : (setL t n v).startTime = t.startTime := rfl
@[simp] theorem setL_preempt (t : Thread) (n : BitVec 2) (v : List W128) : (setL t n v).preempt = t.preempt := rfl
@[simp] theorem setL_safe (t : Thread) (n : BitVec 2) (v : List W128) : (setL t n v).safe = t.safe := rfl
@[simp] theorem setL_prio (t : Thread) (n : BitVec 2) (v : List W128) : (setL t n v).prio = t.prio := rfl
@[simp] theorem setL_scope (t : Thread) (n : BitVec 2) (v : List W128) : (setL t n v).scope = t.scope := rfl
@[simp] theorem setL_gangStage (t : Thread) (n : BitVec 2) (v : List W128) : (setL t n v).gangStage = t.gangStage := rfl
@[simp] theorem setL_fw (t : Thread) (n : BitVec 2) (v : List W128) : (setL t n v).fw = t.fw := rfl
@[simp] theorem setL_regs_c (t : Thread) (n : BitVec 2) (v : List W128) : (setL t n v).regs.c = t.regs.c := rfl
@[simp] theorem setL_regs_p (t : Thread) (n : BitVec 2) (v : List W128) : (setL t n v).regs.p = t.regs.p := rfl
@[simp] theorem setL_regs_s (t : Thread) (n : BitVec 2) (v : List W128) : (setL t n v).regs.s = t.regs.s := rfl
@[simp] theorem setL_regs_f (t : Thread) (n : BitVec 2) (v : List W128) : (setL t n v).regs.f = t.regs.f := rfl
@[simp] theorem setL_regs_m (t : Thread) (n : BitVec 2) (v : List W128) : (setL t n v).regs.m = t.regs.m := rfl
@[simp] theorem setL_regs_d (t : Thread) (n : BitVec 2) (v : List W128) : (setL t n v).regs.d = t.regs.d := rfl
@[simp] theorem setL_regs_xq (t : Thread) (n : BitVec 2) (v : List W128) : (setL t n v).regs.xq = t.regs.xq := rfl
@[simp] theorem setL_regs_aq (t : Thread) (n : BitVec 2) (v : List W128) : (setL t n v).regs.aq = t.regs.aq := rfl
@[simp] theorem setL_regs_fpmode (t : Thread) (n : BitVec 2) (v : List W128) : (setL t n v).regs.fpmode = t.regs.fpmode := rfl
@[simp] theorem setL_regs_evc (t : Thread) (n : BitVec 2) (v : List W128) : (setL t n v).regs.evc = t.regs.evc := rfl
@[simp] theorem setD_pc (t : Thread) (n : BitVec 1) (v : List W128) : (setD t n v).pc = t.pc := rfl
@[simp] theorem setD_code (t : Thread) (n : BitVec 1) (v : List W128) : (setD t n v).code = t.code := rfl
@[simp] theorem setD_id (t : Thread) (n : BitVec 1) (v : List W128) : (setD t n v).id = t.id := rfl
@[simp] theorem setD_slice (t : Thread) (n : BitVec 1) (v : List W128) : (setD t n v).slice = t.slice := rfl
@[simp] theorem setD_wide (t : Thread) (n : BitVec 1) (v : List W128) : (setD t n v).wide = t.wide := rfl
@[simp] theorem setD_opn (t : Thread) (n : BitVec 1) (v : List W128) : (setD t n v).opn = t.opn := rfl
@[simp] theorem setD_blockA (t : Thread) (n : BitVec 1) (v : List W128) : (setD t n v).blockA = t.blockA := rfl
@[simp] theorem setD_blockE (t : Thread) (n : BitVec 1) (v : List W128) : (setD t n v).blockE = t.blockE := rfl
@[simp] theorem setD_sig (t : Thread) (n : BitVec 1) (v : List W128) : (setD t n v).sig = t.sig := rfl
@[simp] theorem setD_overran (t : Thread) (n : BitVec 1) (v : List W128) : (setD t n v).overran = t.overran := rfl
@[simp] theorem setD_ran (t : Thread) (n : BitVec 1) (v : List W128) : (setD t n v).ran = t.ran := rfl
@[simp] theorem setD_startTime (t : Thread) (n : BitVec 1) (v : List W128) : (setD t n v).startTime = t.startTime := rfl
@[simp] theorem setD_preempt (t : Thread) (n : BitVec 1) (v : List W128) : (setD t n v).preempt = t.preempt := rfl
@[simp] theorem setD_safe (t : Thread) (n : BitVec 1) (v : List W128) : (setD t n v).safe = t.safe := rfl
@[simp] theorem setD_prio (t : Thread) (n : BitVec 1) (v : List W128) : (setD t n v).prio = t.prio := rfl
@[simp] theorem setD_scope (t : Thread) (n : BitVec 1) (v : List W128) : (setD t n v).scope = t.scope := rfl
@[simp] theorem setD_gangStage (t : Thread) (n : BitVec 1) (v : List W128) : (setD t n v).gangStage = t.gangStage := rfl
@[simp] theorem setD_fw (t : Thread) (n : BitVec 1) (v : List W128) : (setD t n v).fw = t.fw := rfl
@[simp] theorem setD_regs_c (t : Thread) (n : BitVec 1) (v : List W128) : (setD t n v).regs.c = t.regs.c := rfl
@[simp] theorem setD_regs_p (t : Thread) (n : BitVec 1) (v : List W128) : (setD t n v).regs.p = t.regs.p := rfl
@[simp] theorem setD_regs_s (t : Thread) (n : BitVec 1) (v : List W128) : (setD t n v).regs.s = t.regs.s := rfl
@[simp] theorem setD_regs_f (t : Thread) (n : BitVec 1) (v : List W128) : (setD t n v).regs.f = t.regs.f := rfl
@[simp] theorem setD_regs_m (t : Thread) (n : BitVec 1) (v : List W128) : (setD t n v).regs.m = t.regs.m := rfl
@[simp] theorem setD_regs_l (t : Thread) (n : BitVec 1) (v : List W128) : (setD t n v).regs.l = t.regs.l := rfl
@[simp] theorem setD_regs_xq (t : Thread) (n : BitVec 1) (v : List W128) : (setD t n v).regs.xq = t.regs.xq := rfl
@[simp] theorem setD_regs_aq (t : Thread) (n : BitVec 1) (v : List W128) : (setD t n v).regs.aq = t.regs.aq := rfl
@[simp] theorem setD_regs_fpmode (t : Thread) (n : BitVec 1) (v : List W128) : (setD t n v).regs.fpmode = t.regs.fpmode := rfl
@[simp] theorem setD_regs_evc (t : Thread) (n : BitVec 1) (v : List W128) : (setD t n v).regs.evc = t.regs.evc := rfl
@[simp] theorem setXq_pc (t : Thread) (v : List W64) : (setXq t v).pc = t.pc := rfl
@[simp] theorem setXq_code (t : Thread) (v : List W64) : (setXq t v).code = t.code := rfl
@[simp] theorem setXq_id (t : Thread) (v : List W64) : (setXq t v).id = t.id := rfl
@[simp] theorem setXq_slice (t : Thread) (v : List W64) : (setXq t v).slice = t.slice := rfl
@[simp] theorem setXq_wide (t : Thread) (v : List W64) : (setXq t v).wide = t.wide := rfl
@[simp] theorem setXq_opn (t : Thread) (v : List W64) : (setXq t v).opn = t.opn := rfl
@[simp] theorem setXq_blockA (t : Thread) (v : List W64) : (setXq t v).blockA = t.blockA := rfl
@[simp] theorem setXq_blockE (t : Thread) (v : List W64) : (setXq t v).blockE = t.blockE := rfl
@[simp] theorem setXq_sig (t : Thread) (v : List W64) : (setXq t v).sig = t.sig := rfl
@[simp] theorem setXq_overran (t : Thread) (v : List W64) : (setXq t v).overran = t.overran := rfl
@[simp] theorem setXq_ran (t : Thread) (v : List W64) : (setXq t v).ran = t.ran := rfl
@[simp] theorem setXq_startTime (t : Thread) (v : List W64) : (setXq t v).startTime = t.startTime := rfl
@[simp] theorem setXq_preempt (t : Thread) (v : List W64) : (setXq t v).preempt = t.preempt := rfl
@[simp] theorem setXq_safe (t : Thread) (v : List W64) : (setXq t v).safe = t.safe := rfl
@[simp] theorem setXq_prio (t : Thread) (v : List W64) : (setXq t v).prio = t.prio := rfl
@[simp] theorem setXq_scope (t : Thread) (v : List W64) : (setXq t v).scope = t.scope := rfl
@[simp] theorem setXq_gangStage (t : Thread) (v : List W64) : (setXq t v).gangStage = t.gangStage := rfl
@[simp] theorem setXq_fw (t : Thread) (v : List W64) : (setXq t v).fw = t.fw := rfl
@[simp] theorem setXq_regs_c (t : Thread) (v : List W64) : (setXq t v).regs.c = t.regs.c := rfl
@[simp] theorem setXq_regs_p (t : Thread) (v : List W64) : (setXq t v).regs.p = t.regs.p := rfl
@[simp] theorem setXq_regs_s (t : Thread) (v : List W64) : (setXq t v).regs.s = t.regs.s := rfl
@[simp] theorem setXq_regs_f (t : Thread) (v : List W64) : (setXq t v).regs.f = t.regs.f := rfl
@[simp] theorem setXq_regs_m (t : Thread) (v : List W64) : (setXq t v).regs.m = t.regs.m := rfl
@[simp] theorem setXq_regs_l (t : Thread) (v : List W64) : (setXq t v).regs.l = t.regs.l := rfl
@[simp] theorem setXq_regs_d (t : Thread) (v : List W64) : (setXq t v).regs.d = t.regs.d := rfl
@[simp] theorem setXq_regs_aq (t : Thread) (v : List W64) : (setXq t v).regs.aq = t.regs.aq := rfl
@[simp] theorem setXq_regs_fpmode (t : Thread) (v : List W64) : (setXq t v).regs.fpmode = t.regs.fpmode := rfl
@[simp] theorem setXq_regs_evc (t : Thread) (v : List W64) : (setXq t v).regs.evc = t.regs.evc := rfl
@[simp] theorem setAq_pc (t : Thread) (v : List W64) : (setAq t v).pc = t.pc := rfl
@[simp] theorem setAq_code (t : Thread) (v : List W64) : (setAq t v).code = t.code := rfl
@[simp] theorem setAq_id (t : Thread) (v : List W64) : (setAq t v).id = t.id := rfl
@[simp] theorem setAq_slice (t : Thread) (v : List W64) : (setAq t v).slice = t.slice := rfl
@[simp] theorem setAq_wide (t : Thread) (v : List W64) : (setAq t v).wide = t.wide := rfl
@[simp] theorem setAq_opn (t : Thread) (v : List W64) : (setAq t v).opn = t.opn := rfl
@[simp] theorem setAq_blockA (t : Thread) (v : List W64) : (setAq t v).blockA = t.blockA := rfl
@[simp] theorem setAq_blockE (t : Thread) (v : List W64) : (setAq t v).blockE = t.blockE := rfl
@[simp] theorem setAq_sig (t : Thread) (v : List W64) : (setAq t v).sig = t.sig := rfl
@[simp] theorem setAq_overran (t : Thread) (v : List W64) : (setAq t v).overran = t.overran := rfl
@[simp] theorem setAq_ran (t : Thread) (v : List W64) : (setAq t v).ran = t.ran := rfl
@[simp] theorem setAq_startTime (t : Thread) (v : List W64) : (setAq t v).startTime = t.startTime := rfl
@[simp] theorem setAq_preempt (t : Thread) (v : List W64) : (setAq t v).preempt = t.preempt := rfl
@[simp] theorem setAq_safe (t : Thread) (v : List W64) : (setAq t v).safe = t.safe := rfl
@[simp] theorem setAq_prio (t : Thread) (v : List W64) : (setAq t v).prio = t.prio := rfl
@[simp] theorem setAq_scope (t : Thread) (v : List W64) : (setAq t v).scope = t.scope := rfl
@[simp] theorem setAq_gangStage (t : Thread) (v : List W64) : (setAq t v).gangStage = t.gangStage := rfl
@[simp] theorem setAq_fw (t : Thread) (v : List W64) : (setAq t v).fw = t.fw := rfl
@[simp] theorem setAq_regs_c (t : Thread) (v : List W64) : (setAq t v).regs.c = t.regs.c := rfl
@[simp] theorem setAq_regs_p (t : Thread) (v : List W64) : (setAq t v).regs.p = t.regs.p := rfl
@[simp] theorem setAq_regs_s (t : Thread) (v : List W64) : (setAq t v).regs.s = t.regs.s := rfl
@[simp] theorem setAq_regs_f (t : Thread) (v : List W64) : (setAq t v).regs.f = t.regs.f := rfl
@[simp] theorem setAq_regs_m (t : Thread) (v : List W64) : (setAq t v).regs.m = t.regs.m := rfl
@[simp] theorem setAq_regs_l (t : Thread) (v : List W64) : (setAq t v).regs.l = t.regs.l := rfl
@[simp] theorem setAq_regs_d (t : Thread) (v : List W64) : (setAq t v).regs.d = t.regs.d := rfl
@[simp] theorem setAq_regs_xq (t : Thread) (v : List W64) : (setAq t v).regs.xq = t.regs.xq := rfl
@[simp] theorem setAq_regs_fpmode (t : Thread) (v : List W64) : (setAq t v).regs.fpmode = t.regs.fpmode := rfl
@[simp] theorem setAq_regs_evc (t : Thread) (v : List W64) : (setAq t v).regs.evc = t.regs.evc := rfl
@[simp] theorem setP_pc (t : Thread) (n : BitVec 4) (v : Bool) : (setP t n v).pc = t.pc := by unfold setP; split <;> rfl
@[simp] theorem setP_code (t : Thread) (n : BitVec 4) (v : Bool) : (setP t n v).code = t.code := by unfold setP; split <;> rfl
@[simp] theorem setP_id (t : Thread) (n : BitVec 4) (v : Bool) : (setP t n v).id = t.id := by unfold setP; split <;> rfl
@[simp] theorem setP_slice (t : Thread) (n : BitVec 4) (v : Bool) : (setP t n v).slice = t.slice := by unfold setP; split <;> rfl
@[simp] theorem setP_wide (t : Thread) (n : BitVec 4) (v : Bool) : (setP t n v).wide = t.wide := by unfold setP; split <;> rfl
@[simp] theorem setP_opn (t : Thread) (n : BitVec 4) (v : Bool) : (setP t n v).opn = t.opn := by unfold setP; split <;> rfl
@[simp] theorem setP_blockA (t : Thread) (n : BitVec 4) (v : Bool) : (setP t n v).blockA = t.blockA := by unfold setP; split <;> rfl
@[simp] theorem setP_blockE (t : Thread) (n : BitVec 4) (v : Bool) : (setP t n v).blockE = t.blockE := by unfold setP; split <;> rfl
@[simp] theorem setP_sig (t : Thread) (n : BitVec 4) (v : Bool) : (setP t n v).sig = t.sig := by unfold setP; split <;> rfl
@[simp] theorem setP_overran (t : Thread) (n : BitVec 4) (v : Bool) : (setP t n v).overran = t.overran := by unfold setP; split <;> rfl
@[simp] theorem setP_ran (t : Thread) (n : BitVec 4) (v : Bool) : (setP t n v).ran = t.ran := by unfold setP; split <;> rfl
@[simp] theorem setP_startTime (t : Thread) (n : BitVec 4) (v : Bool) : (setP t n v).startTime = t.startTime := by unfold setP; split <;> rfl
@[simp] theorem setP_preempt (t : Thread) (n : BitVec 4) (v : Bool) : (setP t n v).preempt = t.preempt := by unfold setP; split <;> rfl
@[simp] theorem setP_safe (t : Thread) (n : BitVec 4) (v : Bool) : (setP t n v).safe = t.safe := by unfold setP; split <;> rfl
@[simp] theorem setP_prio (t : Thread) (n : BitVec 4) (v : Bool) : (setP t n v).prio = t.prio := by unfold setP; split <;> rfl
@[simp] theorem setP_scope (t : Thread) (n : BitVec 4) (v : Bool) : (setP t n v).scope = t.scope := by unfold setP; split <;> rfl
@[simp] theorem setP_gangStage (t : Thread) (n : BitVec 4) (v : Bool) : (setP t n v).gangStage = t.gangStage := by unfold setP; split <;> rfl
@[simp] theorem setP_fw (t : Thread) (n : BitVec 4) (v : Bool) : (setP t n v).fw = t.fw := by unfold setP; split <;> rfl
@[simp] theorem setP_regs_c (t : Thread) (n : BitVec 4) (v : Bool) : (setP t n v).regs.c = t.regs.c := by unfold setP; split <;> rfl
@[simp] theorem setP_regs_s (t : Thread) (n : BitVec 4) (v : Bool) : (setP t n v).regs.s = t.regs.s := by unfold setP; split <;> rfl
@[simp] theorem setP_regs_f (t : Thread) (n : BitVec 4) (v : Bool) : (setP t n v).regs.f = t.regs.f := by unfold setP; split <;> rfl
@[simp] theorem setP_regs_m (t : Thread) (n : BitVec 4) (v : Bool) : (setP t n v).regs.m = t.regs.m := by unfold setP; split <;> rfl
@[simp] theorem setP_regs_l (t : Thread) (n : BitVec 4) (v : Bool) : (setP t n v).regs.l = t.regs.l := by unfold setP; split <;> rfl
@[simp] theorem setP_regs_d (t : Thread) (n : BitVec 4) (v : Bool) : (setP t n v).regs.d = t.regs.d := by unfold setP; split <;> rfl
@[simp] theorem setP_regs_xq (t : Thread) (n : BitVec 4) (v : Bool) : (setP t n v).regs.xq = t.regs.xq := by unfold setP; split <;> rfl
@[simp] theorem setP_regs_aq (t : Thread) (n : BitVec 4) (v : Bool) : (setP t n v).regs.aq = t.regs.aq := by unfold setP; split <;> rfl
@[simp] theorem setP_regs_fpmode (t : Thread) (n : BitVec 4) (v : Bool) : (setP t n v).regs.fpmode = t.regs.fpmode := by unfold setP; split <;> rfl
@[simp] theorem setP_regs_evc (t : Thread) (n : BitVec 4) (v : Bool) : (setP t n v).regs.evc = t.regs.evc := by unfold setP; split <;> rfl
@[simp] theorem countEvents_pc (t : Thread) (v : Events) : (countEvents t v).pc = t.pc := rfl
@[simp] theorem countEvents_code (t : Thread) (v : Events) : (countEvents t v).code = t.code := rfl
@[simp] theorem countEvents_id (t : Thread) (v : Events) : (countEvents t v).id = t.id := rfl
@[simp] theorem countEvents_slice (t : Thread) (v : Events) : (countEvents t v).slice = t.slice := rfl
@[simp] theorem countEvents_wide (t : Thread) (v : Events) : (countEvents t v).wide = t.wide := rfl
@[simp] theorem countEvents_opn (t : Thread) (v : Events) : (countEvents t v).opn = t.opn := rfl
@[simp] theorem countEvents_blockA (t : Thread) (v : Events) : (countEvents t v).blockA = t.blockA := rfl
@[simp] theorem countEvents_blockE (t : Thread) (v : Events) : (countEvents t v).blockE = t.blockE := rfl
@[simp] theorem countEvents_sig (t : Thread) (v : Events) : (countEvents t v).sig = t.sig := rfl
@[simp] theorem countEvents_overran (t : Thread) (v : Events) : (countEvents t v).overran = t.overran := rfl
@[simp] theorem countEvents_ran (t : Thread) (v : Events) : (countEvents t v).ran = t.ran := rfl
@[simp] theorem countEvents_startTime (t : Thread) (v : Events) : (countEvents t v).startTime = t.startTime := rfl
@[simp] theorem countEvents_preempt (t : Thread) (v : Events) : (countEvents t v).preempt = t.preempt := rfl
@[simp] theorem countEvents_safe (t : Thread) (v : Events) : (countEvents t v).safe = t.safe := rfl
@[simp] theorem countEvents_prio (t : Thread) (v : Events) : (countEvents t v).prio = t.prio := rfl
@[simp] theorem countEvents_scope (t : Thread) (v : Events) : (countEvents t v).scope = t.scope := rfl
@[simp] theorem countEvents_gangStage (t : Thread) (v : Events) : (countEvents t v).gangStage = t.gangStage := rfl
@[simp] theorem countEvents_fw (t : Thread) (v : Events) : (countEvents t v).fw = t.fw := rfl
@[simp] theorem countEvents_regs_c (t : Thread) (v : Events) : (countEvents t v).regs.c = t.regs.c := rfl
@[simp] theorem countEvents_regs_p (t : Thread) (v : Events) : (countEvents t v).regs.p = t.regs.p := rfl
@[simp] theorem countEvents_regs_s (t : Thread) (v : Events) : (countEvents t v).regs.s = t.regs.s := rfl
@[simp] theorem countEvents_regs_f (t : Thread) (v : Events) : (countEvents t v).regs.f = t.regs.f := rfl
@[simp] theorem countEvents_regs_m (t : Thread) (v : Events) : (countEvents t v).regs.m = t.regs.m := rfl
@[simp] theorem countEvents_regs_l (t : Thread) (v : Events) : (countEvents t v).regs.l = t.regs.l := rfl
@[simp] theorem countEvents_regs_d (t : Thread) (v : Events) : (countEvents t v).regs.d = t.regs.d := rfl
@[simp] theorem countEvents_regs_xq (t : Thread) (v : Events) : (countEvents t v).regs.xq = t.regs.xq := rfl
@[simp] theorem countEvents_regs_aq (t : Thread) (v : Events) : (countEvents t v).regs.aq = t.regs.aq := rfl
@[simp] theorem countEvents_regs_fpmode (t : Thread) (v : Events) : (countEvents t v).regs.fpmode = t.regs.fpmode := rfl
@[simp] theorem getS_setS_self (t : Thread) (n : BitVec 4) (v : Option Stream) : getS (setS t n v) n = v := by simp [getS, setS]
theorem getS_setS_ne (t : Thread) {n m : BitVec 4} (v : Option Stream) (h : m ≠ n) : getS (setS t n v) m = getS t m := by
  have : n.toNat ≠ m.toNat := fun e => h (BitVec.eq_of_toNat_eq e).symm
  simp [getS, setS, this]
@[simp] theorem getF_setF_self (t : Thread) (n : BitVec 4) (v : FReg) : getF (setF t n v) n = v := by simp [getF, setF]
theorem getF_setF_ne (t : Thread) {n m : BitVec 4} (v : FReg) (h : m ≠ n) : getF (setF t n v) m = getF t m := by
  have : n.toNat ≠ m.toNat := fun e => h (BitVec.eq_of_toNat_eq e).symm
  simp [getF, setF, this]
@[simp] theorem getM_setM_self (t : Thread) (n : BitVec 3) (v : Tile) : getM (setM t n v) n = v := by simp [getM, setM]
theorem getM_setM_ne (t : Thread) {n m : BitVec 3} (v : Tile) (h : m ≠ n) : getM (setM t n v) m = getM t m := by
  have : n.toNat ≠ m.toNat := fun e => h (BitVec.eq_of_toNat_eq e).symm
  simp [getM, setM, this]
@[simp] theorem getL_setL_self (t : Thread) (n : BitVec 2) (v : List W128) : getL (setL t n v) n = v := by simp [getL, setL]
theorem getL_setL_ne (t : Thread) {n m : BitVec 2} (v : List W128) (h : m ≠ n) : getL (setL t n v) m = getL t m := by
  have : n.toNat ≠ m.toNat := fun e => h (BitVec.eq_of_toNat_eq e).symm
  simp [getL, setL, this]
@[simp] theorem getD_setD_self (t : Thread) (n : BitVec 1) (v : List W128) : getD (setD t n v) n = v := by simp [getD, setD]
theorem getD_setD_ne (t : Thread) {n m : BitVec 1} (v : List W128) (h : m ≠ n) : getD (setD t n v) m = getD t m := by
  have : n.toNat ≠ m.toNat := fun e => h (BitVec.eq_of_toNat_eq e).symm
  simp [getD, setD, this]
end Sys2Proof.Laws.State
end

