-- ==== Sys2Proof/Laws/Ops.lean ====
section
/-! SUPPORT. What the shared operations of an instruction can do, said once. -/
namespace Sys2Proof.Laws.Ops
open Sys2Proof.Machine Sys2Proof.Laws.State

/-! ## Running an instruction -/

theorem runState_none {h : Hdr} {f : Thread → State → Res} {s : State} (c : curThread s = none) : runState h f s = .next s := by
  simp [runState, c]
/-- a false guard only retires the word -/
theorem runState_false {h : Hdr} {f : Thread → State → Res} {s : State} {t : Thread} (c : curThread s = some t)
    (g : guardTrue h t = false) : runState h f s = .next (retireCur h (succPc h s.cur.pc) s) := by
  simp [runState, c, g, finish]
theorem runState_true {h : Hdr} {f : Thread → State → Res} {s : State} {t : Thread} (c : curThread s = some t)
    (g : guardTrue h t = true) : runState h f s = .next (finish h (f t s)) := by
  simp [runState, c, g]
/-- the thread a word is done with is retired on the core it ran on -/
theorem retireCur_setCur (h : Hdr) (pc : W64) (s : State) (t : Thread) : retireCur h pc (setCur s t) = setCur s (retireTo h pc (setCur s t) t) := by
  simp [retireCur]
/-- a core's own state put back: what a search over the cores finds is unchanged -/
theorem any_mset_same {α : Type} (p : Nat × α → Bool) {m : Map α} {q : Nat} {x : α} (h : mfind m q = some x) :
    (mset m q x).any p = m.any p := by
  have mem : ∀ {m : Map α}, mfind m q = some x → (q, x) ∈ m := by
    intro m h
    induction m with
    | nil => simp [mfind] at h
    | cons a t ih =>
      obtain ⟨k, v⟩ := a
      rw [mfind] at h
      split at h
      · next e => cases h; simp [e]
      · exact List.mem_cons_of_mem _ (ih h)
  induction m with
  | nil => simp [mfind] at h
  | cons a t ih =>
    obtain ⟨k, v⟩ := a
    rw [mfind] at h
    split at h
    · next e => cases h; subst e; simp [mset]
    · next e =>
      simp only [mset, e, if_false]
      split
      · rw [Bool.eq_iff_iff]
        simp only [List.any_cons, Bool.or_eq_true, List.any_eq_true]
        exact ⟨fun r => r.elim (fun r => .inr ⟨_, mem h, r⟩) id, .inr⟩
      · simp [ih h]
/-- and a collection that leaves it out is unchanged -/
theorem filterMap_mset_none {α β : Type} (f : Nat × α → Option β) {m : Map α} {q : Nat} {x : α} (h : mfind m q = some x)
    (e : f (q, x) = none) : (mset m q x).filterMap f = m.filterMap f := by
  induction m with
  | nil => simp [mfind] at h
  | cons a t ih =>
    obtain ⟨k, v⟩ := a
    rw [mfind] at h
    split at h
    · next e => cases h; subst e; simp [mset]
    · next n =>
      simp only [mset, n, if_false]
      split
      · simp [List.filterMap_cons, e]
      · simp [List.filterMap_cons, ih h]
theorem setCur_self_cores {s : State} {t : Thread} (c : curThread s = some t) :
    setCur s t = { s with cores := mset s.cores s.cur.core (Machine.core s s.cur.core) } ∧ mfind s.cores s.cur.core = some (Machine.core s s.cur.core) := by
  have e : (Machine.core s s.cur.core).thread = some t := c
  refine ⟨?_, ?_⟩
  · simp only [setCur, setThreadOf, setCore, ← e]
  · cases f : mfind s.cores s.cur.core with
    | none => simp [Machine.core, mget, f, coreReset] at e
    | some x => simp [Machine.core, mget, f]
theorem maySave_setCur_self {s : State} {t u : Thread} (c : curThread s = some t) (i : u.id = t.id) :
    maySave (setCur s t) u = maySave s u := by
  obtain ⟨e, f⟩ := setCur_self_cores c
  have th : (Machine.core s s.cur.core).thread = some t := c
  have p : promised (setCur s t) u.id.ctx u.id.batch = promised s u.id.ctx u.id.batch := by
    simp only [promised, e]
    rw [filterMap_mset_none _ f (by simp [th, i])]
  simp only [maySave, p]
  rw [e]
  simp only [any_mset_same _ f]
  rfl
theorem passSafe_congr {s s' : State} {t : Thread} {m : IWord} (h : maySave s t = maySave s' t) : passSafe s t m = passSafe s' t m := by
  simp only [passSafe, h]
/-- the thread put back as it is does not change how it retires -/
theorem retireTo_setCur_self {h : Hdr} {pc : W64} {s : State} {t u : Thread} (c : curThread s = some t) (i : u.id = t.id) :
    retireTo h pc (setCur s t) u = retireTo h pc s u := by
  rw [retireTo, retireTo]
  split
  · exact ite_congr rfl (fun _ => passSafe_congr (maySave_setCur_self c i)) (fun _ => rfl)
  · rfl
/-- an effect on the thread alone: the word is done with the thread it gives -/
theorem runThread_done {h : Hdr} {f : Thread → Except Stop Thread} {s : State} {t u : Thread} (c : curThread s = some t)
    (g : guardTrue h t = true) (e : f t = .ok u) :
    runThread h f s = .next (setCur s (retireTo h (succPc h s.cur.pc) (setCur s u) u)) := by
  rw [runThread, runState_true c g]
  simp only [onThread, e, finish, retireCur_setCur, setCur_cur]
theorem runThread_wait {h : Hdr} {f : Thread → Except Stop Thread} {s : State} {t : Thread} (c : curThread s = some t)
    (g : guardTrue h t = true) (e : f t = .error .wait) : runThread h f s = .next s := by
  rw [runThread, runState_true c g]; simp only [onThread, e, finish]
theorem runThread_trap {h : Hdr} {f : Thread → Except Stop Thread} {s : State} {t : Thread} {k : BitVec 8} {d : W64}
    (c : curThread s = some t) (g : guardTrue h t = true) (e : f t = .error (.trap k d)) :
    runThread h f s = .next (takeTrap (!h.s) s k d) := by
  rw [runThread, runState_true c g]; simp only [onThread, e, finish]
/-- no instruction that runs on a thread stops the machine -/
theorem runState_next (h : Hdr) (f : Thread → State → Res) (s : State) : ∃ s', runState h f s = .next s' := by
  unfold runState
  split
  · exact ⟨_, rfl⟩
  · exact ⟨_, rfl⟩
/-- a trap of a firing kills it; nothing else of the instruction is done -/
theorem takeTrap_firing {exe : Bool} {s : State} {t : Thread} {code : BitVec 8} {detail : W64} (c : curThread s = some t)
    (f : t.id.firmware = false) : takeTrap exe s code detail =
      noteSigFault (killFiring (noteTrap s s.cur.core code) s.cur.core code detail s.cur.pc) s.cur.core code := by
  simp [takeTrap, c, f, noteTrap]
/-- a trap of a firmware thread enters its handler once the words before it and their wide-unit work are complete -/
theorem takeTrap_firmware {exe : Bool} {s : State} {t : Thread} {code : BitVec 8} {detail : W64} (c : curThread s = some t)
    (f : t.id.firmware = true) (w : exe = true ∨ t.slice = []) (v : t.wide = []) :
    takeTrap exe s code detail = setCur (noteTrap s s.cur.core code) (enterHandler t s.cur.pc code detail) := by
  rcases w with w | w <;> simp [takeTrap, c, f, w, v, noteTrap]
/-- until then the trap is not taken -/
theorem takeTrap_waits {exe : Bool} {s : State} {t : Thread} {code : BitVec 8} {detail : W64} (c : curThread s = some t)
    (f : t.id.firmware = true) (w : (exe = false ∧ t.slice ≠ []) ∨ t.wide ≠ []) : takeTrap exe s code detail = s := by
  rcases w with ⟨w, v⟩ | w
  · simp [takeTrap, c, f, w, v]
  · simp [takeTrap, c, f, w]

/-! ## The memory system keeps memory's form -/

@[simp] theorem updCtx_mem (s : State) (c : BitVec 12) (f : Ctx → Ctx) : (updCtx s c f).mem = s.mem := by
  unfold updCtx; split <;> rfl
@[simp] theorem chargeHbm_mem (s : State) (c : BitVec 12) : (chargeHbm s c).mem = s.mem := updCtx_mem ..
@[simp] theorem chargeGirt_mem (s : State) (c : BitVec 12) : (chargeGirt s c).mem = s.mem := updCtx_mem ..
@[simp] theorem chargeSec_mem (s : State) (c : BitVec 12) (sec : Nat) : (chargeSec s c sec).mem = s.mem := by
  unfold chargeSec; split
  · simp
  · split <;> simp
@[simp] theorem chargeMiss_mem (s : State) (c : BitVec 12) (sec : Nat) : (chargeMiss s c sec).mem = s.mem := by
  unfold chargeMiss; split <;> simp
@[simp] theorem chargeWrite_mem (s : State) (c : BitVec 12) (sec : Nat) : (chargeWrite s c sec).mem = s.mem := by
  unfold chargeWrite; split <;> simp
/-- a flit waits in a port; memory is as it was -/
@[simp] theorem sendFlit_mem (s : State) (c : BitVec 12) (f : Nat → Flit) (p : Nat) : (sendFlit s c f p).mem = s.mem := by
  unfold sendFlit; simp only; split <;> simp
/-- a write performed at its home changes memory as the home merges it, wherever the home is -/
@[simp] theorem performAt_mem (s : State) (k : Option Nat) (c : BitVec 12) (sec : Nat) (d : BitVec 512) (m : BitVec 64) (a b : BitVec 2) (w : Bool) :
    (performAt s k c sec d m a b w).mem = homeMergeW s.mem sec d m a b w := by
  unfold performAt; simp only; split <;> simp
theorem good_writeOne {s : State} (k sec : Nat) (g : Good s.mem) : Good (writeOne s k sec).mem := by
  unfold writeOne
  split
  · split
    · simpa using good_homeMergeW _ _ _ _ _ _ g
    · exact g
  · exact g
theorem good_writeAll {s : State} (k : Nat) (l : List Nat) (g : Good s.mem) : Good (writeAll s k l).mem := by
  induction l generalizing s with
  | nil => exact g
  | cons a t ih => exact ih (good_writeOne k a g)
theorem good_writeBack {s : State} (k sec : Nat) (g : Good s.mem) : Good (writeBack s k sec).mem := by
  unfold writeBack
  split
  · split
    · exact good_writeOne k sec (good_writeAll k _ g)
    · exact good_writeOne k sec g
  · exact g
theorem good_writeBacks {s : State} (k : Nat) (l : List Nat) (g : Good s.mem) : Good (writeBacks s k l).mem := by
  induction l generalizing s with
  | nil => exact g
  | cons a t ih => exact ih (good_writeBack k a g)
theorem good_drainCtx {s : State} (k : Nat) (c : BitVec 12) (g : Good s.mem) : Good (drainCtx s k c).mem := good_writeBacks k _ g
theorem good_orderHome {s : State} (k : Nat) (x : Xlat) (g : Good s.mem) : Good (orderHome s k x).mem := by
  unfold orderHome
  split
  · exact g
  · exact good_writeAll k _ g
@[simp] theorem l1Drop_mem (s : State) (k sec : Nat) : (l1Drop s k sec).mem = s.mem := rfl
/-- L1 gives up sectors: nothing but write-backs touches memory -/
@[simp] theorem l1Drops_mem (s : State) (k : Nat) (l : List Nat) : (l.foldl (fun s sec => l1Drop s k sec) s).mem = s.mem := by
  induction l generalizing s with
  | nil => rfl
  | cons a t ih => simp only [List.foldl_cons, ih, l1Drop_mem]
theorem good_evictLine {s : State} (k line : Nat) (g : Good s.mem) : Good (evictLine s k line).mem := by
  simp only [evictLine, l1Drops_mem]; exact good_writeBacks k _ g
theorem good_makeWays {s : State} (k set room : Nat) (lines : List Nat) (n : Nat) (g : Good s.mem) : Good (makeWays s k set room lines n).mem := by
  induction n generalizing s with
  | zero => exact g
  | succ n ih =>
    simp only [makeWays]
    split
    · exact g
    · exact ih (good_evictLine k _ g)
/-- room for a sector's line in L1: lines that leave are written back -/
theorem good_wayFor {s : State} (k sec : Nat) (g : Good s.mem) : Good (wayFor s k sec).mem := by
  unfold wayFor
  split
  · exact g
  · exact good_makeWays k _ _ _ _ g
theorem good_paWriteF (n : Nat) {m : Mem} (pa : Nat) (bs : List Byte) (g : Good m) : Good (paWriteF n m pa bs) := by
  induction n generalizing m pa bs with
  | zero => exact g
  | succ n ih =>
    simp only [paWriteF]
    split
    · exact g
    · exact ih _ _ (good_homeMerge _ _ _ _ _ g)
/-- what the device writes in host memory -/
theorem good_hostWrite {s : State} (pa : Nat) (bs : List Byte) (g : Good s.mem) : Good (hostWrite s pa bs).mem := good_paWriteF _ _ _ g
@[simp] theorem deliverVector_mem (s : State) (v : Nat) : (deliverVector s v).mem = s.mem := rfl
@[simp] theorem raiseVector_mem (s : State) (v : Nat) : (raiseVector s v).mem = s.mem := by
  simp only [raiseVector]; split <;> split <;> rfl
theorem good_mqWrite {s : State} (r : List Byte) (g : Good s.mem) : Good (mqWrite s r).mem := by
  simpa [mqWrite] using good_hostWrite _ _ g
theorem good_mqFlush (n : Nat) {s : State} (g : Good s.mem) : Good (mqFlush n s).mem := by
  induction n generalizing s with
  | zero => exact g
  | succ n ih =>
    simp only [mqFlush]
    split
    · exact g
    · split
      · exact ih (good_mqWrite _ g)
      · split
        · exact g
        · exact good_mqWrite _ g
/-- an event for the host, written or held -/
theorem good_mqEvent {s : State} (rs : List (List Byte)) (g : Good s.mem) : Good (mqEvent s rs).mem := by
  unfold mqEvent
  split
  · exact good_mqFlush _ g
  · exact g
theorem good_markChannel {s : State} (c : Nat) (g : Good s.mem) : Good (markChannel s c).mem := by
  simp only [markChannel]
  split
  · exact g
  · exact good_mqEvent _ g
theorem good_noteBad {s : State} (sec : Nat) (g : Good s.mem) : Good (noteBad s sec).mem := by
  rw [noteBad]; exact good_markChannel _ g
@[simp] theorem dumpDue_mem (c : Byte) (d : Nat) (e : Byte) (s : State) : (dumpDue c d e s).mem = s.mem := rfl
theorem good_noteReturned {s : State} (sec : Nat) (g : Good s.mem) : Good (noteReturned s sec).mem := by
  rw [noteReturned]
  have h := good_noteBad sec g
  generalize noteBad s sec = u at h
  by_cases p : (inReserve u (sec * 64) 64 && !u.fw.dumpPending) = true <;> simp only [p, if_true, if_false, dumpDue_mem, Bool.false_eq_true] <;> exact h
theorem good_noteRead {s : State} (sec : Nat) (g : Good s.mem) : Good (noteRead s sec).mem := by
  rw [noteRead]; split
  · exact good_noteReturned sec g
  · exact g
theorem good_noteReturneds {s : State} (l : List Nat) (g : Good s.mem) : Good (l.foldl noteReturned s).mem := by
  induction l generalizing s with
  | nil => exact g
  | cons a t ih => exact ih (good_noteReturned a g)
/-- counting what was noted may tell the host; memory keeps its form -/
theorem good_countBad {s : State} (g : Good s.mem) : Good (countBad s).mem := by
  unfold countBad; split
  · exact g
  · exact good_noteReturneds _ (good_of_eq g rfl rfl rfl rfl)
/-- with nothing noted there is nothing to count -/
theorem countBad_none {s : State} (h : s.mem.bad = []) : countBad s = s := by simp [countBad, h]
theorem good_readHome {s : State} (c : BitVec 12) (sec : Nat) (g : Good s.mem) : Good (readHome s c sec).mem := by
  unfold readHome
  split
  · exact good_homeFill sec (good_noteFill sec g)
  · exact g
theorem good_serveHome {s : State} (c : BitVec 12) (sec : Nat) (g : Good s.mem) : Good (serveHome s c sec).mem := by
  unfold serveHome
  split
  · exact good_readHome c sec g
  · exact good_l2Drop sec g
theorem good_readBase {s : State} (c : BitVec 12) (sec : Nat) (g : Good s.mem) : Good (readBase s c sec).mem := good_noteFill sec g
theorem good_loadSector {s : State} (k : Nat) (c : BitVec 12) (x : Xlat) (g : Good s.mem) : Good (loadSector s k c x).2.mem := by
  simp only [loadSector]
  split
  · exact good_readBase c _ g
  · split
    · exact good_serveHome c _ g
    · split
      · exact g
      · exact good_readHome c _ (good_wayFor k _ (good_orderHome k x g))
theorem good_keepStreamed {m : Mem} (x : Xlat) (o : SecStore) (g : Good m) : Good (keepStreamed x o m) := good_of_eq g rfl rfl rfl rfl
/-- a store performed at once, at the base die or at the home -/
theorem good_storeThrough {s : State} (k : Nat) (c : BitVec 12) (x : Xlat) (o : SecStore) (g : Good s.mem) : Good (storeThrough s k c x o).mem := by
  have w := good_keepStreamed x o g
  simp only [storeThrough]
  generalize keepStreamed x o s.mem = m at w ⊢
  split
  · exact good_baseMergeW _ _ _ _ _ _ w
  · simpa using good_homeMergeW _ _ _ _ _ _ w
theorem good_storeSector {s : State} (k : Nat) (c : BitVec 12) (x : Xlat) (o : SecStore) (g : Good s.mem) : Good (storeSector s k c x o).mem := by
  simp only [storeSector]
  split
  · exact good_storeThrough k c x o g
  · have l := good_loadSector k c x g
    split <;> exact l
theorem good_mergeHome {s : State} (k : Nat) (c : BitVec 12) (x : Xlat) (n v : Nat) (g : Good s.mem) : Good (mergeHome s k c x n v).mem :=
  good_storeThrough k c x _ (good_orderHome k x g)
/-- an acquire discards copies and notes what is fetched again -/
theorem good_acquireLocal {s : State} (k : Nat) (scope : BitVec 3) (g : Good s.mem) : Good (acquireLocal s k scope).mem := by
  unfold acquireLocal; split
  · exact g
  · exact good_refills _ (good_dropForeign scope g)
theorem good_fenceOp {s : State} (k : Nat) (c : BitVec 12) (scope : BitVec 3) (g : Good s.mem) : Good (fenceOp s k c scope).mem :=
  good_acquireLocal k scope (good_drainCtx k c g)

end Sys2Proof.Laws.Ops
end

