-- ==== Sys2Proof/Laws/PerInstr.lean ====
section
/-! SUPPORT. One lemma per constructor: the header of an instruction stands in its word as R359 places it. -/
namespace Sys2Proof.Laws.Encoding

/-- The stream bit, the safe-point bit, the guard and the hint of an instruction are those of its word. -/
def Statement (i : Instr) : Prop := ∀ h, i.hdr = some h → (rawOfWord (encode i)).h = h

theorem nop (h : Hdr) : Statement (.nop h) := fun _ e => by cases e; exact congrArg Raw.h (rawOfWord_wordOfRaw _)
theorem br (h : Hdr) (o) : Statement (.br h o) := fun _ e => by cases e; exact congrArg Raw.h (rawOfWord_wordOfRaw _)
theorem brx (h : Hdr) (o) : Statement (.brx h o) := fun _ e => by cases e; exact congrArg Raw.h (rawOfWord_wordOfRaw _)
theorem call (h : Hdr) (o) : Statement (.call h o) := fun _ e => by cases e; exact congrArg Raw.h (rawOfWord_wordOfRaw _)
theorem callx (h : Hdr) (o) : Statement (.callx h o) := fun _ e => by cases e; exact congrArg Raw.h (rawOfWord_wordOfRaw _)
theorem ret (h : Hdr) (o) : Statement (.ret h o) := fun _ e => by cases e; exact congrArg Raw.h (rawOfWord_wordOfRaw _)
theorem loop (h : Hdr) (o) : Statement (.loop h o) := fun _ e => by cases e; exact congrArg Raw.h (rawOfWord_wordOfRaw _)
theorem finCommit (h : Hdr) : Statement (.finCommit h) := fun _ e => by cases e; exact congrArg Raw.h (rawOfWord_wordOfRaw _)
theorem finAgain (h : Hdr) : Statement (.finAgain h) := fun _ e => by cases e; exact congrArg Raw.h (rawOfWord_wordOfRaw _)
theorem finAbort (h : Hdr) : Statement (.finAbort h) := fun _ e => by cases e; exact congrArg Raw.h (rawOfWord_wordOfRaw _)
theorem yield (h : Hdr) : Statement (.yield h) := fun _ e => by cases e; exact congrArg Raw.h (rawOfWord_wordOfRaw _)
theorem trap (h : Hdr) (o) : Statement (.trap h o) := fun _ e => by cases e; exact congrArg Raw.h (rawOfWord_wordOfRaw _)
theorem sig (h : Hdr) (o) : Statement (.sig h o) := fun _ e => by cases e; exact congrArg Raw.h (rawOfWord_wordOfRaw _)
theorem add (h : Hdr) (o) : Statement (.add h o) := fun _ e => by cases e; exact congrArg Raw.h (rawOfWord_wordOfRaw _)
theorem sub (h : Hdr) (o) : Statement (.sub h o) := fun _ e => by cases e; exact congrArg Raw.h (rawOfWord_wordOfRaw _)
theorem mul (h : Hdr) (o) : Statement (.mul h o) := fun _ e => by cases e; exact congrArg Raw.h (rawOfWord_wordOfRaw _)
theorem mulh (h : Hdr) (o) : Statement (.mulh h o) := fun _ e => by cases e; exact congrArg Raw.h (rawOfWord_wordOfRaw _)
theorem mulhn (h : Hdr) (o) : Statement (.mulhn h o) := fun _ e => by cases e; exact congrArg Raw.h (rawOfWord_wordOfRaw _)
theorem div (h : Hdr) (o) : Statement (.div h o) := fun _ e => by cases e; exact congrArg Raw.h (rawOfWord_wordOfRaw _)
theorem divn (h : Hdr) (o) : Statement (.divn h o) := fun _ e => by cases e; exact congrArg Raw.h (rawOfWord_wordOfRaw _)
theorem rem (h : Hdr) (o) : Statement (.rem h o) := fun _ e => by cases e; exact congrArg Raw.h (rawOfWord_wordOfRaw _)
theorem remn (h : Hdr) (o) : Statement (.remn h o) := fun _ e => by cases e; exact congrArg Raw.h (rawOfWord_wordOfRaw _)
theorem and (h : Hdr) (o) : Statement (.and h o) := fun _ e => by cases e; exact congrArg Raw.h (rawOfWord_wordOfRaw _)
theorem or (h : Hdr) (o) : Statement (.or h o) := fun _ e => by cases e; exact congrArg Raw.h (rawOfWord_wordOfRaw _)
theorem xor (h : Hdr) (o) : Statement (.xor h o) := fun _ e => by cases e; exact congrArg Raw.h (rawOfWord_wordOfRaw _)
theorem andn (h : Hdr) (o) : Statement (.andn h o) := fun _ e => by cases e; exact congrArg Raw.h (rawOfWord_wordOfRaw _)
theorem shl (h : Hdr) (o) : Statement (.shl h o) := fun _ e => by cases e; exact congrArg Raw.h (rawOfWord_wordOfRaw _)
theorem shr (h : Hdr) (o) : Statement (.shr h o) := fun _ e => by cases e; exact congrArg Raw.h (rawOfWord_wordOfRaw _)
theorem sra (h : Hdr) (o) : Statement (.sra h o) := fun _ e => by cases e; exact congrArg Raw.h (rawOfWord_wordOfRaw _)
theorem rotr (h : Hdr) (o) : Statement (.rotr h o) := fun _ e => by cases e; exact congrArg Raw.h (rawOfWord_wordOfRaw _)
theorem min (h : Hdr) (o) : Statement (.min h o) := fun _ e => by cases e; exact congrArg Raw.h (rawOfWord_wordOfRaw _)
theorem max (h : Hdr) (o) : Statement (.max h o) := fun _ e => by cases e; exact congrArg Raw.h (rawOfWord_wordOfRaw _)
theorem minn (h : Hdr) (o) : Statement (.minn h o) := fun _ e => by cases e; exact congrArg Raw.h (rawOfWord_wordOfRaw _)
theorem maxn (h : Hdr) (o) : Statement (.maxn h o) := fun _ e => by cases e; exact congrArg Raw.h (rawOfWord_wordOfRaw _)
theorem abs (h : Hdr) (o) : Statement (.abs h o) := fun _ e => by cases e; exact congrArg Raw.h (rawOfWord_wordOfRaw _)
theorem neg (h : Hdr) (o) : Statement (.neg h o) := fun _ e => by cases e; exact congrArg Raw.h (rawOfWord_wordOfRaw _)
theorem clz (h : Hdr) (o) : Statement (.clz h o) := fun _ e => by cases e; exact congrArg Raw.h (rawOfWord_wordOfRaw _)
theorem ctz (h : Hdr) (o) : Statement (.ctz h o) := fun _ e => by cases e; exact congrArg Raw.h (rawOfWord_wordOfRaw _)
theorem popc (h : Hdr) (o) : Statement (.popc h o) := fun _ e => by cases e; exact congrArg Raw.h (rawOfWord_wordOfRaw _)
theorem brev (h : Hdr) (o) : Statement (.brev h o) := fun _ e => by cases e; exact congrArg Raw.h (rawOfWord_wordOfRaw _)
theorem bswp (h : Hdr) (o) : Statement (.bswp h o) := fun _ e => by cases e; exact congrArg Raw.h (rawOfWord_wordOfRaw _)
theorem extr (h : Hdr) (o) : Statement (.extr h o) := fun _ e => by cases e; exact congrArg Raw.h (rawOfWord_wordOfRaw _)
theorem extrn (h : Hdr) (o) : Statement (.extrn h o) := fun _ e => by cases e; exact congrArg Raw.h (rawOfWord_wordOfRaw _)
theorem ins (h : Hdr) (o) : Statement (.ins h o) := fun _ e => by cases e; exact congrArg Raw.h (rawOfWord_wordOfRaw _)
theorem sel (h : Hdr) (o) : Statement (.sel h o) := fun _ e => by cases e; exact congrArg Raw.h (rawOfWord_wordOfRaw _)
theorem mov (h : Hdr) (o) : Statement (.mov h o) := fun _ e => by cases e; exact congrArg Raw.h (rawOfWord_wordOfRaw _)
theorem movi (h : Hdr) (o) : Statement (.movi h o) := fun _ e => by cases e; exact congrArg Raw.h (rawOfWord_wordOfRaw _)
theorem moviHigh (h : Hdr) (o) : Statement (.moviHigh h o) := fun _ e => by cases e; exact congrArg Raw.h (rawOfWord_wordOfRaw _)
theorem cmp (h : Hdr) (o) : Statement (.cmp h o) := fun _ e => by cases e; exact congrArg Raw.h (rawOfWord_wordOfRaw _)
theorem pand (h : Hdr) (o) : Statement (.pand h o) := fun _ e => by cases e; exact congrArg Raw.h (rawOfWord_wordOfRaw _)
theorem por (h : Hdr) (o) : Statement (.por h o) := fun _ e => by cases e; exact congrArg Raw.h (rawOfWord_wordOfRaw _)
theorem pxor (h : Hdr) (o) : Statement (.pxor h o) := fun _ e => by cases e; exact congrArg Raw.h (rawOfWord_wordOfRaw _)
theorem pnot (h : Hdr) (o) : Statement (.pnot h o) := fun _ e => by cases e; exact congrArg Raw.h (rawOfWord_wordOfRaw _)
theorem rngx (h : Hdr) (o) : Statement (.rngx h o) := fun _ e => by cases e; exact congrArg Raw.h (rawOfWord_wordOfRaw _)
theorem csetb (h : Hdr) (o) : Statement (.csetb h o) := fun _ e => by cases e; exact congrArg Raw.h (rawOfWord_wordOfRaw _)
theorem csetp (h : Hdr) (o) : Statement (.csetp h o) := fun _ e => by cases e; exact congrArg Raw.h (rawOfWord_wordOfRaw _)
theorem cadd (h : Hdr) (o) : Statement (.cadd h o) := fun _ e => by cases e; exact congrArg Raw.h (rawOfWord_wordOfRaw _)
theorem cgetb (h : Hdr) (o) : Statement (.cgetb h o) := fun _ e => by cases e; exact congrArg Raw.h (rawOfWord_wordOfRaw _)
theorem cgetl (h : Hdr) (o) : Statement (.cgetl h o) := fun _ e => by cases e; exact congrArg Raw.h (rawOfWord_wordOfRaw _)
theorem cgetp (h : Hdr) (o) : Statement (.cgetp h o) := fun _ e => by cases e; exact congrArg Raw.h (rawOfWord_wordOfRaw _)
theorem cgett (h : Hdr) (o) : Statement (.cgett h o) := fun _ e => by cases e; exact congrArg Raw.h (rawOfWord_wordOfRaw _)
theorem cclr (h : Hdr) (o) : Statement (.cclr h o) := fun _ e => by cases e; exact congrArg Raw.h (rawOfWord_wordOfRaw _)
theorem cseal (h : Hdr) (o) : Statement (.cseal h o) := fun _ e => by cases e; exact congrArg Raw.h (rawOfWord_wordOfRaw _)
theorem cunseal (h : Hdr) (o) : Statement (.cunseal h o) := fun _ e => by cases e; exact congrArg Raw.h (rawOfWord_wordOfRaw _)
theorem ld (h : Hdr) (o) : Statement (.ld h o) := fun _ e => by cases e; exact congrArg Raw.h (rawOfWord_wordOfRaw _)
theorem ldc (h : Hdr) (o) : Statement (.ldc h o) := fun _ e => by cases e; exact congrArg Raw.h (rawOfWord_wordOfRaw _)
theorem st (h : Hdr) (o) : Statement (.st h o) := fun _ e => by cases e; exact congrArg Raw.h (rawOfWord_wordOfRaw _)
theorem stc (h : Hdr) (o) : Statement (.stc h o) := fun _ e => by cases e; exact congrArg Raw.h (rawOfWord_wordOfRaw _)
theorem lda (h : Hdr) (o) : Statement (.lda h o) := fun _ e => by cases e; exact congrArg Raw.h (rawOfWord_wordOfRaw _)
theorem str (h : Hdr) (o) : Statement (.str h o) := fun _ e => by cases e; exact congrArg Raw.h (rawOfWord_wordOfRaw _)
theorem pref (h : Hdr) (o) : Statement (.pref h o) := fun _ e => by cases e; exact congrArg Raw.h (rawOfWord_wordOfRaw _)
theorem sdef (h : Hdr) (o) : Statement (.sdef h o) := fun _ e => by cases e; exact congrArg Raw.h (rawOfWord_wordOfRaw _)
theorem sdefw (h : Hdr) (o) : Statement (.sdefw h o) := fun _ e => by cases e; exact congrArg Raw.h (rawOfWord_wordOfRaw _)
theorem sdefk (h : Hdr) (o) : Statement (.sdefk h o) := fun _ e => by cases e; exact congrArg Raw.h (rawOfWord_wordOfRaw _)
theorem sdefs (h : Hdr) (o) : Statement (.sdefs h o) := fun _ e => by cases e; exact congrArg Raw.h (rawOfWord_wordOfRaw _)
theorem sld (h : Hdr) (o) : Statement (.sld h o) := fun _ e => by cases e; exact congrArg Raw.h (rawOfWord_wordOfRaw _)
theorem sst (h : Hdr) (o) : Statement (.sst h o) := fun _ e => by cases e; exact congrArg Raw.h (rawOfWord_wordOfRaw _)
theorem srd (h : Hdr) (o) : Statement (.srd h o) := fun _ e => by cases e; exact congrArg Raw.h (rawOfWord_wordOfRaw _)
theorem fence (h : Hdr) (o) : Statement (.fence h o) := fun _ e => by cases e; exact congrArg Raw.h (rawOfWord_wordOfRaw _)
theorem clean (h : Hdr) (o) : Statement (.clean h o) := fun _ e => by cases e; exact congrArg Raw.h (rawOfWord_wordOfRaw _)
theorem inval (h : Hdr) (o) : Statement (.inval h o) := fun _ e => by cases e; exact congrArg Raw.h (rawOfWord_wordOfRaw _)
theorem flush (h : Hdr) (o) : Statement (.flush h o) := fun _ e => by cases e; exact congrArg Raw.h (rawOfWord_wordOfRaw _)
theorem spalloc (h : Hdr) (o) : Statement (.spalloc h o) := fun _ e => by cases e; exact congrArg Raw.h (rawOfWord_wordOfRaw _)
theorem spfree (h : Hdr) (o) : Statement (.spfree h o) := fun _ e => by cases e; exact congrArg Raw.h (rawOfWord_wordOfRaw _)
theorem aadd (h : Hdr) (o) : Statement (.aadd h o) := fun _ e => by cases e; exact congrArg Raw.h (rawOfWord_wordOfRaw _)
theorem aand (h : Hdr) (o) : Statement (.aand h o) := fun _ e => by cases e; exact congrArg Raw.h (rawOfWord_wordOfRaw _)
theorem aor (h : Hdr) (o) : Statement (.aor h o) := fun _ e => by cases e; exact congrArg Raw.h (rawOfWord_wordOfRaw _)
theorem axor (h : Hdr) (o) : Statement (.axor h o) := fun _ e => by cases e; exact congrArg Raw.h (rawOfWord_wordOfRaw _)
theorem amin (h : Hdr) (o) : Statement (.amin h o) := fun _ e => by cases e; exact congrArg Raw.h (rawOfWord_wordOfRaw _)
theorem amax (h : Hdr) (o) : Statement (.amax h o) := fun _ e => by cases e; exact congrArg Raw.h (rawOfWord_wordOfRaw _)
theorem aminn (h : Hdr) (o) : Statement (.aminn h o) := fun _ e => by cases e; exact congrArg Raw.h (rawOfWord_wordOfRaw _)
theorem amaxn (h : Hdr) (o) : Statement (.amaxn h o) := fun _ e => by cases e; exact congrArg Raw.h (rawOfWord_wordOfRaw _)
theorem aswap (h : Hdr) (o) : Statement (.aswap h o) := fun _ e => by cases e; exact congrArg Raw.h (rawOfWord_wordOfRaw _)
theorem acas (h : Hdr) (o) : Statement (.acas h o) := fun _ e => by cases e; exact congrArg Raw.h (rawOfWord_wordOfRaw _)
theorem afadd (h : Hdr) (o) : Statement (.afadd h o) := fun _ e => by cases e; exact congrArg Raw.h (rawOfWord_wordOfRaw _)
theorem radd (h : Hdr) (o) : Statement (.radd h o) := fun _ e => by cases e; exact congrArg Raw.h (rawOfWord_wordOfRaw _)
theorem rclr (h : Hdr) (o) : Statement (.rclr h o) := fun _ e => by cases e; exact congrArg Raw.h (rawOfWord_wordOfRaw _)
theorem stkinit (h : Hdr) (o) : Statement (.stkinit h o) := fun _ e => by cases e; exact congrArg Raw.h (rawOfWord_wordOfRaw _)
theorem stktake (h : Hdr) (o) : Statement (.stktake h o) := fun _ e => by cases e; exact congrArg Raw.h (rawOfWord_wordOfRaw _)
theorem stkgive (h : Hdr) (o) : Statement (.stkgive h o) := fun _ e => by cases e; exact congrArg Raw.h (rawOfWord_wordOfRaw _)
theorem stkreadApprox (h : Hdr) (o) : Statement (.stkreadApprox h o) := fun _ e => by cases e; exact congrArg Raw.h (rawOfWord_wordOfRaw _)
theorem stkreadExact (h : Hdr) (o) : Statement (.stkreadExact h o) := fun _ e => by cases e; exact congrArg Raw.h (rawOfWord_wordOfRaw _)
theorem phreg (h : Hdr) (o) : Statement (.phreg h o) := fun _ e => by cases e; exact congrArg Raw.h (rawOfWord_wordOfRaw _)
theorem phdrop (h : Hdr) (o) : Statement (.phdrop h o) := fun _ e => by cases e; exact congrArg Raw.h (rawOfWord_wordOfRaw _)
theorem phsig (h : Hdr) (o) : Statement (.phsig h o) := fun _ e => by cases e; exact congrArg Raw.h (rawOfWord_wordOfRaw _)
theorem phwait (h : Hdr) (o) : Statement (.phwait h o) := fun _ e => by cases e; exact congrArg Raw.h (rawOfWord_wordOfRaw _)
theorem phsw (h : Hdr) (o) : Statement (.phsw h o) := fun _ e => by cases e; exact congrArg Raw.h (rawOfWord_wordOfRaw _)
theorem phexp (h : Hdr) (o) : Statement (.phexp h o) := fun _ e => by cases e; exact congrArg Raw.h (rawOfWord_wordOfRaw _)
theorem phgather (h : Hdr) (o) : Statement (.phgather h o) := fun _ e => by cases e; exact congrArg Raw.h (rawOfWord_wordOfRaw _)
theorem evwait (h : Hdr) (o) : Statement (.evwait h o) := fun _ e => by cases e; exact congrArg Raw.h (rawOfWord_wordOfRaw _)
theorem evpop (h : Hdr) (o) : Statement (.evpop h o) := fun _ e => by cases e; exact congrArg Raw.h (rawOfWord_wordOfRaw _)
theorem evpeek (h : Hdr) (o) : Statement (.evpeek h o) := fun _ e => by cases e; exact congrArg Raw.h (rawOfWord_wordOfRaw _)
theorem send (h : Hdr) (o) : Statement (.send h o) := fun _ e => by cases e; exact congrArg Raw.h (rawOfWord_wordOfRaw _)
theorem withdraw (h : Hdr) (o) : Statement (.withdraw h o) := fun _ e => by cases e; exact congrArg Raw.h (rawOfWord_wordOfRaw _)
theorem qpeek (h : Hdr) (o) : Statement (.qpeek h o) := fun _ e => by cases e; exact congrArg Raw.h (rawOfWord_wordOfRaw _)
theorem qcnt (h : Hdr) (o) : Statement (.qcnt h o) := fun _ e => by cases e; exact congrArg Raw.h (rawOfWord_wordOfRaw _)
theorem fadd (h : Hdr) (o) : Statement (.fadd h o) := fun _ e => by cases e; exact congrArg Raw.h (rawOfWord_wordOfRaw _)
theorem fsub (h : Hdr) (o) : Statement (.fsub h o) := fun _ e => by cases e; exact congrArg Raw.h (rawOfWord_wordOfRaw _)
theorem fmul (h : Hdr) (o) : Statement (.fmul h o) := fun _ e => by cases e; exact congrArg Raw.h (rawOfWord_wordOfRaw _)
theorem fma (h : Hdr) (o) : Statement (.fma h o) := fun _ e => by cases e; exact congrArg Raw.h (rawOfWord_wordOfRaw _)
theorem fms (h : Hdr) (o) : Statement (.fms h o) := fun _ e => by cases e; exact congrArg Raw.h (rawOfWord_wordOfRaw _)
theorem fnma (h : Hdr) (o) : Statement (.fnma h o) := fun _ e => by cases e; exact congrArg Raw.h (rawOfWord_wordOfRaw _)
theorem fnms (h : Hdr) (o) : Statement (.fnms h o) := fun _ e => by cases e; exact congrArg Raw.h (rawOfWord_wordOfRaw _)
theorem fdiv (h : Hdr) (o) : Statement (.fdiv h o) := fun _ e => by cases e; exact congrArg Raw.h (rawOfWord_wordOfRaw _)
theorem fsqrt (h : Hdr) (o) : Statement (.fsqrt h o) := fun _ e => by cases e; exact congrArg Raw.h (rawOfWord_wordOfRaw _)
theorem frsqe (h : Hdr) (o) : Statement (.frsqe h o) := fun _ e => by cases e; exact congrArg Raw.h (rawOfWord_wordOfRaw _)
theorem frcpe (h : Hdr) (o) : Statement (.frcpe h o) := fun _ e => by cases e; exact congrArg Raw.h (rawOfWord_wordOfRaw _)
theorem fmin (h : Hdr) (o) : Statement (.fmin h o) := fun _ e => by cases e; exact congrArg Raw.h (rawOfWord_wordOfRaw _)
theorem fmax (h : Hdr) (o) : Statement (.fmax h o) := fun _ e => by cases e; exact congrArg Raw.h (rawOfWord_wordOfRaw _)
theorem fabs (h : Hdr) (o) : Statement (.fabs h o) := fun _ e => by cases e; exact congrArg Raw.h (rawOfWord_wordOfRaw _)
theorem fneg (h : Hdr) (o) : Statement (.fneg h o) := fun _ e => by cases e; exact congrArg Raw.h (rawOfWord_wordOfRaw _)
theorem fcpsgn (h : Hdr) (o) : Statement (.fcpsgn h o) := fun _ e => by cases e; exact congrArg Raw.h (rawOfWord_wordOfRaw _)
theorem fcmp (h : Hdr) (o) : Statement (.fcmp h o) := fun _ e => by cases e; exact congrArg Raw.h (rawOfWord_wordOfRaw _)
theorem fclass (h : Hdr) (o) : Statement (.fclass h o) := fun _ e => by cases e; exact congrArg Raw.h (rawOfWord_wordOfRaw _)
theorem fcvt (h : Hdr) (o) : Statement (.fcvt h o) := fun _ e => by cases e; exact congrArg Raw.h (rawOfWord_wordOfRaw _)
theorem fscalb (h : Hdr) (o) : Statement (.fscalb h o) := fun _ e => by cases e; exact congrArg Raw.h (rawOfWord_wordOfRaw _)
theorem fexpo (h : Hdr) (o) : Statement (.fexpo h o) := fun _ e => by cases e; exact congrArg Raw.h (rawOfWord_wordOfRaw _)
theorem vadd (h : Hdr) (o) : Statement (.vadd h o) := fun _ e => by cases e; exact congrArg Raw.h (rawOfWord_wordOfRaw _)
theorem vsub (h : Hdr) (o) : Statement (.vsub h o) := fun _ e => by cases e; exact congrArg Raw.h (rawOfWord_wordOfRaw _)
theorem vmul (h : Hdr) (o) : Statement (.vmul h o) := fun _ e => by cases e; exact congrArg Raw.h (rawOfWord_wordOfRaw _)
theorem vfma (h : Hdr) (o) : Statement (.vfma h o) := fun _ e => by cases e; exact congrArg Raw.h (rawOfWord_wordOfRaw _)
theorem vmax (h : Hdr) (o) : Statement (.vmax h o) := fun _ e => by cases e; exact congrArg Raw.h (rawOfWord_wordOfRaw _)
theorem vmin (h : Hdr) (o) : Statement (.vmin h o) := fun _ e => by cases e; exact congrArg Raw.h (rawOfWord_wordOfRaw _)
theorem vabs (h : Hdr) (o) : Statement (.vabs h o) := fun _ e => by cases e; exact congrArg Raw.h (rawOfWord_wordOfRaw _)
theorem vexp2 (h : Hdr) (o) : Statement (.vexp2 h o) := fun _ e => by cases e; exact congrArg Raw.h (rawOfWord_wordOfRaw _)
theorem vrsqe (h : Hdr) (o) : Statement (.vrsqe h o) := fun _ e => by cases e; exact congrArg Raw.h (rawOfWord_wordOfRaw _)
theorem vrcpe (h : Hdr) (o) : Statement (.vrcpe h o) := fun _ e => by cases e; exact congrArg Raw.h (rawOfWord_wordOfRaw _)
theorem vcmp (h : Hdr) (o) : Statement (.vcmp h o) := fun _ e => by cases e; exact congrArg Raw.h (rawOfWord_wordOfRaw _)
theorem vsel (h : Hdr) (o) : Statement (.vsel h o) := fun _ e => by cases e; exact congrArg Raw.h (rawOfWord_wordOfRaw _)
theorem vfill (h : Hdr) (o) : Statement (.vfill h o) := fun _ e => by cases e; exact congrArg Raw.h (rawOfWord_wordOfRaw _)
theorem vcopy (h : Hdr) (o) : Statement (.vcopy h o) := fun _ e => by cases e; exact congrArg Raw.h (rawOfWord_wordOfRaw _)
theorem vgather (h : Hdr) (o) : Statement (.vgather h o) := fun _ e => by cases e; exact congrArg Raw.h (rawOfWord_wordOfRaw _)
theorem vscatter (h : Hdr) (o) : Statement (.vscatter h o) := fun _ e => by cases e; exact congrArg Raw.h (rawOfWord_wordOfRaw _)
theorem vcvt (h : Hdr) (o) : Statement (.vcvt h o) := fun _ e => by cases e; exact congrArg Raw.h (rawOfWord_wordOfRaw _)
theorem vqnt (h : Hdr) (o) : Statement (.vqnt h o) := fun _ e => by cases e; exact congrArg Raw.h (rawOfWord_wordOfRaw _)
theorem vamax (h : Hdr) (o) : Statement (.vamax h o) := fun _ e => by cases e; exact congrArg Raw.h (rawOfWord_wordOfRaw _)
theorem vsum (h : Hdr) (o) : Statement (.vsum h o) := fun _ e => by cases e; exact congrArg Raw.h (rawOfWord_wordOfRaw _)
theorem vdot (h : Hdr) (o) : Statement (.vdot h o) := fun _ e => by cases e; exact congrArg Raw.h (rawOfWord_wordOfRaw _)
theorem vdelta (h : Hdr) (o) : Statement (.vdelta h o) := fun _ e => by cases e; exact congrArg Raw.h (rawOfWord_wordOfRaw _)
theorem vrope (h : Hdr) (o) : Statement (.vrope h o) := fun _ e => by cases e; exact congrArg Raw.h (rawOfWord_wordOfRaw _)
theorem vlse (h : Hdr) (o) : Statement (.vlse h o) := fun _ e => by cases e; exact congrArg Raw.h (rawOfWord_wordOfRaw _)
theorem mgang (h : Hdr) (o) : Statement (.mgang h o) := fun _ e => by cases e; exact congrArg Raw.h (rawOfWord_wordOfRaw _)
theorem mmul (h : Hdr) (o) : Statement (.mmul h o) := fun _ e => by cases e; exact congrArg Raw.h (rawOfWord_wordOfRaw _)
theorem mgrp (h : Hdr) (o) : Statement (.mgrp h o) := fun _ e => by cases e; exact congrArg Raw.h (rawOfWord_wordOfRaw _)
theorem mzero (h : Hdr) (o) : Statement (.mzero h o) := fun _ e => by cases e; exact congrArg Raw.h (rawOfWord_wordOfRaw _)
theorem mld (h : Hdr) (o) : Statement (.mld h o) := fun _ e => by cases e; exact congrArg Raw.h (rawOfWord_wordOfRaw _)
theorem mst (h : Hdr) (o) : Statement (.mst h o) := fun _ e => by cases e; exact congrArg Raw.h (rawOfWord_wordOfRaw _)
theorem mdrain (h : Hdr) (o) : Statement (.mdrain h o) := fun _ e => by cases e; exact congrArg Raw.h (rawOfWord_wordOfRaw _)
theorem mdrainAdd (h : Hdr) (o) : Statement (.mdrainAdd h o) := fun _ e => by cases e; exact congrArg Raw.h (rawOfWord_wordOfRaw _)
theorem mdrainAddOrd (h : Hdr) (o) : Statement (.mdrainAddOrd h o) := fun _ e => by cases e; exact congrArg Raw.h (rawOfWord_wordOfRaw _)
theorem mcopy (h : Hdr) (o) : Statement (.mcopy h o) := fun _ e => by cases e; exact congrArg Raw.h (rawOfWord_wordOfRaw _)
theorem mstat (h : Hdr) (o) : Statement (.mstat h o) := fun _ e => by cases e; exact congrArg Raw.h (rawOfWord_wordOfRaw _)
theorem cpy (h : Hdr) (o) : Statement (.cpy h o) := fun _ e => by cases e; exact congrArg Raw.h (rawOfWord_wordOfRaw _)
theorem cpy2d (h : Hdr) (o) : Statement (.cpy2d h o) := fun _ e => by cases e; exact congrArg Raw.h (rawOfWord_wordOfRaw _)
theorem cprot (h : Hdr) (o) : Statement (.cprot h o) := fun _ e => by cases e; exact congrArg Raw.h (rawOfWord_wordOfRaw _)
theorem cpfill (h : Hdr) (o) : Statement (.cpfill h o) := fun _ e => by cases e; exact congrArg Raw.h (rawOfWord_wordOfRaw _)
theorem bkadd (h : Hdr) (o) : Statement (.bkadd h o) := fun _ e => by cases e; exact congrArg Raw.h (rawOfWord_wordOfRaw _)
theorem bkaxpy (h : Hdr) (o) : Statement (.bkaxpy h o) := fun _ e => by cases e; exact congrArg Raw.h (rawOfWord_wordOfRaw _)
theorem bkgemv (h : Hdr) (o) : Statement (.bkgemv h o) := fun _ e => by cases e; exact congrArg Raw.h (rawOfWord_wordOfRaw _)
theorem bkzero (h : Hdr) (o) : Statement (.bkzero h o) := fun _ e => by cases e; exact congrArg Raw.h (rawOfWord_wordOfRaw _)
theorem kvapp (h : Hdr) (o) : Statement (.kvapp h o) := fun _ e => by cases e; exact congrArg Raw.h (rawOfWord_wordOfRaw _)
theorem kvseal (h : Hdr) (o) : Statement (.kvseal h o) := fun _ e => by cases e; exact congrArg Raw.h (rawOfWord_wordOfRaw _)
theorem kvpatch (h : Hdr) (o) : Statement (.kvpatch h o) := fun _ e => by cases e; exact congrArg Raw.h (rawOfWord_wordOfRaw _)
theorem kvfork (h : Hdr) (o) : Statement (.kvfork h o) := fun _ e => by cases e; exact congrArg Raw.h (rawOfWord_wordOfRaw _)
theorem kvtrunc (h : Hdr) (o) : Statement (.kvtrunc h o) := fun _ e => by cases e; exact congrArg Raw.h (rawOfWord_wordOfRaw _)
theorem kvstat (h : Hdr) (o) : Statement (.kvstat h o) := fun _ e => by cases e; exact congrArg Raw.h (rawOfWord_wordOfRaw _)
theorem kvjopen (h : Hdr) (o) : Statement (.kvjopen h o) := fun _ e => by cases e; exact congrArg Raw.h (rawOfWord_wordOfRaw _)
theorem kvjmark (h : Hdr) (o) : Statement (.kvjmark h o) := fun _ e => by cases e; exact congrArg Raw.h (rawOfWord_wordOfRaw _)
theorem kvjundo (h : Hdr) (o) : Statement (.kvjundo h o) := fun _ e => by cases e; exact congrArg Raw.h (rawOfWord_wordOfRaw _)
theorem kvjclose (h : Hdr) (o) : Statement (.kvjclose h o) := fun _ e => by cases e; exact congrArg Raw.h (rawOfWord_wordOfRaw _)
theorem edins (h : Hdr) (o) : Statement (.edins h o) := fun _ e => by cases e; exact congrArg Raw.h (rawOfWord_wordOfRaw _)
theorem eddel (h : Hdr) (o) : Statement (.eddel h o) := fun _ e => by cases e; exact congrArg Raw.h (rawOfWord_wordOfRaw _)
theorem edrep (h : Hdr) (o) : Statement (.edrep h o) := fun _ e => by cases e; exact congrArg Raw.h (rawOfWord_wordOfRaw _)
theorem settle (h : Hdr) (o) : Statement (.settle h o) := fun _ e => by cases e; exact congrArg Raw.h (rawOfWord_wordOfRaw _)
theorem raise (h : Hdr) (o) : Statement (.raise h o) := fun _ e => by cases e; exact congrArg Raw.h (rawOfWord_wordOfRaw _)
theorem rebind (h : Hdr) (o) : Statement (.rebind h o) := fun _ e => by cases e; exact congrArg Raw.h (rawOfWord_wordOfRaw _)
theorem wfree (h : Hdr) (o) : Statement (.wfree h o) := fun _ e => by cases e; exact congrArg Raw.h (rawOfWord_wordOfRaw _)
theorem wdone (h : Hdr) (o) : Statement (.wdone h o) := fun _ e => by cases e; exact congrArg Raw.h (rawOfWord_wordOfRaw _)
theorem wcell (h : Hdr) (o) : Statement (.wcell h o) := fun _ e => by cases e; exact congrArg Raw.h (rawOfWord_wordOfRaw _)
theorem wmark (h : Hdr) (o) : Statement (.wmark h o) := fun _ e => by cases e; exact congrArg Raw.h (rawOfWord_wordOfRaw _)
theorem ctlrd (h : Hdr) (o) : Statement (.ctlrd h o) := fun _ e => by cases e; exact congrArg Raw.h (rawOfWord_wordOfRaw _)
theorem ctlwr (h : Hdr) (o) : Statement (.ctlwr h o) := fun _ e => by cases e; exact congrArg Raw.h (rawOfWord_wordOfRaw _)
theorem tlbinv (h : Hdr) (o) : Statement (.tlbinv h o) := fun _ e => by cases e; exact congrArg Raw.h (rawOfWord_wordOfRaw _)
theorem tlbprobe (h : Hdr) (o) : Statement (.tlbprobe h o) := fun _ e => by cases e; exact congrArg Raw.h (rawOfWord_wordOfRaw _)
theorem cflush (h : Hdr) (o) : Statement (.cflush h o) := fun _ e => by cases e; exact congrArg Raw.h (rawOfWord_wordOfRaw _)
theorem rett (h : Hdr) : Statement (.rett h) := fun _ e => by cases e; exact congrArg Raw.h (rawOfWord_wordOfRaw _)
theorem hbeat (h : Hdr) (o) : Statement (.hbeat h o) := fun _ e => by cases e; exact congrArg Raw.h (rawOfWord_wordOfRaw _)
theorem idle (h : Hdr) (o) : Statement (.idle h o) := fun _ e => by cases e; exact congrArg Raw.h (rawOfWord_wordOfRaw _)
theorem wholdWithin (h : Hdr) (o) : Statement (.wholdWithin h o) := fun _ e => by cases e; exact congrArg Raw.h (rawOfWord_wordOfRaw _)
theorem wholdBefore (h : Hdr) (o) : Statement (.wholdBefore h o) := fun _ e => by cases e; exact congrArg Raw.h (rawOfWord_wordOfRaw _)
theorem wholdAfter (h : Hdr) (o) : Statement (.wholdAfter h o) := fun _ e => by cases e; exact congrArg Raw.h (rawOfWord_wordOfRaw _)
theorem tlbwr (h : Hdr) (o) : Statement (.tlbwr h o) := fun _ e => by cases e; exact congrArg Raw.h (rawOfWord_wordOfRaw _)
theorem tlbwrFill (h : Hdr) (o) : Statement (.tlbwrFill h o) := fun _ e => by cases e; exact congrArg Raw.h (rawOfWord_wordOfRaw _)
theorem tlbwrFault (h : Hdr) (o) : Statement (.tlbwrFault h o) := fun _ e => by cases e; exact congrArg Raw.h (rawOfWord_wordOfRaw _)
theorem tlbwrPeer (h : Hdr) (o) : Statement (.tlbwrPeer h o) := fun _ e => by cases e; exact congrArg Raw.h (rawOfWord_wordOfRaw _)
theorem powerLoss : Statement .powerLoss := fun _ e => nomatch e
theorem hctlStart : Statement .hctlStart := fun _ e => nomatch e
theorem imageFirstHeartbeatTimeout : Statement .imageFirstHeartbeatTimeout := fun _ e => nomatch e
theorem hctlNegGo : Statement .hctlNegGo := fun _ e => nomatch e
theorem hmqheadWrite : Statement .hmqheadWrite := fun _ e => nomatch e
theorem registerWrite : Statement .registerWrite := fun _ e => nomatch e
theorem messageSlotPost : Statement .messageSlotPost := fun _ e => nomatch e
theorem messageSlotClear : Statement .messageSlotClear := fun _ e => nomatch e
theorem slotMessageAccept : Statement .slotMessageAccept := fun _ e => nomatch e
theorem msixRateIntervalExpiry : Statement .msixRateIntervalExpiry := fun _ e => nomatch e
theorem hostCxlMemAccess : Statement .hostCxlMemAccess := fun _ e => nomatch e
theorem ctxnew : Statement .ctxnew := fun _ e => nomatch e
theorem ctxend : Statement .ctxend := fun _ e => nomatch e
theorem ctxtrap : Statement .ctxtrap := fun _ e => nomatch e
theorem stockalloc : Statement .stockalloc := fun _ e => nomatch e
theorem shore : Statement .shore := fun _ e => nomatch e
theorem shoot : Statement .shoot := fun _ e => nomatch e
theorem shootdownComplete : Statement .shootdownComplete := fun _ e => nomatch e
theorem sched : Statement .sched := fun _ e => nomatch e
theorem linkcfg : Statement .linkcfg := fun _ e => nomatch e
theorem slotvec : Statement .slotvec := fun _ e => nomatch e
theorem attest : Statement .attest := fun _ e => nomatch e
theorem seqopen : Statement .seqopen := fun _ e => nomatch e
theorem seqclose : Statement .seqclose := fun _ e => nomatch e
theorem verdict : Statement .verdict := fun _ e => nomatch e
theorem thermalThrottle : Statement .thermalThrottle := fun _ e => nomatch e
theorem thermalRecover : Statement .thermalRecover := fun _ e => nomatch e
theorem thermalFatal : Statement .thermalFatal := fun _ e => nomatch e
theorem dieBridgeLoss : Statement .dieBridgeLoss := fun _ e => nomatch e
theorem linkReplayRequest : Statement .linkReplayRequest := fun _ e => nomatch e
theorem linkRetrainStart : Statement .linkRetrainStart := fun _ e => nomatch e
theorem linkRetrainSuccess : Statement .linkRetrainSuccess := fun _ e => nomatch e
theorem linkRetrainLimitExpiry : Statement .linkRetrainLimitExpiry := fun _ e => nomatch e
theorem peerLost : Statement .peerLost := fun _ e => nomatch e
theorem peerReachable : Statement .peerReachable := fun _ e => nomatch e
theorem hbmScrub : Statement .hbmScrub := fun _ e => nomatch e
theorem shoreStageComplete : Statement .shoreStageComplete := fun _ e => nomatch e
theorem shoreStageTimeout : Statement .shoreStageTimeout := fun _ e => nomatch e
theorem handoverRecordWritten : Statement .handoverRecordWritten := fun _ e => nomatch e
theorem handoverTimeout : Statement .handoverTimeout := fun _ e => nomatch e
theorem shoreAcceptance : Statement .shoreAcceptance := fun _ e => nomatch e
theorem shoreGapLimitExpiry : Statement .shoreGapLimitExpiry := fun _ e => nomatch e
theorem watchdogHeartbeatMiss : Statement .watchdogHeartbeatMiss := fun _ e => nomatch e
theorem shoreCommit : Statement .shoreCommit := fun _ e => nomatch e
theorem committedHeartbeatLoss : Statement .committedHeartbeatLoss := fun _ e => nomatch e
theorem firstTouchServe : Statement .firstTouchServe := fun _ e => nomatch e
theorem dupReadReplicate : Statement .dupReadReplicate := fun _ e => nomatch e
theorem dupWriteCollapse : Statement .dupWriteCollapse := fun _ e => nomatch e
theorem stockHomeServe : Statement .stockHomeServe := fun _ e => nomatch e
theorem stockRecallOrder : Statement .stockRecallOrder := fun _ e => nomatch e
theorem stockReturnArrival : Statement .stockReturnArrival := fun _ e => nomatch e
theorem stockReclaimProbe : Statement .stockReclaimProbe := fun _ e => nomatch e
theorem phaserCompletionArrival : Statement .phaserCompletionArrival := fun _ e => nomatch e
theorem heldRecordDelivery : Statement .heldRecordDelivery := fun _ e => nomatch e
theorem firingStart : Statement .firingStart := fun _ e => nomatch e
theorem firingResume : Statement .firingResume := fun _ e => nomatch e
theorem preemptAtSafePoint : Statement .preemptAtSafePoint := fun _ e => nomatch e
theorem quotaAdjust : Statement .quotaAdjust := fun _ e => nomatch e
theorem overdueRotation : Statement .overdueRotation := fun _ e => nomatch e
theorem budgetPeriodStart : Statement .budgetPeriodStart := fun _ e => nomatch e
theorem cycleBudgetSpent : Statement .cycleBudgetSpent := fun _ e => nomatch e
theorem byteBudgetSpent : Statement .byteBudgetSpent := fun _ e => nomatch e
theorem overrunExpiry : Statement .overrunExpiry := fun _ e => nomatch e
theorem frameEnd : Statement .frameEnd := fun _ e => nomatch e
theorem drainApply : Statement .drainApply := fun _ e => nomatch e
theorem waveEnterLayer : Statement .waveEnterLayer := fun _ e => nomatch e
theorem editDeferredApply : Statement .editDeferredApply := fun _ e => nomatch e
theorem editRotationComplete : Statement .editRotationComplete := fun _ e => nomatch e
theorem afterHoldGrant : Statement .afterHoldGrant := fun _ e => nomatch e
theorem engineCommandComplete : Statement .engineCommandComplete := fun _ e => nomatch e
theorem wideUnitStep : Statement .wideUnitStep := fun _ e => nomatch e
theorem ageingIntervalExpiry : Statement .ageingIntervalExpiry := fun _ e => nomatch e
theorem idleTimeoutExpiry : Statement .idleTimeoutExpiry := fun _ e => nomatch e
theorem msixVectorUnmask : Statement .msixVectorUnmask := fun _ e => nomatch e
theorem peerRequestArrival : Statement .peerRequestArrival := fun _ e => nomatch e
theorem hostCacheSnoop : Statement .hostCacheSnoop := fun _ e => nomatch e
theorem stateParityError : Statement .stateParityError := fun _ e => nomatch e
theorem shoreFallbackComplete : Statement .shoreFallbackComplete := fun _ e => nomatch e

end Sys2Proof.Laws.Encoding
end

