-- ==== Sys2Proof/Tests/Slice0.lean ====
section
/-! SUPPORT. Tests of the slice: ill-formed terms, words of the spec, single steps, and witnesses for the hypotheses of the
statements. -/
namespace Sys2Proof.Tests
open Sys2Proof.Machine
set_option Elab.async false

/-! ## Headers -/

/-- an access word and an execute word without guard or hint -/
def ax : Hdr := ⟨true, false, 0, false, 0, 0⟩
def ex : Hdr := ⟨false, false, 0, false, 0, 0⟩

/-! ## WellFormed: for each check a term it refuses -/

def refuses (r : Reject) (l : List Instr) : Bool := l.all (fun i => i.check == some r)
def int0 : IntOps := ⟨.c 1, .c 2, .c 3, .c 0, 0⟩
def mem0 : MemOps := ⟨.c 0, 1, .c 0, 0, 0, false, 0⟩
def eng0 : EngOps := ⟨0, 1, .c 0, false, false, 0, 0, 0⟩
def atom0 : AtomOps := ⟨1, 2, .c 3, .c 0, 0, 0, true, 0⟩
def fp0 : FpOps := ⟨.c 1, .c 2, .c 0, .c 0, 0, 0, 0, 0, 0, 0, 0⟩
def vec0 : FpOps := ⟨.s 1, .s 2, .c 0, .c 0, 0, 0, 0, 0, 0, 0, 0⟩
def mat0 : MatOps := ⟨.m 0, .s 0, .s 1, .c 0, false, 0, false, 0, 1, 1, 0, 0⟩
def dr0 : MatOps := ⟨.c 0, .c 5, .m 0, .c 0, false, 0, false, 0, 0, 0, 0, 63⟩

theorem test_refuses_stream : refuses .stream
  [.br ex ⟨0⟩, .finCommit ex, .ld ex mem0, .fence ex ⟨0, 0⟩, .aadd ex atom0, .stkgive ex ⟨0, 0, 1, .c 2, .c 0, false⟩,
   .evwait ex ⟨.c 0, 1⟩, .send ex { eng0 with b := .c 2 }, .fadd ax fp0, .vadd ax vec0, .vsum ax { vec0 with d := .f 0 },
   .fcmp ax { fp0 with d := .c 1 }, .mgang ax ⟨1⟩, .mmul ax mat0, .mdrain ax dr0, .mzero ax ⟨.m 0, .c 0⟩, .ctlrd ex ⟨1, 0⟩] = true := by
  decide +kernel
theorem test_refuses_guard : refuses .guard
  [.nop { ax with g := 1 }, .add { ex with g := 8 } int0, .br { ax with g := 7 } ⟨0⟩, .fadd { ex with g := 9 } { fp0 with b := .c 1 },
   .sig { ax with g := 8 } ⟨0⟩, .finAbort { ax with gn := true }, .mgang { ex with g := 1 } ⟨1⟩, .mmul { ex with gn := true } mat0,
   .rett { ax with g := 8 }] = true := by decide +kernel
theorem test_refuses_operand_control_integer : refuses .operand
  [.brx ax ⟨.aq, .c 0⟩, .brx ax ⟨.imm 1, .c 0⟩, .brx ax ⟨.c 0, .l 0⟩, .callx ax ⟨1, .imm 0⟩, .ret ax ⟨.f 0⟩, .loop ax ⟨0, 0⟩,
   .add ax { int0 with d := .imm 0 }, .add ax { int0 with a := .l 0 }, .add ex { int0 with b := .d 0 }, .abs ax { int0 with d := .d 0, b := .c 0 },
   .abs ax { int0 with a := .aq, b := .c 0 }, .extr ax { int0 with c := .o 0 }, .ins ax { int0 with d := .aq }, .sel ax ⟨1, 8, .f 0, .c 0⟩,
   .mov ax ⟨.c 1, .f 0⟩, .mov ax ⟨.f 0, .c 1⟩, .movi ex ⟨.l 0, 0⟩, .moviHigh ax ⟨.xq, 0⟩, .cmp ax ⟨8, .c 1, .m 0, 0, 0⟩,
   .rngx ax ⟨.d 0, .c 0, .c 0⟩, .rngx ax ⟨.c 0, .l 0, .c 0⟩, .rngx ax ⟨.c 0, .c 0, .f 0⟩, .csetb ax ⟨1, 2, .f 0⟩, .cseal ax ⟨1, 2, .imm 0⟩] = true := by
  decide +kernel
theorem test_refuses_operand_memory : refuses .operand
  [.ld ax { mem0 with d := .d 0 }, .ld ax { mem0 with b := .c 1 }, .ldc ax { mem0 with d := .l 0 }, .st ax { mem0 with d := .c 5 }, .st ax { mem0 with b := .l 0 },
   .stc ax { mem0 with b := .imm 0 }, .lda ax { mem0 with d := .l 0 }, .str ax { mem0 with b := .d 0 }, .pref ax { mem0 with d := .c 1 },
   .sdefk ax ⟨0, 1, .xq, 0⟩, .sst ax ⟨0, .xq⟩, .aadd ax { atom0 with b := .xq }, .aadd ax { atom0 with c := .c 1 }, .acas ax { atom0 with c := .d 0 },
   .radd ax ⟨1, .xq, 0⟩, .stkinit ax ⟨8, 0, 1, .xq, .c 0, false⟩, .stkinit ax ⟨8, 0, 1, .c 0, .xq, false⟩, .phwait ax ⟨1, 0, 1, .xq, 0⟩,
   .evpop ax ⟨.d 0, 1⟩, .qpeek ax ⟨1, .c 1, .c 0⟩, .qpeek ax ⟨1, .i 0, .xq⟩, .qcnt ax ⟨1, .o 0, .c 0⟩] = true := by decide +kernel
theorem test_refuses_operand_float_matrix : refuses .operand
  [.fadd ex { fp0 with d := .f 0, b := .c 1 }, .fadd ex { fp0 with a := .d 0 }, .fadd ex { fp0 with b := .xq }, .fma ex { fp0 with b := .c 1, c := .s 0 },
   .fabs ex { fp0 with b := .c 1 }, .vadd ex { vec0 with d := .c 1 }, .vabs ex { vec0 with a := .c 1 }, .vadd ex { vec0 with b := .d 0 },
   .vadd ex { vec0 with c := .c 1 }, .vsum ex vec0, .vsum ex { vec0 with d := .f 0, a := .c 4 }, .vdelta ex { vec0 with d := .f 0, b := .c 1 },
   .vgather ex { vec0 with a := .s 0, b := .s 1, fmt2 := 0x11 }, .vlse ex { vec0 with b := .s 3, c := .s 1 }, .fcvt ex { fp0 with d := .f 1 },
   .mmul ex { mat0 with d := .c 0 }, .mmul ex { mat0 with a := .c 0 }, .mmul ex { mat0 with b := .m 1 }, .mmul ex { mat0 with tc := .c 9 },
   .mgrp ex { mat0 with tc := .s 2 }, .mdrain ex { dr0 with d := .c 1 }, .mdrain ex { dr0 with a := .m 0 }, .mdrain ex { dr0 with b := .c 0 },
   .mdrainAddOrd ex { dr0 with tc := .imm 0 }, .mzero ex ⟨.c 0, .c 0⟩, .mld ex ⟨.m 0, .c 0⟩, .mst ex ⟨.l 0, .m 0⟩, .mstat ex ⟨.d 0, .m 0⟩] = true := by
  decide +kernel
theorem test_refuses_operand_engines : refuses .operand
  [.cpy ax { eng0 with b := .imm 0 }, .cpy2d ax { eng0 with b := .c 1 }, .cpfill ax { eng0 with b := .xq }, .kvtrunc ax { eng0 with b := .l 0 },
   .raise ax { eng0 with b := .c 5 }, .wholdWithin ax ⟨0, 1, .xq, .c 0, 0⟩, .wholdWithin ax ⟨0, 1, .c 0, .c 1, 0⟩, .wholdAfter ax ⟨0, 1, .c 0, .xq, 0⟩,
   .wfree ax ⟨8, 1, .xq, 0⟩, .wdone ax ⟨8, 1, 2, .xq⟩, .wcell ax ⟨1, 1, .xq, .c 0⟩, .wcell ax ⟨1, 1, .c 0, .xq⟩, .ctlwr ax ⟨.l 0, 0x10⟩,
   .cflush ax ⟨8, .xq, .c 0⟩, .cflush ax ⟨8, .c 0, .xq⟩] = true := by decide +kernel
theorem test_refuses_reserved : refuses .reserved
  [.add ax { int0 with c := .c 1 }, .abs ax int0, .pnot ax ⟨8, 8, 8⟩, .cgetb ax ⟨1, 2, .c 3⟩, .spfree ax ⟨8, 1⟩, .rclr ax ⟨1, .c 2, 0⟩,
   .stkinit ax ⟨8, 1, 1, .c 0, .c 0, false⟩, .stkinit ax ⟨8, 0, 1, .c 0, .c 0, true⟩, .stktake ax ⟨8, 0, 1, .c 0, .c 1, false⟩,
   .stkgive ax ⟨8, 0, 1, .c 0, .c 0, false⟩, .stkreadApprox ax ⟨0, 1, 1, .c 2, .c 0, false⟩, .phreg ax ⟨1, 8, 1, .c 0, 0⟩, .phdrop ax ⟨0, 0, 1, .c 0, 1⟩,
   .phsig ax ⟨1, 0, 1, .c 0, 0⟩, .phsw ax ⟨1, 0, 1, .c 2, 0⟩, .evwait ax ⟨.c 1, 1⟩, .withdraw ax { eng0 with a := 1 },
   .send ax { eng0 with b := .c 0, cmd := 1#27 <<< 14 }, .cpy ax { eng0 with b := .c 2, cmd := 1 }, .kvapp ax { eng0 with b := .c 2, cmd := 1 },
   .rebind ax { eng0 with b := .c 2, cmd := 1#27 <<< 20 }, .bkadd ax { eng0 with b := .c 2, cmd := 1#27 <<< 25 }, .wmark ax { eng0 with b := .c 2, cmd := 256 },
   .fcmp ex { fp0 with b := .c 1, c := .c 1 }, .vscatter ex { vec0 with a := .c 1, b := .s 1, fmt2 := 0x11 }, .mdrain ex { dr0 with fb := 1 }] = true := by
  decide +kernel
theorem test_refuses_predicate : refuses .predicate
  [.sel ax ⟨1, 7, .c 0, .c 0⟩, .cmp ex ⟨8, .c 1, .c 2, 0, 0⟩, .pand ax ⟨7, 0, 0⟩, .por ax ⟨8, 7, 0⟩, .pxor ax ⟨8, 8, 1⟩, .fence ax ⟨3, 0⟩, .spalloc ax ⟨1, 1⟩,
   .stkinit ax ⟨1, 0, 1, .c 0, .c 0, false⟩, .phexp ax ⟨0, 7, 1, .c 0, 0⟩, .fcmp ex { fp0 with d := .c 9 }, .wfree ax ⟨7, 1, .c 0, 0⟩, .wdone ax ⟨7, 1, 2, .c 0⟩,
   .tlbwr ax ⟨7, 1, 2, 3⟩, .tlbinv ax ⟨7, 1, 2, 3, 0, false⟩, .cflush ax ⟨7, .c 0, .c 0⟩, .idle ax ⟨7, 0⟩] = true := by decide +kernel
theorem test_refuses_format : refuses .format
  [.fadd ex { fp0 with b := .c 1, fmt := 3 }, .fadd ex { fp0 with b := .c 1, fmt2 := 1 }, .frsqe ex { fp0 with fmt := 2 }, .fcvt ex { fp0 with fmt := 0x0B },
   .fcvt ex { fp0 with fmt2 := 0x0C }, .vadd ex { vec0 with fmt := 2 }, .vadd ex { vec0 with fmt2 := 1 }, .vsel ex { vec0 with fmt := 0x0B },
   .vgather ex { vec0 with a := .c 1, b := .s 1, fmt := 7, fmt2 := 0x11 }, .vgather ex { vec0 with a := .c 1, b := .s 1 }, .vqnt ex { vec0 with b := .s 1, fmt2 := 2 },
   .vlse ex { vec0 with b := .s 3, fmt := 1 }, .vsum ex { vec0 with d := .f 0, fmt := 2 }, .mmul ex { mat0 with fa := 0x0B }, .mmul ex { mat0 with fb := 0x0B },
   .mdrain ex { dr0 with fa := 5 }, .mdrainAdd ex { dr0 with fa := 1 }, .sdef ax ⟨0, 1, 0, 0x0B⟩] = true := by decide +kernel
theorem test_refuses_fp_control : refuses .fpControl
  [.fadd ex { fp0 with b := .c 1, rm := 5 }, .fadd ex { fp0 with b := .c 1, subn := 3 }, .fadd ex { fp0 with b := .c 1, ovf := 3 },
   .fadd ex { fp0 with b := .c 1, nan := 3 }, .fcvt ex { fp0 with fmt2 := 0x10, rm := 6 }, .vadd ex { vec0 with rm := 5 }] = true := by decide +kernel
theorem test_refuses_scope : refuses .scope
  [.fence ax ⟨0, 6⟩, .clean ax ⟨1, 7⟩, .ld ax { mem0 with scope := 1 }, .lda ax { mem0 with scope := 6 }, .aadd ax { atom0 with scope := 6, order := 1 },
   .aadd ax { atom0 with scope := 4 }, .cpy ax { eng0 with b := .c 2, scope := 6, acq := true }, .cpy ax { eng0 with b := .c 2, scope := 4 }] = true := by
  decide +kernel
theorem test_refuses_form_t : refuses .formT
  [.mmul ex { mat0 with scale := 3 }, .mmul ex { mat0 with scale := 1 }, .mmul ex { mat0 with sap := true }, .mmul ex { mat0 with san := 1 },
   .mmul ex { mat0 with sbn := 1 }, .mdrain ex { dr0 with scale := 1 }] = true := by decide +kernel
theorem test_refuses_range : refuses .range
  [.extr ax { int0 with ty := 1 }, .ins ax { int0 with ty := 4 }, .cmp ax ⟨8, .c 1, .c 2, 0, 12⟩, .ld ax { mem0 with size := 5 }, .ld ax { mem0 with size := 3, sx := true },
   .lda ax { mem0 with size := 4 }, .st ax { mem0 with sx := true }, .afadd ax atom0, .sdefk ax ⟨0, 1, .c 0, 257⟩, .phreg ax ⟨1, 0, 1, .c 0, 3⟩, .mgang ex ⟨0⟩, .mgang ex ⟨65⟩,
   .mdrainAdd ex { dr0 with km1 := 8 }, .mdrain ex { dr0 with km1 := 64 }, .fadd ex { fp0 with b := .c 1, opt := 1 }, .fcmp ex { fp0 with b := .c 1, opt := 8 },
   .vlse ex { vec0 with b := .s 3, opt := 2 }, .wholdAfter ax ⟨0, 1, .c 0, .c 0, 257⟩, .wfree ax ⟨8, 1, .c 0, 257⟩, .tlbinv ax ⟨8, 1, 2, 3, 3, false⟩] = true := by
  decide +kernel
/-- the decoder refuses a word by this name -/
def rejects (w : IWord) (r : Reject) : Bool := match decode w with | .error e => e == r | .ok _ => false
/-- the decoder reads this instruction from a word -/
def reads (w : IWord) (i : Instr) : Bool := match decode w with | .ok j => j == i | .error _ => false
/-- R374, R376: a short word, an unlisted major and minor, a reserved bit; an event has no check. -/
theorem test_refuses_words : (match decodeBytes (List.replicate 11 0) with | .error e => e == .short | .ok _ => false) = true ∧
    rejects 0x0B0800000000000000000000 .major = true ∧ rejects 0x073800000000000000000000 .minor = true ∧
    rejects 0x1E4800050506000000000000 .minor = true ∧ rejects 0x240800050600000000000001 .reserved = true ∧ Instr.wf .powerLoss = true := by
  decide +kernel
/-- The words that the chapters list as illegal, each with the name of its check. -/
def illegalWords : List (IWord × Reject) :=
  [(0x100240010203000000000000, .guard), (0x240000054800000000000000, .operand), (0x240800054000000000000000, .operand), (0xD70800040105000000000000, .operand),
   (0x06080000000000FFFFFFFFF9, .operand), (0x070A40000000000000000000, .guard), (0x2608000809C00000000000C0, .range), (0x240800050600000000000001, .reserved),
   (0x400800050400001200000000, .range), (0x440800070200009000000000, .range), (0x400000050400000C00000000, .stream), (0x540800030000008000000000, .predicate),
   (0x420800050A09000C00000000, .operand), (0x860800191800000000000000, .stream), (0x860000191805000000000000, .operand), (0x80000005060700A000000000, .fpControl),
   (0x8A00000918C0000000000000, .predicate), (0xA000005A5859000002000000, .format), (0xB300006B0400000000000000, .operand), (0xC10000785859000000814110, .formT),
   (0xC10000785859000005810110, .format), (0xC10040785859000000810110, .guard), (0xC10800785859000000810110, .stream), (0xC61000000578000000000080, .range),
   (0xD00800090A0B100020000000, .scope), (0xDC0800040305000150000000, .operand), (0xD86800040108000000000000, .minor), (0xD10800040300000000000001, .reserved)]
theorem test_illegal_words : illegalWords.all (fun x => rejects x.1 x.2) = true := by decide +kernel

/-! ## Words of the spec, written out from its encodings -/

def specWords0 : List (IWord × Instr) :=
  [(0x000000000000000000000000, .nop ex),
   (0x010A40000000000000000005, .br { ax with g := 9 } ⟨5⟩),
   (0x0308003E000000000000000A, .call ax ⟨62, 10⟩),
   (0x0608000B000000FFFFFFFFF9, .loop ax ⟨11, 0xFFFFFFFFF9⟩),
   (0x072800000000000000000000, .finAbort ax),
   (0x09080000000000000000002A, .trap ax ⟨42⟩),
   (0x100800080810000000000000, .add ax ⟨.c 8, .c 8, .c 16, .c 0, 0⟩),
   (0x1A08001003C1000000000000, .shl ax ⟨.c 16, .c 3, .imm 65, .c 0, 0⟩),
   (0x2608000809C0000000000010, .cmp ax ⟨8, .c 9, .imm 64, 0, 1⟩),
   (0x240000464000000000000000, .mov ex ⟨.xq, .l 0⟩),
   (0x251800050000408040804080, .moviHigh ax ⟨.c 5, 0x408040804080⟩),
   (0x320800070110000000000000, .cadd ax ⟨7, 1, .c 16⟩),
   (0x400800400400000800000004, .ld ax ⟨.l 0, 4, .c 0, 0, 2, false, 4⟩)]
theorem test_decodes_control_and_integer : specWords0.all (fun x => reads x.1 x.2) = true := by decide +kernel
theorem test_encodes_control_and_integer : specWords0.all (fun x => encode x.2 == x.1) = true := by decide +kernel
def specWords1 : List (IWord × Instr) :=
  [(0x40080005040000020000FFFF, .ld ax ⟨.c 5, 4, .c 0, 0, 0, true, 0xFFFF⟩),
   (0x420800000244001000000110, .st ax ⟨.c 0, 2, .d 0, 0, 4, false, 272⟩),
   (0x440800070200008C00000000, .lda ax ⟨.c 7, 2, .c 0, 4, 3, false, 0⟩),
   (0x500800590C00000001000000, .sdef ax ⟨1, 12, 0, 1⟩),
   (0x502800590111000000008000, .sdefk ax ⟨1, 1, .c 17, 1⟩),
   (0x530800405900000000000000, .srd ax ⟨0, 1⟩),
   (0x54080009000000A000000000, .fence ax ⟨9, 5⟩),
   (0x550800000700008000000000, .clean ax ⟨7, 4⟩),
   (0x580800080500000000000000, .spalloc ax ⟨8, 5⟩),
   (0x600800050406009C00000010, .aadd ax ⟨5, 4, .c 6, .c 0, 4, 3, true, 16⟩),
   (0x650800080105060000000000, .stkinit ax ⟨8, 0, 1, .c 5, .c 6, false⟩),
   (0x660C000801C1000000000000, .stktake { ax with p := true } ⟨8, 0, 1, .imm 65, .c 0, false⟩),
   (0x7808000A0400000000000000, .evpop ax ⟨.c 10, 4⟩)]
theorem test_decodes_memory_and_atomics : specWords1.all (fun x => reads x.1 x.2) = true := by decide +kernel
theorem test_encodes_memory_and_atomics : specWords1.all (fun x => encode x.2 == x.1) = true := by decide +kernel
def specWords2 : List (IWord × Instr) :=
  [(0x790800041E1F000000808000, .send ax ⟨4, 30, .c 31, false, false, 0, 0, 0x808000⟩),
   (0x7A08000400E9000000000000, .withdraw ax ⟨4, 0, .imm 105, false, false, 0, 0, 0⟩),
   (0x860060191800000000000000, .frsqe { ex with g := 1, gn := true } ⟨.c 25, .c 24, .c 0, .c 0, 0, 0, 0, 0, 0, 0, 0⟩),
   (0x8C0000050600000400060000, .fcvt ex ⟨.c 5, .c 6, .c 0, .c 0, 0, 0, 2, 0, 0, 3, 0⟩),
   (0xA300005A5804590001000000, .vfma ex ⟨.s 2, .s 0, .c 4, .s 1, 0, 0, 0, 0, 1, 0, 0⟩),
   (0xB700005E5C5D090000002000, .vlse ex ⟨.s 6, .s 4, .s 5, .c 9, 0, 0, 0, 0, 0, 0, 1⟩),
   (0xC00000000000000000000004, .mgang ex ⟨4⟩),
   (0xC10000785859000000810110, .mmul ex ⟨.m 0, .s 0, .s 1, .c 0, false, 0, false, 0, 1, 1, 0, 17⟩),
   (0xC100007B58595C94C1847FF0, .mmul ex ⟨.m 3, .s 0, .s 1, .s 4, true, 2, true, 3, 3, 4, 1, 1023⟩),
   (0xC60000000578000000800080, .mdrain ex ⟨.c 0, .c 5, .m 0, .c 0, false, 0, false, 0, 1, 0, 0, 8⟩),
   (0xD00800090A0BD00020000000, .cpy ax ⟨9, 10, .c 11, true, true, 2, 4, 0⟩),
   (0xD20800040106000007FFFFFF, .cprot ax ⟨4, 1, .c 6, false, false, 0, 0, 0x7FFFFFF⟩),
   (0xD4080004010B000038000000, .bkadd ax ⟨4, 1, .c 11, false, false, 0, 7, 0⟩)]
theorem test_decodes_float_and_matrix : specWords2.all (fun x => reads x.1 x.2) = true := by decide +kernel
theorem test_encodes_float_and_matrix : specWords2.all (fun x => encode x.2 == x.1) = true := by decide +kernel
def specWords3 : List (IWord × Instr) :=
  [(0xD80800000107000000040000, .kvapp ax ⟨0, 1, .c 7, false, false, 0, 0, 0x40000⟩),
   (0xDA0800040106000018000000, .edins ax ⟨4, 1, .c 6, false, false, 0, 3, 0⟩),
   (0xDC0800040300000150000000, .raise ax ⟨4, 3, .c 0, false, false, 0, 42, 0⟩),
   (0xDD0800040506000000400000, .rebind ax ⟨4, 5, .c 6, false, false, 0, 0, 0x400000⟩),
   (0xE008006A010AC28040000000, .wholdAfter ax ⟨2, 1, .c 10, .imm 66, 2⟩),
   (0xE20800090114150000000000, .wdone ax ⟨9, 1, 20, .c 21⟩),
   (0xF0080009000000000000001A, .ctlrd ax ⟨9, 0x01A⟩),
   (0xF20800080405060000000001, .tlbwrFill ax ⟨8, 4, 5, 6⟩),
   (0xF30800090405060000000006, .tlbinv ax ⟨9, 4, 5, 6, 2, true⟩),
   (0xF40800070406000000000001, .tlbprobe ax ⟨7, 4, 6, true⟩),
   (0xF50800080003040000000000, .cflush ax ⟨8, .c 3, .c 4⟩),
   (0xF60800000000000000000000, .rett ax),
   (0xF80800080000000000001388, .idle ax ⟨8, 5000⟩)]
theorem test_decodes_engines_and_system : specWords3.all (fun x => reads x.1 x.2) = true := by decide +kernel
theorem test_encodes_engines_and_system : specWords3.all (fun x => encode x.2 == x.1) = true := by decide +kernel

/-! ## Small states

For each statement with hypotheses, one or more theorems show concrete states and operands that meet the hypotheses of its
clauses: `on t` runs thread `t` on core 0, `arg a s` is `s` at an event with its argument, `answers r f` says that `r` is an
answer, and that it meets `f`. -/

def answers {ε α : Type} (r : Except ε α) (f : α → Bool) : Bool := match r with | .ok x => f x | .error _ => false
theorem answers_iff {ε α : Type} (r : Except ε α) (f : α → Bool) : answers r f = true ↔ ∃ x, r = .ok x ∧ f x = true := by
  cases r <;> simp [answers]
def goes (o : Host.Outcome State Fault Refusal) (f : State → Bool) : Bool := match o with | .next s => f s | _ => false
theorem goes_iff (o : Host.Outcome State Fault Refusal) (f : State → Bool) : goes o f = true ↔ ∃ s, o = .next s ∧ f s = true := by
  cases o <;> simp [goes]
def fireId : Ident := { ctx := 1, frame := 1, stage := 0, coord := 0, pos := 0, gang := false, firmware := false, batch := 1 }
def fwId : Ident := { fireId with ctx := 0, frame := 0, firmware := true, batch := 0 }
/-- a firing, and a firmware thread, at PC 0 with every register 0 -/
def fire : Thread := threadReset fireId cZero 0 0
def fwThread : Thread := threadReset fwId cZero 0 0
/-- core 0 runs a thread; the machine is otherwise as at reset -/
def on (t : Thread) : State := setCur { State.reset with cur := Claims.atWord 0 0 0 0 } t
def arg (a : Arg) (s : State) : State := { s with cur := eventCur a }
/-- the machine READY, and nothing under way -/
def rdy : State := { State.reset with host := { hostReset with state := .ready } }
/-- what register n of the current thread holds -/
def reg (s : State) (n : BitVec 6) : W64 := match curThread s with | some t => getW t n | none => 0
def regTag (s : State) (n : BitVec 6) : Bool := match curThread s with | some t => (getC t n).tag | none => false
/-- c2 = a, c3 = b -/
def put (t : Thread) (n : BitVec 6) (v : W64) : Thread := setData t n v
def two (a b : W64) : Thread := put (put fire 2 a) 3 b
def with2 (x : CReg) : Thread := setC fire 2 x
/-- a memory capability with cursor, permissions, base and limit, of a kind -/
def capOf (cursor : W64) (p : BitVec 7) (base limit kind : Nat) : CReg := ⟨mkCap kind p base limit cursor, true⟩

/-! ## Steps, encodings, operands -/
section
open Sys2Proof.Claims

/-- the word of `ADD c1, c2, c3` on the access half, that of the execute half, and NOP with P and its mask word -/
def wAddA : IWord := 0x100800010203000000000000
def wAddE : IWord := 0x100000010203000000000000
def sAcc : State := State.withFetchWord State.reset 96 wAddA.toNat
def sExe : State := State.withFetchWord State.reset 96 wAddE.toNat
/-- an execute word in memory, met by the access half -/
def sBuf : State := let s := State.withFetchWord State.reset 96 wAddE.toNat
  setSched (setThreadOf s 0 (bootThread State.reset)) { s.sched with agenda := [.access 0] }
def sMask : State := State.withFetchWord State.reset 96 0x000C00000000000000000000
def fetched (s : State) (pc : W64) : List Byte × State := match fetchWord s 0 (bootThread State.reset) pc with | .got b s => (b, s) | _ => ([], s)
def decodes (w : IWord) : Option Instr := match decode w with | .ok i => some i | .error _ => none
def noTurns (s : State) : State := setSched s { s.sched with agenda := [] }
theorem test_hyp_StepRunsTheWord_access : nextTurn sAcc = some (.access 0, noTurns sAcc) ∧ threadOf (noTurns sAcc) 0 = some (bootThread State.reset) ∧
    (bootThread State.reset).fw.stopped = false ∧ (bootThread State.reset).safe = none ∧
    answers (checkCap allCode [0] permX 0 12) (fun _ => true) = true ∧ (fetched (noTurns sAcc) 0).1 = bytesOfWord wAddA ∧
    (wordOfBytes (bytesOfWord wAddA)).getLsbD 83 = true ∧ (wordOfBytes (bytesOfWord wAddA)).getLsbD 82 = false ∧
    decodes (wordOfBytes (bytesOfWord wAddA)) = some (.add ax int0) ∧ mustWait (fetched (noTurns sAcc) 0).2 0 (bootThread State.reset) (.add ax int0) = false := by
  decide +kernel
theorem test_hyp_StepRunsTheWord_mask : nextTurn sMask = some (.access 0, noTurns sMask) ∧ (fetched (noTurns sMask) 0).1 = bytesOfWord 0x000C00000000000000000000 ∧
    (wordOfBytes (fetched (noTurns sMask) 0).1).getLsbD 82 = true ∧ answers (checkCap allCode [0] permX 12 12) (fun _ => true) = true ∧
    (fetched (fetched (noTurns sMask) 0).2 12).1 = List.replicate 12 0 := by decide +kernel
theorem test_hyp_StepRunsTheWord_execute : nextTurn sBuf = some (.access 0, noTurns sBuf) ∧ (fetched (noTurns sBuf) 0).1 = bytesOfWord wAddE ∧
    wAddE.getLsbD 83 = false ∧ (bootThread State.reset).slice.length < 256 ∧ nextTurn sExe = some (.execute 0, noTurns sExe) ∧
    (threadOf (noTurns sExe) 0).map (·.slice) = some [.word 0 wAddE] := by decide +kernel
theorem test_hyp_StepRunsTheWord_event : nextTurn (setSched rdy { rdy.sched with agenda := [.event .thermalFatal (.ix 1)] }) =
    some (.event .thermalFatal (.ix 1), rdy) := by decide +kernel
/-- the step runs the word: ADD c1, c2, c3 with every register 0 retires at 12, and its execute form leaves the slice buffer -/
theorem test_step_runs_the_word : goes (step sAcc) (fun s => (threadOf s 0).map (·.pc) == some 12) = true ∧
    goes (step sExe) (fun s => (threadOf s 0).map (·.slice) == some []) = true ∧
    goes (step sBuf) (fun s => (threadOf s 0).map (·.slice) == some [.word 0 wAddE]) = true := by decide +kernel

theorem test_hyp_DecodeOfEncode : Instr.hdr (.add ax int0) = some ax ∧ (Instr.add ax int0).wf = true := by decide +kernel
theorem test_hyp_EncodeOfDecode : decodes wAddA = some (.add ax int0) := by decide +kernel
theorem test_hyp_StepKeepsMemory : (memWf State.reset.mem && setFrom none (State.reset.mem.l2.map (·.1)) &&
    goes (step sAcc) (fun s => s.mem.l2.length == 1)) = true := by decide +kernel
theorem test_hyp_FalseGuardRetires : Instr.hdr (.add { ax with g := 9 } int0) = some { ax with g := 9 } ∧ (Instr.add { ax with g := 9 } int0).wf = true ∧
    curThread (on fire) = some fire ∧ agentMay fire (.add { ax with g := 9 } int0) = true ∧ guardTrue { ax with g := 9 } fire = false := by decide +kernel

def q3 : List W128 := [1, 2, 3]
/-- queue registers with entries, f1 full, input 0 with 8 bytes left, output 1 with room for one entry and output 2 with none -/
def queued : Thread := { fire with
  regs := { fire.regs with l := fire.regs.l.set 1 q3, d := fire.regs.d.set 0 q3, xq := [7], aq := [8], f := fire.regs.f.set 1 (.full 5) }
  opn := { fire.opn with inq := fire.opn.inq.set 0 { used := true, item := 8, bytes := toBytes 8 9, pos := 0 }
                         outq := (fire.opn.outq.set 1 { used := true, item := 8, limit := 8, bytes := [], ords := [] }).set 2 { used := true, item := 8, limit := 8, bytes := toBytes 8 1, ords := [0] } } }
def fullQ : Thread := { fire with regs := { fire.regs with l := fire.regs.l.set 0 (List.replicate 32 0), d := fire.regs.d.set 1 (List.replicate 32 0),
                                                           xq := List.replicate 16 0, aq := List.replicate 16 0 } }
theorem test_hyp_OperandsAndResults_sources : queued.regs.l[(1 : BitVec 2).toNat] = 1 :: [2, 3] ∧ queued.regs.d[(0 : BitVec 1).toNat] = 1 :: [2, 3] ∧
    queued.regs.xq = [7] ∧ queued.regs.aq = [8] ∧ getF queued 1 = .full 5 ∧ (getInQ queued 0).used = true ∧ (getInQ queued 0).pos + 8 ≤ (getInQ queued 0).bytes.length ∧
    (getInQ queued 1).used = false ∧ queued.id.gang = false ∧ fire.regs.l[(0 : BitVec 2).toNat] = [] ∧ fire.regs.d[(0 : BitVec 1).toNat] = [] ∧
    fire.regs.xq = [] ∧ fire.regs.aq = [] := by decide +kernel
theorem test_hyp_OperandsAndResults_results : (getL queued 1).length < 32 ∧ (getD queued 0).length < 32 ∧ queued.regs.xq.length < 16 ∧ queued.regs.aq.length < 16 ∧
    (getOutQ queued 1).used = true ∧ (getOutQ queued 1).bytes.length + 8 ≤ (getOutQ queued 1).limit ∧
    ¬((getOutQ queued 2).used = true ∧ (getOutQ queued 2).bytes.length + 8 ≤ (getOutQ queued 2).limit) ∧ 32 ≤ (getL fullQ 0).length ∧ 32 ≤ (getD fullQ 1).length ∧
    16 ≤ fullQ.regs.xq.length ∧ 16 ≤ fullQ.regs.aq.length := by decide +kernel

/-! ## Integer, bits, moves, predicates -/

theorem test_hyp_IntegerBinary : Runs ax (on (two 7 9)) (two 7 9) ∧ readW (two 7 9) (.c 2) = .ok (7, two 7 9) ∧ readW (two 7 9) (.c 3) = .ok (9, two 7 9) ∧
    writeOpd (two 7 9) (.c 1) (extended 0 16) = .ok (put (two 7 9) 1 16) := ⟨⟨by decide +kernel, by decide +kernel⟩, rfl, rfl, rfl⟩
theorem test_hyp_IntegerUnary : Runs ax (on (two 7 9)) (two 7 9) ∧ readW (two 7 9) (.c 2) = .ok (7, two 7 9) ∧
    writeOpd (two 7 9) (.c 1) (extended 0 (-7)) = .ok (put (two 7 9) 1 (-7)) := ⟨⟨by decide +kernel, by decide +kernel⟩, rfl, rfl⟩
/-- what an access-half instruction leaves in c1 -/
def c1Of (i : Instr) (t : Thread) (v : W64) : Bool := goes (exec i (on t)) (fun s => reg s 1 == v && !regTag s 1)
/-- the example of R390: type W8 (TY 3, SX 1), -128 by -1, and REM by 0 -/
theorem test_division : c1Of (.div ax { int0 with ty := 7 }) (two 0x80 0xFF) 0xFFFFFFFFFFFFFF80 = true ∧
    c1Of (.rem ax int0) (two 9 0) 9 = true := by decide +kernel
/-- wraps at 32 bits, with sign extension (R388, R389), and the high half of a signed product -/
theorem test_integer_wraps : c1Of (.add ax { int0 with ty := 5 }) (two 0x7FFFFFFF 1) 0xFFFFFFFF80000000 = true ∧
    c1Of (.mulh ax int0) (two (-1) 2) (-1) = true ∧ c1Of (.sra ax int0) (two (-8) 65) (-4) = true := by decide +kernel
theorem test_hyp_BitFields : isField 8 16 ∧ isField 0 64 ∧ isField 63 1 ∧ ¬isField 63 2 ∧ ¬isField 0 0 ∧ ¬isField 0 65 ∧ answers (readW (two 7 9) (.c 0)) (·.1 == 0) = true := by
  simp only [isField]; decide +kernel
theorem test_bit_fields : c1Of (.extr ax { int0 with b := .imm 68, c := .imm 68 }) (two 0xF5 0) (-1) = true ∧
    c1Of (.extrn ax { int0 with b := .imm 127, c := .imm 66 }) (two (-1) 0) 0 = true ∧
    c1Of (.ins ax { int0 with b := .imm 68, c := .imm 68 }) (put (two 0xA 0) 1 0xF0F) 0xFAF = true := by decide +kernel
theorem test_hyp_Moves : Runs ax (on queued) queued ∧ readOpd queued (.l 1) = .ok (1, setL queued 1 [2, 3]) ∧
    pushQueue queued (.l 1) ((getC queued 2).bits.setWidth 128) = .ok (setL queued 1 [1, 2, 3, 0]) ∧
    movValue queued (.c 2) = .ok (getC queued 2, queued) ∧ writeOpd queued (.c 1) ((0x800000000000#48).signExtend 64) = .ok (put queued 1 0xFFFF800000000000) :=
  ⟨⟨by decide +kernel, by decide +kernel⟩, rfl, rfl, rfl, rfl⟩
theorem test_moves_keep_the_tag : goes (exec (.mov ax ⟨.c 1, .c 2⟩) (on (with2 allCode))) (fun s => regTag s 1) = true ∧
    goes (exec (.sel ax ⟨1, 8, .c 0, .c 2⟩) (on (with2 allCode))) (fun s => regTag s 1) = true := by decide +kernel
theorem test_hyp_Predicates : Runs ax (on (two 7 9)) (two 7 9) ∧ readW (two 7 9) (.c 2) = .ok (7, two 7 9) ∧ readW (two 7 9) (.c 3) = .ok (9, two 7 9) ∧
    conds[(11 : BitVec 4).toNat]?.isSome = true ∧ conds[(0 : BitVec 4).toNat]?.isSome = true := ⟨⟨by decide +kernel, by decide +kernel⟩, rfl, rfl, rfl, rfl⟩
theorem test_compare_signed : goes (exec (.cmp ax ⟨8, .c 2, .c 3, 0, 2⟩) (on (two (-1) 1))) (fun s => (curThread s).map (getP · 8) == some true) = true ∧
    goes (exec (.cmp ax ⟨8, .c 2, .c 3, 0, 6⟩) (on (two (-1) 1))) (fun s => (curThread s).map (getP · 8) == some false) = true := by decide +kernel
theorem test_hyp_Division : Runs ax (on (two (-7) 2)) (two (-7) 2) ∧ readW (two (-7) 2) (.c 2) = .ok (-7, two (-7) 2) ∧ readW (two (-7) 2) (.c 3) = .ok (2, two (-7) 2) ∧
    writeOpd (two (-7) 2) (.c 1) (-3 : W64) = .ok (put (two (-7) 2) 1 (-3)) ∧ low 3 (0x300 : W64) = 0 ∧ signed 8 (low 7 0x80) = -(2 ^ 7) ∧ signed 8 (low 7 0xFF) = -1 :=
  ⟨⟨by decide +kernel, by decide +kernel⟩, rfl, rfl, rfl, by decide +kernel, by decide +kernel, by decide +kernel⟩
theorem test_hyp_RandomNumber : Runs ax (on (two 0 0)) (two 0 0) ∧ readOpd (two 0 0) (.c 2) = .ok (0, two 0 0) ∧ readW (two 0 0) (.c 3) = .ok (0, two 0 0) ∧
    answers (writeOpd (two 0 0) (.c 1) (5 : W128)) (fun t => getC t 1 == ⟨5, false⟩) = true := ⟨⟨by decide +kernel, by decide +kernel⟩, rfl, rfl, by decide +kernel⟩

/-! ## Capabilities, control flow, traps -/

/-- c1 a memory capability of 256 bytes from 0x1000, cursor 0x1010; c3 a sealing authority for 1 to 7, cursor 7; c4 = c1 sealed 7 -/
def capA : CReg := capOf 0x1010 0x7F 0x1000 0x1100 0
def caps : Thread := setC (setC (setC fire 1 capA) 3 (capOf 7 permS 0 8 5)) 4 ⟨withSeal capA.bits 7, true⟩
theorem test_hyp_CapabilityDerivations : Runs ax (on caps) caps ∧ readW caps (.imm 127) = .ok (63, caps) ∧ (getC caps 1).tag = true ∧ capSeal (getC caps 1).bits = 0 ∧
    capBase (getC caps 1).bits ≤ (capCursor (getC caps 1).bits).toNat ∧ (capCursor (getC caps 1).bits).toNat + 63 ≤ capLimit (getC caps 1).bits ∧
    sealer (getC caps 3) ∧ 1 ≤ (capCursor (getC caps 3).bits).toNat ∧ (capCursor (getC caps 3).bits).toNat ≤ 7 ∧
    capSeal (getC caps 4).bits ≠ 0 ∧ (capCursor (getC caps 3).bits).toNat = (capSeal (getC caps 4).bits).toNat ∧ (getC caps 9).tag = false ∧
    ¬(capBase (getC caps 1).bits ≤ (capCursor (getC caps 1).bits).toNat ∧ (capCursor (getC caps 1).bits).toNat + 0xF1 ≤ capLimit (getC caps 1).bits) :=
  ⟨⟨by decide +kernel, by decide +kernel⟩, rfl, by simp only [sealer]; decide +kernel⟩
theorem test_seal_and_unseal : goes (exec (.cseal ax ⟨5, 1, .c 3⟩) (on caps)) (fun s => (curThread s).map (getC · 5) == some (getC caps 4)) = true ∧
    goes (exec (.cunseal ax ⟨5, 4, .c 3⟩) (on caps)) (fun s => (curThread s).map (getC · 5) == some capA) = true := by decide +kernel
theorem test_hyp_CapabilityFields : Runs ax (on caps) caps := ⟨by decide +kernel, by decide +kernel⟩
theorem test_cgett : goes (exec (.cgett ax ⟨2, 4, .c 0⟩) (on caps)) (fun s => reg s 2 == 0x0F) = true := by decide +kernel
def looping (n : W64) : Thread := put { fire with pc := 0 } 11 n
theorem test_hyp_ControlFlow : Runs ax (on (two 36 0)) (two 36 0) ∧ okTarget (on fire) fire 36 ∧ okTarget (on fire) fire (0 + 12 * (5 : BitVec 40).signExtend 64) ∧
    answers (readW (two 36 0) (.c 2)) (·.1 == 36) = true ∧ getW (looping 1) 11 = 1 ∧ getW (looping 0) 11 ≠ 1 ∧ (38 : W64).toNat % 4 ≠ 0 :=
  ⟨⟨by decide +kernel, by decide +kernel⟩, by simp only [okTarget]; decide +kernel⟩
/-- a word with P = 1 at address 0: the address 12 is a mask word's -/
def masked : State := setCur { sMask with cur := atWord 0 24 0 0 } (bootThread sMask)
theorem test_hyp_ControlFlow_mask : curThread masked = some (bootThread sMask) ∧ (12 : W64) = masked.cur.pc + 12 * (0xFFFFFFFFFF : BitVec 40).signExtend 64 ∧
    (12 : W64).toNat % 4 = 0 ∧ isMaskWord masked masked.cur.core (bootThread sMask) 12 = true := by decide +kernel
theorem test_loop_wraps : goes (exec (.loop ax ⟨11, 0xFFFFFFFFFF⟩) (on (looping 0))) (fun s => (curThread s).map (·.pc) == some (-12) && reg s 11 == -1) = true ∧
    goes (exec (.loop ax ⟨11, 5⟩) (on (looping 1))) (fun s => (curThread s).map (·.pc) == some 12 && reg s 11 == 0) = true := by decide +kernel
def inHandler : Thread := { fwThread with fw := { fwThread.fw with tin := true, tpc := 36 } }
theorem test_hyp_TrapsReturnsSignatures : Runs ax (on fwThread) fwThread ∧ fwThread.id.firmware = true ∧ fwThread.slice = [] ∧ fwThread.wide = [] ∧ fwThread.fw.tin = false ∧
    Runs ax (on inHandler) inHandler ∧ inHandler.fw.tin = true ∧ okTarget (on inHandler) inHandler inHandler.fw.tpc ∧ Runs ax (on fire) fire ∧ fire.id.firmware = false ∧
    fire.sig.expected = none :=
  ⟨⟨by decide +kernel, by decide +kernel⟩, by decide +kernel, by decide +kernel, by decide +kernel, by decide +kernel, ⟨by decide +kernel, by decide +kernel⟩, by decide +kernel,
   by simp only [okTarget]; decide +kernel, ⟨by decide +kernel, by decide +kernel⟩, by decide +kernel, by decide +kernel⟩
theorem test_hyp_TrapsReturnsSignatures_sig : ({ fire with sig := ⟨0, some 5⟩ } : Thread).sig.expected = some 5 ∧ (5 : BitVec 32) ≠ ~~~0 := by decide +kernel
theorem test_trap_enters_the_handler : goes (exec (.trap ax ⟨42⟩) (on { fwThread with fw := { fwThread.fw with tvec := 0x400 } }))
    (fun s => (curThread s).map (fun t => (t.pc, t.fw.tcause, t.fw.tdetail, t.fw.tin)) == some (0x400, 0x0D, 42, true)) = true := by decide +kernel
theorem test_hyp_ControlRegisters : Runs ax (on fwThread) fwThread ∧ fwThread.id.firmware = true ∧ Runs ax (on fire) fire ∧ fire.id.firmware = false ∧
    readW fwThread (.imm 127) = .ok (63, fwThread) :=
  ⟨⟨by decide +kernel, by decide +kernel⟩, by decide +kernel, ⟨by decide +kernel, by decide +kernel⟩, by decide +kernel, rfl⟩
theorem test_ctlwr_reads_back : goes (exec (.ctlwr ax ⟨.imm 127, 0x100⟩) (on fwThread)) (fun s => (curThread s).map (·.fw.tvec) == some 60) = true := by decide +kernel
theorem test_hyp_FiringEndsAndYields : Runs ax (on fire) fire ∧ finOk (on fire) fire ∧ ({ ax with p := false } : Hdr).p = false :=
  ⟨⟨by decide +kernel, by decide +kernel⟩, ⟨fun _ h => by simp [fire, threadReset, sigReset] at h, by decide +kernel⟩, rfl⟩
end

/-! ## Floats, memory, streams -/
section
open Sys2Proof.Claims

/-- c2 = 1.0 and c3 = 2.0 in FP32 -/
def flt : Thread := two 0x3F800000 0x40000000
theorem test_hyp_ScalarFloat : Runs ax (on flt) flt ∧ readFp flt 0 (.c 2) = .ok (0x3F800000, flt) ∧ readFp flt 0 (.c 3) = .ok (0x40000000, flt) ∧
    readFp flt 0 (.imm 67) = .ok (immIn 0 (immOf 67), flt) ∧ readW flt (.imm 65) = .ok (1, flt) ∧
    writeOpd flt (.c 1) (0x40400000 : W64) = .ok (put flt 1 0x40400000) := ⟨⟨by decide +kernel, by decide +kernel⟩, rfl, rfl, rfl, rfl, rfl⟩
/-- 1.0 + 2.0 = 3.0, 1.0 - 2.0 * 2.0 = -3.0 by FNMA's neighbour FMS of C = 1.0, and -0 + -0 = -0 -/
theorem test_scalar_float : goes (exec (.fadd ex ⟨.c 1, .c 2, .c 3, .c 0, 0, 0, 0, 0, 0, 0, 0⟩) (on flt)) (fun s => reg s 1 == 0x40400000) = true ∧
    goes (exec (.fms ex ⟨.c 1, .c 3, .c 3, .c 2, 0, 0, 0, 0, 0, 0, 0⟩) (on flt)) (fun s => reg s 1 == 0x40400000) = true ∧
    goes (exec (.fadd ex ⟨.c 1, .c 2, .c 3, .c 0, 0, 0, 0, 0, 0, 0, 0⟩) (on (two 0x80000000 0x80000000))) (fun s => reg s 1 == 0x80000000) = true := by decide +kernel

/-- page 0 of context 1: readable, writable, executable, with capability tags, at device page 1; page 1 is an RD page, page 2
lets no one write -/
def leaf0 : W64 := 0xBE00000000010000
def leafRd : W64 := 0xBA10000000020000
/-- page 3 is UN (R112) -/
def leafUn : W64 := 0xBF00000000040000
def tlb3 : List TlbEntry := [⟨1, 0, leaf0, 0⟩, ⟨1, 0x10000, leafRd, 0⟩, ⟨1, 0x30000, leafUn, 0⟩]
def inPage (t : Thread) : State := let s := on t
  setCore s 0 { Machine.core s 0 with tlb := tlb3 }
/-- c1 reaches page 0 with cursor 0x40, c2 the same with kind 1 ... see the fields; c3 is data; c4 a scratch range -/
def rig : Thread := setC (setC (put (setC fire 1 (capOf 0x40 0x7F 0 0x10000 0)) 3 0x8877665544332211) 4 (capOf 0x100 0x7F 0x100 0x300 1)) 5 (capOf 0x11000 0x7F 0x10000 0x20000 0)
/-- the same with c6 in the UN page, and the lines of its scratch range held -/
def rigU : Thread := { setC rig 6 (capOf 0x30040 0x7F 0x30000 0x40000 0) with opn := { rig.opn with scratch := [1, 2] } }
/-- every optional feature of word 1 accepted (R42) -/
def feat (s : State) : State := { s with host := { s.host with on1 := BitVec.allOnes 128 } }
def xAt (s : State) (va : Nat) (n : Need) : Xlat := match translate s 0 1 va n with | .hit x _ => x | _ => default
def hits (s : State) (va : Nat) (n : Need) : Bool := match translate s 0 1 va n with | .hit _ s1 => decide (s1 = s) | _ => false
theorem hits_iff (s : State) (va : Nat) (n : Need) : hits s va n = true → translate s 0 1 va n = .hit (xAt s va n) s := by
  unfold hits xAt; cases h : translate s 0 1 va n <;> simp_all
def sec0 (s : State) (va : Nat) : L2Sector × State := loadSector s 0 1 (xAt s va .load)
theorem test_hyp_Loads_scratch : Runs ax (inPage rigU) rigU ∧ inScratch rigU 0 (getC rigU 4) 0 permR 8 0x100 ∧ inScratch rigU 0 (getC rigU 4) 0x20 permR 32 0x120 ∧
    inScratch rigU 0 (getC rigU 4) 0xFF permW 1 0x1FF ∧ inScratch rigU 0 (getC rigU 4) 0 permW 32 0x100 ∧ readOpd rigU (.c 3) = .ok (0x8877665544332211, rigU) ∧
    hasPerm (getC rigU 4).bits permC = true := by
  refine ⟨⟨?_, ?_⟩, ⟨?_, rfl, ?_, ?_⟩, ⟨?_, rfl, ?_, ?_⟩, ⟨?_, rfl, ?_, ?_⟩, ⟨?_, rfl, ?_, ?_⟩, rfl, ?_⟩ <;> decide +kernel
/-- LDA and STR at the home, and on the UN page -/
theorem test_hyp_Loads_home : reaches (inPage rigU) rigU (getC rigU 1) 0x38 [0] permR 8 .load true 0x78 (xAt (inPage rigU) 0x78 .load) ∧
    orderWaits (inPage rigU) (whoOf 0 rigU) ((xAt (inPage rigU) 0x78 .load).pa / 64) true false 5 = false ∧
    (atHome (reachHome (acquireAt (beforeAtomic (inPage rigU) 0 ((xAt (inPage rigU) 0x78 .load).pa / 64)) 0 5 ((xAt (inPage rigU) 0x78 .load).pa / 64)) 0 1
      (xAt (inPage rigU) 0x78 .load)) (xAt (inPage rigU) 0x78 .load)).poison = false ∧
    reaches (inPage rigU) rigU (getC rigU 6) 0 [0] permR 8 .load true 0x30040 (xAt (inPage rigU) 0x30040 .load) ∧ (xAt (inPage rigU) 0x30040 .load).un = true ∧
    (loadSector (inPage rigU) 0 1 (xAt (inPage rigU) 0x30040 .load)).1.poison = false := by
  refine ⟨⟨?_, rfl, ?_, ?_, hits_iff _ _ _ ?_, ?_, ?_, ?_⟩, ?_, ?_, ⟨?_, rfl, ?_, ?_, hits_iff _ _ _ ?_, ?_, ?_, ?_⟩, ?_, ?_⟩ <;> decide +kernel
theorem test_hyp_Stores_home : reaches (inPage rigU) rigU (getC rigU 1) 0x38 [0] permW 8 .store true 0x78 (xAt (inPage rigU) 0x78 .store) ∧ (xAt (inPage rigU) 0x78 .store).un = false ∧
    orderWaits (inPage rigU) (whoOf 0 rigU) ((xAt (inPage rigU) 0x78 .store).pa / 64) false true 5 = false ∧
    reaches (inPage rigU) rigU (getC rigU 6) 0 [0] permW 8 .store true 0x30040 (xAt (inPage rigU) 0x30040 .store) ∧ (xAt (inPage rigU) 0x30040 .store).un = true := by
  refine ⟨⟨?_, rfl, ?_, ?_, hits_iff _ _ _ ?_, ?_, ?_, ?_⟩, ?_, ?_, ⟨?_, rfl, ?_, ?_, hits_iff _ _ _ ?_, ?_, ?_, ?_⟩, ?_⟩ <;> decide +kernel
/-- the last 8 bytes of a sector, and 32 bytes with a tag -/
theorem test_hyp_Loads : reaches (inPage rig) rig (getC rig 1) 0x38 [0, 1] permR 8 .load false 0x78 (xAt (inPage rig) 0x78 .load) ∧
    Runs ax (inPage rig) rig ∧ (sec0 (inPage rig) 0x78).1.poison = false ∧ answers (writeOpd rig (.c 9) (0 : W64)) (fun _ => true) = true ∧
    reaches (inPage rig) rig (getC rig 1) 0x20 [0, 1] permR 32 .load false 0x60 (xAt (inPage rig) 0x60 .load) ∧ hits (sec0 (inPage rig) 0x60).2 0x60 .load = true ∧
    (xAt (inPage rig) 0x78 .load).un = false ∧ (xAt (inPage rig) 0x78 .load).ms = false ∧ answers (checkCap (getC rig 3) [0] permR (memAddr (getC rig 3) 0) 1) (fun _ => true) = false ∧
    (prefXlat (inPage rig) (whoOf 0 rig) (memAddr (getC rig 1) 0).toNat).isSome = true ∧ accessHeld (sec0 (inPage rig) 0x60).2 (whoOf 0 rig) (xAt (inPage rig) 0x60 .load) false = false ∧ (sec0 (sec0 (inPage rig) 0x60).2 0x60).1.poison = false ∧
    (prefXlat (inPage rig) (whoOf 0 rig) (memAddr (getC rig 1) 0).toNat).map (fun x => accessHeld (inPage rig) (whoOf 0 rig) x false) = some false ∧ prefXlat (inPage rig) (whoOf 0 rig) (memAddr (getC rig 5) 0).toNat = none := by
  refine ⟨⟨?_, rfl, ?_, ?_, hits_iff _ _ _ ?_, ?_, ?_, ?_⟩, ⟨?_, ?_⟩, ?_, ?_, ⟨?_, rfl, ?_, ?_, hits_iff _ _ _ ?_, ?_, ?_, ?_⟩, ?_, ?_, ?_, ?_, ?_, ?_, ?_, ?_, ?_⟩ <;>
    decide +kernel
theorem test_hyp_Stores : reaches (inPage rig) rig (getC rig 1) 0x3F [0, 1] permW 1 .store false 0x7F (xAt (inPage rig) 0x7F .store) ∧ readOpd rig (.c 3) = .ok (0x8877665544332211, rig) ∧
    reaches (inPage rig) rig (getC rig 1) 0 [0, 1] permW 32 .store false 0x40 (xAt (inPage rig) 0x40 .store) ∧ hasPerm (getC rig 1).bits permC = true ∧
    hasPerm (getC rig 4).bits permG = true ∧ (xAt (inPage rig) 0x40 .store).ct = true := by
  refine ⟨⟨?_, rfl, ?_, ?_, hits_iff _ _ _ ?_, ?_, ?_, ?_⟩, rfl, ⟨?_, rfl, ?_, ?_, hits_iff _ _ _ ?_, ?_, ?_, ?_⟩, ?_⟩ <;> decide +kernel
/-- a byte stored is read back with its sign, and a tag survives a copy by STC and LDC -/
theorem test_store_then_load : goes (exec (.st ax ⟨.c 0, 1, .c 3, 0, 0, false, 1⟩) (inPage (put rig 3 0x80)))
      (fun s => goes (exec (.ld ax ⟨.c 9, 1, .c 0, 0, 0, true, 1⟩) s) (fun s => reg s 9 == 0xFFFFFFFFFFFFFF80)) = true ∧
    goes (exec (.stc ax ⟨.c 0, 1, .c 4, 0, 0, false, 0⟩) (inPage rig))
      (fun s => goes (exec (.ldc ax ⟨.c 9, 1, .c 0, 0, 0, false, 0⟩) s) (fun s => regTag s 9 && reg s 9 == 0x100)) = true := by decide +kernel
theorem test_hyp_StoredBytes : (xAt (inPage rig) 0x78 .store).pa % 64 + 8 ≤ 64 ∧ (xAt (inPage rig) 0x78 .store).ms = false ∧ (xAt (inPage rig) 0x78 .store).so = false ∧
    ({ xAt (inPage rig) 0x78 .store with ms := true } : Xlat).pa % 64 + 8 ≤ 64 ∧ memWf (inPage rig).mem = true ∧ setFrom none ((inPage rig).mem.l2.map (·.1)) = true ∧
    (hbmRead (inPage rig).mem ((xAt (inPage rig) 0x78 .store).pa / 64)).poison = false ∧ mfind (Machine.core (inPage rig) 0).l1 (0x10040 / 64) = none ∧
    mfind (inPage rig).mem.l2 ((xAt (inPage rig) 0x78 .store).pa / 64) = none := by decide +kernel
theorem test_hyp_EvictionIsInvisible : memInv { State.reset.mem with l2 := [(5, { data := 7, dirty := true, tags := 1, poison := false }), (6, { data := 7, dirty := false, tags := 1, poison := false })] } := by
  simp only [memInv]; decide +kernel
theorem test_hyp_AccessFaults : Runs ax (inPage rig) rig ∧ checkCap (getC rig 3) [0, 1] permR (memAddr (getC rig 3) 0) 8 = .error (capFault .tag (memAddr (getC rig 3) 0)) ∧
    checkCap (getC rig 1) [0, 1] permW (memAddr (getC rig 1) 1) 8 = .ok () ∧ (memAddr (getC rig 1) 1).toNat % 8 ≠ 0 := ⟨⟨by decide +kernel, by decide +kernel⟩, rfl, rfl, by decide +kernel⟩
theorem test_hyp_CapabilityChecks : (getC rig 1).tag = true ∧ capKind (getC rig 1).bits ∈ [0, 1] ∧ capKind (getC rig 1).bits ∉ [1] ∧ capSeal (getC rig 1).bits = 0 ∧
    capSeal (withSeal (getC rig 1).bits 3) ≠ 0 ∧ capPerms (withPerms (getC rig 1).bits 0) &&& permR ≠ permR ∧ capPerms (getC rig 1).bits &&& permR = permR ∧
    0xFFF8 + 8 ≤ capLimit (getC rig 1).bits ∧ ¬(0xFFF9 + 8 ≤ capLimit (getC rig 1).bits) := by decide +kernel
def clusterHas : State := setCluster (on rig) 0 { clusterReset with tlb := tlb3 }
theorem test_hyp_TranslationByTlbs : (Machine.core (inPage rig) 0).missEnd = [] ∧ tlbFind (Machine.core (inPage rig) 0).tlb 1 0xFFFF = some ⟨1, 0, leaf0, 0⟩ ∧
    (Machine.core clusterHas 0).missEnd = [] ∧ tlbFind (Machine.core clusterHas 0).tlb 1 0 = none ∧ tlbFind (cluster clusterHas (clusterOf 0)).tlb 1 0 = some ⟨1, 0, leaf0, 0⟩ ∧
    tlbFind (Machine.core clusterHas 0).tlb 1 0x20000 = none ∧ tlbFind (cluster clusterHas (clusterOf 0)).tlb 1 0x20000 = none := by decide +kernel

/-- a linear FP32 stream in s1 and s2, over page 0, eight elements long; s3 a walk of a skip descriptor -/
def lin : Stream := { kind := .strided [] [], cap := (capOf 0x40 0x7F 0 0x10000 0).bits, ebits := 32, count := 8, pos := 0 }
def streams : Thread := { setS (setS rig 1 (some lin)) 2 (some lin) with slice := [] }
def descState (bs : List Byte) : State := let s := inPage streams
  setMem s { s.mem with cells := writeCells [] 0x10040 bs }
/-- c1's descriptor for SDEF: one dimension of 8 elements of 4 bytes; for SDEFW: a 1 by 1 window over a 4 by 4 by 1 field of FP16 -/
def sdefDesc : List Byte := [1, 0, 0, 0, 0, 0, 0, 0] ++ toBytes 4 8 ++ List.replicate 20 0 ++ toBytes 8 4 ++ List.replicate 24 0
def sdefwDesc : List Byte := [4, 0, 4, 0, 1, 0, 1, 1, 1, 1, 0, 0, 4, 0, 4, 0] ++ toBytes 4 0 ++ [16, 0, 0] ++ List.replicate 41 0
theorem test_hyp_StreamInstructions_definitions : Runs ax (inPage streams) streams ∧ checkHandle (getC streams 1) [0, 1] 0 = .ok () ∧
    capBase (getC streams 1).bits ≤ curOf (getC streams 1) ∧ curOf (getC streams 1) < capLimit (getC streams 1).bits ∧ curOf (getC streams 1) % ((elemBitsOf 0 + 7) / 8) = 0 ∧
    answers (defineStream streams 1 lin) (fun _ => true) = true ∧ answers (sdefStrided (whoOf 0 streams) (getC streams 1) (getC streams 1) 32 (descState sdefDesc)) (fun x => x.1.count == 8) = true ∧
    answers (aDesc (whoOf 0 streams) (getC streams 1) (descState sdefwDesc)) (fun x => x.1 == sdefwDesc) = true ∧ windowOk (windowOf sdefwDesc) (byteAt sdefwDesc 22) = true ∧
    zeroBytes sdefwDesc 23 41 = true ∧ curOf (getC streams 1) + (windowOf sdefwDesc).H * (windowOf sdefwDesc).W * (windowOf sdefwDesc).C * 2 ≤ capLimit (getC streams 1).bits ∧
    checkHandle (getC streams 4) [1] permR = .ok () ∧ curOf (getC streams 4) % 2 = 0 ∧ capLimit (getC streams 4).bits % 2 = 0 := by
  refine ⟨⟨?_, ?_⟩, rfl, ?_, ?_, ?_, ?_, ?_, ?_, ?_, ?_, ?_, rfl, ?_⟩ <;> decide +kernel
theorem test_hyp_StreamInstructions_moves : accessStream streams 1 = some lin ∧ isElems lin.kind = true ∧ isStrided lin.kind = true ∧ checkHandle ⟨lin.cap, true⟩ [0, 1] permR = .ok () ∧
    (getL streams 0).length < 32 ∧ answers (aElems (whoOf 0 streams) lin lin.pos (128 / lin.ebits) (descState sdefDesc)) (fun x => x.1 == [1, 0, 8, 0]) = true ∧
    checkHandle ⟨lin.cap, true⟩ [0, 1] permW = .ok () ∧ answers (aElemsStore (whoOf 0 streams) lin 4 [1, 2, 3, 4] (descState sdefDesc)) (fun _ => true) = true := by
  refine ⟨?_, ?_, ?_, rfl, ?_, ?_, rfl, ?_⟩ <;> decide +kernel
theorem test_hyp_StreamInstructions_order : streams.slice = [] ∧ ({ streams with slice := [.word 0 0] } : Thread).slice ≠ [] ∧
    pendingDef 1 ({ streams with slice := [.word 0 0] } : Thread).slice = none ∧ pendingDef 1 ({ streams with slice := [.word 0 0, .sdef 1 lin] } : Thread).slice ≠ none := by decide +kernel

/-! ## Fences, scratch lines, atomics -/

theorem test_hyp_FencesAndLines : Runs ax (inPage rig) rig ∧ (4 : BitVec 3) ≠ 5 ∧ rig.opn.peers = [] ∧ sysWaits (inPage rig) 0 1 5 = false ∧ capBase (getC rig 1).bits ≤ curOf (getC rig 1) ∧
    checkHandle (getC rig 1) [0] permR = .ok () ∧ answers (aSpans (whoOf 0 rig) .load (fun e => permits e .load) 2 0x40 0x10000 (inPage rig)) (fun x => x.1 == [(0x400, 0x800)]) = true ∧
    checkHandle (getC rig 1) [0] (permR ||| permW) = .ok () ∧ (0x100 : Nat) % 256 = 0 ∧
    answers (aLines (getC rig 4) (inPage rig)) (fun x => x.1 == [1, 2] && x.2 == inPage rig) = true ∧ (Machine.core (inPage rig) 0).pinned = [] ∧
    pinnedWays (Machine.core (inPage rig) 0) 1 [1, 2] ≤ 15 := by
  refine ⟨⟨?_, ?_⟩, ?_, ?_, ?_, ?_, rfl, ?_, rfl, ?_, ?_, ?_⟩ <;> decide +kernel
/-- fifteen lines of set 1 are pinned by others -/
def crowded : State := setCore (inPage rig) 0 { Machine.core (inPage rig) 0 with pinned := (List.range 15).map (fun i => 65 + 64 * i) }
theorem test_hyp_FencesAndLines_full : answers (aLines (getC rig 4) crowded) (fun x => x.1 == [1, 2] && x.2 == crowded) = true ∧ 15 < pinnedWays (Machine.core crowded 0) (1 % 64) [1, 2] := by decide +kernel
theorem test_spalloc_and_spfree : goes (exec (.spalloc ax ⟨8, 4⟩) (inPage rig)) (fun s => (curThread s).map (fun t => (getP t 8, t.opn.scratch)) == some (true, [1, 2]) &&
    goes (exec (.spfree ax ⟨0, 4⟩) s) (fun s => (curThread s).map (·.opn.scratch) == some [])) = true := by decide +kernel
theorem test_hyp_AtomicsAndReductions : reaches (feat (inPage rig)) rig (getC rig 1) 0x38 [0] (permR ||| permW) 8 .atomic true 0x78 (xAt (feat (inPage rig)) 0x78 .atomic) ∧
    (feat (inPage rig)).host.on1.getLsbD 10 = true ∧ (feat (inPage rig)).host.on1.getLsbD 11 = true ∧ (feat (inPage rig)).host.on1.getLsbD 13 = true ∧
    orderWaits (feat (inPage rig)) (whoOf 0 rig) ((xAt (feat (inPage rig)) 0x78 .atomic).pa / 64) true true 5 = false ∧
    (atHome (beforeRead (feat (inPage rig)) 0 1 true (xAt (feat (inPage rig)) 0x78 .atomic)) (xAt (feat (inPage rig)) 0x78 .atomic)).poison = false ∧
    (inPage rig).cur.core < 1024 ∧ answers (aRedWord (whoOf 0 rig) ⟨5, .c 3, 0⟩ rig 0 4 (feat (inPage rig))) (fun _ => true) = true ∧
    answers (aRedWord (whoOf 0 rig) ⟨5, .c 3, 0⟩ rig 0 4096 (feat (inPage rig))) (fun _ => true) = true := by
  refine ⟨⟨?_, rfl, ?_, ?_, hits_iff _ _ _ ?_, ?_, ?_, ?_⟩, ?_, ?_, ?_, ?_, ?_, ?_, ?_, ?_⟩ <;> decide +kernel
theorem test_hyp_AtomicsAndReductions_sum : checkCap (getC rig 5) [0] permR 0x11000 4096 = .ok () ∧ hits (feat (inPage rig)) 0x11000 .load = true ∧ (xAt (feat (inPage rig)) 0x11000 .load).rd = true ∧
    accessHeld (feat (inPage rig)) (whoOf 0 rig) (xAt (feat (inPage rig)) 0x11000 .load) true = false ∧
    wordPoison (wordFill (whoOf 0 rig) (xAt (feat (inPage rig)) 0x11000 .load).pa (feat (inPage rig))).mem (xAt (feat (inPage rig)) 0x11000 .load).pa = false ∧ (feat (inPage rig)).host.on1.getLsbD 11 = true := by
  refine ⟨rfl, ?_⟩; decide +kernel
/-- ACAS takes the new value when the old one matches; AMIN is signed; RADD adds in FP32 -/
theorem test_atomics : goes (exec (.acas ax ⟨9, 1, .c 0, .c 3, 0, 5, true, 0⟩) (feat (inPage rig))) (fun s => homeByte s.mem 0x10040 == 0x11) = true ∧
    goes (exec (.amin ax ⟨9, 1, .imm 0, .c 0, 0, 5, false, 0⟩) (feat (inPage rig))) (fun s => homeByte s.mem 0x10043 == 0xFF && reg s 9 == 0) = true ∧
    goes (exec (.radd ax ⟨5, .c 3, 0⟩) (feat (inPage (put rig 3 0x3F800000)))) (fun s => homeByte s.mem 0x21003 == 0x3F) = true := by decide +kernel
end

/-! ## Counters, phasers, messages, queues, sequences -/
section
open Sys2Proof.Claims

/-- c1 a stock counter 5 of die 0, c2 phaser 3 of cluster 0, c3 event queue 0, c4 queue 0 of frame 1, c5 a sequence handle, c6 memory in
page 0, c7 data 4, c8 the Kiln inbox -/
def stockCap : CReg := stockHandleOf 0 5 1
def hand : Thread := setC (put (setC (setC (setC (setC (setC (setC fire 1 stockCap) 2 (phaserHandle false 0 3)) 3 (handleOf 7 0)) 4 (queueHandle 1 1 0)) 5
  (capOf 0x200 0x7F 0x200 0x201 6)) 6 (capOf 0x40 0x7F 0 0x10000 0)) 7 4) 8 (handleOf 8 8)
def ctx1 : Ctx := newCtx State.reset [] schedReset
def anEvent : Event := { rcd := { tag := 5, status := 0, engine := 1, ctx := 1, bytes := 64, result := 0 }, scope := 4, raw := none }
def q0 : Queue := { depth := 4, item := 16, exported := true, items := [], claimed := 0, reserved := 0, nextOrd := 0 }
def stage0 : Stage := { entry := capOf 0 0x7F 0 0x10000 0, level := 0, prio := 0, restart := false, gang := false, reentrant := false, coordReg := 0, minc := 0, maxc := 1,
                         argMask := 0, overrun := 0, carried := 0, ins := [0], outs := [], cons := [1], prod := [], args := [], suspended := false }
def batch1 : Batch := { id := 1, stage := 0, coord := 0, desc := stage0, ins := [], outs := [], refire := false, cluster := 0, preempted := false, committed := false, since := 0 }
def frame1 : Frame := { number := 1, ctx := 1, tag := 7, cluster := 0, levels := [], stages := [stage0], queues := [q0], phasers := [], trapStage := 255, endReply := .none,
                         insts := [], withdrawn := false, killed := false, batches := [batch1], tiles := (0, 0) }
def ph (ms : List PhMember) : Phaser := { frame := 1, ctx := 1, phase := 5, members := ms, pending := 0, gather := none, sums := List.replicate 8 0, contributors := 0, due := false }
def me (m : PhMode) : PhMember := ⟨1, 0, 0, m, false, []⟩
def ctr5 : Counter := { owner := some 1, b := 100, rf := 10, h := 50, presence := [0], overfill := false, queue := [], recalling := none, grants := [], lastProbe := 0 }
def seq1 : Seq := { id := 1, die := 0, ctx := 1, desc := 0x200, forkLen := none, parent := none, opn := true, jopen := false }
/-- context 1 with its event, frame, phaser, counter and, when `q`, its open sequence -/
def world (q : Bool) (ms : List PhMember) (t : Thread) : State :=
  let s := on t
  let s := setCore s 0 { Machine.core s 0 with tlb := tlb3, allow := [{ ctx := 1, ctr := 5, a := 4, pinned := false, present := true, idleSince := 0 }] }
  let s := setCluster s 0 { clusterReset with phasers := [(3, ph ms)] }
  let s := setDie s 0 { dieReset with counters := [(5, ctr5)] }
  let s := setCtx s 1 { ctx1 with events := [(0, [anEvent])] }
  setWork { s with host := { s.host with on2 := BitVec.allOnes 128, state := .ready } } { s.work with frames := [frame1], seqs := if q then [seq1] else [] }
def answered (v : W128) : Thread := { hand with blockA := .request 9 (some v) }
theorem test_hyp_StockInstructions_answered : Runs ax (world false [] (answered 1)) (answered 1) ∧ (answered 1).blockA = .request 9 (some 1) := ⟨⟨by decide +kernel, by decide +kernel⟩, rfl⟩
theorem test_hyp_StockInstructions : Runs ax (world false [] hand) hand ∧ hand.blockA = .none ∧ stockHandle (getC hand 1) permW = .ok 5 ∧ stockHandle (getC hand 1) permR = .ok 5 ∧
    stockHandle (getC hand 1) permX = .ok 5 ∧ (ctrOf (world false [] hand) 5).recalling = none ∧ mayUse (world false [] hand) 0 1 5 = true ∧ mayUse (on hand) 0 1 5 = false ∧
    allowOf (world false [] hand) 0 1 5 = some { ctx := 1, ctr := 5, a := 4, pinned := false, present := true, idleSince := 0 } ∧ 0 < (readCI hand (.c 7)).toNat ∧
    (readCI hand (.c 7)).toNat < 2 ^ 47 ∧ (readCI hand (.c 7)).toNat ≤ 4 ∧ (4 : Nat) < (readCI hand (.imm 69)).toNat ∧ readCI hand (.imm 64) = 0 := by
  refine ⟨⟨?_, ?_⟩, ?_, rfl, rfl, rfl, ?_⟩ <;> decide +kernel
/-- a take the allowance covers leaves the rest there; a read of the estimate shows H (R147, R149) -/
theorem test_stock : goes (exec (.stktake ax ⟨8, 0, 1, .c 7, .c 0, false⟩) (world false [] hand)) (fun s =>
      (curThread s).map (getP · 8) == some true && (Machine.core s 0).allow.map (·.a) == [0]) = true ∧
    goes (exec (.stkreadApprox ax ⟨0, 9, 1, .c 0, .c 0, false⟩) (world false [] hand)) (fun s => reg s 9 == 50) = true := by decide +kernel
theorem test_hyp_PhaserInstructions : Runs ax (world false [] hand) hand ∧ phCheck (getC hand 2) hand (world false [] hand) = .ok (⟨false, 0, 3⟩, ph []) ∧
    phCheck (getC hand 2) hand (world false [me .sw] hand) = .ok (⟨false, 0, 3⟩, ph [me .sw]) ∧ memberOf (ph []) hand.id = none ∧ (ph []).members.length < 256 ∧
    phGet (world false [] hand) ⟨false, 0, 3⟩ = some (ph []) ∧ memberOf (ph [me .sw]) hand.id ≠ none ∧ maySignal (memberOf (ph [me .sw]) hand.id) = true ∧
    signalled (ph [me .sw]) hand.id = false ∧ drainWaits (world false [me .sw] hand) 0 1 = false ∧ mayWait (memberOf (ph [me .sw]) hand.id) = true ∧ passed (ph [me .sw]) ((readCI hand (.c 7)).setWidth 32) = true ∧
    (readCI hand (.c 7)).toNat < 2 ^ 47 ∧ ({ hand with blockA := .signalled 4 } : Thread).blockA = .signalled 4 ∧ phFull (ph [me .wait, me .sig]) = false ∧
    phFull (ph [{ me .sig with signalled := true }]) = true := by refine ⟨⟨?_, ?_⟩, rfl, rfl, ?_⟩ <;> decide +kernel
/-- the only member signals: the phase advances to 6 (R137) -/
theorem test_phaser_advances : goes (exec (.phsig ax ⟨0, 0, 2, .c 0, 0⟩) (world false [me .sw] hand)) (fun s => (phGet s ⟨false, 0, 3⟩).map (·.phase) == some 6) = true := by decide +kernel
/-- `CPY` of page 0, its reply to event queue 0, with tag 5 -/
def cpyO : EngOps := { eng0 with d := 3, a := 6, b := .c 6, tag := 5 }
def posts (s : State) (e : EngineId) (i : Instr) (o : EngOps) (t : Thread) : Bool := (pushInbox (releaseFor o.rel 0 t.id.ctx s) e (cmdOf i o t s)).isSome
def okRes {α : Type} (r : Except Stop α) : Bool := answers r (fun _ => true)
/-- every command of R450 on such operands: A a memory, sequence or queue handle, B memory -/
def operandsOf (i : Instr) : EngOps := match i with
  | .kvapp _ _ | .kvseal _ _ | .kvpatch _ _ | .kvfork _ _ | .kvtrunc _ _ | .kvstat _ _ | .kvjopen _ _ | .kvjmark _ _ | .kvjundo _ _ | .kvjclose _ _ | .edins _ _ | .eddel _ _
  | .edrep _ _ | .settle _ _ | .wmark _ _ | .cprot _ _ => { cpyO with a := 5 }
  | .rebind _ _ => { cpyO with a := 4 }
  | _ => cpyO
theorem test_hyp_EngineCommandsPost : commands.all (fun p =>
    let o := operandsOf (p.1 ax cpyO)
    let s := world true [] hand
    okRes (replyCheck hand o.d p.2.1) && okRes (p.2.2.1 o hand) && okRes (p.2.2.2.1 o hand) && !releaseWaits o.rel 0 1 s && posts s (p.2.2.2.2 o hand s) (p.1 ax o) o hand) = true := by decide +kernel
/-- a page in the window of channel 3, with BL set -/
def bankLeaf : W64 := 0xBE20000000000000 ||| BitVec.ofNat 64 (linearBase 3)
def banked : State := let s := on hand
  setCore s 0 { Machine.core s 0 with tlb := [⟨1, 0, bankLeaf, 0⟩] }
theorem test_hyp_EngineCommandsPost_bank : okRes (replyCheck hand 3 [3, 7]) = true ∧ okRes (checkHandle (getC hand 6) [0] (permR ||| permW ||| permC ||| permE)) = true ∧
    answers (bankPage cpyO [.load, .store] (whoOf 0 hand) hand banked) (fun x => x.1 == (linearBase 3 + 0x40, 65536) && posts x.2 (.bank (channelOfPa x.1.1)) (.bkadd ax cpyO) cpyO hand) = true ∧
    answers (bankPage cpyO [.store] (whoOf 0 hand) hand banked) (fun _ => true) = true := by decide +kernel
def sendO (cmd : BitVec 27) : EngOps := { eng0 with a := 8, b := .c 0, cmd := cmd }
theorem test_hyp_EngineCommandsPost_send : okRes (sendTarget (getC hand 8) 0 0) = true ∧ okRes (sendReply hand (sendO 0)) = true ∧ sendLen (world true [] hand) (getC hand 8) 0 = 0 ∧
    (sendO (1#27 <<< 26)).cmd.getLsbD 26 = true ∧ hand.opn.deferred.length < 16 ∧ releaseWaits true 0 1 (world true [] hand) = false ∧ (sendO 0).cmd.getLsbD 26 = false ∧
    (sendMessage (world true [] hand) 0 1 { target := getC hand 8, reply := cZero, acq := false, rel := false, scope := 0, tag := 0, op := 0, body := [], bodyTags := [] }).isSome = true := by decide +kernel
theorem test_hyp_QueuesOfEventsAndFrames : Runs ax (world true [] hand) hand ∧ evHandle (getC hand 3) = .ok 0 ∧ eventsOf (world true [] hand) 1 0 = anEvent :: [] ∧
    eventsOf (on hand) 1 0 = [] ∧ (getInQ queued 0).used = true ∧ (readCI queued (.c 0)).toNat + 8 ≤ (getInQ queued 0).bytes.length ∧
    (queueOfInput (world true [] queued) queued 0).isSome = true ∧ okRes (checkHandle (getC hand 4) [3] permW) = true ∧
    findFrame (world true [] hand) (handleCtx (getC hand 4)) (handleFrame (getC hand 4)) = some frame1 ∧ queueAt frame1 (handleQueue (getC hand 4)) = some q0 := by
  refine ⟨⟨?_, ?_⟩, rfl, ?_⟩ <;> decide +kernel
/-- EVPOP takes the record: c9 holds its result, bytes and tag (R417) -/
theorem test_evpop : goes (exec (.evpop ax ⟨.c 9, 3⟩) (world true [] hand)) (fun s => (eventsOf s 1 0).isEmpty &&
    (curThread s).map (fun t => (getC t 9).bits.extractLsb' 64 64) == some 64) = true := by decide +kernel
def hold1 : Hold := { batch := 1, pos := 0, core := 0, seq := 1, layer := 2, b := 0, first := 0, count := 1, mode := .before, gen := 0, granted := true, cols := [0], req := 4,
                      frozen := true, length := 8, blocks := [{ group := 0, recVa := 0x300, page := 0x10000, seasoned := false, slots := [(0, 0)] }], walked := [], freed := false }
def holding : State := let s := world true [] hand
  setWork s { s.work with holds := [hold1] }
theorem test_hyp_ValidityInstructions : Runs ax (world true [] (answered 5)) (answered 5) ∧ (answered 5).blockA = .request 9 (some 5) ∧ (5 : W128) ≠ BitVec.allOnes 128 ∧
    getF (answered 5) 1 = .empty ∧ (answered (BitVec.allOnes 128)).blockA = .request 9 (some (BitVec.allOnes 128)) ∧ okRes (checkHandle (getC hand 5) [6] 0) = true ∧
    seqOfHandle (world false [] hand) 1 (getC hand 5) = none ∧ seqOfHandle (world true [] hand) 1 (getC hand 5) = some seq1 ∧
    (myHolds holding hand seq1 2).find? (fun h => h.b == readCI hand (.c 0)) = some hold1 ∧
    (pushInbox holding (.scribe 0) (askCmd (.wfree ax ⟨8, 5, .c 0, 2⟩) (getC hand 5) cZero (toBytes 8 4) hand holding)).isSome = true := by
  refine ⟨⟨?_, ?_⟩, ?_⟩ <;> decide +kernel
/-- WFREE of a hold the firing has gives true, and false for a closed sequence (R283) -/
theorem test_wfree : goes (exec (.wfree ax ⟨8, 5, .c 0, 2⟩) holding) (fun s => (curThread s).map (getP · 8) == some true) = true ∧
    goes (exec (.wfree ax ⟨8, 5, .c 0, 2⟩) (world false [] hand)) (fun s => (curThread s).map (getP · 8) == some false) = true := by decide +kernel
def walkD (pos : Nat) : Stream := { kind := .kiln 1 2 0 8 [0] (some hold1.blocks), cap := 0, ebits := 256, count := 1, pos := pos }
def walker (pos : Nat) : Thread := setS hand 1 (some (walkD pos))
theorem test_hyp_KilnWalks_closed : Runs ax (world false [] hand) hand ∧ okRes (checkHandle (getC hand 5) [6] permR) = true ∧ seqOfHandle (world false [] hand) 1 (getC hand 5) = none ∧
    okRes (defineStream hand 1 (kilnStream (getC hand 5) 0 2 0 0 [] none)) = true := by refine ⟨⟨?_, ?_⟩, ?_⟩ <;> decide +kernel
/-- its descriptor in page 0: depth 0, two layers, one head of 64, blocks of 16 tokens, columns of one, ROPE 2.0, LENGTH 8 -/
def seqDesc : List Byte := toBytes 4 0x5345514B ++ [1, 0, 2, 0, 1, 6, 4, 0] ++ toBytes 4 0x40000000 ++ toBytes 4 8
/-- its validity map at 0x1000: eight columns, two layers, every cell valid -/
def mapHead : List Byte := toBytes 4 0x56414C4D ++ toBytes 4 8 ++ toBytes 2 2
/-- a capability over page 0 in its slot, page 0 standing at 0x10000 -/
def slotAt (va : Nat) (cursor : W64) (l : List Host.Cell) : List Host.Cell := writeCells l (0x10000 + va) (toBytes 24 (mkCap 0 0x7F 0 0x10000 cursor).toNat)
/-- descriptor, map and a position table of no runs and CAP 8, with its capabilities: MODEL at 0x800, POSROOT at 0x2000, POOL,
DIRTY at 0x1000, RNG -/
def openCells : List Host.Cell :=
  slotAt 0x2C0 0x600 (slotAt 0x280 0x1000 (slotAt 0x260 0 (slotAt 0x240 0x2000 (slotAt 0x220 0x800 (writeCells (writeCells (writeCells [] 0x10200 seqDesc) 0x11000 mapHead) 0x12004 (toBytes 4 8))))))
def openTags : List Nat := [0x811, 0x812, 0x813, 0x814, 0x816]
def opened : State := let s := holding
  setCluster (setMem s { s.mem with cells := openCells, tags := openTags }) 0 { cluster s 0 with tlb := tlb3 }
theorem test_hyp_KilnWalks_open : (0 : Nat) < 1 ∧ answers (sdefkWalk (getC hand 5) hand 2 0 1 seq1 opened) (fun x => (x.1.map (·.kind)) == some (.kiln 1 2 0 1 [0] (some hold1.blocks)) &&
      (x.1.map (fun d => okRes (defineStream hand 1 d))) == some true) = true ∧
    answers (walkItem seq1 2 0 8 (some hold1.blocks) 0 opened) (fun x => x.1 == (0x00000000000003000000000000010000, 1)) = true := by decide +kernel
theorem test_hyp_KilnWalks : accessStream (walker 0) 1 = some (walkD 0) ∧ (walkD 0).kind = .kiln 1 2 0 8 [0] (some hold1.blocks) ∧ (getL (walker 0) 0).length + 2 ≤ 32 ∧ [0][(walkD 0).pos]? = some 0 ∧
    seqOf holding 1 = some seq1 ∧ [0][(walkD 1).pos]? = none := by decide +kernel

/-! ## The wide unit, tiles, gangs, drains -/

theorem test_hyp_WideDispatch : Runs ex (on streams) streams ∧ (wForm (.vfill ex { vec0 with d := .s 1, a := .c 3 })).isSome = true ∧
    okRes (issueWide (.vfill ex { vec0 with d := .s 1, a := .c 3 }) (form1 { vec0 with d := .s 1, a := .c 3 }) 0 streams) = true ∧
    okRes (issueWide (.vadd ex { vec0 with d := .s 1, a := .s 2, b := .c 3 }) (form2 { vec0 with d := .s 1, a := .s 2, b := .c 3 }) 0 streams) = true := by
  refine ⟨⟨?_, ?_⟩, ?_⟩ <;> decide +kernel
/-- VFILL of eight FP32 elements of page 0, dispatched and stepped to its end -/
def fillI : Instr := .vfill ex { vec0 with d := .s 1, a := .c 3 }
def filled : Thread := match issueWide fillI (form1 { vec0 with d := .s 1, a := .c 3 }) 0 (put streams 3 0x3F800000) with | .ok t => t | .error _ => fire
def fillS : State := { inPage filled with cur := eventCur (.ix 0) }
theorem test_hyp_WideUnitSteps : fillS.cur.arg = .ix 0 ∧ ([0, 1, 2, 3].map (fun i => (mget 0 fillS.wideRr 0 + i) % 4)).find? (fun i => wideBusy fillS (0 * 4 + i)) = some 0 ∧
    (Machine.core fillS 0).orphans = [] ∧ threadOf fillS 0 = some filled ∧ filled.wide.length = 1 ∧
    answers (wideStep (whoOf 0 filled) (filled.wide.headD default) { fillS with wideRr := [(0, 1)] }) (fun x => x.1.done == 8 && threadOf x.2 0 == some filled) = true ∧
    vec0.fmt.toNat ≤ 2 := by decide +kernel
/-- the last element of the fill is 1.0 in FP32 as the core sees it -/
theorem test_vfill : goes (exec .wideUnitStep fillS) (fun s => coreByte s 0 0x1005F == 0x3F && coreByte s 0 0x10060 == 0) = true := by decide +kernel
def atTile (i : Nat) : Thread := { queued with blockE := .tile i [] }
theorem test_hyp_TileInstructions : Runs ex (on (atTile 1021)) (atTile 1021) ∧ (atTile 1021).blockE = .tile 1021 [] ∧ 1024 ≤ 1021 + (getL (atTile 1021) 1).length ∧
    (getL (atTile 1020) 1).length < 1024 - 1020 ∧ 1024 - 995 ≤ 32 - (getD (atTile 995) 0).length ∧ findFrame (world true [] hand) 1 1 = some frame1 := by
  refine ⟨⟨?_, ?_⟩, ?_⟩ <;> decide +kernel
/-- a gang of batch 1 on cores 0 to 3, each at the barrier of the same word -/
def ganger (p : BitVec 2) (w : IWord) : Thread := { streams with id := { fireId with pos := p, gang := true }, blockE := .barrier, slice := [.word 0 w] }
def gangS (w : IWord) : State := { (List.range 4).foldl (fun s k => setCore s k { coreReset with tlb := tlb3, thread := some (ganger (BitVec.ofNat 2 k) w) }) State.reset with cur := atWord 0 0 w 0 }
/-- MGANG 2, and an MMUL of the spec's words: m0 of s1 and s2 in FP32 -/
def wGang : IWord := encode (.mgang ex ⟨2⟩)
def mmulO : MatOps := ⟨.m 0, .s 1, .s 2, .c 0, false, 0, false, 0, 1, 1, 0, 0⟩
def mgrpO : MatOps := { mmulO with tc := .c 0 }
theorem test_hyp_GangInstructions : curThread (gangS wGang) = some (ganger 0 wGang) ∧ (ganger 0 wGang).blockE = .barrier ∧ (gangThreads (gangS wGang) 0 1).length = 4 ∧
    (gangThreads (gangS wGang) 0 1).all (fun x => arrived x.2 && x.2.blockE == .barrier) = true ∧ keysMatch (gangThreads (gangS wGang) 0 1) = true ∧
    (gangThreads (gangS wGang) 0 1).all (fun x => x.2.opn.section_ == 0) = true ∧
    answers (mmulEff mmulO 0 1 (gangS (encode (.mmul ex mmulO)))) (fun _ => true) = true ∧
    answers (mgrpEff mgrpO 0 1 (gangS (encode (.mgrp ex mgrpO)))) (fun _ => true) = true := by decide +kernel
theorem test_mgang_opens_a_section : goes (exec (.mgang ex ⟨2⟩) (gangS wGang)) (fun s => (List.range 4).all (fun k => (threadOf s k).map (·.opn.section_) == some 2)) = true := by decide +kernel
/-- c1 the carried tile 2 of stage 0, coordinate 1 of frame 1; c4 64 bytes of scratch -/
def drainT : Thread := setC (setC hand 1 (capOf ((1 <<< 11) + 2) 0x7F 1 2 2)) 4 (capOf 0x100 0x7F 0x100 0x300 1)
def drainD : Drain := drainTo (getC drainT 1) false none (getM drainT 0) drainT
theorem test_hyp_Drains : Runs ex (world true [] drainT) drainT ∧ okRes (checkHandle (getC drainT 1) [2] permW) = true ∧ ownInst drainD drainT.id = false ∧
    drainLive (world true [] drainT) drainD = true ∧ ((world true [] drainT).work.drains.filter (sameTile drainD)).length < 8 ∧ drainLive (on drainT) drainD = false := by
  refine ⟨⟨?_, ?_⟩, ?_⟩ <;> decide +kernel
/-- the thread owns scratch lines 1 and 2: one row of FP32 stored there -/
def drainS : Thread := { drainT with opn := { drainT.opn with scratch := [1, 2] } }
theorem test_hyp_Drains_store : wideClash (on drainS) 0 drainS (.mdrain ex { dr0 with a := .c 4, km1 := 0 }) = false ∧
    answers (mdrainAM { dr0 with a := .c 4, km1 := 0 } (whoOf 0 drainS) drainS (on drainS)) (fun _ => true) = true := by decide +kernel

/-! ## Firmware instructions -/

/-- a firmware thread on service core 0 with c1 a leaf, c2 its page, c3 context 1; a miss of that page waits -/
def tlbT : Thread := put (put (put fwThread 1 leaf0) 2 0) 3 1
def miss1 : Miss := { ctx := 1, va := 0, kind := .load, waiters := [0], merged := 1 }
def svc (t : Thread) : State := let s := setThreadOf { State.reset with cur := atWord 1024 0 0 0 } 1024 t
  setCluster s 0 { clusterReset with misses := [miss1] }
theorem test_hyp_TranslationInstructions : Runs ax (svc tlbT) tlbT ∧ tlbT.id.firmware = true ∧ entryOk (svc tlbT) (tlbwrEntry tlbT ⟨8, 1, 2, 3⟩) = true ∧
    entryOk (svc tlbT) (tlbwrEntry tlbT ⟨8, 2, 2, 3⟩) = false ∧ headMiss (svc tlbT) 1024 = some miss1 ∧ sameMiss miss1 (tlbwrEntry tlbT ⟨8, 1, 2, 3⟩) = true ∧
    headMiss (on tlbT) 0 = none ∧ vaOf (getW tlbT 2) % 65536 = 0 ∧ (getW (put tlbT 3 65536) 3).toNat ≠ 0 ∧ (getW (put tlbT 3 65536) 3).toNat % 65536 = 0 ∧
    (1023 : Nat) < (readCI (put tlbT 3 1024) (.c 3)).toNat ∧ (readCI (put tlbT 3 1023) (.c 3)).toNat ≤ 1023 ∧
    tlbT.blockA = .none ∧ drainWaits (svc (put tlbT 3 1023)) 1023 0 = false := by
  refine ⟨⟨?_, ?_⟩, ?_⟩ <;> decide +kernel
theorem test_tlbwr_fill : goes (exec (.tlbwrFill ax ⟨8, 1, 2, 3⟩) (svc tlbT)) (fun s => (cluster s 0).misses.isEmpty && (cluster s 0).tlb == [⟨1, 0, leaf0, 0⟩] &&
    (Machine.core s 0).tlb == [⟨1, 0, leaf0, 0⟩]) = true := by decide +kernel
def idler (b : Blocked) : Thread := { fwThread with blockA := b }
theorem test_hyp_HeartbeatAndIdle : Runs ax (svc fwThread) fwThread ∧ tooLate (svc fwThread) 1024 = false ∧ wakes (svc fwThread) 1024 = true ∧ wakes (on fwThread) 0 = false ∧ ({ fireId with ctx := 0 } : Ident).firmware = false ∧
    (idler (.ack 0)).blockA = .ack 0 ∧ (idler .none).blockA = .none ∧ threadOf (on (idler (.idle (some 0)))) 0 = some (idler (.idle (some 0))) ∧ 0 ≤ (on fwThread).time := by
  refine ⟨⟨?_, ?_⟩, ?_⟩ <;> decide +kernel
end

/-! ## Events

The hypothesis `imageGood … = true` of StartAndPower and ShoringPhases has no witness here: it is about the vendor's key and the
fuses, constants without a body (log 9). -/
section
open Sys2Proof.Claims

/-- the 240 bytes of a slot image, from its first ones -/
def img (bs : List Byte) : List Byte := bs ++ List.replicate (240 - bs.length) 0
def envOf (ok : Bool) : StartEnv := { fuseOk := ok, failedChannels := [], trainedPorts := [0], routes := [(2, 0)] }
theorem test_hyp_StartAndPower_start : (arg (.start 1 (envOf true)) State.reset).cur.arg = .start 1 (envOf true) ∧ (1 : W64).getLsbD 0 = true ∧ (0 : W64).getLsbD 0 = false := by decide +kernel
/-- the start in one of its steps -/
def startIn (st : HState) (ok : Bool) (bad : Nat) : State :=
  { State.reset with host := { hostReset with state := st, env := { envOf ok with failedChannels := List.range bad }, firstBeats := [1024] }, time := 50000000 }
theorem test_hyp_StartAndPower_steps : nextTurn (startIn .fuse true 0) = some (.start, setSched (startIn .fuse true 0) { State.reset.sched with rr := 1 }) ∧
    (startIn .fuse true 0).host.env.fuseOk = true ∧ (startIn .fuse false 0).host.env.fuseOk = false ∧ imageGood 1 (hostImage (startIn .romver true 0) 1) = false ∧
    960 ≤ 1024 - ((List.range 1024).filter (fun q => (startIn .hbmtrain true 64).host.env.failedChannels.contains q || (startIn .hbmtrain true 64).hbm.removed.contains q)).length ∧
    1024 - ((List.range 1024).filter (fun q => (startIn .hbmtrain true 65).host.env.failedChannels.contains q || (startIn .hbmtrain true 65).hbm.removed.contains q)).length < 960 ∧
    (startIn .eccinit true 0).mem.l2 = [] ∧ (startIn .linktrain true 0).host.state = .linktrain ∧ (startIn .imgload true 0).host.firstBeats ≠ [] ∧
    (startIn .imgload true 0).host.imgLoadAt + 50000000 ≤ (startIn .imgload true 0).time := by decide +kernel
def negotiating (a : W128) : State := { State.reset with host := { hostReset with state := .negotiate, offer := [0, 6, 1], accept1 := a } }
theorem test_hyp_StartAndPower : (negotiating 6).host.state = .negotiate ∧ (8 : W64).getLsbD 3 = true ∧ (negotiating 1).host.accept1 &&& ~~~(negotiating 1).host.offer.getD 1 0 ≠ 0 ∧
    (negotiating 4).host.accept1 &&& ~~~(negotiating 4).host.offer.getD 1 0 = 0 ∧ ((4 : W128).getLsbD 2 = true ∧ (4 : W128).getLsbD 1 = false) ∧
    (negotiating 6).host.accept1 &&& ~~~(negotiating 6).host.offer.getD 1 0 = 0 ∧ ((6 : W128).getLsbD 1 = true) := by decide +kernel
/-- Kiln and Scribe accepted together: READY; Scribe without Kiln: FCODE 2 (R42) -/
theorem test_negotiation : goes (exec .hctlNegGo (arg (.value 8) (negotiating 6))) (fun s => s.host.state == .ready && s.host.on1 == 6) = true ∧
    goes (exec .hctlNegGo (arg (.value 8) (negotiating 4))) (fun s => s.host.state == .negotiate && s.host.fcode == 2) = true := by decide +kernel
theorem test_hyp_SlotsRefusedUntilReady : State.reset.host.state ≠ .ready ∧ (arg (.post 4095 [] 7) State.reset).cur.arg = .post 4095 [] 7 ∧ (4095 : Nat) < 4096 ∧
    (slotOfHost (arg (.post 4095 [] 7) State.reset) 4095).state ≠ 1 := by decide +kernel
/-- context 1 exists and grants everything; slot 1 holds a message that pushes to a queue of its frame -/
def hosted : State := setWork (setCtx rdy 1 { ctx1 with grant := { perms := 0x7F, base := 0, limit := 2 ^ 57 } }) { workReset with frames := [frame1] }
def pushImg : List Byte := img (toBytes 12 (encode (.send ax { eng0 with d := 0, a := 0, b := .c 0 })).toNat ++ List.replicate 52 0 ++ toBytes 24 (queueHandle 1 1 0).bits.toNat)
theorem test_hyp_HostWindow : (slotOfHost (arg (.post 1 pushImg 3) hosted) 1).state ≠ 1 ∧ hosted.host.state = .ready ∧ ctxOf hosted 2 = none ∧ mgmtShapeOk (img [0x05]) = false ∧
    (ctxOf hosted 1).map (·.ending) = some false ∧ (slotOfHost (setSlot rdy 1 { slotReset with state := 1 }) 1).state = 1 ∧
    (slotOfHost (setSlot rdy 1 { slotReset with state := 0x80 }) 1).state = 0x80 ∧ (State.reset.host.mqTail - (0 : BitVec 32)).toNat ≤ State.reset.host.mqLen ∧
    State.reset.host.mqLen < (State.reset.host.mqTail - (1 : BitVec 32)).toNat ∧ (0x0020 : Nat) ∉ [0x0000, 0x0010, 0x0018, 0x0300, 0x0310] ∧ State.reset.host.state ≠ .fatal ∧
    (4 : Nat) % 2 ^ 32 % 256 = 4 ∧ (7 * 2 ^ 32 : Nat) % 256 = 0 ∧ mgmtShapeOk (img [0x04, 0, 9]) = true ∧ byteAt (img [0x04, 0, 9]) 0 = 4 ∧ rdy.host.on1.getLsbD 12 = false := by decide +kernel
/-- the message stands in slot 1 already -/
def standing : State := setSlot (arg (.ix 1) hosted) 1 { slotReset with state := 1, image := pushImg }
theorem test_hyp_HostWindow_stopped : ({ State.reset with host := { hostReset with state := .fatal } } : State).host.state = .fatal ∧ (slotOfHost standing 1).state = 1 ∧ standing.host.state = .ready := by decide +kernel
def takenOf (r : Posted) : Option State := match r with | .taken s => some s | _ => none
theorem test_hyp_HostWindow_delivered : (takenOf (deliverHost (arg (.post 1 pushImg 3) hosted) 1 { perms := 0x7F, base := 0, limit := 2 ^ 57 } pushImg)).isSome = true ∧
    (takenOf (deliverHost standing 1 { perms := 0x7F, base := 0, limit := 2 ^ 57 } (slotOfHost standing 1).image)).isSome = true := by decide +kernel
/-- the pushed item stands in the queue, and the slot is empty (R22) -/
theorem test_slot_push : goes (exec .messageSlotPost (arg (.post 1 pushImg 3) hosted)) (fun s =>
    (s.work.frames.map (fun f => f.queues.map (·.items.length))) == [[1]] && (slotOfHost s 1).state == 0 && (slotOfHost s 1).err == 0) = true := by decide +kernel
def owing (m : W64) : State := arg (.ix 3) { rdy with msix := { rdy.msix with owed := [0, 3], mask := m, pending := 8 } }
def cxlR (w : Option (List Byte)) : CxlReq := { hpa := 0x40, write := w, len := 2, unsupported := false, cached := false }
def peered (op : PeerOp) : State := arg (.peer { port := 1, peer := 2, pa := 0x100, op := op })
  { rdy with links := { rdy.links with ports := [(1, { portReset with state := .up })], routes := [(2, 1)] } }
theorem test_hyp_InterruptsAndOutsideAccesses : (owing 0).msix.owed.contains 3 = true ∧ mfind (owing 0).msix.lastRaise 3 = none ∧ (owing 0).msix.mask.getLsbD 3 = false ∧
    (owing 8).msix.mask.getLsbD 3 = true ∧ (owing 8).msix.pending.getLsbD 3 = true ∧ (owing 8).host.mqTail = (owing 8).host.mqHead ∧ running rdy = true ∧
    hdmRange rdy 0x40 2 = some [0x40, 0x41] ∧ (feat rdy).host.on1.getLsbD 4 = true ∧ rdy.host.on1.getLsbD 4 = false ∧ (1 : Nat) % 2 = 1 ∧
    (let s : State := { rdy with host := { rdy.host with mqTail := 1 } }; s.host.mqTail ≠ s.host.mqHead) ∧ mfind (peered (.read 4)).links.routes 2 = some 1 ∧ (portOf (peered (.read 4)) 1).state = .up ∧
    (peerState (peered (.read 4)) 2).lost = false ∧ deviceMem rdy 0x100 8 = true ∧ inReserve rdy 0x100 8 = false := by decide +kernel
/-- a host write is read back, and an unmasked vector's pending bit is delivered -/
theorem test_host_accesses : goes (exec .hostCxlMemAccess (feat (arg (.cxl (cxlR (some [7, 9]))) rdy))) (fun s =>
      goes (exec .hostCxlMemAccess (arg (.cxl (cxlR none)) s)) (fun s => s.host.reply == some [7, 9])) = true ∧
    goes (exec .msixVectorUnmask (owing 8)) (fun s => s.msix.sent == [3] && s.msix.pending == 0) = true ∧
    goes (exec .peerRequestArrival (peered (.atomic 0 true 5 0))) (fun s => homeByte s.mem 0x100 == 5) = true := by decide +kernel

/-! ## Management messages, shoring -/

/-- CTXNEW of context 1: TAG 9, everything granted below 2^57, 16 arena slots at 64 KiB, the root at 32 MiB -/
def ctxnewImg : List Byte := img ([0x01, 0, 9, 0, 0, 0, 0, 0, 1, 0, 0, 0x7F] ++ toBytes 4 16 ++ toBytes 8 0x10000 ++ toBytes 8 0x2000000 ++ toBytes 8 0 ++ toBytes 8 (2 ^ 57))
def posted (im : List Byte) (s : State) : State := setSlot s 0 { slotReset with state := 1, image := im }
/-- a posted management message as `taken` asks for it -/
def isTaken (i : Instr) (s : State) (im : List Byte) : Bool :=
  s.host.state == .ready && !inGap s 0 && (!isProving s 0 || logRoom s) && (mgmtHead s).isNone && (slotOfHost s 0).state == 1 && (slotOfHost s 0).image == im &&
    mgmtInstr (byteAt im 0) == some i && decide (s.mgmt.held.length < mqHoldCap)
theorem isTaken_iff (i : Instr) (s : State) (im : List Byte) : isTaken i s im = true ↔ taken i s im := by
  cases h : isProving s 0 <;> simp [isTaken, taken, h, and_assoc]
theorem test_hyp_ContextMessages_ctxnew : isTaken .ctxnew (posted ctxnewImg rdy) ctxnewImg = true ∧ (ctxnewImg.drop 0x30).take 32 = List.replicate 32 0 ∧
    numAt ctxnewImg 0x08 2 = 1 ∧ byteAt ctxnewImg 0x0A = 0 ∧ byteAt ctxnewImg 0x0B < 128 ∧ 16 ≤ numAt ctxnewImg 0x0C 4 ∧ numAt ctxnewImg 0x0C 4 ≤ 65536 ∧
    numAt ctxnewImg 0x20 8 < numAt ctxnewImg 0x28 8 ∧ numAt ctxnewImg 0x28 8 ≤ 2 ^ 57 ∧ ctxOf (posted ctxnewImg rdy) 1 = none ∧
    placesOk (posted ctxnewImg rdy) 16 0x10000 0x2000000 = true ∧ (posted ctxnewImg rdy).ctxs.length < 1024 := by decide +kernel
theorem test_ctxnew : goes (exec .ctxnew (posted ctxnewImg rdy)) (fun s => (ctxOf s 1).map (fun x => (x.arenaSlots, x.root)) == some (16, 0x2000000) && (slotOfHost s 0).state == 0) = true := by decide +kernel
def withCtx : State := setWork (setCtx rdy 1 ctx1) { workReset with frames := [{ frame1 with queues := [{ q0 with item := 64 }] }] }
def trapImg (q : Byte) : List Byte := img ([0x03, 0, 9, 0, 0, 0, 0, 0, 1, 0, 0, 0, 1, 0, 0, 0, q])
def schedImg : List Byte := img ([0x12, 0, 9, 0, 0, 0, 0, 0, 1, 0, 0, 0, 0, 0, 0, 0] ++ toBytes 4 0 ++ toBytes 2 10 ++ toBytes 2 1)
def linkImg (n : Nat) : List Byte := img ([0x13, 0, 9, 0, 0, 0, 0, 0] ++ toBytes 2 n)
def vecImg : List Byte := img ([0x14, 0, 9, 0, 0, 0, 0, 0, 0xFF, 0x0F, 62])
def endImg : List Byte := img [0x02, 0, 9, 0, 0, 0, 0, 0, 1, 0]
theorem test_hyp_ContextMessages : isTaken .ctxtrap (posted (trapImg 0) rdy) (trapImg 0) = true ∧ ctxOf (posted (trapImg 0) rdy) 1 = none ∧ byteAt (trapImg 0xFF) 0x10 = 0xFF ∧
    isTaken .ctxtrap (posted (trapImg 0) withCtx) (trapImg 0) = true ∧ ctxOf (posted (trapImg 0) withCtx) 1 = some ctx1 ∧
    (findFrame withCtx 1 1).map (fun f => (f.withdrawn, persistent f, (queueAt f 0).map (·.item))) = some (false, persistent frame1, some 64) ∧
    isTaken .sched (posted schedImg withCtx) schedImg = true ∧ (schedAt schedImg 0x10).isSome = true ∧ isTaken .linkcfg (posted (linkImg 100) rdy) (linkImg 100) = true ∧
    1 ≤ numAt (linkImg 100) 0x08 2 ∧ numAt (linkImg 100) 0x08 2 ≤ 100 ∧ 100 < numAt (linkImg 101) 0x08 2 ∧ isTaken .slotvec (posted vecImg rdy) vecImg = true ∧
    numAt vecImg 0x08 2 = 4095 ∧ byteAt vecImg 0x0A ≤ 62 ∧ isTaken .ctxend (posted endImg withCtx) endImg = true ∧ numAt endImg 0x08 2 = 1 := by decide +kernel
/-- CTXEND of a context without a frame: the second act finds it quiet -/
def ending : State := match exec .ctxend (posted endImg (setCtx rdy 1 ctx1)) with | .next s => s | _ => rdy
theorem test_hyp_ContextMessages_ctxend : stopsServing ending = false ∧ (mgmtHead ending).map (fun c => (c.instr, c.page, numAt c.body 0x08 2)) = some (.ctxend, 1, 1) ∧ ending.host.state = .ready ∧ inGap ending 0 = false ∧
    ctxQuiet ending 1 = true ∧ ((mgmtHead ending).bind (fun c => finishCtx 1 (dropFirmware ending 0 c))).isSome = true := by decide +kernel
/-- STOCKALLOC of 16 counters of die 1, the handle at 0x40 of page 0 -/
def allocImg : List Byte := img ([0x04, 0, 9, 0, 0, 0, 0, 0, 1, 0, 1, 0] ++ toBytes 2 16 ++ [0, 0] ++ toBytes 8 0x40)
def allocS : State := posted allocImg (setCluster withCtx 0 { clusterReset with tlb := tlb3 })
theorem test_hyp_ContextMessages_stockalloc : isTaken .stockalloc allocS allocImg = true ∧ byteAt allocImg 0x0A ≤ 1 ∧ numAt allocImg 0x0C 2 = 16 ∧ numAt allocImg 0x10 8 % 32 = 0 ∧ numAt allocImg 0x10 8 < 2 ^ 57 ∧ freeRun allocS 1 16 = some 0 ∧
    answers (engPage (tookAt .stockalloc allocS allocImg) 0 1 0x40 .store) (fun x => x.1.ct && answers (engPutCap x.2 0 1 0x40 (stockHandleOf 1 0 16)) (fun _ => true)) = true := by decide +kernel
def shootImg (n : Nat) : List Byte := img ([0x11, 0, 9, 0, 0, 0, 0, 0, 1, 0, 0, 0, 0, 0, 0, 0] ++ toBytes 8 0x10000 ++ toBytes 8 n)
def shootS : State := { setWork withCtx { withCtx.work with shootdowns := [⟨1, 0, 65536, false, some (mgmtCmd (shootImg 65536) .shoot), noCore, 0, none⟩] } with cur := eventCur (.ix 0) }
theorem test_hyp_ShootdownsAndSequenceMessages : isTaken .shoot (posted (shootImg 65536) withCtx) (shootImg 65536) = true ∧ ctxOf withCtx 1 ≠ none ∧
    numAt (shootImg 65536) 0x10 8 % 65536 = 0 ∧ numAt (shootImg 65536) 0x18 8 % 65536 = 0 ∧ numAt (shootImg 1) 0x18 8 % 65536 ≠ 0 ∧ inGap withCtx 1 = false ∧
    (shootS.work.shootdowns[0]?).isSome = true ∧ (shootS.work.shootdowns.all (shootReady shootS)) = true ∧ isProving shootS 1 = false := by decide +kernel
/-- a command of context 1 in an inbox -/
def cmd (i : Instr) (body : List Byte) : Cmd := { msgCmd 0 1 { target := cZero, reply := cZero, acq := false, rel := false, scope := 0, tag := 5, op := 0, body := body, bodyTags := List.replicate 8 true } i with req := 1 }
def kilnS (i : Instr) (body : List Byte) : State := setDie (arg (.engine (.kiln 0) 0) hosted) 0 { dieReset with kiln := [cmd i body] }
def capBytes (c : CReg) : List Byte := toBytes 32 c.bits.toNat
def verdictS (b : Byte) (susp : Bool) : State := setCluster (arg (.engine (.joiner 0) 0) (setWork hosted { workReset with frames := [{ frame1 with stages := [{ stage0 with suspended := susp }] }] }))
  0 { clusterReset with joiner := [cmd .verdict ([b, 0, 0, 0] ++ toBytes 4 1 ++ List.replicate 24 0)] }
def attestS : State := setDie (arg (.engine (.firmware 0) 0) hosted) 0 { dieReset with firmware := [cmd .attest (List.replicate 64 0)] }
theorem test_hyp_ShootdownsAndSequenceMessages_bodies : (attestS.cur.arg = .engine (.firmware 0) 0 ∧ (die attestS 0).firmware.length = 1 ∧
      (match attest false (cmd .attest (List.replicate 64 0)) attestS with | .error (.status n) => n == 0x21 | _ => false) = true) ∧
    ((die (kilnS .seqopen (List.replicate 64 0)) 0).kiln[0]? = some (cmd .seqopen (List.replicate 64 0)) ∧ firstOfSeq (kilnS .seqopen (List.replicate 64 0)) (cmd .seqopen (List.replicate 64 0)) = true ∧
      seqNamed (kilnS .seqopen []) (cmd .seqopen []) = none ∧ hasKiln (kilnS .seqopen []) = false) ∧
    (capGood (bodyCap (cmd .seqclose (capBytes (capOf 0x200 0x7F 0x200 0x201 6))) 0) [6] 0 = true ∧
      seqOfHandle (kilnS .seqclose []) 1 (bodyCap (cmd .seqclose (capBytes (capOf 0x200 0x7F 0x200 0x201 6))) 0) = none) ∧
    ((pickCmd (cluster (verdictS 0 true) 0).joiner 0).map (·.instr) = some .verdict ∧ (findFrame (verdictS 0 true) 1 1).bind (stageAt · 0) = some { stage0 with suspended := true } ∧
      (findFrame (verdictS 0 false) 1 1).bind (stageAt · 0) = some stage0) := by
  refine ⟨⟨?_, ?_, ?_⟩, ?_, ?_, ?_⟩ <;> decide +kernel
theorem test_verdict : goes (exec .verdict (verdictS 0 true)) (fun s => ((findFrame s 1 1).bind (stageAt · 0)).map (·.suspended) == some false) = true := by decide +kernel
def shoreImg : List Byte := img ([0x10, 0, 9, 0, 0, 0, 0, 0, 2, 0, 0, 0, 0, 0, 0, 0] ++ toBytes 8 0x1000 ++ toBytes 4 256)
def shorable (b : Bool) (sh : Option Shoring) : State := { rdy with host := { rdy.host with on1 := if b then 0x80 else 0 }, fw := { rdy.fw with shoring := sh } }
def inPhase (p : ShorePhase) : Shoring := { kind := 2, phase := p, since := 0, tag := 9, addr := 0x1000, len := 256, image := noImage, record := [], status := 0, log := [], heldReplies := [] }
def phased (p : ShorePhase) (t : Nat) : State := { shorable true (some (inPhase p)) with time := t }
/-- an empty hand-over record of kind 2: its CRC is that of no byte -/
def handRecord : List Byte := [3, 0, 0, 0] ++ List.replicate 28 0
theorem test_hyp_ShoringPhases : isTaken .shore (posted shoreImg (shorable true none)) shoreImg = true ∧ byteAt shoreImg 0x08 = 2 ∧ numAt shoreImg 0x10 8 % 4096 = 0 ∧
    numAt shoreImg 0x18 4 = 256 ∧ (shorable true none).host.on1.getLsbD (5 + 2) = true ∧ (shorable false none).host.on1.getLsbD (5 + 2) = false ∧
    (shorable true none).fw.shoring = none ∧ 0 + 200000000 ≤ (phased .stage 200000000).time ∧ imageGood 2 (hostRead (phased .stage 199999999) 0x1000 256) = false ∧
    inHand (phased .handover 9999999) 2 = false ∧ gapLimit 2 ≤ (phased .acceptance 5000000).time ∧ recordGood 2 0 handRecord = true ∧ recordGood 2 0 [] = false ∧
    (coresOfKind 2).any (coreStopped (phased .proving 0)) = false ∧ (coresOfKind 2).any (coreLate (phased .proving 50000001) (inPhase .proving)) = true ∧
    (coresOfKind 2).any (coreLate (phased .proving 50000000) (inPhase .proving)) = false := by decide +kernel
/-- both cores of Chrogon-F have beaten of late, and a stopped one -/
def beating : State := { phased .proving 1000000000 with fw := { (phased .proving 0).fw with beats := (coresOfKind 2).map (fun k => (k, (1000000000, 0))) } }
theorem test_hyp_ShoringPhases_commit : watchdogStatus beating (inPhase .proving) = none ∧ (1000000000 : Nat) ≤ beating.time ∧ beating.fw.shoring = some (inPhase .proving) ∧
    coreStopped (setThreadOf beating 1091 { fwThread with fw := { fwThread.fw with stopped := true } }) 1091 = true ∧ (coresOfKind 2).contains 1091 = true := by decide +kernel
end

/-! ## Clocks, links, paging, the Joiner, the engines -/
section
open Sys2Proof.Claims

theorem test_hyp_ClocksAndFatalErrors : (arg (.ix 1) rdy).cur.arg = .ix 1 ∧ running rdy = true ∧ inGap rdy 0 = false ∧ (1 : Nat) < 2 ∧ 1000 ≤ (die rdy 1).mhz ∧
    (die (setDie rdy 1 { dieReset with mhz := 1400 }) 1).mhz ≤ 1400 ∧ (arg (.parity 0 0x08) rdy).cur.arg = .parity 0 0x08 ∧
    firmwareCores.find? (lostCore { rdy with fw := { rdy.fw with beats := [(1088, (0, 0))] }, time := 100000001 }) = some 1088 := by decide +kernel
theorem test_throttle : goes (exec .thermalThrottle (arg (.ix 1) (setDie rdy 1 { dieReset with mhz := 1000 }))) (fun s => (die s 1).mhz == 900) = true ∧
    goes (exec .thermalThrottle (arg (.ix 1) (setDie rdy 1 { dieReset with mhz := 900 }))) (fun s => (die s 1).mhz == 900) = true := by decide +kernel
def portS (p : Port) : State := setPort rdy 1 p
/-- 65 replays in the last millisecond, and two flits sent -/
def flit (n : Nat) : Flit := { seq := n, cores := [], sector := 5, data := 7, mask := 1, tags := 0, tagged := 0, was := default }
def upPort : Port := { portReset with state := .up, recent := List.replicate 65 0, buffer := [flit 3, flit 4] }
def retraining : Port := { portReset with state := .retraining, retrainFrom := some 0 }
def routed (st : PortState) (lost : Bool) : State := let s := portS { portReset with state := st }
  { s with links := { s.links with routes := [(2, 1)], peers := [(2, ⟨lost, 0⟩)] } }
theorem test_hyp_LinksPeersAndScrub : (portOf (portS upPort) 1).state = .up ∧ 64 < ((portOf (portS upPort) 1).recent.filter (fun t => decide ((portS upPort).time < t + 1000000))).length ∧ inGap (portS retraining) 2 = false ∧ inGap (portS upPort) 2 = false ∧
    (portOf (portS retraining) 1).state = .retraining ∧ (portOf (portS retraining) 1).retrainFrom = some 0 ∧ (portS retraining).time + retraining.retrainUsed < 0 + retraining.retrainLimit * 1000000 ∧
    0 + retraining.retrainLimit * 1000000 ≤ ({ portS retraining with time := 10000000 } : State).time + retraining.retrainUsed ∧ mfind (routed .down false).links.routes 2 = some 1 ∧
    (peerState (routed .down false) 2).lost = false ∧ (portOf (routed .down false) 1).state = .down ∧ (peerState (routed .up false) 2).epoch ≠ 1 ∧
    (peerState (routed .up true) 2).lost = true ∧ (portOf (routed .up true) 1).state ≠ .retraining ∧ running (routed .up true) = true ∧
    (retraining.retrainFrom = some 0 ∧ upPort.state = .up) := by decide +kernel
/-- the last data sector of a group of pseudo-channel 1023, with one or two symbols wrong -/
def found (n : Nat) : State := arg (.scrub [⟨1023, 2, 59, n⟩]) rdy
theorem test_hyp_LinksPeersAndScrub_scrub : (found 1).cur.arg = .scrub [⟨1023, 2, 59, 1⟩] ∧ running (found 1) = true ∧ (found 1).fw.dumpPending = false ∧ (found 1).hbm.absent.contains 1023 = false ∧
    2 * 3840 + 64 * 59 + 64 ≤ 720 * 2 ^ 20 := by decide +kernel
/-- two wrong symbols poison the sector, one does not (R65) -/
theorem test_scrub : goes (exec .hbmScrub (found 2)) (fun s => s.mem.poison == [paOfUsable rdy 1023 (2 * 3840 + 64 * 59) / 64]) = true ∧
    goes (exec .hbmScrub (found 1)) (fun s => s.mem.poison.isEmpty && s.hbm.corrected.length == 1) = true := by decide +kernel
/-- a replay asked from flit 4 drops flit 3 and counts (R13) -/
theorem test_replay : goes (exec .linkReplayRequest (arg (.ix2 1 4) (portS upPort))) (fun s => (portOf s 1).buffer.map (·.seq) == [4] && (portOf s 1).replays == 1) = true := by decide +kernel

/-- page 0 of context 1 zero-fill (ANON), its table leaf at physical 0x2000000, and die 0's pool with a frame -/
def anonLeaf : W64 := 0xBE00000000004000
/-- die 0 with frames in its ring, and as many units at the pool's counter -/
def pooled (l : List Nat) : Die := { dieReset with ring := l, counters := [(poolCounter, { ctr5 with owner := none, h := l.length, presence := [] })] }
def touch1 : Touch := { core := 0, ctx := 1, va := 0, leaf := anonLeaf, leafPa := 0x2000000 }
def touched (ring : List Nat) : State :=
  let s := setMem rdy { rdy.mem with cells := writeCells [] 0x2000000 (toBytes 8 anonLeaf.toNat) }
  let s := setDie (setCluster s 0 { clusterReset with touches := [touch1] }) 0 (pooled ring)
  arg (.ix2 0 0) { s with host := { s.host with on1 := 0x100 } }
/-- tables at 0x2000000, 0x2010000, 0x2020000 and 0x2030000 whose leaf for page 0 is `e` -/
def tabled (e : W64) : State :=
  let t (n : Nat) : W64 := 0x8000000000000000 ||| BitVec.ofNat 64 n
  let put (a : Nat) (v : W64) (c : List Host.Cell) := writeCells c a (toBytes 8 v.toNat)
  let s := setCtx rdy 1 { ctx1 with root := 0x2000000 }
  let s := setMem s { s.mem with cells := put 0x2030000 e (put 0x2020000 (t 0x2030000) (put 0x2010000 (t 0x2020000) (put 0x2000000 (t 0x2010000) []))) }
  setCluster s 0 { clusterReset with misses := [miss1], dupWrites := [{ touch1 with leaf := e, leafPa := 0x2030000 }] }
/-- a DUP page that stands in the host's memory -/
def dupLeaf : W64 := 0xBE00000000008000 ||| BitVec.ofNat 64 hostBase
def dupS (on : Bool) : State := let s := setDie (tabled dupLeaf) 0 (pooled [0x40000])
  arg (.ix 0) { s with host := { s.host with on1 := if on then 0x200 else 0 } }
def gotT (x : TouchEnd) : Bool := match x with | .got _ _ => true | _ => false
def emptyT (x : TouchEnd) : Bool := match x with | .empty _ => true | _ => false
def gotF (x : FrameEnd) : Bool := match x with | .got _ _ => true | _ => false
def emptyF (x : FrameEnd) : Bool := match x with | .empty _ => true | _ => false
/-- a pool below its bound, and a frame to fill it with -/
def refilling : State := arg (.value 0x40000) (touched [0x30000])
theorem test_hyp_Paging_refill : refilling.cur.arg = .value 0x40000 ∧ running refilling = true ∧ inGap refilling 1 = false ∧ spareFrame refilling 0x40000 = true ∧
    (die refilling (dieOfPa 0x40000)).ring.length < (counterOf refilling (dieOfPa 0x40000) poolCounter).b := by decide +kernel
theorem test_hyp_Paging : ((cluster (touched [0x30000]) 0).touches[0]? = some touch1 ∧ hasFirstTouch (touched [0x30000]) = true ∧
      gotT (firstTouch (touched [0x30000]) 0 ⟨1, 0, anonLeaf, 0x2000000⟩) = true ∧
      emptyT (firstTouch (touched []) 0 ⟨1, 0, anonLeaf, 0x2000000⟩) = true) ∧
    ((cluster (dupS true) 0).misses = miss1 :: [] ∧ tableLeaf (dupS true) 1 0 = some (dupLeaf, 0x2030000) ∧ wantsReplica miss1 dupLeaf = true ∧
      collapsing (dupS true) 1 0 = false ∧ leafRefused (dupS true) 1 dupLeaf = false ∧ leafPeer dupLeaf = 0 ∧ portWaits (dupS true) (xlatOf (entryFor 1 0 dupLeaf 0x2030000) 0) = false ∧
      replicaOf (dupS true) 1 0 (dieOfCluster 0) = none ∧ emptyF (takeFrame (dupS false) 0 dupLeaf) = true ∧ gotF (takeFrame (dupS true) 0 dupLeaf) = true) ∧
    ((cluster (dupS true) 0).dupWrites.length = 1 ∧ tableLeaf (dropDupWrite (dupS true) 0) 1 0 = some (dupLeaf, 0x2030000) ∧ leafDup dupLeaf = true ∧ inGap (dupS true) 1 = false) := by
  refine ⟨?_, ?_, ?_⟩ <;> decide +kernel
/-- the first touch gives the page its frame (R92) -/
theorem test_first_touch : goes (exec .firstTouchServe (touched [0x30000])) (fun s => (die s 0).ring.isEmpty &&
    (tlbFind (Machine.core s 0).tlb 1 0).map (fun e => (leafFrame e.leaf, leafAnon e.leaf)) == some (0x30000, false)) = true := by decide +kernel

def req0 (op : StockOp) : StockReq := { op := op, core := 0, ctx := 1, req := 9 }
def ctrS (c : Counter) : State := arg (.ix 5) (setDie (setCtx rdy 1 ctx1) 0 { dieReset with counters := [(5, c)] })
def recalled : State := let s := ctrS { ctr5 with recalling := some { waiting := [0] } }
  { setCore s 0 { coreReset with allow := [{ ctx := 1, ctr := 5, a := 4, pinned := false, present := true, idleSince := 0 }] } with cur := eventCur (.ix2 5 0) }
theorem test_hyp_StockAndPhaserEvents_serve : (ctrOf (arrive (ctrS { ctr5 with queue := [req0 (.take 5 0 true)] }) 0 (fun r => r.ctr == 5)) 5).queue = req0 (.take 5 0 true) :: [] ∧
    recallTargets { ctr5 with queue := [req0 (.take 5 0 true)] } (req0 (.take 5 0 true)) = [] ∧ recallTargets { ctr5 with presence := [3] } (req0 .readExact) = [3] ∧
    (ctrOf recalled 5).recalling = some { waiting := [0] } ∧ ({ waiting := [] } : Recall).waiting = [] ∧ (die recalled 0).returns.any (fun r => r.ctr == 5) = false := by decide +kernel
def returning : State := arg (.ix 0) (setDie rdy 0 { dieReset with counters := [(5, ctr5)], returns := [⟨5, 4, 0, false, false, false⟩] })
def probeable : State := { ctrS { ctr5 with presence := [0], h := 0 } with time := 1000000000 }
def compS (n : Nat) : State := let c := { cmd (.cpy ax cpyO) [] with core := 0 }
  setWork (setCluster (setCtx rdy 1 ctx1) 0 { clusterReset with phasers := [(3, ph [])] }) { workReset with phComps := [(phaserHandle false 0 n, c, { tag := 5, status := 0, engine := 1, ctx := 1, bytes := 64, result := 0 })] }
def heldS : State := setWork hosted { hosted.work with held := [.event 1 0 anEvent] }
theorem test_hyp_StockAndPhaserEvents : (die returning 0).returns = ⟨5, 4, 0, false, false, false⟩ :: [] ∧ probeDue probeable 5 = true ∧
    phGet (compS 3) (phIdOf (phaserHandle false 0 3)) = some (ph []) ∧ phGet (compS 4) (phIdOf (phaserHandle false 0 4)) = none ∧ (compS 3).work.phComps.length = 1 ∧ (ph []).due = false ∧ ({ ph [] with due := true }).due = true ∧ (5 : Nat) / 4096 = 0 ∧
    (die recalled 0).returns.any (fun r => r.ctr == 5 && r.core == 0 && r.recalling) = false ∧
    heldS.work.held = .event 1 0 anEvent :: [] ∧ (tryHeld heldS (.event 1 0 anEvent)).isSome = true := by decide +kernel
/-- the return of 4 units makes H 54, and the recall takes the core's 4 units home (R150, R152) -/
theorem test_stock_returns : goes (exec .stockReturnArrival returning) (fun s => (ctrOf s 5).h == 54) = true ∧
    goes (exec .stockRecallOrder recalled) (fun s => (die s 0).returns.map (·.amount) == [4] && (Machine.core s 0).allow.all (·.a == 0)) = true := by decide +kernel

/-- frame 1 with an item in its queue and nothing running: an instance is ready; `quota` is its stage's -/
def stageR : Stage := { stage0 with minc := 1, maxc := 4 }
def frameR : Frame := { frame1 with levels := [⟨true, 0, 1, 0, 5⟩], stages := [stageR], batches := [], queues := [{ q0 with items := [⟨List.replicate 16 0, [false], false, false, 0, none, none⟩], nextOrd := 1 }] }
def ready (cores : Map CoreSt) (quota : Nat) : State :=
  let s := setWork (setCtx rdy 1 { ctx1 with arenaSlots := 16 }) { workReset with frames := [frameR] }
  arg (.ix 0) { setCluster s 0 { clusterReset with quotas := [⟨1, 1, 0, quota⟩] } with cores := cores }
def r0 (s : State) : State := refreshReady s
theorem test_hyp_JoinerEvents_start : (pickStart (r0 (ready [] 1)) 0).isSome = true ∧ (pickStart (r0 (ready [] 1)) 0).map (fun c => c.1.saved.isNone) = some true ∧
    (pickStart (r0 (ready [] 1)) 0).map (fun c => drainsFirst (r0 (ready [] 1)) c.1.ctx c.1.frame c.1.stage c.1.coord) = some false := by decide +kernel
/-- every core of cluster 0 runs a firing of context 2 -/
def busy : Map CoreSt := (List.range 16).map (fun k => (k, { coreReset with thread := some { fire with id := { fireId with ctx := 2, frame := 9 } } }))
theorem test_hyp_JoinerEvents_blocked : (pickStart (r0 (ready busy 1)) 0).isNone = true ∧ (pickBlocked (r0 (ready busy 1)) 0).isSome = true := by decide +kernel
def savedS : State := let s := ready [] 1
  setWork s { s.work with frames := [{ frameR with queues := [q0], batches := [{ batch1 with preempted := true }] }], saved := [⟨[(0, fire)], 1, 0, none, 0, [0], false⟩] }
theorem test_hyp_JoinerEvents_resume : ((pickStart (r0 savedS) 0).bind (·.1.saved)).isSome = true := by decide +kernel
def due (t : Nat) : State := { ready busy 1 with time := t }
theorem test_hyp_JoinerEvents_due : (coreless (r0 (due 2000000)) 0).length = 1 ∧
    quotaDue { setCluster (ready [] 1) 0 { clusterReset with quotas := [⟨1, 1, 0, 1⟩] } with time := 10000 } 0 = true := by decide +kernel
def stopping : Thread := { fire with preempt := .priority }
def safeT : Thread := { stopping with safe := some 0 }
def ctxS (c : Ctx) : State := { arg (.ix 1) (setCtx rdy 1 c) with time := 10000000 }
theorem test_hyp_JoinerEvents_stops : (unitThreads (on safeT) 0 safeT).length = slotsNeeded safeT ∧ (unitThreads (on safeT) 0 safeT).all (fun x => drained x.2) = true ∧
    slotsNeeded safeT ≤ freeSlots (setCtx (on safeT) 1 { ctx1 with arenaSlots := 16 }) 1 ∧ ctx1.periodStart + ctx1.sched.period * 1000 ≤ (ctxS ctx1).time ∧
    (let c := { ctx1 with sched := { ctx1.sched with cycles := 5, hbm := 7 }, cycles := 5000, hbmBytes := 7 }
     c.sched.cycles ≠ 0 ∧ c.sched.cycles * 1000 ≤ c.cycles ∧ c.spentCycles = false ∧ c.sched.hbm ≤ c.hbmBytes ∧ c.spentBytes = false) := by decide +kernel
def long : Thread := { fire with preempt := .budget, overran := 2 ^ 32 * 1000 }
def overrun : State := setThreadOf (setWork (arg (.ix 0) rdy) { workReset with frames := [frame1] }) 0 long
theorem test_hyp_JoinerEvents_overrun : threadOf overrun 0 = some long ∧ hasCommitted overrun long = false ∧ overrunLimit overrun long < overrunCycles long ∧
    (setWork rdy { workReset with frames := [{ frame1 with withdrawn := true, batches := [], stages := [], queues := [] }] }).work.frames.find?
      (frameDone (setWork rdy { workReset with frames := [{ frame1 with withdrawn := true, batches := [], stages := [], queues := [] }] })) =
      some { frame1 with withdrawn := true, batches := [], stages := [], queues := [] } := by decide +kernel

def drainQ : State := setWork hosted { hosted.work with drains := [{ drainD with ctx := 1, frame := 1, stage := 0, coord := 0 }] }
def waveS : State := arg (.ix 1) opened
def editS : State := setWork (arg (.ix 0) hosted) { hosted.work with edits := [⟨1, [cmd (.cpy ax cpyO) []]⟩] }
def cpyCmd : Cmd := { cmd (.cpy ax cpyO) [] with a := capOf 0 0x7F 0 0x10000 0 }
def copyS : State := setCluster (arg (.engine (.copy 0) 0) hosted) 0 { clusterReset with copy := [cpyCmd] }
def bankS : State := setDie (arg (.engine (.bank 3) 0) hosted) 0 { dieReset with bank := [{ cpyCmd with instr := .bkzero ax cpyO, pa := linearBase 3, page := 65536 }] }
theorem test_hyp_SequenceAndEngineEvents : (nextDrain drainQ [] drainQ.work.drains).isSome = true ∧ seqOf waveS 1 = some seq1 ∧ answers (advance seq1 waveS) (fun _ => true) = true ∧
    editS.work.edits[0]? = some ⟨1, [cmd (.cpy ax cpyO) []]⟩ ∧ mustSettle editS (cmd (.cpy ax cpyO) []) = false ∧ seqNamed editS (cmd (.cpy ax cpyO) []) = none ∧
    (cluster copyS 0).copy[0]? = some cpyCmd ∧ isCprot cpyCmd.instr = false ∧ ((die bankS 0).bank.find? (fun c => channelOfPa c.pa == 3)).isSome = true ∧
    (pickCmd (cluster (verdictS 0 true) 0).joiner 0).isSome = true ∧ firstOfSeq (kilnS (.kvseal ax cpyO) []) (cmd (.kvseal ax cpyO) []) = true := by decide +kernel
/-- a rotation outstanding, and an after hold whose column is at rest -/
def rotS : State := setWork (arg (.ix 0) (setCluster opened 0 { cluster opened 0 with tlb := tlb3 })) { opened.work with rotations := [⟨1, 0, 0, 0, 0, []⟩] }
def afterS : State := setWork (arg (.ix 4) opened) { opened.work with holds := [{ hold1 with mode := .after, granted := false, frozen := false, blocks := [] }] }
theorem test_hyp_SequenceAndEngineEvents_kiln : (rotS.work.rotations[0]?).isSome = true ∧ answers (rotateEdit ⟨1, 0, 0, 0, 0, []⟩ rotS) (fun _ => true) = true ∧
    answers (grantAfter 4 afterS) (fun _ => true) = true := by decide +kernel
/-! ## Witnesses of the completion statements -/

/-- `f` of a result and the state behind it -/
def thenK {ε α : Type} (r : Except ε (α × State)) (f : α → State → Bool) : Bool := match r with | .ok (a, s) => f a s | .error _ => false
def handlerT : Thread := { fwThread with fw := { fwThread.fw with tin := true, tpc := 12 } }
def signed : Thread := { fire with sig := { crc := 5, expected := some (~~~5) } }
theorem test_hyp_RemainingFormsComplete_control : Runs ax (svc fwThread) fwThread ∧ ex.s = false ∧ fwThread.wide = [] ∧ Runs ax (svc handlerT) handlerT ∧ handlerT.fw.tin = true ∧ handlerT.fw.tpc.toNat % 4 = 0 ∧
    isMaskWord (svc handlerT) 1024 handlerT handlerT.fw.tpc = false ∧ Runs ax (on signed) signed ∧ signed.sig.expected = some (~~~signed.sig.crc) := by
  refine ⟨⟨?_, ?_⟩, rfl, rfl, ⟨?_, ?_⟩, rfl, rfl, ?_, ⟨?_, ?_⟩, rfl⟩ <;> decide +kernel
/-- an MGRP of no row and of one, the position's count in c7; an MMUL on the way to the barrier -/
def groupW (n : W64) (i : Instr) : State :=
  { (List.range 4).foldl (fun s k => setCore s k { coreReset with tlb := tlb3, thread := some (put (ganger (BitVec.ofNat 2 k) (encode i)) 7 n) }) State.reset with cur := atWord 0 0 (encode i) 0 }
def grpO : MatOps := { mmulO with tc := .c 7 }
def grp (n : W64) : State := groupW n (.mgrp ex grpO)
def mul : State := groupW 0 (.mmul ex mmulO)
def skip0 : List SkipRun := [⟨true, mmulO.km1.toNat + 1, false⟩]
def dense0 : List Bool := denseOf skip0
def coming : Thread := { streams with id := { fireId with gang := true } }
theorem test_hyp_RemainingFormsComplete_gang : (gangThreads mul 0 1).length = 4 ∧ (gangThreads mul 0 1).all (fun x => x.2.blockE == .barrier) = true ∧ keysMatch (gangThreads mul 0 1) = true ∧
    (pairOf mmulO.fa mmulO.fb).map (fun p => scaleOk p mmulO.scale) = some true ∧
    thenK (aEach (readSkip (mmulO.km1.toNat + 1)) (gangThreads mul 0 1) mul) (fun ds s1 => ds.all (· == skip0) &&
      thenK (aEach (fun x => readA (matOf x.2) dense0 x) (gangThreads mul 0 1) s1) (fun _ s2 =>
        answers (aEach (fun x => readB (matOf x.2) dense0 x) (gangThreads mul 0 1) s2) (fun _ => true))) = true ∧
    Runs ex (on coming) coming ∧ (coming.blockE == .barrier) = false ∧ coming.id.gang = true ∧ wideClash (on coming) 0 coming (.mmul ex mmulO) = false ∧ okRes (checkMat coming mmulO) = true := by
  refine ⟨?_, ?_, ?_, ?_, ?_, ⟨?_, ?_⟩, ?_⟩ <;> decide +kernel
theorem test_hyp_RemainingFormsComplete_group : (groupCounts (readCI (put (ganger 0 0) 7 0) (.c 7))).foldl (· + ·) 0 = 0 ∧ (groupCounts (readCI (put (ganger 0 0) 7 1) (.c 7))).foldl (· + ·) 0 = 1 ∧
    (groupCounts (readCI (put (ganger 0 0) 7 0x4000) (.c 7))).foldl (· + ·) 0 = 64 ∧ (gangThreads (grp 1) 0 1).length = 4 ∧ keysMatch (gangThreads (grp 1) 0 1) = true ∧ keysMatch (gangThreads (grp 0) 0 1) = true ∧
    thenK (aEach (fun x => readA (matOf x.2) dense0 x) (gangThreads (grp 1) 0 1) (grp 1)) (fun _ s1 =>
      answers (aEach (fun x => aEach (fun c => if c = 0 then pure [] else readB (matOf x.2) dense0 x) (groupCounts 1)) (gangThreads (grp 1) 0 1) s1) (fun _ => true)) = true := by decide +kernel
/-- the row goes to scratch lines that the thread has -/
theorem test_hyp_RemainingFormsComplete_drain : Runs ex (on drainS) drainS ∧ wideClash (on drainS) 0 drainS (.mdrain ex { dr0 with a := .c 4, km1 := 0 }) = false ∧
    okRes (checkCap (getC drainS 4) [1] permW (capCursor (getC drainS 4).bits) (1 * 64 * (elemBitsOf dr0.fa / 8))) = true ∧
    linesHeld (whoOf 0 drainS) (curOf (getC drainS 4)) (1 * 64 * (elemBitsOf dr0.fa / 8)) = true := by
  refine ⟨⟨?_, ?_⟩, ?_⟩ <;> decide +kernel
/-- the drain's frame stands and is live, is withdrawn, is gone; its number is the next one -/
def drain1 : Drain := { drainD with ctx := 1, frame := 1, stage := 0, coord := 0 }
theorem test_hyp_RemainingFormsComplete_apply : drainQ.work.drains = [drain1] ∧ findFrame drainQ 1 1 = some frame1 ∧ frame1.withdrawn = false ∧ (findInst frame1 0 0).running = 0 ∧ drain1.seq = none ∧
    (0 : Nat) = (drainStateOf (findInst frame1 0 0) 0 0).next ∧ findFrame rdy 1 1 = none ∧ ({ frame1 with withdrawn := true }).withdrawn = true := by decide +kernel
/-- the structures of a sequence that is still to be opened: LENGTH 0, and its model, whose embedding alone is not CAUSAL -/
def modelBytes : List Byte := toBytes 4 0x4D4F444C ++ [2, 0] ++ List.replicate 58 0 ++ [2] ++ List.replicate 127 0
def unopened : State := let s := feat opened
  setWork (setMem s { s.mem with cells := writeCells (writeCells openCells 0x10210 (toBytes 4 0)) 0x10800 modelBytes }) { s.work with seqs := [], holds := [] }
def openBody : List Byte := toBytes 32 (capOf 0x200 0x7F 0 0x10000 0).bits.toNat ++ toBytes 32 (capOf 0x400 0x7F 0 0x10000 0).bits.toNat
def atKiln (c : Cmd) (s : State) : State := setDie (arg (.engine (.kiln 0) 0) s) 0 { die s 0 with kiln := [c] }
def openCmd : Cmd := cmd .seqopen openBody
def closeCmd : Cmd := cmd .seqclose (toBytes 32 (getC hand 5).bits.toNat)
theorem test_hyp_ShootdownsAndSequenceMessages_done : firstOfSeq (atKiln openCmd unopened) openCmd = true ∧ seqNamed unopened openCmd = none ∧ answers (seqopen 0 openCmd unopened) (fun x => x.1.status == 0 && x.1.result == 1) = true ∧
    firstOfSeq (atKiln closeCmd (feat opened)) closeCmd = true ∧ seqNamed (feat opened) closeCmd = some seq1 ∧ rotationOpen (feat opened) seq1 = false ∧ opened.work.edits = [] ∧ mustSettle (feat opened) closeCmd = false ∧
    answers (seqclose closeCmd (feat opened)) (fun x => x.1.status == 0 && x.2.work.seqs.all (fun q => !q.opn)) = true := by decide +kernel
/-- layers with a live queue for their items, and an EDDEL of the last position laid aside -/
def delCmd : Cmd := { cmd (.eddel ax eng0) [] with a := getC hand 5, b := CReg.mk (7 + 2 ^ 32) false }
def editable : State := let s := feat opened
  let qs := [0x60, 0xA0, 0xE0].foldl (fun l o => writeCells l (0x10800 + o) (toBytes 24 (queueHandle 1 1 0).bits.toNat)) s.mem.cells
  setWork (setMem (arg (.ix 0) s) { s.mem with cells := qs, tags := openTags ++ [0x843, 0x845, 0x847] })
    { s.work with frames := [{ frame1 with queues := [{ q0 with item := 64 }] }], holds := [], edits := [⟨1, [delCmd]⟩] }
def editing : State := setWork editable { editable.work with edits := [] }
theorem test_hyp_RemainingFormsComplete_edit : editable.work.edits[0]? = some ⟨1, [delCmd]⟩ ∧ seqNamed editable delCmd = some seq1 ∧ itemsOut editable seq1 = false ∧ rotationOpen editable seq1 = false ∧ hasScribe editing = true ∧
    answers (moveEdit false delCmd editing) (fun x => x.1.status == 0 && x.1.result == 1) = true ∧ ({ seq := 1, cmds := [] } : EditWait).cmds = [] := by decide +kernel
/-- the edit's wave goes through all its layers -/
def waving : State := match moveEdit false delCmd editing with | .ok (_, s) => arg (.ix 1) s | .error _ => rdy
def moves (q : Seq) : Nat → State → Bool
  | 0, s => thenK (waveStep q s) (fun b _ => !b)
  | n + 1, s => thenK (waveStep q s) (fun b s => b && moves q n s)
def ranTo (q : Seq) : Nat → State → State
  | 0, s => match waveStep q s with | .ok (_, s) => s | .error _ => s
  | n + 1, s => match waveStep q s with | .ok (_, s) => ranTo q n s | .error _ => s
theorem test_hyp_RemainingFormsComplete_wave : sweepHolds waving = waving ∧ seqOf waving 1 = some seq1 ∧ (wavesOf waving seq1).length = 1 ∧
    thenK (readDesc seq1 waving) (fun d s1 => thenK (mapCap seq1 d s1) (fun cap s2 => thenK (kFor (formItems seq1 d cap) (wavesOf s2 seq1) s2) (fun _ s3 =>
      moves seq1 6 s3 && decide (6 < (wavesOf s2 seq1).length * (2 * d.nlayer + 6)) && answers (releaseOffcuts seq1 (ranTo seq1 6 s3)) (fun _ => true)))) = true ∧
    seqOf (sweepHolds rdy) 1 = none := by decide +kernel
def rot1 : Rotation := ⟨1, 0, 0, 0, 0, []⟩
theorem test_hyp_RemainingFormsComplete_rotation : rotS.work.rotations[0]? = some rot1 ∧ seqOf rotS 1 = some seq1 ∧
    thenK (readDesc seq1 rotS) (fun d s1 => thenK (rotateView (takeReserved seq1 d 0) seq1 d 0 0 0 s1) (fun rep s2 => !rep.poisoned &&
      thenK (kFor (poolPush seq1 d) (((s2.work.rotations.find? (fun x => x.seq == 1 && x.gen == 0)).map (·.pages)).getD []) s2) (fun _ s3 =>
        answers (releaseOffcuts seq1 (setWork s3 { s3.work with rotations := [] })) (fun _ => true)))) = true := by decide +kernel
def after1 : Hold := { hold1 with mode := .after, granted := false, frozen := false, blocks := [] }
theorem test_hyp_RemainingFormsComplete_hold : afterS.work.holds.find? (fun h => h.req == 4 && !h.granted) = some after1 ∧ seqOf afterS 1 = some seq1 ∧
    thenK (readDesc seq1 afterS) (fun d s1 => genGe d.settled after1.gen && !genGe d.settled (after1.gen + 1) && thenK (mapCap seq1 d s1) (fun cap s2 =>
      thenK (kEach (getCell seq1 d cap 2) ((holdCols after1).filter (fun c => decide (c < ncol d d.length))) s2) (fun xs s3 => xs.length == 1 && xs.all (fun x => x.state != cQueued && x.state != cRunning) &&
        thenK (grantHold seq1 d after1 s3) (fun h' s4 => answers (holdWord seq1 d 2 h'.cols 0 (updHolds seq1 (fun x => x.req == 4) (fun _ => h') s4)) (fun _ => true))))) = true := by decide +kernel
/-- the fill goes on behind its eight elements, which are all there are -/
def fillW : WideOp := filled.wide.headD default
theorem test_hyp_RemainingFormsComplete_wide : filled.wide = [fillW] ∧ fillW.n = 8 ∧ fillW.done = 0 ∧ (wForm fillW.instr).map (fun f => min (stepLanes f) 8) = some 8 ∧ (wForm fillW.instr).map (fun f => min (stepLanes f) 100) = some 64 ∧
    thenK (wideVals (whoOf 0 filled) fillW.a 0 8 { fillS with wideRr := [(0, 1)] }) (fun xs s1 => thenK (wideVals (whoOf 0 filled) fillW.b 0 8 s1) (fun ys s2 =>
      thenK (wideVals (whoOf 0 filled) fillW.c 0 8 s2) (fun zs s3 => thenK (storeD (whoOf 0 filled) fillW ((xs.zip (ys.zip zs)).map (fun x =>
        (wideElem fillW.instr { vec0 with d := .s 1, a := .c 3 } (wideCtl fillW) x.1 x.2.1 x.2.2).1)) s3) (fun _ s4 => (threadOf s4 0).map (·.wide) == some [fillW])))) = true := by decide +kernel
end

/-! ## Further witnesses: boundary values, faults and waits -/
section
open Sys2Proof.Claims

theorem test_hyp_StepRunsTheWord_fresh : hasCommitted (noTurns sAcc) (bootThread State.reset) = false ∧
    (agentMay (bootThread State.reset) (.add ax int0) && mustWait (fetched (noTurns sAcc) 0).2 0 (bootThread State.reset) (.add ax int0)) = false ∧
    (agentMay (bootThread State.reset) (.nop ax) && mustWait (fetched (fetched (noTurns sMask) 0).2 12).2 0 (bootThread State.reset) (.nop ax)) = false ∧
    hasCommitted (noTurns sBuf) (bootThread State.reset) = false ∧ sliceWords (bootThread State.reset).slice < 256 := by decide +kernel
theorem test_hyp_Moves_queues : answers (readOpd queued (.l 1)) (fun x => answers (pushQueue x.2 .aq x.1) (fun u => u.regs.aq == [8, 1])) = true ∧
    answers (pushQueue queued (.d 1) ((BitVec.ofInt 64 ((127 : Int) - 64)).setWidth 128)) (fun u => getD u 1 == [63]) = true ∧
    answers (readOpd queued (.f 1)) (·.1 == 5) = true := by decide +kernel
/-- c5 lacks S, c6's cursor is at its limit, c7 is a sealing authority whose cursor is no seal number -/
def sealers : Thread := setC (setC (setC caps 5 (capOf 5 0 0 8 5)) 6 (capOf 8 permS 0 8 5)) 7 (capOf 8 permS 0 9 5)
theorem test_hyp_CapabilityDerivationFaults : Runs ax (on sealers) sealers ∧ readW sealers (.c 7) = .ok (8, sealers) ∧ sealFault (getC sealers 9) .tag ∧
    sealFault (getC sealers 4) .seal ∧ sealFault (getC sealers 5) .permission ∧ sealFault (getC sealers 6) .bounds :=
  ⟨⟨by decide +kernel, by decide +kernel⟩, rfl, .inl ⟨by decide +kernel, rfl⟩, .inr (.inl ⟨by decide +kernel, by decide +kernel, rfl⟩),
   .inr (.inr (.inl ⟨by decide +kernel, by decide +kernel, by decide +kernel, rfl⟩)),
   .inr (.inr (.inr ⟨by decide +kernel, by decide +kernel, by decide +kernel, by decide +kernel, rfl⟩))⟩
theorem test_hyp_CapabilityDerivationFaults_number : sealer (getC sealers 7) ∧ ¬(1 ≤ (capCursor (getC sealers 7).bits).toNat ∧ (capCursor (getC sealers 7).bits).toNat ≤ 7) ∧
    (capCursor (getC sealers 7).bits).toNat ≠ (capSeal (getC sealers 4).bits).toNat := by simp only [sealer]; decide +kernel
def strayed : State := { on (two 38 1) with cur := atWord 0 2 0 0 }
theorem test_hyp_BranchFaults : Runs ax strayed (two 38 1) ∧ (strayed.cur.pc + 12 * (0 : BitVec 40).signExtend 64).toNat % 4 ≠ 0 ∧
    readW (two 38 1) (.c 2) = .ok (38, two 38 1) ∧ readW (two 38 1) (.c 3) = .ok (1, two 38 1) ∧ (38 + 12 * 1 : W64).toNat % 4 ≠ 0 ∧ getW (two 38 1) 11 ≠ 1 :=
  ⟨⟨by decide +kernel, by decide +kernel⟩, by decide +kernel, rfl, rfl, by decide +kernel, by decide +kernel⟩
/-- the mask word of `masked` is what c2 and c3 name -/
def maskedAt : Thread := put (put (bootThread sMask) 2 12) 3 1
theorem test_hyp_BranchFaults_mask : (setCur masked maskedAt).cur.core = 0 ∧ curThread (setCur masked maskedAt) = some maskedAt ∧
    readW maskedAt (.c 2) = .ok (12, maskedAt) ∧ readW maskedAt (.c 0) = .ok (0, maskedAt) ∧ readW maskedAt (.c 3) = .ok (1, maskedAt) ∧
    (12 : W64) = 12 + 12 * 0 ∧ (12 : W64) = 0 + 12 * 1 ∧ (12 : W64).toNat % 4 = 0 ∧ isMaskWord (setCur masked maskedAt) 0 maskedAt 12 = true ∧ getW maskedAt 11 ≠ 1 := by
  refine ⟨rfl, ?_, rfl, rfl, rfl, ?_⟩ <;> decide +kernel
/-- a branch to a misaligned target writes no link (R380): the firing is gone, and with it its registers -/
theorem test_callx_misaligned : goes (exec (.callx ax ⟨5, .c 2⟩) strayed) (fun s => (threadOf s 0).isNone) = true := by decide +kernel
def timed (b : Option (Nat × BitVec 16)) : State := let s := svc fwThread
  { s with fw := { s.fw with beats := match b with | some x => [(1024, x)] | none => [] } }
def ctxC (n : Nat) : State := setCtx (on fire) 1 { ctx1 with sched := { ctx1.sched with cycles := n } }
theorem test_hyp_ControlRegisters_firmware : isService (svc fwThread).cur.core = true ∧ (cluster (svc fwThread) (clusterOf (svc fwThread).cur.core)).misses = miss1 :: [] ∧
    isService (on fwThread).cur.core = false ∧ mfind (timed (some (0, 5))).fw.beats (timed none).cur.core = some (0, 5) ∧ mfind (timed none).fw.beats (timed none).cur.core = none ∧
    (svc fwThread).fw.shoring = none ∧ (ctxOf (ctxC 5) fire.id.ctx).map (·.sched.cycles) = some 5 ∧ (ctxOf (ctxC 0) fire.id.ctx).map (·.sched.cycles) = some 0 := by decide +kernel
/-- k.miss of the head record: valid, kind load, context 1, its first waiter core 0, one merged (R466) -/
theorem test_k_miss : goes (exec (.ctlrd ax ⟨5, 0x110⟩) (svc fwThread)) (fun s => (curThread s).map (getW · 5) == some ((1#1 ++ BitVec.ofNat 3 MissKind.load.code ++ 1#12 ++ 0#48 : W64) ||| 1)) = true := by
  decide +kernel

/-! ### Loads and stores -/

def poisoned (t : Thread) : State := let s := inPage t
  setMem s { s.mem with poison := [0x10040 / 64] }
theorem test_hyp_Loads_wide : reaches (inPage rig) rig (getC rig 1) 0x30 [0, 1] permR 16 .load false 0x70 (xAt (inPage rig) 0x70 .load) ∧
    (sec0 (inPage rig) 0x70).1.poison = false ∧ answers (writeOpd rig (.l 0) (BitVec.ofNat 128 5)) (fun _ => true) = true ∧
    inScratch rigU 0 (getC rigU 4) 0x10 permR 16 0x110 ∧ answers (writeOpd rigU (.c 9) (BitVec.ofNat 128 5)) (fun _ => true) = true := by
  refine ⟨⟨?_, rfl, ?_, ?_, hits_iff _ _ _ ?_, ?_, ?_, ?_⟩, ?_, ?_, ⟨?_, rfl, ?_, ?_⟩, ?_⟩ <;> decide +kernel
theorem test_hyp_Loads_poison : (sec0 (poisoned rig) 0x70).1.poison = true ∧ reaches (poisoned rig) rig (getC rig 1) 0x30 [0, 1] permR 16 .load false 0x70 (xAt (poisoned rig) 0x70 .load) ∧
    reaches (poisoned rig) rig (getC rig 1) 0x20 [0, 1] permR 32 .load false 0x60 (xAt (poisoned rig) 0x60 .load) ∧
    reaches (poisoned rig) rig (getC rig 1) 0x38 [0] permR 8 .load true 0x78 (xAt (poisoned rig) 0x78 .load) ∧ (xAt (poisoned rig) 0x78 .load).un = false ∧
    orderWaits (poisoned rig) (whoOf 0 rig) ((xAt (poisoned rig) 0x78 .load).pa / 64) true false 5 = false ∧
    (atHome (reachHome (acquireAt (beforeAtomic (poisoned rig) 0 ((xAt (poisoned rig) 0x78 .load).pa / 64)) 0 5 ((xAt (poisoned rig) 0x78 .load).pa / 64)) 0 1
      (xAt (poisoned rig) 0x78 .load)) (xAt (poisoned rig) 0x78 .load)).poison = true := by
  refine ⟨?_, ⟨?_, rfl, ?_, ?_, hits_iff _ _ _ ?_, ?_, ?_, ?_⟩, ⟨?_, rfl, ?_, ?_, hits_iff _ _ _ ?_, ?_, ?_, ?_⟩, ⟨?_, rfl, ?_, ?_, hits_iff _ _ _ ?_, ?_, ?_, ?_⟩, ?_⟩ <;> decide +kernel
/-- a poisoned byte is an uncorrectable-data fault, which ends the firing (R67, R201) -/
theorem test_poisoned_load : goes (exec (.ld ax ⟨.c 9, 1, .c 0, 0, 0, false, 0⟩) (poisoned rig)) (fun s => (threadOf s 0).isNone) = true := by decide +kernel
/-- c7 reaches farther than there are pages, page 4 may not be written nor keep tags, and the context has spent its bytes -/
def wide : Thread := setC rig 7 (capOf 0x40 0x7F 0 0x100000 0)
def leafRo : W64 := 0x9C00000000050000
def narrow (t : Thread) : State := let s := inPage t
  setCore s 0 { Machine.core s 0 with tlb := tlb3 ++ [⟨1, 0x40000, leafRo, 0⟩] }
def spent (t : Thread) : State := let s := setCtx (feat (inPage t)) 1 { ctx1 with sched := { ctx1.sched with hbm := 7 }, hbmBytes := 7, spentBytes := true }
  { s with time := ctx1.periodStart }
def waitsFor (s : State) (va : Nat) (n : Need) : Bool := match translate s 0 1 va n with | .wait _ => true | _ => false
def faultsAt (s : State) (va : Nat) (n : Need) : Bool := match translate s 0 1 va n with | .fault _ _ => true | _ => false
theorem test_hyp_AccessFaults_stops : Runs ax (inPage wide) wide ∧ checkCap (getC wide 4) [0, 1] permR (memAddr (getC wide 4) 0) 8 = .ok () ∧ capKind (getC wide 4).bits ∉ [0] ∧
    checkCap (getC wide 7) [0] permR 0x20040 8 = .ok () ∧ checkCap (getC wide 7) [0, 1] permR 0x20040 32 = .ok () ∧ (0x20040 : W64).toNat % 32 = 0 ∧ (0x20044 : W64).toNat % 8 ≠ 0 ∧
    capKind (getC wide 7).bits ≠ 1 ∧ waitsFor (inPage wide) 0x20040 .load = true ∧ waitsFor (inPage wide) 0x20040 .atomic = true ∧ faultsAt (narrow wide) 0x40040 .store = true ∧
    faultsAt (narrow wide) 0x40040 .atomic = true ∧ hits (spent wide) 0x40 .load = true ∧ (xAt (spent wide) 0x40 .load).rd = false ∧
    accessHeld (spent wide) (whoOf 0 wide) (xAt (spent wide) 0x40 .load) true = true ∧ byteHeld (spent wide) 1 (xAt (spent wide) 0x40 .atomic) true = true ∧
    (spent wide).host.on1.getLsbD 10 = true := by
  refine ⟨⟨?_, ?_⟩, rfl, ?_, rfl, rfl, ?_⟩ <;> decide +kernel
/-- c1 over page 0 without C, and c7 over a page that keeps no tags; c4 is what is stored -/
def bare : Thread := setC rig 1 (capOf 0x40 (0x7F &&& ~~~permC) 0 0x10000 0)
def leafNt : W64 := 0xBC00000000010000
def noTags : State := let s := on wide
  setCore s 0 { Machine.core s 0 with tlb := [⟨1, 0, leafNt, 0⟩] }
theorem test_hyp_AccessFaults_tags : reaches (inPage bare) bare (getC bare 1) 0 [0, 1] permW 32 .store false 0x40 (xAt (inPage bare) 0x40 .store) ∧ hasPerm (getC bare 1).bits permC = false ∧
    (getC bare 4).tag = true ∧ hasPerm (withPerms (getC bare 4).bits 0) permG = false ∧ hasPerm (getC wide 1).bits permC = true ∧ hasPerm (getC wide 4).bits permG = true ∧
    reaches noTags wide (getC wide 1) 0 [0, 1] permW 32 .store false 0x40 (xAt noTags 0x40 .store) ∧ (xAt noTags 0x40 .store).ct = false := by
  refine ⟨⟨?_, rfl, ?_, ?_, hits_iff _ _ _ ?_, ?_, ?_, ?_⟩, ?_, ?_, ?_, ?_, ?_, ⟨?_, rfl, ?_, ?_, hits_iff _ _ _ ?_, ?_, ?_, ?_⟩, ?_⟩ <;> decide +kernel
end

section
open Sys2Proof.Claims

/-! ### Streams, fences -/

/-- c1's cursor is at its limit; c4's first 2 bytes, scratch lines 1 and 2, are read by a skip stream -/
def skipD (pos : Nat) (put : Option (BitVec 16)) : Stream := { kind := .skip put, cap := (getC rigU 4).bits, ebits := 16, count := 256, pos := pos }
def skipper (d : Stream) : Thread := { setS rigU 1 (some d) with slice := [] }
theorem test_hyp_StreamInstructions_empty : checkHandle (capOf 0x10000 0x7F 0 0x10000 0) [0, 1] 0 = .ok () ∧
    capLimit (capOf 0x10000 0x7F 0 0x10000 0).bits ≤ curOf (capOf 0x10000 0x7F 0 0x10000 0) ∧
    okRes (defineStream streams 1 { kind := .strided [] [], cap := (capOf 0x10000 0x7F 0 0x10000 0).bits, ebits := 32, count := 0, pos := 0 }) = true := by
  refine ⟨rfl, ?_⟩; decide +kernel
theorem test_hyp_StreamInstructions_skip : accessStream (skipper (skipD 3 none)) 1 = some (skipD 3 none) ∧ (skipD 3 none).kind = .skip none ∧ (skipD 3 none).pos < (skipD 3 none).count ∧
    (skipD 0 (some 5)).kind = .skip (some 5) ∧ (skipD 256 none).count ≤ (skipD 256 none).pos ∧ (getL (skipper (skipD 3 none)) 0).length + 1 ≤ 32 ∧
    checkCap ⟨(skipD 3 none).cap, true⟩ [1] permR (BitVec.ofNat 64 ((capCursor (skipD 3 none).cap).toNat + 2 * 3)) 2 = .ok () ∧
    answers (aLoad (whoOf 0 (skipper (skipD 3 none))) (skipD 3 none).cap ((capCursor (skipD 3 none).cap).toNat + 2 * 3) 2 (inPage (skipper (skipD 3 none)))) (fun x => x.1 == 0) = true ∧
    isElems lin.kind = true := by
  refine ⟨?_, rfl, ?_, rfl, ?_, ?_, rfl, ?_⟩ <;> decide +kernel
/-- the firing has written to peer 2, whose port stands in a state -/
def wrote : Thread := { rig with opn := { rig.opn with peers := [2] } }
def behind (st : PortState) : State := let s := inPage wrote
  { s with links := { s.links with ports := [(1, { portReset with state := st })], routes := [(2, 1)] } }
theorem test_hyp_FencesAndLines_ports : Runs ax (behind .up) wrote ∧ writesWait (behind .retraining) 0 1 = true ∧ writesWait (behind .up) 0 1 = false ∧ writesWait (behind .down) 0 1 = true ∧
    wrote.opn.lostWrite = false := by refine ⟨⟨?_, ?_⟩, ?_⟩ <;> decide +kernel
/-- FENCE.dev waits for the port of a peer written to, FENCE.sys goes on once it is up (R14, R113) -/
theorem test_fence_waits : goes (exec (.fence ax ⟨9, 4⟩) (behind .retraining)) (fun s => (curThread s).map (fun t => (t.pc, getP t 9)) == some (0, false)) = true ∧
    goes (exec (.fence ax ⟨9, 5⟩) (behind .up)) (fun s => (curThread s).map (fun t => (t.pc, getP t 9)) == some (12, true)) = true := by decide +kernel

/-! ### Events, messages -/

def evS (es : List Event) (ws : List (Nat × Bool)) : State := setCtx (world false [] hand) 1 { ctx1 with events := [(0, es)], evWaits := [(0, ws)] }
def other : Event := { anEvent with rcd := { anEvent.rcd with tag := 6 } }
theorem test_hyp_EventQueues : Runs ax (evS [] []) hand ∧ evHandle (getC hand 3) = .ok 0 ∧ evWaitsOf (evS [] []) 1 0 = [] ∧
    evAhead 0 (evWaitsOf (evS [] [(1, true), (2, false)]) 1 0) = 1 ∧ (eventsOf (evS [anEvent, other] [(1, true)]) 1 0).drop 1 = other :: [] ∧
    (eventsOf (evS [anEvent] [(1, true)]) 1 0).drop 1 = [] ∧ (eventsOf (evS [] []) 1 0).drop 0 = [] ∧ ([(0, true)] : List (Nat × Bool)).any (·.1 == 0) = true ∧
    ([(1, true)] : List (Nat × Bool)).any (·.1 == 0) = false ∧ hand.safe = none ∧ (getL hand 1).length + 2 ≤ 32 := by
  refine ⟨⟨?_, ?_⟩, rfl, ?_⟩ <;> decide +kernel
/-- core 1's EVPOP came first: the second record is core 0's, the first stays (R417) -/
theorem test_evpop_in_turn : goes (exec (.evpop ax ⟨.c 9, 3⟩) (evS [anEvent, other] [(1, true)])) (fun s => (eventsOf s 1 0).map (·.rcd.tag) == [5]) = true ∧
    goes (exec (.evpop ax ⟨.c 9, 3⟩) (evS [anEvent] [(1, true)])) (fun s => evWaitsOf s 1 0 == [(1, true), (0, true)]) = true := by decide +kernel
/-- a VERDICT to the Joiner by c9, its 32-byte body in page 0 under c6; the slot of c6 holds capability c1 without E -/
def verdictO (defer : Bool) : EngOps := { eng0 with d := 3, a := 9, b := .c 6, cmd := (if defer then 1#27 <<< 26 else 0) ||| (0x20#27 <<< 18) ||| (2#27 <<< 14) }
def sender : Thread := setC hand 9 (handleOf 8 6)
def bodyS (e : Bool) (t : Thread) : State := let s := world true [] t
  setMem s { s.mem with cells := writeCells [] 0x10040 (toBytes 24 (capOf 0 (if e then 0x7F else 0x7F &&& ~~~permE) 0 0x100 0).bits.toNat), tags := [0x10040 / 32] }
theorem test_hyp_Sends_body : curOf (getC hand 6) = 0x40 ∧ checkCap (getC hand 6) [0] permR (capCursor (getC hand 6).bits) 32 = .ok () ∧ hits (bodyS true hand) 0x40 .load = true ∧
    (xAt (bodyS true hand) 0x40 .load).rd = false ∧ accessHeld (bodyS true hand) (whoOf 0 hand) (xAt (bodyS true hand) 0x40 .load) false = false ∧ (sec0 (bodyS true hand) 0x40).1.poison = false ∧
    hasPerm (getC hand 6).bits permC = true ∧ hits (sec0 (bodyS true hand) 0x40).2 0x40 .load = true ∧ accessHeld (sec0 (bodyS true hand) 0x40).2 (whoOf 0 hand) (xAt (bodyS true hand) 0x40 .load) false = false ∧
    (sec0 (sec0 (bodyS true hand) 0x40).2 0x40).1.poison = false ∧ (sec0 (sec0 (bodyS true hand) 0x40).2 0x40).1.tags.getLsbD 0 = true ∧ (xAt (bodyS true hand) 0x40 .load).ct = true ∧
    hasPerm (BitVec.ofNat 192 (secBytes (sec0 (sec0 (bodyS true hand) 0x40).2 0x40).1.data 0 24)) permE = true ∧
    hasPerm (BitVec.ofNat 192 (secBytes (sec0 (sec0 (bodyS false hand) 0x40).2 0x40).1.data 0 24)) permE = false ∧ hasPerm (getC bare 1).bits permC = false := by
  refine ⟨rfl, rfl, ?_⟩; decide +kernel
def bodyGot (s : State) (t : Thread) (o : EngOps) : List Byte × List Bool := match aBody (whoOf 0 t) (regOf t o.b) 32 s with | .ok (x, _) => x | .error _ => ([], [])
def full17 : Thread := { sender with opn := { sender.opn with deferred := List.replicate 16 { target := cZero, reply := cZero, acq := false, rel := false, scope := 0, tag := 0, op := 0, body := [], bodyTags := [] } } }
/-- c9 as a queue's target, its item of 16 bytes; no room in a second one -/
def queueO : EngOps := { eng0 with d := 0, a := 4, b := .c 6 }
def verdictC (t : Thread) (s : State) : Message := { target := getC t 9, reply := getC t 3, acq := false, rel := false, scope := 0, tag := 0, op := 0x20, body := (bodyGot s t (verdictO false)).1, bodyTags := (bodyGot s t (verdictO false)).2 }
theorem test_hyp_Sends : Runs ax (bodyS true sender) sender ∧ sendTarget (getC sender 9) 0x20 32 = .ok () ∧ okRes (sendReply sender (verdictO false)) = true ∧ sendLen (bodyS true sender) (getC sender 9) 32 = 32 ∧
    (bodyGot (bodyS true sender) sender (verdictO false)).2 = [true] ∧ (verdictO true).cmd.getLsbD 26 = true ∧ (verdictO false).cmd.getLsbD 26 = false ∧ 16 ≤ full17.opn.deferred.length ∧
    messageInstr (curOf (getC sender 9) % 256) 0x20 32 = some .verdict ∧ messageInstr (curOf (getC hand 8) % 256) 0 0 = none ∧
    (pushInbox (bodyS true sender) (messageEngine (curOf (getC sender 9) % 256) (curOf (getC sender 9) / 256 % 64)) (msgCmd 0 1 (verdictC sender (bodyS true sender)) .verdict)).isSome = true ∧
    releaseWaits false 0 1 (bodyS true sender) = false := by
  refine ⟨⟨?_, ?_⟩, rfl, ?_⟩ <;> decide +kernel
def jam (n : Nat) : State := setCluster (bodyS true sender) 0 { cluster (bodyS true sender) 0 with joiner := List.replicate n { cmdOf (.withdraw ax eng0) eng0 sender (bodyS true sender) with instr := .verdict } }
def crammed : State := let s := bodyS true sender
  setWork s { s.work with frames := [{ frame1 with queues := [{ q0 with depth := 0 }] }] }
theorem test_hyp_Sends_full : (pushInbox (jam 64) (messageEngine (curOf (getC sender 9) % 256) (curOf (getC sender 9) / 256 % 64)) (msgCmd 0 1 (verdictC sender (bodyS true sender)) .verdict)).isSome = false ∧
    sendTarget (getC sender 4) 0 0 = .ok () ∧ okRes (sendReply sender queueO) = true ∧ sendLen (bodyS true sender) (getC sender 4) 0 = 16 ∧ capKind (getC sender 4).bits = 3 ∧
    (putItem (bodyS true sender) 1 1 0 (plainItem (List.replicate 16 0) [false])).isSome = true ∧ (putItem crammed 1 1 0 (plainItem (List.replicate 16 0) [false])).isSome = false ∧
    releaseWaits true 0 1 (bodyS true sender) = false := by
  refine ⟨?_, rfl, ?_⟩ <;> decide +kernel
/-- a release waits for a port, deferred or not (R14) -/
def dirtyPeer : State := let s := bodyS true sender
  let x : L1Sector := { l1Fill default 1 false with mask := 1, ctxs := [1] }
  { setCore s 0 { Machine.core s 0 with l1 := [(2 * paSpace / 64, x)] } with links := { s.links with ports := [(1, { portReset with state := .retraining })], routes := [(2, 1)] } }
theorem test_hyp_Sends_release : releaseWaits true 0 1 dirtyPeer = true ∧ releaseWaits false 0 1 dirtyPeer = false := by decide +kernel
end

section
open Sys2Proof.Claims

/-! ### Validity, walks, translation, idling -/

theorem test_hyp_ValidityInstructions_asks : getF hand 1 = .empty ∧ hand.blockA = .none ∧ checkHandle (getC hand 5) [6] permR = .ok () ∧
    (pushInbox (freshReq (world true [] hand)).2 (.scribe (homeOf (world true [] hand) 1 (getC hand 5)))
      { askCmd (.wholdBefore ax ⟨1, 5, .c 0, .c 0, 2⟩) (getC hand 5) (regOf hand (.c 0)) (toBytes 8 (readCI hand (.c 0)).toNat) hand (world true [] hand) with req := (freshReq (world true [] hand)).1 }).isSome = true := by
  refine ⟨?_, ?_, rfl, ?_⟩ <;> decide +kernel
/-- WHOLD makes its f register pending until it is answered (R297) -/
theorem test_whold_pends : goes (exec (.wholdBefore ax ⟨1, 5, .c 0, .c 0, 2⟩) (world true [] hand)) (fun s => (curThread s).map (getF · 1) == some .pending) = true := by decide +kernel
/-- a walk that names a group the hold shows, and one whose group is gone -/
theorem test_hyp_KilnWalks_next : answers (walkNext seq1 2 0 8 [0] (some hold1.blocks) 0 opened) (fun x => x.1 == some ((0x00000000000003000000000000010000, 1), 1)) = true ∧
    answers (walkNext seq1 2 0 8 [0] none 0 opened) (fun x => x.1 == none) = true ∧ (walkD 0).pos < [0].length ∧ [0].length ≤ (walkD 1).pos ∧ seqOf opened 1 = some seq1 ∧
    seqOf (world false [] hand) 1 = none := by decide +kernel
def firing0 : Thread := { tlbT with id := { fireId with ctx := 0 } }
theorem test_hyp_TranslationInstructions_refused : sameMiss miss1 (tlbwrEntry tlbT ⟨8, 2, 2, 3⟩) = true ∧ entryOk (svc tlbT) (tlbwrEntry tlbT ⟨8, 2, 2, 3⟩) = false ∧
    sameMiss miss1 (tlbwrEntry (put tlbT 2 65536) ⟨8, 1, 2, 3⟩) = false ∧ headMiss (on tlbT) (on tlbT).cur.core = none ∧ Runs ax (on tlbT) tlbT ∧ Runs ax (on firing0) firing0 ∧
    firing0.id.firmware = false ∧ firing0.id.ctx = 0 ∧ (on firing0).cur.core < 1024 ∧ entryOk (on firing0) (tlbwrEntry firing0 ⟨8, 1, 2, 3⟩) = true ∧
    entryOk (on firing0) (tlbwrEntry firing0 ⟨8, 2, 2, 3⟩) = false := by
  refine ⟨?_, ?_, ?_, ?_, ⟨?_, ?_⟩, ⟨?_, ?_⟩, ?_⟩ <;> decide +kernel
theorem test_hyp_TranslationInstructions_ranges : (getW tlbT 2).toNat = 0 ∧ (getW (put tlbT 4 5) 4).toNat ≠ 0 ∧ (getW (put tlbT 4 5) 4).toNat % 65536 ≠ 0 ∧
    vaOf (getW (put tlbT 4 5) 4) % 65536 ≠ 0 ∧ ({ tlbT with blockA := .request 3 (some 1) } : Thread).blockA = .request 3 (some 1) := by decide +kernel
theorem test_tlbinv_misaligned : goes (exec (.tlbinv ax ⟨8, 2, 4, 3, 0, false⟩) (svc (put tlbT 4 5))) (fun s => (curThread s).map (fun t => (t.fw.tin, t.fw.tcause)) == some (true, tMisaligned)) = true ∧
    goes (exec (.tlbwrFill ax ⟨8, 2, 2, 3⟩) (svc tlbT)) (fun s => (cluster s 0).misses.isEmpty && (curThread s).map (getP · 8) == some false) = true := by decide +kernel
def idle0 : Thread := { fire with id := { fireId with ctx := 0 } }
theorem test_hyp_HeartbeatAndIdle_firing : Runs ax (on idle0) idle0 ∧ idle0.id.firmware = false ∧ idle0.id.ctx = 0 ∧ (idler .woken).blockA = .woken ∧ Runs ax (on (idler .woken)) (idler .woken) := by
  refine ⟨⟨?_, ?_⟩, ?_, ?_, ?_, ⟨?_, ?_⟩⟩ <;> decide +kernel
theorem test_idle : goes (exec (.idle ax ⟨8, 5⟩) (on idle0)) (fun s => (curThread s).map (fun t => (t.pc, getP t 8)) == some (12, false)) = true ∧
    goes (exec (.idle ax ⟨8, 5⟩) (on (idler .woken))) (fun s => (curThread s).map (fun t => (t.pc, getP t 8)) == some (12, true)) = true := by decide +kernel

/-! ### Events -/

def stopped : State := { State.reset with host := { hostReset with state := .fatal } }
theorem test_hyp_HostWindow_clear : stopped.host.state = .fatal ∧ rdy.host.state ≠ .fatal ∧ (arg (.ix2 1 (5 * 2 ^ 32)) rdy).cur.arg = .ix2 1 (5 * 2 ^ 32) ∧ (5 * 2 ^ 32) % 256 = 0 ∧
    (5 * 2 ^ 32 + 1) % 256 ≠ 0 ∧ (slotOfHost rdy 1).state ≠ 0x80 ∧ (slotOfHost (setSlot rdy 1 { slotReset with state := 0x80 }) 1).state = 0x80 ∧ (1 : Nat) < 4096 := by decide +kernel
theorem test_hyp_InterruptsAndOutsideAccesses_other : running State.reset = false ∧ ({ cxlR none with unsupported := true } : CxlReq).unsupported = true ∧ rdy.host.on1.getLsbD 4 = false ∧
    running (feat rdy) = true ∧ (cxlR none).cached = false ∧ hdmRange (feat rdy) 0x40 2 = some [0x40, 0x41] ∧ ([0x40, 0x41].map (· / 64)).eraseDups = [1] ∧
    deviceMem rdy 0x100 4 = true ∧ inReserve rdy 0x100 4 = false := by decide +kernel
/-- a host read of a poisoned sector is told so (R67), and any request before READY is unsupported (R20) -/
theorem test_host_read_of_poison : goes (exec .hostCxlMemAccess (setMem (feat (arg (.cxl (cxlR none)) rdy)) { rdy.mem with poison := [1] })) (fun s => s.host.replyPoison && s.host.reply.isSome) = true ∧
    goes (exec .hostCxlMemAccess (arg (.cxl (cxlR none)) State.reset)) (fun s => s.host.reply.isNone) = true := by decide +kernel
/-- a Kiln command's state once it is taken -/
def headOf (c : Cmd) (s : State) : State := sweepHolds (retryMarks (setDie (atKiln c s) 0 { die (atKiln c s) 0 with kiln := dropAt [c] 0 }))
def badOpen : Cmd := cmd .seqopen (List.replicate 64 0)
theorem test_hyp_ShootdownsAndSequenceMessages_heads : (die (atKiln openCmd unopened) 0).kiln[0]? = some openCmd ∧ firstOfSeq (atKiln openCmd unopened) openCmd = true ∧
    seqNamed (headOf openCmd unopened) openCmd = none ∧ answers (seqopen 0 openCmd (headOf openCmd unopened)) (fun x => x.1.status == 0) = true ∧
    (match seqopen 0 badOpen (headOf badOpen unopened) with | .error (.status _) => true | _ => false) = true ∧ hasKiln (headOf openCmd hosted) = false ∧
    seqNamed (headOf closeCmd (feat opened)) closeCmd = some seq1 ∧ rotationOpen (headOf closeCmd (feat opened)) seq1 = false ∧ marksWait (headOf closeCmd (feat opened)) seq1 = false ∧
    (headOf closeCmd (feat opened)).work.edits = [] ∧ mustSettle (headOf closeCmd (feat opened)) closeCmd = false ∧ answers (seqclose closeCmd (headOf closeCmd (feat opened))) (fun x => x.1.status == 0) = true ∧
    seqNamed (headOf closeCmd unopened) closeCmd = none ∧ hasKiln (headOf closeCmd unopened) = true ∧ capGood (bodyCap closeCmd 0) [6] 0 = true ∧ seqOfHandle (headOf closeCmd unopened) 1 (bodyCap closeCmd 0) = none := by decide +kernel
theorem test_hyp_ShootdownsAndSequenceMessages_attest : stopsServing attestS = false ∧ inGap attestS 0 = false ∧ attestS.host.state = .ready ∧ (die attestS 0).firmware[0]?.map (fun c => isAttest c.instr) = some true ∧
    isProving attestS 0 = false ∧ ({ shootS.work with shootdowns := [⟨1, 0, 65536, false, none, 0, 3, some touch1⟩] }).shootdowns[0]?.bind (·.collapse) = some touch1 := by decide +kernel
/-- a staged ATTEST that fails is answered again, one at a page without a translation waits -/
def staged (c : Cmd) (p : ShorePhase) : Shoring := { inPhase p with kind := 0, log := [c] }
def again (c : Cmd) (p : ShorePhase) : State := { feat hosted with fw := { (feat hosted).fw with shoring := some (staged c p) } }
def shortAttest : Cmd := cmd .attest (List.replicate 64 0)
def missAttest : Cmd := cmd .attest (List.replicate 32 0 ++ capBytes (capOf 0x40 0x7F 0 0x10000 0))
def isOkE {α β : Type} (r : Except α β) : Bool := match r with | .ok _ => true | .error _ => false
theorem test_hyp_ShoringPhases_rehandle : (again shortAttest .rehandle).fw.shoring = some (staged shortAttest .rehandle) ∧ isOkE (rehandleOne (staged shortAttest .rehandle) shortAttest (again shortAttest .rehandle)) = true ∧
    isOkE (rehandleOne (staged missAttest .rehandle) missAttest (again missAttest .rehandle)) = false ∧ (staged shortAttest .fallback).phase = .fallback ∧ isAttest shortAttest.instr = true ∧
    isAttest (mgmtCmd vecImg .slotvec).instr = false ∧ (again missAttest .fallback).fw.shoring = some (staged missAttest .fallback) ∧ (inPhase .rehandle).log = [] := by decide +kernel
/-- the waiting ATTEST keeps the log (R57) -/
theorem test_rehandle_waits : goes (exec .shoreFallbackComplete (again missAttest .fallback)) (fun s => match s.fw.shoring with | some q => q.phase == .rehandle && q.log == [missAttest] | none => false) = true ∧
    goes (exec .shoreFallbackComplete (again shortAttest .fallback)) (fun s => s.fw.shoring.isNone) = true := by decide +kernel
end

section
open Sys2Proof.Claims

/-! ### Paging, the Joiner, sequences, the matrix array -/

/-- the leaf that the first touch meets maps nothing by then; a replica stands already -/
def unmapped : State := let s := touched [0x30000]
  setMem s { s.mem with cells := [] }
def noneT (x : TouchEnd) : Bool := match x with | .got none _ => true | _ => false
def replicated : State := setWork (dupS true) { workReset with replicas := [{ ctx := 1, va := 0, frame := 0x50000, die := 0, leaf := dupLeaf, leafPa := 0x2030000, stale := false }] }
theorem test_hyp_Paging_ends : noneT (firstTouch unmapped 0 ⟨1, 0, anonLeaf, 0x2000000⟩) = true ∧ (cluster unmapped 0).touches[0]? = some touch1 ∧ hasFirstTouch unmapped = true ∧
    (replicaOf replicated 1 0 (dieOfCluster 0)).isSome = true ∧ leafPeer dupLeaf = 0 := by decide +kernel
/-- the touch is gone, and the access finds that the page is not there (R87, R92) -/
theorem test_touch_of_an_unmapped_page : goes (exec .firstTouchServe unmapped) (fun s => (cluster s 0).touches.isEmpty && (tlbFind (Machine.core s 0).tlb 1 0).isNone && (die s 0).ring == [0x30000]) = true := by decide +kernel
/-- ready a long time, and no core free -/
def overdue : State := { r0 (due 2000000) with time := 10 ^ 15 }
theorem test_hyp_JoinerEvents_overdue : (bestCand ((coreless (r0 overdue) 0).filter (isOverdue (r0 overdue)))).isSome = true := by decide +kernel
/-- ten ns of two cycles each behind the period's end -/
def late1 : LateSpent := { what := .cycles, start := ctx1.periodStart + ctx1.sched.period * 1000, stop := ctx1.periodStart + ctx1.sched.period * 1000 + 10, each := 2 }
theorem test_hyp_JoinerEvents_late : ({ ctx1 with late := [late1] }).late = [late1] ∧ late1.start = ctx1.periodStart + ctx1.sched.period * 1000 ∧
    late1.stop ≤ late1.start + (ctx1.nextSched.getD ctx1.sched).period * 1000 ∧ late1.what = .cycles ∧ ctx1.late = [] := by decide +kernel
theorem test_next_period_is_charged : (nextPeriod { ctx1 with late := [late1], cycles := 99 }).cycles = 20 := by decide +kernel
theorem test_hyp_SequenceAndEngineEvents_kept : seqOf (sweepHolds (retryMarks waveS)) 1 = some seq1 ∧ answers (advance seq1 (sweepHolds (retryMarks waveS))) (fun _ => true) = true ∧
    marksWait editS seq1 = false ∧ ((cluster copyS 0).copy.take 16)[0]? = some cpyCmd ∧ (afterS.work.holds.find? (fun h => h.req == 4 && !h.granted)).isSome = true ∧ seqOf afterS 1 = some seq1 := by decide +kernel
/-- A, B and then the scales, of an MMUL and of an MGRP of one row -/
theorem test_hyp_RemainingFormsComplete_scales : thenK (aEach (readSkip (mmulO.km1.toNat + 1)) (gangThreads mul 0 1) mul) (fun ds s1 => ds.all (· == skip0) &&
      thenK (aEach (fun x => readA (matOf x.2) dense0 x) (gangThreads mul 0 1) s1) (fun _ s2 => thenK (aEach (fun x => readB (matOf x.2) dense0 x) (gangThreads mul 0 1) s2) (fun _ s3 =>
        thenK (aEach (fun x => readSa (matOf x.2) x) (gangThreads mul 0 1) s3) (fun _ s4 => answers (aEach (fun x => readSb (matOf x.2) x) (gangThreads mul 0 1) s4) (fun _ => true))))) = true ∧
    (gangThreads (grp 1) 0 1).head?.map (fun x => groupCounts (readCI x.2 (matOf x.2).tc)) = some (groupCounts 1) ∧
    thenK (aEach (fun x => readA (matOf x.2) dense0 x) (gangThreads (grp 1) 0 1) (grp 1)) (fun _ s1 =>
      thenK (aEach (fun x => aEach (fun c => if c = 0 then pure [] else readB (matOf x.2) dense0 x) (groupCounts 1)) (gangThreads (grp 1) 0 1) s1) (fun _ s2 =>
        thenK (aEach (fun x => readSa (matOf x.2) x) (gangThreads (grp 1) 0 1) s2) (fun _ s3 =>
          answers (aEach (fun x => aEach (fun c => if c = 0 then pure [] else readSb (matOf x.2) x) (groupCounts 1)) (gangThreads (grp 1) 0 1) s3) (fun _ => true)))) = true := by decide +kernel
theorem test_hyp_RemainingFormsComplete_marks : marksWait editable seq1 = false ∧ sweepHolds (retryMarks waving) = waving ∧ seqOf (sweepHolds (retryMarks rdy)) 1 = none ∧ seqNamed editable delCmd = some seq1 := by decide +kernel
end

end Sys2Proof.Tests
end

/-! ## What the device's shared operations leave as it was -/
namespace Sys2Proof.Proofs.Device
open Sys2Proof.Machine Sys2Proof.Laws.State Sys2Proof.Laws.Ops

/-- what every step of a fold keeps, the fold keeps -/
theorem foldl_keeps {α β γ : Type} (g : α → γ) {f : α → β → α} (h : ∀ a b, g (f a b) = g a) (l : List β) (a : α) :
    g (l.foldl f a) = g a :=
  List.foldlRecOn (motive := fun x => g x = g a) l f rfl (fun x e b _ => (h x b).trans e)

/-! ### Vectors, slots and HSTAT -/

/-- a raise touches the interrupts alone (R34) -/
theorem raiseVector_eq (s : State) (v : Nat) : raiseVector s v = { s with msix := (raiseVector s v).msix } := by
  simp only [raiseVector, deliverVector]
  split <;> split <;> rfl
@[simp] theorem raiseVector_host (s : State) (v : Nat) : (raiseVector s v).host = s.host := by rw [raiseVector_eq]
@[simp] theorem raiseVector_cores (s : State) (v : Nat) : (raiseVector s v).cores = s.cores := by rw [raiseVector_eq]
@[simp] theorem raiseVector_ctxs (s : State) (v : Nat) : (raiseVector s v).ctxs = s.ctxs := by rw [raiseVector_eq]
@[simp] theorem raiseVector_work (s : State) (v : Nat) : (raiseVector s v).work = s.work := by rw [raiseVector_eq]
@[simp] theorem raiseVector_readyAt (s : State) (v : Nat) : (raiseVector s v).readyAt = s.readyAt := by rw [raiseVector_eq]
/-- a slot left touches the slots and the interrupts alone (R23, R34) -/
theorem leaveSlot_eq (s : State) (n : Nat) (err : Byte) :
    leaveSlot s n err = { s with slots := (leaveSlot s n err).slots, msix := (leaveSlot s n err).msix } := by
  simp only [leaveSlot]
  split
  · rw [raiseVector_eq]; rfl
  · rfl
/-- slots ended touch the slots and the interrupts alone -/
theorem endSlots_eq (s : State) : endSlots s = { s with slots := (endSlots s).slots, msix := (endSlots s).msix } := by
  refine List.foldlRecOn (motive := fun x : State => x = { s with slots := x.slots, msix := x.msix }) _ _ rfl fun x e y _ => ?_
  rw [leaveSlot_eq, e]
@[simp] theorem endSlots_host (s : State) : (endSlots s).host = s.host := by rw [endSlots_eq]
@[simp] theorem endSlots_cores (s : State) : (endSlots s).cores = s.cores := by rw [endSlots_eq]
@[simp] theorem endSlots_ctxs (s : State) : (endSlots s).ctxs = s.ctxs := by rw [endSlots_eq]
@[simp] theorem endSlots_work (s : State) : (endSlots s).work = s.work := by rw [endSlots_eq]
@[simp] theorem endSlots_mem (s : State) : (endSlots s).mem = s.mem := by rw [endSlots_eq]
/-- a new FCODE touches itself and the interrupts alone -/
theorem setFcode_eq (s : State) (c : BitVec 16) :
    setFcode s c = { s with host := { s.host with fcode := c }, msix := (setFcode s c).msix } := by
  unfold setFcode
  split
  · next h => rw [← h]
  · rw [raiseState, raiseVector_eq]
@[simp] theorem setFcode_host (s : State) (c : BitVec 16) : (setFcode s c).host = { s.host with fcode := c } := by rw [setFcode_eq]
@[simp] theorem setFcode_cores (s : State) (c : BitVec 16) : (setFcode s c).cores = s.cores := by rw [setFcode_eq]
@[simp] theorem setFcode_ctxs (s : State) (c : BitVec 16) : (setFcode s c).ctxs = s.ctxs := by rw [setFcode_eq]
@[simp] theorem setFcode_work (s : State) (c : BitVec 16) : (setFcode s c).work = s.work := by rw [setFcode_eq]
@[simp] theorem setFcode_mem (s : State) (c : BitVec 16) : (setFcode s c).mem = s.mem := by rw [setFcode_eq]
@[simp] theorem setState_host (s : State) (st : HState) : (setState s st).host = { s.host with state := st } := rfl
@[simp] theorem setState_cores (s : State) (st : HState) : (setState s st).cores = s.cores := rfl
@[simp] theorem setState_ctxs (s : State) (st : HState) : (setState s st).ctxs = s.ctxs := rfl
@[simp] theorem setState_work (s : State) (st : HState) : (setState s st).work = s.work := rfl
@[simp] theorem setState_readyAt (s : State) (st : HState) : (setState s st).readyAt = s.readyAt := rfl
@[simp] theorem raiseState_host (s : State) : (raiseState s).host = s.host := raiseVector_host s 63
@[simp] theorem raiseState_cores (s : State) : (raiseState s).cores = s.cores := raiseVector_cores s 63
@[simp] theorem raiseState_ctxs (s : State) : (raiseState s).ctxs = s.ctxs := raiseVector_ctxs s 63
@[simp] theorem raiseState_work (s : State) : (raiseState s).work = s.work := raiseVector_work s 63
@[simp] theorem raiseState_readyAt (s : State) : (raiseState s).readyAt = s.readyAt := raiseVector_readyAt s 63

/-! ### Abandoned work (R39) -/

theorem mem_of_mfind {α : Type} {m : Map α} {q : Nat} {x : α} (h : mfind m q = some x) : (q, x) ∈ m := by
  induction m with
  | nil => simp [mfind] at h
  | cons p t ih =>
    obtain ⟨k, v⟩ := p
    rw [mfind] at h
    split at h
    · next e => cases h; simp [e]
    · exact List.mem_cons_of_mem _ (ih h)
/-- the thread of a core is read off the cores alone -/
theorem threadOf_congr {s s' : State} (h : s'.cores = s.cores) (k : Nat) : threadOf s' k = threadOf s k := by
  simp only [threadOf, Machine.core, h]
/-- what is kept of a core over abandoned work is its placement, no thread (R211) -/
theorem thread_of_mem_keepPlacement {cores : Map CoreSt} {x : Nat × CoreSt} (h : x ∈ keepPlacement cores) : x.2.thread = none := by
  obtain ⟨y, -, rfl⟩ := List.mem_map.mp h
  rfl
@[simp] theorem threadOf_abandon (s : State) (k : Nat) : threadOf (abandon s) k = none := by
  simp only [threadOf, Machine.core, abandon, mget]
  cases h : mfind (keepPlacement s.cores) k with
  | none => rfl
  | some x => exact thread_of_mem_keepPlacement (mem_of_mfind h)
@[simp] theorem abandon_host (s : State) : (abandon s).host = s.host := rfl
@[simp] theorem abandon_ctxs (s : State) : (abandon s).ctxs = [] := rfl
@[simp] theorem abandon_work (s : State) : (abandon s).work = workReset := rfl
@[simp] theorem abandon_l2 (s : State) : (abandon s).mem.l2 = [] := rfl

/-! ### What a device-fatal error leaves (R59, R60) -/

section
variable (s : State) (cause d : Nat) (e : Byte)
@[simp] theorem fatalError_state : (fatalError s cause d e).host.state = .fatal := by
  rw [fatalError, raiseState_host, setState_host]
@[simp] theorem threadOf_fatalError (k : Nat) : threadOf (fatalError s cause d e) k = none := by
  rw [fatalError, threadOf_congr (raiseState_cores _), threadOf_congr (setState_cores _ _), threadOf_abandon]
@[simp] theorem fatalError_ctxs : (fatalError s cause d e).ctxs = [] := by
  rw [fatalError, raiseState_ctxs, setState_ctxs, abandon_ctxs]
@[simp] theorem fatalError_work : (fatalError s cause d e).work = workReset := by
  rw [fatalError, raiseState_work, setState_work, abandon_work]
end

/-! ### The turn that is next -/

section
variable {s : State}
/-- a device-fatal error that is due comes before every turn (R59) -/
theorem nextTurn_of_dump (d : (countBad s).fw.dumpPending = true) : Claims.nextTurn s = none := by
  simp only [Claims.nextTurn, d, if_true]
variable (d : (countBad s).fw.dumpPending = false)
include d
/-- the agenda's head is the turn that is next -/
theorem nextTurn_of_agenda {t : Turn} {rest : List Turn} (a : (countBad s).sched.agenda = t :: rest) :
    Claims.nextTurn s = some (t, setSched (countBad s) { (countBad s).sched with agenda := rest }) := by
  simp only [Claims.nextTurn, d, a, Bool.false_eq_true, if_false]
theorem nextReady_of_agenda {t : Turn} {rest : List Turn} (a : (countBad s).sched.agenda = t :: rest) :
    nextReady s = turnReady t (setSched (countBad s) { (countBad s).sched with agenda := rest }) := by
  simp only [nextReady, d, a, Bool.false_eq_true, if_false]
variable (a : (countBad s).sched.agenda = [])
include a
/-- with an empty agenda the machine's own turns come round (log 1) -/
theorem nextTurn_of_offered {o : Option Turn}
    (g : (offeredTurns (countBad s))[(countBad s).sched.rr % (offeredTurns (countBad s)).length]? = o) :
    Claims.nextTurn s = o.map fun t => (t, setSched (countBad s) { (countBad s).sched with rr := (countBad s).sched.rr + 1 }) := by
  cases o with
  | none => simp only [Claims.nextTurn, d, a, g, Bool.false_eq_true, if_false, Option.map_none]
  | some t => simp only [Claims.nextTurn, d, a, g, Bool.false_eq_true, if_false, Option.map_some]
theorem nextReady_of_offered {t : Turn}
    (g : (offeredTurns (countBad s))[(countBad s).sched.rr % (offeredTurns (countBad s)).length]? = some t) :
    nextReady s = turnReady t (setSched (countBad s) { (countBad s).sched with rr := (countBad s).sched.rr + 1 }) := by
  simp only [nextReady, d, a, g, Bool.false_eq_true, if_false]
end
/-- the turn that `nextTurn` names is what the machine makes ready, once the last step's uncorrectable reads are counted -/
theorem nextReady_of_nextTurn {s s0 : State} {t : Turn} (h : Claims.nextTurn s = some (t, s0)) : nextReady s = turnReady t s0 := by
  cases d : (countBad s).fw.dumpPending with
  | true => rw [nextTurn_of_dump d] at h; cases h
  | false =>
    cases a : (countBad s).sched.agenda with
    | cons t' rest => rw [nextTurn_of_agenda d a] at h; cases h; exact nextReady_of_agenda d a
    | nil =>
      cases g : (offeredTurns (countBad s))[(countBad s).sched.rr % (offeredTurns (countBad s)).length]? with
      | none => rw [nextTurn_of_offered d a g] at h; cases h
      | some t' => rw [nextTurn_of_offered d a g] at h; cases h; exact nextReady_of_offered d a g
end Sys2Proof.Proofs.Device

/-! ## The reset state (R18, R35, R8) -/
namespace Sys2Proof.Proofs.Reset
open Sys2Proof.Machine Sys2Proof.Laws.State

/-- Settles O5: the reset state lists no core, no die and no sector, so each reads as at reset. -/
theorem resetState : Obligations.ResetState := by
  unfold Obligations.ResetState
  have noThread (k : Nat) : threadOf State.reset k = none := rfl
  have placed (k : Nat) : (Machine.core State.reset k).inPlacement = true := rfl
  have clock (d : Nat) : (die State.reset d).mhz = 1500 := rfl
  have noCopy (k : Nat) : (Machine.core State.reset k).l1 = [] := rfl
  exact ⟨rfl, noThread, placed, clock, rfl, noCopy, good_reset⟩
end Sys2Proof.Proofs.Reset

/-! ## Clocks of dies and device-fatal errors (R9, R17, R54, R59, R60) -/
namespace Sys2Proof.Proofs.Clocks
open Sys2Proof.Machine Sys2Proof.Laws.State Sys2Proof.Proofs.Device

theorem argIx_of_ix {s : State} {n : Nat} (h : s.cur.arg = .ix n) : argIx s = some n := by simp only [argIx, h]
theorem mayClock_iff {s : State} {d : Nat} : mayClock s d = true ↔ running s = true ∧ inGap s 0 = false ∧ d < 2 := by
  simp [mayClock, and_assoc]

section
variable {s : State} {d : Nat} (a : s.cur.arg = .ix d)
include a
theorem exec_thermalThrottle (h : mayClock s d = true) (low : clockMin + 100 ≤ (die s d).mhz) :
    exec .thermalThrottle s = .next (setClock s d ((die s d).mhz - 100)) := by
  change execThermalThrottle s = _
  simp only [execThermalThrottle, argIx_of_ix a, h, decide_eq_true low, Bool.and_self, if_true]
theorem exec_thermalRecover (h : mayClock s d = true) (high : (die s d).mhz + 100 ≤ clockMax) :
    exec .thermalRecover s = .next (setClock s d ((die s d).mhz + 100)) := by
  change execThermalRecover s = _
  simp only [execThermalRecover, argIx_of_ix a, h, decide_eq_true high, Bool.and_self, if_true]
theorem exec_thermalFatal : exec .thermalFatal s = .next (fatalIf s true 1 d 0) := by
  change execThermalFatal s = _
  simp only [execThermalFatal, argIx_of_ix a]
theorem exec_dieBridgeLoss : exec .dieBridgeLoss s = .next (fatalIf s true 4 d 0) := by
  change execDieBridgeLoss s = _
  simp only [execDieBridgeLoss, argIx_of_ix a]
end
theorem exec_stateParityError {s : State} {d : Nat} {e : Byte} (a : s.cur.arg = .parity d e) :
    exec .stateParityError s = .next (fatalIf s (parityEngine e) 5 d e) := by
  change execStateParityError s = _
  simp only [execStateParityError, a]
theorem exec_committedHeartbeatLoss {s : State} {k : Nat} (r : s.host.state = .ready)
    (f : firmwareCores.find? (lostCore s) = some k) : exec .committedHeartbeatLoss s = .next (fatalError s 2 (dieOf k) 0) := by
  change execCommittedHeartbeatLoss s = _
  simp only [execCommittedHeartbeatLoss, r, f, beq_self_eq_true, Bool.or_true, if_true]
/-- the conditions of a device-fatal error of a die: Chrogon-M runs, and the die exists -/
theorem fatalIf_of_running {s : State} {d : Nat} (r : running s = true) (b : d < 2) (cause : Nat) (e : Byte) :
    fatalIf s true cause d e = fatalError s cause d e := by
  simp only [fatalIf, r, decide_eq_true b, Bool.and_self, if_true]
/-- the sync engines, the Joiner and the Kiln carry parity (R59) -/
theorem parityEngine_of_mem {e : Byte} (h : e ∈ [0x02, 0x03, 0x06, 0x08]) : parityEngine e = true := by
  simpa [parityEngine, engClusterSync, engDieSync, engJoiner, engKiln, or_assoc] using h

/-- Settles O54: each event's step under its own condition, and what a device-fatal error leaves. -/
theorem clocksAndFatalErrors : Obligations.ClocksAndFatalErrors := by
  unfold Obligations.ClocksAndFatalErrors
  refine ⟨fun s d a r g b => ?clock, fun s d a r b => ?fatal, fun s d e a r b m => ?parity, fun s k => exec_committedHeartbeatLoss,
    fun s c d e => ⟨fatalError_state .., threadOf_fatalError _ _ _ _, fatalError_ctxs .., fatalError_work ..⟩⟩
  case clock =>
    have may : mayClock s d = true := mayClock_iff.mpr ⟨r, g, b⟩
    exact ⟨fun low => exec_thermalThrottle a may low,
      fun high => exec_thermalRecover a may (Nat.add_le_add_right high 100)⟩
  case fatal =>
    rw [exec_thermalFatal a, exec_dieBridgeLoss a, fatalIf_of_running r b, fatalIf_of_running r b]
    exact ⟨rfl, rfl⟩
  case parity => rw [exec_stateParityError a, parityEngine_of_mem m, fatalIf_of_running r b]
end Sys2Proof.Proofs.Clocks

/-! ## Links, peers and the scrub (R13, R14, R52, R65, R67, R68, R98-R101) -/
namespace Sys2Proof.Proofs.Links
open Sys2Proof.Machine Sys2Proof.Laws.State Sys2Proof.Proofs.Device Sys2Proof.Proofs.Clocks

@[simp] theorem portOf_setPort_self (s : State) (p : Nat) (x : Port) : portOf (setPort s p x) p = x := mget_mset_self ..
@[simp] theorem portOf_setPeer (s : State) (p q : Nat) (x : Peer) : portOf (setPeer s p x) q = portOf s q := rfl
@[simp] theorem peerState_setPeer_self (s : State) (p : Nat) (x : Peer) : peerState (setPeer s p x) p = x := mget_mset_self ..

/-! ### Ports -/

/-- R13: the flits before the one asked for have arrived, and the replay is counted -/
theorem exec_linkReplayRequest {s : State} {p n : Nat} (a : s.cur.arg = .ix2 p n) (u : (portOf s p).state = .up) :
    exec .linkReplayRequest s = .next (setPort s p { portOf s p with
      buffer := (portOf s p).buffer.filter (fun f => decide (f.seq ≥ n)), replays := (portOf s p).replays + 1,
      recent := s.time :: (portOf s p).recent.filter (fun t => decide (s.time < t + msNs)) }) := by
  change execLinkReplayRequest s = _
  simp only [execLinkReplayRequest, a, replay, u, bne_self_eq_false, Bool.false_eq_true, if_false]
theorem exec_linkRetrainStart {s : State} {p : Nat} {l : Bool} (a : s.cur.arg = .retrain p l) :
    exec .linkRetrainStart s = .next (startRetrain s p l) := by
  change execLinkRetrainStart s = _
  simp only [execLinkRetrainStart, a]
/-- R14, R52: a port that is up retrains after lost lock or more than 64 replays in a millisecond -/
theorem startRetrain_of_up {s : State} {p : Nat} {l : Bool} (u : (portOf s p).state = .up)
    (h : l = true ∨ replayLimit < ((portOf s p).recent.filter (fun t => decide (s.time < t + msNs))).length) :
    startRetrain s p l = setPort s p { portOf s p with
      state := .retraining, retrainUsed := 0, retrainFrom := if inGap s 2 then none else some s.time,
      retrainLimit := s.links.limitMs } := by
  simp only [startRetrain, u, beq_self_eq_true, Bool.true_and]
  exact if_pos (by simpa using h)
theorem retrainDue_iff {s : State} {x : Port} {t : Nat} (r : x.state = .retraining) (f : x.retrainFrom = some t) :
    retrainDue s x = true ↔ t + x.retrainLimit * 1000000 ≤ s.time + x.retrainUsed := by
  simp [retrainDue, r, f, msNs]

section
variable {s : State} {p : Nat} (a : s.cur.arg = .ix p) (g : inGap s 2 = false)
include a g
/-- R14: a retraining that ends within its limit loses nothing -/
theorem exec_linkRetrainSuccess (r : (portOf s p).state = .retraining) (f : (portOf s p).retrainFrom.isSome = true)
    (d : retrainDue s (portOf s p) = false) : exec .linkRetrainSuccess s =
      .next (setPort s p { portOf s p with state := .up, buffer := [], recent := [], retrainFrom := none }) := by
  change execLinkRetrainSuccess s = _
  simp only [execLinkRetrainSuccess, argIx_of_ix a, retrained, r, f, d, g, beq_self_eq_true, Bool.not_false, Bool.and_self, if_true]
/-- R14: past the limit the port is down, and what waited has an unknown outcome -/
theorem exec_linkRetrainLimitExpiry (d : retrainDue s (portOf s p) = true) :
    exec .linkRetrainLimitExpiry s = .next (portDown s p) := by
  change execLinkRetrainLimitExpiry s = _
  simp only [execLinkRetrainLimitExpiry, argIx_of_ix a, d, g, Bool.not_false, Bool.and_self, if_true]
end

/-- R14: the write of a flit has landed, or not -/
theorem landOrNot_mem (s : State) (f : Flit) :
    (landOrNot s f).mem = s.mem ∨ (landOrNot s f).mem = homeMergeW s.mem f.sector f.data f.mask f.tags f.tagged false := by
  by_cases landed : (Config.freeWord s.sched.freeCtr).toNat % 2 = 1
  · exact .inr (by simp only [landOrNot, freeBelow, landed, if_true, setMem_mem])
  · exact .inl (by simp only [landOrNot, freeBelow, landed, if_false])
/-- a discarded flit is taken back, and then lands or not -/
theorem discardFlits_singleton (s : State) (f : Flit) : discardFlits s [f] = landOrNot (unsend s f) f := rfl

/-! ### Peers -/

/-- R98: the peer's port is down -/
theorem exec_peerLost_of_portDown {s : State} {p n : Nat} (a : s.cur.arg = .ix p) (r : mfind s.links.routes p = some n)
    (l : (peerState s p).lost = false) (d : (portOf s n).state = .down) :
    exec .peerLost s = .next (losePeer s p (peerState s p).epoch) := by
  change execPeerLost s = _
  simp only [execPeerLost, a, r, l, d, beq_self_eq_true, Bool.not_false, Bool.and_self, if_true]
/-- R98: the peer's start epoch has changed -/
theorem exec_peerLost_of_epoch {s : State} {p n e : Nat} (a : s.cur.arg = .ix2 p e) (r : mfind s.links.routes p = some n)
    (l : (peerState s p).lost = false) (d : (peerState s p).epoch ≠ e) : exec .peerLost s = .next (losePeer s p e) := by
  change execPeerLost s = _
  simp only [execPeerLost, a, r, l, bne_iff_ne.mpr d, Bool.not_false, Bool.and_self, if_true]
/-- R101: the peer is reachable again with the epoch exchanged, behind a port that is up -/
theorem exec_peerReachable {s : State} {p e n : Nat} (a : s.cur.arg = .ix2 p e) (r : mfind s.links.routes p = some n)
    (l : (peerState s p).lost = true) (m : running s = true) (g : inGap s 2 = false) (t : (portOf s n).state ≠ .retraining) :
    exec .peerReachable s = .next (setPeer (setPort (forgetLost s) n (if (portOf s n).state == .up then portOf s n else
      { portReset with state := .up, replays := (portOf s n).replays, nextSeq := (portOf s n).nextSeq })) p
        { lost := false, epoch := e }) := by
  change execPeerReachable s = _
  simp only [execPeerReachable, a, r, l, m, g, bne_iff_ne.mpr t, Bool.not_false, Bool.and_self, if_true]

/-! ### The scrub -/

theorem exec_hbmScrub {s : State} {f : ScrubFind} (a : s.cur.arg = .scrub [f]) : exec .hbmScrub s = .next (scrubOne s f) := by
  change execHbmScrub s = _
  simp only [execHbmScrub, a, List.foldl_cons, List.foldl_nil]

section
variable {s : State} {f : ScrubFind} {sec : Nat} (run : running s = true) (dump : s.fw.dumpPending = false)
  (present : s.hbm.absent.contains f.channel = false) (chan : f.channel < channelCount) (sect : f.sector < groupSectors)
  (fits : usableAt f.group f.sector + 64 ≤ usableSize)
include run dump present chan sect fits
/-- what stops a scrub of a sector does not hold: no image runs, a dump is due, or no such sector -/
theorem scrub_goes : (!running s || s.fw.dumpPending || s.hbm.absent.contains f.channel || decide (f.channel ≥ channelCount) ||
    decide (f.sector ≥ groupSectors) || decide (usableAt f.group f.sector + 64 > usableSize)) = false := by
  simp only [run, dump, present, Bool.not_true, Bool.false_or, Bool.or_eq_false_iff, decide_eq_false_iff_not]
  omega
/-- R65: no wrong symbol -/
theorem scrubOne_clean (n : f.symbols = 0) : scrubOne s f = (freeBelow s 3).2 := by
  simp only [scrubOne, scrub_goes run dump present chan sect fits, n, eccOf, Bool.false_eq_true, if_false]
/-- R65, R68: one wrong symbol is corrected, and counted -/
theorem scrubOne_corrected (n : f.symbols = 1) : scrubOne s f = noteCorrected (freeBelow s 3).2 f.channel 1 := by
  simp only [scrubOne, scrub_goes run dump present chan sect fits, n, eccOf, Bool.false_eq_true, if_false]
  rfl
/-- R65, R67: two wrong symbols poison the sector, which is counted as read -/
theorem scrubOne_detected (n : f.symbols = 2) (e : sec = paOfUsable s f.channel (usableAt f.group f.sector) / 64) :
    scrubOne s f = noteRead (setMem (freeBelow s 3).2 { ripen s.mem sec with
      poison := sput (ripen s.mem sec).poison sec, streamed := mdel (ripen s.mem sec).streamed sec }) sec := by
  subst e
  simp only [scrubOne, scrub_goes run dump present chan sect fits, n, eccOf, Bool.false_eq_true, if_false]
  rfl
end

/-- Settles O55: each event's step under its own condition; the outcome of a discarded write is `landOrNot`'s free value. -/
theorem linksPeersAndScrub : Obligations.LinksPeersAndScrub := by
  unfold Obligations.LinksPeersAndScrub
  refine ⟨?replay, ?retrain, ?retrained, ?discard, ?lost, ?reachable, ?scrub⟩
  case replay =>
    rintro s p n x a rfl u
    exact ⟨_, exec_linkReplayRequest a u, rfl, rfl, u, rfl, rfl⟩
  case retrain =>
    rintro s p l x a rfl u h
    rw [exec_linkRetrainStart a, startRetrain_of_up u h]
  case retrained =>
    rintro s p x t a rfl r f g
    have due := retrainDue_iff (s := s) r f
    refine ⟨fun h => exec_linkRetrainSuccess a g r (by rw [f]; rfl) ?_, fun h => exec_linkRetrainLimitExpiry a g (due.mpr h)⟩
    rw [← Bool.not_eq_true, due]
    exact Nat.not_le.mpr h
  case discard =>
    intro s f
    rw [discardFlits_singleton]
    exact landOrNot_mem (unsend s f) f
  case lost =>
    exact fun s p n r l => ⟨fun a d => exec_peerLost_of_portDown a r l d, fun e a d => exec_peerLost_of_epoch a r l d⟩
  case reachable =>
    intro s p e n a r l m g t
    refine ⟨_, exec_peerReachable a r l m g t, peerState_setPeer_self .., ?_⟩
    rw [portOf_setPeer, portOf_setPort_self]
    split
    · next u => exact eq_of_beq u
    · rfl
  case scrub =>
    rintro s f o sec s1 a run dump present chan sect rfl fits es rfl
    rw [exec_hbmScrub a]
    exact ⟨fun n => by rw [scrubOne_clean run dump present chan sect fits n]; rfl,
      fun n => by rw [scrubOne_corrected run dump present chan sect fits n]; rfl,
      fun n => by rw [scrubOne_detected run dump present chan sect fits n es]; rfl⟩
end Sys2Proof.Proofs.Links

/-! ## Power loss, START and NEG_GO (R18, R35, R37, R39, R42) -/
namespace Sys2Proof.Proofs.Start
open Sys2Proof.Machine Sys2Proof.Laws.State Sys2Proof.Proofs.Device

/-! ### Bytes that a filter of memory keeps or drops -/

theorem readCell_filter_keep {p : Host.Cell → Bool} {q : Nat} (h : ∀ v, p (q, v) = true) (m : List Host.Cell) :
    readCell (m.filter p) q = readCell m q := by
  induction m with
  | nil => rfl
  | cons c t ih =>
    obtain ⟨k, v⟩ := c
    by_cases e : q = k
    · subst e; simp [h v, readCell]
    · by_cases g : p (k, v) = true <;> simp [g, readCell, e, ih]
theorem readCell_filter_drop {p : Host.Cell → Bool} {q : Nat} (h : ∀ v, p (q, v) = false) (m : List Host.Cell) :
    readCell (m.filter p) q = blankByte := by
  induction m with
  | nil => rfl
  | cons c t ih =>
    obtain ⟨k, v⟩ := c
    by_cases e : q = k
    · subst e; simpa [List.filter_cons, h v] using ih
    · by_cases g : p (k, v) = true <;> simp [g, readCell, e, ih]
theorem readCells_congr {m m' : List Host.Cell} (n a : Nat) (h : ∀ i, i < n → readCell m (a + i) = readCell m' (a + i)) :
    readCells m a n = readCells m' a n := by
  induction n generalizing a with
  | zero => rfl
  | succ n ih =>
    have tail := ih (a + 1) fun i lt => by simpa [Nat.add_assoc, Nat.add_comm 1 i] using h (i + 1) (by omega)
    have head : readCell m a = readCell m' a := h 0 (by omega)
    simp only [readCells, head, tail]
theorem readCells_blank {m : List Host.Cell} (n a : Nat) (h : ∀ i, i < n → readCell m (a + i) = blankByte) :
    readCells m a n = 0 := by
  have none : ∀ n a, readCells [] a n = 0 := fun n => by
    induction n with
    | zero => exact fun _ => rfl
    | succ n ih => exact fun a => by simp [readCells, readCell, blankByte, ih]
  rw [readCells_congr n a (m' := []) h, none]

/-! ### Sectors of the device and of the host -/

/-- host memory begins with a sector -/
theorem hostBase_aligned : hostBase = 64 * 2 ^ 45 := rfl
theorem isHbm_iff (a : Nat) : isHbm (a / 64) = true ↔ a < hostBase := by
  rw [isHbm, decide_eq_true_iff, hostBase_aligned]
  omega
theorem isDeviceByte_iff (a : Nat) : isDeviceByte a = true ↔ a < hostBase := decide_eq_true_iff
theorem isFresh_of_foreign (m : Mem) {sec : Nat} (h : isHbm sec = false) : isFresh m sec = true := by simp [isFresh, h]
theorem isFresh_of_powered {m : Mem} (h : m.stale = none) (sec : Nat) : isFresh m sec = true := by simp [isFresh, h]
theorem hbmRead_data {m : Mem} {sec : Nat} (h : isFresh m sec = true) :
    (hbmRead m sec).data = BitVec.ofNat 512 (readCells m.cells (sec * 64) 64) := by simp [hbmRead, h]
theorem secBytes_zero (i n : Nat) : secBytes 0 i n = 0 := by
  have zero : (0 : BitVec 512).toNat = 0 := BitVec.toNat_zero
  rw [secBytes, zero, Nat.zero_div, Nat.zero_mod]
theorem homeView_of_uncached {m : Mem} (h : m.l2 = []) (sec : Nat) : homeView m sec = hbmRead m sec := by simp [homeView, h, mfind]
theorem outsideMem_cells (m : Mem) : (outsideMem m).cells = m.cells.filter (fun x => !isDeviceByte x.1) := rfl
/-- what the host holds is not the device's to lose -/
theorem readCells_outsideMem_host {m : Mem} {a : Nat} (h : hostBase ≤ a) :
    readCells (outsideMem m).cells (a / 64 * 64) 64 = readCells m.cells (a / 64 * 64) 64 := by
  rw [outsideMem_cells]
  refine readCells_congr _ _ fun i _ => readCell_filter_keep (fun v => ?_) _
  have aligned := hostBase_aligned
  rw [Bool.not_eq_true', ← Bool.not_eq_true, isDeviceByte_iff]
  omega
/-- the device's own memory is blank beside it -/
theorem readCells_outsideMem_device {m : Mem} {a : Nat} (h : a < hostBase) : readCells (outsideMem m).cells (a / 64 * 64) 64 = 0 := by
  rw [outsideMem_cells]
  refine readCells_blank _ _ fun i lt => readCell_filter_drop (fun v => ?_) _
  have aligned := hostBase_aligned
  rw [Bool.not_eq_false', isDeviceByte_iff]
  omega

/-! ### Power loss (R18, R39) -/

theorem exec_powerLoss (s : State) : exec .powerLoss s = .next (powerLoss s) := rfl
theorem powerLoss_stale (s : State) : (powerLoss s).mem.stale = some s.sched.freeCtr := rfl
theorem powerLoss_l2 (s : State) : (powerLoss s).mem.l2 = [] := rfl
/-- nothing of device memory was written since -/
theorem powerLoss_not_fresh (s : State) {sec : Nat} (h : isHbm sec = true) : isFresh (powerLoss s).mem sec = false := by
  simp [isFresh, h, powerLoss]
theorem powerLoss_homeView (s : State) {sec : Nat} (h : isHbm sec = true) :
    homeView (powerLoss s).mem sec = staleView (powerLoss s).mem sec := by
  simp [homeView_of_uncached (powerLoss_l2 s), hbmRead, powerLoss_not_fresh s h]
theorem powerLoss_hostByte (s : State) {a : Nat} (h : hostBase ≤ a) :
    homeByte (powerLoss s).mem a = BitVec.ofNat 8 (secBytes (hbmRead s.mem (a / 64)).data (a % 64) 1) := by
  have foreign : isHbm (a / 64) = false := by
    rw [← Bool.not_eq_true, isHbm_iff]
    exact Nat.not_lt.mpr h
  rw [homeByte, homeView_of_uncached (powerLoss_l2 s), hbmRead_data (isFresh_of_foreign _ foreign),
    hbmRead_data (isFresh_of_foreign _ foreign)]
  exact congrArg (fun n => BitVec.ofNat 8 (secBytes (BitVec.ofNat 512 n) (a % 64) 1)) (readCells_outsideMem_host h)

/-! ### START (R35, R39) -/

theorem exec_hctlStart {s : State} {w : W64} {env : StartEnv} (a : s.cur.arg = .start w env) :
    exec .hctlStart s = .next (if w.getLsbD 0 then startSequence w env s else s) := by
  change execHctlStart s = _
  simp only [execHctlStart, a]
section
variable (w : W64) (env : StartEnv) (s : State)
@[simp] theorem startSequence_state : (startSequence w env s).host.state = .fuse := rfl
@[simp] theorem startSequence_env : (startSequence w env s).host.env = env := rfl
@[simp] theorem startSequence_wasWarm : (startSequence w env s).host.wasWarm = w.getLsbD 1 := by
  simp [startSequence, clearWork, hctlWarm]
@[simp] theorem startSequence_wasKeep : (startSequence w env s).host.wasKeep = w.getLsbD 2 := by
  simp [startSequence, clearWork, hctlWarm]
@[simp] theorem threadOf_startSequence (k : Nat) : threadOf (startSequence w env s) k = none := by
  rw [← threadOf_abandon { s with host := hctlWarm w s.host } k]
  exact threadOf_congr (by simp [startSequence, clearWork]) k
@[simp] theorem startSequence_ctxs : (startSequence w env s).ctxs = [] := by simp [startSequence, clearWork]
@[simp] theorem startSequence_work : (startSequence w env s).work = workReset := by simp [startSequence, clearWork]
@[simp] theorem startSequence_fw : (startSequence w env s).fw = fwReset := rfl
@[simp] theorem startSequence_mqHead : (startSequence w env s).host.mqHead = 0 := rfl
@[simp] theorem startSequence_mqTail : (startSequence w env s).host.mqTail = 0 := rfl
@[simp] theorem startSequence_l2 : (startSequence w env s).mem.l2 = [] := by simp [startSequence, clearWork]
end

/-! ### The steps that STATE names (R37, R38) -/

theorem step_of_start {s s0 : State} (h : Claims.nextTurn s = some (.start, s0)) : step s = .next (startStep s0) := by
  simp only [step, nextReady_of_nextTurn h, turnReady]
@[simp] theorem failStart_state (s : State) : (failStart s).host.state = .failed := by simp [failStart, freeCode, freeValue]
@[simp] theorem blockPut_host (s : State) (o : Nat) (b : List Byte) : (blockPut s o b).host = s.host := rfl
@[simp] theorem blockPut_readyAt (s : State) (o : Nat) (b : List Byte) : (blockPut s o b).readyAt = s.readyAt := rfl
@[simp] theorem extendAt_host (s : State) (i : Nat) (v : BitVec 256) : (extendAt s i v).host = s.host := rfl
@[simp] theorem extendAt_time (s : State) (i : Nat) (v : BitVec 256) : (extendAt s i v).time = s.time := rfl
@[simp] theorem stepFuse_env (s : State) : (stepFuse s).host.env = s.host.env := by simp [stepFuse]
theorem startStep_fuse {s : State} (h : s.host.state = .fuse) :
    (startStep s).host.state = if s.host.env.fuseOk then .romver else .failed := by
  simp only [startStep, h, stepFuse_env]
  split <;> simp
section
variable {s : State} (h : s.host.state = .romver)
include h
theorem startStep_romver_good (g : ∀ k, k < 3 → imageGood k (hostImage s k) = true) :
    (startStep s).host.state = if keepsMemory s then .linktrain else .hbmtrain := by
  have noBad : ((List.range 3).any fun k => !imageGood k (hostImage s k)) = false := by
    simpa only [List.any_eq_false, List.mem_range, Bool.not_eq_true', Bool.not_eq_false] using g
  simp [startStep, h, noBad]
theorem startStep_romver_bad (b : ∃ k, k < 3 ∧ imageGood k (hostImage s k) = false) : (startStep s).host.state = .failed := by
  have bad : ((List.range 3).any fun k => !imageGood k (hostImage s k)) = true := by
    simpa only [List.any_eq_true, List.mem_range, Bool.not_eq_true'] using b
  simp [startStep, h, bad]
end
/-- R38, R68: the channels that fail their training and the marked ones leave the map -/
theorem trainChannels_absent (failed : List Nat) (s : State) : (trainChannels failed s).hbm.absent =
    (List.range channelCount).filter (fun q => failed.contains q || s.hbm.removed.contains q) := by
  simp only [trainChannels]
section
variable {s : State} (h : s.host.state = .hbmtrain)
include h
/-- R38: at most 64 channels may be missing -/
theorem startStep_hbmtrain_good (n : (trainChannels s.host.env.failedChannels s).hbm.absent.length ≤ channelCount - 960) :
    startStep s = setState (trainChannels s.host.env.failedChannels s) .eccinit := by
  simp only [startStep, h, Nat.not_lt.mpr n, if_false]
theorem startStep_hbmtrain_bad (n : channelCount - 960 < (trainChannels s.host.env.failedChannels s).hbm.absent.length) :
    startStep s = failStart (trainChannels s.host.env.failedChannels s) := by
  simp only [startStep, h, gt_iff_lt, n, if_true]
end
theorem startStep_eccinit {s : State} (h : s.host.state = .eccinit) : startStep s = setState (zeroDevice s) .linktrain := by
  simp only [startStep, h]
/-- ECCINIT leaves device memory zero where no cache lies over it -/
theorem zeroDevice_byte {s : State} (l : s.mem.l2 = []) {a : Nat} (h : a < hostBase) : homeByte (zeroDevice s).mem a = 0 := by
  have uncached : (zeroDevice s).mem.l2 = [] := l
  rw [homeByte, homeView_of_uncached uncached, hbmRead_data (isFresh_of_powered rfl _)]
  have blank : readCells (zeroDevice s).mem.cells (a / 64 * 64) 64 = 0 := readCells_outsideMem_device h
  rw [blank]
  exact congrArg (BitVec.ofNat 8) (secBytes_zero ..)

/-! ### LINKTRAIN: no step on the way takes time -/

theorem trainPort_time (trained : List Nat) (s : State) (p : Nat) : (trainPort trained s p).time = s.time := by
  simp only [trainPort]
  split
  · rfl
  · split <;> rfl
@[simp] theorem stepLinks_time (env : StartEnv) (s : State) : (stepLinks env s).time = s.time :=
  foldl_keeps State.time (trainPort_time _) _ s
@[simp] theorem setCounter_time (s : State) (d k : Nat) (c : Counter) : (setCounter s d k c).time = s.time := rfl
@[simp] theorem stepPools_time (s : State) : (stepPools s).time = s.time :=
  foldl_keeps State.time (fun s d => setCounter_time s d _ _) _ s
@[simp] theorem startImage_time (s : State) (kind : Nat) (x : Image) : (startImage s kind x).time = s.time :=
  foldl_keeps State.time (fun s k => setCore_time s k _) _ s
@[simp] theorem reserveWrite_time (s : State) (pa : Nat) (b : List Byte) : (reserveWrite s pa b).time = s.time := rfl
@[simp] theorem loadImage_time (s : State) (kind : Nat) : (loadImage s kind).time = s.time := by
  have same (b : List Byte) := reserveWrite_time s (imageSlot s kind false) b
  unfold loadImage
  generalize hostImage s kind = b
  rw [startImage_time, extendAt_time]
  exact same b
@[simp] theorem dropMarks_time (s : State) : (dropMarks s).time = s.time := rfl
theorem stepImages_host (s : State) :
    (stepImages s).host.state = .imgload ∧ (stepImages s).host.firstBeats = firmwareCores ∧ (stepImages s).host.imgLoadAt = s.time := by
  simp only [stepImages, true_and]
  exact foldl_keeps State.time loadImage_time _ s
theorem startStep_linktrain {s : State} (h : s.host.state = .linktrain) :
    startStep s = stepImages (stepPools (stepLinks s.host.env (dropMarks s))) := by
  simp only [startStep, h]
theorem exec_imageFirstHeartbeatTimeout {s : State} (h : s.host.state = .imgload) (b : s.host.firstBeats ≠ [])
    (t : s.host.imgLoadAt + startLimit ≤ s.time) : exec .imageFirstHeartbeatTimeout s = .next (failStart s) := by
  change execImageFirstHeartbeatTimeout s = _
  simp [execImageFirstHeartbeatTimeout, h, b, t]

/-! ### NEG_GO (R42) -/

theorem notOffered_iff (h : HostRegs) : notOffered h = true ↔
    h.accept1 &&& ~~~h.offer.getD 1 0 ≠ 0 ∨ h.accept2 &&& ~~~h.offer.getD 2 0 ≠ 0 := by
  simp only [notOffered, Bool.or_eq_true, bne_iff_ne]
theorem brokenDependency_iff (h : HostRegs) : brokenDependency h = true ↔
    (h.accept1.getLsbD 2 = true ∧ h.accept1.getLsbD 1 = false) ∨ (h.accept2 ≠ 0 ∧ h.accept1.getLsbD 0 = false) := by
  simp only [brokenDependency, Bool.or_eq_true, Bool.and_eq_true, bne_iff_ne, Bool.not_eq_true']
@[simp] theorem enterReady_host (s : State) : (enterReady s).host =
    { s.host with on1 := s.host.accept1, on2 := s.host.accept2, failCnt := 0, state := .ready } := by simp [enterReady]
@[simp] theorem enterReady_readyAt (s : State) : (enterReady s).readyAt = s.time := by simp [enterReady]
theorem exec_hctlNegGo {s : State} {w : W64} (a : s.cur.arg = .value w) (g : w.getLsbD 3 = true) (n : s.host.state = .negotiate) :
    exec .hctlNegGo s = .next (negGo { s with host := hctlWarm w s.host }) := by
  change execHctlNegGo s = _
  have going : stopped s = false := by simp [stopped, n]
  simp only [execHctlNegGo, a, going, g, Bool.false_eq_true, if_false, if_true]
section
variable {s : State} (n : s.host.state = .negotiate)
include n
theorem negGo_notOffered (o : notOffered s.host = true) : negGo s = setFcode s 1 := by
  simp only [negGo, n, o, bne_self_eq_false, Bool.false_eq_true, if_false, if_true]
theorem negGo_brokenDependency (o : notOffered s.host = false) (d : brokenDependency s.host = true) : negGo s = setFcode s 2 := by
  simp only [negGo, n, o, d, bne_self_eq_false, Bool.false_eq_true, if_false, if_true]
theorem negGo_ready (o : notOffered s.host = false) (d : brokenDependency s.host = false) : negGo s = enterReady s := by
  simp only [negGo, n, o, d, bne_self_eq_false, Bool.false_eq_true, if_false]
end

/-- Settles O47: power loss and START by what they leave, each step of the start by the STATE that names it, and NEG_GO by its
two checks. -/
theorem startAndPower : Obligations.StartAndPower := by
  unfold Obligations.StartAndPower
  refine ⟨?power, ?start, ?noStart, fun _ _ => step_of_start, fun _ => startStep_fuse,
    fun _ h => ⟨startStep_romver_good h, startStep_romver_bad h⟩, ?hbm, ?ecc, ?link, ?late, ?neg⟩
  case power =>
    exact fun s => ⟨_, exec_powerLoss s, rfl, fun _ => rfl, rfl, powerLoss_stale s, fun _ => powerLoss_homeView s,
      fun _ => powerLoss_hostByte s⟩
  case start =>
    intro s w env a b
    exact ⟨startSequence w env s, by rw [exec_hctlStart a, if_pos b], startSequence_state w env s, startSequence_env w env s,
      startSequence_wasWarm w env s, startSequence_wasKeep w env s, threadOf_startSequence w env s, startSequence_ctxs w env s,
      startSequence_work w env s, startSequence_fw w env s, startSequence_mqHead w env s, startSequence_mqTail w env s,
      startSequence_l2 w env s⟩
  case noStart =>
    intro s w env a b
    simp only [exec_hctlStart a, b, Bool.false_eq_true, if_false]
  case hbm =>
    intro s h bad e
    have absent : (trainChannels s.host.env.failedChannels s).hbm.absent = bad := by
      rw [trainChannels_absent, e, channelCount]
    have allowed : channelCount - 960 = 64 := rfl
    refine ⟨fun n => ?_, fun n => ?_⟩
    · rw [startStep_hbmtrain_good h (by rw [absent]; omega)]
      exact ⟨rfl, absent⟩
    · rw [startStep_hbmtrain_bad h (by rw [absent]; omega), failStart_state]
  case ecc =>
    intro s h
    rw [startStep_eccinit h]
    exact ⟨rfl, fun l _ => zeroDevice_byte l⟩
  case link =>
    intro s h
    have same : (stepPools (stepLinks s.host.env (dropMarks s))).time = s.time := by
      rw [stepPools_time, stepLinks_time, dropMarks_time]
    rw [startStep_linktrain h, ← same]
    exact stepImages_host _
  case late => exact fun s h b t => ⟨_, exec_imageFirstHeartbeatTimeout h b t, failStart_state s⟩
  case neg =>
    intro s w a g n off no dep
    rw [exec_hctlNegGo a g n]
    let u : State := { s with host := hctlWarm w s.host }
    have negotiates : u.host.state = .negotiate := n
    have offered (h : ¬no) : notOffered u.host = false := Bool.not_eq_true _ ▸ mt (notOffered_iff u.host).mp h
    refine ⟨fun h => ⟨negGo u, rfl, ?_⟩, fun h d => ⟨negGo u, rfl, ?_⟩, fun h d => ⟨negGo u, rfl, ?_⟩⟩
    · rw [negGo_notOffered negotiates ((notOffered_iff _).mpr h), setFcode_host]
      exact ⟨n, rfl⟩
    · rw [negGo_brokenDependency negotiates (offered h) ((brokenDependency_iff _).mpr d), setFcode_host]
      exact ⟨n, rfl⟩
    · have whole : brokenDependency u.host = false := Bool.not_eq_true _ ▸ mt (brokenDependency_iff u.host).mp d
      rw [negGo_ready negotiates (offered h) whole, enterReady_host, enterReady_readyAt]
      exact ⟨rfl, rfl, rfl, rfl, rfl⟩
end Sys2Proof.Proofs.Start

/-! ## The host's window: message slots and registers (R22-R24, R32, R35, R40, R42, R60) -/
namespace Sys2Proof.Proofs.HostWindow
open Sys2Proof.Machine Sys2Proof.Laws.State Sys2Proof.Proofs.Device Sys2Proof.Proofs.Clocks

/-! ### Slots -/

@[simp] theorem slotOfHost_setSlot_self (s : State) (n : Nat) (x : Slot) : slotOfHost (setSlot s n x) n = x := mget_mset_self ..
@[simp] theorem ctxOf_setSlot (s : State) (n : Nat) (x : Slot) (c : BitVec 12) : ctxOf (setSlot s n x) c = ctxOf s c := rfl
@[simp] theorem raiseVector_slots (s : State) (v : Nat) : (raiseVector s v).slots = s.slots := by rw [raiseVector_eq]
theorem slotOfHost_congr {s s' : State} (h : s'.slots = s.slots) (n : Nat) : slotOfHost s' n = slotOfHost s n := by
  rw [slotOfHost, slotOfHost, h]
/-- a slot that is left is empty, or tells why it was refused; nothing else of it changes (R22, R23) -/
theorem slotOfHost_leaveSlot (s : State) (n : Nat) (err : Byte) :
    slotOfHost (leaveSlot s n err) n = { slotOfHost s n with err := err, state := if err = 0 then 0 else 0x80 } := by
  simp only [leaveSlot]
  split
  · rw [slotOfHost_congr (raiseVector_slots ..), slotOfHost_setSlot_self]
  · rw [slotOfHost_setSlot_self]

/-! ### What becomes of a posted message -/

theorem tryAccept_notReady {s : State} (h : s.host.state ≠ .ready) (n : Nat) : tryAccept s n = leaveSlot s n 0x81 := by
  simp only [tryAccept, bne_iff_ne, ne_eq, h, not_false_eq_true, if_true]
section
variable {s : State} (r : s.host.state = .ready)
include r
theorem tryAccept_badShape (h : mgmtShapeOk (slotOfHost s 0).image = false) : tryAccept s 0 = leaveSlot s 0 0x82 := by
  simp only [tryAccept, r, h, bne_self_eq_false, Bool.false_eq_true, if_false, if_true, Bool.not_false]
/-- R42: STOCKALLOC (OP 0x04) needs its feature -/
theorem tryAccept_notAccepted (h : mgmtShapeOk (slotOfHost s 0).image = true) (op : byteAt (slotOfHost s 0).image 0 = 4)
    (f : s.host.on1.getLsbD 12 = false) : tryAccept s 0 = leaveSlot s 0 0x85 := by
  simp only [tryAccept, r, h, op, f, bne_self_eq_false, Bool.false_eq_true, if_false, if_true, Bool.not_false, Bool.not_true,
    beq_self_eq_true, Bool.and_self]
theorem tryAccept_noCtx {n : Nat} (nz : n ≠ 0) (h : ctxOf s (BitVec.ofNat 12 n) = none) : tryAccept s n = leaveSlot s n 0x84 := by
  simp only [tryAccept, r, nz, h, bne_self_eq_false, Bool.false_eq_true, if_false]
theorem tryAccept_taken {n : Nat} {x : Ctx} {s1 : State} (nz : n ≠ 0) (c : ctxOf s (BitVec.ofNat 12 n) = some x) (live : x.ending = false)
    (d : deliverHost s (BitVec.ofNat 12 n) x.grant (slotOfHost s n).image = .taken s1) : tryAccept s n = leaveSlot s1 n 0 := by
  simp only [tryAccept, r, nz, c, live, d, bne_self_eq_false, Bool.false_eq_true, if_false]
end

/-! ### The host's writes to a slot -/

/-- the slot as the host's write of an image leaves it, before anyone looks at it -/
def postedSlot (s : State) (n : Nat) (img : List Byte) (seq : BitVec 32) : State :=
  setSlot s n { slotOfHost s n with image := (img ++ List.replicate 240 0).take 240, seq := seq, err := 0, state := 1 }
section
variable {s : State} {n : Nat} {img : List Byte} {seq : BitVec 32} (a : s.cur.arg = .post n img seq)
include a
theorem exec_messageSlotPost (b : n < 4096) (e : (slotOfHost s n).state ≠ 1) :
    exec .messageSlotPost s = .next (tryAccept (postedSlot s n img seq) n) := by
  change execMessageSlotPost s = _
  have free : ¬(n ≥ slotCount ∨ (slotOfHost s n).state = 1) := not_or.mpr ⟨Nat.not_le.mpr b, e⟩
  simp only [execMessageSlotPost, a, postSlot, free, if_false]
  rfl
/-- log 56: a write to a slot that is posted is ignored whole -/
theorem exec_messageSlotPost_posted (e : (slotOfHost s n).state = 1) : exec .messageSlotPost s = .next s := by
  change execMessageSlotPost s = _
  simp only [execMessageSlotPost, a, postSlot, e, or_true, if_true]
end
theorem exec_slotMessageAccept {s : State} {n : Nat} (a : s.cur.arg = .ix n) (nz : n ≠ 0) (p : (slotOfHost s n).state = 1) :
    exec .slotMessageAccept s = .next (tryAccept s n) := by
  change execSlotMessageAccept s = _
  simp only [execSlotMessageAccept, argIx_of_ix a, nz, p, ne_eq, not_false_eq_true, and_self, if_true]

/-! ### The status word -/

theorem exec_messageSlotClear_ix {s : State} {n : Nat} (a : s.cur.arg = .ix n) :
    exec .messageSlotClear s = .next (writeStatus s n ((slotOfHost s n).seq ++ 0#32)) := by
  change execMessageSlotClear s = _
  simp only [execMessageSlotClear, a]
theorem exec_messageSlotClear_ix2 {s : State} {n w : Nat} (a : s.cur.arg = .ix2 n w) :
    exec .messageSlotClear s = .next (writeStatus s n (BitVec.ofNat 64 w)) := by
  change execMessageSlotClear s = _
  simp only [execMessageSlotClear, a]
/-- R60: a device that has stopped takes no write but START -/
theorem writeStatus_stopped {s : State} (h : s.host.state = .fatal) (n : Nat) (w : W64) : writeStatus s n w = s := by
  have st : stopped s = true := by simp [stopped, h]
  simp only [writeStatus, st, or_true, if_true]
theorem stopped_eq_false {s : State} (h : s.host.state ≠ .fatal) : stopped s = false := by simp [stopped, h]
theorem writeStatus_going {s : State} {n : Nat} (b : n < 4096) (h : s.host.state ≠ .fatal) (w : W64) {x : Slot}
    (e : x = { slotOfHost s n with seq := w.extractLsb' 32 32 }) :
    writeStatus s n w = setSlot s n (if w.extractLsb' 0 8 = 0 ∧ x.state = 0x80 then { x with err := 0, state := 0 } else x) := by
  have going : ¬(n ≥ slotCount ∨ stopped s = true) :=
    not_or.mpr ⟨Nat.not_le.mpr b, ne_true_of_eq_false (stopped_eq_false h)⟩
  subst e
  simp only [writeStatus, going, if_false, Bool.and_eq_true, beq_iff_eq]
  exact (apply_ite (setSlot s n) _ _ _).symm
theorem state_of_append (q : BitVec 32) : (q ++ 0#32).extractLsb' 0 8 = 0 := by
  rw [BitVec.extractLsb'_append_eq_of_add_le (by omega)]
  rfl
theorem seq_of_word (w : Nat) : (BitVec.ofNat 64 w).extractLsb' 32 32 = BitVec.ofNat 32 (w / 2 ^ 32) := by
  apply BitVec.eq_of_toNat_eq
  simp [Nat.shiftRight_eq_div_pow]
  omega
theorem state_of_word_iff (w : Nat) : (BitVec.ofNat 64 w).extractLsb' 0 8 = 0 ↔ w % 256 = 0 := by
  rw [← BitVec.toNat_inj]
  simp

/-! ### Registers -/

theorem writeHead_stopped {s : State} (h : s.host.state = .fatal) (v : BitVec 32) : writeHead s v = s := by
  simp [writeHead, stopped, h]
theorem writeHead_going {s : State} (h : s.host.state ≠ .fatal) (v : BitVec 32) : writeHead s v =
    if (s.host.mqTail - v).toNat ≤ s.host.mqLen then mqDrain { s with host := { s.host with mqHead := v } } else s := by
  simp only [writeHead, stopped_eq_false h, Bool.false_eq_true, if_false]
theorem exec_hmqheadWrite {s : State} {v : W64} (a : s.cur.arg = .value v) :
    exec .hmqheadWrite s = .next (writeHead s (v.setWidth 32)) := by
  change execHmqheadWrite s = _
  simp only [execHmqheadWrite, a]
theorem exec_registerWrite {s : State} {off : Nat} {v : W128} (a : s.cur.arg = .register off v) :
    exec .registerWrite s = .next (writeRegister s off v) := by
  change execRegisterWrite s = _
  simp only [execRegisterWrite, a]
theorem writeRegister_stopped {s : State} (h : s.host.state = .fatal) (off : Nat) (v : W128) : writeRegister s off v = s := by
  simp [writeRegister, stopped, h]
section
variable {s : State} (h : s.host.state ≠ .fatal) (v : W128)
include h
theorem writeRegister_hctl : writeRegister s 0x0000 v = { s with host := { s.host with warm := v.getLsbD 1, memkeep := v.getLsbD 2 } } := by
  simp [writeRegister, stopped_eq_false h, hctlWarm]
theorem writeRegister_hspb :
    writeRegister s 0x0010 v = { s with host := { s.host with hspb := v.setWidth 64 &&& 0xFFFFFFFFFFFFF000 } } := by
  simp [writeRegister, stopped_eq_false h]
theorem writeRegister_accept1 : writeRegister s 0x0300 v = { s with host := { s.host with accept1 := v } } := by
  simp [writeRegister, stopped_eq_false h]
theorem writeRegister_accept2 : writeRegister s 0x0310 v = { s with host := { s.host with accept2 := v } } := by
  simp [writeRegister, stopped_eq_false h]
end
/-- no other offset is the host's to write -/
theorem writeRegister_other (s : State) (v : W128) {off : Nat} (o : off ∉ [0x0000, 0x0010, 0x0018, 0x0300, 0x0310]) : writeRegister s off v = s := by
  simp only [List.mem_cons, List.not_mem_nil, or_false, not_or] at o
  obtain ⟨hctl, hspb, head, accept1, accept2⟩ := o
  unfold writeRegister
  split
  · rfl
  · split <;> simp_all

/-- Settles O48: before READY the message is looked at and its slot left with 0x81. -/
theorem slotsRefusedUntilReady : Obligations.SlotsRefusedUntilReady := by
  unfold Obligations.SlotsRefusedUntilReady
  intro s n img seq notReady a b free
  have still : (postedSlot s n img seq).host.state ≠ .ready := notReady
  refine ⟨_, _, (exec_messageSlotPost a b free).trans (congrArg _ (tryAccept_notReady still n)), slotOfHost_leaveSlot .., rfl, rfl, ?_⟩
  simp only [postedSlot, slotOfHost_setSlot_self]

/-- Settles O49: each write of the host by its own equation, and a posted message by what becomes of it. -/
theorem hostWindow : Obligations.HostWindow := by
  unfold Obligations.HostWindow
  refine ⟨?post, fun s n img seq => exec_messageSlotPost_posted, ?stopped, ?clear, ?status, ?accept,
    fun s n err => slotOfHost_leaveSlot s n err, ?head, ?headStopped, ?register, ?registerStopped⟩
  case post =>
    intro s n img seq s0 a b free e
    have posted : exec .messageSlotPost s = .next (tryAccept s0 n) := e ▸ exec_messageSlotPost a b free
    have host : s0.host = s.host := e ▸ rfl
    have ctxs (c : BitVec 12) : ctxOf s0 c = ctxOf s c := e ▸ rfl
    rw [posted, ← host]
    refine ⟨fun r => ?_, fun r nz none => ?_, fun r z shape => ?_, fun r z shape op off => ?_, fun x s1 r nz some live d => ?_⟩
    · rw [tryAccept_notReady r]
    · rw [tryAccept_noCtx r nz ((ctxs _).trans none)]
    · rw [z, tryAccept_badShape r shape]
    · rw [z, tryAccept_notAccepted r shape op off]
    · rw [tryAccept_taken r nz ((ctxs _).trans some) live d]
  case stopped =>
    intro s n w a fatal
    rcases a with a | a
    · rw [exec_messageSlotClear_ix a, writeStatus_stopped fatal]
    · rw [exec_messageSlotClear_ix2 a, writeStatus_stopped fatal]
  case clear =>
    intro s n a b going refused
    have same : slotOfHost s n = { slotOfHost s n with seq := ((slotOfHost s n).seq ++ 0#32).extractLsb' 32 32 } := by
      rw [BitVec.extractLsb'_append_eq_left]
    rw [exec_messageSlotClear_ix a, writeStatus_going b going _ same, if_pos ⟨state_of_append _, refused⟩]
  case status =>
    intro s n w a b going x e
    rw [exec_messageSlotClear_ix2 a, writeStatus_going b going _ (seq_of_word w ▸ e)]
    simp only [state_of_word_iff]
    refine ⟨fun zero refused => ?_, fun other => ?_⟩
    · rw [if_pos ⟨zero, refused⟩]
    · rw [if_neg fun ⟨zero, refused⟩ => other.elim (· zero) (· refused)]
  case accept =>
    intro s n x s1 a nz posted r some live d
    rw [exec_slotMessageAccept a nz posted, tryAccept_taken r nz some live d]
  case head =>
    intro s v a going
    rw [exec_hmqheadWrite a, writeHead_going going]
    exact ⟨fun within => by rw [if_pos within], fun past => by rw [if_neg (Nat.not_le.mpr past)]⟩
  case headStopped =>
    intro s v a fatal
    rw [exec_hmqheadWrite a, writeHead_stopped fatal]
  case register =>
    intro s off v a going
    rw [exec_registerWrite a]
    refine ⟨?_, ?_, ?_, ?_, fun o => by rw [writeRegister_other s v o]⟩
    all_goals rintro rfl
    · rw [writeRegister_hctl going]
    · rw [writeRegister_hspb going]
    · rw [writeRegister_accept1 going]
    · rw [writeRegister_accept2 going]
  case registerStopped =>
    intro s off v a fatal
    rw [exec_registerWrite a, writeRegister_stopped fatal]
end Sys2Proof.Proofs.HostWindow

/-! ## Vectors, the host's memory accesses, snoops and peers' requests (R20, R21, R34, R42, R64, R67, R120, R121) -/
namespace Sys2Proof.Proofs.OutsideAccesses
open Sys2Proof.Machine Sys2Proof.Laws.State Sys2Proof.Proofs.Device Sys2Proof.Proofs.Clocks

/-! ### Vectors -/

/-- the least interval between two raises of a vector has passed (R34) -/
def intervalPassed (s : State) (v : Nat) : Prop := ∀ t, mfind s.msix.lastRaise v = some t → t + vectorGap v ≤ s.time
/-- the test of the last raise's time, as `vectorDue` and `raiseVector` make it -/
theorem lastRaise_passed {s : State} {v : Nat} (h : intervalPassed s v) :
    (match mfind s.msix.lastRaise v with | some t => decide (t + vectorGap v ≤ s.time) | none => true) = true := by
  cases e : mfind s.msix.lastRaise v with
  | none => rfl
  | some t => exact decide_eq_true (h t e)
/-- a raise is due: one that is owed, and of vector 0 while records wait to be read -/
theorem vectorDue_iff {s : State} {v : Nat} (h : intervalPassed s v) : vectorDue s v = true ↔
    (v = 0 ∧ s.host.mqTail ≠ s.host.mqHead) ∨ (v ≠ 0 ∧ s.msix.owed.contains v = true) := by
  have passed := lastRaise_passed h
  by_cases z : v = 0
  · simp only [vectorDue, z, if_true, bne_iff_ne, ne_eq, Bool.and_eq_true, true_and, not_true_eq_false, false_and, or_false]
    rw [z] at passed
    exact and_iff_left passed
  · simp only [vectorDue, z, if_false, ne_eq, Bool.and_eq_true, false_and, not_false_eq_true, true_and, false_or]
    exact and_iff_left passed
theorem raiseVector_of_passed {s : State} {v : Nat} (h : intervalPassed s v) :
    raiseVector s v = deliverVector { s with msix := { s.msix with lastRaise := mset s.msix.lastRaise v s.time } } v := by
  have passed := lastRaise_passed h
  unfold raiseVector
  exact if_pos passed
theorem deliverVector_unmasked {s : State} {v : Nat} (h : s.msix.mask.getLsbD v = false) :
    deliverVector s v = { s with msix := { s.msix with sent := s.msix.sent ++ [v] } } := by
  simp only [deliverVector, h, Bool.false_eq_true, if_false]
theorem deliverVector_masked {s : State} {v : Nat} (h : s.msix.mask.getLsbD v = true) :
    deliverVector s v = { s with msix := { s.msix with pending := setBit s.msix.pending v true } } := by
  simp only [deliverVector, h, if_true]
theorem exec_msixRateIntervalExpiry {s : State} {v : Nat} (a : s.cur.arg = .ix v) : exec .msixRateIntervalExpiry s =
    .next (if vectorDue s v then raiseVector { s with msix := { s.msix with owed := sdel s.msix.owed v } } v else s) := by
  change execMsixRateIntervalExpiry s = _
  simp only [execMsixRateIntervalExpiry, argIx_of_ix a]
theorem exec_msixVectorUnmask_ix {s : State} {v : Nat} (a : s.cur.arg = .ix v) (b : v < 64) :
    exec .msixVectorUnmask s = .next (unmask s v) := by
  change execMsixVectorUnmask s = _
  simp only [execMsixVectorUnmask, a, writeMask, ge_iff_le, Nat.not_le.mpr b, Bool.false_eq_true, if_false]
/-- log 12: the second argument masks -/
theorem exec_msixVectorUnmask_mask {s : State} {v b : Nat} (a : s.cur.arg = .ix2 v b) (lt : v < 64) (odd : b % 2 = 1) :
    exec .msixVectorUnmask s = .next { s with msix := { s.msix with mask := setBit s.msix.mask v true } } := by
  change execMsixVectorUnmask s = _
  simp only [execMsixVectorUnmask, a, writeMask, ge_iff_le, Nat.not_le.mpr lt, odd, beq_self_eq_true, if_true, if_false]
theorem getLsbD_setBit_false {w : Nat} (x : BitVec w) (n : Nat) : (setBit x n false).getLsbD n = false := by
  simp [setBit]
theorem unmask_pending {s : State} {v : Nat} (h : s.msix.pending.getLsbD v = true) : unmask s v = { s with msix :=
    { s.msix with mask := setBit s.msix.mask v false, pending := setBit s.msix.pending v false, sent := s.msix.sent ++ [v] } } := by
  simp only [unmask, h, if_true]
  rw [deliverVector_unmasked (getLsbD_setBit_false _ _)]
theorem unmask_idle {s : State} {v : Nat} (h : s.msix.pending.getLsbD v = false) :
    unmask s v = { s with msix := { s.msix with mask := setBit s.msix.mask v false } } := by
  simp only [unmask, h, Bool.false_eq_true, if_false]

/-! ### The host's accesses to device memory (R20, R21, R42) -/

theorem exec_hostCxlMemAccess {s : State} {r : CxlReq} (a : s.cur.arg = .cxl r) :
    exec .hostCxlMemAccess s = .next (cxlAccess s r) := by
  change execHostCxlMemAccess s = _
  simp only [execHostCxlMemAccess, a]
theorem cxlAccess_unsupported {s : State} {r : CxlReq}
    (h : r.unsupported = true ∨ running s = false ∨ s.host.on1.getLsbD 4 = false) : cxlAccess s r = setReply s none false := by
  have refused : (r.unsupported || !running s || !s.host.on1.getLsbD 4) = true := by
    simpa only [Bool.or_eq_true, Bool.not_eq_true', or_assoc] using h
  simp only [cxlAccess, refused, if_true]
section
variable {s : State} {r : CxlReq} {pas : List Nat} (up : running s = true) (db : s.host.on1.getLsbD 4 = true) (u : r.unsupported = false)
  (k : r.cached = false)
include up db u k
theorem cxlAccess_write {bs : List Byte} (w : r.write = some bs) (h : hdmRange s r.hpa bs.length = some pas) :
    cxlAccess s r = setReply (setMem s (hostLines false pas (outsideWrite s.mem (pas.zip bs)))) (some []) false := by
  simp only [cxlAccess, up, db, u, k, w, h, Bool.not_true, Bool.or_self, Bool.false_eq_true, if_false]
theorem cxlAccess_read (w : r.write = none) (h : hdmRange s r.hpa r.len = some pas) :
    cxlAccess s r = setReply (noteReads s (pas.map (· / 64)).eraseDups) (some (pas.map (homeByte s.mem)))
      (secsPoisoned s (pas.map (· / 64)).eraseDups) := by
  simp only [cxlAccess, up, db, u, k, w, h, Bool.not_true, Bool.or_self, Bool.false_eq_true, if_false]
end

/-! ### Snoops (R121) -/

theorem exec_hostCacheSnoop {s : State} {line : Nat} {inval : Bool} (a : s.cur.arg = .snoop line inval) :
    exec .hostCacheSnoop s = .next (snoop s line inval) := by
  change execHostCacheSnoop s = _
  simp only [execHostCacheSnoop, a]

/-! ### Peers' requests (R121, R123) -/

theorem exec_peerRequestArrival {s : State} {r : PeerReq} (a : s.cur.arg = .peer r) (up : running s = true) :
    exec .peerRequestArrival s = .next (peerAccess s r) := by
  change execPeerRequestArrival s = _
  simp only [execPeerRequestArrival, a, up, if_true]
/-- the state an atomic of a peer leaves: n bytes at `pa` read at their home and written back as the operation gives them -/
def peerAtomicDone (s : State) (pa n op b c : Nat) : State :=
  let s1 := noteReads s (sectorsOf (pa, n))
  let v := peerAtomic op (8 * n) (leNat (paRead s1 pa n)) (b % 256 ^ n) (c % 256 ^ n) % 256 ^ n
  setPeerReply (setMem s1 (paWriteMem s1.mem pa (toBytes n v))) (paRead s1 pa n) (secsPoisoned s (sectorsOf (pa, n)))
section
variable {s : State} {r : PeerReq} (route : mfind s.links.routes r.peer = some r.port) (up : (portOf s r.port).state = .up)
  (there : (peerState s r.peer).lost = false)
include route up there
theorem peerAccess_read {n : Nat} (o : r.op = .read n) (d : deviceMem s r.pa n = true) (f : inReserve s r.pa n = false) :
    peerAccess s r = setPeerReply (noteReads s (sectorsOf (r.pa, n))) (paRead s r.pa n) (secsPoisoned s (sectorsOf (r.pa, n))) := by
  simp only [peerAccess, o, d, f, route, up, there, Bool.not_false, Bool.not_true, beq_self_eq_true, Bool.and_self, Bool.false_eq_true,
    if_false]
theorem peerAccess_write {b : List Byte} (o : r.op = .write b) (d : deviceMem s r.pa b.length = true)
    (f : inReserve s r.pa b.length = false) : peerAccess s r = setPeerReply (setMem s (paWriteMem s.mem r.pa b)) [] false := by
  simp only [peerAccess, o, d, f, route, up, there, Bool.not_false, Bool.not_true, beq_self_eq_true, Bool.and_self, Bool.false_eq_true,
    if_false]
theorem peerAccess_atomic {op : Nat} {wide : Bool} {b c : W64} (o : r.op = .atomic op wide b c)
    (d : deviceMem s r.pa (if wide then 8 else 4) = true) (f : inReserve s r.pa (if wide then 8 else 4) = false) :
    peerAccess s r = peerAtomicDone s r.pa (if wide then 8 else 4) op b.toNat c.toNat := by
  simp only [peerAccess, o, d, f, route, up, there, Bool.not_false, Bool.not_true, beq_self_eq_true, Bool.and_self, Bool.false_eq_true,
    if_false, peerAtomicDone]
end

/-- Settles O50: each event by its own equation, under the condition that tells its cases apart. -/
theorem interruptsAndOutsideAccesses : Obligations.InterruptsAndOutsideAccesses := by
  unfold Obligations.InterruptsAndOutsideAccesses
  refine ⟨?expiry, ?unmask, fun s v b a lt odd => exec_msixVectorUnmask_mask a lt odd, ?unsupported, ?hdm, ?snoop, ?peer⟩
  case expiry =>
    intro s v a passed due s1
    have passed1 : intervalPassed s1 v := passed
    have iff : vectorDue s v = true ↔ due := vectorDue_iff passed
    rw [exec_msixRateIntervalExpiry a]
    refine ⟨fun no => ?_, fun yes open_ => ?_, fun yes masked => ?_⟩
    · rw [if_neg (mt iff.mp no)]
    · rw [if_pos (iff.mpr yes), raiseVector_of_passed passed1]
      exact congrArg _ (deliverVector_unmasked open_)
    · rw [if_pos (iff.mpr yes), raiseVector_of_passed passed1]
      exact congrArg _ (deliverVector_masked masked)
  case unmask =>
    intro s v a lt
    rw [exec_msixVectorUnmask_ix a lt]
    exact ⟨fun pending => by rw [unmask_pending pending], fun idle => by rw [unmask_idle idle]⟩
  case unsupported =>
    intro s r a h
    rw [exec_hostCxlMemAccess a, cxlAccess_unsupported h]
  case hdm =>
    intro s r pas a up db u k
    rw [exec_hostCxlMemAccess a]
    refine ⟨fun bs w h => by rw [cxlAccess_write up db u k w h], fun secs w h e => ?_⟩
    rw [cxlAccess_read up db u k w h, e]
  case snoop =>
    intro s line
    exact ⟨fun a => by rw [exec_hostCacheSnoop a]; rfl, fun a => by rw [exec_hostCacheSnoop a]; rfl⟩
  case peer =>
    intro s r a up route port there
    rw [exec_peerRequestArrival a up]
    refine ⟨fun n o d f => ?_, fun b o d f => ?_, fun op b c o d f => ?_, fun op b c o d f => ?_⟩
    · rw [peerAccess_read route port there o d f]
    · rw [peerAccess_write route port there o d f]
    · rw [peerAccess_atomic route port there o d f]
      rfl
    · rw [peerAccess_atomic route port there o d f]
      rfl
end Sys2Proof.Proofs.OutsideAccesses

/-! ## Messages while the old image handles the staged requests again (R25, R50, R57) -/
namespace Sys2Proof.Proofs.Rehandling
open Sys2Proof.Machine Sys2Proof.Laws.State Sys2Proof.Proofs.Device Sys2Proof.Proofs.HostWindow

/-! ### A message is taken by a Chrogon-M that serves -/

/-- R50: while none serves, slot 0 is not looked at and no message in hand goes on -/
theorem mgmtTurn_of_stopsServing {s : State} (h : stopsServing s = true) (i : Instr) (act : Cmd → State → State → State) :
    mgmtTurn i act s = s := by
  simp only [mgmtTurn, h, Bool.or_true, if_true]
theorem exec_linkcfg_of_stopsServing {s : State} (h : stopsServing s = true) : exec .linkcfg s = .next s := by
  change execLinkcfg s = _
  rw [execLinkcfg, mgmtTurn_of_stopsServing h]
theorem exec_shoot_of_stopsServing {s : State} (h : stopsServing s = true) : exec .shoot s = .next s := by
  change execShoot s = _
  rw [execShoot, mgmtTurn_of_stopsServing h]

/-! ### What an answer leaves of the slots -/

@[simp] theorem mqWrite_slots (s : State) (r : List Byte) : (mqWrite s r).slots = s.slots := raiseVector_slots ..
@[simp] theorem mqFlush_slots (n : Nat) (s : State) : (mqFlush n s).slots = s.slots := by
  induction n generalizing s with
  | zero => rfl
  | succ n ih =>
    rw [mqFlush]
    split
    · rfl
    · split
      · exact (ih _).trans (mqWrite_slots ..)
      · split
        · rfl
        · exact mqWrite_slots ..
@[simp] theorem mqReply_slots (s : State) (r : List Byte) : (mqReply s r).slots = s.slots := mqFlush_slots ..
/-- the reply to a message of slot 0 stands in the management queue, or is held while the request is staged (R55) -/
theorem mgmtReply_slots {c : Cmd} {n : Nat} (h : c.reply = .slot n) (s : State) (status result : Nat) :
    (mgmtReply s c status result).slots = s.slots := by
  rw [mgmtReply, fwReply]
  split
  · rfl
  · rw [postReply, h]
    exact mqReply_slots ..
@[simp] theorem msg_reply (i : Instr) (s : State) (img : List Byte) : (Claims.msg i s img).reply = .slot 0 := rfl
@[simp] theorem wakeCore_slots (s : State) (k : Nat) : (wakeCore s k).slots = s.slots := by
  rw [wakeCore]
  split <;> rfl
@[simp] theorem wakeFirmware_slots (s : State) (d : Nat) : (wakeFirmware s d).slots = s.slots :=
  foldl_keeps State.slots (fun s _ => wakeCore_slots s _) _ s
/-- a message that is taken leaves its slot empty (R22) -/
theorem tookAt_slot_empty (i : Instr) (s : State) (img : List Byte) : (slotOfHost (Claims.tookAt i s img) 0).state = 0 := by
  have left (s : State) : (slotOfHost (wakeFirmware (leaveSlot s 0 0) 0) 0).state = 0 := by
    rw [slotOfHost_congr (wakeFirmware_slots ..), slotOfHost_leaveSlot]
    rfl
  simp only [Claims.tookAt]
  split <;> exact left _

/-! ### The state of the refutations -/

/-- an ATTEST of context 1 that waits for a page of its buffer -/
def waitingAttest : Cmd := { mgmtCmd [] .attest with ctx := 1 }
/-- Chrogon-M's shoring has fallen back, and its old image handles the staged requests again -/
def fellBack : Shoring :=
  { kind := 0, phase := .rehandle, since := 0, tag := 9, addr := 0, len := 256, image := noImage, record := [], status := 0
    log := [waitingAttest], heldReplies := [] }
/-- READY with context 1, in the rehandling; the host has posted `img` in slot 0 -/
def rehandling (img : List Byte) : State :=
  setSlot (setCtx { State.reset with host := { hostReset with state := .ready }, fw := { fwReset with shoring := some fellBack } }
    1 (newCtx State.reset img schedReset)) 0 { slotReset with state := 1, image := img }
theorem stopsServing_rehandling (img : List Byte) : stopsServing (rehandling img) = true := rfl
/-- the vocabulary's `taken` asks for no gap and no proving image, and the rehandling is neither -/
theorem taken_rehandling {i : Instr} {img : List Byte} (h : mgmtInstr (byteAt img 0) = some i) : Claims.taken i (rehandling img) img := by
  have noProof : isProving (rehandling img) 0 = false := rfl
  have room : ([] : List (List Byte)).length < mqHoldCap := by decide
  refine ⟨rfl, rfl, fun p => ?_, rfl, rfl, rfl, h, room⟩
  rw [noProof] at p
  cases p
/-- LINKCFG: a retraining limit of 5 ms -/
def linkcfgImage : List Byte := [0x13, 0, 9, 0, 0, 0, 0, 0, 5] ++ List.replicate 231 0
/-- SHOOT: the whole of context 1 -/
def shootImage : List Byte := [0x11, 0, 9, 0, 0, 0, 0, 0, 1] ++ List.replicate 231 0

/-- Refutes O51: Chrogon-M takes no new message while its old image handles the staged requests again (R57), and `taken` does not ask
whether it does: it lacks `stopsServing s = false`. A LINKCFG posted then stands in its slot, where the statement has it answered and
the slot empty. -/
theorem not_contextMessages : ¬ Obligations.ContextMessages := by
  unfold Obligations.ContextMessages
  rintro ⟨-, -, linkcfg, -⟩
  obtain ⟨answered, -⟩ := linkcfg (rehandling linkcfgImage) linkcfgImage _ (taken_rehandling rfl) rfl
  have stands := (exec_linkcfg_of_stopsServing (stopsServing_rehandling linkcfgImage)).symm.trans (answered (by decide) (by decide))
  have same := congrArg (fun s => (slotOfHost s 0).state) (Host.Outcome.next.inj stands)
  simp only [slotOfHost_congr (mgmtReply_slots (msg_reply ..) ..)] at same
  have empty : (1 : Byte) = 0 := same.trans (tookAt_slot_empty .linkcfg (rehandling linkcfgImage) linkcfgImage)
  exact absurd empty (by decide)

/-- Refutes O52: a SHOOT posted in the same state stands in its slot, where the statement has its shootdown begun. -/
theorem not_shootdownsAndSequenceMessages : ¬ Obligations.ShootdownsAndSequenceMessages := by
  unfold Obligations.ShootdownsAndSequenceMessages
  rintro ⟨shoot, -⟩
  have live : ctxOf (rehandling shootImage) (BitVec.ofNat 12 (numAt shootImage 0x08 2)) ≠ none := by decide
  have noProof : isProving (rehandling shootImage) 1 = false := rfl
  obtain ⟨begun, -⟩ := shoot (rehandling shootImage) shootImage _ _ _ _ (taken_rehandling rfl) rfl rfl (by decide) rfl rfl live
  have stands := (exec_shoot_of_stopsServing (stopsServing_rehandling shootImage)).symm.trans
    (begun (by decide) (by decide) rfl fun p => absurd p (by simp [noProof]))
  have same : [] = _ ++ [_] := congrArg (fun s => s.work.shootdowns) (Host.Outcome.next.inj stands)
  exact List.append_ne_nil_of_right_ne_nil _ (List.cons_ne_nil _ _) same.symm
end Sys2Proof.Proofs.Rehandling

/-! ## SHORE while the old image handles the staged requests again (R49, R50, R57) -/
namespace Sys2Proof.Proofs.Shoring
open Sys2Proof.Machine Sys2Proof.Proofs.HostWindow Sys2Proof.Proofs.Rehandling

theorem exec_shore_of_stopsServing {s : State} (h : stopsServing s = true) : exec .shore s = .next s := by
  change execShore s = _
  rw [execShore, mgmtTurn_of_stopsServing h]
/-- a message that is answered at once has left its slot, in which it stood posted (R22) -/
theorem mgmtReply_tookAt_ne {i : Instr} {s : State} {img : List Byte} (h : Claims.taken i s img) (status result : Nat) :
    mgmtReply (Claims.tookAt i s img) (Claims.msg i s img) status result ≠ s := by
  obtain ⟨-, -, -, -, posted, -⟩ := h
  intro same
  have empty : (slotOfHost (mgmtReply (Claims.tookAt i s img) (Claims.msg i s img) status result) 0).state = 0 := by
    rw [slotOfHost_congr (mgmtReply_slots (msg_reply ..) ..), tookAt_slot_empty]
  rw [same, posted] at empty
  exact absurd empty (by decide)
/-- SHORE of Chrogon-M: 256 bytes at host address 0 -/
def shoreImage : List Byte := [0x10, 0, 9, 0, 0, 0, 0, 0] ++ List.replicate 17 0 ++ [1] ++ List.replicate 214 0

/-- Refutes O53: a well-formed SHORE posted while Chrogon-M's old image handles the staged requests again (R57) stands in its slot,
where the statement, whose `taken` lacks `stopsServing s = false`, has it answered 0x01, since the host allows no shoring of that
kind. -/
theorem not_shoringPhases : ¬ Obligations.ShoringPhases := by
  unfold Obligations.ShoringPhases
  rintro ⟨shore, -⟩
  have posted : Claims.taken .shore (rehandling shoreImage) shoreImage := taken_rehandling rfl
  obtain ⟨-, refused, -⟩ := shore (rehandling shoreImage) shoreImage _ _ posted rfl rfl
  have answered := refused (by decide) (by decide)
  have stands := exec_shore_of_stopsServing (stopsServing_rehandling shoreImage)
  exact mgmtReply_tookAt_ne posted 0x01 _ (Host.Outcome.next.inj (answered.symm.trans stands))
end Sys2Proof.Proofs.Shoring

/-! ## Translation by the core's TLB and the cluster's (R87, R88) -/
namespace Sys2Proof.Proofs.Translation
open Sys2Proof.Machine

section
variable {s : State} {k : Nat} {ctx : BitVec 12} {va : Nat} (need : Need) (served : (Machine.core s k).missEnd = [])
include served
/-- R87: the core's own TLB comes first -/
theorem translate_of_coreTlb {e : TlbEntry} (own : tlbFind (Machine.core s k).tlb ctx va = some e) :
    Machine.translate s k ctx va need = useEntry s (clusterOf k) k e va need := by
  simp only [Machine.translate, served, List.find?_nil, own]
/-- R88: a miss in the core's TLB looks up the cluster's, and takes over what stands there -/
theorem translate_of_clusterTlb {e : TlbEntry} (own : tlbFind (Machine.core s k).tlb ctx va = none)
    (shared : tlbFind (cluster s (clusterOf k)).tlb ctx va = some e) :
    Machine.translate s k ctx va need = useEntry (installCore s k e) (clusterOf k) k e va need := by
  simp only [Machine.translate, served, List.find?_nil, own, shared]
/-- R88: a miss there too is recorded for the service core -/
theorem translate_of_noEntry (own : tlbFind (Machine.core s k).tlb ctx va = none)
    (shared : tlbFind (cluster s (clusterOf k)).tlb ctx va = none) :
    Machine.translate s k ctx va need = .wait (sendMiss s (clusterOf k) (some k) ctx va need.kind) := by
  simp only [Machine.translate, served, List.find?_nil, own, shared]
end

/-- Settles O30: the three places a translation can come from, in their order. -/
theorem translationByTlbs : Obligations.TranslationByTlbs := by
  unfold Obligations.TranslationByTlbs
  exact fun s k ctx va need served => ⟨fun e => translate_of_coreTlb need served, fun e => translate_of_clusterTlb need served,
    translate_of_noEntry need served⟩
end Sys2Proof.Proofs.Translation

/-! ## First touch, replicas and collapses (R92-R97) -/
namespace Sys2Proof.Proofs.Paging
open Sys2Proof.Machine Sys2Proof.Laws.State Sys2Proof.Proofs.Device Sys2Proof.Proofs.Clocks

/-! ### The first-touch unit (R92-R94) -/

theorem exec_firstTouchServe_touch {s : State} {cl i : Nat} {t : Touch} (a : s.cur.arg = .ix2 cl i)
    (h : (cluster s cl).touches[i]? = some t) : exec .firstTouchServe s = .next (serveTouch s cl t) := by
  change execFirstTouchServe s = _
  simp only [execFirstTouchServe, a, h]
theorem exec_firstTouchServe_refill {s : State} {v : W64} (a : s.cur.arg = .value v) :
    exec .firstTouchServe s = .next (refillPool s v.toNat) := by
  change execFirstTouchServe s = _
  simp only [execFirstTouchServe, a]

section
variable {s s1 : State} {cl : Nat} {t : Touch}
/-- R92: the page has its frame, this unit's or another's, and the entry is installed -/
theorem serveTouch_mapped {e : TlbEntry} (u : hasFirstTouch s = true)
    (h : firstTouch s cl ⟨t.ctx, t.va, t.leaf, t.leafPa⟩ = .got (some e) s1) :
    serveTouch s cl t = installBoth (dropTouch s1 cl t) cl t.core e := by
  simp only [serveTouch, u, h, Bool.not_true, Bool.false_eq_true, if_false]
/-- R87, R92: the page maps nothing by then -/
theorem serveTouch_unmapped (u : hasFirstTouch s = true)
    (h : firstTouch s cl ⟨t.ctx, t.va, t.leaf, t.leafPa⟩ = .got none s1) : serveTouch s cl t = dropTouch s1 cl t := by
  simp only [serveTouch, u, h, Bool.not_true, Bool.false_eq_true, if_false]
/-- R94: the pool is empty, and the walker serves the fault -/
theorem serveTouch_poolEmpty (u : hasFirstTouch s = true)
    (h : firstTouch s cl ⟨t.ctx, t.va, t.leaf, t.leafPa⟩ = .empty s1) :
    serveTouch s cl t = sendMiss (dropTouch s1 cl t) cl (coreOf t.core) t.ctx t.va .zeroFill := by
  simp only [serveTouch, u, h, Bool.not_true, Bool.false_eq_true, if_false]
/-- R42, R94: without the unit the walker serves it too (the model's choice, log 52) -/
theorem serveTouch_noUnit (u : hasFirstTouch s = false) :
    serveTouch s cl t = sendMiss (dropTouch s cl t) cl (coreOf t.core) t.ctx t.va .zeroFill := by
  simp only [serveTouch, u, Bool.not_false, if_true]
end
/-- R93: Chrogon-S serves, the frame is free, and the pool of its die is below its bound (the frame and the counter: log 19) -/
theorem refillPool_of_room {s : State} {f : Nat} (r : running s = true) (g : inGap s 1 = false) (free : spareFrame s f = true)
    (room : (die s (dieOfPa f)).ring.length < (counterOf s (dieOfPa f) poolCounter).b) : refillPool s f = poolRefill s f := by
  simp only [refillPool, r, g, free, decide_eq_true room, Bool.not_false, Bool.and_self, if_true]

/-! ### A miss that ends with an entry (R88) -/

@[simp] theorem installCore_clusters (s : State) (k : Nat) (e : TlbEntry) : (installCore s k e).clusters = s.clusters := rfl
@[simp] theorem installCore_work (s : State) (k : Nat) (e : TlbEntry) : (installCore s k e).work = s.work := rfl
/-- what an entry in a core's TLB leaves, the entry in every waiting core's leaves -/
theorem installWaiters_keeps {γ : Type} (g : State → γ) (h : ∀ s k e, g (installCore s k e) = g s) (e : TlbEntry) (m : Miss)
    (s : State) : g (installWaiters e m s) = g s := by
  refine foldl_keeps g (fun s k => ?_) m.waiters s
  split
  · rfl
  · exact h s k e
@[simp] theorem installWaiters_clusters (e : TlbEntry) (m : Miss) (s : State) : (installWaiters e m s).clusters = s.clusters :=
  installWaiters_keeps State.clusters installCore_clusters e m s
@[simp] theorem installWaiters_work (e : TlbEntry) (m : Miss) (s : State) : (installWaiters e m s).work = s.work :=
  installWaiters_keeps State.work installCore_work e m s
theorem cluster_congr {s s' : State} (h : s'.clusters = s.clusters) (cl : Nat) : cluster s' cl = cluster s cl := by
  rw [cluster, cluster, h]
@[simp] theorem installCluster_misses (s : State) (cl : Nat) (e : TlbEntry) :
    (cluster (installCluster s cl e) cl).misses = (cluster s cl).misses := by
  rw [installCluster, cluster_setCluster_self]
@[simp] theorem dropHeadMiss_misses (s : State) (cl : Nat) : (cluster (dropHeadMiss s cl) cl).misses = (cluster s cl).misses.tail := by
  rw [dropHeadMiss, cluster_setCluster_self]
/-- a head miss filled leaves the queue alone -/
theorem fillHead_misses (s : State) (cl : Nat) (m : Miss) (e : TlbEntry) :
    (cluster (fillHead s cl m e) cl).misses = (cluster s cl).misses.tail := by
  rw [fillHead, dropHeadMiss_misses, cluster_congr (installWaiters_clusters ..), installCluster_misses]
theorem fillHead_work (s : State) (cl : Nat) (m : Miss) (e : TlbEntry) : (fillHead s cl m e).work = s.work :=
  installWaiters_work e m (installCluster s cl e)

/-! ### Read duplication (R95) -/

theorem exec_dupReadReplicate {s : State} {cl : Nat} (a : s.cur.arg = .ix cl) : exec .dupReadReplicate s = .next (replicate s cl) := by
  change execDupReadReplicate s = _
  simp only [execDupReadReplicate, argIx_of_ix a]

/-- the replica that the head miss `m` of a cluster makes of the page of leaf `e` at `pa`, in frame `f` -/
def newReplica (cl : Nat) (m : Miss) (e : W64) (pa f : Nat) : Replica :=
  { ctx := m.ctx, va := pageOf m.va, die := dieOfCluster cl, frame := f, leaf := e, leafPa := pa, stale := false }
/-- the page copied to the frame, and the replica kept -/
def withReplica (s : State) (e : W64) (r : Replica) : State :=
  let s := setMem s (copyFrame s.mem (originSector e) (r.frame / 64) 1024)
  setWork s { s.work with replicas := s.work.replicas ++ [r] }
theorem mem_withReplica (s : State) (e : W64) (r : Replica) : r ∈ (withReplica s e r).work.replicas := List.mem_concat_self
theorem withReplica_clusters (s : State) (e : W64) (r : Replica) : (withReplica s e r).clusters = s.clusters := by
  rw [withReplica, setWork_clusters, setMem_clusters]

section
variable {s s1 : State} {cl : Nat} {m : Miss} {rest : List Miss} {e : W64} {pa : Nat} (gap : inGap s 1 = false)
  (head : (cluster s cl).misses = m :: rest) (leaf : tableLeaf s m.ctx m.va = some (e, pa)) (wants : wantsReplica m e = true)
  (still : collapsing s m.ctx m.va = false) (good : leafRefused s m.ctx e = false)
  (there : leafPeer e ≠ 0 → peerLost s (leafPeer e) = false) (port : portWaits s (xlatOf (entryFor m.ctx m.va e pa) m.va) = false)
include wants still good there port
/-- nothing keeps the read of the DUP page waiting, and it is no fault -/
theorem replicate_goes : (!wantsReplica m e || collapsing s m.ctx m.va || leafRefused s m.ctx e ||
    (leafPeer e != 0 && peerLost s (leafPeer e)) || portWaits s (xlatOf (entryFor m.ctx m.va e pa) m.va)) = false := by
  simpa [wants, still, good, port] using there
include gap head leaf
/-- R95: the die has a replica of the page already -/
theorem replicate_present {r : Replica} (h : replicaOf s m.ctx m.va (dieOfCluster cl) = some r) :
    replicate s cl = fillHead s cl m (entryFor m.ctx m.va (replicaLeaf e r.frame) pa) := by
  simp only [replicate, gap, head, leaf, replicate_goes wants still good there port, h, Bool.false_eq_true, if_false]
/-- R95: the pool is empty, and the reads go to the origin -/
theorem replicate_poolEmpty (h : replicaOf s m.ctx m.va (dieOfCluster cl) = none) (f : takeFrame s cl e = .empty s1) :
    replicate s cl = fillHead s1 cl m (entryFor m.ctx m.va (e &&& ~~~wBit) pa) := by
  simp only [replicate, gap, head, leaf, replicate_goes wants still good there port, h, f, Bool.false_eq_true, if_false]
/-- R95: a frame of the pool becomes the die's replica -/
theorem replicate_made {f : Nat} (h : replicaOf s m.ctx m.va (dieOfCluster cl) = none) (took : takeFrame s cl e = .got f s1) :
    replicate s cl = fillHead (withReplica s1 e (newReplica cl m e pa f)) cl m (entryFor m.ctx m.va (replicaLeaf e f) pa) := by
  simp only [replicate, gap, head, leaf, replicate_goes wants still good there port, h, took, Bool.false_eq_true, if_false]
  rfl
end

/-! ### Collapse (R96) -/

theorem exec_dupWriteCollapse {s : State} {cl : Nat} (a : s.cur.arg = .ix cl) : exec .dupWriteCollapse s = .next (collapse s cl) := by
  change execDupWriteCollapse s = _
  simp only [execDupWriteCollapse, argIx_of_ix a]
@[simp] theorem collapsing_dropDupWrite (s : State) (cl : Nat) (ctx : BitVec 12) (va : Nat) :
    collapsing (dropDupWrite s cl) ctx va = collapsing s ctx va := rfl
@[simp] theorem dropDupWrite_mem (s : State) (cl : Nat) : (dropDupWrite s cl).mem = s.mem := rfl
/-- R96: DUP is cleared in the table, and the page is shot down for the writer -/
theorem collapse_dup {s : State} {cl : Nat} {t : Touch} {rest : List Touch} {e : W64} {pa : Nat} (gap : inGap s 1 = false)
    (head : (cluster s cl).dupWrites = t :: rest) (still : collapsing s t.ctx t.va = false)
    (leaf : tableLeaf (dropDupWrite s cl) t.ctx t.va = some (e, pa)) (dup : leafDup e = true) : collapse s cl =
      beginShoot ⟨t.ctx, t.va / pageSize t.leaf * pageSize t.leaf, pageSize t.leaf, false, none, cl, 0, some t⟩
        (setMem (dropDupWrite s cl) (homeWriteQword s.mem pa (e &&& ~~~dupBit))) := by
  simp only [collapse, gap, head, collapsing_dropDupWrite, still, leaf, dup, dropDupWrite_mem, Bool.false_eq_true, if_false, if_true]

/-- Settles O56: each step under its own condition. -/
theorem paging : Obligations.Paging := by
  unfold Obligations.Paging
  refine ⟨?touch, ?refill, ?replicate, ?collapse⟩
  case touch =>
    intro s cl i t a h
    rw [exec_firstTouchServe_touch a h]
    refine ⟨fun e s1 u got => by rw [serveTouch_mapped u got], fun s1 u got => by rw [serveTouch_unmapped u got], ?_⟩
    rintro s1 (⟨u, rfl⟩ | ⟨u, empty⟩)
    · rw [serveTouch_noUnit u]
    · rw [serveTouch_poolEmpty u empty]
  case refill =>
    rintro s v f a rfl run gap free room
    rw [exec_firstTouchServe_refill a, refillPool_of_room run gap free room]
  case replicate =>
    intro s cl m rest e pa a gap head leaf wants still good there port
    rw [exec_dupReadReplicate a]
    refine ⟨fun r h => by rw [replicate_present gap head leaf wants still good there port h],
      fun s1 h f => by rw [replicate_poolEmpty gap head leaf wants still good there port h f], fun f s1 h took => ?_⟩
    rw [replicate_made gap head leaf wants still good there port h took]
    refine ⟨_, rfl, ⟨newReplica cl m e pa f, ?_, rfl, rfl, rfl, rfl, rfl⟩, ?_⟩
    · rw [fillHead_work]
      exact mem_withReplica ..
    · rw [fillHead_misses, cluster_congr (withReplica_clusters ..)]
  case collapse =>
    intro s cl t rest e pa a gap head still leaf dup
    rw [exec_dupWriteCollapse a, collapse_dup gap head still leaf dup]
end Sys2Proof.Proofs.Paging

/-! ## The bytes of a sector (R110) -/
namespace Sys2Proof.Proofs.Bytes
open Sys2Proof.Machine Sys2Proof.Laws.State

/-- the byte of a sector that stands at an address -/
def byteOf (d : BitVec 512) (a : Nat) : Byte := BitVec.ofNat 8 (secBytes d (a % 64) 1)
/-- a sector with `n` bytes of `v` stored from an address on -/
def withBytes (d : BitVec 512) (pa n v : Nat) : BitVec 512 := mergeBytes d (putBytes 0 (pa % 64) n v) (secMask (pa % 64) n)

theorem pow_256 (i : Nat) : 256 ^ i = 2 ^ (8 * i) := Nat.pow_mul 2 8 i |>.symm
theorem toNat_mod_pow_256 {n : Nat} (d : BitVec (8 * n)) : d.toNat % 256 ^ n = d.toNat := by rw [pow_256, BitVec.toNat_mod_cancel]
theorem byteOf_getLsbD (d : BitVec 512) (a : Nat) {j : Nat} (h : j < 8) : (byteOf d a).getLsbD j = d.getLsbD (8 * (a % 64) + j) := by
  rw [byteOf, secBytes, pow_256, Nat.pow_one, BitVec.getLsbD_ofNat, show (256 : Nat) = 2 ^ 8 from rfl, Nat.testBit_mod_two_pow,
    Nat.testBit_div_two_pow, BitVec.getLsbD]
  simp [h, Nat.add_comm]
theorem secMask_getLsbD (i n : Nat) {k : Nat} (h : k < 64) : (secMask i n).getLsbD k = decide (i ≤ k ∧ k < i + n) := by
  rw [secMask, BitVec.getLsbD_ofNat, Nat.testBit_mul_two_pow, Nat.testBit_two_pow_sub_one, Bool.eq_iff_iff]
  simp [h]
  omega
theorem expandMask_lt (m : BitVec 64) (k : Nat) : expandMask m k < 2 ^ (8 * k) := by
  induction k with
  | zero => simp [expandMask]
  | succ k ih =>
    have step : 2 ^ (8 * (k + 1)) = 2 ^ (8 * k) + 255 * 2 ^ (8 * k) := by rw [Nat.mul_succ, Nat.pow_add]; omega
    rw [expandMask, pow_256, step]
    split <;> omega
/-- a bit of the expanded mask is its byte's -/
theorem expandMask_testBit (m : BitVec 64) (k j : Nat) : (expandMask m k).testBit j = (decide (j < 8 * k) && m.getLsbD (j / 8)) := by
  induction k with
  | zero => simp [expandMask]
  | succ k ih =>
    have split : expandMask m (k + 1) = 2 ^ (8 * k) * (if m.getLsbD k then 2 ^ 8 - 1 else 0) + expandMask m k := by
      rw [expandMask, pow_256]
      split <;> omega
    have byte (i : Nat) : (if m.getLsbD k then 2 ^ 8 - 1 else 0).testBit i = (decide (i < 8) && m.getLsbD k) := by
      cases m.getLsbD k with
      | false => simp
      | true => rw [if_pos rfl, Nat.testBit_two_pow_sub_one, Bool.and_true]
    rw [split, Nat.testBit_two_pow_mul_add _ (expandMask_lt m k), byte, ih]
    by_cases below : j < 8 * k
    · simp [below, show j < 8 * (k + 1) by omega]
    · by_cases here : j < 8 * (k + 1)
      · simp [below, here, show j - 8 * k < 8 by omega, show j / 8 = k by omega]
      · simp [below, here, show ¬ j - 8 * k < 8 by omega]
/-- a merge takes the masked bytes from the new sector -/
theorem mergeBytes_getLsbD (old new : BitVec 512) (mask : BitVec 64) {b : Nat} (h : b < 512) :
    (mergeBytes old new mask).getLsbD b = if mask.getLsbD (b / 8) then new.getLsbD b else old.getLsbD b := by
  have bit : (BitVec.ofNat 512 (expandMask mask 64)).getLsbD b = mask.getLsbD (b / 8) := by
    rw [BitVec.getLsbD_ofNat, expandMask_testBit]
    simp [h]
  rw [mergeBytes, BitVec.getLsbD_or, BitVec.getLsbD_and, BitVec.getLsbD_and, BitVec.getLsbD_not, bit]
  cases mask.getLsbD (b / 8) <;> simp [h]
theorem byteOf_mergeBytes (old new : BitVec 512) (mask : BitVec 64) (a : Nat) :
    byteOf (mergeBytes old new mask) a = if mask.getLsbD (a % 64) then byteOf new a else byteOf old a := by
  refine BitVec.eq_of_getLsbD_eq fun j lt => ?_
  have byte : (8 * (a % 64) + j) / 8 = a % 64 := by omega
  rw [byteOf_getLsbD _ _ lt, mergeBytes_getLsbD _ _ _ (by omega), byte]
  split <;> rw [byteOf_getLsbD _ _ lt]
section
variable {pa n : Nat} (fits : pa % 64 + n ≤ 64) (d : BitVec 512) (v : Nat)
include fits
/-- the bytes stored -/
theorem byteOf_withBytes_inside {i : Nat} (h : i < n) : byteOf (withBytes d pa n v) (pa + i) = BitVec.ofNat 8 (v / 256 ^ i) := by
  have place : (pa + i) % 64 = pa % 64 + i := by omega
  have stored : (secMask (pa % 64) n).getLsbD ((pa + i) % 64) = true := by
    rw [place, secMask_getLsbD _ _ (by omega)]
    simpa using h
  rw [withBytes, byteOf_mergeBytes, if_pos stored, putBytes, byteOf_mergeBytes, if_pos stored]
  refine BitVec.eq_of_getLsbD_eq fun j lt => ?_
  rw [byteOf_getLsbD _ _ lt, place, pow_256, pow_256, pow_256, BitVec.getLsbD_ofNat, Nat.testBit_mul_two_pow, BitVec.getLsbD_ofNat,
    Nat.testBit_mod_two_pow, Nat.testBit_div_two_pow]
  have bit : 8 * (pa % 64 + i) + j - 8 * (pa % 64) = j + 8 * i := by omega
  simp [lt, bit, show 8 * (pa % 64 + i) + j < 512 by omega, show 8 * (pa % 64) ≤ 8 * (pa % 64 + i) + j by omega,
    show j + 8 * i < 8 * n by omega]
omit fits in
/-- every other byte of the sector -/
theorem byteOf_withBytes_outside {a : Nat} (same : a / 64 = pa / 64) (h : ¬(pa ≤ a ∧ a < pa + n)) :
    byteOf (withBytes d pa n v) a = byteOf d a := by
  rw [withBytes, byteOf_mergeBytes, if_neg]
  rw [secMask_getLsbD _ _ (by omega), decide_eq_true_iff]
  omega
end

/-! ### Bytes of memory written and read back -/

theorem readCell_writeCells_outside (bs : List Byte) (m : List Host.Cell) {a q : Nat} (h : q < a ∨ a + bs.length ≤ q) :
    readCell (writeCells m a bs) q = readCell m q := by
  induction bs generalizing m a with
  | nil => rfl
  | cons b t ih =>
    rw [List.length_cons] at h
    rw [writeCells, ih _ (by omega), readCell_writeCell_ne _ _ (by omega)]
@[simp] theorem toBytes_length (n v : Nat) : (toBytes n v).length = n := by
  induction n generalizing v with
  | zero => rfl
  | succ n ih => rw [toBytes, List.length_cons, ih]
theorem readCells_writeCells_toBytes (n : Nat) {m : List Host.Cell} (a v : Nat) (wf : cellsFrom none m = true) :
    readCells (writeCells m a (toBytes n v)) a n = v % 256 ^ n := by
  induction n generalizing m a v with
  | zero => simp [readCells, Nat.mod_one]
  | succ n ih =>
    have wf' : cellsFrom none (writeCell m a (BitVec.ofNat 8 v)) = true := cellsFrom_writeCell none m a _ wf nofun
    have digits : v % 256 ^ (n + 1) = v % 256 + 256 * (v / 256 % 256 ^ n) := by rw [Nat.pow_succ', Nat.mod_mul]
    rw [toBytes, writeCells, readCells, ih _ _ wf', readCell_writeCells_outside _ _ (.inl (Nat.lt_succ_self a)),
      readCell_writeCell_self none m a _ wf, BitVec.toNat_ofNat, digits]
end Sys2Proof.Proofs.Bytes

/-! ## Sectors at their homes (R102, R110, R120) -/
namespace Sys2Proof.Proofs.Homes
open Sys2Proof.Machine Sys2Proof.Claims Sys2Proof.Laws.State Sys2Proof.Laws.Ops Sys2Proof.Proofs.Bytes

/-! ### Entries deleted from a map -/

theorem mdel_of_absent {α : Type} {m : Map α} {q : Nat} (h : mfind m q = none) : mdel m q = m := by
  induction m with
  | nil => rfl
  | cons p t ih => obtain ⟨k, v⟩ := p; grind [mdel, mfind]
theorem mfind_mdel_of_absent {α : Type} {m : Map α} {q r : Nat} (h : mfind m r = none) : mfind (mdel m q) r = none := by
  by_cases e : r = q
  · subst e
    rw [mdel_of_absent h, h]
  · rw [mfind_mdel_ne m e, h]
theorem mfind_of_ascending {α : Type} {m : Map α} {lo : Nat} (h : setFrom (some lo) (m.map (·.1)) = true) {q : Nat} (b : q ≤ lo) :
    mfind m q = none := by
  induction m generalizing lo with
  | nil => rfl
  | cons p t ih =>
    obtain ⟨k, v⟩ := p
    simp only [List.map_cons, setFrom, Bool.and_eq_true, decide_eq_true_iff] at h
    rw [mfind, if_neg (by omega), ih h.2 (by omega)]
/-- with ascending keys an entry deleted leaves none behind it -/
theorem mfind_mdel_self {α : Type} {m : Map α} {lo : Option Nat} (h : setFrom lo (m.map (·.1)) = true) (q : Nat) :
    mfind (mdel m q) q = none := by
  induction m generalizing lo with
  | nil => rfl
  | cons p t ih =>
    obtain ⟨k, v⟩ := p
    simp only [List.map_cons, setFrom, Bool.and_eq_true] at h
    by_cases e : q = k
    · rw [mdel, if_pos e, mfind_of_ascending h.2 (by omega)]
    · rw [mdel, if_neg e, mfind, if_neg e, ih h.2]

/-! ### A sector written to memory -/

@[simp] theorem hbmWrite_stale (m : Mem) (sec : Nat) (x : L2Sector) : (hbmWrite m sec x).stale = m.stale := by simp only [hbmWrite]
theorem hbmWrite_fresh (m : Mem) (sec : Nat) (x : L2Sector) :
    (hbmWrite m sec x).fresh = if isFresh m sec then m.fresh else (sec, sec + 1) :: m.fresh := by simp only [hbmWrite]
theorem isFresh_congr {m m' : Mem} {q : Nat} (stale : m'.stale = m.stale)
    (fresh : m'.fresh.any (fun r => decide (r.1 ≤ q ∧ q < r.2)) = m.fresh.any (fun r => decide (r.1 ≤ q ∧ q < r.2))) :
    isFresh m' q = isFresh m q := by
  rw [isFresh, isFresh, stale, fresh]
theorem isFresh_hbmWrite_self (m : Mem) (sec : Nat) (x : L2Sector) : isFresh (hbmWrite m sec x) sec = true := by
  by_cases f : isFresh m sec = true
  · rw [← f]
    exact isFresh_congr (hbmWrite_stale ..) (by rw [hbmWrite_fresh, if_pos f])
  · rw [isFresh, hbmWrite_fresh, if_neg f]
    simp
theorem isFresh_hbmWrite_ne (m : Mem) {sec q : Nat} (x : L2Sector) (h : q ≠ sec) : isFresh (hbmWrite m sec x) q = isFresh m q := by
  refine isFresh_congr (hbmWrite_stale ..) ?_
  rw [hbmWrite_fresh]
  split
  · rfl
  · rw [List.any_cons, decide_eq_false (by omega), Bool.false_or]
/-- what is written to a sector of memory reads back -/
theorem hbmRead_hbmWrite_self {m : Mem} (g : Good m) (sec : Nat) (x : L2Sector) : (hbmRead (hbmWrite m sec x) sec).data = x.data := by
  obtain ⟨⟨cells, -⟩, -⟩ := (good_iff m).mp g
  rw [Start.hbmRead_data (isFresh_hbmWrite_self m sec x), hbmWrite_cells, readCells_writeCells_toBytes _ _ _ cells,
    toNat_mod_pow_256 (n := 64) x.data, BitVec.ofNat_toNat, BitVec.setWidth_eq]
/-- no other sector changes -/
theorem hbmRead_hbmWrite_ne (m : Mem) {sec q : Nat} (x : L2Sector) (h : q ≠ sec) :
    (hbmRead (hbmWrite m sec x) q).data = (hbmRead m q).data := by
  have bytes : readCells (hbmWrite m sec x).cells (q * 64) 64 = readCells m.cells (q * 64) 64 := by
    refine Start.readCells_congr _ _ fun i lt => ?_
    rw [hbmWrite_cells]
    exact readCell_writeCells_outside _ _ (by rw [toBytes_length]; omega)
  simp only [hbmRead, isFresh_hbmWrite_ne m x h, bytes, staleView, hbmWrite_stale]
  split <;> rfl

/-- memory's own bytes are not L2's -/
theorem hbmRead_withL2 (m : Mem) (l : Map L2Sector) (q : Nat) : hbmRead { m with l2 := l } q = hbmRead m q := rfl

/-! ### What a write leaves of another sector -/

/-- a sector is as it was, in L2 and in memory -/
structure Kept (m m' : Mem) (q : Nat) : Prop where
  l2 : mfind m'.l2 q = mfind m.l2 q
  held : (hbmRead m' q).data = (hbmRead m q).data
namespace Kept
theorem refl (m : Mem) (q : Nat) : Kept m m q := ⟨rfl, rfl⟩
theorem trans {m m' m'' : Mem} {q : Nat} (h : Kept m m' q) (h' : Kept m' m'' q) : Kept m m'' q :=
  ⟨h'.l2.trans h.l2, h'.held.trans h.held⟩
theorem view {m m' : Mem} {q : Nat} (h : Kept m m' q) : (homeView m' q).data = (homeView m q).data := by
  rw [homeView, homeView, h.l2]
  cases mfind m.l2 q with
  | some y => rfl
  | none => exact h.held
theorem copyAgrees {m m' : Mem} {q : Nat} (h : Kept m m' q) (c : copyAgrees m q) : copyAgrees m' q :=
  c.imp_right fun c y f => (c y (h.l2 ▸ f)).trans h.held.symm
/-- a byte at its home follows its sector -/
theorem homeByte {m m' : Mem} {a : Nat} (h : Kept m m' (a / 64)) : homeByte m' a = homeByte m a := by
  rw [Machine.homeByte, Machine.homeByte, h.view]
end Kept
theorem homeByte_eq (m : Mem) (a : Nat) : homeByte m a = byteOf (homeView m (a / 64)).data a := rfl

theorem kept_noteFill (m : Mem) (sec q : Nat) : Kept m (noteFill m sec) q := by
  rw [noteFill_eq]
  exact ⟨rfl, rfl⟩
theorem kept_hbmWrite (m : Mem) {sec q : Nat} (x : L2Sector) (h : q ≠ sec) : Kept m (hbmWrite m sec x) q :=
  ⟨by rw [hbmWrite_l2], hbmRead_hbmWrite_ne m x h⟩
theorem kept_l2Drop (m : Mem) {sec q : Nat} (h : q ≠ sec) : Kept m (l2Drop m sec) q := ⟨mfind_mdel_ne _ h, rfl⟩

/-! ### L2's write-back and eviction (R102, R110) -/

theorem l2Clean_of_dirty {m : Mem} {sec : Nat} {x : L2Sector} (h : mfind m.l2 sec = some x) (d : x.dirty = true) :
    l2Clean m sec = { hbmWrite m sec x with l2 := mset m.l2 sec { x with dirty := false } } := by
  simp only [l2Clean, h, d, if_true]
theorem l2Clean_of_clean {m : Mem} {sec : Nat} (h : ∀ x, mfind m.l2 sec = some x → x.dirty = false) : l2Clean m sec = m := by
  unfold l2Clean
  split
  · next x f => rw [h x f, if_neg Bool.false_ne_true]
  · rfl
/-- a sector that L2 holds dirty, or none that it does -/
theorem dirty_or_clean (m : Mem) (sec : Nat) :
    (∃ x, mfind m.l2 sec = some x ∧ x.dirty = true) ∨ ∀ x, mfind m.l2 sec = some x → x.dirty = false := by
  by_cases h : ∃ x, mfind m.l2 sec = some x ∧ x.dirty = true
  · exact .inl h
  · exact .inr fun x f => by simpa [f] using h
theorem kept_l2Clean (m : Mem) {sec q : Nat} (h : q ≠ sec) : Kept m (l2Clean m sec) q := by
  obtain ⟨x, f, d⟩ | clean := dirty_or_clean m sec
  · rw [l2Clean_of_dirty f d]
    exact ⟨mfind_mset_ne _ _ h, (congrArg _ (hbmRead_withL2 ..)).trans (hbmRead_hbmWrite_ne m x h)⟩
  · rw [l2Clean_of_clean clean]
    exact .refl m q
theorem view_l2Clean (m : Mem) (sec q : Nat) : (homeView (l2Clean m sec) q).data = (homeView m q).data := by
  by_cases e : q = sec
  · subst e
    obtain ⟨x, f, d⟩ | clean := dirty_or_clean m q
    · rw [l2Clean_of_dirty f d]
      simp only [homeView, f, mfind_mset_self, Option.getD_some]
    · rw [l2Clean_of_clean clean]
  · exact (kept_l2Clean m e).view
theorem kept_l2Evict (m : Mem) {sec q : Nat} (h : q ≠ sec) : Kept m (l2Evict m sec) q :=
  (kept_l2Clean m h).trans (kept_l2Drop _ h)
/-- an evicted sector is no more in L2 -/
theorem l2Evict_absent {m : Mem} (g : Good m) (sec : Nat) : mfind (l2Evict m sec).l2 sec = none :=
  mfind_mdel_self (good_l2Clean sec g).2 sec
theorem view_of_absent {m : Mem} {q : Nat} (h : mfind m.l2 q = none) : homeView m q = hbmRead m q := by simp only [homeView, h, Option.getD_none]
/-- a sector that L2 held dirty or not at all stands in memory as it read -/
theorem held_l2Evict {m : Mem} (g : Good m) {sec : Nat} (h : ∀ y, mfind m.l2 sec = some y → y.dirty = true) :
    (hbmRead (l2Evict m sec) sec).data = (homeView m sec).data := by
  obtain ⟨x, f, d⟩ | clean := dirty_or_clean m sec
  · rw [l2Evict, l2Clean_of_dirty f d, l2Drop, hbmRead_withL2, hbmRead_withL2, hbmRead_hbmWrite_self g, homeView, f, Option.getD_some]
  · have absent : mfind m.l2 sec = none := by
      cases f : mfind m.l2 sec with
      | none => rfl
      | some y => exact absurd ((h y f).symm.trans (clean y f)) nofun
    rw [l2Evict, l2Clean_of_clean clean, view_of_absent absent]
    rfl
/-- a sector that L2 held clean reads as memory has it -/
theorem view_l2Evict_of_clean {m : Mem} (g : Good m) {sec : Nat} (h : ∀ y, mfind m.l2 sec = some y → y.dirty = false) :
    homeView (l2Evict m sec) sec = hbmRead m sec := by
  rw [view_of_absent (l2Evict_absent g sec), l2Evict, l2Clean_of_clean h]
  rfl
theorem view_l2Evict {m : Mem} (g : Good m) {sec q : Nat} (h : q = sec → ∀ y, mfind m.l2 sec = some y → y.dirty = true) :
    (homeView (l2Evict m sec) q).data = (homeView m q).data := by
  by_cases e : q = sec
  · rw [e, view_of_absent (l2Evict_absent g sec), held_l2Evict g (h e)]
  · exact (kept_l2Evict m e).view

/-- Settles O27: the byte follows its sector, which a write-back leaves as it reads. -/
theorem evictionIsInvisible : Obligations.EvictionIsInvisible := by
  unfold Obligations.EvictionIsInvisible
  intro m sec a g
  refine ⟨?cleaned, good_l2Clean sec g, good_l2Evict sec g, fun dirty => ?evicted, fun y f clean => ?clean⟩
  case cleaned => rw [homeByte_eq, homeByte_eq, view_l2Clean]
  case evicted => rw [homeByte_eq, homeByte_eq, view_l2Evict g dirty]
  case clean =>
    have only (x) (f' : mfind m.l2 (a / 64) = some x) : x.dirty = false := by
      rw [f] at f'
      rwa [← Option.some.inj f']
    rw [homeByte, view_l2Evict_of_clean g only]
end Sys2Proof.Proofs.Homes

/-! ## Writes performed at a home, and write-backs of a core's sectors (R12, R13, R110, R112) -/
namespace Sys2Proof.Proofs.WriteBacks
open Sys2Proof.Machine Sys2Proof.Laws.State Sys2Proof.Laws.Ops Sys2Proof.Proofs.Bytes Sys2Proof.Proofs.Homes Sys2Proof.Proofs.Device

/-! ### A write on its way touches accounts and ports -/

theorem updCtx_eq (s : State) (c : BitVec 12) (f : Ctx → Ctx) : updCtx s c f = { s with ctxs := (updCtx s c f).ctxs } := by
  unfold updCtx
  split <;> rfl
theorem chargeSec_eq (s : State) (c : BitVec 12) (sec : Nat) : chargeSec s c sec = { s with ctxs := (chargeSec s c sec).ctxs } := by
  unfold chargeSec
  split
  · exact updCtx_eq ..
  · split
    · exact updCtx_eq ..
    · rfl
theorem chargeWrite_eq (s : State) (c : BitVec 12) (sec : Nat) : chargeWrite s c sec = { s with ctxs := (chargeWrite s c sec).ctxs } := by
  simp only [chargeWrite, chargeMiss]
  split
  · split
    · exact chargeSec_eq ..
    · rfl
  · rfl
theorem sendFlit_eq (s : State) (c : BitVec 12) (f : Nat → Flit) (p : Nat) :
    sendFlit s c f p = { s with ctxs := (sendFlit s c f p).ctxs, links := (sendFlit s c f p).links } := by
  have charged : chargeGirt s c = { s with ctxs := (chargeGirt s c).ctxs } := updCtx_eq ..
  simp only [sendFlit]
  split
  · rw [charged]
  · rw [charged]
theorem performAt_eq (s : State) (k : Option Nat) (c : BitVec 12) (sec : Nat) (d : BitVec 512) (m : BitVec 64) (a b : BitVec 2) (w : Bool) :
    performAt s k c sec d m a b w = { s with mem := homeMergeW s.mem sec d m a b w, ctxs := (performAt s k c sec d m a b w).ctxs,
                                             links := (performAt s k c sec d m a b w).links } := by
  simp only [performAt]
  split
  · rfl
  · rw [sendFlit_eq]
    rfl
@[simp] theorem chargeSec_cores (s : State) (c : BitVec 12) (sec : Nat) : (chargeSec s c sec).cores = s.cores := by rw [chargeSec_eq]
@[simp] theorem chargeWrite_cores (s : State) (c : BitVec 12) (sec : Nat) : (chargeWrite s c sec).cores = s.cores := by rw [chargeWrite_eq]
@[simp] theorem chargeWrite_cur (s : State) (c : BitVec 12) (sec : Nat) : (chargeWrite s c sec).cur = s.cur := by rw [chargeWrite_eq]
@[simp] theorem performAt_cores (s : State) (k : Option Nat) (c : BitVec 12) (sec : Nat) (d : BitVec 512) (m : BitVec 64) (a b : BitVec 2)
    (w : Bool) : (performAt s k c sec d m a b w).cores = s.cores := by rw [performAt_eq]
@[simp] theorem performAt_cur (s : State) (k : Option Nat) (c : BitVec 12) (sec : Nat) (d : BitVec 512) (m : BitVec 64) (a b : BitVec 2)
    (w : Bool) : (performAt s k c sec d m a b w).cur = s.cur := by rw [performAt_eq]
theorem core_congr {s s' : State} (h : s'.cores = s.cores) (k : Nat) : Machine.core s' k = Machine.core s k := by
  rw [Machine.core, Machine.core, h]

/-! ### The step under way stays the same -/

@[simp] theorem writeOne_cur (s : State) (k sec : Nat) : (writeOne s k sec).cur = s.cur := by
  unfold writeOne
  split
  · split
    · simp
    · rfl
  · rfl
@[simp] theorem writeAll_cur (s : State) (k : Nat) (l : List Nat) : (writeAll s k l).cur = s.cur := by
  induction l generalizing s with
  | nil => rfl
  | cons a t ih => rw [writeAll, ih, writeOne_cur]
@[simp] theorem writeBack_cur (s : State) (k sec : Nat) : (writeBack s k sec).cur = s.cur := by
  unfold writeBack
  split
  · split <;> simp
  · rfl
@[simp] theorem writeBacks_cur (s : State) (k : Nat) (l : List Nat) : (writeBacks s k l).cur = s.cur := by
  induction l generalizing s with
  | nil => rfl
  | cons a t ih => rw [writeBacks, ih, writeBack_cur]

/-! ### A write merged at its home -/

/-- a write that does not cover its sector notes what fills it (R68) -/
theorem kept_filled (m : Mem) (w : Bool) (sec q : Nat) : Kept m (if w then m else noteFill m sec) q := by
  cases w with
  | false => exact kept_noteFill m sec q
  | true => exact .refl m q
theorem kept_homeMergeW (m : Mem) {sec q : Nat} (d : BitVec 512) (k : BitVec 64) (a b : BitVec 2) (w : Bool) (h : q ≠ sec) :
    Kept m (homeMergeW m sec d k a b w) q := by
  refine (kept_filled m w sec q).trans ?_
  simp only [homeMergeW]
  generalize mergeSector (homeBase m sec) d k a b w = x
  generalize (if w then m else noteFill m sec) = n
  split
  · exact ⟨mfind_mset_ne _ _ h, rfl⟩
  · refine ⟨?_, (congrArg _ (hbmRead_withL2 ..)).trans (hbmRead_hbmWrite_ne n x h)⟩
    split
    · exact mfind_mset_ne _ _ h
    · rfl
theorem view_homeMergeW {m : Mem} (g : Good m) (sec : Nat) (d : BitVec 512) (k : BitVec 64) (a b : BitVec 2) (w : Bool) :
    (homeView (homeMergeW m sec d k a b w) sec).data = mergeBytes (homeBase m sec).data d k := by
  have data : (mergeSector (homeBase m sec) d k a b w).data = mergeBytes (homeBase m sec).data d k := rfl
  simp only [homeMergeW]
  rw [← data]
  replace g := good_filled sec w g
  generalize mergeSector (homeBase m sec) d k a b w = x
  generalize (if w then m else noteFill m sec) = n at g
  split
  · simp only [homeView, mfind_mset_self, Option.getD_some]
  · cases f : mfind n.l2 sec with
    | some y => simp only [homeView, Option.isSome_some, if_true, mfind_mset_self, Option.getD_some]
    | none =>
      rw [view_of_absent (by simpa using f), hbmRead_withL2, hbmRead_hbmWrite_self g]

/-! ### A core's sectors while some are written back and others leave -/

/-- the bytes of a sector as L1 has them -/
def l1Data (s : State) (k q : Nat) : Option (BitVec 512) := (mfind (Machine.core s k).l1 q).map (·.data)
theorem l1Data_congr {s s' : State} {k : Nat} (h : (Machine.core s' k).l1 = (Machine.core s k).l1) (q : Nat) :
    l1Data s' k q = l1Data s k q := by rw [l1Data, l1Data, h]
theorem l1Data_none {s : State} {k q : Nat} : l1Data s k q = none ↔ mfind (Machine.core s k).l1 q = none := Option.map_eq_none_iff

/-- Between two states core `k` has written sectors back and dropped some that do not stay: the others read in L1 as before, and of a
sector that L1 did not hold nothing has changed. -/
structure GivesUp (k : Nat) (stays : Nat → Prop) (s s' : State) : Prop where
  l1 : ∀ q, stays q → l1Data s' k q = l1Data s k q
  absent : ∀ q, l1Data s k q = none → l1Data s' k q = none
  home : ∀ q, l1Data s k q = none → Kept s.mem s'.mem q
namespace GivesUp
variable {k : Nat} {stays stays' : Nat → Prop} {s s' s'' : State}
theorem refl (k : Nat) (stays : Nat → Prop) (s : State) : GivesUp k stays s s := ⟨fun _ _ => rfl, fun _ h => h, fun _ _ => .refl ..⟩
theorem trans (h : GivesUp k stays s s') (h' : GivesUp k stays s' s'') : GivesUp k stays s s'' :=
  ⟨fun q p => (h'.l1 q p).trans (h.l1 q p), fun q a => h'.absent q (h.absent q a),
    fun q a => (h.home q a).trans (h'.home q (h.absent q a))⟩
theorem weaken (h : GivesUp k stays s s') (w : ∀ q, stays' q → stays q) : GivesUp k stays' s s' :=
  ⟨fun q p => h.l1 q (w q p), h.absent, h.home⟩
/-- what L1 does not hold stays so -/
theorem absent_stays (h : GivesUp k stays s s') : GivesUp k (l1Data s k · = none) s s' :=
  ⟨fun q a => (h.absent q a).trans a.symm, h.absent, h.home⟩
/-- a state that differs neither in the core's L1 nor in memory -/
theorem of_same (l : (Machine.core s' k).l1 = (Machine.core s k).l1) (m : s'.mem = s.mem) : GivesUp k stays s s' :=
  ⟨fun q _ => l1Data_congr l q, fun q a => (l1Data_congr l q).trans a, fun q _ => m ▸ .refl _ q⟩
end GivesUp

/-- a sector of L1 put back with the bytes it had, after a write to its home -/
theorem givesUp_putBack {s s1 : State} {k sec : Nat} {x y : L1Sector} (stays : Nat → Prop) (f : mfind (Machine.core s k).l1 sec = some x)
    (data : y.data = x.data) (cores : s1.cores = s.cores) (home : ∀ q, q ≠ sec → Kept s.mem s1.mem q) :
    GivesUp k stays s (setCore s1 k { Machine.core s1 k with l1 := mset (Machine.core s1 k).l1 sec y }) := by
  have l1 (q : Nat) : l1Data (setCore s1 k { Machine.core s1 k with l1 := mset (Machine.core s1 k).l1 sec y }) k q = l1Data s k q := by
    rw [l1Data, l1Data, core_setCore_self, core_congr cores]
    by_cases e : q = sec
    · rw [e, mfind_mset_self, f, Option.map_some, Option.map_some, data]
    · rw [mfind_mset_ne _ _ e]
  refine ⟨fun q _ => l1 q, fun q a => (l1 q).trans a, fun q a => home q fun e => ?_⟩
  rw [l1Data_none, e, f] at a
  exact Option.some_ne_none x a
/-- a write-back leaves L1's bytes, and reaches the home of its own sector alone -/
theorem givesUp_writeOne (s : State) (k sec : Nat) (stays : Nat → Prop) : GivesUp k stays s (writeOne s k sec) := by
  unfold writeOne
  split
  · next x f =>
    split
    · refine givesUp_putBack (y := { x with mask := 0, tagged := 0, streamed := 0 }) stays f rfl (by simp) fun q e => ?_
      rw [performAt_mem, chargeWrite_mem]
      exact kept_homeMergeW _ _ _ _ _ _ e
    · exact .refl ..
  · exact .refl ..
theorem givesUp_writeAll (k : Nat) (l : List Nat) (s : State) (stays : Nat → Prop) : GivesUp k stays s (writeAll s k l) := by
  induction l generalizing s with
  | nil => exact .refl ..
  | cons a t ih => exact (givesUp_writeOne s k a stays).trans (ih _)
theorem givesUp_writeBack (s : State) (k sec : Nat) (stays : Nat → Prop) : GivesUp k stays s (writeBack s k sec) := by
  unfold writeBack
  split
  · split
    · exact (givesUp_writeAll k _ s stays).trans (givesUp_writeOne ..)
    · exact givesUp_writeOne ..
  · exact .refl ..
theorem givesUp_writeBacks (k : Nat) (l : List Nat) (s : State) (stays : Nat → Prop) : GivesUp k stays s (writeBacks s k l) := by
  induction l generalizing s with
  | nil => exact .refl ..
  | cons a t ih => exact (givesUp_writeBack s k a stays).trans (ih _)
theorem givesUp_orderHome (s : State) (k : Nat) (x : Xlat) (stays : Nat → Prop) : GivesUp k stays s (orderHome s k x) := by
  unfold orderHome
  split
  · exact .refl ..
  · exact givesUp_writeAll ..
theorem givesUp_l1Drop (s : State) (k sec : Nat) : GivesUp k (· ≠ sec) s (l1Drop s k sec) := by
  have l1 : (Machine.core (l1Drop s k sec) k).l1 = mdel (Machine.core s k).l1 sec := by simp [l1Drop]
  refine ⟨fun q e => ?_, fun q a => ?_, fun q _ => .refl ..⟩
  · rw [l1Data, l1Data, l1, mfind_mdel_ne _ e]
  · rw [l1Data_none] at a ⊢
    rw [l1, mfind_mdel_of_absent a]
/-- a line that leaves takes its own sectors out of L1 -/
theorem givesUp_evictLine (s : State) (k line : Nat) : GivesUp k (· / 4 ≠ line) s (evictLine s k line) := by
  have sectors : ∀ sec ∈ lineSectors line, sec / 4 = line := by
    simp only [lineSectors, List.mem_cons, List.not_mem_nil, or_false]
    omega
  exact List.foldlRecOn (motive := GivesUp k (· / 4 ≠ line) s) _ _ (givesUp_writeBacks k (lineSectors line) s _)
    fun x g sec mem => g.trans ((givesUp_l1Drop x k sec).weaken fun q p e => p (e ▸ sectors sec mem))
/-- room made in a set takes the lines of that set alone -/
theorem givesUp_makeWays (s : State) (k set room : Nat) (lines : List Nat) (n : Nat) :
    GivesUp k (fun q => l1SetOf (q / 4) ≠ set) s (makeWays s k set room lines n) := by
  induction n generalizing s with
  | zero => exact .refl ..
  | succ n ih =>
    simp only [makeWays]
    split
    · exact .refl ..
    · next more =>
      refine .trans ?_ (ih _)
      have free : GivesUp k (fun q => l1SetOf (q / 4) ≠ set) s (freeBelow s (linesIn (Machine.core s k) set).length).2 := .of_same rfl rfl
      refine free.trans ((givesUp_evictLine ..).weaken fun q p e => p ?_)
      have some : (linesIn (Machine.core s k) set) ≠ [] := fun e => more (by simp [e])
      have index := Nat.mod_lt (Config.freeWord s.sched.freeCtr).toNat (List.length_pos_iff.mpr some)
      have mem : q / 4 ∈ linesIn (Machine.core s k) set := by
        rw [e, freeBelow, List.getD_eq_getElem?_getD, List.getElem?_eq_getElem index, Option.getD_some]
        exact List.getElem_mem _
      rw [linesIn, List.mem_eraseDups, List.mem_filter] at mem
      exact beq_iff_eq.mp mem.2
theorem givesUp_wayFor (s : State) (k sec : Nat) : GivesUp k (fun q => l1SetOf (q / 4) ≠ l1SetOf (sec / 4)) s (wayFor s k sec) := by
  unfold wayFor
  split
  · exact .refl ..
  · exact givesUp_makeWays ..
end Sys2Proof.Proofs.WriteBacks

/-! ## Fences, line maintenance and scratch lines (R113, R122, R293, R412-R414) -/
namespace Sys2Proof.Proofs.Fences
open Sys2Proof.Machine Sys2Proof.Claims Sys2Proof.Laws.State Sys2Proof.Laws.Ops Sys2Proof.Proofs.Device Sys2Proof.Proofs.WriteBacks

/-! ### How an effect on memory ends -/

/-- an effect goes on where the one before it ended -/
theorem aBind_of_ok {α β : Type} {f : AM α} {g : α → AM β} {s s1 : State} {a : α} (h : f s = .ok (a, s1)) : (f >>= g) s = g a s1 := by
  simp only [bind, StateT.bind, h, Except.bind]
theorem aState_bind {β : Type} (g : State → AM β) (s : State) : (aState >>= g) s = g s s := rfl
theorem aMod_bind {β : Type} (f : State → State) (g : Unit → AM β) (s : State) : (aMod f >>= g) s = g () (f s) := rfl
theorem aUnless_of_true {ok : Bool} (h : ok = true) (e : Stop) (s : State) : aUnless ok e s = .ok ((), s) := by
  rw [aUnless, h]; rfl
theorem aLift_of_ok {α : Type} {r : Except Stop α} {a : α} (h : r = .ok a) (s : State) : aLift r s = .ok (a, s) := by
  subst h; rfl
section
variable {h : Hdr} {s s1 : State} {t u : Thread} {f : Who → Thread → AM Thread} (r : Runs h s t)
include r
/-- an instruction on memory is done with the thread and the state its effect gives -/
theorem runM_of_ok (e : f (whoOf s.cur.core t) t s = .ok (u, s1)) : runM h f s = .next (doneAt h s1 u) := by
  rw [runM, runState_true r.1 r.2]
  simp only [runA, e, finish, retireCur_setCur, setCur_cur, doneAt, doneWith]
theorem runM_of_wait (e : f (whoOf s.cur.core t) t s = .error (.wait s1)) : runM h f s = .next s1 := by
  rw [runM, runState_true r.1 r.2]
  simp only [runA, e, finish]
/-- with no state changed on the way the peers noted are the thread's own -/
theorem doneAt_self (p : u.opn = t.opn) : doneAt h s u = doneWith h s u := by
  simp only [doneAt, keepPeers, r.1, ← p]
end

/-! ### FENCE (R113, R122) -/

section
variable {o : FenceOps} {w : Who} {t : Thread} {s : State}
theorem fenceAM_of_waiting (held : writesWait s w.k w.ctx = true) : fenceAM o w t s = .error (.wait s) := by
  rw [fenceAM, aState_bind, if_pos held]
  rfl
theorem fenceAM_below_sys (free : writesWait s w.k w.ctx = false) (below : o.scope ≠ 5) :
    fenceAM o w t s = .ok (setP t o.d true, ackPorts (fenceOp s w.k w.ctx o.scope) w.k) := by
  rw [fenceAM, aState_bind, if_neg (Bool.eq_false_iff.mp free), aMod_bind,
    if_neg (by simpa using below)]
  rfl
theorem fenceAM_sys (free : writesWait s w.k w.ctx = false) (sys : o.scope = 5) :
    fenceAM o w t s = .ok (setP (afterFence s t) o.d (fenceHolds s t), setCur (ackPorts (fenceOp s w.k w.ctx 5) w.k) (afterFence s t)) := by
  rw [fenceAM, aState_bind, if_neg (Bool.eq_false_iff.mp free), aMod_bind,
    if_pos (by simpa using sys), sys]
  rfl
end
/-- R122, R124: no write was given up, and no peer written to is lost -/
theorem fenceHolds_eq (s : State) (t : Thread) :
    fenceHolds s t = decide (t.opn.lostWrite = false ∧ ∀ p ∈ t.opn.peers, peerLost s p = false) := by
  rw [Bool.eq_iff_iff, decide_eq_true_iff]
  simp [fenceHolds]

/-! ### CLEAN, INVAL, FLUSH (R412, R413) -/

@[simp] theorem installCore_cur (s : State) (k : Nat) (e : TlbEntry) : (installCore s k e).cur = s.cur := rfl
/-- a translation found changes nothing, but that the core's TLB takes over the cluster's entry -/
theorem useEntry_hit {s s1 : State} {cl k va : Nat} {e : TlbEntry} {need : Need} {x : Xlat} (h : useEntry s cl k e va need = .hit x s1) :
    s1 = s := by
  unfold useEntry at h
  split at h
  · cases h
  split at h
  · cases h
  split at h
  · cases h
  split at h
  · cases h
  split at h
  · cases h
  exact (TrEnd.hit.inj h).2.symm
theorem translate_hit_cur {s s1 : State} {k va : Nat} {ctx : BitVec 12} {need : Need} {x : Xlat}
    (h : Machine.translate s k ctx va need = .hit x s1) : s1.cur = s.cur := by
  simp only [Machine.translate] at h
  split at h
  · cases h
  · split at h
    · rw [useEntry_hit h]
    · split at h
      · rw [useEntry_hit h, installCore_cur]
      · cases h
theorem aXlat_cur {w : Who} {va : Nat} {need : Need} {s s1 : State} {x : Xlat} (h : aXlat w va need s = .ok (x, s1)) : s1.cur = s.cur := by
  unfold aXlat at h
  split at h
  · next hit =>
    obtain ⟨rfl, rfl⟩ := Prod.mk.inj (Except.ok.inj h)
    exact translate_hit_cur hit
  · cases h
  · cases h
theorem aUnless_state {ok : Bool} {e : Stop} {s s1 : State} {u : Unit} (h : aUnless ok e s = .ok (u, s1)) : s1 = s := by
  cases ok with
  | true => exact (Prod.mk.inj (Except.ok.inj h)).2.symm
  | false => cases e <;> cases h
/-- the steps of an effect that ends well end well -/
theorem aBind_ok {α β : Type} {f : AM α} {g : α → AM β} {s s2 : State} {b : β} (h : (f >>= g) s = .ok (b, s2)) :
    ∃ a s1, f s = .ok (a, s1) ∧ g a s1 = .ok (b, s2) := by
  cases e : f s with
  | error e' =>
    simp only [bind, StateT.bind, e, Except.bind] at h
    cases h
  | ok p => exact ⟨p.1, p.2, rfl, (aBind_of_ok e).symm.trans h⟩
/-- walking the pages of a range leaves the step under way -/
theorem aSpans_cur {w : Who} {need : Need} {ok : W64 → Bool} {fuel lo hi : Nat} {s s1 : State} {rs : List (Nat × Nat)}
    (h : aSpans w need ok fuel lo hi s = .ok (rs, s1)) : s1.cur = s.cur := by
  induction fuel generalizing lo s s1 rs with
  | zero => rw [← (Prod.mk.inj (Except.ok.inj h)).2]
  | succ fuel ih =>
    rw [aSpans] at h
    by_cases done : hi ≤ lo
    · rw [if_pos done] at h
      rw [← (Prod.mk.inj (Except.ok.inj h)).2]
    · rw [if_neg done, aState_bind] at h
      cases anon : anonEntry s w lo ok with
      | some e =>
        simp only [anon] at h
        exact ih h
      | none =>
        simp only [anon] at h
        obtain ⟨x, s2, page, h⟩ := aBind_ok h
        obtain ⟨_, s3, usable, h⟩ := aBind_ok h
        rw [aState_bind] at h
        obtain ⟨_, s4, rest, h⟩ := aBind_ok h
        rw [← (Prod.mk.inj (Except.ok.inj h)).2, ih rest, aUnless_state usable, aXlat_cur page]
@[simp] theorem maintCore_cur (op : Maint) (r : Nat × Nat) (s : State) (j : Nat) : (maintCore op r s j).cur = s.cur := by
  obtain ⟨writes, drops⟩ := op
  cases writes <;> cases drops <;> simp [maintCore]
@[simp] theorem maintRange_cur (op : Maint) (k : Nat) (scope : BitVec 3) (r : Nat × Nat) (s : State) : (maintRange op k scope r s).cur = s.cur := by
  have cores (l : List Nat) : (l.foldl (maintCore op r) s).cur = s.cur := foldl_keeps State.cur (maintCore_cur op r) l s
  obtain ⟨writes, drops⟩ := op
  cases writes <;> cases drops <;> simp [maintRange, cores]
/-- two folds agree whose steps do so wherever they come -/
theorem foldl_congr_along {α β : Type} {f g : α → β → α} (P : α → Prop) (h : ∀ a b, P a → f a b = g a b ∧ P (g a b)) (l : List β) {a : α}
    (p : P a) : l.foldl f a = l.foldl g a := by
  induction l generalizing a with
  | nil => rfl
  | cons b l ih => rw [List.foldl_cons, List.foldl_cons, (h a b p).1, ih (h a b p).2]
/-- R412: each range is maintained for the core that the step runs on, which no range changes -/
theorem foldl_maintRange (op : Maint) (scope : BitVec 3) (rs : List (Nat × Nat)) {k : Nat} {s : State} (core : s.cur.core = k) :
    rs.foldl (fun s r => maintRange op s.cur.core scope r s) s = rs.foldl (fun s r => maintRange op k scope r s) s :=
  foldl_congr_along (fun s => s.cur.core = k) (fun s r c => ⟨by rw [c], by rw [maintRange_cur, c]⟩) rs core
/-- the sector ranges of a capability, from its cursor to its limit -/
def capSpans (w : Who) (need : Need) (a : CReg) : AM (List (Nat × Nat)) :=
  aSpans w need (fun e => permits e need) ((capLimit a.bits - curOf a) / 65536 + 2) (curOf a) (capLimit a.bits)
/-- the capability checked and its pages translated, each range is maintained, and what left for peers is claimed -/
theorem runM_maintAM {op : Maint} {need : Need} {p : BitVec 7} {aligned : Bool} {h : Hdr} {o : LineOps} {t : Thread} {s s1 : State}
    {rs : List (Nat × Nat)} (r : Runs h s t) (checked : checkHandle (getC t o.a) [0] p = .ok ())
    (inside : capBase (getC t o.a).bits ≤ curOf (getC t o.a))
    (lines : aligned = true → curOf (getC t o.a) % 256 = 0 ∧ capLimit (getC t o.a).bits % 256 = 0)
    (spans : capSpans (whoOf s.cur.core t) need (getC t o.a) s = .ok (rs, s1)) : runM h (maintAM op need p aligned o) s =
      .next (doneAt h (claimFlits s.cur.core s1 (rs.foldl (fun s r => maintRange op s.cur.core o.scope r s) s1)) t) := by
  have whole : (!aligned || (curOf (getC t o.a) % 256 == 0 && capLimit (getC t o.a).bits % 256 == 0)) = true := by
    cases aligned with
    | false => rfl
    | true => simpa using lines rfl
  rw [capSpans] at spans
  rw [foldl_maintRange op o.scope rs (congrArg _ (aSpans_cur spans))]
  apply runM_of_ok r
  rw [maintAM, aBind_of_ok (aLift_of_ok checked s), aBind_of_ok (aUnless_of_true (decide_eq_true inside) _ s),
    aBind_of_ok (aUnless_of_true whole _ s), aBind_of_ok spans]
  rfl

/-! ### SPALLOC, SPFREE (R293, R414) -/

/-- the thread with the scratch lines it holds then -/
def holding (t : Thread) (ls : List Nat) : Thread := { t with opn := { t.opn with scratch := ls } }
section
variable {o : SpOps} {w : Who} {t : Thread} {s : State} {ls new : List Nat} (lines : aLines (getC t o.a) s = .ok (ls, s))
include lines
theorem spallocAM_of_room (fresh : new = ls.filter (fun l => !t.opn.scratch.contains l))
    (unpinned : new.any (fun l => (Machine.core s w.k).pinned.contains l) = false)
    (room : ∀ l ∈ new, pinnedWays (Machine.core s w.k) (l % 64) (t.opn.scratch ++ new) ≤ 15) :
    spallocAM o w t s = .ok (setP (holding t (t.opn.scratch ++ new)) o.d true,
      pinLines s w.k (t.opn.scratch ++ new) new) := by
  have fits : new.any (fun l => decide (pinnedWays (Machine.core s w.k) (l % 64) (t.opn.scratch ++ new) > 15)) = false := by
    simpa using room
  subst fresh
  rw [spallocAM, aBind_of_ok lines, aState_bind, if_neg (by simp only [unpinned, fits]; decide)]
  rfl
theorem spallocAM_of_full (fresh : new = ls.filter (fun l => !t.opn.scratch.contains l))
    (full : (∃ l ∈ new, 15 < pinnedWays (Machine.core s w.k) (l % 64) (t.opn.scratch ++ new)) ∨
      new.any (fun l => (Machine.core s w.k).pinned.contains l) = true) : spallocAM o w t s = .ok (setP t o.d false, s) := by
  subst fresh
  rw [spallocAM, aBind_of_ok lines, aState_bind, if_pos]
  · rfl
  · rw [Bool.or_eq_true, or_comm, List.any_eq_true]
    simpa only [decide_eq_true_iff] using full
theorem spfreeAM_of_lines {mine : List Nat} (own : mine = ls.filter (fun l => t.opn.scratch.contains l)) : spfreeAM o w t s = .ok (holding t (t.opn.scratch.filter (fun l => !mine.contains l)),
      setCore s w.k (freeLines (Machine.core s w.k) mine)) := by
  subst own
  rw [spfreeAM, aBind_of_ok lines]
  rfl
end

section
variable (h : Hdr) (l : LineOps) (f : FenceOps) (p : SpOps) (s : State)
theorem exec_fence : exec (.fence h f) s = runM h (fenceAM f) s := rfl
theorem exec_clean : exec (.clean h l) s = runM h (maintAM ⟨true, false⟩ .load permR false l) s := rfl
theorem exec_inval : exec (.inval h l) s = runM h (maintAM ⟨false, true⟩ .store permW true l) s := rfl
theorem exec_flush : exec (.flush h l) s = runM h (maintAM ⟨true, true⟩ .atomic (permR ||| permW) false l) s := rfl
theorem exec_spalloc : exec (.spalloc h p) s = runM h (spallocAM p) s := rfl
theorem exec_spfree : exec (.spfree h p) s = runM h (spfreeAM p) s := rfl
end

/-- Settles O32, an instruction at a time, each from what its effect comes to. -/
theorem fencesAndLines : Obligations.FencesAndLines := by
  unfold Obligations.FencesAndLines
  simp only [exec_fence, exec_clean, exec_inval, exec_flush, exec_spalloc, exec_spfree]
  refine ⟨?below, ?waits, ?sys, ?maintenance, ?spalloc, ?spfree⟩
  case below => exact fun h o s t r below free => runM_of_ok r (fenceAM_below_sys free below)
  case waits => exact fun h o s t r held => runM_of_wait r (fenceAM_of_waiting held)
  case sys =>
    intro h o s t r sys free
    rw [← fenceHolds_eq]
    exact runM_of_ok r (fenceAM_sys free sys)
  case maintenance =>
    rintro h o s t _ _ r rfl rfl inside
    refine ⟨fun rs s1 checked spans => ?clean, fun rs s1 checked lo hi spans => ?inval, fun rs s1 checked spans => ?flush⟩
    case clean => exact runM_maintAM r checked inside (absurd · Bool.false_ne_true) spans
    case inval => exact runM_maintAM r checked inside (fun _ => ⟨lo, hi⟩) spans
    case flush => exact runM_maintAM r checked inside (absurd · Bool.false_ne_true) spans
  case spalloc =>
    intro h o s t ls new r lines fresh
    refine ⟨fun unpinned room => runM_of_ok r (spallocAM_of_room lines fresh unpinned room), fun full => ?_⟩
    rw [← doneAt_self r (setP_opn ..)]
    exact runM_of_ok r (spallocAM_of_full lines fresh full)
  case spfree =>
    intro h o s t ls mine r lines own
    exact runM_of_ok r (spfreeAM_of_lines lines own)
end Sys2Proof.Proofs.Fences

/-! ## The bytes that loads and stores change (R67, R102, R104, R110, R112) -/
namespace Sys2Proof.Proofs.StoredBytes
open Sys2Proof.Machine Sys2Proof.Claims Sys2Proof.Laws.State Sys2Proof.Laws.Ops Sys2Proof.Proofs.Bytes Sys2Proof.Proofs.Homes
  Sys2Proof.Proofs.WriteBacks

/-! ### The byte a core sees -/

section
variable {s s' : State} {k a : Nat}
theorem coreByte_of_l1 {d : BitVec 512} (h : l1Data s k (a / 64) = some d) : coreByte s k a = byteOf d a := by
  obtain ⟨y, f, rfl⟩ := Option.map_eq_some_iff.mp h
  rw [coreByte, f]
  rfl
theorem coreByte_of_absent (h : l1Data s k (a / 64) = none) : coreByte s k a = homeByte s.mem a := by
  rw [coreByte, l1Data_none.mp h]
theorem coreByte_congr (l1 : l1Data s' k (a / 64) = l1Data s k (a / 64))
    (home : l1Data s k (a / 64) = none → homeByte s'.mem a = homeByte s.mem a) : coreByte s' k a = coreByte s k a := by
  cases h : l1Data s k (a / 64) with
  | some d => rw [coreByte_of_l1 h, coreByte_of_l1 (l1.trans h)]
  | none => rw [coreByte_of_absent h, coreByte_of_absent (l1.trans h), home h]
/-- write-backs show in no byte of a sector that stays or was not there -/
theorem coreByte_of_givesUp {stays : Nat → Prop} (g : GivesUp k stays s s') (h : stays (a / 64)) : coreByte s' k a = coreByte s k a :=
  coreByte_congr (g.l1 _ h) fun absent => (g.home _ absent).homeByte
end

/-- No byte of a home differs between two states, and none that the core has in L1. -/
structure Unseen (k : Nat) (s s' : State) : Prop where
  view : ∀ q, (homeView s'.mem q).data = (homeView s.mem q).data
  l1 : ∀ q, l1Data s' k q = l1Data s k q
namespace Unseen
variable {k : Nat} {s s' : State} (u : Unseen k s s') (a : Nat)
include u
theorem homeByte : homeByte s'.mem a = homeByte s.mem a := by rw [homeByte_eq, homeByte_eq, u.view]
theorem coreByte : coreByte s' k a = coreByte s k a := coreByte_congr (u.l1 _) fun _ => u.homeByte a
end Unseen

/-! ### Reads at the homes -/

theorem homeView_noteFill (m : Mem) (sec q : Nat) : homeView (noteFill m sec) q = homeView m q := by
  rw [noteFill_eq]
  rfl
theorem homeView_homeFill (m : Mem) (sec q : Nat) : homeView (homeFill m sec) q = homeView m q := by
  by_cases e : q = sec
  · subst e
    rw [homeFill, homeView, mfind_mset_self, Option.getD_some]
  · rw [homeFill, homeView, mfind_mset_ne _ _ e, hbmRead_withL2, homeView]
theorem homeView_readHome (s : State) (ctx : BitVec 12) (sec q : Nat) : homeView (readHome s ctx sec).mem q = homeView s.mem q := by
  unfold readHome
  split
  · rw [setMem_mem, homeView_homeFill, homeView_noteFill]
  · rfl
@[simp] theorem readHome_cores (s : State) (ctx : BitVec 12) (sec : Nat) : (readHome s ctx sec).cores = s.cores := by
  unfold readHome
  split
  · rw [setMem_cores, chargeSec_cores]
  · rfl
theorem serveHome_foreign_mem {s : State} {sec : Nat} (ctx : BitVec 12) (h : isHbm sec = false) :
    (serveHome s ctx sec).mem = l2Drop s.mem sec := by
  rw [serveHome, if_neg (Bool.eq_false_iff.mp h), setMem_mem]
@[simp] theorem serveHome_cores (s : State) (ctx : BitVec 12) (sec : Nat) : (serveHome s ctx sec).cores = s.cores := by
  unfold serveHome
  split
  · exact readHome_cores ..
  · rw [setMem_cores, chargeSec_cores]
theorem unseen_readBase (s : State) (k : Nat) (ctx : BitVec 12) (sec : Nat) : Unseen k s (readBase s ctx sec) :=
  ⟨fun q => by rw [readBase, setMem_mem, homeView_noteFill],
    fun q => l1Data_congr (by rw [core_congr (s := s) (by rw [readBase, setMem_cores, chargeSec_cores])]) q⟩
/-- a sector of HBM, or one that L2 does not hold, is read at its home without a trace -/
theorem unseen_serveHome {s : State} {sec : Nat} (k : Nat) (ctx : BitVec 12) (h : isHbm sec = true ∨ mfind s.mem.l2 sec = none) :
    Unseen k s (serveHome s ctx sec) := by
  refine ⟨fun q => ?_, fun q => l1Data_congr (by rw [core_congr (serveHome_cores ..)]) q⟩
  by_cases hbm : isHbm sec = true
  · rw [serveHome, if_pos hbm, homeView_readHome]
  · rw [serveHome_foreign_mem ctx (by simpa using hbm), l2Drop, mdel_of_absent (h.resolve_left hbm)]

/-! ### Loads -/

section
variable {s : State} {k : Nat} (ctx : BitVec 12) {x : Xlat}
theorem loadSector_ms (ms : x.ms = true) : loadSector s k ctx x = (homeView s.mem (x.pa / 64), readBase s ctx (x.pa / 64)) := by
  rw [loadSector, if_pos ms]
theorem loadSector_so (ms : x.ms = false) (so : x.so = true) :
    loadSector s k ctx x = (homeView (serveHome s ctx (x.pa / 64)).mem (x.pa / 64), serveHome s ctx (x.pa / 64)) := by
  rw [loadSector, if_neg (Bool.eq_false_iff.mp ms), if_pos so]
/-- an SO load of the host's or a peer's memory gives what stands there (R121) -/
theorem loadSector_so_foreign (g : Good s.mem) (foreign : isHbm (x.pa / 64) = false) (ms : x.ms = false) (so : x.so = true) :
    (loadSector s k ctx x).1 = hbmRead s.mem (x.pa / 64) := by
  rw [loadSector_so ctx ms so, serveHome_foreign_mem ctx foreign, view_of_absent (mfind_mdel_self g.2 _)]
  rfl
/-- an access that its page sends home, or that L1 serves, shows nowhere -/
theorem unseen_loadSector (held : readsAsHeld s.mem x)
    (direct : x.ms = true ∨ x.so = true ∨ ∃ y, mfind (Machine.core s k).l1 (x.pa / 64) = some y) :
    Unseen k s (loadSector s k ctx x).2 := by
  by_cases ms : x.ms = true
  · rw [loadSector_ms ctx ms]
    exact unseen_readBase ..
  replace ms := Bool.eq_false_iff.mpr ms
  by_cases so : x.so = true
  · rw [loadSector_so ctx ms so]
    exact unseen_serveHome k ctx (held ms so)
  · obtain ⟨y, f⟩ := (direct.resolve_left (by simp [ms])).resolve_left so
    simp only [loadSector, ms, so, f, Bool.false_eq_true, if_false]
    refine ⟨fun q => rfl, fun q => ?_⟩
    rw [l1Data, l1Data, core_setCore_self]
    by_cases e : q = x.pa / 64
    · rw [e, mfind_mset_self, f, Option.map_some, Option.map_some]
    · rw [mfind_mset_ne _ _ e]
end

/-- the state in which a sector that L1 lacks is fetched: its home reached behind earlier stores (R112), and a way free for its line -/
theorem givesUp_before_fetch (s : State) (k : Nat) (x : Xlat) : GivesUp k (fun q => l1SetOf (q / 4) ≠ l1SetOf (x.pa / 64 / 4)) s
    (wayFor (orderHome s k x) k (x.pa / 64)) := (givesUp_orderHome ..).trans (givesUp_wayFor ..)

section
variable {s : State} {k : Nat} (ctx : BitVec 12) {x : Xlat} (ms : x.ms = false) (so : x.so = false)
  (absent : mfind (Machine.core s k).l1 (x.pa / 64) = none)
include ms so absent
theorem view_load_of_miss (q : Nat) :
    homeView (loadSector s k ctx x).2.mem q = homeView (wayFor (orderHome s k x) k (x.pa / 64)).mem q := by
  simp only [loadSector, ms, so, absent, Bool.false_eq_true, if_false, setCore_mem, homeView_readHome]
/-- the sector fetched reads in L1 as at its home -/
theorem l1Data_load_of_miss : l1Data (loadSector s k ctx x).2 k (x.pa / 64) = some (homeView s.mem (x.pa / 64)).data := by
  have fetched := ((givesUp_before_fetch s k x).home _ (l1Data_none.mpr absent)).view
  rw [← fetched]
  simp only [loadSector, ms, so, absent, Bool.false_eq_true, if_false, l1Data, core_setCore_self, mfind_mset_self, Option.map_some, l1Fill]
theorem l1Data_load_of_miss_ne {q : Nat} (e : q ≠ x.pa / 64) :
    l1Data (loadSector s k ctx x).2 k q = l1Data (wayFor (orderHome s k x) k (x.pa / 64)) k q := by
  simp only [loadSector, ms, so, absent, Bool.false_eq_true, if_false, l1Data, core_setCore_self, mfind_mset_ne _ _ e,
    core_congr (readHome_cores ..)]
/-- what the write-backs before the fetch leave, the load leaves -/
theorem coreByte_load_of_miss {stays : Nat → Prop} (g : GivesUp k stays s (wayFor (orderHome s k x) k (x.pa / 64))) {a : Nat}
    (h : a / 64 ≠ x.pa / 64 → stays (a / 64)) : coreByte (loadSector s k ctx x).2 k a = coreByte s k a := by
  by_cases e : a / 64 = x.pa / 64
  · rw [coreByte_of_l1 (e ▸ l1Data_load_of_miss ctx ms so absent), coreByte_of_absent (e ▸ l1Data_none.mpr absent), homeByte_eq, e]
  · rw [← coreByte_of_givesUp g (h e)]
    refine coreByte_congr (l1Data_load_of_miss_ne ctx ms so absent e) fun _ => ?_
    rw [homeByte_eq, homeByte_eq, view_load_of_miss ctx ms so absent]
end

section
variable {s : State} {k : Nat} (ctx : BitVec 12) {x : Xlat}
/-- a load is served without a trace, or fetches its sector into L1 -/
theorem direct_or_miss (s : State) (k : Nat) (x : Xlat) :
    (x.ms = true ∨ x.so = true ∨ ∃ y, mfind (Machine.core s k).l1 (x.pa / 64) = some y) ∨
      (x.ms = false ∧ x.so = false ∧ mfind (Machine.core s k).l1 (x.pa / 64) = none) := by
  cases x.ms <;> cases x.so <;> cases mfind (Machine.core s k).l1 (x.pa / 64) <;> simp
variable (held : readsAsHeld s.mem x)
include held
/-- of a sector that L1 does not hold, no byte changes at its home or for the core -/
theorem load_keeps_absent {a : Nat} (absent : mfind (Machine.core s k).l1 (a / 64) = none) :
    homeByte (loadSector s k ctx x).2.mem a = homeByte s.mem a ∧ coreByte (loadSector s k ctx x).2 k a = coreByte s k a := by
  obtain direct | ⟨ms, so, missing⟩ := direct_or_miss s k x
  · have u := unseen_loadSector ctx held direct
    exact ⟨u.homeByte a, u.coreByte a⟩
  · have g := (givesUp_before_fetch s k x).absent_stays
    refine ⟨?_, coreByte_load_of_miss ctx ms so missing g fun _ => l1Data_none.mpr absent⟩
    rw [homeByte_eq, view_load_of_miss ctx ms so missing, ← homeByte_eq]
    exact (g.home _ (l1Data_none.mpr absent)).homeByte
/-- of a sector whose line no eviction can take, the core sees what it saw -/
theorem load_keeps_coreByte {a : Nat} (stays : noEviction s k x ∨ l1SetOf (a / 256) ≠ l1SetOf (x.pa / 256)) :
    coreByte (loadSector s k ctx x).2 k a = coreByte s k a := by
  obtain direct | ⟨ms, so, missing⟩ := direct_or_miss s k x
  · exact (unseen_loadSector ctx held direct).coreByte a
  · obtain none_leaves | other := stays
    · have room : wayFor (orderHome s k x) k (x.pa / 64) = orderHome s k x := by simpa [noEviction, ms, so, missing] using none_leaves
      have g : GivesUp k (fun _ => True) s (wayFor (orderHome s k x) k (x.pa / 64)) := by
        rw [room]
        exact givesUp_orderHome ..
      exact coreByte_load_of_miss ctx ms so missing g fun _ => trivial
    · refine coreByte_load_of_miss ctx ms so missing (givesUp_before_fetch s k x) fun _ => ?_
      rwa [Nat.div_div_eq_div_mul, Nat.div_div_eq_div_mul]
end

/-! ### Stores into L1 -/

section
variable {s : State} {k : Nat} {ctx : BitVec 12} {x : Xlat} (o : SecStore) (ms : x.ms = false) (so : x.so = false)
include ms so
/-- a sector loaded under RC or UN stands in L1 -/
theorem loadSector_in_l1 : ∃ y, mfind (Machine.core (loadSector s k ctx x).2 k).l1 (x.pa / 64) = some y := by
  simp only [loadSector, ms, so, Bool.false_eq_true, if_false]
  split <;> exact ⟨_, by rw [core_setCore_self, mfind_mset_self]⟩
/-- a store into L1 writes its bytes into the sector loaded, and no home -/
theorem storeSector_l1 : (storeSector s k ctx x o).mem = (loadSector s k ctx x).2.mem ∧
    (∃ d, l1Data (loadSector s k ctx x).2 k (x.pa / 64) = some d ∧
      l1Data (storeSector s k ctx x o) k (x.pa / 64) = some (withBytes d x.pa o.n o.v)) ∧
    ∀ q, q ≠ x.pa / 64 → l1Data (storeSector s k ctx x o) k q = l1Data (loadSector s k ctx x).2 k q := by
  obtain ⟨y, f⟩ := loadSector_in_l1 (s := s) (k := k) (ctx := ctx) ms so
  simp only [storeSector, ms, so, f, Bool.or_self, Bool.false_eq_true, if_false, l1Data, core_setCore_self, mfind_mset_self,
    Option.map_some]
  exact ⟨rfl, ⟨y.data, rfl, rfl⟩, fun q e => by rw [mfind_mset_ne _ _ e]⟩
theorem coreByte_store_inside (fits : x.pa % 64 + o.n ≤ 64) {i : Nat} (h : i < o.n) :
    coreByte (storeSector s k ctx x o) k (x.pa + i) = BitVec.ofNat 8 (o.v / 256 ^ i) := by
  obtain ⟨-, ⟨d, -, stored⟩, -⟩ := storeSector_l1 (s := s) (k := k) (ctx := ctx) o ms so
  have sec : (x.pa + i) / 64 = x.pa / 64 := by omega
  rw [coreByte_of_l1 (sec ▸ stored), byteOf_withBytes_inside fits d o.v h]
theorem coreByte_store_outside {a : Nat} (h : ¬(x.pa ≤ a ∧ a < x.pa + o.n)) :
    coreByte (storeSector s k ctx x o) k a = coreByte (loadSector s k ctx x).2 k a := by
  obtain ⟨mem, ⟨d, loaded, stored⟩, others⟩ := storeSector_l1 (s := s) (k := k) (ctx := ctx) o ms so
  by_cases e : a / 64 = x.pa / 64
  · rw [coreByte_of_l1 (e ▸ stored), coreByte_of_l1 (e ▸ loaded), byteOf_withBytes_outside d o.v e h]
  · exact coreByte_congr (others _ e) fun _ => by rw [mem]
end

/-! ### Stores performed at the home (R102, R104, R105) -/

/-- the snoop filter is not memory's -/
theorem kept_withHostCopies {m m' : Mem} {q : Nat} (c : List Nat) (h : Kept m m' q) : Kept m { m' with hostCopies := c } q := ⟨h.l2, h.held⟩
theorem kept_baseMergeW (m : Mem) {sec q : Nat} (d : BitVec 512) (k : BitVec 64) (a b : BitVec 2) (w : Bool) (h : q ≠ sec) :
    Kept m (baseMergeW m sec d k a b w) q := by
  refine ((kept_l2Evict m h).trans (kept_filled _ w sec q)).trans ?_
  simp only [baseMergeW]
  exact kept_withHostCopies _ (kept_hbmWrite _ _ h)
theorem view_baseMergeW {m : Mem} (g : Good m) (sec : Nat) (d : BitVec 512) (k : BitVec 64) (a b : BitVec 2) (w : Bool) :
    (homeView (baseMergeW m sec d k a b w) sec).data = mergeBytes (hbmRead (l2Evict m sec) sec).data d k := by
  have filled := kept_filled (l2Evict m sec) w sec sec
  have good := good_filled sec w (good_l2Evict sec g)
  simp only [baseMergeW]
  rw [← filled.held]
  generalize (if w then l2Evict m sec else noteFill (l2Evict m sec) sec) = n at filled good
  have absent : mfind (hbmWrite n sec (mergeSector (hbmRead n sec) d k a b w)).l2 sec = none := by
    rw [hbmWrite_l2, filled.l2, l2Evict_absent g]
  exact (kept_withHostCopies _ (.refl _ sec)).view.trans (by rw [view_of_absent absent, hbmRead_hbmWrite_self good]; rfl)

/-- what a store performed at once stores over: what the base die holds then, or what stands at the home -/
def storeBase (m : Mem) (x : Xlat) : BitVec 512 :=
  if x.ms then (hbmRead (l2Evict m (x.pa / 64)) (x.pa / 64)).data else (homeBase m (x.pa / 64)).data
/-- that is what reads there, when L2's copy is to be written back or agrees -/
theorem storeBase_eq {m : Mem} (g : Good m) {x : Xlat} (dirty : x.ms = true → ∀ y, mfind m.l2 (x.pa / 64) = some y → y.dirty = true)
    (agrees : copyAgrees m (x.pa / 64)) : storeBase m x = (homeView m (x.pa / 64)).data := by
  unfold storeBase
  split
  · next ms => exact held_l2Evict g (dirty ms)
  · unfold homeBase
    split
    · rfl
    · next foreign =>
      cases f : mfind m.l2 (x.pa / 64) with
      | none => rw [view_of_absent f]
      | some y => rw [homeView, f, Option.getD_some, agrees.resolve_left foreign y f]

section
variable (s : State) (k : Nat) (ctx : BitVec 12) (x : Xlat) (o : SecStore)
theorem kept_storeThrough {q : Nat} (h : q ≠ x.pa / 64) : Kept s.mem (storeThrough s k ctx x o).mem q := by
  have marked : Kept s.mem (keepStreamed x o s.mem) q := ⟨rfl, rfl⟩
  refine marked.trans ?_
  simp only [storeThrough]
  split
  · exact kept_baseMergeW _ _ _ _ _ _ h
  · rw [performAt_mem, chargeWrite_mem]
    exact kept_homeMergeW _ _ _ _ _ _ h
variable {s} (g : Good s.mem)
include g
theorem view_storeThrough :
    (homeView (storeThrough s k ctx x o).mem (x.pa / 64)).data = withBytes (storeBase (keepStreamed x o s.mem) x) x.pa o.n o.v := by
  have good := good_keepStreamed x o g
  simp only [storeThrough, storeBase]
  split
  · exact view_baseMergeW good ..
  · rw [performAt_mem, chargeWrite_mem]
    exact view_homeMergeW good ..
theorem homeByte_storeThrough_inside (fits : x.pa % 64 + o.n ≤ 64) {i : Nat} (h : i < o.n) :
    homeByte (storeThrough s k ctx x o).mem (x.pa + i) = BitVec.ofNat 8 (o.v / 256 ^ i) := by
  rw [homeByte_eq, show (x.pa + i) / 64 = x.pa / 64 by omega, view_storeThrough k ctx x o g, byteOf_withBytes_inside fits _ _ h]
theorem homeByte_storeThrough_outside (dirty : x.ms = true → ∀ y, mfind s.mem.l2 (x.pa / 64) = some y → y.dirty = true)
    (agrees : copyAgrees s.mem (x.pa / 64)) {a : Nat} (h : ¬(x.pa ≤ a ∧ a < x.pa + o.n)) :
    homeByte (storeThrough s k ctx x o).mem a = homeByte s.mem a := by
  by_cases e : a / 64 = x.pa / 64
  · have base := storeBase_eq (good_keepStreamed x o g) dirty agrees
    rw [homeByte_eq, homeByte_eq, e, view_storeThrough k ctx x o g, byteOf_withBytes_outside _ _ e h, base]
    rfl
  · exact (kept_storeThrough s k ctx x o e).homeByte
end

/-- a store that its page sends home is performed at once -/
theorem storeSector_through {x : Xlat} (h : x.ms = true ∨ x.so = true) (s : State) (k : Nat) (ctx : BitVec 12) (o : SecStore) :
    storeSector s k ctx x o = storeThrough s k ctx x o := by
  rw [storeSector, if_pos (by simpa using h)]
/-- a write of the core at a home is behind its earlier stores there: they reach no sector that L1 does not hold -/
theorem homeByte_mergeHome_outside {s : State} {k : Nat} {ctx : BitVec 12} {x : Xlat} {n v a : Nat} (g : Good s.mem)
    (dirty : x.ms = true → ∀ y, mfind s.mem.l2 (x.pa / 64) = some y → y.dirty = true) (agrees : copyAgrees s.mem (x.pa / 64))
    (h : ¬(x.pa ≤ a ∧ a < x.pa + n)) (absent : mfind (Machine.core s k).l1 (a / 64) = none) :
    homeByte (mergeHome s k ctx x n v).mem a = homeByte s.mem a := by
  have before : Kept s.mem (orderHome s k x).mem (a / 64) := (givesUp_orderHome s k x fun _ => True).home _ (l1Data_none.mpr absent)
  rw [← before.homeByte]
  by_cases e : a / 64 = x.pa / 64
  · rw [e] at before
    exact homeByte_storeThrough_outside k ctx x _ (good_orderHome k x g) (fun ms y f => dirty ms y (before.l2 ▸ f))
      (before.copyAgrees agrees) h
  · exact (kept_storeThrough _ k ctx x _ e).homeByte
/-- the core's own copy takes the bytes of its write at the home -/
theorem l1Data_ownCopy (s : State) (k : Nat) (x : Xlat) (n v : Nat) :
    l1Data (ownCopy s k x n v) k (x.pa / 64) = (l1Data s k (x.pa / 64)).map (withBytes · x.pa n v) := by
  cases f : mfind (Machine.core s k).l1 (x.pa / 64) with
  | some y =>
    simp only [ownCopy, f, l1Data, core_setCore_self, mfind_mset_self, Option.map_some]
    rfl
  | none => simp only [ownCopy, f, l1Data, Option.map_none]
theorem ownCopy_mem (s : State) (k : Nat) (x : Xlat) (n v : Nat) : (ownCopy s k x n v).mem = s.mem := by
  simp only [ownCopy]
  split <;> rfl
theorem coreByte_ownCopy_inside {s : State} {k : Nat} {x : Xlat} {n v i : Nat} (fits : x.pa % 64 + n ≤ 64) (h : i < n)
    (home : homeByte s.mem (x.pa + i) = BitVec.ofNat 8 (v / 256 ^ i)) :
    coreByte (ownCopy s k x n v) k (x.pa + i) = BitVec.ofNat 8 (v / 256 ^ i) := by
  have own := l1Data_ownCopy s k x n v
  have sec : (x.pa + i) / 64 = x.pa / 64 := by omega
  cases f : l1Data s k (x.pa / 64) with
  | some d =>
    rw [f, Option.map_some, ← sec] at own
    rw [coreByte_of_l1 own, byteOf_withBytes_inside fits _ _ h]
  | none =>
    rw [f, Option.map_none, ← sec] at own
    rw [coreByte_of_absent own, ownCopy_mem, home]

/-- Settles O26: a load by what its core gives up for it, a store by the sector it merges its bytes into. -/
theorem storedBytes : Obligations.StoredBytes := by
  unfold Obligations.StoredBytes
  intro s k ctx x n v tag strm fits g _
  refine ⟨fun foreign ms so => loadSector_so_foreign ctx g foreign ms so, fun held a absent => load_keeps_absent ctx held absent,
    fun held direct a => (unseen_loadSector ctx held direct).homeByte a, fun held a stays => load_keeps_coreByte ctx held stays,
    ?inL1, ?performed⟩
  case inL1 =>
    intro ms so
    exact ⟨fun i h => coreByte_store_inside _ ms so fits h, fun a h => coreByte_store_outside _ ms so h,
      fun a => by rw [(storeSector_l1 _ ms so).1]⟩
  case performed =>
    intro dirty agrees
    refine ⟨fun home => ?atOnce, fun i h => ?behind, fun a h absent => homeByte_mergeHome_outside g dirty agrees h absent⟩
    case atOnce =>
      rw [storeSector_through home]
      exact ⟨fun i h => homeByte_storeThrough_inside k ctx x _ g fits h,
        fun a h => homeByte_storeThrough_outside k ctx x _ g dirty agrees h⟩
    case behind =>
      have stored := homeByte_storeThrough_inside k ctx x ⟨n, v, false, false⟩ (good_orderHome k x g) fits h
      exact ⟨stored, coreByte_ownCopy_inside fits h stored⟩
end Sys2Proof.Proofs.StoredBytes

/-! ## Atomics and reduction words (R42, R102, R105, R106, R112, R115, R125-R131) -/
namespace Sys2Proof.Proofs.Atomics
open Sys2Proof.Machine Sys2Proof.Claims Sys2Proof.Laws.State Sys2Proof.Laws.Ops Sys2Proof.Proofs.Device Sys2Proof.Proofs.WriteBacks
  Sys2Proof.Proofs.Fences

/-! ### What every access to memory begins with (R42, R84, R290, R402) -/

section
variable {w : Who} {s s1 : State} {cap : CReg} {off : BitVec 16} {kinds : List Nat} {p : BitVec 7} {z : Nat}
/-- a step that is left out unless `c` holds -/
theorem aMod_when {β : Type} (c : Bool) (f : State → State) (g : Unit → AM β) (s : State) :
    (if c = true then aMod f >>= g else g ()) s = g () (if c = true then f s else s) := by
  cases c <;> rfl
theorem aFeature_of_on {n : Nat} (on : s.host.on1.getLsbD n = true) : aFeature n s = .ok ((), s) := by
  rw [aFeature, aState_bind, aUnless_of_true on]
theorem aXlat_of_hit {va : Nat} {need : Need} {x : Xlat} (hit : Machine.translate s w.k w.ctx va need = .hit x s1) :
    aXlat w va need s = .ok (x, s1) := by
  rw [aXlat, hit]
theorem aLift_state {α : Type} {r : Except Stop α} {a : α} (h : aLift r s = .ok (a, s1)) : s1 = s := by
  cases r with
  | ok b => exact (Prod.mk.inj (Except.ok.inj h)).2.symm
  | error e => cases e <;> cases h
theorem aAddr_of_checked (checked : checkCap cap kinds p (memAddr cap off) z = .ok ()) (aligned : (memAddr cap off).toNat % z = 0) :
    aAddr cap off kinds p z s = .ok ((memAddr cap off).toNat, s) := by
  rw [aAddr, aBind_of_ok (aLift_of_ok checked s), aBind_of_ok (aUnless_of_true (beq_iff_eq.mpr aligned) _ s)]
  rfl
end

/-! ### Atomics (R115, R125-R127) -/

/-- the order of signed numbers that the claims and the model compare by is one -/
theorem signed_eq_toS {w a : Nat} (h : a < 2 ^ w) : signed w a = toS w a := by
  rw [signed, BitVec.toInt_eq_toNat_cond, BitVec.toNat_ofNat, Nat.mod_eq_of_lt h, toS]
  cases w with
  | zero =>
    obtain rfl : a = 0 := by omega
    rfl
  | succ w =>
    have half : 2 * a < 2 ^ (w + 1) ↔ a < 2 ^ (w + 1 - 1) := by rw [Nat.pow_succ, Nat.add_sub_cancel]; omega
    simp [half]
theorem mod_bytes_lt (a z : Nat) : a % 256 ^ z < 256 ^ z := Nat.mod_lt _ (Nat.pow_pos (by decide))
theorem secBytes_lt (d : BitVec 512) (i z : Nat) : secBytes d i z < 256 ^ z := mod_bytes_lt ..

section
variable {w : Who} {va n : Nat} {f : Nat → Nat} {acq rel : Bool} {scope : BitVec 3} {s s1 : State} {x : Xlat}
theorem aAtomicPage_of_hit (hit : Machine.translate s w.k w.ctx va .atomic = .hit x s) (rd : x.rd = false)
    (free : accessHeld s w x true = false) : aAtomicPage w va n f s = .ok (x, s) := by
  obtain ⟨budget, port⟩ : byteHeld s w.ctx x true = false ∧ portWaits s x = false := by simpa [accessHeld] using free
  have usable : (!x.rd) = true := by rw [rd]; rfl
  rw [aAtomicPage, aBind_of_ok (aXlat_of_hit hit), aBind_of_ok (aUnless_of_true usable _ s), aState_bind, if_neg (by simp [budget]),
    if_neg (by simp [port])]
  rfl
/-- R115, R105, R106: the old value is read where the core's line has gone back and the acquired releases are seen, and the new one is
written behind the release -/
theorem aAtomic_of_page (page : aAtomicPage w va n f s = .ok (x, s))
    (free : orderWaits s w (x.pa / 64) (acq && !x.un) (rel && !x.un) scope = false)
    (read : s1 = beforeRead s w.k w.ctx (acq && !x.un) x) (clean : (atHome s1 x).poison = false) :
    aAtomic w va n acq rel scope f s = .ok (secBytes (atHome s1 x).data (x.pa % 64) n,
      afterWrite s1 w.k w.ctx (acq && !x.un) (rel && !x.un) scope x n (f (secBytes (atHome s1 x).data (x.pa % 64) n))) := by
  have sound : (!(atHome s1 x).poison) = true := by rw [clean]; rfl
  simp only [beforeRead] at read
  rw [aAtomic, aBind_of_ok page, aState_bind, if_neg (Bool.eq_false_iff.mp free)]
  simp only [aMod_bind, aMod_when, ← read]
  rw [aState_bind, aBind_of_ok (aUnless_of_true sound _ s1)]
  simp only [aMod_bind, aMod_when]
  rfl
end
/-- the new value from the old one, the operands at the atomic's width; what D takes of the old one is sign-extended with `sgn` -/
theorem atomAM_of_reaches {g : Nat → Nat → Nat → Nat → Nat} {sgn : Bool} {o : AtomOps} {t : Thread} {s s1 : State} {va : W64} {x : Xlat}
    {z old : Nat} {acq rel : Bool} (on : s.host.on1.getLsbD 10 = true) (width : z = wordBytes o)
    (reach : reaches s t (getC t o.a) o.off [0] (permR ||| permW) z .atomic true va x)
    (acquires : acq = (o.order.getLsbD 0 && !x.un)) (releases : rel = (o.order.getLsbD 1 && !x.un))
    (free : orderWaits s (whoOf s.cur.core t) (x.pa / 64) acq rel o.scope = false)
    (read : s1 = beforeRead s s.cur.core t.id.ctx acq x) (clean : (atHome s1 x).poison = false)
    (held : old = secBytes (atHome s1 x).data (x.pa % 64) z) :
    atomAM g sgn o (whoOf s.cur.core t) t s = .ok (setData t o.d (if sgn then BitVec.ofInt 64 (toS (8 * z) old) else BitVec.ofNat 64 old),
      afterWrite s1 s.cur.core t.id.ctx acq rel o.scope x z
        (g (8 * z) old ((readCI t o.b).toNat % 256 ^ z) ((readCI t o.c).toNat % 256 ^ z) % 256 ^ z)) := by
  obtain ⟨(place : va = memAddr (getC t o.a) o.off), checked, aligned, -, hit, rd, -, admitted⟩ := reach
  subst place width acquires releases held
  rw [atomAM, aBind_of_ok (aFeature_of_on on), aBind_of_ok (aAddr_of_checked checked aligned),
    aBind_of_ok (aAtomic_of_page (aAtomicPage_of_hit hit rd admitted) free read clean)]
  rfl
/-- R125: an atomic of the claims is `atomAM` with an operation that agrees with the claims' on numbers of its width -/
theorem exec_atomic {p : (Hdr → AtomOps → Instr) × Bool × (Nat → Nat → Nat → Nat → Nat)} (m : p ∈ atomics) :
    ∃ g, (∀ n a b c, a < 2 ^ n → b < 2 ^ n → g n a b c = p.2.2 n a b c) ∧
      ∀ h o s, exec (p.1 h o) s = runM h (atomAM g p.2.1 o) s := by
  revert p
  simp only [atomics, List.forall_mem_cons, List.not_mem_nil, false_implies, implies_true, and_true]
  refine ⟨?_, ?_, ?_, ?_, ⟨_, ?min, fun _ _ _ => rfl⟩, ⟨_, ?max, fun _ _ _ => rfl⟩, ?_, ?_, ?_, ?_, ?_⟩
  case min => exact fun n a b _ la lb => by rw [signed_eq_toS la, signed_eq_toS lb]
  case max => exact fun n a b _ la lb => by rw [signed_eq_toS la, signed_eq_toS lb]
  all_goals exact ⟨_, fun _ _ _ _ _ _ => rfl, fun _ _ _ => rfl⟩
/-- a number of `z` bytes is one of `8 * z` bits -/
theorem lt_two_pow_of_bytes {a z : Nat} (h : a < 256 ^ z) : a < 2 ^ (8 * z) := by rwa [Nat.pow_mul]
theorem atomics_hold : Claims.Atomics := by
  intro p m h o s t va x z acq rel s1 old r on width reach acquires releases free read clean held
  obtain ⟨g, agrees, run⟩ := exec_atomic m
  have oldFits : old < 256 ^ z := held ▸ secBytes_lt ..
  rw [run, ← agrees _ _ _ _ (lt_two_pow_of_bytes oldFits) (lt_two_pow_of_bytes (mod_bytes_lt ..)), signed_eq_toS (lt_two_pow_of_bytes oldFits)]
  exact runM_of_ok r (atomAM_of_reaches on width reach acquires releases free read clean held)

/-! ### Reduction words (R128-R131) -/

section
variable {o : RedOps} {w : Who} {t : Thread} {s s1 : State} {x : Xlat}
theorem raddAM_of_word (on : s.host.on1.getLsbD 11 = true) (slot : w.k < 1024) (word : aRedWord w o t (4 * w.k) 4 s = .ok (x, s1)) :
    raddAM o w t s = .ok (t, mergeHome s1 w.k w.ctx { x with pa := x.pa + 4 * w.k } 4
      (sum32 (slotValue s1.mem x.pa w.k) ((readCI t o.b).toNat % 2 ^ 32))) := by
  rw [raddAM, aBind_of_ok (aFeature_of_on on), aBind_of_ok (aUnless_of_true (decide_eq_true slot) _ s), aBind_of_ok word]
  rfl
/-- R130: the sectors of a word cleared, from its base on -/
def clearWord (k : Nat) (ctx : BitVec 12) (base : Nat) (s : State) : State :=
  (List.range 64).foldl (fun s i =>
    performAt (chargeWrite s ctx (base / 64 + i)) (some k) ctx (base / 64 + i) 0 (BitVec.allOnes 64) 0 3 true) s
theorem rclrAM_of_word (on : s.host.on1.getLsbD 11 = true) (word : aRedWord w o t 0 4096 s = .ok (x, s1)) :
    rclrAM o w t s = .ok (t, clearWord w.k w.ctx x.pa (orderHome s1 w.k x)) := by
  rw [rclrAM, aBind_of_ok (aFeature_of_on on), aBind_of_ok word]
  rfl
/-- finding the word leaves the step under way -/
theorem aRedWord_cur {off n : Nat} (word : aRedWord w o t off n s = .ok (x, s1)) : s1.cur = s.cur := by
  rw [aRedWord] at word
  obtain ⟨_, s2, checked, word⟩ := aBind_ok word
  obtain ⟨_, s3, aligned, word⟩ := aBind_ok word
  obtain ⟨_, s4, page, word⟩ := aBind_ok word
  obtain ⟨_, s5, usable, word⟩ := aBind_ok word
  have here : s1 = s5 := by
    rw [aState_bind] at word
    split at word
    · cases word
    · exact (Prod.mk.inj (Except.ok.inj word)).2.symm
  rw [here, aUnless_state usable, aXlat_cur page, aUnless_state aligned, aLift_state checked]
@[simp] theorem orderHome_cur (s : State) (k : Nat) (x : Xlat) : (orderHome s k x).cur = s.cur := by
  simp only [orderHome, drainHome]
  split
  · rfl
  · exact writeAll_cur ..
/-- the core that clears is the one that the step runs on, which no sector changes -/
theorem foldl_clearWord {k : Nat} (ctx : BitVec 12) (base : Nat) (core : s.cur.core = k) : (List.range 64).foldl (fun s i =>
    performAt (chargeWrite s ctx (base / 64 + i)) (some s.cur.core) ctx (base / 64 + i) 0 (BitVec.allOnes 64) 0 3 true) s =
      clearWord k ctx base s :=
  foldl_congr_along (fun s => s.cur.core = k) (fun s i c => ⟨by rw [c], by rw [performAt_cur, chargeWrite_cur, c]⟩) _ core
end
theorem refuse_eq_ok {c : Prop} [Decidable c] {e : Stop} {k : Except Stop Unit} :
    (if c then .error e else k) = .ok () ↔ ¬c ∧ k = .ok () := by
  by_cases h : c
  · rw [if_pos h]
    exact ⟨nofun, fun r => absurd h r.1⟩
  · rw [if_neg h]
    exact ⟨fun r => ⟨h, r⟩, fun r => r.2⟩
theorem admit_eq_ok {c : Prop} [Decidable c] {e : Stop} : (if c then .ok () else .error e : Except Stop Unit) = .ok () ↔ c := by
  by_cases h : c
  · rw [if_pos h]
    exact ⟨fun _ => h, fun _ => rfl⟩
  · rw [if_neg h]
    exact ⟨nofun, fun r => absurd r h⟩
/-- R290: the five checks, all at once -/
theorem checkCap_iff {r : CReg} {ks : List Nat} {p : BitVec 7} {a : W64} {n : Nat} : checkCap r ks p a n = .ok () ↔
    r.tag = true ∧ capKind r.bits ∈ ks ∧ capSeal r.bits = 0 ∧ hasPerm r.bits p = true ∧
      capBase r.bits ≤ a.toNat ∧ a.toNat + n ≤ capLimit r.bits := by
  simp only [checkCap, refuse_eq_ok, admit_eq_ok, Bool.not_eq_true', Bool.not_eq_false, List.contains_iff_mem, bne_iff_ne, ne_eq,
    Decidable.not_not]

section
variable {o : MemOps} {w : Who} {t u : Thread} {s s1 : State} {x : Xlat}
/-- R131: the bounds check of a sum covers the word, as that of the load alone does not -/
theorem aWord_of_base {va : W64} (on : s.host.on1.getLsbD 11 = true) (size : o.size = 2) (unsigned : o.sx = false) (base : va.toNat % 4096 = 0)
    (checked : checkCap (getC t o.a) [0] permR va 4096 = .ok ()) (clean : wordPoison (wordFill w x.pa s).mem x.pa = false) :
    aWord w (getC t o.a) o va.toNat x s = .ok (wordSum (wordFill w x.pa s).mem x.pa 1024, wordFill w x.pa s) := by
  have form : (o.size == 2 && !o.sx && va.toNat % 4096 == 0) = true := by simp [size, unsigned, base]
  have sound : (!wordPoison (wordFill w x.pa s).mem x.pa) = true := by rw [clean]; rfl
  have whole : checkCap (getC t o.a) [0] permR (BitVec.ofNat 64 va.toNat) 4096 = .ok () := by
    rw [BitVec.ofNat_toNat, BitVec.setWidth_eq, checked]
  rw [aWord, aBind_of_ok (aFeature_of_on on), aBind_of_ok (aUnless_of_true form _ s), aBind_of_ok (aLift_of_ok whole s), aMod_bind,
    aState_bind, aBind_of_ok (aUnless_of_true sound _ _), aState_bind]
  rfl
/-- R131: a plain load of 4 bytes from an RD page takes the sum of the word whose base it names -/
theorem ldAM_of_word {va : W64} (place : va = memAddr (getC t o.a) o.off) (size : o.size = 2) (unsigned : o.sx = false)
    (base : va.toNat % 4096 = 0) (on : s.host.on1.getLsbD 11 = true) (checked : checkCap (getC t o.a) [0] permR va 4096 = .ok ())
    (hit : Machine.translate s w.k w.ctx va.toNat .load = .hit x s) (rd : x.rd = true) (free : accessHeld s w x true = false)
    (filled : s1 = wordFill w x.pa s) (clean : wordPoison s1.mem x.pa = false)
    (put : writeOpd t o.d (widen 4 false (wordSum s1.mem x.pa 1024)) = .ok u) : ldAM o w t s = .ok (u, s1) := by
  obtain ⟨tag, kind, unsealed, perm, low, high⟩ := checkCap_iff.mp checked
  have bytes : 2 ^ o.size.toNat = 4 := by rw [size]; rfl
  have slot : checkCap (getC t o.a) [0, 1] permR va 4 = .ok () :=
    checkCap_iff.mpr ⟨tag, List.mem_cons.mpr (.inl (List.mem_singleton.mp kind)), unsealed, perm, low, by omega⟩
  have memory : ¬isScratch (getC t o.a).bits = true := by simp [isScratch, List.mem_singleton.mp kind]
  rw [place] at slot
  rw [filled] at put clean ⊢
  rw [ldAM, bytes, aBind_of_ok (aAddr_of_checked slot (by rw [← place]; omega)), ← place, if_neg memory, aBind_of_ok (aXlat_of_hit hit),
    if_pos rd, aState_bind, if_neg (Bool.eq_false_iff.mp free), aBind_of_ok (aWord_of_base on size unsigned base checked clean), unsigned]
  exact aLift_of_ok put _
end
theorem reductionWords : Claims.ReductionWords := by
  refine ⟨?radd, ?rclr, ?sum⟩
  case radd => exact fun h o s t x s1 r on slot word => runM_of_ok r (raddAM_of_word on slot word)
  case rclr =>
    intro h o s t x s1 r on word
    have core : (orderHome s1 s.cur.core x).cur.core = s.cur.core := by rw [orderHome_cur, aRedWord_cur word]
    rw [foldl_clearWord t.id.ctx x.pa core]
    exact runM_of_ok r (rclrAM_of_word on word)
  case sum =>
    exact fun h o s t va x s1 u r place size unsigned base on checked hit rd free filled clean put =>
      runM_of_ok r (ldAM_of_word place size unsigned base on checked hit rd free filled clean put)

/-- Settles O33: the atomics by the one effect they share, the reduction words each by its own. -/
theorem atomicsAndReductions : Obligations.AtomicsAndReductions := ⟨atomics_hold, reductionWords⟩
end Sys2Proof.Proofs.Atomics

/-! ## A phaser word of the execute half, while the access half sleeps (R134, R138, R478) -/
namespace Sys2Proof.Proofs.Phasers
open Sys2Proof.Machine Sys2Proof.Claims Sys2Proof.Laws.State Sys2Proof.Laws.Ops

/-! ### How an execute word leaves the access half -/

theorem applyDefs_blockA (l : List SliceEntry) (t : Thread) : (applyDefs t l).blockA = t.blockA := by
  induction l generalizing t with
  | nil => rfl
  | cons e l ih =>
    cases e with
    | word pc w => rfl
    | sdef n d => exact ih _
/-- R361: an execute word that retires leaves what the access half waits for -/
theorem retireTo_execute_blockA {h : Hdr} (exe : h.s = false) (pc : W64) (s : State) (t : Thread) :
    (retireTo h pc s t).blockA = t.blockA := by
  rw [retireTo, exe, if_neg Bool.false_ne_true, popSlice, applyDefs_blockA]
/-- what the access half of the current core waits for -/
def waitsFor (s : State) : Option Blocked := (curThread s).map Thread.blockA
theorem waitsFor_setCur (s : State) (t : Thread) : waitsFor (setCur s t) = some t.blockA := by
  simp only [waitsFor, curThread_setCur, Option.map_some]
theorem waitsFor_retireCur {h : Hdr} (exe : h.s = false) (pc : W64) (s : State) : waitsFor (retireCur h pc s) = waitsFor s := by
  cases c : curThread s with
  | none => simp only [retireCur, c]
  | some t => rw [retireCur, c, waitsFor_setCur, retireTo_execute_blockA exe, waitsFor, c, Option.map_some]
theorem waitsFor_doneAt {h : Hdr} (exe : h.s = false) (s : State) (t : Thread) : waitsFor (doneAt h s t) = some t.blockA := by
  rw [doneAt, doneWith, waitsFor_setCur, retireTo_execute_blockA exe, keepPeers]
  split <;> rfl

/-! ### The gather record's write that misses (R88, R138) -/

theorem translateEng_of_unmapped {s : State} {cl va : Nat} {ctx : BitVec 12} {need : Need}
    (unended : (cluster s cl).engEnd.find? (fun m => m.1 == ctx && m.2.1 == pageOf va) = none)
    (unmapped : tlbFind (cluster s cl).tlb ctx va = none) : translateEng s cl ctx va need = .wait (sendMiss s cl none ctx va .engine) := by
  simp only [translateEng, unended, unmapped]
/-- an engine's write of something waits where its first page is missed -/
theorem engWrite_of_unmapped {s : State} {cl va : Nat} {ctx : BitVec 12} {bs : List Byte} (nonempty : bs ≠ [])
    (unended : (cluster s cl).engEnd.find? (fun m => m.1 == ctx && m.2.1 == pageOf va) = none)
    (unmapped : tlbFind (cluster s cl).tlb ctx va = none) :
    engWrite s cl ctx va bs = .error (.wait (sendMiss s cl none ctx va .engine)) := by
  have page : engPage s cl ctx va .store = .error (.wait (sendMiss s cl none ctx va .engine)) := by
    simp only [engPage, translateEng_of_unmapped unended unmapped, engUse]
  rw [engWrite, sectorsIn, engWriteF, if_neg (by simpa using nonempty)]
  simp only [engStorePage, page]
  rfl
/-- an arrival that makes a phaser full stands due while its record's page is missed -/
theorem phArrive_of_unmapped {s : State} {i : PhId} {p : Phaser} {va : W64} (full : phFull p = true) (gathers : p.gather = some va)
    (gathered : p.contributors ≠ 0)
    (unended : (cluster s (phCluster i)).engEnd.find? (fun m => m.1 == p.ctx && m.2.1 == pageOf va.toNat) = none)
    (unmapped : tlbFind (cluster s (phCluster i)).tlb p.ctx va.toNat = none) :
    phArrive s i p = phSet (sendMiss s (phCluster i) none p.ctx va.toNat .engine) i { p with due := true } := by
  have record : gatherBytes p ≠ [] := by simp [gatherBytes]
  rw [phArrive, if_pos full, phAdvance, gathers]
  simp only [gathered, if_false, engWrite_of_unmapped record unended unmapped]
@[simp] theorem waitsFor_phSet (s : State) (i : PhId) (p : Phaser) : waitsFor (phSet s i p) = waitsFor s := by
  rw [phSet]
  split <;> rfl

/-! ### PHDROP by the last member of a phaser that gathers -/

theorem exec_phdrop {h : Hdr} {o : PhOps} {s : State} {t : Thread} {i : PhId} {p : Phaser} (r : Runs h s t)
    (checked : phCheck (getC t o.a) t s = .ok (i, p)) (member : memberOf p t.id ≠ none) :
    exec (.phdrop h o) s = .next (finish h (.done (phArrive s i { p with members := p.members.filter (fun m => !isMember t.id m) }))) := by
  obtain ⟨m, own⟩ := Option.ne_none_iff_exists'.mp member
  change runState h (phRun o (phdropRes o)) s = _
  rw [runState_true r.1 r.2]
  simp only [phRun, phRunB, checked, phdropRes, own]

/-- a header of an execute word; R134 has phaser words on the access half alone, S = 1, which the statement does not ask for -/
def executeHdr : Hdr := ⟨false, false, 0, false, 0, 0⟩
/-- a firmware thread whose access half is in IDLE; c2 names phaser 3 of cluster 0 -/
def sleeper : Thread :=
  { setC (threadReset { ctx := 0, frame := 0, stage := 0, coord := 0, pos := 0, gang := false, firmware := true, batch := 0 } cZero 0 0)
      2 (phaserHandle false 0 3) with blockA := .idle none }
/-- a phaser whose one member is the sleeper; it has gathered, and its record goes to address 0 -/
def gathering : Phaser :=
  { frame := 0, ctx := 0, phase := 0, members := [⟨0, 0, 0, .sig, false, []⟩], pending := 0, gather := some 0, sums := List.replicate 8 0
    contributors := 1, due := false }
/-- the sleeper on the service core of cluster 0, where no TLB maps address 0 -/
def asleep : State :=
  setCluster (setCur { State.reset with cur := atWord 1024 0 0 0 } sleeper) 0 { clusterReset with phasers := [(3, gathering)] }
def dropOps : PhOps := ⟨0, 0, 2, .c 0, 0⟩
theorem runs_asleep : Runs executeHdr asleep sleeper := ⟨by decide, by decide⟩
theorem phCheck_asleep : phCheck (getC sleeper dropOps.a) sleeper asleep = .ok (⟨false, 0, 3⟩, gathering) := rfl
/-- the record's write misses, and the miss wakes the service core (R88, R478) -/
theorem waitsFor_phArrive_asleep : waitsFor (phArrive asleep ⟨false, 0, 3⟩
    { gathering with members := gathering.members.filter (fun m => !isMember sleeper.id m) }) = some .woken := by
  rw [phArrive_of_unmapped (by decide) rfl (by decide) rfl rfl, waitsFor_phSet]
  decide
/-- Refutes O35: the statement speaks of every header, and so of phaser words on the execute half; R134 has them on the access half alone,
and the statement lacks `h.s = true`. A PHDROP with S = 0 on a service core whose access half sleeps in IDLE makes the phase advance, the
record's write misses, and the miss wakes the sleeper (R478), where the statement has its thread stay asleep. An access word would end the
sleep itself as it retires. -/
theorem not_phaserInstructions : ¬ Obligations.PhaserInstructions := by
  unfold Obligations.PhaserInstructions
  rintro ⟨words, -⟩
  obtain ⟨-, drop, -⟩ := words executeHdr dropOps asleep sleeper _ _ runs_asleep phCheck_asleep
  have member : memberOf gathering sleeper.id ≠ none := by decide
  have same := congrArg waitsFor (Host.Outcome.next.inj ((exec_phdrop runs_asleep phCheck_asleep member).symm.trans (drop member)))
  rw [finish, waitsFor_retireCur rfl, waitsFor_phArrive_asleep, waitsFor_doneAt rfl] at same
  exact absurd same (by decide)
end Sys2Proof.Proofs.Phasers

/-! ## Homes of counters, completions of phasers and held records (R133, R136, R145-R153, R168) -/
namespace Sys2Proof.Proofs.CounterEvents
open Sys2Proof.Machine Sys2Proof.Laws.State

/-! ### Counters at their homes (R151) -/

@[simp] theorem ctrOf_setCtr_self (s : State) (n : Nat) (c : Counter) : ctrOf (setCtr s n c) n = c := by
  simp [ctrOf, counterOf, setCtr, setCounter]
@[simp] theorem returns_setCtr (s : State) (n d : Nat) (c : Counter) : (die (setCtr s n c) d).returns = (die s d).returns := by
  by_cases e : d = n / 4096
  · subst e
    simp [setCtr, setCounter]
  · simp [setCtr, setCounter, die_setDie_ne, e]
@[simp] theorem returns_setReturns_self (s : State) (d : Nat) (l : List StockReturn) : (die (setReturns s d l) d).returns = l := by
  simp [setReturns]
/-- what is on its way home is no part of a counter -/
@[simp] theorem ctrOf_setReturns (s : State) (d n : Nat) (l : List StockReturn) : ctrOf (setReturns s d l) n = ctrOf s n := by
  by_cases e : n / 4096 = d
  · subst e
    simp [ctrOf, counterOf, setReturns]
  · simp [ctrOf, counterOf, setReturns, die_setDie_ne, e]

/-! ### The home serves its queue (R151, R152) -/

section
variable {s s1 : State} {n : Nat} {r : StockReq} {q : List StockReq}
/-- the head of a counter's queue leaves it, with the recall before it over, and is served -/
def serveHead (s : State) (n : Nat) (r : StockReq) (q : List StockReq) : State :=
  serveRequest (updCtr s n (fun c => { c with queue := q, recalling := none })) n r
theorem exec_stockHomeServe (named : s.cur.arg = .ix n) : exec .stockHomeServe s = .next (serveCounter s n) := by
  change execStockHomeServe s = _
  simp only [execStockHomeServe, argIx, named]
variable (arrived : s1 = arrive s (n / 4096) (fun r => r.ctr == n)) (head : (ctrOf s1 n).queue = r :: q)
include arrived head
theorem serveCounter_of_idle (idle : (ctrOf s1 n).recalling = none) (home : recallTargets (ctrOf s1 n) r = []) :
    serveCounter s n = serveHead s1 n r q := by
  simp only [serveCounter, ← arrived, head, idle, home]
  rfl
theorem serveCounter_recalls (idle : (ctrOf s1 n).recalling = none) (away : recallTargets (ctrOf s1 n) r ≠ []) :
    serveCounter s n = setCtr s1 n { ctrOf s1 n with recalling := some { waiting := recallTargets (ctrOf s1 n) r } } := by
  simp only [serveCounter, ← arrived, head, idle]
  rw [if_neg (by simpa using away)]
theorem serveCounter_of_recalled {w : Recall} (ordered : (ctrOf s1 n).recalling = some w) (ended : w.waiting = []) :
    serveCounter s n = serveHead s1 n r q := by
  simp only [serveCounter, ← arrived, head, ordered, ended]
  rfl
theorem serveCounter_waits {w : Recall} (ordered : (ctrOf s1 n).recalling = some w) (awaited : w.waiting ≠ []) : serveCounter s n = s1 := by
  simp only [serveCounter, ← arrived, head, ordered]
  rw [if_neg (by simpa using awaited)]
end

/-! ### A return order, a return, a probe (R150, R152, R153) -/

theorem exec_stockRecallOrder {s : State} {n k : Nat} (named : s.cur.arg = .ix2 n k) : exec .stockRecallOrder s = .next (recallCore s n k) := by
  change execStockRecallOrder s = _
  simp only [execStockRecallOrder, named]
/-- R152: what a core sends home at a return order -/
def recalledReturn (s : State) (n k : Nat) : StockReturn :=
  { ctr := n, amount := allowSum n (Machine.core s k), core := k, recalling := true, clears := true, overfill := false }
theorem recallCore_of_waiting {s : State} {n k : Nat} {w : Recall} (ordered : (ctrOf s n).recalling = some w) (awaited : w.waiting.contains k = true)
    (first : (die s (n / 4096)).returns.any (fun r => r.ctr == n && r.core == k && r.recalling) = false) :
    recallCore s n k = postReturn (setCore s k (emptyAllow n (Machine.core s k))) (recalledReturn s n k) := by
  simp only [recallCore, ordered, awaited, first]
  rfl
@[simp] theorem core_postReturn (s : State) (r : StockReturn) (k : Nat) : Machine.core (postReturn s r) k = Machine.core s k := rfl
theorem returns_postReturn (s : State) (r : StockReturn) :
    (die (postReturn s r) (r.ctr / 4096)).returns = (die s (r.ctr / 4096)).returns ++ [r] := by
  rw [postReturn, returns_setReturns_self]
theorem allow_emptyAllow {n : Nat} {c : CoreSt} {e : Allow} (m : e ∈ (emptyAllow n c).allow) (mine : e.ctr = n) : e.a = 0 ∧ e.present = false := by
  obtain ⟨x, -, rfl⟩ := List.mem_map.mp m
  by_cases own : (x.ctr == n) = true
  · rw [if_pos own]
    exact ⟨rfl, rfl⟩
  · rw [if_neg own] at mine
    exact absurd (beq_iff_eq.mpr mine) own
theorem exec_stockReturnArrival {s : State} {d : Nat} {r : StockReturn} {l : List StockReturn} (named : s.cur.arg = .ix d)
    (first : (die s d).returns = r :: l) : exec .stockReturnArrival s = .next (applyReturn (setReturns s d l) r) := by
  change execStockReturnArrival s = _
  simp only [execStockReturnArrival, argIx, named, first]
theorem returns_applyReturn (s : State) (r : StockReturn) (d : Nat) : (die (applyReturn s r) d).returns = (die s d).returns := by
  rw [applyReturn, updCtr, returns_setCtr]
theorem ctrOf_applyReturn (s : State) (r : StockReturn) : (ctrOf (applyReturn s r) r.ctr).h = (ctrOf s r.ctr).h + r.amount ∧
    (ctrOf (applyReturn s r) r.ctr).overfill = ((ctrOf s r.ctr).overfill || r.overfill) := by
  rw [applyReturn, updCtr, ctrOf_setCtr_self]
  exact ⟨rfl, rfl⟩
theorem exec_stockReclaimProbe {s : State} {n : Nat} (named : s.cur.arg = .ix n) (due : probeDue s n = true) : exec .stockReclaimProbe s =
    .next ((ctrOf s n).presence.foldl (probeCore n (ctrOf s n).rf s.time) (setCtr s n { ctrOf s n with lastProbe := s.time })) := by
  change execStockReclaimProbe s = _
  simp only [execStockReclaimProbe, argIx, named]
  rw [if_pos due]

/-! ### Completions at phasers (R133, R136), and held records (R168) -/

@[simp] theorem phGet_setWork (s : State) (w : Work) (i : PhId) : phGet (setWork s w) i = phGet s i := rfl
section
variable {s : State} {h : CReg} {c : Cmd} {r : Record} {l : List (CReg × Cmd × Record)}
theorem completionArrives_of_live {p : Phaser} (live : phGet s (phIdOf h) = some p) (own : p.ctx = c.ctx) (good : r.status = 0) :
    completionArrives s h c r = phArrive s (phIdOf h) { p with pending := wrap48 (p.pending - r.bytes.toNat) } := by
  simp only [completionArrives, live, own, bne_self_eq_false, Bool.false_eq_true, if_false]
  exact if_pos good
theorem completionArrives_of_gone (gone : phGet s (phIdOf h) = none) : completionArrives s h c r =
    deliver s (.event c.ctx c.cluster { rcd := r, scope := keptScope c.acq c.scope, raw := none }) := by
  simp only [completionArrives, gone]
variable (noArg : s.cur.arg = .none) (oldest : s.work.phComps = (h, c, r) :: l)
include noArg oldest
theorem exec_phaserCompletionArrival (free : ∀ p, phGet s (phIdOf h) = some p → p.due = false) :
    exec .phaserCompletionArrival s = .next (completionArrives (setWork s { s.work with phComps := l }) h c r) := by
  change execPhaserCompletionArrival s = _
  simp only [execPhaserCompletionArrival, noArg, oldest]
  cases g : phGet s (phIdOf h) with
  | none => rfl
  | some p => simp only [free p g]; rfl
theorem exec_phaserCompletionArrival_due {p : Phaser} (live : phGet s (phIdOf h) = some p) (due : p.due = true) :
    exec .phaserCompletionArrival s = .next s := by
  change execPhaserCompletionArrival s = _
  simp only [execPhaserCompletionArrival, noArg, oldest, live, due, if_true]
end
theorem exec_phaserCompletionArrival_retry {s : State} {e n : Nat} {p : Phaser} (named : s.cur.arg = .ix2 e n)
    (live : phGet s ⟨decide (64 ≤ e), e % 64, n⟩ = some p) (due : p.due = true) :
    exec .phaserCompletionArrival s = .next (phAdvance s ⟨decide (64 ≤ e), e % 64, n⟩ p) := by
  change execPhaserCompletionArrival s = _
  simp only [execPhaserCompletionArrival, named, retryDue, ge_iff_le, live, due, if_true]
theorem exec_heldRecordDelivery {s s1 : State} {h : HeldTo} {l : List HeldTo} (first : s.work.held = h :: l) (room : tryHeld s h = some s1) :
    exec .heldRecordDelivery s = .next (setWork s1 { s1.work with held := s1.work.held.eraseP (· == h) }) := by
  change execHeldRecordDelivery s = _
  simp [execHeldRecordDelivery, first, deliverHeld, room]

/-- Settles O57: each event by its own equation, under the condition that tells its cases apart. -/
theorem stockAndPhaserEvents : Obligations.StockAndPhaserEvents := by
  unfold Obligations.StockAndPhaserEvents
  refine ⟨?serve, ?order, ?returned, fun s n named due => exec_stockReclaimProbe named due, ?completion, ?retry,
    fun s h l s1 first room => exec_heldRecordDelivery first room⟩
  case serve =>
    rintro s n _ r q s1 named arrived rfl head
    rw [exec_stockHomeServe named]
    exact ⟨fun idle home => congrArg _ (serveCounter_of_idle arrived head idle home),
      fun idle away => congrArg _ (serveCounter_recalls arrived head idle away),
      fun w ordered ended => congrArg _ (serveCounter_of_recalled arrived head ordered ended),
      fun w ordered awaited => congrArg _ (serveCounter_waits arrived head ordered awaited)⟩
  case order =>
    intro s n k w named ordered awaited first mine
    refine ⟨_, exec_stockRecallOrder named, ?_⟩
    rw [recallCore_of_waiting ordered awaited first]
    refine ⟨fun e m own => ?emptied, returns_postReturn _ (recalledReturn s n k)⟩
    rw [core_postReturn, core_setCore_self] at m
    exact allow_emptyAllow m own
  case returned =>
    rintro s d r l named first rfl
    refine ⟨_, exec_stockReturnArrival named first, ?_, ?_⟩
    · rw [returns_applyReturn, returns_setReturns_self]
    · simpa only [ctrOf_setReturns] using ctrOf_applyReturn (setReturns s (r.ctr / 4096) l) r
  case completion =>
    rintro s h c r l _ noArg oldest rfl
    refine ⟨fun p live free own good => ?arrives, fun p live due => exec_phaserCompletionArrival_due noArg oldest live due, fun gone => ?gone⟩
    case arrives =>
      rw [exec_phaserCompletionArrival noArg oldest fun q g => Option.some.inj (live.symm.trans g) ▸ free]
      exact congrArg _ (completionArrives_of_live ((phGet_setWork ..).trans live) own good)
    case gone =>
      rw [exec_phaserCompletionArrival noArg oldest fun q g => (Option.some_ne_none q (g.symm.trans gone)).elim]
      exact congrArg _ (completionArrives_of_gone ((phGet_setWork ..).trans gone))
  case retry =>
    rintro s e n _ p named rfl live due
    exact exec_phaserCompletionArrival_retry named live due
end Sys2Proof.Proofs.CounterEvents

/-! ## The stock instructions, answered at once or by a request to the home (R143-R152) -/
namespace Sys2Proof.Proofs.StockCounters
open Sys2Proof.Machine Sys2Proof.Claims Sys2Proof.Laws.State Sys2Proof.Laws.Ops Sys2Proof.Proofs.CounterEvents

/-! ### How an instruction on the thread and the state ends -/

section
variable {h : Hdr} {s s1 : State} {t u : Thread} {f : Thread → State → Res} (r : Runs h s t)
include r
theorem runState_done (e : f t s = .done (setCur s1 u)) : runState h f s = .next (doneWith h s1 u) := by
  rw [runState_true r.1 r.2, e, finish, retireCur_setCur, setCur_cur, doneWith]
/-- an effect that leaves the thread as it stands -/
theorem runState_done_same (e : f t s = .done s1) (same : curThread s1 = some t) : runState h f s = .next (doneWith h s1 t) := by
  rw [runState_true r.1 r.2, e, finish, retireCur, same, doneWith, retireTo_setCur_self same rfl]
theorem runState_wait (e : f t s = .wait s1) : runState h f s = .next s1 := by
  rw [runState_true r.1 r.2, e, finish]
end

/-! ### A stock instruction that waits for a result (R144) -/

section
variable {a : CReg} {p : BitVec 7} {denied v : W128} {start : Nat → State → StockEnd} {put : W128 → Thread → Thread} {t : Thread}
  {s s1 : State} {n : Nat}
theorem stockRun_answered {id : Nat} (answered : t.blockA = .request id (some v)) :
    stockRun a p denied start put t s = .done (setCur s (put v t)) := by
  simp only [stockRun, answered]
variable (free : t.blockA = .none) (checked : stockHandle a p = .ok n)
include free checked
theorem stockRun_result (e : start n s = .result v s1) : stockRun a p denied start put t s = .done (setCur s1 (put v t)) := by
  simp only [stockRun, free, checked, e]
variable {carried : Nat} {op : StockOp} (e : start n s = .send n carried op s1)
include e
theorem stockRun_sends (own : mayUse s s.cur.core t.id.ctx n = true) : stockRun a p denied start put t s = blockOn t n carried op s1 := by
  simp only [stockRun, free, checked, e, own, if_true]
/-- R144: a counter of another context is not touched -/
theorem stockRun_denied (foreign : mayUse s s.cur.core t.id.ctx n = false) :
    stockRun a p denied start put t s = .done (setCur s (put denied t)) := by
  simp only [stockRun, free, checked, e, foreign, Bool.false_eq_true, if_false]
end

/-! ### A take (R146) -/

theorem takeStart_zero (k : Nat) (ctx : BitVec 12) (isLocal : Bool) (n : Nat) (s : State) :
    takeStart k ctx 0 isLocal n s = .result (boolWord true) s := if_pos rfl
section
variable {k m n : Nat} {ctx : BitVec 12} {isLocal : Bool} {s : State} {e : Allow} (device : k < 1024)
  (entry : allowOf s k ctx n = some e) (small : m < 2 ^ 47)
include device entry small
/-- a device core with an entry for the counter is covered by it, or goes without, or hands it over -/
theorem takeStart_of_entry (wanted : m ≠ 0) : takeStart k ctx m isLocal n s =
    if e.a ≥ m then .result (boolWord true) (putAllow s k { e with a := e.a - m })
    else if isLocal then .result (boolWord false) s
    else .send n e.a (.take m e.a true) (putAllow s k { e with a := 0, pinned := true }) := by
  have core : isAgent k = false := decide_eq_false (Nat.not_le.mpr device)
  simp only [takeStart, wanted, core, entry, ge_iff_le, Nat.not_le.mpr small, Bool.false_eq_true, if_false]
theorem takeStart_covered (wanted : 0 < m) (covered : m ≤ e.a) :
    takeStart k ctx m isLocal n s = .result (boolWord true) (putAllow s k { e with a := e.a - m }) :=
  (takeStart_of_entry device entry small (Nat.ne_of_gt wanted)).trans (if_pos covered)
variable (short : e.a < m)
include short
theorem takeStart_local : takeStart k ctx m true n s = .result (boolWord false) s :=
  (takeStart_of_entry device entry small (Nat.ne_zero_of_lt short)).trans ((if_neg (Nat.not_le.mpr short)).trans (if_pos rfl))
theorem takeStart_home :
    takeStart k ctx m false n s = .send n e.a (.take m e.a true) (putAllow s k { e with a := 0, pinned := true }) :=
  (takeStart_of_entry device entry small (Nat.ne_zero_of_lt short)).trans ((if_neg (Nat.not_le.mpr short)).trans (if_neg Bool.false_ne_true))
end

/-! ### A give leaves the thread as it stands (R149) -/

@[simp] theorem curThread_postReturn (s : State) (r : StockReturn) : curThread (postReturn s r) = curThread s := rfl
@[simp] theorem curThread_putAllow (s : State) (k : Nat) (e : Allow) : curThread (putAllow s k e) = curThread s := by
  change (Machine.core (putAllow s k e) s.cur.core).thread = (Machine.core s s.cur.core).thread
  by_cases own : s.cur.core = k
  · rw [own, putAllow, core_setCore_self]
  · rw [putAllow, core_setCore_ne _ _ own]
theorem curThread_giveTo (s : State) (k : Nat) (ctx : BitVec 12) (n m : Nat) : curThread (giveTo s k ctx n m) = curThread s := by
  rw [giveTo]
  split
  case isTrue nothing => rfl
  case isFalse given =>
    split
    case isTrue overfills => rfl
    case isFalse bounded =>
      split
      case h_1 noEntry => rfl
      case h_2 e entry =>
        split
        case isTrue away => rfl
        case isFalse here =>
          dsimp only
          split
          case isTrue excess => exact (curThread_postReturn ..).trans (curThread_putAllow ..)
          case isFalse kept => exact curThread_putAllow ..

/-! ### A read of the estimate (R150) -/

section
variable {k n : Nat} {ctx : BitVec 12} {s : State}
theorem approxRead_own (own : mayUse s k ctx n = true) (idle : (ctrOf s n).recalling = none) : approxRead k ctx n s =
    .result ((overfillWord (ctrOf (arrive s (n / 4096) (fun r => r.core == k && r.ctr == n)) n)).setWidth 128)
      (arrive s (n / 4096) (fun r => r.core == k && r.ctr == n)) := by
  simp only [approxRead, own, idle, Bool.not_true, Option.isSome_none, Bool.false_eq_true, if_false]
theorem approxRead_foreign (foreign : mayUse s k ctx n = false) : approxRead k ctx n s = .result 0 s := by
  simp only [approxRead, foreign, Bool.not_false, if_true]
end

/-! ### The instructions -/

section
variable (h : Hdr) (o : StkOps) (s : State)
theorem exec_stkinit : exec (.stkinit h o) s = runState h (stkinitRes o) s := rfl
theorem exec_stktake : exec (.stktake h o) s = runState h (stktakeRes o) s := rfl
theorem exec_stkgive : exec (.stkgive h o) s = runState h (stkgiveRes o) s := rfl
theorem exec_stkreadApprox : exec (.stkreadApprox h o) s = runState h (stkreadRes false o) s := rfl
theorem exec_stkreadExact : exec (.stkreadExact h o) s = runState h (stkreadRes true o) s := rfl
end
theorem stkreadRes_estimate {o : StkOps} {t : Thread} {s s1 : State} {n : Nat} {v : W128} (free : t.blockA = .none)
    (checked : stockHandle (getC t o.a) permR = .ok n) (e : approxRead s.cur.core t.id.ctx n s = .result v s1) :
    stkreadRes false o t s = .done (setCur s1 (setData t o.cd (v.setWidth 64))) :=
  stockRun_result (put := fun v t => setData t o.cd (v.setWidth 64)) free checked e
theorem stkgiveRes_of_checked {o : StkOps} {t : Thread} {s : State} {n : Nat} (checked : stockHandle (getC t o.a) permW = .ok n) :
    stkgiveRes o t s = .done (giveTo s s.cur.core t.id.ctx n (readCI t o.b).toNat) := by
  simp only [stkgiveRes, checked]

theorem stockWords : StockWords := by
  refine ⟨?answered, ?covered, ?zero, ?give, ?estimate, ?foreign⟩
  case answered =>
    intro h o s t id v r answered
    rw [exec_stkinit, exec_stktake, exec_stkreadExact]
    exact ⟨runState_done r (stockRun_answered answered), runState_done r (stockRun_answered answered), runState_done r (stockRun_answered answered)⟩
  case covered =>
    intro h o s t n e r free checked device entry wanted small covered
    rw [exec_stktake]
    exact runState_done r (stockRun_result free checked (takeStart_covered device entry small wanted covered))
  case zero =>
    intro h o s t n r free checked zero
    have start : takeStart s.cur.core t.id.ctx (readCI t o.b).toNat o.isLocal n s = .result (boolWord true) s := by
      rw [zero]
      exact takeStart_zero ..
    rw [exec_stktake]
    exact runState_done r (stockRun_result free checked start)
  case give =>
    intro h o s t n r checked
    rw [exec_stkgive]
    exact runState_done_same r (stkgiveRes_of_checked checked) ((curThread_giveTo ..).trans r.1)
  case estimate =>
    rintro h o s t n _ r free checked own idle rfl
    rw [exec_stkreadApprox, runState_done r (stkreadRes_estimate free checked (approxRead_own own idle)), BitVec.setWidth_setWidth_of_le _ (by decide), BitVec.setWidth_eq, overfillWord]
  case foreign =>
    intro h o s t n r free foreign
    rw [exec_stkinit, exec_stkreadExact, exec_stkreadApprox]
    exact ⟨fun checked => runState_done r (stockRun_denied free checked rfl foreign),
      fun checked => ⟨runState_done r (stockRun_denied free checked rfl foreign),
        runState_done r (stkreadRes_estimate free checked (approxRead_foreign foreign))⟩⟩

theorem stockRequests : StockRequests := by
  intro h o s t n r free own request asked
  rw [exec_stkinit, exec_stkreadExact, exec_stktake]
  refine ⟨fun checked => ?init, fun checked => ?exact, fun e checked device entry short small => ⟨fun near => ?near, fun far => ?far⟩⟩
  case init => exact runState_wait r (stockRun_sends free checked rfl own)
  case exact => exact runState_wait r (stockRun_sends free checked rfl own)
  case near =>
    have start : takeStart s.cur.core t.id.ctx (readCI t o.b).toNat o.isLocal n s = .result (boolWord false) s :=
      near ▸ takeStart_local device entry small short
    exact runState_done r (stockRun_result free checked start)
  case far =>
    have start : takeStart s.cur.core t.id.ctx (readCI t o.b).toNat o.isLocal n s = _ := far ▸ takeStart_home device entry small short
    exact runState_wait r (stockRun_sends free checked start own)

/-- Settles O34: the words answered at once by what each leaves, the others by the request they send. -/
theorem stockInstructions : Obligations.StockInstructions := ⟨stockWords, stockRequests⟩
end Sys2Proof.Proofs.StockCounters

/-! ## The Joiner's events (R173, R178, R182-R185, R189-R191, R195-R200) -/
namespace Sys2Proof.Proofs.Joiner
open Sys2Proof.Machine Sys2Proof.Laws.State Sys2Proof.Proofs.Device

/-! ### A slice's choices (R182, R184, R185) -/

section
variable {s : State} {cl : Nat} {c : Cand} {ks : List Nat}
/-- R184: the ready firing that is chosen starts (the order among candidates and what counts against quotas: log 16, 35) -/
theorem fireAt_starts (chosen : pickStart (refreshReady s) cl = some (c, ks)) (fresh : c.saved = none)
    (applied : drainsFirst (refreshReady s) c.ctx c.frame c.stage c.coord = false) :
    fireAt s cl = startFiring (refreshReady s) cl c ks := by
  simp only [fireAt, chosen, fresh, applied, Option.isSome_none, Bool.or_self, Bool.false_eq_true, if_false]
/-- R185: with no firing to start, the best of those that find no core has a pre-emption asked for it -/
theorem fireAt_asks (noStart : pickStart (refreshReady s) cl = none) (blocked : pickBlocked (refreshReady s) cl = some c) :
    fireAt s cl = preemptFor (refreshReady s) cl c := by
  simp only [fireAt, noStart, blocked]
/-- R198: the pre-empted firing that is chosen resumes, once no write-back on its old cores is held back -/
theorem resumeAt_resumes {v : Saved} (chosen : pickStart (refreshReady s) cl = some (c, ks)) (kept : c.saved = some v)
    (written : ∀ x ∈ v.threads, drainWaits (refreshReady s) x.1 v.ctx = false) :
    resumeAt s cl = resumeFiring (refreshReady s) c v ks := by
  have none_waits : v.threads.any (fun x => drainWaits (refreshReady s) x.1 v.ctx) = false := by simpa using written
  simp only [resumeAt, chosen, kept, none_waits, Bool.false_eq_true, if_false]

variable (named : s.cur.arg = .ix cl) (inRange : cl < 64)
include named inRange
theorem argCluster_of_ix : argCluster s = some cl := by simp only [argCluster, named, if_pos inRange]
theorem exec_firingStart : exec .firingStart s = .next (fireAt s cl) := by
  change execFiringStart s = _
  simp only [execFiringStart, argCluster_of_ix named inRange]
theorem exec_firingResume : exec .firingResume s = .next (resumeAt s cl) := by
  change execFiringResume s = _
  simp only [execFiringResume, argCluster_of_ix named inRange]
theorem exec_ageingIntervalExpiry (blocked : pickBlocked (refreshReady s) cl = some c) :
    exec .ageingIntervalExpiry s = .next (preemptFor (refreshReady s) cl c) := by
  change execAgeingIntervalExpiry s = _
  simp only [execAgeingIntervalExpiry, argCluster_of_ix named inRange, blocked]
theorem exec_overdueRotation
    (overdue : bestCand ((coreless (refreshReady s) cl).filter (isOverdue (refreshReady s))) = some c) :
    exec .overdueRotation s = .next (rotateFor (refreshReady s) cl c) := by
  change execOverdueRotation s = _
  simp only [execOverdueRotation, argCluster_of_ix named inRange, overdue]
theorem exec_quotaAdjust (due : quotaDue s cl = true) : exec .quotaAdjust s = .next (setCluster s cl
    { cluster s cl with quotas := adjustQuotas s cl (cluster s cl).quotas, quotaAt := s.time }) := by
  change execQuotaAdjust s = _
  simp only [execQuotaAdjust, argCluster_of_ix named inRange, due, if_true]
end

/-! ### A stop at a safe point, and a firing past its overrun limit (R196, R199, R200) -/

section
variable {s : State} {k : Nat} {t : Thread} (named : s.cur.arg = .ix k) (runs : threadOf s k = some t)
  (firing : t.id.firmware = false)
include named runs firing
/-- R196, R199: every position stands drained at its safe point, and the arena has the slots -/
theorem exec_preemptAtSafePoint (stopping : t.preempt ≠ .none) (whole : (unitThreads s k t).length = slotsNeeded t)
    (atSafe : ∀ x ∈ unitThreads s k t, drained x.2 = true) (room : slotsNeeded t ≤ freeSlots s t.id.ctx) :
    exec .preemptAtSafePoint s = .next (saveUnit s (unitThreads s k t) t) := by
  have stops : (!t.id.firmware && t.preempt != .none && (unitThreads s k t).length == slotsNeeded t &&
      (unitThreads s k t).all (fun x => drained x.2) && decide (slotsNeeded t ≤ freeSlots s t.id.ctx)) = true := by
    simpa [firing, stopping, whole, room] using atSafe
  change execPreemptAtSafePoint s = _
  simp only [execPreemptAtSafePoint, named, preemptCore, runs, stops, if_true]
/-- R200: a firing stopped for its budget that has not come to a safe point within its limit is killed -/
theorem exec_overrunExpiry (stopping : t.preempt = .budget) (going : hasCommitted s t = false)
    (past : overrunLimit s t < overrunCycles t) :
    exec .overrunExpiry s = .next (killFiring s k tOverrun (BitVec.ofNat 64 (overrunCycles t)) t.pc) := by
  have due : overrunDue s k = true := by simp [overrunDue, runs, firing, stopping, going, past]
  change execOverrunExpiry s = _
  simp only [execOverrunExpiry, named, due, runs, if_true]
end

/-! ### A context's period and what is charged to it (R189-R191) -/

/-- spending moves what is spent, in this period and past its end, and nothing else of the context -/
theorem spend_eq (k : Spent) (start stop each : Nat) (c : Ctx) : spend k start stop each c =
    { c with cycles := (spend k start stop each c).cycles, hbmBytes := (spend k start stop each c).hbmBytes,
             girtBytes := (spend k start stop each c).girtBytes, late := (spend k start stop each c).late } := by
  cases k <;> simp only [spend, addSpent] <;> split <;> rfl
theorem spend_within {k : Spent} {start stop each : Nat} {c : Ctx} (within : stop ≤ periodEnd c) :
    spend k start stop each c = addSpent k ((stop - start) * each) c := by
  simp only [spend, if_pos within, Nat.min_eq_left within]
/-- the period after this one, before anything is charged to it (R189) -/
def newPeriod (c : Ctx) : Ctx :=
  { c with periodStart := periodEnd c, period := c.period + 1, cycles := 0, hbmBytes := 0, girtBytes := 0, late := [],
           spentCycles := false, spentBytes := false, sched := c.nextSched.getD c.sched, nextSched := none }
/-- what was spent past the last period's end is charged to the new period -/
theorem nextPeriod_charges (c : Ctx) :
    nextPeriod c = c.late.foldl (fun c l => spend l.what l.start l.stop l.each c) (newPeriod c) := rfl
/-- the charges move the account of the new period alone -/
theorem nextPeriod_eq (c : Ctx) : nextPeriod c =
    { newPeriod c with cycles := (nextPeriod c).cycles, hbmBytes := (nextPeriod c).hbmBytes,
                       girtBytes := (nextPeriod c).girtBytes, late := (nextPeriod c).late } := by
  rw [nextPeriod_charges]
  refine List.foldlRecOn (motive := fun x : Ctx => x =
    { newPeriod c with cycles := x.cycles, hbmBytes := x.hbmBytes, girtBytes := x.girtBytes, late := x.late }) _ _ rfl ?_
  intro x charged l _
  rw [spend_eq, charged]
theorem nextPeriod_of_nothing_late {c : Ctx} (nothing : c.late = []) : nextPeriod c = newPeriod c := by
  rw [nextPeriod_charges, nothing, List.foldl_nil]
/-- cycles that fall into the new period as a whole, so many in each ns (the model's choice, log 6) -/
theorem nextPeriod_of_late_cycles {c : Ctx} {l : LateSpent} (one : c.late = [l]) (what : l.what = .cycles)
    (within : l.stop ≤ periodEnd (newPeriod c)) : nextPeriod c = { newPeriod c with cycles := (l.stop - l.start) * l.each } := by
  rw [nextPeriod_charges, one, List.foldl_cons, List.foldl_nil, spend_within within, what]
  simp only [addSpent, newPeriod, Nat.zero_add]

section
variable {s : State} {n : Nat} {x : Ctx} (named : s.cur.arg = .ix n) (inRange : n < 4096)
  (live : ctxOf s (BitVec.ofNat 12 n) = some x)
include named inRange
theorem argCtx_of_ix : argCtx s = some (BitVec.ofNat 12 n) := by simp only [argCtx, named, if_pos inRange]
include live
/-- R189: the period begins, and no firing is asked any more to stop for the last one's budget (log 34) -/
theorem exec_budgetPeriodStart (due : periodEnd x ≤ s.time) : exec .budgetPeriodStart s =
    .next (markBudget false (BitVec.ofNat 12 n) (setCtx s (BitVec.ofNat 12 n) (nextPeriod x))) := by
  change execBudgetPeriodStart s = _
  simp only [execBudgetPeriodStart, argCtx_of_ix named inRange, live, periodDue, ge_iff_le, decide_eq_true due, if_true]
theorem exec_cycleBudgetSpent (due : cyclesDue x = true) : exec .cycleBudgetSpent s =
    .next (markBudget true (BitVec.ofNat 12 n) (setCtx s (BitVec.ofNat 12 n) { x with spentCycles := true })) := by
  change execCycleBudgetSpent s = _
  simp only [execCycleBudgetSpent, argCtx_of_ix named inRange, live, due, if_true]
theorem exec_byteBudgetSpent (due : bytesDue x = true) : exec .byteBudgetSpent s =
    .next (setCtx s (BitVec.ofNat 12 n) { x with spentBytes := true }) := by
  change execByteBudgetSpent s = _
  simp only [execByteBudgetSpent, argCtx_of_ix named inRange, live, due, if_true]
end
/-- R190: a budget of 0 is none -/
theorem cyclesDue_iff (x : Ctx) :
    cyclesDue x = true ↔ x.sched.cycles ≠ 0 ∧ x.sched.cycles * 1000 ≤ x.cycles ∧ x.spentCycles = false := by
  simp [cyclesDue, overBudget, and_assoc]
/-- R191: a budget of 0 is none -/
theorem bytesDue_iff (x : Ctx) : bytesDue x = true ↔ x.spentBytes = false ∧
    (x.sched.hbm ≠ 0 ∧ x.sched.hbm ≤ x.hbmBytes ∨ x.sched.girt ≠ 0 ∧ x.sched.girt ≤ x.girtBytes) := by
  simp [bytesDue]

/-! ### The frames that stand, by context and number (R168, R173) -/

/-- what `isFrame` tells frames apart by -/
def frameNames (s : State) : List (BitVec 12 × BitVec 32) := s.work.frames.map (fun f => (f.ctx, f.number))
theorem frameNames_congr {s s' : State} (same : s'.work.frames = s.work.frames) : frameNames s' = frameNames s := by
  rw [frameNames, frameNames, same]
/-- no frame of that name stands where its name does not -/
theorem not_isFrame_of_not_mem {s : State} {ctx : BitVec 12} {n : BitVec 32} (absent : (ctx, n) ∉ frameNames s) {g : Frame}
    (stands : g ∈ s.work.frames) : isFrame ctx n g = false := by
  have ne : (g.ctx, g.number) ≠ (ctx, n) := fun e => absent (e ▸ List.mem_map_of_mem stands)
  simpa [isFrame] using ne
theorem frameNames_updFrame (s : State) (ctx : BitVec 12) (n : BitVec 32) {g : Frame → Frame}
    (keeps : ∀ f, (g f).ctx = f.ctx ∧ (g f).number = f.number) : frameNames (updFrame s ctx n g) = frameNames s := by
  rw [frameNames, updFrame, setWork_work, List.map_map]
  refine List.map_congr_left fun f _ => ?_
  rw [Function.comp_apply]
  split
  · rw [(keeps f).1, (keeps f).2]
  · rfl
theorem frameNames_putItem {s s' : State} {ctx : BitVec 12} {n : BitVec 32} {i : Nat} {it : QItem}
    (put : putItem s ctx n i it = some s') : frameNames s' = frameNames s := by
  simp only [putItem] at put
  split at put
  · cases put; rfl
  · split at put
    · cases put; rfl
    · split at put
      · cases put; rfl
      · split at put
        · cases put
        · cases put
          exact frameNames_updFrame _ _ _ fun _ => ⟨rfl, rfl⟩
theorem frameNames_putEvent {s s' : State} {ctx : BitVec 12} {cl : Nat} {e : Event} (put : putEvent s ctx cl e = some s') :
    frameNames s' = frameNames s := by
  simp only [putEvent] at put
  split at put
  · cases put; rfl
  · split at put
    · cases put; rfl
    · cases put
theorem frameNames_tryHeld {s s' : State} {h : HeldTo} (put : tryHeld s h = some s') : frameNames s' = frameNames s := by
  cases h with
  | queue => exact frameNames_putItem put
  | event => exact frameNames_putEvent put
/-- R168: a record delivered or held leaves the frames that stand -/
theorem frameNames_deliver (s : State) (h : HeldTo) : frameNames (deliver s h) = frameNames s := by
  simp only [deliver]
  split
  · rfl
  · split
    · next put => exact frameNames_tryHeld put
    · rfl
@[simp] theorem mqFlush_work (n : Nat) (s : State) : (mqFlush n s).work = s.work := by
  induction n generalizing s with
  | zero => rfl
  | succ n ih =>
    have written (s : State) (r : List Byte) : (mqWrite s r).work = s.work := raiseVector_work ..
    rw [mqFlush]
    split
    · rfl
    · split
      · exact (ih _).trans (written ..)
      · split
        · rfl
        · exact written ..
@[simp] theorem mqReply_work (s : State) (r : List Byte) : (mqReply s r).work = s.work := mqFlush_work ..
theorem frameNames_postReply (s : State) (c : Cmd) (r : Record) : frameNames (postReply s c r) = frameNames s := by
  simp only [postReply]
  split
  · rfl
  · exact frameNames_congr (congrArg Work.frames (mqReply_work ..))
  · split
    · exact frameNames_deliver ..
    · exact frameNames_deliver ..
    · rfl
    · rfl
/-- a command's completion ends no frame and raises none -/
theorem frameNames_complete (s : State) (c : Cmd) (engine : Byte) (status bytes result : Nat) :
    frameNames (complete s c engine status bytes result) = frameNames s := by
  rw [complete, frameNames_postReply]
  split <;> rfl

/-! ### The end of a frame (R173) -/

theorem exec_frameEnd {s : State} {f : Frame} (first : s.work.frames.find? (frameDone s) = some f) :
    exec .frameEnd s = .next (endFrame s f) := by
  change execFrameEnd s = _
  simp only [execFrameEnd, first]
/-- the frame that ends stands no more, whatever becomes of its record to ENDREPLY -/
theorem not_mem_frameNames_endFrame (s : State) (f : Frame) : (f.ctx, f.number) ∉ frameNames (endFrame s f) := by
  rw [endFrame, frameNames_complete, frameNames, setWork_work]
  intro stands
  obtain ⟨g, kept, name⟩ := List.mem_map.mp stands
  have other := (List.mem_filter.mp kept).2
  simp [isFrame, (Prod.mk.inj name).1, (Prod.mk.inj name).2] at other

/-- Settles O58: each event's step under its own condition; a new period by what is charged to it, and the end of a frame by the
names of the frames that stand after it. -/
theorem joinerEvents : Obligations.JoinerEvents := by
  unfold Obligations.JoinerEvents
  refine ⟨?slice, ?stop, ?budgets, ?overrun, fun s f first => exec_frameEnd first,
    fun s f g stands => not_isFrame_of_not_mem (not_mem_frameNames_endFrame s f) stands⟩
  case slice =>
    rintro s cl _ named inRange rfl
    rw [exec_firingStart named inRange, exec_firingResume named inRange]
    exact ⟨fun c ks chosen fresh applied => congrArg _ (fireAt_starts chosen fresh applied),
      fun c ks v chosen kept written => congrArg _ (resumeAt_resumes chosen kept written),
      fun c noStart blocked => congrArg _ (fireAt_asks noStart blocked),
      fun c blocked => exec_ageingIntervalExpiry named inRange blocked,
      fun c overdue => exec_overdueRotation named inRange overdue, fun due => exec_quotaAdjust named inRange due⟩
  case stop =>
    rintro s k t _ named runs firing stopping rfl whole atSafe room
    exact exec_preemptAtSafePoint named runs firing stopping whole atSafe room
  case budgets =>
    intro s n x named inRange live
    refine ⟨fun due => ⟨exec_budgetPeriodStart named inRange live due, congrArg Ctx.periodStart (nextPeriod_eq x),
        congrArg Ctx.period (nextPeriod_eq x), congrArg Ctx.sched (nextPeriod_eq x), congrArg Ctx.nextSched (nextPeriod_eq x),
        congrArg Ctx.spentCycles (nextPeriod_eq x), congrArg Ctx.spentBytes (nextPeriod_eq x),
        fun nothing => ?empty, fun l one starts within what => ?charged⟩,
      fun limited spent unmarked => exec_cycleBudgetSpent named inRange live ((cyclesDue_iff x).mpr ⟨limited, spent, unmarked⟩),
      fun unmarked spent => exec_byteBudgetSpent named inRange live ((bytesDue_iff x).mpr ⟨unmarked, spent⟩)⟩
    case empty =>
      rw [nextPeriod_of_nothing_late nothing]
      exact ⟨rfl, rfl, rfl, rfl⟩
    case charged =>
      rw [starts] at within
      rw [nextPeriod_of_late_cycles one what within]
      exact ⟨rfl, rfl, rfl⟩
  case overrun => exact fun s k t named runs firing => exec_overrunExpiry named runs firing
end Sys2Proof.Proofs.Joiner

/-! ## Walks of sequences: SDEFK and SRD (R228, R230, R294, R295, R410, R411) -/
namespace Sys2Proof.Proofs.KilnWalks
open Sys2Proof.Machine Sys2Proof.Claims Sys2Proof.Laws.State Sys2Proof.Laws.Ops Sys2Proof.Proofs.Fences

/-! ### Streams and load queues touch none of the operations under way -/

@[simp] theorem pushL_opn (t : Thread) (n : BitVec 2) (vs : List W128) : (pushL t n vs).opn = t.opn := rfl
/-- a definition goes into its register or behind the execute words still to run -/
theorem defineStream_opn {t u : Thread} {n : BitVec 4} {d : Stream} (defined : defineStream t n d = .ok u) : u.opn = t.opn := by
  rw [defineStream] at defined
  split at defined
  case isTrue idle => rw [← Except.ok.inj defined, setS_opn]
  case isFalse busy =>
    split at defined
    case isTrue full => cases defined
    case isFalse room => rw [← Except.ok.inj defined]

/-! ### The steps both instructions are made of -/

section
variable {α : Type} {t : Thread} {s s1 : State}
/-- an access to the Kiln's structures that is not refused gives what it reads -/
theorem aKiln_of_ok {bad : AM α} {f : KM α} {a : α} (read : f s = .ok (a, s1)) : aKiln bad f s = .ok (a, s1) := by
  rw [aKiln, read]
theorem aStream_of_admitted {n : BitVec 4} {ok : StreamKind → Bool} {d : Stream} (found : accessStream t n = some d)
    (admitted : ok d.kind = true) : aStream t n ok s = .ok (d, s) := by
  rw [aStream, found]
  dsimp only
  rw [if_pos admitted]
  rfl
theorem roomL_of_room {n : BitVec 2} {k : Nat} (room : (getL t n).length + k ≤ 32) : roomL t n k s = .ok ((), s) := by
  rw [roomL, if_pos (show _ ≤ lDepth from room)]
  rfl
end

/-! ### SDEFK (R228, R410) -/

section
variable {h : Hdr} {o : SdefkOps} {w : Who} {s s1 : State} {t u : Thread}
theorem exec_sdefk : exec (.sdefk h o) s = runM h (sdefkAM o) s := rfl
variable (checked : checkHandle (getC t o.a) [6] permR = .ok ())
include checked
/-- a handle of a closed sequence gives a walk of count 0 -/
theorem sdefkAM_of_closed (closed : seqOfHandle s t.id.ctx (getC t o.a) = none)
    (defined : defineStream t o.d (kilnStream (getC t o.a) 0 o.layer.toNat ((readCI t o.b).extractLsb' 0 32).toNat
      ((readCI t o.b).extractLsb' 0 32).toNat [] none) = .ok u) : sdefkAM o w t s = .ok (u, s) := by
  simp only [sdefkAM]
  rw [aBind_of_ok (aLift_of_ok checked s), aState_bind, closed]
  exact aLift_of_ok defined s
theorem sdefkAM_of_open {q : Seq} {d : Stream} (named : seqOfHandle s t.id.ctx (getC t o.a) = some q)
    (nonempty : ((readCI t o.b).extractLsb' 0 32).toNat < ((readCI t o.b).extractLsb' 32 32).toNat)
    (walk : sdefkWalk (getC t o.a) t o.layer.toNat ((readCI t o.b).extractLsb' 0 32).toNat
      ((readCI t o.b).extractLsb' 32 32).toNat q s = .ok (some d, s1))
    (defined : defineStream t o.d d = .ok u) : sdefkAM o w t s = .ok (u, s1) := by
  simp only [sdefkAM]
  rw [aBind_of_ok (aLift_of_ok checked s), aState_bind, named]
  dsimp only
  rw [aBind_of_ok (aKiln_of_ok walk)]
  dsimp only
  rw [if_neg (Nat.not_le.mpr nonempty)]
  exact aLift_of_ok defined s1
end

/-! ### SRD of a walk (R228, R230, R411) -/

/-- The thread after SRD read a walk of `len` groups through `d`: the item found and the walk behind its group, or, where every
group left is gone for good (R230), all ones and the walk at its end. -/
def afterRead (o : SldOps) (t : Thread) (d : Stream) (len : Nat) : Option ((W128 × W128) × Nat) → Thread
  | some ((x, y), p) => pushL (setAccessStream t o.a { d with pos := p }) o.d [x, y]
  | none => pushL (setAccessStream t o.a { d with pos := len }) o.d [allOnesEntry, allOnesEntry]

section
variable {h : Hdr} {o : SldOps} {w : Who} {s s1 : State} {t : Thread} {d : Stream} {id : BitVec 32} {l lo hi : Nat} {gs : List Nat}
  {hold : Option (List HBlock)}
theorem exec_srd : exec (.srd h o) s = runM h (srdAM o) s := rfl
variable (found : accessStream t o.a = some d) (kind : d.kind = .kiln id l lo hi gs hold) (room : (getL t o.d).length + 2 ≤ 32)
include found kind room
/-- a walk that is not at its end, of an open sequence, reads on from its place -/
theorem srdAM_of_open {q : Seq} {next : Option ((W128 × W128) × Nat)} (before : d.pos < gs.length) (named : seqOf s id = some q)
    (walk : walkNext q l lo hi gs hold d.pos s = .ok (next, s1)) : srdAM o w t s = .ok (afterRead o t d gs.length next, s1) := by
  rw [srdAM, aBind_of_ok (aStream_of_admitted found (by rw [kind]; rfl))]
  simp only [kind]
  rw [aBind_of_ok (roomL_of_room room), aState_bind, if_neg (Nat.not_le.mpr before), named]
  dsimp only
  rw [aBind_of_ok (aKiln_of_ok walk)]
  cases next with
  | some item => rw [afterRead, kind]; rfl
  | none => rw [afterRead, kind]; rfl
/-- behind its end, or once the sequence is closed, a walk stays where it is -/
theorem srdAM_of_ended (ended : gs.length ≤ d.pos ∨ seqOf s id = none) :
    srdAM o w t s = .ok (pushL t o.d [allOnesEntry, allOnesEntry], s) := by
  have nothing : (if gs.length ≤ d.pos then none else seqOf s id) = none :=
    ite_eq_left_iff.mpr fun before => ended.resolve_left before
  rw [srdAM, aBind_of_ok (aStream_of_admitted found (by rw [kind]; rfl))]
  simp only [kind]
  rw [aBind_of_ok (roomL_of_room room), aState_bind, nothing]
  rfl
end

/-- Settles O39: SDEFK by the walk it defines, SRD by what the walk's place still finds. -/
theorem kilnWalks : Obligations.KilnWalks := by
  unfold Obligations.KilnWalks
  refine ⟨?closed, ?opened, ?read⟩
  case closed =>
    rintro h o s t _ u r checked closed rfl defined
    rw [exec_sdefk, runM_of_ok r (sdefkAM_of_closed checked closed defined), doneAt_self r (defineStream_opn defined)]
  case opened =>
    rintro h o s t _ _ q d s1 u r checked named rfl rfl nonempty walk defined
    rw [exec_sdefk, runM_of_ok r (sdefkAM_of_open checked named nonempty walk defined)]
  case read =>
    intro h o s t d id l lo hi gs hold r found kind room
    rw [exec_srd]
    refine ⟨fun q x y p s1 before named walk => ?item, fun q s1 before named walk => ?gone, fun ended => ?behind⟩
    case item => exact runM_of_ok r (srdAM_of_open found kind room before named walk)
    case gone => exact runM_of_ok r (srdAM_of_open found kind room before named walk)
    case behind => exact (runM_of_ok r (srdAM_of_ended found kind room ended)).trans (by rw [doneAt_self r (pushL_opn ..)]; rfl)
end Sys2Proof.Proofs.KilnWalks

/-! ## Validity instructions: requests to the Scribe and holds given back (R263, R266, R276-R278, R283, R297) -/
namespace Sys2Proof.Proofs.Validity
open Sys2Proof.Machine Sys2Proof.Claims Sys2Proof.Laws.State Sys2Proof.Laws.Ops Sys2Proof.Proofs.Device Sys2Proof.Proofs.Fences
  Sys2Proof.Proofs.StockCounters

section
variable (h : Hdr) (o : WholdOps) (s : State)
theorem exec_wholdWithin : exec (.wholdWithin h o) s = runState h (wholdRes (.wholdWithin h o) false h o) s := rfl
theorem exec_wholdBefore : exec (.wholdBefore h o) s = runState h (wholdRes (.wholdBefore h o) false h o) s := rfl
theorem exec_wholdAfter : exec (.wholdAfter h o) s = runState h (wholdRes (.wholdAfter h o) true h o) s := rfl
theorem exec_wdone (o : WdoneOps) : exec (.wdone h o) s = runState h (wdoneRes h o) s := rfl
theorem exec_wcell (o : WcellOps) : exec (.wcell h o) s = runState h (wcellRes h o) s := rfl
theorem exec_wfree (o : WfreeOps) : exec (.wfree h o) s = runState h (wfreeRes (.wfree h o) o) s := rfl
end
theorem runState_trap {h : Hdr} {s s1 : State} {t : Thread} {f : Thread → State → Res} {code : BitVec 8} {detail : W64} (r : Runs h s t)
    (e : f t s = .trap s1 code detail) : runState h f s = .next (takeTrap (!h.s) s1 code detail) := by
  rw [runState_true r.1 r.2, e, finish]

/-! ### A request is sent once, and its answer ends the wait (R263, R266, R277) -/

section
variable {c : Cmd} {p : BitVec 7} {ready : Bool} {sent : Thread} {blocked : Res} {put : W128 → Res} {t : Thread} {s s' : State}
theorem askRun_answered {id : Nat} {v : W128} (answered : t.blockA = .request id (some v)) :
    askRun c p ready sent blocked put t s = put v := by
  simp only [askRun, answered]
theorem askRun_sends (free : t.blockA = .none) (checked : checkHandle c.a [6] p = .ok ()) (isReady : ready = true)
    (pushed : pushInbox (freshReq s).2 (.scribe (homeOf s c.ctx c.a)) { c with req := (freshReq s).1 } = some s') :
    askRun c p ready sent blocked put t s = .wait (setCur s' { sent with blockA := .request (freshReq s).1 none }) := by
  simp only [askRun, free, checked, orStop, isReady, pushed, Bool.not_true, Bool.false_eq_true, if_false]
end

/-! ### WHOLD (R276-R278, R297) -/

section
variable {i : Instr} {safe : Bool} {h : Hdr} {o : WholdOps} {t : Thread} {s s' : State}
/-- an answered WHOLD of any mode takes its word -/
theorem wholdRes_answered {id : Nat} {v : W128} (answered : t.blockA = .request id (some v)) :
    wholdRes i safe h o t s = wholdPut o t s v := askRun_answered answered
/-- a WHOLD of any mode sends its request once fD is empty -/
theorem wholdRes_sends (free : t.blockA = .none) (checked : checkHandle (getC t o.a) [6] permR = .ok ()) (empty : getF t o.d = .empty)
    (pushed : pushInbox (freshReq s).2 (.scribe (homeOf s t.id.ctx (getC t o.a)))
      { askCmd i (getC t o.a) (regOf t o.b) (toBytes 8 (readCI t o.c).toNat) t s with req := (freshReq s).1 } = some s') :
    wholdRes i safe h o t s = .wait (setCur s' { setF t o.d .pending with blockA := .request (freshReq s).1 none }) :=
  askRun_sends free checked (beq_iff_eq.mpr empty) pushed
end
section
variable (o : WholdOps) (t : Thread) (s : State)
/-- R278: a word with ERR 0 is taken as an acquire -/
theorem wholdPut_word {v : W128} (word : v ≠ BitVec.allOnes 128) : wholdPut o t s v =
    .done (setCur (if v.extractLsb' 24 8 = 0 then acquireLocal s s.cur.core 4 else s) (setF t o.d (.full v))) := by
  simp only [wholdPut, beq_iff_eq, word, if_false]
/-- R276: all ones say that the version is lost -/
theorem wholdPut_lost : wholdPut o t s (BitVec.allOnes 128) = .trap s tVersion 0 := if_pos (beq_self_eq_true _)
end

/-! ### WFREE (R283) -/

section
variable {i : Instr} {o : WfreeOps} {t : Thread} {s : State} (checked : checkHandle (getC t o.a) [6] 0 = .ok ())
include checked
theorem wfreeRes_of_closed (closed : seqOfHandle s t.id.ctx (getC t o.a) = none) :
    wfreeRes i o t s = .done (setCur s (setP t o.d false)) := by
  simp only [wfreeRes, checked, orStop, closed]
/-- the latest hold of the firing at B is marked free, and the Scribe is told -/
theorem wfreeRes_of_hold {q : Seq} {x : Hold} {s' : State} (named : seqOfHandle s t.id.ctx (getC t o.a) = some q)
    (mine : (myHolds s t q o.layer.toNat).find? (fun h => h.b == readCI t o.b) = some x)
    (pushed : pushInbox s (.scribe q.die) (askCmd i (getC t o.a) cZero (toBytes 8 x.req) t s) = some s') :
    wfreeRes i o t s =
      .done (setCur (updHolds q (fun y => y.req == x.req) (fun y => { y with freed := true }) s') (setP t o.d true)) := by
  simp only [wfreeRes, checked, orStop, named, mine, pushed]
end
theorem curThread_stampCmd (s : State) (c : Cmd) : curThread (stampCmd s c).2 = curThread s := by
  rw [stampCmd]
  split
  case isTrue unnumbered => rfl
  case isFalse numbered => rfl
/-- a request to a Scribe leaves the threads -/
theorem curThread_of_pushInbox_scribe {s s' : State} {d : Nat} {c : Cmd} (pushed : pushInbox s (.scribe d) c = some s') :
    curThread s' = curThread s := by
  simp only [pushInbox] at pushed
  split at pushed
  case isTrue room =>
    cases pushed
    exact curThread_stampCmd s c
  case isFalse full => cases pushed
theorem curThread_updHolds (q : Seq) (p : Hold → Bool) (f : Hold → Hold) (s : State) : curThread (updHolds q p f s) = curThread s := rfl

/-- Settles O38: each instruction by its answer, WHOLD by the request it sends too, WFREE by the hold it finds. -/
theorem validityInstructions : Obligations.ValidityInstructions := by
  unfold Obligations.ValidityInstructions
  refine ⟨?word, ?lost, ?asks, ?wdone, ?wcell, ?wfree⟩
  case word =>
    rintro h o s t id v r answered word _ rfl
    have put {i : Instr} {safe : Bool} : wholdRes i safe h o t s = _ := (wholdRes_answered answered).trans (wholdPut_word o t s word)
    rw [exec_wholdWithin, exec_wholdBefore, exec_wholdAfter]
    exact ⟨runState_done r put, runState_done r put, runState_done r put⟩
  case lost =>
    intro h o s t id r answered
    exact runState_trap r ((wholdRes_answered answered).trans (wholdPut_lost o t s))
  case asks =>
    intro h o s t s' r free checked empty
    dsimp only
    rw [exec_wholdWithin, exec_wholdBefore, exec_wholdAfter]
    exact ⟨fun pushed => runState_wait r (wholdRes_sends free checked empty pushed),
      fun pushed => runState_wait r (wholdRes_sends free checked empty pushed),
      fun pushed => runState_wait r (wholdRes_sends free checked empty pushed)⟩
  case wdone =>
    intro h o s t id v r answered
    exact runState_done r (askRun_answered answered)
  case wcell =>
    intro h o s t id v r answered
    exact runState_done r (askRun_answered answered)
  case wfree =>
    intro h o s t r checked
    rw [exec_wfree]
    refine ⟨fun closed => ?none, fun q x s' named mine pushed => ?released⟩
    case none => exact runState_done r (wfreeRes_of_closed checked closed)
    case released =>
      have runs : Runs h (updHolds q (fun y => y.req == x.req) (fun y => { y with freed := true }) s') t :=
        ⟨(curThread_updHolds ..).trans ((curThread_of_pushInbox_scribe pushed).trans r.1), r.2⟩
      rw [runState_done r (wfreeRes_of_hold checked named mine pushed), doneAt_self runs (setP_opn ..)]
end Sys2Proof.Proofs.Validity

/-! ## Drains, waves, edits, rotations, holds and engines (R256, R257, R262, R265, R280, R282, R317, R451, R453, R457) -/
namespace Sys2Proof.Proofs.SequenceEvents
open Sys2Proof.Machine Sys2Proof.Proofs.Clocks

/-! ### Drains and sequences -/

/-- R317: the first drain that can be applied or discarded is served -/
theorem exec_drainApply {s : State} {d : Drain} {ok : Bool} (first : nextDrain s [] s.work.drains = some (d, ok)) :
    exec .drainApply s = .next (noteDrained (if ok then applyDrain (setWork s { s.work with drains := s.work.drains.eraseP (· == d) }) d
      else setWork s { s.work with drains := s.work.drains.eraseP (· == d) }) d) := by
  change execDrainApply s = _
  simp only [execDrainApply, serveDrain, first]
/-- what the Scribe does by itself on an open sequence, when nothing makes it wait or fail -/
theorem runScribe_of_ok {f : Seq → KM Unit} {id : BitVec 32} {s s1 : State} {q : Seq} (live : seqOf s id = some q)
    (done : f q s = .ok ((), s1)) : runScribe f id s = s1 := by
  simp only [runScribe, live, done]

section
variable {s s1 : State} {n : Nat} (named : s.cur.arg = .ix n)
include named
/-- R265: a sequence's waves go on -/
theorem exec_waveEnterLayer {q : Seq} (live : seqOf (sweepHolds (retryMarks s)) (BitVec.ofNat 32 n) = some q)
    (moved : advance q (sweepHolds (retryMarks s)) = .ok ((), s1)) : exec .waveEnterLayer s = .next s1 := by
  change execWaveEnterLayer s = _
  simp only [execWaveEnterLayer, argIx_of_ix named]
  exact congrArg _ (runScribe_of_ok live moved)
/-- R256: the CPROT that an edit has issued is done -/
theorem exec_editRotationComplete {r : Rotation} (outstanding : s.work.rotations[n]? = some r) (rotated : rotateEdit r s = .ok ((), s1)) :
    exec .editRotationComplete s = .next s1 := by
  change execEditRotationComplete s = _
  simp only [execEditRotationComplete, argIx_of_ix named, outstanding, rotated]
/-- R280: the after hold that request `n` waits for is looked at -/
theorem exec_afterHoldGrant {x : Hold} {q : Seq} (waits : s.work.holds.find? (fun h => h.req == n && !h.granted) = some x)
    (live : seqOf s x.seq = some q) (granted : grantAfter n s = .ok ((), s1)) : exec .afterHoldGrant s = .next s1 := by
  change execAfterHoldGrant s = _
  simp only [execAfterHoldGrant, argIx_of_ix named, waits]
  exact congrArg _ (runScribe_of_ok (f := fun _ => grantAfter n) live granted)
end

/-! ### A command that an edit holds back (R257) -/

/-- the state once the first of the commands held back in place `i` has left it, `l` those behind it -/
def takenFrom (s : State) (i : Nat) (e : EditWait) (l : List Cmd) : State :=
  setWork s { s.work with edits := if l.isEmpty then dropAt s.work.edits i else s.work.edits.set i { e with cmds := l } }
/-- a command that leaves its place does not alter which sequences are open -/
theorem seqOf_takenFrom (s : State) (i : Nat) (e : EditWait) (l : List Cmd) (id : BitVec 32) :
    seqOf (takenFrom s i e l) id = seqOf s id := rfl
section
variable {s : State} {i : Nat} {e : EditWait} {c : Cmd} {l : List Cmd}
theorem deferredTurn_applies (waits : s.work.edits[i]? = some e) (first : e.cmds = c :: l) (settled : mustSettle s c = false)
    (unblocked : ∀ q, seqNamed s c = some q → rotationOpen s q = false ∧ marksWait s q = false) :
    deferredTurn s i = advanceSeq e.seq (applyCmd (match seqOf s e.seq with | some q => q.die | none => 0) s (takenFrom s i e l) c) := by
  simp only [deferredTurn, waits, first, settled, Bool.false_or]
  cases named : seqNamed s c with
  | none => rfl
  | some q =>
    obtain ⟨closed, unmarked⟩ := unblocked q named
    simp only [closed, unmarked]
    rfl
theorem exec_editDeferredApply (named : s.cur.arg = .ix i) : exec .editDeferredApply s = .next (deferredTurn s i) := by
  change execEditDeferredApply s = _
  simp only [execEditDeferredApply, argIx_of_ix named]
end

/-! ### The engine a turn names takes a command of its inbox (R451, R453, R457) -/

section
variable {s : State} {ix : Nat} {c : Cmd}
theorem exec_engineCommandComplete {e : EngineId} (named : s.cur.arg = .engine e ix) :
    exec .engineCommandComplete s = .next (engineTurn s e ix) := by
  change execEngineCommandComplete s = _
  simp only [execEngineCommandComplete, named]
/-- R453: a copy engine ends one of the first 16 -/
theorem copyTurn_of_copy {cl : Nat} (started : ((cluster s cl).copy.take 16)[ix]? = some c) (copies : isCprot c.instr = false) :
    copyTurn s cl ix = copyApply c s (setCluster s cl { cluster s cl with copy := dropAt (cluster s cl).copy ix }) := by
  have found : ((cluster s cl).copy.take copyRuns)[ix]? = some c := started
  simp only [copyTurn, found, copies, Bool.false_eq_true, if_false]
/-- R69: a channel's engine takes the first command of that channel -/
theorem bankTurn_of_first {ch : Nat} (first : (die s (ch / 512)).bank.find? (fun c => channelOfPa c.pa == ch) = some c) :
    bankTurn s ch = bankApply c s (setDie s (ch / 512)
      { die s (ch / 512) with bank := (die s (ch / 512)).bank.eraseP (fun x => channelOfPa x.pa == ch) }) := by
  simp only [bankTurn, first]
theorem joinerTurn_of_picked {cl : Nat} (picked : pickCmd (cluster s cl).joiner ix = some c) :
    joinerTurn s cl ix = joinerApply c s (setCluster s cl { cluster s cl with joiner := dropAt (cluster s cl).joiner ix }) := by
  simp only [joinerTurn, picked]
variable {d : Nat} (turn : firstOfSeq s c = true)
include turn
/-- R238: the command is at its turn among those of its sequence -/
theorem kilnTurn_of_first (there : (die s d).kiln[ix]? = some c) :
    kilnTurn s d ix = takeCmd d s (setDie s d { die s d with kiln := dropAt (die s d).kiln ix }) c := by
  simp only [kilnTurn, there, turn, if_true]
theorem scribeTurn_of_first (there : (die s d).scribe[ix]? = some c) :
    scribeTurn s d ix = takeCmd d s (setDie s d { die s d with scribe := dropAt (die s d).scribe ix }) c := by
  simp only [scribeTurn, there, turn, if_true]
end
/-- SEQOPEN and SEQCLOSE have events of their own; the Kiln's other commands are taken here -/
theorem engineTurn_kiln {s : State} {d ix : Nat} {c : Cmd} (there : (die s d).kiln[ix]? = some c) (notOpen : c.instr ≠ .seqopen)
    (notClose : c.instr ≠ .seqclose) : engineTurn s (.kiln d) ix = kilnTurn s d ix := by
  have instr : kilnInstrAt s d ix = some c.instr := by rw [kilnInstrAt, there, Option.map_some]
  rw [engineTurn, instr]
  split
  case h_1 e => exact absurd (Option.some.inj e) notOpen
  case h_2 e => exact absurd (Option.some.inj e) notClose
  case h_3 => rfl

/-- Settles O59: each event's step under its own condition; an engine's by the command at the place its turn names. -/
theorem sequenceAndEngineEvents : Obligations.SequenceAndEngineEvents := by
  unfold Obligations.SequenceAndEngineEvents
  refine ⟨?drain, ?wave, ?edit, ?rotation, ?hold, ?copy, ?bank, ?joiner, ?kiln, ?scribe⟩
  case drain =>
    rintro s d ok _ first rfl
    exact exec_drainApply first
  case wave =>
    rintro s n q _ s1 named rfl live moved
    exact exec_waveEnterLayer named live moved
  case edit =>
    rintro s i e c l _ named waits first settled unblocked rfl
    rw [exec_editDeferredApply named, deferredTurn_applies waits first settled unblocked, ← seqOf_takenFrom s i e l]
    rfl
  case rotation => exact fun s i r s1 named outstanding rotated => exec_editRotationComplete named outstanding rotated
  case hold => exact fun s n x q s1 named waits live granted => exec_afterHoldGrant named waits live granted
  case copy =>
    rintro s cl ix c _ named started copies rfl
    rw [exec_engineCommandComplete named, engineTurn, copyTurn_of_copy started copies]
  case bank =>
    rintro s ch c _ named rfl first
    rw [exec_engineCommandComplete named, engineTurn, bankTurn_of_first first]
  case joiner =>
    intro s cl ix c named picked
    rw [exec_engineCommandComplete named, engineTurn, joinerTurn_of_picked picked]
  case kiln =>
    rintro s d ix c _ named there turn rfl notOpen notClose
    rw [exec_engineCommandComplete named, engineTurn_kiln there notOpen notClose, kilnTurn_of_first turn there]
  case scribe =>
    rintro s d ix c _ named there turn rfl
    rw [exec_engineCommandComplete named, engineTurn, scribeTurn_of_first turn there]
end Sys2Proof.Proofs.SequenceEvents

/-! ## Decode of encode (R359, R374, R376) -/
namespace Sys2Proof.Proofs.Encoding

/-! ### The rows of the opcode map (R374) -/

section
variable {r : Raw}
theorem parse_of_control (h : r.major.toNat / 16 = 0) : parse r = parseControl r := by simp only [parse, h]
theorem parse_of_integer (h : r.major.toNat / 16 = 1) : parse r = parseInteger r := by simp only [parse, h]
theorem parse_of_bits (h : r.major.toNat / 16 = 2) : parse r = parseBits r := by simp only [parse, h]
theorem parse_of_capability (h : r.major.toNat / 16 = 3) : parse r = parseCapability r := by simp only [parse, h]
theorem parse_of_memory (h : r.major.toNat / 16 = 4) : parse r = parseMemory r := by simp only [parse, h]
theorem parse_of_stream (h : r.major.toNat / 16 = 5) : parse r = parseStream r := by simp only [parse, h]
theorem parse_of_atomic (h : r.major.toNat / 16 = 6) : parse r = parseAtomic r := by simp only [parse, h]
theorem parse_of_sync (h : r.major.toNat / 16 = 7) : parse r = parseSync r := by simp only [parse, h]
theorem parse_of_float (h : r.major.toNat / 16 = 8) : parse r = parseFloat r := by simp only [parse, h]
theorem parse_of_wide (h : r.major.toNat / 16 = 10) : parse r = parseWide r := by simp only [parse, h]
theorem parse_of_reduce (h : r.major.toNat / 16 = 11) : parse r = parseReduce r := by simp only [parse, h]
theorem parse_of_matrix (h : r.major.toNat / 16 = 12) : parse r = parseMatrix r := by simp only [parse, h]
theorem parse_of_engine (h : r.major.toNat / 16 = 13) : parse r = parseEngine r := by simp only [parse, h]
theorem parse_of_validity (h : r.major.toNat / 16 = 14) : parse r = parseValidity r := by simp only [parse, h]
theorem parse_of_system (h : r.major.toNat / 16 = 15) : parse r = parseSystem r := by simp only [parse, h]
end

/-! ### Words that read back -/

/-- a field that a legal instruction has reserved is zero -/
theorem zero_of_reserved {l : List (Bool × Reject)} {n : Nat} {v : BitVec n} (wf : (Wf.first l).isNone = true)
    (reserved : (v == 0, Reject.reserved) ∈ l) : v = 0 :=
  eq_of_beq ((first_eq_none l).mp (Option.isNone_iff_eq_none.mp wf) _ reserved)
section
variable {mj : Byte} {mn : BitVec 4} {h : Hdr} {k : Nat} {parser : Raw → Except Reject Instr}
  (row : ∀ {r : Raw}, r.major.toNat / 16 = k → parse r = parser r)
include row
/-- an instruction whose operands a codec writes reads back, where its row of the map names the codec -/
theorem decode_of_codec {α : Type} {con : α → Instr} {dec : Raw → Except Reject α} {b : Body} {o : α}
    (reads : dec (rawOf mj mn h b) = .ok o) (wf : (con o).wf = true) (inRow : mj.toNat / 16 = k := by rfl)
    (named : parser (rawOf mj mn h b) = con <$> dec (rawOf mj mn h b) := by rfl) : decode (word mj mn h b) = .ok (con o) :=
  decode_word (by rw [row inRow, named, reads]; rfl) wf
theorem decode_of_noneOp {i : Instr} (wf : i.wf = true) (inRow : mj.toNat / 16 = k := by rfl)
    (named : parser (rawOf mj mn h ⟨0#8, 0#8, 0#8, 0#48⟩) = noneOp (rawOf mj mn h ⟨0#8, 0#8, 0#8, 0#48⟩) i := by rfl) :
    decode (word mj mn h ⟨0#8, 0#8, 0#8, 0#48⟩) = .ok i :=
  decode_word ((row inRow).trans (named.trans (noneOp_zero ..))) wf
/-- a mode in X names the form of the instruction -/
theorem decode_of_mode {α : Type} {con : α → Instr} {dec : Raw → Except Reject α} {forms : Raw → Except Reject Instr} {b : Body} {o : α}
    {i : Nat} {m : BitVec 2} (reads : dec (rawOf mj mn h b) = .ok o) (mode : (rawOf mj mn h b).x.extractLsb' i 2 = m)
    (wf : (con o).wf = true)
    (form : ∀ {r : Raw}, dec r = .ok o → r.x.extractLsb' i 2 = m → r.h = h → forms r = .ok (con o))
    (inRow : mj.toNat / 16 = k := by rfl) (named : parser (rawOf mj mn h b) = forms (rawOf mj mn h b) := by rfl) :
    decode (word mj mn h b) = .ok (con o) :=
  decode_word ((row inRow).trans (named.trans (form reads mode rfl))) wf
end
section
variable {r : Raw} {m : BitVec 2} {h : Hdr} {i : Instr}
theorem whold_of_mode {o : WholdOps} (reads : wholdDec r = .ok o) (mode : r.x.extractLsb' 38 2 = m) (hdr : r.h = h)
    (form : (m, i) ∈ [(0, Instr.wholdWithin h o), (1, .wholdBefore h o), (2, .wholdAfter h o)]) : whold r = .ok i := by
  subst hdr
  simp only [List.mem_cons, Prod.mk.injEq, List.not_mem_nil, or_false] at form
  rcases form with ⟨rfl, rfl⟩ | ⟨rfl, rfl⟩ | ⟨rfl, rfl⟩ <;> (simp only [whold, reads, mode]; rfl)
theorem tlbw_of_action {o : TlbOps} (reads : tlbDec r = .ok o) (action : r.x.extractLsb' 0 2 = m) (hdr : r.h = h)
    (form : (m, i) ∈ [(0, Instr.tlbwr h o), (1, .tlbwrFill h o), (2, .tlbwrFault h o), (3, .tlbwrPeer h o)]) : tlbw r = .ok i := by
  subst hdr
  simp only [List.mem_cons, Prod.mk.injEq, List.not_mem_nil, or_false] at form
  rcases form with ⟨rfl, rfl⟩ | ⟨rfl, rfl⟩ | ⟨rfl, rfl⟩ | ⟨rfl, rfl⟩ <;> (simp only [tlbw, reads, action]; rfl)
end

/-- Settles O3: each codec reads what it wrote, and the map of opcodes names the codec. -/
theorem decodeOfEncode : Obligations.DecodeOfEncode := by
  intro i h hdr wf
  cases i with
  | nop g | finCommit g | finAgain g | finAbort g | yield g =>
    exact decode_of_noneOp parse_of_control wf
  | br g o =>
    exact decode_of_codec parse_of_control (brDec_brEnc ..) wf
  | brx g o =>
    exact decode_of_codec parse_of_control (brxDec_brxEnc ..) wf
  | call g o | loop g o =>
    exact decode_of_codec parse_of_control (callDec_callEnc ..) wf
  | callx g o =>
    exact decode_of_codec parse_of_control (callxDec_callxEnc ..) wf
  | ret g o =>
    exact decode_of_codec parse_of_control (retDec_retEnc ..) wf
  | trap g o =>
    exact decode_of_codec parse_of_control (trapDec_trapEnc ..) wf
  | sig g o =>
    exact decode_of_codec parse_of_control (sigDec_sigEnc ..) wf
  | add g o | sub g o | mul g o | mulh g o | mulhn g o | div g o | divn g o | rem g o | remn g o | and g o | or g o
  | xor g o | andn g o | shl g o | shr g o | sra g o | rotr g o | min g o | max g o | minn g o | maxn g o | abs g o
  | neg g o =>
    exact decode_of_codec parse_of_integer (intDec_intEnc ..) wf
  | clz g o | ctz g o | popc g o | brev g o | bswp g o | extr g o | extrn g o | ins g o =>
    exact decode_of_codec parse_of_bits (intDec_intEnc ..) wf
  | sel g o =>
    exact decode_of_codec parse_of_bits (selDec_selEnc ..) wf
  | mov g o =>
    exact decode_of_codec parse_of_bits (movDec_movEnc ..) wf
  | movi g o | moviHigh g o =>
    exact decode_of_codec parse_of_bits (moviDec_moviEnc ..) wf
  | cmp g o =>
    exact decode_of_codec parse_of_bits (cmpDec_cmpEnc ..) wf
  | pand g o | por g o | pxor g o | pnot g o =>
    exact decode_of_codec parse_of_bits (predDec_predEnc ..) wf
  | rngx g o =>
    exact decode_of_codec parse_of_bits (rngDec_rngEnc ..) wf
  | csetb g o | csetp g o | cadd g o | cgetb g o | cgetl g o | cgetp g o | cgett g o | cclr g o | cseal g o
  | cunseal g o =>
    exact decode_of_codec parse_of_capability (capDec_capEnc ..) wf
  | ld g o | ldc g o | st g o | stc g o | lda g o | str g o | pref g o =>
    exact decode_of_codec parse_of_memory (memDec_memEnc ..) wf
  | sdef g o =>
    exact decode_of_codec parse_of_stream (sdefDec_sdefEnc ..) wf
  | sdefw g o =>
    exact decode_of_codec parse_of_stream (sdefwDec_sdefwEnc ..) wf
  | sdefk g o =>
    exact decode_of_codec parse_of_stream (sdefkDec_sdefkEnc ..) wf
  | sdefs g o =>
    exact decode_of_codec parse_of_stream (sdefsDec_sdefsEnc ..) wf
  | sld g o | srd g o =>
    exact decode_of_codec parse_of_stream (sldDec_sldEnc ..) wf
  | sst g o =>
    exact decode_of_codec parse_of_stream (sstDec_sstEnc ..) wf
  | fence g o =>
    exact decode_of_codec parse_of_stream (fenceDec_fenceEnc ..) wf
  | clean g o | inval g o | flush g o =>
    exact decode_of_codec parse_of_stream (lineDec_lineEnc ..) wf
  | spalloc g o | spfree g o =>
    exact decode_of_codec parse_of_stream (spDec_spEnc ..) wf
  | aadd g o | aand g o | aor g o | axor g o | amin g o | amax g o | aminn g o | amaxn g o | aswap g o | acas g o
  | afadd g o =>
    exact decode_of_codec parse_of_atomic (atomDec_atomEnc ..) wf
  | radd g o | rclr g o =>
    exact decode_of_codec parse_of_atomic (redwDec_redwEnc ..) wf
  | stkinit g o | stktake g o | stkgive g o =>
    exact decode_of_codec parse_of_atomic (stkPDec_stkPEnc _ _ _ _ (zero_of_reserved wf (by simp))) wf
  | stkreadApprox g o | stkreadExact g o =>
    exact decode_of_codec parse_of_atomic (stkCDec_stkCEnc _ _ _ _ (zero_of_reserved wf (by simp))) wf
  | phreg g o | phdrop g o | phsig g o | phwait g o | phsw g o | phgather g o =>
    exact decode_of_codec parse_of_sync (phCDec_phCEnc _ _ _ _ (zero_of_reserved wf (by simp))) wf
  | phexp g o =>
    exact decode_of_codec parse_of_sync (phPDec_phPEnc _ _ _ _ (zero_of_reserved wf (by simp))) wf
  | evwait g o | evpop g o | evpeek g o =>
    exact decode_of_codec parse_of_sync (evDec_evEnc ..) wf
  | send g o | withdraw g o =>
    exact decode_of_codec parse_of_sync (engDec_engEnc ..) wf
  | qpeek g o | qcnt g o =>
    exact decode_of_codec parse_of_sync (qiDec_qiEnc ..) wf
  | fadd g o | fsub g o | fmul g o | fma g o | fms g o | fnma g o | fnms g o | fdiv g o | fsqrt g o | frsqe g o
  | frcpe g o | fmin g o | fmax g o | fabs g o | fneg g o | fcpsgn g o | fcmp g o | fclass g o | fcvt g o | fscalb g o
  | fexpo g o =>
    exact decode_of_codec parse_of_float (fpDec_fpEnc ..) wf
  | vadd g o | vsub g o | vmul g o | vfma g o | vmax g o | vmin g o | vabs g o | vexp2 g o | vrsqe g o | vrcpe g o
  | vcmp g o | vsel g o | vfill g o | vcopy g o | vgather g o | vscatter g o =>
    exact decode_of_codec parse_of_wide (fpDec_fpEnc ..) wf
  | vcvt g o | vqnt g o | vamax g o | vsum g o | vdot g o | vdelta g o | vrope g o | vlse g o =>
    exact decode_of_codec parse_of_reduce (fpDec_fpEnc ..) wf
  | mgang g o =>
    exact decode_of_codec parse_of_matrix (mgangDec_mgangEnc ..) wf
  | mmul g o | mgrp g o | mdrain g o | mdrainAdd g o | mdrainAddOrd g o =>
    exact decode_of_codec parse_of_matrix (matDec_matEnc ..) wf
  | mzero g o | mld g o | mst g o | mcopy g o | mstat g o =>
    exact decode_of_codec parse_of_matrix (tileDec_tileEnc ..) wf
  | cpy g o | cpy2d g o | cprot g o | cpfill g o | bkadd g o | bkaxpy g o | bkgemv g o | bkzero g o | kvapp g o
  | kvseal g o | kvpatch g o | kvfork g o | kvtrunc g o | kvstat g o | kvjopen g o | kvjmark g o | kvjundo g o
  | kvjclose g o | edins g o | eddel g o | edrep g o | settle g o | raise g o | rebind g o =>
    exact decode_of_codec parse_of_engine (engDec_engEnc ..) wf
  | wfree g o =>
    exact decode_of_codec parse_of_validity (wfreeDec_wfreeEnc ..) wf
  | wdone g o =>
    exact decode_of_codec parse_of_validity (wdoneDec_wdoneEnc ..) wf
  | wcell g o =>
    exact decode_of_codec parse_of_validity (wcellDec_wcellEnc ..) wf
  | wmark g o =>
    exact decode_of_codec parse_of_validity (engDec_engEnc ..) wf
  | ctlrd g o =>
    exact decode_of_codec parse_of_system (ctlrdDec_ctlrdEnc ..) wf
  | ctlwr g o =>
    exact decode_of_codec parse_of_system (ctlwrDec_ctlwrEnc ..) wf
  | tlbinv g o =>
    exact decode_of_codec parse_of_system (tlbinvDec_tlbinvEnc ..) wf
  | tlbprobe g o =>
    exact decode_of_codec parse_of_system (tlbprobeDec_tlbprobeEnc ..) wf
  | cflush g o =>
    exact decode_of_codec parse_of_system (cflushDec_cflushEnc ..) wf
  | rett g =>
    exact decode_of_noneOp parse_of_system wf
  | hbeat g o =>
    exact decode_of_codec parse_of_system (hbeatDec_hbeatEnc ..) wf
  | idle g o =>
    exact decode_of_codec parse_of_system (idleDec_idleEnc ..) wf
  | wholdWithin g o =>
    exact decode_of_mode parse_of_validity (wholdDec_wholdEnc ..) (whold_mode ..) wf fun reads mode hdr =>
      whold_of_mode reads mode hdr (by simp)
  | wholdBefore g o =>
    exact decode_of_mode parse_of_validity (wholdDec_wholdEnc ..) (whold_mode ..) wf fun reads mode hdr =>
      whold_of_mode reads mode hdr (by simp)
  | wholdAfter g o =>
    exact decode_of_mode parse_of_validity (wholdDec_wholdEnc ..) (whold_mode ..) wf fun reads mode hdr =>
      whold_of_mode reads mode hdr (by simp)
  | tlbwr g o =>
    exact decode_of_mode parse_of_system (tlbDec_tlbEnc ..) (tlb_action ..) wf fun reads mode hdr =>
      tlbw_of_action reads mode hdr (by simp)
  | tlbwrFill g o =>
    exact decode_of_mode parse_of_system (tlbDec_tlbEnc ..) (tlb_action ..) wf fun reads mode hdr =>
      tlbw_of_action reads mode hdr (by simp)
  | tlbwrFault g o =>
    exact decode_of_mode parse_of_system (tlbDec_tlbEnc ..) (tlb_action ..) wf fun reads mode hdr =>
      tlbw_of_action reads mode hdr (by simp)
  | tlbwrPeer g o =>
    exact decode_of_mode parse_of_system (tlbDec_tlbEnc ..) (tlb_action ..) wf fun reads mode hdr =>
      tlbw_of_action reads mode hdr (by simp)
  | _ => cases hdr
end Sys2Proof.Proofs.Encoding

/-! ## Encode of decode (R359, R374) -/
namespace Sys2Proof.Proofs.Decoding

/-! ### Fields of a word put together again -/

theorem extract_append {w : Nat} (x : BitVec w) {i j m n : Nat} (h : j = i + n) :
    x.extractLsb' j m ++ x.extractLsb' i n = x.extractLsb' i (m + n) := by
  rw [BitVec.extractLsb'_append_extractLsb'_eq_extractLsb' h]
theorem ofBool_getLsbD {w : Nat} (x : BitVec w) (i : Nat) : BitVec.ofBool (x.getLsbD i) = x.extractLsb' i 1 := by
  ext j hj; obtain rfl : j = 0 := by omega
  simp

section
variable {r : Raw}
/-- the operand bytes and X of a word, as a codec writes them -/
def bodyOf (r : Raw) : Body := ⟨r.d, r.a, r.b, r.x⟩
theorem body_eq {d a b : Byte} {x : BitVec 48} (hd : d = r.d) (ha : a = r.a) (hb : b = r.b) (hx : x = r.x) :
    (⟨d, a, b, x⟩ : Body) = bodyOf r := by rw [hd, ha, hb, hx]; rfl

/-! ### What a field that reads says of its bytes (R364-R367) -/

section
variable {α : Type} {n : Nat} {b : Byte} {v : BitVec n} {y : α}
theorem pure_ok {x : α} : (pure x : Except Reject α) = .ok y ↔ x = y := by simp [pure, Except.pure]
theorem zero_bind {f : Unit → Except Reject α} : (zero v >>= f) = .ok y ↔ 0#n = v ∧ f () = .ok y := by
  unfold zero
  split
  · next h => subst h; exact (and_iff_right rfl).symm
  · next h => exact ⟨fun e => (nomatch e), fun e => absurd e.1.symm h⟩
/-- a register's field names it by its byte, and by no other -/
theorem guarded_bind {β : Type} {c : Prop} [Decidable c] {k : β} {e : Reject} {enc : β → Byte} {f : β → Except Reject α}
    (reads : c → enc k = b) (only : ∀ k', enc k' = b → c ∧ k = k') :
    ((if c then .ok k else .error e : Except Reject β) >>= f) = .ok y ↔ ∃ k', enc k' = b ∧ f k' = .ok y := by
  split
  · next h => exact ⟨fun e => ⟨k, reads h, e⟩, fun ⟨k', a, e⟩ => (only k' a).2 ▸ e⟩
  · next h => exact ⟨fun e => (nomatch e), fun ⟨k', a, _⟩ => absurd (only k' a).1 h⟩
theorem creg_bind {f : BitVec 6 → Except Reject α} : (creg b >>= f) = .ok y ↔ ∃ k, cByte k = b ∧ f k = .ok y :=
  guarded_bind (by revert b; decide +kernel) (by revert b; decide +kernel)
theorem preg_bind {f : BitVec 4 → Except Reject α} : (preg b >>= f) = .ok y ↔ ∃ k, pByte k = b ∧ f k = .ok y :=
  guarded_bind (by revert b; decide +kernel) (by revert b; decide +kernel)
theorem sreg_bind {f : BitVec 4 → Except Reject α} : (sreg b >>= f) = .ok y ↔ ∃ k, sByte k = b ∧ f k = .ok y :=
  guarded_bind (by revert b; decide +kernel) (by revert b; decide +kernel)
theorem freg_bind {f : BitVec 4 → Except Reject α} : (freg b >>= f) = .ok y ↔ ∃ k, fByte k = b ∧ f k = .ok y :=
  guarded_bind (by revert b; decide +kernel) (by revert b; decide +kernel)
theorem lreg_bind {f : BitVec 2 → Except Reject α} : (lreg b >>= f) = .ok y ↔ ∃ k, lByte k = b ∧ f k = .ok y :=
  guarded_bind (by revert b; decide +kernel) (by revert b; decide +kernel)
end

/-! ### A codec writes what it has read -/

theorem brEnc_of_brDec {o : BrOps} (e : brDec r = .ok o) : brEnc o = bodyOf r := by
  simp only [brDec, zero_bind, pure_ok] at e
  obtain ⟨hd, ha, hb, z1, rfl⟩ := e
  exact body_eq hd ha hb (by rw [z1]; simp only [extract_append, BitVec.extractLsb'_eq_self])
theorem brxEnc_of_brxDec {o : BrxOps} (e : brxDec r = .ok o) : brxEnc o = bodyOf r := by
  simp only [brxDec, zero_bind, pure_ok] at e
  obtain ⟨hd, hx, rfl⟩ := e
  exact body_eq hd (byteOfOpd_opdOfByte _) (byteOfOpd_opdOfByte _) hx
theorem callEnc_of_callDec {o : CallOps} (e : callDec r = .ok o) : callEnc o = bodyOf r := by
  simp only [callDec, zero_bind, creg_bind, pure_ok] at e
  obtain ⟨d, hd, ha, hb, z1, rfl⟩ := e
  exact body_eq hd ha hb (by rw [z1]; simp only [extract_append, BitVec.extractLsb'_eq_self])
theorem callxEnc_of_callxDec {o : CallxOps} (e : callxDec r = .ok o) : callxEnc o = bodyOf r := by
  simp only [callxDec, zero_bind, creg_bind, pure_ok] at e
  obtain ⟨d, hd, hb, hx, rfl⟩ := e
  exact body_eq hd (byteOfOpd_opdOfByte _) hb hx
theorem retEnc_of_retDec {o : RetOps} (e : retDec r = .ok o) : retEnc o = bodyOf r := by
  simp only [retDec, zero_bind, pure_ok] at e
  obtain ⟨hd, hb, hx, rfl⟩ := e
  exact body_eq hd (byteOfOpd_opdOfByte _) hb hx
theorem trapEnc_of_trapDec {o : TrapOps} (e : trapDec r = .ok o) : trapEnc o = bodyOf r := by
  simp only [trapDec, zero_bind, pure_ok] at e
  obtain ⟨hd, ha, hb, rfl⟩ := e
  exact body_eq hd ha hb rfl
theorem sigEnc_of_sigDec {o : SigOps} (e : sigDec r = .ok o) : sigEnc o = bodyOf r := by
  simp only [sigDec, zero_bind, pure_ok] at e
  obtain ⟨hd, ha, hb, z1, rfl⟩ := e
  exact body_eq hd ha hb (by rw [z1]; simp only [extract_append, BitVec.extractLsb'_eq_self])
theorem intEnc_of_intDec {o : IntOps} (e : intDec r = .ok o) : intEnc o = bodyOf r := by
  simp only [intDec, zero_bind, pure_ok] at e
  obtain ⟨z1, rfl⟩ := e
  exact body_eq (byteOfOpd_opdOfByte _) (byteOfOpd_opdOfByte _) (byteOfOpd_opdOfByte _)
    (by rw [z1]; simp only [byteOfOpd_opdOfByte, extract_append, BitVec.extractLsb'_eq_self])
theorem cmpEnc_of_cmpDec {o : CmpOps} (e : cmpDec r = .ok o) : cmpEnc o = bodyOf r := by
  simp only [cmpDec, zero_bind, preg_bind, pure_ok] at e
  obtain ⟨d, hd, z1, z2, rfl⟩ := e
  exact body_eq hd (byteOfOpd_opdOfByte _) (byteOfOpd_opdOfByte _)
    (by rw [z1, z2]; simp only [extract_append, BitVec.extractLsb'_eq_self])
theorem selEnc_of_selDec {o : SelOps} (e : selDec r = .ok o) : selEnc o = bodyOf r := by
  simp only [selDec, zero_bind, creg_bind, preg_bind, pure_ok] at e
  obtain ⟨d, hd, p, ha, z1, rfl⟩ := e
  exact body_eq hd ha (byteOfOpd_opdOfByte _)
    (by rw [z1]; simp only [byteOfOpd_opdOfByte, extract_append, BitVec.extractLsb'_eq_self])
theorem movEnc_of_movDec {o : MovOps} (e : movDec r = .ok o) : movEnc o = bodyOf r := by
  simp only [movDec, zero_bind, pure_ok] at e
  obtain ⟨hb, hx, rfl⟩ := e
  exact body_eq (byteOfOpd_opdOfByte _) (byteOfOpd_opdOfByte _) hb hx
theorem moviEnc_of_moviDec {o : MoviOps} (e : moviDec r = .ok o) : moviEnc o = bodyOf r := by
  simp only [moviDec, zero_bind, pure_ok] at e
  obtain ⟨ha, hb, rfl⟩ := e
  exact body_eq (byteOfOpd_opdOfByte _) ha hb rfl
theorem predEnc_of_predDec {o : PredOps} (e : predDec r = .ok o) : predEnc o = bodyOf r := by
  simp only [predDec, zero_bind, preg_bind, pure_ok] at e
  obtain ⟨d, hd, a, ha, b, hb, hx, rfl⟩ := e
  exact body_eq hd ha hb hx
theorem rngEnc_of_rngDec {o : RngOps} (e : rngDec r = .ok o) : rngEnc o = bodyOf r := by
  simp only [rngDec, zero_bind, pure_ok] at e
  obtain ⟨hx, rfl⟩ := e
  exact body_eq (byteOfOpd_opdOfByte _) (byteOfOpd_opdOfByte _) (byteOfOpd_opdOfByte _) hx
theorem capEnc_of_capDec {o : CapOps} (e : capDec r = .ok o) : capEnc o = bodyOf r := by
  simp only [capDec, zero_bind, creg_bind, pure_ok] at e
  obtain ⟨d, hd, a, ha, hx, rfl⟩ := e
  exact body_eq hd ha (byteOfOpd_opdOfByte _) hx
theorem memEnc_of_memDec {o : MemOps} (e : memDec r = .ok o) : memEnc o = bodyOf r := by
  simp only [memDec, zero_bind, creg_bind, pure_ok] at e
  obtain ⟨a, ha, z1, z2, rfl⟩ := e
  exact body_eq (byteOfOpd_opdOfByte _) ha (byteOfOpd_opdOfByte _)
    (by rw [z1, z2]; simp only [ofBool_getLsbD, extract_append, BitVec.extractLsb'_eq_self])
theorem sdefEnc_of_sdefDec {o : SdefOps} (e : sdefDec r = .ok o) : sdefEnc o = bodyOf r := by
  simp only [sdefDec, zero_bind, creg_bind, sreg_bind, pure_ok] at e
  obtain ⟨d, hd, a, ha, b, hb, z1, z2, rfl⟩ := e
  exact body_eq hd ha hb (by rw [z1, z2]; simp only [extract_append, BitVec.extractLsb'_eq_self])
theorem sdefwEnc_of_sdefwDec {o : SdefwOps} (e : sdefwDec r = .ok o) : sdefwEnc o = bodyOf r := by
  simp only [sdefwDec, zero_bind, creg_bind, sreg_bind, pure_ok] at e
  obtain ⟨d, hd, a, ha, b, hb, hx, rfl⟩ := e
  exact body_eq hd ha hb hx
theorem sdefkEnc_of_sdefkDec {o : SdefkOps} (e : sdefkDec r = .ok o) : sdefkEnc o = bodyOf r := by
  simp only [sdefkDec, zero_bind, creg_bind, sreg_bind, pure_ok] at e
  obtain ⟨d, hd, a, ha, z1, z2, rfl⟩ := e
  exact body_eq hd ha (byteOfOpd_opdOfByte _) (by rw [z1, z2]; simp only [extract_append, BitVec.extractLsb'_eq_self])
theorem sdefsEnc_of_sdefsDec {o : SdefsOps} (e : sdefsDec r = .ok o) : sdefsEnc o = bodyOf r := by
  simp only [sdefsDec, zero_bind, creg_bind, sreg_bind, pure_ok] at e
  obtain ⟨d, hd, a, ha, hb, hx, rfl⟩ := e
  exact body_eq hd ha hb hx
theorem sldEnc_of_sldDec {o : SldOps} (e : sldDec r = .ok o) : sldEnc o = bodyOf r := by
  simp only [sldDec, zero_bind, sreg_bind, lreg_bind, pure_ok] at e
  obtain ⟨d, hd, a, ha, hb, hx, rfl⟩ := e
  exact body_eq hd ha hb hx
theorem sstEnc_of_sstDec {o : SstOps} (e : sstDec r = .ok o) : sstEnc o = bodyOf r := by
  simp only [sstDec, zero_bind, sreg_bind, pure_ok] at e
  obtain ⟨d, hd, hb, hx, rfl⟩ := e
  exact body_eq hd (byteOfOpd_opdOfByte _) hb hx
theorem fenceEnc_of_fenceDec {o : FenceOps} (e : fenceDec r = .ok o) : fenceEnc o = bodyOf r := by
  simp only [fenceDec, zero_bind, preg_bind, pure_ok] at e
  obtain ⟨d, hd, ha, hb, z1, z2, rfl⟩ := e
  exact body_eq hd ha hb (by rw [z1, z2]; simp only [extract_append, BitVec.extractLsb'_eq_self])
theorem lineEnc_of_lineDec {o : LineOps} (e : lineDec r = .ok o) : lineEnc o = bodyOf r := by
  simp only [lineDec, zero_bind, creg_bind, pure_ok] at e
  obtain ⟨hd, a, ha, hb, z1, z2, rfl⟩ := e
  exact body_eq hd ha hb (by rw [z1, z2]; simp only [extract_append, BitVec.extractLsb'_eq_self])
theorem spEnc_of_spDec {o : SpOps} (e : spDec r = .ok o) : spEnc o = bodyOf r := by
  simp only [spDec, zero_bind, creg_bind, preg_bind, pure_ok] at e
  obtain ⟨d, hd, a, ha, hb, hx, rfl⟩ := e
  exact body_eq hd ha hb hx
theorem atomEnc_of_atomDec {o : AtomOps} (e : atomDec r = .ok o) : atomEnc o = bodyOf r := by
  simp only [atomDec, zero_bind, creg_bind, pure_ok] at e
  obtain ⟨d, hd, a, ha, z1, rfl⟩ := e
  exact body_eq hd ha (byteOfOpd_opdOfByte _)
    (by rw [z1]; simp only [byteOfOpd_opdOfByte, ofBool_getLsbD, extract_append, BitVec.extractLsb'_eq_self])
theorem redwEnc_of_redwDec {o : RedOps} (e : redwDec r = .ok o) : redwEnc o = bodyOf r := by
  simp only [redwDec, zero_bind, creg_bind, pure_ok] at e
  obtain ⟨hd, a, ha, z1, rfl⟩ := e
  exact body_eq hd ha (byteOfOpd_opdOfByte _) (by rw [z1]; simp only [extract_append, BitVec.extractLsb'_eq_self])
theorem stkPEnc_of_stkPDec {o : StkOps} (e : stkPDec r = .ok o) : stkPEnc o = bodyOf r := by
  simp only [stkPDec, zero_bind, creg_bind, preg_bind, pure_ok] at e
  obtain ⟨pd, hd, a, ha, z1, rfl⟩ := e
  exact body_eq hd ha (byteOfOpd_opdOfByte _)
    (by rw [z1]; simp only [byteOfOpd_opdOfByte, ofBool_getLsbD, extract_append, BitVec.extractLsb'_eq_self])
theorem stkCEnc_of_stkCDec {o : StkOps} (e : stkCDec r = .ok o) : stkCEnc o = bodyOf r := by
  simp only [stkCDec, zero_bind, creg_bind, pure_ok] at e
  obtain ⟨cd, hd, a, ha, z1, rfl⟩ := e
  exact body_eq hd ha (byteOfOpd_opdOfByte _)
    (by rw [z1]; simp only [byteOfOpd_opdOfByte, ofBool_getLsbD, extract_append, BitVec.extractLsb'_eq_self])
theorem phCEnc_of_phCDec {o : PhOps} (e : phCDec r = .ok o) : phCEnc o = bodyOf r := by
  simp only [phCDec, zero_bind, creg_bind, pure_ok] at e
  obtain ⟨cd, hd, a, ha, z1, rfl⟩ := e
  exact body_eq hd ha (byteOfOpd_opdOfByte _) (by rw [z1]; simp only [extract_append, BitVec.extractLsb'_eq_self])
theorem phPEnc_of_phPDec {o : PhOps} (e : phPDec r = .ok o) : phPEnc o = bodyOf r := by
  simp only [phPDec, zero_bind, creg_bind, preg_bind, pure_ok] at e
  obtain ⟨pd, hd, a, ha, z1, rfl⟩ := e
  exact body_eq hd ha (byteOfOpd_opdOfByte _) (by rw [z1]; simp only [extract_append, BitVec.extractLsb'_eq_self])
theorem evEnc_of_evDec {o : EvOps} (e : evDec r = .ok o) : evEnc o = bodyOf r := by
  simp only [evDec, zero_bind, creg_bind, pure_ok] at e
  obtain ⟨a, ha, hb, hx, rfl⟩ := e
  exact body_eq (byteOfOpd_opdOfByte _) ha hb hx
theorem engEnc_of_engDec {o : EngOps} (e : engDec r = .ok o) : engEnc o = bodyOf r := by
  simp only [engDec, creg_bind, pure_ok] at e
  obtain ⟨d, hd, a, ha, rfl⟩ := e
  exact body_eq hd ha (byteOfOpd_opdOfByte _) (by simp only [ofBool_getLsbD, extract_append, BitVec.extractLsb'_eq_self])
theorem qiEnc_of_qiDec {o : QOps} (e : qiDec r = .ok o) : qiEnc o = bodyOf r := by
  simp only [qiDec, zero_bind, creg_bind, pure_ok] at e
  obtain ⟨d, hd, hx, rfl⟩ := e
  exact body_eq hd (byteOfOpd_opdOfByte _) (byteOfOpd_opdOfByte _) hx
theorem fpEnc_of_fpDec {o : FpOps} (e : fpDec r = .ok o) : fpEnc o = bodyOf r := by
  simp only [fpDec, zero_bind, pure_ok] at e
  obtain ⟨z1, rfl⟩ := e
  exact body_eq (byteOfOpd_opdOfByte _) (byteOfOpd_opdOfByte _) (byteOfOpd_opdOfByte _)
    (by rw [z1]; simp only [byteOfOpd_opdOfByte, extract_append, BitVec.extractLsb'_eq_self])
theorem mgangEnc_of_mgangDec {o : MgangOps} (e : mgangDec r = .ok o) : mgangEnc o = bodyOf r := by
  simp only [mgangDec, zero_bind, pure_ok] at e
  obtain ⟨hd, ha, hb, rfl⟩ := e
  exact body_eq hd ha hb rfl
theorem matEnc_of_matDec {o : MatOps} (e : matDec r = .ok o) : matEnc o = bodyOf r := by
  simp only [matDec, zero_bind, pure_ok] at e
  obtain ⟨z1, rfl⟩ := e
  exact body_eq (byteOfOpd_opdOfByte _) (byteOfOpd_opdOfByte _) (byteOfOpd_opdOfByte _)
    (by rw [z1]; simp only [byteOfOpd_opdOfByte, ofBool_getLsbD, extract_append, BitVec.extractLsb'_eq_self])
theorem tileEnc_of_tileDec {o : TileOps} (e : tileDec r = .ok o) : tileEnc o = bodyOf r := by
  simp only [tileDec, zero_bind, pure_ok] at e
  obtain ⟨hb, hx, rfl⟩ := e
  exact body_eq (byteOfOpd_opdOfByte _) (byteOfOpd_opdOfByte _) hb hx
theorem wholdEnc_of_wholdDec {o : WholdOps} (e : wholdDec r = .ok o) : wholdEnc (r.x.extractLsb' 38 2) o = bodyOf r := by
  simp only [wholdDec, zero_bind, creg_bind, freg_bind, pure_ok] at e
  obtain ⟨d, hd, a, ha, z1, rfl⟩ := e
  exact body_eq hd ha (byteOfOpd_opdOfByte _)
    (by rw [z1]; simp only [byteOfOpd_opdOfByte, extract_append, BitVec.extractLsb'_eq_self])
theorem wfreeEnc_of_wfreeDec {o : WfreeOps} (e : wfreeDec r = .ok o) : wfreeEnc o = bodyOf r := by
  simp only [wfreeDec, zero_bind, creg_bind, preg_bind, pure_ok] at e
  obtain ⟨d, hd, a, ha, z1, z2, rfl⟩ := e
  exact body_eq hd ha (byteOfOpd_opdOfByte _) (by rw [z1, z2]; simp only [extract_append, BitVec.extractLsb'_eq_self])
theorem wdoneEnc_of_wdoneDec {o : WdoneOps} (e : wdoneDec r = .ok o) : wdoneEnc o = bodyOf r := by
  simp only [wdoneDec, zero_bind, creg_bind, preg_bind, pure_ok] at e
  obtain ⟨d, hd, a, ha, b, hb, z1, rfl⟩ := e
  exact body_eq hd ha hb (by rw [z1]; simp only [byteOfOpd_opdOfByte, extract_append, BitVec.extractLsb'_eq_self])
theorem wcellEnc_of_wcellDec {o : WcellOps} (e : wcellDec r = .ok o) : wcellEnc o = bodyOf r := by
  simp only [wcellDec, zero_bind, creg_bind, pure_ok] at e
  obtain ⟨d, hd, a, ha, z1, rfl⟩ := e
  exact body_eq hd ha (byteOfOpd_opdOfByte _)
    (by rw [z1]; simp only [byteOfOpd_opdOfByte, extract_append, BitVec.extractLsb'_eq_self])
theorem ctlrdEnc_of_ctlrdDec {o : CtlrdOps} (e : ctlrdDec r = .ok o) : ctlrdEnc o = bodyOf r := by
  simp only [ctlrdDec, zero_bind, creg_bind, pure_ok] at e
  obtain ⟨d, hd, ha, hb, z1, rfl⟩ := e
  exact body_eq hd ha hb (by rw [z1]; simp only [extract_append, BitVec.extractLsb'_eq_self])
theorem ctlwrEnc_of_ctlwrDec {o : CtlwrOps} (e : ctlwrDec r = .ok o) : ctlwrEnc o = bodyOf r := by
  simp only [ctlwrDec, zero_bind, pure_ok] at e
  obtain ⟨hd, ha, z1, rfl⟩ := e
  exact body_eq hd ha (byteOfOpd_opdOfByte _) (by rw [z1]; simp only [extract_append, BitVec.extractLsb'_eq_self])
theorem tlbEnc_of_tlbDec {o : TlbOps} (e : tlbDec r = .ok o) : tlbEnc (r.x.extractLsb' 0 2) o = bodyOf r := by
  simp only [tlbDec, zero_bind, creg_bind, preg_bind, pure_ok] at e
  obtain ⟨d, hd, a, ha, b, hb, c, hcx, z2, rfl⟩ := e
  exact body_eq hd ha hb (by rw [hcx, z2]; simp only [extract_append, BitVec.extractLsb'_eq_self])
theorem tlbinvEnc_of_tlbinvDec {o : TlbinvOps} (e : tlbinvDec r = .ok o) : tlbinvEnc o = bodyOf r := by
  simp only [tlbinvDec, zero_bind, creg_bind, preg_bind, pure_ok] at e
  obtain ⟨d, hd, a, ha, b, hb, c, hcx, z2, rfl⟩ := e
  exact body_eq hd ha hb (by rw [hcx, z2]; simp only [ofBool_getLsbD, extract_append, BitVec.extractLsb'_eq_self])
theorem tlbprobeEnc_of_tlbprobeDec {o : TlbprobeOps} (e : tlbprobeDec r = .ok o) : tlbprobeEnc o = bodyOf r := by
  simp only [tlbprobeDec, zero_bind, creg_bind, pure_ok] at e
  obtain ⟨d, hd, a, ha, b, hb, z1, rfl⟩ := e
  exact body_eq hd ha hb (by rw [z1]; simp only [ofBool_getLsbD, extract_append, BitVec.extractLsb'_eq_self])
theorem cflushEnc_of_cflushDec {o : CflushOps} (e : cflushDec r = .ok o) : cflushEnc o = bodyOf r := by
  simp only [cflushDec, zero_bind, preg_bind, pure_ok] at e
  obtain ⟨d, hd, ha, z1, rfl⟩ := e
  exact body_eq hd ha (byteOfOpd_opdOfByte _)
    (by rw [z1]; simp only [byteOfOpd_opdOfByte, extract_append, BitVec.extractLsb'_eq_self])
theorem hbeatEnc_of_hbeatDec {o : HbeatOps} (e : hbeatDec r = .ok o) : hbeatEnc o = bodyOf r := by
  simp only [hbeatDec, zero_bind, pure_ok] at e
  obtain ⟨hd, ha, hb, z1, rfl⟩ := e
  exact body_eq hd ha hb (by rw [z1]; simp only [extract_append, BitVec.extractLsb'_eq_self])
theorem idleEnc_of_idleDec {o : IdleOps} (e : idleDec r = .ok o) : idleEnc o = bodyOf r := by
  simp only [idleDec, zero_bind, preg_bind, pure_ok] at e
  obtain ⟨d, hd, ha, hb, z1, rfl⟩ := e
  exact body_eq hd ha hb (by rw [z1]; simp only [extract_append, BitVec.extractLsb'_eq_self])

/-! ### The rows of the map name an instruction's own word (R374) -/

theorem encode_of_codec {α : Type} {con : α → Instr} {dec : Raw → Except Reject α} {enc : α → Body} {mj : Byte} {mn : BitVec 4}
    {i : Instr} (inverse : ∀ {o}, dec r = .ok o → enc o = bodyOf r) (e : con <$> dec r = .ok i)
    (named : ∀ o, encode (con o) = word mj mn r.h (enc o)) (major : r.major.toNat = mj.toNat) (minor : r.minor.toNat = mn.toNat) :
    encode i = wordOfRaw r := by
  cases read : dec r with
  | error x => rw [read] at e; cases e
  | ok o =>
    rw [read] at e
    cases e
    rw [named, inverse read, ← BitVec.eq_of_toNat_eq major, ← BitVec.eq_of_toNat_eq minor]
    rfl
theorem encode_of_noneOp {mj : Byte} {mn : BitVec 4} {i j : Instr} (e : noneOp r j = .ok i)
    (named : encode j = word mj mn r.h ⟨0#8, 0#8, 0#8, 0#48⟩) (major : r.major.toNat = mj.toNat) (minor : r.minor.toNat = mn.toNat) :
    encode i = wordOfRaw r := by
  simp only [noneOp, zero_bind, pure_ok] at e
  obtain ⟨hd, ha, hb, hx, rfl⟩ := e
  rw [named, ← BitVec.eq_of_toNat_eq major, ← BitVec.eq_of_toNat_eq minor]
  rw [body_eq hd ha hb hx]
  rfl

/-- a mode that stands in X is the one the form writes there -/
theorem encode_of_mode {α : Type} {con : α → Instr} {dec : Raw → Except Reject α} {enc : BitVec 2 → α → Body} {mj : Byte} {mn : BitVec 4}
    {k : Nat} {m : BitVec 2} {o : α} (inverse : ∀ {o}, dec r = .ok o → enc (r.x.extractLsb' k 2) o = bodyOf r) (read : dec r = .ok o)
    (named : ∀ o, encode (con o) = word mj mn r.h (enc m o)) (mode : (r.x.extractLsb' k 2).toNat = m.toNat)
    (major : r.major.toNat = mj.toNat) (minor : r.minor.toNat = mn.toNat) : encode (con o) = wordOfRaw r := by
  rw [named, ← BitVec.eq_of_toNat_eq mode, inverse read, ← BitVec.eq_of_toNat_eq major, ← BitVec.eq_of_toNat_eq minor]
  rfl
variable {i : Instr}
theorem encode_of_whold (e : whold r = .ok i) (major : r.major.toNat = 0xE0) (minor : r.minor.toNat = 0) : encode i = wordOfRaw r := by
  unfold whold at e
  cases read : wholdDec r with
  | error x => rw [read] at e; cases e
  | ok o =>
    rw [read] at e
    change (match (r.x.extractLsb' 38 2).toNat with
      | 0 => _
      | 1 => _
      | 2 => _
      | _ => _) = _ at e
    split at e <;> cases e
    iterate 3 · next mode => exact encode_of_mode wholdEnc_of_wholdDec read (fun _ => rfl) mode major minor
theorem mode_of_none {m : BitVec 2} (not0 : m.toNat ≠ 0) (not1 : m.toNat ≠ 1) (not2 : m.toNat ≠ 2) : m.toNat = (3 : BitVec 2).toNat := by
  revert m; decide
theorem encode_of_tlbw (e : tlbw r = .ok i) (major : r.major.toNat = 0xF2) (minor : r.minor.toNat = 0) : encode i = wordOfRaw r := by
  unfold tlbw at e
  cases read : tlbDec r with
  | error x => rw [read] at e; cases e
  | ok o =>
    rw [read] at e
    change (match (r.x.extractLsb' 0 2).toNat with
      | 0 => _
      | 1 => _
      | 2 => _
      | _ => _) = _ at e
    split at e <;> cases e
    iterate 3 · next mode => exact encode_of_mode tlbEnc_of_tlbDec read (fun _ => rfl) mode major minor
    · next not0 not1 not2 =>
      exact encode_of_mode tlbEnc_of_tlbDec read (fun _ => rfl) (mode_of_none not0 not1 not2) major minor
theorem encode_of_parseControl (e : parseControl r = .ok i) : encode i = wordOfRaw r := by
  unfold parseControl at e
  split at e
  · next major minor => exact encode_of_noneOp e rfl major minor
  · next major minor => exact encode_of_codec brEnc_of_brDec e (fun _ => rfl) major minor
  · next major minor => exact encode_of_codec brxEnc_of_brxDec e (fun _ => rfl) major minor
  · next major minor => exact encode_of_codec callEnc_of_callDec e (fun _ => rfl) major minor
  · next major minor => exact encode_of_codec callxEnc_of_callxDec e (fun _ => rfl) major minor
  · next major minor => exact encode_of_codec retEnc_of_retDec e (fun _ => rfl) major minor
  · next major minor => exact encode_of_codec callEnc_of_callDec e (fun _ => rfl) major minor
  iterate 4 · next major minor => exact encode_of_noneOp e rfl major minor
  · next major minor => exact encode_of_codec trapEnc_of_trapDec e (fun _ => rfl) major minor
  · next major minor => exact encode_of_codec sigEnc_of_sigDec e (fun _ => rfl) major minor
  · cases e
theorem encode_of_parseInteger (e : parseInteger r = .ok i) : encode i = wordOfRaw r := by
  unfold parseInteger at e
  split at e
  iterate 23 · next major minor => exact encode_of_codec intEnc_of_intDec e (fun _ => rfl) major minor
  · cases e
theorem encode_of_parseBits (e : parseBits r = .ok i) : encode i = wordOfRaw r := by
  unfold parseBits at e
  split at e
  iterate 8 · next major minor => exact encode_of_codec intEnc_of_intDec e (fun _ => rfl) major minor
  · next major minor => exact encode_of_codec selEnc_of_selDec e (fun _ => rfl) major minor
  · next major minor => exact encode_of_codec movEnc_of_movDec e (fun _ => rfl) major minor
  iterate 2 · next major minor => exact encode_of_codec moviEnc_of_moviDec e (fun _ => rfl) major minor
  · next major minor => exact encode_of_codec cmpEnc_of_cmpDec e (fun _ => rfl) major minor
  iterate 4 · next major minor => exact encode_of_codec predEnc_of_predDec e (fun _ => rfl) major minor
  · next major minor => exact encode_of_codec rngEnc_of_rngDec e (fun _ => rfl) major minor
  · cases e
theorem encode_of_parseCapability (e : parseCapability r = .ok i) : encode i = wordOfRaw r := by
  unfold parseCapability at e
  split at e
  iterate 10 · next major minor => exact encode_of_codec capEnc_of_capDec e (fun _ => rfl) major minor
  · cases e
theorem encode_of_parseMemory (e : parseMemory r = .ok i) : encode i = wordOfRaw r := by
  unfold parseMemory at e
  split at e
  iterate 7 · next major minor => exact encode_of_codec memEnc_of_memDec e (fun _ => rfl) major minor
  · cases e
theorem encode_of_parseStream (e : parseStream r = .ok i) : encode i = wordOfRaw r := by
  unfold parseStream at e
  split at e
  · next major minor => exact encode_of_codec sdefEnc_of_sdefDec e (fun _ => rfl) major minor
  · next major minor => exact encode_of_codec sdefwEnc_of_sdefwDec e (fun _ => rfl) major minor
  · next major minor => exact encode_of_codec sdefkEnc_of_sdefkDec e (fun _ => rfl) major minor
  · next major minor => exact encode_of_codec sdefsEnc_of_sdefsDec e (fun _ => rfl) major minor
  · next major minor => exact encode_of_codec sldEnc_of_sldDec e (fun _ => rfl) major minor
  · next major minor => exact encode_of_codec sstEnc_of_sstDec e (fun _ => rfl) major minor
  · next major minor => exact encode_of_codec sldEnc_of_sldDec e (fun _ => rfl) major minor
  · next major minor => exact encode_of_codec fenceEnc_of_fenceDec e (fun _ => rfl) major minor
  iterate 3 · next major minor => exact encode_of_codec lineEnc_of_lineDec e (fun _ => rfl) major minor
  iterate 2 · next major minor => exact encode_of_codec spEnc_of_spDec e (fun _ => rfl) major minor
  · cases e
theorem encode_of_parseAtomic (e : parseAtomic r = .ok i) : encode i = wordOfRaw r := by
  unfold parseAtomic at e
  split at e
  iterate 11 · next major minor => exact encode_of_codec atomEnc_of_atomDec e (fun _ => rfl) major minor
  iterate 2 · next major minor => exact encode_of_codec redwEnc_of_redwDec e (fun _ => rfl) major minor
  iterate 3 · next major minor => exact encode_of_codec stkPEnc_of_stkPDec e (fun _ => rfl) major minor
  iterate 2 · next major minor => exact encode_of_codec stkCEnc_of_stkCDec e (fun _ => rfl) major minor
  · cases e
theorem encode_of_parseSync (e : parseSync r = .ok i) : encode i = wordOfRaw r := by
  unfold parseSync at e
  split at e
  iterate 5 · next major minor => exact encode_of_codec phCEnc_of_phCDec e (fun _ => rfl) major minor
  · next major minor => exact encode_of_codec phPEnc_of_phPDec e (fun _ => rfl) major minor
  · next major minor => exact encode_of_codec phCEnc_of_phCDec e (fun _ => rfl) major minor
  iterate 3 · next major minor => exact encode_of_codec evEnc_of_evDec e (fun _ => rfl) major minor
  iterate 2 · next major minor => exact encode_of_codec engEnc_of_engDec e (fun _ => rfl) major minor
  iterate 2 · next major minor => exact encode_of_codec qiEnc_of_qiDec e (fun _ => rfl) major minor
  · cases e
theorem encode_of_parseFloat (e : parseFloat r = .ok i) : encode i = wordOfRaw r := by
  unfold parseFloat at e
  split at e
  iterate 21 · next major minor => exact encode_of_codec fpEnc_of_fpDec e (fun _ => rfl) major minor
  · cases e
theorem encode_of_parseWide (e : parseWide r = .ok i) : encode i = wordOfRaw r := by
  unfold parseWide at e
  split at e
  iterate 16 · next major minor => exact encode_of_codec fpEnc_of_fpDec e (fun _ => rfl) major minor
  · cases e
theorem encode_of_parseReduce (e : parseReduce r = .ok i) : encode i = wordOfRaw r := by
  unfold parseReduce at e
  split at e
  iterate 8 · next major minor => exact encode_of_codec fpEnc_of_fpDec e (fun _ => rfl) major minor
  · cases e
theorem encode_of_parseMatrix (e : parseMatrix r = .ok i) : encode i = wordOfRaw r := by
  unfold parseMatrix at e
  split at e
  · next major minor => exact encode_of_codec mgangEnc_of_mgangDec e (fun _ => rfl) major minor
  iterate 2 · next major minor => exact encode_of_codec matEnc_of_matDec e (fun _ => rfl) major minor
  iterate 3 · next major minor => exact encode_of_codec tileEnc_of_tileDec e (fun _ => rfl) major minor
  iterate 3 · next major minor => exact encode_of_codec matEnc_of_matDec e (fun _ => rfl) major minor
  iterate 2 · next major minor => exact encode_of_codec tileEnc_of_tileDec e (fun _ => rfl) major minor
  · cases e
theorem encode_of_parseEngine (e : parseEngine r = .ok i) : encode i = wordOfRaw r := by
  unfold parseEngine at e
  split at e
  iterate 24 · next major minor => exact encode_of_codec engEnc_of_engDec e (fun _ => rfl) major minor
  · cases e
theorem encode_of_parseValidity (e : parseValidity r = .ok i) : encode i = wordOfRaw r := by
  unfold parseValidity at e
  split at e
  · next major minor => exact encode_of_codec wfreeEnc_of_wfreeDec e (fun _ => rfl) major minor
  · next major minor => exact encode_of_codec wdoneEnc_of_wdoneDec e (fun _ => rfl) major minor
  · next major minor => exact encode_of_codec wcellEnc_of_wcellDec e (fun _ => rfl) major minor
  · next major minor => exact encode_of_codec engEnc_of_engDec e (fun _ => rfl) major minor
  · next major minor => exact encode_of_whold e major minor
  · cases e
theorem encode_of_parseSystem (e : parseSystem r = .ok i) : encode i = wordOfRaw r := by
  unfold parseSystem at e
  split at e
  · next major minor => exact encode_of_codec ctlrdEnc_of_ctlrdDec e (fun _ => rfl) major minor
  · next major minor => exact encode_of_codec ctlwrEnc_of_ctlwrDec e (fun _ => rfl) major minor
  · next major minor => exact encode_of_codec tlbinvEnc_of_tlbinvDec e (fun _ => rfl) major minor
  · next major minor => exact encode_of_codec tlbprobeEnc_of_tlbprobeDec e (fun _ => rfl) major minor
  · next major minor => exact encode_of_codec cflushEnc_of_cflushDec e (fun _ => rfl) major minor
  · next major minor => exact encode_of_noneOp e rfl major minor
  · next major minor => exact encode_of_codec hbeatEnc_of_hbeatDec e (fun _ => rfl) major minor
  · next major minor => exact encode_of_codec idleEnc_of_idleDec e (fun _ => rfl) major minor
  · next major minor => exact encode_of_tlbw e major minor
  · cases e
/-- R374: an instruction that a word's fields name has that word. -/
theorem encode_of_parse (e : parse r = .ok i) : encode i = wordOfRaw r := by
  unfold parse at e
  split at e
  · exact encode_of_parseControl e
  · exact encode_of_parseInteger e
  · exact encode_of_parseBits e
  · exact encode_of_parseCapability e
  · exact encode_of_parseMemory e
  · exact encode_of_parseStream e
  · exact encode_of_parseAtomic e
  · exact encode_of_parseSync e
  · exact encode_of_parseFloat e
  · exact encode_of_parseWide e
  · exact encode_of_parseReduce e
  · exact encode_of_parseMatrix e
  · exact encode_of_parseEngine e
  · exact encode_of_parseValidity e
  · exact encode_of_parseSystem e
  · cases e
end

theorem parse_of_decode {w : IWord} {i : Instr} (e : decode w = .ok i) : parse (rawOfWord w) = .ok i := by
  unfold decode at e
  split at e
  · cases e
  · next parsed =>
    split at e
    · exact parsed.trans e
    · cases e
/-- Settles O4: the fields of a word, read by a codec, are those the codec writes. -/
theorem encodeOfDecode : Obligations.EncodeOfDecode := fun w _ e =>
  (encode_of_parse (parse_of_decode e)).trans (wordOfRaw_rawOfWord w)
end Sys2Proof.Proofs.Decoding

/-! ## What every word shares: a step, its frame, a false guard (R285, R288, R361, R363, R372) -/

namespace Sys2Proof.Proofs.Words
open Sys2Proof.Machine Sys2Proof.Claims Sys2Proof.Laws.State Sys2Proof.Laws.Ops Sys2Proof.Proofs.Device

/-! ### A step -/

section
variable {s s0 s1 : State} {k : Nat} {t : Thread} {bs : List Byte}
variable (hc : threadOf s0 k = some t) (hst : t.fw.stopped = false) (hsafe : t.safe = none) (hfin : hasCommitted s0 t = false)
  (hcap : checkCap t.code [0] permX t.pc 12 = .ok ()) (hf : fetchWord s0 k t t.pc = .got bs s1)
include hc hst hsafe hfin hcap hf

theorem accessReady_of_word (hp : (wordOfBytes bs).getLsbD 82 = false) :
    accessReady s0 k = routeWord s1 k t t.pc (wordOfBytes bs) 0 := by
  simp only [accessReady, accessTurn, hc, hst, hsafe, hfin, hcap, hf, hp, Option.isSome_none, Bool.or_self, Bool.false_eq_true, if_false]
theorem accessReady_of_masked {ms : List Byte} {s2 : State} (hp : (wordOfBytes bs).getLsbD 82 = true)
    (hcap' : checkCap t.code [0] permX (t.pc + 12) 12 = .ok ()) (hf' : fetchWord s1 k t (t.pc + 12) = .got ms s2) :
    accessReady s0 k = routeWord s2 k t t.pc (wordOfBytes bs) (wordOfBytes ms) := by
  simp only [accessReady, accessTurn, hc, hst, hsafe, hfin, hcap, hf, hp, hcap', hf', Option.isSome_none, Bool.or_self, Bool.false_eq_true,
    if_false, if_true]
end

theorem routeWord_access {s : State} {k : Nat} {t : Thread} {pc : W64} {w m : IWord} {i : Instr} (hs : w.getLsbD 83 = true)
    (hd : decode w = .ok i) (hm : (agentMay t i && mustWait s k t i) = false) :
    routeWord s k t pc w m = .run i { s with cur := atWord k pc w m } := by
  simp only [routeWord, hs, hd, hm, if_true, Bool.false_eq_true, if_false, atWord]
theorem routeWord_execute {s : State} {k : Nat} {t : Thread} {pc : W64} {w m : IWord} (hs : w.getLsbD 83 = false)
    (hl : sliceWords t.slice < 256) : routeWord s k t pc w m = .stay (setThreadOf s k (pushSlice s t pc w m)) := by
  have hl' : ¬sliceWords t.slice ≥ sliceCap := Nat.not_le.2 hl
  simp only [routeWord, hs, Bool.false_eq_true, if_false, hl']
theorem executeTurn_word {s : State} {k : Nat} {t : Thread} {pc : W64} {w : IWord} {r : List SliceEntry} {i : Instr}
    (hc : threadOf s k = some t) (hst : t.fw.stopped = false) (hl : t.slice = .word pc w :: r) (hd : decode w = .ok i) :
    executeTurn s k = .run i { s with cur := atWord k pc w 0 } := by
  simp [executeTurn, hc, hst, hl, hd, atWord]
theorem step_of_run {s s' : State} {i : Instr} (h : nextReady s = .run i s') : step s = exec i s' := by rw [step, h]
theorem step_of_stay {s s' : State} (h : nextReady s = .stay s') : step s = .next s' := by rw [step, h]

/-- Settles O1, by what the turn of each half and an event's turn come to. -/
theorem stepRunsTheWord : Obligations.StepRunsTheWord := by
  refine ⟨?access, ?buffer, ?execute, ?event⟩
  case access =>
    intro s k s0 t bs s1 i hn hc hst hsafe hfin hcap hf hs hd
    have hr : nextReady s = accessReady s0 k := nextReady_of_nextTurn hn
    constructor
    · intro hp hm
      exact step_of_run (by rw [hr, accessReady_of_word hc hst hsafe hfin hcap hf hp, routeWord_access hs hd hm])
    · intro ms s2 hp hcap' hf' hm
      exact step_of_run (by rw [hr, accessReady_of_masked hc hst hsafe hfin hcap hf hp hcap' hf', routeWord_access hs hd hm])
  case buffer =>
    intro s k s0 t bs s1 hn hc hst hsafe hfin hcap hf hs hp hl
    have hr : nextReady s = accessReady s0 k := nextReady_of_nextTurn hn
    have hpush : pushSlice s1 t t.pc (wordOfBytes bs) 0 = sigStep { t with pc := t.pc + 12, slice := t.slice ++ [.word t.pc (wordOfBytes bs)] } (wordOfBytes bs) := by
      simp only [pushSlice, hp, Bool.false_and, Bool.false_eq_true, if_false]
    exact step_of_stay (by rw [hr, accessReady_of_word hc hst hsafe hfin hcap hf hp, routeWord_execute hs hl, hpush])
  case execute =>
    intro s k s0 t pc w r i hn hc hst hl hd
    exact step_of_run ((nextReady_of_nextTurn hn).trans (executeTurn_word hc hst hl hd))
  case event =>
    intro s i a s0 hn
    exact step_of_run (nextReady_of_nextTurn hn)

/-! ### Words of the spec -/

/-- a word an instruction is written as decodes to it -/
theorem decode_of_encode {i : Instr} {w : IWord} {h : Hdr} (hh : Instr.hdr i = some h) (hw : i.wf = true) (he : encode i = w) :
    decode w = .ok i := he ▸ Encoding.decodeOfEncode i h hh hw

/-- Settles O2, since each of the words is what its instruction is written as. -/
theorem specWordsDecode : Obligations.SpecWordsDecode :=
  ⟨decode_of_encode rfl (by decide) (by decide), decode_of_encode rfl (by decide) (by decide), decode_of_encode rfl (by decide) (by decide),
   decode_of_encode rfl (by decide) (by decide), decode_of_encode rfl (by decide) (by decide), decode_of_encode rfl (by decide) (by decide),
   decode_of_encode rfl (by decide) (by decide), decode_of_encode rfl (by decide) (by decide), decode_of_encode rfl (by decide) (by decide)⟩

/-! ### The frame of a word that is done -/

theorem core_setCur_self (s : State) (t : Thread) : Machine.core (setCur s t) s.cur.core = { Machine.core s s.cur.core with thread := some t } :=
  core_setCore_self ..
theorem onlyThread_setCur (s : State) (t : Thread) : onlyThread s (setCur s t) :=
  ⟨fun _ hk => core_setCore_ne _ _ hk, ⟨_, core_setCur_self s t⟩, rfl⟩

/-- what a thread keeps whatever its word retires to -/
def retireKeeps (t u : Thread) : Prop :=
  u.regs.c = t.regs.c ∧ u.regs.p = t.regs.p ∧ u.regs.f = t.regs.f ∧ u.regs.m = t.regs.m ∧ u.regs.l = t.regs.l ∧
    u.regs.d = t.regs.d ∧ u.regs.xq = t.regs.xq ∧ u.regs.aq = t.regs.aq ∧ u.regs.fpmode = t.regs.fpmode ∧
    u.regs.evc = t.regs.evc ∧ u.fw = t.fw ∧ u.opn = t.opn ∧ u.id = t.id
/-- a safe point touches only the overrun count and the mark of a firing that stops -/
theorem passSafe_eq (s : State) (t : Thread) (m : IWord) :
    passSafe s t m = { t with overran := (passSafe s t m).overran, safe := (passSafe s t m).safe } := by
  simp only [passSafe]; split <;> split <;> rfl
theorem retireKeeps_passSafe (s : State) (t : Thread) (m : IWord) : retireKeeps t (passSafe s t m) := by
  rw [passSafe_eq]; exact ⟨rfl, rfl, rfl, rfl, rfl, rfl, rfl, rfl, rfl, rfl, rfl, rfl, rfl⟩
/-- stream definitions that take effect change the streams and the slice buffer alone -/
theorem retireKeeps_applyDefs (t : Thread) (l : List SliceEntry) : retireKeeps t (applyDefs t l) ∧ (applyDefs t l).pc = t.pc := by
  induction t, l using applyDefs.induct with
  | case1 t n d r ih => exact ih
  | case2 t l hl =>
    rw [applyDefs.eq_def]
    split
    · exact absurd rfl (hl _ _ _)
    · exact ⟨⟨rfl, rfl, rfl, rfl, rfl, rfl, rfl, rfl, rfl, rfl, rfl, rfl, rfl⟩, rfl⟩
/-- an access word moves the PC and leaves the slice buffer and the streams -/
theorem retireTo_access {h : Hdr} (hs : h.s = true) (pc : W64) (s : State) (t : Thread) :
    retireKeeps t (retireTo h pc s t) ∧ (retireTo h pc s t).pc = pc ∧ (retireTo h pc s t).slice = t.slice ∧
      (retireTo h pc s t).regs.s = t.regs.s := by
  simp only [retireTo, hs, if_true]
  split
  · refine ⟨retireKeeps_passSafe s (sigStep { t with pc := pc, blockA := .none } s.cur.word) s.cur.mask, ?_⟩
    rw [passSafe_eq]; exact ⟨rfl, rfl, rfl⟩
  · exact ⟨⟨rfl, rfl, rfl, rfl, rfl, rfl, rfl, rfl, rfl, rfl, rfl, rfl, rfl⟩, rfl, rfl, rfl⟩
/-- an execute word leaves the PC -/
theorem retireTo_execute {h : Hdr} (hs : h.s = false) (pc : W64) (s : State) (t : Thread) :
    retireKeeps t (retireTo h pc s t) ∧ (retireTo h pc s t).pc = t.pc := by
  simp only [retireTo, hs, Bool.false_eq_true, if_false, popSlice]
  exact retireKeeps_applyDefs { t with blockE := .none } _

/-- Settles O7, by how an access word and an execute word retire. -/
theorem doneWordFrame : Obligations.DoneWordFrame := by
  intro h s t
  have keep : retireKeeps t (retireTo h (succPc h s.cur.pc) (setCur s t) t) := by
    cases hs : h.s with
    | true => exact (retireTo_access hs ..).1
    | false => exact (retireTo_execute hs ..).1
  obtain ⟨hc, hp, hf, hm, hl, hd, hxq, haq, hfp, hev, hfw, hopn, hid⟩ := keep
  refine ⟨onlyThread_setCur .., rfl, fun _ => rfl, _, by simp [doneWith], hc, hp, hf, hm, hl, hd, hxq, haq, hfp, hev, hfw, hopn, hid, ?_, ?_⟩
  · exact fun hs => (retireTo_access hs ..).2
  · exact fun hs => (retireTo_execute hs ..).2

/-! ### A false guard -/

/-- the thread put back as it stands retires as it would from the state -/
theorem doneWith_self {h : Hdr} {s : State} {t : Thread} (hc : curThread s = some t) :
    retireCur h (succPc h s.cur.pc) s = doneWith h s t := by
  simp only [retireCur, hc, doneWith, retireTo_setCur_self hc rfl]


theorem runAgent_of_may {h : Hdr} {i : Instr} {f : Thread → State → Res} {s : State} {t : Thread} (hc : curThread s = some t)
    (hm : agentMay t i = true) : runAgent h i f s = runState h f s := by
  simp only [runAgent, hc, hm, if_true]
section
variable {h : Hdr} {s : State} {t : Thread} (hc : curThread s = some t) (hg : guardTrue h t = false)
include hc hg

/-- an effect under a false guard only retires the word; the forms below are those the instructions are written in -/
theorem runState_guardFalse {f : Thread → State → Res} : runState h f s = .next (doneWith h s t) := by
  rw [runState_false hc hg, doneWith_self hc]
theorem runThread_guardFalse {f : Thread → Except Stop Thread} : runThread h f s = .next (doneWith h s t) := runState_guardFalse hc hg
theorem runM_guardFalse {f : Who → Thread → AM Thread} : runM h f s = .next (doneWith h s t) := runState_guardFalse hc hg
theorem kilnIssue_guardFalse {i : Instr} {o : EngOps} {p : BitVec 7} {b : Thread → Except Stop Unit} :
    kilnIssue h i o p b s = .next (doneWith h s t) := runState_guardFalse hc hg
theorem bankRun_guardFalse {i : Instr} {o : EngOps} {p : BitVec 7} {n : List Need} : bankRun h i o p n s = .next (doneWith h s t) :=
  runState_guardFalse hc hg
theorem scribeIssue_guardFalse {i : Instr} {o : EngOps} {p : BitVec 7} : scribeIssue h i o p s = .next (doneWith h s t) :=
  runState_guardFalse hc hg
theorem wideIssue_guardFalse {i : Instr} (hf : (wForm i).isSome = true) : wideIssue h i s = .next (doneWith h s t) := by
  obtain ⟨f, hf⟩ := Option.isSome_iff_exists.1 hf
  simp only [wideIssue, hf, runState_guardFalse hc hg]
theorem runAgent_guardFalse {i : Instr} {f : Thread → State → Res} (hm : agentMay t i = true) :
    runAgent h i f s = .next (doneWith h s t) := by
  rw [runAgent_of_may hc hm, runState_guardFalse hc hg]
end

/-- Settles O8, since every instruction runs its effect under its guard. -/
theorem falseGuardRetires : Obligations.FalseGuardRetires := by
  intro i h s t hh _ hc hm hg
  cases i with
  | nop | br | brx | call | callx | ret | loop | finCommit | finAgain | finAbort | yield | trap | sig | stkinit | stktake | stkgive
  | stkreadApprox | stkreadExact | phreg | phdrop | phsig | phwait | phsw | phexp | phgather | evwait | evpop | evpeek | send
  | withdraw | qpeek | qcnt | mgang | mmul | mgrp | mld | mst | mdrain | mdrainAdd | mdrainAddOrd | mstat | cpy | cpy2d | cprot
  | cpfill | raise | rebind | wholdWithin | wholdBefore | wholdAfter | wfree | wdone | wcell =>
    cases hh; unfold exec; exact runState_guardFalse hc hg
  | add | sub | mul | mulh | mulhn | div | divn | rem | remn | and | or | xor | andn | shl | shr | sra | rotr | min | max | minn
  | maxn | abs | neg | clz | ctz | popc | brev | bswp | extr | extrn | ins | sel | mov | movi | moviHigh | cmp | pand | por | pxor
  | pnot | rngx | csetb | csetp | cadd | cgetb | cgetl | cgetp | cgett | cclr | cseal | cunseal | fadd | fsub | fmul | fma | fms
  | fnma | fnms | fdiv | fsqrt | frsqe | frcpe | fmin | fmax | fabs | fneg | fcpsgn | fcmp | fclass | fcvt | fscalb | fexpo | mzero
  | mcopy =>
    cases hh; exact runThread_guardFalse hc hg
  | ld | ldc | st | stc | lda | str | pref | sdef | sdefw | sdefk | sdefs | sld | sst | srd | fence | clean | inval | flush | spalloc
  | spfree | aadd | aand | aor | axor | amin | amax | aminn | amaxn | aswap | acas | afadd | radd | rclr =>
    cases hh; exact runM_guardFalse hc hg
  | vadd | vsub | vmul | vfma | vmax | vmin | vabs | vexp2 | vrsqe | vrcpe | vcmp | vsel | vfill | vcopy | vgather | vscatter | vcvt
  | vqnt | vamax | vsum | vdot | vdelta | vrope | vlse =>
    cases hh; unfold exec; refine wideIssue_guardFalse hc hg ?_; rfl
  | kvapp | kvseal | kvpatch | kvfork | kvtrunc | kvstat | kvjopen | kvjmark | kvjundo | kvjclose =>
    cases hh; exact kilnIssue_guardFalse hc hg
  | bkadd | bkaxpy | bkgemv | bkzero => cases hh; exact bankRun_guardFalse hc hg
  | edins | eddel | edrep | settle | wmark => cases hh; exact scribeIssue_guardFalse hc hg
  | ctlrd | ctlwr | tlbwr | tlbwrFill | tlbwrFault | tlbwrPeer | tlbinv | tlbprobe | cflush | rett | hbeat | idle =>
    cases hh; exact runAgent_guardFalse hc hg hm
  | _ => cases hh

end Sys2Proof.Proofs.Words

/-! ## What sources read and destinations take (R286-R291, R366, R367, R387, R388) -/

namespace Sys2Proof.Proofs.Operands
open Sys2Proof.Machine Sys2Proof.Claims Sys2Proof.Laws.State

/-! ### Sources -/

theorem readW_of_read {t u : Thread} {o : Opd} {v : W128} (h : readOpd t o = .ok (v, u)) : readW t o = .ok (v.setWidth 64, u) := by
  simp only [readW, h]
theorem readW_of_stop {t : Thread} {o : Opd} {e : Stop} (h : readOpd t o = .error e) : readW t o = .error e := by
  simp only [readW, h]
theorem setWidth_low128 (b : W192) : (b.extractLsb' 0 128).setWidth 64 = b.extractLsb' 0 64 := by
  rw [← BitVec.setWidth_eq_extractLsb' (by decide), ← BitVec.setWidth_eq_extractLsb' (by decide), BitVec.setWidth_setWidth_of_le _ (by decide)]
theorem readW_c (t : Thread) (n : BitVec 6) : readW t (.c n) = .ok (getW t n, t) := by
  rw [readW_of_read rfl, setWidth_low128]; rfl
theorem setWidth_ofInt {v w : Nat} (x : Int) (h : v ≤ w) : (BitVec.ofInt w x).setWidth v = BitVec.ofInt v x := by
  have dvd : ((2 ^ v : Nat) : Int) ∣ ((2 ^ w : Nat) : Int) := Int.natCast_dvd_natCast.2 (Nat.pow_dvd_pow 2 h)
  apply BitVec.eq_of_toNat_eq
  have hw := Int.emod_nonneg x (show ((2 ^ w : Nat) : Int) ≠ 0 by positivity)
  have hv := Int.emod_nonneg x (show ((2 ^ v : Nat) : Int) ≠ 0 by positivity)
  simp only [BitVec.toNat_setWidth, BitVec.toNat_ofInt]
  apply Int.ofNat_inj.1
  rw [Int.natCast_mod, Int.toNat_of_nonneg hw, Int.toNat_of_nonneg hv, Int.emod_emod_of_dvd _ dvd]
theorem readW_imm (t : Thread) (v : BitVec 7) : readW t (.imm v) = .ok (BitVec.ofInt 64 (immOf v), t) := by
  rw [readW_of_read rfl, setWidth_ofInt _ (by decide)]
theorem getW_eq (t : Thread) (n : BitVec 6) :
    getW t n = if n = 0 then 0 else (t.regs.c[n.toNat]'n.isLt).bits.setWidth 64 := by
  simp only [getW, getC]
  split
  · rfl
  · exact (BitVec.setWidth_eq_extractLsb' (by decide)).symm
theorem setWidth_ofNat64 (n : Nat) : (BitVec.ofNat 128 n).setWidth 64 = BitVec.ofNat 64 n := by
  apply BitVec.eq_of_toNat_eq; simp only [BitVec.toNat_setWidth, BitVec.toNat_ofNat]; omega

section
variable {t : Thread}
theorem readOpd_l {n : BitVec 2} {v : W128} {r : List W128} (h : getL t n = v :: r) : readOpd t (.l n) = .ok (v, setL t n r) := by
  simp only [readOpd, popQueue, h]
theorem readOpd_l_empty {n : BitVec 2} (h : getL t n = []) : readOpd t (.l n) = .error .wait := by
  simp only [readOpd, popQueue, h]
theorem readOpd_d {n : BitVec 1} {v : W128} {r : List W128} (h : getD t n = v :: r) : readOpd t (.d n) = .ok (v, setD t n r) := by
  simp only [readOpd, popQueue, h]
theorem readOpd_d_empty {n : BitVec 1} (h : getD t n = []) : readOpd t (.d n) = .error .wait := by
  simp only [readOpd, popQueue, h]
theorem readOpd_xq {v : W64} {r : List W64} (h : t.regs.xq = v :: r) : readOpd t .xq = .ok (v.setWidth 128, setXq t r) := by
  simp only [readOpd, popQueue, h]
theorem readOpd_xq_empty (h : t.regs.xq = []) : readOpd t .xq = .error .wait := by
  simp only [readOpd, popQueue, h]
theorem readOpd_aq {v : W64} {r : List W64} (h : t.regs.aq = v :: r) : readOpd t .aq = .ok (v.setWidth 128, setAq t r) := by
  simp only [readOpd, popQueue, h]
theorem readOpd_aq_empty (h : t.regs.aq = []) : readOpd t .aq = .error .wait := by
  simp only [readOpd, popQueue, h]
theorem readOpd_f {n : BitVec 4} {v : W128} (h : getF t n = .full v) : readOpd t (.f n) = .ok (v, setF t n .empty) := by
  simp only [readOpd, h]
/-- position 0 of a gang, or a firing that is none, has the batch queues (R187) -/
theorem ownsQueues (h : t.id.gang = false ∨ t.id.pos = 0) : (t.id.gang && t.id.pos != 0) = false := by
  rcases h with h | h <;> simp [h]
theorem readOpd_i {n : BitVec 3} (hg : t.id.gang = false ∨ t.id.pos = 0) (hu : (getInQ t n).used = true)
    (hp : (getInQ t n).pos + 8 ≤ (getInQ t n).bytes.length) :
    readOpd t (.i n) = .ok (BitVec.ofNat 128 (leNat (((getInQ t n).bytes.drop (getInQ t n).pos).take 8)),
      setInQ t n { getInQ t n with pos := (getInQ t n).pos + 8 }) := by
  simp only [readOpd, popQueue, ownsQueues hg, hu, hp, decide_true, Bool.and_self, if_true, Bool.false_eq_true, if_false]
theorem readOpd_i_spent {n : BitVec 3} (hg : t.id.gang = false ∨ t.id.pos = 0)
    (h : ¬((getInQ t n).used = true ∧ (getInQ t n).pos + 8 ≤ (getInQ t n).bytes.length)) :
    readOpd t (.i n) = .error (capFault .bounds 0) := by
  simp only [readOpd, popQueue, ownsQueues hg, Bool.and_eq_true, decide_eq_true_eq, h, Bool.false_eq_true, if_false]
end

theorem setWidth_up_down (v : W64) : (v.setWidth 128).setWidth 64 = v := by
  rw [BitVec.setWidth_setWidth_of_le _ (by decide), BitVec.setWidth_eq]

theorem sourceReads : SourceReads := by
  refine ⟨?c, ?imm, ?l, ?d, ?xq, ?aq, ?f, ?i, ?l0, ?d0, ?xq0, ?aq0⟩
  case c => intro t n; rw [readW_c, getW_eq]
  case imm => exact readW_imm
  case l => intro t n v r h; exact readW_of_read (readOpd_l h)
  case d => intro t n v r h; exact readW_of_read (readOpd_d h)
  case xq => intro t v r h; rw [readW_of_read (readOpd_xq h), setWidth_up_down]
  case aq => intro t v r h; rw [readW_of_read (readOpd_aq h), setWidth_up_down]
  case f => intro t n v h; exact readW_of_read (readOpd_f h)
  case i =>
    rintro t n q rfl hg
    constructor
    · intro hu hp; rw [readW_of_read (readOpd_i hg hu hp), setWidth_ofNat64]
    · exact fun h => readW_of_stop (readOpd_i_spent hg h)
  case l0 => intro t n h; exact readW_of_stop (readOpd_l_empty h)
  case d0 => intro t n h; exact readW_of_stop (readOpd_d_empty h)
  case xq0 => intro t h; exact readW_of_stop (readOpd_xq_empty h)
  case aq0 => intro t h; exact readW_of_stop (readOpd_aq_empty h)

/-! ### Destinations -/

theorem writeOpd_c {w : Nat} (t : Thread) (n : BitVec 6) (v : BitVec w) : writeOpd t (.c n) v = .ok (setData t n v) := rfl
@[simp] theorem setC_zero (t : Thread) (v : CReg) : setC t 0 v = t := rfl
theorem getC_setC_self {t : Thread} {n : BitVec 6} (v : CReg) (h : n ≠ 0) : getC (setC t n v) n = v := by
  simp only [getC, setC, h, if_false, Vector.getElem_set_self]
theorem getC_setC_ne {t : Thread} {n m : BitVec 6} (v : CReg) (h : m ≠ n) : getC (setC t n v) m = getC t m := by
  have h' : n.toNat ≠ m.toNat := fun e => h (BitVec.eq_of_toNat_eq e.symm)
  by_cases hm : m = 0
  · simp only [getC, hm, if_true]
  · by_cases hn : n = 0
    · simp only [setC, hn, if_true]
    · simp only [getC, setC, hm, hn, if_false, Vector.getElem_set_ne _ _ h']
/-- a write to a c register changes nothing else -/
theorem setC_frame (t : Thread) (n : BitVec 6) (v : CReg) :
    { setC t n v with regs := { (setC t n v).regs with c := t.regs.c } } = t := by
  simp only [setC]; split <;> rfl
theorem getP_zero (t : Thread) : getP t 0 = true := rfl
theorem getLsbD_setBit {w : Nat} (v : BitVec w) (n m : Nat) (b : Bool) (hn : n < w) :
    (setBit v n b).getLsbD m = if m = n then b else v.getLsbD m := by
  unfold setBit
  split
  · simp only [BitVec.getLsbD_or, BitVec.getLsbD_twoPow]; grind
  · simp only [BitVec.getLsbD_and, BitVec.getLsbD_not, BitVec.getLsbD_twoPow]
    by_cases hm : m < w
    · grind
    · rw [BitVec.getLsbD_of_ge v m (by omega)]; grind
theorem getP_setP_self {t : Thread} {n : BitVec 4} (b : Bool) (h : n ≠ 0) : getP (setP t n b) n = b := by
  simp only [getP, setP, h, if_false, getLsbD_setBit _ _ _ _ n.isLt, if_true, beq_eq_false_iff_ne.2 h, Bool.false_or]
theorem getP_setP_ne {t : Thread} {n m : BitVec 4} (b : Bool) (h : m ≠ n) : getP (setP t n b) m = getP t m := by
  have h' : m.toNat ≠ n.toNat := fun e => h (BitVec.eq_of_toNat_eq e)
  simp only [getP, setP]
  split
  · rfl
  · simp only [getLsbD_setBit _ _ _ _ n.isLt, h', if_false]
section
variable {t : Thread}
theorem pushQueue_l {n : BitVec 2} (v : W128) (h : (getL t n).length < 32) : pushQueue t (.l n) v = .ok (setL t n (getL t n ++ [v])) := by
  simp only [pushQueue, lDepth, h, if_true]
theorem pushQueue_d {n : BitVec 1} (v : W128) (h : (getD t n).length < 32) : pushQueue t (.d n) v = .ok (setD t n (getD t n ++ [v])) := by
  simp only [pushQueue, lDepth, h, if_true]
theorem pushQueue_xq (v : W128) (h : t.regs.xq.length < 16) : pushQueue t .xq v = .ok (setXq t (t.regs.xq ++ [v.setWidth 64])) := by
  simp only [pushQueue, qDepth, h, if_true]
theorem pushQueue_aq (v : W128) (h : t.regs.aq.length < 16) : pushQueue t .aq v = .ok (setAq t (t.regs.aq ++ [v.setWidth 64])) := by
  simp only [pushQueue, qDepth, h, if_true]
theorem pushQueue_l_full {n : BitVec 2} (v : W128) (h : 32 ≤ (getL t n).length) : pushQueue t (.l n) v = .error .wait := by
  simp only [pushQueue, lDepth, Nat.not_lt.2 h, if_false]
theorem pushQueue_d_full {n : BitVec 1} (v : W128) (h : 32 ≤ (getD t n).length) : pushQueue t (.d n) v = .error .wait := by
  simp only [pushQueue, lDepth, Nat.not_lt.2 h, if_false]
theorem pushQueue_xq_full (v : W128) (h : 16 ≤ t.regs.xq.length) : pushQueue t .xq v = .error .wait := by
  simp only [pushQueue, qDepth, Nat.not_lt.2 h, if_false]
theorem pushQueue_aq_full (v : W128) (h : 16 ≤ t.regs.aq.length) : pushQueue t .aq v = .error .wait := by
  simp only [pushQueue, qDepth, Nat.not_lt.2 h, if_false]
theorem pushQueue_o {n : BitVec 3} (v : W128) (hg : t.id.gang = false ∨ t.id.pos = 0) (hu : (getOutQ t n).used = true)
    (hl : (getOutQ t n).bytes.length + 8 ≤ (getOutQ t n).limit) : pushQueue t (.o n) v = .ok (appendPush t n (v.setWidth 64)) := by
  simp only [pushQueue, ownsQueues hg, hu, hl, decide_true, Bool.and_self, if_true, Bool.false_eq_true, if_false]
theorem pushQueue_o_full {n : BitVec 3} (v : W128) (hg : t.id.gang = false ∨ t.id.pos = 0)
    (h : ¬((getOutQ t n).used = true ∧ (getOutQ t n).bytes.length + 8 ≤ (getOutQ t n).limit)) :
    pushQueue t (.o n) v = .error (capFault .bounds 0) := by
  simp only [pushQueue, ownsQueues hg, Bool.and_eq_true, decide_eq_true_eq, h, Bool.false_eq_true, if_false]
theorem getOutQ_setOutQ_self (n : BitVec 3) (q : OutQ) : getOutQ (setOutQ t n q) n = q := by
  simp [getOutQ, setOutQ]
theorem getOutQ_setOutQ_ne {n m : BitVec 3} (q : OutQ) (h : m ≠ n) : getOutQ (setOutQ t n q) m = getOutQ t m := by
  have h' : n.toNat ≠ m.toNat := fun e => h (BitVec.eq_of_toNat_eq e.symm)
  simp [getOutQ, setOutQ, h']
end

theorem resultWrites : ResultWrites := by
  refine ⟨fun _ _ => rfl, ?c, fun _ _ => rfl, getP_zero, ?p, ?l, ?d, ?xq, ?aq, ?o, ?l32, ?d32, ?xq16, ?aq16, ?push⟩
  case c =>
    intro t n v hn
    exact ⟨_, writeOpd_c t n v, getC_setC_self _ hn, fun m hm => getC_setC_ne _ hm, setC_frame t n _⟩
  case p => exact fun t n b hn => ⟨getP_setP_self b hn, fun m hm => getP_setP_ne b hm⟩
  case l => exact fun t n v h => pushQueue_l _ h
  case d => exact fun t n v h => pushQueue_d _ h
  case xq => intro t v h; simp only [writeOpd, pushQueue_xq _ h, setWidth_up_down]
  case aq => intro t v h; simp only [writeOpd, pushQueue_aq _ h, setWidth_up_down]
  case o =>
    rintro t n v q rfl hg
    constructor
    · intro hu hl; simp only [writeOpd, pushQueue_o _ hg hu hl, setWidth_up_down]
    · exact fun h => pushQueue_o_full _ hg h
  case l32 => exact fun t n v h => pushQueue_l_full _ h
  case d32 => exact fun t n v h => pushQueue_d_full _ h
  case xq16 => exact fun t v h => pushQueue_xq_full _ h
  case aq16 => exact fun t v h => pushQueue_aq_full _ h
  case push =>
    rintro t n v u rfl
    rw [appendPush, getOutQ_setOutQ_self]
    exact ⟨rfl, rfl, rfl, fun m hm => getOutQ_setOutQ_ne _ hm⟩

/-- Settles O9, form by form of source and destination. -/
theorem operandsAndResults : Obligations.OperandsAndResults := ⟨sourceReads, resultWrites⟩

end Sys2Proof.Proofs.Operands

/-! ## Integer arithmetic (R388-R390, R392) -/

namespace Sys2Proof.Proofs.Integers
open Sys2Proof.Machine Sys2Proof.Claims Sys2Proof.Laws.State Sys2Proof.Laws.Ops Sys2Proof.Proofs.Atomics

/-! ### A word that is an effect on the thread -/

theorem runThread_of_ok {h : Hdr} {f : Thread → Except Stop Thread} {s : State} {t u : Thread} (hr : Runs h s t) (e : f t = .ok u) :
    runThread h f s = .next (doneWith h s u) := runThread_done hr.1 hr.2 e
theorem runThread_of_trap {h : Hdr} {f : Thread → Except Stop Thread} {s : State} {t : Thread} {k : BitVec 8} {d : W64} (hr : Runs h s t)
    (e : f t = .error (.trap k d)) : runThread h f s = .next (takeTrap (!h.s) s k d) := runThread_trap hr.1 hr.2 e

/-! ### write(D, v) of R388 -/

theorem ofInt_eq_ofNat (w : Nat) (v : Int) : BitVec.ofInt w v = BitVec.ofNat w (v % 2 ^ w).toNat := by
  apply BitVec.eq_of_toNat_eq
  have nonneg : 0 ≤ v % 2 ^ w := Int.emod_nonneg _ (by positivity)
  have lt : (v % 2 ^ w).toNat < 2 ^ w := by
    have := Int.emod_lt_of_pos v (show (0 : Int) < 2 ^ w by positivity)
    have cast : ((2 ^ w : Nat) : Int) = 2 ^ w := by push_cast; rfl
    omega
  rw [BitVec.toNat_ofInt, BitVec.toNat_ofNat, Nat.mod_eq_of_lt lt]
  push_cast; rfl
theorem emod_two_pow_lt (w : Nat) (v : Int) : (v % 2 ^ w).toNat < 2 ^ w := by
  have := Int.emod_lt_of_pos v (show (0 : Int) < 2 ^ w by positivity)
  have nonneg : 0 ≤ v % 2 ^ w := Int.emod_nonneg _ (by positivity)
  have cast : ((2 ^ w : Nat) : Int) = 2 ^ w := by push_cast; rfl
  omega
/-- the model's narrowing is write(D, v) -/
theorem narrow_eq_extended (ty : BitVec 3) (v : Int) : narrow ty v = extended ty v := by
  have lt := emod_two_pow_lt (typeWidth ty) v
  simp only [narrow, extended, ofInt_eq_ofNat (typeWidth ty) v]
  split
  · rw [← signed_eq_toS lt]; rfl
  · apply BitVec.eq_of_toNat_eq
    rw [BitVec.toNat_ofNat, BitVec.toNat_setWidth, BitVec.toNat_ofNat, Nat.mod_eq_of_lt lt]
theorem extended_congr {ty : BitVec 3} {v w : Int} (h : v % 2 ^ typeWidth ty = w % 2 ^ typeWidth ty) : extended ty v = extended ty w := by
  simp only [extended, ofInt_eq_ofNat, h]

/-! ### Two-source and one-source instructions -/

section
variable {h : Hdr} {o : IntOps} {s : State} {t t1 t2 u : Thread} {a b : W64}
theorem intThread_ok {f : Nat → Nat → Nat → Int} (ha : readW t o.a = .ok (a, t1)) (hb : readW t1 o.b = .ok (b, t2))
    (hw : writeOpd t2 o.d (extended o.ty (f (typeWidth o.ty) (low o.ty a) (low o.ty b))) = .ok u) : intThread f o t = .ok u := by
  simp only [intThread, ha, hb, bind, Except.bind, narrow_eq_extended]
  exact hw
theorem intThread1_ok {f : Nat → Nat → Int} (ha : readW t o.a = .ok (a, t1))
    (hw : writeOpd t1 o.d (extended o.ty (f (typeWidth o.ty) (low o.ty a))) = .ok u) : intThread1 f o t = .ok u := by
  simp only [intThread1, ha, bind, Except.bind, narrow_eq_extended]
  exact hw
end
theorem low_lt (ty : BitVec 3) (a : W64) : low ty a < 2 ^ typeWidth ty := Nat.mod_lt _ (by positivity)

/-- instruction `c` runs the operation `f`, which is `g` on W-bit values -/
def RunsBinary (c : Hdr → IntOps → Instr) (g : Nat → Nat → Nat → Int) : Prop :=
  ∃ f, (∀ h o s, exec (c h o) s = runThread h (intThread f o) s) ∧ ∀ w a b, a < 2 ^ w → b < 2 ^ w → f w a b = g w a b
theorem RunsBinary.exec_ok {c : Hdr → IntOps → Instr} {g : Nat → Nat → Nat → Int} (p : RunsBinary c g) {h : Hdr} {o : IntOps} {s : State}
    {t t1 t2 u : Thread} {a b : W64} (hr : Runs h s t) (ha : readW t o.a = .ok (a, t1)) (hb : readW t1 o.b = .ok (b, t2))
    (hw : writeOpd t2 o.d (extended o.ty (g (typeWidth o.ty) (low o.ty a) (low o.ty b))) = .ok u) :
    exec (c h o) s = .next (doneWith h s u) := by
  obtain ⟨f, he, hf⟩ := p
  rw [he, runThread_of_ok hr (intThread_ok ha hb (by rw [hf _ _ _ (low_lt ..) (low_lt ..)]; exact hw))]
theorem runsBinary_of_exec {c : Hdr → IntOps → Instr} {g : Nat → Nat → Nat → Int}
    (he : ∀ h o s, exec (c h o) s = runThread h (intThread g o) s) : RunsBinary c g := ⟨g, he, fun _ _ _ _ _ => rfl⟩
/-- the same for one source -/
def RunsUnary (c : Hdr → IntOps → Instr) (g : Nat → Nat → Int) : Prop :=
  ∃ f, (∀ h o s, exec (c h o) s = runThread h (intThread1 f o) s) ∧ ∀ w a, a < 2 ^ w → f w a = g w a
theorem RunsUnary.exec_ok {c : Hdr → IntOps → Instr} {g : Nat → Nat → Int} (p : RunsUnary c g) {h : Hdr} {o : IntOps} {s : State}
    {t t1 u : Thread} {a : W64} (hr : Runs h s t) (ha : readW t o.a = .ok (a, t1))
    (hw : writeOpd t1 o.d (extended o.ty (g (typeWidth o.ty) (low o.ty a))) = .ok u) : exec (c h o) s = .next (doneWith h s u) := by
  obtain ⟨f, he, hf⟩ := p
  rw [he, runThread_of_ok hr (intThread1_ok ha (by rw [hf _ _ (low_lt ..)]; exact hw))]

theorem aluAndn_eq {w a b : Nat} (ha : a < 2 ^ w) (hb : b < 2 ^ w) :
    aluAndn w a b = ((BitVec.ofNat w a &&& ~~~BitVec.ofNat w b).toNat : Int) := by
  rw [aluAndn, BitVec.toNat_and, BitVec.toNat_not, BitVec.toNat_ofNat, BitVec.toNat_ofNat, Nat.mod_eq_of_lt ha, Nat.mod_eq_of_lt hb]
theorem aluRotr_eq {w a b : Nat} (ha : a < 2 ^ w) : aluRotr w a b = (((BitVec.ofNat w a).rotateRight (b % w)).toNat : Int) := by
  obtain rfl | hw := Nat.eq_zero_or_pos w
  · obtain rfl : a = 0 := by omega
    simp [aluRotr, BitVec.toNat_of_zero_length rfl]
  have hr : b % w < w := Nat.mod_lt _ hw
  have split : 2 ^ w = 2 ^ (b % w) * 2 ^ (w - b % w) := by rw [← Nat.pow_add, Nat.add_sub_cancel' hr.le]
  have quot : a / 2 ^ (b % w) < 2 ^ (w - b % w) := Nat.div_lt_of_lt_mul (split ▸ ha)
  rw [aluRotr, BitVec.toNat_rotateRight, BitVec.toNat_ofNat, Nat.mod_eq_of_lt ha, Nat.mod_mod, Nat.shiftRight_eq_div_pow,
    Nat.shiftLeft_eq, split, Nat.mul_mod_mul_right, Nat.or_comm, ← Nat.shiftLeft_eq, ← Nat.shiftLeft_add_eq_or_of_lt quot,
    Nat.shiftLeft_eq, Nat.add_comm]

section
variable {w a b : Nat} (ha : a < 2 ^ w) (hb : b < 2 ^ w)
include ha hb
theorem aluMulh_eq : aluMulh w a b = (signed w a * signed w b) / 2 ^ w := by rw [aluMulh, signed_eq_toS ha, signed_eq_toS hb]
theorem aluDiv_eq : aluDiv w a b = if b = 0 then 2 ^ w - 1 else (signed w a).tdiv (signed w b) := by
  rw [aluDiv, signed_eq_toS ha, signed_eq_toS hb]
theorem aluRem_eq : aluRem w a b = if b = 0 then (a : Int) else (signed w a).tmod (signed w b) := by
  rw [aluRem, signed_eq_toS ha, signed_eq_toS hb]
theorem aluMin_eq : aluMin w a b = if signed w a ≤ signed w b then signed w a else signed w b := by
  rw [aluMin, signed_eq_toS ha, signed_eq_toS hb]
theorem aluMax_eq : aluMax w a b = if signed w a ≤ signed w b then signed w b else signed w a := by
  rw [aluMax, signed_eq_toS ha, signed_eq_toS hb]
end
theorem aluSra_eq {w a b : Nat} (ha : a < 2 ^ w) : aluSra w a b = signed w a / 2 ^ (b % w) := by rw [aluSra, signed_eq_toS ha]
theorem runs_div : RunsBinary .div (fun w a b => if b = 0 then 2 ^ w - 1 else (signed w a).tdiv (signed w b)) :=
  ⟨aluDiv, fun _ _ _ => rfl, fun _ _ _ ha hb => aluDiv_eq ha hb⟩
theorem runs_divn : RunsBinary .divn (fun w a b => if b = 0 then 2 ^ w - 1 else ((a / b : Nat) : Int)) :=
  runsBinary_of_exec fun _ _ _ => rfl
theorem runs_rem : RunsBinary .rem (fun w a b => if b = 0 then a else (signed w a).tmod (signed w b)) :=
  ⟨aluRem, fun _ _ _ => rfl, fun _ _ _ ha hb => aluRem_eq ha hb⟩
theorem runs_remn : RunsBinary .remn (fun _ a b => if b = 0 then a else ((a % b : Nat) : Int)) :=
  runsBinary_of_exec fun _ _ _ => rfl
theorem runsBinary_of_mem {p : (Hdr → IntOps → Instr) × (Nat → Nat → Nat → Int)} (hp : p ∈ intOps) : RunsBinary p.1 p.2 := by
  revert p
  simp only [intOps, List.forall_mem_cons, List.not_mem_nil, false_imp_iff, implies_true, and_true]
  refine ⟨?add, ?sub, ?mul, ?mulh, ?mulhn, runs_div, runs_divn, runs_rem, runs_remn, ?and, ?or, ?xor, ?andn, ?shl, ?shr, ?sra, ?rotr,
    ?min, ?max, ?minn, ?maxn⟩
  case mulh => exact ⟨aluMulh, fun _ _ _ => rfl, fun _ _ _ ha hb => aluMulh_eq ha hb⟩
  case andn => exact ⟨aluAndn, fun _ _ _ => rfl, fun _ _ _ ha hb => aluAndn_eq ha hb⟩
  case sra => exact ⟨aluSra, fun _ _ _ => rfl, fun _ _ _ ha _ => aluSra_eq ha⟩
  case rotr => exact ⟨aluRotr, fun _ _ _ => rfl, fun _ _ _ ha _ => aluRotr_eq ha⟩
  case min => exact ⟨aluMin, fun _ _ _ => rfl, fun _ _ _ ha hb => aluMin_eq ha hb⟩
  case max => exact ⟨aluMax, fun _ _ _ => rfl, fun _ _ _ ha hb => aluMax_eq ha hb⟩
  case add | sub | mul | mulhn | and | or | xor | shl | shr | minn | maxn => exact runsBinary_of_exec fun _ _ _ => rfl

/-- Settles O10: each operation of the model is the rule's on W-bit values, and its narrowing is write(D, v). -/
theorem integerBinary : Obligations.IntegerBinary :=
  fun _ hp _ _ _ _ _ _ _ _ _ hr ha hb hw => (runsBinary_of_mem hp).exec_ok hr ha hb hw

/-! ### Counts, and orders of bits and bytes -/

theorem find_range_succ (p : Nat → Bool) (k : Nat) :
    ((List.range (k + 1)).find? p).getD (k + 1) = if p 0 then 0 else ((List.range k).find? (fun i => p (i + 1))).getD k + 1 := by
  rw [List.range_succ_eq_map, List.find?_cons]
  cases p 0 with
  | true => rfl
  | false =>
    simp only [List.find?_map, Bool.false_eq_true, if_false]
    change (Option.map Nat.succ ((List.range k).find? (fun i => p (i + 1)))).getD (k + 1) = _
    cases (List.range k).find? (fun i => p (i + 1)) <;> rfl
theorem ctzAux_eq (a k : Nat) : ctzAux a k = ((List.range k).find? (fun i => a.testBit i)).getD k := by
  induction k generalizing a with
  | zero => rfl
  | succ k ih =>
    rw [find_range_succ]
    simp only [ctzAux, ih (a / 2), Nat.testBit_zero, decide_eq_true_eq, Nat.testBit_succ]
    split
    · rfl
    · exact Nat.add_comm ..
theorem popAux_eq (a k : Nat) : popAux a k = (List.range k).countP (fun i => a.testBit i) := by
  induction k generalizing a with
  | zero => rfl
  | succ k ih =>
    rw [List.range_succ_eq_map, List.countP_cons, List.countP_map]
    simp only [popAux, ih (a / 2), Function.comp_def, Nat.succ_eq_add_one, Nat.testBit_succ, Nat.testBit_zero, decide_eq_true_eq]
    split <;> omega
theorem aluClz_eq {w a : Nat} (ha : a < 2 ^ w) :
    aluClz w a = ((((List.range w).find? (fun i => a.testBit (w - 1 - i))).getD w : Nat) : Int) := by
  rw [aluClz]
  split
  · next h =>
    have none : (List.range w).find? (fun i => a.testBit (w - 1 - i)) = none := by simp [List.find?_eq_none, h]
    rw [none]; rfl
  · next h =>
    have hl : Nat.log2 a < w := (Nat.log2_lt h).2 ha
    have hit : (List.range w).find? (fun i => a.testBit (w - 1 - i)) = some (w - 1 - Nat.log2 a) := by
      rw [List.find?_range_eq_some]
      refine ⟨?_, List.mem_range.2 (by omega), ?_⟩
      · rw [show w - 1 - (w - 1 - Nat.log2 a) = Nat.log2 a by omega]
        exact Nat.testBit_log2 h
      · intro j hj
        have above : a < 2 ^ (w - 1 - j) := (Nat.log2_lt h).1 (by omega)
        simp [Nat.testBit_lt_two_pow above]
    rw [hit]; rfl
theorem revAux_lt (a k : Nat) : revAux a k < 2 ^ k := by
  induction k generalizing a with
  | zero => exact Nat.one_pos
  | succ k ih =>
    have := ih (a / 2)
    simp only [revAux, Nat.pow_succ]
    have bit : a % 2 * 2 ^ k ≤ 2 ^ k := by simpa using Nat.mul_le_mul_right (2 ^ k) (show a % 2 ≤ 1 by omega)
    omega
theorem testBit_revAux (a k i : Nat) : (revAux a k).testBit i = (decide (i < k) && a.testBit (k - 1 - i)) := by
  induction k generalizing a i with
  | zero => simp [revAux]
  | succ k ih =>
    rw [revAux, Nat.mul_comm, Nat.testBit_two_pow_mul_add _ (revAux_lt _ _), ih, Nat.testBit_div_two]
    split
    · next h => simp [h, show i < k + 1 by omega, show k - 1 - i + 1 = k - i by omega]
    · next h =>
      obtain rfl | hi := Nat.eq_or_lt_of_le (Nat.not_lt.1 h)
      · simp [Nat.testBit_zero]
      · have hk : ¬i < k + 1 := by omega
        have big : a % 2 < 2 ^ (i - k) := (Nat.mod_lt _ two_pos).trans_le (Nat.pow_le_pow_right two_pos (Nat.sub_pos_of_lt hi))
        simp [hk, Nat.testBit_lt_two_pow big]
theorem revAux_eq (w a : Nat) : revAux a w = (BitVec.ofNat w a).reverse.toNat := by
  apply Nat.eq_of_testBit_eq
  intro i
  rw [testBit_revAux, BitVec.testBit_toNat, BitVec.getLsbD_reverse, BitVec.getMsbD, BitVec.getLsbD_ofNat]
  by_cases hi : i < w
  · simp [hi, show w - 1 - i < w by omega]
  · simp [hi]
theorem leNat_append (l m : List Byte) : leNat (l ++ m) = leNat l + 256 ^ l.length * leNat m := by
  induction l with
  | nil => simp [leNat]
  | cons b l ih => simp only [List.cons_append, leNat, ih, List.length_cons, Nat.pow_succ]; ring
theorem leNat_reverse_toBytes (k a : Nat) : leNat (toBytes k a).reverse = bytesRev a k := by
  induction k generalizing a with
  | zero => rfl
  | succ k ih =>
    rw [toBytes, List.reverse_cons, leNat_append, ih, List.length_reverse, Bytes.toBytes_length, bytesRev]
    simp only [leNat, BitVec.toNat_ofNat]
    ring

theorem runsUnary_of_mem {p : (Hdr → IntOps → Instr) × (Nat → Nat → Int)} (hp : p ∈ intOps1) : RunsUnary p.1 p.2 := by
  revert p
  simp only [intOps1, List.forall_mem_cons, List.not_mem_nil, false_imp_iff, implies_true, and_true]
  refine ⟨?abs, ?neg, ?clz, ?ctz, ?popc, ?brev, ?bswp⟩
  case abs => exact ⟨aluAbs, fun _ _ _ => rfl, fun _ _ ha => by simp only [aluAbs, signed_eq_toS ha]⟩
  case neg => exact ⟨aluNeg, fun _ _ _ => rfl, fun _ _ ha => by simp only [aluNeg, signed_eq_toS ha]⟩
  case clz => exact ⟨aluClz, fun _ _ _ => rfl, fun _ _ ha => aluClz_eq ha⟩
  case ctz => exact ⟨aluCtz, fun _ _ _ => rfl, fun w a _ => congrArg Nat.cast (ctzAux_eq a w)⟩
  case popc => exact ⟨aluPopc, fun _ _ _ => rfl, fun w a _ => congrArg Nat.cast (popAux_eq a w)⟩
  case brev => exact ⟨aluBrev, fun _ _ _ => rfl, fun w a _ => congrArg Nat.cast (revAux_eq w a)⟩
  case bswp => exact ⟨aluBswp, fun _ _ _ => rfl, fun w a _ => congrArg Nat.cast (leNat_reverse_toBytes (w / 8) a).symm⟩

/-- Settles O11, as O10 for one source. -/
theorem integerUnary : Obligations.IntegerUnary :=
  fun _ hp _ _ _ _ _ _ _ hr ha hw => (runsUnary_of_mem hp).exec_ok hr ha hw

/-! ### Division -/

theorem typeWidth_pos (ty : BitVec 3) : 0 < typeWidth ty := by revert ty; decide
theorem signed_zero (w : Nat) : signed w 0 = 0 := by simp [signed]
/-- 2^(W-1) and its negative are one W-bit value -/
theorem extended_half (ty : BitVec 3) : extended ty (2 ^ (typeWidth ty - 1)) = extended ty (-(2 ^ (typeWidth ty - 1))) := by
  apply extended_congr
  have twice : (2 : Int) ^ typeWidth ty = 2 * 2 ^ (typeWidth ty - 1) := by
    conv_lhs => rw [← Nat.sub_add_cancel (typeWidth_pos ty), pow_succ]
    ring
  rw [Int.emod_eq_emod_iff_emod_sub_eq_zero, twice, sub_neg_eq_add, ← two_mul, Int.emod_self]

section
variable {h : Hdr} {o : IntOps} {s : State} {t t1 t2 u : Thread} {a b : W64} (hr : Runs h s t) (ha : readW t o.a = .ok (a, t1))
  (hb : readW t1 o.b = .ok (b, t2))
include hr ha hb
theorem exec_div_zero (hz : low o.ty b = 0) (hw : writeOpd t2 o.d (extended o.ty (2 ^ typeWidth o.ty - 1)) = .ok u) :
    exec (.div h o) s = .next (doneWith h s u) ∧ exec (.divn h o) s = .next (doneWith h s u) :=
  ⟨runs_div.exec_ok hr ha hb (by rw [if_pos hz]; exact hw), runs_divn.exec_ok hr ha hb (by rw [if_pos hz]; exact hw)⟩
theorem exec_rem_zero (hz : low o.ty b = 0) (hw : writeOpd t2 o.d (extended o.ty (low o.ty a)) = .ok u) :
    exec (.rem h o) s = .next (doneWith h s u) ∧ exec (.remn h o) s = .next (doneWith h s u) :=
  ⟨runs_rem.exec_ok hr ha hb (by rw [if_pos hz]; exact hw), runs_remn.exec_ok hr ha hb (by rw [if_pos hz]; exact hw)⟩
section
variable (hm : signed (typeWidth o.ty) (low o.ty a) = -(2 ^ (typeWidth o.ty - 1))) (hn : signed (typeWidth o.ty) (low o.ty b) = -1)
include hm hn
theorem exec_div_overflow (hw : writeOpd t2 o.d (extended o.ty (-(2 ^ (typeWidth o.ty - 1)))) = .ok u) :
    exec (.div h o) s = .next (doneWith h s u) := by
  have nz : low o.ty b ≠ 0 := fun e => by rw [e, signed_zero] at hn; exact absurd hn (by decide)
  exact runs_div.exec_ok hr ha hb (by rw [if_neg nz, hm, hn, Int.tdiv_neg, Int.tdiv_one, neg_neg, extended_half]; exact hw)
theorem exec_rem_overflow (hw : writeOpd t2 o.d (extended o.ty 0) = .ok u) : exec (.rem h o) s = .next (doneWith h s u) := by
  have nz : low o.ty b ≠ 0 := fun e => by rw [e, signed_zero] at hn; exact absurd hn (by decide)
  exact runs_rem.exec_ok hr ha hb (by rw [if_neg nz, hm, hn, Int.tmod_neg, Int.tmod_one]; exact hw)
end
end
/-- what an example's result comes to by the operation's definition -/
theorem RunsBinary.exec_example {c : Hdr → IntOps → Instr} {g : Nat → Nat → Nat → Int} (p : RunsBinary c g) {a b v : W64} {tys : List (BitVec 3)}
    (hv : ∀ ty ∈ tys, extended ty (g (typeWidth ty) (low ty a) (low ty b)) = v) (h : Hdr) (o : IntOps) (s : State) (t t1 t2 u : Thread)
    (hr : Runs h s t) (ht : o.ty ∈ tys) (ha : readW t o.a = .ok (a, t1)) (hb : readW t1 o.b = .ok (b, t2))
    (hw : writeOpd t2 o.d v = .ok u) : exec (c h o) s = .next (doneWith h s u) :=
  p.exec_ok hr ha hb (by rw [hv _ ht]; exact hw)

/-- Settles O15, by the operations' values at the corners. -/
theorem division : Obligations.Division := by
  refine ⟨?noFault, ?corners, ?examples⟩
  case noFault =>
    intro h o s t a t1 b t2 hr ha hb
    simp only [List.forall_mem_cons, List.not_mem_nil, false_imp_iff, implies_true, and_true]
    exact ⟨⟨_, fun _ hw => runs_div.exec_ok hr ha hb hw⟩, ⟨_, fun _ hw => runs_divn.exec_ok hr ha hb hw⟩,
      ⟨_, fun _ hw => runs_rem.exec_ok hr ha hb hw⟩, ⟨_, fun _ hw => runs_remn.exec_ok hr ha hb hw⟩⟩
  case corners =>
    intro h o s t a t1 b t2 u hr ha hb
    exact ⟨fun hz => ⟨exec_div_zero hr ha hb hz, exec_rem_zero hr ha hb hz⟩,
      fun hm hn => ⟨exec_div_overflow hr ha hb hm hn, exec_rem_overflow hr ha hb hm hn⟩⟩
  case examples =>
    simp only [divExamples, List.forall_mem_cons, List.not_mem_nil, false_imp_iff, implies_true, and_true]
    exact ⟨runs_div.exec_example (by decide), runs_rem.exec_example (by decide), runs_divn.exec_example (by decide),
      runs_div.exec_example (by decide), runs_remn.exec_example (by decide)⟩

end Sys2Proof.Proofs.Integers

/-! ## Bit fields, moves, predicates and random numbers (R391-R397) -/

namespace Sys2Proof.Proofs.FieldsAndMoves
open Sys2Proof.Machine Sys2Proof.Claims Sys2Proof.Laws.State Sys2Proof.Laws.Ops Sys2Proof.Proofs.Atomics Sys2Proof.Proofs.Integers

/-! ### EXTR, EXTRN and INS -/

theorem fieldOf_of_isField {pos len : Nat} (h : isField pos len) (a : W64) : fieldOf a pos len = some (a.extractLsb' pos len).toNat := by
  obtain ⟨h0, h64, hsum⟩ := h
  have inside : (len = 0 || len > 64 || pos + len > 64) = false := by simp; omega
  rw [fieldOf, inside, BitVec.extractLsb'_toNat, Nat.shiftRight_eq_div_pow]; rfl
theorem fieldOf_outside {pos len : Nat} (h : ¬isField pos len) (a : W64) : fieldOf a pos len = none := by
  have outside : (len = 0 || len > 64 || pos + len > 64) = true := by simp [isField] at h ⊢; omega
  rw [fieldOf, outside]; rfl
theorem ofInt_toS_toNat {len : Nat} (x : BitVec len) : BitVec.ofInt 64 (toS len x.toNat) = x.signExtend 64 := by
  rw [← signed_eq_toS x.isLt, signed, BitVec.ofNat_toNat, BitVec.setWidth_eq]; rfl
/-- a field of d replaced by the low bits of a -/
theorem insert_eq (d a pos len : Nat) :
    d - d / 2 ^ pos % 2 ^ len * 2 ^ pos + a % 2 ^ len * 2 ^ pos = 2 ^ pos * (2 ^ len * (d / 2 ^ pos / 2 ^ len) + a % 2 ^ len) + d % 2 ^ pos := by
  have parts : d = 2 ^ pos * (2 ^ len * (d / 2 ^ pos / 2 ^ len)) + d % 2 ^ pos + d / 2 ^ pos % 2 ^ len * 2 ^ pos := by
    conv_lhs => rw [← Nat.div_add_mod d (2 ^ pos), ← Nat.div_add_mod (d / 2 ^ pos) (2 ^ len)]
    ring
  rw [Nat.sub_eq_of_eq_add parts]
  ring
theorem testBit_insert (d a pos len i : Nat) :
    (d - d / 2 ^ pos % 2 ^ len * 2 ^ pos + a % 2 ^ len * 2 ^ pos).testBit i =
      if pos ≤ i ∧ i < pos + len then a.testBit (i - pos) else d.testBit i := by
  rw [insert_eq, Nat.testBit_two_pow_mul_add _ (Nat.mod_lt _ (by positivity)), Nat.testBit_two_pow_mul_add _ (Nat.mod_lt _ (by positivity))]
  simp only [Nat.testBit_mod_two_pow, Nat.testBit_div_two_pow]
  by_cases below : i < pos
  · simp [below, Nat.not_le.2 below]
  · by_cases inside : i - pos < len
    · simp [below, inside, Nat.not_lt.1 below, show i < pos + len by omega]
    · simp [below, inside, show ¬i < pos + len by omega, show i - pos - len + len + pos = i by omega]

section
variable {o : IntOps} {t t1 t2 t3 u : Thread} {a b c : W64} (ha : readW t o.a = .ok (a, t1)) (hb : readW t1 o.b = .ok (b, t2))
  (hc : readW t2 o.c = .ok (c, t3))
include ha hb hc
theorem extrThread_field (hf : isField (b.toNat % 64) (c.toNat % 128))
    (hw : writeOpd t3 o.d ((a.extractLsb' (b.toNat % 64) (c.toNat % 128)).signExtend 64) = .ok u) : extrThread true o t = .ok u := by
  simp only [extrThread, ha, hb, hc, bind, Except.bind, fieldOf_of_isField hf, if_true, ofInt_toS_toNat]; exact hw
theorem extrnThread_field (hf : isField (b.toNat % 64) (c.toNat % 128))
    (hw : writeOpd t3 o.d ((a.extractLsb' (b.toNat % 64) (c.toNat % 128)).setWidth 64) = .ok u) : extrThread false o t = .ok u := by
  simp only [extrThread, ha, hb, hc, bind, Except.bind, fieldOf_of_isField hf, Bool.false_eq_true, if_false, BitVec.ofNat_toNat]; exact hw
theorem extrThread_outside (signed : Bool) (hf : ¬isField (b.toNat % 64) (c.toNat % 128)) (hw : writeOpd t3 o.d (0 : W64) = .ok u) :
    extrThread signed o t = .ok u := by
  simp only [extrThread, ha, hb, hc, bind, Except.bind, fieldOf_outside hf]; exact hw
theorem insThread_field {n : BitVec 6} {v : W64} (hd : o.d = .c n) (hf : isField (b.toNat % 64) (c.toNat % 128))
    (hv : ∀ i, i < 64 → v.getLsbD i = if b.toNat % 64 ≤ i ∧ i < b.toNat % 64 + c.toNat % 128 then a.getLsbD (i - b.toNat % 64)
      else (getW t3 n).getLsbD i) : insThread o t = .ok (setData t3 n v) := by
  have bits : v = BitVec.ofNat 64 ((getW t3 n).toNat - ((getW t3 n).extractLsb' (b.toNat % 64) (c.toNat % 128)).toNat * 2 ^ (b.toNat % 64) +
      a.toNat % 2 ^ (c.toNat % 128) * 2 ^ (b.toNat % 64)) := by
    apply BitVec.eq_of_getLsbD_eq
    intro i hi
    rw [hv i hi, BitVec.getLsbD_ofNat, BitVec.extractLsb'_toNat, Nat.shiftRight_eq_div_pow, testBit_insert]
    simp only [hi, decide_true, Bool.true_and, BitVec.testBit_toNat]
  simp only [insThread, ha, hb, hc, bind, Except.bind, hd, fieldOf_of_isField hf, bits]; rfl
theorem insThread_outside {n : BitVec 6} (hd : o.d = .c n) (hf : ¬isField (b.toNat % 64) (c.toNat % 128)) :
    insThread o t = .ok (setData t3 n (getW t3 n)) := by
  simp only [insThread, ha, hb, hc, bind, Except.bind, hd, fieldOf_outside hf]; rfl
end

/-- Settles O12: a field is the bits the extraction names, and INS leaves the others. -/
theorem bitFields : Obligations.BitFields := by
  intro h o s t a t1 b t2 c t3 hr ha hb hc
  refine ⟨?extr, ?extrn, ?outside, ?ins, ?insOutside⟩
  case extr => exact fun u hf hw => runThread_of_ok hr (extrThread_field ha hb hc hf hw)
  case extrn => exact fun u hf hw => runThread_of_ok hr (extrnThread_field ha hb hc hf hw)
  case outside =>
    exact fun u hf hw => ⟨runThread_of_ok hr (extrThread_outside ha hb hc true hf hw), runThread_of_ok hr (extrThread_outside ha hb hc false hf hw)⟩
  case ins => exact fun n v hd hf hv => runThread_of_ok hr (insThread_field ha hb hc hd hf hv)
  case insOutside => exact fun n hd hf => runThread_of_ok hr (insThread_outside ha hb hc hd hf)

/-! ### MOV, MOVI and SEL -/

theorem movValue_of_read {t u : Thread} {a : Opd} {v : W128} (hc : ∀ n, a ≠ .c n) (hi : ∀ x, a ≠ .imm x) (hv : readOpd t a = .ok (v, u)) :
    movValue t a = .ok (⟨v.setWidth 192, false⟩, u) := by
  unfold movValue
  split
  · exact absurd rfl (hc _)
  · exact absurd rfl (hi _)
  · rw [hv]
theorem movThread_c {t u : Thread} {m : BitVec 6} {a : Opd} {v : CReg} (hv : movValue t a = .ok (v, u)) :
    movThread ⟨.c m, a⟩ t = .ok (setC u m v) := by
  simp only [movThread, hv, bind, Except.bind]
theorem movThread_push {t t1 u : Thread} {d a : Opd} {v : CReg} (hd : ∀ m, d ≠ .c m) (hv : movValue t a = .ok (v, t1))
    (hp : pushQueue t1 d (v.bits.setWidth 128) = .ok u) : movThread ⟨d, a⟩ t = .ok u := by
  simp only [movThread, hv, bind, Except.bind]
  exact hp
theorem setWidth_192_128 (v : W128) : (v.setWidth 192).setWidth 128 = v := by
  rw [BitVec.setWidth_setWidth_of_le _ (by decide), BitVec.setWidth_eq]

/-- Settles O13, by what MOV takes from each form of source. -/
theorem moves : Obligations.Moves := by
  refine ⟨?reg, ?imm, ?entry, ?pushReg, ?pushEntry, ?pushImm, ?movi, ?moviHigh, ?sel⟩
  case reg => exact fun h s t m n hr => runThread_of_ok hr (movThread_c rfl)
  case imm => exact fun h s t m v hr => runThread_of_ok hr (movThread_c rfl)
  case entry => exact fun h s t m a v u hr hc hi hv => runThread_of_ok hr (movThread_c (movValue_of_read hc hi hv))
  case pushReg => exact fun h s t d n u hr hd hp => runThread_of_ok hr (movThread_push hd rfl hp)
  case pushEntry =>
    exact fun h s t d a v t1 u hr hd hc hi hv hp => runThread_of_ok hr (movThread_push hd (movValue_of_read hc hi hv) (by rw [setWidth_192_128]; exact hp))
  case pushImm =>
    intro h s t d x u hr hd hp
    exact runThread_of_ok hr (movThread_push hd rfl (by rw [BitVec.setWidth_setWidth_of_le _ (by decide)]; exact hp))
  case movi => exact fun h o s t u hr hw => runThread_of_ok hr hw
  case moviHigh => exact fun h o s t u hr hw => runThread_of_ok hr hw
  case sel =>
    intro h o s t b t1 c t2 hr hb hc
    have he : selThread o t = .ok (setC t2 o.d (if getP t o.p then b else c)) := by simp only [selThread, hb, hc, bind, Except.bind]
    exact runThread_of_ok hr he

/-! ### CMP and the predicate instructions -/

/-- the condition COND names is the rule's -/
theorem cmpCond_eq {cond : BitVec 4} {f : Nat → Nat → Nat → Bool} (hf : conds[cond.toNat]? = some f) {w a b : Nat} (ha : a < 2 ^ w)
    (hb : b < 2 ^ w) : cmpCond cond w a b = f w a b := by
  have hn : cond.toNat < 12 := (List.getElem?_eq_some_iff.1 hf).1
  unfold cmpCond
  generalize cond.toNat = n at hn hf ⊢
  interval_cases n <;> cases hf <;> simp [← signed_eq_toS ha, ← signed_eq_toS hb, Bool.beq_eq_decide_eq, bne]

/-- Settles O14, by the conditions and the one predicate each instruction writes. -/
theorem predicates : Obligations.Predicates := by
  constructor
  · intro h o s t a t1 b t2 f hr ha hb hf
    have he : cmpThread o t = .ok (setP t2 o.d (f (typeWidth o.ty) (low o.ty a) (low o.ty b))) := by
      simp only [cmpThread, ha, hb, bind, Except.bind]
      rw [cmpCond_eq hf (Nat.mod_lt _ (by positivity)) (Nat.mod_lt _ (by positivity))]; rfl
    exact runThread_of_ok hr he
  · intro h o s t hr
    exact ⟨runThread_of_ok hr rfl, runThread_of_ok hr rfl, runThread_of_ok hr rfl, runThread_of_ok hr rfl⟩

/-! ### Philox4x32-10 -/

/-- a counter of four words as the model's numbers -/
def natWords (x : BitVec 32 × BitVec 32 × BitVec 32 × BitVec 32) : Nat × Nat × Nat × Nat :=
  (x.1.toNat, x.2.1.toNat, x.2.2.1.toNat, x.2.2.2.toNat)
theorem toNat_mul_word {m : Nat} (hm : m < 2 ^ 32) (x : BitVec 32) : (BitVec.ofNat 64 m * x.setWidth 64).toNat = m * x.toNat := by
  have hx := x.isLt
  have prod : m * x.toNat < 2 ^ 64 := (Nat.mul_lt_mul'' hm hx).trans_eq (by norm_num)
  rw [BitVec.toNat_mul, BitVec.toNat_ofNat, BitVec.toNat_setWidth, Nat.mod_eq_of_lt (hm.trans (by decide)), Nat.mod_eq_of_lt (hx.trans (by decide)),
    Nat.mod_eq_of_lt prod]
theorem toNat_high_word (p : BitVec 64) : (p.extractLsb' 32 32).toNat = p.toNat / 2 ^ 32 := by
  have := p.isLt
  rw [BitVec.extractLsb'_toNat, Nat.shiftRight_eq_div_pow]; omega
theorem toNat_low_word (p : BitVec 64) : (p.extractLsb' 0 32).toNat = p.toNat % 2 ^ 32 := by
  rw [BitVec.extractLsb'_toNat, Nat.shiftRight_zero]
/-- one round is the rule's -/
theorem philoxRound_eq (x : BitVec 32 × BitVec 32 × BitVec 32 × BitVec 32) (k : BitVec 32 × BitVec 32) :
    philoxRound (natWords x) k.1.toNat k.2.toNat = natWords (philoxStep x k) := by
  have p := toNat_mul_word (m := 0xD2511F53) (by decide) x.1
  have q := toNat_mul_word (m := 0xCD9E8D57) (by decide) x.2.2.1
  simp only [philoxRound, natWords, philoxStep, BitVec.toNat_xor, toNat_high_word, toNat_low_word]
  exact p ▸ q ▸ rfl
/-- the key of round `i` -/
def roundKey (b : W64) (i : Nat) : BitVec 32 × BitVec 32 :=
  (b.extractLsb' 0 32 + BitVec.ofNat 32 i * 0x9E3779B9, b.extractLsb' 32 32 + BitVec.ofNat 32 i * 0xBB67AE85)
theorem roundKey_succ (b : W64) (i : Nat) :
    roundKey b (i + 1) = ((roundKey b i).1 + 0x9E3779B9, (roundKey b i).2 + 0xBB67AE85) := by
  simp only [roundKey, BitVec.ofNat_add, BitVec.add_mul, BitVec.one_mul, BitVec.add_assoc]
theorem philoxAux_succ (k0 k1 : Nat) (x : Nat × Nat × Nat × Nat) (n : Nat) : philoxAux k0 k1 x (n + 1) =
    philoxAux ((k0 + 0x9E3779B9) % 2 ^ 32) ((k1 + 0xBB67AE85) % 2 ^ 32) (philoxRound x k0 k1) n := by
  conv_lhs => unfold philoxAux
theorem toNat_add_first (k : BitVec 32) : (k + 0x9E3779B9).toNat = (k.toNat + 0x9E3779B9) % 2 ^ 32 := BitVec.toNat_add ..
theorem toNat_add_second (k : BitVec 32) : (k + 0xBB67AE85).toNat = (k.toNat + 0xBB67AE85) % 2 ^ 32 := BitVec.toNat_add ..
theorem philoxAux_eq (b : W64) (x : BitVec 32 × BitVec 32 × BitVec 32 × BitVec 32) (i n : Nat) :
    philoxAux (roundKey b i).1.toNat (roundKey b i).2.toNat (natWords x) n =
      natWords ((List.range' i n).foldl (fun x i => philoxStep x (roundKey b i)) x) := by
  induction n generalizing i x with
  | zero => rfl
  | succ n ih =>
    have next := ih (philoxStep x (roundKey b i)) (i + 1)
    rw [roundKey_succ, toNat_add_first, toNat_add_second] at next
    rw [philoxAux_succ, philoxRound_eq, next, List.range'_succ, List.foldl_cons]
theorem philox_eq (a : W128) (b : W64) : philox a b = philox10 a b := by
  have first : roundKey b 0 = (b.extractLsb' 0 32, b.extractLsb' 32 32) := by simp [roundKey]
  have run := philoxAux_eq b (a.extractLsb' 0 32, a.extractLsb' 32 32, a.extractLsb' 64 32, a.extractLsb' 96 32) 0 10
  rw [first] at run
  simp only [natWords] at run
  simp only [philox, run, philox10, BitVec.ofNat_toNat, BitVec.setWidth_eq, List.range_eq_range', roundKey]

/-- Settles O16: the model's rounds on numbers are the rule's on words. -/
theorem randomNumber : Obligations.RandomNumber := by
  refine ⟨by decide +kernel, ?_⟩
  intro h o s t a t1 b t2 u hr ha hb hw
  have he : rngThread o t = .ok u := by
    simp only [rngThread, ha, hb, bind, Except.bind, philox_eq]; exact hw
  exact runThread_of_ok hr he

end Sys2Proof.Proofs.FieldsAndMoves

/-! ## Capabilities: their fields, checks and derivations (R290, R398, R399) -/

namespace Sys2Proof.Proofs.Capabilities
open Sys2Proof.Machine Sys2Proof.Claims Sys2Proof.Laws.State Sys2Proof.Laws.Ops Sys2Proof.Proofs.Integers

/-! ### Fields -/

theorem extractLsb'_extractLsb' {w : Nat} (x : BitVec w) {s l s' l' : Nat} (h : s' + l' ≤ l) :
    (x.extractLsb' s l).extractLsb' s' l' = x.extractLsb' (s + s') l' := by
  ext i hi
  simp only [BitVec.getElem_extractLsb', BitVec.getLsbD_extractLsb', Nat.add_assoc, show s' + i < l by omega, decide_true, Bool.true_and]
theorem capFields_withCursor (b : W192) (c : W64) :
    capFields (withCursor b c) = (c, capBase b, capLimit b, capPerms b, capSeal b, capKind b) := by
  simp (disch := decide) only [capFields, capCursor, capBase, capLimit, capPerms, capSeal, capKind, withCursor,
    BitVec.extractLsb'_append_eq_right (w' := 64), BitVec.extractLsb'_append_eq_of_le (w := 64), extractLsb'_extractLsb']
theorem capFields_withBounds (b : W192) (x y : BitVec 57) :
    capFields (withBounds b x y) = (capCursor b, x.toNat, y.toNat, capPerms b, capSeal b, capKind b) := by
  simp (disch := decide) only [capFields, capCursor, capBase, capLimit, capPerms, capSeal, capKind, withBounds,
    BitVec.extractLsb'_append_eq_right (w' := 64), BitVec.extractLsb'_append_eq_of_le (w := 64),
    BitVec.extractLsb'_append_eq_of_le (w := 57), BitVec.extractLsb'_append_eq_of_le (w := 7),
    BitVec.extractLsb'_append_eq_of_add_le (w := 57), BitVec.extractLsb'_append_eq_of_add_le (w := 7),
    extractLsb'_extractLsb', BitVec.extractLsb'_eq_self, Nat.reduceSub, Nat.reduceAdd]
theorem capFields_withPerms (b : W192) (p : BitVec 7) :
    capFields (withPerms b p) = (capCursor b, capBase b, capLimit b, p, capSeal b, capKind b) := by
  simp (disch := decide) only [capFields, capCursor, capBase, capLimit, capPerms, capSeal, capKind, withPerms,
    BitVec.extractLsb'_append_eq_of_le (w := 121), BitVec.extractLsb'_append_eq_of_le (w := 7),
    BitVec.extractLsb'_append_eq_of_add_le (w := 121), BitVec.extractLsb'_append_eq_of_add_le (w := 7),
    extractLsb'_extractLsb', BitVec.extractLsb'_eq_self, Nat.reduceSub, Nat.reduceAdd]
theorem capFields_withSeal (b : W192) (k : BitVec 3) :
    capFields (withSeal b k) = (capCursor b, capBase b, capLimit b, capPerms b, k, capKind b) := by
  simp (disch := decide) only [capFields, capCursor, capBase, capLimit, capPerms, capSeal, capKind, withSeal,
    BitVec.extractLsb'_append_eq_of_le (w := 185), BitVec.extractLsb'_append_eq_of_le (w := 3),
    BitVec.extractLsb'_append_eq_of_add_le (w := 185), BitVec.extractLsb'_append_eq_of_add_le (w := 3),
    extractLsb'_extractLsb', BitVec.extractLsb'_eq_self, Nat.reduceSub, Nat.reduceAdd]
@[simp] theorem capCursor_withCursor (b : W192) (c : W64) : capCursor (withCursor b c) = c := congrArg (·.1) (capFields_withCursor b c)
@[simp] theorem capCursor_withBounds (b : W192) (x y : BitVec 57) : capCursor (withBounds b x y) = capCursor b :=
  congrArg (·.1) (capFields_withBounds b x y)
@[simp] theorem capCursor_withPerms (b : W192) (p : BitVec 7) : capCursor (withPerms b p) = capCursor b :=
  congrArg (·.1) (capFields_withPerms b p)
@[simp] theorem capCursor_withSeal (b : W192) (k : BitVec 3) : capCursor (withSeal b k) = capCursor b :=
  congrArg (·.1) (capFields_withSeal b k)

theorem capBaseW_eq (r : CReg) : capBaseW r = (r.bits.extractLsb' 64 57).setWidth 64 := BitVec.ofNat_toNat ..
theorem capLimitW_eq (r : CReg) : capLimitW r = (r.bits.extractLsb' 128 57).setWidth 64 := BitVec.ofNat_toNat ..
theorem capTagW_eq (r : CReg) : capTagW r = (r.bits.extractLsb' 185 7 ++ BitVec.ofBool r.tag).setWidth 64 := by
  have kindSeal : BitVec.ofNat 4 (capKind r.bits) ++ capSeal r.bits = r.bits.extractLsb' 185 7 := by
    rw [capKind, capSeal, BitVec.ofNat_toNat, BitVec.setWidth_eq]
    exact BitVec.extractLsb'_append_extractLsb'_eq_extractLsb' rfl
  rw [capTagW, kindSeal]
theorem exec_cget_of {h : Hdr} {o : CapOps} {s : State} {t : Thread} {f : CReg → W64} {v : W64} (hr : Runs h s t) (hv : f (getC t o.a) = v) :
    runThread h (cgetThread f o) s = .next (doneWith h s (setData t o.d v)) := by
  subst hv; exact runThread_of_ok hr rfl

/-- Settles O18, by where each field lies in the image. -/
theorem capabilityFields : Obligations.CapabilityFields := by
  constructor
  · exact fun b => ⟨capFields_withCursor b, capFields_withBounds b, capFields_withPerms b, capFields_withSeal b⟩
  · exact fun h o s t hr => ⟨exec_cget_of hr (capBaseW_eq _), exec_cget_of hr (capLimitW_eq _), exec_cget_of hr rfl, exec_cget_of hr (capTagW_eq _)⟩

/-! ### The five checks -/

section
variable {r : CReg} {ks : List Nat} {p : BitVec 7} {a : W64} {z : Nat}
theorem checkCap_untagged (ht : r.tag = false) : checkCap r ks p a z = .error (capFault .tag a) := by
  simp only [checkCap, ht, Bool.not_false, if_true]
section
variable (ht : r.tag = true)
include ht
theorem checkCap_kind (hk : capKind r.bits ∉ ks) : checkCap r ks p a z = .error (capFault .kind a) := by
  simp [checkCap, ht, hk]
section
variable (hk : capKind r.bits ∈ ks)
include hk
theorem checkCap_sealed (hs : capSeal r.bits ≠ 0) : checkCap r ks p a z = .error (capFault .seal a) := by
  simp [checkCap, ht, hk]; exact fun e => absurd e hs
section
variable (hs : capSeal r.bits = 0)
include hs
theorem checkCap_permission (hp : capPerms r.bits &&& p ≠ p) : checkCap r ks p a z = .error (capFault .permission a) := by
  simp [checkCap, ht, hk, hs, hasPerm, hp]
theorem checkCap_bounds (hp : capPerms r.bits &&& p = p) : checkCap r ks p a z =
    if capBase r.bits ≤ a.toNat ∧ a.toNat + z ≤ capLimit r.bits then .ok () else .error (capFault .bounds a) := by
  simp [checkCap, ht, hk, hs, hasPerm, hp]
end
end
end
end

/-- Settles O29, check by check in their order. -/
theorem capabilityChecks : Obligations.CapabilityChecks := by
  intro r ks p a z
  refine ⟨checkCap_untagged, checkCap_kind, checkCap_sealed, checkCap_permission, fun ht hk hs hp => ?_⟩
  rw [checkCap_bounds ht hk hs hp]
  exact ⟨fun hb => if_pos hb, fun hb => if_neg hb⟩

/-! ### Derivations -/

section
variable {o : CapOps} {t : Thread} {a : CReg} {v : W192}
theorem derive_ok {check : Option Cause} (h : a.tag = true → check = none) : derive o t a check v = .ok (setC t o.d ⟨v, a.tag⟩) := by
  cases ht : a.tag with
  | false => simp only [derive, ht]
  | true => simp only [derive, ht, h ht]
theorem derive_fault {check : Option Cause} {c : Cause} {x : W64} (ht : a.tag = true) (hc : check = some c) (hv : capCursor v = x) :
    derive o t a check v = .error (capFault c x) := by
  simp only [derive, ht, hc, hv]
end

theorem sealCheck_of_sealer {b : CReg} (h : sealer b) : sealCheck b = none := by
  obtain ⟨ht, hs, hp, hlow, hhigh⟩ := h
  simp [sealCheck, ht, hs, hp, hlow, hhigh]
theorem sealCheck_of_fault {b : CReg} {c : Cause} (h : sealFault b c) : sealCheck b = some c := by
  obtain ⟨ht, rfl⟩ | ⟨ht, hs, rfl⟩ | ⟨ht, hs, hp, rfl⟩ | ⟨ht, hs, hp, hb, rfl⟩ := h
  · simp [sealCheck, ht]
  · have hs' : (capSeal b.bits != 0) = true := bne_iff_ne.2 hs
    simp only [sealCheck, ht, hs', Bool.not_true, Bool.false_eq_true, if_false, if_true]
  · simp [sealCheck, ht, hs, hp]
  · simp only [sealCheck, ht, hs, hp, hb, Bool.not_true, Bool.false_eq_true, if_false, bne_self_eq_false]

section
variable {h : Hdr} {o : CapOps} {s : State} {t t1 : Thread} {v : W64} (hr : Runs h s t)

section
variable (hv : readW t o.b = .ok (v, t1))
include hr hv
theorem exec_csetb (check : (getC t o.a).tag = true → capSeal (getC t o.a).bits = 0 ∧
      capBase (getC t o.a).bits ≤ (capCursor (getC t o.a).bits).toNat ∧
      (capCursor (getC t o.a).bits).toNat + v.toNat ≤ capLimit (getC t o.a).bits) :
    exec (.csetb h o) s = .next (doneWith h s (setC t1 o.d ⟨withBounds (getC t o.a).bits ((capCursor (getC t o.a).bits).setWidth 57)
      (BitVec.ofNat 57 ((capCursor (getC t o.a).bits).toNat + v.toNat)), (getC t o.a).tag⟩)) := by
  refine runThread_of_ok hr ?_
  simp only [csetbThread, hv, bind, Except.bind]
  refine derive_ok fun ht => ?_
  obtain ⟨hs, hlow, hhigh⟩ := check ht
  simp [hs, hlow, hhigh]
theorem exec_csetp (check : (getC t o.a).tag = true → capSeal (getC t o.a).bits = 0) :
    exec (.csetp h o) s = .next (doneWith h s (setC t1 o.d
      ⟨withPerms (getC t o.a).bits (capPerms (getC t o.a).bits &&& v.setWidth 7), (getC t o.a).tag⟩)) := by
  refine runThread_of_ok hr ?_
  simp only [csetpThread, hv, bind, Except.bind]
  exact derive_ok fun ht => by simp [check ht]
theorem exec_cadd (check : (getC t o.a).tag = true → capSeal (getC t o.a).bits = 0) :
    exec (.cadd h o) s = .next (doneWith h s (setC t1 o.d
      ⟨withCursor (getC t o.a).bits (capCursor (getC t o.a).bits + v), (getC t o.a).tag⟩)) := by
  refine runThread_of_ok hr ?_
  simp only [caddThread, hv, bind, Except.bind]
  exact derive_ok fun ht => by simp [check ht]
section
variable (ht : (getC t o.a).tag = true)
include ht
theorem exec_cadd_sealed (hs : capSeal (getC t o.a).bits ≠ 0) :
    exec (.cadd h o) s = .next (takeTrap (!h.s) s tCap (capDetail .seal (capCursor (getC t o.a).bits + v))) := by
  refine runThread_of_trap hr ?_
  simp only [caddThread, hv, bind, Except.bind]
  exact derive_fault ht (if_pos (bne_iff_ne.2 hs)) (capCursor_withCursor ..)
theorem exec_csetp_sealed (hs : capSeal (getC t o.a).bits ≠ 0) :
    exec (.csetp h o) s = .next (takeTrap (!h.s) s tCap (capDetail .seal (capCursor (getC t o.a).bits))) := by
  refine runThread_of_trap hr ?_
  simp only [csetpThread, hv, bind, Except.bind]
  exact derive_fault ht (if_pos (bne_iff_ne.2 hs)) (capCursor_withPerms ..)
theorem exec_csetb_sealed (hs : capSeal (getC t o.a).bits ≠ 0) :
    exec (.csetb h o) s = .next (takeTrap (!h.s) s tCap (capDetail .seal (capCursor (getC t o.a).bits))) := by
  refine runThread_of_trap hr ?_
  simp only [csetbThread, hv, bind, Except.bind]
  exact derive_fault ht (if_pos (bne_iff_ne.2 hs)) (capCursor_withBounds ..)
theorem exec_csetb_bounds (hs : capSeal (getC t o.a).bits = 0)
    (hb : ¬(capBase (getC t o.a).bits ≤ (capCursor (getC t o.a).bits).toNat ∧
      (capCursor (getC t o.a).bits).toNat + v.toNat ≤ capLimit (getC t o.a).bits)) :
    exec (.csetb h o) s = .next (takeTrap (!h.s) s tCap (capDetail .bounds (capCursor (getC t o.a).bits))) := by
  refine runThread_of_trap hr ?_
  simp only [csetbThread, hv, bind, Except.bind, hs, bne_self_eq_false, Bool.false_eq_true, if_false, hb]
  exact derive_fault ht rfl (capCursor_withBounds ..)
end
end

section
variable {n : BitVec 6} (hb : o.b = .c n)
include hr hb
theorem exec_cseal (check : (getC t o.a).tag = true → capSeal (getC t o.a).bits = 0 ∧ sealer (getC t n) ∧
      1 ≤ (capCursor (getC t n).bits).toNat ∧ (capCursor (getC t n).bits).toNat ≤ 7) :
    exec (.cseal h o) s = .next (doneWith h s (setC t o.d
      ⟨withSeal (getC t o.a).bits ((capCursor (getC t n).bits).setWidth 3), (getC t o.a).tag⟩)) := by
  refine runThread_of_ok hr ?_
  simp only [csealThread, hb, capOpd]
  refine derive_ok fun ht => ?_
  obtain ⟨hs, ha, hlow, hhigh⟩ := check ht
  simp [hs, sealCheck_of_sealer ha, hlow, hhigh]
theorem exec_cunseal (check : (getC t o.a).tag = true → capSeal (getC t o.a).bits ≠ 0 ∧ sealer (getC t n) ∧
      (capCursor (getC t n).bits).toNat = (capSeal (getC t o.a).bits).toNat) :
    exec (.cunseal h o) s = .next (doneWith h s (setC t o.d ⟨withSeal (getC t o.a).bits 0, (getC t o.a).tag⟩)) := by
  refine runThread_of_ok hr ?_
  simp only [cunsealThread, hb, capOpd]
  refine derive_ok fun ht => ?_
  obtain ⟨hs, ha, heq⟩ := check ht
  simp only [beq_eq_false_iff_ne.2 hs, Bool.false_eq_true, if_false, sealCheck_of_sealer ha, heq, if_true]
/-- the cause with which CSEAL and CUNSEAL stop is that of the check that fails -/
theorem exec_cseal_fault (ht : (getC t o.a).tag = true) {c : Cause}
    (hc : (if capSeal (getC t o.a).bits != 0 then some Cause.seal
      else match sealCheck (getC t n) with
        | some c => some c
        | none => if 1 ≤ (capCursor (getC t n).bits).toNat ∧ (capCursor (getC t n).bits).toNat ≤ 7 then none else some .bounds) = some c) :
    exec (.cseal h o) s = .next (takeTrap (!h.s) s tCap (capDetail c (capCursor (getC t o.a).bits))) := by
  refine runThread_of_trap hr ?_
  simp only [csealThread, hb, capOpd]
  exact derive_fault ht hc (capCursor_withSeal ..)
theorem exec_cunseal_fault (ht : (getC t o.a).tag = true) {c : Cause}
    (hc : (if capSeal (getC t o.a).bits == 0 then some Cause.seal
      else match sealCheck (getC t n) with
        | some c => some c
        | none => if (capCursor (getC t n).bits).toNat = (capSeal (getC t o.a).bits).toNat then none else some .bounds) = some c) :
    exec (.cunseal h o) s = .next (takeTrap (!h.s) s tCap (capDetail c (capCursor (getC t o.a).bits))) := by
  refine runThread_of_trap hr ?_
  simp only [cunsealThread, hb, capOpd]
  exact derive_fault ht hc (capCursor_withSeal ..)
end
end

theorem capabilityDerives : CapabilityDerives := by
  refine ⟨?bounds, ?clear, ?sealing⟩
  case bounds => exact fun h o s t v t1 hr hv => ⟨exec_csetb hr hv, fun hs => ⟨exec_csetp hr hv hs, exec_cadd hr hv hs⟩⟩
  case clear => exact fun h o s t hr => runThread_of_ok hr rfl
  case sealing => exact fun h o s t n hr hb => ⟨exec_cseal hr hb, exec_cunseal hr hb⟩
theorem capabilityDerivationFaults : CapabilityDerivationFaults := by
  intro h o s t v t1 hr hv ht
  refine ⟨?sealed, ?bounds, ?sealing⟩
  case sealed => exact fun hs => ⟨exec_cadd_sealed hr hv ht hs, exec_csetp_sealed hr hv ht hs, exec_csetb_sealed hr hv ht hs⟩
  case bounds => exact exec_csetb_bounds hr hv ht
  case sealing =>
    intro n hb
    refine ⟨?csealSealed, ?cunsealOpen, ?authority, ?range⟩
    case csealSealed => exact fun hs => exec_cseal_fault hr hb ht (by rw [if_pos (bne_iff_ne.2 hs)])
    case cunsealOpen => exact fun hs => exec_cunseal_fault hr hb ht (by rw [if_pos (beq_iff_eq.2 hs)])
    case authority =>
      intro c hc
      exact ⟨fun hs => exec_cseal_fault hr hb ht (by simp [hs, sealCheck_of_fault hc]),
        fun hs => exec_cunseal_fault hr hb ht (by simp only [beq_eq_false_iff_ne.2 hs, Bool.false_eq_true, if_false, sealCheck_of_fault hc])⟩
    case range =>
      intro ha
      exact ⟨fun hs hk => exec_cseal_fault hr hb ht (by simp only [hs, bne_self_eq_false, Bool.false_eq_true, if_false, sealCheck_of_sealer ha, hk]),
        fun hs hk => exec_cunseal_fault hr hb ht
          (by simp only [beq_eq_false_iff_ne.2 hs, Bool.false_eq_true, if_false, sealCheck_of_sealer ha, hk])⟩

/-- Settles O17, derivation by derivation, each with the check that stops it. -/
theorem capabilityDerivations : Obligations.CapabilityDerivations := ⟨capabilityDerives, capabilityDerivationFaults⟩

end Sys2Proof.Proofs.Capabilities

/-! ## Control flow (R379, R380, R385) -/

namespace Sys2Proof.Proofs.ControlFlow
open Sys2Proof.Machine Sys2Proof.Claims Sys2Proof.Laws.State Sys2Proof.Laws.Ops Sys2Proof.Proofs.Operands

/-! ### How a word ends -/

section
variable {h : Hdr} {f : Thread → State → Res} {s : State} {t : Thread} (hr : Runs h s t)
include hr
theorem runState_jump {u : Thread} {pc : W64} (e : f t s = .jump (setCur s u) pc) : runState h f s = .next (jumpWith h s u pc) := by
  rw [runState_true hr.1 hr.2, e]; simp only [finish, retireCur_setCur]; rfl
theorem runState_doneWith {u : Thread} (e : f t s = .done (setCur s u)) : runState h f s = .next (doneWith h s u) := by
  rw [runState_true hr.1 hr.2, e]; simp only [finish, retireCur_setCur, setCur_cur]; rfl
theorem runState_traps {c : BitVec 8} {d : W64} (e : f t s = .trap s c d) : runState h f s = .next (takeTrap (!h.s) s c d) := by
  rw [runState_true hr.1 hr.2, e]; rfl
/-- an effect that changes nothing: the word is done with the thread as it stands -/
theorem runState_same (e : f t s = .done s) : runState h f s = .next (doneWith h s t) := by
  rw [runState_true hr.1 hr.2, e]; simp only [finish, Words.doneWith_self hr.1]
end

/-! ### Transfers -/

section
variable {h : Hdr} {s : State} {t0 t : Thread} {T : W64} {link : Option (BitVec 6)}
theorem branchTo_ok (ok : okTarget s t0 T) : branchTo h s t0 t T none = .jump (setCur s t) T := by
  simp only [branchTo, ok.1, ok.2, ne_eq, not_true_eq_false, if_false, Bool.false_eq_true]
theorem branchTo_link {d : BitVec 6} (ok : okTarget s t0 T) :
    branchTo h s t0 t T (some d) = .jump (setCur s (setData t d (succPc h s.cur.pc))) T := by
  simp only [branchTo, ok.1, ok.2, ne_eq, not_true_eq_false, if_false, Bool.false_eq_true]
theorem branchTo_misaligned (bad : T.toNat % 4 ≠ 0) : branchTo h s t0 t T link = .trap s tMisaligned (addrDetail T) := by
  simp only [branchTo, ne_eq, bad, not_false_eq_true, if_true]
theorem branchTo_mask (aligned : T.toNat % 4 = 0) (mask : isMaskWord s s.cur.core t0 T = true) :
    branchTo h s t0 t T link = .trap s tIllegal 0 := by
  simp only [branchTo, ne_eq, aligned, not_true_eq_false, if_false, mask, if_true]
theorem branchReg_eq {a b : Opd} {x y : W64} {t1 t2 : Thread} (ha : readW t a = .ok (x, t1)) (hb : readW t1 b = .ok (y, t2)) :
    branchReg h a b link t s = branchTo h s t t2 (x + 12 * y) link := by
  simp only [branchReg, ha, hb]
/-- CALLX and RET are BRX with B = 0 (R380) -/
theorem branchReg_zero {a : Opd} {x : W64} {t1 : Thread} (ha : readW t a = .ok (x, t1)) :
    branchReg h a (.imm 64) link t s = branchTo h s t t1 x link := by
  rw [branchReg_eq ha (readW_imm ..), show x + 12 * BitVec.ofInt 64 (immOf 64) = x from BitVec.add_zero x]
end

section
variable (h : Hdr) (s : State)
theorem exec_br (o : BrOps) : exec (.br h o) s = runState h (fun t s => branchTo h s t t (wordTarget s.cur.pc o.off) none) s := rfl
theorem exec_brx (o : BrxOps) : exec (.brx h o) s = runState h (branchReg h o.a o.b none) s := rfl
theorem exec_call (o : CallOps) : exec (.call h o) s = runState h (fun t s => branchTo h s t t (wordTarget s.cur.pc o.off) (some o.d)) s := rfl
theorem exec_callx (o : CallxOps) : exec (.callx h o) s = runState h (branchReg h o.a (.imm 64) (some o.d)) s := rfl
theorem exec_ret (o : RetOps) : exec (.ret h o) s = runState h (branchReg h o.a (.imm 64) none) s := rfl
theorem exec_loop (o : CallOps) : exec (.loop h o) s = runState h (fun t s =>
    if getW t o.d - 1 = 0 then .done (setCur s (setData t o.d (getW t o.d - 1)))
    else branchTo h s t (setData t o.d (getW t o.d - 1)) (wordTarget s.cur.pc o.off) none) s := rfl
end
theorem loop_ends {x : W64} : x - 1 = 0 ↔ x = 1 := by
  constructor <;> intro e <;> bv_omega

theorem branches : Branches := by
  refine ⟨?nop, ?br, ?brx, ?call, ?callx, ?ret, ?loopEnd, ?loop⟩
  case nop => exact fun h s t hr => runState_same (f := fun _ s => .done s) hr rfl
  case br => intro h o s t hr ok; rw [exec_br]; exact runState_jump hr (branchTo_ok ok)
  case brx => intro h o s t a t1 b t2 hr ha hb ok; rw [exec_brx]; exact runState_jump hr ((branchReg_eq ha hb).trans (branchTo_ok ok))
  case call => intro h o s t hr ok; rw [exec_call]; exact runState_jump hr (branchTo_link ok)
  case callx => intro h o s t a t1 hr ha ok; rw [exec_callx]; exact runState_jump hr ((branchReg_zero ha).trans (branchTo_link ok))
  case ret => intro h o s t a t1 hr ha ok; rw [exec_ret]; exact runState_jump hr ((branchReg_zero ha).trans (branchTo_ok ok))
  case loopEnd => intro h o s t hr one; rw [exec_loop]; exact runState_doneWith hr (by rw [one]; rfl)
  case loop =>
    intro h o s t hr more ok
    rw [exec_loop]
    exact runState_jump hr ((if_neg (mt loop_ends.1 more)).trans (branchTo_ok ok))

/-- a transfer to T by a word whose effect is the branch stops as R380 and R373 say -/
theorem badTarget_of_branchTo {i : Instr} {h : Hdr} {f : Thread → State → Res} {s : State} {t u : Thread} {T : W64} {link : Option (BitVec 6)}
    (hr : Runs h s t) (he : exec i s = runState h f s) (hf : f t s = branchTo h s t u T link) : badTarget i h s t T :=
  ⟨fun bad => he.trans (runState_traps hr (hf.trans (branchTo_misaligned bad))),
   fun aligned mask => he.trans (runState_traps hr (hf.trans (branchTo_mask aligned mask)))⟩
theorem branchFaults : BranchFaults := by
  intro h s t hr
  refine ⟨?br, ?brx, ?call, ?callx, ?ret, ?loop⟩
  case br => exact fun o => badTarget_of_branchTo hr (exec_br h s o) rfl
  case brx => exact fun o a t1 b t2 ha hb => badTarget_of_branchTo hr (exec_brx h s o) (branchReg_eq ha hb)
  case call => exact fun o => badTarget_of_branchTo hr (exec_call h s o) rfl
  case callx => exact fun o a t1 ha => badTarget_of_branchTo hr (exec_callx h s o) (branchReg_zero ha)
  case ret => exact fun o a t1 ha => badTarget_of_branchTo hr (exec_ret h s o) (branchReg_zero ha)
  case loop => exact fun o more => badTarget_of_branchTo hr (exec_loop h s o) (if_neg (mt loop_ends.1 more))

/-- Settles O19: every transfer goes through the one check of its target. -/
theorem controlFlow : Obligations.ControlFlow := ⟨branches, branchFaults⟩

end Sys2Proof.Proofs.ControlFlow

/-! ## Traps, returns and signatures (R202, R209, R384, R386, R474-R476) -/

namespace Sys2Proof.Proofs.Traps
open Sys2Proof.Machine Sys2Proof.Claims Sys2Proof.Laws.State Sys2Proof.Laws.Ops Sys2Proof.Proofs.ControlFlow

/-- a code that is no signature fault's takes no core out of placement -/
theorem noteSigFault_other {s : State} {k : Nat} {code : BitVec 8} (h : code ≠ tSig) : noteSigFault s k code = s := by
  simp only [noteSigFault, beq_eq_false_iff_ne.2 h, Bool.false_eq_true, if_false]
theorem enterHandler_handler {t : Thread} (free : t.fw.tin = false) (pc : W64) (code : BitVec 8) (detail : W64) :
    handler t pc code detail (enterHandler t pc code detail) := by
  simp only [enterHandler, free, Bool.false_eq_true, if_false]
  refine ⟨rfl, rfl, rfl, rfl, rfl, rfl, rfl, rfl, rfl, rfl, rfl, rfl, rfl, rfl, rfl, rfl, ?_, ?_, ?_⟩ <;> intro n
  · exact Vector.getElem_replicate ..
  · exact Vector.getElem_replicate ..
  · exact Vector.getElem_replicate ..
theorem enterHandler_double {t : Thread} (inside : t.fw.tin = true) (pc : W64) (code : BitVec 8) (detail : W64) :
    enterHandler t pc code detail = { t with fw := { t.fw with stopped := true } } := by
  simp only [enterHandler, inside, if_true]

section
variable {s : State} {t : Thread} {code : BitVec 8} {detail : W64} (hc : curThread s = some t)
include hc
/-- an access word's trap with nothing before it under way -/
theorem takeTrap_access_firmware (fw : t.id.firmware = true) (hsl : t.slice = []) (hw : t.wide = []) :
    takeTrap false s code detail = setCur (noteTrap s s.cur.core code) (enterHandler t s.cur.pc code detail) :=
  takeTrap_firmware hc fw (.inr hsl) hw
theorem takeTrap_access_firing (fw : t.id.firmware = false) (other : code ≠ tSig) :
    takeTrap false s code detail = killFiring (noteTrap s s.cur.core code) s.cur.core code detail s.cur.pc := by
  rw [takeTrap_firing hc fw, noteSigFault_other other]
end

section
variable (h : Hdr) (s : State)
theorem exec_trap (o : TrapOps) : exec (.trap h o) s = runState h (fun _ s => .trap s tSoft (o.imm.setWidth 64)) s := rfl
theorem exec_sig (o : SigOps) : exec (.sig h o) s = runState h (fun t s =>
    if sigOk t t.sig.crc then .done (setCur s { t with sig := { crc := BitVec.allOnes 32, expected := some o.crc } })
    else sigFault s t t.sig.crc) s := rfl
theorem exec_rett : exec (.rett h) s = runAgent h (.rett h) (rettRes h) s := rfl
end

theorem softTrap : SoftTrap := by
  have taken : ∀ {h : Hdr} {o : TrapOps} {s : State} {t : Thread}, h.s = true → Runs h s t →
      exec (.trap h o) s = .next (takeTrap false s 0x0D (o.imm.setWidth 64)) := by
    intro h o s t ha hr
    rw [exec_trap, runState_traps hr rfl, ha]; rfl
  refine ⟨?enters, ?double, ?killed⟩
  case enters =>
    intro h o s t ha hr fw hsl hw free
    exact ⟨_, by rw [taken ha hr, takeTrap_access_firmware hr.1 fw hsl hw], enterHandler_handler free ..⟩
  case double =>
    intro h o s t ha hr fw hsl hw inside
    rw [taken ha hr, takeTrap_access_firmware hr.1 fw hsl hw, enterHandler_double inside]
  case killed =>
    intro h o s t ha hr fw
    rw [taken ha hr, takeTrap_access_firing hr.1 fw (by decide)]

theorem returnFromTrap : ReturnFromTrap := by
  refine ⟨?returns, ?illegal, ?firing⟩
  case returns =>
    intro h s t hr fw inside ok
    rw [exec_rett, Words.runAgent_of_may hr.1 (by exact fw)]
    exact runState_jump hr ((if_pos inside).trans (branchTo_ok ok))
  case illegal =>
    intro h s t ha hr fw hsl hw free
    have stops : rettRes h t s = .trap s tIllegal 0 := by rw [rettRes, free]; rfl
    refine ⟨_, ?_, enterHandler_handler free ..⟩
    rw [exec_rett, Words.runAgent_of_may hr.1 (by exact fw), runState_traps hr stops, ha]
    exact congrArg Host.Outcome.next (takeTrap_access_firmware hr.1 fw hsl hw)
  case firing =>
    intro h s t ha hr fw
    have mayNot : agentMay t (.rett h) = false := fw
    simp only [exec_rett, runAgent, hr.1, mayNot, Bool.false_eq_true, if_false, ha, Bool.not_true]
    rw [takeTrap_access_firing hr.1 fw (by decide)]; rfl

theorem sigOk_iff {t : Thread} {crc : BitVec 32} : sigOk t crc = true ↔ ∀ e, t.sig.expected = some e → e = ~~~crc := by
  unfold sigOk crcValue
  cases t.sig.expected with
  | none => simp
  | some e => simp
theorem signatureBlock : SignatureBlock := by
  constructor
  · intro h o s t hr agrees
    rw [exec_sig]
    exact runState_doneWith hr (if_pos (sigOk_iff.2 agrees))
  · intro h o s t e hr he differs
    have bad : ¬sigOk t t.sig.crc = true := fun ok => differs (sigOk_iff.1 ok e he)
    rw [exec_sig]
    refine runState_traps hr ((if_neg bad).trans ?_)
    rw [sigFault, he]; rfl

/-- Settles O20, by what each agent's trap comes to and the branch RETT takes. -/
theorem trapsReturnsSignatures : Obligations.TrapsReturnsSignatures := ⟨softTrap, returnFromTrap, signatureBlock⟩

end Sys2Proof.Proofs.Traps

/-! ## Ends of firings (R186, R299, R382, R383) -/

namespace Sys2Proof.Proofs.FiringEnds
open Sys2Proof.Machine Sys2Proof.Claims Sys2Proof.Laws.State Sys2Proof.Laws.Ops Sys2Proof.Proofs.WriteBacks Sys2Proof.Proofs.StoredBytes Sys2Proof.Proofs.ControlFlow
  Sys2Proof.Proofs.Traps

/-! ### What leaves a core its thread: write-backs, and the memory side of an engine -/

section
variable {k : Nat}
theorem threadOf_of_cores {s s' : State} (h : s'.cores = s.cores) : threadOf s' k = threadOf s k := by
  rw [threadOf, threadOf, core_congr h]
/-- a core whose own thread is put back -/
theorem threadOf_setCore_same {s : State} {j : Nat} {x : CoreSt} (h : x.thread = (Machine.core s j).thread) :
    threadOf (setCore s j x) k = threadOf s k := by
  by_cases e : k = j
  · subst e; rw [threadOf, core_setCore_self, h]; rfl
  · rw [threadOf, core_setCore_ne s x e]; rfl
theorem threadOf_foldl {α : Type} {f : State → α → State} (h : ∀ s a, threadOf (f s a) k = threadOf s k) (l : List α) (s : State) :
    threadOf (l.foldl f s) k = threadOf s k := by
  induction l generalizing s with
  | nil => rfl
  | cons a t ih => rw [List.foldl_cons, ih, h]
theorem threadOf_writeOne (s : State) (j sec : Nat) : threadOf (writeOne s j sec) k = threadOf s k := by
  unfold writeOne
  split
  · split
    · refine (threadOf_setCore_same ?_).trans (threadOf_of_cores ?_)
      · rfl
      · rw [performAt_cores, chargeWrite_cores]
    · rfl
  · rfl
theorem threadOf_writeAll (j : Nat) (l : List Nat) (s : State) : threadOf (writeAll s j l) k = threadOf s k := by
  induction l generalizing s with
  | nil => rfl
  | cons a t ih => rw [writeAll, ih, threadOf_writeOne]
theorem threadOf_writeBack (s : State) (j sec : Nat) : threadOf (writeBack s j sec) k = threadOf s k := by
  unfold writeBack
  split
  · split
    · rw [threadOf_writeOne, threadOf_writeAll]
    · exact threadOf_writeOne ..
  · rfl
theorem threadOf_writeBacks (j : Nat) (l : List Nat) (s : State) : threadOf (writeBacks s j l) k = threadOf s k := by
  induction l generalizing s with
  | nil => rfl
  | cons a t ih => rw [writeBacks, ih, threadOf_writeBack]
theorem threadOf_drainCtx (s : State) (j : Nat) (c : BitVec 12) : threadOf (drainCtx s j c) k = threadOf s k := threadOf_writeBacks ..
theorem updCtx_cores (s : State) (c : BitVec 12) (f : Ctx → Ctx) : (updCtx s c f).cores = s.cores := by
  unfold updCtx; split <;> rfl

theorem arrive_cores (s : State) (d : Nat) (p : StockReturn → Bool) : (arrive s d p).cores = s.cores := by
  have each : ∀ (l : List StockReturn) (s : State), (l.foldl applyReturn s).cores = s.cores := by
    intro l
    induction l with
    | nil => exact fun _ => rfl
    | cons a t ih => exact fun s => (ih _).trans rfl
  exact (each _ _).trans rfl
theorem threadOf_recallNow (s : State) (n : Nat) : threadOf (recallNow s n) k = threadOf s k := by
  refine (threadOf_foldl (fun s i => ?_) _ _).trans (threadOf_of_cores (arrive_cores ..))
  have emptied : threadOf (setCore s i (emptyAllow n (Machine.core s i))) k = threadOf s k := threadOf_setCore_same rfl
  exact emptied
theorem threadOf_agentTake {s s' : State} {a n : Nat} (h : agentTake s a n = .got s') : threadOf s' k = threadOf s k := by
  unfold agentTake at h
  simp only at h
  split at h
  · split at h
    · cases h; exact threadOf_of_cores rfl
    · cases h
  · split at h
    · cases h
    · have arrived : threadOf (arrive s (n / 4096) (fun r => r.ctr == n)) k = threadOf s k := threadOf_of_cores (arrive_cores ..)
      split at h
      · have recalled := (threadOf_recallNow (k := k) (arrive s (n / 4096) (fun r => r.ctr == n)) n).trans arrived
        split at h <;> cases h
        exact recalled
      · cases h; exact arrived
theorem threadOf_firstTouch {s s' : State} {cl : Nat} {e : TlbEntry} {r : Option TlbEntry} (h : firstTouch s cl e = .got r s') :
    threadOf s' k = threadOf s k := by
  unfold firstTouch at h
  simp only at h
  split at h
  · cases h
  · cases h
  · next f s1 taken =>
    cases h
    have first : threadOf s1 k = threadOf s k := by
      unfold poolTake at taken
      split at taken
      · cases taken
      · cases taken
      · next s2 got =>
        have took : threadOf s2 k = threadOf s k := threadOf_agentTake got
        split at taken
        · cases taken; exact took
        · cases taken
    rw [← first, fillLeaf]
    split <;> rfl
theorem engUse_state {cl va : Nat} {ctx : BitVec 12} {r : EngTr} {x : Xlat} {s' : State} (h : engUse cl ctx va r = .ok (x, s')) :
    ∃ l, r = .hit x l s' := by
  unfold engUse at h
  split at h
  · split at h
    · cases h
    · split at h <;> cases h
      exact ⟨_, rfl⟩
  · cases h
  · cases h
  · cases h
  · split at h <;> cases h
theorem translateEng_hit {s s' : State} {cl va : Nat} {ctx : BitVec 12} {need : Need} {x : Xlat} {l : W64}
    (h : translateEng s cl ctx va need = .hit x l s') : s' = s := by
  unfold translateEng at h
  split at h
  · cases h
  · split at h
    · repeat (split at h; · cases h)
      cases h; rfl
    · cases h
theorem translateEng_anon {s s' : State} {cl va : Nat} {ctx : BitVec 12} {need : Need} {e : TlbEntry}
    (h : translateEng s cl ctx va need = .anon e s') : s' = s := by
  unfold translateEng at h
  split at h
  · cases h
  · split at h
    · repeat (split at h; · cases h)
      split at h <;> cases h
      rfl
    · cases h
theorem threadOf_engPage {s s' : State} {cl va : Nat} {ctx : BitVec 12} {need : Need} {x : Xlat}
    (h : engPage s cl ctx va need = .ok (x, s')) : threadOf s' k = threadOf s k := by
  unfold engPage at h
  simp only at h
  split at h
  · next e s1 anon =>
    obtain rfl := translateEng_anon anon
    split at h
    · cases h
    · split at h
      · next e' s2 got =>
        obtain ⟨l, hit⟩ := engUse_state h
        rw [translateEng_hit hit, ← threadOf_firstTouch got]
        cases e' <;> rfl
      · cases h
      · cases h
  · obtain ⟨l, hit⟩ := engUse_state h
    rw [translateEng_hit hit]
theorem threadOf_engSector {s s' : State} {cl va : Nat} {ctx : BitVec 12} {x : L2Sector} {y : Xlat}
    (h : engSector s cl ctx va = .ok (x, y, s')) : threadOf s' k = threadOf s k := by
  unfold engSector at h
  simp only [bind, Except.bind] at h
  split at h
  · cases h
  · next r page =>
    split at h
    · cases h
    · cases h
      refine Eq.trans ?_ (threadOf_engPage (x := r.1) page)
      split
      · exact threadOf_of_cores (chargeSec_cores ..)
      · split
        · exact threadOf_of_cores (serveHome_cores ..)
        · exact threadOf_of_cores (readHome_cores ..)
theorem threadOf_engReadF {cl : Nat} {ctx : BitVec 12} (fuel va n : Nat) {s s' : State} {r : EngData}
    (h : engReadF s cl ctx fuel va n = .ok (r, s')) : threadOf s' k = threadOf s k := by
  induction fuel generalizing s va n r with
  | zero => cases h; rfl
  | succ fuel ih =>
    unfold engReadF at h
    split at h
    · cases h; rfl
    · simp only [bind, Except.bind] at h
      split at h
      · cases h
      · next v sector =>
        split at h
        · cases h
        · next w rest => cases h; exact (ih _ _ rest).trans (threadOf_engSector (x := v.1) (y := v.2.1) sector)
theorem threadOf_engPut (s : State) (ctx : BitVec 12) (x : Xlat) (d : BitVec 512) (m : BitVec 64) (a b : BitVec 2) :
    threadOf (engPut s ctx x d m a b) k = threadOf s k := by
  unfold engPut
  simp only
  split
  · rw [threadOf_of_cores (setMem_cores ..), threadOf_of_cores (chargeSec_cores ..)]
  · rw [threadOf_of_cores (performAt_cores ..), threadOf_of_cores (chargeWrite_cores ..)]
theorem threadOf_engStorePage {s s' : State} {cl va : Nat} {ctx : BitVec 12} {x : Xlat} (h : engStorePage s cl ctx va = .ok (x, s')) :
    threadOf s' k = threadOf s k := by
  unfold engStorePage at h
  simp only [bind, Except.bind] at h
  split at h
  · cases h
  · next r page => split at h <;> cases h; exact threadOf_engPage (x := r.1) page
theorem threadOf_engWriteF {cl : Nat} {ctx : BitVec 12} (fuel va : Nat) (bs : List Byte) {s s' : State}
    (h : engWriteF s cl ctx fuel va bs = .ok s') : threadOf s' k = threadOf s k := by
  induction fuel generalizing s va bs with
  | zero => cases h; rfl
  | succ fuel ih =>
    unfold engWriteF at h
    split at h
    · cases h; rfl
    · simp only [bind, Except.bind] at h
      split at h
      · cases h
      · next r page => exact (ih _ _ h).trans ((threadOf_engPut ..).trans (threadOf_engStorePage (x := r.1) page))

/-! ### The marks of validity cells (R262) -/

/-- an engine's step that ends done leaves core `k` its thread -/
def KeepsThread (k : Nat) {α : Type} (f : KM α) : Prop := ∀ s a s', f s = .ok (a, s') → threadOf s' k = threadOf s k
theorem keepsThread_pure {α : Type} (a : α) : KeepsThread k (pure a : KM α) := by intro s b s' h; cases h; rfl
theorem keepsThread_ite {c : Prop} [Decidable c] {α : Type} {f g : KM α} (hf : KeepsThread k f) (hg : KeepsThread k g) :
    KeepsThread k (if c then f else g) := by split <;> assumption
theorem keepsThread_get : KeepsThread k (get : KM State) := by intro s b s' h; cases h; rfl
theorem keepsThread_bind {α β : Type} {f : KM α} {g : α → KM β} (hf : KeepsThread k f) (hg : ∀ a, KeepsThread k (g a)) :
    KeepsThread k (f >>= g) := by
  intro s b s' h
  simp only [bind, StateT.bind, Except.bind] at h
  split at h
  · cases h
  · next r first => exact (hg _ _ _ _ h).trans (hf _ r.1 r.2 first)
theorem keepsThread_kCheck (ok : Bool) (n : Nat) : KeepsThread k (kCheck ok n) := by
  intro s b s' h
  unfold kCheck at h
  split at h
  · cases h; rfl
  · cases h
theorem keepsThread_kLift {α : Type} {f : State → Except EngStop (α × State)} (hf : ∀ s a s', f s = .ok (a, s') → threadOf s' k = threadOf s k) :
    KeepsThread k (kLift f) := by
  intro s b s' h
  unfold kLift kTry at h
  split at h
  · next r done => cases h; exact hf _ _ _ done
  · cases h
  · cases h
  · cases h
  · cases h
theorem keepsThread_kFor {α : Type} {f : α → KM Unit} (hf : ∀ a, KeepsThread k (f a)) (l : List α) : KeepsThread k (kFor f l) := by
  induction l with
  | nil => exact keepsThread_pure ()
  | cons a t ih => exact keepsThread_bind (hf a) fun _ => ih
theorem keepsThread_kBytes (q : Seq) (va n : Nat) : KeepsThread k (kBytes q va n) :=
  keepsThread_bind (keepsThread_kLift fun _ _ _ h => threadOf_engReadF _ _ _ h) fun _ =>
    keepsThread_bind (keepsThread_kCheck _ _) fun _ => keepsThread_pure _
theorem keepsThread_kCap (q : Seq) (va : Nat) : KeepsThread k (kCap q va) := by
  refine keepsThread_bind (keepsThread_kLift fun s a s' h => ?_) fun _ => keepsThread_bind (keepsThread_kCheck _ _) fun _ => keepsThread_pure _
  split at h
  · next sector => cases h; exact threadOf_engSector sector
  · cases h
theorem keepsThread_kRaw (q : Seq) (va : Nat) (bs : List Byte) : KeepsThread k (kRaw q va bs) := by
  refine keepsThread_kLift fun s a s' h => ?_
  split at h
  · next written => cases h; exact threadOf_engWriteF _ _ _ written
  · cases h
theorem keepsThread_kClean (q : Seq) (va : Nat) : KeepsThread k (kClean q va) :=
  keepsThread_bind (keepsThread_kLift fun _ _ _ h => threadOf_engPage h) fun _ => keepsThread_bind keepsThread_get fun _ => keepsThread_kCheck _ _
theorem keepsThread_kPut (q : Seq) (va n v : Nat) : KeepsThread k (kPut q va n v) :=
  keepsThread_bind (keepsThread_kFor (fun _ => keepsThread_kClean _ _) _) fun _ => keepsThread_kRaw _ _ _
theorem keepsThread_readDesc (q : Seq) : KeepsThread k (readDesc q) :=
  keepsThread_bind (keepsThread_kBytes _ _ _) fun _ => keepsThread_bind (keepsThread_kCap _ _) fun _ => keepsThread_bind (keepsThread_kCap _ _) fun _ =>
    keepsThread_bind (keepsThread_kCap _ _) fun _ => keepsThread_bind (keepsThread_kCap _ _) fun _ => keepsThread_bind (keepsThread_kCap _ _) fun _ =>
      keepsThread_bind (keepsThread_kCap _ _) fun _ => keepsThread_bind (keepsThread_kCap _ _) fun _ =>
        keepsThread_bind (keepsThread_kCheck _ _) fun _ => keepsThread_pure _
theorem keepsThread_mapCap (q : Seq) (d : Desc) : KeepsThread k (mapCap q d) :=
  keepsThread_bind (keepsThread_kBytes _ _ _) fun _ => keepsThread_bind (keepsThread_kCheck _ _) fun _ => keepsThread_pure _
theorem keepsThread_getCell (q : Seq) (d : Desc) (cap l c : Nat) : KeepsThread k (getCell q d cap l c) :=
  keepsThread_bind (keepsThread_bind (keepsThread_kBytes _ _ _) fun _ => keepsThread_pure _) fun _ => keepsThread_pure _
theorem keepsThread_markItem (running : Bool) (it : Item) : KeepsThread k (markItem running it) := by
  refine keepsThread_bind keepsThread_get fun s => ?_
  split
  · exact keepsThread_pure ()
  · refine keepsThread_bind (keepsThread_readDesc _) fun d => keepsThread_bind (keepsThread_mapCap _ _) fun cap => keepsThread_kFor (fun c => ?_) _
    refine keepsThread_bind (keepsThread_getCell _ _ _ _ _) fun x => ?_
    exact keepsThread_ite (keepsThread_kPut _ _ _ _) (keepsThread_pure ())
theorem setCounters_cores (d : Nat) (w : Map Counter) (s : State) : (w.foldl (fun s c =>
    if keepRequest (counterOf s d c.1) c.2 = counterOf s d c.1 then s else setCounter s d c.1 (keepRequest (counterOf s d c.1) c.2)) s).cores = s.cores := by
  induction w generalizing s with
  | nil => rfl
  | cons a t ih => rw [List.foldl_cons, ih]; split <;> rfl
theorem keepRequests_cores (s w : State) : (keepRequests s w).cores = s.cores := by
  unfold keepRequests
  generalize w.dies = l
  induction l generalizing s with
  | nil => rfl
  | cons a t ih => rw [List.foldl_cons, ih]; exact setCounters_cores ..
theorem keepAsked_cores (s w : State) : (keepAsked s w).cores = s.cores := by
  unfold keepAsked
  simp only
  rw [keepRequests_cores]
  generalize w.clusters = l
  induction l generalizing s with
  | nil => rfl
  | cons a t ih => rw [List.foldl_cons, ih]; split <;> rfl
theorem threadOf_doMarks (l : List CellMark) (s : State) : threadOf (doMarks l s) k = threadOf s k := by
  induction l generalizing s with
  | nil => rfl
  | cons m t ih =>
    unfold doMarks
    split
    · exact ih s
    · split
      · next done => exact (ih _).trans (keepsThread_markItem _ _ _ _ _ done)
      · exact threadOf_of_cores (keepAsked_cores ..)
      · exact ih s
theorem threadOf_unclaimCells (s : State) (b : Batch) : threadOf (unclaimCells s b) k = threadOf s k := by
  refine threadOf_foldl (fun s x => threadOf_foldl (fun s it => ?_) _ _) _ _
  unfold itemClaimed
  split
  · rfl
  · exact threadOf_doMarks ..

/-! ### A batch leaves its cores -/

theorem threadOf_leaveAtomic (s : State) (j : Nat) (t : Thread) : threadOf (leaveAtomic s j t) k = threadOf s k := by
  unfold leaveAtomic
  split
  · exact threadOf_of_cores (performAt_cores ..)
  · rfl
theorem threadOf_forgetMisses (s : State) (j : Nat) (c : BitVec 12) : threadOf (forgetMisses s j c) k = threadOf s k := by
  have left : threadOf (leaveEvents s j c) k = threadOf s k := threadOf_of_cores (updCtx_cores ..)
  rw [← left]
  exact threadOf_setCore_same (s := leaveEvents s j c) (j := j) rfl
/-- a thread that goes leaves its core without one, and the others theirs -/
theorem threadOf_dropThread (s : State) (j : Nat) : threadOf (dropThread s j) k = if k = j then none else threadOf s k := by
  unfold dropThread
  split
  · next empty =>
    split
    · next e => subst e; exact empty
    · rfl
  · next t there =>
    simp only
    rw [threadOf_forgetMisses]
    generalize hc : freeLines _ _ = c
    have gone : c.thread = none := by rw [← hc]; rfl
    change threadOf (leaveAtomic (setCore s j c) j t) k = _
    rw [threadOf_leaveAtomic]
    split
    · next e => subst e; rw [threadOf, core_setCore_self, gone]
    · next e => rw [threadOf, core_setCore_ne s _ e]; rfl
theorem threadOf_dropThreads (l : List Nat) (s : State) : threadOf (l.foldl dropThread s) k = if k ∈ l then none else threadOf s k := by
  induction l generalizing s with
  | nil => rfl
  | cons a t ih =>
    rw [List.foldl_cons, ih, threadOf_dropThread]
    by_cases e : k = a <;> by_cases m : k ∈ t <;> simp [e, m]
theorem mem_of_mfind {α : Type} {m : Map α} {q : Nat} {x : α} (h : mfind m q = some x) : (q, x) ∈ m := by
  induction m with
  | nil => cases h
  | cons a t ih =>
    obtain ⟨j, v⟩ := a
    rw [mfind] at h
    split at h
    · next e => cases h; subst e; exact List.mem_cons_self
    · exact List.mem_cons_of_mem _ (ih h)
theorem mem_batchCores {s : State} {t : Thread} (h : threadOf s k = some t) (f : t.id.firmware = false) : k ∈ batchCores s t.id.batch := by
  have there : (k, Machine.core s k) ∈ s.cores := by
    refine mem_of_mfind ?_
    cases e : mfind s.cores k with
    | none => simp [threadOf, Machine.core, mget, e, coreReset] at h
    | some x => simp [Machine.core, mget, e]
  have own : (Machine.core s k).thread = some t := h
  exact List.mem_map.2 ⟨_, List.mem_filter.2 ⟨there, by simp [own, f]⟩, rfl⟩
/-- the core that runs a batch holds no thread once it is dropped -/
theorem threadOf_dropBatch {s : State} {t : Thread} (h : threadOf s k = some t) (f : t.id.firmware = false) :
    threadOf (dropBatch s t.id.batch) k = none := by
  rw [dropBatch, threadOf_dropThreads, if_pos (mem_batchCores h f)]
theorem findBatchOf_id {s : State} {t : Thread} {f : Frame} {b : Batch} (h : findBatchOf s t = some (f, b)) : b.id = t.id.batch := by
  unfold findBatchOf at h
  split at h
  · next g _ =>
    obtain ⟨b', found, e⟩ := Option.map_eq_some_iff.1 h
    cases e
    exact beq_iff_eq.1 (List.find?_some (p := fun x : Batch => x.id == t.id.batch) found)
  · cases h
/-- an aborted firing leaves its core -/
theorem threadOf_finishFiring_abort {s : State} {t : Thread} (h : threadOf s k = some t) (f : t.id.firmware = false) :
    threadOf (finishFiring 2 s [(k, t)] t) k = none := by
  have drained : threadOf (drainCtx s k t.id.ctx) k = some t := (threadOf_drainCtx ..).trans h
  simp only [finishFiring, List.foldl_cons, List.foldl_nil]
  split
  · exact threadOf_dropBatch drained f
  · next found =>
    rw [if_pos trivial, findBatchOf_id found]
    refine threadOf_dropBatch (t := t) ?_ f
    exact (threadOf_of_cores rfl).trans ((threadOf_unclaimCells ..).trans drained)
end

/-! ### FIN and YIELD -/

section
variable (h : Hdr) (s : State)
theorem exec_finCommit : exec (.finCommit h) s = runState h (finRes 0) s := rfl
theorem exec_finAgain : exec (.finAgain h) s = runState h (finRes 1) s := rfl
theorem exec_finAbort : exec (.finAbort h) s = runState h (finRes 2) s := rfl
theorem exec_yield : exec (.yield h) s = runState h (yieldRes h) s := rfl
end
theorem finRes_of_finOk {s : State} {t : Thread} (ok : finOk s t) (minor : Nat) :
    finRes minor t s = .gone (finishFiring minor (setCur s (atFin minor t)) [(s.cur.core, atFin minor t)] (atFin minor t)) := by
  obtain ⟨agrees, hsl, hw, hd, hsec, fw, gang, port⟩ := ok
  simp [finRes, sigOk_iff.2 agrees, finReady, hsl, hw, hd, port, hsec, fw, gang, atFin]
theorem runState_gone {h : Hdr} {f : Thread → State → Res} {s s' : State} {t : Thread} (hr : Runs h s t) (e : f t s = .gone s') :
    runState h f s = .next s' := by
  rw [runState_true hr.1 hr.2, e]; rfl
theorem finEndsFiring : FinEndsFiring := by
  intro h s t hr ok
  refine ⟨?_, ?_, finishFiring 2 (setCur s (atFin 2 t)) [(s.cur.core, atFin 2 t)] (atFin 2 t), ?_, fun _ => ?_⟩
  · rw [exec_finCommit]; exact runState_gone hr (finRes_of_finOk ok 0)
  · rw [exec_finAgain]; exact runState_gone hr (finRes_of_finOk ok 1)
  · rw [exec_finAbort]; exact runState_gone hr (finRes_of_finOk ok 2)
  · obtain ⟨-, -, -, -, -, fw, -⟩ := ok
    exact threadOf_finishFiring_abort (t := atFin 2 t) (curThread_setCur s (atFin 2 t)) fw
theorem yieldGoesOn : YieldGoesOn := by
  intro h s t hr alone
  have stays : yieldRes h t s = .done s := by
    unfold yieldRes
    obtain p | fw | none := alone
    · simp [p]
    · simp [fw]
    · simp [none]
  rw [exec_yield]; exact runState_same hr stays

/-- Settles O22, by what FIN checks, and since a batch that is dropped leaves its cores. -/
theorem firingEndsAndYields : Obligations.FiringEndsAndYields := ⟨finEndsFiring, yieldGoesOn⟩

end Sys2Proof.Proofs.FiringEnds

/-! ## Control registers (R463-R468) -/

namespace Sys2Proof.Proofs.ControlRegisters
open Sys2Proof.Machine Sys2Proof.Claims Sys2Proof.Laws.State Sys2Proof.Laws.Ops Sys2Proof.Proofs.ControlFlow

/-! ### CTLRD -/

section
variable (h : Hdr) (s : State)
theorem exec_ctlrd (o : CtlrdOps) : exec (.ctlrd h o) s = runAgent h (.ctlrd h o) (ctlrdRes o) s := rfl
theorem exec_ctlwr (o : CtlwrOps) : exec (.ctlwr h o) s = runAgent h (.ctlwr h o) (onThread (ctlwrThread o)) s := rfl
end

/-- a register whose value the spec states reads as `v` -/
theorem exec_ctlrd_of {h : Hdr} {s : State} {t : Thread} {d : BitVec 6} {r : BitVec 12} {v : W64} (hr : Runs h s t)
    (may : agentMay t (.ctlrd h ⟨d, r⟩) = true) (stated : (r == 0x119 && (mfind s.fw.beats s.cur.core).isNone) = false)
    (hv : kregValue s s.cur.core t r = v) : exec (.ctlrd h ⟨d, r⟩) s = .next (doneWith h s (setData t d v)) := by
  rw [exec_ctlrd, Words.runAgent_of_may hr.1 may]
  refine runState_doneWith hr ?_
  simp only [ctlrdRes, stated, Bool.false_eq_true, if_false, hv]
theorem agentMay_firmware {h : Hdr} {t : Thread} {d : BitVec 6} {r : BitVec 12} (fw : t.id.firmware = true) (reads : firmwareKreg r = true) :
    agentMay t (.ctlrd h ⟨d, r⟩) = true := by simp only [agentMay, fw, if_true, reads]
theorem agentMay_firing {h : Hdr} {t : Thread} {d : BitVec 6} {r : BitVec 12} (fw : t.id.firmware = false) (reads : firingKreg r = true) :
    agentMay t (.ctlrd h ⟨d, r⟩) = true := by simp only [agentMay, fw, Bool.false_eq_true, if_false, reads]
theorem agentMay_both {h : Hdr} {t : Thread} {d : BitVec 6} {r : BitVec 12} (a : firmwareKreg r = true) (b : firingKreg r = true) :
    agentMay t (.ctlrd h ⟨d, r⟩) = true := by
  cases fw : t.id.firmware with
  | true => exact agentMay_firmware fw a
  | false => exact agentMay_firing fw b

theorem headMiss_service {s : State} {k : Nat} {m : Miss} {r : List Miss} (sv : isService k = true)
    (hm : (cluster s (clusterOf k)).misses = m :: r) : headMiss s k = some m := by
  rw [headMiss, if_pos sv, hm]; rfl
theorem headMiss_none {s : State} {k : Nat} (h : isService k = false ∨ (cluster s (clusterOf k)).misses = []) : headMiss s k = none := by
  unfold headMiss
  obtain h | h := h
  · simp [h]
  · simp [h]

/-! The registers read from the head miss and from the heartbeats -/

theorem kregValue_missWord (s : State) (k : Nat) (t : Thread) : kregValue s k t 0x110 = ((headMiss s k).map missWord).getD 0 := by
  change (match headMiss s k with | some m => missWord m | none => (0 : W64)) = _
  cases headMiss s k <;> rfl
theorem kregValue_missVa (s : State) (k : Nat) (t : Thread) : kregValue s k t 0x111 = ((headMiss s k).map fun m => BitVec.ofNat 64 m.va).getD 0 := by
  change (match headMiss s k with | some m => BitVec.ofNat 64 m.va | none => (0 : W64)) = _
  cases headMiss s k <;> rfl
theorem kregValue_wdog {s : State} {k : Nat} (t : Thread) {b : Nat × BitVec 16} (hb : mfind s.fw.beats k = some b) :
    kregValue s k t 0x119 = BitVec.ofNat 64 (min (s.time - b.1) (2 ^ 64 - 1)) := by
  change (match mfind s.fw.beats k with | some b => BitVec.ofNat 64 (min (s.time - b.1) (2 ^ 64 - 1)) | none => (0 : W64)) = _
  rw [hb]

/-! k.image: the kind in [1:0], the slot in [2], the proving window in [3] -/

/-- whether the new image of a core's kind is being proved -/
def provesImage (s : State) (k : Nat) : Bool := match s.fw.shoring with | some r => r.kind == imageKind k && r.phase == .proving | none => false
/-- whether the image of a core's kind runs from the staging slot -/
def stagedImage (s : State) (k : Nat) : Bool :=
  match s.fw.shoring with
  | some r => if r.kind == imageKind k && (r.phase == .acceptance || r.phase == .proving) then r.image.staged else committedStaged s (imageKind k)
  | none => committedStaged s (imageKind k)
theorem imageWord_eq (s : State) (k : Nat) :
    imageWord s k = BitVec.ofNat 64 (imageKind k + (if stagedImage s k then 4 else 0) + (if provesImage s k then 8 else 0)) := rfl
theorem imageKind_lt (k : Nat) : imageKind k < 3 := by
  unfold imageKind
  split
  · decide
  · split <;> decide
theorem provesImage_iff (s : State) (k : Nat) :
    provesImage s k = true ↔ ∃ r, s.fw.shoring = some r ∧ r.kind = imageKind k ∧ r.phase = .proving := by
  unfold provesImage
  cases s.fw.shoring with
  | none => simp
  | some r => simp
/-- the fields of the word, whatever the three parts are -/
theorem imageFields (n : Fin 3) (staged proving : Bool) :
    (BitVec.ofNat 64 (n.val + (if staged then 4 else 0) + (if proving then 8 else 0))).extractLsb' 0 2 = BitVec.ofNat 2 n.val ∧
    (BitVec.ofNat 64 (n.val + (if staged then 4 else 0) + (if proving then 8 else 0))).extractLsb' 4 60 = 0 ∧
    (BitVec.ofNat 64 (n.val + (if staged then 4 else 0) + (if proving then 8 else 0))).getLsbD 2 = staged ∧
    (BitVec.ofNat 64 (n.val + (if staged then 4 else 0) + (if proving then 8 else 0))).getLsbD 3 = proving := by
  revert n staged proving; decide
theorem imageReads_imageWord (s : State) : imageReads s (imageWord s s.cur.core) := by
  obtain ⟨kind, rest, staged, proving⟩ := imageFields ⟨imageKind s.cur.core, imageKind_lt _⟩ (stagedImage s s.cur.core) (provesImage s s.cur.core)
  rw [imageWord_eq]
  refine ⟨kind, rest, fun none => staged.trans ?_, ?_⟩
  · rw [stagedImage, none]
  · rw [proving]; exact provesImage_iff s _

section
variable {h : Hdr} {s : State} {t : Thread} (hr : Runs h s t) (d : BitVec 6)
include hr
section
variable (fw : t.id.firmware = true)
include fw
/-- a register that firmware reads, but for k.wdog -/
theorem exec_ctlrd_firmware {r : BitVec 12} {v : W64} (reads : firmwareKreg r = true) (other : (r == 0x119) = false)
    (hv : kregValue s s.cur.core t r = v) : exec (.ctlrd h ⟨d, r⟩) s = .next (doneWith h s (setData t d v)) :=
  exec_ctlrd_of hr (agentMay_firmware fw reads) (by rw [other]; rfl) hv
theorem exec_ctlrd_wdog {b : Nat × BitVec 16} (hb : mfind s.fw.beats s.cur.core = some b) :
    exec (.ctlrd h ⟨d, 0x119⟩) s = .next (doneWith h s (setData t d (BitVec.ofNat 64 (min (s.time - b.1) (2 ^ 64 - 1))))) :=
  exec_ctlrd_of hr (agentMay_firmware fw (by decide)) (by rw [hb]; rfl) (kregValue_wdog t hb)
theorem exec_ctlrd_wdog_free (hb : mfind s.fw.beats s.cur.core = none) :
    exec (.ctlrd h ⟨d, 0x119⟩) s = .next (doneWith h (freeValue s).2 (setData t d (freeValue s).1)) := by
  rw [exec_ctlrd, Words.runAgent_of_may hr.1 (agentMay_firmware fw (by decide))]
  refine StockCounters.runState_done hr ?_
  simp only [ctlrdRes, hb, Option.isNone_none, beq_self_eq_true, Bool.and_self, if_true]
end
theorem exec_ctlrd_firing {r : BitVec 12} {v : W64} (fw : t.id.firmware = false) (reads : firingKreg r = true) (other : (r == 0x119) = false)
    (hv : kregValue s s.cur.core t r = v) : exec (.ctlrd h ⟨d, r⟩) s = .next (doneWith h s (setData t d v)) :=
  exec_ctlrd_of hr (agentMay_firing fw reads) (by rw [other]; rfl) hv
theorem exec_ctlrd_both {r : BitVec 12} {v : W64} (a : firmwareKreg r = true) (b : firingKreg r = true) (other : (r == 0x119) = false)
    (hv : kregValue s s.cur.core t r = v) : exec (.ctlrd h ⟨d, r⟩) s = .next (doneWith h s (setData t d v)) :=
  exec_ctlrd_of hr (agentMay_both a b) (by rw [other]; rfl) hv
end

/-! ### The event counters -/

theorem evReg_reads (i : Fin 8) : firmwareKreg (0x018 + BitVec.ofNat 12 i.val) = true ∧ firingKreg (0x018 + BitVec.ofNat 12 i.val) = true ∧
    ((0x018 + BitVec.ofNat 12 i.val : BitVec 12) == 0x119) = false ∧ (0x018 + BitVec.ofNat 12 i.val : BitVec 12).toNat = 0x018 + i.val := by
  revert i; decide
theorem evReg_writes (i : Fin 8) (fw : Bool) : writableKreg fw (0x018 + BitVec.ofNat 12 i.val) = true := by revert i fw; decide
theorem evc_getD (v : Vector (BitVec 32) 8) (i : Fin 8) : v.toList.getD i.val 0 = v[i] := by
  rw [List.getD_eq_getElem _ _ (by rw [Vector.length_toList]; exact i.isLt)]; rfl
theorem kregValue_evReg (s : State) (k : Nat) (t : Thread) (i : Fin 8) :
    kregValue s k t (0x018 + BitVec.ofNat 12 i.val) = (t.regs.evc[i]).setWidth 64 := by
  rw [← evc_getD]
  match i with
  | 0 | 1 | 2 | 3 | 4 | 5 | 6 | 7 => rfl
theorem writeKreg_evReg (t : Thread) (i : Fin 8) (v : W64) :
    writeKreg t (0x018 + BitVec.ofNat 12 i.val) v = { t with regs := { t.regs with evc := t.regs.evc.set i.val (v.setWidth 32) i.isLt } } := by
  have inside : t.regs.evc.set i.val (v.setWidth 32) i.isLt = t.regs.evc.setIfInBounds i.val (v.setWidth 32) := by
    ext j hj; simp [Vector.getElem_set, Vector.getElem_setIfInBounds]
  rw [inside]
  match i with
  | 0 | 1 | 2 | 3 | 4 | 5 | 6 | 7 => rfl

/-! ### CTLWR -/

theorem exec_ctlwr_of {h : Hdr} {s : State} {t u w : Thread} {b : Opd} {r : BitVec 12} {v : W64} (hr : Runs h s t)
    (may : writableKreg t.id.firmware r = true) (hb : readW t b = .ok (v, u)) (hw : writeKreg u r v = w) :
    exec (.ctlwr h ⟨b, r⟩) s = .next (doneWith h s w) := by
  have may : agentMay t (.ctlwr h ⟨b, r⟩) = true := may
  rw [exec_ctlwr, Words.runAgent_of_may hr.1 may]
  refine Integers.runThread_of_ok (f := ctlwrThread ⟨b, r⟩) hr ?_
  simp only [ctlwrThread, hb, bind, Except.bind, hw]
theorem writes_fpmode (fw : Bool) : writableKreg fw 0x010 = true := by revert fw; decide

/-- Settles O21, register by register. -/
theorem controlRegisters : Obligations.ControlRegisters := by
  refine ⟨?firmware, ?firing, ?both, ?budget, ?budgetFree, ?fp, ?write, ?writeFirmware⟩
  case firmware =>
    intro h d s t hr fw
    refine ⟨?_, ?_, ?_, ?_, ?_, ?_, ?_, ?_, ?_, ?_, ?_, ?_⟩
    · exact exec_ctlrd_firmware hr d fw (by decide) (by decide) rfl
    · exact exec_ctlrd_firmware hr d fw (by decide) (by decide) rfl
    · exact exec_ctlrd_firmware hr d fw (by decide) (by decide) rfl
    · exact exec_ctlrd_firmware hr d fw (by decide) (by decide) rfl
    · exact exec_ctlrd_firmware hr d fw (by decide) (by decide) rfl
    · refine exec_ctlrd_firmware hr d fw (by decide) (by decide) ?_
      change (BitVec.ofBool t.fw.tin).setWidth 64 = _
      cases t.fw.tin <;> rfl
    · refine exec_ctlrd_firmware hr d fw (by decide) (by decide) ?_
      change (if t.id.firmware then 0 else t.id.ctx.setWidth 64) = _
      rw [if_pos fw]
    · intro m r sv hm
      constructor
      · refine exec_ctlrd_firmware hr d fw (by decide) (by decide) ?_
        rw [kregValue_missWord, headMiss_service sv hm]; rfl
      · refine exec_ctlrd_firmware hr d fw (by decide) (by decide) ?_
        rw [kregValue_missVa, headMiss_service sv hm]; rfl
    · intro none
      constructor
      · refine exec_ctlrd_firmware hr d fw (by decide) (by decide) ?_
        rw [kregValue_missWord, headMiss_none none]; rfl
      · refine exec_ctlrd_firmware hr d fw (by decide) (by decide) ?_
        rw [kregValue_missVa, headMiss_none none]; rfl
    · exact ⟨_, exec_ctlrd_firmware hr d fw (by decide) (by decide) rfl, imageReads_imageWord s⟩
    · exact fun b hb => exec_ctlrd_wdog hr d fw hb
    · exact exec_ctlrd_wdog_free hr d fw
  case firing =>
    intro h d s t hr fw
    refine ⟨?_, ?_, ?_⟩
    · refine exec_ctlrd_firing hr d fw (by decide) (by decide) ?_
      change (if t.id.firmware then 0 else t.id.ctx.setWidth 64) = _
      rw [fw]; rfl
    · exact exec_ctlrd_firing hr d fw (by decide) (by decide) rfl
    · exact exec_ctlrd_firing hr d fw (by decide) (by decide) rfl
  case both =>
    intro h d s t hr
    exact ⟨exec_ctlrd_both hr d (by decide) (by decide) (by decide) rfl, exec_ctlrd_both hr d (by decide) (by decide) (by decide) rfl,
      exec_ctlrd_both hr d (by decide) (by decide) (by decide) rfl⟩
  case budget =>
    intro h d s t x hr fw hx limited
    refine exec_ctlrd_firing hr d fw (by decide) (by decide) ?_
    change budgetWord s t.id.ctx = _
    simp only [budgetWord, hx, limited, if_false, pairWord]
  case budgetFree =>
    intro h d s t x hr fw hx free
    refine exec_ctlrd_firing hr d fw (by decide) (by decide) ?_
    change budgetWord s t.id.ctx = _
    simp only [budgetWord, hx, free, if_true, pairWord]
  case fp =>
    intro h d s t hr
    refine ⟨exec_ctlrd_both hr d (by decide) (by decide) (by decide) rfl, fun i => ?_⟩
    obtain ⟨a, b, other, -⟩ := evReg_reads i
    exact exec_ctlrd_both hr d a b other (kregValue_evReg ..)
  case write =>
    intro h b s t v u hr hb
    exact ⟨exec_ctlwr_of hr (writes_fpmode _) hb rfl, fun i => exec_ctlwr_of hr (evReg_writes i _) hb (writeKreg_evReg ..)⟩
  case writeFirmware =>
    intro h b s t v u hr fw hb
    exact ⟨exec_ctlwr_of hr (by rw [fw]; decide) hb rfl, exec_ctlwr_of hr (by rw [fw]; decide) hb rfl,
      exec_ctlwr_of hr (by rw [fw]; decide) hb rfl, exec_ctlwr_of hr (by rw [fw]; decide) hb rfl⟩

end Sys2Proof.Proofs.ControlRegisters

/-! ## HBEAT (R54, R477) -/

namespace Sys2Proof.Proofs.Heartbeats
open Sys2Proof.Machine Sys2Proof.Claims Sys2Proof.Tests

/-- a firmware thread with an execute word in its slice buffer and, behind it, a definition of stream 0: the definition takes effect
when the execute word is done (R295) -/
def definingThread : Thread :=
  { fwThread with slice := [.word 0 0, .sdef 0 ⟨.skip none, 0, 16, 0, 0⟩] }
/-- the service core of cluster 0 runs that thread; the machine is otherwise as at reset -/
def definingState : State := setThreadOf { State.reset with cur := atWord 1024 0 0 0 } 1024 definingThread

theorem definingState_runs : Runs ex definingState definingThread := by constructor <;> decide +kernel
theorem definingState_inTime : tooLate definingState definingState.cur.core = false := by decide +kernel
/-- the HBEAT of the execute half pops its word and defines the stream behind it -/
theorem hbeat_defines : goes (exec (.hbeat ex ⟨0⟩) definingState)
    (fun s => (threadOf s definingState.cur.core).all fun u => (getS u 0).isSome) = true := by decide +kernel
theorem definingThread_undefined : (getS definingThread 0).isSome = false := by decide +kernel

/-- Refutes O46: its first clause has the registers of HBEAT's thread unchanged for every header, and so for one of the execute half
too (which no word decodes to, R360, but which the clause does not leave out): there the definitions behind the word in the slice
buffer take effect once it is done, and here one of them defines stream 0. -/
theorem not_heartbeatAndIdle : ¬ Obligations.HeartbeatAndIdle := by
  rintro ⟨beats, -⟩
  obtain ⟨s', next, -, -, u, thread, regs⟩ := beats ex ⟨0⟩ definingState definingThread definingState_runs rfl definingState_inTime
  have defined : (getS u 0).isSome = true := by
    have goes' := hbeat_defines
    rw [next] at goes'
    simpa only [goes, thread, Option.all_some] using goes'
  rw [show getS u 0 = getS definingThread 0 by rw [getS, getS, regs], definingThread_undefined] at defined
  exact Bool.false_ne_true defined

end Sys2Proof.Proofs.Heartbeats

/-! ## Translation instructions (R469-R473) -/

namespace Sys2Proof.Proofs.Translation
open Sys2Proof.Machine Sys2Proof.Claims Sys2Proof.Laws.State Sys2Proof.Laws.Ops Sys2Proof.Proofs.Validity Sys2Proof.Proofs.StockCounters
  Sys2Proof.Proofs.FiringEnds Sys2Proof.Proofs.Words Sys2Proof.Proofs.Device

section
variable (h : Hdr) (s : State)
theorem exec_tlbinv (o : TlbinvOps) : exec (.tlbinv h o) s = runAgent h (.tlbinv h o) (tlbinvRes o) s := rfl
theorem exec_tlbprobe (o : TlbprobeOps) : exec (.tlbprobe h o) s = runAgent h (.tlbprobe h o) (tlbprobeRes o) s := rfl
theorem exec_cflush (o : CflushOps) : exec (.cflush h o) s = runAgent h (.cflush h o) (cflushRes o) s := rfl
end

/-! ### Ends of misses leave the threads -/

theorem endMiss_cur (cl : Nat) (how : MissEnd) (m : Miss) (s : State) : (endMiss cl how m s).cur = s.cur := by
  refine foldl_keeps State.cur (fun s k => ?_) m.waiters s
  split <;> rfl
theorem threadOf_endMiss (cl : Nat) (how : MissEnd) (m : Miss) (s : State) (k : Nat) : threadOf (endMiss cl how m s) k = threadOf s k := by
  refine threadOf_foldl (fun s j => ?_) m.waiters s
  split
  · rfl
  · exact threadOf_setCore_same rfl
/-- what the head miss of a cluster ends with leaves the current thread -/
theorem curThread_failHead (cl : Nat) (how : MissEnd) (m : Miss) (s : State) :
    curThread (dropHeadMiss (endMiss cl how m s) cl) = curThread s := by
  change threadOf (endMiss cl how m s) (endMiss cl how m s).cur.core = threadOf s s.cur.core
  rw [endMiss_cur, threadOf_endMiss]
/-- a thread that noted no new peer stays the one its instruction ends with -/
theorem doneAt_of_opn {h : Hdr} {s : State} {t u : Thread} (hs : curThread s = some t) (p : u.opn = t.opn) : doneAt h s u = doneWith h s u := by
  simp only [doneAt, keepPeers, hs, ← p]
theorem setP_opn (t : Thread) (d : BitVec 4) (b : Bool) : (setP t d b).opn = t.opn := by
  unfold setP; split <;> rfl

/-! ### TLBWR -/

section
variable {h : Hdr} {s : State} {t : Thread} (hr : Runs h s t) (o : TlbOps)
include hr
theorem exec_tlbwr_of_may (may : (t.id.firmware || t.id.ctx == 0) = true) :
    exec (.tlbwr h o) s = runState h (tlbwrRes .plain o) s ∧ exec (.tlbwrFill h o) s = runState h (tlbwrRes .fill o) s ∧
    exec (.tlbwrFault h o) s = runState h (tlbwrRes .fault o) s ∧ exec (.tlbwrPeer h o) s = runState h (tlbwrRes .peer o) s :=
  ⟨runAgent_of_may hr.1 may, runAgent_of_may hr.1 may, runAgent_of_may hr.1 may, runAgent_of_may hr.1 may⟩
theorem runState_tlbwr {act : TlbAct} {b : Bool} {s1 : State} (e : tlbwr act s s.cur.core (tlbwrEntry t o) = (b, s1)) :
    runState h (tlbwrRes act o) s = .next (doneWith h s1 (setP t o.d b)) := by
  refine runState_done hr ?_
  simp only [tlbwrRes, e]
/-- the entry of TLBWR stands in the cluster's TLB, or was refused -/
theorem runState_tlbwr_plain : runState h (tlbwrRes .plain o) s = .next (doneWith h
    (if entryOk s (tlbwrEntry t o) then installCluster s (clusterOf s.cur.core) (tlbwrEntry t o) else s) (setP t o.d (entryOk s (tlbwrEntry t o)))) :=
  runState_tlbwr hr o rfl
/-- without a miss at the head the other three answer false -/
theorem runState_tlbwr_idle {act : TlbAct} (a : act ≠ .plain) (none : headMiss s s.cur.core = none) :
    runState h (tlbwrRes act o) s = .next (doneWith h s (setP t o.d false)) := by
  refine runState_tlbwr hr o ?_
  cases act with
  | plain => exact absurd rfl a
  | fill | fault | peer => simp only [tlbwr, none]
section
variable {m : Miss} (hm : headMiss s s.cur.core = some m)
include hm
theorem runState_tlbwr_fault : runState h (tlbwrRes .fault o) s =
    .next (doneAt h (dropHeadMiss (endMiss (clusterOf s.cur.core) .fault m s) (clusterOf s.cur.core)) (setP t o.d true)) := by
  rw [doneAt_of_opn ((curThread_failHead ..).trans hr.1) (setP_opn ..)]
  exact runState_tlbwr hr o (by simp only [tlbwr, hm])
theorem runState_tlbwr_peer : runState h (tlbwrRes .peer o) s =
    .next (doneAt h (dropHeadMiss (endMiss (clusterOf s.cur.core) .peerLost m s) (clusterOf s.cur.core)) (setP t o.d true)) := by
  rw [doneAt_of_opn ((curThread_failHead ..).trans hr.1) (setP_opn ..)]
  exact runState_tlbwr hr o (by simp only [tlbwr, hm])
theorem runState_tlbwr_other (other : sameMiss m (tlbwrEntry t o) = false) :
    runState h (tlbwrRes .fill o) s = .next (doneWith h s (setP t o.d false)) :=
  runState_tlbwr hr o (by simp only [tlbwr, hm, other, Bool.not_false, if_true])
theorem runState_tlbwr_refused (same : sameMiss m (tlbwrEntry t o) = true) (no : entryOk s (tlbwrEntry t o) = false) :
    runState h (tlbwrRes .fill o) s =
      .next (doneAt h (dropHeadMiss (endMiss (clusterOf s.cur.core) .fault m s) (clusterOf s.cur.core)) (setP t o.d false)) := by
  rw [doneAt_of_opn ((curThread_failHead ..).trans hr.1) (setP_opn ..)]
  exact runState_tlbwr hr o (by simp only [tlbwr, hm, same, no, Bool.not_true, Bool.false_eq_true, if_false])
theorem runState_tlbwr_fill (same : sameMiss m (tlbwrEntry t o) = true) (ok : entryOk s (tlbwrEntry t o) = true) :
    runState h (tlbwrRes .fill o) s = .next (doneWith h (dropHeadMiss (installWaiters (tlbwrEntry t o) m
      (installCluster s (clusterOf s.cur.core) (tlbwrEntry t o))) (clusterOf s.cur.core)) (setP t o.d true)) :=
  runState_tlbwr hr o (by simp only [tlbwr, hm, same, ok, Bool.not_true, Bool.false_eq_true, if_false, if_true])
end
end

/-! ### TLBINV -/

/-- a core's TLB is not its thread -/
theorem dropCoreTlb_setCur (s : State) (t : Thread) (c : BitVec 12) (a n : Nat) (w : Bool) :
    dropCoreTlb s.cur.core c a n w (setCur s t) = setCur (dropCoreTlb s.cur.core c a n w s) t := by
  simp [dropCoreTlb, setCur, setThreadOf, setCore, Machine.core, mset_mset]
section
variable {h : Hdr} {s : State} {t : Thread} (hr : Runs h s t) (o : TlbinvOps)
include hr
theorem runState_tlbinv_answered {id : Nat} {v : W128} (answered : t.blockA = .request id (some v)) :
    runState h (tlbinvRes o) s = .next (doneWith h s (setP t o.d true)) :=
  runState_done hr (by simp only [tlbinvRes, answered])
section
variable (first : t.blockA = .none)
include first
theorem runState_tlbinv_empty (part : o.whole = false) (n : (getW t o.b).toNat = 0) :
    runState h (tlbinvRes o) s = .next (doneWith h s (setP t o.d true)) :=
  runState_done hr (by simp only [tlbinvRes, first, part, n, Bool.not_false, beq_self_eq_true, Bool.and_self, if_true])
theorem runState_tlbinv_misaligned (part : o.whole = false) (n : (getW t o.b).toNat ≠ 0)
    (off : vaOf (getW t o.a) % 65536 ≠ 0 ∨ (getW t o.b).toNat % 65536 ≠ 0) :
    runState h (tlbinvRes o) s = .next (takeTrap (!h.s) s tMisaligned (addrDetail (getW t o.a))) := by
  refine runState_trap hr ?_
  have n' : ((getW t o.b).toNat == 0) = false := beq_false_of_ne n
  have off' : (vaOf (getW t o.a) % 65536 != 0 || (getW t o.b).toNat % 65536 != 0) = true := by
    obtain h | h := off
    · simp only [bne_iff_ne.mpr h, Bool.true_or]
    · simp only [bne_iff_ne.mpr h, Bool.or_true]
  simp only [tlbinvRes, first, part, n', off', Bool.not_false, Bool.and_false, Bool.and_self, Bool.false_eq_true, if_false, if_true]
end
end
section
variable {h : Hdr} {s : State} {t : Thread} (o : TlbinvOps)
variable {a n : Nat} {c : BitVec 12} (first : t.blockA = .none) (ea : a = vaOf (getW t o.a)) (en : n = (getW t o.b).toNat)
  (ec : c = (getW t o.c).setWidth 12) (some : n ≠ 0) (aligned : a % 65536 = 0) (whole : n % 65536 = 0)
include first ea en ec some aligned whole
theorem tlbinvRes_target : tlbinvRes o t s = match o.target.toNat with
    | 0 => .done (dropCoreTlb s.cur.core c a n o.whole (setCur s (setP t o.d true)))
    | 1 => .done (dropClusterTlb (clusterOf s.cur.core) c a n o.whole (dropCoreTlb s.cur.core c a n o.whole (setCur s (setP t o.d true))))
    | _ => .wait (beginShoot ⟨c, a, n, o.whole, none, s.cur.core, s.sched.nextReq, none⟩
      (setCur { s with sched := { s.sched with nextReq := s.sched.nextReq + 1 } } { t with blockA := .request s.sched.nextReq none })) := by
  have some' : (n == 0) = false := beq_false_of_ne some
  simp only [tlbinvRes, first, ← ea, ← en, ← ec, some', aligned, whole, bne_self_eq_false, Bool.or_self, Bool.and_false, Bool.false_eq_true,
    if_false, freshReq] <;> rfl
section
variable (hr : Runs h s t)
include hr
theorem runState_tlbinv_core (target : o.target = 0) :
    runState h (tlbinvRes o) s = .next (doneWith h (dropCoreTlb s.cur.core c a n o.whole s) (setP t o.d true)) := by
  refine runState_done hr ?_
  rw [tlbinvRes_target o first ea en ec some aligned whole, target, ← dropCoreTlb_setCur]; rfl
theorem runState_tlbinv_cluster (target : o.target = 1) :
    runState h (tlbinvRes o) s = .next (doneWith h (dropClusterTlb (clusterOf s.cur.core) c a n o.whole
      (dropCoreTlb s.cur.core c a n o.whole s)) (setP t o.d true)) := by
  refine runState_done hr ?_
  rw [tlbinvRes_target o first ea en ec some aligned whole, target]
  change Res.done (dropClusterTlb _ c a n o.whole (dropCoreTlb s.cur.core c a n o.whole (setCur s (setP t o.d true)))) = _
  rw [dropCoreTlb_setCur]; rfl
theorem runState_tlbinv_all (target : o.target = 2) :
    runState h (tlbinvRes o) s = .next (beginShoot ⟨c, a, n, o.whole, none, s.cur.core, s.sched.nextReq, none⟩
      (setCur { s with sched := { s.sched with nextReq := s.sched.nextReq + 1 } } { t with blockA := .request s.sched.nextReq none })) := by
  refine runState_wait hr ?_
  rw [tlbinvRes_target o first ea en ec some aligned whole, target]; rfl
end
end

/-! ### CFLUSH leaves the threads -/

theorem arrive_cur (s : State) (d : Nat) (p : StockReturn → Bool) : (arrive s d p).cur = s.cur := by
  have each : ∀ (l : List StockReturn) (s : State), (l.foldl applyReturn s).cur = s.cur :=
    fun l s => foldl_keeps State.cur (f := applyReturn) (fun _ _ => rfl) l s
  exact (each _ _).trans rfl
theorem flushAllow_cur (s : State) (k : Nat) (c : BitVec 12) : (flushAllow s k c).cur = s.cur := by
  refine (foldl_keeps State.cur (f := fun s (e : Allow) => applyReturn s ⟨e.ctr, e.a, k, false, true, false⟩) (fun _ _ => rfl) _ _).trans ?_
  exact (foldl_keeps State.cur (f := fun s d => arrive s d fun r => r.core == k) (fun s d => arrive_cur s d _) _ _).trans rfl
theorem threadOf_flushAllow (s : State) (j : Nat) (c : BitVec 12) (k : Nat) : threadOf (flushAllow s j c) k = threadOf s k := by
  refine (threadOf_foldl (f := fun s (e : Allow) => applyReturn s ⟨e.ctr, e.a, j, false, true, false⟩) (fun _ _ => rfl) _ _).trans ?_
  refine (threadOf_foldl (f := fun s d => arrive s d fun r => r.core == j) (fun s d => threadOf_of_cores (arrive_cores ..)) _ _).trans ?_
  exact threadOf_setCore_same rfl
theorem cflush_cur (s : State) (k : Nat) (c : BitVec 12) : (cflush s k c).cur = s.cur := by
  rw [cflush, flushAllow_cur]
  exact WriteBacks.writeBacks_cur ..
theorem threadOf_cflush (s : State) (j : Nat) (c : BitVec 12) (k : Nat) : threadOf (cflush s j c) k = threadOf s k := by
  have kept : threadOf (setCore (drainCtx s j c) j { Machine.core (drainCtx s j c) j with
      l1 := (Machine.core (drainCtx s j c) j).l1.filter (fun x => !x.2.ctxs.contains c)
      tlb := tlbDrop (Machine.core (drainCtx s j c) j).tlb c 0 0 true
      held := (Machine.core (drainCtx s j c) j).held.filter (· != c) }) k = threadOf (drainCtx s j c) k := threadOf_setCore_same rfl
  rw [cflush, threadOf_flushAllow, kept, threadOf_drainCtx]
theorem curThread_cflush (s : State) (j : Nat) (c : BitVec 12) : curThread (cflush s j c) = curThread s := by
  rw [curThread, curThread, cflush_cur, threadOf_cflush]
/-- an effect after which the current thread is `u` -/
theorem runState_done_of {h : Hdr} {f : Thread → State → Res} {s s1 : State} {t u : Thread} (hr : Runs h s t) (e : f t s = .done s1)
    (now : curThread s1 = some u) : runState h f s = .next (doneWith h s1 u) := by
  rw [runState_true hr.1 hr.2, e, finish, retireCur, now, doneWith, retireTo_setCur_self now rfl]
section
variable {h : Hdr} {s : State} {t : Thread} (hr : Runs h s t) (o : CflushOps)
include hr
theorem runState_cflush_outside (k : 1023 < (readCI t o.b).toNat) : runState h (cflushRes o) s = .next (doneWith h s (setP t o.d false)) :=
  runState_done hr (by simp only [cflushRes, gt_iff_lt, k, if_true])
theorem runState_cflush (k : (readCI t o.b).toNat ≤ 1023) (drained : drainWaits s (readCI t o.b).toNat ((readCI t o.c).setWidth 12) = false) :
    runState h (cflushRes o) s =
      .next (doneAt h (cflush (setCur s (setP t o.d true)) (readCI t o.b).toNat ((readCI t o.c).setWidth 12)) (setP t o.d true)) := by
  have now := (curThread_cflush (setCur s (setP t o.d true)) (readCI t o.b).toNat ((readCI t o.c).setWidth 12)).trans (curThread_setCur ..)
  rw [doneAt_of_opn now rfl]
  refine runState_done_of hr ?_ now
  simp only [cflushRes, gt_iff_lt, Nat.not_lt.mpr k, if_false, drained, Bool.false_eq_true]
end

/-- Settles O45, by the result of each instruction. -/
theorem translationInstructions : Obligations.TranslationInstructions := by
  refine ⟨?firmware, ?firing, ?range, ?edges, ?answered, ?probe, ?flush⟩
  case firmware =>
    rintro h o s t _ hr fw rfl
    obtain ⟨plain, fill, fault, peer⟩ := exec_tlbwr_of_may hr o (by rw [fw]; rfl)
    rw [plain, fill, fault, peer]
    refine ⟨fun ok => ?_, fun no => ?_, fun m hm => ⟨fun same ok => ?_, fun same no => ?_, fun other => ?_, ?_, ?_⟩, fun none => ⟨?_, ?_, ?_⟩⟩
    · rw [runState_tlbwr_plain hr, ok, if_pos rfl]
    · rw [runState_tlbwr_plain hr, no, if_neg Bool.false_ne_true]
    · exact runState_tlbwr_fill hr o hm same ok
    · exact runState_tlbwr_refused hr o hm same no
    · exact runState_tlbwr_other hr o hm other
    · exact runState_tlbwr_fault hr o hm
    · exact runState_tlbwr_peer hr o hm
    · exact runState_tlbwr_idle hr o (by decide) none
    · exact runState_tlbwr_idle hr o (by decide) none
    · exact runState_tlbwr_idle hr o (by decide) none
  case firing =>
    rintro h o s t _ hr fw ctx small rfl
    have none : headMiss s s.cur.core = none := ControlRegisters.headMiss_none (.inl (by rw [isService]; exact decide_eq_false fun both => Nat.not_le.mpr small both.1))
    obtain ⟨plain, fill, fault, peer⟩ := exec_tlbwr_of_may hr o (by rw [ctx, beq_self_eq_true, Bool.or_true])
    rw [plain, fill, fault, peer]
    refine ⟨fun ok => ?_, fun no => ?_, ?_, ?_, ?_⟩
    · rw [runState_tlbwr_plain hr, ok, if_pos rfl]
    · rw [runState_tlbwr_plain hr, no, if_neg Bool.false_ne_true]
    · exact runState_tlbwr_idle hr o (by decide) none
    · exact runState_tlbwr_idle hr o (by decide) none
    · exact runState_tlbwr_idle hr o (by decide) none
  case range =>
    intro h o s t a n c hr fw first ea en ec some aligned whole
    rw [exec_tlbinv, runAgent_of_may hr.1 (by simp only [agentMay, fw, Bool.true_or])]
    exact ⟨runState_tlbinv_core o first ea en ec some aligned whole hr, runState_tlbinv_cluster o first ea en ec some aligned whole hr,
      runState_tlbinv_all o first ea en ec some aligned whole hr⟩
  case edges =>
    intro h o s t hr fw first part
    rw [exec_tlbinv, runAgent_of_may hr.1 (by simp only [agentMay, fw, Bool.true_or])]
    exact ⟨runState_tlbinv_empty hr o first part, runState_tlbinv_misaligned hr o first part⟩
  case answered =>
    intro h o s t id v hr fw answered
    rw [exec_tlbinv, runAgent_of_may hr.1 (by simp only [agentMay, fw, Bool.true_or])]
    exact runState_tlbinv_answered hr o answered
  case probe =>
    intro h o s t hr fw
    rw [exec_tlbprobe, runAgent_of_may hr.1 (by simp only [agentMay, fw, Bool.true_or])]
    exact runState_done hr rfl
  case flush =>
    intro h o s t hr fw
    rw [exec_cflush, runAgent_of_may hr.1 (by simp only [agentMay, fw, Bool.true_or])]
    exact ⟨runState_cflush_outside hr o, runState_cflush hr o⟩

end Sys2Proof.Proofs.Translation

/-! ## Accesses by the memory instructions (R290, R402) -/

namespace Sys2Proof.Proofs.Accesses
open Sys2Proof.Machine Sys2Proof.Claims Sys2Proof.Laws.State Sys2Proof.Laws.Ops Sys2Proof.Proofs.Fences Sys2Proof.Proofs.Atomics
  Sys2Proof.Proofs.Validity Sys2Proof.Proofs.Capabilities

section
variable (h : Hdr) (s : State)
theorem exec_ld (o : MemOps) : exec (.ld h o) s = runM h (ldAM o) s := rfl
theorem exec_ldc (o : MemOps) : exec (.ldc h o) s = runM h (ldcAM o) s := rfl
theorem exec_st (o : MemOps) : exec (.st h o) s = runM h (stAM o) s := rfl
theorem exec_stc (o : MemOps) : exec (.stc h o) s = runM h (stcAM o) s := rfl
theorem exec_lda (o : MemOps) : exec (.lda h o) s = runM h (ldaAM o) s := rfl
theorem exec_str (o : MemOps) : exec (.str h o) s = runM h (strAM o) s := rfl
theorem exec_pref (o : MemOps) : exec (.pref h o) s = runM h (prefAM h o) s := rfl
end

/-! ### How an effect on memory stops -/

/-- an effect stops where its first part does -/
theorem aBind_of_error {α β : Type} {f : AM α} {g : α → AM β} {s : State} {e : AStop} (h : f s = .error e) : (f >>= g) s = .error e := by
  simp only [bind, StateT.bind, h, Except.bind]
theorem aLift_of_trap {α : Type} {r : Except Stop α} {c : BitVec 8} {d : W64} (h : r = .error (.trap c d)) (s : State) :
    aLift r s = .error (.trap s c d) := by
  subst h; rfl
theorem aUnless_of_false {ok : Bool} (h : ok = false) (c : BitVec 8) (d : W64) (s : State) : aUnless ok (.trap c d) s = .error (.trap s c d) := by
  subst h; rfl
theorem runM_of_trap {h : Hdr} {s s1 : State} {t : Thread} {f : Who → Thread → AM Thread} {c : BitVec 8} {d : W64} (r : Runs h s t)
    (e : f (whoOf s.cur.core t) t s = .error (.trap s1 c d)) : runM h f s = .next (takeTrap (!h.s) s1 c d) := by
  rw [runM, runState_true r.1 r.2]
  simp only [runA, e, finish]
theorem ofNat_toNat64 (va : W64) : BitVec.ofNat 64 va.toNat = va := by rw [BitVec.ofNat_toNat, BitVec.setWidth_eq]

/-! ### The address (R290, R402) -/

section
variable {cap : CReg} {off : BitVec 16} {p : BitVec 7} {z : Nat} {va : W64} {s : State}
/-- what checks an address admits it, or stops at the first check that fails; nothing is done on the way -/
def ChecksAddr (f : AM Nat) (cap : CReg) (kinds : List Nat) (p : BitVec 7) (z : Nat) (va : W64) (s : State) : Prop :=
  (∀ c d, checkCap cap [0, 1] p va z = .error (.trap c d) → f s = .error (.trap s c d)) ∧
  (checkCap cap [0, 1] p va z = .ok () → capKind cap.bits ∉ kinds → f s = .error (.trap s tCap (capDetail .kind va))) ∧
  (checkCap cap kinds p va z = .ok () →
    (va.toNat % z ≠ 0 → f s = .error (.trap s tMisaligned (addrDetail va))) ∧ (va.toNat % z = 0 → f s = .ok (va.toNat, s)))
theorem aAddr_trap {kinds : List Nat} {c : BitVec 8} {d : W64} (h : checkCap cap kinds p (memAddr cap off) z = .error (.trap c d)) :
    aAddr cap off kinds p z s = .error (.trap s c d) := aBind_of_error (aLift_of_trap h s)
theorem aAddr_misaligned {kinds : List Nat} (h : checkCap cap kinds p (memAddr cap off) z = .ok ()) (odd : (memAddr cap off).toNat % z ≠ 0) :
    aAddr cap off kinds p z s = .error (.trap s tMisaligned (addrDetail (memAddr cap off))) := by
  rw [aAddr, aBind_of_ok (aLift_of_ok h s), aBind_of_error (aUnless_of_false (beq_false_of_ne odd) _ _ s)]
theorem checksAddr_aAddr (hva : va = memAddr cap off) : ChecksAddr (aAddr cap off [0, 1] p z) cap [0, 1] p z va s := by
  subst hva
  refine ⟨fun c d e => aAddr_trap e, fun ok out => ?_, fun ok => ⟨aAddr_misaligned ok, aAddr_of_checked ok⟩⟩
  exact absurd (checkCap_iff.mp ok).2.1 out
/-- kind 0 is one of kinds 0 and 1 -/
theorem checkCap_either {k : Nat} (either : k = 0 ∨ k = 1) (h : checkCap cap [k] p va z = .ok ()) : checkCap cap [0, 1] p va z = .ok () := by
  obtain ⟨tag, kind, rest⟩ := checkCap_iff.mp h
  refine checkCap_iff.mpr ⟨tag, ?_, rest⟩
  rw [List.mem_singleton.mp kind]
  obtain rfl | rfl := either
  · exact List.mem_cons_self
  · exact List.mem_cons_of_mem _ List.mem_cons_self
theorem aAddrMem_of_either (h : checkCap cap [0, 1] p (memAddr cap off) z = .ok ()) : aAddrMem cap off p z s = aAddr cap off [0] p z s := by
  rw [aAddrMem, aBind_of_ok (aLift_of_ok h s)]
theorem aAddrMem_of_checked (checked : checkCap cap [0] p (memAddr cap off) z = .ok ()) (aligned : (memAddr cap off).toNat % z = 0) :
    aAddrMem cap off p z s = .ok ((memAddr cap off).toNat, s) := by
  rw [aAddrMem_of_either (checkCap_either (.inl rfl) checked), aAddr_of_checked checked aligned]
theorem checksAddr_aAddrMem (hva : va = memAddr cap off) : ChecksAddr (aAddrMem cap off p z) cap [0] p z va s := by
  subst hva
  refine ⟨fun c d e => aBind_of_error (aLift_of_trap e s), fun ok out => ?_, fun ok => ?_⟩
  · rw [aAddrMem_of_either ok, aAddr_trap (checkCap_kind (checkCap_iff.mp ok).1 out)]
  · rw [aAddrMem_of_either (checkCap_either (.inl rfl) ok)]
    exact ⟨aAddr_misaligned ok, aAddr_of_checked ok⟩
end

/-! ### The page (R14, R88, R191) -/

section
variable {α β : Type} {f : AM α} {w : Who} {va n : Nat} {need : Need} {home : Bool} {s : State}
/-- an effect begins with the translation of an address: it waits for it, faults with it, or is held back -/
def Opens (f : AM α) (w : Who) (va : Nat) (need : Need) (home : Bool) (s : State) : Prop :=
  (∀ s1, Machine.translate s w.k w.ctx va need = .wait s1 → f s = .error (.wait s1)) ∧
  (∀ c s1, Machine.translate s w.k w.ctx va need = .fault c s1 → f s = .error (.trap s1 c (addrDetail (BitVec.ofNat 64 va)))) ∧
  (∀ x, Machine.translate s w.k w.ctx va need = .hit x s → x.rd = false → accessHeld s w x home = true → f s = .error (.wait s))
theorem Opens.bind (h : Opens f w va need home s) (g : α → AM β) : Opens (f >>= g) w va need home s := by
  obtain ⟨wait, fault, held⟩ := h
  exact ⟨fun s1 e => aBind_of_error (wait s1 e), fun c s1 e => aBind_of_error (fault c s1 e),
    fun x e rd spent => aBind_of_error (held x e rd spent)⟩
theorem aXlat_of_wait {s1 : State} (e : Machine.translate s w.k w.ctx va need = .wait s1) : aXlat w va need s = .error (.wait s1) := by
  rw [aXlat, e]
theorem aXlat_of_fault {s1 : State} {c : BitVec 8} (e : Machine.translate s w.k w.ctx va need = .fault c s1) :
    aXlat w va need s = .error (.trap s1 c (addrDetail (BitVec.ofNat 64 va))) := by
  rw [aXlat, e]
theorem opens_aXlat (g : Xlat → AM α) (held : ∀ x, x.rd = false → accessHeld s w x home = true → g x s = .error (.wait s)) :
    Opens (aXlat w va need >>= g) w va need home s :=
  ⟨fun _ e => aBind_of_error (aXlat_of_wait e), fun _ _ e => aBind_of_error (aXlat_of_fault e),
    fun x e rd spent => by rw [aBind_of_ok (aXlat_of_hit e), held x rd spent]⟩
theorem opens_aGo : Opens (aGo w va need home) w va need home s := by
  refine opens_aXlat _ fun x rd spent => ?_
  have usable : (!x.rd) = true := by rw [rd]; rfl
  rw [aBind_of_ok (aUnless_of_true usable _ s), aState_bind, if_pos spent]
  rfl
theorem opens_aSector : Opens (aSector w va) w va .load false s := opens_aGo.bind _
theorem pieces_pos (some : n ≠ 0) : pieces va n = pieces va n - 1 + 1 := by rw [pieces]; omega
theorem opens_aLoad {cap : W192} (memory : isScratch cap = false) (some : n ≠ 0) : Opens (aLoad w cap va n) w va .load false s := by
  rw [aLoad, if_neg (Bool.eq_false_iff.mp memory), pieces_pos some, aLoadF, if_neg some]
  exact opens_aSector.bind _
theorem opens_aReady {cap : W192} (memory : isScratch cap = false) (some : n ≠ 0) : Opens (aReady w cap va n) w va .store false s := by
  rw [aReady, if_neg (Bool.eq_false_iff.mp memory), pieces_pos some, aReadyF, if_neg some]
  exact opens_aGo.bind _
/-- an instruction that checks an address and then opens an access there stops as the claims say -/
theorem stops_of_opens {i : Instr} {h : Hdr} {t : Thread} {e : Who → Thread → AM Thread} {f : AM Nat} {g : Nat → AM Thread} {cap : CReg}
    {kinds : List Nat} {p : BitVec 7} {z : Nat} {va : W64} (hr : Runs h s t) (run : exec i s = runM h e s)
    (shape : e (whoOf s.cur.core t) t = f >>= g) (checks : ChecksAddr f cap kinds p z va s)
    (opens : capKind cap.bits ≠ 1 → Opens (g va.toNat) (whoOf s.cur.core t) va.toNat need home s) :
    stops i h s t cap kinds p z need home va := by
  obtain ⟨bad, other, good⟩ := checks
  rw [stops, trapsAt, run]
  refine ⟨fun c d fails => runM_of_trap hr ?_, fun ok out => runM_of_trap hr ?_, fun ok => ⟨fun odd => runM_of_trap hr ?_, fun even memory => ?_⟩⟩
  · rw [shape, aBind_of_error (bad c d fails)]
  · rw [shape, aBind_of_error (other ok out)]
  · rw [shape, aBind_of_error ((good ok).1 odd)]; rfl
  · obtain ⟨wait, fault, held⟩ := opens memory
    have go : e (whoOf s.cur.core t) t s = g va.toNat s := by rw [shape, aBind_of_ok ((good ok).2 even)]
    refine ⟨fun s1 hit => runM_of_wait hr (go.trans (wait s1 hit)), fun c s1 hit => ?_, fun x hit rd spent => runM_of_wait hr (go.trans (held x hit rd spent))⟩
    have trap := runM_of_trap hr (go.trans (fault c s1 hit))
    rwa [ofNat_toNat64] at trap
end

/-! ### Where each instruction opens its access -/

theorem not_scratch {cap : W192} (h : capKind cap ≠ 1) : isScratch cap = false := beq_false_of_ne h
theorem two_pow_ne_zero (n : Nat) : 2 ^ n ≠ 0 := Nat.pos_iff_ne_zero.mp (Nat.two_pow_pos n)
section
variable {h : Hdr} {o : MemOps} {s : State} {t : Thread} {va : W64} (hr : Runs h s t) (place : va = memAddr (getC t o.a) o.off)
include hr place
theorem stops_ld : stops (.ld h o) h s t (getC t o.a) [0, 1] permR (2 ^ o.size.toNat) .load false va := by
  refine stops_of_opens hr (exec_ld ..) rfl (checksAddr_aAddr place) fun memory => ?_
  have load : Opens (aLoad (whoOf s.cur.core t) (getC t o.a).bits va.toNat (2 ^ o.size.toNat)) (whoOf s.cur.core t) va.toNat .load false s :=
    opens_aLoad (not_scratch memory) (two_pow_ne_zero _)
  simp only [not_scratch memory, Bool.false_eq_true, if_false]
  refine ⟨fun s1 e => aBind_of_error (aXlat_of_wait e), fun c s1 e => aBind_of_error (aXlat_of_fault e), fun x e rd spent => ?_⟩
  rw [aBind_of_ok (aXlat_of_hit e), if_neg (Bool.eq_false_iff.mp rd), aBind_of_error (load.2.2 x e rd spent)]
theorem stops_ldc : stops (.ldc h o) h s t (getC t o.a) [0, 1] permR 32 .load false va :=
  stops_of_opens hr (exec_ldc ..) rfl (checksAddr_aAddr place) fun memory => (opens_aLoad (not_scratch memory) (by decide)).bind _
theorem stops_st : stops (.st h o) h s t (getC t o.a) [0, 1] permW (2 ^ o.size.toNat) .store false va :=
  stops_of_opens hr (exec_st ..) rfl (checksAddr_aAddr place) fun memory => (opens_aReady (not_scratch memory) (two_pow_ne_zero _)).bind _
theorem stops_stc : stops (.stc h o) h s t (getC t o.a) [0, 1] permW 32 .store false va :=
  stops_of_opens hr (exec_stc ..) rfl (checksAddr_aAddr place) fun memory => (opens_aReady (not_scratch memory) (by decide)).bind _
theorem stops_lda : stops (.lda h o) h s t (getC t o.a) [0] permR (2 ^ o.size.toNat) .load true va :=
  stops_of_opens hr (exec_lda ..) rfl (checksAddr_aAddrMem place) fun _ => opens_aGo.bind _
theorem stops_str : stops (.str h o) h s t (getC t o.a) [0] permW (2 ^ o.size.toNat) .store true va :=
  stops_of_opens hr (exec_str ..) rfl (checksAddr_aAddrMem place) fun _ => opens_aGo.bind _
end

/-! ### Accesses that reach their page, or scratch -/

section
variable {w : Who} {va n : Nat} {need : Need} {home : Bool} {s s1 : State} {x : Xlat} {d : L2Sector} {cap : W192}
theorem aGo_of_hit (hit : Machine.translate s w.k w.ctx va need = .hit x s) (rd : x.rd = false) (free : accessHeld s w x home = false) :
    aGo w va need home s = .ok (x, s) := by
  have usable : (!x.rd) = true := by rw [rd]; rfl
  rw [aGo, aBind_of_ok (aXlat_of_hit hit), aBind_of_ok (aUnless_of_true usable _ s), aState_bind, if_neg (Bool.eq_false_iff.mp free)]
  rfl
/-- what is not held back at its home is not at L1 either -/
theorem accessHeld_plain (free : accessHeld s w x true = false) : accessHeld s w x false = false := by
  simp only [accessHeld, Bool.true_or, Bool.true_and, Bool.or_eq_false_iff] at free
  obtain ⟨budget, port⟩ := free
  have byte : byteHeld s w.ctx x false = false := by
    simp only [byteHeld, budgetHolds] at budget ⊢
    split at budget
    · simp only [Bool.or_eq_false_iff, Bool.and_eq_false_iff, Bool.true_or, Bool.false_or] at budget ⊢
      exact ⟨budget.1, budget.2.imp id (fun h => by simp at h)⟩
    · rfl
  simp only [accessHeld, byte, port, Bool.or_self, Bool.and_false]
section
variable (hit : Machine.translate s w.k w.ctx va .load = .hit x s) (rd : x.rd = false) (free : accessHeld s w x false = false)
  (read : loadSector s w.k w.ctx x = (d, s1))
include hit rd free read
theorem aSector_of_clean (clean : d.poison = false) : aSector w va s = .ok ((d, x), s1) := by
  have sound : (!d.poison) = true := by rw [clean]; rfl
  have loaded : (fun s => .ok (loadSector s w.k w.ctx x) : AM L2Sector) s = .ok (d, s1) := congrArg Except.ok read
  rw [aSector, aPlain, aBind_of_ok (aGo_of_hit hit rd free), aBind_of_ok loaded, aBind_of_ok (aUnless_of_true sound _ s1)]
  rfl
theorem aSector_of_poison (bad : d.poison = true) : aSector w va s = .error (.trap s1 tData (addrDetail (BitVec.ofNat 64 va))) := by
  have unsound : (!d.poison) = false := by rw [bad]; rfl
  have loaded : (fun s => .ok (loadSector s w.k w.ctx x) : AM L2Sector) s = .ok (d, s1) := congrArg Except.ok read
  rw [aSector, aPlain, aBind_of_ok (aGo_of_hit hit rd free), aBind_of_ok loaded]
  exact aBind_of_error (aUnless_of_false unsound _ _ s1)
end
section
variable (memory : isScratch cap = false) (some : n ≠ 0) (fits : va % 64 + n ≤ 64)
include fits
theorem min_piece : min n (64 - va % 64) = n := by omega
include some
theorem pieces_one : pieces va n = 1 := by rw [pieces]; omega
include memory
theorem aLoad_of_sector (sector : aSector w va s = .ok ((d, x), s1)) : aLoad w cap va n s = .ok (secBytes d.data (va % 64) n, s1) := by
  rw [aLoad, if_neg (Bool.eq_false_iff.mp memory), pieces_one some fits, aLoadF, if_neg some]
  simp only [min_piece fits]
  rw [aBind_of_ok sector]
  exact congrArg Except.ok (congrArg (·, s1) (by rw [Nat.mul_zero, Nat.add_zero]))
theorem aLoad_of_bad {e : AStop} (sector : aSector w va s = .error e) : aLoad w cap va n s = .error e := by
  rw [aLoad, if_neg (Bool.eq_false_iff.mp memory), pieces_one some fits, aLoadF, if_neg some]
  exact aBind_of_error sector
theorem aReady_of_hit (hit : Machine.translate s w.k w.ctx va .store = .hit x s) (rd : x.rd = false) (free : accessHeld s w x false = false) :
    aReady w cap va n s = .ok ((), s) := by
  rw [aReady, if_neg (Bool.eq_false_iff.mp memory), pieces_one some fits, aReadyF, if_neg some]
  simp only [aPlain]
  rw [aBind_of_ok (aGo_of_hit hit rd free)]
  rfl
theorem aStore_of_hit (hit : Machine.translate s w.k w.ctx va .store = .hit x s) (v : Nat) (small : v < 256 ^ n) (tag strm : Bool) :
    aStore w cap va n v tag strm s = .ok ((), notePeer (storeSector s w.k w.ctx x ⟨n, v, tag, strm⟩) w.k x) := by
  rw [aStore, if_neg (Bool.eq_false_iff.mp memory), pieces_one some fits, aStoreF, if_neg some]
  simp only [min_piece fits]
  rw [aBind_of_ok (aXlat_of_hit hit), aMod_bind, Nat.mod_eq_of_lt small]
  rfl
end
/-- an aligned access of a power of two stays within its sector -/
theorem fits_of_aligned {e : Nat} (small : e ≤ 6) (aligned : va % 2 ^ e = 0) : va % 64 + 2 ^ e ≤ 64 := by
  have : e = 0 ∨ e = 1 ∨ e = 2 ∨ e = 3 ∨ e = 4 ∨ e = 5 ∨ e = 6 := by omega
  obtain rfl | rfl | rfl | rfl | rfl | rfl | rfl := this <;> omega
section
variable (scratch : isScratch cap = true) (mine : linesHeld w va n = true)
include scratch
theorem aStore_of_scratch (v : Nat) (tag strm : Bool) :
    aStore w cap va n v tag strm s = .ok ((), setCore s w.k (storeScratch (Machine.core s w.k) va n v tag)) := by
  rw [aStore, if_pos scratch]
  rfl
include mine
theorem aLoad_of_scratch : aLoad w cap va n s = .ok (readScratch (Machine.core s w.k) va n, s) := by
  rw [aLoad, if_pos scratch, aBind_of_ok (aUnless_of_true mine _ s), aState_bind]
  rfl
theorem aReady_of_scratch : aReady w cap va n s = .ok ((), s) := by
  rw [aReady, if_pos scratch, aUnless_of_true mine]
end
end

/-! ### A tag that STC may not store (R405) -/

section
variable {h : Hdr} {o : MemOps} {s : State} {t : Thread} {va : W64} {x : Xlat} {n : BitVec 6}
theorem tagStops_of_reaches (hr : Runs h s t) (source : o.b = .c n) (tagged : (getC t n).tag = true)
    (reach : reaches s t (getC t o.a) o.off [0, 1] permW 32 .store false va x) : tagStops h o s t va x (getC t n) := by
  obtain ⟨(rfl : va = memAddr (getC t o.a) o.off), checked, aligned, kind, hit, rd, -, free⟩ := reach
  have memory := not_scratch kind
  have fits : (memAddr (getC t o.a) o.off).toNat % 64 + 32 ≤ 64 := fits_of_aligned (e := 5) (by decide) aligned
  have ready : aReady (whoOf s.cur.core t) (getC t o.a).bits (memAddr (getC t o.a) o.off).toNat 32 s = .ok ((), s) :=
    aReady_of_hit memory (by decide) fits hit rd free
  have source : capOpd t o.b = getC t n := by rw [source]; rfl
  rw [tagStops, trapsAt, exec_stc]
  have refused : ∀ {ok : Bool}, ok = false → ∀ s, aUnless ok (capFault .permission (BitVec.ofNat 64 (memAddr (getC t o.a) o.off).toNat)) s =
      .error (.trap s tCap (capDetail .permission (memAddr (getC t o.a) o.off))) := by
    intro ok no s
    rw [ofNat_toNat64, capFault, aUnless_of_false no]
  have entered : stcAM o (whoOf s.cur.core t) t s = (do
      aUnless (hasPerm (getC t o.a).bits permC) (capFault .permission (BitVec.ofNat 64 (memAddr (getC t o.a) o.off).toNat))
      aUnless (hasPerm (getC t n).bits permG) (capFault .permission (BitVec.ofNat 64 (memAddr (getC t o.a) o.off).toNat))
      let y ← aXlat (whoOf s.cur.core t) (memAddr (getC t o.a) o.off).toNat .store
      aUnless y.ct (pageFault (memAddr (getC t o.a) o.off).toNat)
      aStore (whoOf s.cur.core t) (getC t o.a).bits (memAddr (getC t o.a) o.off).toNat 32 (getC t n).bits.toNat true false
      pure t : AM Thread) s := by
    rw [stcAM, aBind_of_ok (aAddr_of_checked checked aligned), aBind_of_ok ready, source, if_pos tagged,
      if_neg (Bool.eq_false_iff.mp memory), tagged]
  constructor
  · intro bad
    refine runM_of_trap hr (entered.trans ?_)
    by_cases permitted : hasPerm (getC t o.a).bits permC = true
    · have local' := bad.resolve_left (by simp [permitted])
      rw [aBind_of_ok (aUnless_of_true permitted _ s), aBind_of_error (refused local' s)]
    · rw [aBind_of_error (refused (Bool.eq_false_iff.mpr permitted) s)]
  · intro permitted grant untaggable
    refine runM_of_trap hr (entered.trans ?_)
    rw [aBind_of_ok (aUnless_of_true permitted _ s), aBind_of_ok (aUnless_of_true grant _ s), aBind_of_ok (aXlat_of_hit hit), pageFault, ofNat_toNat64,
      aBind_of_error (aUnless_of_false untaggable _ _ s)]
    rfl
end

/-! ### Atomics -/

theorem opens_aAtomicPage {w : Who} {va n : Nat} {f : Nat → Nat} {s : State} :
    (∀ s1, Machine.translate s w.k w.ctx va .atomic = .wait s1 → aAtomicPage w va n f s = .error (.wait s1)) ∧
    (∀ c s1, Machine.translate s w.k w.ctx va .atomic = .fault c s1 →
      aAtomicPage w va n f s = .error (.trap s1 c (addrDetail (BitVec.ofNat 64 va)))) ∧
    (∀ x, Machine.translate s w.k w.ctx va .atomic = .hit x s → x.rd = false → byteHeld s w.ctx x true = true →
      aAtomicPage w va n f s = .error (.wait s)) := by
  refine ⟨fun s1 e => aBind_of_error (aXlat_of_wait e), fun c s1 e => aBind_of_error (aXlat_of_fault e), fun x e rd spent => ?_⟩
  have usable : (!x.rd) = true := by rw [rd]; rfl
  rw [aAtomicPage, aBind_of_ok (aXlat_of_hit e), aBind_of_ok (aUnless_of_true usable _ s), aState_bind, if_pos spent]
  rfl
section
variable {g : Nat → Nat → Nat → Nat → Nat} {sgn : Bool} {o : AtomOps} {w : Who} {t : Thread} {s : State} {e : AStop}
  (on : s.host.on1.getLsbD 10 = true)
include on
/-- an atomic stops where its address does -/
theorem atomAM_of_bad_addr (bad : aAddr (getC t o.a) o.off [0] (permR ||| permW) (wordBytes o) s = .error e) : atomAM g sgn o w t s = .error e := by
  rw [atomAM, aBind_of_ok (aFeature_of_on on)]
  exact aBind_of_error bad
/-- and where its page does -/
theorem atomAM_of_bad_page (ok : checkCap (getC t o.a) [0] (permR ||| permW) (memAddr (getC t o.a) o.off) (wordBytes o) = .ok ())
    (even : (memAddr (getC t o.a) o.off).toNat % wordBytes o = 0)
    (bad : ∀ f, aAtomicPage w (memAddr (getC t o.a) o.off).toNat (wordBytes o) f s = .error e) : atomAM g sgn o w t s = .error e := by
  rw [atomAM, aBind_of_ok (aFeature_of_on on), aBind_of_ok (aAddr_of_checked ok even)]
  exact aBind_of_error (aBind_of_error (bad _))
end
/-- each of the eleven atomics is `atomAM` with its operation -/
theorem exec_atomAM {p : Hdr → AtomOps → Instr}
    (m : p ∈ [Instr.aadd, .aand, .aor, .axor, .amin, .amax, .aminn, .amaxn, .aswap, .acas, .afadd]) :
    ∃ g sgn, ∀ h o s, exec (p h o) s = runM h (atomAM g sgn o) s := by
  revert p
  simp only [List.forall_mem_cons, List.not_mem_nil, false_imp_iff, implies_true, and_true]
  refine ⟨?_, ?_, ?_, ?_, ?_, ?_, ?_, ?_, ?_, ?_, ?_⟩
  all_goals exact ⟨_, _, fun _ _ _ => rfl⟩

/-- Settles O28: each instruction checks its address and then opens its access. -/
theorem accessFaults : Obligations.AccessFaults := by
  constructor
  · intro h o s t va hr place
    exact ⟨fun _ => ⟨stops_ld hr place, stops_st hr place⟩, stops_ldc hr place, stops_stc hr place, stops_lda hr place, stops_str hr place,
      fun n x source tagged reach => tagStops_of_reaches hr source tagged reach⟩
  · intro p m h o s t va z hr on width place
    have place : va = memAddr (getC t o.a) o.off := place
    subst place width
    obtain ⟨g, sgn, run⟩ := exec_atomAM m
    rw [trapsAt, run]
    refine ⟨fun c d bad => runM_of_trap hr (atomAM_of_bad_addr on (aAddr_trap bad)), fun ok => ⟨fun odd => ?_, fun even => ?_⟩⟩
    · exact runM_of_trap hr (atomAM_of_bad_addr on (aAddr_misaligned ok odd))
    · refine ⟨fun s1 e => ?_, fun c s1 e => ?_, fun x e rd spent => ?_⟩
      · exact runM_of_wait hr (atomAM_of_bad_page on ok even fun _ => opens_aAtomicPage.1 s1 e)
      · have trap := runM_of_trap hr (atomAM_of_bad_page (g := g) (sgn := sgn) on ok even fun _ => opens_aAtomicPage.2.1 c s1 e)
        rwa [ofNat_toNat64] at trap
      · exact runM_of_wait hr (atomAM_of_bad_page on ok even fun _ => opens_aAtomicPage.2.2 x e rd spent)

end Sys2Proof.Proofs.Accesses

/-! ## Loads (R402, R403, R405, R407) -/

namespace Sys2Proof.Proofs.Loads
open Sys2Proof.Machine Sys2Proof.Claims Sys2Proof.Laws.State Sys2Proof.Laws.Ops Sys2Proof.Proofs.Fences Sys2Proof.Proofs.Atomics
  Sys2Proof.Proofs.Accesses Sys2Proof.Proofs.WriteBacks

section
variable {h : Hdr} {o : MemOps} {w : Who} {s s1 s2 : State} {t u : Thread} {va : W64} {x : Xlat} {d : L2Sector}

/-! ### LD -/

/-- LD from memory, from what its load gives -/
theorem ldAM_of_page (checked : checkCap (getC t o.a) [0, 1] permR (memAddr (getC t o.a) o.off) (2 ^ o.size.toNat) = .ok ())
    (aligned : (memAddr (getC t o.a) o.off).toNat % 2 ^ o.size.toNat = 0) (memory : isScratch (getC t o.a).bits = false)
    (hit : Machine.translate s w.k w.ctx (memAddr (getC t o.a) o.off).toNat .load = .hit x s) (rd : x.rd = false) :
    ldAM o w t s = (aLoad w (getC t o.a).bits (memAddr (getC t o.a) o.off).toNat (2 ^ o.size.toNat) >>=
      fun v => aLift (writeOpd t o.d (widen (2 ^ o.size.toNat) o.sx v))) s := by
  rw [ldAM, aBind_of_ok (aAddr_of_checked checked aligned)]
  simp only [memory, Bool.false_eq_true, if_false]
  rw [aBind_of_ok (aXlat_of_hit hit), if_neg (Bool.eq_false_iff.mp rd)]
/-- an aligned load of at most 16 bytes loads one sector -/
theorem ldAM_of_sector (reach : reaches s t (getC t o.a) o.off [0, 1] permR (2 ^ o.size.toNat) .load false va x) (small : o.size.toNat ≤ 4)
    (read : loadSector s s.cur.core t.id.ctx x = (d, s1)) (clean : d.poison = false)
    (put : writeOpd t o.d (widen (2 ^ o.size.toNat) o.sx (secBytes d.data (va.toNat % 64) (2 ^ o.size.toNat))) = .ok u) :
    ldAM o (whoOf s.cur.core t) t s = .ok (u, s1) := by
  obtain ⟨(rfl : va = memAddr (getC t o.a) o.off), checked, aligned, kind, hit, rd, -, free⟩ := reach
  have loaded := aLoad_of_sector (not_scratch kind) (two_pow_ne_zero _) (fits_of_aligned (by omega) aligned)
    (aSector_of_clean (w := whoOf s.cur.core t) hit rd free read clean)
  rw [ldAM_of_page checked aligned (not_scratch kind) hit rd, aBind_of_ok loaded, aLift_of_ok put]
theorem ldAM_of_poison (reach : reaches s t (getC t o.a) o.off [0, 1] permR (2 ^ o.size.toNat) .load false va x) (small : o.size.toNat ≤ 4)
    (read : loadSector s s.cur.core t.id.ctx x = (d, s1)) (bad : d.poison = true) :
    ldAM o (whoOf s.cur.core t) t s = .error (.trap s1 tData (addrDetail va)) := by
  obtain ⟨(rfl : va = memAddr (getC t o.a) o.off), checked, aligned, kind, hit, rd, -, free⟩ := reach
  have stopped := aLoad_of_bad (not_scratch kind) (two_pow_ne_zero _) (fits_of_aligned (by omega) aligned)
    (aSector_of_poison (w := whoOf s.cur.core t) hit rd free read bad)
  rw [ldAM_of_page checked aligned (not_scratch kind) hit rd, aBind_of_error stopped, ofNat_toNat64]
theorem is_scratch {p : BitVec 7} {cap : CReg} {z : Nat} (h : checkCap cap [1] p va z = .ok ()) : isScratch cap.bits = true :=
  beq_iff_eq.mpr (List.mem_singleton.mp (checkCap_iff.mp h).2.1)
theorem ldAM_of_scratch (reach : inScratch t s.cur.core (getC t o.a) o.off permR (2 ^ o.size.toNat) va)
    (put : writeOpd t o.d (widen (2 ^ o.size.toNat) o.sx (readScratch (Machine.core s s.cur.core) va.toNat (2 ^ o.size.toNat))) = .ok u) :
    ldAM o (whoOf s.cur.core t) t s = .ok (u, s) := by
  obtain ⟨(rfl : va = memAddr (getC t o.a) o.off), checked, aligned, mine⟩ := reach
  rw [ldAM, aBind_of_ok (aAddr_of_checked (checkCap_either (.inr rfl) checked) aligned), if_pos (is_scratch checked),
    aBind_of_ok (aLoad_of_scratch (is_scratch checked) mine)]
  exact aLift_of_ok put s

/-! ### LDC -/

theorem ldcAM_of_poison (reach : reaches s t (getC t o.a) o.off [0, 1] permR 32 .load false va x)
    (read : loadSector s s.cur.core t.id.ctx x = (d, s1)) (bad : d.poison = true) :
    ldcAM o (whoOf s.cur.core t) t s = .error (.trap s1 tData (addrDetail va)) := by
  obtain ⟨(rfl : va = memAddr (getC t o.a) o.off), checked, aligned, kind, hit, rd, -, free⟩ := reach
  have stopped := aLoad_of_bad (n := 24) (not_scratch kind) (by decide) (by omega)
    (aSector_of_poison (w := whoOf s.cur.core t) hit rd free read bad)
  rw [ldcAM, aBind_of_ok (aAddr_of_checked checked aligned), aBind_of_error stopped, ofNat_toNat64]
/-- the bytes and then the slot's tag, each by a load of the sector -/
theorem ldcAM_of_sectors {d2 : L2Sector} {n : BitVec 6} (reach : reaches s t (getC t o.a) o.off [0, 1] permR 32 .load false va x)
    (read : loadSector s s.cur.core t.id.ctx x = (d, s1)) (clean : d.poison = false)
    (hit2 : Machine.translate s1 s.cur.core t.id.ctx va.toNat .load = .hit x s1) (free2 : accessHeld s1 (whoOf s.cur.core t) x false = false)
    (read2 : loadSector s1 s.cur.core t.id.ctx x = (d2, s2)) (clean2 : d2.poison = false) (dest : o.d = .c n) :
    ldcAM o (whoOf s.cur.core t) t s = .ok (setC t n ⟨BitVec.ofNat 192 (secBytes d.data (va.toNat % 64) 24),
      (x.ct && d2.tags.getLsbD (va.toNat % 64 / 32)) && hasPerm (getC t o.a).bits permC⟩, s2) := by
  obtain ⟨(rfl : va = memAddr (getC t o.a) o.off), checked, aligned, kind, hit, rd, -, free⟩ := reach
  have loaded := aLoad_of_sector (n := 24) (not_scratch kind) (by decide) (by omega)
    (aSector_of_clean (w := whoOf s.cur.core t) hit rd free read clean)
  rw [ldcAM, aBind_of_ok (aAddr_of_checked checked aligned), aBind_of_ok loaded, if_neg (Bool.eq_false_iff.mp (not_scratch kind)), dest,
    aBind_of_ok (aSector_of_clean (w := whoOf s.cur.core t) hit2 rd free2 read2 clean2)]
  rfl
/-- the lines of a 32-byte slot hold its first 24 bytes -/
theorem linesHeld_slot {off : Nat} (aligned : off % 32 = 0) (mine : linesHeld w off 32 = true) : linesHeld w off 24 = true := by
  have bound : lineBytes = 256 := rfl
  simp only [linesHeld, bound, List.all_eq_true, List.mem_range, Bool.or_eq_true, decide_eq_true_eq] at mine ⊢
  intro i small
  exact (mine i small).imp (fun h => by omega) id
theorem ldcAM_of_scratch {n : BitVec 6} (reach : inScratch t s.cur.core (getC t o.a) o.off permR 32 va) (dest : o.d = .c n) :
    ldcAM o (whoOf s.cur.core t) t s = .ok (setC t n ⟨BitVec.ofNat 192 (readScratch (Machine.core s s.cur.core) va.toNat 24),
      (Machine.core s s.cur.core).scratchTags.contains (va.toNat / 32) && hasPerm (getC t o.a).bits permC⟩, s) := by
  obtain ⟨(rfl : va = memAddr (getC t o.a) o.off), checked, aligned, mine⟩ := reach
  rw [ldcAM, aBind_of_ok (aAddr_of_checked (checkCap_either (.inr rfl) checked) aligned),
    aBind_of_ok (aLoad_of_scratch (is_scratch checked) (linesHeld_slot aligned mine)), if_pos (is_scratch checked), dest]
  rfl

/-! ### LDA -/

section
variable (reach : reaches s t (getC t o.a) o.off [0] permR (2 ^ o.size.toNat) .load true va x)
include reach
/-- LDA at its page -/
theorem ldaAM_of_page : ldaAM o (whoOf s.cur.core t) t s = (if x.un then do
      let v ← aLoad (whoOf s.cur.core t) (getC t o.a).bits va.toNat (2 ^ o.size.toNat)
      aLift (writeOpd t o.d (widen (2 ^ o.size.toNat) o.sx v))
    else do
      if orderWaits (← aState) (whoOf s.cur.core t) (x.pa / 64) true false o.scope then aWait else pure ()
      aMod (fun s' => acquireAt (beforeAtomic s' s.cur.core (x.pa / 64)) s.cur.core o.scope (x.pa / 64))
      aMod (fun s' => reachHome s' s.cur.core t.id.ctx x)
      let d := atHome (← aState) x
      aUnless (!d.poison) (dataFault va.toNat)
      aLift (writeOpd t o.d (widen (2 ^ o.size.toNat) o.sx (secBytes d.data (x.pa % 64) (2 ^ o.size.toNat)))) : AM Thread) s := by
  obtain ⟨(rfl : va = memAddr (getC t o.a) o.off), checked, aligned, -, hit, rd, -, free⟩ := reach
  have page : aHome (whoOf s.cur.core t) (memAddr (getC t o.a) o.off).toNat .load s = .ok (x, s) := aGo_of_hit hit rd free
  rw [ldaAM, aBind_of_ok (aAddrMem_of_checked checked aligned), aBind_of_ok page]
  rfl
theorem ldaAM_of_un (un : x.un = true) (small : o.size.toNat ≤ 3) (read : loadSector s s.cur.core t.id.ctx x = (d, s1)) (clean : d.poison = false)
    (put : writeOpd t o.d (widen (2 ^ o.size.toNat) o.sx (secBytes d.data (va.toNat % 64) (2 ^ o.size.toNat))) = .ok u) :
    ldaAM o (whoOf s.cur.core t) t s = .ok (u, s1) := by
  have page := ldaAM_of_page reach
  obtain ⟨-, -, aligned, kind, hit, rd, -, free⟩ := reach
  have loaded := aLoad_of_sector (not_scratch kind) (two_pow_ne_zero _) (fits_of_aligned (by omega) aligned)
    (aSector_of_clean (w := whoOf s.cur.core t) hit rd (accessHeld_plain free) read clean)
  rw [page, if_pos un, aBind_of_ok loaded, aLift_of_ok put]
section
variable (plain : x.un = false) (free : orderWaits s (whoOf s.cur.core t) (x.pa / 64) true false o.scope = false)
  (first : s1 = acquireAt (beforeAtomic s s.cur.core (x.pa / 64)) s.cur.core o.scope (x.pa / 64))
  (second : s2 = reachHome s1 s.cur.core t.id.ctx x)
include plain free first second
/-- what LDA loads once it has acquired -/
theorem ldaAM_of_acquired : ldaAM o (whoOf s.cur.core t) t s = (aUnless (!(atHome s2 x).poison) (dataFault va.toNat) >>= fun _ =>
    aLift (writeOpd t o.d (widen (2 ^ o.size.toNat) o.sx (secBytes (atHome s2 x).data (x.pa % 64) (2 ^ o.size.toNat))))) s2 := by
  subst first second
  rw [ldaAM_of_page reach, if_neg (Bool.eq_false_iff.mp plain), aState_bind, if_neg (Bool.eq_false_iff.mp free)]
  rfl
theorem ldaAM_of_home (clean : (atHome s2 x).poison = false)
    (put : writeOpd t o.d (widen (2 ^ o.size.toNat) o.sx (secBytes (atHome s2 x).data (x.pa % 64) (2 ^ o.size.toNat))) = .ok u) :
    ldaAM o (whoOf s.cur.core t) t s = .ok (u, s2) := by
  have sound : (!(atHome s2 x).poison) = true := by rw [clean]; rfl
  rw [ldaAM_of_acquired reach plain free first second, aBind_of_ok (aUnless_of_true sound _ s2), aLift_of_ok put]
theorem ldaAM_of_poison (bad : (atHome s2 x).poison = true) :
    ldaAM o (whoOf s.cur.core t) t s = .error (.trap s2 tData (addrDetail va)) := by
  have unsound : (!(atHome s2 x).poison) = false := by rw [bad]; rfl
  rw [ldaAM_of_acquired reach plain free first second, dataFault, ofNat_toNat64, aBind_of_error (aUnless_of_false unsound _ _ s2)]
end
end

/-! ### PREF -/

theorem prefAM_of_nothing (h : Hdr) (nothing : checkCap (getC t o.a) [0] permR (memAddr (getC t o.a) o.off) 1 ≠ .ok () ∨
    prefXlat s w (memAddr (getC t o.a) o.off).toNat = none) : prefAM h o w t s = .ok (t, s) := by
  rw [prefAM]
  cases checked : checkCap (getC t o.a) [0] permR (memAddr (getC t o.a) o.off) 1 with
  | error e => rfl
  | ok _ =>
    have none := nothing.resolve_left (fun no => no checked)
    simp only [aState_bind, none]
    rfl
/-- a prefetch of the four sectors of a line -/
theorem aFor_aMod {α : Type} (f : α → State → State) (l : List α) (s : State) :
    aFor (fun a => aMod (f a)) l s = .ok ((), l.foldl (fun s a => f a s) s) := by
  induction l generalizing s with
  | nil => rfl
  | cons a t ih => rw [aFor, aMod_bind, ih, List.foldl_cons]
theorem prefAM_of_line (h : Hdr) (checked : checkCap (getC t o.a) [0] permR (memAddr (getC t o.a) o.off) 1 = .ok ())
    (found : prefXlat s w (memAddr (getC t o.a) o.off).toNat = some x) (free : accessHeld s w x false = false) :
    prefAM h o w t s = .ok (t, (List.range 4).foldl (fun s i => prefSector w (h.hc == 3) { x with pa := x.pa / 256 * 256 + 64 * i } s) s) := by
  rw [prefAM]
  simp only [checked, aState_bind, found]
  rw [if_neg (Bool.eq_false_iff.mp free), aBind_of_ok (aFor_aMod ..)]
  rfl

/-! The line is prefetched for the core that the step runs on, which no sector changes -/

theorem chargeSec_cur (s : State) (c : BitVec 12) (sec : Nat) : (chargeSec s c sec).cur = s.cur := by rw [chargeSec_eq]
theorem readHome_cur (s : State) (c : BitVec 12) (sec : Nat) : (readHome s c sec).cur = s.cur := by
  rw [readHome]
  split
  · exact chargeSec_cur ..
  · rfl
theorem serveHome_cur (s : State) (c : BitVec 12) (sec : Nat) : (serveHome s c sec).cur = s.cur := by
  rw [serveHome]
  split
  · exact readHome_cur ..
  · exact chargeSec_cur ..
theorem evictLine_cur (s : State) (k line : Nat) : (evictLine s k line).cur = s.cur :=
  (Device.foldl_keeps State.cur (f := fun s sec => l1Drop s k sec) (fun _ _ => rfl) _ _).trans (writeBacks_cur ..)
theorem makeWays_cur (k set room : Nat) (lines : List Nat) (n : Nat) (s : State) : (makeWays s k set room lines n).cur = s.cur := by
  induction n generalizing s with
  | zero => rfl
  | succ n ih =>
    unfold makeWays
    simp only
    split
    · rfl
    · exact (ih _).trans (evictLine_cur ..)
theorem wayFor_cur (s : State) (k sec : Nat) : (wayFor s k sec).cur = s.cur := by
  rw [wayFor]
  split
  · rfl
  · exact makeWays_cur ..
theorem loadSector_cur (s : State) (k : Nat) (c : BitVec 12) (x : Xlat) : (loadSector s k c x).2.cur = s.cur := by
  unfold loadSector
  simp only
  split
  · exact chargeSec_cur ..
  · split
    · exact serveHome_cur ..
    · split
      · rfl
      · exact (readHome_cur ..).trans ((wayFor_cur ..).trans (orderHome_cur ..))
theorem prefSector_cur (w : Who) (none : Bool) (x : Xlat) (s : State) : (prefSector w none x s).cur = s.cur := by
  rw [prefSector]
  split
  · rfl
  · split
    · exact readHome_cur ..
    · exact loadSector_cur ..
theorem foldl_prefSector {k : Nat} (t : Thread) (none : Bool) (x : Nat → Xlat) {s : State} (core : s.cur.core = k) (l : List Nat) :
    l.foldl (fun s i => prefSector (whoOf s.cur.core t) none (x i) s) s = l.foldl (fun s i => prefSector (whoOf k t) none (x i) s) s :=
  foldl_congr_along (fun s => s.cur.core = k) (fun s i c => ⟨by rw [c], by rw [prefSector_cur, c]⟩) l core
end

/-- Settles O24, load by load. -/
theorem loads : Obligations.Loads := by
  refine ⟨?ld, ?ldScratch, ?wide, ?poison, ?ldaPoison, ?ldc, ?ldcScratch, ?lda, ?ldaUn, ?pref, ?prefLine⟩
  case ld =>
    intro h o s t va x d s1 u hr reach small read clean put
    exact runM_of_ok hr (ldAM_of_sector reach (by omega) read clean put)
  case ldScratch =>
    intro h o s t va u hr reach small put
    exact runM_of_ok hr (ldAM_of_scratch reach put)
  case wide =>
    intro h o s t va hr size unsigned
    have bytes : 2 ^ o.size.toNat = 16 := by rw [size]; rfl
    have whole : ∀ v, widen 16 o.sx v = BitVec.ofNat 128 v := fun v => by rw [unsigned]; rfl
    refine ⟨fun x d s1 u reach read clean put => runM_of_ok hr (ldAM_of_sector (va := va) ?_ (by rw [size]; decide) read clean ?_),
      fun u reach put => runM_of_ok hr (ldAM_of_scratch (va := va) ?_ ?_)⟩
    · rw [bytes]; exact reach
    · rw [bytes, whole, put]
    · rw [bytes]; exact reach
    · rw [bytes, whole, put]
  case poison =>
    intro h o s t va x d s1 hr read bad
    exact ⟨fun reach small => runM_of_trap hr (ldAM_of_poison reach small read bad), fun reach => runM_of_trap hr (ldcAM_of_poison reach read bad)⟩
  case ldaPoison =>
    intro h o s t va x s1 s2 hr reach plain free first second bad
    exact runM_of_trap hr (ldaAM_of_poison reach plain free first second bad)
  case ldc =>
    intro h o s t va x d s1 d2 s2 n hr reach read clean hit2 free2 read2 clean2 dest
    exact runM_of_ok hr (ldcAM_of_sectors reach read clean hit2 free2 read2 clean2 dest)
  case ldcScratch =>
    intro h o s t va n hr reach dest
    exact runM_of_ok hr (ldcAM_of_scratch reach dest)
  case lda =>
    intro h o s t va x s1 s2 u hr reach plain free first second clean put
    exact runM_of_ok hr (ldaAM_of_home reach plain free first second clean put)
  case ldaUn =>
    intro h o s t va x d s1 u hr reach un small read clean put
    exact runM_of_ok hr (ldaAM_of_un reach un small read clean put)
  case pref =>
    intro h o s t hr nothing
    rw [← doneAt_self hr rfl]
    exact runM_of_ok hr (prefAM_of_nothing h nothing)
  case prefLine =>
    intro h o s t x hr checked found free
    rw [foldl_prefSector t (h.hc == 3) (fun i => { x with pa := x.pa / 256 * 256 + 64 * i }) rfl]
    exact runM_of_ok hr (prefAM_of_line h checked found free)

end Sys2Proof.Proofs.Loads

/-! ## Stores (R404, R405) -/

namespace Sys2Proof.Proofs.Stores
open Sys2Proof.Machine Sys2Proof.Claims Sys2Proof.Laws.State Sys2Proof.Laws.Ops Sys2Proof.Proofs.Fences Sys2Proof.Proofs.Atomics
  Sys2Proof.Proofs.Accesses Sys2Proof.Proofs.Loads

section
variable {o : MemOps} {s : State} {t u : Thread} {va : W64} {x : Xlat} {v : W128} {n : BitVec 6}

/-! ### ST -/

theorem stAM_of_sector (reach : reaches s t (getC t o.a) o.off [0, 1] permW (2 ^ o.size.toNat) .store false va x) (small : o.size.toNat ≤ 4)
    (read : readOpd t o.b = .ok (v, u)) : stAM o (whoOf s.cur.core t) t s = .ok (u, notePeer (storeSector s s.cur.core t.id.ctx x
      ⟨2 ^ o.size.toNat, v.toNat % 256 ^ 2 ^ o.size.toNat, false, false⟩) s.cur.core x) := by
  obtain ⟨(rfl : va = memAddr (getC t o.a) o.off), checked, aligned, kind, hit, rd, -, free⟩ := reach
  have memory := not_scratch kind
  have fits := fits_of_aligned (Nat.le_trans small (by decide)) aligned
  rw [stAM, aBind_of_ok (aAddr_of_checked checked aligned),
    aBind_of_ok (aReady_of_hit (w := whoOf s.cur.core t) memory (two_pow_ne_zero _) fits hit rd free), aBind_of_ok (aLift_of_ok read s)]
  simp only
  rw [aBind_of_ok (aStore_of_hit (w := whoOf s.cur.core t) memory (two_pow_ne_zero _) fits hit _ (mod_bytes_lt ..) false false)]
  rfl
theorem stAM_of_scratch (reach : inScratch t s.cur.core (getC t o.a) o.off permW (2 ^ o.size.toNat) va) (read : readOpd t o.b = .ok (v, u)) :
    stAM o (whoOf s.cur.core t) t s = .ok (u, setCore s s.cur.core (storeScratch (Machine.core s s.cur.core) va.toNat (2 ^ o.size.toNat)
      (v.toNat % 256 ^ 2 ^ o.size.toNat) false)) := by
  obtain ⟨(rfl : va = memAddr (getC t o.a) o.off), checked, aligned, mine⟩ := reach
  have scratch := is_scratch checked
  rw [stAM, aBind_of_ok (aAddr_of_checked (checkCap_either (.inr rfl) checked) aligned), aBind_of_ok (aReady_of_scratch scratch mine),
    aBind_of_ok (aLift_of_ok read s)]
  simp only
  rw [aBind_of_ok (aStore_of_scratch scratch _ false false)]
  rfl

/-! ### STC: a tag is stored only where capability, source and page allow it -/

theorem cap_bits_lt (b : CReg) : b.bits.toNat < 256 ^ 32 := Nat.lt_of_lt_of_le b.bits.isLt (by decide)
theorem stcAM_of_sector (reach : reaches s t (getC t o.a) o.off [0, 1] permW 32 .store false va x) (source : o.b = .c n)
    (allowed : (getC t n).tag = true → hasPerm (getC t o.a).bits permC = true ∧ hasPerm (getC t n).bits permG = true ∧ x.ct = true) :
    stcAM o (whoOf s.cur.core t) t s = .ok (t, notePeer (storeSector s s.cur.core t.id.ctx x
      ⟨32, (getC t n).bits.toNat, (getC t n).tag, false⟩) s.cur.core x) := by
  obtain ⟨(rfl : va = memAddr (getC t o.a) o.off), checked, aligned, kind, hit, rd, -, free⟩ := reach
  have memory := not_scratch kind
  have fits : (memAddr (getC t o.a) o.off).toNat % 64 + 32 ≤ 64 := fits_of_aligned (e := 5) (by decide) aligned
  have source : capOpd t o.b = getC t n := by rw [source]; rfl
  have stored := aStore_of_hit (w := whoOf s.cur.core t) memory (by decide) fits hit _ (cap_bits_lt (getC t n)) (getC t n).tag false
  rw [stcAM, aBind_of_ok (aAddr_of_checked checked aligned), aBind_of_ok (aReady_of_hit (w := whoOf s.cur.core t) memory (by decide) fits hit rd free),
    source]
  by_cases tagged : (getC t n).tag = true
  · obtain ⟨permitted, grant, taggable⟩ := allowed tagged
    rw [if_pos tagged, aBind_of_ok (aUnless_of_true permitted _ s), if_neg (Bool.eq_false_iff.mp memory),
      aBind_of_ok (aUnless_of_true grant _ s), aBind_of_ok (aXlat_of_hit hit), aBind_of_ok (aUnless_of_true taggable _ s)]
    exact aBind_of_ok stored
  · rw [if_neg tagged]
    exact aBind_of_ok stored
theorem stcAM_of_scratch (reach : inScratch t s.cur.core (getC t o.a) o.off permW 32 va) (source : o.b = .c n)
    (allowed : (getC t n).tag = true → hasPerm (getC t o.a).bits permC = true) :
    stcAM o (whoOf s.cur.core t) t s = .ok (t, setCore s s.cur.core (storeScratch (Machine.core s s.cur.core) va.toNat 32
      (getC t n).bits.toNat (getC t n).tag)) := by
  obtain ⟨(rfl : va = memAddr (getC t o.a) o.off), checked, aligned, mine⟩ := reach
  have scratch := is_scratch checked
  have source : capOpd t o.b = getC t n := by rw [source]; rfl
  have stored := aStore_of_scratch (w := whoOf s.cur.core t) (s := s) (va := (memAddr (getC t o.a) o.off).toNat) (n := 32) scratch
    (getC t n).bits.toNat (getC t n).tag false
  rw [stcAM, aBind_of_ok (aAddr_of_checked (checkCap_either (.inr rfl) checked) aligned), aBind_of_ok (aReady_of_scratch scratch mine), source]
  by_cases tagged : (getC t n).tag = true
  · rw [if_pos tagged, aBind_of_ok (aUnless_of_true (allowed tagged) _ s), if_pos scratch]
    exact aBind_of_ok stored
  · rw [if_neg tagged]
    exact aBind_of_ok stored

/-! ### STR -/

section
variable (reach : reaches s t (getC t o.a) o.off [0] permW (2 ^ o.size.toNat) .store true va x) (read : readOpd t o.b = .ok (v, u))
include reach read
theorem strAM_of_home (plain : x.un = false) (free : orderWaits s (whoOf s.cur.core t) (x.pa / 64) false true o.scope = false) :
    strAM o (whoOf s.cur.core t) t s = .ok (u, notePeer (storeHome (releaseAt s s.cur.core t.id.ctx o.scope (x.pa / 64)) s.cur.core t.id.ctx x
      (2 ^ o.size.toNat) (v.toNat % 256 ^ 2 ^ o.size.toNat)) s.cur.core x) := by
  obtain ⟨(rfl : va = memAddr (getC t o.a) o.off), checked, aligned, -, hit, rd, -, admitted⟩ := reach
  have page : aHome (whoOf s.cur.core t) (memAddr (getC t o.a) o.off).toNat .store s = .ok (x, s) := aGo_of_hit hit rd admitted
  have ready : (!x.un && orderWaits s (whoOf s.cur.core t) (x.pa / 64) false true o.scope) = false := by rw [free, Bool.and_false]
  rw [strAM, aBind_of_ok (aAddrMem_of_checked checked aligned), aBind_of_ok page, aState_bind, if_neg (Bool.eq_false_iff.mp ready)]
  simp only
  rw [aBind_of_ok (aLift_of_ok read s)]
  simp only
  rw [if_neg (Bool.eq_false_iff.mp plain), aMod_bind]
  rfl
theorem strAM_of_un (un : x.un = true) (small : o.size.toNat ≤ 4) :
    strAM o (whoOf s.cur.core t) t s = .ok (u, notePeer (storeSector s s.cur.core t.id.ctx x
      ⟨2 ^ o.size.toNat, v.toNat % 256 ^ 2 ^ o.size.toNat, false, false⟩) s.cur.core x) := by
  obtain ⟨(rfl : va = memAddr (getC t o.a) o.off), checked, aligned, kind, hit, rd, -, admitted⟩ := reach
  have page : aHome (whoOf s.cur.core t) (memAddr (getC t o.a) o.off).toNat .store s = .ok (x, s) := aGo_of_hit hit rd admitted
  have ready : (!x.un && orderWaits s (whoOf s.cur.core t) (x.pa / 64) false true o.scope) = false := by rw [un]; rfl
  have fits := fits_of_aligned (Nat.le_trans small (by decide)) aligned
  rw [strAM, aBind_of_ok (aAddrMem_of_checked checked aligned), aBind_of_ok page, aState_bind, if_neg (Bool.eq_false_iff.mp ready)]
  simp only
  rw [aBind_of_ok (aLift_of_ok read s)]
  simp only
  rw [if_pos un, aBind_of_ok (aStore_of_hit (w := whoOf s.cur.core t) (not_scratch kind) (two_pow_ne_zero _) fits hit _ (mod_bytes_lt ..) false false)]
  rfl
end
end

/-- Settles O25, store by store. -/
theorem stores : Obligations.Stores := by
  refine ⟨?st, ?stScratch, ?stc, ?stcScratch, ?str, ?strUn⟩
  case st => exact fun h o s t va x v u hr reach small read => runM_of_ok hr (stAM_of_sector reach small read)
  case stScratch => exact fun h o s t va v u hr reach _ read => runM_of_ok hr (stAM_of_scratch reach read)
  case stc => exact fun h o s t va x n hr reach source allowed => runM_of_ok hr (stcAM_of_sector reach source allowed)
  case stcScratch => exact fun h o s t va n hr reach source allowed => runM_of_ok hr (stcAM_of_scratch reach source allowed)
  case str => exact fun h o s t va x v u hr reach plain free read => runM_of_ok hr (strAM_of_home reach read plain free)
  case strUn => exact fun h o s t va x v u hr reach un small read => runM_of_ok hr (strAM_of_un reach read un small)

end Sys2Proof.Proofs.Stores

/-! ## Streams (R295, R311, R313, R408-R411) -/

namespace Sys2Proof.Proofs.Streams
open Sys2Proof.Machine Sys2Proof.Claims Sys2Proof.Laws.State Sys2Proof.Laws.Ops Sys2Proof.Proofs.Fences Sys2Proof.Proofs.Atomics
  Sys2Proof.Proofs.Accesses Sys2Proof.Proofs.KilnWalks Sys2Proof.Proofs.Operands

section
variable (h : Hdr) (s : State)
theorem exec_sdef (o : SdefOps) : exec (.sdef h o) s = runM h (sdefAM o) s := rfl
theorem exec_sdefw (o : SdefwOps) : exec (.sdefw h o) s = runM h (sdefwAM o) s := rfl
theorem exec_sdefs (o : SdefsOps) : exec (.sdefs h o) s = runM h (sdefsAM o) s := rfl
theorem exec_sld (o : SldOps) : exec (.sld h o) s = runM h (sldAM o) s := rfl
theorem exec_sst (o : SstOps) : exec (.sst h o) s = runM h (sstAM o) s := rfl
end

/-! ### A definition made while execute words wait (R295) -/

theorem pendingDef_concat_self (n : BitVec 4) (d : Stream) (l : List SliceEntry) : pendingDef n (l ++ [.sdef n d]) = some d := by
  induction l with
  | nil => simp [pendingDef]
  | cons e l ih => cases e <;> simp [pendingDef, ih]
theorem pendingDef_concat_ne {n m : BitVec 4} (h : m ≠ n) (d : Stream) (l : List SliceEntry) :
    pendingDef m (l ++ [.sdef n d]) = pendingDef m l := by
  induction l with
  | nil => simp [pendingDef, h.symm]
  | cons e l ih => cases e <;> simp [pendingDef, ih]
/-- without a definition in the buffer its words use at most the register's -/
theorem defsInUse_le_one {n : BitVec 4} (l : List SliceEntry) : ∀ used, pendingDef n l = none → defsInUse n used l ≤ 1 := by
  induction l with
  | nil => intro used _; cases used <;> simp [defsInUse]
  | cons e l ih =>
    intro used none
    cases e with
    | word p w => exact ih _ none
    | sdef m d =>
      obtain ⟨rest, other⟩ := Option.or_eq_none_iff.mp none
      have other : m ≠ n := fun same => by simp [same] at other
      rw [defsInUse, if_neg other]
      exact ih _ rest
theorem streamDefinitionOrder : Claims.StreamDefinitionOrder := by
  intro t n d
  refine ⟨fun idle => ?_, defsInUse_le_one _ false, fun busy few => ?_, fun busy many => ?_⟩
  · rw [defineStream, idle]; rfl
  · have busy : ¬t.slice.isEmpty = true := by simpa using busy
    refine ⟨{ t with slice := t.slice ++ [.sdef n d] }, by rw [defineStream, if_neg busy, if_neg (Nat.not_le.mpr few)], rfl, rfl, ?_,
      fun m other => ?_⟩
    · rw [accessStream, pendingDef_concat_self, Option.some_or]
    · rw [accessStream, pendingDef_concat_ne other]; rfl
  · have busy : ¬t.slice.isEmpty = true := by simpa using busy
    rw [defineStream, if_neg busy, if_pos many]

/-! ### What moving along a stream leaves -/

theorem setAccessStream_regs_l (t : Thread) (n : BitVec 4) (d : Stream) : (setAccessStream t n d).regs.l = t.regs.l := by
  unfold setAccessStream
  split
  · rfl
  · exact setS_regs_l ..
theorem getL_setAccessStream (t : Thread) (n : BitVec 4) (d : Stream) (m : BitVec 2) : getL (setAccessStream t n d) m = getL t m := by
  rw [getL, getL, setAccessStream_regs_l]
theorem setAccessStream_opn (t : Thread) (n : BitVec 4) (d : Stream) : (setAccessStream t n d).opn = t.opn := by
  unfold setAccessStream
  split
  · rfl
  · exact setS_opn ..
theorem pushL_setAccessStream (t : Thread) (n : BitVec 4) (d : Stream) (m : BitVec 2) (l : List W128) :
    pushL (setAccessStream t n d) m l = setL (setAccessStream t n d) m (getL t m ++ l) := by
  rw [pushL, getL_setAccessStream]

/-! ### Definitions -/

section
variable {w : Who} {s s1 : State} {t u : Thread}
section
variable {o : SdefOps} (linear : o.b = 0) (checked : checkHandle (getC t o.a) [0, 1] 0 = .ok ())
include linear checked
theorem sdefAM_of_linear {d : Stream} (walk : sdefLinear (getC t o.a) (elemBitsOf o.fmt) s = .ok (d, s)) (defined : defineStream t o.d d = .ok u) :
    sdefAM o w t s = .ok (u, s) := by
  rw [sdefAM, aBind_of_ok (aLift_of_ok checked s), if_pos linear, aBind_of_ok walk]
  exact aLift_of_ok defined s
end
theorem sdefLinear_of_inside {a : CReg} {eb : Nat} (low : capBase a.bits ≤ curOf a) (high : curOf a < capLimit a.bits)
    (aligned : curOf a % ((eb + 7) / 8) = 0) : sdefLinear a eb s = .ok (
      { kind := .strided [] [], cap := a.bits, ebits := eb, count := (capLimit a.bits - curOf a) * 8 / eb, pos := 0 }, s) := by
  simp only [sdefLinear]
  rw [if_neg (Nat.not_le.mpr high), aBind_of_ok (aUnless_of_true (beq_iff_eq.mpr aligned) _ s),
    aBind_of_ok (aUnless_of_true (decide_eq_true low) _ s)]
  rfl
theorem sdefLinear_of_empty {a : CReg} {eb : Nat} (none : capLimit a.bits ≤ curOf a) :
    sdefLinear a eb s = .ok ({ kind := .strided [] [], cap := a.bits, ebits := eb, count := 0, pos := 0 }, s) := by
  simp only [sdefLinear]
  rw [if_pos none]
  rfl
theorem sdefAM_of_strided {o : SdefOps} {d : Stream} (strided : o.b ≠ 0) (checked : checkHandle (getC t o.a) [0, 1] 0 = .ok ())
    (walk : sdefStrided w (getC t o.a) (getC t o.b) (elemBitsOf o.fmt) s = .ok (d, s1)) (defined : defineStream t o.d d = .ok u) :
    sdefAM o w t s = .ok (u, s1) := by
  rw [sdefAM, aBind_of_ok (aLift_of_ok checked s), if_neg strided, aBind_of_ok walk]
  exact aLift_of_ok defined s1
/-- the bytes of a window's element, by its format -/
def windowBytes (fmt : Nat) : Nat := match fmt with | 2 => 4 | 3 => 1 | _ => 2
theorem sdefwAM_of_window {o : SdefwOps} {bs : List Byte} (checked : checkHandle (getC t o.a) [0, 1] 0 = .ok ())
    (desc : aDesc w (getC t o.b) s = .ok (bs, s1)) (form : windowOk (windowOf bs) (byteAt bs 22) = true) (zero : zeroBytes bs 23 41 = true)
    (low : capBase (getC t o.a).bits ≤ curOf (getC t o.a))
    (high : curOf (getC t o.a) + (windowOf bs).H * (windowOf bs).W * (windowOf bs).C * windowBytes (byteAt bs 22) ≤ capLimit (getC t o.a).bits)
    (defined : defineStream t o.d { kind := .window (windowOf bs), cap := (getC t o.a).bits, ebits := 8 * windowBytes (byteAt bs 22), count :=
      (windowOf bs).NP * ((windowOf bs).KH * (windowOf bs).KW * (windowOf bs).C), pos := 0 } = .ok u) : sdefwAM o w t s = .ok (u, s1) := by
  have legal : (windowOk (windowOf bs) (byteAt bs 22) && zeroBytes bs 23 41 && decide (capBase (getC t o.a).bits ≤ curOf (getC t o.a) ∧
      curOf (getC t o.a) + (windowOf bs).H * (windowOf bs).W * (windowOf bs).C * windowBytes (byteAt bs 22) ≤ capLimit (getC t o.a).bits)) = true := by
    rw [form, zero, decide_eq_true ⟨low, high⟩]; rfl
  rw [sdefwAM, aBind_of_ok (aLift_of_ok checked s), aBind_of_ok desc]
  exact (aBind_of_ok (aUnless_of_true legal _ s1)).trans (aLift_of_ok defined s1)
theorem sdefsAM_of_handle {o : SdefsOps} (on : s.host.on1.getLsbD 13 = true) (checked : checkHandle (getC t o.a) [1] permR = .ok ())
    (even : curOf (getC t o.a) % 2 = 0) (whole : capLimit (getC t o.a).bits % 2 = 0)
    (defined : defineStream t o.d { kind := .skip none, cap := (getC t o.a).bits, ebits := 16, count :=
      (capLimit (getC t o.a).bits - curOf (getC t o.a)) / 2, pos := 0 } = .ok u) : sdefsAM o w t s = .ok (u, s) := by
  have aligned : (curOf (getC t o.a) % 2 == 0 && capLimit (getC t o.a).bits % 2 == 0) = true := by rw [even, whole]; rfl
  rw [sdefsAM, aBind_of_ok (aFeature_of_on on), aBind_of_ok (aLift_of_ok checked s), aBind_of_ok (aUnless_of_true aligned _ s)]
  exact aLift_of_ok defined s

/-! ### Single-entry moves -/

/-- a stream of elements is none that SRD reads -/
theorem isWalk_of_isElems {k : StreamKind} (h : isElems k = true) : isWalk k = false := by
  cases k with
  | strided | window => rfl
  | skip | kiln => cases h

section
variable {o : SldOps} {d : Stream} (found : accessStream t o.a = some d)
include found
/-- SRD of a stream of elements -/
theorem srdAM_of_elems (elems : isElems d.kind = true) : srdAM o w t s = .error (.trap s tCap (capDetail .kind (capCursor d.cap))) := by
  have other := isWalk_of_isElems elems
  have refused : aStream t o.a isWalk s = .error (.trap s tCap (capDetail .kind (capCursor d.cap))) := by
    rw [aStream, found]
    simp only [other, Bool.false_eq_true, if_false]
    rfl
  rw [srdAM, aBind_of_error refused]
section
variable {e : Option (BitVec 16)} (skip : d.kind = .skip e) (room : (getL t o.d).length + 1 ≤ 32)
include skip room
/-- SRD of a skip list pushes its next entry -/
theorem srdAM_of_entry {v : BitVec 16} {d' : Stream} (entry : aSkipEntry w d s = .ok ((some v, d'), s1)) :
    srdAM o w t s = .ok (setL (setAccessStream t o.a d') o.d (getL t o.d ++ [v.setWidth 128]), s1) := by
  rw [srdAM, aBind_of_ok (aStream_of_admitted found (by rw [skip]; rfl))]
  simp only [skip]
  rw [aBind_of_ok (roomL_of_room room), aBind_of_ok entry, ← pushL_setAccessStream]
  rfl
theorem srdAM_of_end {d' : Stream} (entry : aSkipEntry w d s = .ok ((none, d'), s)) :
    srdAM o w t s = .ok (setL t o.d (getL t o.d ++ [BitVec.allOnes 128]), s) := by
  rw [srdAM, aBind_of_ok (aStream_of_admitted found (by rw [skip]; rfl))]
  simp only [skip]
  rw [aBind_of_ok (roomL_of_room room), aBind_of_ok entry]
  rfl
end
theorem sldAM_of_elems {vs : List Nat} (elems : isElems d.kind = true) (room : (getL t o.d).length < 32)
    (read : aElems w d d.pos (128 / d.ebits) s = .ok (vs, s1)) :
    sldAM o w t s = .ok (setL (setAccessStream t o.a { d with pos := d.pos + 128 / d.ebits }) o.d
      (getL t o.d ++ [BitVec.ofNat 128 (packElems d.ebits vs)]), s1) := by
  have pushed := pushQueue_l (t := setAccessStream t o.a { d with pos := d.pos + 128 / d.ebits }) (n := o.d)
    (BitVec.ofNat 128 (packElems d.ebits vs)) (by rw [getL_setAccessStream]; exact room)
  rw [getL_setAccessStream] at pushed
  rw [sldAM, aBind_of_ok (aStream_of_admitted found elems), aBind_of_ok (roomL_of_room room)]
  exact (aBind_of_ok read).trans (aLift_of_ok pushed s1)
end
theorem sstAM_of_strided {o : SstOps} {d : Stream} {v : W128} (found : accessStream t o.d = some d) (strided : isStrided d.kind = true)
    (read : readOpd t o.a = .ok (v, u)) (stored : aElemsStore w d d.pos (splitElems d.ebits v.toNat (128 / d.ebits)) s = .ok ((), s1)) :
    sstAM o w t s = .ok (setAccessStream u o.d { d with pos := d.pos + 128 / d.ebits }, s1) := by
  rw [sstAM, aBind_of_ok (aStream_of_admitted found strided), aBind_of_ok (aLift_of_ok read s)]
  exact aBind_of_ok stored
/-! the next entry of a skip list -/

theorem aSkipEntry_of_held {d : Stream} {e : BitVec 16} (kind : d.kind = .skip (some e)) :
    aSkipEntry w d s = .ok ((some e, { d with kind := .skip none }), s) := by
  simp only [aSkipEntry, kind]
  rfl
theorem aSkipEntry_of_end {d : Stream} (kind : d.kind = .skip none) (ended : d.count ≤ d.pos) : aSkipEntry w d s = .ok ((none, d), s) := by
  simp only [aSkipEntry, kind, if_pos ended]
  rfl
theorem aSkipEntry_of_load {d : Stream} {v : Nat} (kind : d.kind = .skip none) (before : d.pos < d.count)
    (checked : checkCap ⟨d.cap, true⟩ [1] permR (BitVec.ofNat 64 ((capCursor d.cap).toNat + 2 * d.pos)) 2 = .ok ())
    (load : aLoad w d.cap ((capCursor d.cap).toNat + 2 * d.pos) 2 s = .ok (v, s1)) :
    aSkipEntry w d s = .ok ((some (BitVec.ofNat 16 v), { d with pos := d.pos + 1 }), s1) := by
  simp only [aSkipEntry, kind, if_neg (Nat.not_le.mpr before)]
  rw [aBind_of_ok (aLift_of_ok checked s)]
  exact aBind_of_ok load
end

theorem streamWords : Claims.StreamWords := by
  refine ⟨?linear, ?empty, ?srd, ?strided, ?window, ?skip, ?sld, ?sst⟩
  case linear =>
    intro h o s t u hr linear checked low high aligned defined
    rw [exec_sdef, ← doneAt_self hr (defineStream_opn defined)]
    exact runM_of_ok hr (sdefAM_of_linear linear checked (sdefLinear_of_inside low high aligned) defined)
  case empty =>
    intro h o s t u hr linear checked none defined
    rw [exec_sdef, ← doneAt_self hr (defineStream_opn defined)]
    exact runM_of_ok hr (sdefAM_of_linear linear checked (sdefLinear_of_empty none) defined)
  case srd =>
    intro h o s t d hr found
    rw [exec_srd]
    refine ⟨fun elems => runM_of_trap hr (srdAM_of_elems found elems), fun e kind room => ?_, fun kind ended room => ?_,
      fun v s1 kind before room checked load => ?_⟩
    · rw [← doneAt_self hr (u := setL (setAccessStream t o.a { d with kind := .skip none }) o.d (getL t o.d ++ [e.setWidth 128]))
        (setAccessStream_opn ..)]
      exact runM_of_ok hr (srdAM_of_entry found kind room (aSkipEntry_of_held kind))
    · rw [← doneAt_self hr (u := setL t o.d (getL t o.d ++ [BitVec.allOnes 128])) rfl]
      exact runM_of_ok hr (srdAM_of_end found kind room (aSkipEntry_of_end kind ended))
    · exact runM_of_ok hr (srdAM_of_entry found kind room (aSkipEntry_of_load kind before checked load))
  case strided =>
    intro h o s t d s1 u hr strided checked walk defined
    exact runM_of_ok hr (sdefAM_of_strided strided checked walk defined)
  case window =>
    rintro h o s t bs s1 _ u hr checked desc form zero rfl low high defined
    exact runM_of_ok hr (sdefwAM_of_window checked desc form zero low high defined)
  case skip =>
    intro h o s t u hr on checked even whole defined
    rw [exec_sdefs, ← doneAt_self hr (defineStream_opn defined)]
    exact runM_of_ok hr (sdefsAM_of_handle on checked even whole defined)
  case sld =>
    intro h o s t d vs s1 hr found elems room read
    exact runM_of_ok hr (sldAM_of_elems found elems room read)
  case sst =>
    intro h o s t d v u s1 hr found strided read stored
    exact runM_of_ok hr (sstAM_of_strided found strided read stored)

/-- Settles O31: the instructions, and the order of a definition with the words that wait. -/
theorem streamInstructions : Obligations.StreamInstructions := ⟨streamWords, streamDefinitionOrder⟩

end Sys2Proof.Proofs.Streams

/-! ## Event queues and the queues of frames (R417, R422) -/

namespace Sys2Proof.Proofs.QueueReads
open Sys2Proof.Machine Sys2Proof.Claims Sys2Proof.Laws.State Sys2Proof.Laws.Ops Sys2Proof.Proofs.StockCounters Sys2Proof.Proofs.FiringEnds
  Sys2Proof.Proofs.Translation

section
variable (h : Hdr) (s : State)
theorem exec_evwait (o : EvOps) : exec (.evwait h o) s = runState h (evRun o (evwaitRes h)) s := rfl
theorem exec_evpop (o : EvOps) : exec (.evpop h o) s = runState h (evRun o (evpopRes h o)) s := rfl
theorem exec_evpeek (o : EvOps) : exec (.evpeek h o) s = runState h (evRun o (evpeekRes o)) s := rfl
theorem exec_qpeek (o : QOps) : exec (.qpeek h o) s = runState h (qpeekRes o) s := rfl
theorem exec_qcnt (o : QOps) : exec (.qcnt h o) s = runState h (qcntRes o) s := rfl
end

/-! ### A place left at a queue, and an acquire, leave the threads -/

theorem leaveEvents_cores (s : State) (k : Nat) (c : BitVec 12) : (leaveEvents s k c).cores = s.cores := updCtx_cores ..
theorem updCtx_cur (s : State) (c : BitVec 12) (f : Ctx → Ctx) : (updCtx s c f).cur = s.cur := by
  rw [updCtx]
  split <;> rfl
theorem leaveEvents_cur (s : State) (k : Nat) (c : BitVec 12) : (leaveEvents s k c).cur = s.cur := updCtx_cur ..
theorem setEvents_cur (s : State) (c : BitVec 12) (cl : Nat) (l : List Event) : (setEvents s c cl l).cur = s.cur := updCtx_cur ..
theorem acquireLocal_cur (s : State) (k : Nat) (scope : BitVec 3) : (acquireLocal s k scope).cur = s.cur := by
  rw [acquireLocal]
  split <;> rfl
theorem threadOf_acquireLocal (s : State) (j : Nat) (scope : BitVec 3) (k : Nat) : threadOf (acquireLocal s j scope) k = threadOf s k := by
  rw [acquireLocal]
  split
  · rfl
  · exact (threadOf_of_cores rfl).trans (threadOf_setCore_same rfl)
theorem curThread_left (s : State) (k : Nat) (c : BitVec 12) (scope : BitVec 3) :
    curThread (acquireLocal (leaveEvents s k c) k scope) = curThread s := by
  rw [curThread, curThread, acquireLocal_cur, leaveEvents_cur, threadOf_acquireLocal, threadOf_of_cores (leaveEvents_cores ..)]

/-! ### Event queues -/

theorem putRecord_c (t : Thread) (m : BitVec 6) (r : List Byte) (v : BitVec 192) : putRecord t (.c m) r v = .ok (setC t m ⟨v, false⟩) := rfl
theorem putRecord_l {t : Thread} {m : BitVec 2} (r : List Byte) (v : BitVec 192) (room : (getL t m).length + 2 ≤ 32) :
    putRecord t (.l m) r v = .ok (setL t m (getL t m ++ recordEntries r)) := if_pos room
section
variable {h : Hdr} {o : EvOps} {s : State} {t u : Thread} {cl : Nat} {e : Event} {r : List Event}
/-- the record of the queue that is an instruction's, with those behind it -/
def ownRecords (s : State) (t : Thread) (cl : Nat) : List Event :=
  (eventsOf s t.id.ctx cl).drop (evAhead s.cur.core (evWaitsOf s t.id.ctx cl))
theorem evwaitRes_of_record (own : ownRecords s t cl = e :: r) :
    evwaitRes h cl t s = .done (acquireLocal (leaveEvents s s.cur.core t.id.ctx) s.cur.core e.scope) := by
  rw [ownRecords] at own
  simp only [evwaitRes, own]
theorem evpopRes_of_record (own : ownRecords s t cl = e :: r) (put : putRecord t o.d (eventBytes e) (eventReg e) = .ok u) :
    evpopRes h o cl t s = .done (setCur (acquireLocal (leaveEvents (setEvents s t.id.ctx cl
      ((eventsOf s t.id.ctx cl).take (evAhead s.cur.core (evWaitsOf s t.id.ctx cl)) ++ r)) s.cur.core t.id.ctx) s.cur.core e.scope) u) := by
  rw [ownRecords] at own
  simp only [evpopRes, own, put, leaveEvents_cur, setEvents_cur]
theorem evpeekRes_of_record (own : ownRecords s t cl = e :: r) (put : putRecord t o.d (eventBytes e) (eventReg e) = .ok u) :
    evpeekRes o cl t s = .done (setCur s u) := by
  rw [ownRecords] at own
  simp only [evpeekRes, own, put]
theorem evpeekRes_of_none {m : BitVec 6} (own : ownRecords s t cl = []) (dest : o.d = .c m) :
    evpeekRes o cl t s = .done (setCur s (setC t m ⟨0, false⟩)) := by
  rw [ownRecords] at own
  simp only [evpeekRes, own, dest, putRecord_c]
/-- away from a safe point an instruction that finds no record takes its place, or keeps it -/
theorem evBlock_of_running (pop : Bool) (unsafe_ : h.p = false) (running : t.safe = none) : evBlock h pop cl t s =
    .wait (if (evWaitsOf s t.id.ctx cl).any (·.1 == s.cur.core) then setCur s t
      else setEvWaits (setCur s t) t.id.ctx cl (evWaitsOf s t.id.ctx cl ++ [(s.cur.core, pop)])) := by
  simp only [evBlock, blockSafe, unsafe_, Bool.false_eq_true, if_false, curThread_setCur, running, Option.isSome_none, setCur_cur] <;> rfl
theorem evwaitRes_of_none (own : ownRecords s t cl = []) : evwaitRes h cl t s = evBlock h false cl t s := by
  rw [ownRecords] at own
  simp only [evwaitRes, own]
theorem evpopRes_of_none (own : ownRecords s t cl = []) : evpopRes h o cl t s = evBlock h true cl t s := by
  rw [ownRecords] at own
  simp only [evpopRes, own]
theorem evRun_of_handle {f : Nat → Thread → State → Res} (handle : evHandle (getC t o.a) = .ok cl) : evRun o f t s = f cl t s := by
  rw [evRun, handle]
end

theorem eventQueues : Claims.EventQueues := by
  rintro h o s t cl _ _ _ _ hr handle rfl rfl rfl rfl
  rw [exec_evwait, exec_evpop, exec_evpeek]
  refine ⟨fun nobody => by rw [nobody]; rfl, fun e r own => ⟨?_, fun u dest => ?_⟩, fun own => ⟨fun m dest => ?_, fun away running placed => ?_,
    fun away running placed => ?_⟩⟩
  · exact runState_done_same hr ((evRun_of_handle handle).trans (evwaitRes_of_record own)) ((curThread_left ..).trans hr.1)
  · have put : putRecord t o.d (eventBytes e) (eventReg e) = .ok u := by
      obtain ⟨m, dest, rfl⟩ | ⟨m, dest, room, rfl⟩ := dest
      · rw [dest, putRecord_c]
      · rw [dest, putRecord_l _ _ room]
    exact ⟨runState_done hr ((evRun_of_handle handle).trans (evpopRes_of_record own put)),
      runState_done hr ((evRun_of_handle handle).trans (evpeekRes_of_record own put))⟩
  · exact runState_done hr ((evRun_of_handle handle).trans (evpeekRes_of_none own dest))
  · constructor
    · exact runState_wait hr (by rw [evRun_of_handle handle, evwaitRes_of_none own, evBlock_of_running _ away running, if_pos placed])
    · exact runState_wait hr (by rw [evRun_of_handle handle, evpopRes_of_none own, evBlock_of_running _ away running, if_pos placed])
  · have away' := Bool.eq_false_iff.mp placed
    constructor
    · exact runState_wait hr (by rw [evRun_of_handle handle, evwaitRes_of_none own, evBlock_of_running _ away running, if_neg away'])
    · exact runState_wait hr (by rw [evRun_of_handle handle, evpopRes_of_none own, evBlock_of_running _ away running, if_neg away'])

/-! ### QPEEK and QCNT -/

section
variable {s : State} {t : Thread} {d : BitVec 6} {n : BitVec 3} {m : BitVec 6} {b : Opd} {q : Queue}
theorem qpeekRes_of_inside (used : (getInQ t n).used = true) (aligned : (readCI t b).toNat % 8 = 0)
    (inside : (readCI t b).toNat + 8 ≤ (getInQ t n).bytes.length) : qpeekRes ⟨d, .i n, b⟩ t s =
      .done (setCur s (setData t d (BitVec.ofNat 64 (leNat (((getInQ t n).bytes.drop (readCI t b).toNat).take 8))))) := by
  simp only [qpeekRes, inputOf, used, aligned, decide_eq_true inside, beq_self_eq_true, Bool.and_self, if_true]
theorem qcntRes_of_input (used : (getInQ t n).used = true) (alone : t.id.gang = false) (behind : queueOfInput s t n = some q) :
    qcntRes ⟨d, .i n, b⟩ t s = .done (setCur s (setData t d
      (BitVec.ofNat 32 q.items.length ++ BitVec.ofNat 32 ((getInQ t n).bytes.length - (getInQ t n).pos)))) := by
  simp only [qcntRes, inputOf, used, popPos, alone, behind, Bool.false_and, Bool.false_eq_true, if_false, if_true, pairWord]
theorem qcntRes_of_handle {f : Frame} (checked : checkHandle (getC t m) [3] permW = .ok ())
    (frame : findFrame s (handleCtx (getC t m)) (handleFrame (getC t m)) = some f) (queue : queueAt f (handleQueue (getC t m)) = some q) :
    qcntRes ⟨d, .c m, b⟩ t s = .done (setCur s (setData t d (BitVec.ofNat 32 (queueRoom q) ++ BitVec.ofNat 32 q.items.length))) := by
  simp only [qcntRes, inputOf, regOf, checked, orStop, frame, Option.bind_some, queue, pairWord]
end
theorem queueReads : Claims.QueueReads := by
  refine ⟨?peek, ?input, ?handle⟩
  case peek => exact fun h d n b s t hr used aligned inside => runState_done hr (qpeekRes_of_inside used aligned inside)
  case input => exact fun h d n b s t q hr used alone behind => runState_done hr (qcntRes_of_input used alone behind)
  case handle => exact fun h d n b s t f q hr checked frame queue => runState_done hr (qcntRes_of_handle checked frame queue)

/-- Settles O37: event queues by the record that is an instruction's own, then QPEEK and QCNT. -/
theorem queuesOfEventsAndFrames : Obligations.QueuesOfEventsAndFrames := ⟨eventQueues, queueReads⟩

end Sys2Proof.Proofs.QueueReads

/-! ## Scalar floating point (R423-R432) -/

namespace Sys2Proof.Proofs.ScalarFloats
open Sys2Proof.Machine Sys2Proof.Claims Sys2Proof.Proofs.Integers

/-! ### Each form with its sources read -/

section
variable {o : FpOps} {t t1 t2 t3 u : Thread} {a b c : Nat}
section
variable (readA : readFp t o.fmt o.a = .ok (a, t1))
include readA
theorem fp1Thread_ok {f : FLayout → FCtl → Nat → Nat × Events}
    (put : writeOpd t1 o.d (BitVec.ofNat 64 (f (layoutOf o.fmt) (ctlOf t o) a).1) = .ok u) :
    fp1Thread f o t = .ok (countEvents u (f (layoutOf o.fmt) (ctlOf t o) a).2) := by
  simp only [fp1Thread, readA, put, bind, Except.bind]
theorem fexpoThread_ok (put : writeOpd t1 o.d (fpExpo (layoutOf o.fmt) (ctlOf t o) a).1 = .ok u) :
    fexpoThread o t = .ok (countEvents u (fpExpo (layoutOf o.fmt) (ctlOf t o) a).2) := by
  simp only [fexpoThread, readA, put, bind, Except.bind]
theorem fclassThread_ok (put : writeOpd t1 o.d (fpClass (layoutOf o.fmt) a) = .ok u) : fclassThread o t = .ok u := by
  simp only [fclassThread, readA, put, bind, Except.bind]
theorem fscalbThread_ok {n : W64} (readN : readW t1 o.b = .ok (n, t2))
    (put : writeOpd t2 o.d (BitVec.ofNat 64 (fpScalb (layoutOf o.fmt) (ctlOf t o) a n.toInt).1) = .ok u) :
    fscalbThread o t = .ok (countEvents u (fpScalb (layoutOf o.fmt) (ctlOf t o) a n.toInt).2) := by
  simp only [fscalbThread, readA, readN, put, bind, Except.bind]
/-- a source that is no inline constant is converted from its code -/
theorem fcvtThread_ok (code : ∀ v, o.a ≠ .imm v)
    (put : writeOpd t1 o.d (BitVec.ofNat 64 (convert (ctlOf t o) (fmtOf o.fmt) (fmtOf o.fmt2) a).1) = .ok u) :
    fcvtThread o t = .ok (countEvents u (convert (ctlOf t o) (fmtOf o.fmt) (fmtOf o.fmt2) a).2) := by
  rw [fcvtThread]
  split
  case _ v imm => exact absurd imm (code v)
  case _ => simp only [readA, put, bind, Except.bind]
section
variable (readB : readFp t1 o.fmt o.b = .ok (b, t2))
include readB
theorem fp2Thread_ok {f : FLayout → FCtl → Nat → Nat → Nat × Events}
    (put : writeOpd t2 o.d (BitVec.ofNat 64 (f (layoutOf o.fmt) (ctlOf t o) a b).1) = .ok u) :
    fp2Thread f o t = .ok (countEvents u (f (layoutOf o.fmt) (ctlOf t o) a b).2) := by
  simp only [fp2Thread, readA, readB, put, bind, Except.bind]
theorem fp3Thread_ok {f : FLayout → FCtl → Nat → Nat → Nat → Nat × Events} (readC : readFp t2 o.fmt o.c = .ok (c, t3))
    (put : writeOpd t3 o.d (BitVec.ofNat 64 (f (layoutOf o.fmt) (ctlOf t o) a b c).1) = .ok u) :
    fp3Thread f o t = .ok (countEvents u (f (layoutOf o.fmt) (ctlOf t o) a b c).2) := by
  simp only [fp3Thread, readA, readB, readC, put, bind, Except.bind]
theorem fcmpThread_ok {n : BitVec 6} (dest : o.d = .c n) : fcmpThread o t = .ok
    (countEvents (setP t2 (n.setWidth 4) (fpCmp (layoutOf o.fmt) (ctlOf t o) o.opt a b).1) (fpCmp (layoutOf o.fmt) (ctlOf t o) o.opt a b).2) := by
  simp only [fcmpThread, readA, readB, dest, bind, Except.bind]
end
end
theorem fcvtThread_imm {v : BitVec 7} (imm : o.a = .imm v)
    (put : writeOpd t o.d (BitVec.ofNat 64 (convertImm (ctlOf t o) (fmtOf o.fmt) (fmtOf o.fmt2) ((v.toNat : Int) - 64)).1) = .ok u) :
    fcvtThread o t = .ok (countEvents u (convertImm (ctlOf t o) (fmtOf o.fmt) (fmtOf o.fmt2) ((v.toNat : Int) - 64)).2) := by
  simp only [fcvtThread, imm, immOf, put, bind, Except.bind]
end

/-! ### The instructions of each form -/

theorem exec_fp1 {p : (Hdr → FpOps → Instr) × (FLayout → FCtl → Nat → Nat × Events)} (m : p ∈ fp1Ops) (h : Hdr) (o : FpOps) (s : State) :
    exec (p.1 h o) s = runThread h (fp1Thread p.2 o) s := by
  revert p
  simp only [fp1Ops, List.forall_mem_cons, List.not_mem_nil, false_imp_iff, implies_true, and_true]
  exact ⟨rfl, rfl, rfl, rfl, rfl⟩
theorem exec_fp2 {p : (Hdr → FpOps → Instr) × (FLayout → FCtl → Nat → Nat → Nat × Events)} (m : p ∈ fp2Ops) (h : Hdr) (o : FpOps) (s : State) :
    exec (p.1 h o) s = runThread h (fp2Thread p.2 o) s := by
  revert p
  simp only [fp2Ops, List.forall_mem_cons, List.not_mem_nil, false_imp_iff, implies_true, and_true]
  exact ⟨rfl, rfl, rfl, rfl, rfl, rfl, rfl⟩
theorem exec_fp3 {p : (Hdr → FpOps → Instr) × (FLayout → FCtl → Nat → Nat → Nat → Nat × Events)} (m : p ∈ fp3Ops) (h : Hdr) (o : FpOps)
    (s : State) : exec (p.1 h o) s = runThread h (fp3Thread p.2 o) s := by
  revert p
  simp only [fp3Ops, List.forall_mem_cons, List.not_mem_nil, false_imp_iff, implies_true, and_true]
  exact ⟨rfl, rfl, rfl, rfl⟩
section
variable (h : Hdr) (o : FpOps) (s : State)
theorem exec_fscalb : exec (.fscalb h o) s = runThread h (fscalbThread o) s := rfl
theorem exec_fexpo : exec (.fexpo h o) s = runThread h (fexpoThread o) s := rfl
theorem exec_fclass : exec (.fclass h o) s = runThread h (fclassThread o) s := rfl
theorem exec_fcmp : exec (.fcmp h o) s = runThread h (fcmpThread o) s := rfl
theorem exec_fcvt : exec (.fcvt h o) s = runThread h (fcvtThread o) s := rfl
end

/-- Settles O23, by the form of the instruction. -/
theorem scalarFloat : Obligations.ScalarFloat := by
  intro h o s t hr
  refine ⟨?one, ?two, ?three, ?scalb, ?expo, ?class_, ?cmp, ?cvt, ?cvtImm⟩
  case one =>
    intro p m a t1 u readA put
    rw [exec_fp1 m]
    exact runThread_of_ok hr (fp1Thread_ok readA put)
  case two =>
    intro p m a t1 b t2 u readA readB put
    rw [exec_fp2 m]
    exact runThread_of_ok hr (fp2Thread_ok readA readB put)
  case three =>
    intro p m a t1 b t2 c t3 u readA readB readC put
    rw [exec_fp3 m]
    exact runThread_of_ok hr (fp3Thread_ok readA readB readC put)
  case scalb =>
    intro a t1 n t2 u readA readN put
    rw [exec_fscalb]
    exact runThread_of_ok hr (fscalbThread_ok readA readN put)
  case expo =>
    intro a t1 u readA put
    rw [exec_fexpo]
    exact runThread_of_ok hr (fexpoThread_ok readA put)
  case class_ =>
    intro a t1 u readA put
    rw [exec_fclass]
    exact runThread_of_ok hr (fclassThread_ok readA put)
  case cmp =>
    intro n a t1 b t2 dest readA readB
    rw [exec_fcmp]
    exact runThread_of_ok hr (fcmpThread_ok readA readB dest)
  case cvt =>
    intro a t1 u code readA put
    rw [exec_fcvt]
    exact runThread_of_ok hr (fcvtThread_ok readA code put)
  case cvtImm =>
    intro v u imm put
    rw [exec_fcvt]
    exact runThread_of_ok hr (fcvtThread_imm imm put)

end Sys2Proof.Proofs.ScalarFloats

/-! ## Engine commands and SEND (R70, R118, R418-R420, R450, R451) -/

namespace Sys2Proof.Proofs.EngineCommands
open Sys2Proof.Machine Sys2Proof.Claims Sys2Proof.Laws.State Sys2Proof.Laws.Ops Sys2Proof.Proofs.StockCounters Sys2Proof.Proofs.FiringEnds
  Sys2Proof.Proofs.Fences Sys2Proof.Proofs.Atomics Sys2Proof.Proofs.Accesses Sys2Proof.Proofs.Translation Sys2Proof.Proofs.WriteBacks

/-! ### What leaves the current thread -/

/-- an inbox that is not the firmware's takes a command without waking anyone -/
theorem pushInbox_threads {s s' : State} {e : EngineId} {c : Cmd} (other : ∀ d, e ≠ .firmware d) (pushed : pushInbox s e c = some s') :
    s'.cores = s.cores ∧ s'.cur = s.cur := by
  have stamped : (stampCmd s c).2.cores = s.cores ∧ (stampCmd s c).2.cur = s.cur := by
    rw [stampCmd]
    split <;> exact ⟨rfl, rfl⟩
  simp only [pushInbox] at pushed
  cases e with
  | firmware d => exact absurd rfl (other d)
  | copy | joiner | kiln | scribe | bank =>
    simp only [Option.ite_none_right_eq_some, Option.some.injEq] at pushed
    rw [← pushed.2]
    exact stamped
  | _ =>
    rw [← Option.some.inj pushed]
    exact stamped
theorem releaseFor_cur (rel : Bool) (k : Nat) (c : BitVec 12) (s : State) : (releaseFor rel k c s).cur = s.cur := by
  rw [releaseFor]
  split
  · exact writeBacks_cur ..
  · rfl
theorem threadOf_releaseFor (rel : Bool) (j : Nat) (c : BitVec 12) (s : State) (k : Nat) : threadOf (releaseFor rel j c s) k = threadOf s k := by
  rw [releaseFor]
  split
  · exact threadOf_drainCtx ..
  · rfl
theorem curThread_pushed {rel : Bool} {k : Nat} {x : BitVec 12} {s s' : State} {e : EngineId} {c : Cmd} (other : ∀ d, e ≠ .firmware d)
    (pushed : pushInbox (releaseFor rel k x s) e c = some s') : curThread s' = curThread s := by
  obtain ⟨cores, cur⟩ := pushInbox_threads other pushed
  rw [curThread, curThread, cur, releaseFor_cur, threadOf_of_cores cores, threadOf_releaseFor]

/-! ### Commands (R450) -/

section
variable {h : Hdr} {i : Instr} {o : EngOps} {ks : List Nat} {checkA checkB : Thread → Except Stop Unit} {dest : Thread → State → EngineId}
  {s s' : State} {t : Thread}
/-- a command whose checks pass is sent -/
theorem engRun_of_checked (reply : replyCheck t o.d ks = .ok ()) (a : checkA t = .ok ()) (b : checkB t = .ok ()) :
    engRun i o ks checkA checkB dest t s = sendCmd (dest t s) (cmdOf i o t s) s := by
  simp only [engRun, orStop, reply, a, b]
theorem sendCmd_of_place {e : EngineId} {c : Cmd} (ready : releaseWaits c.rel c.core c.ctx s = false)
    (pushed : pushInbox (releaseFor c.rel c.core c.ctx s) e c = some s') : sendCmd e c s = .done s' := by
  rw [sendCmd, if_neg (Bool.eq_false_iff.mp ready), pushed]
theorem sendCmd_of_full {e : EngineId} {c : Cmd}
    (full : releaseWaits c.rel c.core c.ctx s = true ∨ pushInbox (releaseFor c.rel c.core c.ctx s) e c = none) : sendCmd e c s = .wait s := by
  rw [sendCmd]
  by_cases waits : releaseWaits c.rel c.core c.ctx s = true
  · rw [if_pos waits]
  · rw [if_neg waits, full.resolve_left waits]
section
variable (hr : Runs h s t) (reply : replyCheck t o.d ks = .ok ()) (a : checkA t = .ok ()) (b : checkB t = .ok ())
include hr reply a b
theorem runState_engRun_posted (other : ∀ d, dest t s ≠ .firmware d) (ready : releaseWaits o.rel s.cur.core t.id.ctx s = false)
    (pushed : pushInbox (releaseFor o.rel s.cur.core t.id.ctx s) (dest t s) (cmdOf i o t s) = some s') :
    runState h (fun t s => engRun i o ks checkA checkB dest t s) s = .next (doneAt h s' t) := by
  have same : curThread s' = some t := (curThread_pushed other pushed).trans hr.1
  rw [doneAt_of_opn same rfl]
  exact runState_done_same hr ((engRun_of_checked reply a b).trans (sendCmd_of_place ready pushed)) same
theorem runState_engRun_waits (full : releaseWaits o.rel s.cur.core t.id.ctx s = true ∨
    pushInbox (releaseFor o.rel s.cur.core t.id.ctx s) (dest t s) (cmdOf i o t s) = none) :
    runState h (fun t s => engRun i o ks checkA checkB dest t s) s = .next s := by
  exact runState_wait hr ((engRun_of_checked reply a b).trans (sendCmd_of_full full))
end
end
/-- each command is issued with the checks and to the engine of its row -/
theorem exec_command {p : (Hdr → EngOps → Instr) × List Nat × (EngOps → Thread → Except Stop Unit) × (EngOps → Thread → Except Stop Unit) ×
    (EngOps → Thread → State → EngineId)} (m : p ∈ commands) :
    (∀ h o s, exec (p.1 h o) s = runState h (fun t s => engRun (p.1 h o) o p.2.1 (p.2.2.1 o) (p.2.2.2.1 o) (p.2.2.2.2 o) t s) s) ∧
    ∀ o t s d, p.2.2.2.2 o t s ≠ .firmware d := by
  revert p
  simp only [commands, List.forall_mem_cons, List.not_mem_nil, false_imp_iff, implies_true, and_true]
  refine ⟨?_, ?_, ?_, ?_, ?_, ?_, ?_, ?_, ?_, ?_, ?_, ?_, ?_, ?_, ?_, ?_, ?_, ?_, ?_, ?_, ?_, ?_⟩
  all_goals exact ⟨fun _ _ _ => rfl, fun _ _ _ _ => nofun⟩
theorem commandsPost : Claims.CommandsPost := by
  intro p m h o s t hr reply a b
  obtain ⟨run, other⟩ := exec_command m
  rw [run]
  exact ⟨fun s' ready pushed => runState_engRun_posted hr reply a b (other o t s) ready pushed, runState_engRun_waits hr reply a b⟩

/-! ### Bank commands (R70) -/

section
variable {h : Hdr} {i : Instr} {o : EngOps} {p : BitVec 7} {needs : List Need} {s s1 s' : State} {t : Thread} {pa z : Nat}
theorem bankRun_of_page (hr : Runs h s t) (reply : replyCheck t o.d [3, 7] = .ok ()) (checked : checkHandle (getC t o.a) [0] (p ||| permE) = .ok ())
    (page : bankPage o needs (whoOf s.cur.core t) t s = .ok ((pa, z), s1))
    (pushed : pushInbox s1 (.bank (channelOfPa pa)) { cmdOf i o t s1 with acq := false, pa := pa, page := z } = some s') :
    bankRun h i o p needs s = .next (doneAt h s' t) := by
  refine runM_of_ok (f := bankAM i o p needs) hr ?_
  rw [bankAM, aBind_of_ok (aLift_of_ok reply s), aBind_of_ok (aLift_of_ok checked s), aBind_of_ok page]
  simp only [pushed]
end
section
variable (h : Hdr) (o : EngOps) (s : State)
theorem exec_bkadd : exec (.bkadd h o) s = bankRun h (.bkadd h o) o (permR ||| permW) [.load, .store] s := rfl
theorem exec_bkaxpy : exec (.bkaxpy h o) s = bankRun h (.bkaxpy h o) o (permR ||| permW) [.load, .store] s := rfl
theorem exec_bkgemv : exec (.bkgemv h o) s = bankRun h (.bkgemv h o) o (permR ||| permW ||| permC) [.load, .store] s := rfl
theorem exec_bkzero : exec (.bkzero h o) s = bankRun h (.bkzero h o) o permW [.store] s := rfl
theorem exec_send : exec (.send h o) s = runM h (sendAM o) s := rfl
end
theorem bankCommandsPost : Claims.BankCommandsPost := by
  intro h o s t pa z s1 s' hr reply
  rw [exec_bkadd, exec_bkaxpy, exec_bkgemv, exec_bkzero]
  exact ⟨fun checked page => ⟨bankRun_of_page hr reply checked page, bankRun_of_page hr reply checked page⟩,
    fun checked page => bankRun_of_page hr reply checked page, fun checked page => bankRun_of_page hr reply checked page⟩

/-! ### The body of a SEND (R418) -/

section
variable {w : Who} {b : CReg} {va : Nat} {s s1 s2 : State} {x : Xlat} {d d2 : L2Sector}
theorem aSlotTag_of_untagged (plain : hasPerm b.bits permC = false) : aSlotTag w b va s = .ok (false, s) := by
  rw [aSlotTag, if_neg (Bool.eq_false_iff.mp plain)]
  rfl
section
variable {tag : Bool} (shows_ : hasPerm b.bits permC = true) (sector : aSector w va s1 = .ok ((d2, x), s2))
  (slot : tag = (x.ct && d2.tags.getLsbD (va % 64 / 32)))
include shows_ sector slot
theorem aSlotTag_of_sector (allowed : tag = true → hasPerm (BitVec.ofNat 192 (secBytes d2.data (va % 64) 24)) permE = true) :
    aSlotTag w b va s1 = .ok (tag, s2) := by
  have ok : (!tag || hasPerm (BitVec.ofNat 192 (secBytes d2.data (va % 64) 24)) permE) = true := by
    cases tag with
    | false => rfl
    | true => exact allowed rfl
  rw [aSlotTag, if_pos shows_, aBind_of_ok sector]
  simp only [← slot]
  rw [aBind_of_ok (aUnless_of_true ok _ s2)]
  rfl
theorem aSlotTag_of_refused (tagged : tag = true) (no : hasPerm (BitVec.ofNat 192 (secBytes d2.data (va % 64) 24)) permE = false) :
    aSlotTag w b va s1 = .error (.trap s2 tCap (capDetail .permission (BitVec.ofNat 64 va))) := by
  have bad : (!tag || hasPerm (BitVec.ofNat 192 (secBytes d2.data (va % 64) 24)) permE) = false := by rw [tagged, no]; rfl
  rw [aSlotTag, if_pos shows_, aBind_of_ok sector]
  simp only [← slot]
  rw [capFault, aBind_of_error (aUnless_of_false bad _ _ s2)]
end
/-- a body of one slot: its bytes, then its tag -/
theorem aBody_of_slot (checked : checkCap b [0] permR (capCursor b.bits) 32 = .ok ()) (aligned : curOf b % 32 = 0)
    (sector : aSector w (curOf b) s = .ok ((d, x), s1)) :
    aBody w b 32 s = (aSlotTag w b (curOf b) >>= fun tag => pure (toBytes 32 (secBytes d.data (curOf b % 64) 32), [tag])) s1 := by
  have memory : isScratch b.bits = false := not_scratch (by rw [List.mem_singleton.mp (checkCap_iff.mp checked).2.1]; decide)
  have fits : curOf b % 64 + 32 ≤ 64 := fits_of_aligned (e := 5) (by decide) aligned
  have loaded := aLoad_of_sector memory (by decide) fits sector
  have one : List.range (32 / 32) = [0] := rfl
  rw [aBody, aBind_of_ok (aLift_of_ok checked s), aBind_of_ok loaded, if_pos aligned, one]
  simp only [aEach, bind_assoc, pure_bind]
  rfl
end
theorem bodyReads : Claims.BodyReads := by
  rintro s t b _ x d s1 rfl checked aligned hit rd free read clean
  have sector := aSector_of_clean (w := whoOf s.cur.core t) hit rd free read clean
  rw [aBody_of_slot checked aligned sector]
  refine ⟨fun plain => by rw [aBind_of_ok (aSlotTag_of_untagged plain)]; rfl, fun d2 s2 tag shows_ hit2 free2 read2 clean2 slot => ?_⟩
  have again := aSector_of_clean (w := whoOf s.cur.core t) hit2 rd free2 read2 clean2
  exact ⟨fun allowed => by rw [aBind_of_ok (aSlotTag_of_sector shows_ again slot allowed)]; rfl,
    fun tagged no => by rw [aBind_of_error (aSlotTag_of_refused shows_ again slot tagged no)]⟩

/-! ### SEND (R418-R420) -/

/-- the message a SEND stands for, its body read -/
def messageOf (o : EngOps) (t : Thread) (body : List Byte) (tags : List Bool) : Message :=
  { target := getC t o.a, reply := getC t o.d, acq := o.acq, rel := o.rel, scope := o.scope, tag := o.tag, op := o.cmd.extractLsb' 18 8,
    body := body, bodyTags := tags }
/-- what a SEND does with its message: it is held with the firing, or goes to its target -/
def sendOff (o : EngOps) (w : Who) (t : Thread) (m : Message) : AM Thread :=
  if o.cmd.getLsbD 26 then do
    aUnless (decide (t.opn.deferred.length < deferCap)) (capFault .bounds (capCursor (getC t o.a).bits))
    if releaseWaits o.rel w.k w.ctx (← aState) then aWait else pure ()
    aMod (releaseFor o.rel w.k w.ctx)
    pure { t with opn := { t.opn with deferred := t.opn.deferred ++ [m] } }
  else fun s => match sendMessage s w.k w.ctx m with
    | some s => .ok (t, s)
    | none => .error (.wait s)
section
variable {o : EngOps} {w : Who} {s s1 s' : State} {t : Thread} {body : List Byte} {tags : List Bool} {m : Message}
/-- a SEND whose checks pass reads its body, and sends its message off -/
theorem sendAM_of_body (target : sendTarget (getC t o.a) (o.cmd.extractLsb' 18 8).toNat (16 * (o.cmd.extractLsb' 14 4).toNat) = .ok ())
    (reply : sendReply t o = .ok ()) (read : bodyOf o s t (sendLen s (getC t o.a) (16 * (o.cmd.extractLsb' 14 4).toNat)) body tags s1) :
    sendAM o (whoOf s.cur.core t) t s = sendOff o (whoOf s.cur.core t) t (messageOf o t body tags) s1 := by
  rw [sendAM, aBind_of_ok (aLift_of_ok target s), aBind_of_ok (aLift_of_ok reply s), aState_bind]
  obtain ⟨none, empty, rfl, rfl, rfl⟩ | ⟨⟨r, source, some⟩, read⟩ := read
  · simp only [none, empty, beq_self_eq_true, Bool.and_self, if_true]
    rfl
  · have body : (r == 0 && sendLen s (getC t o.a) (16 * (o.cmd.extractLsb' 14 4).toNat) == 0) = false := by
      rw [Bool.and_eq_false_iff, beq_eq_false_iff_ne, beq_eq_false_iff_ne]
      exact some
    rw [source] at read
    simp only [source, body, Bool.false_eq_true, if_false]
    rw [aBind_of_ok read]
    rfl
section
variable (deferred : o.cmd.getLsbD 26 = true)
include deferred
theorem sendOff_of_room (room : t.opn.deferred.length < 16) (ready : releaseWaits o.rel w.k w.ctx s = false) :
    sendOff o w t m s = .ok ({ t with opn := { t.opn with deferred := t.opn.deferred ++ [m] } }, releaseFor o.rel w.k w.ctx s) := by
  rw [sendOff, if_pos deferred, aBind_of_ok (aUnless_of_true (decide_eq_true (show _ < deferCap from room)) _ s), aState_bind, if_neg (Bool.eq_false_iff.mp ready)]
  rfl
theorem sendOff_of_unready (room : t.opn.deferred.length < 16) (waits : releaseWaits o.rel w.k w.ctx s = true) :
    sendOff o w t m s = .error (.wait s) := by
  rw [sendOff, if_pos deferred, aBind_of_ok (aUnless_of_true (decide_eq_true (show _ < deferCap from room)) _ s), aState_bind, if_pos waits]
  rfl
theorem sendOff_of_many (many : 16 ≤ t.opn.deferred.length) :
    sendOff o w t m s = .error (.trap s tCap (capDetail .bounds (capCursor (getC t o.a).bits))) := by
  rw [sendOff, if_pos deferred, capFault, aBind_of_error (aUnless_of_false (decide_eq_false (show ¬_ < deferCap from Nat.not_lt.mpr many)) _ _ s)]
end
section
variable (now : o.cmd.getLsbD 26 = false)
include now
theorem sendOff_of_sent (sent : sendMessage s w.k w.ctx m = some s') : sendOff o w t m s = .ok (t, s') := by
  rw [sendOff, if_neg (Bool.eq_false_iff.mp now)]
  simp only [sent]
theorem sendOff_of_unsent (unsent : sendMessage s w.k w.ctx m = none) : sendOff o w t m s = .error (.wait s) := by
  rw [sendOff, if_neg (Bool.eq_false_iff.mp now)]
  simp only [unsent]
end
theorem sendMessage_unready {k : Nat} {c : BitVec 12} (waits : releaseWaits m.rel k c s = true) : sendMessage s k c m = none := if_pos waits
section
variable {k : Nat} {c : BitVec 12} (ready : releaseWaits m.rel k c s = false)
include ready
theorem sendMessage_queue (kind : capKind m.target.bits = 3) : sendMessage s k c m = putItem (releaseFor m.rel k c s) (handleCtx m.target)
    (handleFrame m.target) (handleQueue m.target) { plainItem m.body m.bodyTags with completion := m.rel } := by
  rw [sendMessage, if_neg (Bool.eq_false_iff.mp ready)]
  exact if_pos (beq_iff_eq.mpr kind)
variable (kind : capKind m.target.bits = 8)
include kind
theorem sendMessage_inbox {i : Instr} (known : messageInstr (curOf m.target % 256) m.op.toNat m.body.length = some i) :
    sendMessage s k c m = pushInbox (releaseFor m.rel k c s) (messageEngine (curOf m.target % 256) (curOf m.target / 256 % 64)) (msgCmd k c m i) := by
  rw [sendMessage, if_neg (Bool.eq_false_iff.mp ready)]
  simp only [kind, known]
  rfl
theorem sendMessage_unknown (unknown : messageInstr (curOf m.target % 256) m.op.toNat m.body.length = none) :
    sendMessage s k c m = some (complete (releaseFor m.rel k c s) (msgCmd k c m .verdict) (BitVec.ofNat 8 (curOf m.target % 256)) 0x0E 0 0) := by
  rw [sendMessage, if_neg (Bool.eq_false_iff.mp ready)]
  simp only [kind, unknown]
  rfl
end
end
theorem sends : Claims.Sends := by
  refine ⟨bodyReads, ?_⟩
  intro h o s t body tags s1 hr
  dsimp only
  intro target reply read
  have off := sendAM_of_body target reply read
  rw [exec_send]
  refine ⟨fun waits room => runM_of_wait hr (off.trans ?_), fun deferred => ⟨fun room ready => ?_, fun many => ?_⟩, fun now ready =>
    ⟨fun kind => ⟨fun s' put => ?_, fun full => ?_⟩, fun kind => ⟨fun i known => ⟨fun s' put => ?_, fun full => ?_⟩, fun unknown => ?_⟩⟩⟩
  · by_cases deferred : o.cmd.getLsbD 26 = true
    · exact sendOff_of_unready deferred (room deferred) waits
    · exact sendOff_of_unsent (Bool.eq_false_iff.mpr deferred) (sendMessage_unready waits)
  · exact runM_of_ok hr (off.trans (sendOff_of_room deferred room ready))
  · exact runM_of_trap hr (off.trans (sendOff_of_many deferred many))
  · exact runM_of_ok hr (off.trans (sendOff_of_sent now ((sendMessage_queue (m := messageOf o t body tags) ready kind).trans put)))
  · exact runM_of_wait hr (off.trans (sendOff_of_unsent now ((sendMessage_queue (m := messageOf o t body tags) ready kind).trans full)))
  · exact runM_of_ok hr (off.trans (sendOff_of_sent now ((sendMessage_inbox (m := messageOf o t body tags) ready kind known).trans put)))
  · exact runM_of_wait hr (off.trans (sendOff_of_unsent now ((sendMessage_inbox (m := messageOf o t body tags) ready kind known).trans full)))
  · exact runM_of_ok hr (off.trans (sendOff_of_sent now (sendMessage_unknown (m := messageOf o t body tags) ready kind unknown)))

/-- Settles O36: commands by their table, bank commands by their page, SEND by its message and its target. -/
theorem engineCommandsPost : Obligations.EngineCommandsPost := ⟨commandsPost, bankCommandsPost, sends⟩

end Sys2Proof.Proofs.EngineCommands

/-! ## The wide unit (R296, R433-R442) -/

namespace Sys2Proof.Proofs.WideUnit
open Sys2Proof.Machine Sys2Proof.Claims Sys2Proof.Laws.State Sys2Proof.Laws.Ops Sys2Proof.Proofs.Integers Sys2Proof.Proofs.Fences

/-! ### What capturing operands leaves (R433) -/

/-- the capability registers, the tiles, the peers and the dispatch queue are as they were -/
structure Captures (t u : Thread) : Prop where
  c : u.regs.c = t.regs.c
  m : u.regs.m = t.regs.m
  peers : u.opn.peers = t.opn.peers
  wide : u.wide = t.wide
namespace Captures
variable {t u v : Thread}
theorem refl (t : Thread) : Captures t t := ⟨rfl, rfl, rfl, rfl⟩
theorem trans (a : Captures t u) (b : Captures u v) : Captures t v :=
  ⟨b.c.trans a.c, b.m.trans a.m, b.peers.trans a.peers, b.wide.trans a.wide⟩
theorem setS (t : Thread) (n : BitVec 4) (d : Option Machine.Stream) : Captures t (setS t n d) :=
  ⟨setS_regs_c .., setS_regs_m .., by rw [setS_opn], rfl⟩
end Captures
section
variable {t u : Thread} {o : Opd} {v : W128} {x n : Nat} {code : BitVec 7} {f : Option (BitVec 7)} {i : Instr} {a : WideArg}
theorem captures_popQueue (h : popQueue t o = .ok (v, u)) : Captures t u := by
  unfold popQueue at h
  split at h
  case h_1 | h_2 | h_3 | h_4 =>
    split at h
    · cases h; exact ⟨rfl, rfl, rfl, rfl⟩
    · cases h
  case h_5 =>
    simp only at h
    split at h
    · cases h
    · split at h
      · cases h; exact ⟨rfl, rfl, rfl, rfl⟩
      · cases h
  case h_6 => cases h
theorem captures_readOpd (h : readOpd t o = .ok (v, u)) : Captures t u := by
  unfold readOpd at h
  split at h
  case h_1 | h_2 => cases h; exact .refl t
  case h_3 =>
    split at h
    · cases h; exact ⟨rfl, rfl, rfl, rfl⟩
    · cases h
  case h_4 => exact captures_popQueue h
theorem captures_readFp (h : readFp t code o = .ok (x, u)) : Captures t u := by
  unfold readFp at h
  split at h
  · cases h; exact .refl t
  · split at h
    · next read => cases h; exact captures_readOpd read
    · cases h
theorem captures_readScalar (h : readScalar i t code o = .ok (x, u)) : Captures t u := by
  unfold readScalar at h
  split at h
  · split at h
    · cases h; exact .refl t
    · exact captures_readFp h
  · exact captures_readFp h
theorem captures_capture (h : capture i t o f n = .ok (a, u)) : Captures t u := by
  unfold capture at h
  split at h
  · cases h; exact .refl t
  · split at h
    · split at h
      · cases h; exact .setS ..
      · cases h
    · split at h
      · next read => cases h; exact captures_readScalar read
      · cases h
theorem captures_captureD (h : captureD t o n = .ok (a, u)) : Captures t u := by
  unfold captureD at h
  split at h
  · split at h
    · cases h; exact .setS ..
    · cases h
  · split at h
    · cases h; exact ⟨rfl, rfl, rfl, rfl⟩
    · cases h
  · cases h; exact .refl t
end

/-! ### Issue (R433-R435) -/

theorem bind_ok {α β : Type} {x : Except Stop α} {f : α → Except Stop β} {b : β} (h : x >>= f = .ok b) : ∃ a, x = .ok a ∧ f a = .ok b := by
  cases x with
  | error e => cases h
  | ok a => exact ⟨a, rfl, h⟩
/-- a dispatched instruction stands behind those before it, with the control bits in force -/
theorem issueWide_ok {i : Instr} {f : WForm} {pc : W64} {t u : Thread} (h : issueWide i f pc t = .ok u) :
    t.wide.length < wideCap ∧ ∃ t1 w, Captures t t1 ∧ u = { t1 with wide := t1.wide ++ [w] } ∧ w.instr = i ∧ w.pc = pc ∧ w.done = 0 ∧
      w.ftz = (ctlOf t f.o).ftz ∧ w.sat = (ctlOf t f.o).sat ∧ w.cnan = (ctlOf t f.o).cnan ∧ w.rm = rmCode (ctlOf t f.o).rm := by
  unfold issueWide at h
  obtain ⟨_, -, h⟩ := bind_ok h
  obtain ⟨_, -, h⟩ := bind_ok h
  obtain ⟨_, -, h⟩ := bind_ok h
  obtain ⟨_, -, h⟩ := bind_ok h
  obtain ⟨_, -, h⟩ := bind_ok h
  split at h
  · cases h
  · next room =>
    obtain ⟨⟨a, ta⟩, readA, h⟩ := bind_ok h
    obtain ⟨⟨b, tb⟩, readB, h⟩ := bind_ok h
    obtain ⟨⟨c, tc⟩, readC, h⟩ := bind_ok h
    obtain ⟨⟨d, td⟩, readD, h⟩ := bind_ok h
    cases h
    refine ⟨Nat.not_le.mp room, td, _, ?_, rfl, rfl, rfl, rfl, rfl, rfl, rfl, rfl⟩
    exact (captures_capture readA).trans ((captures_capture readB).trans ((captures_capture readC).trans (captures_captureD readD)))
theorem exec_wide {c : Hdr → FpOps → Instr} (m : c ∈ wideOps) (h : Hdr) (o : FpOps) (s : State) :
    exec (c h o) s = wideIssue h (c h o) s := by
  revert c
  simp only [wideOps, List.forall_mem_cons, List.not_mem_nil, false_imp_iff, implies_true, and_true]
  exact ⟨rfl, rfl, rfl, rfl, rfl, rfl, rfl, rfl, rfl, rfl, rfl, rfl, rfl, rfl, rfl, rfl, rfl, rfl, rfl, rfl, rfl, rfl, rfl, rfl⟩
theorem wideIssue_ok {h : Hdr} {i : Instr} {s : State} {t u : Thread} {f : WForm} (hr : Runs h s t) (form : wForm i = some f)
    (issued : issueWide i f s.cur.pc t = .ok u) : wideIssue h i s = .next (doneWith h s u) := by
  rw [wideIssue, form]
  refine StockCounters.runState_done hr ?_
  simp only [onThread, issued]

/-- Settles O40: the operands captured, the instruction stands in the dispatch queue. -/
theorem wideDispatch : Obligations.WideDispatch := by
  intro c m h o s t f u hr form issued
  obtain ⟨room, t1, w, kept, rfl, instr, pc, start, ftz, sat, cnan, rm⟩ := issueWide_ok issued
  rw [exec_wide m]
  exact ⟨wideIssue_ok hr form issued, room, kept.c, kept.m, kept.peers, w, by rw [← kept.wide], instr, pc, start, ftz, sat, cnan, rm⟩

/-! ### A step of a row (R296) -/

section
variable {s s0 s1 : State} {row i k : Nat} {t u : Thread} {w o' : WideOp} {r : List WideOp}
/-- the next dispatch queue of a row that is not empty takes its step -/
theorem exec_wideUnitStep (named : s.cur.arg = .ix row)
    (next : ([0, 1, 2, 3].map (fun i => (mget 0 s.wideRr row + i) % 4)).find? (fun i => wideBusy s (row * 4 + i)) = some i) :
    exec .wideUnitStep s = .next (stepCoreWide { s with wideRr := mset s.wideRr row ((i + 1) % 4) } (row * 4 + i)) := by
  change execWideUnitStep s = _
  simp only [execWideUnitStep, named, stepRow]
  rw [next]
theorem stepCoreWide_head (alive : (Machine.core s k).orphans = []) (thread : threadOf s k = some t) (head : t.wide = w :: r) :
    stepCoreWide s k = stepThread s k t w := by
  simp only [stepCoreWide, alive, thread, head]
section
variable (step : wideStep (whoOf k t) w s = .ok (o', s1)) (thread : threadOf s1 k = some u) (head : u.wide = w :: r)
include step thread head
theorem stepThread_done (done : o'.n ≤ o'.done) :
    stepThread s k t w = setThreadOf s1 k (countEvents (deliverF { u with wide := r } o') o'.ev) := by
  simp only [stepThread, step, thread, head, List.tail_cons, ge_iff_le, done, if_true]
theorem stepThread_goesOn (more : o'.done < o'.n) : stepThread s k t w = setThreadOf s1 k { u with wide := o' :: r } := by
  simp only [stepThread, step, thread, head, List.tail_cons, ge_iff_le, Nat.not_le.mpr more, if_false]
end
/-- a step of the head of the queue whose turn it is: it is done and delivered, or goes on -/
theorem exec_wideUnitStep_head (named : s.cur.arg = .ix row) (core : k = row * 4 + i)
    (next : ([0, 1, 2, 3].map (fun i => (mget 0 s.wideRr row + i) % 4)).find? (fun i => wideBusy s (row * 4 + i)) = some i)
    (alive : (Machine.core s k).orphans = []) (thread : threadOf s k = some t) (head : t.wide = w :: r)
    (step : wideStep (whoOf k t) w { s with wideRr := mset s.wideRr row ((i + 1) % 4) } = .ok (o', s1)) (after : threadOf s1 k = some u)
    (stands : u.wide = w :: r) :
    (o'.n ≤ o'.done → exec .wideUnitStep s = .next (setThreadOf s1 k (countEvents (deliverF { u with wide := r } o') o'.ev))) ∧
    (o'.done < o'.n → exec .wideUnitStep s = .next (setThreadOf s1 k { u with wide := o' :: r })) := by
  subst core
  have turn := stepCoreWide_head (s := { s with wideRr := mset s.wideRr row ((i + 1) % 4) }) alive thread head
  rw [exec_wideUnitStep named next, turn]
  exact ⟨fun done => by rw [stepThread_done step after stands done], fun more => by rw [stepThread_goesOn step after stands more]⟩
end
theorem wideUnitStep : Claims.WideUnitStep := by
  intro s row i k t w r o' s1 named core next alive thread head step after
  exact exec_wideUnitStep_head named core next alive thread head step after head
theorem wideElements : Claims.WideElements := fun _ _ _ _ _ _ _ _ => ⟨rfl, rfl, rfl, rfl, rfl, rfl⟩

/-- Settles O41: the step of the row whose turn it is, and the elements of its instruction. -/
theorem wideUnitSteps : Obligations.WideUnitSteps := ⟨wideUnitStep, wideElements⟩

end Sys2Proof.Proofs.WideUnit

/-! ## The matrix array: tiles, gangs, drains (R298-R319, R443-R449) -/

namespace Sys2Proof.Proofs.Matrix
open Sys2Proof.Machine Sys2Proof.Claims Sys2Proof.Laws.State Sys2Proof.Laws.Ops Sys2Proof.Proofs.StockCounters Sys2Proof.Proofs.Fences
  Sys2Proof.Proofs.Integers Sys2Proof.Proofs.FiringEnds

section
variable (h : Hdr) (s : State)
theorem exec_mzero (o : TileOps) : exec (.mzero h o) s = runThread h (mzeroThread o) s := rfl
theorem exec_mcopy (o : TileOps) : exec (.mcopy h o) s = runThread h (mcopyThread o) s := rfl
theorem exec_mld (o : TileOps) : exec (.mld h o) s = runState h (mldRes o) s := rfl
theorem exec_mst (o : TileOps) : exec (.mst h o) s = runState h (mstRes o) s := rfl
theorem exec_mstat (o : TileOps) : exec (.mstat h o) s = runState h (mstatRes o) s := rfl
theorem exec_mgang (o : MgangOps) : exec (.mgang h o) s = runState h (gangIssue (.ok ()) (mgangEff o.n.toNat)) s := rfl
theorem exec_mmul (o : MatOps) :
    exec (.mmul h o) s = runState h (fun t s => gangIssue (behindWide s t (.mmul h o) (checkMat t o)) (mmulEff o) t s) s := rfl
theorem exec_mgrp (o : MatOps) :
    exec (.mgrp h o) s = runState h (fun t s => gangIssue (behindWide s t (.mgrp h o) (checkMat t o)) (mgrpEff o) t s) s := rfl
theorem exec_mdrain (o : MatOps) : exec (.mdrain h o) s =
    runState h (fun t s => orStop s (behindWide s t (.mdrain h o) (.ok ())) (runA (mdrainAM o (whoOf s.cur.core t)) t s)) s := rfl
theorem exec_mdrainAdd (o : MatOps) : exec (.mdrainAdd h o) s = runState h (drainAddRes o none) s := rfl
theorem exec_mdrainAddOrd (o : MatOps) :
    exec (.mdrainAddOrd h o) s = runState h (fun t s => drainAddRes o (some ((readCI t o.tc).setWidth 16)) t s) s := rfl
end

/-! ### MLD and MST (R449) -/

/-- the entries that fill a tile from entry `i` on, as its elements -/
theorem fillTile_eq (l : List W128) : ∀ (i : Nat) (x : Tile), i ≤ 1024 → fillTile l i x = (l.drop (1024 - i), min (i + l.length) 1024,
    x ++ ((l.take (1024 - i)).zipIdx i).flatMap (fun e => tileOf (entryElems e.2 e.1))) := by
  induction l with
  | nil => intro i x small; simp [fillTile, small]
  | cons v l ih =>
    intro i x small
    by_cases full : i = 1024
    · subst full
      simp [fillTile, tileEntries]
    · have more : 1024 - i = (1024 - (i + 1)) + 1 := by omega
      rw [fillTile, if_neg (by rw [tileEntries]; omega), ih (i + 1) _ (by omega), more]
      simp only [List.drop_succ_cons, List.take_succ_cons, List.zipIdx_cons, List.flatMap_cons, List.append_assoc, List.length_cons]
      congr 2
      omega
/-- numbering from `i` or from 0 -/
theorem flatMap_zipIdx (l : List W128) (i : Nat) : (l.zipIdx i).flatMap (fun e => tileOf (entryElems e.2 e.1)) =
    l.zipIdx.flatMap (fun e => tileOf (entryElems (i + e.2) e.1)) := by
  rw [List.zipIdx_eq_map_add, List.flatMap_map]
section
variable {s : State} {t : Thread} {m : BitVec 3} {i : Nat} {x : Tile} (block : t.blockE = .tile i x) (small : i ≤ 1024)
include block small
theorem mldRes_of_enough {n : BitVec 2} (enough : 1024 ≤ i + (getL t n).length) : mldRes ⟨.m m, .l n⟩ t s =
    .done (setCur s (setM (setL t n ((getL t n).drop (1024 - i))) m
      (x ++ (((getL t n).take (1024 - i)).zipIdx.flatMap (fun e => tileOf (entryElems (i + e.2) e.1)))))) := by
  have full : min (i + (getL t n).length) 1024 ≥ tileEntries := by rw [tileEntries]; omega
  simp only [mldRes, block, fillTile_eq _ _ _ small, if_pos full, flatMap_zipIdx]
  rfl
theorem mldRes_of_few {n : BitVec 2} (few : (getL t n).length < 1024 - i) : mldRes ⟨.m m, .l n⟩ t s = .wait (setCur s
    { setL t n [] with
      blockE := .tile (i + (getL t n).length) (x ++ (((getL t n).take (1024 - i)).zipIdx i).flatMap (fun e => tileOf (entryElems e.2 e.1))) }) := by
  have count : min (i + (getL t n).length) 1024 = i + (getL t n).length := by omega
  have part : ¬ i + (getL t n).length ≥ tileEntries := by rw [tileEntries]; omega
  simp only [mldRes, block, fillTile_eq _ _ _ small, count, if_neg part, List.drop_of_length_le (Nat.le_of_lt few)]
theorem mstRes_of_room {n : BitVec 1} (room : 1024 - i ≤ 32 - (getD t n).length) : mstRes ⟨.d n, .m m⟩ t s =
    .done (setCur s (setD t n (getD t n ++ (List.range (1024 - i)).map (fun j => tileEntry (getM t m) (i + j))))) := by
  have count : min (lDepth - (getD t n).length) (tileEntries - i) = 1024 - i := by rw [tileEntries, lDepth]; omega
  have full : i + (1024 - i) ≥ tileEntries := by rw [tileEntries]; omega
  simp only [mstRes, block, count, if_pos full]
  rfl
end

/-! ### MSTAT (R319) -/

/-- the drain numbers of a tile in one word -/
theorem drainWord_eq (next applied : Nat) : (0#32 ++ BitVec.ofNat 16 next ++ BitVec.ofNat 16 (min applied 0xFFFF) : W64) =
    BitVec.ofNat 64 (next % 65536 * 65536 + min applied 0xFFFF) := by
  have low : min applied 0xFFFF < 65536 := by omega
  generalize min applied 0xFFFF = a at low
  apply BitVec.eq_of_toNat_eq
  rw [BitVec.toNat_append, BitVec.toNat_append, BitVec.toNat_ofNat, BitVec.toNat_ofNat, BitVec.toNat_ofNat, ← Nat.shiftLeft_add_eq_or_of_lt,
    Nat.shiftLeft_eq]
  · simp
    omega
  · omega
theorem mstatRes_of_frame {s : State} {t : Thread} {d : BitVec 6} {m : BitVec 3} {f : Frame} (frame : findFrame s t.id.ctx t.id.frame = some f) :
    mstatRes ⟨.c d, .m m⟩ t s = .done (setCur s (setData t d (BitVec.ofNat 64
      ((drainStateOf (findInst f t.id.stage.toNat t.id.coord) t.id.pos.toNat m.toNat).next % 65536 * 65536 +
        min (drainStateOf (findInst f t.id.stage.toNat t.id.coord) t.id.pos.toNat m.toNat).applied 0xFFFF)))) := by
  simp only [mstatRes, frame, drainWord_eq]
  rfl

/-- Settles O42, instruction by instruction. -/
theorem tileInstructions : Obligations.TileInstructions := by
  refine ⟨?whole, ?load, ?part, ?store, ?stat⟩
  case whole => exact fun h m n s t hr => ⟨runThread_of_ok hr rfl, runThread_of_ok hr rfl⟩
  case load => exact fun h m n s t i x hr block small enough => runState_done hr (mldRes_of_enough block small enough)
  case part =>
    intro h m n s t i x hr block small few
    exact ⟨_, runState_wait hr (mldRes_of_few block small few), getL_setL_self .., _, rfl⟩
  case store => exact fun h m n s t i x hr block small room => runState_done hr (mstRes_of_room block small room)
  case stat => exact fun h d m s t f hr frame => runState_done hr (mstatRes_of_frame frame)

/-! ### The barrier (R298, R300, R304) -/

section
variable {h : Hdr} {s s' : State} {t : Thread} {ts : List (Nat × Thread)} {check : Except Stop Unit} {eff : Nat → Nat → AM Unit}
/-- once all four positions stand at it, a gang instruction has its joint effect -/
theorem gangIssue_of_stands (block : t.blockE = .barrier) (gang : ts = gangThreads s s.cur.core t.id.batch) (four : ts.length = 4)
    (stand : ∀ x ∈ ts, x.2.blockE = .barrier) (done : eff s.cur.core t.id.batch s = .ok ((), s')) :
    gangIssue check eff t s = .gone s' := by
  have here : ∀ x ∈ ts, arrived x.2 = true := fun x m => by rw [arrived, stand x m]; rfl
  have all : (ts.length == 4 && ts.all (fun x => arrived x.2)) = true := by
    rw [four, List.all_eq_true.mpr here]; rfl
  have barrier : ts.all (fun x => x.2.blockE == .barrier) = true := List.all_eq_true.mpr fun x m => beq_iff_eq.mpr (stand x m)
  rw [gangIssue, if_pos (beq_iff_eq.mpr block)]
  simp only [← gang, all, barrier, if_true, done]
/-- MGANG's section opens on every position -/
theorem mgangEff_of_match {n k b : Nat} (gang : ts = gangThreads s k b) (keys : keysMatch ts = true) (closed : ∀ x ∈ ts, x.2.opn.section_ = 0) :
    mgangEff n k b s = .ok ((), setThreads s (ts.map (fun x => (x.1, gangDone n x.2)))) := by
  have ok : (keysMatch ts && ts.all (fun x => x.2.opn.section_ == 0)) = true := by
    rw [keys, List.all_eq_true.mpr fun x m => beq_iff_eq.mpr (closed x m)]; rfl
  rw [mgangEff, aState_bind]
  simp only [← gang]
  rw [aBind_of_ok (aUnless_of_true ok _ s)]
  rfl
end

/-- Settles O43: the barrier, and then the instruction's effect. -/
theorem gangInstructions : Obligations.GangInstructions := by
  intro h s t ts hr block gang four stand
  have barrier : ∀ x ∈ ts, x.2.blockE = .barrier := fun x m => (stand x m).2
  refine ⟨fun o keys closed => ?_, fun o s' done => ?_, fun o s' done => ?_⟩
  · rw [exec_mgang]
    exact runState_gone hr (gangIssue_of_stands block gang four barrier (mgangEff_of_match gang keys closed))
  · rw [exec_mmul]
    exact runState_gone hr (gangIssue_of_stands block gang four barrier done)
  · rw [exec_mgrp]
    exact runState_gone hr (gangIssue_of_stands block gang four barrier done)

/-! ### Drains (R314-R318, R448) -/

section
variable {h : Hdr} {o : MatOps} {s s1 : State} {t u : Thread} {n : BitVec 6} {seq : Option (BitVec 16)}
theorem exec_mdrain_of_ok (hr : Runs h s t) (clear : wideClash s s.cur.core t (.mdrain h o) = false)
    (done : mdrainAM o (whoOf s.cur.core t) t s = .ok (u, s1)) : exec (.mdrain h o) s = .next (doneAt h s1 u) := by
  rw [exec_mdrain]
  refine runState_done hr ?_
  simp only [behindWide, clear, Bool.false_eq_true, if_false, orStop, runA, done]
section
variable (source : o.a = .c n) (checked : checkHandle (getC t n) [2] permW = .ok ())
  (other : ownInst (drainTo (getC t n) (o.fa == 0x11) seq (getM t (mOf o.b)) t) t.id = false)
include source checked other
theorem drainAddRes_of_room (live : drainLive s (drainTo (getC t n) (o.fa == 0x11) seq (getM t (mOf o.b)) t) = true)
    (room : (s.work.drains.filter (sameTile (drainTo (getC t n) (o.fa == 0x11) seq (getM t (mOf o.b)) t))).length < 8) :
    drainAddRes o seq t s = .done (setCur (setWork s { s.work with
        drains := s.work.drains ++ [drainTo (getC t n) (o.fa == 0x11) seq (getM t (mOf o.b)) t] })
      { t with opn := { t.opn with drains := t.opn.drains + 1 } }) := by
  have few : ¬ (s.work.drains.filter (sameTile (drainTo (getC t n) (o.fa == 0x11) seq (getM t (mOf o.b)) t))).length ≥ drainCap :=
    Nat.not_le.mpr room
  simp only [drainAddRes, source, checked, orStop, other, live, few, Bool.not_true, Bool.false_eq_true, if_false]
  rfl
theorem drainAddRes_of_gone (gone : drainLive s (drainTo (getC t n) (o.fa == 0x11) seq (getM t (mOf o.b)) t) = false) :
    drainAddRes o seq t s = .done s := by
  simp only [drainAddRes, source, checked, orStop, other, gone, Bool.not_false, Bool.false_eq_true, if_false, if_true]
end
end

/-- Settles O44: MDRAIN by its effect, MDRAIN.add with and without an order by what becomes of its frame. -/
theorem drains : Obligations.Drains := by
  constructor
  · exact fun h o s t u s1 hr clear done => exec_mdrain_of_ok hr clear done
  · rintro h o s t n _ _ hr source checked rfl rfl other
    rw [exec_mdrainAdd, exec_mdrainAddOrd]
    exact ⟨fun live room => ⟨runState_done hr (drainAddRes_of_room source checked other live room),
        runState_done hr (drainAddRes_of_room source checked other live room)⟩,
      fun gone => ⟨runState_done_same hr (drainAddRes_of_gone source checked other gone) hr.1,
        runState_done_same hr (drainAddRes_of_gone source checked other gone) hr.1⟩⟩

end Sys2Proof.Proofs.Matrix

/-! ## Waves, edits, rotations and holds, from what the Scribe reads (R256, R257, R259, R260, R278, R280) -/

namespace Sys2Proof.Proofs.ScribeEvents
open Sys2Proof.Machine Sys2Proof.Claims Sys2Proof.Proofs.SequenceEvents

/-! ### The Scribe's monad -/

/-- a step of the Scribe that succeeds hands its value and its state to the next -/
theorem kBind_of_ok {α β : Type} {f : KM α} {g : α → KM β} {s s' : State} {a : α} (done : f s = .ok (a, s')) : (f >>= g) s = g a s' := by
  change (f s >>= fun x => g x.1 x.2) = _
  rw [done]; rfl
theorem kGet_bind {β : Type} (g : State → KM β) (s : State) : ((get : KM State) >>= g) s = g s s := rfl
theorem kModify_bind {β : Type} (e : State → State) (g : Unit → KM β) (s : State) : ((modify e : KM Unit) >>= g) s = g () (e s) := rfl
theorem kCheck_of_true {b : Bool} {n : Nat} (h : b = true) (s : State) : kCheck b n s = .ok ((), s) := by rw [kCheck, if_pos h]; rfl
theorem curSeq_eq (q : Seq) (s : State) : curSeq q s = .ok ((seqOf s q.id).getD q, s) := rfl

/-! ### Waves (R259, R260) -/

/-- waves that stop after fewer moves than there is room for stop where they stop -/
theorem waveSteps_of_waveMoves {q : Seq} {k n : Nat} {s s' : State} (room : k < n) (moves : waveMoves q k s s') :
    waveSteps q n s = .ok ((), s') := by
  induction k generalizing n s with
  | zero =>
    obtain ⟨m, rfl⟩ := Nat.exists_eq_add_of_lt room
    rw [waveSteps, kBind_of_ok moves]; rfl
  | succ k ih =>
    obtain ⟨m, rfl⟩ := Nat.exists_eq_add_of_lt room
    obtain ⟨s1, moved, rest⟩ := moves
    rw [waveSteps, kBind_of_ok moved]
    exact ih (by omega) rest

section
variable {q : Seq} {d : Desc} {cap : Nat} {s0 s1 s2 s3 s4 s5 : State}
theorem advance_of_steps (desc : readDesc q s0 = .ok (d, s1)) (capOk : mapCap q d s1 = .ok (cap, s2))
    (formed : kFor (formItems q d cap) (wavesOf s2 q) s2 = .ok ((), s3))
    (moved : waveSteps q ((wavesOf s2 q).length * (2 * d.nlayer + 6)) s3 = .ok ((), s4))
    (released : releaseOffcuts q s4 = .ok ((), s5)) : advance q s0 = .ok ((), s5) := by
  rw [advance, kBind_of_ok desc, kBind_of_ok capOk, kGet_bind, kBind_of_ok formed, kBind_of_ok moved, released]
end

/-! ### Edits laid aside (R257) -/

theorem deferredTurn_nil {s : State} {n : Nat} {e : EditWait} (waits : s.work.edits[n]? = some e) (none : e.cmds = []) :
    deferredTurn s n = setWork s { s.work with edits := dropAt s.work.edits n } := by
  simp only [deferredTurn, waits, none]
theorem optEnd_of_ok {f : KM CmdEnd} {s s' : State} {r : CmdEnd} (done : f s = .ok (r, s')) : optEnd f s = .ok (some r, s') := by
  rw [optEnd, kBind_of_ok done]; rfl
theorem scribeCmd_of_accepted {f : KM (Option CmdEnd)} {s : State} (accepted : hasScribe s = true) : scribeCmd f s = f s := by
  rw [scribeCmd, kGet_bind, kBind_of_ok (kCheck_of_true accepted s)]
/-- EDINS or EDDEL that ends with `r` -/
theorem applyCmd_of_moveEdit {ins : Bool} {h : Hdr} {o : EngOps} {c : Cmd} {q : Seq} {dn : Nat} {held s s' : State} {r : CmdEnd}
    (word : c.instr = if ins then Instr.edins h o else Instr.eddel h o) (named : seqNamed s c = some q) (accepted : hasScribe s = true)
    (moved : moveEdit ins c s = .ok (r, s')) :
    applyCmd dn held s c = complete (dropGrants (kilnAgent q.die) s') c engScribe r.status r.bytes r.result := by
  have ended : endSeqCmd dn held s c engScribe (scribeCmd (optEnd (moveEdit ins c))) =
      complete (dropGrants (kilnAgent q.die) s') c engScribe r.status r.bytes r.result := by
    simp only [endSeqCmd, scribeCmd_of_accepted accepted, optEnd_of_ok moved, named]
  cases ins with
  | true => rw [if_pos rfl] at word; rw [← ended, applyCmd, word]
  | false => rw [if_neg Bool.false_ne_true] at word; rw [← ended, applyCmd, word]

/-! ### Rotations (R256) -/

/-- the rotations without one, and the host told of poison that its pages held -/
def rotationOver (r : Rotation) (rep : Report) (s : State) : State :=
  let x := setWork s { s.work with rotations := s.work.rotations.filter (fun x => !(x.seq == r.seq && x.gen == r.gen)) }
  if rep.poisoned then mqEvent x [eventRecord 0xE8 r.gen.toNat r.seq.toNat] else x

/-- what `rotateEdit` does behind the rotation of the pages -/
def rotationEnd (r : Rotation) (q : Seq) (rep : Report) : KM Unit := do
  modify (fun s => setWork s { s.work with rotations := s.work.rotations.filter (fun x => !(x.seq == r.seq && x.gen == r.gen)) })
  if rep.poisoned then modify (fun s => mqEvent s [eventRecord 0xE8 r.gen.toNat r.seq.toNat]) else pure ()
  releaseOffcuts (← curSeq q)
  modify (advanceSeq r.seq)

section
variable {r : Rotation} {q : Seq} {d : Desc} {s s1 s2 s3 s5 : State} {rep : Report}
  (released : releaseOffcuts ((seqOf (rotationOver r rep s3) q.id).getD q) (rotationOver r rep s3) = .ok ((), s5))
include released
theorem rotationEnd_of_released : rotationEnd r q rep s3 = .ok ((), advanceSeq r.seq s5) := by
  rw [rotationEnd, kModify_bind]
  cases poisoned : rep.poisoned with
  | true =>
    simp only [rotationOver, poisoned, if_true] at released
    simp only [if_true, kModify_bind]
    rw [kBind_of_ok (curSeq_eq ..), kBind_of_ok released]; rfl
  | false =>
    simp only [rotationOver, poisoned, Bool.false_eq_true, if_false] at released
    simp only [Bool.false_eq_true, if_false]
    rw [kBind_of_ok (curSeq_eq ..), kBind_of_ok released]; rfl
theorem rotateEdit_of_steps (live : seqOf s r.seq = some q) (desc : readDesc q s = .ok (d, s1))
    (rotated : rotateView (takeReserved q d r.gen) q d r.first r.count r.delta s1 = .ok (rep, s2))
    (returned : kFor (poolPush q d) (((s2.work.rotations.find? (fun x => x.seq == r.seq && x.gen == r.gen)).map (·.pages)).getD []) s2 = .ok ((), s3)) :
    rotateEdit r s = .ok ((), advanceSeq r.seq s5) := by
  have rest : ∀ f : KM Unit, f s2 = .ok ((), s3) → (f >>= fun _ => rotationEnd r q rep) s2 = .ok ((), advanceSeq r.seq s5) := by
    intro f pushed
    rw [kBind_of_ok pushed, rotationEnd_of_released released]
  rw [rotateEdit, kGet_bind]
  simp only [live]
  rw [kBind_of_ok desc, kBind_of_ok rotated, kGet_bind]
  cases found : s2.work.rotations.find? (fun x => x.seq == r.seq && x.gen == r.gen) with
  | none => rw [found] at returned; exact rest _ returned
  | some x => rw [found] at returned; exact rest _ returned
end

/-! ### After holds (R278, R280) -/

section
variable {n : Nat} {h h' : Hold} {q : Seq} {d : Desc} {s s1 s2 s3 s4 s5 : State} {cap : Nat} {xs : List Cell} {w : W128}
  (waits : s.work.holds.find? (fun h => h.req == n && !h.granted) = some h) (live : seqOf s h.seq = some q) (desc : readDesc q s = .ok (d, s1))
include waits live desc
theorem grantAfter_of_desc : grantAfter n s = (do
    if ← afterReady q d h then do
      let h' ← grantHold q d h
      modify (updHolds q (fun x => x.req == n) (fun _ => h'))
      let w ← holdWord q d h.layer h'.cols 0
      modify (fun s => answer s h.core n w)
    else pure () : KM Unit) s1 := by
  rw [grantAfter, kGet_bind]
  simp only [waits, live]
  rw [kBind_of_ok desc]
theorem grantAfter_of_unsettled (early : genGe d.settled h.gen = false) : grantAfter n s = .ok ((), s1) := by
  have notReady : afterReady q d h s1 = .ok (false, s1) := by rw [afterReady, if_neg (by rw [early]; decide)]; rfl
  rw [grantAfter_of_desc waits live desc, kBind_of_ok notReady]; rfl
theorem grantAfter_of_free (settled : genGe d.settled h.gen = true) (capOk : mapCap q d s1 = .ok (cap, s2))
    (cells : kEach (getCell q d cap h.layer) ((holdCols h).filter (fun c => decide (c < ncol d d.length))) s2 = .ok (xs, s3))
    (free : ∀ x ∈ xs, x.state ≠ cQueued ∧ x.state ≠ cRunning) (granted : grantHold q d h s3 = .ok (h', s4))
    (word : holdWord q d h.layer h'.cols 0 (updHolds q (fun x => x.req == n) (fun _ => h') s4) = .ok (w, s5)) :
    grantAfter n s = .ok ((), answer s5 h.core n w) := by
  have none : xs.any (fun x => x.state == cQueued || x.state == cRunning) = false := by
    rw [List.any_eq_false]
    intro x hx
    obtain ⟨notQueued, notRunning⟩ := free x hx
    simp [notQueued, notRunning]
  have ready : afterReady q d h s1 = .ok (true, s3) := by
    rw [afterReady, if_pos settled, kBind_of_ok capOk, kBind_of_ok cells, none]; rfl
  rw [grantAfter_of_desc waits live desc, kBind_of_ok ready]
  simp only [if_true]
  rw [kBind_of_ok granted, kModify_bind, kBind_of_ok word]; rfl
end

theorem sequenceEventsComplete : SequenceEventsComplete := by
  refine ⟨?wave, ?gone, ?edit, ?rotation, ?hold⟩
  case wave =>
    rintro s n q _ d s1 cap s2 s3 k s4 s5 named rfl live desc capOk formed moved released
    refine exec_waveEnterLayer named live (advance_of_steps desc capOk formed ?_ released)
    obtain ⟨none, rfl⟩ | ⟨room, moves⟩ := moved
    · rw [none, List.length_nil, Nat.zero_mul]; rfl
    · exact waveSteps_of_waveMoves room moves
  case gone =>
    intro s n named gone
    change execWaveEnterLayer s = _
    simp only [execWaveEnterLayer, Clocks.argIx_of_ix named, advanceSeq, runScribe, gone]
  case edit =>
    intro s n e named waits
    constructor
    · intro none
      rw [exec_editDeferredApply named, deferredTurn_nil waits none]
    · rintro c q _ ins h o r s2 only word live settled closed unmarked rfl accepted moved
      have free : mustSettle s c = false := by simp only [mustSettle, live, settled, Bool.and_false]
      have unblocked : ∀ p, seqNamed s c = some p → rotationOpen s p = false ∧ marksWait s p = false := by
        intro p hp
        obtain rfl : q = p := Option.some.inj (live.symm.trans hp)
        exact ⟨closed, unmarked⟩
      rw [exec_editDeferredApply named, deferredTurn_applies waits only free unblocked]
      exact congrArg (fun x => Host.Outcome.next (advanceSeq e.seq x)) (applyCmd_of_moveEdit word live accepted moved)
  case rotation =>
    rintro s n r q d s1 rep s2 s3 _ _ s5 named outstanding live desc rotated returned rfl rfl released
    exact exec_editRotationComplete named outstanding (rotateEdit_of_steps released live desc rotated returned)
  case hold =>
    intro s n h q d s1 cap s2 xs s3 h' s4 w s5 named waits live desc
    refine ⟨fun early => ?_, fun settled capOk cells free granted word => ?_⟩
    · exact exec_afterHoldGrant named waits live (grantAfter_of_unsettled waits live desc early)
    · exact exec_afterHoldGrant named waits live (grantAfter_of_free waits live desc settled capOk cells free granted word)

end Sys2Proof.Proofs.ScribeEvents

/-! ## Traps, matrix instructions, drains and wide-unit steps, from the state and the operands (R209, R295, R296, R302-R317, R384, R386, R448, R474-R476) -/

namespace Sys2Proof.Proofs.Completion
open Sys2Proof.Machine Sys2Proof.Claims Sys2Proof.Laws.State Sys2Proof.Laws.Ops Sys2Proof.Proofs.Fences Sys2Proof.Proofs.Matrix

/-! ### TRAP, RETT and SIG (R384, R386, R474-R476) -/

theorem trapRettSigComplete : TrapRettSigComplete := by
  refine ⟨?firmware, ?firing, ?returns, ?signature⟩
  case firmware =>
    intro h o s t hr fw before hw
    have reached : (!h.s) = true ∨ t.slice = [] := by
      cases access : h.s with
      | false => exact .inl rfl
      | true => exact .inr (before access)
    rw [Traps.exec_trap, ControlFlow.runState_traps hr rfl, takeTrap_firmware hr.1 fw reached hw]; rfl
  case firing =>
    intro h o s t hr fw
    rw [Traps.exec_trap, ControlFlow.runState_traps hr rfl, takeTrap_firing hr.1 fw, Traps.noteSigFault_other (by decide)]; rfl
  case returns => exact fun h s t hr fw inside aligned mask => Traps.returnFromTrap.1 h s t hr fw inside ⟨aligned, mask⟩
  case signature =>
    intro h o s t hr agrees
    refine Traps.signatureBlock.1 h o s t hr fun e he => ?_
    obtain none | same := agrees
    · exact absurd (none.symm.trans he) (by simp)
    · exact Option.some.inj (he.symm.trans same)

/-! ### The barrier (R298, R300, R304) -/

/-- a thread at the barrier guards its word by the same predicates -/
theorem guardTrue_barrier (h : Hdr) (t : Thread) : guardTrue h { t with blockE := .barrier } = guardTrue h t := rfl
section
variable {h : Hdr} {s : State} {t : Thread} {eff : Nat → Nat → AM Unit} {check : Thread → State → Except Stop Unit}
/-- the position that comes stands at the barrier, and goes on as one that stood there -/
theorem gangIssue_of_comes (free : t.blockE ≠ .barrier) (gang : t.id.gang = true) (checked : check t s = .ok ()) :
    gangIssue (check t s) eff t s =
      gangIssue (check { t with blockE := .barrier } (setCur s { t with blockE := .barrier })) eff { t with blockE := .barrier }
        (setCur s { t with blockE := .barrier }) := by
  have away : (t.blockE == Blocked.barrier) = false := beq_eq_false_iff_ne.mpr free
  simp only [gangIssue, away, checked, orStop, gang, Bool.false_eq_true, if_false, if_true, beq_self_eq_true]
theorem runState_gangIssue_of_comes (hr : Runs h s t) (free : t.blockE ≠ .barrier) (gang : t.id.gang = true) (checked : check t s = .ok ()) :
    runState h (fun t s => gangIssue (check t s) eff t s) s =
      runState h (fun t s => gangIssue (check t s) eff t s) (setCur s { t with blockE := .barrier }) := by
  rw [runState_true hr.1 hr.2, runState_true (curThread_setCur ..) ((guardTrue_barrier h t).trans hr.2), gangIssue_of_comes free gang checked]
end

/-! ### MMUL and MGRP (R302, R304, R310) -/

theorem aEach_length {α β : Type} {f : α → AM β} {l : List α} {bs : List β} {s s' : State} (done : aEach f l s = .ok (bs, s')) :
    bs.length = l.length := by
  induction l generalizing s bs with
  | nil => cases done; rfl
  | cons a l ih =>
    rw [aEach] at done
    cases first : f a s with
    | error e => simp only [bind, StateT.bind, first, Except.bind] at done; cases done
    | ok r =>
      rw [aBind_of_ok first] at done
      cases rest : aEach f l r.2 with
      | error e => simp only [bind, StateT.bind, rest, Except.bind] at done; cases done
      | ok r' =>
        rw [aBind_of_ok rest] at done
        cases done
        rw [List.length_cons, List.length_cons, ih rest]
section
variable {ts : List (Nat × Thread)} {o : MatOps} {skips : List (List SkipRun)} {p : Pair} (pair : pairOf o.fa o.fb = some p)
  (scaled : scaleOk p o.scale = true)
include pair scaled
/-- R304: the checks pass where the skip lists agree, the formats are a pair and the scales are ones of it -/
theorem gangChecks_of_ok (positions : ts ≠ []) (agree : ∀ x ∈ skips, x = skips.headD []) (s : State) : gangChecks ts o skips s = .ok (p, s) := by
  have same : skips.all (· == skips.headD []) = true := List.all_eq_true.mpr fun x hx => beq_iff_eq.mpr (agree x hx)
  have ok : (scaleOk p o.scale && !ts.isEmpty) = true := by rw [scaled, List.isEmpty_eq_false_iff.mpr positions]; rfl
  rw [gangChecks, aBind_of_ok (aUnless_of_true same _ s)]
  simp only [pair]
  rw [aBind_of_ok (aUnless_of_true ok _ s)]
  rfl

end

section
variable {o : MatOps} {p : Pair} {dense : List Bool} {k n : Nat} {ts : List (Nat × Thread)} {s s1 s2 s3 s4 s5 : State}
  {a b : List (List (List Nat))} {sa sb : List (List (List FVal))}
  (pair : pairOf o.fa o.fb = some p) (scaled : scaleOk p o.scale = true) (gang : ts = gangThreads s k n) (keys : keysMatch ts = true) (positions : ts ≠ [])
include pair scaled gang keys positions
/-- R302: what MMUL does once its operands are read -/
theorem mmulEff_of_read {skip : List SkipRun} {skips : List (List SkipRun)}
    (skipsRead : aEach (readSkip (o.km1.toNat + 1)) ts s = .ok (skips, s1)) (agree : ∀ x ∈ skips, x = skip) (dense_eq : dense = denseOf skip)
    (readsA : aEach (fun x => readA (matOf x.2) dense x) ts s1 = .ok (a, s2)) (readsB : aEach (fun x => readB (matOf x.2) dense x) ts s2 = .ok (b, s3))
    (readsSa : aEach (fun x => readSa (matOf x.2) x) ts s3 = .ok (sa, s4)) (readsSb : aEach (fun x => readSb (matOf x.2) x) ts s4 = .ok (sb, s5)) :
    mmulEff o k n s = .ok ((), (ts.zip (b.zip sb)).foldl (fun s x => finishMat o p dense
      (fun i => some (((zipLines a.flatten sa.flatten).drop i).headD ⟨[], []⟩, zipLines x.2.1 x.2.2)) x.1.1 s) s5) := by
  have anySkips : skips ≠ [] := fun none => positions (List.length_eq_zero_iff.mp ((aEach_length skipsRead).symm.trans (by rw [none]; rfl)))
  have first : skips.headD [] = skip := by
    obtain ⟨x, l, rfl⟩ := List.exists_cons_of_ne_nil anySkips
    exact agree x List.mem_cons_self
  rw [mmulEff, aState_bind]
  simp only [← gang]
  rw [aBind_of_ok (aUnless_of_true keys _ s), aBind_of_ok skipsRead,
    aBind_of_ok (gangChecks_of_ok pair scaled positions (fun x hx => (agree x hx).trans first.symm) s1)]
  simp only [first, ← dense_eq]
  rw [aBind_of_ok readsA, aBind_of_ok readsB, aBind_of_ok readsSa, aBind_of_ok readsSb]
  exact Loads.aFor_aMod _ _ _

variable {x0 : Nat × Thread} {cs : List Nat} (head : ts.head? = some x0) (counts : cs = groupCounts (readCI x0.2 (matOf x0.2).tc))
include head counts
/-- R310: an MGRP without rows passes over A and its scales at every position -/
theorem mgrpEff_of_none (none : cs.foldl (· + ·) 0 = 0) : mgrpEff o k n s = .ok ((), ts.foldl (passGroup o) s) := by
  obtain ⟨l, hl⟩ := List.head?_eq_some_iff.mp head
  have few : decide (cs.foldl (· + ·) 0 ≤ 64) = true := by rw [none]; rfl
  rw [mgrpEff, aState_bind]
  simp only [← gang]
  rw [aBind_of_ok (aUnless_of_true keys _ s), aBind_of_ok (gangChecks_of_ok pair scaled positions (by simp) s)]
  simp only [hl, ← counts]
  rw [aBind_of_ok (aUnless_of_true few _ s), if_pos none]
  exact Loads.aFor_aMod _ _ _
/-- R310: what MGRP does once its operands are read -/
theorem mgrpEff_of_read (dense_eq : dense = List.replicate (o.km1.toNat + 1) true) (anyRows : 1 ≤ cs.foldl (· + ·) 0) (few : cs.foldl (· + ·) 0 ≤ 64)
    {b : List (List (List (List Nat)))} {sb : List (List (List (List FVal)))}
    (readsA : aEach (fun x => readA (matOf x.2) dense x) ts s = .ok (a, s1))
    (readsB : aEach (fun x => aEach (fun c => if c = 0 then pure [] else readB (matOf x.2) dense x) cs) ts s1 = .ok (b, s2))
    (readsSa : aEach (fun x => readSa (matOf x.2) x) ts s2 = .ok (sa, s3))
    (readsSb : aEach (fun x => aEach (fun c => if c = 0 then pure [] else readSb (matOf x.2) x) cs) ts s3 = .ok (sb, s4)) :
    mgrpEff o k n s = .ok ((), (ts.zip (b.zip sb)).foldl (fun s x => finishMat o p dense (fun i => (groupOfRow cs 0 i).map (fun g =>
      (((zipLines a.flatten sa.flatten).drop i).headD ⟨[], []⟩, zipLines ((x.2.1.drop g).headD []) ((x.2.2.drop g).headD [])))) x.1.1 s) s4) := by
  obtain ⟨l, hl⟩ := List.head?_eq_some_iff.mp head
  rw [mgrpEff, aState_bind]
  simp only [← gang]
  rw [aBind_of_ok (aUnless_of_true keys _ s), aBind_of_ok (gangChecks_of_ok pair scaled positions (by simp) s)]
  simp only [hl, ← counts]
  rw [aBind_of_ok (aUnless_of_true (decide_eq_true few) _ s), if_neg (by omega), ← hl, ← dense_eq, aBind_of_ok readsA, aBind_of_ok readsB,
    aBind_of_ok readsSa, aBind_of_ok readsSb]
  exact Loads.aFor_aMod _ _ _
end

/-! ### MDRAIN (R314, R448) -/

/-- MDRAIN of a tile whose rows fit in scratch lines of the firing's own -/
theorem mdrainAM_of_checked {o : MatOps} {w : Who} {s : State} {t : Thread} {n : BitVec 6} {N : Nat} {out : List (Nat × Events)} (source : o.a = .c n)
    (size : N = (o.km1.toNat + 1) * 64 * (elemBitsOf o.fa / 8)) (checked : checkCap (getC t n) [1] permW (capCursor (getC t n).bits) N = .ok ())
    (mine : linesHeld w (curOf (getC t n)) N = true)
    (rows : out = (List.range (64 * (o.km1.toNat + 1))).map (fun i => drainElem o.fa (tileAt (getM t (mOf o.b)) i))) :
    mdrainAM o w t s = .ok (countEvents t (out.foldl (fun e r => e ||| r.2) evNone),
      setCore s w.k (storeScratch (Machine.core s w.k) (curOf (getC t n)) N (packElems (8 * (elemBitsOf o.fa / 8)) (out.map (·.1))) false)) := by
  simp only [mdrainAM, source, ← size, ← rows]
  rw [aBind_of_ok (aLift_of_ok checked s), aBind_of_ok (aUnless_of_true mine _ s),
    aBind_of_ok (Accesses.aStore_of_scratch (Loads.is_scratch checked) _ _ _)]
  rfl

theorem matrixComplete : MatrixComplete := by
  refine ⟨?comes, ?mmul, ?mgrp, ?mdrain⟩
  case comes =>
    intro h o s t i hr free gang word clear checked
    have ready : behindWide s t i (checkMat t o) = .ok () := by
      simp only [behindWide, clear, Bool.false_eq_true, if_false, checked]
    obtain rfl | rfl := word
    · rw [exec_mmul, exec_mmul]
      exact runState_gangIssue_of_comes (check := fun t s => behindWide s t (.mmul h o) (checkMat t o)) hr free gang ready
    · rw [exec_mgrp, exec_mgrp]
      exact runState_gangIssue_of_comes (check := fun t s => behindWide s t (.mgrp h o) (checkMat t o)) hr free gang ready
  case mmul =>
    intro h o s t ts skips skip dense p s1 a s2 b s3 sa s4 sb s5 hr stands skipsRead agree dense_eq pair scaled readsA readsB readsSa readsSb
    obtain ⟨block, gang, four, barrier, keys⟩ := stands
    have positions : ts ≠ [] := fun none => by rw [none] at four; cases four
    rw [exec_mmul]
    exact FiringEnds.runState_gone hr (gangIssue_of_stands block gang four barrier
      (mmulEff_of_read pair scaled gang keys positions skipsRead agree dense_eq readsA readsB readsSa readsSb))
  case mgrp =>
    intro h o s t ts x0 cs dense p s1 a s2 b s3 sa s4 sb hr stands head counts dense_eq pair scaled
    obtain ⟨block, gang, four, barrier, keys⟩ := stands
    have positions : ts ≠ [] := fun none => by rw [none] at four; cases four
    rw [exec_mgrp]
    refine ⟨fun none => ?_, fun anyRows few readsA readsB readsSa readsSb => ?_⟩
    · exact FiringEnds.runState_gone hr (gangIssue_of_stands block gang four barrier
        (mgrpEff_of_none pair scaled gang keys positions head counts none))
    · exact FiringEnds.runState_gone hr (gangIssue_of_stands block gang four barrier
        (mgrpEff_of_read pair scaled gang keys positions head counts dense_eq anyRows few readsA readsB readsSa readsSb))
  case mdrain =>
    rintro h o s t n N out _ hr source size clear checked mine rows rfl
    exact exec_mdrain_of_ok hr clear (mdrainAM_of_checked source size checked mine rows)

/-! ### DRAIN_APPLY (R317) -/

theorem nextDrain_of_fate {s : State} {seen l : List Drain} {d : Drain} {b : Bool} (fate : drainFate s seen d = some b) :
    nextDrain s seen (d :: l) = some (d, b) := by
  simp only [nextDrain, fate]
section
variable {s : State} {d : Drain} {l : List Drain} {b : Bool} (oldest : s.work.drains = d :: l)
include oldest
/-- the oldest drain is served as its fate says -/
theorem exec_drainApply_of_oldest (fate : drainFate s [] d = some b) : exec .drainApply s =
    .next (noteDrained (if b then applyDrain (setWork s { s.work with drains := l }) d else setWork s { s.work with drains := l }) d) := by
  have rest : s.work.drains.eraseP (· == d) = l := by rw [oldest]; exact List.eraseP_cons_of_pos (beq_self_eq_true d)
  rw [SequenceEvents.exec_drainApply (by rw [oldest]; exact nextDrain_of_fate fate), rest]
end
section
variable {s : State} {d : Drain} {f : Frame} (frame : findFrame s d.ctx d.frame = some f)
include frame
theorem drainFate_of_withdrawn (seen : List Drain) (gone : f.withdrawn = true) : drainFate s seen d = some false := by
  simp only [drainFate, frame, gone, if_true]
theorem drainFate_of_turn (live : f.withdrawn = false) (idle : (findInst f d.stage.toNat d.coord).running = 0)
    (turn : ∀ q, d.seq = some q → q.toNat = (drainStateOf (findInst f d.stage.toNat d.coord) d.pos.toNat d.tileNo.toNat).next) :
    drainFate s [] d = some true := by
  simp only [drainFate, frame, live, idle, Bool.false_eq_true, if_false, ne_eq, not_true_eq_false]
  cases order : d.seq with
  | none => rfl
  | some q => simp only [turn q order, if_true]
end
theorem drainApplyCompletes : DrainApplyCompletes := by
  rintro s d l _ oldest rfl
  refine ⟨fun none => ?_, fun f frame gone => ?_, ?applied⟩
  · have fate : drainFate s [] d = some false := by simp only [drainFate, none]
    rw [exec_drainApply_of_oldest oldest fate]; rfl
  · rw [exec_drainApply_of_oldest oldest (drainFate_of_withdrawn frame [] gone)]; rfl
  case applied =>
    rintro f _ _ _ m frame live rfl idle rfl rfl turn sum
    rw [exec_drainApply_of_oldest oldest (drainFate_of_turn frame live idle turn)]
    have stands : findFrame (setWork s { s.work with drains := l }) d.ctx d.frame = some f := frame
    simp only [if_true, applyDrain, stands, sum]

/-! ### WIDE_UNIT_STEP (R296, R435, R436) -/

theorem wideStep_elementwise {w : Who} {o : WideOp} {n : Nat} {f : WForm} (form : wForm o.instr = some f)
    (lanes : n = min (stepLanes f) (o.n - o.done)) (elementwise : ∃ h p, o.instr = .vadd h p ∨ o.instr = .vsub h p ∨ o.instr = .vmul h p ∨ o.instr = .vfma h p ∨
      o.instr = .vmax h p ∨ o.instr = .vmin h p ∨ o.instr = .vabs h p ∨ o.instr = .vexp2 h p ∨ o.instr = .vrsqe h p ∨ o.instr = .vrcpe h p ∨
      o.instr = .vcmp h p ∨ o.instr = .vsel h p ∨ o.instr = .vfill h p ∨ o.instr = .vcopy h p ∨ o.instr = .vcvt h p) :
    wideStep w o = elemStep w o f.o n := by
  obtain ⟨h, p, e⟩ := elementwise
  simp only [wideStep, form, ← lanes]
  rcases e with e | e | e | e | e | e | e | e | e | e | e | e | e | e | e <;> rw [e]
theorem elemStep_of_ok {w : Who} {o : WideOp} {f : FpOps} {s s1 s2 s3 s4 : State} {n : Nat} {xs ys zs : List Nat} {out : List (Nat × Events)}
    (readsA : wideVals w o.a o.done n s = .ok (xs, s1)) (readsB : wideVals w o.b o.done n s1 = .ok (ys, s2))
    (readsC : wideVals w o.c o.done n s2 = .ok (zs, s3))
    (results : out = (xs.zip (ys.zip zs)).map (fun x => wideElem o.instr f (wideCtl o) x.1 x.2.1 x.2.2))
    (stored : storeD w o (out.map (·.1)) s3 = .ok ((), s4)) :
    elemStep w o f n s = .ok ({ o with done := o.done + n, ev := out.foldl (fun e r => e ||| r.2) o.ev }, s4) := by
  rw [elemStep, aBind_of_ok readsA, aBind_of_ok readsB, aBind_of_ok readsC]
  simp only [← results]
  rw [aBind_of_ok stored]; rfl
theorem wideStepCompletes : WideStepCompletes := by
  rintro s row i k t w r f n _ xs s1 ys s2 zs s3 out s4 u _ named core next alive thread head form lanes elementwise rfl readsA readsB readsC results
    stored after stands rfl
  have step := (congrFun (wideStep_elementwise form lanes elementwise) _).trans (elemStep_of_ok readsA readsB readsC results stored)
  obtain ⟨finished, goesOn⟩ := WideUnit.exec_wideUnitStep_head named core next alive thread head step after stands
  exact ⟨finished, goesOn⟩

/-- Settles O60, form by form. -/
theorem remainingFormsComplete : Obligations.RemainingFormsComplete :=
  ⟨trapRettSigComplete, matrixComplete, drainApplyCompletes, ScribeEvents.sequenceEventsComplete, wideStepCompletes⟩

end Sys2Proof.Proofs.Completion

/-! ## Canonical memory: the state's operations (O6)

R61, R102, R110: the bytes, tags, poison and cached sectors of a memory are sorted lists without a needless entry
(`memInv`, here `Good`; log 4, log 5). `f_mem` says that `f` leaves memory as it is, `good_f` that `f` keeps its form;
`keeps_f` says the same of a computation that may stop early, in whatever way it ends (`Keeps`). -/
namespace Sys2Proof.Proofs.Canonical
open Sys2Proof Sys2Proof.Machine Sys2Proof.Laws.State Sys2Proof.Laws.Ops Sys2Proof.Proofs.Device

/-! ### Memory through the state -/

@[simp] theorem setMem_mem {s : State} {m : Mem} : (setMem s m).mem = m := rfl
theorem good_of_mem {s t : State} (e : t.mem = s.mem) (g : Good s.mem) : Good t.mem := e ▸ g
theorem good_ite {c : Prop} [Decidable c] {a b : State} (ha : Good a.mem) (hb : Good b.mem) : Good (if c then a else b).mem := by
  split <;> assumption
/-- what holds of the end of an effect, once the end is known -/
theorem of_eq {α : Type} {p : α → Prop} {x y : α} (e : x = y) (h : p x) : p y := e ▸ h
theorem good_foldl {α : Type} {f : State → α → State} (h : ∀ s a, Good s.mem → Good (f s a).mem) {l : List α} {s : State} (g : Good s.mem) :
    Good (l.foldl f s).mem :=
  List.foldlRecOn (motive := fun s => Good s.mem) l f g fun _ k a _ => h _ a k
theorem goodMem_foldl {α : Type} {f : Mem → α → Mem} (h : ∀ m a, Good m → Good (f m a)) {l : List α} {m : Mem} (g : Good m) :
    Good (l.foldl f m) :=
  List.foldlRecOn (motive := Good) l f g fun _ k a _ => h _ a k
@[simp] theorem foldl_mem {α : Type} {f : State → α → State} (h : ∀ s a, (f s a).mem = s.mem) {l : List α} {s : State} :
    (l.foldl f s).mem = s.mem :=
  List.foldlRecOn (motive := fun u => u.mem = s.mem) l f rfl fun u k a _ => (h u a).trans k

theorem good_performAt {s : State} {k : Option Nat} {c : BitVec 12} {sec : Nat} {data : BitVec 512} {mask : BitVec 64} {tags tagged : BitVec 2}
    {whole : Bool} (g : Good s.mem) : Good (performAt s k c sec data mask tags tagged whole).mem := by
  simpa using good_homeMergeW _ _ _ _ _ _ g

/-! ### Memory written field by field -/

theorem cellsFrom_filter {lo : Option Nat} {l : List Host.Cell} (p : Host.Cell → Bool) (h : cellsFrom lo l = true) :
    cellsFrom lo (l.filter p) = true := by
  induction l generalizing lo with
  | nil => rfl
  | cons c t ih =>
    obtain ⟨k, v⟩ := c
    simp only [cellsFrom, Bool.and_eq_true] at h
    obtain ⟨⟨hk, hv⟩, ht⟩ := h
    by_cases e : p (k, v) = true
    · simp only [List.filter_cons, e, if_true, cellsFrom, Bool.and_eq_true]
      exact ⟨⟨hk, hv⟩, ih ht⟩
    · simp only [List.filter_cons, e]
      refine cellsFrom_weaken _ k lo (ih ht) fun l hl => ?_
      subst hl
      simpa using hk
theorem good_filters {m : Mem} (c : Host.Cell → Bool) (t p : Nat → Bool) (g : Good m) :
    Good { m with cells := m.cells.filter c, tags := m.tags.filter t, poison := m.poison.filter p } := by
  rw [good_iff] at *
  obtain ⟨⟨hc, ht, hp⟩, hl⟩ := g
  exact ⟨⟨cellsFrom_filter _ hc, setFrom_filter _ _ _ ht, setFrom_filter _ _ _ hp⟩, hl⟩
theorem good_poisonTo {m : Mem} {sec : Nat} {on : Bool} (g : Good m) : Good { m with poison := sset m.poison sec on } := by
  rw [good_iff] at *
  obtain ⟨⟨hc, ht, hp⟩, hl⟩ := g
  exact ⟨⟨hc, ht, setFrom_sset _ _ _ hp⟩, hl⟩
theorem good_l2Filter {m : Mem} (p : Nat → Bool) (g : Good m) : Good { m with l2 := m.l2.filter (fun x => p x.1) } := by
  rw [good_iff] at *
  have keys : (m.l2.filter (fun x => p x.1)).map (·.1) = (m.l2.map (·.1)).filter p := by
    simp only [List.filter_map]
    rfl
  exact ⟨g.1, by simpa only [keys] using setFrom_filter _ _ _ g.2⟩
theorem good_l2Empty {m : Mem} (g : Good m) : Good { m with l2 := [] } := by
  rw [good_iff] at *
  exact ⟨g.1, rfl⟩

/-! ### Ends of effects -/

/-- Every state that an end names has a canonical memory. -/
@[simp] def GoodOut : Host.Outcome State Fault Refusal → Prop | .next s => Good s.mem | _ => True
@[simp] def GoodRes : Res → Prop
  | .done s | .jump s _ | .wait s | .gone s | .trap s _ _ => Good s.mem
@[simp] def GoodReady : Ready → Prop | .run _ s | .stay s => Good s.mem
@[simp] def GoodPosted : Posted → Prop | .refused _ => True | .taken s | .full s => Good s.mem
@[simp] def GoodFetched : Fetched → Prop | .got _ s | .wait s | .trap s _ _ => Good s.mem
@[simp] def GoodTrEnd : TrEnd → Prop | .hit _ s | .wait s | .fault _ s => Good s.mem
@[simp] def GoodEngTr : EngTr → Prop | .hit _ _ s | .anon _ s | .dup _ s | .wait s => Good s.mem | .fault _ => True
@[simp] def GoodStockEnd : StockEnd → Prop | .result _ s | .later s | .send _ _ _ s => Good s.mem
@[simp] def GoodFrameEnd : FrameEnd → Prop | .got _ s | .empty s | .wait s => Good s.mem
@[simp] def GoodAgentEnd : AgentEnd → Prop | .got s | .empty s | .wait s => Good s.mem
@[simp] def GoodTouchEnd : TouchEnd → Prop | .got _ s | .empty s | .wait s => Good s.mem
/-- What stops an engine, the access half or a command: where it waits or traps, its state has a canonical memory. -/
@[simp] def EGood : EngStop → Prop | .wait s => Good s.mem | _ => True
@[simp] def AGood : AStop → Prop | .wait s | .trap s _ _ => Good s.mem
@[simp] def KGood : KStop → Prop | .wait s => Good s.mem | _ => True
@[simp] def NGood : Nat → Prop := fun _ => True
/-- A computation that goes on, with the state `p` of its result, or that stops as `e` allows. -/
@[simp] def GoodExc {ε α : Type} (e : ε → Prop) (p : α → State) : Except ε α → Prop | .ok a => Good (p a).mem | .error x => e x
/-- A result, with the state `p` of it, or none. -/
@[simp] def GoodOpt {α : Type} (p : α → State) : Option α → Prop | some a => Good (p a).mem | none => True
/-- From a canonical memory the computation ends in one, whether it goes on or stops. -/
structure Keeps {ε α : Type} (e : ε → Prop) (m : StateT State (Except ε) α) : Prop where
  ends : ∀ s, Good s.mem → GoodExc e Prod.snd (m s)

section
variable {ε α β : Type} {e : ε → Prop} {p : α → State} {q : β → State}
theorem GoodExc.bind {x : Except ε α} {f : α → Except ε β} (hx : GoodExc e p x) (hf : ∀ a, Good (p a).mem → GoodExc e q (f a)) :
    GoodExc e q (x >>= f) := by
  cases x with
  | error w => exact hx
  | ok a => exact hf a hx
theorem GoodOut.next {o : Host.Outcome State Fault Refusal} {s : State} (e : o = .next s) (h : GoodOut o) : Good s.mem := by
  rw [e] at h
  exact h
theorem GoodOpt.get {α : Type} {p : α → State} {x : Option α} {a : α} (e : x = some a) (h : GoodOpt p x) : Good (p a).mem := by
  rw [e] at h
  exact h
theorem GoodExc.get {x : Except ε α} {a : α} (r : x = .ok a) (h : GoodExc e p x) : Good (p a).mem := by
  rw [r] at h
  exact h
theorem GoodExc.unit {x : Except EngStop State} (h : GoodExc EGood id x) :
    GoodExc EGood Prod.snd (match x with | .ok s => .ok ((), s) | .error e => .error e) := by
  cases x <;> exact h
theorem GoodExc.sector {f : L2Sector → Xlat → α} {x : Except EngStop (L2Sector × Xlat × State)} (h : GoodExc EGood (fun r => r.2.2) x) :
    GoodExc EGood Prod.snd (match x with | .ok (x, y, s) => .ok (f x y, s) | .error e => .error e) := by
  cases x <;> exact h
theorem GoodExc.orWait {x : Option State} {a : α} {s : State} (h : GoodOpt id x) (g : Good s.mem) :
    GoodExc AGood Prod.snd (match x with | some s => .ok (a, s) | none => .error (.wait s)) := by
  cases x with
  | none => exact g
  | some w => exact h
theorem Keeps.ok {m : StateT State (Except ε) α} {s s' : State} {a : α} (h : Keeps e m) (g : Good s.mem) (r : m s = .ok (a, s')) :
    Good s'.mem := GoodExc.get r (h.ends s g)
theorem Keeps.error {m : StateT State (Except ε) α} {s : State} {x : ε} (h : Keeps e m) (g : Good s.mem) (r : m s = .error x) : e x := by
  simpa only [r, GoodExc] using h.ends s g
theorem Keeps.pure {a : α} : Keeps e (pure a) := ⟨fun _ g => g⟩
theorem Keeps.bind {x : StateT State (Except ε) α} {f : α → StateT State (Except ε) β} (hx : Keeps e x) (hf : ∀ a, Keeps e (f a)) :
    Keeps e (x >>= f) := by
  exact ⟨fun s g => .bind (hx.ends s g) fun a k => (hf a.1).ends a.2 k⟩
theorem Keeps.ite {c : Prop} [Decidable c] {x y : StateT State (Except ε) α} (hx : Keeps e x) (hy : Keeps e y) : Keeps e (if c then x else y) := by
  split <;> assumption
/-- a step done under a condition, before the rest -/
theorem Keeps.before {c : Prop} [Decidable c] {x : StateT State (Except ε) Unit} {f : Unit → StateT State (Except ε) β} (hx : Keeps e x)
    (hf : ∀ y, Keeps e (f y)) : Keeps e (if c then x >>= f else f ()) := .ite (hx.bind hf) (hf ())
/-- one of two steps, before the rest -/
theorem Keeps.either {c : Prop} [Decidable c] {x y : StateT State (Except ε) α} {f : α → StateT State (Except ε) β} (hx : Keeps e x)
    (hy : Keeps e y) (hf : ∀ y, Keeps e (f y)) : Keeps e (if c then x >>= f else y >>= f) := .ite (hx.bind hf) (hy.bind hf)
theorem Keeps.get : Keeps e (MonadState.get : StateT State (Except ε) State) := ⟨fun _ g => g⟩
/-- the state read first has a canonical memory, whatever is done with it -/
theorem Keeps.getThen {f : State → StateT State (Except ε) α} (h : ∀ s, Good s.mem → Keeps e (f s)) :
    Keeps e ((MonadState.get : StateT State (Except ε) State) >>= f) := ⟨fun s g => (h s g).ends s g⟩
theorem Keeps.set {s : State} (h : Good s.mem) : Keeps e (MonadState.set s : StateT State (Except ε) PUnit) := ⟨fun _ _ => h⟩
theorem Keeps.modify {f : State → State} (h : ∀ s, Good s.mem → Good (f s).mem) : Keeps e (modify f : StateT State (Except ε) PUnit) := ⟨h⟩
end

section
variable {held s : State} {t : Thread} {c : Cmd} {q : Seq} {d : Desc} {w : Who} {hd : Hdr} {ctx : BitVec 12} {k n cl va : Nat}

/-! ### Reads, fills, merges and drains -/

@[simp] theorem spendNow_mem {k : Spent} : (spendNow s ctx k n).mem = s.mem := by simp [spendNow]
@[simp] theorem freeBelow_mem : (freeBelow s n).2.mem = s.mem := rfl
theorem good_drainRel {r : RelCore} (g : Good s.mem) : Good (drainRel s r).mem := good_writeBacks _ _ g
theorem good_makeRoom {sec : Nat} (g : Good s.mem) : Good (makeRoom s sec).mem := by
  unfold makeRoom
  split
  · split
    · exact g
    · split
      · exact good_of_eq (good_drainRel g) rfl rfl rfl rfl
      · exact g
  · split
    · exact g
    · split
      · exact good_of_eq (good_foldl (fun _ _ => good_drainRel) g) rfl rfl rfl rfl
      · exact g
theorem good_releaseAt {scope : BitVec 3} {sec : Nat} (g : Good s.mem) : Good (releaseAt s k ctx scope sec).mem :=
  good_ite (good_drainCtx _ _ g) (good_of_eq (good_makeRoom g) rfl rfl rfl rfl)
theorem good_drainRecords {sec : Nat} (g : Good s.mem) : Good (drainRecords s k sec).mem := by
  unfold drainRecords
  split
  · exact g
  · exact good_of_eq (good_foldl (fun _ _ => good_drainRel) g) rfl rfl rfl rfl
theorem good_acquireAt {scope : BitVec 3} {sec : Nat} (g : Good s.mem) : Good (acquireAt s k scope sec).mem :=
  good_acquireLocal _ _ (good_drainRecords g)

/-! ### Translation -/

@[simp] theorem installCore_mem {e : TlbEntry} : (installCore s k e).mem = s.mem := rfl
@[simp] theorem installCluster_mem {e : TlbEntry} : (installCluster s cl e).mem = s.mem := rfl
@[simp] theorem wakeCore_mem : (wakeCore s k).mem = s.mem := by
  unfold wakeCore
  split <;> simp
@[simp] theorem wakeFirmware_mem {d : Nat} : (wakeFirmware s d).mem = s.mem := by simp [wakeFirmware]
@[simp] theorem sendMiss_mem {k : Option Nat} {kind : MissKind} : (sendMiss s cl k ctx va kind).mem = s.mem := by
  grind [sendMiss, wakeCore_mem, setCluster_mem]
theorem good_useEntry {e : TlbEntry} {need : Need} (g : Good s.mem) : GoodTrEnd (useEntry s cl k e va need) := by
  unfold useEntry
  split
  · exact g
  · split
    · exact g
    · split
      · exact good_of_mem (by simp) g
      · split
        · exact g
        · split
          · exact good_of_mem (by simp) g
          · exact g
theorem good_translate {need : Need} (g : Good s.mem) : GoodTrEnd (Machine.translate s k ctx va need) := by
  simp only [Machine.translate]
  split
  · exact good_of_mem (by simp) g
  · split
    · exact good_useEntry g
    · split
      · exact good_useEntry (good_of_mem (by simp) g)
      · exact good_of_mem (by simp) g
theorem good_translateEng {need : Need} (g : Good s.mem) : GoodEngTr (translateEng s cl ctx va need) := by
  unfold translateEng
  split
  · trivial
  · split
    · split
      · trivial
      · split
        · trivial
        · split
          · exact g
          · split
            · trivial
            · split <;> exact g
    · exact good_of_mem (by simp) g

/-! ### Bytes written at a physical address -/

theorem good_paWriteMem {m : Mem} {pa : Nat} {bs : List Byte} (g : Good m) : Good (paWriteMem m pa bs) := good_paWriteF _ _ _ g
theorem good_paPutCap {m : Mem} {pa : Nat} {c : CReg} (g : Good m) : Good (paPutCap m pa c) := good_homeMerge _ _ _ _ _ g

/-! ### Interrupts and the reply queue -/

@[simp] theorem raiseState_mem : (raiseState s).mem = s.mem := by simp [raiseState]
theorem good_mqDrain (g : Good s.mem) : Good (mqDrain s).mem := good_mqFlush _ g
theorem good_mqReply {r : List Byte} (g : Good s.mem) : Good (mqReply s r).mem := good_mqDrain g

/-! ### The dump and device-fatal errors -/

theorem good_abandon (g : Good s.mem) : Good (abandon s).mem := good_of_eq (good_l2Empty g) rfl rfl rfl rfl
@[simp] theorem setState_mem {st : HState} : (setState s st).mem = s.mem := rfl
theorem good_writeDump {cause die : Nat} {engine : Byte} (g : Good s.mem) : Good (writeDump s cause die engine).mem :=
  good_hostWrite _ _ (good_hostWrite _ _ (good_hostWrite _ _ (good_hostWrite _ _ (good_hostWrite _ _ g))))
theorem good_fatalError {cause die : Nat} {engine : Byte} (g : Good s.mem) : Good (fatalError s cause die engine).mem :=
  good_of_mem raiseState_mem (good_of_mem setState_mem (good_abandon (good_writeDump g)))

/-! ### Corrected reads and the start of negotiation -/

theorem good_noteCorrected {c : Nat} (g : Good s.mem) : Good (noteCorrected s c n).mem := good_markChannel _ g
theorem good_noteReads {secs : List Nat} (g : Good s.mem) : Good (noteReads s secs).mem :=
  good_foldl (fun _ _ g' => good_ite (good_noteRead _ g') g') g
@[simp] theorem enterNegotiate_mem : (enterNegotiate s).mem = s.mem := by simp [enterNegotiate]

/-! ### Stores and atomics at home -/

theorem good_storeHome {x : Xlat} {v : Nat} (g : Good s.mem) : Good (storeHome s k ctx x n v).mem :=
  good_of_mem (Proofs.StoredBytes.ownCopy_mem ..) (good_mergeHome _ _ _ _ _ g)
theorem good_beforeAtomic {sec : Nat} (g : Good s.mem) : Good (beforeAtomic s k sec).mem := good_of_mem (l1Drop_mem ..) (good_writeBacks _ _ g)
theorem good_reachHome {x : Xlat} (g : Good s.mem) : Good (reachHome s k ctx x).mem :=
  good_ite (good_readBase _ _ (good_orderHome _ _ g)) (good_serveHome _ _ (good_orderHome _ _ g))

/-! ### Counters at home -/

@[simp] theorem setCounter_mem {d : Nat} {c : Counter} : (setCounter s d k c).mem = s.mem := rfl
@[simp] theorem setCtr_mem {c : Counter} : (setCtr s k c).mem = s.mem := rfl
@[simp] theorem updCtr_mem {f : Counter → Counter} : (updCtr s k f).mem = s.mem := rfl
@[simp] theorem applyReturn_mem {r : StockReturn} : (applyReturn s r).mem = s.mem := rfl
@[simp] theorem setReturns_mem {d : Nat} {l : List StockReturn} : (setReturns s d l).mem = s.mem := rfl
@[simp] theorem postReturn_mem {r : StockReturn} : (postReturn s r).mem = s.mem := rfl
@[simp] theorem arrive_mem {d : Nat} {p : StockReturn → Bool} : (arrive s d p).mem = s.mem :=
  (foldl_mem fun _ _ => applyReturn_mem).trans setReturns_mem
@[simp] theorem recallNow_mem : (recallNow s n).mem = s.mem := (foldl_mem (by intro _ _; rfl)).trans arrive_mem
theorem good_agentTake {m : Nat} (g : Good s.mem) : GoodAgentEnd (agentTake s n m) := by
  simp only [agentTake]
  split
  · split <;> exact good_of_mem (by simp) g
  · split
    · exact good_ite g (good_of_mem (by simp) g)
    · split
      · split <;> exact good_of_mem (by simp) g
      · exact good_of_mem (by simp) g
@[simp] theorem agentGive_mem : (agentGive s n).mem = s.mem := rfl
@[simp] theorem dropGrants_mem : (dropGrants n s).mem = s.mem := rfl
@[simp] theorem keepRequests_mem {w : State} : (keepRequests s w).mem = s.mem := by
  refine foldl_mem fun s d => foldl_mem fun s c => ?_
  dsimp only
  split <;> rfl

/-! ### Frames of the pools; what an engine reads and writes -/

theorem good_poolTake {d : Nat} (g : Good s.mem) : GoodFrameEnd (poolTake s n d) := by
  unfold poolTake
  split <;> rename_i e <;> have k := of_eq e (good_agentTake g)
  · exact k
  · exact k
  · split <;> exact good_of_mem (by simp) k
@[simp] theorem poolGive_mem {d f : Nat} : (poolGive s d f).mem = s.mem := rfl
theorem good_dropSectors {lo hi : Nat} (g : Good s.mem) : Good (dropSectors s lo hi).mem := good_l2Filter (fun n => decide (n < lo ∨ hi ≤ n)) g
theorem good_zeroMem {m : Mem} {pa : Nat} (g : Good m) : Good (zeroMem m pa n) := good_filters _ _ _ g
theorem good_zeroFrame {f : Nat} (g : Good s.mem) : Good (zeroFrame s f).mem := good_of_eq (good_zeroMem (good_dropSectors g)) rfl rfl rfl rfl
theorem good_poolRefill {f : Nat} (g : Good s.mem) : Good (poolRefill s f).mem := good_of_mem poolGive_mem (good_zeroFrame g)
theorem good_homeWriteQword {m : Mem} {pa : Nat} {v : W64} (g : Good m) : Good (homeWriteQword m pa v) := good_homeMerge _ _ _ _ _ g
theorem good_fillLeaf {d : Nat} {e : TlbEntry} {f : Nat} (g : Good s.mem) : Good (fillLeaf s d e f).2.mem := by
  simp only [fillLeaf]
  split
  · exact good_homeWriteQword g
  · exact good_of_mem (by simp) g
theorem good_firstTouch {e : TlbEntry} (g : Good s.mem) : GoodTouchEnd (firstTouch s cl e) := by
  simp only [firstTouch]
  split <;> rename_i e <;> have k := of_eq e (good_poolTake g)
  · exact k
  · exact k
  · exact good_fillLeaf k
@[simp] theorem installTouch_mem {a : Option TlbEntry} : (installTouch s cl a).mem = s.mem := by
  unfold installTouch
  split <;> simp
theorem good_engUse {x : EngTr} (h : GoodEngTr x) : GoodExc EGood Prod.snd (engUse cl ctx va x) := by
  cases x with
  | hit x leaf s =>
    simp only [engUse]
    split
    · trivial
    · split <;> exact h
  | anon e s => exact h
  | dup e s => exact h
  | wait s => exact h
  | fault c =>
    simp only [engUse]
    split <;> trivial
theorem good_engPage {need : Need} (g : Good s.mem) : GoodExc EGood Prod.snd (engPage s cl ctx va need) := by
  unfold engPage
  split
  · rename_i e
    have k := of_eq e (good_translateEng g)
    split
    · exact good_of_mem (by simp) k
    · split <;> rename_i e <;> have k' := of_eq e (good_firstTouch k)
      · exact good_engUse (good_translateEng (good_of_mem (by simp) k'))
      · exact k'
      · exact good_of_mem (by simp) k'
  · exact good_engUse (good_translateEng g)
theorem good_engSector (g : Good s.mem) : GoodExc EGood (fun r => r.2.2) (engSector s cl ctx va) := by
  unfold engSector
  refine .bind (good_engPage g) fun ⟨_, _⟩ g' => ?_
  dsimp only
  split
  · exact g'
  · exact good_ite (good_readBase _ _ g') (good_ite (good_serveHome _ _ g') (good_readHome _ _ g'))
theorem good_engReadF {fuel : Nat} (g : Good s.mem) : GoodExc EGood Prod.snd (engReadF s cl ctx fuel va n) := by
  induction fuel generalizing s va n with
  | zero => exact g
  | succ fuel ih =>
    rw [engReadF]
    split
    · exact g
    · exact .bind (good_engSector g) fun _ h => .bind (ih h) fun _ h => h
theorem good_engRead (g : Good s.mem) : GoodExc EGood Prod.snd (engRead s cl ctx va n) := good_engReadF g
theorem good_engPut {x : Xlat} {data : BitVec 512} {mask : BitVec 64} {tags slots : BitVec 2} (g : Good s.mem) : Good
    (engPut s ctx x data mask tags slots).mem :=
  good_ite (good_baseMerge _ _ _ _ _ g) (good_performAt (good_of_mem (by simp) g))
theorem good_engPoison {x : Xlat} {on : Bool} (g : Good s.mem) : Good (engPoison s x on).mem := by
  simp only [engPoison]
  split
  · exact good_poisonTo (good_ripen _ (good_l2Evict _ (good_of_eq g rfl rfl rfl rfl)))
  · exact good_mset _ _ (good_of_eq g rfl rfl rfl rfl)
theorem good_engStorePage (g : Good s.mem) : GoodExc EGood Prod.snd (engStorePage s cl ctx va) := by
  unfold engStorePage
  refine .bind (good_engPage g) fun ⟨_, _⟩ g' => ?_
  dsimp only
  split <;> exact g'
theorem good_engWriteF {fuel : Nat} {bs : List Byte} (g : Good s.mem) : GoodExc EGood id (engWriteF s cl ctx fuel va bs) := by
  induction fuel generalizing s va bs with
  | zero => exact g
  | succ fuel ih =>
    rw [engWriteF]
    split
    · exact g
    · exact .bind (good_engStorePage g) fun _ h => ih (good_engPut h)
theorem good_engWrite {bs : List Byte} (g : Good s.mem) : GoodExc EGood id (engWrite s cl ctx va bs) := good_engWriteF g
theorem good_engPutCap {c : CReg} (g : Good s.mem) : GoodExc EGood id (engPutCap s cl ctx va c) := by
  refine .bind (good_engStorePage g) fun ⟨_, s⟩ h => ?_
  dsimp only
  split
  · trivial
  · exact good_engPut h
theorem good_engPoisonF {fuel : Nat} {bs : List Bool} (g : Good s.mem) : GoodExc EGood id (engPoisonF s cl ctx fuel va bs) := by
  induction fuel generalizing s va bs with
  | zero => exact g
  | succ fuel ih =>
    rw [engPoisonF]
    split
    · exact g
    · refine .bind (good_engPage g) fun _ h => ih ?_
      split
      · exact good_engPoison h
      · exact h
theorem good_engPoisonBytes {bs : List Bool} (g : Good s.mem) : GoodExc EGood id (engPoisonBytes s cl ctx va bs) := good_engPoisonF g

/-! ### Descriptors, groups, layers and cells -/

theorem keeps_kEnd {α : Type} : Keeps KGood (kEnd n : KM α) := ⟨fun _ _ => trivial⟩
theorem keeps_kWait {α : Type} : Keeps KGood (kWait : KM α) := ⟨fun _ g => g⟩
theorem keeps_kCheck {ok : Bool} : Keeps KGood (kCheck ok n) := .ite .pure keeps_kEnd
theorem keeps_kTry {α : Type} {bad rd peer : Nat} {f : State → Except EngStop (α × State)} (h : ∀ s, Good s.mem → GoodExc EGood Prod.snd (f s)) :
    Keeps KGood (kTry bad rd peer f) := by
  refine ⟨fun s g => ?_⟩
  have k := h s g
  simp only [kTry]
  split <;> simp_all
@[simp] theorem keepAsked_mem {w : State} : (keepAsked s w).mem = s.mem := by
  rw [keepAsked, keepRequests_mem]
  refine foldl_mem fun s x => ?_
  dsimp only
  split <;> rfl
theorem keeps_kEach {α β : Type} {f : α → KM β} {l : List α} (h : ∀ a, Keeps KGood (f a)) : Keeps KGood (kEach f l) := by
  induction l with
  | nil => exact .pure
  | cons a t ih => exact (h a).bind fun _ => ih.bind fun _ => .pure
theorem keeps_kFor {α : Type} {f : α → KM Unit} {l : List α} (h : ∀ a, Keeps KGood (f a)) : Keeps KGood (kFor f l) := by
  induction l with
  | nil => exact .pure
  | cons a t ih => exact (h a).bind fun _ => ih
theorem keeps_kLift {α : Type} {f : State → Except EngStop (α × State)} (h : ∀ s, Good s.mem → GoodExc EGood Prod.snd (f s)) : Keeps KGood
    (kLift f) :=
  keeps_kTry h
theorem keeps_kData : Keeps KGood (kData q va n) := keeps_kLift fun _ => good_engRead
theorem keeps_kBytes : Keeps KGood (kBytes q va n) := keeps_kData.bind fun _ => keeps_kCheck.bind fun _ => .pure
theorem keeps_kNum : Keeps KGood (kNum q va n) := keeps_kBytes.bind fun _ => .pure
theorem keeps_kCap : Keeps KGood (kCap q va) := by
  refine (keeps_kLift fun s g => ?_).bind fun _ => keeps_kCheck.bind fun _ => .pure
  exact .sector (good_engSector g)
theorem keeps_kUnit {f : State → Except EngStop State} (h : ∀ s, Good s.mem → GoodExc EGood id (f s)) : Keeps KGood (kUnit f) := by
  exact keeps_kLift fun s g => .unit (h s g)
theorem keeps_kRaw {bs : List Byte} : Keeps KGood (kRaw q va bs) := keeps_kUnit fun _ => good_engWrite
theorem keeps_kClean : Keeps KGood (kClean q va) := (keeps_kLift fun _ => good_engPage).bind fun _ => .getThen fun _ _ => keeps_kCheck
theorem keeps_kWrite {bs : List Byte} : Keeps KGood (kWrite q va bs) := (keeps_kFor fun _ => keeps_kClean).bind fun _ => keeps_kRaw
theorem keeps_kPut {v : Nat} : Keeps KGood (kPut q va n v) := keeps_kWrite
theorem keeps_kPutCap {c : CReg} : Keeps KGood (kPutCap q va c) := keeps_kUnit fun _ => good_engPutCap
theorem keeps_kPoison {bs : List Bool} : Keeps KGood (kPoison q va bs) := keeps_kUnit fun _ => good_engPoisonBytes
theorem keeps_readDesc : Keeps KGood (readDesc q) :=
  keeps_kBytes.bind fun _ => keeps_kCap.bind fun _ => keeps_kCap.bind fun _ => keeps_kCap.bind fun _ => keeps_kCap.bind fun _ =>
    keeps_kCap.bind fun _ => keeps_kCap.bind fun _ => keeps_kCap.bind fun _ => keeps_kCheck.bind fun _ => .pure
theorem keeps_setLength : Keeps KGood (setLength q n) := keeps_kPut
theorem keeps_setGen {g0 : BitVec 32} : Keeps KGood (setGen q g0) := keeps_kPut
theorem keeps_setSettled {g0 : BitVec 32} : Keeps KGood (setSettled q g0) := keeps_kPut
theorem keeps_layerEntry {l : Nat} : Keeps KGood (layerEntry q d l) := keeps_kBytes.bind fun _ => keeps_kCap.bind fun _ => .pure
theorem keeps_causalLayers : Keeps KGood (causalLayers q d) := (keeps_kEach fun _ => keeps_kNum.bind fun _ => .pure).bind fun _ => .pure
theorem keeps_kTake {ctr : Nat} : Keeps KGood (kTake q ctr) := by
  refine ⟨fun s g => ?_⟩
  unfold kTake
  split
  · trivial
  · split
    · rename_i e
      have taken := of_eq e (good_agentTake g)
      exact taken
    · trivial
    · rename_i e
      have stopped := of_eq e (good_agentTake g)
      exact stopped
theorem keeps_kGive {ctr : Nat} : Keeps KGood (kGive q ctr) := ⟨fun _ g => good_ite g (good_of_mem (by simp) g)⟩
theorem keeps_poolCtr : Keeps KGood (poolCtr q d) := keeps_kCap.bind fun _ => keeps_kCheck.bind fun _ => .pure
theorem keeps_poolPop : Keeps KGood (poolPop q d) :=
  keeps_poolCtr.bind fun _ => keeps_kTake.bind fun _ => keeps_kNum.bind fun _ => keeps_kNum.bind fun _ => keeps_kCheck.bind fun _ =>
    keeps_kNum.bind fun _ => keeps_kCheck.bind fun _ => keeps_kPut.bind fun _ => .pure
theorem keeps_poolPush {i : Nat} : Keeps KGood (poolPush q d i) :=
  keeps_kNum.bind fun _ => keeps_kNum.bind fun _ => keeps_kCheck.bind fun _ => keeps_kPut.bind fun _ => keeps_kPut.bind fun _ =>
    keeps_poolCtr.bind fun _ => keeps_kGive
theorem keeps_zeroPage {i : Nat} : Keeps KGood (zeroPage q d i) := keeps_kRaw
theorem keeps_readGroup {g0 : Nat} : Keeps KGood (readGroup q d g0) :=
  keeps_kBytes.bind fun _ => keeps_kCheck.bind fun _ => keeps_kBytes.bind fun _ => .pure
theorem keeps_writeGroup {g0 : Nat} {x : Group} : Keeps KGood (writeGroup q d g0 x) := keeps_kWrite.bind fun _ => keeps_kWrite
theorem keeps_readLayer {g0 j : Nat} : Keeps KGood (readLayer q d g0 j) :=
  keeps_kBytes.bind fun _ => keeps_kCheck.bind fun _ => keeps_kData.bind fun _ => .pure
theorem keeps_writeLayer {g0 j : Nat} {x : Layer} : Keeps KGood (writeLayer q d g0 j x) := keeps_kWrite.bind fun _ => keeps_kRaw
theorem keeps_tableCap : Keeps KGood (tableCap q d) := keeps_kNum.bind fun _ => keeps_kCheck.bind fun _ => .pure
theorem keeps_readRun {i : Nat} : Keeps KGood (readRun q d i) := keeps_kBytes.bind fun _ => keeps_kCheck.bind fun _ => .pure
theorem keeps_readRuns : Keeps KGood (readRuns q d) :=
  keeps_tableCap.bind fun _ => keeps_kNum.bind fun _ => keeps_kCheck.bind fun _ => keeps_kEach fun _ => keeps_readRun
theorem keeps_writeRuns {rs : List Run} : Keeps KGood (writeRuns q d rs) :=
  keeps_tableCap.bind fun _ => keeps_kCheck.bind fun _ => keeps_kPut.bind fun _ => keeps_kFor fun _ => keeps_kWrite
theorem keeps_viewF : Keeps KGood (viewF n q d) := by
  induction n generalizing q d with
  | zero => exact .pure
  | succ n ih =>
    rw [viewF]
    refine keeps_readRuns.bind fun own => ?_
    split
    · refine .getThen fun s _ => ?_
      split
      · exact keeps_readDesc.bind fun _ => ih.bind fun _ => .pure
      · exact .pure
    · exact .pure
theorem keeps_view : Keeps KGood (Machine.view q d) := keeps_viewF
theorem keeps_readBlock {x : Layer} : Keeps KGood (readBlock q d x) :=
  keeps_kData.bind fun _ => .ite (keeps_kData.bind fun _ => .bind .pure fun _ => .pure) (.bind .pure fun _ => .pure)
theorem keeps_writePage {page : Nat} {bytes : List Byte} {e : Nat} {poison : List Bool} : Keeps KGood (writePage q d page bytes e poison) :=
  keeps_kRaw.bind fun _ => .ite keeps_kPoison .pure
theorem keeps_mapCap : Keeps KGood (mapCap q d) := keeps_kBytes.bind fun _ => keeps_kCheck.bind fun _ => .pure
theorem keeps_getCell {cap l c : Nat} : Keeps KGood (getCell q d cap l c) := keeps_kNum.bind fun _ => .pure
theorem keeps_putCell {cap l c : Nat} {x : Cell} : Keeps KGood (putCell q d cap l c x) := keeps_kPut
theorem keeps_markItem {running : Bool} {it : Item} : Keeps KGood (markItem running it) := by
  unfold markItem
  refine .getThen fun _ _ => ?_
  split
  · exact .pure
  · exact keeps_readDesc.bind fun _ => keeps_mapCap.bind fun _ => keeps_kFor fun _ => keeps_getCell.bind fun _ => .ite keeps_putCell .pure
@[simp] theorem setMarks_mem {l : List CellMark} : (setMarks s l).mem = s.mem := rfl
theorem good_doMarks {l : List CellMark} (g : Good s.mem) : Good (doMarks l s).mem := by
  induction l generalizing s with
  | nil => exact g
  | cons m t ih =>
    rw [doMarks]
    split
    · exact ih g
    · split
      · rename_i e
        exact ih (keeps_markItem.ok g e)
      · exact good_of_mem (by simp) g
      · exact ih g
theorem good_retryMarks (g : Good s.mem) : Good (retryMarks s).mem := good_doMarks g
theorem good_itemClaimed {running : Bool} {w : Option Nat} (g : Good s.mem) : Good (itemClaimed running s w).mem := by
  unfold itemClaimed
  split
  · exact g
  · exact good_doMarks g

/-! ### Frames, records, the end of a firing -/

@[simp] theorem updFrame_mem {n : BitVec 32} {g0 : Frame → Frame} : (updFrame s ctx n g0).mem = s.mem := rfl
theorem good_putItem {n : BitVec 32} {i : Nat} {it : QItem} (g : Good s.mem) : GoodOpt id (putItem s ctx n i it) := by
  unfold putItem
  split
  · exact g
  · split
    · exact g
    · split
      · exact g
      · split
        · trivial
        · exact good_of_mem updFrame_mem g
theorem good_putEvent {e : Event} (g : Good s.mem) : GoodOpt id (putEvent s ctx cl e) := by
  simp only [putEvent]
  split
  · exact g
  · split
    · exact good_of_mem (setCtx_mem ..) g
    · trivial
theorem good_tryHeld {x : HeldTo} (g : Good s.mem) : GoodOpt id (tryHeld s x) := by
  cases x with
  | queue c n i it => exact good_putItem g
  | event c k e => exact good_putEvent g
theorem good_deliver {h : HeldTo} (g : Good s.mem) : Good (deliver s h).mem := by
  simp only [deliver]
  split
  · exact g
  · split
    · rename_i e
      exact GoodOpt.get e (good_tryHeld g)
    · exact g
theorem good_deliverHeld {seen l : List HeldTo} (g : Good s.mem) : GoodOpt id (deliverHeld s seen l) := by
  induction l generalizing seen with
  | nil => trivial
  | cons h t ih =>
    rw [deliverHeld]
    split
    · exact ih
    · split
      · rename_i e
        have k := GoodOpt.get e (good_tryHeld g)
        exact k
      · exact ih
theorem good_postReply {r : Record} (g : Good s.mem) : Good (postReply s c r).mem := by
  unfold postReply
  split
  · exact g
  · exact good_mqReply g
  · split
    · exact good_deliver g
    · exact good_deliver g
    · exact good_of_mem (by simp) g
    · exact g
@[simp] theorem forgetEngEnds_mem : (forgetEngEnds s ctx).mem = s.mem := rfl
@[simp] theorem ackEngine_mem : (ackEngine s).mem = s.mem := rfl
theorem good_complete {engine : Byte} {status bytes result : Nat} (g : Good s.mem) : Good (Machine.complete s c engine status bytes result).mem :=
  good_postReply (good_of_mem forgetEngEnds_mem (good_ite (good_of_mem (by simp) g) g))
theorem good_postOwn {r : Record} (g : Good s.mem) : Good (postOwn s ctx cl r).mem := good_deliver g
@[simp] theorem clearWaits_mem {id : Ident} : (clearWaits s id).mem = s.mem := rfl
@[simp] theorem leaveEvents_mem : (leaveEvents s k ctx).mem = s.mem := by simp [leaveEvents]
@[simp] theorem forgetMisses_mem : (forgetMisses s k ctx).mem = s.mem := by simp [forgetMisses]
@[simp] theorem endHolds_mem {p : Hold → Bool} : (endHolds s p).mem = s.mem := rfl
theorem good_leaveAtomic (g : Good s.mem) : Good (leaveAtomic s k t).mem := by
  unfold leaveAtomic
  split
  · exact good_performAt g
  · exact g
theorem good_dropThread (g : Good s.mem) : Good (dropThread s k).mem := by
  unfold dropThread
  split
  · exact g
  · exact good_of_mem forgetMisses_mem (good_of_mem clearWaits_mem (good_of_mem endHolds_mem (good_leaveAtomic (good_of_mem (by simp) g))))
theorem good_dropBatch {b : Nat} (g : Good s.mem) : Good (dropBatch s b).mem := good_foldl (fun _ _ => good_dropThread) g
theorem good_unclaimCells {b : Batch} (g : Good s.mem) : Good (unclaimCells s b).mem :=
  good_foldl (fun _ _ g' => good_foldl (fun _ _ => good_itemClaimed) g') g
@[simp] theorem noteDrained_mem {d : Drain} : (noteDrained s d).mem = s.mem := rfl
@[simp] theorem withdrawFrames_mem {p : Frame → Bool} : (withdrawFrames p s).mem = s.mem := foldl_mem fun _ _ => noteDrained_mem
@[simp] theorem killFrame_mem {n : BitVec 32} : (killFrame s ctx n).mem = s.mem := by simp [killFrame]
theorem good_forwardFault {r : List Byte} (g : Good s.mem) : Good (forwardFault s r).mem := good_mqEvent _ g
theorem good_dispatchFault {f : Frame} {b : Batch} {r : List Byte} (g : Good s.mem) : Good (dispatchFault s f b r).mem := by
  unfold dispatchFault
  split
  · split
    · exact good_deliver g
    · exact good_forwardFault (good_of_mem (by simp) g)
  · split
    · split
      · exact good_ite (good_forwardFault (good_of_mem (by simp) g)) (good_deliver g)
      · exact good_forwardFault (good_of_mem (by simp) g)
    · exact good_forwardFault (good_of_mem (by simp) g)
theorem good_failBatch {f : Frame} {b : Batch} {code : BitVec 8} {detail pc : W64} {pos : BitVec 2} (g : Good s.mem) : Good
    (failBatch s f b code detail pc pos k).mem := by
  simp only [failBatch]
  split
  · exact good_of_mem updFrame_mem (good_unclaimCells g)
  · exact good_dispatchFault (good_of_mem updFrame_mem (good_unclaimCells g))
theorem good_killFiring {code : BitVec 8} {detail pc : W64} (g : Good s.mem) : Good (killFiring s k code detail pc).mem := by
  simp only [killFiring]
  split
  · exact g
  · split
    · exact good_dropBatch g
    · split
      · exact good_dropBatch g
      · exact good_failBatch (good_dropBatch g)
@[simp] theorem freeRanges_mem {l : List (Nat × Nat)} : (freeRanges s ctx l).mem = s.mem := by simp [freeRanges]
@[simp] theorem freeArena_mem {slots : List Nat} : (freeArena s ctx slots).mem = s.mem := by simp [freeArena]
theorem good_writeTile {f : Frame} {stage coord pos : Nat} {m : Tile} (g : Good s.mem) : Good (writeTile s f stage coord pos k m).mem := by
  unfold writeTile
  split
  · rw [setMem_mem]
    exact good_paWriteMem g
  · exact g
theorem good_killSaved {v : Saved} {code : BitVec 8} (g : Good s.mem) : Good (killSaved s v code k).mem := by
  unfold killSaved
  split
  · exact g
  · extract_lets unpinned _ ended freed
    have k : Good freed.mem := good_foldl (fun _ _ => good_of_mem clearWaits_mem) (good_of_mem freeArena_mem (good_of_mem endHolds_mem
      (good_of_mem (setWork_mem ..) (good_foldl (fun _ _ => good_of_mem (setCore_mem ..)) g))))
    split
    · exact k
    · split
      · exact k
      · exact good_failBatch k

/-! ### How an instruction runs -/

theorem good_leavePlacement (g : Good s.mem) : Good (leavePlacement s k).mem := by
  unfold leavePlacement
  extract_lets _ out killed
  have k : Good killed.mem := good_foldl (fun _ _ => good_killSaved) (good_of_mem (setCore_mem ..) g)
  exact good_ite (good_mqEvent _ (good_of_mem (setCluster_mem ..) k)) k
theorem good_noteSigFault {code : BitVec 8} (g : Good s.mem) : Good (noteSigFault s k code).mem :=
  good_ite (good_ite (good_leavePlacement (good_of_mem (by simp) g)) (good_of_mem (by simp) g)) g
@[simp] theorem noteTrap_mem {code : BitVec 8} : (noteTrap s k code).mem = s.mem := rfl
theorem good_takeTrap {exe : Bool} {code : BitVec 8} {detail : W64} (g : Good s.mem) : Good (takeTrap exe s code detail).mem := by
  unfold takeTrap
  split
  · exact g
  · split
    · exact g
    · exact good_ite (good_of_mem (by simp) g) (good_noteSigFault (good_killFiring (good_of_mem (by simp) g)))
@[simp] theorem retireCur_mem {pc : W64} : (retireCur hd pc s).mem = s.mem := by
  unfold retireCur
  split <;> simp
/-- however an instruction ends, a trap included -/
theorem good_finish {h : Hdr} {r : Res} (g : GoodRes r) : Good (finish h r).mem := by
  cases r with
  | done s => exact good_of_mem (by simp [finish]) g
  | jump s pc => exact good_of_mem (by simp [finish]) g
  | wait s => exact g
  | gone s => exact g
  | trap s c d => exact good_takeTrap g
theorem good_runState {h : Hdr} {f : Thread → State → Res} (k : ∀ t s, Good s.mem → GoodRes (f t s)) (g : Good s.mem) : GoodOut (runState h f s) := by
  unfold runState
  split
  · exact g
  · rename_i t _
    refine good_finish ?_
    split
    · exact k t s g
    · exact g
theorem good_onThread {f : Thread → Except Stop Thread} (g : Good s.mem) : GoodRes (onThread f t s) := by
  unfold onThread
  split
  · exact good_of_mem (by simp) g
  · exact g
  · exact g
theorem good_runThread {f : Thread → Except Stop Thread} (g : Good s.mem) : GoodOut (runThread hd f s) := good_runState (fun _ _ => good_onThread) g
theorem good_orStop {c : Except Stop Unit} {k : Res} (g : Good s.mem) (h : GoodRes k) : GoodRes (orStop s c k) := by
  unfold orStop
  split
  · exact h
  · exact g
  · exact g
end
end Sys2Proof.Proofs.Canonical

/-! ## Canonical memory: accesses and the instructions of threads (O6) -/
namespace Sys2Proof.Proofs.Canonical
open Sys2Proof Sys2Proof.Machine Sys2Proof.Laws.State Sys2Proof.Laws.Ops Sys2Proof.Proofs.Device

section
variable {held s : State} {t : Thread} {c : Cmd} {q : Seq} {d : Desc} {w : Who} {hd : Hdr} {ctx : BitVec 12} {k n cl va : Nat}

/-! ### Fetches and the execute turn -/

theorem good_fetchF {fuel : Nat} (g : Good s.mem) : GoodFetched (fetchF k ctx fuel va n s) := by
  induction fuel generalizing va n s with
  | zero => exact g
  | succ fuel ih =>
    simp only [fetchF]
    split
    · exact g
    · have found : GoodTrEnd (Machine.translate s k ctx va .fetch) := good_translate g
      split <;> rename_i e <;> rw [e] at found
      · exact found
      · exact found
      · split
        · exact found
        · split
          · exact found
          · have loaded := fun x => good_loadSector k ctx x found
            split
            · exact loaded _
            · split
              · rename_i e
                have rest := of_eq e (ih (loaded _))
                exact rest
              · exact ih (loaded _)
theorem good_fetchWord {pc : W64} (g : Good s.mem) : GoodFetched (fetchWord s k t pc) := good_fetchF g
theorem good_runAgent {h : Hdr} {i : Instr} {f : Thread → State → Res} (k : ∀ t s, Good s.mem → GoodRes (f t s)) (g : Good s.mem) : GoodOut
    (runAgent h i f s) := by
  unfold runAgent
  split
  · exact g
  · split
    · exact good_runState k g
    · exact good_takeTrap g
theorem good_trapAt {pc : W64} {exe : Bool} {code : BitVec 8} {detail : W64} (g : Good s.mem) : Good (trapAt s k pc exe code detail).mem :=
  good_takeTrap g
theorem good_routeWord {pc : W64} {w mask : IWord} (g : Good s.mem) : GoodReady (routeWord s k t pc w mask) := by
  unfold routeWord
  split
  · split
    · exact good_trapAt g
    · split <;> exact g
  · split
    · exact g
    · exact good_of_mem (by simp) g
theorem good_accessTurn (g : Good s.mem) : GoodReady (accessTurn s k) := by
  unfold accessTurn
  split
  · exact g
  · rename_i t _
    dsimp only
    have fetched : ∀ pc s, Good s.mem → GoodFetched (fetchWord s k t pc) := fun _ _ g => good_fetchWord g
    split
    · exact g
    · split
      · exact good_trapAt g
      · exact g
      · have h := fetched t.pc s g
        split
        · rename_i e
          rw [e] at h
          exact h
        · rename_i e
          rw [e] at h
          exact good_trapAt h
        · rename_i e
          rw [e] at h
          split
          · split
            · exact good_trapAt h
            · exact h
            · have h' := fetched (t.pc + 12) _ h
              split <;> rename_i e' <;> rw [e'] at h'
              · exact h'
              · exact good_trapAt h'
              · exact good_routeWord h'
          · exact good_routeWord h
theorem good_executeTurn (g : Good s.mem) : GoodReady (executeTurn s k) := by
  unfold executeTurn
  split
  · exact g
  · split
    · exact g
    · split
      · exact g
      · exact good_of_mem (by simp) g
      · split
        · exact good_trapAt g
        · exact g

/-! ### The access half -/

theorem keeps_aWait {α : Type} : Keeps AGood (aWait : AM α) := ⟨fun _ g => g⟩
theorem keeps_aTrap {α : Type} {code : BitVec 8} {detail : W64} : Keeps AGood (aTrap code detail : AM α) := ⟨fun _ g => g⟩
theorem keeps_aStop {α : Type} {x : Stop} : Keeps AGood (aStop x : AM α) := by
  cases x with
  | wait => exact keeps_aWait
  | trap c d => exact keeps_aTrap
theorem keeps_aLift {α : Type} {r : Except Stop α} : Keeps AGood (aLift r) := by
  cases r with
  | error x => exact keeps_aStop
  | ok a => exact .pure
theorem keeps_aUnless {ok : Bool} {x : Stop} : Keeps AGood (aUnless ok x) := .ite .pure keeps_aStop
theorem keeps_aState : Keeps AGood aState := .get
theorem keeps_aMod {f : State → State} (h : ∀ s, Good s.mem → Good (f s).mem) : Keeps AGood (aMod f) := ⟨h⟩
theorem keeps_aEach {α β : Type} {f : α → AM β} {l : List α} (h : ∀ a, Keeps AGood (f a)) : Keeps AGood (aEach f l) := by
  induction l with
  | nil => exact .pure
  | cons a t ih => exact (h a).bind fun _ => ih.bind fun _ => .pure
theorem keeps_aFor {α : Type} {f : α → AM Unit} {l : List α} (h : ∀ a, Keeps AGood (f a)) : Keeps AGood (aFor f l) := by
  induction l with
  | nil => exact .pure
  | cons a t ih => exact (h a).bind fun _ => ih
theorem good_runA {f : Thread → AM Thread} (h : ∀ t, Keeps AGood (f t)) (g : Good s.mem) : GoodRes (runA f t s) := by
  unfold runA
  split
  · rename_i e
    exact good_of_mem (setCur_mem ..) ((h t).ok g e)
  · rename_i e
    exact (h t).error g e
  · rename_i e
    exact (h t).error g e
theorem keeps_aFeature : Keeps AGood (aFeature n) := .getThen fun _ _ => keeps_aUnless
theorem keeps_aXlat {need : Need} : Keeps AGood (aXlat w va need) := by
  refine ⟨fun s g => ?_⟩
  have k := good_translate (k := w.k) (ctx := w.ctx) (va := va) (need := need) g
  unfold aXlat
  split <;> simp_all
theorem keeps_aGo {need : Need} {home : Bool} : Keeps AGood (aGo w va need home) :=
  keeps_aXlat.bind fun _ => keeps_aUnless.bind fun _ => .getThen fun _ _ => .ite keeps_aWait .pure
theorem keeps_aPlain {need : Need} : Keeps AGood (aPlain w va need) := keeps_aGo
theorem keeps_aHome {need : Need} : Keeps AGood (aHome w va need) := keeps_aGo
theorem keeps_aSector : Keeps AGood (aSector w va) :=
  keeps_aPlain.bind fun _ => .bind ⟨fun _ g => good_loadSector _ _ _ g⟩ fun _ => keeps_aUnless.bind fun _ => .pure
theorem keeps_aLoadF {fuel : Nat} : Keeps AGood (aLoadF w fuel va n) := by
  induction fuel generalizing va n with
  | zero => exact .pure
  | succ fuel ih => exact .ite .pure (keeps_aSector.bind fun _ => ih.bind fun _ => .pure)
theorem keeps_aReadyF {fuel : Nat} : Keeps AGood (aReadyF w fuel va n) := by
  induction fuel generalizing va n with
  | zero => exact .pure
  | succ fuel ih => exact .ite .pure (keeps_aPlain.bind fun _ => ih)
@[simp] theorem notePeer_mem {x : Xlat} : (notePeer s k x).mem = s.mem := by
  grind [notePeer, setThreadOf_mem]
theorem keeps_aStoreF {tag strm : Bool} {fuel v : Nat} : Keeps AGood (aStoreF w tag strm fuel va n v) := by
  induction fuel generalizing va n v with
  | zero => exact .pure
  | succ fuel ih =>
    exact .ite .pure (keeps_aXlat.bind fun _ => (keeps_aMod fun _ g => good_of_mem notePeer_mem (good_storeSector _ _ _ _ g)).bind fun _ => ih)
theorem keeps_aLoad {cap : W192} : Keeps AGood (aLoad w cap va n) := .ite (keeps_aUnless.bind fun _ => .getThen fun _ _ => .pure) keeps_aLoadF
theorem keeps_aReady {cap : W192} : Keeps AGood (aReady w cap va n) := .ite keeps_aUnless keeps_aReadyF
theorem keeps_aStore {cap : W192} {v : Nat} {tag strm : Bool} : Keeps AGood (aStore w cap va n v tag strm) :=
  .ite (keeps_aMod fun _ g => good_of_mem (by simp) g) keeps_aStoreF
theorem keeps_aElem {d : Stream} {i : Nat} : Keeps AGood (aElem w d i) := by
  unfold aElem
  split
  · exact .pure
  · exact keeps_aLift.bind fun _ => keeps_aLoad.bind fun _ => .pure
theorem keeps_aElems {d : Stream} {i : Nat} : Keeps AGood (aElems w d i n) := keeps_aEach fun _ => keeps_aElem
theorem keeps_aElemReady {d : Stream} {i : Nat} : Keeps AGood (aElemReady w d i) := by
  unfold aElemReady
  split
  · exact .pure
  · exact keeps_aLift.bind fun _ => keeps_aReady
theorem keeps_aOldByte {d : Stream} : Keeps AGood (aOldByte w d va) :=
  .ite (.getThen fun _ _ => .pure) (keeps_aXlat.bind fun _ => .bind ⟨fun _ g => good_loadSector _ _ _ g⟩ fun _ => .pure)
theorem keeps_aElemStore {d : Stream} {i v : Nat} : Keeps AGood (aElemStore w d i v) := by
  unfold aElemStore
  split
  · exact .pure
  · exact .ite (keeps_aOldByte.bind fun _ => keeps_aStore) keeps_aStore
theorem keeps_aElemsStore {d : Stream} {i : Nat} {vs : List Nat} : Keeps AGood (aElemsStore w d i vs) :=
  (keeps_aFor fun _ => keeps_aElemReady).bind fun _ => keeps_aFor fun _ => keeps_aElemStore
theorem keeps_aSkipEntry {d : Stream} : Keeps AGood (aSkipEntry w d) := by
  unfold aSkipEntry
  split
  · exact .pure
  · exact .ite .pure (keeps_aLift.bind fun _ => keeps_aLoad.bind fun _ => .pure)
theorem keeps_aSkipF {fuel : Nat} {d : Stream} {kk : Nat} : Keeps AGood (aSkipF w fuel d kk) := by
  induction fuel generalizing d kk with
  | zero => exact .pure
  | succ fuel ih =>
    cases kk with
    | zero => exact .pure
    | succ kk =>
      refine keeps_aSkipEntry.bind fun ⟨e, d⟩ => ?_
      cases e with
      | none => exact .pure
      | some e => exact .ite .pure (ih.bind fun _ => .pure)
theorem keeps_aSkip {d : Stream} {kk : Nat} : Keeps AGood (aSkip w d kk) := keeps_aSkipF
theorem good_sendAtomic {x : Xlat} {f : Nat → Nat} (g : Good s.mem) : Good (sendAtomic w x n f s).mem := by
  simp only [sendAtomic]
  split
  · exact good_of_mem (setThreadOf_mem ..) (good_of_mem notePeer_mem (good_beforeAtomic g))
  · exact good_of_mem notePeer_mem (good_beforeAtomic g)
theorem keeps_aAtomicPage {f : Nat → Nat} : Keeps AGood (aAtomicPage w va n f) :=
  keeps_aXlat.bind fun _ => keeps_aUnless.bind fun _ => .getThen fun _ _ => .ite keeps_aWait (.ite ((keeps_aMod fun _ =>
    good_sendAtomic).bind fun _ => keeps_aWait) .pure)
theorem keeps_aAtomic {acq rel : Bool} {scope : BitVec 3} {f : Nat → Nat} : Keeps AGood (aAtomic w va n acq rel scope f) :=
  keeps_aAtomicPage.bind fun _ => .getThen fun _ _ => .before keeps_aWait fun _ => (keeps_aMod fun _ => good_beforeAtomic).bind fun _ =>
    .before (keeps_aMod fun _ => good_drainRecords) fun _ => (keeps_aMod fun _ => good_reachHome).bind fun _ => .getThen fun _ _ =>
    keeps_aUnless.bind fun _ => .before (keeps_aMod fun _ => good_releaseAt) fun _ => (keeps_aMod fun _ g =>
    good_of_mem notePeer_mem (good_mergeHome _ _ _ _ _ g)).bind fun _ => .before (keeps_aMod fun _ => good_acquireLocal _ _) fun _ => .pure

/-! ### Loads, stores, streams, fences, atomics -/

theorem good_runM {h : Hdr} {f : Who → Thread → AM Thread} (k : ∀ w t, Keeps AGood (f w t)) (g : Good s.mem) : GoodOut (runM h f s) :=
  good_runState (fun _ _ => good_runA (k _)) g
theorem keeps_aAddr {cap : CReg} {off : BitVec 16} {kinds : List Nat} {p : BitVec 7} {z : Nat} : Keeps AGood (aAddr cap off kinds p z) :=
  keeps_aLift.bind fun _ => keeps_aUnless.bind fun _ => .pure
theorem keeps_aAddrMem {cap : CReg} {off : BitVec 16} {p : BitVec 7} {z : Nat} : Keeps AGood (aAddrMem cap off p z) :=
  keeps_aLift.bind fun _ => keeps_aAddr
theorem good_wordFill {base : Nat} (g : Good s.mem) : Good (wordFill w base s).mem := good_foldl (fun _ _ g' => good_readHome _ _ g') g
theorem keeps_aWord {cap : CReg} {o : MemOps} {x : Xlat} : Keeps AGood (aWord w cap o va x) :=
  keeps_aFeature.bind fun _ => keeps_aUnless.bind fun _ => keeps_aLift.bind fun _ => (keeps_aMod fun _ => good_wordFill).bind fun _ =>
    .getThen fun _ _ => keeps_aUnless.bind fun _ => .getThen fun _ _ => .pure
theorem keeps_ldAM {o : MemOps} : Keeps AGood (ldAM o w t) :=
  keeps_aAddr.bind fun _ => .ite (keeps_aLoad.bind fun _ => keeps_aLift) (keeps_aXlat.bind fun _ => .ite (.getThen fun _ _ =>
    .bind (.ite keeps_aWait keeps_aWord) fun _ => keeps_aLift) (keeps_aLoad.bind fun _ => keeps_aLift))
theorem keeps_ldcAM {o : MemOps} : Keeps AGood (ldcAM o w t) :=
  keeps_aAddr.bind fun _ => keeps_aLoad.bind fun _ => .ite (.getThen fun _ _ => .bind .pure fun _ => .pure) (keeps_aSector.bind fun ⟨_, _⟩ =>
    .bind .pure fun _ => .pure)
theorem keeps_ldaAM {o : MemOps} : Keeps AGood (ldaAM o w t) :=
  keeps_aAddrMem.bind fun _ => keeps_aHome.bind fun _ => .ite (keeps_aLoad.bind fun _ => keeps_aLift) (.getThen fun _ _ =>
    .before keeps_aWait fun _ => (keeps_aMod fun _ g' => good_acquireAt (good_beforeAtomic g')).bind fun _ => (keeps_aMod fun _ =>
    good_reachHome).bind fun _ => .getThen fun _ _ => keeps_aUnless.bind fun _ => keeps_aLift)
theorem keeps_stAM {o : MemOps} : Keeps AGood (stAM o w t) :=
  keeps_aAddr.bind fun _ => keeps_aReady.bind fun _ => keeps_aLift.bind fun ⟨_, _⟩ => keeps_aStore.bind fun _ => .pure
theorem keeps_stcAM {o : MemOps} : Keeps AGood (stcAM o w t) :=
  keeps_aAddr.bind fun _ => keeps_aReady.bind fun _ => .ite (keeps_aUnless.bind fun _ => .ite (keeps_aStore.bind fun _ =>
    .pure) (keeps_aUnless.bind fun _ => keeps_aXlat.bind fun _ => keeps_aUnless.bind fun _ => keeps_aStore.bind fun _ =>
    .pure)) (keeps_aStore.bind fun _ => .pure)
theorem keeps_strAM {o : MemOps} : Keeps AGood (strAM o w t) :=
  keeps_aAddrMem.bind fun _ => keeps_aHome.bind fun _ => .getThen fun _ _ => .before keeps_aWait fun _ => keeps_aLift.bind fun ⟨_, _⟩ =>
    .ite (keeps_aStore.bind fun _ => .pure) ((keeps_aMod fun _ g' => good_of_mem notePeer_mem (good_storeHome (good_releaseAt g'))).bind fun _ =>
    .pure)
theorem good_prefSector {none_ : Bool} {x : Xlat} (g : Good s.mem) : Good (prefSector w none_ x s).mem :=
  good_ite g (good_ite (good_readHome _ _ g) (good_loadSector _ _ _ g))
theorem keeps_prefAM {o : MemOps} : Keeps AGood (prefAM hd o w t) := by
  simp only [prefAM]
  split
  · exact .pure
  · refine .getThen fun _ _ => ?_
    split
    · exact .pure
    · exact .ite keeps_aWait ((keeps_aFor fun _ => keeps_aMod fun _ => good_prefSector).bind fun _ => .pure)
theorem keeps_aDefine {n : BitVec 4} {d : Stream} : Keeps AGood (aDefine t n d) := keeps_aLift
theorem keeps_sdefLinear {a : CReg} {eb : Nat} : Keeps AGood (sdefLinear a eb) :=
  .ite .pure (keeps_aUnless.bind fun _ => keeps_aUnless.bind fun _ => .pure)
theorem keeps_aDesc {b : CReg} : Keeps AGood (aDesc w b) := keeps_aLift.bind fun _ => keeps_aLoad.bind fun _ => .pure
theorem keeps_sdefStrided {a b : CReg} {eb : Nat} : Keeps AGood (sdefStrided w a b eb) :=
  keeps_aDesc.bind fun _ => keeps_aUnless.bind fun _ => keeps_aUnless.bind fun _ => keeps_aUnless.bind fun _ => .pure
theorem keeps_sdefAM {o : SdefOps} : Keeps AGood (sdefAM o w t) :=
  keeps_aLift.bind fun _ => .either keeps_sdefLinear keeps_sdefStrided fun _ => keeps_aDefine
theorem keeps_sdefwAM {o : SdefwOps} : Keeps AGood (sdefwAM o w t) :=
  keeps_aLift.bind fun _ => keeps_aDesc.bind fun _ => keeps_aUnless.bind fun _ => keeps_aDefine
theorem keeps_sdefsAM {o : SdefsOps} {x : Who} : Keeps AGood (sdefsAM o x t) :=
  keeps_aFeature.bind fun _ => keeps_aLift.bind fun _ => keeps_aUnless.bind fun _ => keeps_aDefine
theorem keeps_aStream {n : BitVec 4} {ok : StreamKind → Bool} : Keeps AGood (aStream t n ok) := by
  unfold aStream
  split
  · exact keeps_aTrap
  · exact .ite .pure keeps_aTrap
theorem keeps_roomL {n : BitVec 2} : Keeps AGood (roomL t n k) := .ite .pure keeps_aWait
theorem keeps_sldAM {o : SldOps} : Keeps AGood (sldAM o w t) :=
  keeps_aStream.bind fun _ => keeps_roomL.bind fun _ => keeps_aElems.bind fun _ => keeps_aLift
theorem keeps_sstAM {o : SstOps} : Keeps AGood (sstAM o w t) :=
  keeps_aStream.bind fun _ => keeps_aLift.bind fun ⟨_, _⟩ => keeps_aElemsStore.bind fun _ => .pure
@[simp] theorem ackPorts_mem : (ackPorts s k).mem = s.mem := rfl
theorem keeps_fenceAM {o : FenceOps} : Keeps AGood (fenceAM o w t) :=
  .getThen fun _ _ => .ite keeps_aWait ((keeps_aMod fun _ g' => good_of_mem ackPorts_mem (good_fenceOp _ _ _ g')).bind fun _ =>
    .ite ((keeps_aMod fun _ g' => good_of_mem (by simp) g').bind fun _ => .pure) .pure)
theorem good_maintCore {op : Maint} {r : Nat × Nat} {j : Nat} (g : Good s.mem) : Good (maintCore op r s j).mem := by
  simp only [maintCore]
  split
  · exact good_of_mem (setCore_mem ..) (good_ite (good_writeBacks _ _ g) g)
  · exact good_ite (good_writeBacks _ _ g) g
theorem good_maintRange {op : Maint} {scope : BitVec 3} {r : Nat × Nat} (g : Good s.mem) : Good (maintRange op k scope r s).mem := by
  unfold maintRange
  extract_lets cores keys written
  have k : Good cores.mem := good_foldl (fun _ _ => good_maintCore) g
  have k' : Good written.mem := good_ite (goodMem_foldl (fun _ _ => good_l2Clean _) k) k
  exact good_ite (goodMem_foldl (fun _ _ => good_l2Drop _) k') k'
@[simp] theorem claimFlits_mem {before : State} : (claimFlits k before s).mem = s.mem := by
  simp only [claimFlits]
  split <;> simp
theorem keeps_aSpans {need : Need} {ok : W64 → Bool} {fuel lo hi : Nat} : Keeps AGood (aSpans w need ok fuel lo hi) := by
  induction fuel generalizing lo hi with
  | zero => exact .pure
  | succ fuel ih =>
    refine .ite .pure (keeps_aState.bind fun s => ?_)
    split
    · exact ih
    · exact keeps_aXlat.bind fun _ => keeps_aUnless.bind fun _ => keeps_aState.bind fun _ => ih.bind fun _ => .pure
theorem keeps_maintAM {op : Maint} {need : Need} {p : BitVec 7} {aligned : Bool} {o : LineOps} : Keeps AGood (maintAM op need p aligned o w t) :=
  keeps_aLift.bind fun _ => keeps_aUnless.bind fun _ => keeps_aUnless.bind fun _ => keeps_aSpans.bind fun _ => (keeps_aMod fun _ g =>
    good_of_mem claimFlits_mem (good_foldl (fun _ _ => good_maintRange) g)).bind fun _ => .pure
theorem keeps_aLines {a : CReg} : Keeps AGood (aLines a) := keeps_aLift.bind fun _ => keeps_aUnless.bind fun _ => keeps_aUnless.bind fun _ => .pure
theorem good_pinLines {all new : List Nat} (g : Good s.mem) : Good (pinLines s k all new).mem :=
  good_foldl (fun _ _ g' => good_makeWays _ _ _ _ _ g') g
theorem keeps_spallocAM {o : SpOps} : Keeps AGood (spallocAM o w t) :=
  keeps_aLines.bind fun _ => .getThen fun _ _ => .ite .pure ((keeps_aMod fun _ => good_pinLines).bind fun _ => .pure)
theorem keeps_spfreeAM {o : SpOps} : Keeps AGood (spfreeAM o w t) :=
  keeps_aLines.bind fun _ => (keeps_aMod fun _ g => good_of_mem (by simp) g).bind fun _ => .pure
theorem keeps_atomAM {f : Nat → Nat → Nat → Nat → Nat} {signed : Bool} {o : AtomOps} : Keeps AGood (atomAM f signed o w t) :=
  keeps_aFeature.bind fun _ => keeps_aAddr.bind fun _ => keeps_aAtomic.bind fun _ => .pure
theorem keeps_aRedWord {o : RedOps} {off : Nat} : Keeps AGood (aRedWord w o t off n) :=
  keeps_aLift.bind fun _ => keeps_aUnless.bind fun _ => keeps_aXlat.bind fun _ => keeps_aUnless.bind fun _ => .getThen fun _ _ =>
    .ite keeps_aWait .pure
theorem keeps_raddAM {o : RedOps} : Keeps AGood (raddAM o w t) :=
  keeps_aFeature.bind fun _ => keeps_aUnless.bind fun _ => keeps_aRedWord.bind fun _ => (keeps_aMod fun _ g =>
    good_mergeHome _ _ _ _ _ g).bind fun _ => .pure
theorem keeps_rclrAM {o : RedOps} : Keeps AGood (rclrAM o w t) :=
  keeps_aFeature.bind fun _ => keeps_aRedWord.bind fun _ => (keeps_aMod fun _ g => good_foldl (fun _ _ g' =>
    good_performAt (good_of_mem (by simp) g')) (good_orderHome _ _ g)).bind fun _ => .pure

/-! ### The Joiner -/

@[simp] theorem refreshReady_mem : (refreshReady s).mem = s.mem := rfl
@[simp] theorem askPreempt_mem {why : Preempt} : (askPreempt why s k).mem = s.mem := by
  grind [askPreempt, setThreadOf_mem]
@[simp] theorem preemptFor_mem {c : Cand} : (preemptFor s cl c).mem = s.mem := by
  grind [preemptFor, askPreempt_mem, foldl_mem]
@[simp] theorem rotateFor_mem {c : Cand} : (rotateFor s cl c).mem = s.mem := by
  grind [rotateFor, askPreempt_mem, foldl_mem]

/-! ### Control flow and traps -/

theorem good_branchTo {t0 : Thread} {target : W64} {link : Option (BitVec 6)} (g : Good s.mem) : GoodRes (branchTo hd s t0 t target link) := by
  unfold branchTo
  split
  · exact g
  · split
    · exact g
    · exact good_of_mem (by simp) g
theorem good_branchReg {a b : Opd} {link : Option (BitVec 6)} (g : Good s.mem) : GoodRes (branchReg hd a b link t s) := by
  unfold branchReg
  split
  · exact g
  · exact g
  · split
    · exact g
    · exact g
    · exact good_branchTo g
theorem good_execBr {o : BrOps} (g : Good s.mem) : GoodOut (execBr hd o s) := good_runState (fun _ _ => good_branchTo) g
theorem good_execCall {o : CallOps} (g : Good s.mem) : GoodOut (execCall hd o s) := good_runState (fun _ _ => good_branchTo) g
theorem good_execLoop {o : CallOps} (g : Good s.mem) : GoodOut (execLoop hd o s) := by
  simp only [execLoop]
  refine good_runState (fun _ _ g' => ?_) g
  split
  · exact good_of_mem (by simp) g'
  · exact good_branchTo g'
theorem good_execTrap {o : TrapOps} (g : Good s.mem) : GoodOut (execTrap hd o s) := good_runState (fun _ _ g' => g') g
theorem good_sigFault {crc : BitVec 32} (g : Good s.mem) : GoodRes (sigFault s t crc) := g
theorem good_execSig {o : SigOps} (g : Good s.mem) : GoodOut (execSig hd o s) := by
  unfold execSig
  refine good_runState (fun _ _ g' => ?_) g
  split
  · exact good_of_mem (by simp) g'
  · exact good_sigFault g'

/-! ### Tiles and gangs -/

theorem keeps_aAt {α : Type} {pc : W64} {f : AM α} (h : Keeps AGood f) : Keeps AGood (aAt k pc f) := by
  refine ⟨fun s g => ?_⟩
  unfold aAt
  split
  · rename_i e
    exact h.error g e
  · exact h.ends s g
@[simp] theorem backRegs_mem {ts : List (Nat × Thread)} : (backRegs ts s).mem = s.mem := by
  grind [backRegs, setThreadOf_mem, foldl_mem]
theorem good_gangIssue {check : Except Stop Unit} {eff : Nat → Nat → AM Unit} (h : ∀ k b, Keeps AGood (eff k b)) (g : Good s.mem) : GoodRes
    (gangIssue check eff t s) := by
  have joint : ∀ k b s, Good s.mem → GoodExc AGood Prod.snd (eff k b s) := fun k b => (h k b).ends
  grind [gangIssue, good_orStop, backRegs_mem, setCur_mem, GoodRes, GoodExc, AGood]
@[simp] theorem setThreads_mem {ts : List (Nat × Thread)} : (setThreads s ts).mem = s.mem := foldl_mem fun _ _ => setThreadOf_mem ..
theorem keeps_mgangEff {b : Nat} : Keeps AGood (mgangEff n k b) :=
  .getThen fun _ _ => keeps_aUnless.bind fun _ => keeps_aMod fun _ g' => good_of_mem (by simp) g'
theorem keeps_aFormat {d : Stream} {fb : Nat} : Keeps AGood (aFormat w d fb n) := keeps_aElems.bind fun _ => .pure
theorem keeps_useStream {α : Type} [Inhabited α] {n : BitVec 4} {f : Stream → AM (α × Stream)} (h : ∀ d, Keeps AGood (f d)) : Keeps AGood
    (useStream k n f) := by
  have put : ∀ d : Stream, Keeps AGood (aMod fun s => match threadOf s k with | some t => setThreadOf s k (setS t n (some d)) | none => s) := by
    refine fun d => keeps_aMod fun s g => ?_
    split
    · exact good_of_mem (setThreadOf_mem ..) g
    · exact g
  refine keeps_aState.bind fun s => ?_
  split
  · exact .pure
  · split
    · exact .pure
    · exact (h _).bind fun _ => (put _).bind fun _ => .pure
theorem keeps_readRows {fb : Nat} {dense : List Bool} {d : Stream} : Keeps AGood (readRows w fb dense d) := keeps_aFormat.bind fun ⟨_, _⟩ => .pure
theorem keeps_readColsF {fb : Nat} {l : List Bool} {d : Stream} : Keeps AGood (readColsF w fb l d) := by
  induction l generalizing d with
  | nil => exact .pure
  | cons b t ih => exact .either keeps_aFormat .pure fun _ => ih.bind fun _ => .pure
theorem keeps_readCols {fb : Nat} {dense : List Bool} {d : Stream} : Keeps AGood (readCols w fb dense d) := keeps_readColsF.bind fun ⟨_, _⟩ => .pure
theorem keeps_readScales {scale : BitVec 2} {groups : Nat} {byRow : Bool} {d : Stream} : Keeps AGood (readScales w scale n groups byRow d) := by
  unfold readScales
  split <;> exact keeps_aFormat.bind fun ⟨_, _⟩ => .pure
theorem keeps_scalesOr {o : MatOps} {present : Bool} {n : BitVec 4} {lines groups : Nat} {byRow : Bool} : Keeps AGood
    (scalesOr k w o present n lines groups byRow) :=
  .ite (keeps_useStream fun _ => keeps_readScales) .pure
theorem keeps_readA {o : MatOps} {dense : List Bool} {x : Nat × Thread} : Keeps AGood (readA o dense x) :=
  keeps_aAt (keeps_useStream fun _ => keeps_readRows)
theorem keeps_readB {o : MatOps} {dense : List Bool} {x : Nat × Thread} : Keeps AGood (readB o dense x) :=
  keeps_aAt (keeps_useStream fun _ => keeps_readCols)
theorem keeps_readSa {o : MatOps} {x : Nat × Thread} : Keeps AGood (readSa o x) := keeps_aAt keeps_scalesOr
theorem keeps_readSb {o : MatOps} {x : Nat × Thread} : Keeps AGood (readSb o x) := keeps_aAt keeps_scalesOr
theorem keeps_readSkip {kk : Nat} {x : Nat × Thread} : Keeps AGood (readSkip kk x) := by
  unfold readSkip
  refine keeps_aAt ?_
  split
  · exact keeps_useStream fun _ => keeps_aSkip
  · exact .pure
@[simp] theorem finishMat_mem {o : MatOps} {p : Pair} {dense : List Bool} {rows : Nat → Option (Line × List Line)} :
    (finishMat o p dense rows k s).mem = s.mem := by
  unfold finishMat
  split <;> simp
theorem keeps_gangChecks {ts : List (Nat × Thread)} {o : MatOps} {skips : List (List SkipRun)} : Keeps AGood (gangChecks ts o skips) := by
  unfold gangChecks
  refine keeps_aUnless.bind fun _ => ?_
  split
  · exact keeps_aTrap
  · exact keeps_aUnless.bind fun _ => .pure
theorem keeps_mmulEff {o : MatOps} {b : Nat} : Keeps AGood (mmulEff o k b) :=
  .getThen fun _ _ => keeps_aUnless.bind fun _ => (keeps_aEach fun _ => keeps_readSkip).bind fun _ => keeps_gangChecks.bind fun _ =>
    (keeps_aEach fun _ => keeps_readA).bind fun _ => (keeps_aEach fun _ => keeps_readB).bind fun _ => (keeps_aEach fun _ =>
    keeps_readSa).bind fun _ => (keeps_aEach fun _ => keeps_readSb).bind fun _ => keeps_aFor fun _ => keeps_aMod fun _ g' => good_of_mem (by simp) g'
theorem keeps_mgrpEff {o : MatOps} {b : Nat} : Keeps AGood (mgrpEff o k b) := by
  refine .getThen fun _ _ => keeps_aUnless.bind fun _ => keeps_gangChecks.bind fun _ => keeps_aUnless.bind fun _ => .ite ?_ ?_
  · refine keeps_aFor fun _ => keeps_aMod fun _ g => ?_
    split
    · exact good_of_mem (by simp) g
    · exact g
  · exact (keeps_aEach fun _ => keeps_readA).bind fun _ => (keeps_aEach fun _ => keeps_aEach fun _ => .ite .pure keeps_readB).bind fun _ =>
      (keeps_aEach fun _ => keeps_readSa).bind fun _ => (keeps_aEach fun _ => keeps_aEach fun _ => .ite .pure keeps_readSb).bind fun _ =>
      keeps_aFor fun _ => keeps_aMod fun _ => good_of_mem finishMat_mem
theorem good_execMmul {o : MatOps} (g : Good s.mem) : GoodOut (execMmul hd o s) :=
  good_runState (fun _ _ g' => good_gangIssue (fun _ _ => keeps_mmulEff) g') g
theorem good_execMgrp {o : MatOps} (g : Good s.mem) : GoodOut (execMgrp hd o s) :=
  good_runState (fun _ _ g' => good_gangIssue (fun _ _ => keeps_mgrpEff) g') g
theorem good_mldRes {o : TileOps} (g : Good s.mem) : GoodRes (mldRes o t s) := by
  simp only [mldRes]
  split <;> split <;> split <;> exact good_of_mem (by simp) g
theorem good_mstRes {o : TileOps} (g : Good s.mem) : GoodRes (mstRes o t s) := by
  simp only [mstRes]
  split <;> split <;> split <;> exact good_of_mem (by simp) g
theorem good_mstatRes {o : TileOps} (g : Good s.mem) : GoodRes (mstatRes o t s) := by
  simp only [mstatRes]
  split
  · exact good_of_mem (by simp) g
  · exact g
theorem keeps_mdrainAM {o : MatOps} : Keeps AGood (mdrainAM o w t) :=
  keeps_aLift.bind fun _ => keeps_aUnless.bind fun _ => keeps_aStore.bind fun _ => .pure
theorem good_drainAddRes {o : MatOps} {seq : Option (BitVec 16)} (g : Good s.mem) : GoodRes (drainAddRes o seq t s) := by
  unfold drainAddRes
  extract_lets a d
  refine good_orStop g ?_
  split
  · exact g
  · split
    · exact g
    · split
      · exact g
      · exact good_of_mem (by simp) g
theorem good_execMdrain {o : MatOps} (g : Good s.mem) : GoodOut (execMdrain hd o s) :=
  good_runState (fun _ _ g' => good_orStop g' (good_runA (fun _ => keeps_mdrainAM) g')) g
theorem good_applyDrain {d : Drain} (g : Good s.mem) : Good (applyDrain s d).mem := by
  unfold applyDrain
  split
  · exact g
  · exact good_of_mem updFrame_mem (good_writeTile g)
theorem good_serveDrain (g : Good s.mem) : Good (serveDrain s).mem := by
  unfold serveDrain
  split
  · exact g
  · exact good_of_mem noteDrained_mem (good_ite (good_applyDrain (good_of_mem (by simp) g)) (good_of_mem (by simp) g))

/-! ### Phasers -/

@[simp] theorem phSet_mem {i : PhId} {p : Phaser} : (phSet s i p).mem = s.mem := by
  unfold phSet
  split <;> simp
theorem good_phAdvance {i : PhId} {p : Phaser} (g : Good s.mem) : Good (phAdvance s i p).mem := by
  unfold phAdvance
  split
  · split
    · exact good_of_mem phSet_mem g
    · split
      · rename_i e
        exact good_of_mem phSet_mem (GoodExc.get e (good_engWrite g))
      · rename_i e
        have stopped := of_eq e (good_engWrite g)
        exact good_of_mem phSet_mem stopped
      · exact good_postOwn (good_of_mem (by simp) g)
  · exact good_of_mem phSet_mem g
theorem good_phArrive {i : PhId} {p : Phaser} (g : Good s.mem) : Good (phArrive s i p).mem := good_ite (good_phAdvance g) (good_of_mem (by simp) g)
theorem good_phRunB {blocked : State → Thread → Res} {o : PhOps} {f : PhId → Phaser → Thread → State → Res}
    (hb : ∀ s t, Good s.mem → GoodRes (blocked s t)) (h : ∀ i p t s, Good s.mem → GoodRes (f i p t s)) (g : Good s.mem) : GoodRes
    (phRunB blocked o f t s) := by
  unfold phRunB
  split
  · exact hb s t g
  · exact good_orStop g g
  · exact h _ _ t s g
theorem good_phRun {o : PhOps} {f : PhId → Phaser → Thread → State → Res} (h : ∀ i p t s, Good s.mem → GoodRes (f i p t s)) (g : Good s.mem) :
    GoodRes (phRun o f t s) :=
  good_phRunB (fun _ _ g => g) h g
theorem good_phDenied {o : PhOps} (g : Good s.mem) : GoodRes (phDenied o t s) := g
theorem good_blockSafe (g : Good s.mem) : GoodRes (blockSafe hd s t) := good_of_mem (by simp) g
theorem good_phregRes {o : PhOps} {i : PhId} {p : Phaser} (g : Good s.mem) : GoodRes (phregRes o i p t s) := by
  simp only [phregRes]
  split
  · split
    · exact good_of_mem (by simp) g
    · exact good_of_mem (setCur_mem ..) (good_phArrive g)
  · split <;> exact good_of_mem (by simp) g
theorem good_phdropRes {o : PhOps} {i : PhId} {p : Phaser} (g : Good s.mem) : GoodRes (phdropRes o i p t s) := by
  unfold phdropRes
  split
  · exact good_phArrive g
  · exact good_phDenied g
theorem good_phSignal {gather : Bool} {i : PhId} {p : Phaser} (g : Good s.mem) : Good (phSignal gather i p t s).mem :=
  good_phArrive (good_drainCtx _ _ g)
theorem good_phsigRes {gather : Bool} {o : PhOps} {i : PhId} {p : Phaser} (g : Good s.mem) : GoodRes (phsigRes gather o i p t s) := by
  unfold phsigRes
  split
  · exact good_phDenied g
  · split
    · exact g
    · exact good_phSignal g
@[simp] theorem setWaiting_mem {q : Option (BitVec 32)} {i : PhId} {id : Ident} : (setWaiting q s i id).mem = s.mem := by
  unfold setWaiting
  split <;> simp
theorem good_phWaitFor {o : PhOps} {i : PhId} {p : Phaser} {q : BitVec 32} (g : Good s.mem) : GoodRes (phWaitFor hd o i p q t s) := by
  unfold phWaitFor
  split
  · exact good_of_mem (setCur_mem ..) (good_acquireLocal _ _ (good_of_mem (by simp) g))
  · exact good_blockSafe (good_of_mem (by simp) g)
theorem good_phwaitRes {o : PhOps} {i : PhId} {p : Phaser} (g : Good s.mem) : GoodRes (phwaitRes hd o i p t s) := by
  unfold phwaitRes
  split
  · exact good_phDenied g
  · exact good_phWaitFor g
theorem good_phswRes {o : PhOps} {i : PhId} {p : Phaser} (g : Good s.mem) : GoodRes (phswRes hd o i p t s) := by
  simp only [phswRes]
  split
  · split
    · exact good_phDenied g
    · exact good_phWaitFor g
  · split
    · exact good_phDenied g
    · split
      · exact good_blockSafe g
      · split
        · exact good_phWaitFor (good_of_mem (setCur_mem ..) (good_phSignal g))
        · exact good_of_mem (setCur_mem ..) (good_phSignal g)
theorem good_phexpRes {o : PhOps} {i : PhId} {p : Phaser} (g : Good s.mem) : GoodRes (phexpRes o i p t s) := by
  simp only [phexpRes]
  split
  · exact good_phDenied g
  · split <;> exact good_of_mem (by simp) g
theorem good_completionArrives {h : CReg} {r : Record} (g : Good s.mem) : Good (completionArrives s h c r).mem := by
  simp only [completionArrives]
  split
  · exact good_ite (good_deliver g) (good_ite (good_phArrive g) (good_deliver (good_phArrive g)))
  · exact good_deliver g
theorem good_retryDue {i : PhId} (g : Good s.mem) : Good (retryDue s i).mem := by
  unfold retryDue
  split
  · exact good_ite (good_phAdvance g) g
  · exact g
theorem good_execPhaserCompletionArrival (g : Good s.mem) : GoodOut (execPhaserCompletionArrival s) := by
  unfold execPhaserCompletionArrival
  split
  · exact good_retryDue g
  · split
    · exact good_ite g (good_completionArrives (good_of_mem (by simp) g))
    · exact g

/-! ### Engine commands, messages, events, queues -/

@[simp] theorem stampCmd_mem : (stampCmd s c).2.mem = s.mem := by
  unfold stampCmd
  split <;> simp
theorem good_pushInbox {e : EngineId} (g : Good s.mem) : GoodOpt id (pushInbox s e c) := by
  have stamped : Good (stampCmd s c).2.mem := good_of_mem stampCmd_mem g
  have room : ∀ (b : Bool) (t : State), t.mem = (stampCmd s c).2.mem → GoodOpt id (if b then some t else none) := by
    intro b t k
    split
    · exact good_of_mem k stamped
    · trivial
  cases e with
  | copy k => exact room _ _ (setCluster_mem ..)
  | joiner k => exact room _ _ (setCluster_mem ..)
  | kiln d => exact room _ _ (setDie_mem ..)
  | scribe d => exact room _ _ (setDie_mem ..)
  | bank q => exact room _ _ (setDie_mem ..)
  | firmware d => exact room _ _ (wakeFirmware_mem.trans (setDie_mem ..))
  | _ => exact stamped
theorem good_releaseFor {rel : Bool} (g : Good s.mem) : Good (releaseFor rel k ctx s).mem := good_ite (good_drainCtx _ _ g) g
theorem good_sendCmd {e : EngineId} (g : Good s.mem) : GoodRes (sendCmd e c s) := by
  unfold sendCmd
  split
  · exact g
  · split
    · rename_i e
      exact GoodOpt.get e (good_pushInbox (good_releaseFor g))
    · exact g
theorem good_engRun {i : Instr} {o : EngOps} {kinds : List Nat} {checkA checkB : Thread → Except Stop Unit} {dest : Thread → State → EngineId}
    (g : Good s.mem) : GoodRes (engRun i o kinds checkA checkB dest t s) :=
  good_orStop g (good_orStop g (good_orStop g (good_sendCmd g)))
theorem good_sendMessage {m : Message} (g : Good s.mem) : GoodOpt id (sendMessage s k ctx m) := by
  have released : Good (releaseFor m.rel k ctx s).mem := good_releaseFor g
  simp only [sendMessage]
  split
  · trivial
  · split
    · exact good_putItem released
    · split
      · exact good_pushInbox released
      · exact good_complete released
theorem keeps_aSlotTag {b : CReg} : Keeps AGood (aSlotTag w b va) := .ite (keeps_aSector.bind fun ⟨_, _⟩ => keeps_aUnless.bind fun _ => .pure) .pure
theorem keeps_aBody {b : CReg} : Keeps AGood (aBody w b n) :=
  keeps_aLift.bind fun _ => keeps_aLoad.bind fun _ => .either (keeps_aEach fun _ => keeps_aSlotTag) .pure fun _ => .pure
theorem keeps_sendAM {o : EngOps} : Keeps AGood (sendAM o w t) := by
  refine keeps_aLift.bind fun _ => keeps_aLift.bind fun _ => keeps_aState.bind fun _ => .either .pure keeps_aBody fun _ =>
    .ite (keeps_aUnless.bind fun _ => keeps_aState.bind fun _ => .before keeps_aWait fun _ => ?_) ⟨fun _ g => ?_⟩
  · exact (keeps_aMod fun _ => good_releaseFor).bind fun _ => .pure
  · exact .orWait (good_sendMessage g) g
theorem good_execSend {o : EngOps} (g : Good s.mem) : GoodOut (execSend hd o s) :=
  good_runState (fun _ _ g' => good_runA (fun _ => keeps_sendAM) g') g
@[simp] theorem setEvents_mem {l : List Event} : (setEvents s ctx cl l).mem = s.mem := by simp [setEvents]
theorem good_evRun {o : EvOps} {f : Nat → Thread → State → Res} (h : ∀ cl t s, Good s.mem → GoodRes (f cl t s)) (g : Good s.mem) : GoodRes
    (evRun o f t s) := by
  unfold evRun
  split
  · exact good_orStop g g
  · exact h _ t s g
@[simp] theorem setEvWaits_mem {l : List (Nat × Bool)} : (setEvWaits s ctx cl l).mem = s.mem := by simp [setEvWaits]
theorem good_evBlock {pop : Bool} (g : Good s.mem) : GoodRes (evBlock hd pop cl t s) := by
  simp only [evBlock]
  split
  · rename_i w e
    have blocked := of_eq e (good_blockSafe (hd := hd) (t := t) g)
    have stopped : Good w.mem := blocked
    simp only [GoodRes]
    split
    · exact good_ite (good_of_mem leaveEvents_mem stopped) (good_ite stopped (good_of_mem setEvWaits_mem stopped))
    · exact stopped
  · exact good_blockSafe g
theorem good_evwaitRes (g : Good s.mem) : GoodRes (evwaitRes hd cl t s) := by
  unfold evwaitRes
  split
  · exact good_evBlock g
  · exact good_acquireLocal _ _ (good_of_mem (by simp) g)
theorem good_evpopRes {o : EvOps} (g : Good s.mem) : GoodRes (evpopRes hd o cl t s) := by
  simp only [evpopRes]
  split
  · exact good_evBlock g
  · split
    · exact good_of_mem (setCur_mem ..) (good_acquireLocal _ _ (good_of_mem (by simp) g))
    · exact g
theorem good_evpeekRes {o : EvOps} (g : Good s.mem) : GoodRes (evpeekRes o cl t s) := by
  simp only [evpeekRes]
  split
  · exact good_of_mem (by simp) g
  · exact g
theorem good_qpeekRes {o : QOps} (g : Good s.mem) : GoodRes (qpeekRes o t s) := by
  simp only [qpeekRes]
  split
  · exact g
  · split
    · exact good_of_mem (by simp) g
    · exact g
@[simp] theorem freeValue_mem : (freeValue s).2.mem = s.mem := rfl
theorem good_qcntRes {o : QOps} (g : Good s.mem) : GoodRes (qcntRes o t s) := by
  simp only [qcntRes]
  split
  · split
    · exact good_of_mem (by simp) g
    · exact g
  · refine good_orStop g ?_
    split <;> exact good_of_mem (by simp) g

/-! ### Stock instructions and events -/

@[simp] theorem putAllow_mem {e : Allow} : (putAllow s k e).mem = s.mem := rfl
@[simp] theorem evictAllow_mem {e : Allow} : (evictAllow k s e).mem = s.mem := rfl
theorem good_newAllow (g : Good s.mem) : GoodOpt id (newAllow s k ctx n) := by
  simp only [newAllow]
  split
  · split
    · trivial
    · split
      · exact good_of_mem putAllow_mem (good_makeWays _ _ _ _ _ g)
      · exact good_of_mem putAllow_mem (good_foldl (fun _ _ => good_of_mem evictAllow_mem) g)
  · split
    · exact good_of_mem putAllow_mem g
    · split
      · exact good_of_mem (by simp) g
      · trivial
@[simp] theorem flushAllow_mem : (flushAllow s k ctx).mem = s.mem := (foldl_mem fun _ _ => applyReturn_mem).trans (foldl_mem fun _ _ => arrive_mem)
@[simp] theorem answer_mem {req : Nat} {v : W128} : (Machine.answer s k req v).mem = s.mem := by
  grind [Machine.answer, setThreadOf_mem]
@[simp] theorem freshReq_mem : (freshReq s).2.mem = s.mem := rfl
@[simp] theorem sendStock_mem {carried : Nat} {r : StockReq} : (sendStock s n carried r).mem = s.mem := by simp [sendStock]
@[simp] theorem serveRequest_mem {r : StockReq} : (serveRequest s n r).mem = s.mem := by
  grind [serveRequest, setReturns_mem, putAllow_mem, answer_mem, setCtr_mem]
@[simp] theorem serveCounter_mem : (serveCounter s n).mem = s.mem := by
  grind [serveCounter, arrive_mem, updCtr_mem, setCtr_mem, serveRequest_mem]
@[simp] theorem recallCore_mem : (recallCore s n k).mem = s.mem := by
  grind [recallCore, setCore_mem, postReturn_mem]
@[simp] theorem probeCore_mem {rf now : Nat} : (probeCore n rf now s k).mem = s.mem := foldl_mem (by intro _ _; rfl)
theorem good_blockOn {carried : Nat} {op : StockOp} (g : Good s.mem) : GoodRes (blockOn t n carried op s) := good_of_mem (by simp) g
theorem good_stockRun {a : CReg} {p : BitVec 7} {denied : W128} {start : Nat → State → StockEnd} {put : W128 → Thread → Thread}
    (h : ∀ n s, Good s.mem → GoodStockEnd (start n s)) (g : Good s.mem) : GoodRes (stockRun a p denied start put t s) := by
  unfold stockRun
  split
  · exact good_of_mem (by simp) g
  · exact g
  · split
    · exact good_orStop g g
    · rename_i n _
      have k := h n s g
      split <;> rename_i e <;> rw [e] at k
      · exact good_of_mem (by simp) k
      · exact k
      · split
        · exact good_blockOn k
        · exact good_of_mem (by simp) g
theorem good_stkinitRes {o : StkOps} (g : Good s.mem) : GoodRes (stkinitRes o t s) := good_stockRun (fun _ _ g' => g') g
theorem good_takeStart {m : Nat} {isLocal : Bool} (g : Good s.mem) : GoodStockEnd (takeStart k ctx m isLocal n s) := by
  have uncached : GoodStockEnd (if isLocal then .result (boolWord false) s else .send n 0 (.take m 0 false) s) := by
    split <;> exact g
  have found : GoodOpt id (match allowOf s k ctx n with | some _ => some s | none => newAllow s k ctx n) := by
    split
    · exact g
    · exact good_newAllow g
  simp only [takeStart]
  split
  · exact g
  · split
    · exact g
    · split
      · exact uncached
      · split
        · exact uncached
        · rename_i e
          have k := GoodOpt.get e found
          split
          · exact uncached
          · split
            · exact good_of_mem putAllow_mem k
            · split
              · exact k
              · exact good_of_mem putAllow_mem k
theorem good_stktakeRes {o : StkOps} (g : Good s.mem) : GoodRes (stktakeRes o t s) := good_stockRun (fun _ _ => good_takeStart) g
@[simp] theorem giveTo_mem {m : Nat} : (giveTo s k ctx n m).mem = s.mem := by
  grind [giveTo, putAllow_mem, postReturn_mem]
theorem good_stkgiveRes {o : StkOps} (g : Good s.mem) : GoodRes (stkgiveRes o t s) := by
  unfold stkgiveRes
  split
  · exact good_orStop g g
  · exact good_of_mem (by simp) g
theorem good_approxRead (g : Good s.mem) : GoodStockEnd (approxRead k ctx n s) := by
  unfold approxRead
  split
  · exact g
  · split
    · exact g
    · exact good_of_mem (by simp) g
theorem good_stkreadRes {exact : Bool} {o : StkOps} (g : Good s.mem) : GoodRes (stkreadRes exact o t s) := by
  unfold stkreadRes
  refine good_stockRun (fun _ _ g' => ?_) g
  split
  · exact g'
  · exact good_approxRead g'
theorem good_execStockHomeServe (g : Good s.mem) : GoodOut (execStockHomeServe s) := by
  unfold execStockHomeServe
  split
  · exact good_of_mem (by simp) g
  · exact g
theorem good_execStockRecallOrder (g : Good s.mem) : GoodOut (execStockRecallOrder s) := by
  unfold execStockRecallOrder
  split
  · exact good_of_mem (by simp) g
  · exact g
theorem good_execStockReturnArrival (g : Good s.mem) : GoodOut (execStockReturnArrival s) := by
  unfold execStockReturnArrival
  split
  · split
    · exact good_of_mem (by simp) g
    · exact g
  · exact g
theorem good_execStockReclaimProbe (g : Good s.mem) : GoodOut (execStockReclaimProbe s) := by
  unfold execStockReclaimProbe
  split
  · exact good_ite (good_foldl (fun _ _ g' => good_of_mem (by simp) g') (good_of_mem (by simp) g)) g
  · exact g

/-! ### Firmware instructions -/

theorem good_ctlrdRes {o : CtlrdOps} (g : Good s.mem) : GoodRes (ctlrdRes o t s) := by
  unfold ctlrdRes
  split <;> exact good_of_mem (by simp) g
@[simp] theorem endMiss_mem {how : MissEnd} {m : Miss} : (endMiss cl how m s).mem = s.mem := by
  grind [endMiss, setCore_mem, setCluster_mem, foldl_mem]
@[simp] theorem dropHeadMiss_mem : (dropHeadMiss s cl).mem = s.mem := rfl
@[simp] theorem installWaiters_mem {e : TlbEntry} {m : Miss} : (installWaiters e m s).mem = s.mem := by
  grind [installWaiters, installCore_mem, foldl_mem]
theorem good_tlbwr {act : TlbAct} {e : TlbEntry} (g : Good s.mem) : Good (tlbwr act s k e).2.mem := by
  simp only [tlbwr]
  split
  · exact good_ite (good_of_mem (by simp) g) g
  · split
    · exact g
    · split
      · exact good_of_mem (by simp) g
      · split
        · exact g
        · split <;> exact good_of_mem (by simp) g
      · exact good_of_mem (by simp) g
theorem good_tlbwrRes {act : TlbAct} {o : TlbOps} (g : Good s.mem) : GoodRes (tlbwrRes act o t s) := good_of_mem (setCur_mem ..) (good_tlbwr g)
@[simp] theorem dropCoreTlb_mem {bytes : Nat} {whole : Bool} : (dropCoreTlb k ctx n bytes whole s).mem = s.mem := rfl
@[simp] theorem dropClusterTlb_mem {bytes : Nat} {whole : Bool} : (dropClusterTlb cl ctx n bytes whole s).mem = s.mem := rfl
@[simp] theorem dropClusters_mem {a : Nat} {whole : Bool} : (dropClusters ctx a n whole s).mem = s.mem := foldl_mem fun _ _ => dropClusterTlb_mem
@[simp] theorem dropEverywhere_mem {a : Nat} {whole : Bool} : (dropEverywhere ctx a n whole s).mem = s.mem :=
  dropClusters_mem.trans (foldl_mem fun _ _ => dropCoreTlb_mem)
@[simp] theorem beginShoot_mem {d : Shootdown} : (beginShoot d s).mem = s.mem := by simp [beginShoot]
theorem good_freeReplicas {gone : Replica → Bool} (g : Good s.mem) : Good (freeReplicas gone s).mem :=
  good_foldl (fun _ _ g' => good_of_mem poolGive_mem (good_zeroFrame g')) (good_of_mem (by simp) g)
theorem good_ackCore {d : Shootdown} (g : Good s.mem) : Good (ackCore d s k).mem :=
  good_of_mem dropCoreTlb_mem (good_of_mem ackPorts_mem (good_drainCtx _ _ g))
theorem good_ackShoot {d : Shootdown} (g : Good s.mem) : Good (ackShoot d s).mem := good_foldl (fun _ _ => good_ackCore) g
theorem good_tlbinvRes {o : TlbinvOps} (g : Good s.mem) : GoodRes (tlbinvRes o t s) := by
  simp only [tlbinvRes]
  split
  · exact good_of_mem (by simp) g
  · exact g
  · split
    · exact good_of_mem (by simp) g
    · split
      · exact g
      · split <;> exact good_of_mem (by simp) g
theorem good_tlbprobeRes {o : TlbprobeOps} (g : Good s.mem) : GoodRes (tlbprobeRes o t s) := good_of_mem (by simp) g
theorem good_cflush (g : Good s.mem) : Good (cflush s k ctx).mem := good_of_mem flushAllow_mem (good_of_mem (setCore_mem ..) (good_drainCtx _ _ g))
theorem good_cflushRes {o : CflushOps} (g : Good s.mem) : GoodRes (cflushRes o t s) := by
  simp only [cflushRes]
  split
  · exact good_of_mem (by simp) g
  · split
    · exact g
    · exact good_cflush (good_of_mem (by simp) g)
theorem good_rettRes (g : Good s.mem) : GoodRes (rettRes hd t s) := by
  unfold rettRes
  split
  · exact good_branchTo g
  · exact g
@[simp] theorem noteBeat_mem {code : BitVec 16} : (noteBeat s k code).mem = s.mem := by
  grind [noteBeat, enterNegotiate_mem]
theorem good_hbeatRes {o : HbeatOps} (g : Good s.mem) : GoodRes (hbeatRes o t s) := by
  unfold hbeatRes
  split
  · exact good_of_mem (by simp) g
  · exact g
theorem good_idleRes {o : IdleOps} (g : Good s.mem) : GoodRes (idleRes o t s) := by
  unfold idleRes
  split
  · exact good_of_mem (by simp) g
  · split
    · exact good_of_mem (by simp) g
    · split
      · exact good_of_mem (by simp) g
      · exact good_of_mem (by simp) g
      · exact g
      · exact good_of_mem (by simp) g
theorem good_execIdleTimeoutExpiry (g : Good s.mem) : GoodOut (execIdleTimeoutExpiry s) := by
  unfold execIdleTimeoutExpiry
  split
  · split
    · split
      · exact good_of_mem (by simp) g
      · exact g
    · exact g
  · exact g

/-! ### Firings: start, save, resume, end -/

@[simp] theorem dropCode_mem {code : CReg} : (dropCode s k ctx code).mem = s.mem := rfl
theorem good_placeThread {f : Frame} {b : Batch} {i : Inst} {prio : Nat} {acq : Bool} {x : Nat × Nat} (g : Good s.mem) : Good
    (placeThread f b i prio acq s x).mem :=
  good_ite (good_acquireLocal _ _ (good_of_mem (by simp) g)) (good_of_mem (by simp) g)
theorem good_entryCheck (g : Good s.mem) : Good (entryCheck s k).mem := by
  unfold entryCheck
  split
  · exact g
  · exact good_ite (good_trapAt g) (good_ite (good_trapAt g) g)
theorem good_startFiring {c : Cand} {ks : List Nat} (g : Good s.mem) : Good (startFiring s cl c ks).mem := by
  unfold startFiring
  split
  · exact g
  · split
    · exact g
    · exact good_foldl (fun _ _ => good_entryCheck) (good_foldl (fun _ _ => good_placeThread) (good_foldl (fun _ _ g' => good_foldl (fun _ _ =>
      good_itemClaimed) g') (good_of_mem (by simp) g)))
@[simp] theorem chargeMove_mem : (chargeMove s ctx).mem = s.mem := by simp [chargeMove]
@[simp] theorem shareFlits_mem {old : Nat} : (shareFlits s old k).mem = s.mem := rfl
theorem good_resumeThread {own : Nat} {x : (Nat × Thread) × Nat} (g : Good s.mem) : Good (resumeThread own s x).mem :=
  good_of_mem (setThreadOf_mem ..) (good_of_mem (setWork_mem ..) (good_of_mem (setCore_mem ..) (good_of_mem chargeMove_mem (good_ite g (good_of_mem
    shareFlits_mem (good_acquireLocal _ _ (good_cflush g)))))))
theorem good_resumeFiring {c : Cand} {v : Saved} {ks : List Nat} (g : Good s.mem) : Good (resumeFiring s c v ks).mem :=
  good_foldl (fun _ _ => good_resumeThread) (good_of_mem (by simp) g)
theorem good_fireAt (g : Good s.mem) : Good (fireAt s cl).mem := by
  have ready : Good (refreshReady s).mem := good_of_mem refreshReady_mem g
  simp only [fireAt]
  split
  · split
    · exact ready
    · exact good_startFiring ready
  · split
    · exact good_of_mem preemptFor_mem ready
    · exact ready
theorem good_resumeAt (g : Good s.mem) : Good (resumeAt s cl).mem := by
  simp only [resumeAt]
  split
  · split
    · exact good_ite (good_of_mem (by simp) g) (good_resumeFiring (good_of_mem (by simp) g))
    · exact good_of_mem (by simp) g
  · exact good_of_mem (by simp) g
theorem good_execFiringStart (g : Good s.mem) : GoodOut (execFiringStart s) := by
  unfold execFiringStart
  split
  · exact good_fireAt g
  · exact g
theorem good_execFiringResume (g : Good s.mem) : GoodOut (execFiringResume s) := by
  unfold execFiringResume
  split
  · exact good_resumeAt g
  · exact g
@[simp] theorem vacate_mem {x : Nat × Thread} : (vacate s x).mem = s.mem := by simp [vacate]
theorem good_writeSave {base : Nat} {m : IWord} (g : Good s.mem) : Good (writeSave s base t m).mem :=
  goodMem_foldl (fun _ _ => good_paWriteMem) (goodMem_foldl (fun _ _ => good_paPutCap) g)
theorem good_writeSaves {xs : List (Thread × Nat)} (g : Good s.mem) : Good (writeSaves s ctx xs).mem := by
  unfold writeSaves
  split
  · exact good_foldl (fun _ _ g' => good_writeSave (good_of_mem (by simp) g')) g
  · exact g
theorem good_saveUnit {ts : List (Nat × Thread)} (g : Good s.mem) : Good (saveUnit s ts t).mem := by
  have vacated : Good (ts.foldl vacate s).mem := good_foldl (fun _ _ => good_of_mem vacate_mem) g
  have saved : ∀ {w : State} {xs : List (Thread × Nat)} {n : BitVec 32} {f : Frame → Frame} {x : Work}, Good w.mem →
      Good (setWork (updFrame (writeSaves w t.id.ctx xs) t.id.ctx n f) x).mem := good_writeSaves
  have charged : ∀ c : Option Ctx, Good (match c with | some c => setCtx (ts.foldl vacate s) t.id.ctx c | none => ts.foldl vacate s).mem := by
    rintro (_ | c)
    · exact vacated
    · exact good_of_mem (setCtx_mem ..) vacated
  simp only [saveUnit]
  split
  · exact good_killSaved (saved (charged _))
  · exact saved (charged _)
theorem good_preemptCore (g : Good s.mem) : Good (preemptCore s k).mem := by
  unfold preemptCore
  split
  · exact g
  · exact good_ite (good_saveUnit g) g
theorem good_execPreemptAtSafePoint (g : Good s.mem) : GoodOut (execPreemptAtSafePoint s) := by
  unfold execPreemptAtSafePoint
  split
  · exact good_preemptCore g
  · exact g
theorem good_yieldRes (g : Good s.mem) : GoodRes (yieldRes hd t s) := by
  unfold yieldRes
  split
  · exact good_foldl (fun _ _ g' => good_of_mem (by simp) g') g
  · exact g
theorem good_sendDeferred {l : List Message} (g : Good s.mem) : Good (sendDeferred k ctx l s).2.mem := by
  induction l generalizing s with
  | nil => exact g
  | cons m t ih =>
    rw [sendDeferred]
    split
    · rename_i e
      exact ih (GoodOpt.get e (good_sendMessage g))
    · exact g
theorem good_sendAllDeferred {ts : List (Nat × Thread)} (g : Good s.mem) : Good (sendAllDeferred s ts).1.mem := by
  refine List.foldlRecOn (motive := fun r : State × Bool => Good r.1.mem) ts _ g fun r k x _ => ?_
  split
  · have sent := good_sendDeferred (k := x.1) (ctx := x.2.id.ctx) (l := x.2.opn.deferred) k
    dsimp only
    split
    · exact good_of_mem (by simp) sent
    · exact sent
  · exact k
theorem good_writeTiles {f : Frame} {b : Batch} {ts : List (Nat × Thread)} (g : Good s.mem) : Good (writeTiles s f b ts).mem :=
  good_foldl (fun _ _ g' => good_foldl (fun _ _ => good_writeTile) g') g
theorem good_finishFiring {minor : Nat} {ts : List (Nat × Thread)} {t0 : Thread} (g : Good s.mem) : Good (finishFiring minor s ts t0).mem := by
  have drained : Good (ts.foldl (fun s x => drainCtx s x.1 x.2.id.ctx) s).mem := good_foldl (fun _ _ => good_drainCtx _ _) g
  have cleared : ∀ s : State, Good s.mem →
      Good (ts.foldl (fun s x => match threadOf s x.1 with | some t => setThreadOf s x.1 (clearOuts t) | none => s) s).mem := by
    refine fun s => good_foldl fun s x g => ?_
    split
    · exact good_of_mem (by simp) g
    · exact g
  have sent : ∀ s s' b, Good s.mem → sendAllDeferred s ts = (s', b) → Good s'.mem := by
    intro s s' b g e
    simpa only [e] using good_sendAllDeferred (ts := ts) g
  unfold finishFiring
  dsimp only
  split
  · exact good_dropBatch drained
  · split
    · exact good_dropBatch (good_of_mem updFrame_mem (good_unclaimCells drained))
    · split <;> rename_i e <;> have k := sent _ _ _ (cleared _ (good_of_mem updFrame_mem drained)) e
      · exact k
      · split
        · exact good_dropBatch k
        · exact good_dropBatch (good_of_mem updFrame_mem (good_writeTiles k))
theorem good_resumeFin (g : Good s.mem) : Good (resumeFin s k t).mem := good_finishFiring g
theorem good_gangFin {minor : Nat} (g : Good s.mem) : GoodRes (gangFin minor s t) := by
  simp only [gangFin]
  split
  · split
    · exact g
    · split
      · exact good_finishFiring g
      · exact g
  · exact g
theorem good_finRes {minor : Nat} (g : Good s.mem) : GoodRes (finRes minor t s) := by
  simp only [finRes]
  split
  · exact good_sigFault g
  · split
    · exact g
    · split
      · exact g
      · split
        · exact good_dropThread g
        · split
          · exact good_gangFin (good_of_mem (by simp) g)
          · exact good_finishFiring (good_of_mem (by simp) g)
theorem good_execAgeingIntervalExpiry (g : Good s.mem) : GoodOut (execAgeingIntervalExpiry s) := by
  simp only [execAgeingIntervalExpiry]
  split
  · split <;> exact good_of_mem (by simp) g
  · exact g
theorem good_execOverdueRotation (g : Good s.mem) : GoodOut (execOverdueRotation s) := by
  have ready : Good (refreshReady s).mem := good_of_mem refreshReady_mem g
  simp only [execOverdueRotation, GoodOut]
  split
  · split
    · exact good_of_mem rotateFor_mem ready
    · exact ready
  · exact g
theorem good_execQuotaAdjust (g : Good s.mem) : GoodOut (execQuotaAdjust s) := by
  unfold execQuotaAdjust
  split
  · exact good_ite (good_of_mem (by simp) g) g
  · exact g
@[simp] theorem markBudget_mem {on : Bool} : (markBudget on ctx s).mem = s.mem := rfl
theorem good_execBudgetPeriodStart (g : Good s.mem) : GoodOut (execBudgetPeriodStart s) := by
  unfold execBudgetPeriodStart
  split
  · exact g
  · split
    · exact g
    · exact good_ite (good_of_mem (by simp) g) g
theorem good_execCycleBudgetSpent (g : Good s.mem) : GoodOut (execCycleBudgetSpent s) := by
  unfold execCycleBudgetSpent
  split
  · exact g
  · split
    · exact g
    · exact good_ite (good_of_mem (by simp) g) g
theorem good_execByteBudgetSpent (g : Good s.mem) : GoodOut (execByteBudgetSpent s) := by
  unfold execByteBudgetSpent
  split
  · exact g
  · split
    · exact g
    · exact good_ite (good_of_mem (by simp) g) g
theorem good_execOverrunExpiry (g : Good s.mem) : GoodOut (execOverrunExpiry s) := by
  unfold execOverrunExpiry
  split
  · split
    · split
      · exact good_killFiring g
      · exact g
    · exact g
  · exact g
@[simp] theorem freePhaser_mem {p : Bool × Nat × Nat} : (freePhaser s p).mem = s.mem := by
  unfold freePhaser
  split <;> simp
theorem good_leavePhaser {f : Frame} {i : PhId} (g : Good s.mem) : Good (leavePhaser f s i).mem := by
  unfold leavePhaser
  split
  · exact good_ite (good_ite (good_of_mem (by simp) g) (good_phArrive g)) g
  · exact g
theorem good_endFrame {f : Frame} (g : Good s.mem) : Good (endFrame s f).mem :=
  good_complete (good_of_mem (setWork_mem ..) (good_of_mem freeRanges_mem (good_foldl (fun _ _ => good_leavePhaser) (good_foldl (fun _ _ g' =>
    good_of_mem (by simp) g') g))))
theorem good_execFrameEnd (g : Good s.mem) : GoodOut (execFrameEnd s) := by
  unfold execFrameEnd
  split
  · exact good_endFrame g
  · exact g
theorem good_execHeldRecordDelivery (g : Good s.mem) : GoodOut (execHeldRecordDelivery s) := by
  simp only [execHeldRecordDelivery, GoodOut]
  split
  · rename_i e
    exact GoodOpt.get e (good_deliverHeld g)
  · exact g
end
end Sys2Proof.Proofs.Canonical

/-! ## Canonical memory: commands of the engines (O6) -/
namespace Sys2Proof.Proofs.Canonical
open Sys2Proof Sys2Proof.Machine Sys2Proof.Laws.State Sys2Proof.Laws.Ops Sys2Proof.Proofs.Device

section
variable {held s : State} {t : Thread} {c : Cmd} {q : Seq} {d : Desc} {w : Who} {hd : Hdr} {ctx : BitVec 12} {k n cl va : Nat}

/-! ### RAISE and REBIND -/

theorem keeps_readSlot {bad : Nat} : Keeps KGood (readSlot cl ctx bad va) :=
  (keeps_kTry fun _ g => .sector (good_engSector g)).bind fun _ => keeps_kCheck.bind fun _ => .pure
theorem keeps_readImage {bad : Nat} : Keeps KGood (readImage cl ctx bad va n) := (keeps_kEach fun _ => keeps_readSlot).bind fun _ => .pure
theorem good_allocPhaser {frame : BitVec 32} {x : Bool × Nat × Option W64} (g : Good s.mem) : GoodOpt Prod.snd (allocPhaser frame ctx s x) := by
  simp only [allocPhaser]
  split
  · trivial
  · exact good_of_mem (by simp) g
theorem good_allocPhasers {frame : BitVec 32} {l : List (Bool × Nat × Option W64)} (g : Good s.mem) : GoodOpt Prod.snd
    (allocPhasers frame ctx l s) := by
  induction l generalizing s with
  | nil => exact g
  | cons x t ih =>
    rw [allocPhasers]
    split
    · trivial
    · rename_i p s' e
      have rest := ih (s := s') (GoodOpt.get e (good_allocPhaser g))
      split
      · trivial
      · rename_i e'
        have k := GoodOpt.get e' rest
        exact k
@[simp] theorem giveQuotas_mem {frame : BitVec 32} {ls : List Level} {x : Stage × Nat} : (giveQuotas ctx frame ls s x).mem = s.mem := by
  grind [giveQuotas, setCluster_mem, foldl_mem]
theorem keeps_raiseHeader : Keeps KGood (raiseHeader c) := by
  unfold raiseHeader
  refine keeps_kCheck.bind fun _ => keeps_readImage.bind fun _ => ?_
  split
  · exact .pure
  · exact keeps_kEnd
theorem keeps_raiseRecord : Keeps KGood (raiseRecord c) := by
  unfold raiseRecord
  refine keeps_raiseHeader.bind fun _ => keeps_kCheck.bind fun _ => keeps_readImage.bind fun _ => ?_
  split
  · exact .pure
  · exact keeps_kEnd
theorem keeps_exportHandles {n : BitVec 32} {qout : CReg} {qs : List Queue} : Keeps KGood (exportHandles c n qout qs) :=
  keeps_kFor fun _ => keeps_kTry fun _ g => .unit (good_engPutCap g)
theorem keeps_raiseFrame : Keeps KGood (raiseFrame c) := by
  refine keeps_raiseRecord.bind fun r => .getThen fun s g => ?_
  split
  · exact keeps_kEnd
  · refine .bind ?_ fun levels => keeps_kCheck.bind fun _ => .bind ?_ fun ⟨tiles, x⟩ => ?_
    · split
      · exact .pure
      · exact keeps_kEnd
    · split
      · exact .pure
      · exact keeps_kEnd
    · dsimp only
      split
      · exact keeps_kEnd
      · rename_i phs s' e
        have k : Good s'.mem := GoodOpt.get e (good_allocPhasers g)
        refine .bind (.set ?_) fun _ => keeps_exportHandles.bind fun _ => .pure
        exact good_foldl (fun _ _ => good_of_mem giveQuotas_mem) (good_of_mem (setCtx_mem ..) k)
theorem good_endK {α : Type} {engine : Byte} {bytes : Nat} {res : α → Nat} {bad : Nat → Nat} {f : KM α} (h : Keeps KGood f) (gheld : Good held.mem)
    (g : Good s.mem) : Good (endK held s c engine bytes res bad f).mem := by
  unfold endK
  split
  · rename_i e
    exact good_complete (h.ok g e)
  · exact good_complete g
  · exact good_of_mem keepAsked_mem gheld
  · exact g
theorem good_applyRaise (gheld : Good held.mem) (gs : Good s.mem) : Good (applyRaise c held s).mem := good_endK keeps_raiseFrame gheld gs
@[simp] theorem clampQuota_mem {frame : BitVec 32} {st : Stage} : (clampQuota s ctx frame n st cl).mem = s.mem := rfl
@[simp] theorem moveTiles_mem {f : Frame} {stages : List Stage} : (moveTiles s f stages).mem = s.mem := by
  grind [moveTiles, updFrame_mem, freeRanges_mem, setCtx_mem]
theorem keeps_rebindStage : Keeps KGood (rebindStage c) := by
  unfold rebindStage
  refine .getThen fun _ _ => keeps_kCheck.bind fun _ => ?_
  split
  · exact keeps_kEnd
  · split
    · exact keeps_kEnd
    · refine keeps_kCheck.bind fun _ => keeps_readImage.bind fun _ => ?_
      split
      · exact keeps_kEnd
      · exact keeps_kCheck.bind fun _ => .modify fun _ g' => good_foldl (fun _ _ g'' => good_of_mem (by simp) g'') (good_of_mem (by simp) g')
theorem good_applyRebind (gheld : Good held.mem) (gs : Good s.mem) : Good (applyRebind c held s).mem := good_endK keeps_rebindStage gheld gs
theorem good_refuseIn (g : Good s.mem) : Good (refuseIn c s cl).mem := good_foldl (fun _ _ => good_complete) (good_of_mem (by simp) g)
theorem good_applyWithdraw (g : Good s.mem) : Good (applyWithdraw c s).mem := by
  simp only [applyWithdraw]
  split
  · exact good_complete g
  · exact good_complete (good_of_mem withdrawFrames_mem (good_foldl (fun _ _ => good_refuseIn) g))
theorem good_joinerApply (gheld : Good held.mem) (gs : Good s.mem) : Good (joinerApply c held s).mem := by
  unfold joinerApply
  split
  · exact good_applyRaise gheld gs
  · exact good_applyRebind gheld gs
  · exact good_applyWithdraw gs
  · exact gheld
theorem good_joinerTurn {ix : Nat} (g : Good s.mem) : Good (joinerTurn s cl ix).mem := by
  unfold joinerTurn
  split
  · exact g
  · exact good_joinerApply g (good_of_mem (by simp) g)
theorem keeps_verdictOf : Keeps KGood (verdictOf c) := by
  unfold verdictOf
  refine .getThen fun _ _ => keeps_kCheck.bind fun _ => ?_
  split
  · exact keeps_kEnd
  · refine keeps_kCheck.bind fun _ => .modify fun _ g' => ?_
    split <;> exact good_of_mem (by simp) g'
theorem good_verdictTurn {ix : Nat} (g : Good s.mem) : Good (verdictTurn s cl ix).mem := by
  unfold verdictTurn
  split
  · exact g
  · split
    · exact good_endK keeps_verdictOf g (good_of_mem (by simp) g)
    · exact g
theorem good_execVerdict (g : Good s.mem) : GoodOut (execVerdict s) := by
  unfold execVerdict
  split
  · exact good_verdictTurn g
  · exact g

/-! ### Copies and the bank engines -/

theorem keeps_copyTry {α : Type} {f : State → Except EngStop (α × State)} (h : ∀ s, Good s.mem → GoodExc EGood Prod.snd (f s)) : Keeps KGood
    (copyTry f) :=
  keeps_kTry h
theorem keeps_checkPages {need : Need} : Keeps KGood (checkPages cl ctx va n need) :=
  .ite .pure (keeps_kFor fun _ => (keeps_copyTry fun _ => good_engPage).bind fun _ => .pure)
theorem keeps_readSrcSlot : Keeps KGood (readSrcSlot cl ctx va) := (keeps_copyTry fun _ => good_engPage).bind fun _ => .getThen fun _ _ => .pure
theorem keeps_tagSlot : Keeps KGood (tagSlot cl ctx va) :=
  (keeps_copyTry fun _ => good_engStorePage).bind fun _ => .ite (.bind (.modify fun _ => good_engPut) fun _ => .pure) .pure
theorem keeps_copyRange {dst src : Nat} {capTags : Bool} : Keeps KGood (copyRange cl ctx dst src n capTags) := by
  exact (keeps_copyTry fun _ => good_engRead).bind fun r => (keeps_kEach fun _ => keeps_readSrcSlot).bind fun _ => (keeps_copyTry fun _ g =>
    .unit (good_engWrite g)).bind fun _ => .before (keeps_copyTry fun _ g => .unit (good_engPoisonBytes g)) fun _ => (keeps_kEach fun _ =>
    .ite keeps_tagSlot .pure).bind fun _ => .pure
theorem keeps_cpyRun : Keeps KGood (cpyRun c) :=
  .ite .pure (keeps_kCheck.bind fun _ => keeps_checkPages.bind fun _ => keeps_checkPages.bind fun _ => keeps_copyRange.bind fun _ => .pure)
theorem keeps_cpfillRun : Keeps KGood (cpfillRun c) :=
  keeps_checkPages.bind fun _ => (keeps_copyTry fun _ g => .unit (good_engWrite g)).bind fun _ => .pure
theorem keeps_copyDesc : Keeps KGood (copyDesc c) := by
  refine keeps_kCheck.bind fun _ => .bind (keeps_kEach fun i => ?_) fun _ => keeps_kCheck.bind fun _ => .pure
  exact (keeps_copyTry fun _ g => .sector (good_engSector g)).bind fun _ => keeps_kCheck.bind fun _ => .pure
theorem keeps_cpy2dRun : Keeps KGood (cpy2dRun c) := by
  simp only [cpy2dRun]
  refine keeps_copyDesc.bind fun _ => ?_
  split
  · exact keeps_kCheck.bind fun _ => (keeps_kFor fun _ => keeps_checkPages).bind fun _ => (keeps_kFor fun _ => keeps_checkPages).bind fun _ =>
    (keeps_kEach fun _ => keeps_copyRange).bind fun _ => .pure
  · exact keeps_kEnd
theorem good_endCmd {engine : Byte} {f : KM CmdEnd} (h : Keeps KGood f) (gheld : Good held.mem) (g : Good s.mem) : Good
    (endCmd held s c engine f).mem := by
  unfold endCmd
  split
  · rename_i e
    exact good_complete (h.ok g e)
  · exact good_complete g
  · exact good_of_mem keepAsked_mem gheld
  · exact g
theorem setFrom_foldl_sset {α : Type} {k : α → Nat} {on : List Nat → α → Bool} {xs : List α} {l : List Nat} (h : setFrom none l = true) :
    setFrom none (xs.foldl (fun l x => sset l (k x) (on l x)) l) = true :=
  List.foldlRecOn (motive := fun l => setFrom none l = true) xs _ h fun _ hl _ _ => setFrom_sset _ _ _ hl
theorem good_bankWrite {m : Mem} {pa : Nat} {bs : List Byte} {ps : List Bool} (g : Good m) : Good (bankWrite m pa bs ps) := by
  unfold bankWrite
  split
  · exact g
  · rw [good_iff] at *
    obtain ⟨⟨hc, ht, hp⟩, hl⟩ := g
    exact ⟨⟨cellsFrom_writeCells _ _ _ hc, setFrom_filter _ _ _ ht, setFrom_foldl_sset hp⟩, hl⟩
theorem good_bankCharge {reads writes : List HRange} (g : Good s.mem) : Good (bankCharge s ctx reads writes).mem :=
  good_foldl (fun _ _ g' => good_noteRead _ g') (good_of_mem (by simp) g)
theorem good_bankStore {pa e : Nat} {o : BankOut} (g : Good s.mem) : Good (bankStore s pa e o).mem := good_bankWrite g
theorem good_bankPair {axpy : Bool} (g : Good s.mem) : Good (bankPair axpy c s).2.mem := by
  simp only [bankPair]
  split
  · exact g
  · split
    · exact g
    · split
      · split
        · exact g
        · exact good_bankStore (good_bankCharge g)
      · split
        · exact g
        · exact good_bankStore (good_bankCharge g)
theorem good_bankZero (g : Good s.mem) : Good (bankZero c s).2.mem := by
  simp only [bankZero]
  split
  · exact g
  · exact good_bankWrite g
theorem keeps_gemvSlice {d : GDesc} {cap : CReg} : Keeps KGood (gemvSlice c d cap) :=
  (keeps_kTry fun _ => good_engPage).bind fun _ => .getThen fun _ _ => keeps_kCheck.bind fun _ => keeps_kCheck.bind fun _ =>
    keeps_kCheck.bind fun _ => .pure
theorem keeps_gemvRun : Keeps KGood (gemvRun c) := by
  unfold gemvRun
  refine .getThen fun _ _ => ?_
  split
  · exact keeps_kEnd
  · exact keeps_kCheck.bind fun _ => (keeps_kEach fun _ => keeps_gemvSlice).bind fun _ => keeps_kCheck.bind fun _ => .bind (.modify fun _ g' =>
    good_foldl (fun _ _ => good_bankStore) (good_bankCharge g')) fun _ => .pure
theorem good_engEnd {engine : Byte} {r : CmdEnd} (g : Good s.mem) : Good (engEnd s c engine r).mem := good_complete g
theorem good_ripenWindow {m : Mem} {q : Nat} (g : Good m) : Good (ripenWindow m q) := by
  unfold ripenWindow
  split
  · exact g
  · exact goodMem_foldl (fun _ sec => good_ripen sec) g
theorem good_bankApply (gheld : Good held.mem) (g : Good s.mem) : Good (bankApply c held s).mem := by
  have ripe : Good (setMem s (ripenWindow s.mem (channelOfPa c.pa))).mem := good_ripenWindow g
  unfold bankApply
  dsimp only
  split
  · exact gheld
  · split
    · exact good_engEnd ripe
    · split
      · exact good_engEnd (good_bankPair ripe)
      · exact good_engEnd (good_bankPair ripe)
      · exact good_engEnd (good_bankZero ripe)
      · split
        · rename_i e
          exact good_engEnd (keeps_gemvRun.ok ripe e)
        · exact good_engEnd ripe
        · exact good_of_mem keepAsked_mem gheld
        · exact ripe
      · exact gheld
theorem good_bankTurn {q : Nat} (g : Good s.mem) : Good (bankTurn s q).mem := by
  simp only [bankTurn]
  split
  · exact g
  · exact good_bankApply g (good_of_mem (by simp) g)
theorem good_copyApply (gheld : Good held.mem) (gs : Good s.mem) : Good (copyApply c held s).mem := by
  unfold copyApply
  split
  · exact good_endCmd keeps_cpyRun gheld gs
  · exact good_endCmd keeps_cpy2dRun gheld gs
  · exact good_endCmd keeps_cpfillRun gheld gs
  · exact gheld
theorem keeps_bankPage {o : EngOps} {needs : List Need} : Keeps AGood (bankPage o needs w t) := by
  unfold bankPage
  refine (keeps_aFor fun _ => keeps_aXlat.bind fun _ => .pure).bind fun _ => keeps_aXlat.bind fun _ => .getThen fun _ _ => ?_
  split
  · exact keeps_aUnless.bind fun _ => .pure
  · exact keeps_aWait
theorem keeps_bankAM {i : Instr} {o : EngOps} {p : BitVec 7} {needs : List Need} : Keeps AGood (bankAM i o p needs w t) :=
  keeps_aLift.bind fun _ => keeps_aLift.bind fun _ => keeps_bankPage.bind fun _ => ⟨fun _ g => .orWait (good_pushInbox g) g⟩
theorem good_bankRun {i : Instr} {o : EngOps} {p : BitVec 7} {needs : List Need} (g : Good s.mem) : GoodOut (bankRun hd i o p needs s) :=
  good_runState (fun _ _ g' => good_runA (fun _ => keeps_bankAM) g') g

/-! ### The Kiln -/

theorem keeps_kSeq : Keeps KGood (kSeq c) := by
  unfold kSeq
  refine .getThen fun _ _ => ?_
  split
  · exact .pure
  · exact keeps_kEnd
@[simp] theorem updSeq_mem {id : BitVec 32} {f : Seq → Seq} : (updSeq s id f).mem = s.mem := rfl
theorem keeps_kUnfrozen {p : Nat} : Keeps KGood (kUnfrozen q p) := .getThen fun _ _ => keeps_kCheck
theorem keeps_kGroupUnfrozen {v : List VRun} {g0 : Nat} : Keeps KGood (kGroupUnfrozen q v g0) := .getThen fun _ _ => keeps_kCheck
theorem keeps_kDesc : Keeps KGood (kDesc q) := keeps_readDesc.bind fun _ => .getThen fun _ _ => .ite (keeps_mapCap.bind fun _ => .pure) .pure
theorem keeps_kOperand {off : Nat} : Keeps KGood (kOperand q c off n) := keeps_kCheck.bind fun _ => keeps_kData
theorem keeps_jWrite {es : List (List Byte)} : Keeps KGood (jWrite q d es) :=
  .ite .pure (keeps_kNum.bind fun _ => keeps_kCheck.bind fun _ => keeps_kWrite.bind fun _ => keeps_kPut)
theorem keeps_addOffcut {o : Offcut} : Keeps KGood (addOffcut o) := .modify fun _ g => good_of_mem (by simp) g
theorem keeps_dropVersion {group rank : Nat} {x : Layer} : Keeps KGood (dropVersion q d group rank x) := keeps_addOffcut
theorem keeps_freeJournal {p : Offcut → Bool} : Keeps KGood (freeJournal q p) := .modify fun _ g => good_of_mem (by simp) g
@[simp] theorem updHolds_mem {p : Hold → Bool} {f : Hold → Hold} : (updHolds q p f s).mem = s.mem := rfl
theorem keeps_cutNumbering {runs : List Run} : Keeps KGood (cutNumbering q d runs n) := .modify fun _ g => good_of_mem (by simp) g
theorem keeps_releaseOffcuts : Keeps KGood (releaseOffcuts q) :=
  keeps_readDesc.bind fun _ => .getThen fun _ _ => (keeps_kFor fun _ => keeps_poolPush).bind fun _ => .modify fun _ g' => good_of_mem (by simp) g'
theorem keeps_ranks : Keeps KGood (ranks q d) := keeps_causalLayers.bind fun _ => .pure
theorem keeps_newGroup {closed : Bool} {nalloc : Nat} : Keeps KGood (newGroup q d closed nalloc) :=
  keeps_poolPop.bind fun _ => keeps_zeroPage.bind fun _ => keeps_writeGroup.bind fun _ => keeps_ranks.bind fun _ => (keeps_kFor fun _ =>
    keeps_poolPop.bind fun _ => keeps_zeroPage.bind fun _ => keeps_writeLayer).bind fun _ => .pure
theorem keeps_setRef {g0 : Nat} : Keeps KGood (setRef q d g0 n) := keeps_kPut
theorem keeps_dropRef {offcut : Bool} {g0 : Nat} : Keeps KGood (dropRef q d offcut g0) :=
  keeps_readGroup.bind fun _ => keeps_setRef.bind fun _ => .ite (keeps_ranks.bind fun _ => (keeps_kFor fun _ => keeps_readLayer.bind fun _ =>
    keeps_addOffcut.bind fun _ => .ite .pure keeps_poolPush).bind fun _ => .ite keeps_addOffcut keeps_poolPush) .pure
theorem keeps_copyPage {src dst : Nat} : Keeps KGood (copyPage q d src dst) :=
  keeps_kData.bind fun _ => keeps_kRaw.bind fun _ => .before keeps_kPoison fun _ => .pure
theorem keeps_lowerFork {m : Nat} {f : Run → Run} : Keeps KGood (lowerFork q d m f) :=
  keeps_view.bind fun _ => keeps_readRuns.bind fun _ => keeps_writeRuns.bind fun _ => .modify fun _ g => good_of_mem (by simp) g
theorem keeps_curSeq : Keeps KGood (curSeq q) := .getThen fun _ _ => .pure
@[simp] theorem renameKept_mem {g0 g' : Nat} : (renameKept q g0 g' s).mem = s.mem := rfl
theorem keeps_ownGroup {g0 : Nat} : Keeps KGood (ownGroup q d g0) := by
  unfold ownGroup
  refine keeps_readGroup.bind fun x => .ite .pure ?_
  refine keeps_newGroup.bind fun _ => keeps_writeGroup.bind fun _ => keeps_ranks.bind fun _ => (keeps_kEach fun _ =>
    keeps_readLayer.bind fun _ => keeps_readLayer.bind fun _ => keeps_copyPage.bind fun _ => keeps_writeLayer.bind fun _ => .pure).bind fun _ =>
    keeps_view.bind fun _ => keeps_readRuns.bind fun _ => ?_
  extract_lets starts rename rest
  have k : ∀ y, Keeps KGood (rest y) := fun _ => keeps_setRef.bind fun _ => .bind (.modify fun _ g => good_of_mem renameKept_mem g) fun _ =>
    keeps_readRuns.bind fun _ => .pure
  clear_value starts
  split
  · exact keeps_writeRuns.bind k
  · exact keeps_lowerFork.bind k
theorem keeps_writeGreen {mask : Nat} {codes vals : List Nat} {poison : List Bool} {page : Nat} : Keeps KGood
    (writeGreen q d mask codes vals poison page) :=
  keeps_writePage.bind fun _ => .pure
theorem keeps_writeSeasoned {mask : Nat} {vals : List Nat} {poison : List Bool} {page : Nat} : Keeps KGood
    (writeSeasoned q d mask vals poison page) :=
  keeps_writePage.bind fun _ => .pure
theorem keeps_publish {g0 j : Nat} {closed : Bool} {old new : Layer} : Keeps KGood (publish q d g0 j closed old new) :=
  keeps_writeLayer.bind fun _ => keeps_dropVersion.bind fun _ => .pure
theorem keeps_seasonLayer {g0 j : Nat} {closed : Bool} : Keeps KGood (seasonLayer q d g0 j closed) :=
  keeps_readLayer.bind fun _ => keeps_readBlock.bind fun _ => keeps_poolPop.bind fun _ => keeps_writeSeasoned.bind fun ⟨_, _⟩ =>
    keeps_publish.bind fun _ => .pure
theorem keeps_patchLayer {g0 j nalloc : Nat} {closed : Bool} {bits : Nat} {news : Nat → Option (Nat × Bool)} : Keeps KGood
    (patchLayer q d g0 j nalloc closed bits news) :=
  keeps_readLayer.bind fun _ => keeps_readBlock.bind fun _ => keeps_poolPop.bind fun _ =>
    .bind (.ite keeps_writeSeasoned keeps_writeGreen) fun ⟨_, _⟩ => keeps_publish.bind fun _ => .pure
theorem keeps_clearSlots {g0 j bits : Nat} : Keeps KGood (clearSlots q d g0 j bits) :=
  keeps_readLayer.bind fun _ => .ite .pure (keeps_readBlock.bind fun _ => keeps_poolPop.bind fun _ => .bind (.ite (keeps_writePage.bind fun _ =>
    .pure) (keeps_writeGreen.bind fun ⟨_, _⟩ => .pure)) fun _ => keeps_publish.bind fun _ => .pure)
theorem keeps_tailGroup {v : List VRun} : Keeps KGood (tailGroup q d v) := by
  unfold tailGroup
  split
  · exact .pure
  · exact keeps_readGroup.bind fun _ => .pure
theorem keeps_beginColumn {gen : BitVec 32} {c : Nat} : Keeps KGood (beginColumn q d gen c) :=
  keeps_mapCap.bind fun _ => keeps_kCheck.bind fun _ => keeps_kFor fun _ => keeps_putCell
theorem keeps_endColumns {lo hi : Nat} : Keeps KGood (endColumns q d lo hi) :=
  keeps_mapCap.bind fun _ => keeps_kFor fun _ => keeps_kFor fun _ => keeps_kPut
theorem keeps_withScribe {f : KM Unit} (h : Keeps KGood f) : Keeps KGood (withScribe f) := .getThen fun _ _ => .ite h .pure
theorem keeps_allocSlot : Keeps KGood (allocSlot q d) := by
  unfold allocSlot
  refine keeps_view.bind fun _ => keeps_tailGroup.bind fun _ => .bind ?_ fun ⟨_, _⟩ => keeps_readGroup.bind fun _ => keeps_readRuns.bind fun _ =>
    keeps_writeRuns.bind fun _ =>
    keeps_writeGroup.bind fun _ => keeps_setLength.bind fun _ => (keeps_withScribe (.ite keeps_beginColumn .pure)).bind fun _ => .pure
  split
  · exact keeps_ownGroup
  · exact keeps_newGroup.bind fun _ => .pure
theorem keeps_writeSlot {g0 j s : Nat} {r : EngData} : Keeps KGood (writeSlot q d g0 j s r) :=
  keeps_readLayer.bind fun _ => keeps_readGroup.bind fun _ => .ite keeps_patchLayer (keeps_kRaw.bind fun _ => .before keeps_kPoison fun _ =>
    keeps_writeLayer.bind fun _ => .ite (keeps_seasonLayer.bind fun ⟨_, _⟩ => .pure) .pure)
theorem keeps_layerRank {l : Nat} : Keeps KGood (layerRank q d l) := by
  unfold layerRank
  refine keeps_causalLayers.bind fun _ => ?_
  split
  · exact .pure
  · exact keeps_kEnd
theorem keeps_kvapp : Keeps KGood (kvapp c) := by
  unfold kvapp
  refine keeps_kSeq.bind fun _ => keeps_kDesc.bind fun _ => keeps_kCheck.bind fun _ => keeps_layerRank.bind fun _ => keeps_kOperand.bind fun _ =>
    keeps_view.bind fun _ => .bind ?_ fun _ => ?_
  · split
    · exact .pure
    · exact keeps_readLayer.bind fun _ => .pure
  · refine .bind ?_ fun ⟨a, b⟩ => keeps_curSeq.bind fun _ => keeps_writeSlot.bind fun ⟨a, b⟩ => keeps_jWrite.bind fun _ =>
    keeps_releaseOffcuts.bind fun _ => .pure
    split
    · exact keeps_kUnfrozen.bind fun _ => keeps_ownGroup.bind fun ⟨a, b⟩ => .pure
    · exact keeps_allocSlot
theorem keeps_kvseal : Keeps KGood (kvseal c) := by
  unfold kvseal
  refine keeps_kSeq.bind fun _ => keeps_kDesc.bind fun _ => keeps_kCheck.bind fun _ => keeps_view.bind fun _ => ?_
  split
  · exact keeps_kEnd
  · exact keeps_kGroupUnfrozen.bind fun _ => keeps_readGroup.bind fun _ => keeps_ranks.bind fun _ => (keeps_kEach fun _ =>
    keeps_readLayer.bind fun _ => .pure).bind fun _ => .ite .pure (keeps_ownGroup.bind fun ⟨_, _⟩ => keeps_curSeq.bind fun _ => (keeps_kEach fun _ =>
    keeps_seasonLayer).bind fun _ => keeps_readGroup.bind fun _ => keeps_writeGroup.bind fun _ => keeps_jWrite.bind fun _ =>
    keeps_releaseOffcuts.bind fun _ => .pure)
theorem keeps_kvpatch : Keeps KGood (kvpatch c) := by
  simp only [kvpatch]
  refine keeps_kSeq.bind fun _ => keeps_kDesc.bind fun _ => keeps_kCheck.bind fun _ => keeps_layerRank.bind fun _ => keeps_kOperand.bind fun _ =>
    keeps_kCheck.bind fun _ => keeps_kCheck.bind fun _ => keeps_view.bind fun _ => ?_
  split
  · exact keeps_kEnd
  · exact keeps_kCheck.bind fun _ => keeps_kOperand.bind fun _ => keeps_kGroupUnfrozen.bind fun _ => keeps_ownGroup.bind fun ⟨a, b⟩ =>
    keeps_curSeq.bind fun _ => keeps_readGroup.bind fun _ => keeps_patchLayer.bind fun ⟨a, b⟩ => keeps_jWrite.bind fun _ =>
    keeps_releaseOffcuts.bind fun _ => .pure
theorem keeps_kvstat : Keeps KGood (kvstat c) :=
  keeps_kSeq.bind fun _ => keeps_kDesc.bind fun _ => keeps_kCheck.bind fun _ => .getThen fun _ _ => keeps_kNum.bind fun _ =>
    .bind (.ite keeps_kNum .pure) fun _ => .bind (.ite keeps_kNum .pure) fun _ => keeps_kRaw.bind fun _ => .pure
theorem keeps_removeSlots {gone kept : List VRun} : Keeps KGood (removeSlots q d gone kept) :=
  (keeps_kFor fun _ => keeps_dropRef).bind fun _ => (keeps_kEach fun _ => keeps_curSeq.bind fun _ => keeps_ownGroup.bind fun ⟨_, _⟩ =>
    keeps_ranks.bind fun _ => (keeps_kEach fun _ => keeps_clearSlots).bind fun _ => .pure).bind fun _ => .pure
theorem keeps_kvtrunc : Keeps KGood (kvtrunc c) :=
  keeps_kSeq.bind fun _ => keeps_kDesc.bind fun _ => keeps_kCheck.bind fun _ => keeps_kCheck.bind fun _ => .ite .pure (keeps_kUnfrozen.bind fun _ =>
    keeps_view.bind fun _ => (keeps_kFor fun _ => keeps_kGroupUnfrozen).bind fun _ => keeps_cutNumbering.bind fun _ => keeps_readRuns.bind fun _ =>
    keeps_writeRuns.bind fun _ => .bind (.modify fun _ g => good_of_mem (by simp) g) fun _ => keeps_setLength.bind fun _ => keeps_curSeq.bind fun _ =>
    keeps_removeSlots.bind fun _ => (keeps_withScribe keeps_endColumns).bind fun _ => keeps_releaseOffcuts.bind fun _ => .pure)
theorem keeps_modelOk : Keeps KGood (modelOk q d) := keeps_kBytes.bind fun _ => (keeps_kEach fun _ => keeps_kBytes).bind fun _ => .pure
theorem keeps_openCheck : Keeps KGood (openCheck q) :=
  keeps_kCheck.bind fun _ => (keeps_kLift fun _ => good_engPage).bind fun _ => keeps_kCheck.bind fun _ => keeps_readDesc.bind fun _ =>
    keeps_kBytes.bind fun _ => keeps_kCheck.bind fun _ => keeps_kBytes.bind fun _ => keeps_kCheck.bind fun _ => keeps_modelOk.bind fun _ =>
    keeps_kCheck.bind fun _ => keeps_tableCap.bind fun _ => .pure
theorem keeps_register : Keeps KGood (register q) :=
  .getThen fun _ g => .bind (.set (good_of_mem (by simp) g)) fun _ => keeps_kPut.bind fun _ => .pure
theorem keeps_seqopen {dn : Nat} : Keeps KGood (seqopen dn c) :=
  .getThen fun _ _ => keeps_kCheck.bind fun _ => keeps_kCheck.bind fun _ => keeps_openCheck.bind fun _ => .getThen fun _ _ =>
    keeps_kCheck.bind fun _ => keeps_register.bind fun _ => keeps_kPut.bind fun _ => keeps_kPutCap.bind fun _ => .pure
theorem keeps_kvfork : Keeps KGood (kvfork c) :=
  keeps_kSeq.bind fun _ => keeps_kDesc.bind fun _ => keeps_kCheck.bind fun _ => keeps_kCheck.bind fun _ => keeps_kCheck.bind fun _ =>
    keeps_kCheck.bind fun _ => keeps_openCheck.bind fun _ => keeps_kCheck.bind fun _ => keeps_view.bind fun _ => keeps_tailGroup.bind fun _ =>
    keeps_kNum.bind fun _ => keeps_kCheck.bind fun _ => .getThen fun _ _ => keeps_kCheck.bind fun _ => (keeps_kFor fun _ =>
    keeps_readGroup.bind fun _ => keeps_setRef).bind fun _ => keeps_register.bind fun _ => keeps_writeRuns.bind fun _ => keeps_setLength.bind fun _ =>
    keeps_kPut.bind fun _ => keeps_kPutCap.bind fun _ => keeps_setGen.bind fun _ => keeps_setSettled.bind fun _ => keeps_kBytes.bind fun _ =>
    keeps_kWrite.bind fun _ => (keeps_withScribe (keeps_mapCap.bind fun _ => keeps_mapCap.bind fun _ => keeps_kCheck.bind fun _ => keeps_kFor fun _ =>
    keeps_kFor fun _ => keeps_getCell.bind fun _ => keeps_putCell)).bind fun _ => keeps_kPutCap.bind fun _ => .pure
theorem keeps_journalEntries : Keeps KGood (journalEntries q d) := keeps_kNum.bind fun _ => keeps_kEach fun _ => keeps_kBytes
theorem keeps_closeOffcut {o : Offcut} : Keeps KGood (closeOffcut q d o) := by
  unfold closeOffcut
  refine .getThen fun _ _ => ?_
  split
  · exact keeps_readDesc.bind fun _ => .modify fun _ g' => good_of_mem (by simp) g'
  · exact keeps_poolPush
theorem keeps_endSeq : Keeps KGood (endSeq q) :=
  keeps_readDesc.bind fun _ => keeps_view.bind fun _ => (keeps_kFor fun _ => keeps_dropRef).bind fun _ => .getThen fun _ _ => (keeps_kFor fun _ =>
    keeps_closeOffcut).bind fun _ => (keeps_kFor fun _ => .ite (keeps_kFor fun _ => keeps_poolPush) .pure).bind fun _ => .modify fun _ g' =>
    good_of_mem (by simp) g'
theorem keeps_endWaits : Keeps KGood (endWaits q) :=
  .modify fun _ g => good_foldl (fun _ _ g' => good_of_mem (by simp) g') (good_foldl (fun _ _ => good_complete) (good_of_mem (by simp) g))
theorem keeps_seqclose : Keeps KGood (seqclose c) := by
  unfold seqclose
  refine .getThen fun _ _ => keeps_kCheck.bind fun _ => keeps_kCheck.bind fun _ => .getThen fun _ _ => ?_
  split
  · exact keeps_kEnd
  · exact keeps_kDesc.bind fun _ => .getThen fun _ _ => keeps_kCheck.bind fun _ => .getThen fun _ _ => .before keeps_kWait fun _ =>
    keeps_endSeq.bind fun _ => .pure
theorem keeps_rngValue : Keeps KGood (rngValue q d) := keeps_kBytes
theorem keeps_setJournal {on : Bool} : Keeps KGood (setJournal q on) := .modify fun _ g => good_of_mem (by simp) g
theorem keeps_kvjopen : Keeps KGood (kvjopen c) :=
  keeps_kSeq.bind fun _ => keeps_kDesc.bind fun _ => keeps_kCheck.bind fun _ => keeps_kCheck.bind fun _ => keeps_kCheck.bind fun _ =>
    keeps_kWrite.bind fun _ => keeps_setJournal.bind fun _ => .pure
theorem keeps_kvjmark : Keeps KGood (kvjmark c) :=
  keeps_kSeq.bind fun _ => keeps_kDesc.bind fun _ => keeps_kCheck.bind fun _ => keeps_kCheck.bind fun _ => keeps_rngValue.bind fun _ =>
    keeps_kNum.bind fun _ => keeps_jWrite.bind fun _ => keeps_kWrite.bind fun _ => keeps_kPut.bind fun _ => .pure
theorem keeps_kFatal {α : Type} : Keeps KGood (kFatal : KM α) := ⟨fun _ _ => trivial⟩
theorem keeps_undoSlot {g0 j s : Nat} {fresh : Bool} : Keeps KGood (undoSlot q d g0 j s fresh) :=
  keeps_readLayer.bind fun _ => .getThen fun _ _ => .before keeps_kWait fun _ => keeps_kRaw.bind fun _ => keeps_readBlock.bind fun _ =>
    keeps_writeLayer.bind fun _ => .ite (keeps_readGroup.bind fun _ => keeps_writeGroup) .pure
theorem keeps_undoVersion {g0 j : Nat} {seasoned closed : Bool} {addr : Nat} : Keeps KGood (undoVersion q d g0 j seasoned closed addr) :=
  keeps_readLayer.bind fun _ => keeps_addOffcut.bind fun _ => .bind (.modify fun _ g => good_of_mem (by simp) g) fun _ =>
    keeps_readBlock.bind fun _ => keeps_writeLayer.bind fun _ => keeps_readGroup.bind fun _ => keeps_writeGroup
theorem keeps_undoEntry {b : List Byte} : Keeps KGood (undoEntry q d b) := by
  unfold undoEntry
  split
  · exact keeps_undoSlot
  · exact keeps_dropRef
  · exact keeps_readGroup.bind fun _ => keeps_setRef.bind fun _ => .bind (.modify fun _ g => good_of_mem (by simp) g) fun _ => keeps_dropRef
  · exact keeps_undoVersion
  · exact keeps_kWrite.bind fun _ => keeps_kPut
  · exact keeps_setLength
  · exact keeps_kWrite
  · exact .pure
theorem keeps_kvjundo : Keeps KGood (kvjundo c) :=
  keeps_kSeq.bind fun _ => keeps_kDesc.bind fun _ => keeps_kCheck.bind fun _ => keeps_kNum.bind fun _ => keeps_kCheck.bind fun _ =>
    keeps_journalEntries.bind fun _ => keeps_causalLayers.bind fun _ => .ite keeps_kFatal ((keeps_kFor fun _ =>
    .ite keeps_kUnfrozen .pure).bind fun _ => keeps_view.bind fun _ => (keeps_kFor fun _ => keeps_undoEntry).bind fun _ => keeps_kPut.bind fun _ =>
    keeps_kPut.bind fun _ => keeps_readDesc.bind fun _ => keeps_readRuns.bind fun _ => .before keeps_cutNumbering fun _ => .bind (.modify fun _ g =>
    good_of_mem (by simp) g) fun _ => keeps_releaseOffcuts.bind fun _ => .pure)
theorem keeps_kvjclose : Keeps KGood (kvjclose c) :=
  keeps_kSeq.bind fun _ => keeps_kDesc.bind fun _ => keeps_kCheck.bind fun _ => keeps_journalEntries.bind fun _ => keeps_causalLayers.bind fun _ =>
    .ite keeps_kFatal (keeps_freeJournal.bind fun _ => keeps_kPut.bind fun _ => keeps_kPut.bind fun _ => keeps_kPut.bind fun _ =>
    keeps_setJournal.bind fun _ => keeps_releaseOffcuts.bind fun _ => .pure)
theorem keeps_rotateLayer {pop : KM Nat} {gr j : Nat} {closed : Bool} {delta : ℤ} {bits : Nat} (h : Keeps KGood pop) : Keeps KGood
    (rotateLayer pop q d gr j closed delta bits) :=
  keeps_readLayer.bind fun _ => .ite .pure <| keeps_readBlock.bind fun _ => h.bind fun _ => .bind (.ite keeps_writeSeasoned keeps_writeGreen) fun _ =>
    keeps_publish.bind fun _ => .pure
theorem keeps_rotateView {pop : KM Nat} {first count : Nat} {delta : ℤ} (h : Keeps KGood pop) : Keeps KGood
    (rotateView pop q d first count delta) := by
  refine keeps_view.bind fun _ => .bind (keeps_kEach fun _ => ?_) fun _ => .pure
  exact keeps_curSeq.bind fun _ => keeps_ownGroup.bind fun _ => keeps_readGroup.bind fun _ => keeps_ranks.bind fun _ => (keeps_kEach fun _ =>
    keeps_rotateLayer h).bind fun _ => .pure
theorem keeps_cprot : Keeps KGood (cprot c) :=
  .getThen fun _ _ => keeps_kCheck.bind fun _ => keeps_kSeq.bind fun _ => keeps_kDesc.bind fun _ => keeps_kCheck.bind fun _ =>
    keeps_kUnfrozen.bind fun _ => keeps_view.bind fun _ => (keeps_kFor fun _ => keeps_kGroupUnfrozen).bind fun _ => keeps_kCheck.bind fun _ =>
    .ite .pure ((keeps_rotateView keeps_poolPop).bind fun _ => keeps_curSeq.bind fun _ => keeps_releaseOffcuts.bind fun _ => .pure)
theorem keeps_kilnRun {dn : Nat} : Keeps KGood (kilnRun dn c) := by
  unfold kilnRun
  split
  · exact keeps_seqopen
  · exact keeps_seqclose
  · refine .getThen fun _ _ => keeps_kCheck.bind fun _ => ?_
    split
    · exact keeps_kvapp
    · exact keeps_kvseal
    · exact keeps_kvpatch
    · exact keeps_kvfork
    · exact keeps_kvtrunc
    · exact keeps_kvstat
    · exact keeps_kvjopen
    · exact keeps_kvjmark
    · exact keeps_kvjundo
    · exact keeps_kvjclose
    · exact keeps_kWait

/-! ### Waves, holds and drains -/

theorem keeps_markCells {cap : Nat} {g0 : BitVec 32} {layers cols : List Nat} : Keeps KGood (markCells q d cap g0 layers cols) :=
  keeps_kFor fun _ => keeps_kFor fun _ => keeps_getCell.bind fun _ => keeps_putCell
theorem keeps_layerCells {cap l : Nat} : Keeps KGood (layerCells q d cap l) := keeps_kEach fun _ => keeps_getCell
theorem keeps_rebucket {cap : Nat} {m : EditMap} : Keeps KGood (rebucket q d cap m) :=
  keeps_kFor fun _ => keeps_layerCells.bind fun _ => (keeps_kFor fun _ => keeps_putCell).bind fun _ => keeps_kFor fun _ => keeps_kPut
theorem keeps_blockNow {j : Nat} {rs : List Run} {g0 : Nat} : Keeps KGood (blockNow q d j rs g0) := keeps_readLayer.bind fun _ => .pure
theorem keeps_blocksNow {j lo hi : Nat} : Keeps KGood (blocksNow q d j lo hi) := keeps_view.bind fun _ => keeps_kEach fun _ => keeps_blockNow
theorem keeps_blockBefore {j m : Nat} {rs : List Run} {g0 : Nat} : Keeps KGood (blockBefore q d j m rs g0) := by
  simp only [blockBefore]
  refine .getThen fun _ _ => ?_
  split
  · exact keeps_blockNow
  · exact keeps_kCheck.bind fun _ => .pure
theorem keeps_blocksBefore {j : Nat} {gen : BitVec 32} {lo hi : Nat} : Keeps KGood (blocksBefore q d j gen lo hi) := by
  unfold blocksBefore
  refine .getThen fun _ _ => ?_
  split
  · exact keeps_kEnd
  · exact keeps_view.bind fun _ => keeps_kCheck.bind fun _ => keeps_kEach fun _ => keeps_blockBefore
theorem keeps_freezeHolds {g0 : BitVec 32} : Keeps KGood (freezeHolds q d g0) := by
  unfold freezeHolds
  refine keeps_causalLayers.bind fun _ => .getThen fun _ _ => keeps_kFor fun _ => .bind ?_ fun _ => .modify fun _ g' => good_of_mem (by simp) g'
  split
  · exact keeps_blocksNow
  · exact .pure
theorem keeps_takeGen {edit : Option EditMap} : Keeps KGood (takeGen q d edit) :=
  keeps_freezeHolds.bind fun _ => keeps_view.bind fun _ => .bind (.modify fun _ g => good_of_mem (by simp) g) fun _ => keeps_setGen.bind fun _ =>
    .pure
theorem keeps_pushItem {cap : Nat} {w : Wave} {cols : List Nat} : Keeps KGood (pushItem q d cap w cols) :=
  keeps_layerEntry.bind fun _ => (keeps_kFor fun _ => keeps_putCell).bind fun _ => .modify fun _ g => good_deliver (good_of_mem (by simp) g)
theorem keeps_formItems {cap : Nat} {w : Wave} : Keeps KGood (formItems q d cap w) :=
  .getThen fun _ _ => .ite (keeps_layerCells.bind fun _ => keeps_kFor fun _ => keeps_pushItem) .pure
theorem keeps_updWave {g0 : BitVec 32} {f : Wave → Wave} : Keeps KGood (updWave q g0 f) := .modify fun _ g => good_of_mem (by simp) g
theorem keeps_waveDone {cap : Nat} {w : Wave} : Keeps KGood (waveDone q d cap w) :=
  .getThen fun _ _ => .ite .pure (keeps_layerCells.bind fun _ => .pure)
theorem keeps_endSettles {settled : BitVec 32} : Keeps KGood (endSettles q settled) :=
  .modify fun _ g => good_foldl (fun _ _ => good_complete) (good_of_mem (by simp) g)
theorem keeps_completeWave {w : Wave} : Keeps KGood (completeWave q w) :=
  .bind (.modify fun _ g => good_of_mem (by simp) g) fun _ => keeps_setSettled.bind fun _ => keeps_endSettles.bind fun _ => keeps_releaseOffcuts
theorem keeps_mergeWaves {cap : Nat} {a b : Wave} : Keeps KGood (mergeWaves q d cap a b) :=
  (keeps_kFor fun _ => keeps_layerCells.bind fun _ => keeps_kFor fun _ => .ite keeps_putCell .pure).bind fun _ => .bind (.modify fun _ g =>
    good_of_mem (by simp) g) fun _ => keeps_updWave
theorem keeps_waveStep : Keeps KGood (waveStep q) := by
  unfold waveStep
  refine keeps_readDesc.bind fun _ => keeps_mapCap.bind fun _ => .getThen fun _ _ => (keeps_kEach fun _ => keeps_waveDone.bind fun _ =>
    .pure).bind fun _ => ?_
  split
  · exact .either keeps_completeWave keeps_updWave fun _ => .pure
  · exact keeps_updWave.bind fun _ => keeps_formItems.bind fun _ => .pure
  · exact keeps_mergeWaves.bind fun _ => .pure
  · exact .pure
theorem keeps_waveSteps : Keeps KGood (waveSteps q n) := by
  induction n with
  | zero => exact .pure
  | succ n ih => exact keeps_waveStep.bind fun _ => .ite ih .pure
theorem keeps_advance : Keeps KGood (advance q) :=
  keeps_readDesc.bind fun _ => keeps_mapCap.bind fun _ => .getThen fun _ _ => (keeps_kFor fun _ => keeps_formItems).bind fun _ =>
    keeps_waveSteps.bind fun _ => keeps_releaseOffcuts
theorem good_runScribe {f : Seq → KM Unit} {id : BitVec 32} (h : ∀ q, Keeps KGood (f q)) (g : Good s.mem) : Good (runScribe f id s).mem := by
  unfold runScribe
  split
  · exact g
  · split
    · rename_i e
      exact (h _).ok g e
    · exact good_of_mem keepAsked_mem g
    · exact good_of_mem forgetEngEnds_mem g
theorem good_advanceSeq {id : BitVec 32} (g : Good s.mem) : Good (advanceSeq id s).mem := good_runScribe (fun _ => keeps_advance) g
theorem good_sweepHolds (g : Good s.mem) : Good (sweepHolds s).mem :=
  good_foldl (fun _ _ g' => good_runScribe (fun _ => keeps_releaseOffcuts) g') (good_of_mem (by simp) g)
theorem keeps_holdWord {l : Nat} {cols : List Nat} {err : Nat} : Keeps KGood (holdWord q d l cols err) := by
  unfold holdWord
  refine keeps_mapCap.bind fun _ => (keeps_kEach fun _ => keeps_getCell).bind fun _ => ?_
  split <;> exact .pure

/-! ### The Scribe -/

theorem keeps_checkQueues : Keeps KGood (checkQueues q d) := keeps_kFor fun _ => .getThen fun _ _ => keeps_layerEntry.bind fun _ => keeps_kCheck
theorem keeps_newWave {g0 : BitVec 32} {seam inserted : List Nat} : Keeps KGood (newWave q g0 seam inserted) :=
  .modify fun _ g => good_of_mem (by simp) g
theorem keeps_insertGroups {p : Nat} : Keeps KGood (insertGroups q d p n) := keeps_kEach fun _ => keeps_newGroup.bind fun _ => .pure
theorem keeps_rewritePos {lo hi : Nat} : Keeps KGood (rewritePos q d lo hi) :=
  keeps_view.bind fun _ => (keeps_kEach fun _ => keeps_curSeq.bind fun _ => keeps_ownGroup.bind fun ⟨_, _⟩ => keeps_readGroup.bind fun _ =>
    keeps_writeGroup.bind fun _ => .pure).bind fun _ => .pure
theorem keeps_rotationPages {lo hi : Nat} : Keeps KGood (rotationPages q d lo hi) :=
  keeps_view.bind fun _ => keeps_ranks.bind fun _ => (keeps_kEach fun _ => keeps_kEach fun _ => keeps_readLayer.bind fun _ =>
    .ite .pure (keeps_poolPop.bind fun _ => .pure)).bind fun _ => .pure
theorem keeps_carryAll {m : EditMap} : Keeps KGood (carryAll q d m) := .modify fun _ g => good_of_mem (by simp) g
theorem keeps_editAllowed {p : Nat} : Keeps KGood (editAllowed q p) := keeps_kCheck.bind fun _ => keeps_kUnfrozen
theorem keeps_moveEdit {ins : Bool} : Keeps KGood (moveEdit ins c) :=
  keeps_kSeq.bind fun _ => keeps_readDesc.bind fun _ => keeps_mapCap.bind fun _ => keeps_kCheck.bind fun _ => keeps_editAllowed.bind fun _ =>
    keeps_view.bind fun _ => (keeps_kFor fun _ => keeps_kGroupUnfrozen).bind fun _ => keeps_kCheck.bind fun _ => keeps_kCheck.bind fun _ =>
    keeps_checkQueues.bind fun _ => keeps_takeGen.bind fun _ => keeps_view.bind fun _ => keeps_readRuns.bind fun _ =>
    .either keeps_insertGroups .pure fun _ => keeps_writeRuns.bind fun _ => .bind (.modify fun _ g => good_of_mem (by simp) g) fun _ =>
    keeps_curSeq.bind fun _ => .either .pure keeps_removeSlots fun _ => keeps_curSeq.bind fun _ => keeps_rewritePos.bind fun _ =>
    keeps_curSeq.bind fun _ => keeps_rebucket.bind fun _ => keeps_markCells.bind fun _ => keeps_setLength.bind fun _ => keeps_carryAll.bind fun _ =>
    keeps_rotationPages.bind fun _ => .before (.modify fun _ g => good_of_mem (by simp) g) fun _ => keeps_newWave.bind fun _ => .pure
theorem keeps_edrep : Keeps KGood (edrep c) :=
  keeps_kSeq.bind fun _ => keeps_readDesc.bind fun _ => keeps_mapCap.bind fun _ => keeps_kCheck.bind fun _ => keeps_editAllowed.bind fun _ =>
    keeps_kCheck.bind fun _ => keeps_checkQueues.bind fun _ => keeps_takeGen.bind fun _ => keeps_markCells.bind fun _ => keeps_newWave.bind fun _ =>
    .pure
theorem keeps_wmark : Keeps KGood (wmark c) :=
  keeps_kSeq.bind fun _ => keeps_readDesc.bind fun _ => keeps_mapCap.bind fun _ => keeps_kCheck.bind fun _ => keeps_editAllowed.bind fun _ =>
    keeps_kCheck.bind fun _ => keeps_checkQueues.bind fun _ => keeps_takeGen.bind fun _ => keeps_markCells.bind fun _ => keeps_newWave.bind fun _ =>
    .pure
theorem keeps_settle : Keeps KGood (settle c) := by
  refine keeps_kSeq.bind fun q => keeps_readDesc.bind fun d => keeps_mapCap.bind fun _ => keeps_kCheck.bind fun _ => .ite .pure ?_
  exact .getThen fun s g => keeps_kCheck.bind fun _ => .bind (.set g) fun _ => .pure
theorem keeps_changeCell {cap l c : Nat} {f : Cell → Cell} : Keeps KGood (changeCell q d cap l c f) := keeps_getCell.bind fun _ => keeps_putCell
theorem keeps_wdone {delta id : Nat} : Keeps KGood (wdone q delta id) := by
  unfold wdone
  refine keeps_readDesc.bind fun _ => keeps_mapCap.bind fun _ => .getThen fun _ _ => ?_
  split
  · exact .pure
  · exact keeps_layerEntry.bind fun _ => (keeps_kFor fun _ => keeps_changeCell).bind fun _ => .ite (keeps_layerEntry.bind fun _ =>
    (keeps_kFor fun _ => keeps_changeCell).bind fun _ => .bind (.modify fun _ g' => good_of_mem (by simp) g') fun _ =>
    .pure) (.bind (.modify fun _ g' => good_of_mem (by simp) g') fun _ => .pure)
theorem keeps_wcell {l c : Nat} : Keeps KGood (wcell q l c) :=
  keeps_readDesc.bind fun _ => keeps_mapCap.bind fun _ => .ite .pure (keeps_getCell.bind fun _ => .pure)
theorem keeps_addHold {h : Hold} : Keeps KGood (addHold h) := .modify fun _ g => good_of_mem (by simp) g
theorem keeps_grantHold {h : Hold} : Keeps KGood (grantHold q d h) := by
  simp only [grantHold]
  refine .getThen fun _ _ => keeps_causalLayers.bind fun _ => ?_
  split
  · exact .ite .pure (keeps_kCheck.bind fun _ => keeps_blocksBefore.bind fun _ => .pure)
  · exact keeps_blocksNow.bind fun _ => .pure
  · exact .pure
theorem keeps_whold {a : Ask} : Keeps KGood (Machine.whold c t a) := by
  unfold Machine.whold
  refine .getThen fun _ _ => ?_
  split
  · exact .pure
  · split
    · exact .pure
    · exact keeps_readDesc.bind fun _ => keeps_mapCap.bind fun _ => .ite (keeps_holdWord.bind fun _ =>
      .pure) (.ite .pure (.ite (keeps_addHold.bind fun _ => .pure) (keeps_grantHold.bind fun _ => keeps_addHold.bind fun _ =>
      keeps_holdWord.bind fun _ => .pure)))
theorem keeps_afterReady {h : Hold} : Keeps KGood (afterReady q d h) :=
  .ite (keeps_mapCap.bind fun _ => (keeps_kEach fun _ => keeps_getCell).bind fun _ => .pure) .pure
theorem keeps_grantAfter {req : Nat} : Keeps KGood (grantAfter req) := by
  unfold grantAfter
  refine .getThen fun _ _ => ?_
  split
  · exact .pure
  · split
    · exact .pure
    · exact keeps_readDesc.bind fun _ => keeps_afterReady.bind fun _ => .ite (keeps_grantHold.bind fun _ => .bind (.modify fun _ g' =>
      good_of_mem (by simp) g') fun _ => keeps_holdWord.bind fun _ => .modify fun _ g' => good_of_mem (by simp) g') .pure
theorem good_freeHold {req : Nat} (g : Good s.mem) : Good (freeHold req s).mem :=
  good_foldl (fun _ _ g' => good_runScribe (fun _ => keeps_releaseOffcuts) g') (good_of_mem (by simp) g)
theorem keeps_takeReserved {gen : BitVec 32} : Keeps KGood (takeReserved q d gen) := by
  refine .getThen fun s g => ?_
  split
  · split
    · exact .bind (.set g) fun _ => .pure
    · exact keeps_poolPop
  · exact keeps_poolPop
theorem keeps_rotateEdit {r : Rotation} : Keeps KGood (rotateEdit r) := by
  refine .getThen fun _ _ => ?_
  split
  · exact .pure
  · refine keeps_readDesc.bind fun _ => (keeps_rotateView keeps_takeReserved).bind fun _ => .getThen fun _ _ => ?_
    extract_lets told rest
    have k : ∀ y, Keeps KGood (rest y) := fun _ => .bind (.modify fun _ g => good_of_mem (setWork_mem ..) g) fun _ =>
      .before (.modify fun _ g => good_mqEvent _ g) fun _ => keeps_curSeq.bind fun _ => keeps_releaseOffcuts.bind fun _ => .modify fun _ =>
      good_advanceSeq
    split
    · exact (keeps_kFor fun _ => keeps_poolPush).bind k
    · exact k ()
@[simp] theorem rotateFailed_mem {r : Rotation} : (rotateFailed r s).mem = s.mem := by
  unfold rotateFailed
  split <;> simp
theorem good_endSeqCmd {dn : Nat} {engine : Byte} {f : KM (Option CmdEnd)} (h : Keeps KGood f) (gheld : Good held.mem) (g : Good s.mem) : Good
    (endSeqCmd dn held s c engine f).mem := by
  unfold endSeqCmd
  dsimp only
  split
  · rename_i e
    exact good_complete (good_of_mem dropGrants_mem (h.ok g e))
  · rename_i e
    exact good_of_mem dropGrants_mem (h.ok g e)
  · exact good_complete (good_of_mem dropGrants_mem g)
  · exact good_of_mem keepAsked_mem gheld
  · exact good_fatalError g
theorem good_endRequest {bad : W128} {f : KM (Option W128)} (h : Keeps KGood f) (gheld : Good held.mem) (g : Good s.mem) : Good
    (endRequest held s c bad f).mem := by
  unfold endRequest
  split
  · rename_i e
    exact good_of_mem answer_mem (h.ok g e)
  · rename_i e
    exact h.ok g e
  · exact good_of_mem (by simp) g
  · exact good_of_mem keepAsked_mem gheld
  · exact g
theorem keeps_optEnd {f : KM CmdEnd} (h : Keeps KGood f) : Keeps KGood (optEnd f) := h.bind fun _ => .pure
theorem keeps_scribeCmd {f : KM (Option CmdEnd)} (h : Keeps KGood f) : Keeps KGood (scribeCmd f) := .getThen fun _ _ => keeps_kCheck.bind fun _ => h
theorem keeps_seqRequest {bad : W128} {f : Seq → KM W128} (h : ∀ q, Keeps KGood (f q)) : Keeps KGood (seqRequest c bad f) := by
  refine .getThen fun s _ => ?_
  split
  · exact .ite ((h _).bind fun _ => .pure) .pure
  · exact .pure
theorem good_applyHold (gheld : Good held.mem) (gs : Good s.mem) : Good (applyHold held s c).mem := by
  unfold applyHold
  split
  · exact good_endRequest keeps_whold gheld gs
  · exact gs
theorem good_applyCmd {dn : Nat} (gheld : Good held.mem) (gs : Good s.mem) : Good (applyCmd dn held s c).mem := by
  unfold applyCmd
  split
  · exact good_endSeqCmd (keeps_scribeCmd (keeps_optEnd keeps_moveEdit)) gheld gs
  · exact good_endSeqCmd (keeps_scribeCmd (keeps_optEnd keeps_moveEdit)) gheld gs
  · exact good_endSeqCmd (keeps_scribeCmd (keeps_optEnd keeps_edrep)) gheld gs
  · exact good_endSeqCmd (keeps_scribeCmd (keeps_optEnd keeps_wmark)) gheld gs
  · exact good_endSeqCmd (keeps_scribeCmd keeps_settle) gheld gs
  · exact good_endRequest (keeps_seqRequest fun _ => keeps_wdone.bind fun _ => .pure) gheld gs
  · exact good_endRequest (keeps_seqRequest fun _ => keeps_wcell) gheld gs
  · exact good_applyHold gheld gs
  · exact good_applyHold gheld gs
  · exact good_applyHold gheld gs
  · exact good_freeHold gs
  · exact good_endSeqCmd (keeps_optEnd keeps_cprot) gheld gs
  · exact good_endSeqCmd (keeps_optEnd keeps_kilnRun) gheld gs
theorem good_takeCmd {dn : Nat} (gheld : Good held.mem) (gs : Good s.mem) : Good (takeCmd dn held s c).mem := by
  have held' := good_sweepHolds (good_retryMarks gheld)
  have ready := good_sweepHolds (good_retryMarks gs)
  have applied : ∀ {id : BitVec 32}, Good (advanceSeq id (applyCmd dn (sweepHolds (retryMarks held)) (sweepHolds (retryMarks s)) c)).mem :=
    good_advanceSeq (good_applyCmd held' ready)
  simp only [takeCmd]
  split
  · exact good_applyCmd held' ready
  · split
    · exact held'
    · split
      · exact good_ite (good_of_mem (setWork_mem ..) ready) (good_ite applied held')
      · exact good_ite (good_of_mem (setWork_mem ..) ready) applied
theorem good_kilnTurn {dn ix : Nat} (g : Good s.mem) : Good (kilnTurn s dn ix).mem := by
  unfold kilnTurn
  split
  · exact good_ite (good_takeCmd g (good_of_mem (by simp) g)) g
  · exact g
theorem good_scribeTurn {dn ix : Nat} (g : Good s.mem) : Good (scribeTurn s dn ix).mem := by
  unfold scribeTurn
  split
  · exact good_ite (good_takeCmd g (good_of_mem (by simp) g)) g
  · exact g
theorem good_copyTurn {ix : Nat} (g : Good s.mem) : Good (copyTurn s cl ix).mem := by
  unfold copyTurn
  split
  · exact g
  · split
    · exact good_ite (good_takeCmd g (good_of_mem (by simp) g)) g
    · exact good_copyApply g (good_of_mem (by simp) g)
theorem good_deferredTurn {i : Nat} (g : Good s.mem) : Good (deferredTurn s i).mem := by
  unfold deferredTurn
  split
  · exact g
  · split
    · exact good_of_mem (by simp) g
    · exact good_ite g (good_advanceSeq (good_applyCmd g (good_of_mem (by simp) g)))
end
end Sys2Proof.Proofs.Canonical

/-! ## Canonical memory: messages, paging, shoring, the start, the host's window (O6) -/
namespace Sys2Proof.Proofs.Canonical
open Sys2Proof Sys2Proof.Machine Sys2Proof.Laws.State Sys2Proof.Laws.Ops Sys2Proof.Proofs.Device

section
variable {held s : State} {t : Thread} {c : Cmd} {q : Seq} {d : Desc} {w : Who} {hd : Hdr} {ctx : BitVec 12} {k n cl va : Nat}

/-! ### Sequences opened and closed -/

theorem good_kilnIssue {i : Instr} {o : EngOps} {p : BitVec 7} {checkB : Thread → Except Stop Unit} (g : Good s.mem) : GoodOut
    (kilnIssue hd i o p checkB s) :=
  good_runState (fun _ _ => good_engRun) g
theorem good_scribeIssue {i : Instr} {o : EngOps} {p : BitVec 7} (g : Good s.mem) : GoodOut (scribeIssue hd i o p s) :=
  good_runState (fun _ _ => good_engRun) g
theorem good_askRun {p : BitVec 7} {ready : Bool} {sent : Thread} {blocked : Res} {put : W128 → Res} (hb : GoodRes blocked)
    (hp : ∀ v, GoodRes (put v)) (g : Good s.mem) : GoodRes (askRun c p ready sent blocked put t s) := by
  unfold askRun
  split
  · exact hp _
  · exact hb
  · refine good_orStop g ?_
    dsimp only
    split
    · exact g
    · split
      · rename_i e
        exact good_of_mem (setCur_mem ..) (GoodOpt.get e (good_pushInbox (good_of_mem freshReq_mem g)))
      · exact g
theorem good_wdoneRes {o : WdoneOps} (g : Good s.mem) : GoodRes (wdoneRes hd o t s) := good_askRun g (fun _ => good_of_mem (by simp) g) g
theorem good_wcellRes {o : WcellOps} (g : Good s.mem) : GoodRes (wcellRes hd o t s) := good_askRun g (fun _ => good_of_mem (by simp) g) g
theorem good_wholdPut {o : WholdOps} {v : W128} (g : Good s.mem) : GoodRes (wholdPut o t s v) := by
  unfold wholdPut
  split
  · exact g
  · exact good_of_mem (setCur_mem ..) (good_ite (good_acquireLocal _ _ g) g)
theorem good_wholdBlocked {o : WholdOps} (g : Good s.mem) : GoodRes (wholdBlocked hd o t s) := by
  unfold wholdBlocked
  split
  · rename_i w e
    have blocked := of_eq e (good_blockSafe (hd := hd) (t := t) g)
    have stopped : Good w.mem := blocked
    simp only [GoodRes]
    split
    · exact good_ite (good_of_mem (setCur_mem ..) stopped) stopped
    · exact stopped
  · exact good_blockSafe g
theorem good_wholdRes {i : Instr} {safe : Bool} {o : WholdOps} (g : Good s.mem) : GoodRes (wholdRes i safe hd o t s) := by
  unfold wholdRes
  refine good_askRun ?_ (fun _ => good_wholdPut g) g
  split
  · exact good_wholdBlocked g
  · exact g
theorem good_wfreeRes {i : Instr} {o : WfreeOps} (g : Good s.mem) : GoodRes (wfreeRes i o t s) := by
  refine good_orStop g ?_
  split
  · exact good_of_mem (setCur_mem ..) g
  · split
    · exact good_of_mem (setCur_mem ..) g
    · dsimp only
      split
      · exact g
      · rename_i e
        exact good_of_mem (by simp) (GoodOpt.get e (good_pushInbox g))
theorem keeps_aKiln {α : Type} {bad : AM α} {f : KM α} (hb : Keeps AGood bad) (h : Keeps KGood f) : Keeps AGood (aKiln bad f) := by
  refine ⟨fun s g => ?_⟩
  unfold aKiln
  split
  · rename_i e
    exact h.ok g e
  · rename_i e
    exact h.error g e
  · refine hb.ends _ ?_
    split
    · exact good_of_mem forgetEngEnds_mem g
    · exact g
theorem keeps_walkGroups {j lo hi : Nat} : Keeps KGood (walkGroups q d j lo hi) :=
  keeps_view.bind fun _ => (keeps_kEach fun _ => keeps_readLayer.bind fun _ => keeps_readGroup.bind fun _ => .pure).bind fun _ => .pure
theorem keeps_sdefkWalk {a : CReg} {l lo hi : Nat} : Keeps KGood (sdefkWalk a t l lo hi q) := by
  unfold sdefkWalk
  refine keeps_readDesc.bind fun _ => ?_
  split
  · exact .pure
  · refine keeps_causalLayers.bind fun _ => ?_
    split
    · exact .pure
    · refine .getThen fun _ _ => ?_
      split
      · exact .ite .pure (keeps_blocksNow.bind fun _ => .bind (.modify fun _ g' => good_of_mem (by simp) g') fun _ => .pure)
      · exact keeps_walkGroups.bind fun _ => .pure
theorem keeps_sdefkAM {o : SdefkOps} {x : Who} : Keeps AGood (sdefkAM o x t) := by
  unfold sdefkAM
  refine keeps_aLift.bind fun _ => .getThen fun _ _ => ?_
  split
  · exact keeps_aDefine
  · refine (keeps_aKiln .pure keeps_sdefkWalk).bind fun _ => ?_
    split
    · exact keeps_aStop
    · exact keeps_aDefine
theorem keeps_walkItem {l lo hi : Nat} {held : Option (List HBlock)} {g0 : Nat} : Keeps KGood (walkItem q l lo hi held g0) := by
  unfold walkItem
  refine keeps_readDesc.bind fun _ => ?_
  split
  · exact .pure
  · refine keeps_causalLayers.bind fun _ => ?_
    split
    · exact keeps_kEnd
    · exact keeps_readLayer.bind fun _ => keeps_readGroup.bind fun _ => .pure
theorem keeps_walkNext {l lo hi : Nat} {gs : List Nat} {held : Option (List HBlock)} {pos : Nat} : Keeps KGood (walkNext q l lo hi gs held pos) := by
  simp only [walkNext]
  refine .getThen fun _ _ => ?_
  split
  · refine .bind .pure fun _ => ?_
    split
    · exact keeps_walkItem.bind fun _ => .pure
    · exact .pure
  · refine keeps_readDesc.bind fun _ => keeps_view.bind fun _ => ?_
    split
    · exact keeps_walkItem.bind fun _ => .pure
    · exact .pure
theorem keeps_srdAM {o : SldOps} : Keeps AGood (srdAM o w t) := by
  unfold srdAM
  refine keeps_aStream.bind fun _ => ?_
  split
  · refine keeps_roomL.bind fun _ => .getThen fun _ _ => ?_
    split
    · refine (keeps_aKiln keeps_aStop keeps_walkNext).bind fun _ => ?_
      split <;> exact .pure
    · exact .pure
  · refine keeps_roomL.bind fun _ => keeps_aSkipEntry.bind fun ⟨_, _⟩ => ?_
    dsimp only
    split <;> exact .pure
theorem good_execSeqopen (g : Good s.mem) : GoodOut (execSeqopen s) := by
  unfold execSeqopen
  split
  · split
    · exact good_kilnTurn g
    · exact g
  · exact g
theorem good_execSeqclose (g : Good s.mem) : GoodOut (execSeqclose s) := by
  unfold execSeqclose
  split
  · split
    · exact good_kilnTurn g
    · exact g
  · exact g
theorem good_engineTurn {e : EngineId} {ix : Nat} (g : Good s.mem) : Good (engineTurn s e ix).mem := by
  unfold engineTurn
  split
  · exact good_copyTurn g
  · exact good_bankTurn g
  · exact good_joinerTurn g
  · split
    · exact g
    · exact g
    · exact good_kilnTurn g
  · exact good_scribeTurn g
  · exact g
theorem good_execEngineCommandComplete (g : Good s.mem) : GoodOut (execEngineCommandComplete s) := by
  unfold execEngineCommandComplete
  split
  · exact good_engineTurn g
  · exact g
theorem good_execWaveEnterLayer (g : Good s.mem) : GoodOut (execWaveEnterLayer s) := by
  unfold execWaveEnterLayer
  split
  · exact good_advanceSeq (good_sweepHolds (good_retryMarks g))
  · exact g
theorem good_execEditDeferredApply (g : Good s.mem) : GoodOut (execEditDeferredApply s) := by
  unfold execEditDeferredApply
  split
  · exact good_deferredTurn g
  · exact g
theorem good_execEditRotationComplete (g : Good s.mem) : GoodOut (execEditRotationComplete s) := by
  simp only [execEditRotationComplete, GoodOut]
  split
  · split
    · split
      · rename_i e
        exact keeps_rotateEdit.ok g e
      · exact good_of_mem keepAsked_mem g
      · exact good_of_mem rotateFailed_mem g
    · exact g
  · exact g
theorem good_execAfterHoldGrant (g : Good s.mem) : GoodOut (execAfterHoldGrant s) := by
  unfold execAfterHoldGrant
  split
  · split
    · exact good_runScribe (fun _ => keeps_grantAfter) g
    · exact g
  · exact g

/-! ### Contexts and the management queue -/

@[simp] theorem updShoring_mem {f : Shoring → Shoring} : (updShoring f s).mem = s.mem := rfl
@[simp] theorem leaveSlot_mem {err : Byte} : (leaveSlot s n err).mem = s.mem := by
  simp only [leaveSlot]
  split <;> simp
@[simp] theorem stage_mem : (Machine.stage c s).mem = s.mem := rfl
theorem good_fwReply {r : Record} (g : Good s.mem) : Good (fwReply s c r).mem := good_ite (good_of_mem (by simp) g) (good_postReply g)
theorem good_mgmtReply {status result : Nat} (g : Good s.mem) : Good (mgmtReply s c status result).mem := good_fwReply g
@[simp] theorem dropFirmware_mem {dn : Nat} : (dropFirmware s dn c).mem = s.mem := rfl
@[simp] theorem pushFirmware_mem {dn : Nat} : (pushFirmware s dn c).mem = s.mem := rfl
theorem good_mgmtTurn {i : Instr} {act : Cmd → State → State → State} (h : ∀ c held s, Good held.mem → Good s.mem → Good (act c held s).mem)
    (g : Good s.mem) : Good (mgmtTurn i act s).mem := by
  unfold mgmtTurn
  split
  · exact g
  · split
    · split
      · exact h _ _ _ g (good_of_mem dropFirmware_mem g)
      · exact g
    · dsimp only
      split
      · have taken : Good (wakeFirmware (leaveSlot (freshReq s).2 0 0) 0).mem := good_of_mem (by simp) g
        split
        · exact h _ _ _ (good_of_mem (by simp) taken) (good_of_mem (by simp) taken)
        · exact h _ _ _ (good_of_mem (by simp) taken) taken
      · exact g
theorem good_mgmtDone {r : Except Nat (Nat × State)} (h : GoodExc NGood Prod.snd r) (g : Good s.mem) : Good (mgmtDone c s r).mem := by
  cases r with
  | ok p => exact good_mgmtReply h
  | error st => exact good_mgmtReply g
theorem good_needCtx {f : BitVec 12 → Ctx → Except Nat (Nat × State)} (h : ∀ n x, GoodExc NGood Prod.snd (f n x)) : GoodExc NGood Prod.snd
    (needCtx c s f) := by
  unfold needCtx
  split
  · exact h _ _
  · trivial
theorem good_ctxnewBody (g : Good s.mem) : GoodExc NGood Prod.snd (ctxnewBody c s) := by
  simp only [ctxnewBody]
  split
  · trivial
  · split
    · trivial
    · split
      · trivial
      · split
        · trivial
        · split
          · trivial
          · exact good_of_mem (by simp) g
theorem good_closeSeq (g : Good s.mem) : GoodOpt id (closeSeq q s) := by
  have closed : Keeps KGood (do endWaits q; endSeq q : KM Unit) := keeps_endWaits.bind fun _ => keeps_endSeq
  unfold closeSeq
  split
  · rename_i e
    exact closed.ok g e
  · trivial
  · exact g
theorem good_closeSeqs {n : BitVec 12} (g : Good s.mem) : GoodOpt id (closeSeqs n k s) := by
  induction k generalizing s with
  | zero => exact g
  | succ k ih =>
    rw [closeSeqs]
    split
    · exact g
    · rename_i q _
      cases e : closeSeq q s with
      | none => trivial
      | some s' => exact ih (GoodOpt.get e (good_closeSeq g))
@[simp] theorem forgetCtx_mem {n : BitVec 12} : (forgetCtx n s).mem = s.mem := rfl
theorem good_finishCtx {n : BitVec 12} (g : Good s.mem) : GoodOpt id (finishCtx n s) := by
  unfold finishCtx
  cases e : closeSeqs n s.work.seqs.length s with
  | none => trivial
  | some s' => exact good_freeReplicas (good_of_mem (by simp) (GoodOpt.get e (good_closeSeqs g)))
@[simp] theorem withdrawCtx_mem {n : BitVec 12} : (withdrawCtx n c s).2.mem = s.mem := by simp [withdrawCtx]
theorem good_ctxendAct (gheld : Good held.mem) (g : Good s.mem) : Good (ctxendAct c held s).mem := by
  simp only [ctxendAct]
  split
  · split
    · exact good_mgmtReply g
    · split
      · exact good_mgmtReply g
      · exact good_of_mem (by simp) g
  · split
    · split
      · rename_i e
        exact good_mgmtReply (GoodOpt.get e (good_finishCtx g))
      · exact gheld
    · exact good_of_mem (by simp) g
theorem good_ctxtrapBody (g : Good s.mem) : GoodExc NGood Prod.snd (ctxtrapBody c s) := by
  simp only [ctxtrapBody]
  refine good_needCtx fun _ _ => ?_
  split
  · exact good_of_mem (by simp) g
  · split
    · trivial
    · split
      · trivial
      · split
        · trivial
        · exact good_of_mem (by simp) g
@[simp] theorem allocRun_mem {n : BitVec 12} {d first count : Nat} : (allocRun s n d first count).mem = s.mem := foldl_mem fun _ _ => setCounter_mem
theorem good_stockallocAct (gheld : Good held.mem) (g : Good s.mem) : Good (stockallocAct c held s).mem := by
  unfold stockallocAct
  dsimp only
  split
  · exact good_mgmtReply g
  · split
    · exact good_mgmtReply g
    · split
      · exact good_of_mem keepAsked_mem gheld
      · exact good_mgmtReply (good_of_mem forgetEngEnds_mem g)
      · rename_i e
        have page := GoodExc.get e (good_engPage g)
        split
        · exact good_mgmtReply g
        · split
          · exact good_mgmtReply g
          · split
            · rename_i e'
              exact good_mgmtReply (good_of_mem allocRun_mem (GoodExc.get e' (good_engPutCap page)))
            · exact good_of_mem keepAsked_mem gheld
            · exact good_mgmtReply g
theorem good_schedBody (g : Good s.mem) : GoodExc NGood Prod.snd (schedBody c s) := by
  unfold schedBody
  refine good_needCtx fun _ _ => ?_
  split
  · trivial
  · exact good_of_mem (by simp) g
theorem good_shootAct (gheld : Good held.mem) (gs : Good s.mem) : Good (shootAct c held s).mem := by
  simp only [shootAct]
  split
  · exact good_mgmtReply gs
  · split
    · exact good_mgmtReply gs
    · exact good_ite gheld (good_of_mem beginShoot_mem (good_ite (good_of_mem (by simp) gs) gs))
theorem good_linkcfgBody (g : Good s.mem) : GoodExc NGood Prod.snd (linkcfgBody c s) := by
  simp only [linkcfgBody]
  split
  · exact g
  · trivial
theorem good_slotvecBody (g : Good s.mem) : GoodExc NGood Prod.snd (slotvecBody c s) := by
  simp only [slotvecBody]
  split
  · exact good_of_mem (by simp) g
  · trivial

/-! ### Images and heartbeats -/

theorem good_reserveWrite {pa : Nat} {b : List Byte} (g : Good s.mem) : Good (reserveWrite s pa b).mem := good_paWriteMem g
@[simp] theorem stopImage_mem {kind : Nat} : (stopImage s kind).mem = s.mem := by
  grind [stopImage, setCore_mem, foldl_mem]
@[simp] theorem startImage_mem {kind : Nat} {x : Image} : (startImage s kind x).mem = s.mem := by
  grind [startImage, setCore_mem, foldl_mem]
@[simp] theorem extendAt_mem {i : Nat} {v : BitVec 256} : (extendAt s i v).mem = s.mem := rfl
theorem good_postFirmwareEvent {status : Byte} {kind : Nat} {a b : BitVec 256} (g : Good s.mem) : Good (postFirmwareEvent s status kind a b).mem :=
  good_mqEvent _ (good_of_mem extendAt_mem (good_foldl (fun _ _ g' => good_foldl (fun _ _ g'' =>
    good_deliver (good_deliver (good_postOwn g''))) g') g))
theorem good_reserveKeys {fails : Bool} (g : Good s.mem) : GoodOpt id (reserveKeys fails s) := by
  simp only [reserveKeys]
  split
  · exact g
  · split
    · exact good_hostWrite _ _ g
    · trivial
theorem keeps_attest {fails : Bool} : Keeps KGood (attest fails c) := by
  unfold attest
  dsimp only
  split
  · exact keeps_kEnd
  · refine .bind (keeps_kFor fun _ => (keeps_kTry fun _ => good_engPage).bind fun _ => .pure) fun _ => .getThen fun s g => keeps_kCheck.bind fun _ =>
      ?_
    split
    · exact keeps_kEnd
    · rename_i e
      have k := GoodOpt.get e (good_reserveKeys g)
      exact .bind (.set k) fun _ => keeps_kTry fun _ g => .unit (good_engWrite g)
theorem good_attestReply {status : Nat} (g : Good s.mem) : Good (attestReply c status s).mem := good_fwReply (good_ite (good_of_mem (by simp) g) g)
theorem good_attestAct {fails : Bool} (gheld : Good held.mem) (g : Good s.mem) : Good (attestAct fails c held s).mem := by
  unfold attestAct
  split
  · rename_i e
    exact good_attestReply (keeps_attest.ok g e)
  · exact good_attestReply (good_of_mem forgetEngEnds_mem g)
  · exact good_of_mem keepAsked_mem gheld
  · exact g
theorem good_attestTurn {fails : Bool} {dn ix : Nat} (g : Good s.mem) : Good (attestTurn fails s dn ix).mem := by
  simp only [attestTurn]
  split
  · exact g
  · split
    · exact good_ite (good_attestAct g (good_of_mem (by simp) g)) g
    · exact g
theorem good_execAttest (g : Good s.mem) : GoodOut (execAttest s) := by
  unfold execAttest
  split
  · exact good_attestTurn g
  · exact good_attestTurn g
  · exact g

/-! ### First touch, replicas, shootdowns -/

@[simp] theorem dropTouch_mem {t : Touch} : (dropTouch s cl t).mem = s.mem := rfl
@[simp] theorem installBoth_mem {e : TlbEntry} : (installBoth s cl k e).mem = s.mem := by
  unfold installBoth
  split <;> simp
theorem good_serveTouch {t : Touch} (g : Good s.mem) : Good (serveTouch s cl t).mem := by
  unfold serveTouch
  split
  · exact good_of_mem (by simp) g
  · split <;> rename_i e <;> have k := of_eq e (good_firstTouch g)
    · exact good_of_mem (by simp) k
    · exact good_of_mem (by simp) k
    · exact good_of_mem (by simp) k
    · exact k
theorem good_refillPool {f : Nat} (g : Good s.mem) : Good (refillPool s f).mem := good_ite (good_poolRefill g) g
@[simp] theorem fillHead_mem {m : Miss} {e : TlbEntry} : (fillHead s cl m e).mem = s.mem := by simp [fillHead]
@[simp] theorem failHead_mem {m : Miss} {how : MissEnd} : (failHead s cl m how).mem = s.mem := by simp [failHead]
theorem good_serveMiss (g : Good s.mem) : Good (serveMiss s cl).mem := by
  unfold serveMiss
  split
  · exact g
  · split
    · exact g
    · split
      · exact good_of_mem (by simp) g
      · split
        · exact g
        · split
          · exact good_of_mem (by simp) g
          · split
            · exact good_of_mem (by simp) g
            · split
              · exact g
              · split
                · split <;> rename_i e <;> have k := of_eq e (good_firstTouch g)
                  · exact good_of_mem (by simp) k
                  · exact good_of_mem (by simp) k
                  · exact k
                  · exact k
                · exact good_of_mem (by simp) g
theorem good_walkerFill {f : Nat} (g : Good s.mem) : Good (walkerFill s cl f).mem := by
  unfold walkerFill
  split
  · exact g
  · split
    · exact g
    · split
      · exact g
      · split
        · have filled := fun d e => good_fillLeaf (d := d) (e := e) (f := f) (good_zeroFrame (f := f) g)
          split <;> rename_i h <;> have k := of_eq (p := fun r : Option TlbEntry × State => Good r.2.mem) h (filled _ _)
          · exact good_of_mem fillHead_mem k
          · exact good_of_mem failHead_mem k
        · exact g
theorem good_execFirstTouchServe (g : Good s.mem) : GoodOut (execFirstTouchServe s) := by
  unfold execFirstTouchServe
  split
  · split
    · exact good_serveTouch g
    · exact g
  · exact good_refillPool g
  · exact good_walkerFill g
  · exact g
theorem good_copyFrame {m : Mem} {src dst : Nat} (g : Good m) : Good (copyFrame m src dst n) := by
  induction n generalizing m src dst with
  | zero => exact g
  | succ n ih => exact ih (good_of_eq (good_mset dst { homeView m src with dirty := true } g) rfl rfl rfl rfl)
theorem good_takeFrame {e : W64} (g : Good s.mem) : GoodFrameEnd (takeFrame s cl e) := by
  unfold takeFrame
  split
  · exact good_poolTake g
  · exact g
theorem good_replicate (g : Good s.mem) : Good (Machine.replicate s cl).mem := by
  have filled : ∀ m e, Good (fillHead s cl m e).mem := fun _ _ => good_of_mem fillHead_mem g
  unfold Machine.replicate
  split
  · exact g
  · split
    · exact g
    · split
      · exact g
      · rename_i e pa _
        have taken : GoodFrameEnd (takeFrame s cl e) := good_takeFrame g
        dsimp only
        split
        · exact g
        · split
          · exact filled _ _
          · split <;> rename_i h <;> rw [h] at taken
            · exact taken
            · exact good_of_mem fillHead_mem taken
            · simp only [fillHead_mem, setWork_mem, setMem_mem]
              exact good_copyFrame taken
theorem good_execDupReadReplicate (g : Good s.mem) : GoodOut (execDupReadReplicate s) := by
  unfold execDupReadReplicate
  split
  · exact good_replicate g
  · exact g
theorem good_collapse (g : Good s.mem) : Good (Machine.collapse s cl).mem := by
  simp only [Machine.collapse]
  split
  · exact g
  · split
    · exact g
    · split
      · exact good_of_mem (by simp) g
      · rw [beginShoot_mem]
        split
        · exact good_ite (good_homeWriteQword (good_of_mem (by simp) g)) (good_of_mem (by simp) g)
        · exact good_of_mem (by simp) g
theorem good_execDupWriteCollapse (g : Good s.mem) : GoodOut (execDupWriteCollapse s) := by
  unfold execDupWriteCollapse
  split
  · exact good_collapse g
  · exact g
@[simp] theorem finishCollapse_mem {d : Shootdown} {t : Touch} : (finishCollapse d t s).mem = s.mem := by
  grind [finishCollapse, installBoth_mem]
theorem good_endShoot {d : Shootdown} (g : Good s.mem) : Good (endShoot d s).mem := by
  unfold endShoot
  split
  · exact good_mgmtReply g
  · exact good_of_mem (by simp) g
  · exact good_of_mem (by simp) g
theorem good_shootdownAt {i : Nat} (g : Good s.mem) : Good (shootdownAt s i).mem := by
  unfold shootdownAt
  split
  · exact g
  · exact good_ite g (good_endShoot (good_freeReplicas (good_ackShoot (good_of_mem (by simp) g))))
theorem good_execShootdownComplete (g : Good s.mem) : GoodOut (execShootdownComplete s) := by
  unfold execShootdownComplete
  split
  · exact good_shootdownAt g
  · exact g

/-! ### Shoring -/

@[simp] theorem setShoring_mem {r : Option Shoring} : (setShoring s r).mem = s.mem := rfl
@[simp] theorem toPhase_mem {r : Shoring} {p : ShorePhase} : (toPhase s r p).mem = s.mem := rfl
theorem good_shoreReply {r : Shoring} {status : Nat} (g : Good s.mem) : Good (shoreReply s r status).mem := good_mqReply g
@[simp] theorem mapPorts_mem {f : Port → Port} : (mapPorts f s).mem = s.mem := rfl
@[simp] theorem pauseRetraining_mem {kind : Nat} : (pauseRetraining kind s).mem = s.mem := by
  unfold pauseRetraining
  split <;> simp
@[simp] theorem resumeRetraining_mem {kind : Nat} : (resumeRetraining kind s).mem = s.mem := by
  unfold resumeRetraining
  split <;> simp
theorem good_endShoring {r : Shoring} {status : Nat} (g : Good s.mem) : Good (endShoring s r status).mem :=
  good_shoreReply (good_of_mem resumeRetraining_mem (good_of_mem setShoring_mem (good_dropSectors (good_zeroMem g))))
theorem good_shoreAct {x : State} (_ : Good x.mem) (gs : Good s.mem) : Good (shoreAct c x s).mem := by
  simp only [shoreAct]
  split
  · exact good_mgmtReply gs
  · exact good_ite (good_mgmtReply gs) (good_ite (good_mgmtReply gs) (good_of_mem (by simp) gs))
theorem good_stageComplete (g : Good s.mem) : Good (stageComplete s).mem := by
  simp only [stageComplete]
  split
  · exact g
  · split
    · exact g
    · split
      · exact good_of_mem pauseRetraining_mem (good_of_mem toPhase_mem (good_reserveWrite g))
      · exact good_endShoring g
theorem good_execShoreStageTimeout (g : Good s.mem) : GoodOut (execShoreStageTimeout s) := by
  unfold execShoreStageTimeout
  split
  · exact good_ite (good_endShoring g) g
  · exact g
theorem good_handover {record : List Byte} (g : Good s.mem) : Good (handover s record).mem := by
  unfold handover
  split
  · exact g
  · exact good_ite g (good_of_mem toPhase_mem (good_of_mem startImage_mem (good_reserveWrite g)))
theorem good_execHandoverRecordWritten (g : Good s.mem) : GoodOut (execHandoverRecordWritten s) := by
  unfold execHandoverRecordWritten
  split
  · exact good_handover g
  · exact g
theorem good_execHandoverTimeout (g : Good s.mem) : GoodOut (execHandoverTimeout s) := by
  unfold execHandoverTimeout
  split
  · exact good_ite (good_endShoring g) g
  · exact g
@[simp] theorem startFallback_mem {r : Shoring} {status : Byte} : (startFallback s r status).mem = s.mem := by simp [startFallback]
@[simp] theorem acceptance_mem : (acceptance s).mem = s.mem := by
  grind [acceptance, startFallback_mem, resumeRetraining_mem, toPhase_mem]
theorem good_execShoreGapLimitExpiry (g : Good s.mem) : GoodOut (execShoreGapLimitExpiry s) := by
  unfold execShoreGapLimitExpiry
  split
  · exact good_ite (good_of_mem (by simp) g) g
  · exact g
theorem good_execWatchdogHeartbeatMiss (g : Good s.mem) : GoodOut (execWatchdogHeartbeatMiss s) := by
  unfold execWatchdogHeartbeatMiss
  split
  · split
    · exact good_of_mem (by simp) g
    · exact g
  · exact g
theorem good_releaseReplies {r : Shoring} (g : Good s.mem) : Good (releaseReplies r s).mem := by
  unfold releaseReplies
  refine good_foldl (fun _ _ g' => ?_) g
  split
  · exact good_postReply g'
  · exact g'
theorem good_commit (g : Good s.mem) : Good (Machine.commit s).mem := by
  unfold Machine.commit
  split
  · exact g
  · split
    · exact g
    · exact good_releaseReplies (good_postFirmwareEvent (good_shoreReply (good_of_mem (by simp) g)))
@[simp] theorem rewatch_mem {kind : Nat} : (rewatch s kind).mem = s.mem := rfl
theorem good_rehandleOne {r : Shoring} (g : Good s.mem) : GoodExc (fun w => Good w.mem) id (rehandleOne r c s) := by
  unfold rehandleOne
  split
  · split
    · exact good_of_mem keepAsked_mem g
    · exact good_attestAct g g
  · split
    · exact good_postReply g
    · exact g
theorem good_rehandle {r : Shoring} {l : List Cmd} (g : Good s.mem) : Good (rehandle r l s).mem := by
  induction l generalizing s with
  | nil => exact good_of_mem setShoring_mem g
  | cons c t ih =>
    have one := good_rehandleOne (r := r) (c := c) g
    rw [rehandle]
    split <;> rename_i e <;> rw [e] at one
    · exact ih one
    · exact good_of_mem setShoring_mem one
theorem good_serveQueued (g : Good s.mem) : Good (serveQueued s cl).mem := good_foldl (fun _ _ => good_serveMiss) g
theorem good_resumeOld {r : Shoring} (g : Good s.mem) : Good (resumeOld s r).mem := by
  unfold resumeOld
  refine good_rehandle ?_
  split
  · exact good_foldl (fun _ _ => good_serveQueued) (good_shoreReply (good_postFirmwareEvent (good_of_mem (by simp) g)))
  · exact good_shoreReply (good_postFirmwareEvent (good_of_mem (by simp) g))
theorem good_fallbackComplete (g : Good s.mem) : Good (fallbackComplete s).mem := by
  unfold fallbackComplete
  split
  · exact g
  · split
    · exact good_resumeOld g
    · exact good_rehandle g
    · exact g
theorem good_execCommittedHeartbeatLoss (g : Good s.mem) : GoodOut (execCommittedHeartbeatLoss s) := by
  unfold execCommittedHeartbeatLoss
  split
  · split
    · exact good_fatalError g
    · exact g
  · exact g

/-! ### Power loss and the start -/

theorem good_blockPut {o : Nat} {b : List Byte} (g : Good s.mem) : Good (blockPut s o b).mem := good_hostWrite _ _ g
theorem good_failStart (g : Good s.mem) : Good (failStart s).mem := good_of_mem raiseState_mem (good_of_mem setState_mem (good_abandon g))
theorem good_clearWork (g : Good s.mem) : Good (clearWork s).mem := by
  rw [clearWork]
  exact good_of_mem (t := setFcode (endSlots (abandon s)) 0) (by simp) (good_abandon g)
theorem good_stepFuse (g : Good s.mem) : Good (stepFuse s).mem := good_of_mem extendAt_mem (good_of_mem extendAt_mem (good_blockPut g))
@[simp] theorem trainChannels_mem {failed : List Nat} : (trainChannels failed s).mem = s.mem := by rw [trainChannels]
theorem good_outsideMem {m : Mem} (g : Good m) : Good (outsideMem m) :=
  good_of_eq (good_filters (fun x => !isDeviceByte x.1) (fun x => !isDeviceByte (x * 32)) (fun x => !isDeviceByte (x * 64)) g) rfl rfl rfl rfl
theorem good_zeroDevice (g : Good s.mem) : Good (zeroDevice s).mem := good_of_eq (good_outsideMem g) rfl rfl rfl rfl
@[simp] theorem dropMarks_mem : (dropMarks s).mem = s.mem := rfl
theorem good_trainPort {trained : List Nat} {p : Nat} (g : Good s.mem) : Good (trainPort trained s p).mem := good_ite g (good_ite (good_blockPut g) g)
theorem good_stepLinks {env : StartEnv} (g : Good s.mem) : Good (stepLinks env s).mem := good_foldl (fun _ _ => good_trainPort) g
@[simp] theorem stepPools_mem : (stepPools s).mem = s.mem := rfl
theorem good_loadImage {kind : Nat} (g : Good s.mem) : Good (loadImage s kind).mem :=
  good_of_mem startImage_mem (good_of_mem extendAt_mem (good_reserveWrite g))
theorem good_stepImages (g : Good s.mem) : Good (stepImages s).mem := by
  unfold stepImages
  refine good_foldl (fun s k g => ?_) g
  exact good_loadImage g
theorem good_startSequence {w : W64} {env : StartEnv} (g : Good s.mem) : Good (startSequence w env s).mem := by
  simp only [startSequence]
  exact good_clearWork g
theorem good_startStep (g : Good s.mem) : Good (startStep s).mem := by
  unfold startStep
  split
  · exact good_ite (good_of_mem setState_mem (good_stepFuse g)) (good_failStart (good_stepFuse g))
  · exact good_ite (good_failStart g) (good_of_mem (by simp) g)
  · exact good_ite (good_failStart (good_of_mem (by simp) g)) (good_of_mem (by simp) g)
  · exact good_of_mem setState_mem (good_zeroDevice g)
  · exact good_stepImages (good_of_mem stepPools_mem (good_stepLinks (good_of_mem (by simp) g)))
  · exact g
theorem good_execHctlStart (g : Good s.mem) : GoodOut (execHctlStart s) := by
  unfold execHctlStart
  split
  · exact good_ite (good_startSequence g) g
  · exact g
theorem good_enterReady (g : Good s.mem) : Good (enterReady s).mem := good_of_mem raiseState_mem (good_of_mem setState_mem (good_blockPut g))
theorem good_negGo (g : Good s.mem) : Good (negGo s).mem := by
  unfold negGo
  split
  · exact g
  · exact good_ite (good_of_mem (by simp) g) (good_ite (good_of_mem (by simp) g) (good_enterReady g))
theorem good_execHctlNegGo (g : Good s.mem) : GoodOut (execHctlNegGo s) := by
  unfold execHctlNegGo
  split
  · exact good_ite g (good_ite (good_negGo g) g)
  · exact g
theorem good_powerLoss (g : Good s.mem) : Good (powerLoss s).mem := good_of_eq (good_l2Empty (good_outsideMem g)) rfl rfl rfl rfl

/-! ### The host's window -/

theorem good_bankFor {n : BitVec 12} {i : Instr} {img : List Byte} {w : BankNeed} (g : Good s.mem) : GoodPosted (bankFor s n i img w) := by
  unfold bankFor
  extract_lets t o a va cur sent c page
  have paged : GoodExc EGood Prod.snd page := by
    refine List.foldlRecOn (motive := GoodExc EGood Prod.snd) _ _ (good_engPage g) fun r k need _ => ?_
    cases r with
    | ok r => exact good_engPage k
    | error e => exact k
  clear_value page
  split
  · split
    · exact paged
    · exact good_engEnd g
    · replace paged := GoodExc.get rfl paged
      split
      · split
        · split
          · rename_i e
            exact GoodOpt.get e (good_pushInbox paged)
          · exact paged
        · exact good_engEnd paged
      · exact good_engEnd paged
  · trivial
theorem good_inboxFor {n : BitVec 12} {gr : Grant} {m : Message} {i : Instr} {place : Nat} (g : Good s.mem) : GoodPosted
    (inboxFor s n gr m i place) := by
  unfold inboxFor
  dsimp only
  split
  · trivial
  · split
    · trivial
    · split
      · rename_i e
        exact GoodOpt.get e (good_pushInbox g)
      · exact g
theorem good_queueFor {n : BitVec 12} {gr : Grant} {m : Message} {img : List Byte} (g : Good s.mem) : GoodPosted (queueFor s n gr m img) := by
  simp only [queueFor]
  split
  · trivial
  · split
    · trivial
    · split
      · rename_i e
        exact GoodOpt.get e (good_putItem g)
      · exact g
theorem good_sendFor {n : BitVec 12} {g0 : Grant} {o : EngOps} {img : List Byte} (g : Good s.mem) : GoodPosted (sendFor s n g0 o img) := by
  simp only [sendFor]
  split
  · trivial
  · split
    · split
      · exact good_queueFor g
      · trivial
    · split
      · split
        · exact good_inboxFor g
        · trivial
      · trivial
theorem good_hostRun {img : List Byte} {i : Instr} {run : State → Host.Outcome State Fault Refusal} (e : hostRun img i = some run) (g : Good s.mem) :
    GoodOut (run s) := by
  have posted : ∀ {hd : Hdr} {i : Instr} {o : EngOps} {kinds : List Nat} {a b : Thread → Except Stop Unit} {dest : Thread → State → EngineId},
      GoodOut (runState hd (engRun i o kinds a b dest) s) := good_runState (fun _ _ => good_engRun) g
  unfold hostRun at e
  split at e <;> cases e <;> exact posted
theorem good_hostIssue {n : BitVec 12} {i : Instr} {img : List Byte} {run : State → Host.Outcome State Fault Refusal}
    (h : ∀ s, Good s.mem → GoodOut (run s)) (g : Good s.mem) : GoodPosted (hostIssue s n i img run) := by
  unfold hostIssue
  dsimp only
  split
  · rename_i s' e
    have k : Good s'.mem := GoodOut.next e (h _ (good_of_mem (setThreadOf_mem ..) g))
    split
    · trivial
    · split <;> exact k
  · trivial
theorem good_deliverHost {n : BitVec 12} {gr : Grant} {img : List Byte} (g : Good s.mem) : GoodPosted (deliverHost s n gr img) := by
  unfold deliverHost
  split
  · trivial
  · split
    · trivial
    · exact good_sendFor g
    · extract_lets caps
      split
      · trivial
      · split
        · trivial
        · split
          · trivial
          · split
            · rename_i e
              exact good_hostIssue (fun _ => good_hostRun e) g
            · exact good_bankFor g
            · trivial
theorem good_tryAccept (g : Good s.mem) : Good (tryAccept s n).mem := by
  simp only [tryAccept]
  split
  · exact good_of_mem (by simp) g
  · split
    · exact good_ite (good_of_mem (by simp) g) (good_ite (good_of_mem (by simp) g) g)
    · split
      · exact good_of_mem (by simp) g
      · split
        · exact good_of_mem (by simp) g
        · split
          · exact good_of_mem (by simp) g
          · rename_i e
            have k := of_eq e (good_deliverHost g)
            exact good_of_mem (by simp) k
          · rename_i e
            have k := of_eq e (good_deliverHost g)
            exact k
theorem good_postSlot {img : List Byte} {seq : BitVec 32} (g : Good s.mem) : Good (postSlot s n img seq).mem :=
  good_ite g (good_tryAccept (good_of_mem (by simp) g))
theorem good_execMessageSlotPost (g : Good s.mem) : GoodOut (execMessageSlotPost s) := by
  unfold execMessageSlotPost
  split
  · exact good_postSlot g
  · exact g
@[simp] theorem writeStatus_mem {w : W64} : (writeStatus s n w).mem = s.mem := by
  grind [writeStatus, setSlot_mem]
theorem good_execMessageSlotClear (g : Good s.mem) : GoodOut (execMessageSlotClear s) := by
  unfold execMessageSlotClear
  split
  · exact good_of_mem (by simp) g
  · exact good_of_mem (by simp) g
  · exact g
theorem good_execSlotMessageAccept (g : Good s.mem) : GoodOut (execSlotMessageAccept s) := by
  unfold execSlotMessageAccept
  split
  · exact good_ite (good_tryAccept g) g
  · exact g
theorem good_writeHead {v : BitVec 32} (g : Good s.mem) : Good (writeHead s v).mem := good_ite g (good_ite (good_mqDrain g) g)
theorem good_execHmqheadWrite (g : Good s.mem) : GoodOut (execHmqheadWrite s) := by
  unfold execHmqheadWrite
  split
  · exact good_writeHead g
  · exact g
theorem good_writeRegister {off : Nat} {v : W128} (g : Good s.mem) : Good (writeRegister s off v).mem := by
  unfold writeRegister
  split
  · exact g
  · split
    · exact g
    · exact g
    · exact good_writeHead g
    · exact g
    · exact g
    · exact g
theorem good_execRegisterWrite (g : Good s.mem) : GoodOut (execRegisterWrite s) := by
  unfold execRegisterWrite
  split
  · exact good_writeRegister g
  · exact g
theorem good_execMsixRateIntervalExpiry (g : Good s.mem) : GoodOut (execMsixRateIntervalExpiry s) := by
  unfold execMsixRateIntervalExpiry
  split
  · exact good_ite (good_of_mem (by simp) g) g
  · exact g
@[simp] theorem unmask_mem {v : Nat} : (unmask s v).mem = s.mem := by
  simp only [unmask]
  split <;> simp
@[simp] theorem writeMask_mem {v : Nat} {on : Bool} : (writeMask s v on).mem = s.mem := by
  grind [writeMask, unmask_mem]
theorem good_execMsixVectorUnmask (g : Good s.mem) : GoodOut (execMsixVectorUnmask s) := by
  unfold execMsixVectorUnmask
  split
  · exact good_of_mem (by simp) g
  · exact good_of_mem (by simp) g
  · exact g
theorem good_outsideWriteF {fuel : Nat} {m : Mem} {l : List (Nat × Byte)} (g : Good m) : Good (outsideWriteF fuel m l) := by
  induction fuel generalizing m l with
  | zero => exact g
  | succ fuel ih =>
    cases l with
    | nil => exact g
    | cons x t => exact ih (good_paWriteMem g)
theorem good_outsideWrite {m : Mem} {l : List (Nat × Byte)} (g : Good m) : Good (outsideWrite m l) := good_outsideWriteF g
@[simp] theorem setReply_mem {r : Option (List Byte)} {poison : Bool} : (setReply s r poison).mem = s.mem := rfl
theorem good_hostLines {on : Bool} {l : List Nat} {m : Mem} (g : Good m) : Good (hostLines on l m) := good_of_eq g rfl rfl rfl rfl
theorem good_cxlAccess {r : CxlReq} (g : Good s.mem) : Good (cxlAccess s r).mem := by
  simp only [cxlAccess]
  split
  · exact good_of_mem (by simp) g
  · split
    · exact good_of_mem (by simp) g
    · split
      · exact good_of_mem setReply_mem (good_hostLines (good_outsideWrite g))
      · split
        · exact good_hostLines (good_of_mem setReply_mem (good_noteReads g))
        · exact good_of_mem setReply_mem (good_noteReads g)
theorem good_execHostCxlMemAccess (g : Good s.mem) : GoodOut (execHostCxlMemAccess s) := by
  unfold execHostCxlMemAccess
  split
  · exact good_cxlAccess g
  · exact g
theorem good_snoop {line : Nat} {inval : Bool} (g : Good s.mem) : Good (Machine.snoop s line inval).mem := by
  unfold Machine.snoop
  split
  · exact good_l2Evict _ g
  · exact good_l2Clean _ g
theorem good_execHostCacheSnoop (g : Good s.mem) : GoodOut (execHostCacheSnoop s) := by
  unfold execHostCacheSnoop
  split
  · exact good_snoop g
  · exact g
end
end Sys2Proof.Proofs.Canonical

/-! ## Every step keeps memory canonical (O6) -/
namespace Sys2Proof.Proofs.Canonical
open Sys2Proof Sys2Proof.Machine Sys2Proof.Laws.State Sys2Proof.Laws.Ops Sys2Proof.Proofs.Device

section
variable {held s : State} {t : Thread} {c : Cmd} {q : Seq} {d : Desc} {w : Who} {hd : Hdr} {ctx : BitVec 12} {k n cl va : Nat}

/-! ### Clocks, links, peers, the scrub -/

theorem good_setClock {d mhz : Nat} (g : Good s.mem) : Good (setClock s d mhz).mem := good_mqEvent _ (good_of_mem (by simp) g)
theorem good_execThermalThrottle (g : Good s.mem) : GoodOut (execThermalThrottle s) := by
  unfold execThermalThrottle
  split
  · exact good_ite (good_setClock g) g
  · exact g
theorem good_execThermalRecover (g : Good s.mem) : GoodOut (execThermalRecover s) := by
  unfold execThermalRecover
  split
  · exact good_ite (good_setClock g) g
  · exact g
theorem good_fatalIf {ok : Bool} {cause d : Nat} {engine : Byte} (g : Good s.mem) : Good (fatalIf s ok cause d engine).mem :=
  good_ite (good_fatalError g) g
theorem good_execThermalFatal (g : Good s.mem) : GoodOut (execThermalFatal s) := by
  unfold execThermalFatal
  split
  · exact good_fatalIf g
  · exact g
theorem good_execDieBridgeLoss (g : Good s.mem) : GoodOut (execDieBridgeLoss s) := by
  unfold execDieBridgeLoss
  split
  · exact good_fatalIf g
  · exact g
theorem good_execStateParityError (g : Good s.mem) : GoodOut (execStateParityError s) := by
  unfold execStateParityError
  split
  · exact good_fatalIf g
  · exact g
@[simp] theorem setPort_mem {p : Nat} {x : Port} : (setPort s p x).mem = s.mem := rfl
@[simp] theorem replay_mem {p : Nat} : (Machine.replay s p n).mem = s.mem := by
  simp only [Machine.replay]
  split <;> simp
theorem good_execLinkReplayRequest (g : Good s.mem) : GoodOut (execLinkReplayRequest s) := by
  unfold execLinkReplayRequest
  split
  · exact good_of_mem (by simp) g
  · exact g
@[simp] theorem startRetrain_mem {p : Nat} {lostLock : Bool} : (startRetrain s p lostLock).mem = s.mem := by
  simp only [startRetrain]
  split <;> simp
theorem good_execLinkRetrainStart (g : Good s.mem) : GoodOut (execLinkRetrainStart s) := by
  unfold execLinkRetrainStart
  split
  · exact good_of_mem (by simp) g
  · exact g
@[simp] theorem retrained_mem {p : Nat} : (retrained s p).mem = s.mem := by
  simp only [retrained]
  split <;> simp
theorem good_execLinkRetrainSuccess (g : Good s.mem) : GoodOut (execLinkRetrainSuccess s) := by
  unfold execLinkRetrainSuccess
  split
  · exact good_of_mem (by simp) g
  · exact g
theorem good_peerPut {m : Mem} {sec : Nat} {x : L2Sector} (g : Good m) : Good (peerPut m sec x) := by
  refine good_of_eq (good_l2Drop sec (good_hbmWrite sec x g)) ?_ ?_ ?_ ?_ <;> simp only [peerPut, l2Drop, hbmWrite_l2]
theorem good_unsend {f : Flit} (g : Good s.mem) : Good (unsend s f).mem := good_peerPut g
theorem good_landOrNot {f : Flit} (g : Good s.mem) : Good (landOrNot s f).mem := by
  rcases Links.landOrNot_mem s f with e | e
  · exact good_of_mem e g
  · exact e ▸ good_homeMergeW _ _ _ _ _ _ g
theorem good_discardFlits {l : List Flit} (g : Good s.mem) : Good (discardFlits s l).mem :=
  good_foldl (fun _ _ => good_landOrNot) (good_foldl (fun _ _ => good_unsend) g)
theorem good_loseAtomic {p : Nat} (g : Good s.mem) : Good (loseAtomic p s k).mem := by
  unfold loseAtomic
  split
  · split
    · split
      · exact good_landOrNot (good_of_mem (setThreadOf_mem ..) g)
      · exact g
    · exact g
  · exact g
theorem good_portDown {p : Nat} (g : Good s.mem) : Good (portDown s p).mem := good_of_mem setPort_mem (good_discardFlits g)
theorem good_execLinkRetrainLimitExpiry (g : Good s.mem) : GoodOut (execLinkRetrainLimitExpiry s) := by
  unfold execLinkRetrainLimitExpiry
  split
  · exact good_ite (good_portDown g) g
  · exact g
@[simp] theorem setPeer_mem {p : Nat} {x : Peer} : (setPeer s p x).mem = s.mem := rfl
theorem good_dropFlits {p : Nat} (g : Good s.mem) : Good (dropFlits s p).mem := by
  unfold dropFlits
  split
  · exact good_of_mem setPort_mem (good_discardFlits g)
  · exact g
theorem good_dropPeer {p : Nat} (g : Good s.mem) : Good (dropPeer s p).mem := by
  have lost : Good ((s.cores.map (·.1)).foldl (loseAtomic p) (dropFlits s p)).mem := good_foldl (fun _ _ => good_loseAtomic) (good_dropFlits g)
  rw [dropPeer]
  exact good_freeReplicas (good_l2Filter (fun n => peerOf n != p) lost)
theorem good_postLoss {p : Nat} (g : Good s.mem) : Good (postLoss s p).mem :=
  good_mqEvent _ (good_foldl (fun _ _ g' => good_foldl (fun _ _ => good_postOwn) g') g)
theorem good_losePeer {p epoch : Nat} (g : Good s.mem) : Good (losePeer s p epoch).mem := good_postLoss (good_dropPeer (good_of_mem (by simp) g))
theorem good_execPeerLost (g : Good s.mem) : GoodOut (execPeerLost s) := by
  unfold execPeerLost
  split
  · split
    · exact good_ite (good_losePeer g) g
    · exact g
  · split
    · exact good_ite (good_losePeer g) g
    · exact g
  · exact g
@[simp] theorem forgetLost_mem : (forgetLost s).mem = s.mem := rfl
theorem good_execPeerReachable (g : Good s.mem) : GoodOut (execPeerReachable s) := by
  unfold execPeerReachable
  split
  · split
    · exact good_ite (good_of_mem (by simp) g) g
    · exact g
  · exact g
@[simp] theorem setPeerReply_mem {b : List Byte} {poison : Bool} : (setPeerReply s b poison).mem = s.mem := rfl
theorem good_peerAccess {r : PeerReq} (g : Good s.mem) : Good (peerAccess s r).mem := by
  unfold peerAccess
  split
  · exact good_ite g (good_of_mem setPeerReply_mem (good_noteReads g))
  · exact good_ite g (good_of_mem setPeerReply_mem (good_paWriteMem g))
  · exact good_ite g (good_of_mem setPeerReply_mem (good_paWriteMem (good_noteReads g)))
theorem good_execPeerRequestArrival (g : Good s.mem) : GoodOut (execPeerRequestArrival s) := by
  unfold execPeerRequestArrival
  split
  · exact good_ite (good_peerAccess g) g
  · exact g
theorem good_corrupt {sec : Nat} (g : Good s.mem) : Good (Machine.corrupt s sec).mem := good_hbmWrite _ _ g
theorem good_scrubOne {f : ScrubFind} (g : Good s.mem) : Good (scrubOne s f).mem := by
  have poisoned : ∀ sec, Good { ripen s.mem sec with poison := sput (ripen s.mem sec).poison sec, streamed := mdel (ripen s.mem sec).streamed sec } :=
    fun sec => good_of_eq (good_poisonTo (sec := sec) (on := true) (good_ripen sec g)) rfl rfl rfl rfl
  unfold scrubOne
  dsimp only
  split
  · exact g
  · split
    · exact good_of_mem freeBelow_mem g
    · refine good_noteCorrected ?_
      split
      · exact good_corrupt (good_of_mem freeBelow_mem g)
      · exact good_of_mem freeBelow_mem g
    · exact good_noteRead _ (poisoned _)
    · exact good_corrupt (good_of_mem freeBelow_mem g)
theorem good_execHbmScrub (g : Good s.mem) : GoodOut (execHbmScrub s) := by
  unfold execHbmScrub
  split
  · exact good_foldl (fun _ _ => good_scrubOne) g
  · exact g

/-! ### The wide unit -/

theorem good_wideIssue {i : Instr} (g : Good s.mem) : GoodOut (wideIssue hd i s) := by
  unfold wideIssue
  split
  · exact good_runState (fun _ _ => good_onThread) g
  · exact g
theorem keeps_wideVals {a : WideArg} {i : Nat} : Keeps AGood (wideVals w a i n) := by
  unfold wideVals
  split
  · exact .pure
  · exact .pure
  · exact keeps_aElems
theorem keeps_storeD {o : WideOp} {vs : List Nat} : Keeps AGood (storeD w o vs) := by
  unfold storeD
  split
  · exact keeps_aElemsStore
  · exact .pure
theorem keeps_aUntilTrap {α : Type} {f : Nat → AM α} {l : List Nat} (h : ∀ i, Keeps AGood (f i)) : Keeps AGood (aUntilTrap f l) := by
  induction l with
  | nil => exact .pure
  | cons i t ih =>
    refine ⟨fun s g => ?_⟩
    rw [aUntilTrap]
    dsimp only
    split
    · rename_i e
      exact (ih.bind fun _ => .pure).ends _ ((h i).ok g e)
    · rename_i e
      exact (h i).error g e
    · rename_i e
      exact (h i).error g e
theorem keeps_trapAfter {e : Option (BitVec 8 × W64)} : Keeps AGood (trapAfter e) := by
  unfold trapAfter
  split
  · exact keeps_aTrap
  · exact .pure
theorem keeps_gatherStep {o : WideOp} {f : FpOps} : Keeps AGood (gatherStep w o f k) := by
  unfold gatherStep
  refine .bind ?_ fun ⟨_, _⟩ => keeps_storeD.bind fun _ => keeps_trapAfter.bind fun _ => .pure
  refine keeps_aUntilTrap fun _ => keeps_wideVals.bind fun _ => keeps_aLift.bind fun _ => keeps_aLoad.bind fun _ => ?_
  split
  · exact keeps_aElemReady.bind fun _ => .pure
  · exact .pure
theorem keeps_scatterStep {o : WideOp} {f : FpOps} : Keeps AGood (scatterStep w o f k) :=
  (keeps_aUntilTrap fun _ => keeps_wideVals.bind fun _ => keeps_aLift.bind fun _ => keeps_wideVals.bind fun _ => keeps_aReady.bind fun _ =>
    .pure).bind fun ⟨_, _⟩ => (keeps_aFor fun _ => keeps_aStore).bind fun _ => keeps_trapAfter.bind fun _ => .pure
theorem keeps_quantStep {o : WideOp} {f : FpOps} : Keeps AGood (quantStep w o f k) := by
  unfold quantStep
  refine keeps_wideVals.bind fun _ => ?_
  split
  · exact (keeps_aFor fun _ => keeps_aElemReady).bind fun _ => (keeps_aFor fun _ => keeps_aElemReady).bind fun _ => (keeps_aFor fun _ =>
    keeps_aElemsStore.bind fun _ => keeps_aElemsStore).bind fun _ => .pure
  · exact .pure
theorem keeps_reduceStep {o : WideOp} {f : FpOps} : Keeps AGood (reduceStep w o f k) :=
  keeps_wideVals.bind fun _ => keeps_wideVals.bind fun _ => .pure
theorem keeps_ropeStep {o : WideOp} {f : FpOps} : Keeps AGood (ropeStep w o f k) := keeps_wideVals.bind fun _ => keeps_storeD.bind fun _ => .pure
theorem keeps_lseStep {o : WideOp} {f : FpOps} : Keeps AGood (lseStep w o f k) :=
  keeps_wideVals.bind fun _ => keeps_wideVals.bind fun _ => keeps_storeD.bind fun _ => .pure
theorem keeps_elemStep {o : WideOp} {f : FpOps} : Keeps AGood (elemStep w o f k) :=
  keeps_wideVals.bind fun _ => keeps_wideVals.bind fun _ => keeps_wideVals.bind fun _ => keeps_storeD.bind fun _ => .pure
theorem keeps_wideStep {o : WideOp} : Keeps AGood (wideStep w o) := by
  unfold wideStep
  split
  · exact .pure
  · split
    · exact keeps_gatherStep
    · exact keeps_scatterStep
    · exact keeps_quantStep
    · exact .ite .pure keeps_reduceStep
    · exact .ite .pure keeps_reduceStep
    · exact .ite .pure keeps_reduceStep
    · exact .ite .pure keeps_reduceStep
    · exact keeps_ropeStep
    · exact keeps_lseStep
    · exact keeps_elemStep
@[simp] theorem dropWide_mem : (dropWide s k).mem = s.mem := by
  unfold dropWide
  split <;> simp
theorem good_stepThread {o : WideOp} (g : Good s.mem) : Good (stepThread s k t o).mem := by
  unfold stepThread
  split
  · rename_i e
    exact keeps_wideStep.error g e
  · rename_i e
    have stopped := keeps_wideStep.error g e
    exact good_takeTrap (good_of_mem dropWide_mem stopped)
  · rename_i e
    have k := keeps_wideStep.ok g e
    split
    · exact k
    · split <;> exact good_of_mem (by simp) k
theorem good_stepOrphan {o : WideOp} (g : Good s.mem) : Good (stepOrphan s k ctx o).mem := by
  unfold stepOrphan
  dsimp only
  split
  · rename_i e
    exact keeps_wideStep.error g e
  · rename_i e
    have stopped := keeps_wideStep.error g e
    exact good_of_mem (setCore_mem ..) stopped
  · rename_i e
    have k := keeps_wideStep.ok g e
    split <;> exact good_of_mem (setCore_mem ..) k
theorem good_stepCoreWide (g : Good s.mem) : Good (stepCoreWide s k).mem := by
  unfold stepCoreWide
  split
  · exact good_stepOrphan g
  · split
    · split
      · exact good_stepThread g
      · exact g
    · exact g
theorem good_stepRow {row : Nat} (g : Good s.mem) : Good (stepRow s row).mem := by
  simp only [stepRow]
  split
  · exact good_stepCoreWide g
  · exact g
theorem good_execWideUnitStep (g : Good s.mem) : GoodOut (execWideUnitStep s) := by
  unfold execWideUnitStep
  split
  · exact good_stepRow g
  · exact g

/-! ### Every instruction and event -/

/-- One arm per instruction and event: what it ends in has a canonical memory when the state before has. -/
theorem good_exec (i : Instr) (g : Good s.mem) : GoodOut (exec i s) :=
  match i with
  | .nop _ => good_runState (fun _ _ g' => g') g
  | .br _ _ => good_execBr g
  | .brx _ _ | .callx _ _ | .ret _ _ => good_runState (fun _ _ => good_branchReg) g
  | .call _ _ => good_execCall g
  | .loop _ _ => good_execLoop g
  | .finCommit _ | .finAgain _ | .finAbort _ => good_runState (fun _ _ => good_finRes) g
  | .yield _ => good_runState (fun _ _ => good_yieldRes) g
  | .trap _ _ => good_execTrap g
  | .sig _ _ => good_execSig g
  | .add _ _ | .sub _ _ | .mul _ _ | .mulh _ _ | .mulhn _ _ | .div _ _ | .divn _ _ | .rem _ _ | .remn _ _ | .and _ _ | .or _ _ | .xor _ _
  | .andn _ _ | .shl _ _ | .shr _ _ | .sra _ _ | .rotr _ _ | .min _ _ | .max _ _ | .minn _ _ | .maxn _ _ | .abs _ _ | .neg _ _ | .clz _ _ | .ctz _ _
  | .popc _ _ | .brev _ _ | .bswp _ _ | .extr _ _ | .extrn _ _ | .ins _ _ | .sel _ _ | .mov _ _ | .movi _ _ | .moviHigh _ _ | .cmp _ _ | .pand _ _
  | .por _ _ | .pxor _ _ | .pnot _ _ | .rngx _ _ | .csetb _ _ | .csetp _ _ | .cadd _ _ | .cgetb _ _ | .cgetl _ _ | .cgetp _ _ | .cgett _ _
  | .cclr _ _ | .cseal _ _ | .cunseal _ _ | .fadd _ _ | .fsub _ _ | .fmul _ _ | .fma _ _ | .fms _ _ | .fnma _ _ | .fnms _ _ | .fdiv _ _ | .fsqrt _ _
  | .frsqe _ _ | .frcpe _ _ | .fmin _ _ | .fmax _ _ | .fabs _ _ | .fneg _ _ | .fcpsgn _ _ | .fcmp _ _ | .fclass _ _ | .fcvt _ _ | .fscalb _ _
  | .fexpo _ _ | .mzero _ _ | .mcopy _ _ => good_runThread g
  | .ld _ _ => good_runM (fun _ _ => keeps_ldAM) g
  | .ldc _ _ => good_runM (fun _ _ => keeps_ldcAM) g
  | .st _ _ => good_runM (fun _ _ => keeps_stAM) g
  | .stc _ _ => good_runM (fun _ _ => keeps_stcAM) g
  | .lda _ _ => good_runM (fun _ _ => keeps_ldaAM) g
  | .str _ _ => good_runM (fun _ _ => keeps_strAM) g
  | .pref _ _ => good_runM (fun _ _ => keeps_prefAM) g
  | .sdef _ _ => good_runM (fun _ _ => keeps_sdefAM) g
  | .sdefw _ _ => good_runM (fun _ _ => keeps_sdefwAM) g
  | .sdefk _ _ => good_runM (fun _ _ => keeps_sdefkAM) g
  | .sdefs _ _ => good_runM (fun _ _ => keeps_sdefsAM) g
  | .sld _ _ => good_runM (fun _ _ => keeps_sldAM) g
  | .sst _ _ => good_runM (fun _ _ => keeps_sstAM) g
  | .srd _ _ => good_runM (fun _ _ => keeps_srdAM) g
  | .fence _ _ => good_runM (fun _ _ => keeps_fenceAM) g
  | .clean _ _ | .inval _ _ | .flush _ _ => good_runM (fun _ _ => keeps_maintAM) g
  | .spalloc _ _ => good_runM (fun _ _ => keeps_spallocAM) g
  | .spfree _ _ => good_runM (fun _ _ => keeps_spfreeAM) g
  | .aadd _ _ | .aand _ _ | .aor _ _ | .axor _ _ | .amin _ _ | .amax _ _ | .aminn _ _ | .amaxn _ _ | .aswap _ _ | .acas _ _ | .afadd _ _ =>
     good_runM (fun _ _ => keeps_atomAM) g
  | .radd _ _ => good_runM (fun _ _ => keeps_raddAM) g
  | .rclr _ _ => good_runM (fun _ _ => keeps_rclrAM) g
  | .stkinit _ _ => good_runState (fun _ _ => good_stkinitRes) g
  | .stktake _ _ => good_runState (fun _ _ => good_stktakeRes) g
  | .stkgive _ _ => good_runState (fun _ _ => good_stkgiveRes) g
  | .stkreadApprox _ _ | .stkreadExact _ _ => good_runState (fun _ _ => good_stkreadRes) g
  | .phreg _ _ => good_runState (fun _ _ g' => good_phRun (fun _ _ _ _ => good_phregRes) g') g
  | .phdrop _ _ => good_runState (fun _ _ g' => good_phRun (fun _ _ _ _ => good_phdropRes) g') g
  | .phsig _ _ | .phgather _ _ => good_runState (fun _ _ g' => good_phRun (fun _ _ _ _ => good_phsigRes) g') g
  | .phwait _ _ => good_runState (fun _ _ g' => good_phRunB (fun _ _ => good_blockSafe) (fun _ _ _ _ => good_phwaitRes) g') g
  | .phsw _ _ => good_runState (fun _ _ g' => good_phRunB (fun _ _ => good_blockSafe) (fun _ _ _ _ => good_phswRes) g') g
  | .phexp _ _ => good_runState (fun _ _ g' => good_phRun (fun _ _ _ _ => good_phexpRes) g') g
  | .evwait _ _ => good_runState (fun _ _ g' => good_evRun (fun _ _ _ => good_evwaitRes) g') g
  | .evpop _ _ => good_runState (fun _ _ g' => good_evRun (fun _ _ _ => good_evpopRes) g') g
  | .evpeek _ _ => good_runState (fun _ _ g' => good_evRun (fun _ _ _ => good_evpeekRes) g') g
  | .send _ _ => good_execSend g
  | .withdraw _ _ | .cpy _ _ | .cpy2d _ _ | .cprot _ _ | .cpfill _ _ | .raise _ _ | .rebind _ _ => good_runState (fun _ _ => good_engRun) g
  | .qpeek _ _ => good_runState (fun _ _ => good_qpeekRes) g
  | .qcnt _ _ => good_runState (fun _ _ => good_qcntRes) g
  | .vadd h o => good_wideIssue (i := .vadd h o) g
  | .vsub h o => good_wideIssue (i := .vsub h o) g
  | .vmul h o => good_wideIssue (i := .vmul h o) g
  | .vfma h o => good_wideIssue (i := .vfma h o) g
  | .vmax h o => good_wideIssue (i := .vmax h o) g
  | .vmin h o => good_wideIssue (i := .vmin h o) g
  | .vabs h o => good_wideIssue (i := .vabs h o) g
  | .vexp2 h o => good_wideIssue (i := .vexp2 h o) g
  | .vrsqe h o => good_wideIssue (i := .vrsqe h o) g
  | .vrcpe h o => good_wideIssue (i := .vrcpe h o) g
  | .vcmp h o => good_wideIssue (i := .vcmp h o) g
  | .vsel h o => good_wideIssue (i := .vsel h o) g
  | .vfill h o => good_wideIssue (i := .vfill h o) g
  | .vcopy h o => good_wideIssue (i := .vcopy h o) g
  | .vgather h o => good_wideIssue (i := .vgather h o) g
  | .vscatter h o => good_wideIssue (i := .vscatter h o) g
  | .vcvt h o => good_wideIssue (i := .vcvt h o) g
  | .vqnt h o => good_wideIssue (i := .vqnt h o) g
  | .vamax h o => good_wideIssue (i := .vamax h o) g
  | .vsum h o => good_wideIssue (i := .vsum h o) g
  | .vdot h o => good_wideIssue (i := .vdot h o) g
  | .vdelta h o => good_wideIssue (i := .vdelta h o) g
  | .vrope h o => good_wideIssue (i := .vrope h o) g
  | .vlse h o => good_wideIssue (i := .vlse h o) g
  | .mgang _ _ => good_runState (fun _ _ g' => good_gangIssue (fun _ _ => keeps_mgangEff) g') g
  | .mmul _ _ => good_execMmul g
  | .mgrp _ _ => good_execMgrp g
  | .mld _ _ => good_runState (fun _ _ => good_mldRes) g
  | .mst _ _ => good_runState (fun _ _ => good_mstRes) g
  | .mdrain _ _ => good_execMdrain g
  | .mdrainAdd _ _ | .mdrainAddOrd _ _ => good_runState (fun _ _ => good_drainAddRes) g
  | .mstat _ _ => good_runState (fun _ _ => good_mstatRes) g
  | .bkadd _ _ | .bkaxpy _ _ | .bkgemv _ _ | .bkzero _ _ => good_bankRun g
  | .kvapp _ _ | .kvseal _ _ | .kvpatch _ _ | .kvfork _ _ | .kvtrunc _ _ | .kvstat _ _ | .kvjopen _ _ | .kvjmark _ _ | .kvjundo _ _
  | .kvjclose _ _ => good_kilnIssue g
  | .edins _ _ | .eddel _ _ | .edrep _ _ | .settle _ _ | .wmark _ _ => good_scribeIssue g
  | .wholdWithin _ _ | .wholdBefore _ _ | .wholdAfter _ _ => good_runState (fun _ _ => good_wholdRes) g
  | .wfree _ _ => good_runState (fun _ _ => good_wfreeRes) g
  | .wdone _ _ => good_runState (fun _ _ => good_wdoneRes) g
  | .wcell _ _ => good_runState (fun _ _ => good_wcellRes) g
  | .ctlrd _ _ => good_runAgent (fun _ _ => good_ctlrdRes) g
  | .ctlwr _ _ => good_runAgent (fun _ _ => good_onThread) g
  | .tlbwr _ _ | .tlbwrFill _ _ | .tlbwrFault _ _ | .tlbwrPeer _ _ => good_runAgent (fun _ _ => good_tlbwrRes) g
  | .tlbinv _ _ => good_runAgent (fun _ _ => good_tlbinvRes) g
  | .tlbprobe _ _ => good_runAgent (fun _ _ => good_tlbprobeRes) g
  | .cflush _ _ => good_runAgent (fun _ _ => good_cflushRes) g
  | .rett _ => good_runAgent (fun _ _ => good_rettRes) g
  | .hbeat _ _ => good_runAgent (fun _ _ => good_hbeatRes) g
  | .idle _ _ => good_runAgent (fun _ _ => good_idleRes) g
  | .powerLoss => good_powerLoss g
  | .hctlStart => good_execHctlStart g
  | .imageFirstHeartbeatTimeout => good_ite (good_failStart g) g
  | .hctlNegGo => good_execHctlNegGo g
  | .hmqheadWrite => good_execHmqheadWrite g
  | .registerWrite => good_execRegisterWrite g
  | .messageSlotPost => good_execMessageSlotPost g
  | .messageSlotClear => good_execMessageSlotClear g
  | .slotMessageAccept => good_execSlotMessageAccept g
  | .msixRateIntervalExpiry => good_execMsixRateIntervalExpiry g
  | .hostCxlMemAccess => good_execHostCxlMemAccess g
  | .ctxnew => good_mgmtTurn (fun _ _ _ _ g => good_mgmtDone (good_ctxnewBody g) g) g
  | .ctxend => good_mgmtTurn (fun _ _ _ => good_ctxendAct) g
  | .ctxtrap => good_mgmtTurn (fun _ _ _ _ g => good_mgmtDone (good_ctxtrapBody g) g) g
  | .stockalloc => good_mgmtTurn (fun _ _ _ => good_stockallocAct) g
  | .shore => good_mgmtTurn (fun _ _ _ => good_shoreAct) g
  | .shoot => good_mgmtTurn (fun _ _ _ => good_shootAct) g
  | .shootdownComplete => good_execShootdownComplete g
  | .sched => good_mgmtTurn (fun _ _ _ _ g => good_mgmtDone (good_schedBody g) g) g
  | .linkcfg => good_mgmtTurn (fun _ _ _ _ g => good_mgmtDone (good_linkcfgBody g) g) g
  | .slotvec => good_mgmtTurn (fun _ _ _ _ g => good_mgmtDone (good_slotvecBody g) g) g
  | .attest => good_execAttest g
  | .seqopen => good_execSeqopen g
  | .seqclose => good_execSeqclose g
  | .verdict => good_execVerdict g
  | .thermalThrottle => good_execThermalThrottle g
  | .thermalRecover => good_execThermalRecover g
  | .thermalFatal => good_execThermalFatal g
  | .dieBridgeLoss => good_execDieBridgeLoss g
  | .linkReplayRequest => good_execLinkReplayRequest g
  | .linkRetrainStart => good_execLinkRetrainStart g
  | .linkRetrainSuccess => good_execLinkRetrainSuccess g
  | .linkRetrainLimitExpiry => good_execLinkRetrainLimitExpiry g
  | .peerLost => good_execPeerLost g
  | .peerReachable => good_execPeerReachable g
  | .hbmScrub => good_execHbmScrub g
  | .shoreStageComplete => good_stageComplete g
  | .shoreStageTimeout => good_execShoreStageTimeout g
  | .handoverRecordWritten => good_execHandoverRecordWritten g
  | .handoverTimeout => good_execHandoverTimeout g
  | .shoreAcceptance => good_of_mem (by simp) g
  | .shoreGapLimitExpiry => good_execShoreGapLimitExpiry g
  | .watchdogHeartbeatMiss => good_execWatchdogHeartbeatMiss g
  | .shoreCommit => good_commit g
  | .committedHeartbeatLoss => good_execCommittedHeartbeatLoss g
  | .firstTouchServe => good_execFirstTouchServe g
  | .dupReadReplicate => good_execDupReadReplicate g
  | .dupWriteCollapse => good_execDupWriteCollapse g
  | .stockHomeServe => good_execStockHomeServe g
  | .stockRecallOrder => good_execStockRecallOrder g
  | .stockReturnArrival => good_execStockReturnArrival g
  | .stockReclaimProbe => good_execStockReclaimProbe g
  | .phaserCompletionArrival => good_execPhaserCompletionArrival g
  | .heldRecordDelivery => good_execHeldRecordDelivery g
  | .firingStart => good_execFiringStart g
  | .firingResume => good_execFiringResume g
  | .preemptAtSafePoint => good_execPreemptAtSafePoint g
  | .quotaAdjust => good_execQuotaAdjust g
  | .overdueRotation => good_execOverdueRotation g
  | .budgetPeriodStart => good_execBudgetPeriodStart g
  | .cycleBudgetSpent => good_execCycleBudgetSpent g
  | .byteBudgetSpent => good_execByteBudgetSpent g
  | .overrunExpiry => good_execOverrunExpiry g
  | .frameEnd => good_execFrameEnd g
  | .drainApply => good_serveDrain g
  | .waveEnterLayer => good_execWaveEnterLayer g
  | .editDeferredApply => good_execEditDeferredApply g
  | .editRotationComplete => good_execEditRotationComplete g
  | .afterHoldGrant => good_execAfterHoldGrant g
  | .engineCommandComplete => good_execEngineCommandComplete g
  | .wideUnitStep => good_execWideUnitStep g
  | .ageingIntervalExpiry => good_execAgeingIntervalExpiry g
  | .idleTimeoutExpiry => good_execIdleTimeoutExpiry g
  | .msixVectorUnmask => good_execMsixVectorUnmask g
  | .peerRequestArrival => good_execPeerRequestArrival g
  | .hostCacheSnoop => good_execHostCacheSnoop g
  | .stateParityError => good_execStateParityError g
  | .shoreFallbackComplete => good_fallbackComplete g

/-! ### Turns -/

@[simp] theorem chargeCore_mem {ns : Nat} {x : Nat × CoreSt} : (chargeCore ns s x).mem = s.mem := by
  grind [chargeCore, updCtx_mem]
@[simp] theorem advanceTime_mem {ns : Nat} : (advanceTime ns s).mem = s.mem := by simp [advanceTime]
@[simp] theorem oldestCore_mem : (oldestCore s k).mem = s.mem := rfl
@[simp] theorem oldestCluster_mem : (oldestCluster s cl).mem = s.mem := rfl
theorem good_evictL1 {sec : Nat} (g : Good s.mem) : Good (evictL1 s k sec).mem := good_of_mem (l1Drop_mem ..) (good_writeBack _ _ g)
theorem good_accessReady (g : Good s.mem) : GoodReady (accessReady s k) := by
  unfold accessReady
  split
  · split
    · exact good_resumeFin g
    · exact good_accessTurn g
  · exact g
theorem good_misreadTurn {exe : Bool} {used : IWord} (g : Good s.mem) : GoodReady (misreadTurn s k exe used) := by
  have turn : GoodReady (if exe then executeTurn s k else accessReady s k) := by
    split
    · exact good_executeTurn g
    · exact good_accessReady g
  unfold misreadTurn
  split <;> rename_i e <;> rw [e] at turn
  · split
    · split
      · exact turn
      · exact good_takeTrap turn
    · exact turn
  · exact turn
theorem good_turnReady {t : Turn} (g : Good s.mem) : GoodReady (turnReady t s) := by
  cases t with
  | event i a => exact g
  | access k => exact good_accessReady g
  | execute k => exact good_executeTurn g
  | advance ns => exact good_of_mem advanceTime_mem g
  | evictL1 k sec => exact good_evictL1 g
  | evictL2 sec => exact good_l2Evict sec g
  | dropTlb k => exact good_of_mem oldestCore_mem g
  | dropCluster cl => exact good_of_mem oldestCluster_mem g
  | serve cl => exact good_serveMiss g
  | start => exact good_startStep g
  | misread k exe used => exact good_misreadTurn g
theorem good_nextReady (g : Good s.mem) : GoodReady (nextReady s) := by
  have counted : Good (countBad s).mem := good_countBad g
  unfold nextReady
  dsimp only
  split
  · exact good_fatalError counted
  · split
    · exact good_turnReady counted
    · split
      · exact good_turnReady counted
      · exact counted

/-! ### The step -/

theorem good_step (g : Good s.mem) : GoodOut (step s) := by
  have ready := good_nextReady g
  unfold step
  split <;> rename_i e <;> rw [e] at ready
  · exact good_exec _ ready
  · exact ready
end
/-- Settles O6: a turn keeps the canonical form (`good_nextReady`), and so does the instruction or event it comes to (`good_exec`). -/
theorem stepKeepsMemory : Obligations.StepKeepsMemory := by
  intro s s' h e
  exact GoodOut.next e (good_step h)
end Sys2Proof.Proofs.Canonical
